-- ==== Sys2Proof/Word.lean ====
section
/-! DEFINITION. The word types, lane masks, and the two plain-data containers every part of the state uses:
`SMap`, a sparse map in one canonical form, and `Tbl`, a table of records. -/

namespace Sys2Proof

abbrev Byte := BitVec 8
abbrev Word := BitVec 32
abbrev Word64 := BitVec 64

/-- A set of the 32 lanes of a wave, bit l for lane l (R6, R91). -/
abbrev Lanes := BitVec 32

/-- One 32-bit value per lane, lane 0 first. -/
abbrev Row := List Word

/-- The lane indices 0 to 31. -/
def laneIds : List Nat := List.range 32

/-- The members of a lane set in ascending order. -/
def Lanes.toList (m : Lanes) : List Nat := laneIds.filter (fun l => m.getLsbD l)

/-- The lane set of the lanes that satisfy a test. -/
def Lanes.ofTest (f : Nat → Bool) : Lanes :=
  laneIds.foldl (fun m l => if f l then m ||| (1#32 <<< l) else m) 0#32

/-- The lowest member of a lane set, 32 when it is empty. -/
def Lanes.lowest (m : Lanes) : Nat := (m.toList.head?).getD 32

def Lanes.count (m : Lanes) : Nat := m.toList.length

/-- A sparse map in canonical form: keys strictly rising, no entry equal to the default `d` that an
unlisted key reads as. -/
abbrev SMap (α : Type) := List (Nat × α)

namespace SMap
variable {α : Type}

/-- Read a key; an unlisted key reads as `d`. -/
def get (d : α) : SMap α → Nat → α
  | [], _ => d
  | (k, v) :: t, n => if n = k then v else get d t n

/-- Remove a key. -/
def erase : SMap α → Nat → SMap α
  | [], _ => []
  | (k, v) :: t, n => if n = k then erase t n else (k, v) :: erase t n

/-- Insert or replace a key, whatever the value. -/
def insert : SMap α → Nat → α → SMap α
  | [], n, x => [(n, x)]
  | (k, v) :: t, n, x =>
    if n = k then (n, x) :: t else if n < k then (n, x) :: (k, v) :: t else (k, v) :: insert t n x

/-- Write a key, keeping the canonical form: writing the default removes the entry. -/
def set [DecidableEq α] (d : α) (m : SMap α) (n : Nat) (x : α) : SMap α :=
  if x = d then erase m n else insert m n x

/-- Every key of the map is above `b`, and keys rise strictly. -/
def rising (b : Nat) : SMap α → Bool
  | [] => true
  | (k, _) :: t => decide (b ≤ k) && rising (k + 1) t

/-- The canonical form. -/
def wf [DecidableEq α] (d : α) (m : SMap α) : Bool :=
  rising 0 m && m.all (fun e => decide (e.2 ≠ d))

end SMap

/-- A table of records by number; an absent number has no record. Keys rise strictly. -/
abbrev Tbl (α : Type) := List (Nat × α)

namespace Tbl
variable {α : Type}

def get? : Tbl α → Nat → Option α
  | [], _ => none
  | (k, v) :: t, n => if n = k then some v else get? t n

def put (m : Tbl α) (n : Nat) (x : α) : Tbl α := SMap.insert m n x

def del (m : Tbl α) (n : Nat) : Tbl α := SMap.erase m n

/-- Change the record of a number, where there is one. -/
def upd (m : Tbl α) (n : Nat) (f : α → α) : Tbl α :=
  match get? m n with
  | some x => put m n (f x)
  | none => m

/-- Change every record. -/
def mapAll (m : Tbl α) (f : Nat → α → α) : Tbl α := m.map (fun e => (e.1, f e.1 e.2))

/-- The lowest number from `b` on that has no record. -/
def free (m : Tbl α) (b : Nat) : Nat :=
  (((List.range (m.length + 1)).map (b + ·)).find? (fun n => (get? m n).isNone)).getD b

end Tbl

/-- The field of `w` bits from bit `lo` of a word, as a number (R1). -/
def bits {n : Nat} (x : BitVec n) (lo w : Nat) : Nat := (x.extractLsb' lo w).toNat

/-- Sign extension of the low `w` bits of a number. -/
def sx (w : Nat) (x : Nat) : Int := (BitVec.ofNat w x).toInt

/-- Replace the field of `w` bits from bit `lo`. -/
def setBits {n : Nat} (x : BitVec n) (lo w v : Nat) : BitVec n :=
  let m : BitVec n := BitVec.ofNat n ((2 ^ w - 1) * 2 ^ lo)
  (x &&& ~~~m) ||| (BitVec.ofNat n (v * 2 ^ lo) &&& m)

end Sys2Proof
end

