-- ==== Sys2Proof/Config.lean ====
section
/-! DEFINITION. What one C1 fixes, the reading the model gives of a byte nothing has written, and the free
values: constants without a body, so that no proof can see what they are. -/

namespace Sys2Proof.Config

/-- The n-th value of the stream of open values: whatever pattern the device gives where the manual gives none
(R4, R110, R135, R227, R253, R269, R288, R311). The state's counter `fresh` says which n is next. -/
opaque freeWord : Nat → Word64

/-- The payload bits below the quiet bit that a NaN keeps in a format with `mb` fraction bits, where it has more than fit (R162 keeps
the payload; no rule says which bits go). -/
opaque nanPayload (mb p32 : Nat) : Nat

/-- The candidate result of a special function (0 FRCP to 7 FTANH) on an FP32 pattern, for the one fixed algorithm
of R176; the machine accepts it only within the bound of R176. -/
opaque sfu : Nat → Word → Word

/-- The value of an open choice that a DET wave makes (R421): a function of what the launch itself fixes, the wave's
place in it and the instruction, so that every run of the launch makes it alike. -/
opaque detWord : List Nat → Word64

/-- Whether an issue of a wave at a cycle still reads the old values of the results that the wave's instruction of an earlier cycle has
in flight (R47), or reads them so in a lane (R222). -/
opaque seesOld (clk wave src : Nat) (lane : Option Nat) : Bool
/-- A byte of code that lies on another device, as a later look at it finds it (R196). -/
opaque peerByte (clk pa : Nat) : Byte
/-- What a special register of a wave reads in the tile stream, of which no rule speaks (R54, R59): at an instruction of a DET
launch, else at a cycle. -/
opaque streamReg (place reg : Nat) : Word64
/-- The wave slot that the records of a tile stream name, which has none (R246). -/
opaque streamSlot : Nat
/-- Whether a write of a trap entry to the side buffer of a wave's slot fails, on a core whose cluster has a faulty unit (R192). -/
opaque sideFails (clk wave : Nat) : Bool
/-- The CRC-64 of a flit, whose polynomial the manual does not give (R502); the idle flits a port has sent before its flit of a
number (R502); the hashes that spread requests over a route set by line address and pin a flow to a port of it (R504). -/
opaque crc64 : List Byte → Word64
opaque idleFlits (port link : Nat) : Nat
opaque lineHash : Nat → Nat
opaque flowHash : Nat → Nat
/-- The current, in mA, that a pair's rail monitor measures over a window (R448); the millivolts by which its regulator moves there, taken
modulo 3 (R431). -/
opaque shunt (pair win : Nat) : Nat
opaque slew (pair win : Nat) : Nat
/-- The order in which cores issue within one cycle, which no rule fixes (R12). -/
opaque coreRank (clk core : Nat) : Nat
/-- Whether the device holds back a step for whose moment the manual gives no time: `kind` 0 a result, 1 a walk, 2 a
copy's bytes, 3 a copy's end, 4 a batch's evaluation, 5 a batch's end, 6 a steal's arrival, 7 the release of a dedup entry;
the unit and its item; the cycle. -/
opaque holds (kind unit item clk : Nat) : Bool

/-- SHA-512, HMAC-SHA-512 and ECDSA P-521 as the boot ROM and the Inn apply them (R540, R541): functions fixed by
their own standards, uninterpreted here. -/
opaque hmac : Nat → Nat → Nat
opaque sign : Nat → Nat → Nat
opaque sha : Nat → Nat
/-- The certificate chain of an Alias key, which the DeviceID key certifies (R541). -/
opaque cert (deviceId aliasKey : Nat) : Nat
/-- The key pair that derives from a CDI (R541). -/
opaque keyOf (cdi : Nat) : Nat
/-- The page of the supervisor table that the Inn installs (R195, R540), whose address the manual does not give. -/
opaque trapTable : BitVec 52
/-- The Inn's firmware version word (R538): fixed by the image that boots. -/
opaque firmwareVersion : BitVec 16
/-- The fused secret of R541. -/
opaque uds : Nat
/-- The order in which the device takes launches inside a DET round (R406). -/
opaque choice : Nat → Nat

/-- What a byte of memory that nothing has written reads as. DESIGN CHOICE, log entry 2. -/
def memDefault : Byte := 0

/-- Bytes of HBM4E in each die's window: 192 GB (R248), decimal (R2). -/
def hbmBytes : Nat := 192 * 10 ^ 9
/-- Start of the LPDDR-6 tier and its size, 2 TB (R248), decimal (R2). -/
def lpBase : Nat := 0x8000000000000
def lpBytes : Nat := 2 * 10 ^ 12
/-- Unit of an LPDDR-6 share: 16 GB (R524), decimal (R2). -/
def lpUnit : Nat := 16 * 10 ^ 9

end Sys2Proof.Config
end

