-- ==== Sys2Proof/Syntax.lean ====
section
/-! DEFINITION. The instruction set as syntax: operands, modifiers, and `Instr`, one constructor per row of
the opcode table. The rows from FWCALL_TIMEOUT on are steps the device takes that are no instruction word
(events); their constructors say which unit the step concerns and what the outside world supplies. -/

namespace Sys2Proof

/-- One operand of an instruction word (R38). `none` is a field the instruction does not use. -/
inductive Opd where
  | none
  | v (n : BitVec 8)
  | s (n : BitVec 7)
  | p (n : BitVec 4)
  | a (n : BitVec 4)
  | m (n : BitVec 3)
  | rel (n : BitVec 4) (k : BitVec 5)
  | t (n : BitVec 6)
  | c (n : BitVec 4)
  | sp (n : BitVec 9)
  | imm8 (n : BitVec 8)
  | imm24 (n : BitVec 24)
  deriving DecidableEq, Repr

/-- The operands of a word: D, A, B, operand C, and EXT where it is a displacement or a branch offset (R43). -/
structure Ops where
  d : Opd := .none
  a : Opd := .none
  b : Opd := .none
  c : Opd := .none
  x : BitVec 24 := 0
  deriving DecidableEq, Repr

/-- Guard and HINT byte (R35, R46). -/
structure Hd where
  neg : Bool := false
  pred : BitVec 4 := 15
  stall : BitVec 4 := 0
  yld : Bool := false
  fea : Bool := false
  feb : Bool := false
  fec : Bool := false
  deriving DecidableEq, Repr

/-- Integer type (R51). -/
inductive IType where | s32 | u32 | s64 | u64
  deriving DecidableEq, Repr
/-- Comparison (R144). -/
inductive Cmp where | eq | ne | lt | le | gt | ge
  deriving DecidableEq, Repr
/-- Predicate combination (R144). -/
inductive Comb where | none | and | or | xor
  deriving DecidableEq, Repr
/-- Floating type of the FP class MOD (R50). -/
inductive FType where | f32 | f16 | bf16
  deriving DecidableEq, Repr
/-- Rounding field codes of R50. -/
inductive Rm where | dyn | rne | rz | ru | rd
  deriving DecidableEq, Repr
/-- FSETP comparison (R170). -/
inductive FCmp where | eq | ne | lt | le | gt | ge | num | nan
  deriving DecidableEq, Repr
/-- Element type code (R53). -/
inductive ElemTy where
  | fp32 | fp16 | bf16 | e4m3 | e5m2 | pb8 | pb4 | int8 | uint8 | int32 | uint32 | int16
  deriving DecidableEq, Repr
/-- Access size (R50). -/
inductive Size where | b8 | b16 | b32 | b64 | b128
  deriving DecidableEq, Repr
/-- Cache policy (R50). -/
inductive Policy where | normal | stream | noalloc | ro
  deriving DecidableEq, Repr
/-- Order field (R50). -/
inductive Order where | relaxed | acq | rel | ar
  deriving DecidableEq, Repr
/-- Scope field (R50). -/
inductive Scope where | blk | clu | dev | sys
  deriving DecidableEq, Repr
/-- Addressing form of LDS and STS (R222). -/
inductive AForm where | disp | post | wrap
  deriving DecidableEq, Repr
/-- SHFL mode (R111). -/
inductive ShMode where | idx | up | down | xor
  deriving DecidableEq, Repr
/-- Type of VRED and VSCAN (R111). -/
inductive RType where | s32 | u32 | f32
  deriving DecidableEq, Repr
/-- Operation of VRED and VSCAN (R111). -/
inductive ROp where | add | min | max | and | or | xor
  deriving DecidableEq, Repr
/-- VOTE mode (R111). -/
inductive VoteMode where | all | any | uni
  deriving DecidableEq, Repr
/-- Atomic operation (R282). -/
inductive AOp where | add | min | max | and | or | xor | exch | incw | decw
  deriving DecidableEq, Repr
/-- Atomic operand type (R282). -/
inductive ATy where | u32 | s32 | u64 | s64 | f32 | f16x2 | bf16x2 | b128
  deriving DecidableEq, Repr
/-- TEW operation (R371). -/
inductive TewOp where | add | sub | mul | max | min | exp2 | scale | neg | abs | sel
  deriving DecidableEq, Repr

structure AddMod where
  t : IType
  sat : Bool := false
  co : Bool := false
  ci : Bool := false
  deriving DecidableEq, Repr
structure SatMod where
  t : IType
  sat : Bool := false
  deriving DecidableEq, Repr
structure RotMod where
  t : IType
  right : Bool := false
  deriving DecidableEq, Repr
structure SetpMod where
  t : IType
  cmp : Cmp
  comb : Comb := .none
  deriving DecidableEq, Repr
structure LeaMod where
  t : IType
  n : BitVec 3
  deriving DecidableEq, Repr
/-- The FP class MOD (R50). -/
structure FpMod where
  t : FType
  rm : Rm := .dyn
  negA : Bool := false
  absA : Bool := false
  negB : Bool := false
  absB : Bool := false
  negC : Bool := false
  sat : Bool := false
  deriving DecidableEq, Repr
structure FsetpMod where
  cmp : FCmp
  negA : Bool := false
  absA : Bool := false
  negB : Bool := false
  absB : Bool := false
  comb : Comb := .none
  deriving DecidableEq, Repr
structure CvtMod where
  dst : ElemTy
  src : ElemTy
  rm : Rm := .dyn
  sat : Bool := false
  deriving DecidableEq, Repr
structure PackMod where
  ty : ElemTy
  rm : Rm := .dyn
  hi : Bool := false
  sat : Bool := false
  deriving DecidableEq, Repr
structure UnpkMod where
  ty : ElemTy
  n : BitVec 2
  deriving DecidableEq, Repr
structure FrndMod where
  t : FType
  rm : Rm := .dyn
  deriving DecidableEq, Repr
structure ShflMod where
  mode : ShMode
  f : BitVec 3
  deriving DecidableEq, Repr
structure VredMod where
  t : RType
  op : ROp
  step : BitVec 3
  deriving DecidableEq, Repr
structure VscanMod where
  t : RType
  op : ROp
  excl : Bool
  deriving DecidableEq, Repr
/-- LD/ST MOD (R50). -/
structure LdMod where
  size : Size
  sx : Bool := false
  scale : BitVec 2 := 0
  pol : Policy := .normal
  ord : Order := .relaxed
  scope : Scope := .blk
  deriving DecidableEq, Repr
structure LdsMod where
  size : Size
  sx : Bool := false
  form : AForm := .disp
  ord : Order := .relaxed
  scope : Scope := .blk
  deriving DecidableEq, Repr
structure AtomMod where
  op : AOp
  ty : ATy
  ord : Order := .relaxed
  scope : Scope := .dev
  deriving DecidableEq, Repr
structure OrdMod where
  ord : Order
  scope : Scope
  deriving DecidableEq, Repr
/-- Copy MOD (R266): channel, source and destination space (true = scratchpad), .nc, element size code. -/
structure CpyMod where
  ch : BitVec 3
  src : Bool
  dst : Bool
  nc : Bool
  e : BitVec 3 := 0
  deriving DecidableEq, Repr
structure TloadMod where
  ty : ElemTy
  mc : Bool
  sp : Bool
  deriving DecidableEq, Repr
structure TmmaMod where
  acc : Bool
  ol : Bool
  deriving DecidableEq, Repr
structure TewMod where
  op : TewOp
  rm : Rm := .dyn
  deriving DecidableEq, Repr
structure TredMod where
  max : Bool
  col : Bool
  deriving DecidableEq, Repr
structure TcvtMod where
  ty : ElemTy
  fixed : Bool
  ol : Bool
  olfault : Bool
  olsp : Bool
  rm : Rm := .dyn
  sat : Bool
  deriving DecidableEq, Repr
structure TfmtMod where
  fmt : ElemTy
  sp : Bool
  deriving DecidableEq, Repr
structure TstoreMod where
  close : Bool
  sp : Bool
  deriving DecidableEq, Repr

/-- The four instructions of a fused softmax sequence (R184). -/
structure FuseArgs where
  h1 : Hd
  m1 : VredMod
  o1 : Ops
  h2 : Hd
  /-- the second instruction is FFMA, not FSUB -/
  ffma : Bool
  m2 : FpMod
  o2 : Ops
  h3 : Hd
  m3 : FpMod
  o3 : Ops
  h4 : Hd
  m4 : VredMod
  o4 : Ops
  deriving DecidableEq, Repr

/-- An atomic as it travels: operation, type, operand and, for CAS, the new value (R282, R287). -/
structure AtomicReq where
  cas : Bool
  op : AOp
  ty : ATy
  addr : Nat
  opnd : Nat
  new : Nat := 0
  sat : Bool := false
  deriving DecidableEq, Repr

/-- How an atomic request reaches its site (R279, R287): from another device by a fabric port, or from another die of a partition. -/
inductive ReqWay where
  | fabric (port : Nat)
  | inside (part : Nat)
  deriving DecidableEq, Repr

/-- What a message from outside asks of a remote home slice (R312, R314, R522). -/
inductive RemoteReq where
  | load (addr bytes : Nat)
  | store (addr : Nat) (data : List Byte)
  | red (r : AtomicReq)
  /-- collective control (R314): a member's k-th descriptor on a group and generation (R514), and a group's re-forming (R519) -/
  | descriptor (group gen k rank op red : Nat) (ty : ElemTy) (count root : Nat)
  | reform (group gen : Nat) (members : List Nat)
  /-- a member's abort of its k-th collective (R517), with the detail that its receipt records -/
  | abort (group gen k rank detail : Nat)
  /-- from the destination of a migration (R535): a page that is missing there, and that none is missing any more -/
  | pull (ctx gpa : Nat)
  | confirm (ctx : Nat)
  deriving DecidableEq, Repr

/-- What a port learns of its link (R503): the peer has the flits, or asks for those from one on again; or a flit comes in, with its
link sequence number and whether its CRC is right. -/
inductive LinkEv where
  | have
  | again (link : Nat)
  | flit (link : Nat) (crcOk : Bool)
  deriving DecidableEq, Repr

/-- What a message of a queue pair carries beside its operation (R521, R522): its message sequence number, and whether ECN has
marked a packet of it. -/
structure QpHead where
  seq : Nat
  ecn : Bool := false
  deriving DecidableEq, Repr

/-- A read over the management path (R545, R547). -/
inductive MgmtReq where
  | entry (seq : Nat)
  | capacity (i : Nat)
  deriving DecidableEq, Repr

/-- An item of a migration's final transfer (R532): what it describes, its numbers and its bytes. -/
structure Moved where
  kind : Nat
  vals : List Nat
  data : List Byte := []
  deriving DecidableEq, Repr

/-- Where a parked translation fault stands (R201, R271, R335). -/
inductive FaultSite where
  | part (w lane : Nat)
  | copy (core ch : Nat)
  | eval (b : Nat)
  deriving DecidableEq, Repr

/-- A fault reported by the far side of the fabric for one request (R508, R535). -/
inductive FarFault where | timeout | miglost | sealed | perm | nomap
  deriving DecidableEq, Repr

/-- A verified or failing firmware image as the boot ROM finds it (R540): signature good, version not rolled back. -/
structure Image where
  sigOk : Bool
  version : Nat
  digest : Nat
  deriving DecidableEq, Repr

/-- A partition request of system software (R27, R524): the partition of each die; by the lowest die of a partition its LPDDR-6
share as base, size and bandwidth, none where no share is requested, and the device number it gets on the fabric (R526). -/
structure PartReq where
  pd : List (BitVec 2)
  lp : List (Option (Nat × Nat × Nat)) := []
  dev : List Nat := []
  deriving DecidableEq, Repr

/-- One instruction or step of the device: one constructor per row of the opcode table, and one for the
unassigned firmware calls, whose row is FWCALL_VERSION's OPC (R539). -/
inductive Instr where
  -- CTRL (R103, R202, R468)
  | nop (h : Hd)
  | bra (h : Hd) (off : BitVec 24)
  | brx (h : Hd) (o : Ops)
  | call (h : Hd) (o : Ops)
  | callx (h : Hd) (o : Ops)
  | ret (h : Hd) (o : Ops)
  | exit (h : Hd)
  | regang (h : Hd) (k : BitVec 6)
  | yield (h : Hd)
  | region (h : Hd)
  | trap (h : Hd) (n : BitVec 8)
  | brk (h : Hd) (n : BitVec 8)
  | rte (h : Hd)
  | rteRegion (h : Hd)
  | rolesw (h : Hd) (o : Ops)
  | phase (h : Hd) (o : Ops)
  -- IALU and IMUL (R143)
  | iadd (h : Hd) (m : AddMod) (o : Ops)
  | isub (h : Hd) (m : AddMod) (o : Ops)
  | imin (h : Hd) (t : IType) (o : Ops)
  | imax (h : Hd) (t : IType) (o : Ops)
  | iabs (h : Hd) (m : SatMod) (o : Ops)
  | ineg (h : Hd) (m : SatMod) (o : Ops)
  | and (h : Hd) (t : IType) (o : Ops)
  | or (h : Hd) (t : IType) (o : Ops)
  | xor (h : Hd) (t : IType) (o : Ops)
  | not (h : Hd) (t : IType) (o : Ops)
  | shl (h : Hd) (t : IType) (o : Ops)
  | shr (h : Hd) (t : IType) (o : Ops)
  | rot (h : Hd) (m : RotMod) (o : Ops)
  | popc (h : Hd) (t : IType) (o : Ops)
  | clz (h : Hd) (t : IType) (o : Ops)
  | brev (h : Hd) (t : IType) (o : Ops)
  | bfe (h : Hd) (t : IType) (o : Ops)
  | bfi (h : Hd) (t : IType) (o : Ops)
  | sel (h : Hd) (t : IType) (o : Ops)
  | isetp (h : Hd) (m : SetpMod) (o : Ops)
  | lea (h : Hd) (m : LeaMod) (o : Ops)
  | imul (h : Hd) (m : SatMod) (o : Ops)
  | imulh (h : Hd) (t : IType) (o : Ops)
  | imad (h : Hd) (t : IType) (o : Ops)
  | imadw (h : Hd) (t : IType) (o : Ops)
  -- FALU, FSFU, CONV (R170, R179)
  | fadd (h : Hd) (m : FpMod) (o : Ops)
  | fsub (h : Hd) (m : FpMod) (o : Ops)
  | fmul (h : Hd) (m : FpMod) (o : Ops)
  | ffma (h : Hd) (m : FpMod) (o : Ops)
  | fmin (h : Hd) (m : FpMod) (o : Ops)
  | fmax (h : Hd) (m : FpMod) (o : Ops)
  | fsetp (h : Hd) (m : FsetpMod) (o : Ops)
  | fclass (h : Hd) (o : Ops)
  | fscale (h : Hd) (m : FpMod) (o : Ops)
  | frcp (h : Hd) (m : FpMod) (o : Ops)
  | frsq (h : Hd) (m : FpMod) (o : Ops)
  | fsqrt (h : Hd) (m : FpMod) (o : Ops)
  | fexp2 (h : Hd) (m : FpMod) (o : Ops)
  | flog2 (h : Hd) (m : FpMod) (o : Ops)
  | fsin (h : Hd) (m : FpMod) (o : Ops)
  | fcos (h : Hd) (m : FpMod) (o : Ops)
  | ftanh (h : Hd) (m : FpMod) (o : Ops)
  | cvt (h : Hd) (m : CvtMod) (o : Ops)
  | pack (h : Hd) (m : PackMod) (o : Ops)
  | unpk (h : Hd) (m : UnpkMod) (o : Ops)
  | frnd (h : Hd) (m : FrndMod) (o : Ops)
  -- XLANE (R111)
  | shfl (h : Hd) (m : ShflMod) (o : Ops)
  | vred (h : Hd) (m : VredMod) (o : Ops)
  | vscan (h : Hd) (m : VscanMod) (o : Ops)
  | vote (h : Hd) (m : VoteMode) (o : Ops)
  | vbal (h : Hd) (o : Ops)
  | vcomp (h : Hd) (z : Bool) (o : Ops)
  | vexp (h : Hd) (z : Bool) (o : Ops)
  | vfirst (h : Hd) (o : Ops)
  -- MOVE (R132, R223)
  | mov (h : Hd) (o : Ops)
  | movi (h : Hd) (imm : Word) (o : Ops)
  | movsGet (h : Hd) (o : Ops)
  | movsPut (h : Hd) (o : Ops)
  | movw (h : Hd) (o : Ops)
  | mset (h : Hd) (o : Ops)
  -- LDST (R224, R251)
  | ld (h : Hd) (m : LdMod) (o : Ops)
  | st (h : Hd) (m : LdMod) (o : Ops)
  | lds (h : Hd) (m : LdsMod) (o : Ops)
  | sts (h : Hd) (m : LdsMod) (o : Ops)
  | ldc (h : Hd) (m : LdMod) (o : Ops)
  | pref (h : Hd) (m : LdMod) (o : Ops)
  -- ATOM (R281)
  | atom (h : Hd) (m : AtomMod) (o : Ops)
  | red (h : Hd) (m : AtomMod) (o : Ops)
  | cas (h : Hd) (m : AtomMod) (o : Ops)
  | monitor (h : Hd) (o : Ops)
  | mwait (h : Hd) (o : Ops)
  -- ORDER (R256, R307)
  | fence (h : Hd) (m : OrdMod)
  | seal (h : Hd) (o : Ops)
  | unseal (h : Hd) (o : Ops)
  | cacheRoinv (h : Hd) (o : Ops)
  | cacheRoinvall (h : Hd)
  | cacheClean (h : Hd) (o : Ops)
  | cacheFlush (h : Hd) (o : Ops)
  -- COPY (R266)
  | cpy (h : Hd) (m : CpyMod) (o : Ops)
  | cpyg (h : Hd) (m : CpyMod) (o : Ops)
  | cpys (h : Hd) (m : CpyMod) (o : Ops)
  | cpywt (h : Hd) (ch : BitVec 3) (o : Ops)
  | cpyq (h : Hd) (ch : BitVec 3) (o : Ops)
  -- SYNC (R229, R344, R419)
  | bar (h : Hd) (o : Ops)
  | bara (h : Hd) (o : Ops)
  | barw (h : Hd) (o : Ops)
  | nbar (h : Hd) (n : BitVec 4) (o : Ops)
  | nbarw (h : Hd) (n : BitVec 4) (o : Ops)
  | ctacq (h : Hd)
  | ctrel (h : Hd)
  -- RSRC (R122, R391)
  | racq (h : Hd) (o : Ops)
  | racqTry (h : Hd) (o : Ops)
  | rrel (h : Hd) (o : Ops)
  | cacq (h : Hd) (o : Ops)
  | cacqTry (h : Hd) (o : Ops)
  | cacqRd (h : Hd) (half : Bool) (o : Ops)
  | crel (h : Hd) (o : Ops)
  | crelWr (h : Hd) (half : Bool) (o : Ops)
  -- TILEA and TILEB (R371)
  | tload (h : Hd) (m : TloadMod) (o : Ops)
  | tmap (h : Hd) (o : Ops)
  | tmma (h : Hd) (m : TmmaMod) (o : Ops)
  | tew (h : Hd) (m : TewMod) (o : Ops)
  | tred (h : Hd) (m : TredMod) (o : Ops)
  | tcvt (h : Hd) (m : TcvtMod) (o : Ops)
  | tfmt (h : Hd) (m : TfmtMod) (o : Ops)
  | tbind (h : Hd) (sp : Bool) (o : Ops)
  | tfree (h : Hd) (o : Ops)
  | tfreeAcc (h : Hd) (o : Ops)
  | torf (h : Hd) (n : BitVec 4)
  | tforce (h : Hd) (close : Bool) (o : Ops)
  | tstore (h : Hd) (m : TstoreMod) (o : Ops)
  | twait (h : Hd) (o : Ops)
  | tqry (h : Hd) (k : BitVec 3) (o : Ops)
  -- TXN (R400)
  | txdecl (h : Hd) (wr : Bool) (o : Ops)
  | txsub (h : Hd) (o : Ops)
  | txwait (h : Hd) (o : Ops)
  | txend (h : Hd) (o : Ops)
  | txqry (h : Hd) (o : Ops)
  -- POWER (R443)
  | balburn (h : Hd) (o : Ops)
  | balshunt (h : Hd) (o : Ops)
  | pwrwait (h : Hd) (o : Ops)
  | pair (h : Hd) (o : Ops)
  -- TASK and COLL (R473, R478, R512)
  | dqpush (h : Hd) (o : Ops)
  | dqpop (h : Hd) (o : Ops)
  | dqsteal (h : Hd) (o : Ops)
  | cont (h : Hd) (role : BitVec 2) (o : Ops)
  | contw (h : Hd) (o : Ops)
  | clst (h : Hd) (o : Ops)
  | clwt (h : Hd) (o : Ops)
  | clq (h : Hd) (o : Ops)
  -- SYS (R202, R260, R539)
  | syscVersion (h : Hd)
  | syscCapacity (h : Hd)
  | syscQuota (h : Hd)
  | syscMark (h : Hd)
  | syscUnassigned (h : Hd) (n : BitVec 8)
  | tlbiVa (h : Hd) (dev : Bool) (o : Ops)
  | tlbiTenant (h : Hd) (dev : Bool) (o : Ops)
  | tlbiAll (h : Hd) (dev : Bool)
  | fwcallVersion (h : Hd)
  | fwcallBbread (h : Hd)
  | fwcallPwrcap (h : Hd)
  | fwcallGreform (h : Hd)
  | fwcallUnassigned (h : Hd) (n : BitVec 8)
  -- events of a core and its waves
  | fwcallTimeout (w : Nat)
  | illop (sub : BitVec 8)
  | softmaxFusion (x : FuseArgs)
  | stallExpiry (w : Nat)
  | resultArrival (w k : Nat) (m : Lanes) (x : List Row)
  | waveSlotRelease (w : Nat)
  | blockEnd (b : Nat)
  | faultRepaired (w lane : Nat)
  | faultDeclined (site : FaultSite)
  | walkComplete (die : Nat)
  | writeAcknowledgement (w addr : Nat) (refused : Option FarFault)
  | fabricTimeout (w k : Nat) (m : Lanes) (f : FarFault)
  | atomicTimeout (w k : Nat) (m : Lanes) (applied : Bool)
  | lateTrapDelivery (w : Nat)
  | atomicRequest (way : ReqWay) (port tag : Nat) (r : AtomicReq)
  | releaseFlit (way : ReqWay) (port tag : Nat)
  | remoteDataRequest (port : Nat) (r : RemoteReq)
  | copyStart (core ch : Nat)
  | copyResume (core ch : Nat)
  | copyComplete (core ch : Nat) (x : List Byte)
  | copyFault (core ch : Nat) (f : Option FarFault)
  | monitorWriteWake (w : Nat)
  | mwaitTimeout (w : Nat)
  | mwaitEvent (w : Nat)
  | spuriousWake (w : Nat)
  | batchEvaluate (b : Nat)
  | batchComplete (b : Nat)
  | clauseFault (b : Nat) (f : Option FarFault)
  | evalResume (b : Nat)
  | streamTrapDelivery (b : Nat)
  | beatEnd
  | grantRequestArrival
  | ticketTimeout (w slot : Nat)
  | windowEnd (pair : Nat)
  | pwrTrap (w : Nat)
  | burnEnd (w lane : Nat)
  | pairDerate (pair : Nat)
  | misthWrite (pair : Nat) (v : Word64)
  | mistxWrite (pair : Nat) (v : Word64)
  | balctlWrite (core : Nat) (v : Word64)
  | fpcrWrite (w : Nat) (v : Word)
  | fpsrAccess (w : Nat) (v : Option Word)
  -- contexts and pre-emption: `set` is a write of %PREEMPT by the Inn with TRAP and DEADLINE, none the step going on (R487)
  | preemptDrain (ctx : Nat) (set : Option (Bool × BitVec 8))
  | preemptHalt (ctx : Nat) (set : Option (Bool × BitVec 8))
  | preemptForcedSave (ctx : Nat) (set : Option (Bool × BitVec 8))
  | preemptCapture (ctx : Nat) (set : Option (Bool × BitVec 8))
  | haltDeadline (ctx : Nat)
  | preemptTrap (w : Nat)
  | savetime (ctx : Nat)
  | freeze (part tenant : Nat) (reason : BitVec 8)
  | contextRestore (ctx : Nat)
  /-- `set` is a quantum that system software sets, in µs (R527) -/
  | quantumEnd (part : Nat) (set : Option Nat)
  -- queues, launches and device-created work
  | wptrObserve (q : Nat)
  | cmdNop (q k : Nat)
  | launch (q k : Nat)
  | copy (q k : Nat)
  | wait (q k : Nat)
  | waitSatisfied (q k : Nat)
  | signal (q k : Nat)
  | copyCommandComplete (q k : Nat)
  | launchComplete (l : Nat)
  | queueMap (q : Nat)
  | queueUnmapForced (q : Nat)
  | neighbourhoodPlace (die : Nat)
  | binForm (core bin : Nat)
  | binAgeExpiry (core bin : Nat)
  -- fabric and collectives
  | linkReplay (port : Nat) (e : LinkEv)
  | portDown (port : Nat)
  | portMapout (port : Nat)
  | controlMessageDelivery (port flow seq : Nat) (r : RemoteReq)
  | collectiveDone (part slot : Nat) (x : List (List Byte))
  | collectiveAbortReceive (part slot rank : Nat) (detail : BitVec 2)
  | progressTimeout (part slot : Nat)
  | rdmaWrite (part qp : Nat) (m : QpHead) (addr : Nat) (data : List Byte)
  | rdmaRead (part qp : Nat) (m : QpHead) (addr bytes : Nat)
  | rdmaSend (part qp : Nat) (m : QpHead) (data : List Byte)
  -- migration
  | migrationRound (ctx : Nat)
  | migrationStop (ctx : Nat)
  /-- `items` is the final transfer at the destination, nothing at the source (R533) -/
  | blackoutEnd (ctx : Nat) (items : List Moved)
  | pullTimeout (site : FaultSite)
  -- the Inn, boot, power and health
  | boot (debugAuth : Bool)
  | coolantFlowLoss
  | pwrwaitTimeout (w : Nat)
  | dequeStealRequest (core launch : Nat) (thief : Nat)
  -- what only the outside world begins: SPDM, the management path, a page pulled, the Inn's registers and health
  | getVersion (qp : Nat)
  | getCapabilities (qp : Nat)
  | negotiateAlgorithms (qp : Nat) (p521Sha512 : Bool)
  | getDigests (qp : Nat)
  | getCertificate (qp : Nat)
  | challenge (qp : Nat) (nonce : Nat)
  | getMeasurements (qp : Nat) (index : Nat)
  | blackBoxRead (qp : Nat) (q : MgmtReq)
  | postcopyPull (ctx gpa : Nat) (page : List Byte)
  | fwpmapWrite (r : PartReq)
  | fwbndWrite (n : Nat) (closed : Bool)
  | fwlpWrite (n base size bw : Nat)
  | innCapabilityFault (record : Option (Nat × Nat))
  | powerAverage (part watts : Nat)
  | thermalReading (die celsius sensor : Nat)
  | supplyExcursion (domain mil : Nat)
  | eccError (die slice : Nat) (uncorrectable : Bool) (reader : Option Nat)
  | portRetraining (port : Nat) (ok : Bool)
  | clusterUnitFault (die cluster : Nat)
  | tenantRelease (part tenant : Nat)
  | recoveryImageLoad (stage : Nat) (image : Image)
  deriving DecidableEq, Repr

end Sys2Proof
end

