-- ==== Sys2Proof/Decode.lean ====
section
/-! DEFINITION. The instruction word (R32): the opcode map (R57), the operand fields (R38), the eleven decode
checks in their order (R60), a decoder total on any bytes, and after it the encoder. -/

namespace Sys2Proof

/-! ## The opcode map -/

/-- The mnemonics of the opcode map (R57). -/
inductive Op where
  | nop | bra | brx | call | callx | ret | exit | regang | yield | region | trap | rte
  | rolesw | brk | phase | iadd | isub | imin | imax | iabs | ineg | and | or | xor
  | not | shl | shr | rot | popc | clz | brev | bfe | bfi | sel | isetp | lea
  | imul | imulh | imad | imadw | fadd | fsub | fmul | ffma | fmin | fmax | fsetp | fclass
  | fscale | frcp | frsq | fsqrt | fexp2 | flog2 | fsin | fcos | ftanh | cvt | pack | unpk
  | frnd | shfl | vred | vscan | vote | vbal | vcomp | vexp | vfirst | mov | movi | movs
  | movw | mset | ld | st | lds | sts | ldc | pref | atom | red | cas | monitor
  | mwait | fence | seal | unseal | cache | cpy | cpyg | cpys | cpywt | cpyq | bar | bara
  | barw | nbar | nbarw | ctacq | ctrel | racq | rrel | cacq | crel | tload | tmap | tmma
  | tew | tred | tcvt | tfmt | tbind | tfree | torf | tforce | tstore | twait | tqry | txdecl
  | txsub | txwait | txend | txqry | balburn | balshunt | pwrwait | pair | dqpush | dqpop | dqsteal | cont
  | contw | clst | clwt | clq | sysc | tlbi | fwcall
  deriving DecidableEq, Repr

/-- OPC, bits [10:0] of the word: major × 64 + minor (R32, R57). -/
def Op.code : Op → Nat
  | .nop => 0x000
  | .bra => 0x001
  | .brx => 0x002
  | .call => 0x003
  | .callx => 0x004
  | .ret => 0x005
  | .exit => 0x006
  | .regang => 0x007
  | .yield => 0x008
  | .region => 0x009
  | .trap => 0x00A
  | .rte => 0x00B
  | .rolesw => 0x00C
  | .brk => 0x00D
  | .phase => 0x00E
  | .iadd => 0x040
  | .isub => 0x041
  | .imin => 0x042
  | .imax => 0x043
  | .iabs => 0x044
  | .ineg => 0x045
  | .and => 0x046
  | .or => 0x047
  | .xor => 0x048
  | .not => 0x049
  | .shl => 0x04A
  | .shr => 0x04B
  | .rot => 0x04C
  | .popc => 0x04D
  | .clz => 0x04E
  | .brev => 0x04F
  | .bfe => 0x050
  | .bfi => 0x051
  | .sel => 0x052
  | .isetp => 0x053
  | .lea => 0x054
  | .imul => 0x080
  | .imulh => 0x081
  | .imad => 0x082
  | .imadw => 0x083
  | .fadd => 0x0C0
  | .fsub => 0x0C1
  | .fmul => 0x0C2
  | .ffma => 0x0C3
  | .fmin => 0x0C4
  | .fmax => 0x0C5
  | .fsetp => 0x0C6
  | .fclass => 0x0C7
  | .fscale => 0x0C8
  | .frcp => 0x100
  | .frsq => 0x101
  | .fsqrt => 0x102
  | .fexp2 => 0x103
  | .flog2 => 0x104
  | .fsin => 0x105
  | .fcos => 0x106
  | .ftanh => 0x107
  | .cvt => 0x140
  | .pack => 0x141
  | .unpk => 0x142
  | .frnd => 0x143
  | .shfl => 0x180
  | .vred => 0x181
  | .vscan => 0x182
  | .vote => 0x183
  | .vbal => 0x184
  | .vcomp => 0x185
  | .vexp => 0x186
  | .vfirst => 0x187
  | .mov => 0x1C0
  | .movi => 0x1C1
  | .movs => 0x1C2
  | .movw => 0x1C3
  | .mset => 0x1C4
  | .ld => 0x200
  | .st => 0x201
  | .lds => 0x202
  | .sts => 0x203
  | .ldc => 0x204
  | .pref => 0x205
  | .atom => 0x240
  | .red => 0x241
  | .cas => 0x242
  | .monitor => 0x243
  | .mwait => 0x244
  | .fence => 0x280
  | .seal => 0x281
  | .unseal => 0x282
  | .cache => 0x283
  | .cpy => 0x2C0
  | .cpyg => 0x2C1
  | .cpys => 0x2C2
  | .cpywt => 0x2C3
  | .cpyq => 0x2C4
  | .bar => 0x300
  | .bara => 0x301
  | .barw => 0x302
  | .nbar => 0x303
  | .nbarw => 0x304
  | .ctacq => 0x305
  | .ctrel => 0x306
  | .racq => 0x340
  | .rrel => 0x341
  | .cacq => 0x342
  | .crel => 0x343
  | .tload => 0x380
  | .tmap => 0x381
  | .tmma => 0x382
  | .tew => 0x383
  | .tred => 0x384
  | .tcvt => 0x385
  | .tfmt => 0x386
  | .tbind => 0x387
  | .tfree => 0x388
  | .torf => 0x389
  | .tforce => 0x3C0
  | .tstore => 0x3C1
  | .twait => 0x3C2
  | .tqry => 0x3C3
  | .txdecl => 0x400
  | .txsub => 0x401
  | .txwait => 0x402
  | .txend => 0x403
  | .txqry => 0x404
  | .balburn => 0x440
  | .balshunt => 0x441
  | .pwrwait => 0x442
  | .pair => 0x443
  | .dqpush => 0x480
  | .dqpop => 0x481
  | .dqsteal => 0x482
  | .cont => 0x483
  | .contw => 0x484
  | .clst => 0x4C0
  | .clwt => 0x4C1
  | .clq => 0x4C2
  | .sysc => 0x500
  | .tlbi => 0x501
  | .fwcall => 0x502

/-- The mnemonics of the map, in pieces. -/
def Op.all0 : List Op := [.nop, .bra, .brx, .call, .callx, .ret, .exit, .regang, .yield, .region, .trap, .rte, .rolesw, .brk, .phase, .iadd]
def Op.all1 : List Op := [.isub, .imin, .imax, .iabs, .ineg, .and, .or, .xor, .not, .shl, .shr, .rot, .popc, .clz, .brev, .bfe]
def Op.all2 : List Op := [.bfi, .sel, .isetp, .lea, .imul, .imulh, .imad, .imadw, .fadd, .fsub, .fmul, .ffma, .fmin, .fmax, .fsetp, .fclass]
def Op.all3 : List Op := [.fscale, .frcp, .frsq, .fsqrt, .fexp2, .flog2, .fsin, .fcos, .ftanh, .cvt, .pack, .unpk, .frnd, .shfl, .vred, .vscan]
def Op.all4 : List Op := [.vote, .vbal, .vcomp, .vexp, .vfirst, .mov, .movi, .movs, .movw, .mset, .ld, .st, .lds, .sts, .ldc, .pref]
def Op.all5 : List Op := [.atom, .red, .cas, .monitor, .mwait, .fence, .seal, .unseal, .cache, .cpy, .cpyg, .cpys, .cpywt, .cpyq, .bar, .bara]
def Op.all6 : List Op := [.barw, .nbar, .nbarw, .ctacq, .ctrel, .racq, .rrel, .cacq, .crel, .tload, .tmap, .tmma, .tew, .tred, .tcvt, .tfmt]
def Op.all7 : List Op := [.tbind, .tfree, .torf, .tforce, .tstore, .twait, .tqry, .txdecl, .txsub, .txwait, .txend, .txqry, .balburn, .balshunt, .pwrwait, .pair]
def Op.all8 : List Op := [.dqpush, .dqpop, .dqsteal, .cont, .contw, .clst, .clwt, .clq, .sysc, .tlbi, .fwcall]

/-- Every mnemonic of the map, in its order. -/
def Op.all : List Op :=
  Op.all0 ++ Op.all1 ++ Op.all2 ++ Op.all3 ++ Op.all4 ++ Op.all5 ++ Op.all6 ++ Op.all7 ++ Op.all8

/-- The mnemonic of an OPC, if one is assigned. -/
def Op.ofCode (n : Nat) : Option Op := Op.all.find? (fun o => o.code == n)

/-! ## The decode checks -/

/-- The decode checks of R60; the sub-cause is the check's number. -/
inductive Ill where
  | major | minor | stream | priv | rsvd | kind | specidx | readonly | extuse | mod | type
  deriving DecidableEq, Repr

/-- ILLOP sub-cause (R60). -/
def Ill.code : Ill → BitVec 8
  | .major => 1 | .minor => 2 | .stream => 3 | .priv => 4 | .rsvd => 5 | .kind => 6
  | .specidx => 7 | .readonly => 8 | .extuse => 9 | .mod => 10 | .type => 11

/-- What decoding depends on besides the word (R62). -/
structure DCtx where
  tile : Bool := false
  priv : Bool := false
  inh : Bool := false
  deriving DecidableEq, Repr

/-! ## Fields -/

/-- The fields of a word (R32). -/
structure Raw where
  opc : BitVec 11
  grd : BitVec 5
  d : BitVec 12
  a : BitVec 12
  b : BitVec 12
  mod : BitVec 12
  hint : BitVec 8
  ext : BitVec 24
  deriving DecidableEq, Repr

def Raw.ofWord (w : BitVec 96) : Raw where
  opc := w.extractLsb' 0 11
  grd := w.extractLsb' 11 5
  d := w.extractLsb' 16 12
  a := w.extractLsb' 28 12
  b := w.extractLsb' 40 12
  mod := w.extractLsb' 52 12
  hint := w.extractLsb' 64 8
  ext := w.extractLsb' 72 24

def Raw.toWord (r : Raw) : BitVec 96 :=
  let w16 : BitVec 16 := r.grd ++ r.opc
  let w28 : BitVec 28 := r.d ++ w16
  let w40 : BitVec 40 := r.a ++ w28
  let w52 : BitVec 52 := r.b ++ w40
  let w64 : BitVec 64 := r.mod ++ w52
  let w72 : BitVec 72 := r.hint ++ w64
  r.ext ++ w72

/-- The operand a 12-bit field names, its reserved bits dropped (R38); `ext` supplies a 24-bit immediate. -/
def decOpd (ext : BitVec 24) (f : BitVec 12) : Opd :=
  match (f.extractLsb' 9 3).toNat with
  | 0 => .v (f.extractLsb' 0 8)
  | 1 => .s (f.extractLsb' 0 7)
  | 2 => .p (f.extractLsb' 0 4)
  | 3 => if f.getLsbD 4 then .m (f.extractLsb' 0 3) else .a (f.extractLsb' 0 4)
  | 4 => .rel (f.extractLsb' 5 4) (f.extractLsb' 0 5)
  | 5 => if f.getLsbD 6 then .c (f.extractLsb' 0 4) else .t (f.extractLsb' 0 6)
  | 6 => .sp (f.extractLsb' 0 9)
  | _ => if f.getLsbD 8 then .imm24 ext else .imm8 (f.extractLsb' 0 8)

/-- The field of an operand (R38); an unused field is 0 (R34). -/
def encOpd : Opd → BitVec 12
  | .none => 0
  | .v n => 0#4 ++ n
  | .s n => 0b00100#5 ++ n
  | .p n => 0b01000000#8 ++ n
  | .a n => 0b01100000#8 ++ n
  | .m n => 0b011000010#9 ++ n
  | .rel n k => 0b100#3 ++ (n ++ k)
  | .t n => 0b101000#6 ++ n
  | .c n => 0b10100100#8 ++ n
  | .sp n => 0b110#3 ++ n
  | .imm8 n => 0b1110#4 ++ n
  | .imm24 _ => 0b111100000000#12

/-- Guard and HINT (R35, R46). -/
def decHd (grd : BitVec 5) (hint : BitVec 8) : Hd where
  neg := grd.getLsbD 4
  pred := grd.extractLsb' 0 4
  stall := hint.extractLsb' 4 4
  yld := hint.getLsbD 3
  fea := hint.getLsbD 2
  feb := hint.getLsbD 1
  fec := hint.getLsbD 0

def bit1 (b : Bool) : BitVec 1 := BitVec.ofBool b

def Hd.grd (h : Hd) : BitVec 5 := bit1 h.neg ++ h.pred
def Hd.hint (h : Hd) : BitVec 8 := h.stall ++ (bit1 h.yld ++ (bit1 h.fea ++ (bit1 h.feb ++ bit1 h.fec)))

/-! ## Operand forms -/

/-- Operand kinds as the encoding tables name them. `zero` is the field 0 where the table allows it beside
another kind; `imm0` is the immediate 0 alone. -/
inductive Kind where
  | v | s | p | a | m | rel | t | c | sp | i8 | i24 | zero | imm0 | bit
  deriving DecidableEq, Repr

/-- Whether an operand is of a kind. -/
def Opd.isKind : Opd → Kind → Bool
  | .none, .zero => true
  | .v _, .v => true
  | .s _, .s => true
  | .p _, .p => true
  | .a _, .a => true
  | .m _, .m => true
  | .rel _ _, .rel => true
  | .t _, .t => true
  | .c _, .c => true
  | .sp _, .sp => true
  | .imm8 _, .i8 => true
  | .imm8 n, .imm0 => n == 0
  | .imm8 n, .bit => n == 0 || n == 1
  | .imm24 _, .i24 => true
  | _, _ => false

/-- What an encoding table row gives the operand fields: the kinds each accepts (none: the field is unused),
and whether EXT is a displacement or an offset. -/
structure Form where
  d : List Kind := []
  a : List Kind := []
  b : List Kind := []
  c : List Kind := []
  ext : Bool := false
  deriving DecidableEq, Repr

def intSrc : List Kind := [.v, .rel, .s, .a, .sp, .i8, .i24]
def intDst : List Kind := [.v, .rel, .s, .a]
def logSrc : List Kind := intSrc ++ [.p]
def logDst : List Kind := intDst ++ [.p]
def fpSrc : List Kind := [.v, .rel, .s, .i8, .i24]
def fpDst : List Kind := [.v, .rel, .s]
def vKinds : List Kind := [.v, .rel]
def sImm : List Kind := [.s, .i8, .i24]

/-- The operand kinds of an instruction, from its MOD and, for the atomics, from A (the encoding tables of
R103, R111, R122, R132, R143, R170, R179, R202, R223, R224, R229, R251, R256, R260, R266, R281, R307, R344,
R371, R391, R400, R419, R443, R468, R473, R478, R512, R539). -/
def formOf (op : Op) (m : BitVec 12) (a : BitVec 12) : Form :=
  match op with
  | .nop | .exit | .regang | .yield | .region | .trap | .rte | .brk | .fence | .ctacq | .ctrel | .torf
  | .sysc | .fwcall => {}
  | .bra => { ext := true }
  | .brx | .ret => { a := [.v, .rel, .s] }
  | .call => { d := [.v, .rel, .s], ext := true }
  | .callx => { d := [.v, .rel, .s], a := [.v, .rel, .s] }
  | .rolesw => { a := [.s, .i8] }
  | .phase => { a := [.s] }
  | .iadd | .isub => { d := intDst, a := intSrc, b := intSrc, c := if m.getLsbD 3 || m.getLsbD 4 then [.p] else [] }
  | .imin | .imax | .shl | .shr | .rot | .bfe | .lea | .imul | .imulh => { d := intDst, a := intSrc, b := intSrc }
  | .iabs | .ineg | .popc | .clz | .brev => { d := intDst, a := intSrc }
  | .and | .or | .xor => { d := logDst, a := logSrc, b := logSrc }
  | .not => { d := logDst, a := logSrc }
  | .bfi => { d := intDst, a := intSrc, b := intSrc, c := [.v, .rel, .s, .a] }
  | .sel => { d := intDst, a := intSrc, b := intSrc, c := [.p] }
  | .isetp => { d := [.p], a := intSrc, b := intSrc, c := if bits m 5 2 = 0 then [] else [.p] }
  | .imad | .imadw => { d := intDst, a := intSrc, b := intSrc, c := [.v, .rel, .s, .a, .sp, .i8] }
  | .fadd | .fsub | .fmul | .fmin | .fmax | .fscale => { d := fpDst, a := fpSrc, b := fpSrc }
  | .ffma => { d := fpDst, a := fpSrc, b := fpSrc, c := [.v, .rel, .s, .i8] }
  | .fsetp => { d := [.p, .s], a := fpSrc, b := fpSrc, c := if bits m 10 2 = 0 then [] else [.p] }
  | .fclass => { d := [.v, .rel, .s, .p], a := fpSrc, b := [.zero, .i8] }
  | .frcp | .frsq | .fsqrt | .fexp2 | .flog2 | .fsin | .fcos | .ftanh | .cvt | .unpk | .frnd =>
      { d := fpDst, a := fpSrc }
  | .pack => { d := fpDst, a := fpSrc, b := fpSrc }
  | .shfl => { d := vKinds, a := vKinds, b := if bits m 2 3 = 0 then [.v, .rel, .s, .i8, .i24] else [] }
  | .vred => { d := if bits m 6 3 = 0 then [.v, .rel, .s] else vKinds, a := vKinds }
  | .vscan => { d := vKinds, a := vKinds }
  | .vote => { d := [.p, .s], a := [.p] }
  | .vbal => { d := [.s, .v, .rel], a := [.p] }
  | .vcomp => { d := vKinds, a := vKinds, b := [.p], c := [.s] }
  | .vexp => { d := vKinds, a := vKinds, b := [.p] }
  | .vfirst => { d := [.s, .p], a := [.p] }
  | .mov => { d := [.v, .rel, .s, .p, .a], a := [.v, .rel, .s, .p, .a, .sp, .i8, .i24] }
  | .movi => { d := [.v, .rel, .s, .a], ext := true }
  | .movs => if m.getLsbD 0 then { d := vKinds, a := [.s, .i8], b := [.i8, .s] }
             else { d := [.s], a := vKinds, b := [.i8, .s] }
  | .movw => { d := [.sp], a := sImm }
  | .mset => { d := [.m], a := sImm, b := sImm }
  | .ld | .ldc => { d := [.v, .rel, .s], a := [.s], b := [.v, .rel, .s, .i8, .i24], ext := true }
  | .st => { d := [.v, .rel, .s], a := [.s], b := [.v, .rel, .s, .i8, .i24], ext := true }
  | .pref => { a := [.s], b := [.v, .rel, .s, .i8, .i24], ext := true }
  | .lds => { d := vKinds, a := [.a], b := if bits m 4 2 = 2 then [.m] else [], ext := true }
  | .sts => { d := if bits m 4 2 = 2 then [.m] else [], a := [.a], b := vKinds, ext := true }
  | .atom => { d := [.v, .rel, .s], a := [.s, .a], b := if bits a 9 3 = 3 then [] else [.v, .rel, .s, .i8],
               c := [.v, .rel, .s, .i8] }
  | .red => { a := [.s, .a], b := if bits a 9 3 = 3 then [] else [.v, .rel, .s, .i8], c := [.v, .rel, .s, .i8] }
  | .cas => { d := [.v, .rel, .s], a := [.s, .a], b := if bits a 9 3 = 3 then [] else [.v, .rel, .s, .i8],
              c := [.v, .rel, .s] }
  | .monitor => { a := [.s], b := [.v, .rel, .s, .i8] }
  | .mwait => { d := [.s], a := sImm }
  | .seal | .unseal => { a := [.s], b := sImm }
  | .cache => if bits m 0 3 = 1 then { a := [.imm0], b := [.imm0] } else { a := [.s], b := sImm }
  | .cpy => { d := [.s], a := [.s], b := sImm, c := if m.getLsbD 5 then [] else [.s] }
  | .cpyg | .cpys => { d := [.s], a := [.s], b := [.s], c := if m.getLsbD 5 then [] else [.s] }
  | .cpywt => { a := [.s], b := sImm }
  | .cpyq => { d := [.s] }
  | .bar | .bara => { d := [.p], a := [.s, .a, .i8, .i24] }
  | .barw => { a := [.s, .a, .i8, .i24], b := [.s, .i8] }
  | .nbar | .nbarw => { a := [.s, .i8] }
  | .racq => { d := if m.getLsbD 0 then [.p] else [], a := sImm }
  | .rrel => { a := sImm }
  | .cacq => if bits m 1 2 = 1 then { d := vKinds, a := [.c], b := [.s, .i8] }
             else { d := if m.getLsbD 0 then [.p] else [], a := [.c] }
  | .crel => if bits m 1 2 = 1 then { d := [.c], a := vKinds, b := [.s, .i8] } else { a := [.c] }
  | .tload => { d := [.t], a := [.s] }
  | .tmap => { d := [.t], a := [.t], b := [.s] }
  | .tmma => { d := [.t], a := [.t], b := [.t], c := if m.getLsbD 0 then [.t, .c] else [] }
  | .tew => { d := [.t], a := [.t], b := if bits m 0 4 ≤ 4 || bits m 0 4 = 9 then [.t] else [],
              c := if bits m 0 4 = 6 then [.s] else if bits m 0 4 = 9 then [.t] else [] }
  | .tred => { d := [.t], a := [.t] }
  | .tcvt => { d := [.t], a := [.t], b := if m.getLsbD 5 then [.s] else [] }
  | .tfmt => { a := [.s], b := [.s, .i8] }
  | .tbind => { d := [.t], a := [.s] }
  | .tfree => { a := [.t, .c] }
  | .tforce => { d := [.c, .s], a := [.t], b := [.s], c := if m.getLsbD 0 then [.s] else [] }
  | .tstore => { d := [.s], a := [.t], b := [.s], c := if m.getLsbD 0 then [.s] else [] }
  | .twait => { a := sImm }
  | .tqry => { d := [.s], a := [.t, .c] }
  | .txdecl | .txend => { a := [.s] }
  | .txsub => { d := [.s] }
  | .txwait | .txqry | .clst | .clwt | .clq => { d := [.s], a := [.s] }
  | .balburn => { a := sImm, b := [.s, .i8] }
  | .balshunt => { d := [.s], a := [.s, .i24] }
  | .pwrwait => { d := [.s], a := sImm, b := sImm }
  | .pair => { d := [.s], a := sImm }
  | .dqpush => { d := [.p], a := sImm }
  | .dqpop => { d := [.s], c := [.p] }
  | .dqsteal => { d := [.s], a := [.s], c := [.p] }
  | .cont => { d := [.p], a := vKinds, b := [.s, .imm0], ext := true }
  | .contw => { d := [.s], a := [.s], b := sImm }
  | .tlbi => if bits m 0 2 = 2 then { a := [.imm0] } else { a := [.s] }

/-- The streams an instruction is accepted in (R59): wave, tile. -/
def Op.streams : Op → Bool × Bool
  | .tload | .tmap | .tmma | .tew | .tred | .tcvt | .tfmt | .tbind | .tfree | .torf
  | .tforce | .tstore | .twait | .tqry => (false, true)
  | .nbar | .nbarw | .mov | .movi | .movs | .bra | .exit | .nop
  | .iadd | .isub | .imin | .imax | .iabs | .ineg | .and | .or | .xor | .not | .shl | .shr | .rot
  | .popc | .clz | .brev | .bfe | .bfi | .sel | .isetp | .lea | .imul | .imulh | .imad | .imadw => (true, true)
  | _ => (true, false)

/-- MOD bits an encoding table marks 0 and no rule names an undefined MOD value (R34, R51). -/
def Op.modRsvd (op : Op) : BitVec 12 :=
  match op with
  | .nop | .bra | .brx | .call | .callx | .ret | .exit | .yield | .region | .rolesw | .phase => 0xFFF
  | .regang => 0xFC0
  | .trap | .brk | .sysc | .fwcall | .movi => 0xF00
  | .rte => 0xFFE
  | .iadd | .isub => 0xFE0
  | .imin | .imax | .and | .or | .xor | .not | .shl | .shr | .popc | .clz | .brev | .bfe | .bfi | .sel
  | .imulh | .imad | .imadw => 0xFFC
  | .iabs | .ineg | .rot | .imul => 0xFF8
  | .isetp => 0xF80
  | .lea => 0xFE0
  | .pack => 0xE00
  | .unpk | .frnd => 0xFC0
  | .mov | .movw | .mset => 0xFFF
  | .movs => 0xFFE
  | .lds => 0x0C0
  | .sts => 0x0C8
  | .st => 0x008
  | .pref => 0x00F
  | .atom | .red | .cas => 0x080
  | .monitor | .mwait | .seal | .unseal => 0xFFF
  | .fence => 0x0FF
  | .cache => 0xFF8
  | .cpy => 0xE00
  | .cpyg | .cpys => 0xE00
  | .bar | .bara | .barw | .ctacq | .ctrel => 0xFFF
  | .nbar | .nbarw | .torf => 0xFF0
  | .racq | .rrel => 0xFFE
  | .tload => 0xFC0
  | .tmap | .tfree | .twait => 0xFFF
  | .tmma | .tred | .tstore => 0xFFC
  | .tew => 0xF80
  | .tfmt => 0xFE0
  | .tbind | .tforce => 0xFFE
  | .tqry => 0xFF8
  | .txdecl => 0xFFE
  | .txsub | .txwait | .txend | .txqry | .balburn | .balshunt | .pwrwait | .pair
  | .dqpush | .dqpop | .dqsteal | .contw | .clst | .clwt | .clq => 0xFFF
  | .cont => 0xFFC
  | .tlbi => 0x3FC
  | _ => 0

/-- Whether the op is one whose EXT[11:0] is judged by check 6 even where no C is due (R371). -/
def Op.cByKind : Op → Bool
  | .tmma | .tew | .tforce | .tstore => true
  | _ => false

def Opd.isRegSrc : Opd → Bool
  | .v _ | .s _ | .rel _ _ => true
  | _ => false

/-- Instructions whose operand C is a destination only, so that FEC stands for no source. -/
def Op.cIsDest : Op → Bool
  | .vcomp | .dqpop | .dqsteal => true
  | _ => false

/-- The FE bits stand only for vector and scalar register sources (R49); ST's data source D goes by FEC (R251). -/
def feOk (op : Op) (h : Hd) (o : Ops) : Bool :=
  (!h.fea || o.a.isRegSrc) && (!h.feb || o.b.isRegSrc) &&
  (!h.fec || (if op = .st then o.d.isRegSrc else !op.cIsDest && o.c.isRegSrc))

/-- The operands of a word under a form. A field the form does not use gives no operand. -/
def opsOf (f : Form) (r : Raw) : Ops where
  d := if f.d = [] then .none else decOpd r.ext r.d
  a := if f.a = [] then .none else decOpd r.ext r.a
  b := if f.b = [] ∨ (f.b.contains .zero ∧ r.b = 0) then .none else decOpd r.ext r.b
  c := if f.c = [] then .none else decOpd r.ext (r.ext.extractLsb' 0 12)
  x := if f.ext then r.ext else 0

/-- How many claims a word makes on EXT (R43). -/
def extClaims (f : Form) (o : Ops) : Nat :=
  (if f.c = [] then 0 else 1) + (if f.ext then 1 else 0) +
  (([o.d, o.a, o.b].filter (fun x => x.isKind .i24)).length)

/-- EXT as the operands give it. -/
def encExt (f : Form) (o : Ops) : BitVec 24 :=
  if f.ext then o.x else
  match o.c, o.d, o.a, o.b with
  | .none, .imm24 n, _, _ => n
  | .none, _, .imm24 n, _ => n
  | .none, _, _, .imm24 n => n
  | c, _, _, _ => 0#12 ++ encOpd c

/-- FP packed types leave EXT[23:16] of a 24-bit immediate reserved (R40), except in FSCALE's B (R175). -/
def fpImmOk (op : Op) (m : BitVec 12) (o : Ops) : Bool :=
  let packed := bits m 0 3 = 1 || bits m 0 3 = 2
  let hiOk : Opd → Bool := fun x => match x with | .imm24 n => bits n 16 8 = 0 | _ => true
  match op with
  | .fadd | .fsub | .fmul | .ffma | .fmin | .fmax
  | .frcp | .frsq | .fsqrt | .fexp2 | .flog2 | .fsin | .fcos | .ftanh => !packed || (hiOk o.a && hiOk o.b)
  | .fscale => !packed || hiOk o.a
  | _ => true

/-- Immediates that only 0 or 1 may stand in: NBARW's phase (R344) and, by the same table entry, BARW's (R229). -/
def phaseOk (op : Op) (o : Ops) : Bool :=
  match op with
  | .nbarw => match o.a with | .imm8 n => n == 0 || n == 1 | _ => true
  | .barw => match o.b with | .imm8 n => n == 0 || n == 1 | _ => true
  | _ => true

/-- The reserved MOD bits of a word: the sign-extend bit of ST and STS is reserved except beside the sizes with which R251 and
R224 name it an undefined MOD value. -/
def Op.modRsvdAt (op : Op) (m : BitVec 12) : BitVec 12 :=
  let z := bits m 0 3
  if (op = .st && (z = 3 || z = 4)) || (op = .sts && (z = 2 || z = 3 || z = 4)) then op.modRsvd &&& 0xFF7 else op.modRsvd

/-- Check 5 (R34, R38, R40, R46, R49, R59): a used field must be the field of the operand it names, an unused
one 0, EXT what its one claim makes it, and no reserved MOD or HINT bit set. -/
def rsvdOk (ctx : DCtx) (op : Op) (f : Form) (r : Raw) (h : Hd) (o : Ops) : Bool :=
  r.d == encOpd o.d && r.a == encOpd o.a && r.b == encOpd o.b &&
  (if extClaims f o = 0 then (if op.cByKind then bits r.ext 12 12 = 0 else r.ext = 0)
   else if extClaims f o = 1 then r.ext == encExt f o else true) &&
  (r.mod &&& op.modRsvdAt r.mod) == 0 &&
  feOk op h o && (!ctx.tile || !(h.yld || h.fea || h.feb || h.fec)) &&
  fpImmOk op r.mod o && phaseOk op o

def Opd.accepted (ks : List Kind) (o : Opd) : Bool :=
  match ks, o with
  | [], .none => true
  | ks, o => ks.any (fun k => o.isKind k)

/-- Operands that make an integer instruction run in the vector unit (R139). -/
def Opd.perLane : Opd → Bool
  | .v _ | .rel _ _ | .a _ => true
  | .sp n => n == 0 || n == 2
  | _ => false

def Opd.isP : Opd → Bool | .p _ => true | _ => false
def Opd.isS : Opd → Bool | .s _ => true | _ => false
def Opd.isNone : Opd → Bool | .none => true | _ => false

/-- Kinds that stand in some relation to one another (R41, R133, R139, R144, R170, R281). -/
def kindRel (op : Op) (o : Ops) : Bool :=
  match op with
  | .and | .or | .xor | .not =>
    let ps := [o.d, o.a, o.b].filter (fun x => !x.isNone)
    (ps.all Opd.isP || ps.all (fun x => !x.isP)) && (!o.d.isS || !(o.a.perLane || o.b.perLane))
  | .iadd | .isub | .imin | .imax | .iabs | .ineg | .shl | .shr | .rot | .popc | .clz | .brev | .bfe | .bfi
  | .sel | .lea | .imul | .imulh | .imad | .imadw
  | .fadd | .fsub | .fmul | .ffma | .fmin | .fmax | .fscale | .fsetp
  | .frcp | .frsq | .fsqrt | .fexp2 | .flog2 | .fsin | .fcos | .ftanh | .cvt | .pack | .unpk | .frnd
  | .ld | .ldc | .atom | .cas =>
    !o.d.isS || !(o.a.perLane || o.b.perLane || o.c.perLane)
  | .mov => !o.d.isS || !(o.a.perLane || o.a.isP)
  | .fclass => (if o.d.isP then !o.b.isNone else o.b.isNone) && (!o.d.isS || !o.a.perLane)
  | _ => true

/-- Operands the tile stream does not take (R59, R367). -/
def tileOk : Opd → Bool
  | .v _ | .rel _ _ | .a _ | .m _ => false
  | .s n => n.toNat < 64
  | _ => true

/-- Check 6. An operand C is judged by what EXT's low bits name also where another operand claims EXT as well (R144; log entry 25): only
then does check 9 follow. -/
def kindOk (ctx : DCtx) (op : Op) (f : Form) (r : Raw) (o : Ops) : Bool :=
  o.d.accepted f.d && o.a.accepted f.a && o.b.accepted f.b &&
  o.c.accepted f.c &&
  (!(op.cByKind && extClaims f o = 0) || bits r.ext 0 12 = 0) &&
  kindRel op o &&
  (!ctx.tile || (tileOk o.d && tileOk o.a && tileOk o.b && tileOk o.c))

def Opd.spIdx : Opd → Option Nat
  | .sp n => some n.toNat
  | _ => Option.none

/-- The assigned special-register indices (R54, R55, R56). -/
def spAssigned (n : Nat) : Bool :=
  n ≤ 0x00C || (0x010 ≤ n && n ≤ 0x019) || (0x020 ≤ n && n ≤ 0x027) || (0x030 ≤ n && n ≤ 0x033) ||
  n = 0x040 || n = 0x041 || (0x100 ≤ n && n ≤ 0x108)

/-- Check 7. -/
def specOk (ctx : DCtx) (o : Ops) : Bool :=
  [o.d, o.a, o.b, o.c].all (fun x => match x.spIdx with
    | some n => spAssigned n && (n ≠ 0x017 || ctx.tile)
    | none => true)

/-- Registers MOVW may write; %EPC (0x012) only in a delegated handler (R54, R55, R62). -/
def spWritable (ctx : DCtx) (n : Nat) : Bool :=
  n = 0x010 || n = 0x011 || n = 0x016 || n = 0x031 || n = 0x100 || n = 0x101 || n = 0x102 ||
  (0x105 ≤ n && n ≤ 0x108) || (n = 0x012 && ctx.inh)

/-- Check 8. -/
def writeOk (ctx : DCtx) (o : Ops) : Bool :=
  (match o.d.spIdx with | some n => spWritable ctx n | none => true) &&
  [o.a, o.b, o.c].all (fun x => match x.spIdx with | some n => n ≠ 0x106 && n ≠ 0x107 | none => true)

/-- Check 4 (R55, R58). -/
def privOk (ctx : DCtx) (op : Op) (o : Ops) : Bool :=
  ctx.priv || (op ≠ .tlbi && op ≠ .fwcall &&
    [o.d, o.a, o.b, o.c].all (fun x => match x.spIdx with | some n => n < 0x100 | none => true))

/-! ## MOD -/

def IType.code : IType → BitVec 2 | .s32 => 0 | .u32 => 1 | .s64 => 2 | .u64 => 3
def IType.ofCode (n : BitVec 2) : IType := if n = 0 then .s32 else if n = 1 then .u32 else if n = 2 then .s64 else .u64
def IType.is64 : IType → Bool | .s64 | .u64 => true | _ => false
def IType.signed : IType → Bool | .s32 | .s64 => true | _ => false
def Cmp.code : Cmp → BitVec 3 | .eq => 0 | .ne => 1 | .lt => 2 | .le => 3 | .gt => 4 | .ge => 5
def Cmp.ofCode (n : BitVec 3) : Option Cmp :=
  [Cmp.eq, .ne, .lt, .le, .gt, .ge].find? (fun x => x.code == n)
def Comb.code : Comb → BitVec 2 | .none => 0 | .and => 1 | .or => 2 | .xor => 3
def Comb.ofCode (n : BitVec 2) : Comb := if n = 0 then .none else if n = 1 then .and else if n = 2 then .or else .xor
def FType.code : FType → BitVec 3 | .f32 => 0 | .f16 => 1 | .bf16 => 2
def FType.ofCode (n : BitVec 3) : Option FType := [FType.f32, .f16, .bf16].find? (fun x => x.code == n)
def Rm.code : Rm → BitVec 3 | .dyn => 0 | .rne => 1 | .rz => 2 | .ru => 3 | .rd => 4
def Rm.ofCode (n : BitVec 3) : Option Rm := [Rm.dyn, .rne, .rz, .ru, .rd].find? (fun x => x.code == n)
def FCmp.code : FCmp → BitVec 3
  | .eq => 0 | .ne => 1 | .lt => 2 | .le => 3 | .gt => 4 | .ge => 5 | .num => 6 | .nan => 7
def FCmp.ofCode (n : BitVec 3) : FCmp :=
  (([FCmp.eq, .ne, .lt, .le, .gt, .ge, .num].find? (fun x => x.code == n)).getD .nan)
def ElemTy.code : ElemTy → BitVec 4
  | .fp32 => 0 | .fp16 => 1 | .bf16 => 2 | .e4m3 => 3 | .e5m2 => 4 | .pb8 => 5 | .pb4 => 6
  | .int8 => 7 | .uint8 => 8 | .int32 => 9 | .uint32 => 10 | .int16 => 11
def ElemTy.all : List ElemTy :=
  [.fp32, .fp16, .bf16, .e4m3, .e5m2, .pb8, .pb4, .int8, .uint8, .int32, .uint32, .int16]
def ElemTy.ofCode (n : BitVec 4) : Option ElemTy := ElemTy.all.find? (fun x => x.code == n)
def Size.code : Size → BitVec 3 | .b8 => 0 | .b16 => 1 | .b32 => 2 | .b64 => 3 | .b128 => 4
def Size.ofCode (n : BitVec 3) : Option Size := [Size.b8, .b16, .b32, .b64, .b128].find? (fun x => x.code == n)
def Policy.code : Policy → BitVec 2 | .normal => 0 | .stream => 1 | .noalloc => 2 | .ro => 3
def Policy.ofCode (n : BitVec 2) : Policy :=
  if n = 0 then .normal else if n = 1 then .stream else if n = 2 then .noalloc else .ro
def Order.code : Order → BitVec 2 | .relaxed => 0 | .acq => 1 | .rel => 2 | .ar => 3
def Order.ofCode (n : BitVec 2) : Order := if n = 0 then .relaxed else if n = 1 then .acq else if n = 2 then .rel else .ar
def Scope.code : Scope → BitVec 2 | .blk => 0 | .clu => 1 | .dev => 2 | .sys => 3
def Scope.ofCode (n : BitVec 2) : Scope := if n = 0 then .blk else if n = 1 then .clu else if n = 2 then .dev else .sys
def AForm.code : AForm → BitVec 2 | .disp => 0 | .post => 1 | .wrap => 2
def AForm.ofCode (n : BitVec 2) : Option AForm := [AForm.disp, .post, .wrap].find? (fun x => x.code == n)
def ShMode.code : ShMode → BitVec 2 | .idx => 0 | .up => 1 | .down => 2 | .xor => 3
def ShMode.ofCode (n : BitVec 2) : ShMode := if n = 0 then .idx else if n = 1 then .up else if n = 2 then .down else .xor
def RType.code : RType → BitVec 3 | .s32 => 0 | .u32 => 1 | .f32 => 2
def RType.ofCode (n : BitVec 3) : Option RType := [RType.s32, .u32, .f32].find? (fun x => x.code == n)
def ROp.code : ROp → BitVec 3 | .add => 0 | .min => 1 | .max => 2 | .and => 3 | .or => 4 | .xor => 5
def ROp.ofCode (n : BitVec 3) : Option ROp := [ROp.add, .min, .max, .and, .or, .xor].find? (fun x => x.code == n)
def VoteMode.code : VoteMode → BitVec 2 | .all => 0 | .any => 1 | .uni => 2
def VoteMode.ofCode (n : BitVec 2) : Option VoteMode := [VoteMode.all, .any, .uni].find? (fun x => x.code == n)
def AOp.code : AOp → BitVec 4
  | .add => 0 | .min => 1 | .max => 2 | .and => 3 | .or => 4 | .xor => 5 | .exch => 6 | .incw => 7 | .decw => 8
def AOp.ofCode (n : BitVec 4) : Option AOp :=
  [AOp.add, .min, .max, .and, .or, .xor, .exch, .incw, .decw].find? (fun x => x.code == n)
def ATy.code : ATy → BitVec 3
  | .u32 => 0 | .s32 => 1 | .u64 => 2 | .s64 => 3 | .f32 => 4 | .f16x2 => 5 | .bf16x2 => 6 | .b128 => 7
def ATy.ofCode (n : BitVec 3) : ATy :=
  (([ATy.u32, .s32, .u64, .s64, .f32, .f16x2, .bf16x2].find? (fun x => x.code == n)).getD .b128)
def TewOp.code : TewOp → BitVec 4
  | .add => 0 | .sub => 1 | .mul => 2 | .max => 3 | .min => 4 | .exp2 => 5 | .scale => 6 | .neg => 7 | .abs => 8 | .sel => 9
def TewOp.ofCode (n : BitVec 4) : Option TewOp :=
  [TewOp.add, .sub, .mul, .max, .min, .exp2, .scale, .neg, .abs, .sel].find? (fun x => x.code == n)

def FType.isPacked : FType → Bool | .f32 => false | _ => true

/-- The combinations of R282 that are defined. -/
def atomOk (op : AOp) (ty : ATy) : Bool :=
  match ty with
  | .u32 | .u64 => true
  | .s32 | .s64 => op ≠ .incw && op ≠ .decw
  | .f32 => op = .add || op = .min || op = .max || op = .exch
  | .f16x2 | .bf16x2 => op = .add || op = .min || op = .max
  | .b128 => false

def AddMod.enc (x : AddMod) : BitVec 12 := 0#7 ++ (bit1 x.ci ++ (bit1 x.co ++ (bit1 x.sat ++ x.t.code)))
def AddMod.dec (m : BitVec 12) : AddMod := ⟨.ofCode (m.extractLsb' 0 2), m.getLsbD 2, m.getLsbD 3, m.getLsbD 4⟩
def SatMod.enc (x : SatMod) : BitVec 12 := 0#9 ++ (bit1 x.sat ++ x.t.code)
def SatMod.dec (m : BitVec 12) : SatMod := ⟨.ofCode (m.extractLsb' 0 2), m.getLsbD 2⟩
def RotMod.enc (x : RotMod) : BitVec 12 := 0#9 ++ (bit1 x.right ++ x.t.code)
def RotMod.dec (m : BitVec 12) : RotMod := ⟨.ofCode (m.extractLsb' 0 2), m.getLsbD 2⟩
def encT (t : IType) : BitVec 12 := 0#10 ++ t.code
def decT (m : BitVec 12) : IType := .ofCode (m.extractLsb' 0 2)
def SetpMod.enc (x : SetpMod) : BitVec 12 := 0#5 ++ (x.comb.code ++ (x.cmp.code ++ x.t.code))
def SetpMod.dec (m : BitVec 12) : Option SetpMod := do
  let c ← Cmp.ofCode (m.extractLsb' 2 3)
  pure ⟨.ofCode (m.extractLsb' 0 2), c, .ofCode (m.extractLsb' 5 2)⟩
def LeaMod.enc (x : LeaMod) : BitVec 12 := 0#7 ++ (x.n ++ x.t.code)
def LeaMod.dec (m : BitVec 12) : LeaMod := ⟨.ofCode (m.extractLsb' 0 2), m.extractLsb' 2 3⟩
def FpMod.enc (x : FpMod) : BitVec 12 :=
  let lo : BitVec 6 := x.rm.code ++ x.t.code
  let ab : BitVec 10 := bit1 x.absB ++ (bit1 x.negB ++ (bit1 x.absA ++ (bit1 x.negA ++ lo)))
  bit1 x.sat ++ (bit1 x.negC ++ ab)
def FpMod.dec (m : BitVec 12) : Option FpMod := do
  let t ← FType.ofCode (m.extractLsb' 0 3)
  let r ← Rm.ofCode (m.extractLsb' 3 3)
  pure ⟨t, r, m.getLsbD 6, m.getLsbD 7, m.getLsbD 8, m.getLsbD 9, m.getLsbD 10, m.getLsbD 11⟩
def FsetpMod.enc (x : FsetpMod) : BitVec 12 :=
  let lo : BitVec 6 := x.cmp.code ++ 0#3
  let ab : BitVec 10 := bit1 x.absB ++ (bit1 x.negB ++ (bit1 x.absA ++ (bit1 x.negA ++ lo)))
  x.comb.code ++ ab
def FsetpMod.dec (m : BitVec 12) : Option FsetpMod :=
  if bits m 0 3 = 0 then
    some ⟨.ofCode (m.extractLsb' 3 3), m.getLsbD 6, m.getLsbD 7, m.getLsbD 8, m.getLsbD 9, .ofCode (m.extractLsb' 10 2)⟩
  else none
def CvtMod.enc (x : CvtMod) : BitVec 12 := bit1 x.sat ++ (x.rm.code ++ (x.src.code ++ x.dst.code))
def CvtMod.dec (m : BitVec 12) : Option CvtMod := do
  let d ← ElemTy.ofCode (m.extractLsb' 0 4)
  let s ← ElemTy.ofCode (m.extractLsb' 4 4)
  let r ← Rm.ofCode (m.extractLsb' 8 3)
  if d = .pb8 ∨ d = .pb4 ∨ s = .pb8 ∨ s = .pb4 then none else pure ⟨d, s, r, m.getLsbD 11⟩

/-- Bits of an element (R53). -/
def ElemTy.width : ElemTy → Nat
  | .fp32 | .int32 | .uint32 => 32
  | .fp16 | .bf16 | .int16 => 16
  | .e4m3 | .e5m2 | .pb8 | .int8 | .uint8 => 8
  | .pb4 => 4

def PackMod.enc (x : PackMod) : BitVec 12 := 0#3 ++ (bit1 x.sat ++ (bit1 x.hi ++ (x.rm.code ++ x.ty.code)))
def PackMod.dec (m : BitVec 12) : Option PackMod := do
  let t ← ElemTy.ofCode (m.extractLsb' 0 4)
  let r ← Rm.ofCode (m.extractLsb' 4 3)
  if t = .pb8 ∨ t = .pb4 ∨ t.width = 32 ∨ (m.getLsbD 7 ∧ t.width = 16) then none
  else pure ⟨t, r, m.getLsbD 7, m.getLsbD 8⟩
def UnpkMod.enc (x : UnpkMod) : BitVec 12 := 0#6 ++ (x.n ++ x.ty.code)
def UnpkMod.dec (m : BitVec 12) : Option UnpkMod := do
  let t ← ElemTy.ofCode (m.extractLsb' 0 4)
  let n : BitVec 2 := m.extractLsb' 4 2
  if t = .pb8 ∨ t = .pb4 ∨ t.width = 32 ∨ 32 ≤ n.toNat * t.width then none else pure ⟨t, n⟩
def FrndMod.enc (x : FrndMod) : BitVec 12 := 0#6 ++ (x.rm.code ++ x.t.code)
def FrndMod.dec (m : BitVec 12) : Option FrndMod := do
  let t ← FType.ofCode (m.extractLsb' 0 3)
  let r ← Rm.ofCode (m.extractLsb' 3 3)
  pure ⟨t, r⟩
def ShflMod.enc (x : ShflMod) : BitVec 12 := 0#7 ++ (x.f ++ x.mode.code)
def ShflMod.dec (m : BitVec 12) : Option ShflMod :=
  if bits m 5 7 = 0 ∧ bits m 2 3 ≤ 5 then some ⟨.ofCode (m.extractLsb' 0 2), m.extractLsb' 2 3⟩ else none
def redOk (t : RType) (op : ROp) : Bool := t ≠ .f32 || (op = .add || op = .min || op = .max)
def VredMod.enc (x : VredMod) : BitVec 12 := 0#3 ++ (x.step ++ (x.op.code ++ x.t.code))
def VredMod.dec (m : BitVec 12) : Option VredMod := do
  let t ← RType.ofCode (m.extractLsb' 0 3)
  let o ← ROp.ofCode (m.extractLsb' 3 3)
  if bits m 6 3 ≤ 5 ∧ bits m 9 3 = 0 ∧ redOk t o then pure ⟨t, o, m.extractLsb' 6 3⟩ else none
def VscanMod.enc (x : VscanMod) : BitVec 12 := 0#5 ++ (bit1 x.excl ++ (x.op.code ++ x.t.code))
def VscanMod.dec (m : BitVec 12) : Option VscanMod := do
  let t ← RType.ofCode (m.extractLsb' 0 3)
  let o ← ROp.ofCode (m.extractLsb' 3 3)
  if bits m 7 5 = 0 ∧ redOk t o then pure ⟨t, o, m.getLsbD 6⟩ else none
def LdMod.enc (x : LdMod) : BitVec 12 :=
  let lo : BitVec 6 := x.scale ++ (bit1 x.sx ++ x.size.code)
  x.scope.code ++ (x.ord.code ++ (x.pol.code ++ lo))
def LdMod.dec (m : BitVec 12) : Option LdMod := do
  let z ← Size.ofCode (m.extractLsb' 0 3)
  pure ⟨z, m.getLsbD 3, m.extractLsb' 4 2, .ofCode (m.extractLsb' 6 2), .ofCode (m.extractLsb' 8 2), .ofCode (m.extractLsb' 10 2)⟩
/-- MOD constraints shared by the four (R50, R251). -/
def LdMod.ok (x : LdMod) (o : Ops) : Bool :=
  (x.ord ≠ .relaxed || x.scope = .blk) &&
  (!x.sx || (x.size = .b8 || x.size = .b16 || (x.size = .b32 && o.d.isS))) &&
  (!(x.size = .b128 && o.d.isS))
def LdsMod.enc (x : LdsMod) : BitVec 12 :=
  let lo : BitVec 6 := x.form.code ++ (bit1 x.sx ++ x.size.code)
  x.scope.code ++ (x.ord.code ++ (0#2 ++ lo))
def LdsMod.dec (m : BitVec 12) : Option LdsMod := do
  let z ← Size.ofCode (m.extractLsb' 0 3)
  let f ← AForm.ofCode (m.extractLsb' 4 2)
  pure ⟨z, m.getLsbD 3, f, .ofCode (m.extractLsb' 8 2), .ofCode (m.extractLsb' 10 2)⟩
/-- MOD constraints of LDS and STS (R224). -/
def LdsMod.ok (x : LdsMod) : Bool :=
  (!x.sx || x.size = .b8 || x.size = .b16) && (x.scope = .blk || x.scope = .clu) &&
  (x.ord ≠ .relaxed || x.scope = .blk)
def AtomMod.enc (x : AtomMod) : BitVec 12 :=
  x.scope.code ++ (x.ord.code ++ (0#1 ++ (x.ty.code ++ x.op.code)))
def AtomMod.dec (m : BitVec 12) : Option AtomMod := do
  let o ← AOp.ofCode (m.extractLsb' 0 4)
  pure ⟨o, .ofCode (m.extractLsb' 4 3), .ofCode (m.extractLsb' 8 2), .ofCode (m.extractLsb' 10 2)⟩
def OrdMod.enc (x : OrdMod) : BitVec 12 := x.scope.code ++ (x.ord.code ++ 0#8)
def OrdMod.dec (m : BitVec 12) : OrdMod := ⟨.ofCode (m.extractLsb' 8 2), .ofCode (m.extractLsb' 10 2)⟩
def CpyMod.enc (x : CpyMod) : BitVec 12 :=
  let lo : BitVec 6 := bit1 x.nc ++ (bit1 x.dst ++ (bit1 x.src ++ x.ch))
  0#3 ++ (x.e ++ lo)
def CpyMod.dec (m : BitVec 12) : CpyMod :=
  ⟨m.extractLsb' 0 3, m.getLsbD 3, m.getLsbD 4, m.getLsbD 5, m.extractLsb' 6 3⟩
def TloadMod.enc (x : TloadMod) : BitVec 12 := 0#6 ++ (bit1 x.sp ++ (bit1 x.mc ++ x.ty.code))
def TloadMod.dec (m : BitVec 12) : Option TloadMod := do
  let t ← ElemTy.ofCode (m.extractLsb' 0 4)
  if m.getLsbD 4 ∧ m.getLsbD 5 then none else pure ⟨t, m.getLsbD 4, m.getLsbD 5⟩
def TmmaMod.enc (x : TmmaMod) : BitVec 12 := 0#10 ++ (bit1 x.ol ++ bit1 x.acc)
def TmmaMod.dec (m : BitVec 12) : TmmaMod := ⟨m.getLsbD 0, m.getLsbD 1⟩
def TewMod.enc (x : TewMod) : BitVec 12 := 0#5 ++ (x.rm.code ++ x.op.code)
def TewMod.dec (m : BitVec 12) : Option TewMod := do
  let o ← TewOp.ofCode (m.extractLsb' 0 4)
  let r ← Rm.ofCode (m.extractLsb' 4 3)
  pure ⟨o, r⟩
def TredMod.enc (x : TredMod) : BitVec 12 := 0#10 ++ (bit1 x.col ++ bit1 x.max)
def TredMod.dec (m : BitVec 12) : TredMod := ⟨m.getLsbD 0, m.getLsbD 1⟩
def TcvtMod.enc (x : TcvtMod) : BitVec 12 :=
  let lo : BitVec 8 := bit1 x.olsp ++ (bit1 x.olfault ++ (bit1 x.ol ++ (bit1 x.fixed ++ x.ty.code)))
  bit1 x.sat ++ (x.rm.code ++ lo)
def TcvtMod.dec (m : BitVec 12) : Option TcvtMod := do
  let t ← ElemTy.ofCode (m.extractLsb' 0 4)
  let r ← Rm.ofCode (m.extractLsb' 8 3)
  if (m.getLsbD 4 ∧ ¬(t = .pb8 ∨ t = .pb4)) ∨ ((m.getLsbD 6 ∨ m.getLsbD 7) ∧ !m.getLsbD 5) ∨ (m.getLsbD 11 ∧ m.getLsbD 5) then none
  else pure ⟨t, m.getLsbD 4, m.getLsbD 5, m.getLsbD 6, m.getLsbD 7, r, m.getLsbD 11⟩
def TfmtMod.enc (x : TfmtMod) : BitVec 12 := 0#7 ++ (bit1 x.sp ++ x.fmt.code)
def TfmtMod.dec (m : BitVec 12) : Option TfmtMod := do
  let t ← ElemTy.ofCode (m.extractLsb' 0 4)
  pure ⟨t, m.getLsbD 4⟩
def TstoreMod.enc (x : TstoreMod) : BitVec 12 := 0#10 ++ (bit1 x.sp ++ bit1 x.close)
def TstoreMod.dec (m : BitVec 12) : TstoreMod := ⟨m.getLsbD 0, m.getLsbD 1⟩

/-- A 64-bit integer type runs in the scalar unit only, so no operand is per lane (R52, R140). -/
def t64Ok (t : IType) (o : Ops) : Bool :=
  !t.is64 || !([o.d, o.a, o.b, o.c].any Opd.perLane)
def Ops.predForm (o : Ops) : Bool := o.d.isP

/-! ## From the fields to the instruction and back -/

/-- The instruction of an op, its MOD and its operands; none where MOD is undefined (R50, R51, R52) or its type
code reserved (R53). -/
def build (op : Op) (m : BitVec 12) (h : Hd) (o : Ops) : Option Instr :=
  match op with
  | .nop => some (.nop h)
  | .exit => some (.exit h)
  | .yield => some (.yield h)
  | .region => some (.region h)
  | .ctacq => some (.ctacq h)
  | .ctrel => some (.ctrel h)
  | .bra => some (.bra h o.x)
  | .brx => some (.brx h o)
  | .call => some (.call h o)
  | .callx => some (.callx h o)
  | .ret => some (.ret h o)
  | .rte => if m.getLsbD 0 then some (.rteRegion h) else some (.rte h)
  | .rolesw => some (.rolesw h o)
  | .phase => some (.phase h o)
  | .regang => some (.regang h (m.extractLsb' 0 6))
  | .trap => some (.trap h (m.extractLsb' 0 8))
  | .brk => some (.brk h (m.extractLsb' 0 8))
  | .iadd => if (let x := AddMod.dec m; t64Ok x.t o && !(x.sat && (x.co || x.ci))) then some (.iadd h (.dec m) o) else none
  | .isub => if (let x := AddMod.dec m; t64Ok x.t o && !(x.sat && (x.co || x.ci))) then some (.isub h (.dec m) o) else none
  | .imin => if t64Ok (decT m) o then some (.imin h (decT m) o) else none
  | .imax => if t64Ok (decT m) o then some (.imax h (decT m) o) else none
  | .shl => if t64Ok (decT m) o then some (.shl h (decT m) o) else none
  | .shr => if t64Ok (decT m) o then some (.shr h (decT m) o) else none
  | .popc => if t64Ok (decT m) o then some (.popc h (decT m) o) else none
  | .clz => if t64Ok (decT m) o then some (.clz h (decT m) o) else none
  | .brev => if t64Ok (decT m) o then some (.brev h (decT m) o) else none
  | .bfe => if t64Ok (decT m) o then some (.bfe h (decT m) o) else none
  | .bfi => if t64Ok (decT m) o then some (.bfi h (decT m) o) else none
  | .sel => if t64Ok (decT m) o then some (.sel h (decT m) o) else none
  | .imulh => if t64Ok (decT m) o then some (.imulh h (decT m) o) else none
  | .imad => if t64Ok (decT m) o then some (.imad h (decT m) o) else none
  | .imadw => if t64Ok (decT m) o then some (.imadw h (decT m) o) else none
  | .and => if (t64Ok (decT m) o && (!o.predForm || decT m = .s32)) then some (.and h (decT m) o) else none
  | .or => if (t64Ok (decT m) o && (!o.predForm || decT m = .s32)) then some (.or h (decT m) o) else none
  | .xor => if (t64Ok (decT m) o && (!o.predForm || decT m = .s32)) then some (.xor h (decT m) o) else none
  | .not => if (t64Ok (decT m) o && (!o.predForm || decT m = .s32)) then some (.not h (decT m) o) else none
  | .iabs => if (t64Ok (decT m) o && (decT m).signed) then some (.iabs h (.dec m) o) else none
  | .ineg => if (t64Ok (decT m) o && ((decT m).signed || !m.getLsbD 2)) then some (.ineg h (.dec m) o) else none
  | .rot => if t64Ok (decT m) o then some (.rot h (.dec m) o) else none
  | .lea => if t64Ok (decT m) o then some (.lea h (.dec m) o) else none
  | .imul => if t64Ok (decT m) o then some (.imul h (.dec m) o) else none
  | .isetp => ((SetpMod.dec m).bind fun x => if t64Ok x.t o then some (.isetp h x o) else none)
  | .fadd => ((FpMod.dec m).bind fun x => if !x.negC then some (.fadd h x o) else none)
  | .fsub => ((FpMod.dec m).bind fun x => if !x.negC then some (.fsub h x o) else none)
  | .fmul => ((FpMod.dec m).bind fun x => if !x.negC then some (.fmul h x o) else none)
  | .ffma => ((FpMod.dec m).bind fun x => some (.ffma h x o))
  | .fmin => ((FpMod.dec m).bind fun x => if x.rm = .dyn && !x.negC && !x.sat then some (.fmin h x o) else none)
  | .fmax => ((FpMod.dec m).bind fun x => if x.rm = .dyn && !x.negC && !x.sat then some (.fmax h x o) else none)
  | .fsetp => ((FsetpMod.dec m).bind fun x => some (.fsetp h x o))
  | .fclass => if m = 0 then some (.fclass h o) else none
  | .fscale => ((FpMod.dec m).bind fun x => if !x.negB && !x.absB && !x.negC then some (.fscale h x o) else none)
  | .frcp => ((FpMod.dec m).bind fun x => if !x.negB && !x.absB && !x.negC && (x.rm = .dyn || x.rm = .rne) then some (.frcp h x o) else none)
  | .frsq => ((FpMod.dec m).bind fun x => if !x.negB && !x.absB && !x.negC && (x.rm = .dyn || x.rm = .rne) then some (.frsq h x o) else none)
  | .fexp2 => ((FpMod.dec m).bind fun x => if !x.negB && !x.absB && !x.negC && (x.rm = .dyn || x.rm = .rne) then some (.fexp2 h x o) else none)
  | .flog2 => ((FpMod.dec m).bind fun x => if !x.negB && !x.absB && !x.negC && (x.rm = .dyn || x.rm = .rne) then some (.flog2 h x o) else none)
  | .fsin => ((FpMod.dec m).bind fun x => if !x.negB && !x.absB && !x.negC && (x.rm = .dyn || x.rm = .rne) then some (.fsin h x o) else none)
  | .fcos => ((FpMod.dec m).bind fun x => if !x.negB && !x.absB && !x.negC && (x.rm = .dyn || x.rm = .rne) then some (.fcos h x o) else none)
  | .ftanh => ((FpMod.dec m).bind fun x => if !x.negB && !x.absB && !x.negC && (x.rm = .dyn || x.rm = .rne) then some (.ftanh h x o) else none)
  | .fsqrt => ((FpMod.dec m).bind fun x => if !x.negB && !x.absB && !x.negC then some (.fsqrt h x o) else none)
  | .cvt => ((CvtMod.dec m).bind fun x => some (.cvt h x o))
  | .pack => ((PackMod.dec m).bind fun x => some (.pack h x o))
  | .unpk => ((UnpkMod.dec m).bind fun x => some (.unpk h x o))
  | .frnd => ((FrndMod.dec m).bind fun x => some (.frnd h x o))
  | .shfl => ((ShflMod.dec m).bind fun x => some (.shfl h x o))
  | .vred => ((VredMod.dec m).bind fun x => some (.vred h x o))
  | .vscan => ((VscanMod.dec m).bind fun x => some (.vscan h x o))
  | .vote => if bits m 2 10 = 0 then (VoteMode.ofCode (m.extractLsb' 0 2)).map (fun x => .vote h x o) else none
  | .vbal => if m = 0 then some (.vbal h o) else none
  | .vfirst => if m = 0 then some (.vfirst h o) else none
  | .vcomp => if bits m 1 11 = 0 then some (.vcomp h (m.getLsbD 0) o) else none
  | .vexp => if bits m 1 11 = 0 then some (.vexp h (m.getLsbD 0) o) else none
  | .mov => some (.mov h o)
  | .movi => some (.movi h (m.extractLsb' 0 8 ++ o.x) { o with x := 0 })
  | .movs => if m.getLsbD 0 then some (.movsPut h o) else some (.movsGet h o)
  | .movw => some (.movw h o)
  | .mset => some (.mset h o)
  | .ld => ((LdMod.dec m).bind fun x => if x.ok o && (x.ord = .relaxed || x.ord = .acq) then some (.ld h x o) else none)
  | .st => ((LdMod.dec m).bind fun x => if x.ok o && (x.ord = .relaxed || x.ord = .rel) && x.pol ≠ .ro then some (.st h x o) else none)
  | .lds => ((LdsMod.dec m).bind fun x => if x.ok && (x.ord = .relaxed || x.ord = .acq) then some (.lds h x o) else none)
  | .sts => ((LdsMod.dec m).bind fun x => if x.ok && (x.ord = .relaxed || x.ord = .rel) then some (.sts h x o) else none)
  | .ldc => ((LdMod.dec m).bind fun x => if x.ok o && x.ord = .relaxed && x.pol = .normal then some (.ldc h x o) else none)
  | .pref => ((LdMod.dec m).bind fun x => if x.ord = .relaxed && x.scope = .blk && x.pol ≠ .noalloc then some (.pref h x o) else none)
  | .atom => ((AtomMod.dec m).bind fun x => if atomOk x.op x.ty then some (.atom h x o) else none)
  | .red => ((AtomMod.dec m).bind fun x => if atomOk x.op x.ty && (x.ord = .relaxed || x.ord = .rel) then some (.red h x o) else none)
  | .cas => ((AtomMod.dec m).bind fun x => if x.op = .add && (x.ty = .u32 || x.ty = .u64 || x.ty = .b128) then some (.cas h x o) else none)
  | .monitor => some (.monitor h o)
  | .mwait => some (.mwait h o)
  | .fence => if (OrdMod.dec m).ord = .relaxed then none else some (.fence h (.dec m))
  | .seal => some (.seal h o)
  | .unseal => some (.unseal h o)
  | .cache => match bits m 0 3 with | 0 => some (.cacheRoinv h o) | 1 => some (.cacheRoinvall h) | 2 => some (.cacheClean h o) | 3 => some (.cacheFlush h o) | _ => none
  | .cpy => if bits m 6 3 = 0 then some (.cpy h (.dec m) o) else none
  | .cpyg => some (.cpyg h (.dec m) o)
  | .cpys => some (.cpys h (.dec m) o)
  | .cpywt => if bits m 3 9 = 0 then some (.cpywt h (m.extractLsb' 0 3) o) else none
  | .cpyq => if bits m 3 9 = 0 then some (.cpyq h (m.extractLsb' 0 3) o) else none
  | .bar => some (.bar h o)
  | .bara => some (.bara h o)
  | .barw => some (.barw h o)
  | .nbar => some (.nbar h (m.extractLsb' 0 4) o)
  | .nbarw => some (.nbarw h (m.extractLsb' 0 4) o)
  | .racq => if m.getLsbD 0 then some (.racqTry h o) else some (.racq h o)
  | .rrel => if m.getLsbD 0 then none else some (.rrel h o)
  | .cacq => if bits m 4 8 ≠ 0 then none else match bits m 0 4 with | 0 => some (.cacq h o) | 1 => some (.cacqTry h o) | 2 => some (.cacqRd h false o) | 10 => some (.cacqRd h true o) | _ => none
  | .crel => if bits m 4 8 ≠ 0 then none else match bits m 0 4 with | 0 => some (.crel h o) | 2 => some (.crelWr h false o) | 10 => some (.crelWr h true o) | _ => none
  | .tload => ((TloadMod.dec m).bind fun x => some (.tload h x o))
  | .tmap => some (.tmap h o)
  | .tmma => some (.tmma h (.dec m) o)
  | .tew => ((TewMod.dec m).bind fun x => some (.tew h x o))
  | .tred => some (.tred h (.dec m) o)
  | .tcvt => ((TcvtMod.dec m).bind fun x => some (.tcvt h x o))
  | .tfmt => ((TfmtMod.dec m).bind fun x => some (.tfmt h x o))
  | .tbind => some (.tbind h (m.getLsbD 0) o)
  | .tfree => match o.a with | .c _ => some (.tfreeAcc h o) | _ => some (.tfree h o)
  | .torf => some (.torf h (m.extractLsb' 0 4))
  | .tforce => some (.tforce h (m.getLsbD 0) o)
  | .tstore => some (.tstore h (.dec m) o)
  | .twait => some (.twait h o)
  | .tqry => some (.tqry h (m.extractLsb' 0 3) o)
  | .txdecl => some (.txdecl h (m.getLsbD 0) o)
  | .txsub => some (.txsub h o)
  | .txwait => some (.txwait h o)
  | .txend => some (.txend h o)
  | .txqry => some (.txqry h o)
  | .balburn => some (.balburn h o)
  | .balshunt => some (.balshunt h o)
  | .pwrwait => some (.pwrwait h o)
  | .pair => some (.pair h o)
  | .dqpush => some (.dqpush h o)
  | .dqpop => some (.dqpop h o)
  | .dqsteal => some (.dqsteal h o)
  | .cont => some (.cont h (m.extractLsb' 0 2) o)
  | .contw => some (.contw h o)
  | .clst => some (.clst h o)
  | .clwt => some (.clwt h o)
  | .clq => some (.clq h o)
  | .sysc => match bits m 0 8 with | 0 => some (.syscVersion h) | 1 => some (.syscCapacity h) | 2 => some (.syscQuota h) | 3 => some (.syscMark h) | _ => some (.syscUnassigned h (m.extractLsb' 0 8))
  | .tlbi => if bits m 10 2 ≠ 0 ∧ bits m 10 2 ≠ 2 then none else match bits m 0 2 with | 0 => some (.tlbiVa h (m.getLsbD 11) o) | 1 => some (.tlbiTenant h (m.getLsbD 11) o) | 2 => some (.tlbiAll h (m.getLsbD 11)) | _ => none
  | .fwcall => match bits m 0 8 with | 0 => some (.fwcallVersion h) | 1 => some (.fwcallBbread h) | 2 => some (.fwcallPwrcap h) | 3 => some (.fwcallGreform h) | _ => some (.fwcallUnassigned h (m.extractLsb' 0 8))

/-- The op, MOD, head and operands of an instruction word; none for an event. -/
def Instr.parts : Instr → Option (Op × BitVec 12 × Hd × Ops)
  | .nop h => some (.nop, 0, h, {})
  | .exit h => some (.exit, 0, h, {})
  | .yield h => some (.yield, 0, h, {})
  | .region h => some (.region, 0, h, {})
  | .ctacq h => some (.ctacq, 0, h, {})
  | .ctrel h => some (.ctrel, 0, h, {})
  | .bra h off => some (.bra, 0, h, { x := off })
  | .brx h o => some (.brx, 0, h, o)
  | .call h o => some (.call, 0, h, o)
  | .callx h o => some (.callx, 0, h, o)
  | .ret h o => some (.ret, 0, h, o)
  | .rolesw h o => some (.rolesw, 0, h, o)
  | .phase h o => some (.phase, 0, h, o)
  | .rte h => some (.rte, 0, h, {})
  | .rteRegion h => some (.rte, 1, h, {})
  | .regang h k => some (.regang, (0#6 ++ k), h, {})
  | .trap h n => some (.trap, (0#4 ++ n), h, {})
  | .brk h n => some (.brk, (0#4 ++ n), h, {})
  | .iadd h x o => some (.iadd, x.enc, h, o)
  | .isub h x o => some (.isub, x.enc, h, o)
  | .imin h x o => some (.imin, (encT x), h, o)
  | .imax h x o => some (.imax, (encT x), h, o)
  | .shl h x o => some (.shl, (encT x), h, o)
  | .shr h x o => some (.shr, (encT x), h, o)
  | .popc h x o => some (.popc, (encT x), h, o)
  | .clz h x o => some (.clz, (encT x), h, o)
  | .brev h x o => some (.brev, (encT x), h, o)
  | .bfe h x o => some (.bfe, (encT x), h, o)
  | .bfi h x o => some (.bfi, (encT x), h, o)
  | .sel h x o => some (.sel, (encT x), h, o)
  | .imulh h x o => some (.imulh, (encT x), h, o)
  | .imad h x o => some (.imad, (encT x), h, o)
  | .imadw h x o => some (.imadw, (encT x), h, o)
  | .and h x o => some (.and, (encT x), h, o)
  | .or h x o => some (.or, (encT x), h, o)
  | .xor h x o => some (.xor, (encT x), h, o)
  | .not h x o => some (.not, (encT x), h, o)
  | .iabs h x o => some (.iabs, x.enc, h, o)
  | .ineg h x o => some (.ineg, x.enc, h, o)
  | .rot h x o => some (.rot, x.enc, h, o)
  | .lea h x o => some (.lea, x.enc, h, o)
  | .imul h x o => some (.imul, x.enc, h, o)
  | .isetp h x o => some (.isetp, x.enc, h, o)
  | .fadd h x o => some (.fadd, x.enc, h, o)
  | .fsub h x o => some (.fsub, x.enc, h, o)
  | .fmul h x o => some (.fmul, x.enc, h, o)
  | .ffma h x o => some (.ffma, x.enc, h, o)
  | .fmin h x o => some (.fmin, x.enc, h, o)
  | .fmax h x o => some (.fmax, x.enc, h, o)
  | .fsetp h x o => some (.fsetp, x.enc, h, o)
  | .fclass h o => some (.fclass, 0, h, o)
  | .fscale h x o => some (.fscale, x.enc, h, o)
  | .frcp h x o => some (.frcp, x.enc, h, o)
  | .frsq h x o => some (.frsq, x.enc, h, o)
  | .fexp2 h x o => some (.fexp2, x.enc, h, o)
  | .flog2 h x o => some (.flog2, x.enc, h, o)
  | .fsin h x o => some (.fsin, x.enc, h, o)
  | .fcos h x o => some (.fcos, x.enc, h, o)
  | .ftanh h x o => some (.ftanh, x.enc, h, o)
  | .fsqrt h x o => some (.fsqrt, x.enc, h, o)
  | .cvt h x o => some (.cvt, x.enc, h, o)
  | .pack h x o => some (.pack, x.enc, h, o)
  | .unpk h x o => some (.unpk, x.enc, h, o)
  | .frnd h x o => some (.frnd, x.enc, h, o)
  | .shfl h x o => some (.shfl, x.enc, h, o)
  | .vred h x o => some (.vred, x.enc, h, o)
  | .vscan h x o => some (.vscan, x.enc, h, o)
  | .vote h x o => some (.vote, (0#10 ++ x.code), h, o)
  | .vbal h o => some (.vbal, 0, h, o)
  | .vfirst h o => some (.vfirst, 0, h, o)
  | .vcomp h z o => some (.vcomp, (0#11 ++ bit1 z), h, o)
  | .vexp h z o => some (.vexp, (0#11 ++ bit1 z), h, o)
  | .mov h o => some (.mov, 0, h, o)
  | .movi h imm o => some (.movi, (0#4 ++ imm.extractLsb' 24 8), h, { o with x := imm.extractLsb' 0 24 })
  | .movsGet h o => some (.movs, 0, h, o)
  | .movsPut h o => some (.movs, 1, h, o)
  | .movw h o => some (.movw, 0, h, o)
  | .mset h o => some (.mset, 0, h, o)
  | .ld h x o => some (.ld, x.enc, h, o)
  | .st h x o => some (.st, x.enc, h, o)
  | .lds h x o => some (.lds, x.enc, h, o)
  | .sts h x o => some (.sts, x.enc, h, o)
  | .ldc h x o => some (.ldc, x.enc, h, o)
  | .pref h x o => some (.pref, x.enc, h, o)
  | .atom h x o => some (.atom, x.enc, h, o)
  | .red h x o => some (.red, x.enc, h, o)
  | .cas h x o => some (.cas, x.enc, h, o)
  | .monitor h o => some (.monitor, 0, h, o)
  | .mwait h o => some (.mwait, 0, h, o)
  | .fence h x => some (.fence, x.enc, h, {})
  | .seal h o => some (.seal, 0, h, o)
  | .unseal h o => some (.unseal, 0, h, o)
  | .cacheRoinv h o => some (.cache, 0, h, o)
  | .cacheRoinvall h => some (.cache, 1, h, { a := .imm8 0, b := .imm8 0 })
  | .cacheClean h o => some (.cache, 2, h, o)
  | .cacheFlush h o => some (.cache, 3, h, o)
  | .cpy h x o => some (.cpy, x.enc, h, o)
  | .cpyg h x o => some (.cpyg, x.enc, h, o)
  | .cpys h x o => some (.cpys, x.enc, h, o)
  | .cpywt h ch o => some (.cpywt, (0#9 ++ ch), h, o)
  | .cpyq h ch o => some (.cpyq, (0#9 ++ ch), h, o)
  | .bar h o => some (.bar, 0, h, o)
  | .bara h o => some (.bara, 0, h, o)
  | .barw h o => some (.barw, 0, h, o)
  | .nbar h n o => some (.nbar, (0#8 ++ n), h, o)
  | .nbarw h n o => some (.nbarw, (0#8 ++ n), h, o)
  | .racq h o => some (.racq, 0, h, o)
  | .racqTry h o => some (.racq, 1, h, o)
  | .rrel h o => some (.rrel, 0, h, o)
  | .cacq h o => some (.cacq, 0, h, o)
  | .cacqTry h o => some (.cacq, 1, h, o)
  | .cacqRd h b o => some (.cacq, (if b then 10 else 2), h, o)
  | .crel h o => some (.crel, 0, h, o)
  | .crelWr h b o => some (.crel, (if b then 10 else 2), h, o)
  | .tload h x o => some (.tload, x.enc, h, o)
  | .tmap h o => some (.tmap, 0, h, o)
  | .tmma h x o => some (.tmma, x.enc, h, o)
  | .tew h x o => some (.tew, x.enc, h, o)
  | .tred h x o => some (.tred, x.enc, h, o)
  | .tcvt h x o => some (.tcvt, x.enc, h, o)
  | .tfmt h x o => some (.tfmt, x.enc, h, o)
  | .tbind h b o => some (.tbind, (0#11 ++ bit1 b), h, o)
  | .tfree h o => some (.tfree, 0, h, o)
  | .tfreeAcc h o => some (.tfree, 0, h, o)
  | .torf h n => some (.torf, (0#8 ++ n), h, {})
  | .tforce h b o => some (.tforce, (0#11 ++ bit1 b), h, o)
  | .tstore h x o => some (.tstore, x.enc, h, o)
  | .twait h o => some (.twait, 0, h, o)
  | .tqry h k o => some (.tqry, (0#9 ++ k), h, o)
  | .txdecl h b o => some (.txdecl, (0#11 ++ bit1 b), h, o)
  | .txsub h o => some (.txsub, 0, h, o)
  | .txwait h o => some (.txwait, 0, h, o)
  | .txend h o => some (.txend, 0, h, o)
  | .txqry h o => some (.txqry, 0, h, o)
  | .balburn h o => some (.balburn, 0, h, o)
  | .balshunt h o => some (.balshunt, 0, h, o)
  | .pwrwait h o => some (.pwrwait, 0, h, o)
  | .pair h o => some (.pair, 0, h, o)
  | .dqpush h o => some (.dqpush, 0, h, o)
  | .dqpop h o => some (.dqpop, 0, h, o)
  | .dqsteal h o => some (.dqsteal, 0, h, o)
  | .cont h r o => some (.cont, (0#10 ++ r), h, o)
  | .contw h o => some (.contw, 0, h, o)
  | .clst h o => some (.clst, 0, h, o)
  | .clwt h o => some (.clwt, 0, h, o)
  | .clq h o => some (.clq, 0, h, o)
  | .syscVersion h => some (.sysc, 0, h, {})
  | .syscCapacity h => some (.sysc, 1, h, {})
  | .syscQuota h => some (.sysc, 2, h, {})
  | .syscMark h => some (.sysc, 3, h, {})
  | .syscUnassigned h n => some (.sysc, (0#4 ++ n), h, {})
  | .tlbiVa h b o => some (.tlbi, (bit1 b ++ 0#11), h, o)
  | .tlbiTenant h b o => some (.tlbi, (bit1 b ++ 1#11), h, o)
  | .tlbiAll h b => some (.tlbi, (bit1 b ++ 2#11), h, { a := .imm8 0 })
  | .fwcallVersion h => some (.fwcall, 0, h, {})
  | .fwcallBbread h => some (.fwcall, 1, h, {})
  | .fwcallPwrcap h => some (.fwcall, 2, h, {})
  | .fwcallGreform h => some (.fwcall, 3, h, {})
  | .fwcallUnassigned h n => some (.fwcall, (0#4 ++ n), h, {})
  | _ => none

/-- The type-code fields of MOD (R51, R53, R371): where a reserved code stands, put a code of the same width. -/
def fixType (op : Op) (m : BitVec 12) : BitVec 12 :=
  let fix (m : BitVec 12) (lo : Nat) : BitVec 12 := if 12 ≤ bits m lo 4 then setBits m lo 4 7 else m
  match op with
  | .cvt => fix (fix m 0) 4
  | .pack | .unpk | .tload | .tcvt | .tfmt => fix m 0
  | _ => m

/-- The verdict of the decode checks on a word, in the order of R60. With two claims on EXT an operand C is what EXT's low bits name, and
checks 4, 6, 7 and 8 judge it as any other; of check 5 EXT's bits are exempt (log entry 25). -/
def decodeRaw (ctx : DCtx) (r : Raw) : Except Ill Instr :=
  match Op.ofCode r.opc.toNat with
  | none => .error (if 0x15 ≤ r.opc.toNat / 64 then .major else .minor)
  | some op =>
    let f := formOf op r.mod r.a
    let h := decHd r.grd r.hint
    let o := opsOf f r
    if !(if ctx.tile then op.streams.2 else op.streams.1) then .error .stream
    else if !privOk ctx op o then .error .priv
    else if !rsvdOk ctx op f r h o then .error .rsvd
    else if !kindOk ctx op f r o then .error .kind
    else if !specOk ctx o then .error .specidx
    else if !writeOk ctx o then .error .readonly
    else if 1 < extClaims f o then .error .extuse
    else match build op r.mod h o with
      | some i => .ok i
      | none => .error (if (build op (fixType op r.mod) h o).isSome then .type else .mod)

/-- Decode a 96-bit word. -/
def decodeWord (ctx : DCtx) (w : BitVec 96) : Except Ill Instr := decodeRaw ctx (.ofWord w)

/-- The word of twelve little-endian bytes (R32). -/
def wordOfBytes (bs : List Byte) : BitVec 96 :=
  bs.reverse.foldl (fun w b => (w <<< 8) ||| b.setWidth 96) 0#96

/-- The bytes of a word, lowest address first (R32). -/
def bytesOfWord (w : BitVec 96) : List Byte := (List.range 12).map (fun i => w.extractLsb' (8 * i) 8)

/-- The decoder, total on any bytes: the verdict on the first word and the bytes after it, or none where fewer
than twelve bytes are left. -/
def decode (ctx : DCtx) (bs : List Byte) : Option (Except Ill Instr × List Byte) :=
  if bs.length < 12 then none else some (decodeWord ctx (wordOfBytes (bs.take 12)), bs.drop 12)

/-- The context in which a word is looked at when none is given: a wave in user state, else the tile stream,
else a wave in supervisor state, whichever accepts it first. -/
def anyCtx (w : BitVec 96) : DCtx :=
  match decodeWord {} w with
  | .error .stream => { tile := true }
  | .error .priv => { priv := true }
  | _ => {}

/-- The instruction the decoder reads from a table word: bits above `nbits` are zero. -/
def decodeTableWord (nbits w : Nat) : Option Instr :=
  let x : BitVec 96 := BitVec.ofNat 96 (w % 2 ^ nbits)
  match decode (anyCtx x) (bytesOfWord x) with
  | some (.ok i, _) => some i
  | _ => none

/-! ## The encoder -/

/-- The word of an instruction (R32); none for an event, which has no word. -/
def encode (i : Instr) : Option (BitVec 96) :=
  match i.parts with
  | none => none
  | some (op, m, h, o) =>
    let f := formOf op m (encOpd o.a)
    some (Raw.toWord ⟨BitVec.ofNat 11 op.code, h.grd, encOpd o.d, encOpd o.a, encOpd o.b, m, h.hint, encExt f o⟩)

end Sys2Proof
end

