-- ==== Sys2Proof/Machine/Flags.lean ====
section
/-! DEFINITION. Floating-point arithmetic as exact values rounded once (R157 to R163), the exception flags (R165),
and the special functions' results within the bounds of R176. Everything here is a function on bit patterns. -/

namespace Sys2Proof.Machine

/-! ## Flags (R165) -/

def fNX : Nat := 1
def fUF : Nat := 2
def fOF : Nat := 4
def fDZ : Nat := 8
def fIV : Nat := 16
def fOUT : Nat := 32

/-- Rounding modes (R160). -/
inductive Rnd where | rne | rz | ru | rd
  deriving DecidableEq, Repr

/-- The rounding an instruction names, or that of %FPCR (R50, R160). -/
def Rnd.of (m : Rm) (fpcr : Word) : Rnd :=
  match m with
  | .rne => .rne
  | .rz => .rz
  | .ru => .ru
  | .rd => .rd
  | .dyn => if bits fpcr 0 3 = 1 then .rz else if bits fpcr 0 3 = 2 then .ru else if bits fpcr 0 3 = 3 then .rd else .rne

/-! ## Formats (R157) -/

/-- A binary format: exponent bits and fraction bits. -/
structure Fmt where
  eb : Nat
  mb : Nat
  deriving DecidableEq, Repr

def fmt32 : Fmt := ⟨8, 23⟩
def fmt16 : Fmt := ⟨5, 10⟩
def fmtB : Fmt := ⟨8, 7⟩
def fmt43 : Fmt := ⟨4, 3⟩
def fmt52 : Fmt := ⟨5, 2⟩

def Fmt.width (f : Fmt) : Nat := 1 + f.eb + f.mb
def Fmt.bias (f : Fmt) : Nat := 2 ^ (f.eb - 1) - 1
def Fmt.emin (f : Fmt) : Int := 1 - (f.bias : Int)
def Fmt.signBit (f : Fmt) : Nat := 2 ^ (f.eb + f.mb)
def Fmt.inf (f : Fmt) : Nat := (2 ^ f.eb - 1) * 2 ^ f.mb
def Fmt.maxFin (f : Fmt) : Nat := f.inf - 1
/-- The canonical quiet NaN. -/
def Fmt.qnan (f : Fmt) : Nat := f.inf + 2 ^ (f.mb - 1)
def Fmt.neg (f : Fmt) (s : Bool) : Nat := if s then f.signBit else 0
/-- The pattern of 1.0. -/
def Fmt.one (f : Fmt) : Nat := f.bias * 2 ^ f.mb

def FType.fmt : FType → Fmt | .f32 => fmt32 | .f16 => fmt16 | .bf16 => fmtB

/-- A value: a NaN with its pattern, an infinity, or (−1)^s · m · 2^e. -/
inductive FV where
  | nan (snan : Bool) (pat : Nat)
  | inf (s : Bool)
  | fin (s : Bool) (m : Nat) (e : Int)
  deriving DecidableEq, Repr

/-- Read a pattern; `ftz` reads a subnormal as a zero of its sign (R161). -/
def Fmt.decode (f : Fmt) (ftz : Bool) (p : Nat) : FV :=
  let s := p / f.signBit % 2 = 1
  let e := p / 2 ^ f.mb % 2 ^ f.eb
  let m := p % 2 ^ f.mb
  if e = 2 ^ f.eb - 1 then
    if m = 0 then .inf s else .nan (m < 2 ^ (f.mb - 1)) p
  else if e = 0 then .fin s (if ftz then 0 else m) (f.emin - f.mb)
  else .fin s (m + 2 ^ f.mb) ((e : Int) - 1 + f.emin - f.mb)

/-! ## Rounding once (R160) -/

/-- The magnitude m · 2^e rounded to a multiple of 2^q, and whether that is inexact. -/
def roundAt (rm : Rnd) (s : Bool) (m : Nat) (e q : Int) : Nat × Bool :=
  if q ≤ e then (m * 2 ^ (e - q).toNat, false)
  else
    let d := 2 ^ (q - e).toNat
    let n := m / d
    let t := m % d
    let up := match rm with
      | .rne => d < 2 * t || (d = 2 * t && n % 2 = 1)
      | .rz => false
      | .ru => !s && t ≠ 0
      | .rd => s && t ≠ 0
    (if up then n + 1 else n, t ≠ 0)

/-- Round a nonzero magnitude into a format: the pattern without its sign, and NX, UF and OF. Tininess is detected
after rounding; `ftz` writes a subnormal result as zero, raising UF and NX (R161). -/
def Fmt.round (f : Fmt) (rm : Rnd) (ftz : Bool) (s : Bool) (m : Nat) (e : Int) : Nat × Nat :=
  let low := f.emin - f.mb
  let top : Int := e + m.log2
  let ovf : Nat × Nat :=
    ((match rm with
      | .rne => f.inf
      | .rz => f.maxFin
      | .ru => if s then f.maxFin else f.inf
      | .rd => if s then f.inf else f.maxFin), fOF + fNX)
  if (f.bias : Int) + 1 < top then ovf
  else
    let (m, e, top) := if top < low - 2 then (1, low - 2, low - 2) else (m, e, top)
    let q := max (top - f.mb) low
    let (n, ix) := roundAt rm s m e q
    if (f.bias : Int) < q + n.log2 ∧ n ≠ 0 then ovf
    else
      let free := (roundAt rm s m e (top - f.mb)).1
      let tiny := top < f.emin && !(top = f.emin - 1 && free = 2 ^ (f.mb + 1))
      if ftz && q = low && 0 < n && n < 2 ^ f.mb then (0, fUF + fNX)
      else ((q - low).toNat * 2 ^ f.mb + n, (if ix then fNX else 0) + (if ix && tiny then fUF else 0))

/-- An exact value as a result: zero keeps the sign `z`. -/
def Fmt.result (f : Fmt) (rm : Rnd) (ftz : Bool) (s z : Bool) (m : Nat) (e : Int) : Nat × Nat :=
  if m = 0 then (f.neg z, 0)
  else
    let (p, fl) := f.round rm ftz s m e
    (f.neg s + p, fl)

/-! ## NaNs (R162) -/

def FV.isNan : FV → Bool | .nan _ _ => true | _ => false
def FV.isSnan : FV → Bool | .nan s _ => s | _ => false
/-- Flags of the sources: any signalling NaN raises IV. -/
def snanFlags (xs : List FV) : Nat := if xs.any FV.isSnan then fIV else 0
/-- The NaN result of sources in the order A, B, C. -/
def Fmt.nanOf (f : Fmt) (dn : Bool) (xs : List FV) : Nat :=
  if dn then f.qnan else
  match xs.find? FV.isNan with
  | some (.nan _ p) => if p / 2 ^ (f.mb - 1) % 2 = 1 then p else p + 2 ^ (f.mb - 1)
  | _ => f.qnan

/-! ## The arithmetic (R171, R172, R175) -/

/-- The control an instruction computes under. -/
structure FCtl where
  rm : Rnd
  ftz : Bool
  dn : Bool
  deriving DecidableEq, Repr

/-- The sign and exact magnitude of a sum of two finite values at a common exponent. -/
def addExact (sa : Bool) (ma : Nat) (ea : Int) (sb : Bool) (mb : Nat) (eb : Int) : Int × Int :=
  let e := min ea eb
  let a : Int := ma * 2 ^ (ea - e).toNat
  let b : Int := mb * 2 ^ (eb - e).toNat
  ((if sa then -a else a) + (if sb then -b else b), e)

/-- A finite sum rounded: an exact zero is +0, or −0 under RD, unless both terms are zeros of one sign. -/
def Fmt.sum (f : Fmt) (k : FCtl) (sa : Bool) (ma : Nat) (ea : Int) (sb : Bool) (mb : Nat) (eb : Int) : Nat × Nat :=
  let (z, e) := addExact sa ma ea sb mb eb
  let zs := if ma = 0 && mb = 0 && sa == sb then sa else k.rm == .rd
  f.result k.rm k.ftz (z < 0) zs z.natAbs e

/-- A × B + C, where `c` none is no addend, and `mul` false makes it A + C. -/
def Fmt.fma (f : Fmt) (k : FCtl) (a b c : Nat) : Nat × Nat :=
  let x := f.decode k.ftz a
  let y := f.decode k.ftz b
  let z := f.decode k.ftz c
  let fl := snanFlags [x, y, z]
  let bad := match x, y with
    | .fin _ 0 _, .inf _ => true
    | .inf _, .fin _ 0 _ => true
    | _, _ => false
  if bad then (f.qnan, fl ||| fIV)
  else if x.isNan || y.isNan || z.isNan then (f.nanOf k.dn [x, y, z], fl)
  else
    let sg : FV → Bool := fun v => match v with | .inf s => s | .fin s _ _ => s | .nan _ _ => false
    let ps := xor (sg x) (sg y)
    match x, y, z with
    | .fin _ ma ea, .fin _ mb eb, .fin sc mc ec => f.sum k ps (ma * mb) (ea + eb) sc mc ec
    | .fin _ _ _, .fin _ _ _, .inf sc => (f.neg sc + f.inf, 0)
    | _, _, .inf sc => if ps = sc then (f.neg sc + f.inf, 0) else (f.qnan, fIV)
    | _, _, _ => (f.neg ps + f.inf, 0)

def Fmt.add (f : Fmt) (k : FCtl) (a b : Nat) : Nat × Nat :=
  let x := f.decode k.ftz a
  let y := f.decode k.ftz b
  let fl := snanFlags [x, y]
  match x, y with
  | .fin sa ma ea, .fin sb mb eb => f.sum k sa ma ea sb mb eb
  | .inf sa, .inf sb => if sa = sb then (f.neg sa + f.inf, 0) else (f.qnan, fIV)
  | .inf sa, .fin _ _ _ => (f.neg sa + f.inf, 0)
  | .fin _ _ _, .inf sb => (f.neg sb + f.inf, 0)
  | _, _ => (f.nanOf k.dn [x, y], fl)

def Fmt.mul (f : Fmt) (k : FCtl) (a b : Nat) : Nat × Nat :=
  let x := f.decode k.ftz a
  let y := f.decode k.ftz b
  let fl := snanFlags [x, y]
  match x, y with
  | .fin sa ma ea, .fin sb mb eb => f.result k.rm k.ftz (xor sa sb) (xor sa sb) (ma * mb) (ea + eb)
  | .inf sa, .inf sb => (f.neg (xor sa sb) + f.inf, 0)
  | .inf sa, .fin sb m _ => if m = 0 then (f.qnan, fIV) else (f.neg (xor sa sb) + f.inf, 0)
  | .fin sa m _, .inf sb => if m = 0 then (f.qnan, fIV) else (f.neg (xor sa sb) + f.inf, 0)
  | _, _ => (f.nanOf k.dn [x, y], fl)

/-- A × 2^n (R175). -/
def Fmt.scale (f : Fmt) (k : FCtl) (a : Nat) (n : Int) : Nat × Nat :=
  match f.decode k.ftz a with
  | .fin s m e => f.result k.rm k.ftz s s m (e + n)
  | .inf s => (f.neg s + f.inf, 0)
  | .nan q p => (f.nanOf k.dn [.nan q p], snanFlags [.nan q p])

/-- The order of two values that are no NaN, −0 below +0 when `zeros` says so: a < b. -/
def FV.lt (zeros : Bool) (a b : FV) : Bool :=
  match a, b with
  | .inf sa, .inf sb => sa && !sb
  | .inf sa, .fin _ _ _ => sa
  | .fin _ _ _, .inf sb => !sb
  | .fin sa ma ea, .fin sb mb eb =>
    let d := (addExact sa ma ea (!sb) mb eb).1
    d < 0 || (zeros && d = 0 && ma = 0 && sa && !sb)
  | _, _ => false

/-- A source as FMIN, FMAX return it: a pattern after FTZ. -/
def Fmt.flush (f : Fmt) (ftz : Bool) (p : Nat) : Nat :=
  if ftz && p / 2 ^ f.mb % 2 ^ f.eb = 0 then p / f.signBit * f.signBit else p

/-- FMIN and FMAX (R172). -/
def Fmt.minmax (f : Fmt) (k : FCtl) (mx : Bool) (a b : Nat) : Nat × Nat :=
  let x := f.decode k.ftz a
  let y := f.decode k.ftz b
  let fl := snanFlags [x, y]
  let pa := f.flush k.ftz a
  let pb := f.flush k.ftz b
  match x.isNan, y.isNan with
  | true, true => (f.nanOf k.dn [x, y], fl)
  | true, false => (pb, fl)
  | false, true => (pa, fl)
  | false, false => (if mx then (if x.lt true y then pb else pa) else (if y.lt true x then pb else pa), 0)

/-- FSETP's comparison (R173). -/
def Fmt.cmp (f : Fmt) (k : FCtl) (c : FCmp) (a b : Nat) : Bool × Nat :=
  let x := f.decode k.ftz a
  let y := f.decode k.ftz b
  let un := x.isNan || y.isNan
  let lt := x.lt false y
  let gt := y.lt false x
  (match c with
   | .eq => !un && !lt && !gt
   | .ne => un || lt || gt
   | .lt => !un && lt
   | .le => !un && !gt
   | .gt => !un && gt
   | .ge => !un && !lt
   | .num => !un
   | .nan => un, snanFlags [x, y])

/-- FCLASS's mask (R174). -/
def Fmt.classMask (f : Fmt) (p : Nat) : Nat :=
  match f.decode false p with
  | .inf s => if s then 1 else 2 ^ 7
  | .nan sn _ => if sn then 2 ^ 8 else 2 ^ 9
  | .fin s m _ =>
    if m = 0 then (if s then 2 ^ 3 else 2 ^ 4)
    else if m < 2 ^ f.mb then (if s then 2 ^ 2 else 2 ^ 5)
    else (if s then 2 ^ 1 else 2 ^ 6)

/-- A pattern saturated to [0, 1] (R163). -/
def Fmt.sat01 (f : Fmt) (p : Nat) : Nat :=
  if f.signBit ≤ p then 0 else if f.inf < p then 0 else if f.one < p then f.one else p

/-! ## Roots -/

/-- The integer square root, bit by bit. -/
def isqrtGo (n : Nat) : Nat → Nat → Nat
  | 0, r => r
  | k + 1, r => let t := r + 2 ^ k; isqrtGo n k (if t * t ≤ n then t else r)
def isqrt (n : Nat) : Nat := isqrtGo n (n.log2 / 2 + 1) 0

/-- FSQRT, correctly rounded: the root with 40 bits and a sticky bit below them. -/
def Fmt.sqrt (f : Fmt) (k : FCtl) (a : Nat) : Nat × Nat :=
  match f.decode k.ftz a with
  | .nan q p => (f.nanOf k.dn [.nan q p], snanFlags [.nan q p])
  | .inf s => if s then (f.qnan, fIV) else (f.inf, 0)
  | .fin s m e =>
    if m = 0 then (f.neg s, 0) else if s then (f.qnan, fIV) else
    let e2 := if e % 2 = 0 then e - 80 else e - 81
    let n := m * 2 ^ (e - e2).toNat
    let r := isqrt n
    f.result k.rm k.ftz false false (2 * r + if r * r = n then 0 else 1) (e2 / 2 - 1)

/-! ## Special functions (R176, R177)

The exact result is approximated in fixed point with 96 fraction bits, far inside every bound. The device's one
algorithm is the free value `Config.sfu`: its result stands where it lies within the bound of R176; the FP32 value
nearest the approximation stands in for any other. -/

def fpOne : Nat := 2 ^ 96
/-- ln 2 and π in 96 fraction bits, truncated. -/
def ln2Fix : Nat := 54916777467707473351141471128
def piFix : Nat := 248902613312231085230521944622

/-- Σ x^k / k! from term `t` on. -/
def expSeries (x : Nat) : Nat → Nat → Nat → Nat
  | 0, _, t => t
  | n + 1, k, t => t + expSeries x n (k + 1) (t * x / fpOne / (k + 1))
/-- e^x for a fixed-point x in [0, 1). -/
def expFix (x : Nat) : Nat := expSeries x 32 0 fpOne

/-- Σ z^(2k+1) / (2k+1): atanh. -/
def atanhSeries (z2 : Nat) : Nat → Nat → Nat → Nat
  | 0, _, _ => 0
  | n + 1, k, p => p / k + atanhSeries z2 n (k + 2) (p * z2 / fpOne)
/-- ln x for a fixed-point x in [1, 2). -/
def lnFix (x : Nat) : Nat :=
  let z := (x - fpOne) * fpOne / (x + fpOne)
  2 * atanhSeries (z * z / fpOne) 34 1 z

/-- sin x = x − x³/3! + …, for a fixed-point x in [0, π/2]. -/
def sinSeries (x2 : Nat) : Nat → Nat → Nat → Int
  | 0, _, _ => 0
  | n + 1, k, t => (t : Int) - sinSeries x2 n (k + 2) (t * x2 / fpOne / ((k + 1) * (k + 2)))
def sinFix (x : Nat) : Nat := (sinSeries (x * x / fpOne) 20 1 x).toNat

/-- The fixed-point magnitude of a dyadic, truncated. -/
def toFix (m : Nat) (e : Int) : Nat := if 0 ≤ e + 96 then m * 2 ^ (e + 96).toNat else m / 2 ^ (-(e + 96)).toNat

/-- sin(π·a) for a dyadic magnitude in half-turns: sign and fixed-point magnitude. -/
def sinTurns (m : Nat) (e : Int) : Bool × Nat :=
  let a := toFix m e % (2 * fpOne)
  let neg := fpOne ≤ a
  let b := a % fpOne
  let c := if fpOne < 2 * b then fpOne - b else b
  (neg, sinFix (piFix * c / fpOne))

/-- Names of the functions, in the order of their minor opcodes. -/
inductive Sfu where | rcp | rsq | exp2 | log2 | sin | cos | tanh
  deriving DecidableEq, Repr
def Sfu.code : Sfu → Nat | .rcp => 0 | .rsq => 1 | .exp2 => 3 | .log2 => 4 | .sin => 5 | .cos => 6 | .tanh => 7

/-- The approximation of a result that is neither exact nor special: sign, magnitude, exponent. -/
def Sfu.approx (fn : Sfu) (s : Bool) (m : Nat) (e : Int) : Bool × Nat × Int :=
  match fn with
  | .rcp => (s, 2 ^ 160 / m, -160 - e)
  | .rsq =>
    let (m, e) := if e % 2 = 0 then (m, e) else (2 * m, e - 1)
    (false, isqrt (2 ^ 200 / m), -100 - e / 2)
  | .exp2 =>
    -- 2^a = 2^i · e^(f ln 2), with i the floor of a and f in [0, 1)
    let a : Int := if s then -(toFix m e : Int) else toFix m e
    let i := a / (fpOne : Int)
    let fr := (a % (fpOne : Int)).toNat
    (false, expFix (fr * ln2Fix / fpOne), i - 96)
  | .log2 =>
    let x := m * 2 ^ (96 - m.log2)
    let l : Int := (e + m.log2) * fpOne + (lnFix x * fpOne / ln2Fix : Nat)
    (l < 0, l.natAbs, -96)
  | .sin => let (n, x) := sinTurns m e; (xor s n, max 1 x, -96)
  | .cos =>
    let a := toFix m e % (2 * fpOne)
    let (n, x) := sinTurns (a + fpOne / 2) (-96)
    (n, max 1 x, -96)
  | .tanh =>
    if e + m.log2 < -13 then
      -- a − a³/3
      (s, (m * 3 * 2 ^ 120 - (if 0 ≤ 120 + 2 * e then m * m * m * 2 ^ (120 + 2 * e).toNat else 0)) / 3, e - 120)
    else if 4 < e + m.log2 then (s, 2 ^ 60 - 1, -60)
    else
      let y := 2 * toFix m e
      let n := y / ln2Fix
      let ex := expFix (y % ln2Fix) * 2 ^ n
      (s, (ex - fpOne) * fpOne / (ex + fpOne), -96)

/-- Whether an FP32 pattern lies within the bound of R176 of an approximation (s, m, e), m nonzero. -/
def Sfu.within (fn : Sfu) (arg : Int) (s : Bool) (m : Nat) (e : Int) (p : Nat) : Bool :=
  match fmt32.decode false p with
  | .fin sp mp ep =>
    let (d, ed) := addExact sp mp ep (!s) m e
    let top : Int := e + m.log2
    -- distance ≤ 2^b
    let le (b : Int) (n : Nat) : Bool :=
      if ed ≤ b then d.natAbs ≤ n * 2 ^ (b - ed).toNat else d.natAbs = 0
    let ulp := top - 23
    if top < -126 then
      (match fn with
       | .sin | .cos => le (-22) 1
       | _ => sp = s && p % 2 ^ 31 ≤ 2 ^ 23)
    else match fn with
      | .rcp | .rsq => le ulp 1
      | .exp2 | .tanh => le ulp 2
      | .log2 => le ulp 2 || ((arg = -1 || arg = 0) && le (-22) 1)
      | .sin | .cos => le (-22) 1
  | _ => false

/-- A result in FP32 of a function that is neither exact nor special: the device's algorithm where it keeps the
bound, else the nearest value; NX always, OF beyond the range, UF below it (R161, R177). -/
def Sfu.general (fn : Sfu) (k : FCtl) (s : Bool) (m : Nat) (e : Int) (src : Nat) : Nat × Nat :=
  let (rs, rm, re) := fn.approx s m e
  if rm = 0 then (fmt32.neg rs, fNX + fUF) else
  let (p0, fl0) := fmt32.round .rne false rs rm re
  let near := fmt32.neg rs + p0
  if fl0 &&& fOF ≠ 0 then (near, fl0) else
  let cand := (Config.sfu fn.code (BitVec.ofNat 32 src)).toNat
  let p := if fn.within (e + m.log2) rs rm re cand then cand else near
  if p % 2 ^ 31 < 2 ^ 23 then (if k.ftz then p / 2 ^ 31 * 2 ^ 31 else p, fNX + fUF) else (p, fNX)

/-- A special function of an FP32 pattern (R176, R177). -/
def Sfu.fp32 (fn : Sfu) (k : FCtl) (a : Nat) : Nat × Nat :=
  let f := fmt32
  match f.decode k.ftz a with
  | .nan q p => (f.nanOf k.dn [.nan q p], snanFlags [.nan q p])
  | .inf s =>
    match fn with
    | .rcp => (f.neg s, 0)
    | .rsq | .log2 => if s then (f.qnan, fIV) else if fn = .rsq then (0, 0) else (f.inf, 0)
    | .exp2 => (if s then 0 else f.inf, 0)
    | .sin | .cos => (f.qnan, fIV)
    | .tanh => (f.neg s + f.one, 0)
  | .fin s m e =>
    let whole := if 0 ≤ e then true else m % 2 ^ (-e).toNat = 0
    let int : Nat := if 0 ≤ e then m * 2 ^ e.toNat else m / 2 ^ (-e).toNat
    if m = 0 then
      match fn with
      | .rcp | .rsq => (f.neg s + f.inf, fDZ)
      | .exp2 => (f.one, 0)
      | .cos => fn.general k s 0 e a
      | .log2 => (f.signBit + f.inf, fDZ)
      | .sin | .tanh => (f.neg s, 0)
    else
      match fn with
      | .rsq => if s then (f.qnan, fIV) else fn.general k s m e a
      | .log2 => if s then (f.qnan, fIV) else if a = f.one then (0, 0) else fn.general k s m e a
      | .exp2 =>
        if 2 ^ 10 ≤ int then (if s then (0, fUF + fNX) else (f.inf, fOF + fNX))
        else if whole then f.result .rne k.ftz false false 1 (if s then -(int : Int) else int)
        else fn.general k s m e a
      | .sin => if whole then (f.neg s, 0) else fn.general k s m e a
      | .cos =>
        -- n + 0.5 gives +0; every other finite result raises NX
        if !whole && (2 * m) % 2 ^ (-e).toNat = 0 then (0, 0) else fn.general k s m e a
      | _ => fn.general k s m e a

end Sys2Proof.Machine
end

