-- ==== Sys2Proof/Machine/Convert.lean ====
section
/-! DEFINITION. Conversions between element types (R179 to R183, R349 to R351) as functions on bit patterns. -/

namespace Sys2Proof.Machine

/-- The FP format of a float element type of R157. -/
def ElemTy.fmt? : ElemTy → Option Fmt
  | .fp32 => some fmt32
  | .fp16 => some fmt16
  | .bf16 => some fmtB
  | _ => none

/-- An element's exact value (R349, R350, R351); a block-format element reads its exponent from its scale word. A
NaN of E4M3, E5M2, PB8 or PB4 reads as the canonical quiet NaN of FP32. -/
def widen (t : ElemTy) (raw : Nat) (scale : Nat := 0) : FV :=
  let canon : FV := .nan false fmt32.qnan
  let pb (mb off : Nat) : FV :=
    let x := scale / 2 ^ (8 * (raw / 2 ^ (mb + 1) % 2)) % 256
    if x = 255 then canon else .fin (raw / 2 ^ mb % 2 = 1) (raw % 2 ^ mb) ((x : Int) - off)
  let int (w : Nat) (signed : Bool) : FV :=
    let v := raw % 2 ^ w
    if signed && 2 ^ (w - 1) ≤ v then .fin true (2 ^ w - v) 0 else .fin false v 0
  match t with
  | .fp32 => fmt32.decode false (raw % 2 ^ 32)
  | .fp16 => fmt16.decode false (raw % 2 ^ 16)
  | .bf16 => fmtB.decode false (raw % 2 ^ 16)
  | .e4m3 =>
    let v := raw % 256
    if v % 128 = 127 then canon
    else if v / 8 % 16 = 0 then .fin (128 ≤ v) (v % 8) (-9)
    else .fin (128 ≤ v) (v % 8 + 8) ((v / 8 % 16 : Nat) - 10)
  | .e5m2 =>
    match fmt52.decode false (raw % 256) with
    | .nan _ _ => canon
    | x => x
  | .pb8 => pb 6 132
  | .pb4 => pb 2 128
  | .int8 => int 8 true
  | .uint8 => int 8 false
  | .int16 => int 16 true
  | .int32 => int 32 true
  | .uint32 => int 32 false

/-- A NaN pattern of one format as FP32 holds it: sign and payload aligned at the top of the fraction. -/
def nanTo32 (f : Fmt) (p : Nat) : Nat :=
  p / f.signBit % 2 * 2 ^ 31 + fmt32.inf + p % 2 ^ f.mb * 2 ^ (23 - f.mb)

/-- A NaN element's FP32 pattern; a NaN of a narrow format is canonical already. -/
def elemNan32 (t : ElemTy) (p : Nat) : Nat :=
  match ElemTy.fmt? t with
  | some f => nanTo32 f p
  | none => fmt32.qnan

/-- A NaN source as a result in another format (R162): quiet bit set, sign and payload kept. Of a payload that does not fit the
bits that are kept are an open value. -/
def Fmt.nanFrom (f : Fmt) (dn : Bool) (p32 : Nat) : Nat :=
  if dn then f.qnan else
  let q := p32 ||| 2 ^ 22
  let low := 2 ^ (f.mb - 1)
  let keep := if q % 2 ^ (23 - f.mb) = 0 then q % 2 ^ 23 / 2 ^ (23 - f.mb) else low + Config.nanPayload f.mb p32 % low
  q / 2 ^ 31 * f.signBit + f.inf + keep

/-- The exact integer a magnitude rounds to, and whether that is inexact; a magnitude far above every type is cut off
at 2^70. -/
def roundInt (rm : Rnd) (s : Bool) (m : Nat) (e : Int) : Nat × Bool :=
  if m = 0 then (0, false)
  else if 70 < e + m.log2 then (2 ^ 70, false)
  else if e + m.log2 < -3 then roundAt rm s 1 (-3) 0
  else roundAt rm s m e 0

/-- Bounds of an integer element type. -/
def ElemTy.bounds : ElemTy → Int × Int
  | .int8 => (-128, 127)
  | .uint8 => (0, 255)
  | .int16 => (-32768, 32767)
  | .int32 => (-2147483648, 2147483647)
  | _ => (0, 4294967295)

/-- A float result's format, its exponent range top and largest finite pattern, for E4M3 and E5M2. -/
def narrowFmt (t : ElemTy) : Fmt × Nat := if t = .e4m3 then (fmt43, 0x7E) else (fmt52, 0x7B)

/-- Round a magnitude into E4M3 or E5M2: the pattern without sign and inexactness, or none above the largest finite
value. -/
def roundNarrow (t : ElemTy) (rm : Rnd) (s : Bool) (m : Nat) (e : Int) : Option (Nat × Bool) :=
  let (f, big) := narrowFmt t
  if m = 0 then some (0, false) else
  let low := f.emin - f.mb
  let top : Int := e + m.log2
  if 20 < top then none else
  let (m, e, top) := if top < low - 2 then (1, low - 2, low - 2) else (m, e, top)
  let q := max (top - f.mb) low
  let (n, ix) := roundAt rm s m e q
  let p := (q - low).toNat * 2 ^ f.mb + n
  if big < p then none else some (p, ix)

/-- One element converted (R180): the pattern in the low bits of a lane, and its flags. `nan32` is the source's FP32
pattern where it is a NaN. -/
def convertFV (dst : ElemTy) (rm : Rnd) (sat ftz dn : Bool) (nan32 : Nat) (x : FV) : Nat × Nat :=
  let sn := if x.isSnan then fIV else 0
  match ElemTy.fmt? dst with
  | some f =>
    match x with
    | .nan _ _ => (f.nanFrom dn nan32, sn)
    | .inf s => (f.neg s + if sat then f.maxFin else f.inf, 0)
    | .fin s m e =>
      let (p, fl) := f.result rm ftz s s m e
      (if sat && fl &&& fOF ≠ 0 then f.neg s + f.maxFin else p, fl)
  | none =>
    if dst = .e4m3 ∨ dst = .e5m2 then
      let out (s : Bool) : Nat × Nat := (if sat then (if s then 128 else 0) + (narrowFmt dst).2 else 0, fOUT)
      match x with
      | .nan _ _ => (0, fOUT + sn)
      | .inf s => out s
      | .fin s m e =>
        match roundNarrow dst rm s m e with
        | some (p, ix) => ((if s then 128 else 0) + p, if ix then fNX else 0)
        | none => out s
    else
      let narrow := dst = .int8 || dst = .uint8
      let (lo, hi) := ElemTy.bounds dst
      let pat (z : Int) : Nat := (z % 2 ^ (if narrow && lo = 0 then 8 else 32)).toNat
      let pat (z : Int) : Nat := if dst = .uint32 ∨ dst = .uint8 then z.toNat else pat z
      let past (z : Int) : Nat × Nat := if narrow then (if sat then pat z else 0, fOUT) else (pat z, fIV)
      match x with
      | .nan _ _ => (0, (if narrow then fOUT else fIV) ||| sn)
      | .inf s => past (if s then lo else hi)
      | .fin s m e =>
        let (n, ix) := roundInt rm s m e
        let z : Int := if s then -(n : Int) else n
        if z < lo then past lo else if hi < z then past hi else (pat z, if ix then fNX else 0)

/-- CVT of one element (R180): sources are read without FTZ. An identity conversion, which applies the FTZ and NaN rules alone, leaves an
infinity as it is. -/
def convert (dst src : ElemTy) (rm : Rnd) (sat ftz dn : Bool) (raw : Nat) : Nat × Nat :=
  let raw := raw % 2 ^ src.width
  match decide (dst = src), widen src raw with
  | true, .inf _ => (raw, 0)
  | _, x => convertFV dst rm sat ftz dn (elemNan32 src raw) x

/-- UNPK of one element (R182): exact, bit for bit, to FP32 or INT32. -/
def unpack (src : ElemTy) (raw : Nat) : Nat :=
  match ElemTy.fmt? src, widen src raw with
  | some f, .nan _ p => nanTo32 f p
  | some _, x => (convertFV .fp32 .rne false false false 0 x).1
  | none, x =>
    if src = .e4m3 ∨ src = .e5m2 then (convertFV .fp32 .rne false false false fmt32.qnan x).1
    else (convertFV .int32 .rne false false false 0 x).1

/-- FRND of one element (R183). -/
def Fmt.toIntegral (f : Fmt) (k : FCtl) (a : Nat) : Nat × Nat :=
  match f.decode k.ftz a with
  | .nan q p => (f.nanOf k.dn [.nan q p], snanFlags [.nan q p])
  | .inf s => (f.neg s + f.inf, 0)
  | .fin s m e =>
    if 0 ≤ e then ((f.result .rne false s s m e).1, 0) else
    let (n, _) := if e + m.log2 < -3 && m ≠ 0 then roundAt k.rm s 1 (-3) 0 else roundAt k.rm s m e 0
    ((f.result .rne false s s n 0).1, 0)

/-- A special function of one element: packed types are widened to FP32 and converted back under RNE (R176). -/
def Fmt.special (f : Fmt) (k : FCtl) (fp : FCtl → Nat → Nat × Nat) (a : Nat) : Nat × Nat :=
  if f = fmt32 then fp k a else
  match f.decode k.ftz a with
  | .nan q p => (f.nanOf k.dn [.nan q p], snanFlags [.nan q p])
  | x =>
    let w := match x with
      | .inf s => fmt32.neg s + fmt32.inf
      | .fin s m e => (fmt32.result .rne false s s m e).1
      | .nan _ _ => fmt32.qnan
    let (r, fl) := fp { k with ftz := false } w
    match fmt32.decode false r with
    | .nan _ _ => (f.qnan, fl)
    | .inf s => (f.neg s + f.inf, fl)
    | .fin s m e =>
      let (p, more) := f.result .rne k.ftz s s m e
      (p, fl ||| more)

end Sys2Proof.Machine
end

