-- ==== Sys2Proof/Machine/State.lean ====
section
/-! DEFINITION. The state of the machine as plain data: `Run`, what running programs, the Inn and the fabric
change, and `Sys`, the firewall registers and the boot chain that only a few steps of the Inn touch. Waves are
numbered core × 24 + slot (the device-wide core number of R13), blocks core × 4 + position; the tile stream of
block b is kept as the wave 30720 + b. -/

namespace Sys2Proof.Machine

/-! ## Waits -/

/-- A register of a wave in some lanes (all lanes for a scalar register). -/
structure RegRef where
  vec : Bool
  n : Nat
  mask : Lanes
  deriving DecidableEq, Repr

/-- A barrier word: the block that owns the scratchpad, and the local byte address (R228). -/
structure BarLoc where
  blk : Nat
  addr : Nat
  deriving DecidableEq, Repr

/-- A translation: host address, whether both stages allow writes, the SH bit, whether neither stage allows them, the
guest address; the virtual address translated, and the page of the combined translation with its size (R240). -/
structure Xlat where
  pa : Nat
  w : Bool
  sh : Bool
  ro : Bool
  gpa : Nat
  va : Nat
  page : Nat
  size : Nat
  deriving DecidableEq, Repr

/-- A trap that waits: a late one for the wave's next instruction (R189, R496), or that of a parked part (R102). -/
structure LateTrap where
  cls : Nat
  sub : Nat
  mask : Lanes
  origin : Word64
  cw : Word64
  lanes : List (Nat × Word64)
  clause : Nat := 0
  coord : Nat := 0
  late : Bool := true
  deriving DecidableEq, Repr

/-- What a part that will issue its instruction afresh waits for. -/
inductive Wait where
  /-- registers to fill (R49, R130, R126) -/
  | regs (rs : List RegRef)
  /-- the XLANE instructions before an access of %FPSR (R166); earlier accesses to deliver: acquires in flight, a release, the acknowledgement counter (R302, R303, R313) -/
  | xlane
  | acquire
  /-- earlier reads of the wave to deliver (R308); remote accesses of any wave to end (R260) -/
  | reads
  | remotes
  | release (sys : Bool)
  | ackRoom
  /-- room in the dedup tables of home slices (R288) -/
  | slices (ss : List Nat)
  | line (l : Nat)
  | flow (f : Nat)
  /-- a free walker of the die (R240) -/
  | walker
  /-- the phase of a barrier word or of a numbered barrier (R230, R346) -/
  | barw (loc : BarLoc) (ph : Bool)
  | nbarw (n : Nat) (ph : Bool)
  /-- a place in a copy channel, or a completion object (R262, R274) -/
  | channel (ch : Nat)
  | object (lo hi val : Nat)
  /-- tickets, TXWAIT with its D; the commit token, with the translations a gated access keeps, none of which says that
  it translates anew (R247, R403, R411, R417) -/
  | txRoom
  | ticket (slot d : Nat)
  | token (ts : List (Nat × Xlat))
  /-- stores into a range that passed its seal check before it was sealed (R257) -/
  | sealing (base len : Nat)
  /-- a CONT completion object, a gatherer bin, a collective (R479, R483, R514, R515) -/
  | done (pa n : Nat)
  | clRoom
  | collective (slot : Nat)
  /-- ROLESW's drain (R470) -/
  | drain
  /-- of a tile stream: an accumulator token, a place among the closed batches, batches up to n, batches that
  reach an accumulator (R329, R383, R387, R390) -/
  | accToken (c : Nat)
  | batchRoom
  /-- the spill that makes room for a clause (R330) -/
  | spill
  /-- batches up to a number; a failed one ends the wait where the instruction reports it (R336, R383) -/
  | batches (n : Nat) (report : Bool)
  deriving DecidableEq, Repr

/-- A late fault of a batch (R336). -/
structure BatchFault where
  sub : Nat
  cw : Word64
  origin : Word64
  clause : Nat
  row : Nat
  col : Nat
  deriving DecidableEq, Repr

/-- What a part waits for. `retry` issues the instruction afresh once its wait is over; the others are ended by
the step that satisfies them. -/
inductive Park where
  | run
  | retry (w : Wait)
  /-- arrived at a barrier word whose phase was `ph`; D is written at release (R230, R232) -/
  | bar (loc : BarLoc) (ph : Bool) (d : BitVec 4) (act : Lanes)
  | racq (n : Nat)
  | cacq (c : Nat)
  /-- deadline in cycles of the core, if any; the status register (R293) -/
  | mwait (deadline : Option Nat) (d : BitVec 7)
  | pwrwait (bound : Nat) (deadline : Option Nat) (d : BitVec 7)
  | burn (deadline level : Nat)
  | pair (word : Word) (d : BitVec 7)
  | steal (victim : Nat) (d : BitVec 7) (c : BitVec 4) (act : Lanes)
  /-- parked for a bin: the lanes the quota accepted and those it refused (R479) -/
  | contBin (acc : Lanes)
  /-- the service and the arguments sent to the Inn (R539) -/
  | fwcall (n : Nat) (args : List Word64) (since : Nat)
  /-- a replayable fault: the pages it waits for (R245), and the lanes with their addresses and the detail code a declined repair
  reports -/
  | fault (pages : List Nat) (write : Bool) (lanes : List (Nat × Nat)) (detail : Nat)
  /-- a trap that its part takes once no other part's handler stops it (R102, R191) -/
  | trapped (t : LateTrap)
  deriving DecidableEq, Repr

/-! ## A wave -/

/-- A part: a slice part (`frag` none) or a fragment with its slot (R95). `uid` is the slice, or 8 + slot. -/
structure Part where
  uid : Nat
  slice : Nat
  frag : Option Nat
  mask : Lanes
  pc : Word64
  rpc : Word64
  park : Park := .run
  deriving DecidableEq, Repr

/-- A held group: lanes that run from `pc` once their owner part is through (R95, R98). -/
structure Held where
  lanes : Lanes
  pc : Word64
  rpc : Word64
  owner : Nat
  deriving DecidableEq, Repr

/-- Lanes waiting at a REGANG (R99), with the fragment slot they keep until their release (R97). -/
structure Waiting where
  lanes : Lanes
  k : Nat
  addr : Word64
  rpc : Word64
  frag : Option Nat := none
  deriving DecidableEq, Repr

/-- A lane's read or atomic of another device: its host and virtual address; of an atomic the source port and the tag it carries
(R287), the port it went out by last, the device it goes to, and the request, which another port may have to send again (R504); when it was sent (R505),
and whether the access was a supervisor's (R244). -/
structure FarLane where
  lane : Nat
  pa : Nat
  va : Nat
  port : Nat := 0
  tag : Nat := 0
  via : Nat := 0
  dev : Nat := 0
  req : Option AtomicReq := none
  sent : Nat := 0
  priv : Bool := false
  deriving DecidableEq, Repr

/-- A write of a wave that is not acknowledged yet (R313): its host and virtual address; flow and sequence number of a control
message (R314), which orders no later access to the line; when it was sent, and whether the access was a supervisor's (R244). -/
structure FarWrite where
  pa : Nat
  va : Nat
  msg : Option (Nat × Nat) := none
  sent : Nat := 0
  priv : Bool := false
  deriving DecidableEq, Repr

/-- What a variable-latency producer still owes. -/
inductive PendKind where
  | local
  | xlane
  | load (ls : List FarLane)
  | atomic (ls : List FarLane)
  /-- the read of a completion object in host memory, which its update follows (R477, R522) -/
  | object (refuse : Bool) (ls : List FarLane)
  deriving DecidableEq, Repr

/-- A pending result: the registers it fills, the instruction that made it (R129, R500); the cycle before which it does
not arrive (R225), and whether the wave issues nothing until it has (R168). -/
structure Pend where
  id : Nat
  regs : List RegRef
  kind : PendKind
  acq : Bool
  mask : Lanes
  pc : Word64
  after : Nat := 0
  hold : Bool := false
  deriving DecidableEq, Repr

/-- The value a register had before a fixed-latency result (R47). -/
inductive OldVal where
  | v (n : Nat) (x : Row)
  | s (n : Nat) (x : Word64)
  | p (n : Nat) (x : Lanes)
  | a (n : Nat) (x : Row)
  | m (n : Nat) (x : Word × Word)
  deriving DecidableEq, Repr

/-- A fixed-latency result in flight until a cycle: the cycle its instruction issued in, the lanes it wrote, and those in which the
instruction that issues now reads the old value (R47); whether it is the step of an LDS or STS, which is seen lane by lane (R222). -/
structure Young where
  old : OldVal
  till : Nat
  src : Nat := 0
  step : Bool := false
  lanes : Lanes := 0xFFFFFFFF#32
  stale : Lanes := 0
  deriving DecidableEq, Repr

/-- The region state a trap entry saves (R191): the trapping part's lanes, %RGN and every part's region PC. -/
structure Frame where
  lanes : Lanes
  rgn : Word64
  rpcs : List (Nat × Word64)
  deriving DecidableEq, Repr

/-- A supervisor entry not yet left: its frame, its class, the handler lanes before it, and the wait that a PREEMPT trap interrupted with the
PC of its instruction: it goes on when the handler returns behind that (R493). -/
structure SupEntry where
  frame : Frame
  cls : Nat
  handler : Lanes
  keep : Option (Park × Word64) := none
  deriving DecidableEq, Repr

/-- The monitor of a wave (R292): the watched word's virtual and host address, the host line, the word's value then,
whether the home slice holds the watch, and whether a write to the line has performed since. -/
structure Monitor where
  va : Nat
  line : Nat
  word : Nat
  snapshot : Word64
  registered : Bool
  written : Bool := false
  deriving DecidableEq, Repr

/-- A tile of a declaration (R399). -/
structure Tile where
  lo : Word64
  hi : Word64
  wr : Bool
  deriving DecidableEq, Repr

/-- One of the two ticket slots of a wave (R398, R404), with its TXSUB's PC; `dead` once the hardware has ended it and
that is still to be reported (R414). -/
structure TickRef where
  die : Nat
  entry : Nat
  gen : Nat
  order : Nat
  tiles : List Tile
  lines : Nat
  pc : Word64
  dead : Bool := false
  deriving DecidableEq, Repr

/-- The ATOMEMU routine of a wave in the Inn's table (R291): the lanes still to apply with their virtual addresses, what the lanes
applied so far found, the lock word it holds, and the value it read while it has not written yet, then that it has. -/
structure Emu where
  todo : List (Nat × Nat)
  vals : List (Nat × Nat) := []
  lock : Option Nat := none
  read : Option Nat := none
  wrote : Bool := false
  deriving DecidableEq, Repr

/-- Where a wave stands in its life: issuing, stopped by a pre-emption step, or ended with writes still due. -/
inductive Life where | live | stopped | ended
  deriving DecidableEq, Repr

/-- A wave, or a tile stream (R59, R91, R117); `fpTill` is the cycle before which some fixed-latency FP or XLANE instruction of it is not
complete (R166), `marked` the mark of a lost write: its sub-cause, its address and whether it was a supervisor's (R313, R508). -/
structure Wave where
  life : Life := .live
  stream : Bool := false
  blk : Nat := 0
  index : Nat := 0
  stage : Nat := 0
  placed : Nat := 0
  parts : List Part := []
  held : List Held := []
  waiting : List Waiting := []
  v : SMap Row := []
  s : SMap Word64 := []
  p : SMap Lanes := []
  a : SMap Row := []
  m : SMap (Word × Word) := []
  vEmpty : SMap Lanes := []
  vInd : SMap Lanes := []
  sEmpty : BitVec 128 := 0
  sInd : BitVec 128 := 0
  valloc : Nat := 0
  acquired : Nat := 0
  fpcr : Word := 0
  fpsr : Word := 0
  sched : Nat := 0
  rgn : Word64 := 0
  epc : Word64 := 0
  cause : Word := 0
  sepc : Word64 := 0
  scause : Word := 0
  utrap : Word64 := 0
  handler : Lanes := 0
  frame : Option Frame := none
  sup : List SupEntry := []
  seq : Nat := 0
  pend : List Pend := []
  pendNext : Nat := 0
  young : List Young := []
  fpTill : Nat := 0
  late : List LateTrap := []
  mon : Option Monitor := none
  decl : List Tile := []
  slot0 : Option TickRef := none
  slot1 : Option TickRef := none
  active : Option Bool := none
  rounds : Nat := 0
  acks : Nat := 0
  remote : List FarWrite := []
  marked : Option (Nat × Nat × Bool) := none
  stall : Nat := 0
  turn : Nat := 0
  yielded : Bool := false
  pwrTaken : Bool := false
  pwrOwed : Bool := false
  preTrap : Bool := false
  objs : List (Nat × Nat) := []
  contWave : Bool := false
  emu : Option Emu := none
  deriving DecidableEq, Repr

/-! ## Tiles -/

/-- An index map (R322). -/
structure IMap where
  rs : Int := 0
  cs : Int := 1
  roff : Nat := 0
  coff : Nat := 0
  t : Bool := false
  br : Bool := false
  bc : Bool := false
  deriving DecidableEq, Repr

/-- What a clause operand reads. -/
inductive Src where
  | clause (i : Nat)
  | global (base : Word64)
  | scratch (base : Word)
  | acc (c : Nat)
  deriving DecidableEq, Repr

/-- Clause operations (R320). -/
inductive COp where
  | tload
  | tmap
  | tmma (acc ol : Bool)
  | tew (op : TewOp) (rm : Rm) (scale : Word)
  | tred (max col : Bool)
  | tcvt (m : TcvtMod) (list : Word64)
  | leaf
  deriving DecidableEq, Repr

/-- A clause (R320). -/
structure Clause where
  op : COp
  rows : Nat
  cols : Nat
  ty : ElemTy
  fmt : BitVec 96
  srcs : List (Src × IMap)
  home : Option (Bool × Word64) := none
  fp : Word
  origin : Word64
  no : Nat
  deriving DecidableEq, Repr

/-- A watch range in global virtual space (`blk` none) or in a block's scratchpad, bytes [lo, hi), and the
clauses that charge it (R331); 128 + i is clause i's home. -/
structure Watch where
  blk : Option Nat
  lo : Nat
  hi : Nat
  by_ : List Nat
  deriving DecidableEq, Repr

/-- A region word (R370). -/
structure Region where
  row0 : Nat
  col0 : Nat
  rows : Nat
  cols : Nat
  deriving DecidableEq, Repr

/-- Where a demand writes (R386): an accumulator, or memory or scratchpad by row and column steps in elements; or the spill home of
its root (R330). -/
inductive Target where
  | acc (c : Nat)
  | mem (scratch : Bool) (base : Word64) (rs cs : Int)
  | home (scratch : Bool) (base : Nat)
  deriving DecidableEq, Repr

/-- A tile of elements from (r0, c0) on: each element's pattern and the scale word it reads with. -/
structure TileV where
  r0 : Nat
  c0 : Nat
  vals : List (List (Nat × Nat))
  deriving DecidableEq, Repr

/-- A demand: its root clause, region and target, the format block at its issue, whether it reads what it writes (R333), and how
far it is. `kept` are the root's values and flags once every source is read, `resv` the outlier reservations by clause (R361).
`log` holds the answers of the accesses made since, in their order, of which `mark` came before the clause in progress, with the
reservations `news` made along; `asked` is the access of another device whose answer is awaited, with its bytes, `far` the request where
that is an atomic, and `out` the writes that await their acknowledgement, each as the fault of its timeout; `sent` is when those requests
left. -/
structure Demand where
  root : Nat
  region : Region
  target : Target
  fmt : BitVec 96
  self : Bool
  done : Bool := false
  kept : Option (TileV × Nat) := none
  resv : Tbl (Nat × Nat) := []
  log : List Nat := []
  mark : Nat := 0
  clause : Nat := 0
  news : Tbl (Nat × Nat) := []
  asked : Option (BatchFault × Nat) := none
  far : Option FarLane := none
  out : List BatchFault := []
  sent : Nat := 0
  deriving DecidableEq, Repr

/-- Where a batch stands: closed, evaluated, faulted and then marked failed, paused on a replayable fault (with the
fault a declined repair makes of it). A complete batch leaves the list. -/
inductive BatchState where
  | closed
  | evaluated
  | faulted (f : BatchFault)
  | failed (f : BatchFault)
  | paused (f : BatchFault) (pages : List Nat)
  deriving DecidableEq, Repr

/-- A batch (R329): its number, demands and flags so far. -/
structure Batch where
  no : Nat
  demands : List Demand
  st : BatchState := .closed
  flags : Nat := 0
  deriving DecidableEq, Repr

/-- What wrote a byte: a wave, or a copy with its object. -/
inductive Writer where
  | wave
  | copy (obj : Option (Nat × Nat))
  deriving DecidableEq, Repr

/-- A byte that a wave or a copy of a block with a tile stream has written, in global memory (`spc` none) or in a block's scratchpad, and
what it held before: a clause may still read that unless TORF orders its reads after the write, or a batch has overwritten it (R311, R340,
R384). `app` counts the block's appends before the write, `by_` are the waves that carry the write to their arrivals, `rels` the places
of the releases made with it, each with its wave and scope (R304), `arr` the numbered barriers arrived at with it, each with whether
that phase is complete, `upto` the last append whose reads are not ordered after the write. -/
structure Recent where
  blk : Nat
  spc : Option Nat
  addr : Nat
  old : Byte
  who : Writer := .wave
  app : Nat := 0
  by_ : List Nat
  rels : List ((Option Nat × Nat) × Nat × Scope) := []
  arr : List (Nat × Bool) := []
  upto : Option Nat := none
  deriving DecidableEq, Repr

/-- A trap of the tile stream that waits for its delivery, or for the system software (R338). -/
structure StreamTrap where
  cls : Nat
  sub : Nat
  epc : Word64
  cw : Word64
  origin : Word64
  clause : Nat
  coord : Nat
  late : Bool
  delivered : Option Nat := none
  deriving DecidableEq, Repr

/-! ## Blocks and cores -/

/-- A numbered barrier (R343). -/
structure NBar where
  exp : Nat := 0
  arr : Nat := 0
  ph : Bool := false
  deriving DecidableEq, Repr

/-- The place of a destination byte: in memory, of another device, or in a block's scratchpad. -/
inductive CopyPlace where
  | mem (pa : Nat)
  | far (pa : Nat)
  | scr (blk addr : Nat)
  deriving DecidableEq, Repr

/-- The fault record a channel keeps for a block (R273). -/
structure CopyFault where
  cls : Nat
  sub : Nat
  origin : Word64
  addr : Word64
  detail : Word64
  deriving DecidableEq, Repr

/-- A RACQ or a bin that waits for registers: the wave, its group's members and active lanes, or the bin (R124, R480). -/
structure PoolReq where
  wave : Option (Nat × Lanes)
  act : Lanes
  bin : Nat
  n : Nat
  deriving DecidableEq, Repr

/-- A resident block. -/
structure Block where
  launch : Nat
  ctx : Nat
  nbh : Nat
  index : Nat
  nextWave : Nat := 0
  cur : Nat := 0
  size : Nat := 0
  scratch : SMap Byte := []
  poolFree : Nat := 0
  poolQueue : List PoolReq := []
  nb : List NBar := []
  chwp : List Nat := []
  chFault : Tbl CopyFault := []
  hasStream : Bool := false
  handles : Tbl Nat := []
  clauses : Tbl Clause := []
  watch : Tbl Watch := []
  fmt : BitVec 96 := 0
  appends : Nat := 0
  openDemands : List Demand := []
  batches : List Batch := []
  spill : Option Batch := none
  lastClosed : Nat := 0
  lastDone : Nat := 0
  lastFpcr : Word := 0
  strap : Option StreamTrap := none
  deriving DecidableEq, Repr

/-- The byte of a copy that awaits another device: its source and destination address, the value once it is read, where it goes, and when
its request was sent. -/
structure CopyByte where
  sa : Nat
  da : Nat
  val : Option Byte
  dst : CopyPlace
  sent : Nat := 0
  deriving DecidableEq, Repr

/-- A copy in a channel (R262, R269): 0 CPY, 1 CPYG, 2 CPYS; the two words of its object in the block's scratchpad; the
declared set and the value of the ticket that was active at its issue. `delivered` counts the bytes delivered, `flight` is the next one
where it awaits another device, `idx` the element under way with its index word, `paused` the address and detail code it waits for, `rank` the core and the place
in the channel that a save recorded (R277). -/
structure CopyOp where
  kind : Nat
  blk : Nat
  wave : Nat
  srcSp : Bool
  dstSp : Bool
  src : Word64
  dst : Word64
  len : Nat
  elem : Nat
  list : Word64
  obj : Option (Nat × Nat)
  pc : Word64
  priv : Bool
  tiles : Option (List Tile)
  ticket : Word64 := 0
  started : Bool := false
  delivered : Nat := 0
  flight : List CopyByte := []
  idx : Option (Nat × Nat) := none
  paused : List Nat := []
  fault : Option CopyFault := none
  rank : Option (Nat × Nat) := none
  deriving DecidableEq, Repr

/-- A barrier tracker (R231). -/
structure Tracker where
  loc : BarLoc
  key : Nat
  wave : Nat
  byBara : Bool
  deriving DecidableEq, Repr

/-- A combined translation (R240): the tenant, the page's virtual base, its size, host base, permissions, whether
W is clear in both stages (R254), and the dirty-logging flag (R530). -/
structure TlbEntry where
  tenant : Nat
  va : Nat
  size : Nat
  pa : Nat
  w : Bool
  x : Bool
  u : Bool
  sh : Bool
  ro : Bool
  gpa : Nat
  logged : Bool
  deriving DecidableEq, Repr

inductive AccHolder where | free | stream (blk : Nat) | wave (w : Nat)
  deriving DecidableEq, Repr

/-- A request for an accumulator's token, with its group's lanes; `rank` is the core and the place in the queue that a save recorded (R393). -/
structure AccReq where
  who : AccHolder
  lanes : Lanes
  rank : Option (Nat × Nat) := none
  deriving DecidableEq, Repr

/-- An accumulator's token (R390). -/
structure AccTok where
  holder : AccHolder := .free
  last : Option Nat := none
  queue : List AccReq := []
  deriving DecidableEq, Repr

/-- A record in a gatherer bin (R479): sixteen values and the object. -/
structure ContRec where
  vals : List Word
  obj : Nat
  deriving DecidableEq, Repr

/-- A gatherer bin (R480). -/
structure Bin where
  blk : Nat
  role : Nat
  entry : Nat
  recs : List ContRec
  since : Nat
  due : Bool := false
  asked : Bool := false
  got : Bool := false
  deriving DecidableEq, Repr

/-- A core (R16). A core that is not listed is as after reset. `vAt` and `mAt` are the cycles `nv` and `nm` counted last, `nx` native steps are
yet to run, from `nxAt` on, and `nxRan` have run in this window,
`burns` the BALBURNs by their first cycle, the cycle they end before, and their level; `trapMs` is the millisecond whose TRAP event the
black box holds, `trapMiss` the traps since then (R546). -/
structure Core where
  turn : Nat := 0
  cyc : Nat := 0
  side : SMap Byte := []
  trackers : List Tracker := []
  tlb : List TlbEntry := []
  ro : Tbl (List Byte) := []
  channels : Tbl (List CopyOp) := []
  acc : SMap Word := []
  accTok : Tbl AccTok := []
  ctok : Option Nat := none
  ctokWait : List Nat := []
  ctokPass : Option Nat := none
  deque : List (Nat × Word64) := []
  bins : Tbl Bin := []
  balctl : Word64 := 12
  autoLevel : Nat := 0
  nv : Nat := 0
  nm : Nat := 0
  vAt : Option Nat := none
  mAt : Option Nat := none
  nx : Nat := 0
  nxAt : Nat := 0
  nxRan : Nat := 0
  burns : List (Nat × Nat × Nat) := []
  est : Nat := 380
  pwrCond : Bool := false
  trapMs : Option Nat := none
  trapMiss : Nat := 0
  deriving DecidableEq, Repr

/-- A stack pair (R431 to R449): `vmid` is the midpoint voltage in mV, which follows `target`; `suspect` counts consecutive windows of
unexplained shunt current (R448); `win` is the number of the last window that ended. -/
structure Pair where
  mis : Int := 0
  th : Nat := 600
  tx : Nat := 900
  vmid : Nat := 750
  target : Nat := 750
  suspect : Nat := 0
  derated : Bool := false
  win : Nat := 0
  deriving DecidableEq, Repr

/-- A compute die: by priority class the queue slot whose neighbourhood it placed last (R462), issue duty (R542), walks in flight (R240), whether it is too hot (2 while it
issues nothing, 1 while its duty falls, R543), and the use count of each sequencer entry (R404). -/
structure Die where
  served : SMap Nat := []
  duty : Nat := 16
  walks : Nat := 0
  hot : Nat := 0
  gens : SMap Nat := []
  deriving DecidableEq, Repr

/-! ## Transactions -/

/-- An open ticket at its sequencer (R398, R403 to R410): its entry, its host lines with whether each is write-declared,
the beat of its acceptance and the beat whose batch it is in, its DET key (launch, round, %NBH, %BLOCK, %WAVE), its place
in the itinerary once merged, and whether its requests are at the slices. -/
structure Ticket where
  die : Nat
  entry : Nat
  gen : Nat
  wave : Nat
  lines : List (Nat × Bool)
  beat : Nat
  batch : Nat
  round : Option (Nat × Nat × Nat × Nat × Nat)
  merged : Option Nat := none
  sent : Bool := false
  deriving DecidableEq, Repr

/-! ## Contexts, launches and queues -/

/-- A record of the Inn's fault queue: a trap in the side-buffer layout, a replay record, or a stream trap
(R191, R246, R338). -/
inductive FaultRec where
  | trap (bytes : List Byte)
  | replay (bytes : List Byte)
  | stream (blk : Nat) (bytes : List Byte)
  deriving DecidableEq, Repr

/-- A saved block with its waves, its stream and the core state that belongs to it (R494): `oldBlk` and `core` are where it was, the
rest speaks of the context's blocks and waves by names that outlast a save. -/
structure SavedBlock where
  blk : Block
  oldBlk : Nat
  core : Nat
  waves : List (Nat × Wave)
  stream : Option Wave
  side : List (Nat × List Byte)
  trackers : List Tracker
  copies : List (Nat × CopyOp)
  acc : SMap Word
  accTok : Tbl AccTok
  accReq : List (Nat × AccReq)
  bins : List (Nat × Bin)
  deque : List (Nat × Word64)
  recent : List Recent
  deriving DecidableEq, Repr

/-- A saved neighbourhood. -/
structure SavedNbh where
  launch : Nat
  nbh : Nat
  blocks : List SavedBlock
  deriving DecidableEq, Repr

/-- What a save records of a core beside its blocks: deque entries where no block of the context is resident, and the accumulators that an
agent of an ended block held last (R393, R484). -/
structure SavedCore where
  core : Nat
  deque : List (Nat × Word64)
  acc : SMap Word
  accTok : Tbl AccTok
  deriving DecidableEq, Repr

/-- Live migration of a virtual device (R530 to R535); the source of one that is `gone` need keep nothing any more. -/
inductive MigState where | off | rounds | stopping | blackout | moved | gone
  deriving DecidableEq, Repr

/-- A capability of an Inn core (R536). -/
structure Capability where
  base : Word64 := 0
  length : BitVec 48
  read : Bool := false
  write : Bool := false
  execute : Bool := false
  reserved : BitVec 12 := 0
  tag : Bool := false
  deriving DecidableEq, Repr

/-- A context (R527). `utrapbase` is the %UTRAPBASE its waves start with (R527); `trapbase` is the %TRAPBASE that
supervisor code has written, none while it stands as the Inn set it (R195); `missing` holds the guest pages not yet pulled (R535); `log` and `copyLog` are the command log (R533),
`hold` what waits for the end of a blackout (R534). `dirty0` and `dirty1` are the two bitmaps, of which `one` says which is current;
`roundDue` is a migration round whose TLBI has not returned (R531); `pulls` are the missing pages asked for, with the cycle of the
request; `peer` is the device at the other end of its migration. -/
structure Ctx where
  tenant : Nat := 0
  part : Nat := 0
  running : Bool := false
  tdeleg : Word64 := 0
  utrapbase : Word64 := 0
  trapbase : Option Word64 := none
  ptbase : Word64 := 0
  hostRoot : Nat := 0
  quota : Nat := 65536
  quotaMax : Nat := 65536
  fto : Nat := 100000
  preempt : Word64 := 0x140000
  haltAt : Nat := 0
  saveAt : Nat := 0
  seals : List (Nat × Nat) := []
  saved : List SavedNbh := []
  savedCores : List SavedCore := []
  frozen : Option Nat := none
  capture : Capability := { length := 16777216, read := true, write := true, tag := true }
  saveArea : Capability := { length := 0xFFFFFFFFFFFF, read := true, write := true, tag := true }
  logging : Bool := false
  dirty0 : List Nat := []
  dirty1 : List Nat := []
  one : Bool := false
  roundDue : Bool := false
  missing : List Nat := []
  pulls : List (Nat × Nat) := []
  peer : Nat := 0
  mig : MigState := .off
  log : List (Nat × Nat) := []
  copyLog : List (Nat × CopyOp) := []
  hold : List Instr := []
  deriving DecidableEq, Repr

/-- A role of a launch record (R463). -/
structure Role where
  entry : Nat
  regs : Nat
  waves : Nat
  deriving DecidableEq, Repr

/-- A launch record as read (R463): the scratch entries are bytes, R and C. -/
structure LaunchRec where
  base : Word64 := 0
  size : Nat := 0
  det : Bool := false
  nofill : Bool := false
  nb : Nat := 0
  prio : Nat := 8
  w : Nat := 2
  h : Nat := 1
  grid : Nat := 1
  extend : Nat := 0
  roles : List Role := []
  tile : Option Nat := none
  variants : List (Nat × Nat) := []
  scratch : List (Nat × Nat × Nat) := []
  deriving DecidableEq, Repr

/-- A launch in progress (R464 to R467). -/
structure Launch where
  info : LaunchRec := {}
  ctx : Nat := 0
  queue : Option (Nat × Nat) := none
  cls : Nat := 8
  args : List Word64 := []
  next : Nat := 0
  ended : Nat := 0
  done : Bool := false
  deriving DecidableEq, Repr

/-- Where a record stands; one that is complete leaves the list, unless the page of its completion word is yet to come: it waits for that
with its status. -/
inductive CmdState where
  | fetched
  | started
  | complete (status : Nat)
  deriving DecidableEq, Repr

/-- A command record fetched from a queue (R458). -/
structure Cmd where
  k : Nat
  words : List Word64
  st : CmdState := .fetched
  launch : Option Nat := none
  deriving DecidableEq, Repr

/-- A queue: its control block's host address, the fields cached at mapping (R456, R457), and its slot: within its class's
minimum, on loan from the minimum of another class, or neither (R460), with its number; the ring is held by a capability; `last` is the
cycle its last record started. -/
structure Queue where
  qcb : Nat := 0
  part : Nat := 0
  mapped : Bool := false
  loan : Option Nat := none
  reserved : Bool := false
  waiting : Bool := true
  slot : Nat := 0
  ring : Capability := { length := 0 }
  logn : Nat := 4
  cls : Nat := 0
  tenant : Nat := 0
  rptr : Nat := 0
  stopped : Bool := false
  last : Nat := 0
  cmds : List Cmd := []
  deriving DecidableEq, Repr

/-! ## Fabric and collectives -/

/-- A fabric port (R502, R503): how often the flit `failed` has been replayed, the link sequence number of its next flit, the last flits
it sent, by that number, and the tag its next atomic tries (R287); as a receiver the link sequence number it expects, and the cycle of the
last flit, once one has come. -/
structure Port where
  up : Bool := true
  mapped : Bool := true
  replays : Nat := 0
  failed : Nat := 0
  tries : List Nat := []
  link : Nat := 0
  sent : List (Nat × List Byte) := []
  tag : Nat := 0
  expect : Nat := 0
  lastIn : Option Nat := none
  deriving DecidableEq, Repr

/-- A control flow at its source, with the unacknowledged messages by number and port and the port it is pinned to on each die that sends
on it (R504), and at its destination (R314, R507). -/
structure Flow where
  ordered : Bool := false
  pins : List (Nat × Nat) := []
  next : Nat := 0
  unacked : List (Nat × Nat × RemoteReq) := []
  expect : Nat := 0
  seen : List Nat := []
  buffer : List (Nat × RemoteReq) := []
  deriving DecidableEq, Repr

/-- A collective group (R509). -/
structure Group where
  members : List Nat := []
  rank : Nat := 0
  gen : Nat := 0
  tp : Nat := 2000
  accepted : Nat := 0
  deriving DecidableEq, Repr

/-- A queue pair (R521): the context it serves, its path MTU, and the message sequence number it performs next (R522). -/
structure Qp where
  ctx : Nat
  mtu : Nat := 1024
  expect : Nat := 0
  deriving DecidableEq, Repr

/-- What another member's descriptor names (R514): the group and generation, its number among them, the member's rank, and the fields
that all members' must share. -/
structure PeerDesc where
  group : Nat
  gen : Nat
  k : Nat
  rank : Nat
  fields : Nat × Nat × ElemTy × Nat × Nat
  deriving DecidableEq, Repr

/-- A collective in an engine slot (R510, R514, R516): its descriptor, the status it recorded, and the pages the engine
holds for SEND and RECV, each with its virtual, host and guest address (R520); the cycle of its start or of its last flit (R517), when
its reads of a SEND on other devices left while they await their answer, and the far writes of its result that await their
acknowledgement. -/
structure Coll where
  use : Nat
  ctx : Nat
  group : Nat
  gen : Nat
  k : Nat
  det : Bool
  op : Nat
  red : Nat
  ty : ElemTy
  send : Word64
  recv : Word64
  count : Nat
  root : Nat
  status : Option (Nat × Nat × Nat) := none
  sendPg : List (Nat × Nat × Nat) := []
  recvPg : List (Nat × Nat × Nat) := []
  lastIn : Nat := 0
  reads : Option Nat := none
  out : List FarWrite := []
  deriving DecidableEq, Repr

/-- Where an atomic from outside its die is applied (R279): at the line's home slice, or at the fabric port it came in by. -/
inductive AtomSite where
  | slice (n : Nat)
  | port (n : Nat)
  deriving DecidableEq, Repr

/-- An entry of a dedup table (R287): the site, the source port, the tag, the reply; of a request of this device's own cores, the cycle of
the reply. -/
structure Dedup where
  site : AtomSite
  port : Nat
  tag : Nat
  reply : Nat
  own : Option Nat := none
  deriving DecidableEq, Repr

/-- The state of a hard partition beyond the firewall registers; `locks` lists the lock words that are taken (R291), `peers` the
descriptors of other members that no CLST here has matched yet (R514), `aborts` their aborts of collectives not yet accepted here (group,
generation, number, rank and detail), `grants` the devices that the Inn lets reach this one (R526). -/
structure Partition where
  dev : Nat := 0
  beat : Nat := 0
  tickets : List Ticket := []
  itin : Nat := 0
  groups : Tbl Group := []
  colls : Tbl Coll := []
  collUse : SMap Nat := []
  aper : SMap Word64 := []
  flows : Tbl Flow := []
  peers : List PeerDesc := []
  aborts : List (Nat × Nat × Nat × Nat × Nat) := []
  routes : Tbl (List Nat) := []
  grants : List Nat := []
  qps : Tbl Qp := []
  msgs : List (Nat × List Byte) := []
  dedup : List Dedup := []
  locks : List Nat := []
  cap : Nat := 600
  slots : Nat := 32
  mins : List Nat := []
  quantum : Nat := 2000
  qStart : Nat := 0
  runCtx : Option Nat := none
  deriving DecidableEq, Repr

/-- What leaves the device. -/
inductive Out where
  | read (dev : Nat) (host : Bool) (w : Nat) (addrs : List (Nat × Nat))
  | write (dev : Nat) (host : Bool) (w : Nat) (addr : Nat) (data : List Byte)
  | atomic (dev : Nat) (r : AtomicReq)
  | control (flow seq : Nat) (r : RemoteReq)
  | reply (port tag : Nat) (v : Nat)
  | release (port tag : Nat)
  /-- a flit that a port puts on its link, and a stretch of idle flits, by link sequence number (R502) -/
  | flit (port link : Nat) (bytes : List Byte)
  | idle (port link n : Nat)
  | data (bytes : List Byte)
  | refusal (f : FarFault)
  | spdm (code : Nat) (vals : List Nat)
  | blackBox (e : List Byte)
  /-- an SMBus alert, and a message on the management path with the unit and the cause (R545) -/
  | alert (kind unit : Nat)
  | manage (kind unit cause : Nat)
  | capacity (w : Word64)
  | ack (qp : Nat)
  /-- a congestion notification packet (R521) -/
  | cnp (qp : Nat)
  /-- a receiver asks for a replay from a link sequence number on (R503) -/
  | replay (port link : Nat)
  | ready
  | powerDown
  | page (gpa : Nat) (data : List Byte)
  | request (gpa : Nat)
  | held (i : Instr)
  | transfer (kind : Nat) (vals : List Nat) (data : List Byte)
  | rebind (dev : Nat)
  /-- the peers' route sets lead to where the device number is now (R534); no page is missing any more (R535) -/
  | reroute (dev : Nat)
  | arrived (dev : Nat)
  deriving DecidableEq, Repr

/-- A black-box entry (R546). -/
structure BBEntry where
  seq : Nat
  ty : Nat
  tenant : Nat
  src : Nat
  us : Nat
  detail : Nat
  part : Option Nat := none
  deriving DecidableEq, Repr

/-- Which group issues: the wave, the members of the issuing part, and the word it has fetched. -/
structure Issuer where
  wave : Nat
  lanes : Lanes
  word : Option (BitVec 96) := none
  deriving DecidableEq, Repr

/-- What programs, the Inn and the fabric change. `outPairs` and `outSlices` are mapped out, `sick` clusters and `sickSlices`
slices to be so (R544); `eccAt` is the µs of each slice's last corrected error, plus 1; `down` is a module powered down (R543);
`clk` counts arithmetic cycles since reset, `fresh` the open values drawn, `recent` the old bytes of waves' writes, `cur` the group that issues, `issued` the waves that have
issued in this cycle, `table` where the Inn has installed its supervisor table (R195, R538, R540), `evTurn` whether a due step of the device comes before the next issue. -/
structure Run where
  mem : SMap Byte := []
  waves : Tbl Wave := []
  blocks : Tbl Block := []
  cores : Tbl Core := []
  pairs : Tbl Pair := []
  dies : Tbl Die := []
  parts : Tbl Partition := []
  ctxs : Tbl Ctx := []
  launches : Tbl Launch := []
  queues : Tbl Queue := []
  ports : Tbl Port := []
  outPairs : List Nat := []
  outSlices : List Nat := []
  sick : List Nat := []
  sickSlices : List Nat := []
  eccAt : SMap Nat := []
  down : Bool := false
  bb : List BBEntry := []
  bbNext : Nat := 0
  faultq : List FaultRec := []
  inbox : List Instr := []
  out : List Out := []
  clk : Nat := 0
  fresh : Nat := 0
  recent : List Recent := []
  cur : Issuer := ⟨0, 0, none⟩
  issued : List Nat := []
  evTurn : Bool := false
  table : Word64 := 0
  deriving DecidableEq, Repr

/-- The stages of boot as R540 ends them. -/
inductive BootState where | off | recovery | failed (stage : Nat) | ready
  deriving DecidableEq, Repr

/-- The firewall registers and the boot chain; `innQps` are the queue pairs that the Inn reserves (R523). -/
structure Sys where
  pmap : Word64 := 0xE4
  bnd : List Word64 := [1, 1, 1, 1]
  lp : List Word64 := [0, 0, 0, 0]
  slotA : Image := ⟨true, 1, 1⟩
  slotB : Image := ⟨true, 1, 1⟩
  stages : List Image := [⟨true, 1, 2⟩, ⟨true, 1, 3⟩]
  rollback : Nat := 1
  boot : BootState := .off
  boots : Nat := 0
  jtag : Bool := false
  measured : List Nat := []
  alias_ : Nat := 0
  devId : Nat := 0
  innQps : List Nat := [0]
  deriving DecidableEq, Repr

/-- The state of the machine. -/
structure State where
  run : Run := {}
  sys : Sys := {}
  deriving DecidableEq, Repr

/-- Where the machine stops. Each is a state no run from reset reaches. -/
inductive Fault where
  /-- Raised by `exec` when the issuing part names no live wave with members: safe, the step never issues so. -/
  | noIssuer
  deriving DecidableEq, Repr

/-- Why the machine gives no meaning. -/
inductive Refusal where
  /-- An instruction rejected by name: safe, the machine does nothing. -/
  | notModelled (mnemonic : String)
  deriving DecidableEq, Repr

/-- The machine right after reset: firewall and boundary registers at their reset values (R524), no firmware run,
nothing resident, memory with nothing listed. -/
def State.reset : State := {}

end Sys2Proof.Machine
end

