-- ==== Sys2Proof/Machine/Ops.lean ====
section
/-! DEFINITION. The named operations on the state: registers, parts, memory bytes, trap entry and return. -/

namespace Sys2Proof.Machine

/-! ## Numbering -/

/-- The number under which a block's tile stream is kept among the waves. -/
def streamId (b : Nat) : Nat := 30720 + b
/-- Device-wide core number of a wave or of a stream's block (R13). -/
def coreOf (w : Nat) : Nat := if w < 30720 then w / 24 else (w - 30720) / 4
def slotOf (w : Nat) : Nat := w % 24
def coreX (c : Nat) : Nat := c % 320 % 16
def coreY (c : Nat) : Nat := c % 320 / 16
def dieOf (c : Nat) : Nat := c / 320
def coreAt (die x y : Nat) : Nat := die * 320 + y * 16 + x
/-- The other core of a stack pair (R13, R14). -/
def mateOf (c : Nat) : Nat := if c % 2 = 0 then c + 1 else c - 1
/-- Device-wide pair number of a core: die × 160 + y × 8 + i (R13). -/
def pairOf (c : Nat) : Nat := dieOf c * 160 + coreY c * 8 + coreX c / 2
/-- The lower and the upper core of a pair. -/
def pairLo (p : Nat) : Nat := coreAt (p / 160) (p % 8 * 2) (p % 160 / 8)
def pairHi (p : Nat) : Nat := pairLo p + 1
/-- Device-wide cluster number: die × 40 + k × 8 + j (R13). -/
def clusterOf (c : Nat) : Nat := dieOf c * 40 + coreY c / 4 * 8 + coreX c / 2
/-- The eight cores of a core's cluster, in the order of R214. -/
def clusterCores (c : Nat) : List Nat :=
  (List.range 8).map (fun i => coreAt (dieOf c) (coreX c / 2 * 2 + i % 2) (coreY c / 4 * 4 + i / 2))

/-! ## Tables with reset entries -/

def Run.core (r : Run) (c : Nat) : Core := (r.cores.get? c).getD {}
def Run.setCore (r : Run) (c : Nat) (x : Core) : Run := { r with cores := r.cores.put c x }
def Run.onCore (r : Run) (c : Nat) (f : Core → Core) : Run := r.setCore c (f (r.core c))
def Run.pair (r : Run) (p : Nat) : Pair := (r.pairs.get? p).getD {}
def Run.onPair (r : Run) (p : Nat) (f : Pair → Pair) : Run := { r with pairs := r.pairs.put p (f (r.pair p)) }
def Run.die (r : Run) (d : Nat) : Die := (r.dies.get? d).getD {}
def Run.onDie (r : Run) (d : Nat) (f : Die → Die) : Run := { r with dies := r.dies.put d (f (r.die d)) }
def Run.part (r : Run) (p : Nat) : Partition := (r.parts.get? p).getD {}
def Run.onPart (r : Run) (p : Nat) (f : Partition → Partition) : Run := { r with parts := r.parts.put p (f (r.part p)) }
def Run.port (r : Run) (p : Nat) : Port := (r.ports.get? p).getD {}
def Run.onPort (r : Run) (p : Nat) (f : Port → Port) : Run := { r with ports := r.ports.put p (f (r.port p)) }
def Run.ctx (r : Run) (c : Nat) : Ctx := (r.ctxs.get? c).getD {}
def Run.onCtx (r : Run) (c : Nat) (f : Ctx → Ctx) : Run := { r with ctxs := r.ctxs.upd c f }
def Run.block (r : Run) (b : Nat) : Block := (r.blocks.get? b).getD { launch := 0, ctx := 0, nbh := 0, index := 0 }
def Run.onBlock (r : Run) (b : Nat) (f : Block → Block) : Run := { r with blocks := r.blocks.upd b f }
def Run.wave (r : Run) (w : Nat) : Wave := (r.waves.get? w).getD {}
def Run.setWave (r : Run) (w : Nat) (x : Wave) : Run := { r with waves := r.waves.put w x }
def Run.onWave (r : Run) (w : Nat) (f : Wave → Wave) : Run := { r with waves := r.waves.upd w f }
def Run.launch (r : Run) (l : Nat) : Launch := (r.launches.get? l).getD {}
def Run.onLaunch (r : Run) (l : Nat) (f : Launch → Launch) : Run := { r with launches := r.launches.upd l f }
def Run.queue (r : Run) (q : Nat) : Queue := (r.queues.get? q).getD {}
def Run.onQueue (r : Run) (q : Nat) (f : Queue → Queue) : Run := { r with queues := r.queues.upd q f }
/-- Bytes of flits that a request of some payload takes (R502). -/
def flitSpace (n : Nat) : Nat := max 1 ((n + 223) / 224) * 256
/-- What a held request takes of the hold buffer (R534). -/
def heldSpace (i : Instr) : Nat :=
  match i with
  | .rdmaWrite _ _ _ _ d | .rdmaSend _ _ _ d | .remoteDataRequest _ (.store _ d) | .controlMessageDelivery _ _ _ (.store _ d) => flitSpace d.length
  | _ => flitSpace 0
/-- A request to a partition of which a context is in the blackout of its migration is held, where it is that context's, while the
8 MiB of the hold buffer last (R534); one beyond them is refused at link level and comes again. -/
def Run.holdOr (r : Run) (p : Nat) (mine : Nat → Bool) (i : Instr) (k : Run → Run) : Run :=
  match r.ctxs.find? (fun e => e.2.part == p && e.2.mig == .blackout && mine e.1) with
  | none => k r
  | some e =>
    if 8388608 < e.2.hold.foldl (fun n j => n + heldSpace j) (heldSpace i) then r
    else r.onCtx e.1 (fun c => { c with hold := c.hold ++ [i] })
/-- The current bitmap of a context (R530), and a page marked in it. -/
def Ctx.dirty (c : Ctx) : List Nat := if c.one then c.dirty1 else c.dirty0
def Ctx.setDirty (c : Ctx) (l : List Nat) : Ctx := if c.one then { c with dirty1 := l } else { c with dirty0 := l }
def Ctx.markPage (c : Ctx) (g : Nat) : Ctx := if c.dirty.contains g then c else c.setDirty (c.dirty ++ [g])
def Run.send (r : Run) (o : Out) : Run := { r with out := r.out ++ [o] }
/-- A value the manual leaves open. -/
def Run.free (r : Run) : Word64 × Run := (Config.freeWord r.fresh, { r with fresh := r.fresh + 1 })

/-- The step of pre-emption a context has reached, and whether it is complete (R487). -/
def Ctx.step (c : Ctx) : Nat := bits c.preempt 4 3
def Ctx.done (c : Ctx) : Bool := c.preempt.getLsbD 8

/-- Insert what a save recorded: before what came of the same place after it, and before what is newer than the save (R277, R393). -/
def insertRanked {α : Type} (rank : α → Option (Nat × Nat)) (x : α) : List α → List α
  | [] => [x]
  | z :: t => match rank x, rank z with
    | some (c, i), some (d, j) => if c = d && i < j then x :: z :: t else z :: insertRanked rank x t
    | some _, none => x :: z :: t
    | none, _ => z :: insertRanked rank x t

/-- Keep the entries that minimise a number. -/
def leastBy {α : Type} (f : α → Nat) (xs : List α) : Option α :=
  xs.foldl (fun (b : Option α) x => match b with
    | some z => if f x < f z then some x else b
    | none => some x) none

/-- The slot whose ticket is in its access window (R411): not one that has timed out (R414). -/
def Wave.window (w : Wave) : Option Bool :=
  match w.active with
  | some one => if (if one then w.slot1 else w.slot0).any (fun t => !t.dead) then some one else none
  | none => none

/-- Whether requests of a batch to other devices await their answers. -/
def Batch.beyond (x : Batch) : Bool := x.demands.any (fun d => d.asked.isSome || d.out ≠ [])
/-- Whether the evaluation of a batch has begun. -/
def Batch.started (x : Batch) : Bool := x.demands.any (fun d => d.done || d.kept.isSome || d.log ≠ [] || d.asked.isSome)

/-- The block, launch record and context of a wave or stream. -/
def Run.blockOf (r : Run) (w : Wave) : Block := r.block w.blk
def Run.launchOf (r : Run) (w : Wave) : Launch := r.launch (r.block w.blk).launch
def Run.ctxOf (r : Run) (w : Wave) : Ctx := r.ctx (r.block w.blk).ctx
def Run.det (r : Run) (w : Wave) : Bool := (r.launchOf w).info.det

/-- The live waves of a block, in ascending slot. -/
def Run.wavesOf (r : Run) (b : Nat) : List (Nat × Wave) :=
  r.waves.filter (fun e => e.2.blk == b && !e.2.stream && e.2.life ≠ .ended)
/-! Names that outlast a save: of a block by launch, neighbourhood and index, of a wave by its block's name and %WAVE. No number of a
resident block or wave is as large. -/

def Block.name (b : Block) : Nat := 2 ^ 60 * (b.launch + 1) + b.nbh * 64 + b.index
def Wave.name (blk : Nat) (w : Wave) : Nat := blk * 2 ^ 17 + if w.stream then 2 ^ 16 else w.index
def isName (n : Nat) : Bool := 2 ^ 60 ≤ n

/-- The blocks of a core. -/
def Run.blocksOn (r : Run) (c : Nat) : List (Nat × Block) := r.blocks.filter (fun e => e.1 / 4 == c)

/-- Whether a wave is in supervisor state (R206). -/
def Wave.priv (w : Wave) : Bool := !w.sup.isEmpty
/-- %CAUSE.INH (R193). -/
def Wave.inh (w : Wave) : Bool := w.cause.getLsbD 31
/-- The lanes of a wave that have not exited. -/
def Wave.live (w : Wave) : Lanes :=
  w.parts.foldl (fun m p => m ||| p.mask) 0 ||| w.held.foldl (fun m h => m ||| h.lanes) 0 |||
  w.waiting.foldl (fun m h => m ||| h.lanes) 0
/-- Fully reconverged (R95). -/
def Wave.reconverged (w : Wave) : Bool :=
  w.held.isEmpty && w.waiting.isEmpty && w.parts.all (fun p => p.frag.isNone) &&
  w.parts.all (fun p => p.pc == (w.parts.head?.map (fun q => q.pc)).getD 0)

def DCtx.ofWave (w : Wave) : DCtx := { tile := w.stream, priv := w.priv, inh := w.inh }

/-! ## Registers -/

/-- A row of zeros: every register at wave start (R119). -/
def zeroRow : Row := List.replicate 32 0#32
def rowAt (x : Row) (l : Nat) : Word := x.getD l 0
/-- A row with the lanes of a mask replaced. -/
def rowMix (x : Row) (m : Lanes) (f : Nat → Word) : Row :=
  laneIds.map (fun l => if m.getLsbD l then f l else rowAt x l)
def laneBit (l : Nat) : Lanes := 1#32 <<< l

def Wave.vRow (w : Wave) (n : Nat) : Row := SMap.get zeroRow w.v n
def Wave.sReg (w : Wave) (n : Nat) : Word64 := SMap.get 0 w.s n
/-- Predicate n; p15 reads true in every lane (R35). -/
def Wave.pReg (w : Wave) (n : Nat) : Lanes := if n = 15 then 0xFFFFFFFF#32 else SMap.get 0 w.p n
def Wave.aRow (w : Wave) (n : Nat) : Row := SMap.get zeroRow w.a n
def Wave.mReg (w : Wave) (n : Nat) : Word × Word := SMap.get (0, 0) w.m n

/-! What an issuing instruction reads: the old value of a fixed-latency result in flight, where the free choice of R47 falls
so, else the register. -/

def Wave.stale? {α : Type} (w : Wave) (f : OldVal → Option α) : Option α :=
  w.young.findSome? (fun y => if y.stale ≠ 0 then f y.old else none)
/-- A row as it is read: in the stale lanes of a result in flight, the row before that result. -/
def Wave.seeRow (w : Wave) (f : OldVal → Option Row) (x : Row) : Row :=
  w.young.foldr (fun y acc => match f y.old with | some o => rowMix acc y.stale (rowAt o) | none => acc) x
def Wave.vSee (w : Wave) (n : Nat) : Row := w.seeRow (fun o => match o with | .v k x => if k = n then some x else none | _ => none) (w.vRow n)
def Wave.sSee (w : Wave) (n : Nat) : Word64 := (w.stale? (fun o => match o with | .s k x => if k = n then some x else none | _ => none)).getD (w.sReg n)
def Wave.pSee (w : Wave) (n : Nat) : Lanes :=
  if n = 15 then 0xFFFFFFFF#32 else w.young.foldr (fun y acc => match y.old with | .p k x => if k = n then (acc &&& ~~~y.stale) ||| (x &&& y.stale) else acc | _ => acc) (w.pReg n)
def Wave.aSee (w : Wave) (n : Nat) : Row := w.seeRow (fun o => match o with | .a k x => if k = n then some x else none | _ => none) (w.aRow n)
def Wave.mSee (w : Wave) (n : Nat) : Word × Word := (w.stale? (fun o => match o with | .m k x => if k = n then some x else none | _ => none)).getD (w.mReg n)

/-- Write lanes of a vector register; they become full (R129). -/
def Wave.setV (w : Wave) (n : Nat) (m : Lanes) (f : Nat → Word) : Wave :=
  { w with v := w.v.set zeroRow n (rowMix (w.vRow n) m f)
           vEmpty := w.vEmpty.set 0 n (SMap.get 0 w.vEmpty n &&& ~~~m)
           vInd := w.vInd.set 0 n (SMap.get 0 w.vInd n &&& ~~~m) }
/-- Write a scalar register; it becomes full. -/
def Wave.setS (w : Wave) (n : Nat) (x : Word64) : Wave :=
  { w with s := w.s.set 0 n x, sEmpty := w.sEmpty &&& ~~~(1#128 <<< n), sInd := w.sInd &&& ~~~(1#128 <<< n) }
/-- Write lanes of a predicate; a write to p15 is discarded (R35). -/
def Wave.setP (w : Wave) (n : Nat) (m : Lanes) (f : Nat → Bool) : Wave :=
  if n = 15 then w else
  { w with p := w.p.set 0 n ((SMap.get 0 w.p n &&& ~~~m) ||| (Lanes.ofTest f &&& m)) }
def Wave.setA (w : Wave) (n : Nat) (m : Lanes) (f : Nat → Word) : Wave :=
  { w with a := w.a.set zeroRow n (rowMix (w.aRow n) m f) }
def Wave.setM (w : Wave) (n : Nat) (x : Word × Word) : Wave := { w with m := w.m.set (0, 0) n x }

/-- Mark registers empty (R129). -/
def Wave.markEmpty (w : Wave) (rs : List RegRef) : Wave :=
  rs.foldl (fun w r => if r.vec then { w with vEmpty := w.vEmpty.set 0 r.n (SMap.get 0 w.vEmpty r.n ||| r.mask) }
                       else { w with sEmpty := w.sEmpty ||| (1#128 <<< r.n) }) w
/-- Fill registers (R129). -/
def Wave.fill (w : Wave) (rs : List RegRef) : Wave :=
  rs.foldl (fun w r => if r.vec then { w with vEmpty := w.vEmpty.set 0 r.n (SMap.get 0 w.vEmpty r.n &&& ~~~r.mask) }
                       else { w with sEmpty := w.sEmpty &&& ~~~(1#128 <<< r.n) }) w
/-- Make registers indeterminate (R129, R288, R313). -/
def Wave.spoil (w : Wave) (rs : List RegRef) : Wave :=
  (w.fill rs) |> fun w => rs.foldl (fun w r =>
    if r.vec then { w with vInd := w.vInd.set 0 r.n (SMap.get 0 w.vInd r.n ||| r.mask) }
    else { w with sInd := w.sInd ||| (1#128 <<< r.n) }) w
def Wave.isEmpty (w : Wave) (r : RegRef) : Bool :=
  if r.vec then (SMap.get 0 w.vEmpty r.n &&& r.mask) ≠ 0 else w.sEmpty.getLsbD r.n
def Wave.isInd (w : Wave) (r : RegRef) : Bool :=
  if r.vec then (SMap.get 0 w.vInd r.n &&& r.mask) ≠ 0 else w.sInd.getLsbD r.n

/-- Owe a result: its registers read empty until it arrives (R129). The value, where the model knows it, is
already in the registers. -/
def Wave.owe (w : Wave) (rs : List RegRef) (kind : PendKind) (acq : Bool) (m : Lanes) (pc : Word64) :
    Wave :=
  { w.markEmpty rs with pend := w.pend ++ [{ id := w.pendNext, regs := rs, kind := kind, acq := acq, mask := m, pc := pc }], pendNext := w.pendNext + 1 }

/-! ## Parts -/

/-- Change the parts that lie in a lane set. -/
def Wave.onParts (w : Wave) (m : Lanes) (f : Part → Part) : Wave :=
  { w with parts := w.parts.map (fun p => if (p.mask &&& m) ≠ 0 then f p else p) }
/-- Move the parts of a lane set on to the next instruction (R33). -/
def Wave.advance (w : Wave) (m : Lanes) : Wave := w.onParts m (fun p => { p with pc := p.pc + 12, park := .run })
def Wave.jump (w : Wave) (m : Lanes) (pc : Word64) : Wave := w.onParts m (fun p => { p with pc := pc, park := .run })
def Wave.park (w : Wave) (m : Lanes) (k : Park) : Wave := w.onParts m (fun p => { p with park := k })
/-- A region entry for the parts of a lane set, each at its own PC (R199). -/
def Wave.regionEntry (w : Wave) (m : Lanes) : Wave :=
  { w.onParts m (fun p => { p with rpc := p.pc }) with rgn := w.rgn + 1 }
def Wave.partAt (w : Wave) (m : Lanes) : Option Part := w.parts.find? (fun p => (p.mask &&& m) ≠ 0)
/-- Whether two parts at one PC issue together: each runs, or issues afresh what it waits in. -/
def Park.joins (j k : Park) : Bool :=
  let afresh (x : Park) : Bool := match x with | .run => true | .retry _ => true | _ => false
  (afresh j && afresh k) || j == k
/-- The members of the group that a part issues with (R92): a fragment alone, or the slice parts at one PC. -/
def Wave.groupOf (w : Wave) (p : Part) : Lanes :=
  w.parts.foldl (fun m q =>
    if q.uid = p.uid || (q.frag.isNone && p.frag.isNone && q.pc = p.pc && q.park.joins p.park) then m ||| q.mask else m) 0
/-- A value the manual leaves open, drawn by a wave: in DET mode the launch fixes it (R421). -/
def Run.drawFor (r : Run) (wid : Nat) (key : List Nat) : Word64 × Run :=
  let w := r.wave wid
  if r.det w then
    let b := r.blockOf w
    let pc : Nat := ((w.partAt r.cur.lanes).map (fun p : Part => (p.pc - (r.launchOf w).info.base).toNat)).getD 0
    (Config.detWord ([b.nbh, b.index, w.index, w.rgn.toNat, pc] ++ key), r)
  else r.free

/-- The fragment slots of a core in use (R97): of running fragments, and of those whose lanes wait for a release (R99). -/
def Run.fragsUsed (r : Run) (c : Nat) : List Nat :=
  (r.waves.filter (fun e => coreOf e.1 == c && !e.2.stream)).flatMap (fun e =>
    e.2.parts.filterMap (fun p => p.frag) ++ e.2.waiting.filterMap (fun h => h.frag))
/-- The free fragment slots a wave may take, lowest first; none in DET mode (R97). -/
def Run.fragsFree (r : Run) (wid : Nat) (w : Wave) : List Nat :=
  if r.det w then [] else
  let used := r.fragsUsed (coreOf wid)
  (List.range 32).filter (fun f => !used.contains f)

def sliceMask (i : Nat) : Lanes := 0xF#32 <<< (4 * i)

/-- R98: parts without running lanes end or take up their oldest held group; a fragment's slot is freed with it, or
with the release of the lanes that wait. -/
def Wave.settle (w : Wave) : Wave :=
  w.parts.foldl (fun (w : Wave) (p : Part) =>
    if p.mask ≠ 0 then w else
    match w.held.find? (fun h => h.owner == p.uid) with
    | some h => { w with parts := w.parts.map (fun q => if q.uid == p.uid then
                           { q with mask := h.lanes, pc := h.pc, rpc := h.rpc, park := .run } else q)
                         held := w.held.erase h }
    | none => { w with parts := w.parts.filter (fun q => q.uid ≠ p.uid) }) w

/-- R99: when no live lane is running or held, the waiting lanes at the largest k and there at the lowest address
run on at that address + 12, as the parts of their slices; the release is a region entry (R199). -/
def Wave.release (w : Wave) : Wave :=
  if w.parts ≠ [] ∨ w.held ≠ [] ∨ w.waiting = [] then w else
  let k := w.waiting.foldl (fun k h => max k h.k) 0
  let atK := w.waiting.filter (fun h => h.k == k)
  let addr := atK.foldl (fun a h => if h.addr.toNat < a then h.addr.toNat else a) (2 ^ 64)
  let go := atK.filter (fun h => h.addr.toNat == addr)
  let m : Lanes := go.foldl (fun m h => m ||| h.lanes) 0
  let pc := BitVec.ofNat 64 (addr + 12)
  { w with
    waiting := w.waiting.filter (fun h => !(go.contains h))
    parts := (List.range 8).filterMap (fun i =>
      let x := m &&& sliceMask i
      if x = 0 then none else some { uid := i, slice := i, frag := none, mask := x, pc := pc, rpc := pc })
    rgn := w.rgn + 1 }

/-- Settle the parts and release the waiting lanes as far as they go. -/
def Wave.regroup (w : Wave) : Wave := w.settle.release

/-- One division of R96 for one part: `t` are its members that go to `tgt`. Gives the part that stays and what is
detached: a fragment in slot `f`, or a held group. -/
def dividePart (p : Part) (t : Lanes) (fall tgt : Word64) (f : Option Nat) : Part × Option Part × Option Held :=
  let n := p.mask &&& ~~~t
  if t = 0 then ({ p with pc := fall }, none, none)
  else if n = 0 then ({ p with pc := tgt }, none, none)
  else
    let x := if t.count ≤ n.count then t else n
    match f with
    | some slot =>
      ({ p with mask := p.mask &&& ~~~x, pc := if x = t then fall else tgt },
       some { uid := 8 + slot, slice := p.slice, frag := some slot, mask := x, pc := if x = t then tgt else fall, rpc := p.rpc },
       none)
    | none => ({ p with mask := n, pc := fall }, none, some ⟨t, tgt, p.rpc, p.uid⟩)

/-- R96 for every part of the issuing group in ascending order, each taking the next free slot it needs. -/
def Wave.divide (w : Wave) (m act : Lanes) (tgt : Word64) (slots : List Nat) : Wave :=
  (w.parts.foldl (fun (acc : Wave × List Nat) p =>
    let (w, slots) := acc
    if (p.mask &&& m) = 0 then (w, slots) else
    let (keep, frag, held) := dividePart p (p.mask &&& act) (p.pc + 12) tgt slots.head?
    ({ w with
        parts := w.parts.map (fun q => if q.uid == p.uid then { keep with park := .run } else q) ++ frag.toList
        held := w.held ++ held.toList },
     if frag.isSome then slots.tail else slots)) (w, slots)).1

/-! ## Memory bytes -/

def memGet (m : SMap Byte) (a : Nat) : Byte := SMap.get Config.memDefault m a
def memSet (m : SMap Byte) (a : Nat) (b : Byte) : SMap Byte := SMap.set Config.memDefault m a b
/-- Little-endian value of `n` bytes from `a` on. -/
def memRead (m : SMap Byte) (a : Nat) : Nat → Nat
  | 0 => 0
  | n + 1 => (memGet m a).toNat + 256 * memRead m (a + 1) n
def memWrite (m : SMap Byte) (a v : Nat) : Nat → SMap Byte
  | 0 => m
  | n + 1 => memWrite (memSet m a (BitVec.ofNat 8 v)) (a + 1) (v / 256) n
def memBytes (m : SMap Byte) (a n : Nat) : List Byte := (List.range n).map (fun i => memGet m (a + i))
def memPut (m : SMap Byte) (a : Nat) : List Byte → SMap Byte
  | [] => m
  | b :: t => memPut (memSet m a b) (a + 1) t

/-- Little-endian bytes of a number. -/
def leBytes (v : Nat) : Nat → List Byte
  | 0 => []
  | n + 1 => BitVec.ofNat 8 v :: leBytes (v / 256) n
def ofLe : List Byte → Nat
  | [] => 0
  | b :: t => b.toNat + 256 * ofLe t

/-- Memory is in canonical form. -/
def Memory.wf (m : SMap Byte) : Bool := SMap.wf Config.memDefault m

/-! ## The black box (R546) -/

/-- Microseconds of the model's clock: 2,100 arithmetic cycles each (R5). -/
def Run.us (r : Run) : Nat := r.clk / 2100
def Run.event (r : Run) (ty tenant src detail : Nat) (part : Option Nat := none) : Run :=
  { r with bb := (⟨r.bbNext, ty, tenant % 256, src, r.us % 2 ^ 32, detail % 2 ^ 32, part⟩ :: r.bb).take 4096, bbNext := r.bbNext + 1 }
def BBEntry.bytes (e : BBEntry) : List Byte :=
  leBytes e.seq 4 ++ leBytes e.ty 1 ++ leBytes e.tenant 1 ++ leBytes e.src 2 ++ leBytes e.us 4 ++ leBytes e.detail 4
/-- A service request for a unit mapped out (R545): MAPOUT and SVCREQ, whose SRC names a pair (kind 1) or a port (kind 4) and nothing
else (R546), the SMBus alert, and the management message with unit and cause. -/
def Run.service (r : Run) (kind unit cause : Nat) : Run :=
  let src := if kind = 1 || kind = 4 then unit else 0xFFFF
  (((r.event 8 0xFF src (kind * 65536 + unit)).event 0x0A 0xFF src cause).send (.alert kind unit)).send (.manage kind unit cause)

/-- A ticket as R404 lays it out. -/
def ticketValue (slot : Nat) (t : TickRef) : Word64 :=
  BitVec.ofNat 64 (t.entry + t.die * 2 ^ 8 + slot * 2 ^ 10 + t.gen * 2 ^ 11)

/-- The active ticket of a wave, 0 where none is active: the class word of a TXN UNDECL (R197, R401). -/
def Wave.activeTicket (w : Wave) : Word64 :=
  match w.window with
  | some false => (w.slot0.map (ticketValue 0)).getD 0
  | some true => (w.slot1.map (ticketValue 1)).getD 0
  | none => 0

/-! ## Traps (R187 to R198) -/

/-- A trap as an instruction raises it: class, sub-cause, the lanes at fault, the class word, lane words and lane
values (R197), the fusion position, and what a late trap adds (R189). `next` takes EPC at the next instruction. -/
structure Trap where
  cls : Nat
  sub : Nat
  mask : Lanes
  cw : Word64 := 0
  lw : List (Nat × Word64) := []
  lv : List (Nat × Word) := []
  fpos : Nat := 0
  late : Bool := false
  origin : Word64 := 0
  clause : Nat := 0
  coord : Nat := 0
  next : Bool := false
  deriving DecidableEq, Repr

/-- The classes system software may delegate (R187). -/
def delegable (c : Nat) : Bool := (1 ≤ c && c ≤ 7) || (9 ≤ c && c ≤ 13)

/-- The cause word of R193. -/
def causeWord (cls sub fpos : Nat) (late nest deleg inh : Bool) : Word :=
  BitVec.ofNat 32 (cls + sub % 256 * 256 + fpos * 65536 + (if late then 2 ^ 19 else 0) + (if nest then 2 ^ 20 else 0) +
    (if deleg then 2 ^ 21 else 0) + (if inh then 2 ^ 31 else 0))

/-- The 512 bytes of a side buffer entry (R196). -/
def sideEntry (t : Trap) (cause : Word) (epc rpc rgn : Word64) (part : Lanes) (seq : Nat) (word : BitVec 96) : List Byte :=
  let lane (l : Nat) : Word64 := if t.mask.getLsbD l then ((t.lw.find? (fun e => e.1 == l)).map (·.2)).getD 0 else 0
  let lval (l : Nat) : Word := if t.mask.getLsbD l then ((t.lv.find? (fun e => e.1 == l)).map (·.2)).getD 0 else 0
  leBytes cause.toNat 4 ++ leBytes t.mask.toNat 4 ++ leBytes epc.toNat 8 ++ leBytes rpc.toNat 8 ++ leBytes rgn.toNat 8 ++
  leBytes part.toNat 4 ++ leBytes seq 4 ++ leBytes t.clause 4 ++ leBytes t.coord 4 ++ leBytes t.origin.toNat 8 ++
  leBytes t.cw.toNat 8 ++ laneIds.flatMap (fun l => leBytes (lane l).toNat 8) ++
  laneIds.flatMap (fun l => leBytes (lval l).toNat 4) ++ bytesOfWord word ++ List.replicate 52 0#8

/-- Write the side buffer entry of a wave slot. -/
def Core.setSide (c : Core) (slot : Nat) (bs : List Byte) : Core := { c with side := memPut c.side (slot * 512) bs }

/-- The frame a trap entry saves (R191). -/
def Wave.mkFrame (w : Wave) (m : Lanes) : Frame := ⟨m, w.rgn, w.parts.map (fun p : Part => (p.uid, p.rpc))⟩

/-- What a supervisor entry does to the wave alone (R191). -/
def Wave.enterSup (w : Wave) (m : Lanes) (epc : Word64) (cause : Word) (cls : Nat) (base : Word64) : Wave :=
  { w with sup := { frame := w.mkFrame m, cls := cls, handler := w.handler } :: w.sup, sepc := epc, scause := cause, handler := m, seq := w.seq + 1 }
  |>.jump m (base + BitVec.ofNat 64 (cls * 0x100))

/-- What a delegated entry does to the wave alone (R191). -/
def Wave.enterUser (w : Wave) (m : Lanes) (epc : Word64) (cause : Word) (vec : Word64) : Wave :=
  { w with frame := some (w.mkFrame m), epc := epc, cause := cause, handler := m, seq := w.seq + 1 }
  |>.jump m vec

/-- The class a wave is in a handler of: 0xF throughout the double-fault handler (R192). -/
def Wave.inDouble (w : Wave) : Bool := w.sup.any (fun e => e.cls == 15)

/-- The user vector of a class as a code offset (R187, R195). -/
def Wave.userVec (w : Wave) (cls : Nat) : Nat := bits w.utrap 12 20 * 4096 + cls * 0x100

/-- The black box's note of a supervisor trap (R546): DFAULT, or TRAP at most once per core and millisecond. -/
def logTrap (r : Run) (core : Nat) (x : Ctx) (cls : Nat) (cause : Word) : Run :=
  if cls = 15 then r.event 2 x.tenant core cause.toNat x.part
  else
    let k := r.core core
    let ms := r.us / 1000
    if k.trapMs = some ms then r.onCore core (fun k => { k with trapMiss := k.trapMiss + 1 })
    else (r.event 0x0B x.tenant core (cause.toNat % 2 ^ 16 + min 0xFFFF k.trapMiss * 2 ^ 16) x.part).onCore core
      (fun k => { k with trapMs := some ms, trapMiss := 0 })

/-- Whether the write of a trap entry to a wave's side buffer entry fails (R192): it may on a core whose cluster has a
faulty unit (log entry 90). -/
def Run.sideFails (r : Run) (wid : Nat) : Bool := r.sick.contains (clusterOf (coreOf wid)) && Config.sideFails r.clk wid

/-- The fields of a double fault's entry: R197 names none for its class. -/
def Trap.forClass (t : Trap) (cls : Nat) : Trap := if cls = 15 then { t with cw := 0, lw := [], lv := [] } else t

/-- %TRAPBASE of a context: what the Inn set, until supervisor code writes it (R195). -/
def Run.trapbase (r : Run) (c : Ctx) : Word64 := c.trapbase.getD r.table

/-- A supervisor entry (R191, R192): the record to the Inn's fault queue, the side buffer outside a user handler,
and the entry of the wave. -/
def supervisorEntry (r : Run) (wid : Nat) (m : Lanes) (epc : Word64) (word : BitVec 96) (t : Trap) (cls sub : Nat) : Run :=
  let w := r.wave wid
  let t := t.forClass cls
  let rpc := ((w.partAt m).map (·.rpc)).getD 0
  let cause := causeWord cls sub t.fpos t.late w.inh false false
  let bs := sideEntry t cause epc rpc w.rgn m (w.seq + 1) word
  let r := logTrap { r with faultq := r.faultq ++ [FaultRec.trap bs] } (coreOf wid) (r.ctxOf w) cls cause
  let r := if w.inh || r.sideFails wid then r else r.onCore (coreOf wid) (fun c => c.setSide (slotOf wid) bs)
  r.onWave wid (fun w => w.enterSup m epc cause cls (r.trapbase (r.ctxOf w)))

/-- A delegated entry (R191): the side buffer entry, whose cause word has INH clear (R206), and the wave's entry. -/
def delegatedEntry (r : Run) (wid : Nat) (m : Lanes) (epc : Word64) (word : BitVec 96) (t : Trap) : Run :=
  let w := r.wave wid
  let rpc := ((w.partAt m).map (·.rpc)).getD 0
  let bs := sideEntry t (causeWord t.cls t.sub t.fpos t.late false true false) epc rpc w.rgn m (w.seq + 1) word
  let r := r.onCore (coreOf wid) (fun c => c.setSide (slotOf wid) bs)
  r.onWave wid (fun w => w.enterUser m epc (causeWord t.cls t.sub t.fpos t.late false true true)
    ((r.launchOf w).info.base + BitVec.ofNat 64 (w.userVec t.cls)))

/-- Whether a trap is delegated (R191, R192, R194). -/
def Run.delegates (r : Run) (w : Wave) (cls : Nat) : Bool :=
  delegable cls && (r.ctxOf w).tdeleg.getLsbD cls && !w.inh && !w.priv

/-- TAKING AN EXCEPTION (R191, R192): the group with members `m` of a wave traps at `pc`. A trap in the
double-fault handler freezes the tenant (R491); a fault in supervisor state other than SYSC, a delegated vector
at or beyond the launch's code size, and a failed write to the side buffer, is a double fault; else the trap is delegated or
goes to the supervisor. -/
def takeTrap (r : Run) (wid : Nat) (m : Lanes) (pc : Word64) (word : BitVec 96) (t : Trap) : Run :=
  let w := r.wave wid
  let epc := if t.next then pc + 12 else pc
  if w.inDouble then { r with inbox := .freeze (r.ctxOf w).part (r.ctxOf w).tenant 3 :: r.inbox }
  else if w.priv && t.cls ≠ 0 then supervisorEntry r wid m epc word t 15 t.cls
  else if r.delegates w t.cls then
    if (r.launchOf w).info.size ≤ w.userVec t.cls || r.sideFails wid then supervisorEntry r wid m epc word t 15 t.cls
    else delegatedEntry r wid m epc word t
  else if !w.inh && r.sideFails wid then supervisorEntry r wid m epc word t 15 t.cls
  else supervisorEntry r wid m epc word t t.cls t.sub

/-- The region PC a part finds in a trap frame; a part the handler made keeps its own. -/
def Frame.rpcOf (f : Frame) (p : Part) : Word64 := ((f.rpcs.find? (fun e => e.1 == p.uid)).map (·.2)).getD p.rpc

/-- Where RTE sends a part of its group (R206): %SEPC or %EPC, or with `.region` the part's saved region PC. -/
def Wave.rteTarget (w : Wave) (region : Bool) (p : Part) : Word64 :=
  match w.sup, w.frame with
  | e :: _, _ => if region then e.frame.rpcOf p else w.sepc
  | [], some f => if region then f.rpcOf p else w.epc
  | [], none => w.epc

/-- THE RETURN FROM AN EXCEPTION (R206) for the group with members `m`: %RGN and every part's region PC come back
from the frame, the group goes to its target, every part may issue again; the return from a SYSC entry makes a
region entry there; a wait that a PREEMPT trap interrupted goes on (log entry 67). -/
def Wave.rte (w : Wave) (m : Lanes) (region : Bool) : Wave :=
  let go (f : Frame) (sysc : Bool) (keep : Option (Park × Word64)) : Wave :=
    { w with
      rgn := if sysc then f.rgn + 1 else f.rgn
      parts := w.parts.map (fun p =>
        let p' : Part := { p with rpc := f.rpcOf p }
        if (p.mask &&& m) = 0 then p' else
        match keep.filter (fun k => k.2 + 12 = w.rteTarget region p) with
        | some k => { p' with pc := k.2, park := k.1 }
        | none => { p' with pc := w.rteTarget region p, park := .run, rpc := if sysc then w.rteTarget region p else p'.rpc }) }
  match w.sup, w.frame with
  | e :: rest, _ => { go e.frame (e.cls == 0) e.keep with sup := rest, handler := e.handler }
  | [], some f => { go f false none with frame := none, handler := 0, cause := w.cause &&& 0x7FFFFFFF#32 }
  | [], none => w

end Sys2Proof.Machine
end

