-- ==== Sys2Proof/Machine/Flit.lean ====
section
/-! DEFINITION. The links of the scale-up fabric: flits (R502) and the ports by which a device is reached (R19, R504), and what a migration
sends by them (R535). -/

namespace Sys2Proof.Machine

/-! ## Flits -/

/-- The sub-cause of a far fault (R243, R508). -/
def FarFault.sub : FarFault → Nat | .timeout => 0x20 | .miglost => 0x21 | .sealed => 0x16 | .perm => 0x13 | .nomap => 0x12

def AtomicReq.bytes (a : AtomicReq) : List Byte :=
  leBytes (if a.sat then 2 else if a.cas then 1 else 0) 1 ++ leBytes a.op.code.toNat 1 ++ leBytes a.ty.code.toNat 1 ++ leBytes a.addr 8 ++ leBytes a.opnd 16 ++ leBytes a.new 16

def RemoteReq.bytes : RemoteReq → List Byte
  | .load a n => leBytes 1 1 ++ leBytes a 8 ++ leBytes n 8
  | .store a bs => leBytes 2 1 ++ leBytes a 8 ++ bs
  | .red a => leBytes 3 1 ++ AtomicReq.bytes a
  | .descriptor g n k z o d t c u => leBytes 4 1 ++ leBytes g 2 ++ leBytes n 2 ++ leBytes k 8 ++ leBytes z 2 ++ leBytes o 1 ++ leBytes d 1 ++
      leBytes t.code.toNat 1 ++ leBytes c 4 ++ leBytes u 2
  | .reform g n ms => leBytes 5 1 ++ leBytes g 2 ++ leBytes n 2 ++ ms.flatMap (fun m => leBytes m 2)
  | .abort g n k z d => leBytes 6 1 ++ leBytes g 2 ++ leBytes n 2 ++ leBytes k 8 ++ leBytes z 2 ++ leBytes d 1
  | .pull c g => leBytes 7 1 ++ leBytes c 4 ++ leBytes g 8
  | .confirm c => leBytes 8 1 ++ leBytes c 4

/-- What a message carries in the payload of its flits: a layout of the model's own (log entry 92). -/
def Out.payload : Out → List Byte
  | .read _ _ w as => leBytes 1 1 ++ leBytes w 4 ++ as.flatMap (fun e => leBytes e.1 1 ++ leBytes e.2 8)
  | .write _ _ w a bs => leBytes 2 1 ++ leBytes w 4 ++ leBytes a 8 ++ bs
  | .atomic _ a => leBytes 3 1 ++ AtomicReq.bytes a
  | .control f n q => leBytes 4 1 ++ leBytes f 8 ++ leBytes n 8 ++ RemoteReq.bytes q
  | .reply p t v => leBytes 5 1 ++ leBytes p 2 ++ leBytes t 2 ++ leBytes v 16
  | .release p t => leBytes 6 1 ++ leBytes p 2 ++ leBytes t 2
  | .data bs => leBytes 7 1 ++ bs
  | .refusal f => leBytes 8 1 ++ leBytes (FarFault.sub f) 1
  | .ack n => leBytes 9 1 ++ leBytes n 4
  | .page g bs => leBytes 11 1 ++ leBytes g 8 ++ bs
  | .request g => leBytes 12 1 ++ leBytes g 8
  | .transfer k vs bs => leBytes 13 1 ++ leBytes k 1 ++ vs.flatMap (fun v => leBytes v 8) ++ bs
  | .arrived d => leBytes 14 1 ++ leBytes d 2
  | _ => []

/-- The header of a flit: class (0 data, 1 control, 2 idle), flow, sequence number, source port, tag. -/
structure FlitHead where
  cls : Nat
  flow : Nat := 0
  seq : Nat := 0
  port : Nat
  tag : Nat := 0
  deriving DecidableEq, Repr

/-- The 256 bytes of a flit (R502): 16 of header, 224 of payload, the link sequence number and the CRC-64. -/
def flitBytes (h : FlitHead) (payload : List Byte) (link : Nat) : List Byte :=
  let body := leBytes h.cls 1 ++ leBytes h.flow 2 ++ leBytes h.seq 8 ++ leBytes h.port 2 ++ leBytes h.tag 2 ++ [0#8] ++
    (payload ++ List.replicate 224 0#8).take 224 ++ leBytes link 8
  body ++ leBytes (Config.crc64 body).toNat 8

/-- Cut a message's bytes into payloads: at least one. -/
def payloads : Nat → List Byte → List (List Byte)
  | 0, _ => []
  | n + 1, bs => if bs.length ≤ 224 then [bs] else bs.take 224 :: payloads n (bs.drop 224)

/-- Put a message on the link of a port (R502): the idle flits it has sent since the last one, then the message's flits, which it
keeps among the last 512 for a replay (R503). -/
def Run.transmit (r : Run) (port : Nat) (h : FlitHead) (o : Out) : Run :=
  let x := r.port port
  let idle := Config.idleFlits port x.link
  let bs := o.payload
  let fs := (payloads (bs.length + 1) bs).mapIdx (fun i b => (x.link + idle + i, flitBytes h b (x.link + idle + i)))
  let next := x.link + idle + fs.length
  let r := r.onPort port (fun x => { x with link := next, sent := (x.sent ++ fs).filter (fun f => next ≤ f.1 + 512) })
  { r with out := r.out ++ [o, .idle port x.link idle] ++ fs.map (fun f => .flit port f.1 f.2) }

/-! ## Ports -/

/-- The ports by which a die reaches a device: those of the route set that are its own and up (R19, R504). -/
def Run.portsTo (r : Run) (p die dev : Nat) : List Nat :=
  (((r.part p).routes.get? dev).getD []).filter (fun i => i / 36 == die && (r.port i).up)

/-- One of some ports by a hash. -/
def choosePort (ps : List Nat) (hash : Nat) : Option Nat :=
  match ps with
  | [] => none
  | [i] => some i
  | ps => ps[hash % ps.length]?

/-- The ports of a partition by which a device can be reached (R504). -/
def Run.waysTo (r : Run) (p dev : Nat) : List Nat := (((r.part p).routes.get? dev).getD []).filter (fun i => (r.port i).up)

/-- The port of a data-class request by its line (R504). -/
def Run.dataPort (r : Run) (p die dev line : Nat) : Option Nat := choosePort (r.portsTo p die dev) (Config.lineHash line)

/-! ## Migration -/

/-- What the Inn of a virtual device that migrates sends to the other end, by a port of the route set there (R535); a port takes it as soon
as one is up. -/
def Run.toPeer (r : Run) (cid key : Nat) (o : Out) : Run :=
  match choosePort (r.waysTo (r.ctx cid).part (r.ctx cid).peer) (Config.lineHash key) with
  | some i => r.transmit i { cls := 0, port := i } o
  | none => r.send o

/-- Pull a page that migration left behind, once (R535): without a port nothing is sent, and the pull does not complete. -/
def pullPage (r : Run) (cid g : Nat) : Run :=
  let c := r.ctx cid
  if !c.missing.contains g || c.pulls.any (fun e => e.1 == g) then r else
  let r := r.onCtx cid (fun c => { c with pulls := c.pulls ++ [(g, r.clk)] })
  if r.waysTo c.part c.peer = [] then r else r.toPeer cid g (.request (g * 65536))

end Sys2Proof.Machine
end

