-- ==== Sys2Proof/Machine/Memory.lean ====
section
/-! DEFINITION. The address spaces: partitions of the host physical map, the two-stage walk and the TLB, the
checks of a global access in their order (R247), the scratchpad windows, and the stores that perform. -/

namespace Sys2Proof.Machine

/-- What a step that can wait or trap gives: a run that goes on, a trap, or a wait. -/
inductive Eff (α : Type) where
  | ok (r : Run) (x : α)
  | trap (r : Run) (t : Trap)
  | park (r : Run) (p : Park)
  deriving Repr

def Eff.bind {α β : Type} (e : Eff α) (f : Run → α → Eff β) : Eff β :=
  match e with
  | .ok r x => f r x
  | .trap r t => .trap r t
  | .park r p => .park r p

/-! ## Partitions (R524, R248) -/

/-- FWPMAP's partition field of a die. -/
def Sys.pd (y : Sys) (d : Nat) : Nat := bits y.pmap (2 * d) 2
/-- A partition is named by the lowest die number it holds. -/
def Sys.partOf (y : Sys) (d : Nat) : Nat := ((List.range 4).find? (fun e => y.pd e == y.pd d)).getD d
def Sys.diesOf (y : Sys) (p : Nat) : List Nat := (List.range 4).filter (fun d => y.pd d == y.pd p)
def Sys.valid (y : Sys) : Bool := y.pmap.getLsbD 8
/-- The LPDDR-6 share of a partition, [lo, hi). -/
def Sys.lpShare (y : Sys) (p : Nat) : Nat × Nat :=
  let x := y.lp.getD p 0
  let lo := Config.lpBase + bits x 0 8 * Config.lpUnit
  (lo, lo + bits x 8 8 * Config.lpUnit)
/-- Whether a host physical address is memory of a partition. -/
def Sys.owns (y : Sys) (p pa : Nat) : Bool :=
  if pa < 4 * 2 ^ 38 then pa % 2 ^ 38 < Config.hbmBytes && y.partOf (pa / 2 ^ 38) == p
  else (y.lpShare p).1 ≤ pa && pa < (y.lpShare p).2
/-- Whether `n` bytes from an address on are memory of a partition: no piece of it that is between the ends can be another's, for shares and
windows are far larger than any page. -/
def Sys.ownsAll (y : Sys) (p pa n : Nat) : Bool := y.owns p pa && (n = 0 || y.owns p (pa + n - 1))
/-- Apertures (R506): the entry of a host physical address with PA[51:50] = 11. -/
def isAper (pa : Nat) : Bool := pa / 2 ^ 50 % 4 == 3
def Run.aper (r : Run) (p pa : Nat) : Word64 := SMap.get 0 (r.part p).aper (pa / 2 ^ 40 % 1024)
def aperValid (e : Word64) : Bool := e.getLsbD 15
def aperHost (e : Word64) : Bool := e.getLsbD 12
def aperCtrl (e : Word64) : Bool := e.getLsbD 13
def aperDev (e : Word64) : Nat := bits e 0 12
def aperFlow (e : Word64) : Nat := bits e 16 16
/-- Who a data-class request goes to: a device, or a queue pair of a host (R522). -/
def aperPeer (e : Word64) : Nat := if aperHost e then aperFlow e else aperDev e

/-- The line of another device that an aperture's address leads to, whichever aperture it is: the peer, and the line there (R312). -/
def Run.farLine (r : Run) (p pa : Nat) : Nat :=
  let e := r.aper p pa
  (aperPeer e * 2 + if aperHost e then 1 else 0) * 2 ^ 32 + pa % 2 ^ 40 / 256

/-- The home slice of a line, as device slice number die × 64 + slice (R249, R544). -/
def homeSlice (y : Sys) (r : Run) (p pa : Nat) : Nat :=
  let h := Nat.xor (Nat.xor (Nat.xor (pa / 2 ^ 8 % 256) (pa / 2 ^ 16 % 256)) (Nat.xor (pa / 2 ^ 24 % 256) (pa / 2 ^ 32 % 256)))
    (Nat.xor (pa / 2 ^ 40 % 256) (pa / 2 ^ 48 % 16))
  let all := ((y.diesOf p).flatMap (fun d => (List.range 64).map (d * 64 + ·))).filter (fun s => !r.outSlices.contains s)
  if all.length = 0 then 0 else all.getD (h % all.length) 0

/-! ## The walk (R236 to R239) -/

/-- Why a walk stops: a replayable or fatal descriptor, its stage, level and whether it stood on the way to a
stage-1 table entry; and the guest physical address concerned. -/
structure WalkErr where
  replay : Bool
  sub : Nat
  stage : Nat
  level : Nat
  table : Bool
  gpa : Nat
  deriving DecidableEq, Repr

/-- A page a walk ends at: frame, size, permissions, level. -/
structure Leaf where
  addr : Nat
  size : Nat
  w : Bool
  x : Bool
  u : Bool
  sh : Bool
  level : Nat
  deriving DecidableEq, Repr

def levelLo (l : Nat) : Nat := [42, 29, 21, 16].getD l 16
def levelBits (l : Nat) : Nat := [10, 13, 8, 5].getD l 5
def tableIndex (a l : Nat) : Nat := a / 2 ^ levelLo l % 2 ^ levelBits l

/-- A descriptor read (R237): a fault, the next table, or a leaf. -/
def readDesc (d : Word64) (stage level : Nat) (table : Bool) (gpa : Nat) : Except WalkErr (Nat ⊕ Leaf) :=
  if !d.getLsbD 0 then .error ⟨d.getLsbD 6, 0x12, stage, level, table, gpa⟩
  else
    let leaf := d.getLsbD 1
    let addr := bits d 16 36 * 2 ^ 16
    let size := 2 ^ levelLo level
    if bits d 7 9 ≠ 0 ∨ bits d 52 12 ≠ 0 ∨ (leaf ∧ level = 0) ∨ (!leaf ∧ level = 3) ∨ (leaf ∧ addr % size ≠ 0) then
      .error ⟨false, 0x14, stage, level, table, gpa⟩
    else if leaf then .ok (.inr ⟨addr, size, d.getLsbD 2, d.getLsbD 3, d.getLsbD 4, d.getLsbD 5, level⟩)
    else .ok (.inl addr)

/-- The stage-2 walk of a guest physical address, over the levels left. -/
def walk2 (m : SMap Byte) (gpa : Nat) (table : Bool) : List Nat → Nat → Except WalkErr Leaf
  | [], _ => .error ⟨false, 0x14, 1, 3, table, gpa⟩
  | l :: ls, frame =>
    match readDesc (BitVec.ofNat 64 (memRead m (frame + 8 * tableIndex gpa l) 8)) 1 l table gpa with
    | .error e => .error e
    | .ok (.inr f) => .ok f
    | .ok (.inl t) => walk2 m gpa table ls t

def levels : List Nat := [0, 1, 2, 3]

/-- The stage-1 walk, each of whose table entries stage 2 translates first; `rd` reads a host address, none where the partition has
nothing there (R28, R238). -/
def walk1 (m : SMap Byte) (rd : Nat → Option Word64) (root2 va : Nat) : List Nat → Nat → Except WalkErr Leaf
  | [], _ => .error ⟨false, 0x14, 0, 3, false, 0⟩
  | l :: ls, frame =>
    let ga := frame + 8 * tableIndex va l
    match walk2 m ga true levels root2 with
    | .error e => .error e
    | .ok f =>
      match rd (f.addr + ga % f.size) with
      | none => .error ⟨false, 0x15, 1, f.level, true, ga⟩
      | some d =>
        match readDesc d 0 l false 0 with
        | .error e => .error e
        | .ok (.inr g) => .ok g
        | .ok (.inl t) => walk1 m rd root2 va ls t

/-- What an access asks of translation. -/
structure Want where
  write : Bool := false
  fetch : Bool := false
  priv : Bool := false
  deriving DecidableEq, Repr

/-- The detail code of R244. -/
def detailCode (e : WalkErr) (k : Want) : Nat :=
  e.stage + 2 * e.level + (if k.write then 8 else 0) + (if k.fetch then 16 else 0) +
  (if k.priv then 0 else 32) + (if e.table then 64 else 0)

/-- Whether a final host address lies in the partition's memory or in a valid aperture (R238). -/
def Run.located (y : Sys) (r : Run) (p pa : Nat) : Bool := y.owns p pa || (isAper pa && aperValid (r.aper p pa))

/-- An entry of a stage-1 table by its host address: of the partition's memory, or through an aperture, where it is open. -/
def Run.entryAt (y : Sys) (r : Run) (p pa : Nat) : Option Word64 :=
  if y.owns p pa then some (BitVec.ofNat 64 (memRead r.mem pa 8))
  else if isAper pa && aperValid (r.aper p pa) then some (BitVec.ofNat 64 (ofLe ((List.range 8).map (fun i => Config.peerByte r.clk (pa + i)))))
  else none

/-- Both walks, and the permission and location checks of R238: the two leaves, the guest and host addresses. -/
def walkBoth (y : Sys) (r : Run) (cid va : Nat) (k : Want) : Except WalkErr (Leaf × Leaf × Nat × Nat) :=
  let c := r.ctx cid
  match walk1 r.mem (r.entryAt y c.part) c.hostRoot va levels (bits c.ptbase 16 36 * 2 ^ 16) with
  | .error e => .error e
  | .ok f =>
    let gpa := f.addr + va % f.size
    match walk2 r.mem gpa false levels c.hostRoot with
    | .error e => .error e
    | .ok g =>
      let pa := g.addr + gpa % g.size
      if (k.write && !f.w) || (k.fetch && !f.x) || (!k.priv && !f.u) then .error ⟨false, 0x13, 0, f.level, false, gpa⟩
      else if (k.write && !g.w) || (k.fetch && !g.x) then .error ⟨false, 0x13, 1, g.level, false, gpa⟩
      else if r.located y c.part pa then .ok (f, g, gpa, pa)
      else .error ⟨false, 0x15, 1, g.level, false, gpa⟩

/-- Whether a TLB entry serves an access. -/
def TlbEntry.serves (t : TlbEntry) (tenant va : Nat) (k : Want) : Bool :=
  t.tenant == tenant && t.va ≤ va && va < t.va + t.size && (!k.write || t.w) && (!k.fetch || t.x) && (k.priv || t.u)

/-- The TLB entry of a core that serves an access: one that leads where the partition has memory or an aperture, since a page
may reach beyond (R238). -/
def Run.tlbHit (y : Sys) (r : Run) (core cid va : Nat) (k : Want) : Option TlbEntry :=
  let c := r.ctx cid
  (r.core core).tlb.find? (fun t => t.serves c.tenant va k && r.located y c.part (t.pa + (va - t.va)))

/-- Translate one address on a core (R240): from the TLB, or by a walk that leaves an entry behind (of at most 64 KiB while
dirty logging is on, R530). -/
def translate (y : Sys) (r : Run) (core cid va : Nat) (k : Want) : Except WalkErr Xlat × Run :=
  let c := r.ctx cid
  match r.tlbHit y core cid va k with
  | some t => (.ok ⟨t.pa + (va - t.va), t.w, t.sh, t.ro, t.gpa + (va - t.va), va, t.va, t.size⟩, r)
  | none =>
    match walkBoth y r cid va k with
    | .error e => (.error e, r)
    | .ok (f, g, gpa, pa) =>
      let size := min (min f.size g.size) (if c.logging then 65536 else 2 ^ 52)
      let e : TlbEntry := ⟨c.tenant, va - va % size, size, pa - va % size, f.w && g.w, f.x && g.x, f.u, f.sh, !f.w && !g.w, gpa - va % size, false⟩
      (.ok ⟨pa, f.w && g.w, f.sh, !f.w && !g.w, gpa, va, va - va % size, size⟩, r.onCore core (fun x => { x with tlb := (e :: x.tlb).take 512 }))

/-- The page that a walk of an address ends at, by its base: of the combined translation; 64 KiB where the walk fails. -/
def walkPage (y : Sys) (r : Run) (cid : Nat) (k : Want) (va : Nat) : Nat :=
  match walkBoth y r cid va k with
  | .ok (f, g, _, _) => va - va % min (min f.size g.size) (if (r.ctx cid).logging then 65536 else 2 ^ 52)
  | .error _ => va / 65536 * 65536

/-- The pages that some addresses miss on: one walk for each, whatever its size (R240). -/
def missedPages (y : Sys) (r : Run) (core cid : Nat) (k : Want) (as : List Nat) : List Nat :=
  ((as.filter (fun a => (r.tlbHit y core cid a k).isNone)).map (walkPage y r cid k)).dedup

/-- Walks a unit of a core starts: they hold walkers of its die until WALK_COMPLETE. Whoever finds every walker busy waits
(`walkerFree`); beyond the 64 in flight walks are in line. -/
def Run.startWalks (r : Run) (core n : Nat) : Run :=
  if n = 0 then r else r.onDie (dieOf core) (fun d => { d with walks := d.walks + n })
def Run.walkerFree (r : Run) (core : Nat) : Bool := (r.die (dieOf core)).walks < 64

/-- Mark a guest page as written while dirty logging is on (R530). -/
def markGuest (r : Run) (cid gpa : Nat) : Run :=
  if (r.ctx cid).logging then r.onCtx cid (fun c => c.markPage (gpa / 65536)) else r

/-- DIRTY_MARK (R530): the first write through an unlogged entry marks its page; so does a write by a translation whose entry has gone. -/
def markDirty (r : Run) (core cid va gpa : Nat) : Run :=
  let c := r.ctx cid
  if !c.logging then r else
  match (r.core core).tlb.find? (fun t => t.tenant == c.tenant && t.va ≤ va && va < t.va + t.size && t.w) with
  | none => markGuest r cid gpa
  | some t =>
    if t.logged then r else
    markGuest (r.onCore core (fun x => { x with tlb := x.tlb.map (fun u => if u == t then { u with logged := true } else u) })) cid t.gpa

/-! ## Replay records (R245, R246) -/

def replayRecord (va gpa core slot detail tenant pages : Nat) (epc : Word64) : List Byte :=
  leBytes (va - va % 65536) 8 ++ leBytes gpa 8 ++ leBytes core 2 ++ leBytes slot 1 ++ leBytes detail 1 ++
  leBytes tenant 2 ++ leBytes pages 2 ++ leBytes epc.toNat 8

/-- Insert by an open key. -/
def insertKey {α : Type} (key : Nat → Nat) (x : Nat × α) : List (Nat × α) → List (Nat × α)
  | [] => [x]
  | y :: t => if key x.1 ≤ key y.1 then x :: y :: t else y :: insertKey key x t

/-- One record per distinct faulting page, in an open order (log entry 41); the Inn pulls a page that migration left behind (R535). -/
def sendReplays (r : Run) (core slot cid : Nat) (epc : Word64) (es : List (Nat × WalkErr × Want)) : Run :=
  let ps := es.foldl (fun (acc : List (Nat × WalkErr × Want)) e =>
    if acc.any (fun f => f.1 / 65536 == e.1 / 65536) then acc else acc ++ [e]) []
  let qs := ((List.range ps.length).zip ps).foldl
    (fun ys x => insertKey (fun n => (Config.freeWord (r.fresh + n)).toNat) x ys) []
  qs.foldl (fun r (e : Nat × Nat × WalkErr × Want) =>
    let we : WalkErr := e.2.2.1
    let r := if we.stage = 1 then pullPage r cid (we.gpa / 65536) else r
    { r with faultq := r.faultq ++ [.replay (replayRecord e.2.1 (if we.stage = 1 then we.gpa else 0)
      core slot (detailCode we e.2.2.2) (r.ctx cid).tenant ps.length epc)] }) { r with fresh := r.fresh + ps.length }

def sendReplay (r : Run) (core slot cid : Nat) (epc : Word64) (k : Want) (es : List (Nat × WalkErr)) : Run :=
  sendReplays r core slot cid epc (es.map (fun e => (e.1, e.2, k)))

/-! ## Declared sets, watch ranges, seals -/

/-- The last byte, exclusive, of the row of a tile that holds a byte and reaches furthest (R399). -/
def Tile.reach (t : Tile) (b : Nat) : Option Nat :=
  let base := t.lo.toNat
  let pitch := bits t.hi 0 32
  let rb := bits t.hi 32 16 + 1
  let rows := bits t.hi 48 12
  if b < base then none else
  let i := if pitch = 0 then 0 else min rows ((b - base) / pitch)
  let s := base + i * pitch
  if s ≤ b && b < s + rb then some (s + rb) else none

/-- Whether the bytes [b, hi) lie in the union of tiles: each round jumps to the end of the row that reaches furthest. -/
def tilesCover (ts : List Tile) (hi : Nat) : Nat → Nat → Bool
  | 0, b => hi ≤ b
  | fuel + 1, b =>
    if hi ≤ b then true else
    match (ts.filterMap (fun t => t.reach b)).foldl max 0 with
    | 0 => false
    | e => tilesCover ts hi fuel e

/-- Rows of a declaration, which bound the rounds of `tilesCover`. -/
def tileRows (ts : List Tile) : Nat := ts.foldl (fun n t => n + bits t.hi 48 12 + 2) 1

/-- The tiles of a wave's active ticket, if one is active (R411, R412). -/
def Wave.activeTiles (w : Wave) : Option (List Tile) :=
  match w.window with
  | some false => w.slot0.map (·.tiles)
  | some true => w.slot1.map (·.tiles)
  | none => none

/-- Whether a range lies in the declared set: all tiles for a read, the write tiles for a write (R412). -/
def declared (ts : List Tile) (write : Bool) (lo len : Nat) : Bool :=
  let us := if write then ts.filter (·.wr) else ts
  tilesCover us (lo + len) (tileRows us) lo

/-- The watch range of a block that a byte range overlaps, by number (R331, R332). -/
def watchHit (b : Block) (sp : Option Nat) (lo hi : Nat) : Option Nat :=
  (b.watch.find? (fun w => w.2.blk == sp && w.2.lo < hi && lo < w.2.hi)).map (·.1)

/-- The class word of a TILE trap (R334). -/
def tileCw (handle watch mem pc : Nat) : Word64 := BitVec.ofNat 64 (handle + watch * 2 ^ 8 + mem * 2 ^ 16 + pc * 2 ^ 32)

def sealedHit (c : Ctx) (lo hi : Nat) : Bool := c.seals.any (fun s => s.1 < hi && lo < s.1 + s.2)
def sealedWhole (c : Ctx) (lo hi : Nat) : Bool := c.seals.any (fun s => s.1 ≤ lo && hi ≤ s.1 + s.2)

def lanesOf (xs : List (Nat × Nat)) : Lanes := Lanes.ofTest (fun l => xs.any (fun e => e.1 == l))
def laneWords (xs : List (Nat × Nat)) : List (Nat × Word64) := xs.map (fun e => (e.1, BitVec.ofNat 64 e.2))

/-- A MEM trap over the lanes of a list of (lane, address). -/
def memTrap (sub : Nat) (xs : List (Nat × Nat)) (cw : Nat := 0) : Trap :=
  { cls := 7, sub := sub, mask := lanesOf xs, cw := BitVec.ofNat 64 cw, lw := laneWords xs }

/-! ## A global access (R247) -/

/-- Checks 3 to 6 of R247 over (lane, address) pairs of one access size. -/
def issueChecks (w : Wave) (b : Block) (c : Ctx) (xs : List (Nat × Nat)) (size : Nat) (rd wr : Bool) : Option Trap :=
  let bad (f : Nat → Bool) := xs.filter (fun e => f e.2)
  let mis := bad (fun a => a % size ≠ 0)
  let far := bad (fun a => 2 ^ 52 ≤ a)
  if mis ≠ [] then some (memTrap 0x10 mis)
  else if far ≠ [] then some (memTrap 0x11 far)
  else
    let und := match w.activeTiles with
      | none => []
      | some ts => bad (fun a => (rd && !declared ts false a size) || (wr && !declared ts true a size))
    if und ≠ [] then
      some { cls := 10, sub := 1, mask := lanesOf und, cw := w.activeTicket, lw := laneWords und }
    else
      let al := if wr then bad (fun a => (watchHit b none a (a + size)).isSome) else []
      if al ≠ [] then
        some { cls := 9, sub := 2, mask := lanesOf al,
               cw := tileCw 0xFF ((al.head?.bind (fun e => watchHit b none e.2 (e.2 + size))).getD 0xFF) 0 0 }
      else
        let se := if wr then bad (fun a => sealedHit c a (a + size)) else []
        if se ≠ [] then some (memTrap 0x16 se) else none

/-- A failure at the final host address of an access (R244): at its stage-2 leaf. -/
def finalErr (y : Sys) (r : Run) (cid va : Nat) (k : Want) : WalkErr :=
  match walkBoth y r cid va k with
  | .ok (_, g, gpa, _) => ⟨false, 0x13, 1, g.level, false, gpa⟩
  | .error f => ⟨false, 0x13, 1, f.level, false, 0⟩

/-- Check 7 for a list of (lane, address): every page is translated before any element is performed (R241). A control aperture is
refused with PERM where `ctrl` says that the access is none that it accepts (R507). -/
def translateAll (y : Sys) (r : Run) (core cid : Nat) (k : Want) (ctrl : Bool) :
    List (Nat × Nat) → Run × List (Nat × Xlat) × List (Nat × Nat × WalkErr)
  | [] => (r, [], [])
  | (l, a) :: t =>
    match translate y r core cid a k with
    | (.ok x, r) =>
      let (r, xs, es) := translateAll y r core cid k ctrl t
      if ctrl && isAper x.pa && aperCtrl (r.aper (r.ctx cid).part x.pa) then (r, xs, (l, a, finalErr y r cid a k) :: es)
      else (r, (l, x) :: xs, es)
    | (.error e, r) =>
      let (r, xs, es) := translateAll y r core cid k ctrl t
      (r, xs, (l, a, e) :: es)

/-- Check 7 with its outcomes (R240, R245): a wait for a walker where a page misses and none is free; all translations; the trap
of the lowest fatal code; or a park on the pages of replayable faults, whose records are sent. -/
def preTranslate (y : Sys) (r : Run) (core slot cid : Nat) (k : Want) (ctrl : Bool) (pc : Word64) (xs : List (Nat × Nat)) :
    Eff (List (Nat × Xlat)) :=
  let n := (missedPages y r core cid k (xs.map (·.2))).length
  if n ≠ 0 ∧ r.walkerFree core = false then .park r (.retry .walker) else
  match translateAll y (r.startWalks core n) core cid k ctrl xs with
  | (r, os, es) =>
    let fatal := es.filter (fun e => !e.2.2.replay)
    if fatal ≠ [] then
      let sub := fatal.foldl (fun s e => min s e.2.2.sub) 0xFF
      let fs := fatal.filter (fun e => e.2.2.sub == sub)
      .trap r (memTrap sub (fs.map (fun e => (e.1, e.2.1))) ((fs.head?.map (fun e => detailCode e.2.2 k)).getD 0))
    else if es ≠ [] then
      .park (sendReplay r core slot cid pc k (es.map (·.2))) (.fault (es.map (fun e => e.2.1 / 65536)) k.write (es.map (fun e => (e.1, e.2.1)))
        ((es.head?.map (fun e => detailCode e.2.2 k)).getD 0))
    else .ok r os

/-- The 64 KiB pages of a range. -/
def pagesOf (lo len : Nat) : List Nat :=
  if len = 0 then [] else (List.range ((lo + len - 1) / 65536 - lo / 65536 + 1)).map (fun i => max lo ((lo / 65536 + i) * 65536))

/-- The 8 KiB pieces of a range, by their first bytes: a partition's memory begins and ends at multiples of 8 KiB (R248, R524), so each
lies wholly inside it or wholly outside. -/
def piecesOf (lo len : Nat) : List Nat :=
  if len = 0 then [] else (List.range ((lo + len - 1) / 8192 - lo / 8192 + 1)).map (fun i => max lo ((lo / 8192 + i) * 8192))

/-- Translate every piece of a range; the range's faulting address stands for every lane of the mask. -/
def preTranslateRange (y : Sys) (r : Run) (core slot cid : Nat) (k : Want) (pc : Word64) (m : Lanes) (lo len : Nat) :
    Eff (List (Nat × Xlat)) :=
  match preTranslate y r core slot cid k false pc ((piecesOf lo len).map (fun a => (a, a))) with
  | .trap r t => .trap r { t with mask := m, lw := m.toList.map (fun l => (l, BitVec.ofNat 64 (t.lw.head?.map (·.2.toNat) |>.getD lo))) }
  | .park r (.fault ps w xs d) => .park r (.fault ps w (m.toList.map (fun l => (l, (xs.head?.map (·.2)).getD lo))) d)
  | e => e

/-! ## Scratchpad windows (R214 to R221) -/

/-- Where a scratchpad address leads: a byte of a block's allotment, or of the side buffers of this core. -/
inductive ScrLoc where
  | blk (b addr : Nat)
  | side (slot off : Nat)
  deriving DecidableEq, Repr

def up64 (n : Nat) : Nat := (n + 63) / 64 * 64

/-- The skewed tiles of a launch: first byte, R and C (R217). -/
def skewTiles (ss : List (Nat × Nat × Nat)) : List (Nat × Nat × Nat) :=
  (ss.foldl (fun (acc : Nat × List (Nat × Nat × Nat)) s =>
    let lo := up64 acc.1
    let hi := lo + s.1
    (hi, if s.2.1 * s.2.2 = 0 then acc.2 else acc.2 ++ [(hi - 4 * s.2.1 * s.2.2, s.2.1, s.2.2)])) (0, [])).2

/-- Bytes of the local space the four entries take (R217). -/
def scratchTotal (ss : List (Nat × Nat × Nat)) : Nat := ss.foldl (fun n s => up64 n + s.1) 0
/-- An allotment in granules of 3,968 bytes (R216). -/
def granules (ss : List (Nat × Nat × Nat)) : Nat := (scratchTotal ss + 3967) / 3968

/-- The physical byte of a skewed address (R221), none outside every tile. -/
def unskew (tiles : List (Nat × Nat × Nat)) (a : Nat) : Option Nat :=
  match tiles.find? (fun t => t.1 ≤ a && a < t.1 + 4 * t.2.1 * t.2.2) with
  | none => none
  | some (lo, _, c) =>
    let o := (a - lo) / 4
    let i := o / c
    let j := o % c
    some (lo + 4 * (i * c + (j + i) % c) + (a - lo) % 4)

/-- The block of the issuing block's neighbourhood with an index (R214, R466). -/
def Run.nbhBlock (r : Run) (b : Block) (i : Nat) : Option Nat :=
  (r.blocks.find? (fun e => e.2.launch == b.launch && e.2.nbh == b.nbh && e.2.index == i)).map (·.1)
/-- The block the cluster-remote window names on a core (R214). -/
def Run.clusterBlock (r : Run) (b : Block) (core : Nat) : Option Nat :=
  let here := (r.blocksOn core).filter (fun e => e.2.launch == b.launch)
  match here.find? (fun e => e.2.nbh == b.nbh) with
  | some e => some e.1
  | none => (here.foldl (fun (best : Option (Nat × Block)) e =>
      match best with | some f => if e.2.nbh < f.2.nbh then some e else best | none => some e) none).map (·.1)

/-- Resolve a scratchpad address of a block (R215): the sub-cause of the first failing case, or the place. -/
def scrResolve (r : Run) (bid core slot : Nat) (priv : Bool) (addr size : Nat) (write : Bool) : Except Nat ScrLoc :=
  let b := r.block bid
  let tiles := skewTiles (r.launch b.launch).info.scratch
  let skew := addr / 2 ^ 30 % 2 == 1
  let a := if skew then addr - 2 ^ 30 else addr
  if size ≠ 0 ∧ addr % size ≠ 0 then .error 0x30 else
  let named (nb : Option Nat) (off : Nat) : Except Nat ScrLoc :=
    match nb with
    | none => .error 0x34
    | some n =>
      if (r.block n).size ≤ off then .error 0x31
      else if skew then
        match unskew tiles off with
        | none => .error 0x33
        | some p => .ok (.blk n p)
      else .ok (.blk n off)
  if a ≤ 0x7BFFF then named (some bid) a
  else if 0x1000000 ≤ a ∧ a < 0x1000000 + 24 * 0x80000 then
    let i := (a - 0x1000000) / 0x80000
    let off := (a - 0x1000000) % 0x80000
    let l := (r.launch b.launch).info
    if l.w * l.h ≤ i ∨ 0x7BFFF < off then .error 0x31
    else if i = b.index then named (some bid) off
    else named (r.nbhBlock b i) off
  else if 0x2000000 ≤ a ∧ a < 0x2000000 + 8 * 0x80000 then
    let off := (a - 0x2000000) % 0x80000
    if 0x7BFFF < off then .error 0x31
    else named (r.clusterBlock b ((clusterCores core).getD ((a - 0x2000000) / 0x80000) core)) off
  else if 0x3000000 ≤ a ∧ a < 0x3000000 + 24 * 0x200 then
    let i := (a - 0x3000000) / 0x200
    if write ∨ (!priv ∧ i ≠ slot) then .error 0x32
    else if skew then .error 0x33
    else .ok (.side i ((a - 0x3000000) % 0x200))
  else .error 0x31

/-- R215 over (lane, address) pairs. -/
def scrCheck (r : Run) (bid core slot : Nat) (priv : Bool) (size : Nat) (write : Bool) (xs : List (Nat × Nat)) :
    Except Trap (List (Nat × ScrLoc)) :=
  let rs := xs.map (fun e => (e, scrResolve r bid core slot priv e.2 size write))
  let bad := rs.filterMap (fun e => match e.2 with | .error s => some (e.1, s) | .ok _ => none)
  if bad ≠ [] then
    let sub := bad.foldl (fun s e => min s e.2) 0xFF
    .error (memTrap sub ((bad.filter (fun e => e.2 == sub)).map (·.1)))
  else .ok (rs.filterMap (fun e => match e.2 with | .ok p => some (e.1.1, p) | .error _ => none))

/-- Read `n` bytes at a resolved place; words of a skewed tile are mapped one by one by the caller. -/
def scrRead (r : Run) (core : Nat) (p : ScrLoc) (n : Nat) : Nat :=
  match p with
  | .blk b a => memRead (r.block b).scratch a n
  | .side s o => memRead (r.core core).side (s * 512 + o) n

/-- A store that performs at a bank. A store that changes the PH bit of a barrier word with a tracker releases the
waves parked on it and frees the tracker (BARRIER_PHASE_STORE, R231): their parks end when `wakeBar` sees the phase. -/
def scrWrite (r : Run) (b a v n : Nat) : Run := r.onBlock b (fun x => { x with scratch := memWrite x.scratch a v n })

/-! ## Global stores that perform (R301) -/

/-- A write to a line tells the monitors that watch it there (R293). -/
def noteWrite (r : Run) (pa n : Nat) : Run :=
  let hit (w : Wave) : Bool := match w.mon with
    | some m => m.registered && m.line < pa + n && pa < m.line + 256
    | none => false
  if r.waves.any (fun e => hit e.2) then
    { r with waves := r.waves.mapAll (fun _ w => if hit w then { w with mon := w.mon.map (fun m => { m with written := true }) } else w) }
  else r

def storeBytes (r : Run) (pa : Nat) (bs : List Byte) : Run :=
  noteWrite { r with mem := memPut r.mem pa bs } pa bs.length

/-! ## What a clause may still read (R311, R340, R384) -/

/-- Before an agent of a block with a tile stream writes `n` bytes: what they hold. -/
def Run.noteWriter (r : Run) (bid : Nat) (who : Writer) (by_ : List Nat) (spc : Option Nat) (addr n : Nat) : Run :=
  let b := r.block bid
  if !b.hasStream then r else
  let old (a : Nat) : Byte := match spc with
    | none => memGet r.mem a
    | some b => SMap.get 0 (r.block b).scratch a
  { r with recent := r.recent ++ (List.range n).map (fun i =>
      { blk := bid, spc := spc, addr := addr + i, old := old (addr + i), who := who, app := b.appends, by_ := by_ }) }

/-- The same for a wave, which carries its own write. -/
def Run.noteOld (r : Run) (wid : Nat) (spc : Option Nat) (addr n : Nat) : Run :=
  r.noteWriter (r.wave wid).blk .wave [wid] spc addr n

/-- A wave carries a write from now on. -/
def Recent.join (x : Recent) (wid : Nat) : Recent := { x with by_ := if x.by_.contains wid then x.by_ else x.by_ ++ [wid] }

/-- Whether an agent's scope includes another wave (R304). -/
def Run.scopeHas (r : Run) (s : Scope) (a b : Nat) : Bool :=
  match s with
  | .blk => (r.wave a).blk == (r.wave b).blk
  | .clu => clusterOf (coreOf a) == clusterOf (coreOf b)
  | _ => true

/-- A wave has read bytes: it carries on the writes it has read (R302), and as an acquire what the releases there carried (R304). -/
def Run.readRecent (r : Run) (wid : Nat) (acq : Option Scope) (spc : Option Nat) (addr n : Nat) : Run :=
  if r.recent = [] then r else
  let here (p : Option Nat × Nat) : Bool := p.1 == spc && addr ≤ p.2 && p.2 < addr + n
  { r with recent := r.recent.map (fun x =>
      if here (x.spc, x.addr) then x.join wid
      else if x.rels.any (fun e => here e.1 && acq.any (fun s => r.scopeHas s wid e.2.1 && r.scopeHas e.2.2 e.2.1 wid)) then x.join wid
      else x) }

/-- A wave has written bytes: as a release they stand for what it carries (R302, R304); a plain write ends what releases there stood for. An
atomic goes on with the chain of those before it. -/
def Run.writeRecent (r : Run) (wid : Nat) (rel : Option Scope) (atomic : Bool) (spc : Option Nat) (addr n : Nat) : Run :=
  if r.recent = [] then r else
  let here (p : Option Nat × Nat) : Bool := p.1 == spc && addr ≤ p.2 && p.2 < addr + n
  { r with recent := r.recent.map (fun x =>
      let old := if atomic then x.rels else x.rels.filter (fun e => !here e.1)
      { x with rels := old ++ (if x.by_.contains wid then (rel.map (fun s => ((spc, addr), wid, s))).toList else []) }) }

/-- An arrival of a wave at a numbered barrier of its block, and whether it completes the phase. -/
def Run.arriveRecent (r : Run) (bid : Nat) (wid : Option Nat) (n : Nat) (complete : Bool) : Run :=
  { r with recent := r.recent.map (fun x =>
      if x.blk ≠ bid then x else
      let here := wid.any x.by_.contains && !x.arr.contains (n, true) && !x.arr.contains (n, false)
      let arr := if here then x.arr ++ [(n, false)] else x.arr
      { x with arr := if complete then arr.map (fun e => if e.1 = n then (n, true) else e) else arr }) }

/-- A wave that has waited for a numbered barrier carries on what its complete phases carried (R343). -/
def Run.waitRecent (r : Run) (bid wid n : Nat) : Run :=
  { r with recent := r.recent.map (fun x => if x.blk == bid && x.arr.contains (n, true) then x.join wid else x) }

/-- A wave that has waited for a copy's object carries on what the copies of that object wrote (R306). -/
def Run.copyRecent (r : Run) (bid wid : Nat) (obj : Nat × Nat) : Run :=
  { r with recent := r.recent.map (fun x => if x.blk == bid && x.who == .copy (some obj) then x.join wid else x) }

/-- Leave out what no clause may read any more: the reads of every clause left are ordered after that write, or after a later one of
that byte. -/
def pruneRecent (gone : Recent → Bool) : List Recent → List Recent
  | [] => []
  | x :: t =>
    if gone x || t.any (fun z => gone z && z.blk == x.blk && z.spc == x.spc && z.addr == x.addr) then pruneRecent gone t
    else x :: pruneRecent gone t

/-- From here on the appends of a block read after some writes. -/
def Run.uptoRecent (r : Run) (bid : Nat) (f : Recent → Bool) : Run :=
  let b := r.block bid
  let xs := r.recent.map (fun x => if x.blk == bid && x.upto.isNone && f x then { x with upto := some b.appends } else x)
  { r with recent := pruneRecent (fun x => x.blk == bid && x.upto.any (fun u => !b.clauses.any (fun c => decide (c.2.no ≤ u)))) xs }

/-- TORF: after every arrival of the complete phases of a barrier (R384). -/
def Run.orderRecent (r : Run) (bid n : Nat) : Run := r.uptoRecent bid (fun x => x.arr.contains (n, true))

/-- A batch has written bytes: what is appended from here on reads them, and nothing older (R387). -/
def Run.batchRecent (r : Run) (bid : Nat) (spc : Option Nat) (addr n : Nat) : Run :=
  if r.recent = [] then r else r.uptoRecent bid (fun x => x.spc == spc && addr ≤ x.addr && x.addr < addr + n)

/-- The writes of a byte that the reads of a clause are not ordered after, oldest first: none that a later ordered one has overwritten. -/
def Run.recentAt (r : Run) (bid no : Nat) (spc : Option Nat) (addr : Nat) : List Recent :=
  (r.recent.filter (fun x => x.blk == bid && x.spc == spc && x.addr == addr)).foldl
    (fun acc x => if x.upto.any (fun u => decide (u < no)) then [] else acc ++ [x]) []

/-- The bytes a clause of a block may read at a place beside the one that stands there: what stood there before a write that is not
ordered before its append. -/
def Run.oldBytes (r : Run) (bid no : Nat) (spc : Option Nat) (addr : Nat) : List Byte := (r.recentAt bid no spc addr).map (fun x => x.old)

/-- Whether a wave of the block has written a byte after a clause was appended: what the clause computes is unpredictable (R311). -/
def Run.wildByte (r : Run) (bid no : Nat) (spc : Option Nat) (addr : Nat) : Bool :=
  (r.recentAt bid no spc addr).any (fun x => x.who == .wave && decide (no ≤ x.app))

end Sys2Proof.Machine
end

