-- ==== Sys2Proof/Machine/Link.lean ====
section
/-! DEFINITION. What leaves the device over the scale-up fabric for its programs: data-class requests (R504), the tags of atomics (R287), and
control flows at their source (R314, R507). -/

namespace Sys2Proof.Machine

/-! ## Ports -/

/-- The port of a control flow among those that lead to its device (R504): the one it is pinned to while that is up, else another. -/
def Flow.portIn (x : Flow) (die f : Nat) (ports : List Nat) : Option Nat :=
  match x.pins.find? (fun e => e.1 = die && ports.contains e.2) with
  | some e => some e.2
  | none => choosePort ports (Config.flowHash f)
def Run.flowPort (r : Run) (p die dev f : Nat) : Option Nat := (((r.part p).flows.get? f).getD {}).portIn die f (r.portsTo p die dev)

/-- A flow pinned to a port. -/
def Flow.pin (x : Flow) (die : Nat) (i : Option Nat) : Flow :=
  match i with
  | some i => { x with pins := (die, i) :: x.pins.filter (fun e => e.1 ≠ die) }
  | none => x

/-- Send a data-class request of a die through an aperture. Host memory is reached by the Inn (R522); without a port the request
is not sent, and ends at its timeout (R504). -/
def Run.dataOut (r : Run) (p die : Nat) (e : Word64) (line : Nat) (o : Out) : Run :=
  if aperHost e then r.send o else
  match r.dataPort p die (aperDev e) line with
  | some i => r.transmit i { cls := 0, port := i } o
  | none => r

/-! ## Atomics (R287, R504) -/

/-- The atomics of this device's waves and streams that await another device. -/
def Run.atomicsOut (r : Run) : List FarLane :=
  r.waves.flatMap (fun e => e.2.pend.flatMap (fun (q : Pend) => match q.kind with | .atomic ls => ls | _ => [])) ++
  r.blocks.flatMap (fun e => (e.2.spill.toList ++ e.2.batches).flatMap (fun x => x.demands.filterMap (fun d => d.far)))

/-- The tags of a source port's atomics in flight. -/
def Run.tagsOut (r : Run) (port : Nat) : List Nat :=
  (r.atomicsOut.filter (fun x => x.port == port && x.req.isSome)).map (fun x => x.tag)

/-- A tag that no request of the port in flight carries, from one on. -/
def freeTag (used : List Nat) : Nat → Nat → Nat
  | 0, t => t % 65536
  | n + 1, t => if used.contains (t % 65536) then freeTag used n (t + 1) else t % 65536

/-- Send a lane's atomic to another device, with its source port and tag; without a port it is not sent. -/
def Run.atomicOut (r : Run) (p die : Nat) (e : Word64) (wid l pa va : Nat) (a : AtomicReq) : FarLane × Run :=
  let x : FarLane := { lane := l, pa := pa, va := va, dev := aperDev e, sent := r.clk, priv := (r.wave wid).priv }
  match r.dataPort p die (aperDev e) (pa / 256) with
  | none => (x, r)
  | some i =>
    let t := freeTag (r.tagsOut i) 65536 (r.port i).tag
    ({ x with port := i, tag := t, via := i, req := some a },
     (r.onPort i (fun q => { q with tag := (t + 1) % 65536 })).transmit i { cls := 0, port := i, tag := t } (.atomic (aperDev e) a))

/-- The source acknowledges replies: a release flit for each request (R287). -/
def releaseOut (r : Run) (ls : List FarLane) : Run :=
  ls.foldl (fun r x => if x.req.isSome then r.transmit x.via { cls := 0, port := x.port, tag := x.tag } (.release x.port x.tag) else r) r

/-! ## Control flows (R507, R314) -/

/-- A message on a control flow by one of some ports, those of `die`: numbered, pinned, and kept until it is acknowledged. -/
def sendFlow (r : Run) (p die f : Nat) (ordered : Bool) (ports : List Nat) (q : RemoteReq) : Run :=
  let x := ((r.part p).flows.get? f).getD {}
  let i := x.portIn die f ports
  let r := r.onPart p (fun z => { z with flows := z.flows.put f { x.pin die i with
    ordered := ordered, next := x.next + 1, unacked := x.unacked ++ [(x.next, i.getD (die * 36), q)] } })
  match i with
  | some i => r.transmit i { cls := 1, flow := f, seq := x.next, port := i } (.control f x.next q)
  | none => r

/-- A message from a die to the device of an aperture, on the aperture's flow. -/
def sendControl (r : Run) (p die : Nat) (e : Word64) (q : RemoteReq) : Run :=
  sendFlow r p die (aperFlow e) (e.getLsbD 14) (r.portsTo p die (aperDev e)) q

/-- The flow of the collective control of a group from one member to another (R314), beside those of the apertures: each is ordered. -/
def collFlow (group src dst : Nat) : Nat := 65536 + (group * 4096 + src) * 4096 + dst

/-! ## Requests of waves -/

/-- A write that leaves the device and is counted until it is acknowledged (R313, R507). -/
def countOne (r : Run) (wid : Nat) (x : FarWrite) : Run :=
  r.onWave wid (fun w => { w with acks := w.acks + 1, remote := w.remote ++ [{ x with sent := r.clk, priv := w.priv }] })

/-- A message of a lane through a CTRL aperture (R507). -/
def controlOne (r : Run) (p wid pa va : Nat) (q : RemoteReq) : Run :=
  let e := r.aper p pa
  let n := (((r.part p).flows.get? (aperFlow e)).getD {}).next
  sendControl (countOne r wid { pa := pa, va := va, msg := some (aperFlow e, n) }) p (dieOf (coreOf wid)) e q

/-- A write to an address that may lie on another device (R312, R313). -/
def writeOne (r : Run) (p wid pa va : Nat) (bs : List Byte) : Run :=
  if !isAper pa then storeBytes r pa bs else
  let e := r.aper p pa
  if aperCtrl e then controlOne r p wid pa va (.store (pa % 2 ^ 40) bs)
  else (countOne r wid { pa := pa, va := va }).dataOut p (dieOf (coreOf wid)) e (pa / 256) (.write (aperPeer e) (aperHost e) wid (pa % 2 ^ 40) bs)

end Sys2Proof.Machine
end

