-- ==== Sys2Proof/Machine/Operands.lean ====
section
/-! DEFINITION. Operands: special registers, reading and writing every operand kind, the operand and full/empty
checks of an issue (R39, R49, R128 to R130), and the issue of one instruction around its effect. -/

namespace Sys2Proof.Machine

/-- What an issue works on: the wave, the members of the issuing group and the active ones, and its PC. -/
structure Iss where
  wid : Nat
  m : Lanes
  act : Lanes
  pc : Word64
  deriving DecidableEq, Repr

/-! ## Special registers (R54, R55) -/

/-- %TXOPEN (R404): a ticket that has timed out is open no more. -/
def Wave.txOpen (w : Wave) : Word64 :=
  BitVec.ofNat 64 ((if w.slot0.any (fun t => !t.dead) then 1 else 0) + (if w.slot1.any (fun t => !t.dead) then 2 else 0) +
    (if w.window.isSome then 4 else 0) + 8 * w.decl.length)

/-- Accesses that have not performed: remote reads and writes in flight (R301, R302). -/
def Wave.unperformed (w : Wave) : Bool :=
  w.remote ≠ [] || w.pend.any (fun (p : Pend) => match p.kind with | .load _ | .atomic _ | .object _ _ => true | _ => false)

/-- Who holds a core's commit token: a holder that passes it has it no more, even while its accesses still perform. -/
def Run.tokenHolder (r : Run) (core : Nat) : Option Nat := if (r.core core).ctokPass.isSome then none else (r.core core).ctok

/-- %CTOK (R420). -/
def Run.ctok (r : Run) (wid : Nat) (w : Wave) : Word64 :=
  let t := r.tokenHolder (coreOf wid)
  let holder := match t with
    | some h => if (r.wave h).blk = w.blk then (r.wave h).index else 0xFF
    | none => 0xFF
  BitVec.ofNat 64 ((if t = some wid then 1 else 0) + (if r.det w then 2 else 0) + 256 * (holder % 256))

/-- %PAIRMIS as a core reads it (R434). -/
def Run.pairMis (r : Run) (core : Nat) : Int :=
  let p := r.pair (pairOf core)
  if core % 2 = 0 then p.mis else -p.mis

/-- The value of a special register for one lane of a group. %RGNPC, which R54 does not mark per lane, is that of the
lane's own part, since the slice parts of a gang may hold several (log entry 89). In the tile stream the registers of a wave read
an open value (log entry 3). -/
def Run.special (r : Run) (wid : Nat) (l : Nat) (n : Nat) : Word64 :=
  let w := r.wave wid
  let core := coreOf wid
  let b := r.block w.blk
  let c := r.ctx b.ctx
  let k := r.core core
  let p := r.pair (pairOf core)
  let shared : Option Word64 := match n with
    | 0x001 => some 32
    | 0x005 => some (BitVec.ofNat 64 b.index)
    | 0x006 => some (BitVec.ofNat 64 b.nbh)
    | 0x008 => some (BitVec.ofNat 64 (core % 320))
    | 0x009 => some (BitVec.ofNat 64 (dieOf core))
    | 0x00A => some (BitVec.ofNat 64 (r.clk + k.cyc))
    | 0x017 => some (BitVec.ofNat 64 b.lastClosed)
    | 0x030 => some (BitVec.ofInt 64 (r.pairMis core))
    | 0x031 => some k.balctl
    | 0x032 => some (BitVec.ofNat 64 p.th)
    | 0x033 => some (BitVec.ofNat 64 p.tx)
    | 0x040 => some (BitVec.ofNat 64 c.quota)
    | 0x041 => some (BitVec.ofNat 64 k.deque.length)
    | _ => if 0x020 ≤ n ∧ n ≤ 0x027 then some (BitVec.ofNat 64 (b.chwp.getD (n - 0x020) 0)) else none
  match shared with
  | some x => x
  | none =>
    if w.stream then
      Config.streamReg (if r.det w then ((w.parts.head?).map (fun p : Part => (p.pc - (r.launchOf w).info.base).toNat)).getD 0 else r.clk) n
    else match n with
    | 0x000 => BitVec.ofNat 64 l
    | 0x002 => BitVec.ofNat 64 (l / 4)
    | 0x003 => BitVec.ofNat 64 (slotOf wid)
    | 0x004 => BitVec.ofNat 64 w.index
    | 0x007 => BitVec.ofNat 64 w.stage
    | 0x00B => BitVec.ofNat 64 w.valloc
    | 0x00C => BitVec.ofNat 64 w.sched
    | 0x010 => w.fpcr.setWidth 64
    | 0x011 => w.fpsr.setWidth 64
    | 0x012 => w.epc
    | 0x013 => w.cause.setWidth 64
    | 0x014 => w.rgn
    | 0x015 => ((w.partAt (laneBit l)).map (·.rpc)).getD 0
    | 0x016 => w.utrap
    | 0x018 => r.ctok wid w
    | 0x019 => w.txOpen
    | 0x100 => r.trapbase c
    | 0x101 => c.tdeleg
    | 0x102 => w.sepc
    | 0x103 => w.scause.setWidth 64
    | 0x104 => BitVec.ofNat 64 c.tenant
    | 0x105 => c.ptbase
    | 0x108 => c.preempt
    | _ => 0

/-! ## Reading -/

/-- The vector register an operand names in a lane: the index formed (R39). -/
def Wave.vIdx (w : Wave) (o : Opd) (l : Nat) : Int :=
  match o with
  | .v n => n.toNat
  | .rel n k => (rowAt (w.aSee n.toNat) l).toInt + k.toInt
  | _ => 0

/-- A number that tells operands apart. -/
def Opd.key : Opd → Nat
  | .none => 0
  | .v n => n.toNat
  | .s n => 256 + n.toNat
  | .p n => 384 + n.toNat
  | .a n => 400 + n.toNat
  | .m n => 416 + n.toNat
  | .t n => 424 + n.toNat
  | .c n => 488 + n.toNat
  | .sp n => 512 + n.toNat
  | .rel n k => 1024 + n.toNat * 32 + k.toNat
  | .imm8 n => 2048 + n.toNat
  | .imm24 n => 4096 + n.toNat

/-- What a source that cannot be told reads as in a lane (R110): unpredictable; in DET mode the launch fixes it (R421). -/
def Run.openWord (r : Run) (wid : Nat) (o : Opd) (i l : Nat) : Word :=
  if r.det (r.wave wid) then (r.drawFor wid [Opd.key o, i, l]).1.setWidth 32 else (Config.freeWord (r.fresh + l)).setWidth 32

/-- Register `i` of the group an operand names, in one lane: 32 bits (R39, R40, R133). -/
def Run.rdLane (r : Run) (wid : Nat) (o : Opd) (i l : Nat) : Word :=
  let w := r.wave wid
  match o with
  | .v n => rowAt (w.vSee (n.toNat + i)) l
  | .rel _ _ =>
    let x := w.vIdx o l + i
    if 0 ≤ x ∧ x < w.valloc then rowAt (w.vSee x.toNat) l else r.openWord wid o i l
  | .s n => (w.sSee (n.toNat + i)).setWidth 32
  | .p n => if (w.pSee n.toNat).getLsbD l then 1 else 0
  | .a n => rowAt (w.aSee (n.toNat + i)) l
  | .sp n => (r.special wid l n.toNat).setWidth 32
  | .imm8 n => n.signExtend 32
  | .imm24 n => n.signExtend 32
  | _ => 0

/-- A scalar source as 64 bits (R40, R133); `l` is the issuing group's lowest lane. -/
def Run.rdScalar (r : Run) (wid : Nat) (o : Opd) (i l : Nat) : Word64 :=
  match o with
  | .s n => (r.wave wid).sSee (n.toNat + i)
  | .sp n => r.special wid l n.toNat
  | .imm8 n => n.signExtend 64
  | .imm24 n => n.signExtend 64
  | o => (r.rdLane wid o i l).setWidth 64

/-- A count operand: the low 32 bits, unsigned (R122). -/
def Run.rdCount (r : Run) (c : Iss) (o : Opd) : Nat := ((r.rdScalar c.wid o 0 c.act.lowest).setWidth 32).toNat

/-- The lanes in which a guard holds among some members (R7, R35). -/
def guard (w : Wave) (h : Hd) (m : Lanes) : Lanes :=
  let p := w.pSee h.pred.toNat
  m &&& (if h.neg then ~~~p else p)

/-! ## Writing -/

/-- Write register `i` of a group per active lane: v, relative or address registers. -/
def Wave.put (w : Wave) (o : Opd) (i : Nat) (m : Lanes) (f : Nat → Word) : Wave :=
  match o with
  | .v n => w.setV (n.toNat + i) m f
  | .rel _ _ =>
    let x := laneIds.map (fun l => (w.vIdx o l + i).toNat)
    m.toList.foldl (fun w l => w.setV (x.getD l 0) (laneBit l) f) w
  | .a n => w.setA (n.toNat + i) m f
  | _ => w

/-- The registers of a group an operand names in some lanes, for full and empty (R129). -/
def Wave.refs (w : Wave) (o : Opd) (len : Nat) (m : Lanes) : List RegRef :=
  match o with
  | .v n => (List.range len).map (fun i => ⟨true, n.toNat + i, m⟩)
  | .rel _ _ => m.toList.flatMap (fun l => (List.range len).map (fun (i : Nat) => ⟨true, (w.vIdx o l + i).toNat, laneBit l⟩))
  | .s n => (List.range len).map (fun i => ⟨false, n.toNat + i, 0xFFFFFFFF#32⟩)
  | _ => []

/-! ## Checks at issue -/

/-- How an instruction uses an operand: its position (0 D, 1 A, 2 B, 3 C), registers of the group, whether it
reads or writes them, the FE bit, and the lanes looked at where these are not the active ones. -/
structure Use where
  pos : Nat
  opd : Opd
  len : Nat := 1
  write : Bool := false
  fe : Bool := false
  lanes : Option Lanes := none
  deriving DecidableEq, Repr

inductive Check where
  | ok
  | trap (t : Trap)
  | wait (rs : List RegRef)
  deriving DecidableEq, Repr

/-- The first register of an operand's group outside the window in a lane, as the index formed. -/
def Use.bad (w : Wave) (u : Use) (l : Nat) : Option Int :=
  match u.opd with
  | .v _ | .rel _ _ =>
    ((List.range u.len).map (fun (i : Nat) => w.vIdx u.opd l + (i : Int))).find? (fun x => x < 0 || w.valloc ≤ x)
  | _ => none

def Opd.isRel : Opd → Bool | .rel _ _ => true | _ => false

/-- R128: each lane at fault reports its first failing operand in the order D, A, B, C. -/
def opndCheck (w : Wave) (act : Lanes) (us : List Use) : Option Trap :=
  let lanes := laneIds.filterMap (fun l =>
    (us.findSome? (fun u =>
      if ((u.lanes.getD act) &&& act).getLsbD l then (u.bad w l).map (fun x => (u, x)) else none)).map (fun e => (l, e)))
  match lanes with
  | [] => none
  | (_, u, _) :: _ =>
    some { cls := 4, sub := if Opd.isRel u.opd then 2 else 1, mask := lanesOf (lanes.map (fun e => (e.1, 0)))
           lw := lanes.map (fun e => (e.1, BitVec.ofInt 64 e.2.2))
           lv := lanes.map (fun e => (e.1, BitVec.ofNat 32 e.2.1.pos)) }

/-- The registers of a use that are in a state, as references. -/
def Use.having (w : Wave) (act : Lanes) (f : RegRef → Bool) (u : Use) : List RegRef :=
  ((w.refs u.opd u.len (u.lanes.getD act)).filter f)

/-- The FE trap of a source (R49, R129, R197). -/
def feTrap (w : Wave) (act : Lanes) (u : Use) (sub : Nat) (ind : Bool) : Trap :=
  let rs := u.having w act (fun x => if ind then w.isInd x else w.isEmpty x)
  let lanes := laneIds.filterMap (fun l =>
    if ((u.lanes.getD act) &&& (0xFFFFFFFF#32)).getLsbD l then
      (rs.find? (fun x => (x.mask.getLsbD l) && (let y : RegRef := { x with mask := laneBit l }
        if ind then w.isInd y else w.isEmpty y))).map (fun x => (l, x.n)) else none)
  { cls := 5, sub := sub, mask := lanesOf lanes, cw := BitVec.ofNat 64 u.pos, lw := laneWords lanes }

/-- The full/empty checks (R49, R129, R130): a trap-on-empty source found empty traps at once, then an indeterminate
source traps; else an empty source or destination makes the part wait. -/
def feCheck (w : Wave) (act : Lanes) (us : List Use) : Check :=
  let srcs := us.filter (fun u => !u.write)
  match srcs.find? (fun u => u.fe && u.having w act w.isEmpty ≠ []) with
  | some u => .trap (feTrap w act u 1 false)
  | none =>
    match srcs.find? (fun u => u.having w act w.isInd ≠ []) with
    | some u => .trap (feTrap w act u 2 true)
    | none =>
      match us.flatMap (fun u => u.having w act w.isEmpty) with
      | [] => .ok
      | rs => .wait rs

/-- The checks of one issue. -/
def checkUses (w : Wave) (act : Lanes) (us : List Use) : Check :=
  match opndCheck w act us with
  | some t => .trap t
  | none => feCheck w act us

/-- Uses of the common shape: D written, A, B and C read. -/
def usesOf (h : Hd) (o : Ops) : List Use :=
  [⟨0, o.d, 1, true, false, none⟩, ⟨1, o.a, 1, false, h.fea, none⟩, ⟨2, o.b, 1, false, h.feb, none⟩,
   ⟨3, o.c, 1, false, h.fec, none⟩]

/-! ## Issue -/

/-- How an instruction issues: operand uses; whether it needs a fully reconverged wave, with the SYNC sub-cause
(R101, R110); whether it is privileged (R58, R60 check 4); whether it is a closer (R200) or a switch point (R94); its issue class (R433); whether its effect
sets the PCs itself. -/
structure How where
  uses : List Use := []
  whole : Option Nat := none
  priv : Bool := false
  closer : Bool := false
  switch : Bool := false
  vec : Bool := false
  mem : Bool := false
  branch : Bool := false
  yld : Bool := false
  deriving DecidableEq, Repr

/-- Code base and code size of the launch of a wave (R106). -/
def Run.codeBase (r : Run) (w : Wave) : Word64 := (r.launchOf w).info.base
def Run.codeSize (r : Run) (w : Wave) : Nat := (r.launchOf w).info.size

/-- Whether a user-state PC lies in its launch's code. -/
def Run.inCode (r : Run) (w : Wave) (pc : Nat) : Bool :=
  (r.codeBase w).toNat ≤ pc && pc < (r.codeBase w).toNat + r.codeSize w

/-- The instruction word at an address as the fetch of a wave sees it; 0 where it cannot be fetched without a fault (R196). -/
def Run.peek (y : Sys) (r : Run) (wid : Nat) (pc : Word64) : BitVec 96 :=
  let w := r.wave wid
  let cid := (r.block w.blk).ctx
  let byte (i : Nat) : Option Byte :=
    match walkBoth y r cid (pc.toNat + i) { fetch := true, priv := w.priv } with
    | .ok (_, _, _, pa) => some (if isAper pa then Config.peerByte r.clk pa else memGet r.mem pa)
    | .error _ => none
  if !w.priv && !r.inCode w pc.toNat || 2 ^ 52 < pc.toNat + 12 then 0 else
  match (List.range 12).mapM byte with
  | some bs => wordOfBytes bs
  | none => 0

/-- A trap of the tile stream (R338): it waits for its delivery, EPC being the instruction. -/
def streamTrap (r : Run) (wid : Nat) (pc : Word64) (t : Trap) : Run :=
  let bid := (r.wave wid).blk
  let base := (r.launch (r.block bid).launch).info.base
  let cw : Word64 := if t.cls = 9 then t.cw ||| (((pc - base).setWidth 32).setWidth 64 <<< 32) else t.cw
  r.onBlock bid (fun b => { b with strap := some ⟨t.cls, t.sub, pc, cw, t.origin, t.clause, t.coord, t.late, none⟩ })

/-- The word a trapping group reports: the one it has fetched, where it has, else what stands at its PC (R196). -/
def Run.wordOf (y : Sys) (r : Run) (c : Iss) : BitVec 96 :=
  match r.cur.word with
  | some x => if r.cur.wave = c.wid && r.cur.lanes = c.m then x else r.peek y c.wid c.pc
  | none => r.peek y c.wid c.pc

/-- A trap of the issuing group, in a wave or in a stream. -/
def trapAt (y : Sys) (r : Run) (c : Iss) (t : Trap) : Run :=
  if (r.wave c.wid).stream then streamTrap r c.wid c.pc t
  else takeTrap r c.wid c.m c.pc (r.wordOf y c) t

/-- A trap as a parked part keeps it. -/
def Trap.kept (t : Trap) : LateTrap := ⟨t.cls, t.sub, t.mask, t.origin, t.cw, t.lw, t.clause, t.coord, t.late⟩
def LateTrap.trap (t : LateTrap) : Trap :=
  { cls := t.cls, sub := t.sub, mask := t.mask, cw := t.cw, lw := t.lanes, late := t.late, origin := t.origin
    clause := t.clause, coord := t.coord }

/-- A trap of a parked group: at once, or kept until the handler that another part runs is left (R102, R191). -/
def trapParked (y : Sys) (r : Run) (c : Iss) (t : Trap) : Run :=
  let w := r.wave c.wid
  if w.handler ≠ 0 && (c.m &&& w.handler) = 0 then r.onWave c.wid (fun w => w.park c.m (.trapped t.kept))
  else trapAt y (r.onWave c.wid (fun w => w.park c.m .run)) c t

/-- Waits that belong to the instruction's own effect: it executes when it first waits (R94). -/
def Wait.blocking : Wait → Bool
  | .barw _ _ | .nbarw _ _ | .object _ _ _ | .ticket _ _ | .token _ | .sealing _ _ | .done _ _ | .collective _ | .batches _ _ => true
  | _ => false

/-- Whether every part of a group had begun to wait for its effect before this issue. -/
def Wave.resumes (w : Wave) (m : Lanes) : Bool :=
  (w.parts.filter (fun p => (p.mask &&& m) ≠ 0)).all (fun p => match p.park with | .retry k => k.blocking | _ => false)

/-! ## The ends of blocking waits -/

/-- Whether a request on a line is granted (R409): a read when every earlier request there is a read, a write when there
is none. -/
def lineGranted (ts : List Ticket) (t : Ticket) (l : Nat × Bool) : Bool :=
  t.sent && ts.all (fun u => !(u.sent && (u.merged.getD 0) < (t.merged.getD 0)) ||
    u.lines.all (fun m => m.1 ≠ l.1 || (!m.2 && !l.2)))

/-- The lines of a ticket granted so far. -/
def grantedLines (ts : List Ticket) (t : Ticket) : Nat := (t.lines.filter (lineGranted ts t)).length

/-- A ticket holds its grants; a null ticket does once it is merged (R403). -/
def Ticket.granted (ts : List Ticket) (t : Ticket) : Bool :=
  if t.lines = [] then t.merged.isSome else t.sent && t.lines.all (lineGranted ts t)

/-- The partition whose sequencers hold a wave's tickets. -/
def Run.partOf (r : Run) (wid : Nat) : Nat := (r.ctx (r.block (r.wave wid).blk).ctx).part

/-- Whether a record is the ticket of a slot. -/
def TickRef.is (t : TickRef) (k : Ticket) : Bool := k.die == t.die && k.entry == t.entry && k.gen == t.gen

/-- The sequencer's record of a ticket. -/
def Run.ticketOf (r : Run) (wid : Nat) (t : TickRef) : Option Ticket := (r.part (r.partOf wid)).tickets.find? t.is

def Wave.slot (w : Wave) (one : Bool) : Option TickRef := if one then w.slot1 else w.slot0

/-- Whether a store of some wave of a context into a range has passed its seal check and not performed yet: its request is
under way, or it waits for the commit token (R257). -/
def Run.storesInto (r : Run) (cid base len : Nat) : Bool :=
  r.waves.any (fun e => (r.block e.2.blk).ctx = cid &&
    (e.2.remote.any (fun a => base ≤ a.va && a.va < base + len) ||
     e.2.parts.any (fun p => match p.park with
       | .retry (.token ts) => ts.any (fun x => base ≤ x.2.va && x.2.va < base + len)
       | _ => false)))

/-- Whether what a blocking wait of a wave waits for has come about. -/
def Run.effectDone (r : Run) (wid : Nat) (k : Wait) : Bool :=
  let w := r.wave wid
  match k with
  | .barw loc ph => !isName loc.blk && ((memRead (r.block loc.blk).scratch loc.addr 4 / 2 ^ 31 = 1) ≠ (ph = true) || (r.blocks.get? loc.blk).isNone)
  | .nbarw n ph => ((r.block w.blk).nb.getD n {}).ph ≠ ph
  | .object lo hi val =>
    let m := (r.block w.blk).scratch
    let v := memRead m lo 4 + 2 ^ 32 * memRead m hi 4
    v / 2 ^ 63 = 1 || val ≤ v
  | .ticket slot _ => (match w.slot (slot = 1) with
    | some t => t.dead || (r.ticketOf wid t).any (fun k => k.granted (r.part (r.partOf wid)).tickets)
    | none => true)
  | .token _ => r.tokenHolder (coreOf wid) = some wid || (r.core (coreOf wid)).ctok = none
  | .sealing base len => !r.storesInto (r.block w.blk).ctx base len
  | .done pa n => n ≤ memRead r.mem pa 4 || memRead r.mem (pa + 4) 4 % 2 = 1
  | .collective slot => (((r.part (r.partOf wid)).colls.get? slot).bind (·.status)).isSome ||
      ((r.part (r.partOf wid)).colls.get? slot).isNone
  | .batches n report =>
    let bs := (r.block w.blk).batches.filter (fun x => x.no ≤ n)
    bs = [] || report && bs.any (fun x => match x.st with | .failed _ => true | _ => false)
  | _ => false

/-- Whether a wave could be picked at a switch point: live, and some part of it waits for nothing but registers,
walkers or earlier accesses, or its wait is over (log entry 4). -/
def Run.detReady (r : Run) (wid : Nat) (w : Wave) : Bool :=
  w.life == .live && w.parts.any (fun p => (w.handler = 0 || (p.mask &&& w.handler) ≠ 0) &&
    match p.park with
    | .run => true
    | .retry k => !k.blocking || r.effectDone wid k
    | _ => false)

/-- The next current wave of a DET block (R94): the ready wave of the next larger index, wrapping, if any. -/
def Run.nextCurrent (r : Run) (wid : Nat) : Nat :=
  let w := r.wave wid
  let ok := (r.wavesOf w.blk).filter (fun e => e.1 ≠ wid && r.detReady e.1 e.2)
  let least (es : List (Nat × Wave)) : Option Nat :=
    (es.foldl (fun (b : Option (Nat × Wave)) e => match b with
      | some x => if e.2.index < x.2.index then some e else b
      | none => some e) none).map (·.1)
  match least (ok.filter (fun e => w.index < e.2.index)) with
  | some n => n
  | none => (least ok).getD wid

/-- The commit token's key {%NBH, %BLOCK, %WAVE} (R418). -/
def Run.tokKey (r : Run) (wid : Nat) : Nat :=
  let w := r.wave wid
  let b := r.block w.blk
  (b.nbh * 64 + b.index) * 65536 + w.index

/-- The token goes to the waiting wave of the next key above the passer's, wrapping (R418); the waiting wave goes on at its next
issue. -/
def Run.handToken (r : Run) (core key : Nat) : Run :=
  let k := r.core core
  let least (es : List Nat) : Option Nat :=
    es.foldl (fun b e => match b with | some x => if r.tokKey e < r.tokKey x then some e else b | none => some e) none
  let nxt := match least (k.ctokWait.filter (fun e => key < r.tokKey e)) with
    | some n => some n
    | none => least k.ctokWait
  r.onCore core (fun k => { k with ctok := nxt, ctokPass := none, ctokWait := k.ctokWait.filter (fun e => some e ≠ nxt) })

/-- The holder passes the token (R418): a release, which waits for the accesses before it to perform. -/
def Run.passToken (r : Run) (wid : Nat) : Run :=
  let core := coreOf wid
  if r.tokenHolder core ≠ some wid then r
  else if (r.wave wid).unperformed then r.onCore core (fun k => { k with ctokPass := some (r.tokKey wid) })
  else r.handToken core (r.tokKey wid)

/-- Tokens whose passers' accesses have performed go on. -/
def Run.settleTokens (r : Run) : Run :=
  (r.cores.filter (fun e => e.2.ctokPass.isSome)).foldl (fun r e => match (r.core e.1).ctokPass, (r.core e.1).ctok with
    | some key, some w => if (r.wave w).unperformed then r else r.handToken e.1 key
    | _, _ => r) r

/-- A switch point (R94), which passes the commit token unless it is CTACQ's or a gated access's wait (R418). -/
def Run.switchPoint (r : Run) (wid : Nat) (pass : Bool) : Run :=
  let w := r.wave wid
  if !r.det w || w.stream then r else
  let r := if pass then r.passToken wid else r
  r.onBlock w.blk (fun b => { b with cur := r.nextCurrent wid })

/-- The window counts of an issue (R433): a cycle counts once for a class, and no instruction whose guard is 0b11111 counts. -/
def Core.count (x : Core) (clk : Nat) (h : Hd) (k : How) : Core :=
  let v := k.vec && !(h.neg && h.pred = 15) && x.vAt ≠ some clk
  let m := k.mem && !(h.neg && h.pred = 15) && x.mAt ≠ some clk
  { x with nv := if v then x.nv + 1 else x.nv, vAt := if v then some clk else x.vAt
           nm := if m then x.nm + 1 else x.nm, mAt := if m then some clk else x.mAt }

/-- What every issue does to its wave and its core: STALL and YLD (R46 to R48), which have no effect in the stream
(R59) and never shorten a wait the instruction itself has set, and the window counts. -/
def Run.charge (r : Run) (c : Iss) (h : Hd) (k : How) : Run :=
  let r := r.onWave c.wid (fun w =>
    if w.life = .live && !w.stream then { w with stall := if h.stall = 0 then w.stall else max w.stall (r.clk + 1 + h.stall.toNat), yielded := h.yld || k.yld } else w)
  r.onCore (coreOf c.wid) (fun x => x.count r.clk h k)

/-- The end of an issue that completes. -/
def Run.retire (r : Run) (c : Iss) (h : Hd) (k : How) : Run :=
  let r := if k.branch then r else r.onWave c.wid (fun w => w.advance c.m)
  let r := if k.closer then r.onWave c.wid (fun w => w.regionEntry c.m) else r
  r.charge c h k

/-- The issue of one instruction by a group, around its effect (R37, R188). A group without active lanes moves on
and nothing else happens. -/
def issueOn (y : Sys) (r : Run) (c : Iss) (h : Hd) (k : How) (eff : Sys → Run → Iss → Eff Unit) : Run :=
  let w := r.wave c.wid
  if k.priv && !w.priv then trapAt y r c { cls := 3, sub := 4, mask := c.m }
  else if c.act = 0 then (r.onWave c.wid (fun w => w.advance c.m)).charge c h { vec := k.vec, mem := k.mem }
  else if k.whole.isSome && !w.reconverged then
    trapAt y r c { cls := 13, sub := k.whole.getD 1, mask := c.act }
  else match checkUses w c.act k.uses with
    | .trap t => trapAt y r c t
    | .wait rs => r.onWave c.wid (fun w => w.park c.m (.retry (.regs rs)))
    | .ok =>
      let first := !w.resumes c.m
      match eff y r c with
      | .ok r _ =>
        let r := r.retire c h k
        if k.switch && first then r.switchPoint c.wid true else r
      | .trap r t => trapAt y r c t
      | .park r p =>
        let r := r.onWave c.wid (fun w => w.park c.m p)
        match p with
        | .retry (.token _) => if first then r.switchPoint c.wid false else r
        | .retry q => if k.switch && first && q.blocking then r.switchPoint c.wid true else r
        | _ =>
          let r := r.charge c h k
          if k.switch then r.switchPoint c.wid true else r

/-- Whether an instruction names a special register of 0x100 to 0x1FF (R55, R60). -/
def Ops.namesPriv (o : Ops) : Bool :=
  [o.d, o.a, o.b, o.c].any (fun x => match x with | .sp n => 0x100 ≤ n.toNat | _ => false)

/-- The issuing group: the live wave of `cur` and those of its parts whose members `cur` names. -/
def Run.issuer (r : Run) (h : Hd) : Option Iss :=
  match r.waves.get? r.cur.wave with
  | none => none
  | some w =>
    match w.partAt r.cur.lanes with
    | none => none
    | some p => some ⟨r.cur.wave, r.cur.lanes, guard w h r.cur.lanes, p.pc⟩

/-- The meaning of an instruction of the issuing group. -/
def issue (s : State) (h : Hd) (k : How) (eff : Sys → Run → Iss → Eff Unit) : Host.Outcome State Fault Refusal :=
  match s.run.issuer h with
  | none => .fault .noIssuer
  | some c => .next { s with run := issueOn s.sys s.run c h k eff }

/-- The meaning of a step of the device that changes `Run` alone. -/
def event (s : State) (f : Sys → Run → Run) : Host.Outcome State Fault Refusal :=
  .next { s with run := f s.sys s.run }

end Sys2Proof.Machine
end

