-- ==== Sys2Proof/Machine/Life.lean ====
section
/-! DEFINITION. What passes from one wave to another: the extended pool (R121 to R127), the accumulator tokens
(R389 to R392), and the ends of waves and streams (R107, R342, R481). -/

namespace Sys2Proof.Machine

/-- A wait that the instruction itself made is over: its group goes on, with the region entry of a closer. -/
def Wave.complete (w : Wave) (m : Lanes) (closer : Bool) : Wave :=
  let w := w.advance m
  if closer then w.regionEntry m else w

/-! ## The extended pool -/

/-- Registers a wave gains: zero and full in every lane (R124). -/
def Wave.gain (w : Wave) (n : Nat) : Wave :=
  let keep {α : Type} (x : SMap α) : SMap α := x.filter (fun e => e.1 < w.valloc || w.valloc + n ≤ e.1)
  { w with v := keep w.v, vEmpty := keep w.vEmpty, vInd := keep w.vInd, valloc := w.valloc + n, acquired := w.acquired + n }

/-- Registers a wave gives back: the highest-numbered ones (R126). -/
def Wave.lose (w : Wave) (n : Nat) : Wave :=
  let keep {α : Type} (x : SMap α) : SMap α := x.filter (fun e => e.1 < w.valloc - n)
  { w with v := keep w.v, vEmpty := keep w.vEmpty, vInd := keep w.vInd, valloc := w.valloc - n, acquired := w.acquired - n }

/-- Grant the head of a block's queue once (R124): a wave goes on, a bin has its registers (R480). -/
def poolGrantHead (r : Run) (b : Nat) (q : PoolReq) (rest : List PoolReq) : Run :=
  let r := r.onBlock b (fun x => { x with poolFree := x.poolFree - q.n, poolQueue := rest })
  match q.wave with
  | some (w, m) => r.onWave w (fun x => (x.gain q.n).complete m true)
  | none => r.onCore (b / 4) (fun k => { k with bins := k.bins.upd q.bin (fun x => { x with got := true }) })

/-- Whether every wave of a block that holds registers of the pool has its RACQ parked (R127). A continuation wave
holds registers of the pool and is never parked so unless in a RACQ of its own. -/
def poolDead (r : Run) (b : Nat) : Bool :=
  (r.wavesOf b).all (fun e => (e.2.acquired = 0 && !e.2.contWave) ||
    (r.block b).poolQueue.any (fun q => q.wave.any (fun x => x.1 = e.1)))

/-- Whether a grant would take a wave beyond 256 registers, another part of it having been granted some since the request (R121). -/
def PoolReq.tooMuch (q : PoolReq) (r : Run) : Bool := q.wave.any (fun x => decide (256 < (r.wave x.1).valloc + q.n))

/-- A request's wave takes a trap at its RACQ. No pool has an address that R197's class word of RPOOL could name: it is 0 (log
entry 99). -/
def poolDecline (y : Sys) (r : Run) (q : PoolReq) (t : Trap) : Run :=
  match q.wave with
  | some (w, m) => trapParked y r ⟨w, m, q.act, (((r.wave w).partAt m).map (·.pc)).getD 0⟩ t
  | none => r

/-- Grants from the head while they fit; then, while the pool is deadlocked, the head's request is withdrawn (R124, R127): its
wave takes SYNC RPOOL, and a bin, which has no wave to trap, asks anew behind the others; a request that would take its wave beyond 256
registers takes OPND COUNT (R121, R123, log entry 91). -/
def poolSettle (y : Sys) (b : Nat) : Nat → Run → Run
  | 0, r => r
  | fuel + 1, r =>
    match (r.block b).poolQueue with
    | [] => r
    | q :: rest =>
      if q.tooMuch r then poolSettle y b fuel (poolDecline y (r.onBlock b (fun x => { x with poolQueue := rest })) q { cls := 4, sub := 3, mask := q.act, cw := BitVec.ofNat 64 q.n })
      else if q.n ≤ (r.block b).poolFree then poolSettle y b fuel (poolGrantHead r b q rest)
      else if !poolDead r b then r
      else match q.wave with
        | none =>
          if rest.all (fun x => x.wave.isNone) then r
          else poolSettle y b fuel (r.onBlock b (fun x => { x with poolQueue := rest ++ [q] }))
        | some _ => poolSettle y b fuel (poolDecline y (r.onBlock b (fun x => { x with poolQueue := rest })) q { cls := 13, sub := 3, mask := q.act })

def poolRun (y : Sys) (r : Run) (b : Nat) : Run := poolSettle y b (2 * (r.block b).poolQueue.length + 1) r

/-! ## Accumulator tokens -/

/-- The block of a holder; none for a free token. -/
def Run.holderBlk (r : Run) (h : AccHolder) : Option Nat :=
  match h with
  | .free => none
  | .stream b => some b
  | .wave w => some (r.wave w).blk

def Run.accTok (r : Run) (core c : Nat) : AccTok := ((r.core core).accTok.get? c).getD {}
def Run.onAccTok (r : Run) (core c : Nat) (f : AccTok → AccTok) : Run :=
  r.onCore core (fun k => { k with accTok := k.accTok.put c (f ((k.accTok.get? c).getD {})) })

/-- The word of an accumulator (R389). -/
def accKey (c row col : Nat) : Nat := c * 4096 + row * 64 + col
def Run.accGet (r : Run) (core c row col : Nat) : Word := SMap.get 0 (r.core core).acc (accKey c row col)
def Core.accSet (k : Core) (c row col : Nat) (x : Word) : Core := { k with acc := k.acc.set 0 (accKey c row col) x }

/-- What stands for the block of a token's last holder once that block has ended: no block of this number is ever placed. -/
def endedBlock : Nat := 0x10000

/-- A block ends: the tokens it held last were held by another block than any to come (R390). -/
def accForget (r : Run) (core blk : Nat) : Run :=
  r.onCore core (fun k => { k with accTok := k.accTok.mapAll (fun _ t => if t.last = some blk then { t with last := some endedBlock } else t) })

/-- A grant to an agent (R390): an agent of another block than the last holder's finds every word zero. -/
def accGive (r : Run) (core c : Nat) (h : AccHolder) : Run :=
  let t := r.accTok core c
  let blk := r.holderBlk h
  let r := if t.last.isSome && t.last ≠ blk then
      r.onCore core (fun k => { k with acc := k.acc.filter (fun e => e.1 / 4096 ≠ c) }) else r
  r.onAccTok core c (fun t => { t with holder := h, last := blk })

/-- A free token goes to the head of its queue; a wave's CACQ completes (R390, R392). A stream issues afresh. -/
def accSettle (r : Run) (core c : Nat) : Run :=
  let t := r.accTok core c
  match t.holder, t.queue with
  | .free, q :: rest =>
    let r := accGive (r.onAccTok core c (fun t => { t with queue := rest })) core c q.who
    match q.who with
    | .wave w => r.onWave w (fun x => x.complete q.lanes true)
    | _ => r
  | _, _ => r

def accRelease (r : Run) (core c : Nat) : Run :=
  accSettle (r.onAccTok core c (fun t => { t with holder := .free })) core c

/-- An agent leaves: its queued requests go, and every token it holds falls free (R107, R392). -/
def accDrop (r : Run) (core : Nat) (h : AccHolder) : Run :=
  (List.range 16).foldl (fun r c =>
    let r := if (r.accTok core c).queue.any (fun e => e.who == h) then
        r.onAccTok core c (fun t => { t with queue := t.queue.filter (fun e => !(e.who == h)) }) else r
    if (r.accTok core c).holder == h then accRelease r core c else r) r

/-! ## Ends -/

/-- A tile stream ends (R342): its clauses are reclaimed without evaluation, and so are its tokens. Its registers stand until its
block ends (R397). -/
def streamEnd (r : Run) (b : Nat) : Run :=
  let r := r.onBlock b (fun x => { x with hasStream := false, handles := [], clauses := [], watch := [], openDemands := [],
                                            batches := [], spill := none, strap := none })
  let r := r.onWave (streamId b) (fun w => { w with life := .ended, parts := [], young := [] })
  accDrop r (b / 4) (.stream b)

/-- A completion object with DONE grown, or with REFUSED set (R477). -/
def objWord (refuse : Bool) (v : Nat) : Nat :=
  if !refuse then v / 2 ^ 32 * 2 ^ 32 + (v + 1) % 2 ^ 32 else if v / 2 ^ 32 % 2 = 1 then v else v + 2 ^ 32

/-- The same update as a request to the object's device. -/
def objRed (refuse : Bool) (pa : Nat) : AtomicReq :=
  { cas := false, op := if refuse then .or else .add, ty := .u32, addr := pa % 2 ^ 40 + if refuse then 4 else 0, opnd := 1 }

/-- Update a completion object in place (R477), for a wave: one of another device by an atomic that leaves the device, one in host memory by
a READ and a WRITE (R290, R522). An object the map does not lead to is left alone. -/
def objectUpdate (y : Sys) (r : Run) (wid cid obj : Nat) (refuse : Bool) : Run :=
  if obj = 0 ∨ 2 ^ 52 ≤ obj then r else
  match walkBoth y r cid obj { write := true } with
  | .error _ => r
  | .ok (_, _, _, pa) =>
    let p := (r.ctx cid).part
    let die := dieOf (coreOf wid)
    let e := r.aper p pa
    if !isAper pa then (storeBytes r pa (leBytes (objWord refuse (memRead r.mem pa 8)) 8)).writeRecent wid (some .dev) true none pa 8
    else if aperCtrl e then controlOne r p wid pa obj (.red (objRed refuse pa))
    else if aperHost e then
      (r.dataOut p die e (pa / 256) (.read (aperPeer e) true wid [(0, pa % 2 ^ 40)])).onWave wid (fun w =>
        w.owe [] (.object refuse [{ lane := 0, pa := pa, va := obj, sent := r.clk }]) false 1#32 0)
    else
      let z := r.atomicOut p die e wid 0 pa obj (objRed refuse pa)
      z.2.onWave wid (fun w => w.owe [] (.atomic [z.1]) false 1#32 0)

/-- Lanes of a continuation wave end: their records retire (R481). -/
def retireRecords (y : Sys) (r : Run) (wid : Nat) (m : Lanes) : Run :=
  let w := r.wave wid
  if !w.contWave then r else
  let cid := (r.block w.blk).ctx
  let gone := w.objs.filter (fun e => m.getLsbD e.1)
  let r := gone.foldl (fun r e => objectUpdate y r wid cid e.2 false) r
  let r := r.onCtx cid (fun c => { c with quota := c.quota + gone.length })
  r.onWave wid (fun w => { w with objs := w.objs.filter (fun e => !m.getLsbD e.1) })

/-- The live wave that becomes current when the current wave of a DET block ends: as at a switch point (R426). Where no other is ready
R94 would let the switching wave stay; the model takes the next live one by index, ready or not (log entry 4). -/
def Run.afterEnd (r : Run) (wid : Nat) : Nat :=
  let n := r.nextCurrent wid
  if n ≠ wid then n else
  let w := r.wave wid
  let es := (r.wavesOf w.blk).filter (fun e => e.1 ≠ wid)
  let least (es : List (Nat × Wave)) : Option Nat :=
    (es.foldl (fun (b : Option (Nat × Wave)) e => match b with
      | some x => if e.2.index < x.2.index then some e else b
      | none => some e) none).map (·.1)
  match least (es.filter (fun e => w.index < e.2.index)) with
  | some n => n
  | none => (least es).getD wid

/-- The partner of a wave (R447): the same %WAVE in the block of its neighbourhood on the mate, while it lives. -/
def Run.partner (r : Run) (wid : Nat) : Option Nat :=
  let w := r.wave wid
  let b := r.block w.blk
  let mate := mateOf (coreOf wid)
  (r.waves.find? (fun e => !e.2.stream && coreOf e.1 == mate && e.2.life ≠ .ended && e.2.index == w.index &&
    (r.block e.2.blk).launch == b.launch && (r.block e.2.blk).nbh == b.nbh)).map (·.1)

/-- The first PAIR parked in a wave: its word and its D. -/
def Wave.inPair (w : Wave) : Option (Lanes × Word × BitVec 7) :=
  w.parts.findSome? (fun (p : Part) => match p.park with | .pair x d => some (w.parts.foldl (fun m (q : Part) =>
    if q.park == p.park && q.pc = p.pc then m ||| q.mask else m) 0, x, d) | _ => none)

/-- A parked PAIR returns with a value (R447). -/
def Wave.pairEnd (w : Wave) (v : Word64) : Wave :=
  match w.inPair with
  | some (m, _, d) => (w.setS d.toNat v).complete m true
  | none => w

/-- PAIRs whose partner is absent or has ended return 0 (R447). -/
def pairOrphans (r : Run) : Run :=
  { r with waves := r.waves.mapAll (fun n w => if w.inPair.isSome && (r.partner n).isNone then w.pairEnd 0 else w) }

/-- What a wave's end leaves of a pending result (R107): an atomic that is out completes, without its registers. -/
def Pend.afterEnd (p : Pend) : Option Pend :=
  match p.kind with
  | .atomic _ | .object _ _ => some { p with regs := [], acq := false, hold := false }
  | _ => none

/-- A wave ends (R107). Its slot is free once its writes are acknowledged (`waveSlotRelease`). -/
def waveEnd (y : Sys) (r : Run) (wid : Nat) : Run :=
  let w := r.wave wid
  let b := w.blk
  let core := coreOf wid
  let r := retireRecords y r wid w.live
  let r := r.passToken wid
  let r := r.onBlock b (fun x => { x with cur := if x.cur = wid then r.afterEnd wid else x.cur })
  let r := r.onCore core (fun k => { k with ctokWait := k.ctokWait.filter (fun e => e ≠ wid) })
  let back := (if w.contWave then w.placed else 0) + w.acquired
  let r := r.onWave wid (fun w => { w with
    life := .ended, parts := [], held := [], waiting := [], pend := w.pend.filterMap Pend.afterEnd, late := [], mon := none, acquired := 0
    contWave := false, vEmpty := [], sEmpty := 0, stall := 0 })
  let r := r.onBlock b (fun x => { x with
    poolFree := x.poolFree + back, poolQueue := x.poolQueue.filter (fun q => !q.wave.any (fun e => e.1 = wid)) })
  let r := poolRun y r b
  let r := pairOrphans (accDrop r core (.wave wid))
  match (r.block b).strap with
  | some t => if t.delivered = some wid then streamEnd r b else r
  | none => r

end Sys2Proof.Machine
end

