-- ==== Sys2Proof/Machine/Control.lean ====
section
/-! DEFINITION. The control-flow instructions (R103 to R109) and the traps, regions and returns of R202 to R206. -/

namespace Sys2Proof.Machine

/-- PC + 12 × EXT (R44). -/
def branchTarget (pc : Word64) (off : BitVec 24) : Word64 := pc + 12 * off.signExtend 64

def execNop (h : Hd) (s : State) : Host.Outcome State Fault Refusal :=
  issue s h {} (fun _ r _ => .ok r ())

/-- BRA (R105) divides each part of the group under R96. -/
def execBra (h : Hd) (off : BitVec 24) (s : State) : Host.Outcome State Fault Refusal :=
  issue s h { branch := true } (fun _ r c =>
    .ok (r.onWave c.wid (fun w => (w.divide c.m c.act (branchTarget c.pc off) (r.fragsFree c.wid w)).regroup)) ())

/-! ## Transfers to more than one address (R106) -/

/-- The groups of a part by address, in ascending order of their lowest lane. -/
def addrGroups (p : Part) (addr : Nat → Word64) : List (Word64 × Lanes) :=
  p.mask.toList.foldl (fun (gs : List (Word64 × Lanes)) (l : Nat) =>
    if gs.any (fun g => g.1 == addr l) then gs.map (fun g => if g.1 == addr l then (g.1, g.2 ||| laneBit l) else g)
    else gs ++ [(addr l, laneBit l)]) []

/-- The group that stays in the part (R106): with fragments for all the others the largest, a tie going to the
fall-through group; else the fall-through group where there is one. -/
def keptGroup (gs : List (Word64 × Lanes)) (fall : Word64) (f : Nat) : Option (Word64 × Lanes) :=
  let fallG := gs.find? (fun g => g.1 == fall)
  let size := gs.foldl (fun n g => max n g.2.count) 0
  let largest := gs.find? (fun g => g.2.count == size)
  if gs.length - 1 ≤ f then
    match fallG with
    | some g => if g.2.count = size then some g else largest
    | none => largest
  else match fallG with
    | some g => some g
    | none => largest

/-- Send the members of one part to their addresses: the part that stays, the new fragments and held groups, the
slots left. -/
def divertPart (p : Part) (addr : Nat → Word64) (fall : Word64) (f : Nat) (slots : List Nat) :
    Part × List Part × List Held × List Nat :=
  let gs := addrGroups p addr
  match keptGroup gs fall f with
  | none => (p, [], [], slots)
  | some k =>
    let others := gs.filter (fun g => !(g.1 == k.1))
    let keep : Part := { p with mask := k.2, pc := k.1, park := .run }
    others.foldl (fun (acc : Part × List Part × List Held × List Nat) (g : Word64 × Lanes) =>
      match acc with
      | (keep, fs, hs, slot :: rest) =>
        (keep, fs ++ [{ uid := 8 + slot, slice := p.slice, frag := some slot, mask := g.2, pc := g.1, rpc := p.rpc }], hs, rest)
      | (keep, fs, hs, []) => (keep, fs, hs ++ [⟨g.2, g.1, p.rpc, p.uid⟩], [])) (keep, [], [], slots)

/-- R106 for every part of the issuing group; the number of free slots is that when the instruction issues. -/
def Wave.divert (w : Wave) (m act : Lanes) (tgt : Nat → Word64) (slots : List Nat) : Wave :=
  (w.parts.foldl (fun (acc : Wave × List Nat) (p : Part) =>
    let (w, left) := acc
    if (p.mask &&& m) = 0 then (w, left) else
    let fall := p.pc + 12
    let (keep, fs, hs, left) := divertPart p (fun l => if act.getLsbD l then tgt l else fall) fall slots.length left
    ({ w with parts := w.parts.map (fun q => if q.uid == p.uid then keep else q) ++ fs, held := w.held ++ hs }, left))
    (w, slots)).1

/-- The checks of R106 on the offsets of the active lanes. -/
def offsetTrap (base : Word64) (size : Nat) (act : Lanes) (off : Nat → Nat) : Option Trap :=
  let xs := act.toList.map (fun l => (l, off l))
  let va (es : List (Nat × Nat)) : List (Nat × Nat) := es.map (fun e => (e.1, base.toNat + e.2))
  match xs.filter (fun e => e.2 % 4 ≠ 0), xs.filter (fun e => size ≤ e.2) with
  | [], [] => none
  | [], far => some (memTrap 2 (va far))
  | mis, _ => some (memTrap 1 (va mis))

/-- Write a link: per active lane, or zero-extended into a scalar (R106). -/
def Wave.link (w : Wave) (d : Opd) (act : Lanes) (x : Word) : Wave :=
  match d with
  | .s n => w.setS n.toNat (x.setWidth 64)
  | d => w.put d 0 act (fun _ => x)

/-- The link value: the code offset of PC + 12. -/
def Run.linkValue (r : Run) (c : Iss) : Word := (c.pc + 12 - r.codeBase (r.wave c.wid)).setWidth 32

/-- BRX, CALLX and RET: targets are read and checked, then the link is written, then the lanes go (R106). -/
def transfer (link : Bool) (o : Ops) (_ : Sys) (r : Run) (c : Iss) : Eff Unit :=
  let w := r.wave c.wid
  let base := r.codeBase w
  let offs := laneIds.map (fun l => (r.rdLane c.wid o.a 0 l).toNat)
  match offsetTrap base (r.codeSize w) c.act (fun l => offs.getD l 0) with
  | some t => .trap r t
  | none =>
    let slots := r.fragsFree c.wid w
    let x := r.linkValue c
    .ok (r.onWave c.wid (fun w =>
      (((if link then w.link o.d c.act x else w).divert c.m c.act (fun l => base + BitVec.ofNat 64 (offs.getD l 0)) slots)).regroup)) ()

def execBrx (h : Hd) (o : Ops) (s : State) : Host.Outcome State Fault Refusal :=
  issue s h { uses := usesOf h o, branch := true } (transfer false o)

/-- CALL: PC + 12 × EXT with no offset checks (R106). -/
def execCall (h : Hd) (o : Ops) (s : State) : Host.Outcome State Fault Refusal :=
  issue s h { uses := usesOf h o, branch := true } (fun _ r c =>
    let x := r.linkValue c
    let slots := r.fragsFree c.wid (r.wave c.wid)
    .ok (r.onWave c.wid (fun w =>
      ((w.link o.d c.act x).divert c.m c.act (fun _ => branchTarget c.pc o.x) slots).regroup)) ())

def execCallx (h : Hd) (o : Ops) (s : State) : Host.Outcome State Fault Refusal :=
  issue s h { uses := usesOf h o, branch := true } (transfer true o)

def execRet (h : Hd) (o : Ops) (s : State) : Host.Outcome State Fault Refusal :=
  issue s h { uses := usesOf h o, branch := true } (transfer false o)

/-! ## EXIT, REGANG, YIELD -/

/-- The lanes that exit leave their parts; the other members go on. -/
def Wave.dropLanes (w : Wave) (m gone : Lanes) : Wave :=
  (w.onParts m (fun p => { p with mask := p.mask &&& ~~~gone, pc := p.pc + 12, park := .run })).regroup

/-- The wave's open ticket that was submitted first, 0 where none is open. -/
def Wave.firstTicket (w : Wave) : Word64 :=
  match w.slot0.filter (fun t => !t.dead), w.slot1.filter (fun t => !t.dead) with
  | some a, some b => if a.order ≤ b.order then ticketValue 0 a else ticketValue 1 b
  | some a, none => ticketValue 0 a
  | none, some b => ticketValue 1 b
  | none, none => 0

/-- EXIT in a wave (R107); in a continuation wave it retires records, as a release (R481). -/
def exitWave (y : Sys) (r : Run) (c : Iss) : Eff Unit :=
  let w := r.wave c.wid
  if (w.live &&& ~~~c.act) = 0 then
    if w.txOpen ≠ 0 then .trap r { cls := 10, sub := 0x10, mask := c.act, cw := w.firstTicket }
    else if w.contWave && w.unperformed then .park r (.retry (.release false))
    else .ok (waveEnd y r c.wid) ()
  else if w.contWave && w.unperformed then .park r (.retry (.release false))
  else
    let r := retireRecords y r c.wid c.act
    .ok (r.onWave c.wid (fun w => w.dropLanes c.m c.act)) ()

/-- Close the open batch of a block (R329). -/
def Block.close (b : Block) : Block :=
  { b with batches := b.batches ++ [⟨b.lastClosed + 1, b.openDemands, .closed, 0⟩], openDemands := [], lastClosed := b.lastClosed + 1 }

/-- Closed batches that are not complete. -/
def Block.incomplete (b : Block) : List Batch := b.batches

/-- The late trap of a failed batch (R336); reporting it leaves the batch to be evaluated again (R337). -/
def batchTrap (f : BatchFault) : Trap :=
  { cls := 9, sub := f.sub, mask := 0, cw := f.cw, late := true, origin := f.origin, clause := f.clause
    coord := f.row + f.col * 65536 }

/-- A failed batch among those up to `n` is reported: the trap, and the batch back among the closed (R337). -/
def failedBatch (b : Block) (n : Nat) : Option (BatchFault × Block) :=
  b.batches.findSome? (fun x => match x.st with
    | .failed f => if x.no ≤ n then
        some (f, { b with batches := b.batches.map (fun z => if z.no = x.no then { z with st := .closed } else z) }) else none
    | _ => none)

/-- EXIT in the tile stream (R342): the open batch closes, every batch completes, then the stream ends. -/
def exitStream (r : Run) (c : Iss) : Eff Unit :=
  let bid := (r.wave c.wid).blk
  let b := r.block bid
  if b.openDemands ≠ [] ∧ 4 ≤ b.incomplete.length then .park r (.retry .batchRoom)
  else
    let r := if b.openDemands = [] then r else r.onBlock bid Block.close
    let b := r.block bid
    match failedBatch b b.lastClosed with
    | some (f, b') => .trap (r.onBlock bid (fun _ => b')) (batchTrap f)
    | none =>
      if b.incomplete = [] then .ok (streamEnd r bid) ()
      else .park r (.retry (.batches b.lastClosed true))

def execExit (h : Hd) (s : State) : Host.Outcome State Fault Refusal :=
  issue s h { branch := true } (fun y r c => if (r.wave c.wid).stream then exitStream r c else exitWave y r c)

/-- REGANG (R108) makes the running lanes of a part waiting; a part without an active lane goes on. -/
def Wave.regang (w : Wave) (m act : Lanes) (k : Nat) : Wave :=
  let here (p : Part) : Bool := (p.mask &&& m) ≠ 0
  let ps := w.parts.filter (fun p => here p && (p.mask &&& act) ≠ 0)
  let w := { w with
    waiting := w.waiting ++ ps.map (fun (p : Part) => (⟨p.mask, k, p.pc, p.rpc, p.frag⟩ : Waiting))
    parts := w.parts.map (fun p =>
      if !here p then p
      else if (p.mask &&& act) ≠ 0 then { p with mask := 0, park := .run }
      else { p with pc := p.pc + 12, park := .run }) }
  w.regroup

/-- An arrival issues only after the accesses before it have performed (R108, FS-8 of R315). -/
def execRegang (h : Hd) (k : BitVec 6) (s : State) : Host.Outcome State Fault Refusal :=
  issue s h { branch := true } (fun _ r c =>
    if (r.wave c.wid).unperformed then .park r (.retry (.release true))
    else .ok (r.onWave c.wid (fun w => w.regang c.m c.act k.toNat)) ())

/-- YIELD (R109). -/
def execYield (h : Hd) (s : State) : Host.Outcome State Fault Refusal :=
  issue s h { switch := true, yld := true } (fun _ r _ => .ok r ())

/-! ## Traps, regions, returns -/

/-- REGION (R203). -/
def execRegion (h : Hd) (s : State) : Host.Outcome State Fault Refusal :=
  issue s h { closer := true } (fun _ r _ => .ok r ())

/-- TRAP n (R204). -/
def execTrap (h : Hd) (n : BitVec 8) (s : State) : Host.Outcome State Fault Refusal :=
  issue s h {} (fun _ r c => .trap r { cls := 2, sub := n.toNat, mask := c.act, next := true })

/-- BRK n (R204). -/
def execBrk (h : Hd) (n : BitVec 8) (s : State) : Host.Outcome State Fault Refusal :=
  issue s h {} (fun _ r c => .trap r { cls := 1, sub := n.toNat, mask := c.act })

/-- What leaving a handler brings besides (R338, R493): a stream whose trap the handler answered restarts at its
EPC, and a wave whose PREEMPT handler ends is stopped, where its context still is in step 2. -/
def afterRte (r : Run) (wid : Nat) (left : Option Nat) : Run :=
  let w := r.wave wid
  let r := match (r.block w.blk).strap with
    | some t => if t.delivered = some wid && !w.inh && !w.priv then
        r.onBlock w.blk (fun b => { b with strap := none }) else r
    | none => r
  if left ≠ some 14 then r
  else r.onWave wid (fun w => { w with life := if (r.ctxOf w).step = 2 then .stopped else w.life, preTrap := false })

/-- RTE (R206): outside a handler it traps; a target that is not a multiple of 4 traps before anything changes. -/
def returnEff (region : Bool) (_ : Sys) (r : Run) (c : Iss) : Eff Unit :=
  let w := r.wave c.wid
  if !w.priv && !w.inh then .trap r { cls := 13, sub := 4, mask := c.act }
  else
    let ts := w.parts.filter (fun p => (p.mask &&& c.m) ≠ 0) |>.map (fun p => w.rteTarget region p)
    match ts.find? (fun t => t.toNat % 4 ≠ 0) with
    | some t => .trap r (memTrap 1 (c.act.toList.map (fun l => (l, t.toNat))))
    | none => .ok (afterRte (r.onWave c.wid (fun w => w.rte c.m region)) c.wid (w.sup.head?.map (·.cls))) ()

def execRte (h : Hd) (s : State) : Host.Outcome State Fault Refusal :=
  issue s h { branch := true } (returnEff false)

def execRteRegion (h : Hd) (s : State) : Host.Outcome State Fault Refusal :=
  issue s h { branch := true } (returnEff true)

end Sys2Proof.Machine
end

