-- ==== Sys2Proof/Machine/Move.lean ====
section
/-! DEFINITION. The move instructions (R132 to R136), MSET (R223), and the writes of special registers with the
steps of the device that make the same writes (R164 to R167, R435, R438). -/

namespace Sys2Proof.Machine

/-- Whether an instruction names a per-lane operand, so that it runs in the vector unit (R41, R139). -/
def Ops.vecUnit (o : Ops) : Bool := o.d.perLane || o.a.perLane || o.b.perLane || o.c.perLane

/-- Checks of an issue made inside an effect. -/
def Run.checked (r : Run) (c : Iss) (us : List Use) (k : Eff Unit) : Eff Unit :=
  match checkUses (r.wave c.wid) c.act us with
  | .trap t => .trap r t
  | .wait rs => .park r (.retry (.regs rs))
  | .ok => k

/-! ## MOV and MOVI -/

def isFpsr (o : Opd) : Bool := o.spIdx == some 0x011

/-- Whether an FP or XLANE instruction of a wave has not completed (R166). -/
def Run.fpDue (r : Run) (wid : Nat) : Bool :=
  let w := r.wave wid
  w.pend.any (fun p => p.kind == .xlane) || r.clk < w.fpTill

/-- MOV (R133); one that reads %FPSR waits for the FP and XLANE instructions before it (R166). -/
def movEff (o : Ops) (_ : Sys) (r : Run) (c : Iss) : Eff Unit :=
  if isFpsr o.a && r.fpDue c.wid then .park r (.retry .xlane) else
  let l0 := c.act.lowest
  let f := r.rdLane c.wid o.a 0
  .ok (r.onWave c.wid (fun w =>
    match o.d with
    | .s n => w.setS n.toNat (r.rdScalar c.wid o.a 0 l0)
    | .p n => w.setP n.toNat c.act (fun l => f l ≠ 0)
    | d => w.put d 0 c.act f)) ()

def execMov (h : Hd) (o : Ops) (s : State) : Host.Outcome State Fault Refusal :=
  issue s h { uses := usesOf h o, priv := Ops.namesPriv o, vec := Ops.vecUnit o } (movEff o)

/-- MOVI (R134). -/
def execMovi (h : Hd) (imm : Word) (o : Ops) (s : State) : Host.Outcome State Fault Refusal :=
  issue s h { uses := usesOf h o, vec := Ops.vecUnit o } (fun _ r c =>
    .ok (r.onWave c.wid (fun w =>
      match o.d with
      | .s n => w.setS n.toNat (imm.signExtend 64)
      | d => w.put d 0 c.act (fun _ => imm))) ())

/-! ## MOVS (R135) -/

/-- A MOVS operand with the index the lowest active lane forms, which alone is checked. -/
def Wave.fixRel (w : Wave) (o : Opd) (l0 : Nat) : Opd ⊕ Int :=
  match o with
  | .rel _ _ =>
    let x := w.vIdx o l0
    if 0 ≤ x ∧ x < w.valloc then .inl (.v (BitVec.ofInt 8 x)) else .inr x
  | o => .inl o

/-- The OPND trap of a MOVS operand whose index is out of the window. -/
def relTrap (l0 pos : Nat) (x : Int) : Trap :=
  { cls := 4, sub := 2, mask := laneBit l0, lw := [(l0, BitVec.ofInt 64 x)], lv := [(l0, BitVec.ofNat 32 pos)] }

/-- The lanes of a wave that run in other parts: their registers may be changing (R110, R135). -/
def Wave.foreign (w : Wave) (m : Lanes) : Lanes := (w.parts.foldl (fun x p => x ||| p.mask) 0) &&& ~~~m

/-- The lane index B, or the OPND LANE trap. -/
def laneIndex (r : Run) (c : Iss) (o : Opd) : Nat ⊕ Trap :=
  let l := r.rdCount c o
  if l < 32 then .inl l else .inr { cls := 4, sub := 4, mask := c.act, cw := BitVec.ofNat 64 l }

/-- MOVS.get: D is empty until the value arrives. The lane it reads is known once B can be read. -/
def movsGetEff (h : Hd) (o : Ops) (_ : Sys) (r : Run) (c : Iss) : Eff Unit :=
  let w := r.wave c.wid
  let l0 := c.act.lowest
  match w.fixRel o.a l0 with
  | .inr x => .trap r (relTrap l0 1 x)
  | .inl a =>
    match opndCheck w c.act [⟨1, a, 1, false, false, none⟩] with
    | some t => .trap r t
    | none =>
      let b : Use := ⟨2, o.b, 1, false, h.feb, none⟩
      match (if b.having w c.act (fun x => w.isEmpty x || w.isInd x) = [] then laneIndex r c o.b else .inl 32) with
      | .inr t => .trap r t
      | .inl l =>
        r.checked c [⟨0, o.d, 1, true, false, none⟩, ⟨1, a, 1, false, h.fea, some (laneBit l &&& ~~~w.foreign c.m)⟩, b]
        (let open_ := (w.foreign c.m).getLsbD l
         let x := if open_ then r.openWord c.wid a 0 l else r.rdLane c.wid a 0 l
         let r := if open_ then { r with fresh := r.fresh + 32 } else r
         .ok (r.onWave c.wid (fun w =>
           match o.d with
           | .s n => (w.setS n.toNat (x.signExtend 64)).owe [⟨false, n.toNat, 0xFFFFFFFF#32⟩] .local false c.act c.pc
           | _ => w)) ())

def execMovsGet (h : Hd) (o : Ops) (s : State) : Host.Outcome State Fault Refusal :=
  issue s h { vec := true } (movsGetEff h o)

/-- MOVS.put: a part of a diverged wave takes SYNC DIVXLANE. -/
def movsPutEff (h : Hd) (o : Ops) (_ : Sys) (r : Run) (c : Iss) : Eff Unit :=
  let w := r.wave c.wid
  let l0 := c.act.lowest
  match w.fixRel o.d l0 with
  | .inr x => .trap r (relTrap l0 0 x)
  | .inl d =>
    match opndCheck w c.act [⟨0, d, 1, true, false, none⟩] with
    | some t => .trap r t
    | none =>
      r.checked c [⟨1, o.a, 1, false, h.fea, none⟩, ⟨2, o.b, 1, false, h.feb, none⟩]
      (match laneIndex r c o.b with
      | .inr t => .trap r t
      | .inl l =>
        r.checked c [⟨0, d, 1, true, false, some (laneBit l)⟩]
        (let x := (r.rdScalar c.wid o.a 0 l0).setWidth 32
         .ok (r.onWave c.wid (fun w => w.put d 0 (laneBit l) (fun _ => x))) ()))

def execMovsPut (h : Hd) (o : Ops) (s : State) : Host.Outcome State Fault Refusal :=
  issue s h { whole := some 2, vec := true } (movsPutEff h o)

/-! ## Writes of special registers -/

/-- %FPCR takes a written value (R164): reserved bits stay 0, a reserved rounding mode leaves RM. -/
def fpcrWrite (old v : Word) : Word :=
  (v &&& 0x1F38#32) ||| (if bits v 0 3 < 4 then v &&& 7#32 else old &&& 7#32)

/-- %BALCTL takes a written value (R438). -/
def balctlWrite (old v : Word64) : Word64 :=
  let x := setBits old 0 1 (bits v 0 1)
  let x := if bits v 1 3 = 0 ∨ bits v 1 3 = 7 then x else setBits x 1 3 (bits v 1 3)
  if v.getLsbD 9 then x else setBits x 9 1 0

/-- A threshold in its range (R435). -/
def clampTh (v : Word64) : Nat := min 1000 (max 100 (bits v 0 16))
def Pair.writeTh (p : Pair) (v : Word64) : Pair := { p with th := clampTh v, tx := max p.tx (clampTh v) }
def Pair.writeTx (p : Pair) (v : Word64) : Pair := { p with tx := max p.th (clampTh v) }

/-- The step of %PREEMPT a request names (R487, R488). -/
def preemptEvent (ctx req : Nat) : Option Instr :=
  match req with
  | 1 => some (.preemptDrain ctx none)
  | 2 => some (.preemptHalt ctx none)
  | 3 => some (.preemptForcedSave ctx none)
  | 4 => some (.preemptCapture ctx none)
  | _ => none

/-- %PREEMPT takes a written value (R487); a request above STEP begins its step before anything else happens. -/
def preemptWrite (r : Run) (cid : Nat) (v : Word64) : Run :=
  let old := (r.ctx cid).preempt
  let x := if 5 ≤ bits v 0 3 then old else setBits old 0 3 (bits v 0 3)
  let x := setBits x 7 1 (bits v 7 1)
  let x := setBits x 16 8 (if bits v 16 8 = 0 then 1 else bits v 16 8)
  let r := r.onCtx cid (fun c => { c with preempt := x })
  if bits x 4 3 < bits x 0 3 then { r with inbox := (preemptEvent cid (bits x 0 3)).toList ++ r.inbox } else r

/-- A write of special register `n` by a wave (R136, R3). -/
def writeSpecial (r : Run) (wid n : Nat) (v : Word64) : Run :=
  let core := coreOf wid
  let cid := (r.block (r.wave wid).blk).ctx
  match n with
  | 0x010 => r.onWave wid (fun w => { w with fpcr := fpcrWrite w.fpcr (v.setWidth 32) })
  | 0x011 => r.onWave wid (fun w => { w with fpsr := v.setWidth 32 &&& 0x3F#32 })
  | 0x012 => r.onWave wid (fun w => { w with epc := v })
  | 0x016 => r.onWave wid (fun w => { w with utrap := v &&& 0xFFFFF000#64 })
  | 0x031 => r.onCore core (fun k => { k with balctl := balctlWrite k.balctl v })
  | 0x100 => r.onCtx cid (fun c => { c with trapbase := some (v &&& 0xFFFFFFFFFFFFF000#64) })
  | 0x101 => r.onCtx cid (fun c => { c with tdeleg := v &&& 0x3EFE#64 })
  | 0x102 => r.onWave wid (fun w => { w with sepc := v })
  | 0x105 => r.onCtx cid (fun c => { c with ptbase := v &&& 0xFFFFFFFFF0000#64 })
  | 0x106 => r.onPair (pairOf core) (fun p => p.writeTh v)
  | 0x107 => r.onPair (pairOf core) (fun p => p.writeTx v)
  | 0x108 => preemptWrite r cid v
  | _ => r

/-- MOVW (R136); a write of %FPSR waits as a read does (R166). -/
def movwEff (o : Ops) (_ : Sys) (r : Run) (c : Iss) : Eff Unit :=
  match o.d with
  | .sp n =>
    if n = 0x011 && r.fpDue c.wid then .park r (.retry .xlane)
    else .ok (writeSpecial r c.wid n.toNat (r.rdScalar c.wid o.a 0 c.act.lowest)) ()
  | _ => .ok r ()

def execMovw (h : Hd) (o : Ops) (s : State) : Host.Outcome State Fault Refusal :=
  issue s h { uses := usesOf h o, priv := Ops.namesPriv o, closer := true } (movwEff o)

/-- MSET (R223). -/
def execMset (h : Hd) (o : Ops) (s : State) : Host.Outcome State Fault Refusal :=
  issue s h { uses := usesOf h o } (fun _ r c =>
    let l0 := c.act.lowest
    let base := (r.rdScalar c.wid o.a 0 l0).setWidth 32
    let len := (r.rdScalar c.wid o.b 0 l0).setWidth 32
    .ok (r.onWave c.wid (fun w =>
      match o.d with
      | .m n => w.setM n.toNat (base, len)
      | _ => w)) ())

/-! ## The same writes as steps of the device -/

/-- MISTH_WRITE (R435). -/
def execMisthWrite (pair : Nat) (v : Word64) (s : State) : Host.Outcome State Fault Refusal :=
  event s (fun _ r => r.onPair pair (fun p => p.writeTh v))

/-- MISTX_WRITE (R435). -/
def execMistxWrite (pair : Nat) (v : Word64) (s : State) : Host.Outcome State Fault Refusal :=
  event s (fun _ r => r.onPair pair (fun p => p.writeTx v))

/-- BALCTL_WRITE (R438). -/
def execBalctlWrite (core : Nat) (v : Word64) (s : State) : Host.Outcome State Fault Refusal :=
  event s (fun _ r => r.onCore core (fun k => { k with balctl := balctlWrite k.balctl v }))

/-- FPCR_WRITE (R164). -/
def execFpcrWrite (w : Nat) (v : Word) (s : State) : Host.Outcome State Fault Refusal :=
  event s (fun _ r => r.onWave w (fun x => { x with fpcr := fpcrWrite x.fpcr v }))

/-- FPSR_ACCESS (R166): a write replaces the six bits, a read changes nothing. The flags of every earlier instruction
are in %FPSR from its issue on, so that neither has anything left to wait for. -/
def execFpsrAccess (w : Nat) (v : Option Word) (s : State) : Host.Outcome State Fault Refusal :=
  event s (fun _ r =>
    match v with
    | some x => r.onWave w (fun z => { z with fpsr := x &&& 0x3F#32 })
    | none => r)

end Sys2Proof.Machine
end

