-- ==== Sys2Proof/Machine/Integer.lean ====
section
/-! DEFINITION. The integer and address pipe (R139 to R156): one shared effect over patterns of the type's width,
and the result of each instruction as a function of its operands' patterns. -/

namespace Sys2Proof.Machine

/-- Width of a type (R140). -/
def iw (t : IType) : Nat := if t.is64 then 64 else 32

/-- val(x): the integer a pattern of the type denotes (R140). -/
def ival (t : IType) (x : Nat) : Int :=
  if t.signed && 2 ^ (iw t - 1) ≤ x then (x : Int) - 2 ^ iw t else x

/-- min_t and max_t (R140). -/
def imin (t : IType) : Int := if t.signed then -(2 ^ (iw t - 1)) else 0
def imax (t : IType) : Int := if t.signed then 2 ^ (iw t - 1) - 1 else 2 ^ iw t - 1

/-- The pattern of an exact result modulo 2^w. -/
def iwrap (t : IType) (z : Int) : Nat := (z % 2 ^ iw t).toNat
def iclamp (t : IType) (z : Int) : Int := max (imin t) (min (imax t) z)
/-- Wrap, or clamp under .sat. -/
def isat (t : IType) (sat : Bool) (z : Int) : Nat := iwrap t (if sat then iclamp t z else z)

/-- A result for one lane, or for the scalar unit: the pattern of D and the predicate result. -/
structure IntOut where
  d : Nat
  p : Bool := false
  deriving DecidableEq, Repr

/-- A scalar-unit result as the scalar register holds it (R140). -/
def scalarExt (t : IType) (d : Nat) : Word64 :=
  match t with
  | .s32 => (BitVec.ofNat 32 d).signExtend 64
  | .u32 => BitVec.ofNat 64 (d % 2 ^ 32)
  | _ => BitVec.ofNat 64 d

/-- The predicate operand of a lane: operand C where it is a predicate. -/
def predAt (w : Wave) (o : Opd) (l : Nat) : Bool :=
  match o with
  | .p n => (w.pSee n.toNat).getLsbD l
  | _ => false

/-- Write the results of an integer instruction: D from the patterns, or from the predicate results where D is a
predicate; C from the predicate results under .co. -/
def Wave.putInt (w : Wave) (t : IType) (o : Ops) (setC : Bool) (act : Lanes) (f : Nat → IntOut) : Wave :=
  let w := match o.d with
    | .s n => w.setS n.toNat (scalarExt t (f act.lowest).d)
    | .p n => w.setP n.toNat act (fun l => (f l).p)
    | d => w.put d 0 act (fun l => BitVec.ofNat 32 (f l).d)
  match setC, o.c with
  | true, .p n => w.setP n.toNat act (fun l => (f l).p)
  | _, _ => w

/-- The effect of an integer instruction (R139): per active lane in the vector unit; once in the scalar unit, whose
predicate sources are those of the lowest active lane and whose predicate result goes to every active lane. -/
def intEff (t : IType) (o : Ops) (setC : Bool) (f : Nat → Nat → Nat → Bool → IntOut) (_ : Sys) (r : Run) (c : Iss) :
    Eff Unit :=
  let w := r.wave c.wid
  let l0 := c.act.lowest
  let out : Nat → IntOut :=
    if Ops.vecUnit o then
      fun l => f (r.rdLane c.wid o.a 0 l).toNat (r.rdLane c.wid o.b 0 l).toNat (r.rdLane c.wid o.c 0 l).toNat (predAt w o.c l)
    else
      let sc (x : Opd) : Nat := (r.rdScalar c.wid x 0 l0).toNat % 2 ^ iw t
      let one := f (sc o.a) (sc o.b) (sc o.c) (predAt w o.c l0)
      fun _ => one
  .ok (r.onWave c.wid (fun w => w.putInt t o setC c.act out)) ()

/-- The issue of an integer instruction. -/
def intIssue (h : Hd) (t : IType) (o : Ops) (setC : Bool) (f : Nat → Nat → Nat → Bool → IntOut) (s : State) :
    Host.Outcome State Fault Refusal :=
  issue s h { uses := usesOf h o, vec := Ops.vecUnit o } (intEff t o setC f)

/-! ## Results as functions of the patterns -/

/-- IADD and ISUB (R145): `sub` subtracts B and the carry. -/
def addResult (m : AddMod) (sub : Bool) (a b : Nat) (pc : Bool) : IntOut :=
  let ci : Int := if m.ci && pc then 1 else 0
  let sum := if sub then ival m.t a - ival m.t b - ci else ival m.t a + ival m.t b + ci
  { d := isat m.t m.sat sum, p := sum < imin m.t || imax m.t < sum }

def absResult (m : SatMod) (a : Nat) : Nat :=
  let x : Int := (ival m.t a).natAbs
  isat m.t m.sat x
def negResult (m : SatMod) (a : Nat) : Nat := isat m.t m.sat (-(ival m.t a))

/-- SHL and SHR (R148). -/
def shlResult (t : IType) (a b : Nat) : Nat := if b % 256 < iw t then a * 2 ^ (b % 256) % 2 ^ iw t else 0
def shrResult (t : IType) (a b : Nat) : Nat := iwrap t (ival t a / 2 ^ min (b % 256) (iw t))
/-- ROT (R148). -/
def rotResult (m : RotMod) (a b : Nat) : Nat :=
  let w := iw m.t
  let n := b % 256 % w
  let k := if m.right then (w - n) % w else n
  (a * 2 ^ k % 2 ^ w) + a / 2 ^ (w - k)

/-- POPC, CLZ, BREV (R149). -/
def popcount (a : Nat) : Nat → Nat
  | 0 => 0
  | n + 1 => (if a.testBit n then 1 else 0) + popcount a n
def leadZeros (a : Nat) : Nat → Nat
  | 0 => 0
  | n + 1 => if a.testBit n then 0 else 1 + leadZeros a n
def bitReverse (w a : Nat) : Nat → Nat
  | 0 => 0
  | n + 1 => (if a.testBit n then 2 ^ (w - 1 - n) else 0) + bitReverse w a n

/-- BFE (R150). -/
def bfeResult (t : IType) (a ctl : Nat) : Nat :=
  let w := iw t
  let pos := ctl % 256
  let len := min (ctl / 256 % 256) w
  if len = 0 then 0 else
  let f : Nat := (ival t a / 2 ^ min pos w % 2 ^ len).toNat
  if t.signed && f.testBit (len - 1) then f + (2 ^ w - 2 ^ len) else f

/-- BFI (R150). -/
def bfiResult (t : IType) (a b ctl : Nat) : Nat :=
  let w := iw t
  let pos := ctl % 256
  let len := min (ctl / 256 % 256) w
  let mask := (2 ^ len - 1) * 2 ^ pos % 2 ^ w
  (b - (b &&& mask)) + (a * 2 ^ pos &&& mask)

/-- ISETP's comparison (R152). -/
def icmp (t : IType) (k : Cmp) (a b : Nat) : Bool :=
  match k with
  | .eq => a == b
  | .ne => a ≠ b
  | .lt => ival t a < ival t b
  | .le => ival t a ≤ ival t b
  | .gt => ival t b < ival t a
  | .ge => ival t b ≤ ival t a

/-- The combination with C (R144, R152). -/
def combine (k : Comb) (x c : Bool) : Bool :=
  match k with
  | .none => x
  | .and => x && c
  | .or => x || c
  | .xor => xor x c

/-! ## The instructions -/

def execIadd (h : Hd) (m : AddMod) (o : Ops) (s : State) : Host.Outcome State Fault Refusal :=
  intIssue h m.t o m.co (fun a b _ pc => addResult m false a b pc) s
def execIsub (h : Hd) (m : AddMod) (o : Ops) (s : State) : Host.Outcome State Fault Refusal :=
  intIssue h m.t o m.co (fun a b _ pc => addResult m true a b pc) s
def execImin (h : Hd) (t : IType) (o : Ops) (s : State) : Host.Outcome State Fault Refusal :=
  intIssue h t o false (fun a b _ _ => { d := if ival t b < ival t a then b else a }) s
def execImax (h : Hd) (t : IType) (o : Ops) (s : State) : Host.Outcome State Fault Refusal :=
  intIssue h t o false (fun a b _ _ => { d := if ival t a < ival t b then b else a }) s
def execIabs (h : Hd) (m : SatMod) (o : Ops) (s : State) : Host.Outcome State Fault Refusal :=
  intIssue h m.t o false (fun a _ _ _ => { d := absResult m a }) s
def execIneg (h : Hd) (m : SatMod) (o : Ops) (s : State) : Host.Outcome State Fault Refusal :=
  intIssue h m.t o false (fun a _ _ _ => { d := negResult m a }) s

/-- Bitwise results (R147); in the predicate form the low bit is the predicate. -/
def bitwise (d : Nat) : IntOut := { d := d, p := d.testBit 0 }

def execAnd (h : Hd) (t : IType) (o : Ops) (s : State) : Host.Outcome State Fault Refusal :=
  intIssue h t o false (fun a b _ _ => bitwise (a &&& b)) s
def execOr (h : Hd) (t : IType) (o : Ops) (s : State) : Host.Outcome State Fault Refusal :=
  intIssue h t o false (fun a b _ _ => bitwise (a ||| b)) s
def execXor (h : Hd) (t : IType) (o : Ops) (s : State) : Host.Outcome State Fault Refusal :=
  intIssue h t o false (fun a b _ _ => bitwise (a ^^^ b)) s
def execNot (h : Hd) (t : IType) (o : Ops) (s : State) : Host.Outcome State Fault Refusal :=
  intIssue h t o false (fun a _ _ _ => bitwise (2 ^ iw t - 1 - a)) s

def execShl (h : Hd) (t : IType) (o : Ops) (s : State) : Host.Outcome State Fault Refusal :=
  intIssue h t o false (fun a b _ _ => { d := shlResult t a b }) s
def execShr (h : Hd) (t : IType) (o : Ops) (s : State) : Host.Outcome State Fault Refusal :=
  intIssue h t o false (fun a b _ _ => { d := shrResult t a b }) s
def execRot (h : Hd) (m : RotMod) (o : Ops) (s : State) : Host.Outcome State Fault Refusal :=
  intIssue h m.t o false (fun a b _ _ => { d := rotResult m a b }) s

/-- The counts are zero-extended whatever the signedness (R149). -/
def countType (t : IType) : IType := if t.is64 then .u64 else .u32

def execPopc (h : Hd) (t : IType) (o : Ops) (s : State) : Host.Outcome State Fault Refusal :=
  intIssue h (countType t) o false (fun a _ _ _ => { d := popcount a (iw t) }) s
def execClz (h : Hd) (t : IType) (o : Ops) (s : State) : Host.Outcome State Fault Refusal :=
  intIssue h (countType t) o false (fun a _ _ _ => { d := leadZeros a (iw t) }) s
def execBrev (h : Hd) (t : IType) (o : Ops) (s : State) : Host.Outcome State Fault Refusal :=
  intIssue h t o false (fun a _ _ _ => { d := bitReverse (iw t) a (iw t) }) s
def execBfe (h : Hd) (t : IType) (o : Ops) (s : State) : Host.Outcome State Fault Refusal :=
  intIssue h t o false (fun a b _ _ => { d := bfeResult t a b }) s
def execBfi (h : Hd) (t : IType) (o : Ops) (s : State) : Host.Outcome State Fault Refusal :=
  intIssue h t o false (fun a b c _ => { d := bfiResult t a b c }) s
def execSel (h : Hd) (t : IType) (o : Ops) (s : State) : Host.Outcome State Fault Refusal :=
  intIssue h t o false (fun a b _ pc => { d := if pc then a else b }) s
def execIsetp (h : Hd) (m : SetpMod) (o : Ops) (s : State) : Host.Outcome State Fault Refusal :=
  intIssue h m.t o false (fun a b _ pc => { d := 0, p := combine m.comb (icmp m.t m.cmp a b) pc }) s
def execLea (h : Hd) (m : LeaMod) (o : Ops) (s : State) : Host.Outcome State Fault Refusal :=
  intIssue h m.t o false (fun a b _ _ => { d := iwrap m.t (ival m.t a + ival m.t b * 2 ^ m.n.toNat) }) s
def execImul (h : Hd) (m : SatMod) (o : Ops) (s : State) : Host.Outcome State Fault Refusal :=
  intIssue h m.t o false (fun a b _ _ => { d := isat m.t m.sat (ival m.t a * ival m.t b) }) s
def execImulh (h : Hd) (t : IType) (o : Ops) (s : State) : Host.Outcome State Fault Refusal :=
  intIssue h t o false (fun a b _ _ => { d := iwrap t (ival t a * ival t b / 2 ^ iw t) }) s
def execImad (h : Hd) (t : IType) (o : Ops) (s : State) : Host.Outcome State Fault Refusal :=
  intIssue h t o false (fun a b c _ => { d := iwrap t (ival t a * ival t b + ival t c) }) s

/-! ## IMADW (R155) -/

/-- The first operand of a pair that runs past its file: s127, s63 in the tile stream, or a15 (log entry 5). -/
def pairPast (stream : Bool) (len : Nat) (o : Opd) : Option Nat :=
  match o with
  | .s n => if (if stream then 64 else 128) < n.toNat + len then some n.toNat else none
  | .a n => if 16 < n.toNat + len then some n.toNat else none
  | _ => none

/-- The OPND PAIR trap (R155, R197). -/
def pairTrap (act : Lanes) (start : Nat) : Trap := { cls := 4, sub := 5, mask := act, cw := BitVec.ofNat 64 start }

/-- A pair of 32-bit registers in a lane, or a wider source taken as a 64-bit pattern. -/
def Run.rdPair (r : Run) (wid : Nat) (o : Opd) (l : Nat) : Nat :=
  match o with
  | .imm8 n => (n.signExtend 64).toNat
  | .sp n => (r.special wid l n.toNat).toNat
  | o => (r.rdLane wid o 0 l).toNat + 2 ^ 32 * (r.rdLane wid o 1 l).toNat

/-- IMADW in its three shapes: 32-bit in the vector unit, 32-bit and 64-bit in the scalar unit. -/
def imadwEff (h : Hd) (t : IType) (o : Ops) (_ : Sys) (r : Run) (c : Iss) : Eff Unit :=
  let vec := Ops.vecUnit o
  let stream := (r.wave c.wid).stream
  let l0 := c.act.lowest
  let len := if vec || t.is64 then 2 else 1
  match pairPast stream len o.d, pairPast stream len o.c with
  | some n, _ => .trap r (pairTrap c.act n)
  | none, some n => .trap r (pairTrap c.act n)
  | none, none =>
    r.checked c [⟨0, o.d, len, true, false, none⟩, ⟨1, o.a, 1, false, h.fea, none⟩, ⟨2, o.b, 1, false, h.feb, none⟩,
                 ⟨3, o.c, len, false, h.fec, none⟩]
    (let full (a b x : Nat) : Nat := ((ival t a * ival t b + x) % 2 ^ (2 * iw t)).toNat
     if vec then
       let x := laneIds.map (fun l => full (r.rdLane c.wid o.a 0 l).toNat (r.rdLane c.wid o.b 0 l).toNat (r.rdPair c.wid o.c l))
       .ok (r.onWave c.wid (fun w =>
         (w.put o.d 0 c.act (fun l => BitVec.ofNat 32 (x.getD l 0))).put o.d 1 c.act (fun l => BitVec.ofNat 32 (x.getD l 0 / 2 ^ 32)))) ()
     else
       let sc (x : Opd) : Nat := (r.rdScalar c.wid x 0 l0).toNat % 2 ^ iw t
       let addend : Nat := match o.c with
         | .imm8 n => (n.signExtend 128).toNat
         | .s n => if t.is64 then (r.rdScalar c.wid (.s n) 0 l0).toNat + 2 ^ 64 * (r.rdScalar c.wid (.s n) 1 l0).toNat
                   else (r.rdScalar c.wid (.s n) 0 l0).toNat
         | x => (r.rdScalar c.wid x 0 l0).toNat
       let x := full (sc o.a) (sc o.b) addend
       .ok (r.onWave c.wid (fun w =>
         match o.d with
         | .s n =>
           let w := w.setS n.toNat (BitVec.ofNat 64 x)
           if t.is64 then w.setS (n.toNat + 1) (BitVec.ofNat 64 (x / 2 ^ 64)) else w
         | _ => w)) ())

def execImadw (h : Hd) (t : IType) (o : Ops) (s : State) : Host.Outcome State Fault Refusal :=
  issue s h { vec := Ops.vecUnit o } (imadwEff h t o)

end Sys2Proof.Machine
end

