-- ==== Sys2Proof/Machine/Resource.lean ====
section
/-! DEFINITION. RACQ and RREL (R122 to R127), CACQ and CREL (R391, R392). -/

namespace Sys2Proof.Machine

/-- An instruction whose effect is followed by a step of its block or core: the pool's grants, for example. -/
def issueThen (s : State) (h : Hd) (k : How) (eff : Sys → Run → Iss → Eff Unit) (post : Sys → Run → Nat → Run) :
    Host.Outcome State Fault Refusal :=
  match s.run.issuer h with
  | none => .fault .noIssuer
  | some c => .next { s with run := post s.sys (issueOn s.sys s.run c h k eff) c.wid }

/-- The pool of the wave's block after a request or a return. -/
def poolAfter (y : Sys) (r : Run) (wid : Nat) : Run := poolRun y r (r.wave wid).blk

/-! ## RACQ and RREL -/

/-- The checks of R123. -/
def countTrap (act : Lanes) (n : Nat) : Trap := { cls := 4, sub := 3, mask := act, cw := BitVec.ofNat 64 n }
def racqBad (w : Wave) (extend n : Nat) : Bool := n = 0 || n % 8 ≠ 0 || extend < n || 256 < w.valloc + n
def rrelBad (w : Wave) (n : Nat) : Bool := n = 0 || n % 8 ≠ 0 || w.acquired < n

/-- Whether the pool can grant a request at once: no request waits and the registers are free (R124, R125). -/
def Block.canGrant (b : Block) (n : Nat) : Bool := b.poolQueue.isEmpty && n ≤ b.poolFree

/-- A grant to the wave that asks. -/
def Run.grantNow (r : Run) (wid n : Nat) : Run :=
  let b := (r.wave wid).blk
  (r.onBlock b (fun x => { x with poolFree := x.poolFree - n })).onWave wid (fun w => w.gain n)

/-- RACQ (R124). -/
def racqEff (o : Ops) (_ : Sys) (r : Run) (c : Iss) : Eff Unit :=
  let w := r.wave c.wid
  let n := r.rdCount c o.a
  if racqBad w (r.launchOf w).info.extend n then .trap r (countTrap c.act n)
  else if (r.blockOf w).canGrant n then .ok (r.grantNow c.wid n) ()
  else .park (r.onBlock w.blk (fun b => { b with poolQueue := b.poolQueue ++ [⟨some (c.wid, c.m), c.act, 0, n⟩] })) (.racq n)

def execRacq (h : Hd) (o : Ops) (s : State) : Host.Outcome State Fault Refusal :=
  issueThen s h { uses := usesOf h o, closer := true, switch := true } (racqEff o) poolAfter

/-- Write a truth value into a predicate D in each active lane. -/
def Run.putBool (r : Run) (c : Iss) (d : Opd) (x : Bool) : Run :=
  r.onWave c.wid (fun w => match d with | .p n => w.setP n.toNat c.act (fun _ => x) | _ => w)

/-- RACQ.try (R125). -/
def racqTryEff (o : Ops) (_ : Sys) (r : Run) (c : Iss) : Eff Unit :=
  let w := r.wave c.wid
  let n := r.rdCount c o.a
  if racqBad w (r.launchOf w).info.extend n then .trap r (countTrap c.act n)
  else if (r.blockOf w).canGrant n then .ok ((r.grantNow c.wid n).putBool c o.d true) ()
  else .ok (r.putBool c o.d false) ()

def execRacqTry (h : Hd) (o : Ops) (s : State) : Host.Outcome State Fault Refusal :=
  issue s h { uses := usesOf h o, closer := true } (racqTryEff o)

/-- RREL (R126): registers still owed hold it back. -/
def rrelEff (o : Ops) (_ : Sys) (r : Run) (c : Iss) : Eff Unit :=
  let w := r.wave c.wid
  let n := r.rdCount c o.a
  if rrelBad w n then .trap r (countTrap c.act n)
  else
    let owed := (w.vEmpty.filter (fun e => w.valloc - n ≤ e.1 && e.1 < w.valloc)).map (fun e => (⟨true, e.1, e.2⟩ : RegRef))
    if owed ≠ [] then .park r (.retry (.regs owed))
    else .ok ((r.onWave c.wid (fun w => w.lose n)).onBlock w.blk (fun b => { b with poolFree := b.poolFree + n })) ()

def execRrel (h : Hd) (o : Ops) (s : State) : Host.Outcome State Fault Refusal :=
  issueThen s h { uses := usesOf h o, closer := true } (rrelEff o) poolAfter

/-! ## Accumulator access of a wave -/

/-- TILE ACCTOKEN (R334, R392). -/
def accTrap (act : Lanes) (n : Nat) : Trap := { cls := 9, sub := 3, mask := act, cw := tileCw (0x40 + n) 0xFF 0 0 }

def accNum (o : Opd) : Nat := match o with | .c n => n.toNat | _ => 0

/-- Whether the issuing wave holds an accumulator's token. -/
def Run.holdsAcc (r : Run) (wid n : Nat) : Bool := (r.accTok (coreOf wid) n).holder == .wave wid

/-- CACQ (R392). -/
def cacqEff (o : Ops) (_ : Sys) (r : Run) (c : Iss) : Eff Unit :=
  let n := accNum o.a
  let core := coreOf c.wid
  let t := r.accTok core n
  if r.holdsAcc c.wid n then .trap r (accTrap c.act n)
  else if t.holder == .free && t.queue.isEmpty then .ok (accGive r core n (.wave c.wid)) ()
  else .park (r.onAccTok core n (fun t => { t with queue := t.queue ++ [{ who := .wave c.wid, lanes := c.m }] })) (.cacq n)

def execCacq (h : Hd) (o : Ops) (s : State) : Host.Outcome State Fault Refusal :=
  issue s h { closer := true } (cacqEff o)

/-- CACQ.try (R392). -/
def cacqTryEff (o : Ops) (_ : Sys) (r : Run) (c : Iss) : Eff Unit :=
  let n := accNum o.a
  let core := coreOf c.wid
  let t := r.accTok core n
  if r.holdsAcc c.wid n then .trap r (accTrap c.act n)
  else if t.holder == .free && t.queue.isEmpty then .ok ((accGive r core n (.wave c.wid)).putBool c o.d true) ()
  else .ok (r.putBool c o.d false) ()

def execCacqTry (h : Hd) (o : Ops) (s : State) : Host.Outcome State Fault Refusal :=
  issue s h { closer := true } (cacqTryEff o)

/-- The row operand: the low 6 bits (R391). -/
def Run.rowIndex (r : Run) (c : Iss) (o : Opd) : Nat := r.rdCount c o % 64

/-- CACQ.rd (R392): D is empty in each active lane until the row arrives. -/
def cacqRdEff (half : Bool) (o : Ops) (_ : Sys) (r : Run) (c : Iss) : Eff Unit :=
  let n := accNum o.a
  if !r.holdsAcc c.wid n then .trap r (accTrap c.act n) else
  let row := r.rowIndex c o.b
  let core := coreOf c.wid
  .ok (r.onWave c.wid (fun w =>
    (w.put o.d 0 c.act (fun l => r.accGet core n row (l + if half then 32 else 0))).owe (w.refs o.d 1 c.act) .local false c.act c.pc)) ()

def execCacqRd (h : Hd) (half : Bool) (o : Ops) (s : State) : Host.Outcome State Fault Refusal :=
  issue s h { uses := usesOf h o, closer := true } (cacqRdEff half o)

/-- CREL (R392): the row writes before it are in place. -/
def crelEff (o : Ops) (_ : Sys) (r : Run) (c : Iss) : Eff Unit :=
  let n := accNum o.a
  if !r.holdsAcc c.wid n then .trap r (accTrap c.act n) else .ok (accRelease r (coreOf c.wid) n) ()

def execCrel (h : Hd) (o : Ops) (s : State) : Host.Outcome State Fault Refusal :=
  issue s h { closer := true } (crelEff o)

/-- CREL.wr (R392). -/
def crelWrEff (half : Bool) (o : Ops) (_ : Sys) (r : Run) (c : Iss) : Eff Unit :=
  let n := accNum o.d
  if !r.holdsAcc c.wid n then .trap r (accTrap c.act n) else
  let row := r.rowIndex c o.b
  let xs := c.act.toList.map (fun l => (l, r.rdLane c.wid o.a 0 l))
  .ok (r.onCore (coreOf c.wid) (fun k => xs.foldl (fun k e => k.accSet n row (e.1 + if half then 32 else 0) e.2) k)) ()

def execCrelWr (h : Hd) (half : Bool) (o : Ops) (s : State) : Host.Outcome State Fault Refusal :=
  issue s h { uses := usesOf h o, closer := true } (crelWrEff half o)

end Sys2Proof.Machine
end

