-- ==== Sys2Proof/Machine/Float.lean ====
section
/-! DEFINITION. The floating-point pipe (R159, R168, R170 to R177) and the conversion instructions (R179 to R183):
one shared issue over the per-element functions of Flags.lean and Convert.lean. -/

namespace Sys2Proof.Machine

/-! ## Operands and control -/

/-- The pattern of a small integer in a format, exact (R40). -/
def Fmt.ofInt (f : Fmt) (z : Int) : Nat := (f.result .rne false (z < 0) false z.natAbs 0).1

/-- One pattern in both halves. -/
def bothHalves (p : Nat) : Nat := p + p * 2 ^ 16

/-- A source of the FP class in one lane, as 32 bits (R40, R159). -/
def Run.rdFp (r : Run) (wid : Nat) (t : FType) (o : Opd) (l : Nat) : Nat :=
  match o with
  | .imm8 n =>
    let p := (FType.fmt t).ofInt n.toInt
    if t = .f32 then p else bothHalves p
  | .imm24 n => if t = .f32 then n.toNat * 2 ^ 8 else bothHalves (n.toNat % 2 ^ 16)
  | o => (r.rdLane wid o 0 l).toNat

/-- What an instruction computes under: its rounding, the flush control of its type, and default NaN. -/
def fctl (w : Wave) (t : FType) (rm : Rm) : FCtl :=
  { rm := Rnd.of rm w.fpcr, ftz := if t = .f32 then w.fpcr.getLsbD 3 else w.fpcr.getLsbD 4, dn := w.fpcr.getLsbD 5 }

/-- The sign changes of MOD: the absolute value first (R50, R163). -/
def Fmt.signs (f : Fmt) (neg abs : Bool) (p : Nat) : Nat :=
  let p := if abs then p % f.signBit else p
  if neg then (if f.signBit ≤ p then p - f.signBit else p + f.signBit) else p

/-- Apply an operation to the elements of a lane (R158): the patterns and the OR of the flags. -/
def perElem (t : FType) (g : Nat → Nat → Nat → Nat × Nat) (a b c : Nat) : Nat × Nat :=
  if t = .f32 then g a b c else
  let (lo, fl) := g (a % 2 ^ 16) (b % 2 ^ 16) (c % 2 ^ 16)
  let (hi, fh) := g (a / 2 ^ 16) (b / 2 ^ 16) (c / 2 ^ 16)
  (lo + hi * 2 ^ 16, fl ||| fh)

/-! ## Exceptions (R165 to R168) -/

/-- The five flags whose traps %FPCR enables. -/
def fpEnables (w : Wave) : Nat := bits w.fpcr 8 5

/-- The sub-cause of the highest flag. -/
def fpxSub (fl : Nat) : Nat :=
  if fl.testBit 4 then 1 else if fl.testBit 3 then 2 else if fl.testBit 2 then 3 else if fl.testBit 1 then 4 else 5

/-- What a lane of an FP instruction gives: the lane, its result, the flags it raises, and its source A. -/
structure FpLane where
  lane : Nat
  d : Nat
  fl : Nat
  a : Word
  deriving DecidableEq, Repr

/-- The FPX trap of a set of lanes, if an enabled exception arose in any (R168, R197). -/
def fpxTrap (w : Wave) (xs : List FpLane) : Option Trap :=
  let en := fpEnables w
  let bad := xs.filter (fun x => (x.fl &&& en) ≠ 0)
  if bad = [] then none else
  some { cls := 6, sub := fpxSub (bad.foldl (fun n x => n ||| (x.fl &&& en)) 0)
         mask := lanesOf (bad.map (fun x => (x.lane, 0)))
         lw := bad.map (fun x => (x.lane, BitVec.ofNat 64 (x.fl % 32)))
         lv := bad.map (fun x => (x.lane, x.a)) }

/-- The result of a lane, 0 in the others. -/
def fpResult (xs : List FpLane) (l : Nat) : Nat := ((xs.find? (fun x => x.lane == l)).map (·.d)).getD 0

/-- Add the flags of all lanes to %FPSR (R166). -/
def Wave.orFlags (w : Wave) (xs : List FpLane) : Wave :=
  { w with fpsr := w.fpsr ||| BitVec.ofNat 32 (xs.foldl (fun n x => n ||| x.fl) 0) }

/-- Write FP results: a scalar zero-extended, a predicate by its truth, else per active lane. -/
def Wave.putFp (w : Wave) (d : Opd) (act : Lanes) (xs : List FpLane) : Wave :=
  match d with
  | .s n => w.setS n.toNat (BitVec.ofNat 64 (fpResult xs act.lowest))
  | .p n => w.setP n.toNat act (fun l => fpResult xs l ≠ 0)
  | d => w.put d 0 act (fun l => BitVec.ofNat 32 (fpResult xs l))

/-- The effect of an FP instruction whose result in a lane is `f`: per active lane, or once in the scalar unit for
every active lane. -/
def fpEff (o : Ops) (a : Run → Iss → Nat → Word) (f : Run → Iss → Nat → Nat × Nat) (_ : Sys) (r : Run) (c : Iss) : Eff Unit :=
  let xs : List FpLane :=
    if Ops.vecUnit o then c.act.toList.map (fun l => let x := f r c l; ⟨l, x.1, x.2, a r c l⟩)
    else
      let x := f r c c.act.lowest
      let v := a r c c.act.lowest
      c.act.toList.map (fun l => ⟨l, x.1, x.2, v⟩)
  match fpxTrap (r.wave c.wid) xs with
  | some t => .trap r t
  | none => .ok (r.onWave c.wid (fun w => (w.putFp o.d c.act xs).orFlags xs)) ()

/-- The effect of an FP instruction of MOD's type over the elements of A, B and C after their sign changes, saturated
where MOD says so (R163). -/
def fpOpEff (m : FpMod) (o : Ops) (g : FCtl → Nat → Nat → Nat → Nat × Nat) : Sys → Run → Iss → Eff Unit :=
  let f := FType.fmt m.t
  fpEff o
    (fun r c l => BitVec.ofNat 32 (r.rdFp c.wid m.t o.a l))
    (fun r c l =>
      let k := fctl (r.wave c.wid) m.t m.rm
      perElem m.t (fun a b x =>
        let (p, fl) := g k (f.signs m.negA m.absA a) (f.signs m.negB m.absB b) (f.signs m.negC false x)
        (if m.sat then f.sat01 p else p, fl))
      (r.rdFp c.wid m.t o.a l) (r.rdFp c.wid m.t o.b l) (r.rdFp c.wid m.t o.c l))

/-- R168: while an exception is enabled, the wave issues nothing until the instruction has completed. -/
def Run.fpWait (r : Run) (c : Iss) (h : Hd) (lat : Nat) : Run :=
  if fpEnables (r.wave c.wid) = 0 ∨ (r.wave c.wid).stream then r
  else r.onWave c.wid (fun w => { w with stall := r.clk + 1 + max h.stall.toNat (lat - 1) })

/-- The issue of an FP instruction of a latency. -/
def fpRun (h : Hd) (lat : Nat) (o : Ops) (s : State) (eff : Sys → Run → Iss → Eff Unit) : Host.Outcome State Fault Refusal :=
  issue s h { uses := usesOf h o, vec := Ops.vecUnit o } (fun y r c => (eff y r c).bind (fun r _ => .ok (r.fpWait c h lat) ()))

def fpIssue (h : Hd) (m : FpMod) (o : Ops) (g : FCtl → Nat → Nat → Nat → Nat × Nat) (s : State) (lat : Nat := 4) :
    Host.Outcome State Fault Refusal :=
  fpRun h lat o s (fpOpEff m o g)

/-! ## FALU (R171 to R175) -/

def execFadd (h : Hd) (m : FpMod) (o : Ops) (s : State) : Host.Outcome State Fault Refusal :=
  fpIssue h m o (fun k a b _ => (FType.fmt m.t).add k a b) s

/-- FSUB: a NaN B keeps the sign MOD gives it; the subtraction itself negates only a number (R162). -/
def Fmt.sub (f : Fmt) (k : FCtl) (a b : Nat) : Nat × Nat :=
  if (f.decode k.ftz b).isNan then f.add k a b else f.add k a (f.signs true false b)

def execFsub (h : Hd) (m : FpMod) (o : Ops) (s : State) : Host.Outcome State Fault Refusal :=
  fpIssue h m o (fun k a b _ => (FType.fmt m.t).sub k a b) s
def execFmul (h : Hd) (m : FpMod) (o : Ops) (s : State) : Host.Outcome State Fault Refusal :=
  fpIssue h m o (fun k a b _ => (FType.fmt m.t).mul k a b) s
def execFfma (h : Hd) (m : FpMod) (o : Ops) (s : State) : Host.Outcome State Fault Refusal :=
  fpIssue h m o (fun k a b c => (FType.fmt m.t).fma k a b c) s
def execFmin (h : Hd) (m : FpMod) (o : Ops) (s : State) : Host.Outcome State Fault Refusal :=
  fpIssue h m o (fun k a b _ => (FType.fmt m.t).minmax k false a b) s
def execFmax (h : Hd) (m : FpMod) (o : Ops) (s : State) : Host.Outcome State Fault Refusal :=
  fpIssue h m o (fun k a b _ => (FType.fmt m.t).minmax k true a b) s

/-- FSETP (R173): compare, then combine with C; in the scalar unit C is read in the lowest active lane. -/
def execFsetp (h : Hd) (m : FsetpMod) (o : Ops) (s : State) : Host.Outcome State Fault Refusal :=
  fpRun h 4 o s (fpEff o
    (fun r c l => BitVec.ofNat 32 (r.rdFp c.wid .f32 o.a l))
    (fun r c l =>
      let (x, fl) := fmt32.cmp (fctl (r.wave c.wid) .f32 .dyn) m.cmp
        (fmt32.signs m.negA m.absA (r.rdFp c.wid .f32 o.a l)) (fmt32.signs m.negB m.absB (r.rdFp c.wid .f32 o.b l))
      (if combine m.comb x (predAt (r.wave c.wid) o.c l) then 1 else 0, fl)))

/-- FCLASS (R174). -/
def execFclass (h : Hd) (o : Ops) (s : State) : Host.Outcome State Fault Refusal :=
  fpRun h 4 o s (fpEff o
    (fun r c l => BitVec.ofNat 32 (r.rdFp c.wid .f32 o.a l))
    (fun r c l =>
      let k := fmt32.classMask (r.rdFp c.wid .f32 o.a l)
      (match o.d with
       | .p _ => k &&& (r.rdLane c.wid o.b 0 l).toNat
       | _ => k, 0)))

/-- FSCALE (R175): B is a signed integer. -/
def execFscale (h : Hd) (m : FpMod) (o : Ops) (s : State) : Host.Outcome State Fault Refusal :=
  let f := FType.fmt m.t
  fpRun h 4 o s (fpEff o
    (fun r c l => BitVec.ofNat 32 (r.rdFp c.wid m.t o.a l))
    (fun r c l =>
      let k := fctl (r.wave c.wid) m.t m.rm
      let n := (r.rdLane c.wid o.b 0 l).toInt
      perElem m.t (fun a _ _ =>
        let (p, fl) := f.scale k (f.signs m.negA m.absA a) n
        (if m.sat then f.sat01 p else p, fl)) (r.rdFp c.wid m.t o.a l) 0 0))

/-! ## FSFU (R176, R177) -/

/-- The result of a special function other than FSQRT. -/
def sfuOp (fn : Sfu) (t : FType) (k : FCtl) (a _ _ : Nat) : Nat × Nat := (FType.fmt t).special k (fun k x => fn.fp32 k x) a

def sfuIssue (fn : Sfu) (h : Hd) (m : FpMod) (o : Ops) (s : State) : Host.Outcome State Fault Refusal :=
  fpIssue h m o (sfuOp fn m.t) s 12

def execFrcp (h : Hd) (m : FpMod) (o : Ops) (s : State) : Host.Outcome State Fault Refusal := sfuIssue .rcp h m o s
def execFrsq (h : Hd) (m : FpMod) (o : Ops) (s : State) : Host.Outcome State Fault Refusal := sfuIssue .rsq h m o s
/-- FSQRT rounds as its field says; of packed types the conversion is under RNE. -/
def execFsqrt (h : Hd) (m : FpMod) (o : Ops) (s : State) : Host.Outcome State Fault Refusal :=
  fpIssue h m o (fun k a _ _ => (FType.fmt m.t).special k (fun k x => fmt32.sqrt k x) a) s 12
def execFexp2 (h : Hd) (m : FpMod) (o : Ops) (s : State) : Host.Outcome State Fault Refusal := sfuIssue .exp2 h m o s
def execFlog2 (h : Hd) (m : FpMod) (o : Ops) (s : State) : Host.Outcome State Fault Refusal := sfuIssue .log2 h m o s
def execFsin (h : Hd) (m : FpMod) (o : Ops) (s : State) : Host.Outcome State Fault Refusal := sfuIssue .sin h m o s
def execFcos (h : Hd) (m : FpMod) (o : Ops) (s : State) : Host.Outcome State Fault Refusal := sfuIssue .cos h m o s
def execFtanh (h : Hd) (m : FpMod) (o : Ops) (s : State) : Host.Outcome State Fault Refusal := sfuIssue .tanh h m o s

/-! ## Conversions (R179 to R183) -/

/-- CVT (R180): FTZ acts on float results only. -/
def execCvt (h : Hd) (m : CvtMod) (o : Ops) (s : State) : Host.Outcome State Fault Refusal :=
  fpRun h 4 o s (fpEff o
    (fun r c l => r.rdLane c.wid o.a 0 l)
    (fun r c l =>
      let w := r.wave c.wid
      let ftz := if m.dst = .fp32 then w.fpcr.getLsbD 3 else w.fpcr.getLsbD 4
      convert m.dst m.src (Rnd.of m.rm w.fpcr) m.sat ftz (w.fpcr.getLsbD 5) (r.rdLane c.wid o.a 0 l).toNat))

/-- PACK (R181): two conversions, from FP32 or INT32, placed in halves of D. -/
def packLane (w : Wave) (m : PackMod) (d a b : Nat) : Nat × Nat :=
  let float := m.ty = .fp16 || m.ty = .bf16 || m.ty = .e4m3 || m.ty = .e5m2
  let src : ElemTy := if float then .fp32 else .int32
  let cv (x : Nat) : Nat × Nat := convert m.ty src (Rnd.of m.rm w.fpcr) m.sat (w.fpcr.getLsbD 4) (w.fpcr.getLsbD 5) x
  let (x, fx) := cv a
  let (z, fz) := cv b
  if m.ty = .fp16 ∨ m.ty = .bf16 ∨ m.ty = .int16 then (x % 2 ^ 16 + z % 2 ^ 16 * 2 ^ 16, fx ||| fz)
  else
    let pr := x % 2 ^ 8 + z % 2 ^ 8 * 2 ^ 8
    (if m.hi then d % 2 ^ 16 + pr * 2 ^ 16 else d / 2 ^ 16 * 2 ^ 16 + pr, fx ||| fz)

def execPack (h : Hd) (m : PackMod) (o : Ops) (s : State) : Host.Outcome State Fault Refusal :=
  fpRun h 4 o s (fpEff o
    (fun r c l => r.rdLane c.wid o.a 0 l)
    (fun r c l => packLane (r.wave c.wid) m (r.rdLane c.wid o.d 0 l).toNat (r.rdLane c.wid o.a 0 l).toNat
      (r.rdLane c.wid o.b 0 l).toNat))

/-- UNPK (R182). -/
def execUnpk (h : Hd) (m : UnpkMod) (o : Ops) (s : State) : Host.Outcome State Fault Refusal :=
  fpRun h 4 o s (fpEff o
    (fun r c l => r.rdLane c.wid o.a 0 l)
    (fun r c l => (unpack m.ty ((r.rdLane c.wid o.a 0 l).toNat / 2 ^ (m.n.toNat * m.ty.width) % 2 ^ m.ty.width), 0)))

/-- The source of FRND: an 8-bit immediate of a packed type stands in both elements (R158), sign-extended to their 16 bits and not
converted, since the MOD is not the FP class MOD of R40 (log entry 102). -/
def Run.frndSource (r : Run) (c : Iss) (t : FType) (a : Opd) (l : Nat) : Word :=
  match t, a with
  | .f32, a => r.rdLane c.wid a 0 l
  | _, .imm8 n => n.signExtend 16 ++ n.signExtend 16
  | _, a => r.rdLane c.wid a 0 l

/-- FRND (R183): no flag but IV of a signalling NaN. -/
def execFrnd (h : Hd) (m : FrndMod) (o : Ops) (s : State) : Host.Outcome State Fault Refusal :=
  fpRun h 4 o s (fpEff o
    (fun r c l => r.frndSource c m.t o.a l)
    (fun r c l =>
      let k := fctl (r.wave c.wid) m.t m.rm
      perElem m.t (fun a _ _ => (FType.fmt m.t).toIntegral k a) (r.frndSource c m.t o.a l).toNat 0 0))

end Sys2Proof.Machine
end

