-- ==== Sys2Proof/Machine/Xlane.lean ====
section
/-! DEFINITION. The cross-lane instructions (R110 to R116) and the fused softmax sequence (R184 to R186). -/

namespace Sys2Proof.Machine

/-! ## Sources across lanes (R110) -/

/-- Lanes whose source cannot be told: those of other parts, and those whose index is outside the window. -/
def Wave.unsure (w : Wave) (m : Lanes) (o : Opd) : Lanes :=
  w.foreign m ||| Lanes.ofTest (fun l => match o with
    | .rel _ _ => w.vIdx o l < 0 || (w.valloc : Int) ≤ w.vIdx o l
    | _ => false)

/-- A source of every lane; a lane that cannot be told reads an open value. -/
def Run.crossRow (r : Run) (c : Iss) (o : Opd) : Row :=
  let u := (r.wave c.wid).unsure c.m o
  laneIds.map (fun l => if u.getLsbD l then r.openWord c.wid o 0 l else r.rdLane c.wid o 0 l)

/-- Use up the open values a cross-lane read may have taken. -/
def Run.crossDone (r : Run) (c : Iss) (o : Opd) : Run :=
  if (r.wave c.wid).unsure c.m o = 0 then r else { r with fresh := r.fresh + 32 }

/-- The use of a source read in a set of lanes. -/
def crossUse (w : Wave) (m : Lanes) (pos : Nat) (o : Opd) (fe : Bool) (lanes : Lanes) : Use :=
  ⟨pos, o, 1, false, fe, some (lanes &&& ~~~w.unsure m o)⟩

/-- Uses in the order D, A, B, C (R49, R128). -/
def inOrder (us : List Use) : List Use := [0, 1, 2, 3].flatMap (fun p => us.filter (fun u => u.pos = p))

/-- Checks of a cross-lane instruction: operand indices in the active lanes, then full and empty. -/
def Run.checkedCross (r : Run) (c : Iss) (us cross : List Use) (k : Eff Unit) : Eff Unit :=
  let w := r.wave c.wid
  match opndCheck w c.act (inOrder (us ++ cross.map (fun (u : Use) => { u with lanes := none }))) with
  | some t => .trap r t
  | none =>
    match feCheck w c.act (inOrder (us ++ cross)) with
    | .trap t => .trap r t
    | .wait rs => .park r (.retry (.regs rs))
    | .ok => k

/-! ## SHFL (R112) -/

/-- The lane SHFL reads for lane `l`. -/
def shflSource (m : ShflMod) (x : Int) (l : Nat) : Nat :=
  let s : Int := match m.mode with
    | .idx => x % 32
    | .up => l - x
    | .down => l + x
    | .xor => ((BitVec.ofNat 32 l ^^^ BitVec.ofInt 32 x).toNat % 32 : Nat)
  if 0 ≤ s ∧ s < 32 then s.toNat else l

def shflEff (h : Hd) (m : ShflMod) (o : Ops) (_ : Sys) (r : Run) (c : Iss) : Eff Unit :=
  let w := r.wave c.wid
  let src := laneIds.map (fun l => shflSource m (if m.f = 0 then (r.rdLane c.wid o.b 0 l).toInt else 32 / 2 ^ m.f.toNat) l)
  let read := Lanes.ofTest (fun s => c.act.toList.any (fun l => src.getD l 0 == s))
  r.checkedCross c [⟨0, o.d, 1, true, false, none⟩, ⟨2, o.b, 1, false, h.feb, none⟩] [crossUse w c.m 1 o.a h.fea read]
  (let a := r.crossRow c o.a
   .ok ((r.onWave c.wid (fun w => w.put o.d 0 c.act (fun l => rowAt a (src.getD l 0)))).crossDone c o.a) ())

def execShfl (h : Hd) (m : ShflMod) (o : Ops) (s : State) : Host.Outcome State Fault Refusal :=
  issue s h { vec := true } (shflEff h m o)

/-! ## VRED and VSCAN (R113, R114) -/

/-- The identity of an operation. -/
def redIdentity (t : RType) (op : ROp) : Nat :=
  match op, t with
  | .add, .f32 => fmt32.signBit
  | .add, _ => 0
  | .min, .s32 => 0x7FFFFFFF
  | .min, .u32 => 0xFFFFFFFF
  | .min, .f32 => fmt32.inf
  | .max, .s32 => 0x80000000
  | .max, .u32 => 0
  | .max, .f32 => fmt32.signBit + fmt32.inf
  | .and, _ => 0xFFFFFFFF
  | .or, _ => 0
  | .xor, _ => 0

/-- One node: a value and the flags its result depends on. FP nodes round to nearest even. -/
def redNode (k : FCtl) (t : RType) (op : ROp) (x z : Nat × Nat) : Nat × Nat :=
  let ty : IType := if t = RType.s32 then IType.s32 else IType.u32
  let (v, fl) : Nat × Nat := match op, t with
    | .add, .f32 => fmt32.add k x.1 z.1
    | .min, .f32 => fmt32.minmax k false x.1 z.1
    | .max, .f32 => fmt32.minmax k true x.1 z.1
    | .add, _ => ((x.1 + z.1) % 2 ^ 32, 0)
    | .min, _ => (if ival ty z.1 < ival ty x.1 then z.1 else x.1, 0)
    | .max, _ => (if ival ty x.1 < ival ty z.1 then z.1 else x.1, 0)
    | .and, _ => (x.1 &&& z.1, 0)
    | .or, _ => (x.1 ||| z.1, 0)
    | .xor, _ => (x.1 ^^^ z.1, 0)
  (v, x.2 ||| z.2 ||| fl)

/-- The reduction over its steps. -/
def redTree (op : Nat × Nat → Nat × Nat → Nat × Nat) : List Nat → List (Nat × Nat) → List (Nat × Nat)
  | [], w => w
  | k :: ks, w =>
    redTree op ks (laneIds.map (fun l =>
      let p := l ^^^ (32 / 2 ^ k)
      op (w.getD (min l p) (0, 0)) (w.getD (max l p) (0, 0))))

/-- The prefix: for each active lane its result, and the flags of every node of lanes 0 to l. -/
def scanGo (op : Nat × Nat → Nat × Nat → Nat × Nat) (excl : Bool) : List (Nat × Nat) → Nat × Nat → List (Nat × Nat × Nat)
  | [], _ => []
  | (l, x) :: t, acc =>
    let n := op acc (x, 0)
    (l, (if excl then acc.1 else n.1), n.2) :: scanGo op excl t n

/-- Control of VRED and VSCAN: RNE, with FTZ32 and DN of %FPCR. -/
def redCtl (w : Wave) : FCtl := { rm := .rne, ftz := w.fpcr.getLsbD 3, dn := w.fpcr.getLsbD 5 }

/-- Write the results of VRED or VSCAN, owed until they arrive where `owe` says so; an enabled exception traps. -/
def redFinish (t : RType) (o : Ops) (owe : Bool) (r : Run) (c : Iss) (xs : List FpLane) : Eff Unit :=
  match fpxTrap (r.wave c.wid) xs with
  | some tr => .trap r tr
  | none =>
    .ok (r.onWave c.wid (fun w =>
      let w := match o.d with
        | .s n => w.setS n.toNat (if t = RType.s32 then (BitVec.ofNat 32 (fpResult xs c.act.lowest)).signExtend 64
                                  else BitVec.ofNat 64 (fpResult xs c.act.lowest))
        | d => w.put d 0 c.act (fun l => BitVec.ofNat 32 (fpResult xs l))
      let w := w.orFlags xs
      if owe then w.owe (w.refs o.d 1 c.act) .xlane false c.act c.pc else w)) ()

def vredEff (owe : Bool) (m : VredMod) (o : Ops) (_ : Sys) (r : Run) (c : Iss) : Eff Unit :=
  let k := redCtl (r.wave c.wid)
  let a := laneIds.map (fun l => r.rdLane c.wid o.a 0 l)
  let w0 := laneIds.map (fun l => (if c.act.getLsbD l then (rowAt a l).toNat else redIdentity m.t m.op, 0))
  let out := redTree (redNode k m.t m.op) (if m.step = 0 then [5, 4, 3, 2, 1] else [m.step.toNat]) w0
  let at_ (l : Nat) : Nat × Nat := if o.d.isS then out.getD 0 (0, 0) else out.getD l (0, 0)
  redFinish m.t o owe r c (c.act.toList.map (fun l => (⟨l, (at_ l).1, (at_ l).2, rowAt a l⟩ : FpLane)))

def execVred (h : Hd) (m : VredMod) (o : Ops) (s : State) : Host.Outcome State Fault Refusal :=
  issue s h { uses := usesOf h o, vec := true } (vredEff true m o)

def vscanEff (m : VscanMod) (o : Ops) (_ : Sys) (r : Run) (c : Iss) : Eff Unit :=
  let k := redCtl (r.wave c.wid)
  let xs := scanGo (redNode k m.t m.op) m.excl (c.act.toList.map (fun l => (l, (r.rdLane c.wid o.a 0 l).toNat))) (redIdentity m.t m.op, 0)
  redFinish m.t o true r c (xs.map (fun (x : Nat × Nat × Nat) => (⟨x.1, x.2.1, x.2.2, r.rdLane c.wid o.a 0 x.1⟩ : FpLane)))

def execVscan (h : Hd) (m : VscanMod) (o : Ops) (s : State) : Host.Outcome State Fault Refusal :=
  issue s h { uses := usesOf h o, vec := true } (vscanEff m o)

/-! ## VOTE, VBAL and VFIRST (R115) -/

/-- The active lanes in which predicate A is true. -/
def Run.trueLanes (r : Run) (c : Iss) (o : Opd) : Lanes :=
  match o with
  | .p n => c.act &&& (r.wave c.wid).pSee n.toNat
  | _ => 0

/-- Write a result to a scalar, or to each active lane of a predicate or a vector. -/
def Run.putVote (r : Run) (c : Iss) (d : Opd) (x : Word64) (f : Nat → Bool) : Run :=
  r.onWave c.wid (fun w => match d with
    | .s n => w.setS n.toNat x
    | .p n => w.setP n.toNat c.act f
    | d => w.put d 0 c.act (fun _ => x.setWidth 32))

def execVote (h : Hd) (m : VoteMode) (o : Ops) (s : State) : Host.Outcome State Fault Refusal :=
  issue s h { uses := usesOf h o, vec := true } (fun _ r c =>
    let t := r.trueLanes c o.a
    let x := match m with
      | .all => t == c.act
      | .any => t ≠ 0
      | .uni => t == c.act || t == 0
    .ok (r.putVote c o.d (if x then 1 else 0) (fun _ => x)) ())

def execVbal (h : Hd) (o : Ops) (s : State) : Host.Outcome State Fault Refusal :=
  issue s h { uses := usesOf h o, vec := true } (fun _ r c =>
    .ok (r.putVote c o.d ((r.trueLanes c o.a).setWidth 64) (fun _ => false)) ())

def execVfirst (h : Hd) (o : Ops) (s : State) : Host.Outcome State Fault Refusal :=
  issue s h { uses := usesOf h o, vec := true } (fun _ r c =>
    let i := (r.trueLanes c o.a).lowest
    .ok (r.putVote c o.d (if i < 32 then BitVec.ofNat 64 i else BitVec.ofInt 64 (-1)) (fun l => l == i)) ())

/-! ## VCOMP and VEXP (R116) -/

/-- The lanes a pack or an expansion may write: those whose index lies in the window. -/
def Wave.writable (w : Wave) (o : Opd) (m : Lanes) : Lanes :=
  match o with
  | .rel _ _ => m &&& ~~~w.unsure 0xFFFFFFFF#32 o
  | _ => m

/-- Write a row of results over a set of lanes, with a count where C is a scalar; both are owed. -/
def packFinish (r : Run) (c : Iss) (o : Ops) (lanes : Lanes) (x : Row) (n : Nat) : Eff Unit :=
  .ok ((r.onWave c.wid (fun w =>
    let lanes := w.writable o.d lanes
    let w := w.put o.d 0 lanes (rowAt x)
    let (w, cs) : Wave × List RegRef := match o.c with
      | .s k => (w.setS k.toNat (BitVec.ofNat 64 n), [⟨false, k.toNat, 0xFFFFFFFF#32⟩])
      | _ => (w, [])
    w.owe (w.refs o.d 1 lanes ++ cs) .xlane false c.act c.pc)).crossDone c o.a) ()

def vcompEff (h : Hd) (z : Bool) (o : Ops) (_ : Sys) (r : Run) (c : Iss) : Eff Unit :=
  let w := r.wave c.wid
  let sel := r.trueLanes c o.b
  let n := sel.count
  let lanes := if z then 0xFFFFFFFF#32 else Lanes.ofTest (fun l => l < n)
  r.checkedCross c [⟨3, o.c, 1, true, false, none⟩]
    [⟨0, o.d, 1, true, false, some (w.writable o.d lanes)⟩, crossUse w c.m 1 o.a h.fea sel]
  (let a := r.crossRow c o.a
   let tmp := sel.toList.map (rowAt a)
   packFinish r c o lanes (laneIds.map (fun l => tmp.getD l 0)) n)

def execVcomp (h : Hd) (z : Bool) (o : Ops) (s : State) : Host.Outcome State Fault Refusal :=
  issue s h { whole := some 2, vec := true } (vcompEff h z o)

def vexpEff (h : Hd) (z : Bool) (o : Ops) (_ : Sys) (r : Run) (c : Iss) : Eff Unit :=
  let w := r.wave c.wid
  let sel := r.trueLanes c o.b
  let lanes := if z then 0xFFFFFFFF#32 else sel
  r.checkedCross c []
    [⟨0, o.d, 1, true, false, some (w.writable o.d lanes)⟩, crossUse w c.m 1 o.a h.fea (Lanes.ofTest (fun l => l < sel.count))]
  (let a := r.crossRow c o.a
   packFinish r c o lanes
     (laneIds.map (fun l => if sel.getLsbD l then rowAt a (sel.toList.idxOf l) else 0)) 0)

def execVexp (h : Hd) (z : Bool) (o : Ops) (s : State) : Host.Outcome State Fault Refusal :=
  issue s h { whole := some 2, vec := true } (vexpEff h z o)

/-! ## Softmax fusion (R184 to R186) -/

/-- Registers written at once: no earlier result in flight is read for them any more. -/
def Wave.landed (w : Wave) (rs : List RegRef) : Wave :=
  { w with young := w.young.filter (fun y => match y.old with
      | .v n _ => !rs.any (fun x => x.vec && x.n = n)
      | .s n _ => !rs.any (fun x => !x.vec && x.n = n)
      | _ => true) }

/-- One of the four instructions: its operand checks, then its effect, with the results in place at once. -/
def fuseStep (c : Iss) (pos : Nat) (d : Opd) (us : List Use) (eff : Sys → Run → Iss → Eff Unit) (y : Sys) (r : Run) : Eff Unit :=
  match checkUses (r.wave c.wid) c.act us with
  | .trap t => .trap r { t with fpos := pos }
  | .wait rs => .park r (.retry (.regs rs))
  | .ok =>
    match eff y r c with
    | .trap r t => .trap r { t with fpos := pos }
    | .ok r _ => .ok (r.onWave c.wid (fun w => w.landed (w.refs d 1 c.act))) ()
    | .park r p => .park r p

/-- The wave issues nothing until the result it owes next has arrived (R168). -/
def Wave.holdFor (w : Wave) (id : Nat) : Wave :=
  { w with pend := w.pend.map (fun p => if p.id = id then { p with hold := true } else p) }

/-- The fused sequence: all four happen, or a trap or a wait leaves everything as before the first. The later three read what
the earlier ones wrote. While an exception is enabled the wave waits for its end (R168). -/
def fuseEff (x : FuseArgs) (y : Sys) (r0 : Run) (c : Iss) : Eff Unit :=
  let second := fpOpEff x.m2 x.o2 (fun k a b z => if x.ffma then (FType.fmt x.m2.t).fma k a b z else (FType.fmt x.m2.t).sub k a b)
  let e := (fuseStep c 1 x.o1.d (usesOf x.h1 x.o1) (vredEff false x.m1 x.o1) y r0).bind fun r _ =>
    (fuseStep c 2 x.o2.d (usesOf x.h2 x.o2) second y r).bind fun r _ =>
    (fuseStep c 3 x.o3.d (usesOf x.h3 x.o3) (fpOpEff x.m3 x.o3 (sfuOp .exp2 x.m3.t)) y r).bind fun r _ =>
    fuseStep c 4 x.o4.d (usesOf x.h4 x.o4) (vredEff false x.m4 x.o4) y r
  match e with
  | .ok r _ =>
    .ok (r.onWave c.wid (fun w =>
      let rs := [x.o1.d, x.o2.d, x.o3.d, x.o4.d].flatMap (fun d => w.refs d 1 c.act)
      let v := ((w.owe rs .xlane false c.act c.pc).advance c.m).advance c.m |>.advance c.m
      if fpEnables w = 0 then v else v.holdFor w.pendNext)) ()
  | .trap _ t => .trap r0 t
  | .park _ p => .park r0 p

def execSoftmaxFusion (x : FuseArgs) (s : State) : Host.Outcome State Fault Refusal :=
  issue s x.h1 { vec := true } (fuseEff x)

end Sys2Proof.Machine
end

