-- ==== Sys2Proof/Machine/Global.lean ====
section
/-! DEFINITION. Global loads and stores, sealing, cache and TLB maintenance, and FENCE (R241 to R260, R301 to R314,
R417, R506, R507). Memory of this device is performed at issue; what leaves the device goes to `out`. -/

namespace Sys2Proof.Machine

def Size.bytes : Size → Nat | .b8 => 1 | .b16 => 2 | .b32 => 4 | .b64 => 8 | .b128 => 16
/-- Registers of a data group. -/
def Size.regs : Size → Nat | .b64 => 2 | .b128 => 4 | _ => 1
/-- Registers an operand of a size names: a scalar holds 64 bits by itself. -/
def groupLen (o : Opd) (z : Size) : Nat := match o with | .s _ => 1 | _ => Size.regs z

/-- The context of a wave. -/
def Run.cidOf (r : Run) (wid : Nat) : Nat := (r.block (r.wave wid).blk).ctx

/-! ## What holds an access back -/

/-- R303: a memory access waits for acquires still to deliver. -/
def Wave.acquirePending (w : Wave) : Bool := w.pend.any (fun (p : Pend) => p.acq)

/-- The class word of a MEM trap for a far access that another device refused or that expired (R244, R508): the detail code of the
access for PERM and NOMAP, else 0. -/
def farDetail (y : Sys) (r : Run) (wid sub va : Nat) (write priv : Bool) : Nat :=
  let k : Want := { write := write, priv := priv }
  if 0x12 ≤ sub ∧ sub ≤ 0x15 then detailCode (finalErr y r (r.cidOf wid) va k) k else 0

/-- The trap of a marked wave at its .sys release or fence (R308, R313, R508), which leaves the mark behind it. -/
def markTrap (y : Sys) (r : Run) (wid : Nat) (act : Lanes) : Option Trap :=
  (r.wave wid).marked.map (fun e => memTrap e.1 (act.toList.map (fun l => (l, e.2.1))) (farDetail y r wid e.1 e.2.1 true e.2.2))

/-- Run an access after the acquires, and a release after the accesses before it (R302, R303). -/
def ordered (rel sys : Bool) (k : Sys → Run → Iss → Eff Unit) (y : Sys) (r : Run) (c : Iss) : Eff Unit :=
  let w := r.wave c.wid
  if w.acquirePending then .park r (.retry .acquire)
  else if rel && w.unperformed then .park r (.retry (.release sys))
  else match (if rel && sys then markTrap y r c.wid c.act else none) with
    | some t => .trap (r.onWave c.wid (fun w => { w with marked := none })) t
    | none => k y r c

/-- The order field as release and acquire. -/
def Order.isRel : Order → Bool | .rel => true | .ar => true | _ => false
def Order.isAcq : Order → Bool | .acq => true | .ar => true | _ => false

/-! ## Addresses and checks -/

/-- The address of a lane (R252). -/
def Run.gaddr (r : Run) (c : Iss) (o : Ops) (m : LdMod) (l : Nat) : Nat :=
  (r.rdScalar c.wid o.a 0 l + BitVec.ofInt 64 ((r.rdLane c.wid o.b 0 l).toInt * 2 ^ m.scale.toNat) + o.x.signExtend 64).toNat

/-- (lane, address) for the active lanes; a scalar-unit access gives every lane the one address. -/
def Run.gaddrs (r : Run) (c : Iss) (o : Ops) (m : LdMod) : List (Nat × Nat) := c.act.toList.map (fun l => (l, r.gaddr c o m l))

/-- Checks 3 to 7 of R247; `ctrl` for an access that a control aperture refuses (R507). -/
def globalChecks (y : Sys) (r : Run) (c : Iss) (xs : List (Nat × Nat)) (size : Nat) (rd wr ctrl : Bool) : Eff (List (Nat × Xlat)) :=
  let w := r.wave c.wid
  let b := r.block w.blk
  match issueChecks w b (r.ctx b.ctx) xs size rd wr with
  | some t => .trap r t
  | none => preTranslate y r (coreOf c.wid) (slotOf c.wid) b.ctx { write := wr, priv := w.priv } ctrl c.pc xs

/-- The aperture entry of a host address of the wave's partition. -/
def Run.aperOf (r : Run) (wid pa : Nat) : Word64 := r.aper (r.ctx (r.cidOf wid)).part pa

/-- R312: a line of another device with an unacknowledged data-class write of this wave. -/
def Run.lineBusy (r : Run) (wid : Nat) (ts : List (Nat × Xlat)) : Option Nat :=
  let p := r.partOf wid
  ts.findSome? (fun t => if isAper t.2.pa && (r.wave wid).remote.any (fun a => a.msg.isNone && r.farLine p a.pa == r.farLine p t.2.pa) then
    some (r.farLine p t.2.pa) else none)

/-- Wait for the commit token with the translations found, or take it where it is free (R247, R418). -/
def takeToken (r : Run) (c : Iss) (ts : List (Nat × Xlat)) (k : Run → Eff Unit) : Eff Unit :=
  let core := coreOf c.wid
  match (r.core core).ctok with
  | some h =>
    if h = c.wid ∧ (r.core core).ctokPass = none then k r
    else .park (r.onCore core (fun x => { x with ctokWait := if x.ctokWait.contains c.wid then x.ctokWait else x.ctokWait ++ [c.wid] })) (.retry (.token ts))
  | none => k (r.onCore core (fun x => { x with ctok := some c.wid }))

/-- Whether every byte of an access lies in the write tiles of the active ticket, whose grants order it (R417). -/
def Wave.inWriteTiles (w : Wave) (xs : List (Nat × Nat)) (size : Nat) : Bool :=
  match w.activeTiles with
  | none => false
  | some ts => xs.all (fun e => declared ts true e.2 size)

/-- Check 8 of R247 and R417: the gate of the commit token, which the write tiles of an active ticket open. -/
def gate (r : Run) (c : Iss) (need free : Bool) (ts : List (Nat × Xlat)) (k : Run → Eff Unit) : Eff Unit :=
  if need && r.det (r.wave c.wid) && !free then takeToken r c ts k else k r

/-- The translations that the issuing group kept while it waited for the commit token. -/
def Wave.tokenKept (w : Wave) (m : Lanes) : Option (List (Nat × Xlat)) :=
  match (w.partAt m).map (fun p : Part => p.park) with
  | some (.retry (.token ts)) => some ts
  | _ => none

/-- The checks of an access that the token may have held back: it keeps its translations, or, where a TLBI has removed one,
translates anew (R247). -/
def gatedChecks (y : Sys) (r : Run) (c : Iss) (k : Want) (ctrl : Bool) (xs : List (Nat × Nat))
    (first : Eff (List (Nat × Xlat))) : Eff (List (Nat × Xlat)) :=
  match (r.wave c.wid).tokenKept c.m with
  | none => first
  | some [] => preTranslate y r (coreOf c.wid) (slotOf c.wid) (r.cidOf c.wid) k ctrl c.pc xs
  | some ts => .ok r ts

/-! ## Reading -/

/-- Fill a line of a core's read-only cache from memory, in the place of the oldest when it is full (R250). -/
def roFill (r : Run) (core pa : Nat) : Run :=
  let line := pa / 256
  r.onCore core (fun k =>
    { k with ro := Tbl.put (if 1024 ≤ k.ro.length && (k.ro.get? line).isNone then k.ro.drop 1 else k.ro) line (memBytes r.mem (line * 256) 256) })

/-- A read of LD with policy 11: of the line as it was filled, or of one that has left the cache and is filled anew, which is open
(R250). In DET mode, where the value may not turn on what the cache still holds (R421), it is always filled anew. -/
def roRead (r : Run) (core pa n : Nat) : Nat × Run :=
  match (r.core core).ro.get? (pa / 256), r.det (r.wave r.cur.wave) with
  | some bs, false =>
    let (x, r) := r.free
    if x.getLsbD 0 then (memRead r.mem pa n, roFill r core pa) else (ofLe ((bs.drop (pa % 256)).take n), r)
  | _, _ => (memRead r.mem pa n, roFill r core pa)

/-- What a load reads: memory; memory, filling the read-only cache (LDC); that cache (LD with policy 11). -/
inductive ReadVia where | memory | fill | cache
  deriving DecidableEq, Repr

/-- Extension of a value read (R252): to 32 bits, or to 64 for a scalar. -/
def extend (sx : Bool) (size width v : Nat) : Nat :=
  if sx && size * 8 < width && v.testBit (size * 8 - 1) then v + (2 ^ width - 2 ^ (size * 8)) else v

/-- Read every lane of this device's memory; a remote lane reads nothing yet. -/
def readLanes (r : Run) (core : Nat) (ro : ReadVia) (n : Nat) : List (Nat × Xlat) → Run × List (Nat × Nat)
  | [] => (r, [])
  | (l, x) :: t =>
    let (v, r) := if isAper x.pa then (0, r) else
      match ro with
      | .cache => roRead r core x.pa n
      | .fill => (memRead r.mem x.pa n, roFill r core x.pa)
      | .memory => (memRead r.mem x.pa n, r)
    let (r, vs) := readLanes r core ro n t
    (r, (l, v) :: vs)

/-- The value of a lane in a list. -/
def laneVal (vs : List (Nat × Nat)) (l : Nat) : Nat := ((vs.find? (fun e => e.1 == l)).map (·.2)).getD 0

/-- Write a data group from values per lane. -/
def Wave.putGroup (w : Wave) (o : Opd) (len : Nat) (act : Lanes) (v : Nat → Nat) : Wave :=
  match o with
  | .s n => w.setS n.toNat (BitVec.ofNat 64 (v act.lowest))
  | o => (List.range len).foldl (fun w i => w.put o i act (fun l => BitVec.ofNat 32 (v l / 2 ^ (32 * i)))) w

/-- The value of a data group in a lane, low register first. -/
def Run.groupVal (r : Run) (wid : Nat) (o : Opd) (len : Nat) (l : Nat) : Nat :=
  match o with
  | .s n => ((r.wave wid).sSee n.toNat).toNat
  | o => (List.range len).foldl (fun v i => v + (r.rdLane wid o i l).toNat * 2 ^ (32 * i)) 0

/-- The width a load extends to. -/
def loadWidth (o : Opd) (z : Size) : Nat := match o with | .s _ => 64 | _ => max 32 (8 * Size.bytes z)

/-- Remote lanes of an access that is sent in a cycle. -/
def remotes (ts : List (Nat × Xlat)) (clk : Nat) (priv : Bool) : List FarLane :=
  (ts.filter (fun t => isAper t.2.pa)).map (fun t => { lane := t.1, pa := t.2.pa, va := t.2.va, sent := clk, priv := priv })

/-- A wave has read bytes of this device's memory in some lanes, as an acquire of a scope or plainly (R302, R304). -/
def sawLanes (r : Run) (wid : Nat) (acq : Option Scope) (n : Nat) (ts : List (Nat × Xlat)) : Run :=
  ts.foldl (fun r t => if isAper t.2.pa then r else r.readRecent wid acq none t.2.pa n) r

/-- The lanes that an access acts for: each of its own, or the lowest for a whole scalar-unit access. -/
def actsFor (o : Ops) (ts : List (Nat × Xlat)) : List (Nat × Xlat) := if Ops.vecUnit o then ts else ts.take 1

/-- The reads of LD and LDC once every check has passed: local lanes are read now, remote ones requested, in ascending order, which is
the model's choice where no rule orders them (log entry 98); D is empty until the values arrive. -/
def loadPerform (m : LdMod) (ro : ReadVia) (o : Ops) (r : Run) (c : Iss) (all : List (Nat × Xlat)) : Eff Unit :=
  let ts := actsFor o all
  match r.lineBusy c.wid ts with
  | some l => .park r (.retry (.line l))
  | none =>
    let n := Size.bytes m.size
    let (r, vs) := readLanes r (coreOf c.wid) ro n ts
    let r := sawLanes r c.wid (if Order.isAcq m.ord then some m.scope else none) n ts
    let width := loadWidth o.d m.size
    let far := remotes ts r.clk (r.wave c.wid).priv
    let p := r.partOf c.wid
    let r := far.foldl (fun r e => let x := r.aper p e.pa
      r.dataOut p (dieOf (coreOf c.wid)) x (e.pa / 256) (.read (aperPeer x) (aperHost x) c.wid [(e.lane, e.pa % 2 ^ 40)])) r
    .ok (r.onWave c.wid (fun w =>
      let len := groupLen o.d m.size
      (w.putGroup o.d len c.act (fun l => extend m.sx n width (laneVal vs l))).owe (w.refs o.d len c.act)
        (if far = [] then .local else .load far) (Order.isAcq m.ord) c.act c.pc)) ()

/-- LD (R252). -/
def ldEff (m : LdMod) (o : Ops) (y : Sys) (r : Run) (c : Iss) : Eff Unit :=
  let xs := r.gaddrs c o m
  (globalChecks y r c xs (Size.bytes m.size) true false true).bind fun r ts =>
  loadPerform m (if m.pol = .ro then .cache else .memory) o r c ts

def loadUses (h : Hd) (m : LdMod) (o : Ops) : List Use :=
  [⟨0, o.d, groupLen o.d m.size, true, false, none⟩, ⟨1, o.a, 1, false, h.fea, none⟩, ⟨2, o.b, 1, false, h.feb, none⟩]

def execLd (h : Hd) (m : LdMod) (o : Ops) (s : State) : Host.Outcome State Fault Refusal :=
  issue s h { uses := loadUses h m o, mem := true } (ordered false false (ldEff m o))

/-- LDC (R254): memory that neither stage lets be written, or bytes of a sealed range. -/
def ldcEff (m : LdMod) (o : Ops) (y : Sys) (r : Run) (c : Iss) : Eff Unit :=
  let xs := r.gaddrs c o m
  (globalChecks y r c xs (Size.bytes m.size) true false true).bind fun r ts =>
  let cx := r.ctx (r.cidOf c.wid)
  match (xs.zip ts).filter (fun e => !(e.2.2.ro || sealedWhole cx e.1.2 (e.1.2 + Size.bytes m.size))) with
  | [] => loadPerform m .fill o r c ts
  | bad => .trap r (memTrap 0x1A (bad.map (·.1)))

def execLdc (h : Hd) (m : LdMod) (o : Ops) (s : State) : Host.Outcome State Fault Refusal :=
  issue s h { uses := loadUses h m o, mem := true } (ordered false false (ldcEff m o))

/-- Whether PREF drops an address: beyond the 52 bits, or outside the declared set of the active ticket (R247, R255, R412). -/
def prefDrops (w : Wave) (a : Nat) : Bool :=
  2 ^ 52 ≤ a || (match w.activeTiles with | some ts => !declared ts false a 1 | none => false)

/-- PREF (R255): under policy 11 the lines that translate are filled into the read-only cache, anew where one is held. -/
def prefEff (m : LdMod) (o : Ops) (y : Sys) (r : Run) (c : Iss) : Eff Unit :=
  if m.pol ≠ .ro then .ok r () else
  let core := coreOf c.wid
  let cid := r.cidOf c.wid
  let k : Want := { priv := (r.wave c.wid).priv }
  .ok (c.act.toList.foldl (fun r l =>
    if prefDrops (r.wave c.wid) (r.gaddr c o m l) then r else
    match walkBoth y r cid (r.gaddr c o m l) k with
    | .ok (_, _, _, pa) => if isAper pa then r else roFill r core pa
    | .error _ => r) r) ()

def execPref (h : Hd) (m : LdMod) (o : Ops) (s : State) : Host.Outcome State Fault Refusal :=
  issue s h { uses := [⟨1, o.a, 1, false, h.fea, none⟩, ⟨2, o.b, 1, false, h.feb, none⟩], mem := true } (ordered false false (prefEff m o))

/-! ## Writing -/

/-- Lanes of which two write the same byte: each with the address of the place it writes, in pieces of `n` bytes. -/
def storesClash (xs : List (Nat × Nat)) (n : Nat) : Bool :=
  xs.any (fun e => xs.any (fun f => e.1 ≠ f.1 && e.2 < f.2 + n && f.2 < e.2 + n))

/-- An open order of lanes; in DET mode the launch fixes it (R421). -/
def Run.openOrder (r : Run) (wid : Nat) (l : Nat) : Nat :=
  if r.det (r.wave wid) then (r.drawFor wid [l]).1.toNat else (Config.freeWord (r.fresh + l)).toNat

/-- The order in which the lanes of one store perform: an open one where two of them meet (R227, R253), but for the lanes `kept`, which
leave on ordered flows in ascending order (R507). Where none meet, and no rule orders them, ascending order is the model's choice (log
entry 98). -/
def storeOrder {α : Type} (r : Run) (wid : Nat) (clash : Bool) (kept : α → Bool) (xs : List (Nat × α)) : List (Nat × α) × Run :=
  if clash then (xs.filter (fun x => kept x.2) ++ (xs.filter (fun x => !kept x.2)).foldl (fun ys x => insertKey (r.openOrder wid) x ys) [],
    { r with fresh := r.fresh + 128 })
  else (xs, r)

/-- Whether a wave's message to a host address goes on an ordered control flow (R507). -/
def Run.onOrdered (r : Run) (wid pa : Nat) : Bool :=
  let e := r.aperOf wid pa
  isAper pa && aperCtrl e && e.getLsbD 14

/-- What holds a write of many lanes back at the fabric: the line, the counter, or a full flow window. -/
def writeHold (r : Run) (wid : Nat) (ts : List (Nat × Xlat)) : Option Wait :=
  let w := r.wave wid
  let far := remotes ts r.clk w.priv
  let p := (r.ctx (r.cidOf wid)).part
  match r.lineBusy wid ts with
  | some l => some (.line l)
  | none =>
    if 256 < w.acks + far.length then some .ackRoom
    else far.findSome? (fun e =>
      let x := r.aperOf wid e.pa
      let sent := far.filter (fun g => let z := r.aperOf wid g.pa; aperCtrl z && aperFlow z == aperFlow x)
      if aperCtrl x && 64 < (((r.part p).flows.get? (aperFlow x)).getD {}).unacked.length + sent.length then some (.flow (aperFlow x)) else none)

/-- ST (R253). A scalar-unit store is performed once. -/
def stEff (m : LdMod) (o : Ops) (y : Sys) (r : Run) (c : Iss) : Eff Unit :=
  let n := Size.bytes m.size
  let xs := r.gaddrs c o m
  (gatedChecks y r c { write := true, priv := (r.wave c.wid).priv } false xs (globalChecks y r c xs n false true false)).bind fun r ts =>
  let ts := actsFor o ts
  gate r c (ts.any (fun t => t.2.sh)) (r.wave c.wid).window.isSome ts fun r =>
  match writeHold r c.wid ts with
  | some k => .park r (.retry k)
  | none =>
    let len := groupLen o.d m.size
    let core := coreOf c.wid
    let cid := r.cidOf c.wid
    let r := ts.foldl (fun r t => markDirty r core cid t.2.va t.2.gpa) r
    let vs := ts.map (fun t => (t.1, (t.2.pa, leBytes (r.groupVal c.wid o.d len t.1) n)))
    let (vs, r) := storeOrder r c.wid (storesClash (ts.map (fun t => (t.1, t.2.pa))) n) (fun v => r.onOrdered c.wid v.1) vs
    let rel := if Order.isRel m.ord then some m.scope else none
    let note (r : Run) (pa : Nat) : Run := if isAper pa then r else (r.noteOld c.wid none pa n).writeRecent c.wid rel false none pa n
    .ok (vs.foldl (fun r v => writeOne (note r v.2.1) (r.partOf c.wid) c.wid v.2.1 (laneVal xs v.1) v.2.2) r) ()

def execSt (h : Hd) (m : LdMod) (o : Ops) (s : State) : Host.Outcome State Fault Refusal :=
  issue s h { uses := [⟨0, o.d, groupLen o.d m.size, false, h.fec, none⟩, ⟨1, o.a, 1, false, h.fea, none⟩, ⟨2, o.b, 1, false, h.feb, none⟩],
              closer := true, mem := true }
    (ordered (Order.isRel m.ord) (m.scope = .sys) (stEff m o))

/-! ## FENCE (R308) -/

/-- A .sys FENCE waits on the wave's writes and takes the trap of a lost one, whatever its order field (R308, R313). -/
def fenceEff (m : OrdMod) (y : Sys) (r : Run) (c : Iss) : Eff Unit :=
  match (if m.scope = .sys then markTrap y r c.wid c.act else none) with
  | some t => .trap (r.onWave c.wid (fun w => { w with marked := none })) t
  | none =>
  if Order.isAcq m.ord && (r.wave c.wid).pend.any (fun (p : Pend) => p.kind ≠ .xlane) then .park r (.retry .reads)
  else .ok r ()

def execFence (h : Hd) (m : OrdMod) (s : State) : Host.Outcome State Fault Refusal :=
  issue s h {} (ordered (Order.isRel m.ord) (m.scope = .sys) (fenceEff m))

/-! ## Ranges: SEAL, UNSEAL, CACHE (R256 to R259) -/

/-- Base and length of a range operand. -/
def Run.range (r : Run) (c : Iss) (o : Ops) : Nat × Nat :=
  ((r.rdScalar c.wid o.a 0 c.act.lowest).toNat, (r.rdScalar c.wid o.b 0 c.act.lowest).toNat)

/-- A MEM trap of a range, with its base in every active lane. -/
def rangeTrap (act : Lanes) (sub base : Nat) (cw : Nat := 0) : Trap := memTrap sub (act.toList.map (fun l => (l, base))) cw

/-- The checks of R256, then the pages of the range (R241). -/
def rangeChecks (y : Sys) (r : Run) (c : Iss) (o : Ops) : Eff (Nat × Nat × List (Nat × Xlat)) :=
  let (base, len) := r.range c o
  if base % 256 ≠ 0 ∨ len % 256 ≠ 0 then .trap r (rangeTrap c.act 0x10 base)
  else if len = 0 ∨ 2 ^ 29 < len ∨ 2 ^ 52 ≤ base ∨ 2 ^ 52 < base + len then .trap r (rangeTrap c.act 0x11 base)
  else (preTranslateRange y r (coreOf c.wid) (slotOf c.wid) (r.cidOf c.wid) { priv := (r.wave c.wid).priv } c.pc c.act base len).bind
    fun r ts => .ok r (base, len, ts)

def rangeUses (h : Hd) (o : Ops) : List Use := [⟨1, o.a, 1, false, h.fea, none⟩, ⟨2, o.b, 1, false, h.feb, none⟩]

/-- SEAL (R257). -/
def sealEff (o : Ops) (y : Sys) (r : Run) (c : Iss) : Eff Unit :=
  (rangeChecks y r c o).bind fun r (base, len, _) =>
  let cid := r.cidOf c.wid
  let cx := r.ctx cid
  if sealedHit cx base (base + len) then .trap r (rangeTrap c.act 0x18 base)
  else if 64 ≤ cx.seals.length then .trap r (rangeTrap c.act 0x17 base)
  else
    let r := r.onCtx cid (fun x => { x with seals := x.seals ++ [(base, len)] })
    if r.storesInto cid base len then .park r (.retry (.sealing base len)) else .ok r ()

/-- A SEAL that has installed its entry waits for the stores that passed their check before it (R257). -/
def Wave.sealing (w : Wave) (m : Lanes) : Option (Nat × Nat) :=
  match (w.partAt m).map (fun p : Part => p.park) with
  | some (.retry (.sealing base len)) => some (base, len)
  | _ => none

def sealRun (o : Ops) (y : Sys) (r : Run) (c : Iss) : Eff Unit :=
  match (r.wave c.wid).sealing c.m with
  | some (base, len) => if r.storesInto (r.cidOf c.wid) base len then .park r (.retry (.sealing base len)) else .ok r ()
  | none => ordered true false (sealEff o) y r c

def execSeal (h : Hd) (o : Ops) (s : State) : Host.Outcome State Fault Refusal :=
  issue s h { uses := rangeUses h o, closer := true } (sealRun o)

/-- Drop the read-only lines that lie in the translated pages of a range. -/
def Core.dropLines (k : Core) (base len : Nat) (ts : List (Nat × Xlat)) : Core :=
  let hit (line : Nat) : Bool := ts.any (fun t =>
    let last := min (base + len) ((t.1 / 65536 + 1) * 65536)
    t.2.pa ≤ line * 256 && line * 256 < t.2.pa + (last - t.1))
  { k with ro := k.ro.filter (fun e => !hit e.1) }

/-- UNSEAL (R258): every core of the partition loses the lines of the range. -/
def unsealEff (o : Ops) (y : Sys) (r : Run) (c : Iss) : Eff Unit :=
  (rangeChecks y r c o).bind fun r (base, len, ts) =>
  let cid := r.cidOf c.wid
  let cx := r.ctx cid
  if !cx.seals.contains (base, len) then .trap r (rangeTrap c.act 0x19 base)
  else
    let r := r.onCtx cid (fun x => { x with seals := x.seals.filter (fun e => !(e == (base, len))) })
    .ok { r with cores := r.cores.mapAll (fun n k => if y.partOf (dieOf n) = cx.part then k.dropLines base len ts else k) } ()

def execUnseal (h : Hd) (o : Ops) (s : State) : Host.Outcome State Fault Refusal :=
  issue s h { uses := rangeUses h o, closer := true } (ordered false false (unsealEff o))

/-- CACHE (R259). -/
def execCacheRoinv (h : Hd) (o : Ops) (s : State) : Host.Outcome State Fault Refusal :=
  issue s h { uses := rangeUses h o } (ordered false false fun y r c => (rangeChecks y r c o).bind fun r (base, len, ts) =>
    .ok (r.onCore (coreOf c.wid) (fun k => k.dropLines base len ts)) ())

def execCacheRoinvall (h : Hd) (s : State) : Host.Outcome State Fault Refusal :=
  issue s h {} (ordered false false fun _ r c => .ok (r.onCore (coreOf c.wid) (fun k => { k with ro := [] })) ())

/-- Writing lines back, and dropping them from the home slice's cache, changes no value (R249, R259). -/
def execCacheClean (h : Hd) (o : Ops) (s : State) : Host.Outcome State Fault Refusal :=
  issue s h { uses := rangeUses h o } (ordered false false fun y r c => (rangeChecks y r c o).bind fun r _ => .ok r ())

def execCacheFlush (h : Hd) (o : Ops) (s : State) : Host.Outcome State Fault Refusal :=
  issue s h { uses := rangeUses h o } (ordered false false fun y r c => (rangeChecks y r c o).bind fun r _ => .ok r ())

/-! ## TLBI (R260) -/

/-- Whether translated accesses of a partition are under way beyond the device: those of waves, copies, batches and
collectives. -/
def Run.farBusy (r : Run) (p : Nat) : Bool :=
  r.waves.any (fun e => (r.ctx (r.block e.2.blk).ctx).part = p && e.2.unperformed) ||
  r.cores.any (fun k => k.2.channels.any (fun q => q.2.any (fun op => op.flight ≠ [] && (r.ctx (r.block op.blk).ctx).part = p))) ||
  r.blocks.any (fun b => (r.ctx b.2.ctx).part = p && (b.2.spill.toList ++ b.2.batches).any Batch.beyond) ||
  (r.part p).colls.any (fun e => e.2.status.isNone)

/-- A translation as a TLB entry of its own, for what a TLBI removes. -/
def Xlat.entry (x : Xlat) (tenant : Nat) : TlbEntry := ⟨tenant, x.page, x.size, 0, x.w, false, false, x.sh, x.ro, 0, false⟩

/-- A gated access that waits for the commit token loses the translations that a TLBI removes, all together (R247). -/
def Part.untranslate (p : Part) (gone : Xlat → Bool) : Part :=
  match p.park with
  | .retry (.token ts) => if ts.any (fun x => gone x.2) then { p with park := .retry (.token []) } else p
  | _ => p

/-- What a TLBI removes on some cores: TLB entries, and translations that gated accesses keep. -/
def Run.untranslate (r : Run) (here : Nat → Bool) (gone : TlbEntry → Bool) : Run :=
  { r with
    cores := r.cores.mapAll (fun n k => if here n then { k with tlb := k.tlb.filter (fun t => !gone t) } else k)
    waves := r.waves.mapAll (fun n w => if here (coreOf n) then
      { w with parts := w.parts.map (fun p => p.untranslate (fun x => gone (x.entry (r.ctx (r.block w.blk).ctx).tenant))) } else w) }

/-- Remove TLB entries on this core or on every core of the partition, once every access that may have used one has performed. -/
def tlbiEff (dev : Bool) (gone : Nat → TlbEntry → Bool) (y : Sys) (r : Run) (c : Iss) : Eff Unit :=
  let cx := r.ctx (r.cidOf c.wid)
  if r.farBusy cx.part then .park r (.retry .remotes) else
  .ok (r.untranslate (fun n => if dev then y.partOf (dieOf n) = cx.part else n = coreOf c.wid) (gone cx.tenant)) ()

def execTlbiVa (h : Hd) (dev : Bool) (o : Ops) (s : State) : Host.Outcome State Fault Refusal :=
  issue s h { uses := rangeUses h o, priv := true } (fun y r c =>
    let va := (r.rdScalar c.wid o.a 0 c.act.lowest).toNat
    tlbiEff dev (fun t e => e.tenant == t && e.va ≤ va && va < e.va + e.size) y r c)

def execTlbiTenant (h : Hd) (dev : Bool) (o : Ops) (s : State) : Host.Outcome State Fault Refusal :=
  issue s h { uses := rangeUses h o, priv := true } (fun y r c =>
    let n := (r.rdScalar c.wid o.a 0 c.act.lowest).toNat
    tlbiEff dev (fun _ e => e.tenant == n) y r c)

def execTlbiAll (h : Hd) (dev : Bool) (s : State) : Host.Outcome State Fault Refusal :=
  issue s h { priv := true } (tlbiEff dev (fun _ _ => true))

end Sys2Proof.Machine
end

