-- ==== Sys2Proof/Machine/Scratch.lean ====
section
/-! DEFINITION. LDS and STS (R222 to R227), barrier words (R228 to R232) and numbered barriers (R343 to R346). -/

namespace Sys2Proof.Machine

/-! ## Places of an access -/

/-- The words of an access: one for 8, 16 or 32 bits, else each 32-bit word. -/
def scrPieces (addr size : Nat) : List (Nat × Nat) :=
  if size ≤ 4 then [(addr, size)] else (List.range (size / 4)).map (fun i => (addr + 4 * i, 4))

/-- The places of an access of a wave (R215, R221), word by word. -/
def scrPlaces (r : Run) (wid addr size : Nat) (write : Bool) : Except Nat (List (ScrLoc × Nat)) :=
  let w := r.wave wid
  let go (a n : Nat) : Except Nat ScrLoc := scrResolve r w.blk (coreOf wid) (slotOf wid) w.priv a n write
  match go addr size with
  | .error e => .error e
  | .ok _ => (scrPieces addr size).mapM (fun p => (go p.1 p.2).map (fun x => (x, p.2)))

/-- The places of every lane, or the MEM trap of the lowest sub-cause (R215). -/
def scrAll (r : Run) (c : Iss) (size : Nat) (write : Bool) (xs : List (Nat × Nat)) : Except Trap (List (Nat × List (ScrLoc × Nat))) :=
  let rs := xs.map (fun e => (e, scrPlaces r c.wid e.2 size write))
  let bad := rs.filterMap (fun e => match e.2 with | .error s => some (e.1, s) | .ok _ => none)
  if bad = [] then .ok (rs.filterMap (fun e => match e.2 with | .ok p => some (e.1.1, p) | .error _ => none))
  else
    let sub := bad.foldl (fun s e => min s e.2) 0xFF
    .error (memTrap sub ((bad.filter (fun e => e.2 == sub)).map (·.1)))

def scrValue (r : Run) (core : Nat) : List (ScrLoc × Nat) → Nat
  | [] => 0
  | (p, n) :: t => scrRead r core p n + 2 ^ (8 * n) * scrValue r core t

/-! ## Barrier words: what a change of phase releases (R230, R231) -/

/-- The parts that wait for something else than `p`, and a finished wait moved on. -/
def Wave.finishParks (w : Wave) (f : Park → Bool) (closer : Bool) : Wave :=
  let m : Lanes := w.parts.foldl (fun m (p : Part) => if f p.park then m ||| p.mask else m) 0
  if m = 0 then w else w.complete m closer

/-- What a wave waits for: its parts, and a wait that a PREEMPT trap interrupted. -/
def Wave.waits (w : Wave) : List Park := w.parts.map (fun p : Part => p.park) ++ w.sup.filterMap (fun e => e.keep.map (·.1))

/-- The D that a released BAR writes, in its active lanes. -/
def Wave.barResult (w : Wave) (loc : BarLoc) (ph : Bool) (x : Bool) : Wave :=
  match w.waits.findSome? (fun (k : Park) => match k with
    | .bar l q d act => if l = loc ∧ q ≠ ph then some (d, act) else none
    | _ => none) with
  | some (d, act) => w.setP d.toNat act (fun _ => x)
  | none => w

/-- A wait that a PREEMPT trap interrupted is over: the region behind it begins where its handler returns to. -/
def SupEntry.endKept (e : SupEntry) (ps : List Part) (f : Park → Bool) : SupEntry :=
  match e.keep with
  | some (k, pc) =>
    if !f k then e else
    let here (u : Nat) : Bool := ps.any (fun p => p.uid == u && (p.mask &&& e.frame.lanes) ≠ 0)
    { e with keep := none, frame := { e.frame with rgn := e.frame.rgn + 1, rpcs := e.frame.rpcs.map (fun x => if here x.1 then (x.1, pc + 12) else x) } }
  | none => e
def Wave.endKept (w : Wave) (f : Park → Bool) : Wave := { w with sup := w.sup.map (fun e => e.endKept w.parts f) }

/-- Change every saved wave of a neighbourhood; the function also gets the wave's name. -/
def SavedNbh.onWaves (n : SavedNbh) (f : Nat → Wave → Wave) : SavedNbh :=
  { n with blocks := n.blocks.map (fun b => { b with waves := b.waves.map (fun e => (e.1, f (Wave.name b.blk.name e.2) e.2)) }) }

/-- Change every wave, also those whose context has been saved. -/
def Run.onAnyWave (r : Run) (f : Nat → Wave → Wave) : Run :=
  { r with waves := r.waves.mapAll f, ctxs := r.ctxs.mapAll (fun _ c => { c with saved := c.saved.map (fun n => n.onWaves f) }) }

/-- The waves of saved contexts. -/
def Run.savedWaves (r : Run) : List Wave :=
  r.ctxs.flatMap (fun c => c.2.saved.flatMap (fun n => n.blocks.flatMap (fun b => b.waves.map (·.2))))

/-- The waves that wait for a word to leave a phase other than `ph`. -/
def Run.barWaiters (r : Run) (loc : BarLoc) (ph : Bool) : List Nat :=
  (r.waves.filter (fun e => e.2.waits.any (fun k => match k with
    | .bar l q _ _ => l = loc && q ≠ ph
    | .retry (.barw l q) => l = loc && q ≠ ph
    | _ => false))).map (·.1)

/-- Waves that a word releases have read it, as acquires (R305). -/
def Run.barRecent (r : Run) (loc : BarLoc) (ws : List Nat) : Run :=
  ws.foldl (fun r n => r.readRecent n (some .dev) (some loc.blk) loc.addr 4) r

/-- The word at a place now has phase `ph`: every BAR and BARW that waits for that goes on; `win` gets true. A wave that is saved
parked on the word proceeds at its restore (R234): it is past its wait from now on. -/
def wakeBar (r : Run) (loc : BarLoc) (ph : Bool) (win : Option Nat) : Run :=
  let arrived (k : Park) : Bool := match k with | .bar l q _ _ => l = loc && q ≠ ph | _ => false
  (r.barRecent loc (r.barWaiters loc ph)).onAnyWave (fun n w =>
    (((w.barResult loc ph (win = some n)).endKept arrived).finishParks arrived true).finishParks (fun k => match k with
      | .retry (.barw l q) => l = loc && q ≠ ph
      | _ => false) false)

def Run.barWord (r : Run) (loc : BarLoc) : Nat := memRead (r.block loc.blk).scratch loc.addr 4
def freeTracker (r : Run) (loc : BarLoc) : Run :=
  r.onCore (loc.blk / 4) (fun k => { k with trackers := k.trackers.filter (fun t => t.loc ≠ loc) })

/-- Words whose phase somebody waits for, or that have a tracker, in a range of a block. -/
def Run.watchedWords (r : Run) (b a n : Nat) : List BarLoc :=
  let ts := ((r.core (b / 4)).trackers.map (fun t => t.loc)) ++
    (r.waves.map (·.2) ++ r.savedWaves).flatMap (fun w => w.waits.filterMap (fun (k : Park) => match k with
      | .bar l _ _ _ => some l
      | .retry (.barw l _) => some l
      | _ => none))
  (ts.filter (fun l => l.blk = b && l.addr < a + n && a < l.addr + 4)).dedup

/-- A store that performs at a bank. One that changes the PH bit of a barrier word releases the waves parked on the
word and frees its tracker (BARRIER_PHASE_STORE, R231). -/
def scrStore (r : Run) (b a v n : Nat) : Run :=
  let r' := scrWrite r b a v n
  (r.watchedWords b a n).foldl (fun r' l =>
    let x := r'.barWord l
    if r.barWord l / 2 ^ 31 = x / 2 ^ 31 then r' else wakeBar (freeTracker r' l) l (x / 2 ^ 31 = 1) none) r'

/-- Store a value at the places of an access. -/
def scrStoreAt (r : Run) (v : Nat) : List (ScrLoc × Nat) → Run
  | [] => r
  | (.blk b a, n) :: t => scrStoreAt (scrStore r b a v n) (v / 2 ^ (8 * n)) t
  | (.side _ _, n) :: t => scrStoreAt r (v / 2 ^ (8 * n)) t

/-! ## LDS and STS -/

/-- The address a lane uses (R222). -/
def Run.saddr (r : Run) (c : Iss) (o : Ops) (m : LdsMod) (l : Nat) : Nat :=
  let a := r.rdLane c.wid o.a 0 l
  (match m.form with | .disp => a + o.x.signExtend 32 | _ => a).toNat

/-- The value of aN afterwards (R222). -/
def stepAddr (m : LdsMod) (a : Word) (k : BitVec 24) (base len : Word) : Word :=
  match m.form with
  | .disp => a
  | .post => a + k.signExtend 32
  | .wrap =>
    if len = 0 then a + k.signExtend 32
    else BitVec.ofInt 32 (base.toNat + ((a.toNat : Int) + k.toInt - base.toNat) % (len.toNat : Int))

/-- Update the address register in the active lanes. -/
def Wave.stepA (w : Wave) (m : LdsMod) (o : Ops) (mo : Opd) (act : Lanes) : Wave :=
  match m.form, o.a with
  | .disp, _ => w
  | _, .a n =>
    let (base, len) := match mo with | .m k => w.mSee k.toNat | _ => (0, 0)
    let row := w.aSee n.toNat
    w.setA n.toNat act (fun l => stepAddr m (rowAt row l) o.x base len)
  | _, _ => w

/-- Whether an address is local, or of the side buffers: by its window, the own block's place in the neighbourhood window counting
as local (R214, R225). -/
def Run.scrNear (r : Run) (wid addr : Nat) : Bool :=
  let a := addr % 2 ^ 30
  a ≤ 0x7BFFF || 0x3000000 ≤ a ||
  (0x1000000 ≤ a && a < 0x2000000 && (a - 0x1000000) / 0x80000 == (r.blockOf (r.wave wid)).index)

/-- The local 32-bit words of an access: `xs` are its lanes' addresses, `ps` their places. -/
def localWords (r : Run) (wid : Nat) (xs : List (Nat × Nat)) (ps : List (Nat × List (ScrLoc × Nat))) : List Nat :=
  (((ps.zip xs).filter (fun e => r.scrNear wid e.2.2)).flatMap (fun e => e.1.2.filterMap (fun x => match x.1 with
    | .blk _ a => some (a / 4)
    | .side _ _ => none))).dedup

/-- Passes beyond the base count (R218, R219): of 31 banks, the one that serves the most rows. -/
def excessPasses (r : Run) (wid size : Nat) (xs : List (Nat × Nat)) (ps : List (Nat × List (ScrLoc × Nat))) : Nat :=
  let ws := localWords r wid xs ps
  (List.range 31).foldl (fun n k => max n (ws.filter (fun x => x % 31 = k)).length) 0 - (if size ≤ 4 then 2 else if size = 8 then 3 else 5)

/-- Hold a wave for the passes beyond the base count, on top of its STALL (R219). -/
def Run.holdPasses (r : Run) (c : Iss) (h : Hd) (n : Nat) : Run :=
  if n = 0 ∨ (r.wave c.wid).stream then r else r.onWave c.wid (fun w => { w with stall := r.clk + 1 + h.stall.toNat + n })

/-- The local accesses of an LDS.acq deliver `n` cycles after its issue, which holds the wave's later memory accesses until
then (R225, R303). -/
def Wave.acquireUntil (w : Wave) (till : Nat) (m : Lanes) (pc : Word64) : Wave :=
  { w with pend := w.pend ++ [{ id := w.pendNext, regs := [], kind := .local, acq := true, mask := m, pc := pc, after := till }]
           pendNext := w.pendNext + 1 }

/-- A wave has read a place, as an acquire of a scope or plainly (R302, R304). -/
def Run.sawPlace (r : Run) (wid : Nat) (acq : Option Scope) (p : ScrLoc × Nat) : Run :=
  match p.1 with
  | .blk b a => r.readRecent wid acq (some b) a p.2
  | .side _ _ => r

/-- LDS (R225). -/
def ldsEff (h : Hd) (m : LdsMod) (o : Ops) (_ : Sys) (r : Run) (c : Iss) : Eff Unit :=
  let core := coreOf c.wid
  let n := Size.bytes m.size
  let xs := c.act.toList.map (fun l => (l, r.saddr c o m l))
  match scrAll r c n false xs with
  | .error t => .trap r t
  | .ok ps =>
    let vs := ps.map (fun p => (p.1, scrValue r core p.2))
    let r := ps.foldl (fun r p => p.2.foldl (fun r x => r.sawPlace c.wid (if Order.isAcq m.ord then some m.scope else none) x) r) r
    let far := xs.any (fun x => !r.scrNear c.wid x.2)
    let len := Size.regs m.size
    let k := excessPasses r c.wid n xs ps
    .ok ((r.holdPasses c h k).onWave c.wid (fun w =>
      let refs := w.refs o.d len c.act
      let w := (w.putGroup o.d len c.act (fun l => extend m.sx n 32 (laneVal vs l))).stepA m o o.b c.act
      if far then w.owe refs .local (Order.isAcq m.ord) c.act c.pc
      else if Order.isAcq m.ord then w.acquireUntil (r.clk + 24 + k) c.act c.pc
      else w)) ()

def execLds (h : Hd) (m : LdsMod) (o : Ops) (s : State) : Host.Outcome State Fault Refusal :=
  issue s h { uses := [⟨0, o.d, Size.regs m.size, true, false, none⟩], mem := true } (ordered false false (ldsEff h m o))

/-- TALIAS of a scratchpad store (R332, R334): the lanes whose words a clause of the block still watches. -/
def scrAlias (b : Block) (ps : List (Nat × List (ScrLoc × Nat))) : Option Trap :=
  let hit (x : ScrLoc × Nat) : Option Nat := match x.1 with
    | .blk n a => watchHit b (some n) a (a + x.2)
    | .side _ _ => none
  let bad := ps.filter (fun e => e.2.any (fun x => (hit x).isSome))
  match bad with
  | [] => none
  | e :: _ => some { cls := 9, sub := 2, mask := lanesOf (bad.map (fun e => (e.1, 0))), cw := tileCw 0xFF ((e.2.findSome? hit).getD 0xFF) 0 0 }

/-- The places of the lanes of an access, as one number for block and byte: two lanes may name one place by different windows or
by a skewed and a plain address. -/
def scrKeys (ps : List (Nat × List (ScrLoc × Nat))) : List (Nat × Nat) :=
  ps.flatMap (fun p => p.2.filterMap (fun x => match x.1 with
    | .blk b a => some (p.1, b * 2 ^ 20 + a)
    | .side _ _ => none))

/-- The words a store of many lanes writes, each with its value; numbered, since each word that several lanes write takes the whole
value of any one of them (R227). -/
def scrWords (ps : List (Nat × List (ScrLoc × Nat))) (v : Nat → Nat) : List (Nat × (ScrLoc × Nat) × Nat) :=
  let pieces := ps.flatMap (fun p => p.2.mapIdx (fun i x => (x, v p.1 / 2 ^ (32 * i))))
  pieces.mapIdx (fun i x => (i, x))

/-- Before a wave writes a place, as a release of a scope or plainly: what it holds (R340), and what the write stands for (R304). -/
def Run.notePlace (r : Run) (wid : Nat) (rel : Option Scope) (atomic : Bool) (p : ScrLoc × Nat) : Run :=
  match p.1 with
  | .blk b a => (r.noteOld wid (some b) a p.2).writeRecent wid rel atomic (some b) a p.2
  | .side _ _ => r

/-- STS (R226, R227). R226 calls it a closer by R200, whose own list, which defines the closers, leaves it out: it is none (log entry
79). -/
def stsEff (h : Hd) (m : LdsMod) (o : Ops) (_ : Sys) (r : Run) (c : Iss) : Eff Unit :=
  let n := Size.bytes m.size
  let xs := c.act.toList.map (fun l => (l, r.saddr c o m l))
  match scrAll r c n true xs with
  | .error t => .trap r t
  | .ok ps =>
    match scrAlias (r.blockOf (r.wave c.wid)) ps with
    | some t => .trap r t
    | none =>
      let k := excessPasses r c.wid n xs ps
      let (vs, r) := storeOrder r c.wid (storesClash (scrKeys ps) (min n 4)) (fun _ => false) (scrWords ps (r.groupVal c.wid o.b (Size.regs m.size)))
      let r := vs.foldl (fun r v => scrStoreAt (r.notePlace c.wid (if Order.isRel m.ord then some m.scope else none) false v.2.1) v.2.2 [v.2.1]) r
      .ok ((r.holdPasses c h k).onWave c.wid (fun w => w.stepA m o o.d c.act)) ()

def execSts (h : Hd) (m : LdsMod) (o : Ops) (s : State) : Host.Outcome State Fault Refusal :=
  issue s h { uses := [⟨2, o.b, Size.regs m.size, false, h.feb, none⟩], mem := true }
    (ordered (Order.isRel m.ord) false (stsEff h m o))

/-! ## BAR, BARA and BARW -/

/-- A 32-bit word address operand: an address register is read in the lowest active lane (R229). -/
def Run.wordAddr (r : Run) (c : Iss) (o : Opd) : Nat := ((r.rdScalar c.wid o 0 c.act.lowest).setWidth 32).toNat

/-- The barrier word an address names (R228), or the sub-cause. -/
def barPlace (r : Run) (wid addr : Nat) : Except Nat BarLoc :=
  let w := r.wave wid
  let skew := addr / 2 ^ 30 % 2 = 1
  let a := if skew then addr - 2 ^ 30 else addr
  if addr % 4 ≠ 0 then .error 0x30
  else if 0x3000000 ≤ a then .error 0x31
  else match scrResolve r w.blk (coreOf wid) (slotOf wid) w.priv a 4 false with
    | .error e => if e = 0x31 ∨ !skew then .error e else .error 0x33
    | .ok (.blk b x) => if skew then .error 0x33 else .ok ⟨b, x⟩
    | .ok (.side _ _) => .error 0x31

/-- A trap at a word or object: class word and lanes (R197). -/
def syncTrap (act : Lanes) (sub : Nat) (cw : Nat := 0) : Trap := { cls := 13, sub := sub, mask := act, cw := BitVec.ofNat 64 cw }

/-- The MEM trap of a word address, the same in every active lane. -/
def wordTrap (act : Lanes) (sub addr : Nat) : Trap := memTrap sub (act.toList.map (fun l => (l, addr)))

/-- The key {%BLOCK, %WAVE} of an arriver. -/
def Run.barKey (r : Run) (wid : Nat) : Nat := (r.blockOf (r.wave wid)).index * 65536 + (r.wave wid).index

/-- An arrival (R230, R232). Of two arrivals of one phase with equal keys the later counts as the higher (log entry 100). -/
def arriveEff (byBara : Bool) (o : Ops) (_ : Sys) (r : Run) (c : Iss) : Eff Unit :=
  let w := r.wave c.wid
  let addr := r.wordAddr c o.a
  let d : BitVec 4 := match o.d with | .p n => n | _ => 15
  match barPlace r c.wid addr with
  | .error e => .trap r (wordTrap c.act e addr)
  | .ok loc =>
    let x := r.barWord loc
    let exp := x % 2 ^ 16
    let arr := x / 2 ^ 16 % 2 ^ 15
    let ph : Bool := x / 2 ^ 31 = 1
    let k := r.core (loc.blk / 4)
    let old := k.trackers.find? (fun t => t.loc = loc)
    if exp = 0 ∨ 32768 < exp ∨ exp ≤ arr then .trap r (syncTrap c.act 5 addr)
    else if old.isNone ∧ 64 ≤ k.trackers.length then .trap r (syncTrap c.act 6 addr)
    else
      let me : Tracker := ⟨loc, r.barKey c.wid, c.wid, byBara⟩
      let t := match old with | some t => if t.key ≤ me.key then me else t | none => me
      if arr + 1 = exp then
        let win : Option Nat := if r.det w then (if t.byBara then none else some t.wave) else some c.wid
        let r := scrWrite (freeTracker r loc) loc.blk loc.addr (exp + if ph then 0 else 2 ^ 31) 4
        let mine := win = some c.wid && !(byBara && r.det w)
        let r := (r.writeRecent c.wid (some .dev) true (some loc.blk) loc.addr 4).barRecent loc [c.wid]
        .ok ((wakeBar r loc (!ph) win).onWave c.wid (fun w => w.setP d.toNat c.act (fun _ => mine))) ()
      else
        let r := scrWrite r loc.blk loc.addr (exp + (arr + 1) * 2 ^ 16 + if ph then 2 ^ 31 else 0) 4
        let r := r.writeRecent c.wid (some .dev) true (some loc.blk) loc.addr 4
        let r := r.onCore (loc.blk / 4) (fun k => { k with trackers := k.trackers.filter (fun t => t.loc ≠ loc) ++ [t] })
        if byBara then .ok (r.onWave c.wid (fun w => w.setP d.toNat c.act (fun _ => false))) ()
        else .park r (.bar loc ph d c.act)

def barUses (h : Hd) (o : Ops) : List Use := [⟨1, o.a, 1, false, h.fea, none⟩, ⟨2, o.b, 1, false, h.feb, none⟩]

def execBar (h : Hd) (o : Ops) (s : State) : Host.Outcome State Fault Refusal :=
  issue s h { uses := barUses h o, whole := some 1, closer := true, switch := true } (ordered true false (arriveEff false o))
def execBara (h : Hd) (o : Ops) (s : State) : Host.Outcome State Fault Refusal :=
  issue s h { uses := barUses h o, whole := some 1, closer := true, switch := true } (ordered true false (arriveEff true o))

/-- BARW (R230). -/
def barwEff (o : Ops) (_ : Sys) (r : Run) (c : Iss) : Eff Unit :=
  let addr := r.wordAddr c o.a
  match barPlace r c.wid addr with
  | .error e => .trap r (wordTrap c.act e addr)
  | .ok loc =>
    let ph := (r.rdScalar c.wid o.b 0 c.act.lowest).getLsbD 0
    if (r.barWord loc / 2 ^ 31 = 1) ≠ (ph = true) then .ok (r.barRecent loc [c.wid]) () else .park r (.retry (.barw loc ph))

def execBarw (h : Hd) (o : Ops) (s : State) : Host.Outcome State Fault Refusal :=
  issue s h { uses := barUses h o, whole := some 1, switch := true } (barwEff o)

/-! ## Numbered barriers -/

/-- Numbered barrier n of a block. -/
def Block.nbar (b : Block) (n : Nat) : NBar := b.nb.getD n {}
def Block.setNbar (b : Block) (n : Nat) (x : NBar) : Block :=
  { b with nb := (List.range (max b.nb.length (n + 1))).map (fun i => if i = n then x else b.nbar i) }

/-- Phase `ph` of numbered barrier n of a block: its waiters go on, with what its arrivals carried (R343). -/
def wakeNbar (r : Run) (b n : Nat) (ph : Bool) : Run :=
  let here (w : Wave) : Bool := w.blk = b && w.parts.any (fun p => match p.park with | .retry (.nbarw i q) => i = n && q ≠ ph | _ => false)
  let r := (r.waves.filter (fun e => here e.2)).foldl (fun r e => r.waitRecent b e.1 n) r
  { r with waves := r.waves.mapAll (fun _ w => if w.blk = b then
      w.finishParks (fun k => match k with | .retry (.nbarw i q) => i = n && q ≠ ph | _ => false) false else w) }

/-- NBAR (R345): the checks come before the release. A numbered barrier has no address that R197's class word could name: it is 0 (log
entry 99). -/
def nbarEff (n : Nat) (o : Ops) (y : Sys) (r : Run) (c : Iss) : Eff Unit :=
  let bid := (r.wave c.wid).blk
  let x := (r.block bid).nbar n
  let k := r.rdCount c o.a
  if (r.launchOf (r.wave c.wid)).info.nb ≤ n then .trap r (syncTrap c.act 7)
  else if k = 0 ∨ 25 < k ∨ (x.arr ≠ 0 ∧ k ≠ x.exp) then .trap r (syncTrap c.act 8)
  else ordered true false (fun _ r _ =>
    let exp := if x.arr = 0 then k else x.exp
    if x.arr + 1 = exp then
      .ok (wakeNbar ((r.arriveRecent bid (some c.wid) n true).onBlock bid (fun b => b.setNbar n ⟨exp, 0, !x.ph⟩)) bid n (!x.ph)) ()
    else .ok ((r.arriveRecent bid (some c.wid) n false).onBlock bid (fun b => b.setNbar n ⟨exp, x.arr + 1, x.ph⟩)) ()) y r c

def execNbar (h : Hd) (n : BitVec 4) (o : Ops) (s : State) : Host.Outcome State Fault Refusal :=
  issue s h { uses := barUses h o, whole := some 1, closer := true, switch := true } (nbarEff n.toNat o)

/-- NBARW (R346). -/
def nbarwEff (n : Nat) (o : Ops) (_ : Sys) (r : Run) (c : Iss) : Eff Unit :=
  let bid := (r.wave c.wid).blk
  let ph := (r.rdScalar c.wid o.a 0 c.act.lowest).getLsbD 0
  if (r.launchOf (r.wave c.wid)).info.nb ≤ n then .trap r (syncTrap c.act 7)
  else if ((r.block bid).nbar n).ph ≠ ph then .ok (r.waitRecent bid c.wid n) ()
  else .park r (.retry (.nbarw n ph))

def execNbarw (h : Hd) (n : BitVec 4) (o : Ops) (s : State) : Host.Outcome State Fault Refusal :=
  issue s h { uses := barUses h o, whole := some 1, switch := true } (nbarwEff n.toNat o)

end Sys2Proof.Machine
end

