-- ==== Sys2Proof/Machine/Atomics.lean ====
section
/-! DEFINITION. Atomics (R279 to R291), their requests from outside, and monitors (R292 to R295). -/

namespace Sys2Proof.Machine

/-! ## Operations (R282, R283) -/

def ATy.bytes : ATy → Nat | .u64 => 8 | .s64 => 8 | .b128 => 16 | _ => 4
def ATy.isFp : ATy → Bool | .f32 => true | .f16x2 => true | .bf16x2 => true | _ => false
/-- Registers of a vector operand of a type (R284). -/
def ATy.regs (t : ATy) : Nat := ATy.bytes t / 4
/-- Scalar registers of an operand of a type. -/
def ATy.sregs : ATy → Nat | .b128 => 2 | _ => 1

/-- FP at the site: RNE, no flush, the canonical NaN. -/
def fpAtomic (f : Fmt) (op : AOp) (old c : Nat) : Nat :=
  let k : FCtl := { rm := .rne, ftz := false, dn := true }
  match op with
  | .add => (f.add k old c).1
  | .min => (f.minmax k false old c).1
  | .max => (f.minmax k true old c).1
  | _ => c

/-- The new value of a unit. -/
def atomOp (op : AOp) (t : ATy) (old c : Nat) : Nat :=
  match t with
  | .f32 => fpAtomic fmt32 op old c
  | .f16x2 => (perElem .f16 (fun a b _ => (fpAtomic fmt16 op a b, 0)) old c 0).1
  | .bf16x2 => (perElem .bf16 (fun a b _ => (fpAtomic fmtB op a b, 0)) old c 0).1
  | t =>
    let w := 8 * ATy.bytes t
    let signed := t = .s32 || t = .s64
    let v (x : Nat) : Int := if signed && 2 ^ (w - 1) ≤ x then (x : Int) - 2 ^ w else x
    match op with
    | .add => (old + c) % 2 ^ w
    | .min => if v c < v old then c else old
    | .max => if v old < v c then c else old
    | .and => old &&& c
    | .or => old ||| c
    | .xor => old ^^^ c
    | .exch => c
    | .incw => if c ≤ old then 0 else old + 1
    | .decw => if old = 0 ∨ c < old then c else old - 1

/-- What an atomic leaves in its unit: none for a CAS that does not match; a saturating sum for the COUNT of an outlier list (R360). -/
def atomicNew (a : AtomicReq) (old : Nat) : Option Nat :=
  if a.sat then some (min (old + a.opnd) 0xFFFFFFFF) else if a.cas then (if old = a.opnd then some a.new else none) else some (atomOp a.op a.ty old a.opnd)

/-! ## Operands (R284) -/

/-- The value of an atomic's operand of `bytes`, from register `i0` of its group on. -/
def Run.atomVal (r : Run) (wid : Nat) (o : Opd) (bytes i0 l : Nat) : Nat :=
  match o with
  | .imm8 n => (n.signExtend 128).toNat % 2 ^ (8 * bytes)
  | .s n =>
    let one (i : Nat) : Nat := ((r.wave wid).sSee (n.toNat + i)).toNat
    (if bytes = 16 then one i0 + 2 ^ 64 * one (i0 + 1) else one i0) % 2 ^ (8 * bytes)
  | o => ((List.range (bytes / 4)).foldl (fun v i => v + (r.rdLane wid o (i0 + i) l).toNat * 2 ^ (32 * i)) 0) % 2 ^ (8 * bytes)

/-- Registers an operand of a type names, as vector or scalar. -/
def atomLen (o : Opd) (t : ATy) : Nat := match o with | .s _ => ATy.sregs t | _ => ATy.regs t

/-- An atomic instruction as it executes: CAS or not, whether D is written. -/
structure AtomForm where
  cas : Bool
  red : Bool
  m : AtomMod
  deriving DecidableEq, Repr

/-- The operation of a lane. -/
def AtomForm.req (f : AtomForm) (r : Run) (wid : Nat) (o : Ops) (addr l : Nat) : AtomicReq :=
  let n := ATy.bytes f.m.ty
  { cas := f.cas, op := f.m.op, ty := f.m.ty, addr := addr, opnd := r.atomVal wid o.c n 0 l
    new := if f.cas then r.atomVal wid o.c n (atomLen o.c f.m.ty) l else 0 }

/-- Registers of the C operand's group: the compare value and the new value for CAS. -/
def AtomForm.cLen (f : AtomForm) (o : Ops) : Nat := (if f.cas then 2 else 1) * atomLen o.c f.m.ty

/-- The first scalar group that runs past s127 (R155, R284). -/
def AtomForm.pairBad (f : AtomForm) (o : Ops) : Option Nat :=
  let past (x : Opd) (len : Nat) : Option Nat := match x with | .s n => if 128 < n.toNat + len then some n.toNat else none | _ => none
  match past o.d (atomLen o.d f.m.ty) with
  | some n => some n
  | none => past o.c (f.cLen o)

/-- Write D from the old values. -/
def Wave.putOld (w : Wave) (o : Opd) (t : ATy) (act : Lanes) (v : Nat → Nat) : Wave :=
  match o with
  | .s n =>
    let x := v act.lowest
    if t = .b128 then (w.setS n.toNat (BitVec.ofNat 64 x)).setS (n.toNat + 1) (BitVec.ofNat 64 (x / 2 ^ 64))
    else w.setS n.toNat (BitVec.ofNat 64 x)
  | o => (List.range (ATy.regs t)).foldl (fun w i => w.put o i act (fun l => BitVec.ofNat 32 (v l / 2 ^ (32 * i)))) w

/-! ## Global and scratchpad effects (R285, R286) -/

/-- The emulated combination of a lane, if any (R290): a CTRL aperture leads to another device like any other. -/
def AtomForm.emulated (f : AtomForm) (r : Run) (wid : Nat) (pa : Nat) : Option Nat :=
  let e := r.aperOf wid pa
  if isAper pa && aperHost e then some 3
  else if isAper pa && ATy.isFp f.m.ty && (f.m.op = .add || f.m.op = .min || f.m.op = .max) then some 1
  else if !isAper pa && Config.lpBase ≤ pa && f.cas && f.m.ty = .b128 then some 2
  else none

/-- The ATOMEMU trap (R290). -/
def AtomForm.emuTrap (f : AtomForm) (r : Run) (c : Iss) (xs : List (Nat × Nat)) (ts : List (Nat × Xlat)) : Option Trap :=
  (ts.findSome? (fun t => f.emulated r c.wid t.2.pa)).map (fun sub =>
    { cls := 8, sub := sub, mask := c.act, lw := laneWords xs })

/-- Apply a lane's operation in this device's memory; the old value. -/
def atomicAt (r : Run) (a : AtomicReq) : Nat × Run :=
  let n := ATy.bytes a.ty
  let old := memRead r.mem a.addr n
  (old, match atomicNew a old with | some x => storeBytes r a.addr (leBytes x n) | none => r)

/-- The home slice of a line of this device that lies on another die than a core: its atomics carry the core's number and a tag, and are
remembered there (R287). -/
def farSlice (y : Sys) (r : Run) (wid pa : Nat) : Option Nat :=
  let s := homeSlice y r (r.partOf wid) pa
  if isAper pa || s / 64 = dieOf (coreOf wid) then none else some s

/-- The source port of a core's own interface, beside the 144 fabric ports. -/
def corePort (core : Nat) : Nat := 144 + core

/-- An entry for an atomic that another die's home slice has applied (R287). -/
def noteSlice (r : Run) (wid s old : Nat) : Run :=
  let port := corePort (coreOf wid)
  let used := ((r.part (r.partOf wid)).dedup.filter (fun e => e.port = port)).map (fun e => e.tag)
  r.onPart (r.partOf wid) (fun q => { q with dedup := q.dedup ++ [⟨.slice s, port, freeTag used 65536 0, old, some r.clk⟩] })

/-- Home slices without room for another instruction's requests in their dedup tables of 512 entries (R287, R288). -/
def fullSlices (y : Sys) (r : Run) (wid : Nat) (ts : List (Nat × Xlat)) : List Nat :=
  ((ts.filterMap (fun t => farSlice y r wid t.2.pa)).dedup).filter (fun s =>
    480 < ((r.part (r.partOf wid)).dedup.filter (fun e => e.site = .slice s)).length)

/-- A lane's operation in this device's memory, for a wave: the old value. -/
def atomicHere (f : AtomForm) (y : Sys) (c : Iss) (x : Xlat) (a : AtomicReq) (r : Run) : Nat × Run :=
  let n := ATy.bytes f.m.ty
  let writes := (atomicNew a (memRead r.mem a.addr n)).isSome
  let r := r.readRecent c.wid (if Order.isAcq f.m.ord then some f.m.scope else none) none a.addr n
  let r := if writes then markDirty (r.noteOld c.wid none a.addr n) (coreOf c.wid) (r.cidOf c.wid) x.va x.gpa else r
  let (old, r) := atomicAt r a
  let r := if writes then r.writeRecent c.wid (if Order.isRel f.m.ord then some f.m.scope else none) true none a.addr n else r
  (old, match farSlice y r c.wid a.addr with | some s => noteSlice r c.wid s old | none => r)

/-- Apply the lanes one after another: local ones here, remote ones as requests (R312, R507). Gives the old values and the lanes
that await a reply. -/
def atomicAll (f : AtomForm) (o : Ops) (y : Sys) (c : Iss) : Run → List (Nat × Xlat) → Run × List (Nat × Nat) × List FarLane
  | r, [] => (r, [], [])
  | r, (l, x) :: t =>
    let a := f.req r c.wid o x.pa l
    let p := r.partOf c.wid
    let (v, ls, r) : Nat × List FarLane × Run :=
      if !isAper x.pa then
        let z := atomicHere f y c x a r
        (z.1, [], z.2)
      else
        let e := r.aper p x.pa
        let a := { a with addr := x.pa % 2 ^ 40 }
        let r := markDirty r (coreOf c.wid) (r.cidOf c.wid) x.va x.gpa
        if aperCtrl e then (0, [], controlOne r p c.wid x.pa x.va (.red a))
        else
          let z := r.atomicOut p (dieOf (coreOf c.wid)) e c.wid l x.pa x.va a
          (0, [z.1], z.2)
    let (r, vs, zs) := atomicAll f o y c r t
    (r, (l, v) :: vs, ls ++ zs)

/-- What holds the requests of an atomic back: a line of another device, a dedup table, the counter or the window of a control flow. -/
def atomHold (y : Sys) (r : Run) (c : Iss) (ts : List (Nat × Xlat)) : Option Wait :=
  match r.lineBusy c.wid ts with
  | some l => some (.line l)
  | none =>
    match fullSlices y r c.wid ts with
    | [] => writeHold r c.wid (ts.filter (fun t => isAper t.2.pa && aperCtrl (r.aperOf c.wid t.2.pa)))
    | ss => some (.slices ss)

/-- The effect on global memory: the commit token comes before the ATOMEMU trap (R285). -/
def atomGlobal (f : AtomForm) (o : Ops) (y : Sys) (r : Run) (c : Iss) : Eff Unit :=
  let n := ATy.bytes f.m.ty
  let xs := c.act.toList.map (fun l =>
    (l, (r.rdScalar c.wid o.a 0 l + BitVec.ofInt 64 (r.rdLane c.wid o.b 0 l).toInt).toNat))
  (gatedChecks y r c { write := true, priv := (r.wave c.wid).priv } (!f.red) xs (globalChecks y r c xs n true true (!f.red))).bind fun r all =>
  gate r c true (r.wave c.wid).window.isSome all fun r =>
  match f.emuTrap r c xs all with
  | some t => .trap r t
  | none =>
    let ts := actsFor o all
    match atomHold y r c ts with
    | some k => .park r (.retry k)
    | none =>
      let (es, r) := storeOrder r c.wid (storesClash (ts.map (fun t => (t.1, t.2.pa))) n) (fun x => r.onOrdered c.wid x.pa) ts
      let (r, vs, far) := atomicAll f o y c r es
      let kind : PendKind := if far = [] then .local else .atomic far
      .ok (r.onWave c.wid (fun w =>
        if f.red then (if far = [] then w else w.owe [] kind false c.act c.pc)
        else (w.putOld o.d f.m.ty c.act (laneVal vs)).owe (w.refs o.d (atomLen o.d f.m.ty) c.act) kind (Order.isAcq f.m.ord) c.act c.pc)) ()

/-- Apply the lanes at the owning banks. -/
def atomicBanks (f : AtomForm) (o : Ops) (c : Iss) : Run → List (Nat × List (ScrLoc × Nat)) → Run × List (Nat × Nat)
  | r, [] => (r, [])
  | r, (l, ps) :: t =>
    let old := scrValue r (coreOf c.wid) ps
    let r := ps.foldl (fun r p => r.sawPlace c.wid (if Order.isAcq f.m.ord then some f.m.scope else none) p) r
    let r := match atomicNew (f.req r c.wid o 0 l) old with
      | some x => scrStoreAt (ps.foldl (fun r p => r.notePlace c.wid (if Order.isRel f.m.ord then some f.m.scope else none) true p) r) x ps
      | none => r
    let (r, vs) := atomicBanks f o c r t
    (r, (l, old) :: vs)

/-- The effect on scratchpad. -/
def atomScratch (f : AtomForm) (o : Ops) (_ : Sys) (r : Run) (c : Iss) : Eff Unit :=
  let n := ATy.bytes f.m.ty
  let xs := c.act.toList.map (fun l => (l, (r.rdLane c.wid o.a 0 l).toNat))
  match scrAll r c n true xs with
  | .error t => .trap r t
  | .ok ps =>
    match scrAlias (r.blockOf (r.wave c.wid)) ps with
    | some t => .trap r t
    | none =>
      gate r c true false [] fun r =>
      let (es, r) := storeOrder r c.wid (storesClash (scrKeys ps) (min n 4)) (fun _ => false) ps
      let (r, vs) := atomicBanks f o c r es
      .ok (r.onWave c.wid (fun w =>
        if f.red then w
        else (w.putOld o.d f.m.ty c.act (laneVal vs)).owe (w.refs o.d (atomLen o.d f.m.ty) c.act) .local (Order.isAcq f.m.ord) c.act c.pc)) ()

def isAddrReg (o : Opd) : Bool := match o with | .a _ => true | _ => false

def atomEff (f : AtomForm) (o : Ops) (y : Sys) (r : Run) (c : Iss) : Eff Unit :=
  match f.pairBad o with
  | some n => .trap r (pairTrap c.act n)
  | none => if isAddrReg o.a then atomScratch f o y r c else atomGlobal f o y r c

/-- The issue of ATOM, RED and CAS. -/
def atomIssue (h : Hd) (f : AtomForm) (o : Ops) (s : State) : Host.Outcome State Fault Refusal :=
  issue s h { uses := [⟨0, o.d, atomLen o.d f.m.ty, true, false, none⟩, ⟨1, o.a, 1, false, h.fea, none⟩,
                       ⟨2, o.b, 1, false, h.feb, none⟩, ⟨3, o.c, f.cLen o, false, h.fec, none⟩],
              closer := true, mem := true }
    (ordered (Order.isRel f.m.ord) (f.m.scope = .sys) (atomEff f o))

def execAtom (h : Hd) (m : AtomMod) (o : Ops) (s : State) : Host.Outcome State Fault Refusal := atomIssue h ⟨false, false, m⟩ o s
def execRed (h : Hd) (m : AtomMod) (o : Ops) (s : State) : Host.Outcome State Fault Refusal := atomIssue h ⟨false, true, m⟩ o s
def execCas (h : Hd) (m : AtomMod) (o : Ops) (s : State) : Host.Outcome State Fault Refusal := atomIssue h ⟨true, false, m⟩ o s

/-! ## Requests from outside (R287, R288, R508) -/

/-- Whether a write to a host range meets a sealed range of a context of the partition. -/
def Run.sealedPa (y : Sys) (r : Run) (p pa n : Nat) : Bool :=
  r.ctxs.any (fun e => e.2.part = p && e.2.seals.any (fun s => (pagesOf s.1 s.2).any (fun va =>
    match walkBoth y r e.1 va { priv := true } with
    | .ok (_, _, _, a) =>
      let last := min (s.1 + s.2) ((va / 65536 + 1) * 65536)
      a < pa + n && pa < a + (last - va)
    | .error _ => false)))

/-- What stops a write from outside to memory of a partition (R508). -/
def outerBad (y : Sys) (r : Run) (p pa n : Nat) : Option FarFault :=
  if !y.ownsAll p pa n then some .nomap
  else if r.sealedPa y p pa n then some .sealed
  else none

/-- What stops an access from the fabric: beside that, an address of 2^40 or more, which no peer reaches (R506). -/
def fabricBad (y : Sys) (r : Run) (p pa n : Nat) : Option FarFault :=
  if 2 ^ 40 < pa + n then some .nomap else outerBad y r p pa n

/-- Whether a port belongs to the route set of a device that the Inn lets reach the partition (R526). -/
def Run.granted (r : Run) (p port : Nat) : Bool :=
  (r.part p).grants.any (fun d => (((r.part p).routes.get? d).getD []).contains port)

/-- The boundary a flit from die a to die b crosses first and then, by R10, in the order of FWBND0 to FWBND3. -/
def boundaryPath (a b : Nat) : List Nat :=
  let horiz (r : Nat) : Nat := if r = 0 then 0 else 2
  let vert (c : Nat) : Nat := if c = 1 then 1 else 3
  (if a % 2 ≠ b % 2 then [horiz (a / 2)] else []) ++ (if a / 2 ≠ b / 2 then [vert (b % 2)] else [])

/-- The closed boundary that stops a flit on its way from a die to an address. -/
def Sys.stopped (y : Sys) (die pa : Nat) : Option Nat :=
  if 4 * 2 ^ 38 ≤ pa then none
  else (boundaryPath die (pa / 2 ^ 38)).find? (fun i => (y.bnd.getD i 1).getLsbD 0)

def Sys.drop (y : Sys) (i : Nat) : Sys :=
  { y with bnd := y.bnd.mapIdx (fun j x => if j = i then setBits x 16 16 (min 0xFFFF (bits x 16 16 + 1)) else x) }

/-- A request that comes in at a fabric port for an address: discarded and counted at a closed boundary it would cross (R526), else
`k`. Its way starts at the port's own die. One that no grant of this side covers is refused with PERM (R526, log entry 101). -/
def inbound (port pa : Nat) (s : State) (k : Sys → Run → Run) : Host.Outcome State Fault Refusal :=
  let p := s.sys.partOf (port / 36)
  match (if s.sys.owns p pa then none else s.sys.stopped (port / 36) pa) with
  | some i => .next { s with sys := s.sys.drop i }
  | none => event s (fun y r =>
      if r.granted p port then k y r else r.transmit port { cls := 0, port := port } (.refusal .perm))

/-- The site of a request (R279), and its partition. -/
def ReqWay.part (y : Sys) : ReqWay → Nat | .fabric i => y.partOf (i / 36) | .inside p => p
def ReqWay.site (y : Sys) (r : Run) (pa : Nat) : ReqWay → AtomSite
  | .fabric i => .port i
  | .inside p => .slice (homeSlice y r p pa)
/-- Entries of a site's dedup table (R287). -/
def AtomSite.room : AtomSite → Nat | .slice _ => 512 | .port _ => 1024

/-- An answer to a request, by the port it came in at. -/
def answerReq (r : Run) (way : ReqWay) (port tag : Nat) (o : Out) : Run :=
  match way with
  | .fabric i => r.transmit i { cls := 0, port := port, tag := tag } o
  | .inside _ => r.send o

/-- A request of an atomic (R287): answered from the dedup tables, refused at link level by a full one, refused for its address
(R508), or applied once. -/
def atomicRequest (y : Sys) (r : Run) (way : ReqWay) (port tag : Nat) (a : AtomicReq) : Run :=
  let p := ReqWay.part y way
  let site := ReqWay.site y r a.addr way
  match (r.part p).dedup.find? (fun e => e.port = port && e.tag = tag) with
  | some e => answerReq r way port tag (.reply port tag e.reply)
  | none =>
    if site.room ≤ ((r.part p).dedup.filter (fun e => e.site = site)).length then r else
    match (match way with | .fabric _ => fabricBad y r p a.addr (ATy.bytes a.ty) | .inside _ => outerBad y r p a.addr (ATy.bytes a.ty)) with
    | some f => answerReq r way port tag (.refusal f)
    | none =>
      let (old, r) := atomicAt r a
      answerReq (r.onPart p (fun q => { q with dedup := q.dedup ++ [⟨site, port, tag, old, none⟩] })) way port tag (.reply port tag old)

/-- ATOMIC_REQUEST. -/
def execAtomicRequest (way : ReqWay) (port tag : Nat) (a : AtomicReq) (s : State) : Host.Outcome State Fault Refusal :=
  let k (y : Sys) (r : Run) : Run := r.holdOr (ReqWay.part y way) (fun _ => true) (.atomicRequest way port tag a) (fun r => atomicRequest y r way port tag a)
  match way with
  | .fabric i => inbound i a.addr s k
  | .inside _ => event s k

/-- RELEASE_FLIT: the source has acknowledged the reply. -/
def execReleaseFlit (way : ReqWay) (port tag : Nat) (s : State) : Host.Outcome State Fault Refusal :=
  event s (fun y r => r.onPart (ReqWay.part y way) (fun p => { p with dedup := p.dedup.filter (fun e => !(e.port = port && e.tag = tag)) }))

/-- A late MEM trap of a wave (R288, R313, R508). -/
def lateMem (sub : Nat) (xs : List (Nat × Nat)) (origin : Word64) (cw : Nat := 0) : LateTrap :=
  { cls := 7, sub := sub, mask := lanesOf xs, origin := origin, cw := BitVec.ofNat 64 cw, lanes := laneWords xs }

/-- The remote lanes of a pending result. -/
def PendKind.far : PendKind → List FarLane | .load a => a | .atomic a => a | .object _ a => a | _ => []
def Pend.far (p : Pend) : List FarLane := p.kind.far
def PendKind.keep (ls : List FarLane) : PendKind → PendKind | .load _ => .load ls | .atomic _ => .atomic ls | k => k
def farMask (ls : List FarLane) : Lanes := lanesOf (ls.map (fun x => (x.lane, 0)))

/-- The part of a register reference that lies in some lanes. -/
def RegRef.inLanes (x : RegRef) (m : Lanes) : RegRef := if x.vec then { x with mask := x.mask &&& m } else x

/-- The remote lanes of a pending result among some. -/
def Pend.among (p : Pend) (m : Lanes) : List FarLane := p.far.filter (fun x => m.getLsbD x.lane)

/-- A pending result of which the remote lanes `m` are answered: the registers that are complete, with all that was of this device,
and what is still owed. -/
def Pend.split (p : Pend) (m : Lanes) : List RegRef × Option Pend :=
  let rest := p.far.filter (fun x => !m.getLsbD x.lane)
  if rest = [] then (p.regs, none)
  else (p.regs.map (fun x => x.inLanes (~~~(farMask rest))),
        some { p with kind := p.kind.keep rest, regs := p.regs.map (fun x => x.inLanes (farMask rest)) })

/-- Put what is left of a pending result in its place. -/
def Wave.setPend (w : Wave) (id : Nat) (q : Option Pend) : Wave :=
  { w with pend := w.pend.filterMap (fun p => if p.id = id then q else some p) }

/-- Remote lanes of a pending result that will not come: their registers become indeterminate, and the wave owes a late trap at the
lanes' virtual addresses; one that has ended owes none. -/
def Wave.abandon (w : Wave) (p : Pend) (m : Lanes) (sub cw : Nat) : Wave :=
  let lost := p.among m
  let s := p.split m
  let w := ((w.fill s.1).spoil (p.regs.map (fun x => x.inLanes (farMask lost)))).setPend p.id s.2
  if w.life = .ended then w else { w with late := w.late ++ [lateMem sub (lost.map (fun x => (x.lane, x.va))) p.pc cw] }

/-- The remote lanes `m` of a wave's pending result end with a fault. -/
def farLost (y : Sys) (r : Run) (wid : Nat) (p : Pend) (m : Lanes) (sub : Nat) (write : Bool) : Run :=
  match p.among m with
  | [] => r
  | x :: _ => r.onWave wid (fun w => w.abandon p m sub (farDetail y r wid sub x.va write x.priv))

/-- ATOMIC_TIMEOUT (R288). Whether the operation was applied shows only at the other device. -/
def execAtomicTimeout (w k : Nat) (m : Lanes) (_applied : Bool) (s : State) : Host.Outcome State Fault Refusal :=
  event s (fun y r => match (r.wave w).pend.find? (fun p => p.id = k) with
    | some p => (match p.kind with | .atomic _ => farLost y r w p m 0x20 true | _ => r)
    | none => r)

/-! ## Monitors (R292 to R295) -/

/-- Watches registered at a home slice, which holds 32: of the partition's waves, since no other reaches it. -/
def Run.watchesAt (r : Run) (y : Sys) (p site : Nat) : Nat :=
  (r.waves.filter (fun e => match e.2.mon with
    | some m => m.registered && r.partOf e.1 == p && homeSlice y r p m.line == site
    | none => false)).length

/-- MONITOR (R292). The snapshot of a word outside this device is not known here. -/
def monitorEff (o : Ops) (y : Sys) (r : Run) (c : Iss) : Eff Unit :=
  let w := r.wave c.wid
  let b := r.block w.blk
  let l0 := c.act.lowest
  let a := (r.rdScalar c.wid o.a 0 l0 + BitVec.ofInt 64 (r.rdLane c.wid o.b 0 l0).toInt).toNat
  let xs := c.act.toList.map (fun l => (l, a))
  match issueChecks w { b with watch := [] } (r.ctx b.ctx) xs 8 true false with
  | some t => .trap r t
  | none =>
    (preTranslate y r (coreOf c.wid) (slotOf c.wid) b.ctx { priv := w.priv } true c.pc xs).bind fun r ts =>
    match ts with
    | [] => .ok r ()
    | t :: _ =>
      let pa := t.2.pa
      let p := (r.ctx b.ctx).part
      let r := r.onWave c.wid (fun w => { w with mon := none })
      if isAper pa then
        let (x, r) := r.free
        .ok (r.onWave c.wid (fun w => { w with mon := some ⟨a, pa / 256 * 256, pa, x, false, false⟩ })) ()
      else
        let reg := r.watchesAt y p (homeSlice y r p (pa / 256 * 256)) < 32
        .ok (r.onWave c.wid (fun w => { w with mon := some ⟨a, pa / 256 * 256, pa, BitVec.ofNat 64 (memRead r.mem pa 8), reg, false⟩ })) ()

def execMonitor (h : Hd) (o : Ops) (s : State) : Host.Outcome State Fault Refusal :=
  issue s h { uses := usesOf h o } (ordered false false (monitorEff o))

/-- Whether the watched word of this device's memory has been written since the snapshot. -/
def Run.monitorHit (r : Run) (m : Monitor) : Bool :=
  !isAper m.word && (BitVec.ofNat 64 (memRead r.mem m.word 8) ≠ m.snapshot || m.written)

def scalarNum (o : Opd) : BitVec 7 := match o with | .s n => n | _ => 0

/-- MWAIT (R293). Whether a word of another device still is what the snapshot holds is open here. -/
def mwaitEff (o : Ops) (_ : Sys) (r : Run) (c : Iss) : Eff Unit :=
  let d := scalarNum o.d
  match (r.wave c.wid).mon with
  | none => .ok (r.onWave c.wid (fun w => w.setS d.toNat 0)) ()
  | some m =>
    let (x, r) := if isAper m.word then r.free else (0, r)
    if r.monitorHit m || x.getLsbD 0 then .ok (r.onWave c.wid (fun w => { w.setS d.toNat 1 with mon := none })) ()
    else
      let t := r.rdCount c o.a
      .park r (.mwait (if t = 0 then none else some (r.clk + t)) d)

def execMwait (h : Hd) (o : Ops) (s : State) : Host.Outcome State Fault Refusal :=
  issue s h { uses := usesOf h o, switch := true } (mwaitEff o)

/-- The groups of a wave that wait in MWAIT: members, deadline and status register of each. -/
def Wave.mwaits (w : Wave) : List (Lanes × Option Nat × BitVec 7) :=
  (w.parts.filterMap (fun (p : Part) => match p.park with | .mwait t d => some (w.groupOf p, t, d) | _ => none)).dedup

/-- The first of them. -/
def Wave.inMwait (w : Wave) : Option (Option Nat × BitVec 7) := w.mwaits.head?.map (·.2)

/-- The MWAITs of a wave that a test on their deadlines picks return with a status; the monitor is disarmed. A wave that has stopped stays
parked (R489, R495). -/
def mwaitEnd (r : Run) (wid : Nat) (status : Word64) (pick : Option Nat → Bool) : Run :=
  r.onWave wid (fun w =>
    let es := w.mwaits.filter (fun e => pick e.2.1)
    if es = [] ∨ w.life ≠ .live then w else
    { es.foldl (fun (w : Wave) e => (w.setS e.2.2.toNat status).complete e.1 false) w with mon := none })

/-- MONITOR_WRITE_WAKE: a registered watch has seen a write. -/
def execMonitorWriteWake (w : Nat) (s : State) : Host.Outcome State Fault Refusal :=
  event s (fun _ r => match (r.wave w).mon with
    | some m => if m.registered && r.monitorHit m then mwaitEnd r w 1 (fun _ => true) else r
    | none => r)

/-- Whether a deadline has come. -/
def Run.past (r : Run) (t : Option Nat) : Bool := match t with | some t => t ≤ r.clk | none => false

/-- MWAIT_TIMEOUT. -/
def execMwaitTimeout (w : Nat) (s : State) : Host.Outcome State Fault Refusal := event s (fun _ r => mwaitEnd r w 2 r.past)

/-- A pre-emption request for a context stands: until its step is done (R293, R446, R487). -/
def Ctx.wanted (c : Ctx) : Bool := bits c.preempt 4 3 < bits c.preempt 0 3 || (c.step ≠ 0 && !c.done)

/-- Whether a PWR trap is due to a wave (R437). -/
def Run.pwrDue (r : Run) (wid : Nat) : Bool :=
  let w := r.wave wid
  w.pwrOwed || (r.core (coreOf wid)).pwrCond && !w.pwrTaken

/-- The events that end an MWAIT (R293). -/
def Run.eventFor (r : Run) (wid : Nat) : Bool :=
  let w := r.wave wid
  (r.ctxOf w).wanted || w.preTrap || r.pwrDue wid || w.late ≠ []

/-- MWAIT_EVENT: the trap the event stands for is taken before the next instruction. -/
def execMwaitEvent (w : Nat) (s : State) : Host.Outcome State Fault Refusal :=
  event s (fun _ r => if r.eventFor w then mwaitEnd r w 3 (fun _ => true) else r)

/-- SPURIOUS_WAKE. -/
def execSpuriousWake (w : Nat) (s : State) : Host.Outcome State Fault Refusal := event s (fun _ r => mwaitEnd r w 1 (fun _ => true))

end Sys2Proof.Machine
end

