-- ==== Sys2Proof/Machine/Copy.lean ====
section
/-! DEFINITION. Copy channels (R262 to R276): the enqueuing instructions, CPYWT and CPYQ, and the steps a channel takes. -/

namespace Sys2Proof.Machine

/-! ## Channels, counters and objects -/

def Run.channel (r : Run) (core ch : Nat) : List CopyOp := ((r.core core).channels.get? ch).getD []
def Run.setChannel (r : Run) (core ch : Nat) (q : List CopyOp) : Run :=
  r.onCore core (fun k => { k with channels := if q = [] then k.channels.del ch else k.channels.put ch q })

/-- %CHWPn grows (R264). -/
def Block.passBytes (b : Block) (ch n : Nat) : Block :=
  { b with chwp := (List.range 8).map (fun i => b.chwp.getD i 0 + if i = ch then n else 0) }

/-- A completion object's value and a change of it (R265). -/
def Run.objVal (r : Run) (b : Nat) (o : Nat × Nat) : Nat :=
  memRead (r.block b).scratch o.1 4 + 2 ^ 32 * memRead (r.block b).scratch o.2 4
def Run.setObj (r : Run) (b : Nat) (o : Nat × Nat) (v : Nat) : Run := scrStore (scrStore r b o.1 v 4) b o.2 (v / 2 ^ 32) 4
def Run.objCount (r : Run) (b : Nat) (o : Nat × Nat) : Run :=
  let v := r.objVal b o
  r.setObj b o (v / 2 ^ 63 * 2 ^ 63 + (v + 1) % 2 ^ 63)
def Run.objFault (r : Run) (b : Nat) (o : Nat × Nat) : Run :=
  let v := r.objVal b o
  if v / 2 ^ 63 = 1 then r else r.setObj b o (v + 2 ^ 63)

/-- The words of an object of the issuing block (R265, R267 checks 3 and 5). -/
def objPlace (r : Run) (wid addr : Nat) : Except Nat (Nat × Nat) :=
  let w := r.wave wid
  let at_ (a : Nat) : Except Nat Nat :=
    if 0x7BFFF < a % 2 ^ 30 ∨ 2 ^ 31 ≤ a then .error 0x31 else
    match scrResolve r w.blk (coreOf wid) (slotOf wid) w.priv a 4 false with
    | .error e => .error e
    | .ok (.blk b x) => if b = w.blk then .ok x else .error 0x31
    | .ok (.side _ _) => .error 0x31
  if addr % 8 ≠ 0 then .error 0x30 else
  match at_ addr, at_ (addr + 4) with
  | .ok a, .ok b => .ok (a, b)
  | .error e, _ => .error e
  | _, .error e => .error e

/-! ## Checks at issue (R267) -/

/-- R215 over a whole extent of words; the side buffer window is SRANGE. -/
def extentBad (r : Run) (wid addr len : Nat) : Option Nat :=
  let w := r.wave wid
  if 0x80000 < len then some 0x31 else
  let subs := (List.range (len / 4)).filterMap (fun i =>
    let a := (addr + 4 * i) % 2 ^ 32
    if 0x3000000 ≤ a % 2 ^ 30 then some 0x31 else
    match scrResolve r w.blk (coreOf wid) (slotOf wid) w.priv a 4 false with
    | .error e => some e
    | .ok _ => none)
  match subs with
  | [] => none
  | s :: t => some (t.foldl min s)

/-- The operands of an enqueuing instruction as it issues. -/
structure CopyArgs where
  kind : Nat
  m : CpyMod
  src : Nat
  dst : Nat
  size : Nat
  elem : Nat
  list : Nat
  obj : Option Nat
  deriving DecidableEq, Repr

/-- The contiguous ranges: address and space (true is scratchpad). -/
def CopyArgs.ranges (a : CopyArgs) : List (Nat × Bool) :=
  match a.kind with
  | 0 => [(a.dst, a.m.dst), (a.src, a.m.src)]
  | 1 => [(a.dst, a.m.dst)]
  | _ => [(a.src, a.m.src)]

/-- The places of a contiguous scratchpad range. -/
def extentHits (r : Run) (wid addr len : Nat) (b : Block) : Option Nat :=
  let w := r.wave wid
  (List.range (len / 4)).findSome? (fun i =>
    match scrResolve r w.blk (coreOf wid) (slotOf wid) w.priv (addr + 4 * i) 4 false with
    | .ok (.blk n a) => watchHit b (some n) a (a + 4)
    | _ => none)

/-- Word i of a copy's index list, which lies in the scratchpad. -/
def indexAt (r : Run) (bid core slot : Nat) (priv : Bool) (list i : Nat) : Except Nat Nat :=
  match scrResolve r bid core slot priv ((list + 4 * i) % 2 ^ 32) 4 false with
  | .error e => .error e
  | .ok p => .ok (scrRead r core p 4)

/-- Check 7: the watch range a destination overlaps, element by element for CPYS. -/
def CopyArgs.alias (a : CopyArgs) (r : Run) (wid : Nat) (b : Block) : Option Nat :=
  let w := r.wave wid
  let one (addr len : Nat) : Option Nat :=
    if a.m.dst then extentHits r wid addr len b else watchHit b none addr (addr + len)
  if a.size = 0 then none
  else if a.kind < 2 then one a.dst a.size
  else (List.range (a.size / a.elem)).findSome? (fun i =>
    match indexAt r w.blk (coreOf wid) (slotOf wid) w.priv a.list i with
    | .ok x => one (a.dst + x * a.elem) a.elem
    | .error _ => none)

/-- Checks 2 to 7 in their order. -/
def CopyArgs.check (a : CopyArgs) (r : Run) (c : Iss) : Except Trap (Option (Nat × Nat)) :=
  let w := r.wave c.wid
  let b := r.block w.blk
  let t (sub addr : Nat) : Trap := wordTrap c.act sub addr
  let bad2 : Option Trap := if a.size % 4 ≠ 0 then some (t 0x10 a.dst) else if 2 ^ 28 < a.size then some (t 0x11 a.dst) else none
  let mis := a.ranges.filter (fun e => e.1 % 4 ≠ 0)
  let bad3 : Option Trap :=
    match mis.find? (fun e => !e.2) with
    | some e => some (t 0x10 e.1)
    | none =>
      match mis with
      | e :: _ => some (t 0x30 e.1)
      | [] =>
        if a.kind ≠ 0 && a.list % 4 ≠ 0 then some (t 0x30 a.list)
        else match a.obj with | some o => if o % 8 ≠ 0 then some (t 0x30 o) else none | none => none
  let globals := (a.ranges.filter (fun e => !e.2)).map (·.1)
  let bad4 : Option Trap := if a.size = 0 then none else
    (globals.find? (fun x => 2 ^ 52 ≤ x ∨ 2 ^ 52 < x + a.size)).map (fun x => t 0x11 x)
  let bad5 : Option Trap := if a.size = 0 then none else
    (((a.ranges.filter (·.2)).map (fun e => (e.1, a.size)) ++ (if a.kind ≠ 0 then [(a.list, 4 * (a.size / a.elem))] else [])).findSome?
      (fun e => (extentBad r c.wid e.1 e.2).map (fun s => t s e.1)))
  let bad6 : Option Trap := if a.size = 0 then none else
    match w.activeTiles with
    | none => none
    | some ts =>
      let out (addr : Nat) (wr : Bool) : Bool := !declared ts wr addr a.size
      let src := a.kind ≠ 1 && !a.m.src && out a.src false
      let dst := a.kind ≠ 2 && !a.m.dst && out a.dst true
      if src || dst then
        let addr := if dst then a.dst else a.src
        some { cls := 10, sub := 1, mask := c.act, cw := w.activeTicket, lw := laneWords (c.act.toList.map (fun l => (l, addr))) }
      else none
  let bad7 : Option Trap := (a.alias r c.wid b).map (fun i =>
    { cls := 9, sub := 2, mask := c.act, cw := tileCw 0xFF i 0 0 })
  match bad2.orElse (fun _ => bad3.orElse (fun _ => bad4.orElse (fun _ => bad5))) with
  | some t => .error t
  | none =>
    match a.obj with
    | none => (match bad6.orElse (fun _ => bad7) with | some t => .error t | none => .ok none)
    | some o =>
      match objPlace r c.wid o with
      | .error e => .error (t e o)
      | .ok p => (match bad6.orElse (fun _ => bad7) with | some t => .error t | none => .ok (some p))

/-- A 64-bit or 32-bit address by its space. -/
def spaceAddr (sp : Bool) (x : Word64) : Nat := if sp then (x.setWidth 32).toNat else x.toNat

/-- The checks of an instruction that waits for the commit token are over (R247). -/
def CopyArgs.checked (a : CopyArgs) (r : Run) (c : Iss) : Except Trap (Option (Nat × Nat)) :=
  match (r.wave c.wid).tokenKept c.m with
  | none => a.check r c
  | some _ => .ok (a.obj.bind (fun o => match objPlace r c.wid o with | .ok p => some p | .error _ => none))

/-- The global ranges of a copy with whether they are written: the contiguous ones, and the indexed elements as their list stands. -/
def CopyArgs.globals (a : CopyArgs) (r : Run) (wid : Nat) : List (Nat × Nat × Bool) :=
  let w := r.wave wid
  let el (base : Nat) (wr : Bool) : List (Nat × Nat × Bool) := (List.range (a.size / a.elem)).filterMap (fun i =>
    match indexAt r w.blk (coreOf wid) (slotOf wid) w.priv a.list i with
    | .ok x => some (base + x * a.elem, a.elem, wr)
    | .error _ => none)
  (if a.m.src then [] else if a.kind = 1 then el a.src false else [(a.src, a.size, false)]) ++
  (if a.m.dst then [] else if a.kind = 2 then el a.dst true else [(a.dst, a.size, true)])

/-- The precise PERM of a copy that touches a control aperture, as its ranges translate when it issues (R507, log entry 103). -/
def CopyArgs.ctrl (a : CopyArgs) (y : Sys) (r : Run) (c : Iss) : Option Trap :=
  let cid := r.cidOf c.wid
  (a.globals r c.wid).findSome? (fun e =>
    let k : Want := { write := e.2.2, priv := (r.wave c.wid).priv }
    (pagesOf e.1 e.2.1).findSome? (fun va => match walkBoth y r cid va k with
      | .ok (_, _, _, pa) => if isAper pa && aperCtrl (r.aperOf c.wid pa) then
          some (memTrap 0x13 (c.act.toList.map (fun l => (l, va))) (detailCode (finalErr y r cid va k) k)) else none
      | .error _ => none))

/-- The effect of CPY, CPYG and CPYS (R267, R268). -/
def copyEff (a : Run → Iss → CopyArgs) (y : Sys) (r : Run) (c : Iss) : Eff Unit :=
  let w := r.wave c.wid
  let a := a r c
  match a.checked r c, (if (w.tokenKept c.m).isSome then none else a.ctrl y r c) with
  | .error t, _ => .trap r t
  | .ok _, some t => .trap r t
  | .ok obj, none =>
    if w.remote ≠ [] then .park r (.retry (.release false))
    else if a.size = 0 then
      .ok (match obj with | some o => r.objCount w.blk o | none => r) ()
    else gate r c (!a.m.dst) w.window.isSome [] fun r =>
      let core := coreOf c.wid
      let ch := a.m.ch.toNat
      if 6 ≤ (r.channel core ch).length then .park r (.retry (.channel ch))
      else
        let op : CopyOp := { kind := a.kind, blk := w.blk, wave := c.wid, srcSp := a.m.src, dstSp := a.m.dst
                             src := BitVec.ofNat 64 a.src, dst := BitVec.ofNat 64 a.dst, len := a.size, elem := a.elem
                             list := BitVec.ofNat 64 a.list, obj := obj, pc := c.pc, priv := w.priv, tiles := w.activeTiles
                             ticket := w.activeTicket }
        .ok (r.setChannel core ch (r.channel core ch ++ [op])) ()

/-- The operands of CPY. -/
def cpyArgs (m : CpyMod) (o : Ops) (r : Run) (c : Iss) : CopyArgs :=
  let sc (x : Opd) : Word64 := r.rdScalar c.wid x 0 c.act.lowest
  { kind := 0, m := m, src := spaceAddr m.src (sc o.a), dst := spaceAddr m.dst (sc o.d), size := (sc o.b).toNat, elem := 4, list := 0
    obj := match o.c with | .s _ => some (spaceAddr true (sc o.c)) | _ => none }

/-- The operands of CPYG and CPYS. -/
def cpyIdxArgs (kind : Nat) (m : CpyMod) (o : Ops) (r : Run) (c : Iss) : CopyArgs :=
  let sc (x : Opd) : Word64 := r.rdScalar c.wid x 0 c.act.lowest
  let e := 4 * 2 ^ m.e.toNat
  { kind := kind, m := m, src := spaceAddr m.src (sc o.a), dst := spaceAddr m.dst (sc o.d), size := (sc o.b).toNat * e, elem := e
    list := spaceAddr true (r.rdScalar c.wid o.b 1 c.act.lowest)
    obj := match o.c with | .s _ => some (spaceAddr true (sc o.c)) | _ => none }

def copyUses (h : Hd) (o : Ops) (bLen : Nat) : List Use :=
  [⟨0, o.d, 1, false, false, none⟩, ⟨1, o.a, 1, false, h.fea, none⟩, ⟨2, o.b, bLen, false, h.feb, none⟩, ⟨3, o.c, 1, false, h.fec, none⟩]

def execCpy (h : Hd) (m : CpyMod) (o : Ops) (s : State) : Host.Outcome State Fault Refusal :=
  issue s h { uses := copyUses h o 1, closer := true, mem := true } (ordered false false (copyEff (cpyArgs m o)))

/-- The pair of CPYG and CPYS runs past s127 (R155, R266). -/
def idxEff (kind : Nat) (h : Hd) (m : CpyMod) (o : Ops) (y : Sys) (r : Run) (c : Iss) : Eff Unit :=
  match pairPast false 2 o.b with
  | some n => .trap r (pairTrap c.act n)
  | none => r.checked c (copyUses h o 2) (ordered false false (copyEff (cpyIdxArgs kind m o)) y r c)

def execCpyg (h : Hd) (m : CpyMod) (o : Ops) (s : State) : Host.Outcome State Fault Refusal :=
  issue s h { closer := true, mem := true } (idxEff 1 h m o)
def execCpys (h : Hd) (m : CpyMod) (o : Ops) (s : State) : Host.Outcome State Fault Refusal :=
  issue s h { closer := true, mem := true } (idxEff 2 h m o)

/-! ## CPYWT and CPYQ (R273 to R275) -/

/-- The late trap of a channel's fault record. -/
def recordTrap (act : Lanes) (f : CopyFault) : Trap :=
  { cls := f.cls, sub := f.sub, mask := act, cw := f.detail, late := true, origin := f.origin, lw := act.toList.map (fun l => (l, f.addr)) }

/-- Report a record, which empties it. -/
def Run.report (r : Run) (b ch : Nat) : Run := r.onBlock b (fun x => { x with chFault := x.chFault.del ch })

/-- CPYWT (R274). -/
def cpywtEff (ch : Nat) (o : Ops) (_ : Sys) (r : Run) (c : Iss) : Eff Unit :=
  let w := r.wave c.wid
  let addr := r.wordAddr c o.a
  let val := (r.rdScalar c.wid o.b 0 c.act.lowest).toNat
  match objPlace r c.wid addr with
  | .error e => .trap r (wordTrap c.act e addr)
  | .ok p =>
    let v := r.objVal w.blk p
    if v / 2 ^ 63 = 1 then
      match (r.block w.blk).chFault.get? ch with
      | some f => .trap (r.report w.blk ch) (recordTrap c.act f)
      | none => .trap r { cls := 7, sub := 0x22, mask := c.act, late := true }
    else if val ≤ v then .ok (r.copyRecent w.blk c.wid p) ()
    else .park r (.retry (.object p.1 p.2 val))

def execCpywt (h : Hd) (ch : BitVec 3) (o : Ops) (s : State) : Host.Outcome State Fault Refusal :=
  issue s h { uses := barUses h o, switch := true } (cpywtEff ch.toNat o)

/-- CPYQ (R275). -/
def cpyqEff (ch : Nat) (o : Ops) (_ : Sys) (r : Run) (c : Iss) : Eff Unit :=
  let w := r.wave c.wid
  let core := coreOf c.wid
  match (r.block w.blk).chFault.get? ch with
  | some f => .trap (r.report w.blk ch) (recordTrap c.act f)
  | none =>
    let q := r.channel core ch
    let used := (r.core core).channels.foldl (fun n e => n + e.2.length) 0
    let paused : Bool := match q with | op :: _ => op.paused ≠ [] | [] => false
    let v := q.length + 16 * (48 - used) + if paused then 1024 else 0
    let n := (scalarNum o.d).toNat
    .ok (r.onWave c.wid (fun w => (w.setS n (BitVec.ofNat 64 v)).owe [⟨false, n, 0xFFFFFFFF#32⟩] .local false c.act c.pc)) ()

def execCpyq (h : Hd) (ch : BitVec 3) (o : Ops) (s : State) : Host.Outcome State Fault Refusal :=
  issue s h { uses := usesOf h o } (cpyqEff ch.toNat o)

/-! ## A channel at work (R263, R269, R271, R272) -/

/-- Where one side of a byte is: a place, a wait for a page, or a fault. -/
inductive CopyAt where
  | place (r : Run) (p : CopyPlace)
  | pause (r : Run) (addr detail : Nat)
  | fail (r : Run) (f : CopyFault)

def CopyOp.failure (op : CopyOp) (cls sub addr : Nat) (detail : Word64) : CopyFault := ⟨cls, sub, op.pc, BitVec.ofNat 64 addr, detail⟩

/-- Find one side of a byte at an address. -/
def copyAt (y : Sys) (r : Run) (core : Nat) (op : CopyOp) (sp wr : Bool) (a : Nat) : CopyAt :=
  let cid := (r.block op.blk).ctx
  let bad (r : Run) (sub detail : Nat) : CopyAt := .fail r (op.failure 7 sub a (BitVec.ofNat 64 detail))
  if sp then
    match scrResolve r op.blk core (slotOf op.wave) op.priv (a % 2 ^ 32) 1 wr with
    | .error e => bad r e 0
    | .ok (.side _ _) => bad r 0x31 0
    | .ok (.blk b x) => .place r (.scr b x)
  else if wr && sealedHit (r.ctx cid) a (a + 1) then bad r 0x16 0
  else
    let k : Want := { write := wr, priv := op.priv }
    match translate y (r.startWalks core (missedPages y r core cid k [a]).length) core cid a k with
    | (.error e, r) =>
      if e.replay then .pause (sendReplay r core (slotOf op.wave) cid op.pc k [(a, e)]) a (detailCode e k)
      else bad r e.sub (detailCode e k)
    | (.ok x, r) =>
      if !isAper x.pa then .place (if wr then markDirty r core cid a x.gpa else r) (.mem x.pa)
      else if aperCtrl (r.aper (r.ctx cid).part x.pa) then bad r 0x13 (detailCode (finalErr y r cid a k) k)
      else .place r (.far x.pa)

/-- The indexed side of a copy: its space and base address. -/
def CopyOp.indexed (op : CopyOp) : Option (Bool × Nat) :=
  match op.kind with
  | 0 => none
  | 1 => some (op.srcSp, op.src.toNat)
  | _ => some (op.dstSp, op.dst.toNat)

/-- R215 over an element of the scratchpad, word by word; the side buffer window is SRANGE (R267). -/
def elemScratch (r : Run) (core : Nat) (op : CopyOp) (a : Nat) : Option Nat :=
  if 2 ^ 32 < a + op.elem then some 0x31 else
  let subs := (List.range (op.elem / 4)).filterMap (fun j =>
    if 0x3000000 ≤ (a + 4 * j) % 2 ^ 30 then some 0x31 else
    match scrResolve r op.blk core (slotOf op.wave) op.priv (a + 4 * j) 4 (op.kind = 2) with
    | .error e => some e
    | .ok _ => none)
  match subs with
  | [] => none
  | s :: t => some (t.foldl min s)

/-- What stops an indexed element as it is started: outside its space, or outside the declared set (R267, R269). -/
def elemFault (r : Run) (core : Nat) (op : CopyOp) (x : Nat) : Option CopyFault :=
  match op.indexed with
  | none => none
  | some (sp, base) =>
    let a := base + x * op.elem
    if sp then (elemScratch r core op a).map (fun s => op.failure 7 s a 0)
    else if 2 ^ 52 < a + op.elem then some (op.failure 7 0x11 a 0)
    else if (match op.tiles with | some ts => !declared ts (op.kind = 2) a op.elem | none => false) then some (op.failure 10 1 a op.ticket)
    else none

/-- The index word of the element that byte k belongs to: read as the element is started, then kept (R269). -/
def elemIndex (r : Run) (core : Nat) (op : CopyOp) (k : Nat) : Except CopyFault Nat :=
  if op.kind = 0 then .ok 0 else
  match op.idx.filter (fun e => e.1 = k / op.elem) with
  | some e => .ok e.2
  | none =>
    match indexAt r op.blk core (slotOf op.wave) op.priv op.list.toNat (k / op.elem) with
    | .error e => .error (op.failure 7 e (op.list.toNat + 4 * (k / op.elem)) 0)
    | .ok x => match elemFault r core op x with
      | some f => .error f
      | none => .ok x

/-- Source and destination address of byte k with its element's index (R269). -/
def CopyOp.byteAt (op : CopyOp) (x k : Nat) : Nat × Nat :=
  let off := k % op.elem
  match op.kind with
  | 0 => (op.src.toNat + k, op.dst.toNat + k)
  | 1 => (op.src.toNat + x * op.elem + off, op.dst.toNat + k)
  | _ => (op.src.toNat + k, op.dst.toNat + x * op.elem + off)

/-- Whether a place of the scratchpad is among the `n` bytes from an address on (R214, R221). -/
def scrCovers (r : Run) (core : Nat) (op : CopyOp) (base n : Nat) (b a da : Nat) : Bool :=
  (base ≤ da && da < base + n) ||
  (match scrResolve r op.blk core (slotOf op.wave) op.priv (base % 2 ^ 32) 1 false with
   | .ok (.blk b' x) => b == b' && base / 2 ^ 30 % 2 = 0 && x ≤ a && a < x + n
   | _ => false)

/-- Whether a destination byte lies in the source range of its own copy, whose value R269 then leaves open. -/
def CopyOp.overlaps (op : CopyOp) (r : Run) (core : Nat) (dst : CopyPlace) (da : Nat) : Bool :=
  let hit (base n : Nat) : Bool := match dst with
    | .scr b a => op.srcSp && scrCovers r core op base n b a da
    | _ => !op.srcSp && base ≤ da && da < base + n
  if op.kind = 1 then (List.range (op.len / op.elem)).any (fun i =>
    match indexAt r op.blk core (slotOf op.wave) op.priv op.list.toNat i with
    | .ok x => hit (op.src.toNat + x * op.elem) op.elem
    | .error _ => false)
  else hit op.src.toNat op.len

/-- The open value of byte k of a copy that overlaps its source; in DET mode the launch fixes it (R421). -/
def Run.copyFree (r : Run) (op : CopyOp) (k : Nat) : Word64 × Run :=
  let b := r.block op.blk
  let l := (r.launch b.launch).info
  if l.det then (Config.detWord [b.nbh, b.index, (op.pc - l.base).toNat, op.src.toNat, op.dst.toNat, k], r) else r.free

/-- What the next byte of a copy meets, with the index of its element: the byte, a wait, or a fault. -/
inductive CopyStep where
  | go (r : Run) (idx : Nat) (b : CopyByte)
  | pause (r : Run) (idx : Nat) (addr detail : Nat)
  | fail (r : Run) (f : CopyFault)

/-- The partition, die and aperture entry of a copy's requests for a host address. -/
def copyOut (r : Run) (core : Nat) (op : CopyOp) (pa : Nat) (o : Word64 → Out) : Run :=
  let p := (r.ctx (r.block op.blk).ctx).part
  let e := r.aper p pa
  r.dataOut p (dieOf core) e (pa / 256) (o e)

def copyWrite (r : Run) (core : Nat) (op : CopyOp) (pa : Nat) (v : Byte) : Run :=
  copyOut r core op pa (fun e => .write (aperPeer e) (aperHost e) op.wave (pa % 2 ^ 40) [v])

/-- A byte read is written: at once where it goes to this device, else by a request. One that overlaps the source is an open value. -/
def copyFound (r : Run) (core : Nat) (op : CopyOp) (b : CopyByte) (v : Byte) : Run × CopyByte :=
  let (v, r) : Byte × Run := if op.overlaps r core b.dst b.da then (let z := r.copyFree op op.delivered; (z.1.setWidth 8, z.2)) else (v, r)
  match b.dst with
  | .far pa => (copyWrite r core op pa v, { b with val := some v, sent := r.clk })
  | _ => (r, { b with val := some v })

/-- Start the next byte: read its source, or request it from another device. -/
def copyByte (y : Sys) (r : Run) (core : Nat) (op : CopyOp) : CopyStep :=
  match elemIndex r core op op.delivered with
  | .error f => .fail r f
  | .ok x =>
    let (sa, da) := op.byteAt x op.delivered
    match copyAt y r core op op.srcSp false sa with
    | .pause r a d => .pause r x a d
    | .fail r f => .fail r f
    | .place r src =>
      match copyAt y r core op op.dstSp true da with
      | .pause r a d => .pause r x a d
      | .fail r f => .fail r f
      | .place r dst =>
        let b : CopyByte := ⟨sa, da, none, dst, r.clk⟩
        let seen (v : Byte) : CopyStep := (let z := copyFound r core op b v; .go z.1 x z.2)
        match src with
        | .scr n a => seen (memGet (r.block n).scratch a)
        | .mem pa => seen (memGet r.mem pa)
        | .far pa => .go (copyOut r core op pa (fun e => .read (aperPeer e) (aperHost e) op.wave [(0, pa % 2 ^ 40)])) x b

/-- Change the copy at the head of a channel. -/
def Run.onHead (r : Run) (core ch : Nat) (f : CopyOp → CopyOp) : Run :=
  match r.channel core ch with
  | op :: t => r.setChannel core ch (f op :: t)
  | [] => r

/-- Deliver a byte of the head copy: what this device holds is written, and the counters move past it. -/
def copyDeliver (r : Run) (core ch : Nat) (op : CopyOp) (p : CopyPlace) (v : Byte) : Run :=
  let r := match p with
    | .scr b a => scrStore (r.noteWriter op.blk (.copy op.obj) [] (some b) a 1) b a v.toNat 1
    | .mem pa => storeBytes (r.noteWriter op.blk (.copy op.obj) [] none pa 1) pa [v]
    | .far _ => r
  (r.onHead core ch (fun o => { o with delivered := o.delivered + 1, flight := [] })).onBlock op.blk (fun b => b.passBytes ch 1)

/-- Whether a byte awaits nothing of another device. -/
def CopyByte.here (b : CopyByte) : Bool := b.val.isSome && (match b.dst with | .far _ => false | _ => true)

/-- Deliver a byte that awaits nothing, or let it await its answer. -/
def copyPut (r : Run) (core ch : Nat) (op : CopyOp) (b : CopyByte) : Run :=
  if b.here then copyDeliver r core ch op b.dst (b.val.getD 0) else r.onHead core ch (fun o => { o with flight := [b] })

/-- The byte under way is answered: its source value has come, or its write is acknowledged (R309). -/
def copyAnswer (r : Run) (core ch : Nat) (v : Byte) : Run :=
  match r.channel core ch with
  | op :: _ => (match op.flight with
    | b :: _ =>
      (match b.val with
      | none => (let z := copyFound r core op b v; copyPut z.1 core ch op z.2)
      | some x => copyDeliver r core ch op b.dst x)
    | [] => r)
  | [] => r

/-- Bytes to the next place where a copy may rest: a 256-byte boundary of its destination order, or the end of an element (R277). -/
def CopyOp.unit (op : CopyOp) : Nat := if op.kind = 0 then 256 else op.elem
def CopyOp.edge (op : CopyOp) : Nat := op.unit - op.delivered % op.unit

/-- Whether a copy starts no further byte now: it is through, awaits an answer or a page, or has met a fault. -/
def CopyOp.stays (op : CopyOp) : Bool := op.len ≤ op.delivered || op.fault.isSome || op.paused ≠ [] || op.flight ≠ []

/-- Whether a halt or a save may find a copy where it stands (R277): at a boundary, or paused, with nothing in flight. -/
def CopyOp.rests (op : CopyOp) : Bool := op.flight = [] && op.fault.isNone && (op.delivered % op.unit = 0 || op.len ≤ op.delivered || op.paused ≠ [])

/-- Carry the head of a channel on, byte by byte, each delivered before the next is started: no byte behind one that faults is written
(R263, R272), and writes to a line leave in delivery order (R312). -/
def copyRun (y : Sys) (core ch : Nat) : Nat → Run → Run
  | 0, r => r
  | fuel + 1, r =>
    match r.channel core ch with
    | [] => r
    | op :: _ =>
      if op.stays then r else
      let keep (o : CopyOp) (x : Nat) : CopyOp := { o with idx := if o.kind = 0 then none else some (o.delivered / o.elem, x) }
      match copyByte y r core op with
      | .go r x b => copyRun y core ch fuel (copyPut (r.onHead core ch (fun o => keep o x)) core ch op b)
      | .pause r x a d => r.onHead core ch (fun o => { keep o x with paused := [a, d] })
      | .fail r f => r.onHead core ch (fun o => { o with fault := some f })

/-- Whether the head copy of a channel may go on: where a halt or a forced save of its context stops it, only as far as its next boundary
(R277). -/
def Run.copyMoves (r : Run) (op : CopyOp) : Bool := (r.ctx (r.block op.blk).ctx).step < 2 || !op.rests

/-- Begin or carry on the head copy as far as its next boundary. -/
def copyGo (y : Sys) (r : Run) (core ch : Nat) : Run :=
  match r.channel core ch with
  | [] => r
  | op :: _ =>
    if op.stays || !r.walkerFree core || !r.copyMoves op then r
    else copyRun y core ch op.edge (r.onHead core ch (fun o => { o with started := true }))

/-- COPY_START. -/
def execCopyStart (core ch : Nat) (s : State) : Host.Outcome State Fault Refusal := event s (fun y r => copyGo y r core ch)

/-- COPY_RESUME: the translation it paused on is repaired (R271). -/
def execCopyResume (core ch : Nat) (s : State) : Host.Outcome State Fault Refusal :=
  event s (fun y r => copyGo y (r.onHead core ch (fun o => { o with paused := [] })) core ch)

/-- COPY_COMPLETE: bytes of `x` answer what the copy's byte under way awaits of another device, its value and then its acknowledgement;
with its last byte delivered the copy leaves its channel and counts (R265). -/
def execCopyComplete (core ch : Nat) (x : List Byte) (s : State) : Host.Outcome State Fault Refusal :=
  event s (fun _ r =>
    let r := x.foldl (fun r v => copyAnswer r core ch v) r
    match r.channel core ch with
    | [] => r
    | op :: t =>
      if op.len ≤ op.delivered && op.fault.isNone then
        let r := r.setChannel core ch t
        match op.obj with | some o => r.objCount op.blk o | none => r
      else r)

/-- A copy ends with a fault (R272, R273). -/
def copyFail (r : Run) (core ch : Nat) (f : CopyFault) : Run :=
  match r.channel core ch with
  | [] => r
  | op :: t =>
    let r := r.setChannel core ch t
    let r := r.onBlock op.blk (fun b =>
      { b.passBytes ch (op.len - op.delivered) with
        chFault := if (b.chFault.get? ch).isSome then b.chFault else b.chFault.put ch f })
    match op.obj with | some o => r.objFault op.blk o | none => r

/-- The fault record of a byte whose request another device refuses or never answers (R508, R273): its source address, unless the
write is what failed. -/
def farCopyFault (y : Sys) (r : Run) (op : CopyOp) (b : CopyByte) (x : FarFault) : CopyFault :=
  let wr : Bool := b.val.isSome
  let a := if wr then b.da else b.sa
  let sub := FarFault.sub x
  let k : Want := { write := wr, priv := op.priv }
  let detail := if 0x12 ≤ sub ∧ sub ≤ 0x15 then detailCode (finalErr y r (r.block op.blk).ctx a k) k else 0
  op.failure 7 sub a (BitVec.ofNat 64 detail)

/-- COPY_FAULT: the fault the copy met here, once what it sent before has been answered; or the first byte under way has been
refused or has timed out. -/
def execCopyFault (core ch : Nat) (f : Option FarFault) (s : State) : Host.Outcome State Fault Refusal :=
  event s (fun y r => match r.channel core ch with
    | [] => r
    | op :: _ =>
      match f, op.flight, op.fault with
      | some x, b :: _, _ => copyFail r core ch (farCopyFault y r op b x)
      | _, [], some e => copyFail r core ch e
      | _, _, _ => r)

end Sys2Proof.Machine
end

