-- ==== Sys2Proof/Machine/TileEval.lean ====
section
/-! DEFINITION. Evaluation of deferred tiles (R322 to R328, R349 to R366, R373 to R380, R386): the regions of a
demand, its clauses in post-order, the conversions and sums, and the writes. An evaluation makes one access of memory or scratchpad
at a time and keeps the answers, so that whatever else happens may come between two accesses (R340); each step works on from the
answers so far. -/

namespace Sys2Proof.Machine

/-! ## The engine's time (R433, R436, R542) -/

def Core.throttled (k : Core) : Bool := k.balctl.getLsbD 8
def Core.clamped (k : Core) : Bool := k.balctl.getLsbD 10

/-- The issue duty of a die; a die at 105 °C or more issues nothing (R542, R543). -/
def Die.issueDuty (d : Die) : Nat := if d.hot = 2 then 0 else d.duty

/-- Whether the engine may run a native step in a cycle: in the first of each 16 that the duty of its die leaves it, and under throttle
in the even ones of those. -/
def Core.engineActs (k : Core) (duty t : Nat) : Bool := !k.clamped && t % 16 < duty && (!k.throttled || t % 2 = 0)

/-- The engine has run, up to a cycle of the window, the steps that the cycles allow. -/
def Core.runTo (k : Core) (duty t : Nat) : Core :=
  let n := min k.nx ((List.range 256).filter (fun i => k.nxAt + i < t && k.engineActs duty (k.nxAt + i))).length
  { k with nx := k.nx - n, nxRan := k.nxRan + n, nxAt := t }

/-- Native steps of a core begin, behind those it still has. -/
def Run.engineAdd (r : Run) (core n : Nat) : Run :=
  r.onCore core (fun k => let k := k.runTo (r.die (dieOf core)).issueDuty r.clk; { k with nx := k.nx + n })

/-! ## Regions (R324) -/

/-- Rows [r0, r1) and columns [c0, c1). -/
structure Box where
  r0 : Nat
  r1 : Nat
  c0 : Nat
  c1 : Nat
  deriving DecidableEq, Repr

def Box.join (a b : Box) : Box := ⟨min a.r0 b.r0, max a.r1 b.r1, min a.c0 b.c0, max a.c1 b.c1⟩
def Region.box (g : Region) : Box := ⟨g.row0, g.row0 + g.rows, g.col0, g.col0 + g.cols⟩

def ElemTy.isPb (t : ElemTy) : Bool := t = .pb8 || t = .pb4
/-- Bytes of an element; a PB4 pair shares a byte. -/
def ElemTy.bytes : ElemTy → Nat
  | .fp32 => 4 | .int32 => 4 | .uint32 => 4 | .fp16 => 2 | .bf16 => 2 | .int16 => 2 | _ => 1
def ElemTy.isByteInt (t : ElemTy) : Bool := t = .int8 || t = .uint8

/-- The source coordinate of an element (R322). -/
def IMap.coord (m : IMap) (i j : Nat) : Nat × Nat :=
  let (a, b) := if m.t then (j, i) else (i, j)
  (m.roff + (if m.br then 0 else a), m.coff + (if m.bc then 0 else b))

/-- The bounding box of a region mapped into the source. -/
def IMap.box (m : IMap) (x : Box) : Box :=
  let y : Box := if m.t then ⟨x.c0, x.c1, x.r0, x.r1⟩ else x
  let y : Box := if m.br then { y with r0 := 0, r1 := 1 } else y
  let y : Box := if m.bc then { y with c0 := 0, c1 := 1 } else y
  ⟨m.roff + y.r0, m.roff + y.r1, m.coff + y.c0, m.coff + y.c1⟩

/-- Columns widened to whole blocks of a clause (R324, R386). -/
def Clause.widen (c : Clause) (x : Box) : Box :=
  { x with c0 := x.c0 / 32 * 32, c1 := min c.cols ((x.c1 + 31) / 32 * 32) }

def COp.isCvt : COp → Bool | .tcvt _ _ => true | _ => false

/-- The box of a clause as it is evaluated: a conversion into a block format, and a block-format root written to
memory, take whole blocks. -/
def Clause.evalBox (c : Clause) (wideRoot : Bool) (x : Box) : Box :=
  if ElemTy.isPb c.ty && (wideRoot || COp.isCvt c.op) then c.widen x else x

def clauseAt (g : Tbl Clause) (i : Nat) : Clause :=
  (g.get? i).getD { op := .leaf, rows := 0, cols := 0, ty := .fp32, fmt := 0, srcs := [], fp := 0, origin := 0, no := 0 }

/-- The operand regions of a clause in the order of its operands (R324). -/
def Clause.opBoxes (g : Tbl Clause) (c : Clause) (x : Box) : List Box :=
  let a : Clause := match c.srcs with | (.clause i, _) :: _ => clauseAt g i | _ => clauseAt g 1000
  match c.op with
  | .tmma _ _ => [⟨x.r0, x.r1, 0, a.cols⟩, ⟨0, a.cols, x.c0, x.c1⟩, x]
  | .tred _ col => [if col then ⟨0, a.rows, x.c0, x.c1⟩ else ⟨x.r0, x.r1, 0, a.cols⟩]
  | _ => c.srcs.map (fun _ => x)

/-- Insert a clause by age, youngest first. -/
def insertAge (e : Nat × Clause) : List (Nat × Clause) → List (Nat × Clause)
  | [] => [e]
  | f :: t => if f.2.no < e.2.no then e :: f :: t else f :: insertAge e t

/-- The boxes of every clause a demand reaches: a reader is younger than its operands, so that the youngest first
settles each box before it is carried on. -/
def regionsOf (g : Tbl Clause) (root : Nat) (x : Box) (wide : Bool) : Tbl Box :=
  (g.foldl (fun es e => insertAge e es) []).foldl (fun (bs : Tbl Box) (e : Nat × Clause) =>
    match bs.get? e.1 with
    | none => bs
    | some b0 =>
      let b := e.2.evalBox (wide && e.1 == root) b0
      (e.2.srcs.zip (e.2.opBoxes g b)).foldl (fun (bs : Tbl Box) (o : (Src × IMap) × Box) =>
        match o.1.1 with
        | .clause i =>
          let n := o.1.2.box o.2
          bs.put i (match bs.get? i with | some old => old.join n | none => n)
        | _ => bs) (bs.put e.1 b)) [(root, x)]

/-- Post-order: operands before their readers, left to right, each once (R326). -/
def postOrder (g : Tbl Clause) : Nat → Nat → List Nat → List Nat
  | 0, _, seen => seen
  | fuel + 1, i, seen =>
    if seen.contains i then seen else
    (clauseAt g i).srcs.foldl (fun (seen : List Nat) (s : Src × IMap) => match s.1 with
      | .clause k => postOrder g fuel k seen
      | _ => seen) seen ++ [i]

/-! ## Evaluation state -/

/-- What an evaluation carries: the run, the flags raised, tiles and boxes by clause, scale words read for the clause
at hand, reservations and written outliers by clause; `todo` the answers of earlier steps it has yet to take, `taken` how many it
has, `mark` how many before the clause `here`; whether the clause has read a byte that makes its results unpredictable (R311); and the
writes that await an acknowledgement. -/
structure Ev where
  run : Run
  bid : Nat
  g : Tbl Clause
  boxes : Tbl Box
  tiles : Tbl TileV := []
  words : List (Int × Nat) := []
  flags : Nat := 0
  resv : Tbl (Nat × Nat) := []
  outs : Tbl (List (Nat × Nat)) := []
  todo : List Nat := []
  taken : Nat := 0
  mark : Nat := 0
  here : Nat := 0
  wild : Bool := false
  out : List BatchFault := []

/-- Where an evaluation stands: at a value; at a late fault; paused on replayable pages; at an access just made, with its answer; at
an access of another device just sent, with its timeout and its bytes. -/
inductive EvR (α : Type) where
  | ok (e : Ev) (x : α)
  | fault (e : Ev) (f : BatchFault)
  | pause (e : Ev) (f : BatchFault) (pages : List Nat)
  | more (e : Ev) (v : Nat)
  | ask (e : Ev) (f : BatchFault) (n : Nat) (far : Option FarLane)

def EvR.bind {α β : Type} (r : EvR α) (f : Ev → α → EvR β) : EvR β :=
  match r with
  | .ok e x => f e x
  | .fault e b => .fault e b
  | .pause e b p => .pause e b p
  | .more e v => .more e v
  | .ask e b n x => .ask e b n x

/-- One access: its answer where it was made before, else it is made now. -/
def Ev.once (e : Ev) (f : Ev → EvR Nat) : EvR Nat :=
  match e.todo with
  | v :: t => .ok { e with todo := t, taken := e.taken + 1 } v
  | [] => (f e).bind .more

def evList {α β : Type} (f : Ev → α → EvR β) : List α → Ev → EvR (List β)
  | [], e => .ok e []
  | x :: t, e => (f e x).bind fun e y => (evList f t e).bind fun e ys => .ok e (y :: ys)

/-- A tile over a box, row by row. -/
def evGrid (b : Box) (f : Ev → Nat → Nat → EvR (Nat × Nat)) (e : Ev) : EvR TileV :=
  (evList (fun e i => evList (fun e j => f e i j) ((List.range (b.c1 - b.c0)).map (b.c0 + ·)) e)
    ((List.range (b.r1 - b.r0)).map (b.r0 + ·)) e).bind fun e vs => .ok e ⟨b.r0, b.c0, vs⟩

/-- Element (i, j) of a tile. -/
def TileV.elem (t : TileV) (i j : Nat) : Nat × Nat := (t.vals.getD (i - t.r0) []).getD (j - t.c0) (0, 0)

def Ev.tile (e : Ev) (i : Nat) : TileV := (e.tiles.get? i).getD ⟨0, 0, []⟩
def Ev.box (e : Ev) (i : Nat) : Box := (e.boxes.get? i).getD ⟨0, 0, 0, 0⟩

/-- The late fault of a clause at an element (R334, R336); `x` is the MEM sub-cause or the flags. -/
def Ev.lateFault (e : Ev) (ci i j sub x : Nat) : BatchFault :=
  { sub := sub, cw := tileCw 0xFF 0xFF x 0, origin := (clauseAt e.g ci).origin, clause := ci, row := i, col := j }

/-- Join the flags of an element; an exception enabled in the captured control is a fault (R328, R378). -/
def Ev.note {α : Type} (e : Ev) (ci i j fl : Nat) (x : α) : EvR α :=
  let e' : Ev := { e with flags := e.flags ||| fl }
  let en := bits (clauseAt e.g ci).fp 8 5
  if (fl &&& en) ≠ 0 then
    -- the class word lists IV, DZ, OF, UF, NX in bits 20 to 16
    .fault e' (e.lateFault ci i j 0x11 (fl % 32))
  else .ok e' x

/-! ## Memory (R323, R334) -/

/-- A place an access reaches. -/
inductive WPlace where
  | mem (pa va gpa : Nat)
  | scr (p : ScrLoc)
  deriving DecidableEq, Repr

/-- Find `n` bytes for an element of a clause, with the faults of a clause read or a demand write. -/
def Ev.access (y : Sys) (e : Ev) (ci i j : Nat) (sp : Bool) (addr n : Nat) (wr : Bool) : EvR WPlace :=
  let r := e.run
  let core := e.bid / 4
  let cid := (r.block e.bid).ctx
  let page (x : Nat) : EvR WPlace := .fault e (e.lateFault ci i j 0x10 x)
  if sp then
    match scrResolve r e.bid core 24 false (addr % 2 ^ 32) n wr with
    | .error s => .fault e (e.lateFault ci i j 0x14 s)
    | .ok p => .ok e (.scr p)
  else
    let a := addr % 2 ^ 64
    if a % n ≠ 0 then page 0x10
    else if 2 ^ 52 ≤ a then page 0x11
    else if wr && sealedHit (r.ctx cid) a (a + n) then page 0x16
    else
      let k : Want := { write := wr }
      match translate y (r.startWalks core (missedPages y r core cid k [a]).length) core cid a k with
      | (.error f, r) =>
        let e : Ev := { e with run := r }
        if f.replay then
          .pause { e with run := sendReplay r core Config.streamSlot cid (clauseAt e.g ci).origin k [(a, f)] } (e.lateFault ci i j 0x10 0x12) [a / 65536]
        else .fault e (e.lateFault ci i j 0x10 f.sub)
      | (.ok x, r) =>
        let e : Ev := { e with run := r }
        if isAper x.pa && aperCtrl (r.aper (r.ctx cid).part x.pa) then .fault e (e.lateFault ci i j 0x10 0x13)
        else .ok e (.mem x.pa a x.gpa)

/-- A value the manual leaves open to a clause: in DET mode the launch fixes it (R421). -/
def Ev.draw (e : Ev) (ci i j k : Nat) : Word64 × Run :=
  let b := e.run.block e.bid
  if (e.run.launch b.launch).info.det then (Config.detWord [b.nbh, b.index, 0xFFFF, (clauseAt e.g ci).no, i, j, k], e.run) else e.run.free

/-- A byte a clause reads of what it may read. -/
def Ev.pick (e : Ev) (ci i j k : Nat) (now : Byte) (old : List Byte) : Byte × Run :=
  if old = [] then (now, e.run) else
  let (x, r) := e.draw ci i j k
  ((now :: old).getD (x.toNat % (old.length + 1)) now, r)

/-- The `n` bytes at a place as a clause reads them: what stands there or, of a write of the block's waves that is not ordered before
the append, what stood there (R340). What a spill has left in a home is read as it is. -/
def Ev.bytes (e : Ev) (ci i j : Nat) (spc : Option Nat) (addr v : Nat) : Nat → Nat → Nat × Ev
  | 0, _ => (0, e)
  | n + 1, k =>
    let c := clauseAt e.g ci
    let (b, r) := e.pick ci i j k (BitVec.ofNat 8 (v / 2 ^ (8 * k))) (if c.op = .leaf then [] else e.run.oldBytes e.bid c.no spc (addr + k))
    let (x, e) := Ev.bytes { e with run := r } ci i j spc addr v n (k + 1)
    (b.toNat * 2 ^ (8 * k) + x, e)

/-- Whether a wave has written one of some bytes between the append of a clause and now (R311). -/
def Ev.strewn (e : Ev) (ci : Nat) (spc : Option Nat) (addr n : Nat) : Bool :=
  (List.range n).any (fun k => e.run.wildByte e.bid (clauseAt e.g ci).no spc (addr + k))

def streamTimeout (e : Ev) (ci i j : Nat) : BatchFault := e.lateFault ci i j 0x15 0

/-- What stands for a byte in an answer that a wave's write in the window of R311 has made unpredictable. -/
def wildMark (b : Bool) : Nat := if b then 2 ^ 64 else 0

/-- Read `n` bytes, of an operand or else as they stand; another device answers later. -/
def Ev.load (y : Sys) (e : Ev) (ci i j : Nat) (sp : Bool) (addr n : Nat) (operand : Bool := true) : EvR Nat :=
  (e.once fun e => (e.access y ci i j sp addr n false).bind fun e p =>
    match p with
    | .scr (.blk b a) =>
      let v := memRead (e.run.block b).scratch a n
      if !operand then .ok e v else
      let (x, z) := e.bytes ci i j (some b) a v n 0
      .ok z (x + wildMark (e.strewn ci (some b) a n))
    | .scr q => .ok e (scrRead e.run (e.bid / 4) q n)
    | .mem pa _ _ =>
      if isAper pa then
        let part := (e.run.ctx (e.run.block e.bid).ctx).part
        let ap := e.run.aper part pa
        let o : Out := .read (aperPeer ap) (aperHost ap) (streamId e.bid) [(0, pa % 2 ^ 40)]
        .ask { e with run := e.run.dataOut part (dieOf (e.bid / 4)) ap (pa / 256) o } (streamTimeout e ci i j) n none
      else
        let v := memRead e.run.mem pa n
        if !operand then .ok e v else
        let (x, z) := e.bytes ci i j none pa v n 0
        .ok z (x + wildMark (e.strewn ci none pa n))).bind
    fun e v => .ok { e with wild := e.wild || 2 ^ 64 ≤ v } (v % 2 ^ 64)

/-- Write `n` bytes at a place, through a mask of bits; beyond the device the rest of a byte is open. -/
def Ev.store (e : Ev) (ci i j : Nat) (p : WPlace) (n v mask : Nat) : Ev :=
  let mix (old : Nat) : Nat := (old - (old &&& mask)) + (v &&& mask)
  let r := e.run
  let cid := (r.block e.bid).ctx
  match p with
  | .scr (.blk b a) => { e with run := (scrStore r b a (mix (memRead (r.block b).scratch a n)) n).batchRecent e.bid (some b) a n }
  | .scr (.side _ _) => e
  | .mem pa va gpa =>
    if isAper pa then
      let part := (r.ctx cid).part
      let ap := r.aper part pa
      let (x, r) : Nat × Run := if mask = 2 ^ (8 * n) - 1 then (v, r) else let z := r.free; (mix z.1.toNat, z.2)
      let r := r.dataOut part (dieOf (e.bid / 4)) ap (pa / 256) (.write (aperPeer ap) (aperHost ap) (streamId e.bid) (pa % 2 ^ 40) (leBytes x n))
      { e with run := r, out := e.out ++ [streamTimeout e ci i j] }
    else
      let r := storeBytes (markDirty r (e.bid / 4) cid va gpa) pa (leBytes (mix (memRead r.mem pa n)) n)
      { e with run := r.batchRecent e.bid none pa n }

/-- Write `n` bytes for an element of a clause. -/
def Ev.write (y : Sys) (e : Ev) (ci i j : Nat) (sp : Bool) (addr n v mask : Nat) : EvR Unit :=
  (e.once fun e => (e.access y ci i j sp addr n true).bind fun e p => .ok (e.store ci i j p n v mask) 0).bind fun e _ => .ok e ()

/-! ## Format blocks (R353, R354) -/

def fmtTy (f : BitVec 96) : Nat := bits f 0 4
def fmtBlen (f : BitVec 96) : Nat := bits f 4 8
def fmtSp (f : BitVec 96) : Bool := f.getLsbD 12
/-- The scale address: 64 bits of global space, or the low 32 bits. -/
def fmtSaddr (f : BitVec 96) : Nat := if fmtSp f then bits f 32 32 else bits f 32 64

/-- The conditions of R354; with `mem` those of a memory operand too. -/
def fmtBad (ty : ElemTy) (f : BitVec 96) (mem : Bool) (base : Nat) (rs cs : Int) : Bool :=
  fmtBlen f ≠ 32 || fmtSaddr f % 2 ≠ 0 ||
  (mem && (base % (if ty = .pb8 then 32 else 16) ≠ 0 || cs ≠ 1 || rs % 32 ≠ 0))

/-- The address of an element at a storage offset, with the nibble of a PB4 element. -/
def elemAddr (ty : ElemTy) (base : Nat) (off : Int) : Nat × Nat :=
  if ty = .pb4 then (((base : Int) + off / 2) % 2 ^ 64 |>.toNat, (off % 2).toNat)
  else (((base : Int) + off * ElemTy.bytes ty) % 2 ^ 64 |>.toNat, 0)

/-- A scale word, read once for a clause. -/
def Ev.scaleWord (y : Sys) (e : Ev) (ci i j : Nat) (f : BitVec 96) (b : Int) : EvR Nat :=
  match e.words.find? (fun w => w.1 = b) with
  | some w => .ok e w.2
  | none => (e.load y ci i j (fmtSp f) (((fmtSaddr f : Int) + 2 * b) % 2 ^ 64).toNat 2).bind fun e w =>
      .ok { e with words := (b, w) :: e.words } w

/-- Read a whole storage block that holds a demanded element, then its scale word (R324). -/
def Ev.blockWord (y : Sys) (e : Ev) (ci i j : Nat) (c : Clause) (sp : Bool) (base : Nat) (b : Int) : EvR Nat :=
  if e.words.any (fun w => w.1 = b) then e.scaleWord y ci i j c.fmt b
  else
    let nb : Nat := if c.ty = .pb4 then 16 else 32
    (evList (fun e k => e.load y ci i j sp (((base : Int) + b * nb + (k : Nat)) % 2 ^ 64).toNat 1) (List.range nb) e).bind fun e _ =>
      e.scaleWord y ci i j c.fmt b

/-! ## Element helpers -/

/-- An element as FP32 (R378): exact, or rounded under RNE for wide integers. -/
def elem32 (t : ElemTy) (x : Nat × Nat) : Nat × Nat :=
  match t with
  | .fp32 => (x.1 % 2 ^ 32, 0)
  | .fp16 | .bf16 => (unpack t x.1, 0)
  | t => convertFV .fp32 .rne false false false fmt32.qnan (Sys2Proof.Machine.widen t x.1 x.2)

/-- An element converted into another type; a block-format source is exact in FP32. -/
def elemConvert (dst src : ElemTy) (rm : Rnd) (sat ftz dn : Bool) (x : Nat × Nat) : Nat × Nat :=
  if ElemTy.isPb src then convertFV dst rm sat ftz dn fmt32.qnan (Sys2Proof.Machine.widen src x.1 x.2)
  else convert dst src rm sat ftz dn x.1

/-- The captured control of a clause. -/
def Clause.ctl (c : Clause) (rm : Rm) : FCtl := { rm := Rnd.of rm c.fp, ftz := c.fp.getLsbD 3, dn := c.fp.getLsbD 5 }

/-! ## The matrix engine (R362 to R364) -/

/-- A product: its exact value, and whether it is 0 × ∞ or has a signalling NaN operand. -/
def mulExact (a b : FV) : FV × Bool :=
  match a, b with
  | .nan s _, .nan t _ => (.nan false fmt32.qnan, s || t)
  | .nan s _, _ => (.nan false fmt32.qnan, s)
  | _, .nan t _ => (.nan false fmt32.qnan, t)
  | .inf s, .inf t => (.inf (xor s t), false)
  | .inf s, .fin t m _ => if m = 0 then (.nan false fmt32.qnan, true) else (.inf (xor s t), false)
  | .fin s m _, .inf t => if m = 0 then (.nan false fmt32.qnan, true) else (.inf (xor s t), false)
  | .fin s m e, .fin t n f => (.fin (xor s t) (m * n) (e + f), false)

/-- The canonical control of the engine: RNE, no flush, the canonical NaN. -/
def engineCtl : FCtl := { rm := .rne, ftz := false, dn := true }

/-- The magnitude m · 2^e cut to a multiple of 2^q, and whether bits were lost. -/
def cutAt (m : Nat) (e q : Int) : Nat × Bool :=
  if q ≤ e then (m * 2 ^ (e - q).toNat, false) else (m / 2 ^ (q - e).toNat, m % 2 ^ (q - e).toNat ≠ 0)

/-- The sum of a group of products (R363): the tree's exact additions give the exact sum of the cut products. -/
def groupSum (ps : List (FV × Bool)) : Nat × Nat :=
  let iv := ps.any (·.2)
  let infs := ps.filterMap (fun p => match p.1 with | .inf s => some s | _ => none)
  let clash := infs.contains true && infs.contains false
  if iv || clash || ps.any (fun p => p.1.isNan) then (fmt32.qnan, if iv || clash then fIV else 0)
  else match infs with
  | s :: _ => (fmt32.neg s + fmt32.inf, 0)
  | [] =>
    let nums := ps.filterMap (fun p => match p.1 with | .fin s m e => if m = 0 then none else some (s, m, e) | _ => none)
    match nums with
    | [] => (0, 0)
    | (_, m0, e0) :: _ =>
      let top := nums.foldl (fun (t : Int) (p : Bool × Nat × Int) => max t (p.2.2 + p.2.1.log2)) (e0 + m0.log2)
      let q := top - 47
      let (z, lost) := nums.foldl (fun (acc : Int × Bool) (p : Bool × Nat × Int) =>
        let (v, l) := cutAt p.2.1 p.2.2 q
        (acc.1 + (if p.1 then -(v : Int) else v), acc.2 || l)) ((0 : Int), false)
      let (x, fl) := fmt32.result .rne false (z < 0) false z.natAbs q
      (x, fl ||| if lost then fNX else 0)

/-- acc + t for an exact term (R364). -/
def accAdd (acc : Nat) (t : FV × Bool) : Nat × Nat :=
  let a := fmt32.decode false acc
  let iv := t.2 || a.isSnan
  match a, t.1 with
  | .fin sa ma ea, .fin sb mb eb => fmt32.sum engineCtl sa ma ea sb mb eb
  | .inf s, .inf u => if s = u then (fmt32.neg s + fmt32.inf, 0) else (fmt32.qnan, fIV)
  | .inf s, .fin _ _ _ => (fmt32.neg s + fmt32.inf, 0)
  | .fin _ _ _, .inf u => (fmt32.neg u + fmt32.inf, 0)
  | _, _ => (fmt32.qnan, if iv then fIV else 0)

/-- The groups of 16 products, chained in ascending order. A native step past the end of K adds nothing: the order does not depend
on the step (R365, R377). -/
def chain : Nat → List (FV × Bool) → Nat × Nat → Nat × Nat
  | 0, _, acc => acc
  | n + 1, ps, (acc, fl) =>
    let (gv, f1) := groupSum (ps.take 16)
    let (acc, f2) := accAdd acc (fmt32.decode false gv, false)
    chain n (ps.drop 16) (acc, fl ||| f1 ||| f2)

/-- The K of a native step for an operand type, the slower first (R377). -/
def stepK (a b : ElemTy) : Nat :=
  let rank (t : ElemTy) : Nat := match t with
    | .fp32 | .int16 | .int32 | .uint32 => 0
    | .fp16 | .bf16 => 1
    | .pb4 => 3
    | _ => 2
  match min (rank a) (rank b) with
  | 0 => 16
  | 1 => 16
  | 2 => 32
  | _ => 64

/-- Engine cycles of a region of a TMMA (R377). -/
def engineSteps (a b : ElemTy) (rows cols k : Nat) : Nat :=
  let slow (t : ElemTy) : Bool := t = .fp32 || t = .int16 || t = .int32 || t = .uint32
  let half (t : ElemTy) : Bool := t = .fp16 || t = .bf16
  let (m, n) := if slow a || slow b then (8, 4) else if half a || half b then (16, 8) else (16, 16)
  (rows + m - 1) / m * ((cols + n - 1) / n) * ((k + stepK a b - 1) / stepK a b)

/-- An exact value as an integer, for INT8 and UINT8 products. -/
def FV.toInt : FV → Int
  | .fin s m e => let v : Int := m * 2 ^ e.toNat; if s then -v else v
  | _ => 0

/-! ## Block conversion (R355 to R357) -/

/-- q(x, E) for a finite magnitude. -/
def pbQ (ty : ElemTy) (m : Nat) (e : Int) (E : Nat) : Nat := (roundAt .rne false m e ((E : Int) - if ty = .pb8 then 132 else 128)).1

/-- One block: the codes, the scale word, and which elements are outliers. -/
def pbEncode (ty : ElemTy) (xs : List FV) (fixed : Option Nat) : List Nat × Nat × List Bool :=
  let big := if ty = .pb8 then 63 else 3
  let lo := if ty = .pb8 then 4 else 2
  let word := match fixed with
    | some w => w % 2 ^ 16
    | none =>
      let fits (E : Nat) : Bool := xs.all (fun x => match x with | .fin _ m e => pbQ ty m e E ≤ big | _ => true)
      let e1 := (((List.range (255 - lo)).map (lo + ·)).find? fits).getD 254
      (e1 - lo) + 256 * e1
  let e0 := word % 256
  let e1 := word / 256
  let shift := if ty = .pb8 then 6 else 2
  let code (x : FV) : Nat × Bool := match x with
    | .fin s m e =>
      let sg := if s then 2 ^ shift else 0
      if e0 ≠ 255 ∧ pbQ ty m e e0 ≤ big then (sg + pbQ ty m e e0, false)
      else if e1 ≠ 255 ∧ pbQ ty m e e1 ≤ big then (2 ^ (shift + 1) + sg + pbQ ty m e e1, false)
      else (0, true)
    | _ => (0, true)
  (xs.map (fun x => (code x).1), word, xs.map (fun x => (code x).2))

/-! ## Clauses -/

/-- TLOAD, through the map of its group (R373). -/
def evLoad (y : Sys) (ci : Nat) (c : Clause) (sp : Bool) (base : Nat) (m : IMap) (b : Box) (e : Ev) : EvR TileV :=
  if ElemTy.isPb c.ty && fmtBad c.ty c.fmt true base m.rs m.cs then .fault e (e.lateFault ci b.r0 b.c0 0x13 0)
  else evGrid b (fun e i j =>
    let (rr, cc) := m.coord i j
    let off : Int := rr * m.rs + cc * m.cs
    let (a, nib) := elemAddr c.ty base off
    (e.load y ci i j sp a (ElemTy.bytes c.ty)).bind fun e v =>
    if ElemTy.isPb c.ty then
      (e.blockWord y ci i j c sp base (off / 32)).bind fun e w => .ok e (if c.ty = .pb4 then v / 16 ^ nib % 16 else v, w)
    else .ok e (v, 0)) e

/-- Where the scale words of a home stand: at the next multiple of 2 behind its elements (R382). -/
def homeScales (c : Clause) : Nat :=
  let n := c.rows * c.cols
  let bytes := if c.ty = .pb4 then (n + 1) / 2 else n * ElemTy.bytes c.ty
  (bytes + 1) / 2 * 2
/-- The bytes of a home. -/
def homeBytes (c : Clause) : Nat :=
  if ElemTy.isPb c.ty then homeScales c + 2 * (c.rows * ((c.cols + 31) / 32)) else c.rows * c.cols * ElemTy.bytes c.ty

/-- LEAF: the home in identity order, block words in row-major order over the shape (R330, R382). -/
def evLeaf (y : Sys) (ci : Nat) (c : Clause) (sp : Bool) (base : Nat) (b : Box) (e : Ev) : EvR TileV :=
  evGrid b (fun e i j =>
    let off := i * c.cols + j
    let (a, nib) := elemAddr c.ty base off
    (e.load y ci i j sp a (ElemTy.bytes c.ty)).bind fun e v =>
    if ElemTy.isPb c.ty then
      (e.load y ci i j sp (base + homeScales c + 2 * (i * ((c.cols + 31) / 32) + j / 32)) 2).bind fun e w =>
      .ok e (if c.ty = .pb4 then v / 16 ^ nib % 16 else v, w)
    else .ok e (v, 0)) e

/-- The addend of a TMMA element (R375): widened exactly, or converted under RNE with clamping. -/
def Ev.addend (e : Ev) (s : Option Src) (int : Bool) (i j : Nat) : Nat × Nat :=
  match s with
  | some (.acc n) => ((e.run.accGet (e.bid / 4) n i j).toNat, 0)
  | some (.clause k) =>
    let ty := (clauseAt e.g k).ty
    let x := (e.tile k).elem i j
    if int then elemConvert .int32 ty .rne true false false x else elem32 ty x
  | _ => (0, 0)

/-- The corrections of the outlier lists for one element (R364, R376). -/
def Ev.corrections (e : Ev) (ka kb : Nat) (a b : Clause) (i j : Nat) : List (FV × Bool) :=
  let la := (e.outs.get? ka).getD []
  let lb := (e.outs.get? kb).getD []
  let val (p : Nat) : FV := fmt32.decode false p
  let at_ (c : Clause) (k i j : Nat) : FV := let x := (e.tile k).elem i j; Sys2Proof.Machine.widen c.ty x.1 x.2
  let trueA (k : Nat) : FV := match la.find? (fun o => o.1 = i * a.cols + k) with | some o => val o.2 | none => at_ a ka i k
  (la.filterMap (fun o => if o.1 / a.cols = i then some (mulExact (val o.2) (at_ b kb (o.1 % a.cols) j)) else none)) ++
  (lb.filterMap (fun o => if o.1 % b.cols = j ∧ o.1 / b.cols < a.cols then some (mulExact (trueA (o.1 / b.cols)) (val o.2)) else none))

/-- TMMA (R375). -/
def evMma (ci : Nat) (c : Clause) (ol : Bool) (b : Box) (e : Ev) : EvR TileV :=
  match c.srcs with
  | (.clause ka, _) :: (.clause kb, _) :: rest =>
    let a := clauseAt e.g ka
    let bb := clauseAt e.g kb
    let int := ElemTy.isByteInt a.ty && ElemTy.isByteInt bb.ty
    let ks := List.range a.cols
    let rowA (i : Nat) : List FV := ks.map (fun k => let x := (e.tile ka).elem i k; Sys2Proof.Machine.widen a.ty x.1 x.2)
    let cols := (List.range (b.c1 - b.c0)).map (fun j => ks.map (fun k => let x := (e.tile kb).elem k (b.c0 + j); Sys2Proof.Machine.widen bb.ty x.1 x.2))
    let steps := engineSteps a.ty bb.ty (b.r1 - b.r0) (b.c1 - b.c0) a.cols
    let e : Ev := if e.todo = [] then { e with run := e.run.engineAdd (e.bid / 4) steps } else e
    let groups := (a.cols + 15) / 16
    evList (fun e i =>
      let ra := rowA i
      evList (fun e j =>
        let cb := cols.getD (j - b.c0) []
        let (ad, f0) := e.addend (rest.head?.map (·.1)) int i j
        if int then
          let z := (List.zipWith (fun x w => FV.toInt x * FV.toInt w) ra cb).foldl (· + ·) (0 : Int)
          e.note ci i j f0 (((z + ad) % 2 ^ 32).toNat, 0)
        else
          let (v, fl) := chain groups (List.zipWith mulExact ra cb) (ad, f0)
          let (v, fl) := (if ol then e.corrections ka kb a bb i j else []).foldl (fun (acc : Nat × Nat) (t : FV × Bool) =>
            let (v, f) := accAdd acc.1 t
            (v, acc.2 ||| f)) (v, fl)
          e.note ci i j fl (v, 0)) ((List.range (b.c1 - b.c0)).map (b.c0 + ·)) e)
      ((List.range (b.r1 - b.r0)).map (b.r0 + ·)) e |>.bind fun e vs => .ok e ⟨b.r0, b.c0, vs⟩
  | _ => .ok e ⟨b.r0, b.c0, []⟩

/-- The clause number of an operand. -/
def srcClause (s : Option (Src × IMap)) : Nat := match s with | some (.clause k, _) => k | _ => 1000

/-- A NaN result under %FPCR.DN (R162, R378). -/
def Fmt.canon (f : Fmt) (dn : Bool) (x : Nat) : Nat := if dn && (f.decode false x).isNan then f.qnan else x

/-- One TEW element (R378), with the flags that widening its operands raised; .neg, .abs and .sel raise none. -/
def tewElem (op : TewOp) (k : FCtl) (scale a b x : Nat) (fa fb : Nat) : Nat × Nat :=
  let f := fmt32
  match op with
  | .add => let (v, fl) := f.add k a b; (v, fl ||| fa ||| fb)
  | .sub => let (v, fl) := f.sub k a b; (v, fl ||| fa ||| fb)
  | .mul => let (v, fl) := f.mul k a b; (v, fl ||| fa ||| fb)
  | .max => let (v, fl) := f.minmax k true a b; (v, fl ||| fa ||| fb)
  | .min => let (v, fl) := f.minmax k false a b; (v, fl ||| fa ||| fb)
  | .exp2 => let (v, fl) := Sfu.fp32 .exp2 k a; (v, fl ||| fa)
  | .scale => let (v, fl) := f.mul k a scale; (v, fl ||| fa)
  | .neg => (f.canon k.dn (f.signs true false (f.flush k.ftz a)), 0)
  | .abs => (f.canon k.dn (f.signs false true (f.flush k.ftz a)), 0)
  | .sel => (f.canon k.dn (f.flush k.ftz (if (f.cmp k .gt a 0).1 then b else x)), 0)

def evTew (ci : Nat) (c : Clause) (op : TewOp) (rm : Rm) (scale : Word) (b : Box) (e : Ev) : EvR TileV :=
  let k := c.ctl rm
  let src (n : Nat) (e : Ev) (i j : Nat) : Nat × Nat :=
    match c.srcs[n]? with
    | some (.clause q, _) => elem32 (clauseAt e.g q).ty ((e.tile q).elem i j)
    | _ => (0, 0)
  evGrid b (fun e i j =>
    let a := src 0 e i j
    let x := src 1 e i j
    let z := src 2 e i j
    let (v, fl) := tewElem op k scale.toNat a.1 x.1 z.1 a.2 x.2
    e.note ci i j fl (v, 0)) e

/-- The pairwise tree over a power of two of elements (R366). -/
def pairTree (f : Nat → Nat → Nat × Nat) : Nat → List Nat → Nat → Nat × Nat
  | 0, xs, fl => (xs.headD 0, fl)
  | n + 1, xs, fl =>
    let rec go : List Nat → List (Nat × Nat)
      | a :: b :: t => f a b :: go t
      | [a] => [(a, 0)]
      | [] => []
    let ys := go xs
    pairTree f n (ys.map (·.1)) (ys.foldl (fun n y => n ||| y.2) fl)

/-- TRED (R379). -/
def evTred (ci : Nat) (c : Clause) (mx col : Bool) (b : Box) (e : Ev) : EvR TileV :=
  let q := srcClause c.srcs.head?
  let a := clauseAt e.g q
  let k : FCtl := { c.ctl .rne with rm := .rne }
  let n := if col then a.rows else a.cols
  let depth := if n ≤ 1 then 0 else (n - 1).log2 + 1
  let pad := if mx then fmt32.signBit + fmt32.inf else fmt32.signBit
  evGrid b (fun e i j =>
    let xs := (List.range n).map (fun t => elem32 a.ty ((e.tile q).elem (if col then t else i) (if col then j else t)))
    let (v, fl) := pairTree (fun x z => if mx then fmt32.minmax k true x z else fmt32.add k x z) depth
      (xs.map (·.1) ++ List.replicate (2 ^ depth - n) pad) (xs.foldl (fun f x => f ||| x.2) 0)
    e.note ci i j fl (v, 0)) e

/-- The atomic at a descriptor's COUNT (R360): the old count. A host takes no atomics (R522): its count is read and written. -/
def Ev.count (y : Sys) (e : Ev) (ci i j : Nat) (sp : Bool) (addr n : Nat) : EvR Nat :=
  let host := 2 ^ 32
  (e.once fun e => (e.access y ci i j sp addr 4 true).bind fun e p =>
    match p with
    | .scr q =>
      let old := scrRead e.run (e.bid / 4) q 4
      .ok (e.store ci i j p 4 (min (old + n) 0xFFFFFFFF) 0xFFFFFFFF) old
    | .mem pa va _ =>
      if isAper pa then
        let part := (e.run.ctx (e.run.block e.bid).ctx).part
        let ap := e.run.aper part pa
        if aperHost ap then .ok e host else
        let a : AtomicReq := { addr := pa % 2 ^ 40, cas := false, op := .add, ty := .u32, opnd := n, sat := true }
        let (x, r) := e.run.atomicOut part (dieOf (e.bid / 4)) ap (streamId e.bid) 0 pa va a
        .ask { e with run := r } (streamTimeout e ci i j) 4 (some x)
      else
        let old := memRead e.run.mem pa 4
        .ok (e.store ci i j p 4 (min (old + n) 0xFFFFFFFF) 0xFFFFFFFF) old).bind fun e old =>
  if old ≠ host then .ok e old else
  (e.load y ci i j sp addr 4 false).bind fun e old =>
  (e.write y ci i j sp addr 4 (min (old + n) 0xFFFFFFFF) 0xFFFFFFFF).bind fun e _ => .ok e old

/-- Reserve and write the outliers of an evaluation (R360, R361). -/
def Ev.record (y : Sys) (e : Ev) (ci : Nat) (m : TcvtMod) (list : Word64) (os : List (Nat × Nat × Nat × Nat)) : EvR Unit :=
  match os with
  | [] => .ok e ()
  | (i0, j0, _, _) :: _ =>
    let sp := m.olsp
    let d := if sp then list.toNat % 2 ^ 32 else list.toNat
    if d % 16 ≠ 0 then .fault e (e.lateFault ci i0 j0 (if sp then 0x14 else 0x10) (if sp then 0x30 else 0x10)) else
    (e.load y ci i0 j0 sp d 4 false).bind fun e b0 =>
    (e.load y ci i0 j0 sp (d + 4) 4 false).bind fun e b1 =>
    let n := os.length
    let old : EvR Nat := match e.resv.get? ci with
      | some v => .ok e v.1
      | none => (e.count y ci i0 j0 sp (d + 12) n).bind fun e c => .ok { e with resv := e.resv.put ci (c, n) } c
    old.bind fun e (c : Nat) =>
    (e.load y ci i0 j0 sp (d + 8) 4 false).bind fun e cap =>
    let base := b0 + 2 ^ 32 * b1
    let es := (List.range n).zip os
    (evList (fun e (x : Nat × Nat × Nat × Nat × Nat) =>
      let (k, i, j, lin, v) := x
      if cap ≤ c + k then .ok e () else
      (e.write y ci i j sp (base + 8 * (c + k)) 4 lin 0xFFFFFFFF).bind fun e _ =>
      e.write y ci i j sp (base + 8 * (c + k) + 4) 4 v 0xFFFFFFFF) es e).bind fun e _ =>
    let e : Ev := { e with outs := e.outs.put ci ((es.filter (fun x => c + x.1 < cap)).map (fun x => (x.2.2.2.1, x.2.2.2.2))) }
    match es.find? (fun x => cap ≤ c + x.1) with
    | none => .ok e ()
    | some x => if m.olfault then .fault e (e.lateFault ci x.2.1 x.2.2.1 0x12 0) else e.note ci x.2.1 x.2.2.1 fOUT ()

/-- An outlier: its row and column, linear index and source value (R359). -/
def Ev.outlier (e : Ev) (c : Clause) (q i j : Nat) : Nat × Nat × Nat × Nat :=
  (i, j, i * c.cols + j, (elem32 (clauseAt e.g q).ty ((e.tile q).elem i j)).1)

/-- TCVT into a type with its own exponent (R380). -/
def evCvt (y : Sys) (ci : Nat) (c : Clause) (m : TcvtMod) (list : Word64) (b : Box) (e : Ev) : EvR TileV :=
  let q := srcClause c.srcs.head?
  let a := clauseAt e.g q
  let ftz := if c.ty = .fp32 then c.fp.getLsbD 3 else c.fp.getLsbD 4
  let conv (e : Ev) (i j : Nat) : Nat × Nat := elemConvert c.ty a.ty (Rnd.of m.rm c.fp) m.sat ftz (c.fp.getLsbD 5) ((e.tile q).elem i j)
  (evGrid b (fun e i j =>
    let (v, fl) := conv e i j
    e.note ci i j (if m.ol then fl % 32 else fl) (v % 2 ^ c.ty.width, 0)) e).bind fun e t =>
  if !m.ol then .ok e t else
  let os := (List.range (b.r1 - b.r0)).flatMap (fun i => (List.range (b.c1 - b.c0)).filterMap (fun j =>
    if (conv e (b.r0 + i) (b.c0 + j)).2.testBit 5 then some (e.outlier c q (b.r0 + i) (b.c0 + j)) else none))
  (e.record y ci m list os).bind fun e _ => .ok e t

/-- TCVT into a block format (R355 to R357, R380): the box holds whole blocks. -/
def evCvtPb (y : Sys) (ci : Nat) (c : Clause) (m : TcvtMod) (list : Word64) (b : Box) (e : Ev) : EvR TileV :=
  if m.fixed && fmtBad c.ty c.fmt false 0 0 1 then .fault e (e.lateFault ci b.r0 b.c0 0x13 0) else
  let q := srcClause c.srcs.head?
  let a := clauseAt e.g q
  let nb := (c.cols + 31) / 32
  (evList (fun e i =>
    evList (fun e k =>
      let c0 := b.c0 + 32 * k
      let cs := (List.range (min 32 (b.c1 - c0))).map (c0 + ·)
      let w0 : EvR (Option Nat) := if m.fixed then
          (e.load y ci i c0 (fmtSp c.fmt) (fmtSaddr c.fmt + 2 * (i * nb + c0 / 32)) 2).bind fun e w => .ok e (some w)
        else .ok e none
      w0.bind fun e w =>
      let xs := cs.map (fun j => let x := (e.tile q).elem i j; Sys2Proof.Machine.widen a.ty x.1 x.2)
      (evList (fun e (z : Nat × FV) => if z.2.isSnan then e.note ci i z.1 fIV () else .ok e ()) (cs.zip xs) e).bind fun e _ =>
      let (codes, word, outl) := pbEncode c.ty xs w
      let os := (cs.zip outl).filterMap (fun z => if z.2 then some (e.outlier c q i z.1) else none)
      let out1 : EvR Unit := match os with
        | [] => .ok e ()
        | o :: _ => if m.ol then .ok e () else e.note ci i o.2.1 fOUT ()
      out1.bind fun e _ =>
      .ok e (codes.map (fun v => (v, word)), os)) (List.range ((b.c1 - b.c0 + 31) / 32)) e)
    ((List.range (b.r1 - b.r0)).map (b.r0 + ·)) e).bind fun e rows =>
  let t : TileV := ⟨b.r0, b.c0, rows.map (fun (r : List (List (Nat × Nat) × List (Nat × Nat × Nat × Nat))) => r.flatMap (·.1))⟩
  if m.ol then (e.record y ci m list (rows.flatMap (fun r => r.flatMap (·.2)))).bind fun e _ => .ok e t else .ok e t

/-- TMAP (R374). -/
def evMap (c : Clause) (b : Box) (e : Ev) : EvR TileV :=
  match c.srcs with
  | (.clause q, m) :: _ => evGrid b (fun e i j => let (r, k) := m.coord i j; .ok e ((e.tile q).elem r k)) e
  | _ => .ok e ⟨b.r0, b.c0, []⟩

/-- The results of a clause that the window of R311 has made unpredictable: any pattern in each element (R4). -/
def Ev.strew (e : Ev) (ci : Nat) (c : Clause) (b : Box) : EvR TileV :=
  evGrid b (fun e i j =>
    (e.once fun e => let (x, r) := e.draw ci i j 64; .ok { e with run := r } x.toNat).bind fun e x =>
      .ok e (x % 2 ^ c.ty.width, x / 2 ^ 32 % 2 ^ 16)) e

/-- Evaluate one clause over its box. -/
def evClause (y : Sys) (e : Ev) (ci : Nat) : EvR Unit :=
  let c := clauseAt e.g ci
  let b := e.box ci
  let e : Ev := { e with words := [], mark := e.taken, here := ci, wild := false }
  if ElemTy.isPb c.ty && fmtTy c.fmt ≠ c.ty.code then .fault e (e.lateFault ci b.r0 b.c0 0x13 0) else
  (match c.op, c.srcs with
    | .tload, (.global a, m) :: _ => evLoad y ci c false a.toNat m b e
    | .tload, (.scratch a, m) :: _ => evLoad y ci c true a.toNat m b e
    | .leaf, (.global a, _) :: _ => evLeaf y ci c false a.toNat b e
    | .leaf, (.scratch a, _) :: _ => evLeaf y ci c true a.toNat b e
    | .tmap, _ => evMap c b e
    | .tmma _ ol, _ => evMma ci c ol b e
    | .tew op rm s, _ => evTew ci c op rm s b e
    | .tred mx col, _ => evTred ci c mx col b e
    | .tcvt m l, _ => if ElemTy.isPb c.ty then evCvtPb y ci c m l b e else evCvt y ci c m l b e
    | _, _ => .ok e ⟨b.r0, b.c0, []⟩).bind fun e t =>
  (if e.wild then e.strew ci c b else .ok e t).bind fun e t => .ok { e with tiles := e.tiles.put ci t } ()

/-! ## Writes of a demand (R386) -/

/-- A word for an accumulator. -/
def accWord (t : ElemTy) (x : Nat × Nat) : Word :=
  match t with
  | .fp32 | .int32 | .uint32 => BitVec.ofNat 32 x.1
  | .uint8 => BitVec.ofNat 32 (x.1 % 256)
  | .int8 => (BitVec.ofNat 8 x.1).signExtend 32
  | .int16 => (BitVec.ofNat 16 x.1).signExtend 32
  | t => BitVec.ofNat 32 (elem32 t x).1

/-- Whether a block-format root may be written to memory (R386): each block of a TLOAD, columns 32b to 32b + 31 of a row, lies in one
storage block of its source. -/
def Clause.pbRoot (c : Clause) : Bool :=
  match c.op, c.srcs with
  | .tcvt _ _, _ => true
  | .leaf, _ => true
  | .tload, (_, m) :: _ =>
    let blk (i j : Nat) : Int := let x := m.coord i j; (x.1 * m.rs + x.2 * m.cs) / 32
    (List.range c.rows).all (fun i => (List.range c.cols).all (fun j => blk i j = blk i (j / 32 * 32)))
  | _, _ => false

/-- The elements a demand writes: those of its region, widened for a block-format root in memory. -/
def writeCells (c : Clause) (t : Target) (g : Region) : List (Nat × Nat) :=
  let b := match t with
    | .mem _ _ _ _ => c.evalBox true g.box
    | _ => g.box
  (List.range (b.r1 - b.r0)).flatMap (fun i => (List.range (b.c1 - b.c0)).map (fun j => (b.r0 + i, b.c0 + j)))

/-- A write of a demand: the element it serves, and what goes where through which mask. -/
structure CellW where
  row : Nat
  col : Nat
  sp : Bool
  addr : Nat
  n : Nat
  v : Nat
  mask : Nat

/-- Elements that share a byte are written together (PB4, R352). -/
def joinCells : List CellW → List CellW
  | a :: b :: t => if a.sp = b.sp && a.addr = b.addr && a.mask &&& b.mask = 0 then
      { a with v := a.v ||| b.v, mask := a.mask ||| b.mask } :: joinCells t else a :: joinCells (b :: t)
  | xs => xs

/-- The write of an element at a storage offset. -/
def cellWrite (ty : ElemTy) (t : TileV) (sp : Bool) (base : Nat) (off : Int) (i j : Nat) : CellW :=
  let (a, nib) := elemAddr ty base off
  let n := ElemTy.bytes ty
  ⟨i, j, sp, a, n, (t.elem i j).1 * 16 ^ nib, if ty = .pb4 then 15 * 16 ^ nib else 2 ^ (8 * n) - 1⟩

/-- The writes of a demand in memory: its elements, then their scale words. -/
def demandWrites (c : Clause) (d : Demand) (t : TileV) : List CellW :=
  let cells := writeCells c d.target d.region
  match d.target with
  | .acc _ => []
  | .mem sp base rs cs =>
    let off (x : Nat × Nat) : Int := x.1 * rs + x.2 * cs
    let blocks := if ElemTy.isPb c.ty then cells.foldl (fun (bs : List (Int × Nat × Nat)) (x : Nat × Nat) =>
      if bs.any (fun z => z.1 = off x / 32) then bs else bs ++ [(off x / 32, x.1, x.2)]) [] else []
    joinCells (cells.map (fun x => cellWrite c.ty t sp base.toNat (off x) x.1 x.2)) ++
    blocks.map (fun z => ⟨z.2.1, z.2.2, fmtSp d.fmt, (((fmtSaddr d.fmt : Int) + 2 * z.1) % 2 ^ 64).toNat, 2, (t.elem z.2.1 z.2.2).2, 0xFFFF⟩)
  | .home sp base =>
    let nb := (c.cols + 31) / 32
    let blocks := if ElemTy.isPb c.ty then (List.range c.rows).flatMap (fun i => (List.range nb).map (fun k => (i, k))) else []
    joinCells (cells.map (fun x => cellWrite c.ty t sp base (x.1 * c.cols + x.2 : Nat) x.1 x.2)) ++
    blocks.map (fun z => ⟨z.1, 32 * z.2, sp, base + homeScales c + 2 * (z.1 * nb + z.2), 2, (t.elem z.1 (32 * z.2)).2, 0xFFFF⟩)

/-- Write a demand whose root's values are at hand. -/
def evWrite (y : Sys) (e : Ev) (d : Demand) (t : TileV) : EvR Unit :=
  let c := clauseAt e.g d.root
  let go : EvR Unit := (evList (fun e (w : CellW) => e.write y d.root w.row w.col w.sp w.addr w.n w.v w.mask) (demandWrites c d t) e).bind
    fun e _ => .ok e ()
  match d.target with
  | .acc n =>
    .ok { e with run := e.run.onCore (e.bid / 4) (fun k => (writeCells c d.target d.region).foldl
      (fun k x => k.accSet n x.1 x.2 (accWord c.ty (t.elem x.1 x.2))) k) } ()
  | .mem _ base rs cs =>
    if ElemTy.isPb c.ty && (!c.pbRoot || fmtBad c.ty d.fmt true base.toNat rs cs) then
      .fault e (e.lateFault d.root d.region.row0 (d.region.col0 / 32 * 32) 0x13 0)
    else go
  | .home _ _ => go

/-- Evaluate the clauses of a demand in post-order. -/
def evAll (y : Sys) : List Nat → Ev → EvR Unit
  | [], e => .ok e ()
  | i :: t, e => (evClause y e i).bind fun e _ => evAll y t e

/-- What a step of evaluating one demand leads to, with the demand as it stands afterwards. -/
inductive DemandR where
  | more (r : Run) (d : Demand)
  | done (r : Run) (d : Demand) (flags : Nat)
  | fault (r : Run) (d : Demand) (f : BatchFault)
  | pause (r : Run) (d : Demand) (f : BatchFault) (pages : List Nat)

/-- The demand after an access: an answer more. -/
def Demand.took (d : Demand) (e : Ev) : Demand := { d with mark := e.mark, clause := e.here, news := e.resv, out := e.out }

/-- The reservations a demand has made, those since its last whole clause among them (R361). -/
def Demand.reserved (d : Demand) : Tbl (Nat × Nat) := if d.news = [] then d.resv else d.news

/-- A demand that is evaluated again, whole: its kept values and its reservations remain where R333 and R361 keep them. -/
def Demand.anew (d : Demand) : Demand :=
  { d with done := false, kept := if d.self then d.kept else none, resv := d.reserved, log := [], mark := 0, news := [], asked := none, far := none, out := [] }

/-- One step of a demand: from its kept values where every source is read, else through its clauses, the next access; then the
writes. -/
def evDemand (y : Sys) (r : Run) (bid : Nat) (d : Demand) : DemandR :=
  let g := (r.block bid).clauses
  let wide := match d.target with | .acc _ => false | _ => true
  let e0 : Ev := { run := r, bid := bid, g := g, boxes := regionsOf g d.root d.region.box wide, resv := d.resv, todo := d.log, out := d.out }
  let go (x : EvR DemandR) : DemandR := match x with
    | .ok _ z => z
    | .fault e f => .fault e.run { (d.took e) with resv := e.resv } f
    | .pause e f p => .pause e.run (d.took e) f p
    | .more e v => .more e.run { (d.took e) with log := d.log ++ [v] }
    | .ask e f n x => .more e.run { (d.took e) with asked := some (f, n), far := x, sent := e.run.clk }
  match d.kept with
  | none => go ((evAll y (postOrder g 100 d.root []) e0).bind fun e _ =>
      .ok e (.more e.run { (d.took e) with kept := some (e.tile d.root, e.flags), resv := e.resv, log := [], mark := 0, news := [] }))
  | some (t, fl) => go ((evWrite y { e0 with flags := fl } d t).bind fun e _ =>
      .ok e (.done e.run { d with done := true, log := [], mark := 0, news := [], out := e.out, sent := e.run.clk } fl))

end Sys2Proof.Machine
end

