-- ==== Sys2Proof/Machine/Tiles.lean ====
section
/-! DEFINITION. The tile instructions (R319 to R338, R367 to R388) and the steps of a stream's batches. -/

namespace Sys2Proof.Machine

/-! ## Clauses and their references -/

/-- The control wave of a block: its live wave of lowest logical index (R327). -/
def Run.controlWave (r : Run) (b : Nat) : Option Nat :=
  ((r.wavesOf b).foldl (fun (best : Option (Nat × Wave)) e => match best with
    | some x => if e.2.index < x.2.index then some e else best
    | none => some e) none).map (·.1)

/-- The FP control an append captures (R327). -/
def Run.captured (r : Run) (b : Nat) : Word :=
  match r.controlWave b with
  | some w => (r.wave w).fpcr &&& 0x1FFF
  | none => (r.block b).lastFpcr

/-- The clauses reached from some. -/
def reach (g : Tbl Clause) (roots : List Nat) : List Nat := roots.foldl (fun seen i => postOrder g 100 i seen) []

/-- The demands of a block that are not complete, a spill's among them. -/
def Block.demands (b : Block) : List Demand := b.openDemands ++ (b.spill.toList ++ b.batches).flatMap (fun x => x.demands)

/-- Clauses that a bound handle, another clause so reached, or a demand keeps (R321). -/
def Block.kept (b : Block) : List Nat := reach b.clauses (b.handles.map (·.2) ++ b.demands.map (·.root))

/-- Unreferenced clauses are reclaimed, and their watch ranges with them (R321). -/
def Block.reclaim (b : Block) : Block :=
  let keep := b.kept
  let ws : Tbl Watch := b.watch.map (fun w => (w.1, { w.2 with by_ := w.2.by_.filter (fun i => keep.contains (i % 128)) }))
  { b with clauses := b.clauses.filter (fun e => keep.contains e.1), watch := ws.filter (fun w => w.2.by_ ≠ []) }

/-- The clause of an operand that names a handle, if that is bound (R319). -/
def Block.root (b : Block) (o : Opd) : Option (Nat × Clause) :=
  match o with
  | .t n => match b.handles.get? n.toNat with
    | some i => some (i, clauseAt b.clauses i)
    | none => none
  | _ => none

def handleNum (o : Opd) : Nat := match o with | .t n => n.toNat | _ => 0xFF

/-- A TILE trap of the stream at a handle (R334). -/
def tileTrap (sub : Nat) (o : Opd) (watch : Nat := 0xFF) : Trap :=
  { cls := 9, sub := sub, mask := 1, cw := tileCw (handleNum o) watch 0 0 }

/-! ## Watch ranges (R331) -/

/-- Merge the two ranges of one space whose union is smallest. -/
def mergeWatch (ws : Tbl Watch) : Tbl Watch :=
  let union (a b : Watch) : Nat := max a.hi b.hi - min a.lo b.lo
  let pairs := ws.flatMap (fun x => (ws.filter (fun y => x.1 < y.1 && x.2.blk == y.2.blk)).map (fun y => (x, y)))
  match pairs.foldl (fun (best : Option ((Nat × Watch) × (Nat × Watch))) p => match best with
    | some q => if union p.1.2 p.2.2 < union q.1.2 q.2.2 then some p else best
    | none => some p) none with
  | some (x, y) =>
    (ws.del y.1).put x.1 ⟨x.2.blk, min x.2.lo y.2.lo, max x.2.hi y.2.hi, (x.2.by_ ++ y.2.by_).dedup⟩
  | none => ws

/-- Charge a byte range. -/
def Block.charge (b : Block) (who : Nat) (sp : Option Nat) (lo hi : Nat) : Block :=
  let ws := if 32 ≤ b.watch.length then mergeWatch b.watch else b.watch
  { b with watch := Tbl.put ws (Tbl.free ws 0) ⟨sp, lo, hi, [who]⟩ }

/-- Drop a charge. -/
def Block.uncharge (b : Block) (who : Nat) : Block :=
  let ws : Tbl Watch := b.watch.map (fun w => (w.1, { w.2 with by_ := w.2.by_.filter (fun i => i ≠ who) }))
  { b with watch := ws.filter (fun w => w.2.by_ ≠ []) }

/-- The byte range of storage offsets from `lo` to `hi`. -/
def spanBytes (ty : ElemTy) (base : Nat) (lo hi : Int) : Nat × Nat :=
  let b : Int := base
  if ty = .pb4 then ((b + lo / 2).toNat, (b + hi / 2 + 1).toNat)
  else ((b + lo * ElemTy.bytes ty).toNat, (b + (hi + 1) * ElemTy.bytes ty).toNat)

/-- The least and the greatest storage offset of a map over a shape: offsets are linear, so corners bound them. -/
def IMap.extent (m : IMap) (rows cols : Nat) : Int × Int :=
  let at_ (i j : Nat) : Int := let (r, c) := m.coord i j; r * m.rs + c * m.cs
  let xs := [at_ 0 0, at_ 0 (cols - 1), at_ (rows - 1) 0, at_ (rows - 1) (cols - 1)]
  (xs.foldl min (at_ 0 0), xs.foldl max (at_ 0 0))

/-- The bytes of some places of scratchpad, as one range of each allotment they lie in; a place that names none counts nothing. -/
def Run.scratchRanges (r : Run) (bid : Nat) (as : List (Nat × Nat)) : List (Option Nat × Nat × Nat) :=
  as.foldl (fun (rs : List (Option Nat × Nat × Nat)) x => match scrResolve r bid (bid / 4) 24 false (x.1 % 2 ^ 32) 1 false with
    | .ok (.blk n a) => (match rs.find? (fun z => z.1 == some n) with
      | some z => rs.map (fun y => if y.1 == some n then (some n, min z.2.1 a, max z.2.2 (a + x.2)) else y)
      | none => rs ++ [(some n, a, a + x.2)])
    | _ => rs) []

/-- Charge ranges. -/
def Run.watchOver (r : Run) (bid who : Nat) (rs : List (Option Nat × Nat × Nat)) : Run :=
  rs.foldl (fun r x => r.onBlock bid (fun b => b.charge who x.1 x.2.1 x.2.2)) r

/-- The range of `len` bytes from an address. -/
def Run.byteRange (r : Run) (bid : Nat) (sp : Bool) (addr len : Nat) : List (Option Nat × Nat × Nat) :=
  if sp then r.scratchRanges bid ((List.range len).map (fun i => (addr + i, 1))) else [(none, addr, addr + len)]

/-! ## Writes over watched ranges (R332, R333) -/

/-- Clauses that only a root reaches, through handles that name it or demands of it; the root itself where nothing else reaches it. `leaf`
says that the root itself will read nothing any more (R330). -/
def Block.solely (b : Block) (root : Nat) (leaf : Bool) : List Nat :=
  let g := if leaf then b.clauses.upd root (fun c => { c with srcs := [] }) else b.clauses
  let others := reach g ((b.handles.map (·.2) ++ b.demands.map (·.root)).filter (fun i => leaf || i ≠ root))
  (reach b.clauses [root]).filter (fun i => (leaf && i = root) || !others.contains i)

/-- What writing some places meets in the watch ranges: a range that refuses it, and whether any range is met. -/
def Run.watchMeets (r : Run) (bid root : Nat) (leaf : Bool) (ws : List (Option Nat × Nat × Nat)) : Option Nat × Bool :=
  let b := r.block bid
  let mine := b.solely root leaf
  let hits := b.watch.filter (fun w => ws.any (fun x => x.1 == w.2.blk && w.2.lo < x.2.2 && x.2.1 < w.2.hi))
  ((hits.find? (fun w => w.2.by_.any (fun i => !mine.contains (i % 128)))).map (·.1), hits ≠ [])

/-- A place of `n` bytes as a range of a space. -/
def Run.spaceRange (r : Run) (bid : Nat) (sp : Bool) (addr n : Nat) : List (Option Nat × Nat × Nat) :=
  if sp then
    match scrResolve r bid (bid / 4) 24 false (addr % 2 ^ 32) 1 false with
    | .ok (.blk k x) => [(some k, x, x + n)]
    | _ => []
  else [(none, addr % 2 ^ 64, addr % 2 ^ 64 + n)]

/-- The bytes a demand writes in memory, scale words included (R385, R386). -/
def Run.writeRanges (r : Run) (bid : Nat) (d : Demand) : List (Option Nat × Nat × Nat) :=
  let c := clauseAt (r.block bid).clauses d.root
  match d.target with
  | .acc _ | .home _ _ => []
  | .mem sp base rs cs =>
    (writeCells c d.target d.region).flatMap (fun x =>
      let off : Int := x.1 * rs + x.2 * cs
      r.spaceRange bid sp (elemAddr c.ty base.toNat off).1 (ElemTy.bytes c.ty) ++
      (if ElemTy.isPb c.ty then r.spaceRange bid (fmtSp d.fmt) (((fmtSaddr d.fmt : Int) + 2 * (off / 32)) % 2 ^ 64).toNat 2 else []))

/-! ## Spills (R330) -/

/-- The FP flags of an evaluation join the control wave's %FPSR (R328). -/
def Run.orControl (r : Run) (bid flags : Nat) : Run :=
  match r.controlWave bid with
  | some w => r.onWave w (fun x => { x with fpsr := x.fpsr ||| BitVec.ofNat 32 flags })
  | none => r

/-- A spilled clause reads its home from now on. -/
def Block.toLeaf (b : Block) (v : Nat) (sp : Bool) (home : Word64) : Block :=
  let src : Src := if sp then .scratch (home.setWidth 32) else .global home
  let b := b.uncharge v
  let ws : Tbl Watch := b.watch.map (fun w => (w.1, { w.2 with by_ := w.2.by_.map (fun i => if i = 128 + v then v else i) }))
  ({ b with
     clauses := b.clauses.upd v (fun c => { c with op := .leaf, srcs := [(src, { rs := c.cols })] })
     watch := ws } : Block).reclaim

/-- The clause a full table spills next: the oldest referenced one with a home that is not a LEAF. -/
def Block.victim (b : Block) : Option (Nat × Bool × Word64) :=
  let named := reach b.clauses (b.handles.map (·.2))
  (leastBy (fun (e : Nat × Clause) => e.2.no) (b.clauses.filter (fun e => named.contains e.1 && e.2.home.isSome && e.2.op ≠ .leaf))).bind
    (fun e => e.2.home.map (fun h => (e.1, h)))

/-- The spill of a clause as a demand over its whole shape. -/
def spillBatch (v : Nat) (c : Clause) (sp : Bool) (home : Nat) (self : Bool) : Batch :=
  { no := 0, demands := [{ root := v, region := ⟨0, 0, c.rows, c.cols⟩, target := .home sp home, fmt := c.fmt, self := self }] }

/-- The trap of an append whose spill has failed: its origin is the spilled clause's. -/
def spillTrap (b : Block) (f : BatchFault) : Trap :=
  let root := ((b.spill.bind (fun x => x.demands.head?)).map (fun d => d.root)).getD 0
  batchTrap { f with origin := (clauseAt b.clauses root).origin }

/-! ## Tokens (R390) -/

/-- Take the tokens of some accumulators for a stream, or park on the first that is not to be had. -/
def streamTokens (bid : Nat) (k : Run → Eff Unit) : List Nat → Run → Eff Unit
  | [], r => k r
  | c :: cs, r =>
    let core := bid / 4
    let t := r.accTok core c
    if t.holder == .stream bid then streamTokens bid k cs r
    else if t.holder == .free && t.queue.isEmpty then streamTokens bid k cs (accGive r core c (.stream bid))
    else
      let r := if t.queue.any (fun e => e.who == .stream bid) then r
        else r.onAccTok core c (fun t => { t with queue := t.queue ++ [{ who := .stream bid, lanes := 1 }] })
      .park r (.retry (.accToken c))

/-! ## Room for a clause (R330) -/

/-- The accumulators a clause tree names. -/
def accsOf (g : Tbl Clause) (root : Nat) : List Nat :=
  (reach g [root]).flatMap (fun i => (clauseAt g i).srcs.filterMap (fun s => match s.1 with | .acc n => some n | _ => none))

/-- Where all 96 clauses are in use one is spilled, or the append traps; meanwhile the stream parks. -/
def makeRoom (bid : Nat) (d : Opd) (r : Run) : Eff Unit :=
  let b := r.block bid
  match b.spill with
  | some x => (match x.st with
    | .failed f => .trap (r.onBlock bid (fun b => { b with spill := none })) (spillTrap b f)
    | _ => .park r (.retry .spill))
  | none =>
    if b.clauses.length < 96 then .ok r () else
    match b.victim with
    | none => .trap r (tileTrap 1 d)
    | some (v, sp, home) =>
      let c := clauseAt b.clauses v
      let (bad, met) := r.watchMeets bid v true (r.byteRange bid sp home.toNat (homeBytes c))
      match bad with
      | some w => .trap r (batchTrap { sub := 2, cw := tileCw 0xFF w 0 0, origin := c.origin, clause := v, row := 0, col := 0 })
      | none => streamTokens bid (fun r =>
          .park (r.onBlock bid (fun b => { b with spill := some (spillBatch v c sp home.toNat met) })) (.retry .spill))
          (accsOf b.clauses v) r

/-! ## Appending (R372) -/

/-- What an appending instruction asks for. -/
structure Append where
  op : COp
  rows : Nat
  cols : Nat
  ty : ElemTy
  srcs : List (Src × IMap)
  accs : List Nat := []

/-- The appended clause's charges: the ranges of its memory operands over the full shape. -/
def chargeSrcs (r : Run) (bid id : Nat) (a : Append) : Run :=
  a.srcs.foldl (fun r s => match s.1 with
    | .global x =>
      let (lo, hi) := s.2.extent a.rows a.cols
      let (x, z) := spanBytes a.ty x.toNat lo hi
      r.watchOver bid id [(none, x, z)]
    | .scratch x =>
      r.watchOver bid id (r.scratchRanges bid ((List.range a.rows).flatMap (fun i => (List.range a.cols).map (fun j =>
        let (p, q) := s.2.coord i j
        ((elemAddr a.ty x.toNat (p * s.2.rs + q * s.2.cs)).1, ElemTy.bytes a.ty)))))
    | _ => r) r

/-- Steps 3 to 7 of R372. -/
def append (a : Append) (d : Opd) (_ : Sys) (r : Run) (c : Iss) : Eff Unit :=
  let bid := (r.wave c.wid).blk
  (makeRoom bid d r).bind fun r _ =>
  streamTokens bid (fun r =>
    let b := r.block bid
    let id := Tbl.free b.clauses 0
    let fp := r.captured bid
    let cl : Clause := { op := a.op, rows := a.rows, cols := a.cols, ty := a.ty, fmt := b.fmt, srcs := a.srcs
                         fp := fp, origin := c.pc, no := b.appends + 1 }
    let r := chargeSrcs r bid id a
    let r := r.onBlock bid (fun b =>
      ({ b with clauses := b.clauses.put id cl, appends := b.appends + 1, lastFpcr := fp
                handles := b.handles.put (handleNum d) id } : Block).reclaim)
    .ok r ()) a.accs r

/-- The map of a form word (R368). -/
def formMap (x : Word64) : IMap :=
  { rs := 0, cs := 0, roff := bits x 16 8, coff := bits x 24 8, t := x.getLsbD 32, br := x.getLsbD 33, bc := x.getLsbD 34 }
def formRows (x : Word64) : Nat := bits x 0 8 + 1
def formCols (x : Word64) : Nat := bits x 8 8 + 1

/-- A scalar of the stream. -/
def Run.streamS (r : Run) (c : Iss) (o : Opd) (i : Nat) : Word64 := r.rdScalar c.wid o i 0

/-- A group of scalars must end at s63 (R367). -/
def groupOk (n : Nat) (o : Opd) (k : Run → Eff Unit) (r : Run) : Eff Unit :=
  match pairPast true n o with
  | some x => .trap r (pairTrap 1 x)
  | none => k r

/-- TLOAD (R373). -/
def tloadEff (m : TloadMod) (o : Ops) (y : Sys) (r : Run) (c : Iss) : Eff Unit :=
  groupOk 3 o.a (fun r =>
    let base := r.streamS c o.a 0
    let st := r.streamS c o.a 1
    let form := r.streamS c o.a 2
    let im : IMap := { formMap form with rs := sx 32 (bits st 0 32), cs := sx 32 (bits st 32 32) }
    append { op := .tload, rows := formRows form, cols := formCols form, ty := m.ty
             srcs := [(if m.sp then .scratch (base.setWidth 32) else .global base, im)] } o.d y r c) r

def execTload (h : Hd) (m : TloadMod) (o : Ops) (s : State) : Host.Outcome State Fault Refusal := issue s h {} (tloadEff m o)

/-- A source handle, or HANDLE (R319). -/
def withRoot (o : Opd) (k : Nat × Clause → Run → Eff Unit) (r : Run) (c : Iss) : Eff Unit :=
  match (r.block (r.wave c.wid).blk).root o with
  | some x => k x r
  | none => .trap r (tileTrap 6 o)

/-- TMAP (R374): every coordinate lies in the source (R323). -/
def tmapEff (o : Ops) (y : Sys) (r : Run) (c : Iss) : Eff Unit :=
  withRoot o.a (fun a r =>
    let form := r.streamS c o.b 0
    let m := formMap form
    let (i, j) := m.coord (formRows form - 1) (formCols form - 1)
    if a.2.rows ≤ i ∨ a.2.cols ≤ j then .trap r (tileTrap 4 o.a)
    else append { op := .tmap, rows := formRows form, cols := formCols form, ty := a.2.ty, srcs := [(.clause a.1, m)] } o.d y r c) r c

def execTmap (h : Hd) (o : Ops) (s : State) : Host.Outcome State Fault Refusal := issue s h {} (tmapEff o)

/-- The identity map onto a clause (R322). -/
def idMap (c : Clause) : IMap := { rs := c.cols }

/-- TMMA (R375). -/
def tmmaEff (m : TmmaMod) (o : Ops) (y : Sys) (r : Run) (c : Iss) : Eff Unit :=
  withRoot o.a (fun a r => withRoot o.b (fun b r =>
    let ty : ElemTy := if ElemTy.isByteInt a.2.ty && ElemTy.isByteInt b.2.ty then .int32 else .fp32
    let go (more : List (Src × IMap)) (accs : List Nat) (r : Run) : Eff Unit :=
      append { op := .tmma m.acc m.ol, rows := a.2.rows, cols := b.2.cols, ty := ty
               srcs := [(.clause a.1, idMap a.2), (.clause b.1, idMap b.2)] ++ more, accs := accs } o.d y r c
    let shape : Bool := b.2.rows < a.2.cols
    if !m.acc then (if shape then .trap r (tileTrap 4 o.b) else go [] [] r) else
    match o.c with
    | .c n =>
      if shape then .trap r (tileTrap 4 o.b)
      else if 64 < a.2.rows ∨ 64 < b.2.cols then .trap r (tileTrap 4 o.a)
      else go [(.acc n.toNat, {})] [n.toNat] r
    | oc => withRoot oc (fun x r =>
        if shape then .trap r (tileTrap 4 o.b)
        else if x.2.rows < a.2.rows ∨ x.2.cols < b.2.cols then .trap r (tileTrap 4 oc)
        else go [(.clause x.1, idMap x.2)] [] r) r c) r c) r c

def execTmma (h : Hd) (m : TmmaMod) (o : Ops) (s : State) : Host.Outcome State Fault Refusal := issue s h {} (tmmaEff m o)

/-- The handles of a TEW after its first (R371). -/
def tewHandles (m : TewMod) (o : Ops) : List Opd :=
  match m.op with
  | .add | .sub | .mul | .max | .min => [o.b]
  | .sel => [o.b, o.c]
  | _ => []

/-- TEW (R378). -/
def tewEff (m : TewMod) (o : Ops) (y : Sys) (r : Run) (c : Iss) : Eff Unit :=
  withRoot o.a (fun a r =>
    let b := r.block (r.wave c.wid).blk
    let hs := tewHandles m o
    match hs.find? (fun x => (b.root x).isNone) with
    | some x => .trap r (tileTrap 6 x)
    | none =>
      let cs := hs.filterMap (fun x => (b.root x).map (fun z => (x, z)))
      match cs.find? (fun z => z.2.2.rows < a.2.rows || z.2.2.cols < a.2.cols) with
      | some z => .trap r (tileTrap 4 z.1)
      | none =>
        let scale : Word := if m.op = .scale then (r.streamS c o.c 0).setWidth 32 else 0
        append { op := .tew m.op m.rm scale, rows := a.2.rows, cols := a.2.cols, ty := .fp32
                 srcs := (.clause a.1, idMap a.2) :: cs.map (fun z => (.clause z.2.1, idMap z.2.2)) } o.d y r c) r c

def execTew (h : Hd) (m : TewMod) (o : Ops) (s : State) : Host.Outcome State Fault Refusal := issue s h {} (tewEff m o)

/-- TRED (R379). -/
def tredEff (m : TredMod) (o : Ops) (y : Sys) (r : Run) (c : Iss) : Eff Unit :=
  withRoot o.a (fun a r =>
    append { op := .tred m.max m.col, rows := if m.col then 1 else a.2.rows, cols := if m.col then a.2.cols else 1
             ty := .fp32, srcs := [(.clause a.1, idMap a.2)] } o.d y r c) r c

def execTred (h : Hd) (m : TredMod) (o : Ops) (s : State) : Host.Outcome State Fault Refusal := issue s h {} (tredEff m o)

/-- TCVT (R380). -/
def tcvtEff (m : TcvtMod) (o : Ops) (y : Sys) (r : Run) (c : Iss) : Eff Unit :=
  withRoot o.a (fun a r =>
    let list : Word64 := if m.ol then r.streamS c o.b 0 else 0
    append { op := .tcvt m list, rows := a.2.rows, cols := a.2.cols, ty := m.ty, srcs := [(.clause a.1, idMap a.2)] } o.d y r c) r c

def execTcvt (h : Hd) (m : TcvtMod) (o : Ops) (s : State) : Host.Outcome State Fault Refusal := issue s h {} (tcvtEff m o)

/-! ## Bookkeeping -/

/-- The format block TFMT makes (R353, R381). -/
def fmtBlock (m : TfmtMod) (len : Nat) (saddr : Word64) : BitVec 96 :=
  BitVec.ofNat 96 (m.fmt.code.toNat + len % 256 * 2 ^ 4 + (if m.sp then 2 ^ 12 else 0) + saddr.toNat * 2 ^ 32)

def tfmtEff (m : TfmtMod) (o : Ops) (_ : Sys) (r : Run) (c : Iss) : Eff Unit :=
  let f := fmtBlock m (r.streamS c o.b 0).toNat (r.streamS c o.a 0)
  .ok (r.onBlock (r.wave c.wid).blk (fun b => { b with fmt := f })) ()

def execTfmt (h : Hd) (m : TfmtMod) (o : Ops) (s : State) : Host.Outcome State Fault Refusal := issue s h {} (tfmtEff m o)

/-- TBIND (R382). -/
def tbindEff (sp : Bool) (o : Ops) (_ : Sys) (r : Run) (c : Iss) : Eff Unit :=
  let bid := (r.wave c.wid).blk
  withRoot o.d (fun d r =>
    let a := r.streamS c o.a 0 &&& ~~~31
    let a := if sp then (a.setWidth 32).setWidth 64 else a
    let r := r.onBlock bid (fun b =>
      ({ b with clauses := b.clauses.upd d.1 (fun x => { x with home := some (sp, a) }) } : Block).uncharge (128 + d.1))
    .ok (r.watchOver bid (128 + d.1) (r.byteRange bid sp a.toNat (homeBytes d.2))) ()) r c

def execTbind (h : Hd) (sp : Bool) (o : Ops) (s : State) : Host.Outcome State Fault Refusal := issue s h {} (tbindEff sp o)

/-- TFREE of a handle (R383). -/
def tfreeEff (o : Ops) (_ : Sys) (r : Run) (c : Iss) : Eff Unit :=
  withRoot o.a (fun _ r =>
    .ok (r.onBlock (r.wave c.wid).blk (fun b => ({ b with handles := b.handles.del (handleNum o.a) } : Block).reclaim)) ()) r c

def execTfree (h : Hd) (o : Ops) (s : State) : Host.Outcome State Fault Refusal := issue s h {} (tfreeEff o)

/-- Whether a demand reaches an accumulator (R383). -/
def Block.reaches (b : Block) (n : Nat) (d : Demand) : Bool :=
  (match d.target with | .acc k => k = n | _ => false) || (accsOf b.clauses d.root).contains n

/-- TFREE of an accumulator (R383). -/
def tfreeAccEff (o : Ops) (_ : Sys) (r : Run) (c : Iss) : Eff Unit :=
  let bid := (r.wave c.wid).blk
  let n := accNum o.a
  let b := r.block bid
  if (r.accTok (bid / 4) n).holder ≠ .stream bid then .ok r ()
  else
    let shut := b.openDemands.any (b.reaches n)
    if shut && 4 ≤ b.incomplete.length then .park r (.retry .batchRoom)
    else
      let r := if shut then r.onBlock bid Block.close else r
      let b := r.block bid
      match (b.incomplete.filter (fun x => x.demands.any (b.reaches n))).map (·.no) with
      | [] => .ok (accRelease r (bid / 4) n) ()
      | ns => .park r (.retry (.batches (ns.foldl max 0) false))

def execTfreeAcc (h : Hd) (o : Ops) (s : State) : Host.Outcome State Fault Refusal := issue s h {} (tfreeAccEff o)

/-- TORF (R384): clause reads happen at evaluation, after the arrivals. -/
def execTorf (h : Hd) (n : BitVec 4) (s : State) : Host.Outcome State Fault Refusal :=
  issue s h {} (fun _ r c =>
    if (r.launchOf (r.wave c.wid)).info.nb ≤ n.toNat then .trap r (syncTrap c.act 7)
    else .ok (r.orderRecent (r.wave c.wid).blk n.toNat) ())

/-! ## Demands (R385) -/

/-- A region word (R370). -/
def regionWord (x : Word64) : Region := ⟨bits x 0 8, bits x 8 8, bits x 16 8 + 1, bits x 24 8 + 1⟩

/-- Steps 1 to 6 of R385 for a target. -/
def demandEff (close : Bool) (target : Target) (o : Ops) (_ : Sys) (r : Run) (c : Iss) : Eff Unit :=
  let bid := (r.wave c.wid).blk
  withRoot o.a (fun a r =>
    let g := regionWord (r.streamS c o.b 0)
    let toAcc : Bool := match target with | .acc _ => true | _ => false
    if a.2.rows < g.row0 + g.rows ∨ a.2.cols < g.col0 + g.cols ∨ (toAcc ∧ (64 < g.row0 + g.rows ∨ 64 < g.col0 + g.cols)) then
      .trap r (tileTrap 5 o.a)
    else
      let b := r.block bid
      let d : Demand := { root := a.1, region := g, target := target, fmt := b.fmt, self := false }
      let (bad, met) := r.watchMeets bid a.1 false (r.writeRanges bid d)
      match bad with
      | some w => .trap r (tileTrap 2 o.a w)
      | none =>
        let accs := (match target with | .acc n => [n] | _ => []) ++ accsOf b.clauses a.1
        streamTokens bid (fun r =>
          if close && 4 ≤ (r.block bid).incomplete.length then .park r (.retry .batchRoom)
          else
            let self : Bool := met || (match target with | .acc n => (accsOf b.clauses a.1).contains n | _ => false)
            let r := r.onBlock bid (fun b => { b with openDemands := b.openDemands ++ [{ d with self := self }] })
            if close then
              let r := r.onBlock bid Block.close
              let n : Word64 := BitVec.ofNat 64 (r.block bid).lastClosed
              .ok (r.onWave c.wid (fun w => w.setS (scalarNum o.c).toNat n)) ()
            else .ok r ()) accs r) r c

/-- TFORCE (R386). -/
def tforceEff (close : Bool) (o : Ops) (y : Sys) (r : Run) (c : Iss) : Eff Unit :=
  match o.d with
  | .c n => demandEff close (.acc n.toNat) o y r c
  | _ => groupOk 2 o.d (fun r =>
      let base := r.streamS c o.d 0
      demandEff close (.mem true ((base.setWidth 32).setWidth 64) (bits (r.streamS c o.d 1) 0 32) 1) o y r c) r

def execTforce (h : Hd) (close : Bool) (o : Ops) (s : State) : Host.Outcome State Fault Refusal := issue s h {} (tforceEff close o)

/-- TSTORE (R386). -/
def tstoreEff (m : TstoreMod) (o : Ops) (y : Sys) (r : Run) (c : Iss) : Eff Unit :=
  groupOk 2 o.d (fun r =>
    let base := r.streamS c o.d 0
    let st := r.streamS c o.d 1
    let base : Word64 := if m.sp then (base.setWidth 32).setWidth 64 else base
    demandEff m.close (.mem m.sp base (sx 32 (bits st 0 32)) (sx 32 (bits st 32 32))) o y r c) r

def execTstore (h : Hd) (m : TstoreMod) (o : Ops) (s : State) : Host.Outcome State Fault Refusal := issue s h {} (tstoreEff m o)

/-- TWAIT (R387): a failed batch among those it covers is reported (R336). -/
def twaitEff (o : Ops) (_ : Sys) (r : Run) (c : Iss) : Eff Unit :=
  let bid := (r.wave c.wid).blk
  let b := r.block bid
  let n := min ((r.streamS c o.a 0).setWidth 32).toNat b.lastClosed
  match failedBatch b n with
  | some (f, b') => .trap (r.onBlock bid (fun _ => b')) (batchTrap f)
  | none => if b.incomplete.any (fun x => x.no ≤ n) then .park r (.retry (.batches n true)) else .ok r ()

def execTwait (h : Hd) (o : Ops) (s : State) : Host.Outcome State Fault Refusal := issue s h {} (twaitEff o)

/-- The holder word of an accumulator (R388). -/
def Run.holderWord (r : Run) (bid n : Nat) : Nat :=
  match (r.accTok (bid / 4) n).holder with
  | .free => 0
  | .stream b => if b = bid then 1 else 3
  | .wave w => if (r.wave w).blk = bid then 2 + 4 * ((r.wave w).index % 32) else 3

/-- TQRY (R388). -/
def tqryWord (r : Run) (bid k : Nat) (o : Opd) : Nat :=
  let b := r.block bid
  match k, b.root o with
  | 5, _ => (96 - b.clauses.length) + (64 - b.handles.length) * 2 ^ 8 + b.incomplete.length * 2 ^ 16 + (32 - b.watch.length) * 2 ^ 24
  | 6, _ => (match o with | .c n => r.holderWord bid n.toNat | _ => 0)
  | 7, _ => b.lastDone
  | 0, some (i, c) => c.rows + c.cols * 2 ^ 9 + c.ty.code.toNat * 2 ^ 18 + (if c.op = .leaf then 2 ^ 22 else 0) +
      (if c.home.isSome then 2 ^ 23 else 0) + i * 2 ^ 24 + 2 ^ 31
  | 1, some (_, c) => bits c.fmt 0 32
  | 2, some (_, c) => bits c.fmt 32 32
  | 3, some (_, c) => bits c.fmt 64 32
  | 4, some (_, c) => c.origin.toNat
  | _, _ => 0

def execTqry (h : Hd) (k : BitVec 3) (o : Ops) (s : State) : Host.Outcome State Fault Refusal :=
  issue s h {} (fun _ r c =>
    let x := tqryWord r (r.wave c.wid).blk k.toNat o.a
    .ok (r.onWave c.wid (fun w => w.setS (scalarNum o.d).toNat (BitVec.ofNat 64 x))) ())

/-! ## Batches at work (R326 to R337) -/

/-- What the sequencer evaluates next (R329, R330): a spill, ahead of every batch not yet started, else the oldest batch; true for
the spill. After a late fault the stream resumes first (R337). -/
def Block.work (b : Block) : Option (Bool × Batch) :=
  let busy (x : Batch) : Bool := match x.st with | .closed => x.started | .paused _ _ => true | _ => false
  let spill := b.spill.filter (fun x => x.st = .closed && !b.batches.head?.any busy)
  match spill with
  | some x => some (true, x)
  | none => if b.strap.any (fun t => t.late) then none else (b.batches.head?.filter (fun x => x.st = .closed)).map (fun x => (false, x))

/-- Change the spill, or the oldest batch. -/
def Block.onWork (b : Block) (spill : Bool) (f : Batch → Batch) : Block :=
  if spill then { b with spill := b.spill.map f } else { b with batches := b.batches.mapIdx (fun i x => if i = 0 then f x else x) }

/-- Replace the first demand that is not done. -/
def putDemand (d : Demand) : List Demand → List Demand
  | [] => []
  | x :: t => if x.done then x :: putDemand d t else d :: t

/-- Whether a halt keeps the evaluation of a batch from beginning, or a forced save from going on (R347). -/
def Run.evalHalted (r : Run) (bid : Nat) (x : Batch) : Bool :=
  let c := r.ctx (r.block bid).ctx
  3 ≤ c.step || (c.step = 2 && !x.started)

/-- One step of the evaluation: the next access of the first demand that is not done, or the answer it awaits. -/
def batchRun (y : Sys) (r : Run) (bid : Nat) : Run :=
  match (r.block bid).work with
  | none => r
  | some (sp, x) =>
    if r.evalHalted bid x then r else
    let put (r : Run) (d : Demand) (f : Batch → Batch) : Run :=
      r.onBlock bid (fun b => b.onWork sp (fun x => f { x with demands := putDemand d x.demands }))
    match x.demands.find? (fun d => !d.done) with
    | none => r.onBlock bid (fun b => b.onWork sp (fun x => { x with st := .evaluated }))
    | some d => match d.asked with
      | some (_, n) =>
        let (v, r) := r.free
        put (releaseOut r d.far.toList) { d with log := d.log ++ [v.toNat % 2 ^ (8 * n)], asked := none, far := none } id
      | none =>
        if !r.walkerFree (bid / 4) then r else
        match evDemand y r bid d with
        | .more r d => put r d id
        | .done r d fl => put r d (fun x => { x with flags := x.flags ||| fl })
        | .fault r d f => put r d (fun x => { x with st := .faulted f })
        | .pause r d f pages => put r d (fun x => { x with st := .paused f pages })

/-- BATCH_EVALUATE: one access of the evaluation, or the arrival of what another device answers to one. -/
def execBatchEvaluate (b : Nat) (s : State) : Host.Outcome State Fault Refusal := event s (fun y r => batchRun y r b)

/-- The first demand whose writes await their acknowledgement has it. -/
def ackFirst : List Demand → List Demand
  | [] => []
  | d :: t => if d.out = [] then d :: ackFirst t else { d with out := [] } :: t

def Batch.acked (x : Batch) : Batch := { x with demands := ackFirst x.demands }
/-- Whether all writes of a batch have performed. -/
def Batch.performed (x : Batch) : Bool := x.st = .evaluated && x.demands.all (fun d => d.out = [])

/-- BATCH_COMPLETE (R328 to R330): the writes of a demand have performed; when all have, the flags join the control wave's %FPSR. A
spilled clause reads its home from now on. -/
def batchDone (r : Run) (b : Nat) : Run :=
  let z := r.block b
  let due (x : Batch) : Bool := x.st = .evaluated || x.demands.any (fun d => d.out ≠ [])
  match z.spill.filter due with
  | some x =>
    let r := r.onBlock b (fun z => z.onWork true Batch.acked)
    if !x.acked.performed then r else
    match x.demands.head? with
    | some d => (match d.target with
      | .home sp a => (r.orControl b x.flags).onBlock b (fun z => ({ z with spill := none } : Block).toLeaf d.root sp (BitVec.ofNat 64 a))
      | _ => r)
    | none => r
  | none =>
    let r := r.onBlock b (fun z => z.onWork false Batch.acked)
    match (r.block b).batches with
    | x :: t =>
      if x.performed then
        (r.orControl b x.flags).onBlock b (fun z => ({ z with batches := t, lastDone := x.no } : Block).reclaim)
      else r
    | [] => r

def execBatchComplete (b : Nat) (s : State) : Host.Outcome State Fault Refusal := event s (fun _ r => batchDone r b)

/-- The fault a request to another device ends in (R334, R508). -/
def BatchFault.by_ (f : BatchFault) (z : FarFault) : BatchFault :=
  match z with
  | .timeout => f
  | z => { f with sub := 0x10, cw := setBits f.cw 16 8 (FarFault.sub z) }

/-- A batch fails (R336, R337): its own fault, or that of the first request to another device that is out. The demands that are not
complete will be evaluated again. -/
def Batch.fail (x : Batch) (z : Option FarFault) : Batch :=
  let again (f : BatchFault) : Batch :=
    { x with st := .failed f, demands := x.demands.map (fun d => if d.done && d.out = [] then d else d.anew) }
  match z, x.st with
  | none, .faulted f => again f
  | none, _ | some _, .faulted _ | some _, .failed _ => x
  | some z, _ => match x.demands.findSome? (fun d => (d.asked.map (·.1)).orElse (fun _ => d.out.head?)) with
    | some f => again (f.by_ z)
    | none => x

/-- CLAUSE_FAULT (R336). -/
def clauseFail (r : Run) (b : Nat) (z : Option FarFault) : Run :=
  let mine (x : Batch) : Bool := match z, x.st with | none, .faulted _ => true | some _, _ => x.beyond | _, _ => false
  r.onBlock b (fun k => k.onWork (k.spill.any mine) (fun x => x.fail z))

def execClauseFault (b : Nat) (f : Option FarFault) (s : State) : Host.Outcome State Fault Refusal :=
  event s (fun _ r => clauseFail r b f)

/-- A paused evaluation goes on at the access that faulted (R335). -/
def Batch.resume (x : Batch) : Batch := match x.st with | .paused _ _ => { x with st := .closed } | _ => x

/-- EVAL_RESUME. -/
def execEvalResume (b : Nat) (s : State) : Host.Outcome State Fault Refusal :=
  event s (fun _ r => r.onBlock b (fun z => { z with batches := z.batches.map Batch.resume, spill := z.spill.map Batch.resume }))

/-- A declined repair: the pause becomes the late fault it stands for. -/
def Batch.decline (x : Batch) (sub : Nat) : Batch :=
  match x.st with
  | .paused f _ => { x with st := .faulted { f with cw := setBits f.cw 16 8 sub } }
  | _ => x

/-- A forced save stops the evaluation at a clause boundary (R347): the clause in progress is evaluated again, whole, with the
reservation it has made. -/
def Demand.cut (d : Demand) : Demand :=
  if d.done then d else
  { d with log := if d.kept.isSome then [] else d.log.take d.mark, asked := none, far := none, news := []
           resv := match d.news.get? d.clause with | some v => d.resv.put d.clause v | none => d.resv }

/-! ## Delivery of a stream's trap (R338) -/

/-- The part that issues next, by the wave's rotation (R100); else the one with the lowest lane. In a handler only the handler's
parts count. -/
def Wave.nextPart (w : Wave) : Option Part :=
  let ps := w.parts.filter (fun p => w.handler = 0 || (p.mask &&& w.handler) ≠ 0)
  match leastBy (fun (p : Part) => ((w.groupOf p).lowest + 32 - w.turn % 32) % 32) (ps.filter (fun p => p.park == .run)) with
  | some p => some p
  | none => leastBy (fun (p : Part) => p.mask.lowest) ps

/-- A burn is cut short: its level holds no longer (R444). -/
def cutBurn (r : Run) (wid deadline level : Nat) : Run :=
  r.onCore (coreOf wid) (fun k => { k with burns := k.burns.map (fun b =>
    if b.2.1 = deadline && b.2.2 = level then (b.1, r.clk, level) else b) })

/-- The instruction a part waits in, where it still decodes. -/
def Run.instrAt (y : Sys) (r : Run) (wid : Nat) (pc : Word64) : Option Instr :=
  match decodeWord (DCtx.ofWave (r.wave wid)) (r.peek y wid pc) with
  | .ok i => some i
  | .error _ => none

/-- A RACQ's request leaves its block's queue. -/
def poolWithdraw (y : Sys) (r : Run) (wid : Nat) (m : Lanes) : Run :=
  let b := (r.wave wid).blk
  poolRun y (r.onBlock b (fun z => { z with poolQueue := z.poolQueue.filter (fun q => !q.wave.any (fun e => e.1 = wid && (e.2 &&& m) ≠ 0)) })) b

/-- What a wait leaves behind when its instruction is to issue afresh. -/
def Wait.undo (k : Wait) (r : Run) (wid : Nat) : Run :=
  match k with
  | .ticket _ d => r.onWave wid (fun w => w.fill [⟨false, d, 0xFFFFFFFF#32⟩])
  | .token _ => r.onCore (coreOf wid) (fun k => { k with ctokWait := k.ctokWait.filter (fun e => e ≠ wid) })
  | _ => r

/-- Whether a stream's trap abandons a wait that will issue afresh (R338). -/
def Wait.abandons (k : Wait) (here : Option Instr) : Bool :=
  match k with
  | .ticket _ _ | .regs _ | .nbarw _ _ | .channel _ | .object _ _ _ | .done _ _ | .collective _ | .reads => true
  | .token _ => here.any (fun i => match i with | .ctacq _ => true | _ => false)
  | .release _ | .acquire => here.any (fun i => match i with | .fence _ _ => true | _ => false)
  | _ => false

/-- How a trap meets a part's wait: none delivers later; else the run with the wait withdrawn, and whether the instruction is over
(BALBURN, a BAR that has arrived). A PREEMPT trap (`pre`) is taken whatever the part waits in, as a halt would stop it (R489, R493). -/
def withdraw (y : Sys) (r : Run) (wid : Nat) (p : Part) (pre : Bool := false) : Option (Run × Bool) :=
  let w := r.wave wid
  let core := coreOf wid
  match p.park with
  | .run => some (r, false)
  | .mwait _ _ | .pwrwait _ _ _ | .steal _ _ _ _ => some (r, false)
  | .pair _ d => some (r.onWave wid (fun w => w.fill [⟨false, d.toNat, 0xFFFFFFFF#32⟩]), false)
  | .contBin acc => some (r.onCtx (r.block w.blk).ctx (fun c => { c with quota := c.quota + acc.count }), false)
  | .burn t l => some (cutBurn r wid t l, true)
  | .cacq n => some (r.onAccTok core n (fun t => { t with queue := t.queue.filter (fun e => !(e.who == .wave wid)) }), false)
  | .retry (.sealing _ _) => if pre then some (r, true) else none
  | .retry k => if pre || k.abandons (r.instrAt y wid p.pc) then some (k.undo r wid, false) else none
  | .bar _ _ _ _ => if pre then some (r, true) else none
  | .racq _ => if pre then some (poolWithdraw y r wid (w.groupOf p), false) else none
  | .fault _ _ _ _ => if pre then some (r, false) else none
  | .fwcall _ _ _ | .trapped _ => none

/-- The trap as the control wave takes it: no lane. -/
def StreamTrap.trap (t : StreamTrap) : Trap :=
  { cls := t.cls, sub := t.sub, mask := 0, cw := t.cw, late := t.late, origin := t.origin, clause := t.clause, coord := t.coord }

/-- The record of a stream's trap for the Inn, in the layout of R196. -/
def StreamTrap.bytes (t : StreamTrap) (word : BitVec 96) : List Byte :=
  sideEntry t.trap (causeWord t.cls t.sub 0 t.late false false false) t.epc 0 0 0 0 word

/-- STREAM_TRAP_DELIVERY: to the group of the control wave that is about to issue, else to its next part. -/
def streamDeliver (y : Sys) (r : Run) (b : Nat) : Run :=
  match (r.block b).strap with
  | none => r
  | some t =>
    if t.delivered.isSome then r else
    let mark (r : Run) (n : Nat) : Run := r.onBlock b (fun z => { z with strap := some { t with delivered := some n } })
    let inn : Run := mark { r with faultq := r.faultq ++ [.stream b (t.bytes (r.peek y (streamId b) t.epc))] } (streamId b)
    match r.controlWave b with
    | none => inn
    | some wid =>
      let w := r.wave wid
      if !(delegable t.cls && (r.ctx (r.block b).ctx).tdeleg.getLsbD t.cls) then inn
      else if w.priv || w.inh || w.life ≠ .live then r
      else match (if r.cur.wave = wid then w.partAt r.cur.lanes else none).orElse (fun _ => w.nextPart) with
        | none => r
        | some p =>
          match withdraw y r wid p with
          | none => r
          | some (r, ended) =>
            let m := w.groupOf p
            let pc := if ended then p.pc + 12 else p.pc
            mark (takeTrap r wid m pc (r.peek y wid pc) t.trap) wid

def execStreamTrapDelivery (b : Nat) (s : State) : Host.Outcome State Fault Refusal := event s (fun y r => streamDeliver y r b)

end Sys2Proof.Machine
end

