-- ==== Sys2Proof/Machine/Txn.lean ====
section
/-! DEFINITION. Ordered transactions and the commit token (R398 to R420): declarations, tickets, beats and the
itinerary, grants, the access window. -/

namespace Sys2Proof.Machine

/-- A TXN trap (R401). -/
def txnTrap (act : Lanes) (sub : Nat) (ticket : Word64) : Trap := { cls := 10, sub := sub, mask := act, cw := ticket }

/-! ## The sequencers -/

/-- Requests queued at a slice. -/
def sliceLoad (y : Sys) (r : Run) (p slice : Nat) (ts : List Ticket) : Nat :=
  ts.foldl (fun n t => if t.sent then n + (t.lines.filter (fun l => homeSlice y r p (l.1 * 256) = slice)).length else n) 0

/-- Whether every slice can take a ticket's requests whole (R410). -/
def ticketFits (y : Sys) (r : Run) (p : Nat) (ts : List Ticket) (t : Ticket) : Bool :=
  let need := t.lines.map (fun l => homeSlice y r p (l.1 * 256))
  need.all (fun s => sliceLoad y r p s ts + need.count s ≤ 4096)

/-- The merged tickets due at the slices, in itinerary order. -/
def Partition.waiting (p : Partition) : List Ticket :=
  let due := p.tickets.filter (fun t => t.merged.isSome && !t.sent && t.batch + 2 ≤ p.beat)
  due.foldl (fun acc t => (acc.filter (fun u => u.merged.getD 0 < t.merged.getD 0)) ++ [t] ++
    (acc.filter (fun u => t.merged.getD 0 ≤ u.merged.getD 0))) []

/-- Send tickets whole in itinerary order, as far as they fit (R410). -/
def sendTickets (y : Sys) (p : Nat) : List Ticket → Run → Run
  | [], r => r
  | t :: rest, r =>
    if ticketFits y r p (r.part p).tickets t then
      sendTickets y p rest (r.onPart p (fun x => { x with tickets := x.tickets.map (fun u => if u == t then { u with sent := true } else u) }))
    else r

def sendDue (y : Sys) (r : Run) (p : Nat) : Run := sendTickets y p (r.part p).waiting r

/-- A ticket ends: grants, requests and entry go (R413); withheld tickets follow. -/
def endTicket (y : Sys) (r : Run) (wid : Nat) (t : TickRef) : Run :=
  let p := r.partOf wid
  sendDue y (r.onPart p (fun x => { x with tickets := x.tickets.filter (fun k => !t.is k) })) p

def Wave.setSlot (w : Wave) (one : Bool) (t : Option TickRef) : Wave := if one then { w with slot1 := t } else { w with slot0 := t }

/-- The report of a timeout frees the slot (R414). -/
def Wave.reported (w : Wave) (one : Bool) : Wave :=
  { w.setSlot one none with
    active := if w.active = some one then none else w.active
    late := if w.active = some one then w.late.filter (fun t => !(t.cls = 10 && t.sub = 2)) else w.late }

/-- A wave ends other than by EXIT: its tickets end and its declarations go (R413). -/
def dropTickets (y : Sys) (r : Run) (wid : Nat) : Run :=
  let w := r.wave wid
  let r := (w.slot0.toList ++ w.slot1.toList).foldl (fun r t => endTicket y r wid t) r
  r.onWave wid (fun w => { w with slot0 := none, slot1 := none, active := none, decl := [] })

/-- The slot that holds a ticket value (R404): open, or timed out and not yet reported. -/
def Wave.findTicket (w : Wave) (v : Word64) : Option (Bool × TickRef) :=
  match w.slot0.filter (fun t => ticketValue 0 t == v), w.slot1.filter (fun t => ticketValue 1 t == v) with
  | some t, _ => some (false, t)
  | none, some t => some (true, t)
  | none, none => none

/-! ## TXDECL -/

/-- R402, with the row bytes that R399's field gives. -/
def txdeclEff (wr : Bool) (h : Hd) (o : Ops) (_ : Sys) (r : Run) (c : Iss) : Eff Unit :=
  match pairPast false 2 o.a with
  | some n => .trap r (pairTrap c.act n)
  | none => r.checked c [⟨1, o.a, 2, false, h.fea, none⟩] <|
    let w := r.wave c.wid
    let base := r.rdScalar c.wid o.a 0 c.act.lowest
    let hi := r.rdScalar c.wid o.a 1 c.act.lowest
    let last := base.toNat + bits hi 48 12 * bits hi 0 32 + (bits hi 32 16 + 1)
    if 8 ≤ w.decl.length then .trap r (txnTrap c.act 8 0)
    else if 2 ^ 52 ≤ base.toNat ∨ 2 ^ 52 < last then .trap r (memTrap 0x11 (c.act.toList.map (fun l => (l, base.toNat))))
    else .ok (r.onWave c.wid (fun w => { w with decl := w.decl ++ [⟨base, hi, wr⟩] })) ()

def execTxdecl (h : Hd) (wr : Bool) (o : Ops) (s : State) : Host.Outcome State Fault Refusal :=
  issue s h { closer := true } (txdeclEff wr h o)

/-! ## TXSUB -/

/-- The rows of a tile as byte ranges. -/
def Tile.rows (t : Tile) : List (Nat × Nat) :=
  (List.range (bits t.hi 48 12 + 1)).map (fun i =>
    let s := t.lo.toNat + i * bits t.hi 0 32
    (s, s + bits t.hi 32 16 + 1))

/-- Join a line into a set; write-declared when any write tile touches it. -/
def addLine (m : Tbl Bool) (l : Nat) (wr : Bool) : Tbl Bool := m.put l ((m.get? l).getD false || wr)

/-- The virtual lines of a declaration (R399). -/
def lineSet (ts : List Tile) : Tbl Bool :=
  ts.foldl (fun m t => t.rows.foldl (fun m e =>
    (List.range ((e.2 - 1) / 256 - e.1 / 256 + 1)).foldl (fun m i => addLine m (e.1 / 256 + i) t.wr) m) m) []

/-- Step 3 of R403: every line of every page, fatal faults before replayable ones. The host lines, by virtual line. -/
def translateTiles (y : Sys) (r : Run) (c : Iss) (ls : Tbl Bool) : Eff (Tbl Nat) :=
  let core := coreOf c.wid
  let cid := r.cidOf c.wid
  let want (wr : Bool) : Want := { write := wr, priv := (r.wave c.wid).priv }
  let reads := (ls.filter (fun e => !e.2)).map (fun e => (e.1, e.1 * 256))
  let writes := (ls.filter (fun e => e.2)).map (fun e => (e.1, e.1 * 256))
  let n := ((missedPages y r core cid (want false) (reads.map (·.2)) ++ missedPages y r core cid (want true) (writes.map (·.2))).dedup).length
  if n ≠ 0 ∧ r.walkerFree core = false then .park r (.retry .walker) else
  let (r, rs, re) := translateAll y (r.startWalks core n) core cid (want false) false reads
  let (r, ws, we) := translateAll y r core cid (want true) false writes
  let es : List (Bool × Nat × WalkErr) := re.map (fun e => (false, e.2)) ++ we.map (fun e => (true, e.2))
  let fatal := es.filter (fun e => !e.2.2.replay)
  match fatal.foldl (fun (b : Option (Bool × Nat × WalkErr)) e => match b with
      | some x => if e.2.2.sub < x.2.2.sub then some e else b
      | none => some e) none with
  | some e => .trap r (memTrap e.2.2.sub (c.act.toList.map (fun l => (l, e.2.1))) (detailCode e.2.2 (want e.1)))
  | none =>
    if es ≠ [] then
      .park (sendReplays r core (slotOf c.wid) cid c.pc (es.map (fun e => (e.2.1, e.2.2, want e.1)))) (.fault ((es.map (fun e => e.2.1 / 65536)).dedup) (we ≠ [])
        (c.act.toList.map (fun l => (l, (es.head?.map (·.2.1)).getD 0))) ((es.head?.map (fun e => detailCode e.2.2 (want e.1))).getD 0))
    else .ok r ((rs ++ ws).foldl (fun m e => Tbl.put m e.1 e.2.pa) [])

/-- The lowest free entry of a die's sequencer. -/
def freeEntry (p : Partition) (die : Nat) : Option Nat :=
  (List.range 256).find? (fun e => p.tickets.all (fun t => !(t.die = die && t.entry = e)))

/-- R403. -/
def txsubEff (o : Ops) (y : Sys) (r : Run) (c : Iss) : Eff Unit :=
  let w := r.wave c.wid
  if w.slot0.isSome && w.slot1.isSome then .trap r (txnTrap c.act 6 0) else
  let ls := lineSet w.decl
  if 4096 < ls.length then .trap r (txnTrap c.act 5 0) else
  (translateTiles y r c ls).bind fun r pas =>
  if pas.any (fun e => isAper e.2) then .trap r (txnTrap c.act 4 0) else
  let p := r.partOf c.wid
  let die := dieOf (coreOf c.wid)
  match freeEntry (r.part p) die with
  | none => .park r (.retry .txRoom)
  | some e =>
    let lines := ls.foldl (fun m l => addLine m ((pas.get? l.1).getD 0 / 256) l.2) []
    let gen := SMap.get 0 (r.die die).gens e + 1
    let b := r.blockOf w
    let beat := (r.part p).beat
    let k : Ticket := { die := die, entry := e, gen := gen, wave := c.wid, lines := lines, beat := beat, batch := beat
                        round := if r.det w then some (b.launch, w.rounds + 1, b.nbh, b.index, w.index) else none }
    let one := w.slot0.isSome
    let order := max ((w.slot0.map (·.order)).getD 0) ((w.slot1.map (·.order)).getD 0) + 1
    let t : TickRef := { die := die, entry := e, gen := gen, order := order, tiles := w.decl, lines := ls.length, pc := c.pc }
    let r := r.onDie die (fun d => { d with gens := d.gens.set 0 e gen })
    let r := r.onPart p (fun x => { x with tickets := x.tickets ++ [k] })
    .ok (r.onWave c.wid (fun w =>
      { (w.setSlot one (some t)).setS (scalarNum o.d).toNat (ticketValue (if one then 1 else 0) t) with
        decl := [], rounds := if r.det w then w.rounds + 1 else w.rounds })) ()

def execTxsub (h : Hd) (o : Ops) (s : State) : Host.Outcome State Fault Refusal :=
  issue s h { uses := usesOf h o, closer := true } (txsubEff o)

/-! ## TXWAIT, TXEND, TXQRY -/

/-- The ticket a scalar operand holds. -/
def Run.ticketArg (r : Run) (c : Iss) (o : Opd) : Word64 := r.rdScalar c.wid o 0 c.act.lowest

/-- The slot whose ticket a TXWAIT of a group already waits for. -/
def Wave.txWaiting (w : Wave) (m : Lanes) : Option Bool :=
  match (w.partAt m).map (fun p : Part => p.park) with
  | some (.retry (.ticket slot _)) => some (slot = 1)
  | _ => none

/-- R411. D is empty while it waits (R129); the ticket is the one it found when it issued. -/
def txwaitEff (o : Ops) (_ : Sys) (r : Run) (c : Iss) : Eff Unit :=
  let d : RegRef := ⟨false, (scalarNum o.d).toNat, 0xFFFFFFFF#32⟩
  let first := (r.wave c.wid).txWaiting c.m
  let r := if first.isSome then r.onWave c.wid (fun w => w.fill [d]) else r
  let w := r.wave c.wid
  let v := match first.bind (fun one => (w.slot one).map (ticketValue (if one then 1 else 0))) with
    | some x => x
    | none => r.ticketArg c o.a
  let wait (one : Bool) : Eff Unit := .park (r.onWave c.wid (fun w => w.markEmpty [d])) (.retry (.ticket (if one then 1 else 0) d.n))
  match w.findTicket v with
  | none => .trap r (txnTrap c.act 7 v)
  | some (one, t) =>
    if t.dead then .trap (r.onWave c.wid (fun w => w.reported one)) (txnTrap c.act 2 v)
    else if w.active = some one ∨ (w.slot (!one)).any (fun u => !u.dead && u.order < t.order) then .trap r (txnTrap c.act 3 v)
    else match r.ticketOf c.wid t with
      | some k =>
        if k.granted (r.part (r.partOf c.wid)).tickets then
          .ok (r.onWave c.wid (fun w => { w.setS (scalarNum o.d).toNat (BitVec.ofNat 64 t.lines) with active := some one })) ()
        else wait one
      | none => wait one

def execTxwait (h : Hd) (o : Ops) (s : State) : Host.Outcome State Fault Refusal :=
  issue s h { uses := if ((s.run.wave s.run.cur.wave).txWaiting s.run.cur.lanes).isSome then [] else usesOf h o
              whole := some 1, switch := true } (txwaitEff o)

/-- R413. -/
def txendEff (o : Ops) (y : Sys) (r : Run) (c : Iss) : Eff Unit :=
  let w := r.wave c.wid
  let v := r.ticketArg c o.a
  match w.findTicket v with
  | none => .trap r (txnTrap c.act 7 v)
  | some (one, t) =>
    if t.dead then .trap r (txnTrap c.act 7 v) else
    ordered true false (fun y r c =>
      .ok ((endTicket y r c.wid t).onWave c.wid (fun w =>
        { w.setSlot one none with active := if w.active = some one then none else w.active })) ()) y r c

def execTxend (h : Hd) (o : Ops) (s : State) : Host.Outcome State Fault Refusal :=
  issue s h { uses := usesOf h o, closer := true } (txendEff o)

/-- The state word of R416. -/
def Run.ticketWord (r : Run) (wid : Nat) (v : Word64) : Nat :=
  let w := r.wave wid
  match w.findTicket v with
  | none => 0
  | some (one, t) =>
    let ts := (r.part (r.partOf wid)).tickets
    let (st, got) : Nat × Nat := match r.ticketOf wid t with
      | none => (5, 0)
      | some k =>
        (if w.window = some one then 4 else if k.granted ts then 3 else if k.merged.isSome then 2 else 1, grantedLines ts k)
    (if t.dead then 5 else st) + got * 2 ^ 16 + t.lines * 2 ^ 32

def execTxqry (h : Hd) (o : Ops) (s : State) : Host.Outcome State Fault Refusal :=
  issue s h { uses := usesOf h o } (fun _ r c =>
    let x := r.ticketWord c.wid (r.ticketArg c o.a)
    .ok (r.onWave c.wid (fun w => w.setS (scalarNum o.d).toNat (BitVec.ofNat 64 x))) ())

/-! ## Beats (R405 to R407) -/

/-- A DET round is closed (R407): every neighbourhood of the launch is placed, and each of its waves, running or saved, has
submitted that round. -/
def Run.roundClosed (r : Run) (l k : Nat) : Bool :=
  let la := r.launch l
  let saved := ((r.ctx la.ctx).saved.filter (fun n => n.launch = l)).flatMap (fun n => n.blocks.flatMap (fun b => b.waves.map (·.2)))
  la.info.grid ≤ la.next &&
  r.waves.all (fun e => e.2.stream || e.2.life = .ended || (r.blockOf e.2).launch ≠ l || k ≤ e.2.rounds) &&
  saved.all (fun w => w.life = .ended || k ≤ w.rounds)

/-- Lexicographic order of keys. -/
def keyLe : List Nat → List Nat → Bool
  | a :: s, b :: t => a < b || (a = b && keyLe s t)
  | [], _ => true
  | _ :: _, [] => false

/-- A ticket's place within its batch (R406): DET tickets by launch (in an open order) and key, then the others by die rank
and acceptance. -/
def Ticket.key (t : Ticket) (i : Nat) : List Nat :=
  match t.round with
  | some (l, k, n, b, w) => [0, Config.choice l, l, k, n, b, w]
  | none => [1, t.die, i]

def insertTicket (x : List Nat × Ticket) : List (List Nat × Ticket) → List (List Nat × Ticket)
  | [] => [x]
  | y :: t => if keyLe x.1 y.1 then x :: y :: t else y :: insertTicket x t

/-- The batch that beat b of a partition leaves to merge, in itinerary order. -/
def Run.batchOf (r : Run) (p : Nat) : List Ticket :=
  let q := r.part p
  let es := (List.range q.tickets.length).zip q.tickets
  let go := es.filter (fun e => e.2.merged.isNone && (match e.2.round with | some (l, k, _) => r.roundClosed l k | none => true))
  (go.foldl (fun acc e => insertTicket (e.2.key e.1, e.2) acc) []).map (·.2)

/-- One partition's beat ends. -/
def beatPart (r : Run) (p : Nat) : Run :=
  let batch := r.batchOf p
  r.onPart p (fun q =>
    { q with
      beat := q.beat + 1
      itin := q.itin + batch.length
      tickets := q.tickets.map (fun t => match batch.idxOf? t with
        | some i => { t with merged := some (q.itin + i), batch := q.beat }
        | none => t) })

/-- The tickets of waves that are out are ended when their time has come (R414, R424); their waves find it at the restore. -/
def expireSaved (y : Sys) (r : Run) (p : Nat) : Run :=
  let held (k : Ticket) : Bool := r.waves.any (fun e => (e.2.slot0.toList ++ e.2.slot1.toList).any (fun t => t.is k))
  sendDue y (r.onPart p (fun q => { q with tickets := q.tickets.filter (fun k => !(k.beat + 65536 ≤ q.beat && !held k)) })) p

/-- BEAT_END: the sequencers of every partition share the counter. -/
def execBeatEnd (s : State) : Host.Outcome State Fault Refusal :=
  event s (fun y r => (List.range 4).foldl (fun r p => expireSaved y (beatPart r p) p) r)

/-- GRANT_REQUEST_ARRIVAL. -/
def execGrantRequestArrival (s : State) : Host.Outcome State Fault Refusal :=
  event s (fun y r => (List.range 4).foldl (sendDue y) r)

/-- A ticket that the hardware has ended stays in its slot until it is reported: an active one by a late trap, the others by their
TXWAIT (R414). -/
def Wave.timedOut (w : Wave) (one : Bool) (t : TickRef) : Wave :=
  let w := w.setSlot one (some { t with dead := true })
  if w.active = some one then
    { w with late := w.late ++ [{ cls := 10, sub := 2, mask := w.live, origin := t.pc, cw := ticketValue (if one then 1 else 0) t, lanes := [] }] }
  else w

/-- TICKET_TIMEOUT (R414): 65,536 beats after its acceptance a ticket is ended. -/
def ticketExpire (y : Sys) (r : Run) (wid : Nat) (one : Bool) : Run :=
  let w := r.wave wid
  match w.slot one with
  | none => r
  | some t =>
    match r.ticketOf wid t with
    | none => r
    | some k =>
      if (r.part (r.partOf wid)).beat < k.beat + 65536 then r else
      (endTicket y r wid t).onWave wid (fun w => w.timedOut one t)

def execTicketTimeout (w slot : Nat) (s : State) : Host.Outcome State Fault Refusal :=
  event s (fun y r => ticketExpire y r w (slot = 1))

/-! ## The commit token (R417 to R419) -/

/-- CTACQ is a switch point that never passes the token. -/
def ctacqEff (_ : Sys) (r : Run) (c : Iss) : Eff Unit :=
  let w := r.wave c.wid
  if !r.det w then .ok r ()
  else
    let first := !w.resumes c.m
    takeToken r c [] (fun r => .ok (if first then r.switchPoint c.wid false else r) ())

def execCtacq (h : Hd) (s : State) : Host.Outcome State Fault Refusal :=
  issue s h { whole := some 1 } ctacqEff

/-- CTREL. -/
def execCtrel (h : Hd) (s : State) : Host.Outcome State Fault Refusal :=
  issue s h { whole := some 1, closer := true } (fun _ r c => .ok (if r.det (r.wave c.wid) then r.passToken c.wid else r) ())

end Sys2Proof.Machine
end

