-- ==== Sys2Proof/Machine/Power.lean ====
section
/-! DEFINITION. Stack pairs and current (R431 to R449): windows and the estimate, throttle, clamp and the PWR trap,
automatic burn, and BALBURN, BALSHUNT, PWRWAIT and PAIR. -/

namespace Sys2Proof.Machine

/-! ## Windows -/

/-- A core's burn level in a cycle (R433). -/
def Core.burnAt (k : Core) (t : Nat) : Nat :=
  min 6 (k.burns.foldl (fun n b => if b.1 ≤ t && t < b.2.1 then max n b.2.2 else n) k.autoLevel)

/-- The estimate without burn, I' (R433): of the native steps those that the engine has run in the window. -/
def Core.base (k : Core) : Nat := 380 + (700 * k.nv + 400 * k.nm + 1500 * k.nxRan) / 256

/-- The estimate I over the window of 256 cycles that begins at `t0` (R433). -/
def Core.estimate (k : Core) (t0 : Nat) : Nat :=
  k.base + 250 * ((List.range 256).foldl (fun n i => n + k.burnAt (t0 + i)) 0) / 256

/-! ## Waves that are being saved -/

/-- Nothing of a wave is under way beyond the device (R261, R289). -/
def Wave.settled (w : Wave) : Bool := w.remote = [] && w.pend.all (fun p => p.far = [])

/-- Whether a batch keeps the save waiting (R347): writes that are out, and under step 2 a batch that has been started and has neither
completed nor failed nor paused. -/
def Batch.underway (x : Batch) (step : Nat) : Bool :=
  x.demands.any (fun d => d.out ≠ []) ||
  (step < 3 && match x.st with | .evaluated => true | .faulted _ => true | .closed => x.started | _ => false)

/-- Whether on some cores every wave and stream of a context is stopped and what they await has come; a copy waits for its boundary
(R277). -/
def Run.quietOn (r : Run) (cid : Nat) (here : Nat → Bool) : Bool :=
  r.waves.all (fun e => !here (coreOf e.1) || (r.block e.2.blk).ctx ≠ cid || (e.2.life ≠ .live && e.2.settled)) &&
  r.cores.all (fun k => !here k.1 || k.2.channels.all (fun q => q.2.all (fun op => (r.block op.blk).ctx ≠ cid || op.rests))) &&
  r.blocks.all (fun b => !here (b.1 / 4) || b.2.ctx ≠ cid || (b.2.batches ++ b.2.spill.toList).all (fun x => !x.underway (r.ctx cid).step))

/-- Whether a wave is parked in BAR, BARW or NBARW. -/
def Wave.atBarrier (w : Wave) : Bool :=
  w.parts ≠ [] && w.parts.all (fun p => match p.park with
    | .bar _ _ _ _ => true
    | .retry (.barw _ _) => true
    | .retry (.nbarw _ _) => true
    | _ => false)

/-- Whether automatic burn may act on a core (R439). -/
def Run.mayBurn (r : Run) (c : Nat) : Bool :=
  let bs := r.blocksOn c
  if bs ≠ [] then bs.all (fun b => (r.wavesOf b.1).all (fun e => e.2.atBarrier))
  else (r.blocksOn (mateOf c)).any (fun b => !(r.launch b.2.launch).info.nofill)

/-- Whether a halt or a save of some context has ended on a core and not on its mate (R442). -/
def Run.savedFirst (r : Run) (c : Nat) : Bool :=
  (r.blocksOn c).any (fun b =>
    let x := r.ctx b.2.ctx
    2 ≤ x.step && !x.done && r.quietOn b.2.ctx (fun d => d = c) && !r.quietOn b.2.ctx (fun d => d = mateOf c))

/-- The level for the next window (R439, R442): AUTO_BURN. -/
def Run.burnLevel (r : Run) (c mateI selfBase : Nat) : Nat :=
  let k := r.core c
  if r.savedFirst c || k.balctl.getLsbD 0 && r.mayBurn c then
    (max 0 (min (bits k.balctl 1 3 : Int) (((mateI : Int) - selfBase + 125) / 250))).toNat
  else 0

/-- The actions of a window end on one core (R436). -/
def Core.act (k : Core) (heavier : Bool) (m th tx level t1 : Nat) (est : Nat) : Core :=
  let clamp := heavier && 1000 ≤ m
  let throt := heavier && th < m
  let b := setBits (setBits k.balctl 8 1 (if throt || clamp then 1 else 0)) 10 1 (if clamp then 1 else 0)
  { k with
    balctl := if throt || clamp then setBits b 9 1 1 else b
    pwrCond := heavier && (tx < m || 1000 ≤ m)
    autoLevel := level
    nv := 0, nm := 0, nxRan := 0, est := est
    burns := k.burns.filter (fun b => t1 < b.2.1) }

/-! ## PWRWAIT's ends -/

/-- The part of a wave that waits in PWRWAIT: its bound, deadline and D. -/
def Wave.inPwrwait (w : Wave) : Option (Nat × Option Nat × BitVec 7) :=
  w.parts.findSome? (fun (p : Part) => match p.park with | .pwrwait b t d => some (b, t, d) | _ => none)

/-- The lowest status that holds (R446); the bound is looked at where a window ends. -/
def Run.pwrStatus (r : Run) (wid : Nat) (atWindow : Bool) (bound : Nat) (deadline : Option Nat) : Nat :=
  if atWindow && (r.pairMis (coreOf wid)).natAbs < bound then 1
  else if deadline.any (fun t => t ≤ r.clk) then 2
  else if r.eventFor wid then 3 else 0

/-- PWRWAIT returns where a status holds; a wave that has stopped stays parked (R495). -/
def pwrwaitCheck (atWindow : Bool) (r : Run) (wid : Nat) : Run :=
  match (if (r.wave wid).life = .live then (r.wave wid).inPwrwait else none) with
  | none => r
  | some (bound, t, d) =>
    match r.pwrStatus wid atWindow bound t with
    | 0 => r
    | st => r.onWave wid (fun w => (w.setS d.toNat (BitVec.ofNat 64 st)).finishParks
        (fun k => match k with | .pwrwait _ _ _ => true | _ => false) false)

/-- What a window end on its core means for a wave: a PWR trap that a clamp has held back from a part that would have issued is owed, and
a mismatch within TX lets the wave be trapped anew (R437). -/
def Wave.pwrWindow (w : Wave) (k : Core) (within : Bool) : Wave :=
  { w with pwrOwed := w.pwrOwed || (k.clamped && k.pwrCond && !w.pwrTaken && w.parts.any (fun p => p.park == .run)), pwrTaken := w.pwrTaken && !within }

/-- A window end for a pair's own state: the mismatch, the midpoint voltage on its way to the target (R431), and whether the shunt current
lies more than 300 mA from the mismatch (R448). -/
def Pair.window (q : Pair) (n win : Nat) (mis : Int) : Pair :=
  let d := Config.slew n win % 3
  let off : Int := (Config.shunt n win : Int) - mis.natAbs
  { q with
    mis := mis, win := win
    vmid := if q.vmid < q.target then min q.target (q.vmid + d) else max q.target (q.vmid - d)
    suspect := if 300 < off.natAbs then q.suspect + 1 else 0 }

/-- WINDOW_END of a pair. -/
def windowEnd (r : Run) (p : Nat) : Run :=
  let lo := pairLo p
  let hi := pairHi p
  let t1 := r.clk / 256 * 256
  let run (r : Run) (c : Nat) : Run := r.onCore c (fun k => k.runTo (r.die (dieOf c)).issueDuty t1)
  let r := run (run r lo) hi
  let a := (r.core lo).estimate (t1 - 256)
  let b := (r.core hi).estimate (t1 - 256)
  let mis : Int := (a : Int) - b
  let m := mis.natAbs
  let q := r.pair p
  let old := r
  let la := r.burnLevel lo b (r.core lo).base
  let lb := r.burnLevel hi a (r.core hi).base
  let r := r.onCore lo (fun k => k.act (0 < mis) m q.th q.tx la t1 a)
  let r := r.onCore hi (fun k => k.act (mis < 0) m q.th q.tx lb t1 b)
  let r := r.onPair p (fun q => q.window p (r.clk / 256) mis)
  let here (n : Nat) : Bool := coreOf n = lo || coreOf n = hi
  let r := { r with waves := r.waves.mapAll (fun n w => if here n then w.pwrWindow (old.core (coreOf n)) (m ≤ q.tx) else w) }
  ((r.waves.map (·.1)).filter here).foldl (pwrwaitCheck true) r

def execWindowEnd (pair : Nat) (s : State) : Host.Outcome State Fault Refusal := event s (fun _ r => windowEnd r pair)

/-- PWRWAIT_TIMEOUT, and the events that end a PWRWAIT between windows. -/
def execPwrwaitTimeout (w : Nat) (s : State) : Host.Outcome State Fault Refusal := event s (fun _ r => pwrwaitCheck false r w)

/-! ## The PWR trap (R437) -/

/-- The group of a wave that is at its issue boundary: the one about to issue, else the one of its next part. -/
def Run.boundary (r : Run) (wid : Nat) : Option (Lanes × Word64) :=
  let w := r.wave wid
  match (if r.cur.wave = wid then w.partAt r.cur.lanes else none) with
  | some p => some (r.cur.lanes, p.pc)
  | none => w.nextPart.bind (fun p => if p.park == .run then some (w.groupOf p, p.pc) else none)

/-- A trap taken at the boundary before the next instruction. -/
def boundaryTrap (y : Sys) (r : Run) (wid : Nat) (f : Lanes → Trap) : Run :=
  match r.boundary wid with
  | some (m, pc) => takeTrap r wid m pc (r.peek y wid pc) (f m)
  | none => r

/-- PWR OVER: once until some window ends with M ≤ TX, in supervisor state too (log entry 6). -/
def pwrTrap (y : Sys) (r : Run) (wid : Nat) : Run :=
  let core := coreOf wid
  if r.pwrDue wid && (r.boundary wid).isSome then
    (boundaryTrap y r wid (fun m => { cls := 11, sub := 1, mask := m, cw := BitVec.ofInt 64 (r.pairMis core) })).onWave wid
      (fun w => { w with pwrTaken := true, pwrOwed := false })
  else r

def execPwrTrap (w : Nat) (s : State) : Host.Outcome State Fault Refusal := event s (fun y r => pwrTrap y r w)

/-! ## BALBURN (R444) -/

def countArg (r : Run) (c : Iss) (o : Opd) : Nat := r.rdCount c o

def balburnEff (o : Ops) (_ : Sys) (r : Run) (c : Iss) : Eff Unit :=
  let n := countArg r c o.a
  let l := countArg r c o.b
  if l = 0 ∨ 6 < l then .trap r (countTrap c.act l)
  else if n = 0 then .ok r ()
  else .park (r.onCore (coreOf c.wid) (fun k => { k with burns := k.burns ++ [(r.clk, r.clk + n, l)] })) (.burn (r.clk + n) l)

def execBalburn (h : Hd) (o : Ops) (s : State) : Host.Outcome State Fault Refusal :=
  issue s h { uses := usesOf h o } (balburnEff o)


/-- The burns of a wave end at once, and it resumes behind them (R444). -/
def endBurns (r : Run) (wid : Nat) : Run :=
  (r.wave wid).parts.foldl (fun r p => match p.park with
    | .burn t l => (cutBurn r wid t l).onWave wid (fun w => w.advance p.mask)
    | _ => r) r

/-- BURN_END: the n cycles are over. -/
def execBurnEnd (w lane : Nat) (s : State) : Host.Outcome State Fault Refusal :=
  event s (fun _ r => match (r.wave w).partAt (laneBit lane) with
    | some p => (match p.park with
      | .burn t _ => if t ≤ r.clk then r.onWave w (fun x => x.advance (x.groupOf p)) else r
      | _ => r)
    | none => r)

/-! ## BALSHUNT (R445) -/

def balshuntEff (o : Ops) (_ : Sys) (r : Run) (c : Iss) : Eff Unit :=
  let v := min 800 (max 700 (countArg r c o.a))
  let core := coreOf c.wid
  let q := r.pair (pairOf core)
  let put (r : Run) (x : Nat) : Run := r.onWave c.wid (fun w => w.setS (scalarNum o.d).toNat (BitVec.ofNat 64 x))
  if q.derated then .ok (put r 0) ()
  else .ok (put (r.onPair (pairOf core) (fun p => { p with target := if core % 2 = 0 then v else 1500 - v })) v) ()

def execBalshunt (h : Hd) (o : Ops) (s : State) : Host.Outcome State Fault Refusal :=
  issue s h { uses := usesOf h o } (balshuntEff o)

/-! ## PWRWAIT (R446) -/

def pwrwaitEff (o : Ops) (_ : Sys) (r : Run) (c : Iss) : Eff Unit :=
  let bound := countArg r c o.a
  let t := countArg r c o.b
  let d := scalarNum o.d
  if (r.pairMis (coreOf c.wid)).natAbs < bound then .ok (r.onWave c.wid (fun w => w.setS d.toNat 1)) ()
  else .park r (.pwrwait bound (if t = 0 then none else some (r.clk + t)) d)

def execPwrwait (h : Hd) (o : Ops) (s : State) : Host.Outcome State Fault Refusal :=
  issue s h { uses := usesOf h o, whole := some 1, switch := true } (pwrwaitEff o)

/-! ## PAIR (R447) -/

def pairWord (x : Word) : Word64 := BitVec.ofNat 64 (2 ^ 32 + x.toNat)

def pairEff (o : Ops) (_ : Sys) (r : Run) (c : Iss) : Eff Unit :=
  let d := scalarNum o.d
  let x : Word := (r.rdScalar c.wid o.a 0 c.act.lowest).setWidth 32
  match r.partner c.wid with
  | none => .ok (r.onWave c.wid (fun w => w.setS d.toNat 0)) ()
  | some p =>
    match (if (r.wave p).life = .live then (r.wave p).inPair else none) with
    | none => .park (r.onWave c.wid (fun w => w.markEmpty [⟨false, d.toNat, 0xFFFFFFFF#32⟩])) (.pair x d)
    | some (_, z, _) => .ok ((r.onWave p (fun w => w.pairEnd (pairWord x))).onWave c.wid (fun w => w.setS d.toNat (pairWord z))) ()

def execPair (h : Hd) (o : Ops) (s : State) : Host.Outcome State Fault Refusal :=
  issue s h { uses := usesOf h o, closer := true } (ordered true false (pairEff o))

/-! ## Derating (R448, R449) -/

/-- Every pair without a resident block that is derated is mapped out (R449, R544). -/
def mapOutPair (r : Run) (p : Nat) : Run :=
  if (r.pair p).derated && (r.blocksOn (pairLo p)).isEmpty && (r.blocksOn (pairHi p)).isEmpty && !r.outPairs.contains p then
    (({ r with outPairs := r.outPairs ++ [p] } : Run).event 7 0xFF p p).service 1 p 1
  else r

/-- A cluster whose unit has failed is mapped out whole once none of its cores holds a block (R544). -/
def mapOutCluster (r : Run) (cl : Nat) : Run :=
  let c0 := coreAt (cl / 40) (cl % 8 * 2) (cl % 40 / 8 * 4)
  let cs := clusterCores c0
  let ps := (cs.map pairOf).dedup.filter (fun p => !r.outPairs.contains p)
  if r.sick.contains cl && cs.all (fun c => (r.blocksOn c).isEmpty) && ps ≠ [] then
    ({ r with outPairs := r.outPairs ++ ps } : Run).service 2 cl 2
  else r

/-- Whether the rail monitor has seen 4,096 consecutive windows of unexplained current (R448). -/
def Pair.bad (q : Pair) : Bool := !q.derated && 4096 ≤ q.suspect

/-- PAIR_DERATE (R449): of a pair that is suspect. -/
def pairDerate (r : Run) (p : Nat) : Run :=
  if !(r.pair p).bad then r else
  let mark (k : Core) : Core := { k with balctl := setBits k.balctl 11 1 1 }
  let r := (r.onCore (pairLo p) mark).onCore (pairHi p) mark
  mapOutPair (r.onPair p (fun q => { q with derated := true, th := max 100 (q.th / 2), tx := max 100 (q.tx / 2) })) p

def execPairDerate (pair : Nat) (s : State) : Host.Outcome State Fault Refusal := event s (fun _ r => pairDerate r pair)

end Sys2Proof.Machine
end

