-- ==== Sys2Proof/Machine/Task.lean ====
section
/-! DEFINITION. ROLESW and PHASE (R468 to R471), the deque (R472 to R475), continuations and gatherer bins (R476 to
R483). -/

namespace Sys2Proof.Machine

def taskTrap (act : Lanes) (sub n : Nat) : Trap := { cls := 12, sub := sub, mask := act, cw := BitVec.ofNat 64 n }

/-! ## ROLESW and PHASE -/

/-- Whether a wave holds what ROLESW refuses (R469, R470): acquired registers too that leave it at or below its placed count (log entry
104). -/
def Run.roleHeld (r : Run) (wid : Nat) : Bool :=
  let w := r.wave wid
  w.placed < w.valloc || w.acquired ≠ 0 || w.txOpen ≠ 0 ||
  (List.range 16).any (fun c => (r.accTok (coreOf wid) c).holder == .wave wid)

/-- Whether ROLESW's drain is over: registers full, writes performed and acknowledged, copies out of their channels. -/
def Run.drained (r : Run) (wid : Nat) : Bool :=
  let w := r.wave wid
  w.vEmpty.isEmpty && w.sEmpty = 0 && !w.unperformed && w.acks = 0 &&
  (r.core (coreOf wid)).channels.all (fun q => q.2.all (fun op => op.wave ≠ wid))

def roleswEff (o : Ops) (_ : Sys) (r : Run) (c : Iss) : Eff Unit :=
  let w := r.wave c.wid
  let n := r.rdCount c o.a
  let roles := (r.launchOf w).info.roles
  match roles[n]? with
  | none => .trap r (taskTrap c.act 1 n)
  | some role =>
    if w.placed < role.regs then .trap r (taskTrap c.act 2 n)
    else if r.roleHeld c.wid then .trap r (taskTrap c.act 3 n)
    else if !r.drained c.wid then .park r (.retry .drain)
    else
      let pc := r.codeBase w + BitVec.ofNat 64 role.entry
      .ok (r.onWave c.wid (fun w =>
        ({ w with mon := none, valloc := role.regs, stage := n }.jump c.m pc).regionEntry c.m)) ()

def execRolesw (h : Hd) (o : Ops) (s : State) : Host.Outcome State Fault Refusal :=
  issue s h { uses := usesOf h o, whole := some 1, branch := true } (roleswEff o)

def phaseEff (o : Ops) (_ : Sys) (r : Run) (c : Iss) : Eff Unit :=
  let w := r.wave c.wid
  let n := (r.rdScalar c.wid o.a 0 c.act.lowest).toNat
  match (r.launchOf w).info.variants.findIdx? (fun v => n ≤ v.1) with
  | none => .trap r (taskTrap c.act 4 n)
  | some k =>
    let entry := (((r.launchOf w).info.variants[k]?).map (·.2)).getD 0
    .ok (r.onWave c.wid (fun w => { w with sched := k }.jump c.m (r.codeBase w + BitVec.ofNat 64 entry))) ()

def execPhase (h : Hd) (o : Ops) (s : State) : Host.Outcome State Fault Refusal :=
  issue s h { uses := usesOf h o, whole := some 1, branch := true } (phaseEff o)

/-! ## The deque: its first entry is the top -/

/-- Remove the last entry that satisfies a test. -/
def takeLast (f : Nat × Word64 → Bool) (q : List (Nat × Word64)) : Option (Word64 × List (Nat × Word64)) :=
  match q.reverse.findIdx? f with
  | none => none
  | some i =>
    let j := q.length - 1 - i
    (q[j]?).map (fun e => (e.2, q.eraseIdx j))

/-- Remove the first entry that satisfies a test. -/
def takeFirst (f : Nat × Word64 → Bool) (q : List (Nat × Word64)) : Option (Word64 × List (Nat × Word64)) :=
  match q.findIdx? f with
  | none => none
  | some j => (q[j]?).map (fun e => (e.2, q.eraseIdx j))

def dqpushEff (o : Ops) (_ : Sys) (r : Run) (c : Iss) : Eff Unit :=
  let core := coreOf c.wid
  let l := (r.blockOf (r.wave c.wid)).launch
  if 256 ≤ (r.core core).deque.length then .ok (r.putBool c o.d false) ()
  else .ok ((r.onCore core (fun k => { k with deque := k.deque ++ [(l, r.rdScalar c.wid o.a 0 c.act.lowest)] })).putBool c o.d true) ()

def execDqpush (h : Hd) (o : Ops) (s : State) : Host.Outcome State Fault Refusal :=
  issue s h { uses := usesOf h o, closer := true } (ordered true false (dqpushEff o))

def dqpopEff (o : Ops) (_ : Sys) (r : Run) (c : Iss) : Eff Unit :=
  let core := coreOf c.wid
  let l := (r.blockOf (r.wave c.wid)).launch
  match takeLast (fun e => e.1 = l) (r.core core).deque with
  | none => .ok (r.putBool c o.c false) ()
  | some (x, q) =>
    let r := r.onCore core (fun k => { k with deque := q })
    .ok ((r.onWave c.wid (fun w => w.setS (scalarNum o.d).toNat x)).putBool c o.c true) ()

def execDqpop (h : Hd) (o : Ops) (s : State) : Host.Outcome State Fault Refusal :=
  issue s h { uses := [⟨0, o.d, 1, true, false, none⟩], closer := true } (dqpopEff o)

def predNum (o : Opd) : BitVec 4 := match o with | .p n => n | _ => 15

def dqstealEff (o : Ops) (y : Sys) (r : Run) (c : Iss) : Eff Unit :=
  let v := (r.rdScalar c.wid o.a 0 c.act.lowest).toNat
  if 1280 ≤ v ∨ y.partOf (dieOf v) ≠ r.partOf c.wid then .ok (r.putBool c o.c false) ()
  else .park r (.steal v (scalarNum o.d) (predNum o.c) c.act)

def execDqsteal (h : Hd) (o : Ops) (s : State) : Host.Outcome State Fault Refusal :=
  issue s h { uses := [⟨0, o.d, 1, true, false, none⟩, ⟨1, o.a, 1, false, h.fea, none⟩], closer := true } (dqstealEff o)

/-- The part of a wave that waits for a steal from a core. -/
def Wave.inSteal (w : Wave) (core : Nat) : Option (Part × BitVec 7 × BitVec 4 × Lanes) :=
  w.parts.findSome? (fun (p : Part) => match p.park with | .steal v d c act => if v = core then some (p, d, c, act) else none | _ => none)

/-- DEQUE_STEAL_REQUEST: a request reaches the victim's deque unit and is answered; that of a wave that has been stopped is withdrawn (R495). -/
def stealAnswer (r : Run) (core launch thief : Nat) : Run :=
  match (if (r.wave thief).life = .live then (r.wave thief).inSteal core else none) with
  | none => r
  | some (p, d, c, act) =>
    let fin (w : Wave) (x : Bool) : Wave := (w.setP c.toNat act (fun _ => x)).complete (w.groupOf p) true
    match takeFirst (fun e => e.1 = launch) (r.core core).deque with
    | none => r.onWave thief (fun w => fin w false)
    | some (x, q) => (r.onCore core (fun k => { k with deque := q })).onWave thief (fun w => fin (w.setS d.toNat x) true)

def execDequeStealRequest (core launch thief : Nat) (s : State) : Host.Outcome State Fault Refusal :=
  event s (fun _ r => stealAnswer r core launch thief)

/-! ## CONT -/

/-- Room for records of a key: in its bins and in free ones. -/
def Core.binRoom (k : Core) (blk role entry : Nat) : Nat :=
  let mine := k.bins.filter (fun e => e.2.blk = blk && e.2.role = role && e.2.entry = entry)
  mine.foldl (fun n e => n + (32 - e.2.recs.length)) 0 + 32 * (8 - k.bins.length)

/-- Append one record to its key's bin, or to a free one. -/
def Core.binPut (k : Core) (blk role entry now : Nat) (x : ContRec) : Core :=
  match k.bins.find? (fun e => e.2.blk = blk && e.2.role = role && e.2.entry = entry && e.2.recs.length < 32) with
  | some (i, b) => { k with bins := k.bins.put i { b with recs := b.recs ++ [x] } }
  | none => { k with bins := k.bins.put (Tbl.free k.bins 0) { blk := blk, role := role, entry := entry, recs := [x], since := now } }

/-- The lanes the quota accepts, in ascending order (R479). -/
def quotaLanes (act : Lanes) (q : Nat) : Lanes := Lanes.ofTest (fun l => (act.toList.take q).contains l)

/-- The lanes accepted when a parked CONT was issued. -/
def Wave.contKept (w : Wave) (m : Lanes) : Option Lanes :=
  match (w.partAt m).map (fun p : Part => p.park) with
  | some (.contBin acc) => some acc
  | _ => none

/-- Emit the records of the accepted lanes, or park for a bin. -/
def contEmit (role entry obj : Nat) (o : Ops) (y : Sys) (r : Run) (c : Iss) : Eff Unit :=
  let w := r.wave c.wid
  let core := coreOf c.wid
  let cid := r.cidOf c.wid
  let (acc, r) : Lanes × Run := match w.contKept c.m with
    | some a => (a, r)
    | none =>
      let a := quotaLanes c.act (r.ctx cid).quota
      let r := r.onCtx cid (fun x => { x with quota := x.quota - a.count })
      (a, if a = c.act then r else objectUpdate y r c.wid cid obj true)
  if (r.core core).binRoom w.blk role entry < acc.count then .park r (.contBin acc)
  else
    let recs := acc.toList.map (fun l => (⟨(List.range 16).map (fun i => r.rdLane c.wid o.a i l), obj⟩ : ContRec))
    let r := r.onCore core (fun k => recs.foldl (fun k x => k.binPut w.blk role entry r.clk x) k)
    .ok (r.onWave c.wid (fun w => w.setP (predNum o.d).toNat c.act (fun l => acc.getLsbD l))) ()

def contEff (role : Nat) (o : Ops) (y : Sys) (r : Run) (c : Iss) : Eff Unit :=
  let w := r.wave c.wid
  let l := (r.launchOf w).info
  let tgt := branchTarget c.pc o.x
  let entry := (tgt - r.codeBase w).toNat
  let obj := (r.rdScalar c.wid o.b 0 c.act.lowest).toNat
  if l.roles.length ≤ role then .trap r (taskTrap c.act 1 role)
  else if l.size ≤ entry then .trap r (memTrap 2 (c.act.toList.map (fun l => (l, tgt.toNat))))
  else if obj % 8 ≠ 0 then .trap r (memTrap 0x10 (c.act.toList.map (fun l => (l, obj))))
  else ordered true false (contEmit role entry obj o) y r c

def execCont (h : Hd) (role : BitVec 2) (o : Ops) (s : State) : Host.Outcome State Fault Refusal :=
  issue s h { uses := [⟨1, o.a, 16, false, h.fea, none⟩, ⟨2, o.b, 1, false, h.feb, none⟩], closer := true } (contEff role.toNat o)

/-! ## CONTW (R483) -/

/-- The object of another device holds a value this model does not see. -/
def contwEff (o : Ops) (y : Sys) (r : Run) (c : Iss) : Eff Unit :=
  let obj := (r.rdScalar c.wid o.a 0 c.act.lowest).toNat
  let n := (r.rdScalar c.wid o.b 0 c.act.lowest).toNat
  let put (r : Run) (x : Word64) : Run := r.onWave c.wid (fun w => w.setS (scalarNum o.d).toNat x)
  let lanes := c.act.toList.map (fun l => (l, obj))
  if obj = 0 then .ok (put r 0) ()
  else if obj % 8 ≠ 0 then .trap r (memTrap 0x10 lanes)
  else if 2 ^ 52 ≤ obj then .trap r (memTrap 0x11 lanes)
  else
    (preTranslate y r (coreOf c.wid) (slotOf c.wid) (r.cidOf c.wid) { priv := (r.wave c.wid).priv } true c.pc lanes).bind fun r ts =>
    let pa := (ts.head?.map (·.2.pa)).getD 0
    if isAper pa then
      let (x, r) := r.free
      .ok (put r (x &&& 1)) ()
    else
      let refused := memRead r.mem (pa + 4) 4 % 2
      if n ≤ memRead r.mem pa 4 ∨ refused = 1 then .ok (put (r.readRecent c.wid (some .dev) none pa 8) (BitVec.ofNat 64 refused)) ()
      else .park r (.retry (.done pa n))

def execContw (h : Hd) (o : Ops) (s : State) : Host.Outcome State Fault Refusal :=
  issue s h { uses := usesOf h o, switch := true } (ordered false false (contwEff o))

/-! ## Bins (R480 to R482) -/

/-- Every live wave of a block is parked. -/
def Run.allParked (r : Run) (b : Nat) (f : Park → Bool) : Bool :=
  (r.wavesOf b).all (fun e => e.2.parts.all (fun p => f p.park))

/-- Whether a bin is to be formed. -/
def Run.binReady (r : Run) (b : Bin) : Bool :=
  b.recs ≠ [] && (32 ≤ b.recs.length || b.due || r.allParked b.blk (fun k => k ≠ .run))

/-- A wave slot of a core that is free. -/
def Run.freeSlot (r : Run) (core : Nat) : Option Nat :=
  (List.range 24).find? (fun i => (r.waves.get? (core * 24 + i)).isNone)

def Bin.role' (b : Bin) (r : Run) : Role := ((r.launch (r.block b.blk).launch).info.roles[b.role]?).getD ⟨0, 0, 0⟩

/-- Slice parts for a set of lanes at a PC, whose region begins there. -/
def startParts (m : Lanes) (pc : Word64) : List Part :=
  (List.range 8).filterMap (fun i =>
    let x := m &&& sliceMask i
    if x = 0 then none else some { uid := i, slice := i, frag := none, mask := x, pc := pc, rpc := pc })

/-- The continuation wave of a bin (R480). -/
def Bin.wave (b : Bin) (r : Run) : Wave :=
  let m := Lanes.ofTest (fun l => l < b.recs.length)
  let regs := (b.role' r).regs
  let base := (r.launch (r.block b.blk).launch).info.base
  let w : Wave := { blk := b.blk, index := (r.block b.blk).nextWave, stage := b.role, placed := regs, valloc := regs
                    parts := startParts m (base + BitVec.ofNat 64 b.entry), contWave := true
                    utrap := (r.ctx (r.block b.blk).ctx).utrapbase &&& 0xFFFFF000#64
                    objs := (List.range b.recs.length).map (fun i => (i, ((b.recs[i]?).map (·.obj)).getD 0)) }
  (List.range 16).foldl (fun w i => if i < regs then
    w.setV i m (fun l => (((b.recs[l]?).map (·.vals)).getD []).getD i 0) else w) w

/-- Put a bin's request for registers on the pool's queue: from then on it is to be formed. -/
def binAsk (y : Sys) (r : Run) (core i : Nat) (b : Bin) : Run :=
  if b.asked then r else
  let r := r.onCore core (fun k => { k with bins := k.bins.put i { b with asked := true, due := true } })
  let n := (b.role' r).regs
  poolRun y (r.onBlock b.blk (fun z => { z with poolQueue := z.poolQueue ++ [⟨none, 0, i, n⟩] })) b.blk

/-- BIN_REFUSE (R482). -/
def binRefuse (y : Sys) (r : Run) (core i : Nat) (b : Bin) : Run :=
  let cid := (r.block b.blk).ctx
  let wid := (((r.wavesOf b.blk).head?).map (·.1)).getD (streamId b.blk)
  let r := b.recs.foldl (fun r x => objectUpdate y r wid cid x.obj true) r
  let r := r.onCtx cid (fun c => { c with quota := c.quota + b.recs.length })
  let r := r.onCore core (fun k => { k with bins := k.bins.del i })
  let back := if b.got then (b.role' r).regs else 0
  poolRun y (r.onBlock b.blk (fun z => { z with
    poolFree := z.poolFree + back, poolQueue := z.poolQueue.filter (fun q => !(q.wave.isNone && q.bin = i)) })) b.blk

/-- Whether a wave is gone, or waits in switch points alone (R94). -/
def Run.atSwitch (r : Run) (wid : Nat) : Bool :=
  (r.wave wid).life ≠ .live || (r.wave wid).parts.all (fun p => match p.park with
    | .bar _ _ _ _ | .racq _ | .mwait _ _ | .pwrwait _ _ _ => true
    | .retry k => (match k with | .barw _ _ | .nbarw _ _ | .object _ _ _ | .ticket _ _ | .done _ _ => true | _ => false)
    | _ => false)

/-- The wave of a bin starts. In a DET block it becomes current where the current wave has ended, or waits in a switch point that found no
other wave ready (log entry 4). -/
def binStart (r : Run) (core i slot : Nat) (b : Bin) : Run :=
  let wid := core * 24 + slot
  let w := b.wave r
  let cur := (r.block b.blk).cur
  let free := cur / 24 ≠ core || (r.wave cur).blk ≠ b.blk || r.atSwitch cur
  let r := (r.setWave wid w).onBlock b.blk (fun z => { z with nextWave := z.nextWave + 1, cur := if free then wid else z.cur })
  r.onCore core (fun k => { k with bins := k.bins.del i })

/-- BIN_FORM. -/
def binForm (y : Sys) (r : Run) (core i : Nat) : Run :=
  match (r.core core).bins.get? i with
  | none => r
  | some b =>
    if !r.binReady b then r else
    let r := binAsk y r core i b
    match (r.core core).bins.get? i with
    | none => r
    | some b =>
      match b.got, r.freeSlot core with
      | true, some slot => binStart r core i slot b
      | _, _ =>
        if r.allParked b.blk (fun k => match k with | .contBin _ => true | .retry (.done _ _) => true | _ => false) then
          binRefuse y r core i b
        else r

def execBinForm (core bin : Nat) (s : State) : Host.Outcome State Fault Refusal := event s (fun y r => binForm y r core bin)

/-- BIN_AGE_EXPIRY. -/
def execBinAgeExpiry (core bin : Nat) (s : State) : Host.Outcome State Fault Refusal :=
  event s (fun _ r => r.onCore core (fun k => { k with bins := k.bins.upd bin (fun b =>
    if b.recs ≠ [] && b.since + 4096 ≤ r.clk then { b with due := true } else b) }))

end Sys2Proof.Machine
end

