-- ==== Sys2Proof/Machine/Coll.lean ====
section
/-! DEFINITION. Collectives (R509 to R520): CLST, CLWT and CLQ, how every member ends, and the re-forming of a group. -/

namespace Sys2Proof.Machine

/-! ## The descriptor (R510) -/

/-- A descriptor as read. -/
structure Desc where
  op : Nat
  red : Nat
  ty : ElemTy
  group : Nat
  gen : Nat
  send : Nat
  recv : Nat
  count : Nat
  root : Nat
  deriving DecidableEq, Repr

/-- Bytes of a whole-byte element. -/
def elemBytes (t : ElemTy) : Nat := ElemTy.width t / 8

/-- Types an operation accepts. -/
def collType (op : Nat) (t : ElemTy) : Bool :=
  if op < 2 then t = .fp32 || t = .fp16 || t = .bf16 || t = .int32 || t = .uint32 else t ≠ .pb4

/-- SEND bytes and RECV bytes of the member of rank `rank` among `n`. -/
def Desc.sizes (d : Desc) (n rank : Nat) : Nat × Nat :=
  let b := d.count * elemBytes d.ty
  match d.op with
  | 0 => (b, b)
  | 1 => (n * b, b)
  | 2 => (b, n * b)
  | 3 => (n * b, n * b)
  | _ => (if rank = d.root then b else 0, b)

/-- The fields of 64 bytes that R510 allows; none for any other. -/
def readDescriptor (bs : List Byte) : Option Desc :=
  let f (lo n : Nat) : Nat := ofLe ((bs.drop lo).take n)
  match ElemTy.ofCode (BitVec.ofNat 4 (f 2 1)) with
  | none => none
  | some t =>
    if 4 < f 0 1 ∨ 2 < f 1 1 ∨ (2 ≤ f 0 1 ∧ f 1 1 ≠ 0) ∨ 15 < f 2 1 ∨ !collType (f 0 1) t ∨ f 3 1 ≠ 0 ∨ 255 < f 4 2 ∨
       f 0x18 4 = 0 ∨ 2 ^ 28 < f 0x18 4 ∨ f 0x1E 34 ≠ 0 then none
    else some ⟨f 0 1, f 1 1, t, f 4 2, f 6 2, f 8 8, f 0x10 8, f 0x18 4, f 0x1C 2⟩

/-- A descriptor that fits its group: the root is a rank of a broadcast, and SEND and RECV are one range or apart. -/
def Desc.fits (d : Desc) (g : Group) : Bool :=
  let (a, b) := d.sizes g.members.length g.rank
  (if d.op = 4 then d.root < g.members.length else true) &&
  (a = 0 || d.send + a ≤ d.recv || d.recv + b ≤ d.send || (d.send = d.recv && a = b))

/-! ## CLWT and CLQ (R515, R516) -/

/-- The status word. -/
def Coll.word (x : Coll) : Nat :=
  let s := x.status.getD (0, 0, 0xFFFF)
  s.1 + (if x.status.isSome then 256 else 0) + s.2.1 * 2 ^ 9 + s.2.2 * 2 ^ 16 + x.gen * 2 ^ 32

/-- The collective a handle names: open, and of the wave's context. -/
def Run.collOf (r : Run) (wid : Nat) (v : Nat) : Option (Nat × Coll) :=
  match (r.part (r.partOf wid)).colls.get? (v % 64) with
  | some x => if x.use = v / 64 ∧ x.ctx = r.cidOf wid then some (v % 64, x) else none
  | none => none

/-- The handle a scalar operand holds, with what it names or the trap. -/
def withHandle (o : Ops) (k : Run → Iss → Nat → Coll → Eff Unit) (_ : Sys) (r : Run) (c : Iss) : Eff Unit :=
  let v := (r.rdScalar c.wid o.a 0 c.act.lowest).toNat
  match r.collOf c.wid v with
  | none => .trap r { cls := 12, sub := 0x21, mask := c.act, cw := BitVec.ofNat 64 v }
  | some (slot, x) => k r c slot x

def putStatus (o : Ops) (r : Run) (c : Iss) (x : Coll) : Run :=
  r.onWave c.wid (fun w => w.setS (scalarNum o.d).toNat (BitVec.ofNat 64 x.word))

def execClwt (h : Hd) (o : Ops) (s : State) : Host.Outcome State Fault Refusal :=
  issue s h { uses := usesOf h o } (withHandle o (fun r c slot x =>
    if x.status.isNone then .park r (.retry (.collective slot))
    else .ok ((putStatus o r c x).onPart (r.partOf c.wid) (fun q => { q with colls := q.colls.del slot })) ()))

def execClq (h : Hd) (o : Ops) (s : State) : Host.Outcome State Fault Refusal :=
  issue s h { uses := usesOf h o } (withHandle o (fun r c _ x => .ok (putStatus o r c x) ()))

/-! ## The engine -/

/-- Whether some held page lies on another device. -/
def heldFar (pg : List (Nat × Nat × Nat)) : Bool := pg.any (fun e => isAper e.2.1)

/-- The held piece of 8 KiB that an address lies in: its host and guest address there. -/
def heldAt (pg : List (Nat × Nat × Nat)) (a : Nat) : Option (Nat × Nat) :=
  (pg.find? (fun e => e.1 / 8192 = a / 8192)).map (fun e => (e.2.1 - e.2.1 % 8192 + a % 8192, e.2.2))

/-- Read a range through held pages; `far` are the bytes as other devices answer them. -/
def readHeld (m : SMap Byte) (pg : List (Nat × Nat × Nat)) (lo n : Nat) (far : List Byte) : List Byte :=
  (List.range n).map (fun i => match heldAt pg (lo + i) with
    | some (pa, _) => if isAper pa then far.getD i 0 else memGet m pa
    | none => 0)

/-- Send a request of a partition's collective engine, which belongs to no die (R509), by any port that leads there. -/
def Run.engineOut (r : Run) (p : Nat) (e : Word64) (line : Nat) (o : Out) : Run :=
  if aperHost e then r.send o else
  match choosePort (r.waysTo p (aperDev e)) (Config.lineHash line) with
  | some i => r.transmit i { cls := 0, port := i } o
  | none => r

/-- The engine names itself by this number in the requests it sends, where a wave's would stand. -/
def engineId : Nat := 65535

/-- The lines of a held range that lie on other devices, each by the first address of the range in it. -/
def farLines (pg : List (Nat × Nat × Nat)) (lo n : Nat) : List Nat :=
  (List.range n).filter (fun i => (i = 0 || (lo + i) % 256 = 0) && (heldAt pg (lo + i)).any (fun e => isAper e.1)) |>.map (lo + ·)

/-- Ask other devices for what of SEND lies there. -/
def readFar (r : Run) (p : Nat) (pg : List (Nat × Nat × Nat)) (lo n : Nat) : Run :=
  (farLines pg lo n).foldl (fun r a => match heldAt pg a with
    | none => r
    | some (pa, _) =>
      let z := r.aper p pa
      r.engineOut p z (pa / 256) (.read (aperPeer z) (aperHost z) engineId [(0, pa % 2 ^ 40)])) r

/-- Write bytes through held pages from an address on, each page marked while dirty logging is on (R530); what lies on another device
goes out as a write, and is answered with the request. -/
def writeHeld (r : Run) (cid : Nat) (pg : List (Nat × Nat × Nat)) : Nat → List Byte → List FarWrite × Run
  | _, [] => ([], r)
  | a, b :: t =>
    match heldAt pg a with
    | none => writeHeld r cid pg (a + 1) t
    | some (pa, gpa) =>
      let r := markGuest r cid gpa
      if isAper pa then
        let p := (r.ctx cid).part
        let z := r.aper p pa
        let (xs, r) := writeHeld (r.engineOut p z (pa / 256) (.write (aperPeer z) (aperHost z) engineId (pa % 2 ^ 40) [b])) cid pg (a + 1) t
        ({ pa := pa, va := a, sent := r.clk } :: xs, r)
      else writeHeld (storeBytes r pa [b]) cid pg (a + 1) t

/-- One step of a reduction (R511). -/
def redStep (red : Nat) (t : ElemTy) (acc x : Nat) : Nat :=
  let op : AOp := match red with | 0 => .add | 1 => .max | _ => .min
  match t with
  | .fp32 => fpAtomic fmt32 op acc x
  | .fp16 => fpAtomic fmt16 op acc x
  | .bf16 => fpAtomic fmtB op acc x
  | .int32 => atomOp op .s32 acc x
  | _ => atomOp op .u32 acc x

def redFold (red : Nat) (t : ElemTy) : List Nat → Nat
  | [] => 0
  | x :: xs => xs.foldl (redStep red t) x

/-- The contributions to an element in the order they enter: by rank in DET order, else in an open order. -/
def redOrder (det : Bool) (seed : Nat) (xs : List Nat) : List Nat :=
  if det then xs
  else (((List.range xs.length).zip xs).foldl (fun ys x => insertKey (fun l => (Config.freeWord (seed + l)).toNat) x ys) []).map (·.2)

/-- Element j of every member's bytes, reduced. -/
def redElem (x : Coll) (seed : Nat) (xs : List (List Byte)) (j : Nat) : List Byte :=
  let e := elemBytes x.ty
  leBytes (redFold x.red x.ty (redOrder x.det (seed + j * xs.length) (xs.map (fun b => ofLe ((b.drop (j * e)).take e))))) e

/-- What RECV holds in the end at rank `rank`, from every member's SEND (R510). -/
def Coll.result (x : Coll) (seed rank : Nat) (xs : List (List Byte)) : List Byte :=
  let b := x.count * elemBytes x.ty
  match x.op with
  | 0 => (List.range x.count).flatMap (redElem x seed xs)
  | 1 => (List.range x.count).flatMap (fun j => redElem x seed xs (rank * x.count + j))
  | 2 => xs.flatten
  | 3 => xs.flatMap (fun s => (s.drop (rank * b)).take b)
  | _ => xs.getD x.root []

def Coll.desc (x : Coll) : Desc := ⟨x.op, x.red, x.ty, x.group, x.gen, x.send.toNat, x.recv.toNat, x.count, x.root⟩

/-- Record a status, the first alone (R517). -/
def collEnd (r : Run) (p slot : Nat) (st : Nat × Nat × Nat) : Run :=
  r.onPart p (fun q => { q with colls := q.colls.upd slot (fun x => { x with status := some (x.status.getD st) }) })

/-- Members that can be reached: their route sets hold a port that is up (R504). -/
def Run.reachable (r : Run) (p dev : Nat) : Bool := r.waysTo p dev ≠ []

/-- What an abort leaves in RECV (R518): each byte its old value or one the engine wrote, which is open. -/
def spoilRecv (r : Run) (x : Coll) (n : Nat) : Run :=
  let seed := r.fresh
  (List.range n).foldl (fun r i =>
    let f := Config.freeWord (seed + i)
    if f.getLsbD 8 then (writeHeld r x.ctx x.recvPg (x.recv.toNat + i) [f.setWidth 8]).2 else r) { r with fresh := seed + n }

/-- The other members of a group, by rank with their devices. -/
def Group.others (g : Group) : List (Nat × Nat) :=
  ((List.range g.members.length).filter (fun i => i ≠ g.rank)).map (fun i => (i, g.members.getD i 0))

/-- Send a message of a group's collective control (R314) to the other members that can be reached, each on its own ordered flow. -/
def toMembers (r : Run) (p group : Nat) (q : RemoteReq) : Run :=
  let g := ((r.part p).groups.get? group).getD {}
  (g.others.filter (fun m => r.reachable p m.2)).foldl (fun r m => sendFlow r p 4 (collFlow group g.rank m.1) true (r.waysTo p m.2) q) r

/-- The abort messages of a member (R517); `detail` is what their receipt records (R516). -/
def abortPeers (r : Run) (p : Nat) (x : Coll) (detail : Nat) : Run :=
  let g := ((r.part p).groups.get? x.group).getD {}
  toMembers r p x.group (.abort x.group x.gen x.k g.rank detail)

/-- Record an abort and send it to every member that can be reached (R517); a mismatch is one at each of them. -/
def collAbort (r : Run) (p slot : Nat) (st : Nat × Nat × Nat) : Run :=
  match (r.part p).colls.get? slot with
  | none => r
  | some x =>
    if x.status.isSome then r else
    let g := ((r.part p).groups.get? x.group).getD {}
    abortPeers (collEnd (spoilRecv r x (x.desc.sizes g.members.length g.rank).2) p slot st) p x (if st.1 = 3 && st.2.1 = 1 then 1 else 0)

/-- A flit of a collective has come in (R517): the progress timeout starts again. -/
def collTouch (r : Run) (p slot : Nat) : Run :=
  r.onPart p (fun q => { q with colls := q.colls.upd slot (fun x => { x with lastIn := r.clk }) })

/-- COLLECTIVE_DONE: the exchange is through, `xs` being every member's SEND in rank order; this member's own SEND is read
here, but for what of it lies on another device. With less than that the exchange goes on. What of RECV lies on another device is
written there, and with an empty `xs` acknowledged: DONE is for the whole of RECV alone (R517). -/
def collDone (r : Run) (p slot : Nat) (xs : List (List Byte)) : Run :=
  match (r.part p).colls.get? slot with
  | none => r
  | some x =>
    let g := ((r.part p).groups.get? x.group).getD {}
    let n := g.members.length
    let own := (x.desc.sizes n g.rank).1
    if x.status.isSome then r
    else if x.out ≠ [] then (if xs = [] then collEnd r p slot (0, 0, 0xFFFF) else r)
    else
      let mine := (xs.getD g.rank []).length = own
      let r := (collTouch r p slot).onPart p (fun q => { q with colls := q.colls.upd slot (fun x => { x with reads := if mine then none else x.reads }) })
      if xs.length ≠ n ∨ !((List.range n).all (fun i => (i = g.rank && !heldFar x.sendPg) || (xs.getD i []).length = (x.desc.sizes n i).1)) then r
      else
        let xs := xs.set g.rank (readHeld r.mem x.sendPg x.send.toNat own (xs.getD g.rank []))
        let res := x.result r.fresh g.rank xs
        let (out, r) := writeHeld { r with fresh := r.fresh + n * n * x.count } x.ctx x.recvPg x.recv.toNat res
        if out = [] then collEnd r p slot (0, 0, 0xFFFF)
        else r.onPart p (fun q => { q with colls := q.colls.upd slot (fun x => { x with out := out }) })

def execCollectiveDone (part slot : Nat) (x : List (List Byte)) (s : State) : Host.Outcome State Fault Refusal :=
  event s (fun _ r => collDone r part slot x)

/-- COLLECTIVE_ABORT_RECEIVE. -/
def execCollectiveAbortReceive (part slot rank : Nat) (detail : BitVec 2) (s : State) : Host.Outcome State Fault Refusal :=
  event s (fun _ r => collAbort r part slot (3, detail.toNat, rank % 65536))

/-- The cycles after which a request of a context that has left the device is over: FTO, in its range of 1 µs to 10 ms (R505). -/
def Ctx.ftoCycles (c : Ctx) : Nat := max 1000 (min 10000000 c.fto) * 21 / 10

/-- The cycles of a group's progress timeout, from 100 µs to 100 ms (R509). -/
def Group.tpCycles (g : Group) : Nat := max 100 (min 100000 g.tp) * 2100

/-- Whether a running collective has waited T_p without a flit (R517), or for another device longer than the fabric timeout of its context
(R505, log entry 105). -/
def Run.collLate (r : Run) (p : Nat) (x : Coll) : Bool :=
  let late (t : Nat) : Bool := t + (r.ctx x.ctx).ftoCycles ≤ r.clk
  x.status.isNone && (x.lastIn + (((r.part p).groups.get? x.group).getD {}).tpCycles ≤ r.clk || x.reads.any late || x.out.any (fun w => late w.sent))

/-- PROGRESS_TIMEOUT. -/
def execProgressTimeout (part slot : Nat) (s : State) : Host.Outcome State Fault Refusal :=
  event s (fun _ r => if ((r.part part).colls.get? slot).any (r.collLate part) then collAbort r part slot (2, 0, 0xFFFF) else r)

/-- ABORT-LINK (R517): a collective that needs a member no port of the route set reaches. -/
def collLink (r : Run) (p slot : Nat) (x : Coll) : Run :=
  match (((r.part p).groups.get? x.group).getD {}).others.find? (fun m => !r.reachable p m.2) with
  | some m => collAbort r p slot (1, 0, m.1)
  | none => r

/-- The same for every collective of a partition. -/
def collLinks (r : Run) (p : Nat) : Run := (r.part p).colls.foldl (fun r e => collLink r p e.1 e.2) r

/-! ## The members' descriptors and aborts (R514, R517) -/

def Coll.fields (x : Coll) : Nat × Nat × ElemTy × Nat × Nat := (x.op, x.red, x.ty, x.count, x.root)

/-- The collective here that is a group's k-th of a generation. -/
def Partition.kth (q : Partition) (group gen k : Nat) : Option (Nat × Coll) :=
  q.colls.find? (fun e => e.2.group = group && e.2.gen = gen && e.2.k = k && e.2.status.map (·.1) ≠ some 4)

/-- Whether a message speaks of a collective yet to be accepted here: of the group's generation, or of the one that a re-form whose message
is on its way brings. -/
def Partition.ahead (q : Partition) (group gen k : Nat) : Bool :=
  let g := (q.groups.get? group).getD {}
  (gen = g.gen && g.accepted ≤ k) || gen = (g.gen + 1) % 65536

/-- Another member's descriptor comes in: it is matched with the k-th here, or kept until that is accepted. -/
def peerDescriptor (r : Run) (p : Nat) (d : PeerDesc) : Run :=
  match (r.part p).kth d.group d.gen d.k with
  | some (slot, x) => if x.fields = d.fields then collTouch r p slot else collAbort r p slot (3, 1, d.rank)
  | none => if !(r.part p).ahead d.group d.gen d.k then r else r.onPart p (fun q => { q with peers := d :: q.peers.filter (fun e => (e.group, e.gen, e.k, e.rank) ≠ (d.group, d.gen, d.k, d.rank)) })

/-- Another member's abort comes in. -/
def peerAbort (r : Run) (p group gen k rank detail : Nat) : Run :=
  match (r.part p).kth group gen k with
  | some (slot, _) => collAbort r p slot (3, detail % 4, rank)
  | none => if !(r.part p).ahead group gen k then r else r.onPart p (fun q => { q with aborts := q.aborts ++ [(group, gen, k, rank, detail)] })

/-- What a collective just accepted does: it sends its descriptor to the other members, asks for what of its SEND lies on other devices,
and meets what has come in for it; a member out of reach ends it. -/
def collBegin (r : Run) (p slot : Nat) (x : Coll) : Run :=
  let q := r.part p
  let g := (q.groups.get? x.group).getD {}
  let n := (x.desc.sizes g.members.length g.rank).1
  let r := toMembers r p x.group (.descriptor x.group x.gen x.k g.rank x.op x.red x.ty x.count x.root)
  let r := readFar r p x.sendPg x.send.toNat n
  let mine (a b k : Nat) : Bool := a = x.group && b = x.gen && k = x.k
  let ds := q.peers.filter (fun d => mine d.group d.gen d.k)
  let as := q.aborts.filter (fun a => mine a.1 a.2.1 a.2.2.1)
  let r := r.onPart p (fun q => { q with
    colls := q.colls.upd slot (fun x => { x with reads := if farLines x.sendPg x.send.toNat n = [] then none else some r.clk })
    peers := q.peers.filter (fun d => !mine d.group d.gen d.k)
    aborts := q.aborts.filter (fun a => !mine a.1 a.2.1 a.2.2.1) })
  match as, ds.find? (fun d => d.fields ≠ x.fields) with
  | a :: _, _ => collAbort r p slot (3, a.2.2.2.2 % 4, a.2.2.2.1)
  | [], some d => collAbort r p slot (3, 1, d.rank)
  | [], none => collLink r p slot x

/-! ## CLST (R514) -/

/-- Checks 3, 4, 6 and 7 of R267 over RECV, the destination, and SEND; an empty SEND is checked for alignment alone. -/
def collRanges (w : Wave) (b : Block) (act : Lanes) (d : Desc) (a z : Nat) : Option Trap :=
  let t (sub addr : Nat) : Trap := wordTrap act sub addr
  let far (x n : Nat) : Bool := n ≠ 0 && (2 ^ 52 ≤ x || 2 ^ 52 < x + n)
  if d.recv % 4 ≠ 0 then some (t 0x10 d.recv)
  else if d.send % 4 ≠ 0 then some (t 0x10 d.send)
  else if far d.recv z then some (t 0x11 d.recv)
  else if far d.send a then some (t 0x11 d.send)
  else
    let und : Option Nat := match w.activeTiles with
      | none => none
      | some ts =>
        if !declared ts true d.recv z then some d.recv
        else if a ≠ 0 && !declared ts false d.send a then some d.send
        else none
    match und with
    | some x => some { cls := 10, sub := 1, mask := act, cw := w.activeTicket, lw := laneWords (act.toList.map (fun l => (l, x))) }
    | none =>
      (watchHit b none d.recv (d.recv + z)).map (fun i =>
        { cls := 9, sub := 2, mask := act, cw := tileCw 0xFF i 0 0 })

/-- The 64 bytes of a descriptor; those of another device are open here. -/
def descBytes (r : Run) (pa : Nat) : List Byte × Run :=
  if isAper pa then
    (List.range 8).foldl (fun (acc : List Byte × Run) _ =>
      let (x, r) := acc.2.free
      (acc.1 ++ leBytes x.toNat 8, r)) ([], r)
  else (memBytes r.mem pa 64, r)

/-- The pages the engine holds. -/
def heldPages (ts : List (Nat × Xlat)) : List (Nat × Nat × Nat) := ts.map (fun t => (t.1, t.2.pa, t.2.gpa))

/-- The handle of the next use of a slot. -/
def Partition.handle (p : Partition) (slot : Nat) : Nat := slot + 64 * (SMap.get 0 p.collUse slot + 1)

/-- Take a slot and start the collective, or wait for a slot; a generation that is not the group's is aborted at once. -/
def collStart (d : Desc) (g : Group) (o : Ops) (sp rp : List (Nat × Nat × Nat)) (r : Run) (c : Iss) : Eff Unit :=
  let p := r.partOf c.wid
  let q := r.part p
  match (List.range 64).find? (fun i => (q.colls.get? i).isNone) with
  | none => .park r (.retry .clRoom)
  | some slot =>
    let use := SMap.get 0 q.collUse slot + 1
    let live := d.gen = g.gen
    let x : Coll := { use := use, ctx := r.cidOf c.wid, group := d.group, gen := d.gen, k := g.accepted
                      det := r.det (r.wave c.wid), op := d.op, red := d.red, ty := d.ty
                      send := BitVec.ofNat 64 d.send, recv := BitVec.ofNat 64 d.recv, count := d.count, root := d.root
                      status := if live then none else some (4, 0, 0xFFFF), sendPg := sp, recvPg := rp, lastIn := r.clk }
    let r := r.onPart p (fun q => { q with
      colls := q.colls.put slot x
      collUse := q.collUse.set 0 slot use
      groups := if live then q.groups.put d.group { g with accepted := g.accepted + 1 } else q.groups })
    .ok ((if live then collBegin r p slot x else r).onWave c.wid (fun w => w.setS (scalarNum o.d).toNat (BitVec.ofNat 64 (q.handle slot)))) ()

def clstEff (o : Ops) (y : Sys) (r : Run) (c : Iss) : Eff Unit :=
  let a := (r.rdScalar c.wid o.a 0 c.act.lowest).toNat
  let core := coreOf c.wid
  let cid := r.cidOf c.wid
  let w := r.wave c.wid
  let k : Want := { priv := w.priv }
  (globalChecks y r c (c.act.toList.map (fun l => (l, a))) 64 true false true).bind fun r ts =>
  let (bs, r) := descBytes r ((ts.head?.map (·.2.pa)).getD 0)
  let bad : Trap := { cls := 12, sub := 0x20, mask := c.act, cw := BitVec.ofNat 64 a }
  match readDescriptor bs with
  | none => .trap r bad
  | some d =>
    match (r.part (r.partOf c.wid)).groups.get? d.group with
    | none => .trap r bad
    | some g =>
      if !d.fits g then .trap r bad else
      let (n, z) := d.sizes g.members.length g.rank
      match collRanges w (r.block w.blk) c.act d n z with
      | some t => .trap r t
      | none =>
        (preTranslateRange y r core (slotOf c.wid) cid k c.pc c.act d.send n).bind fun r ss =>
        (preTranslateRange y r core (slotOf c.wid) cid { k with write := true } c.pc c.act d.recv z).bind fun r rs =>
        ordered true true (fun _ r c => collStart d g o (heldPages ss) (heldPages rs) r c) y r c

def execClst (h : Hd) (o : Ops) (s : State) : Host.Outcome State Fault Refusal :=
  issue s h { uses := usesOf h o, closer := true } (ordered false false (clstEff o))

/-! ## Re-forming a group (R519) -/

/-- The devices of a member bitmap in ascending number, by rank. -/
def bitmapMembers (bs : List Byte) : List Nat :=
  (List.range 4096).filter (fun d => (bs.getD (d / 8) 0).getLsbD (d % 8))

/-- A group takes a new member list and generation (R519): its collectives end with ABORT-GEN. A member the list leaves out keeps its
own list (log entry 105). -/
def reformHere (r : Run) (p g : Nat) (old : Group) (ms : List Nat) (gen : Nat) : Run :=
  let self := old.members.getD old.rank 0
  let r := (r.part p).colls.foldl (fun r e => if e.2.group = g then collAbort r p e.1 (4, 0, 0xFFFF) else r) r
  let new : Group := if ms.contains self then { old with members := ms, rank := ms.idxOf self, gen := gen, accepted := 0 }
    else { old with gen := gen, accepted := 0 }
  r.onPart p (fun q => { q with
    groups := q.groups.put g new
    peers := q.peers.filter (fun d => d.group ≠ g || d.gen = gen)
    aborts := q.aborts.filter (fun a => a.1 ≠ g || a.2.1 = gen) })

/-- Re-form a group: a status and a value for FWCALL GREFORM (R539). The other members learn it by a message. -/
def greform (r : Run) (p g : Nat) (ms : List Nat) : Nat × Nat × Run :=
  match (r.part p).groups.get? g with
  | none => (2, 0, r)
  | some old =>
    let gen := (old.gen + 1) % 65536
    if ms.length < 2 ∨ !ms.contains (old.members.getD old.rank 0) then (2, 0, r)
    else if (r.part p).colls.any (fun e => e.2.group = g && e.2.gen = gen) then (3, 0, r)
    else (0, gen, reformHere (toMembers r p g (.reform g gen ms)) p g old ms gen)

/-- The message of a re-form that began at another member comes in. -/
def peerReform (r : Run) (p g gen : Nat) (ms : List Nat) : Run :=
  match (r.part p).groups.get? g with
  | none => r
  | some old => if gen = (old.gen + 1) % 65536 ∧ 2 ≤ ms.length then reformHere r p g old ms gen else r

end Sys2Proof.Machine
end

