-- ==== Sys2Proof/Machine/Service.lean ====
section
/-! DEFINITION. SYSC and FWCALL (R205, R538, R539), and the supervisor table the Inn installs at %TRAPBASE: its answers to
SYSC and its ATOMEMU routine (R291, R538). -/

namespace Sys2Proof.Machine

/-! ## SYSC -/

/-- SYSC n (R205): to the supervisor in class 0, EPC being the next instruction. -/
def syscIssue (h : Hd) (n : Nat) (s : State) : Host.Outcome State Fault Refusal :=
  issue s h {} (fun _ r c => .trap r { cls := 0, sub := n, mask := c.act, next := true })

def execSyscVersion (h : Hd) (s : State) : Host.Outcome State Fault Refusal := syscIssue h 0 s
def execSyscCapacity (h : Hd) (s : State) : Host.Outcome State Fault Refusal := syscIssue h 1 s
def execSyscQuota (h : Hd) (s : State) : Host.Outcome State Fault Refusal := syscIssue h 2 s
def execSyscMark (h : Hd) (s : State) : Host.Outcome State Fault Refusal := syscIssue h 3 s
def execSyscUnassigned (h : Hd) (n : BitVec 8) (s : State) : Host.Outcome State Fault Refusal := syscIssue h n.toNat s

/-! ## The capacity words (R545) -/

/-- A word with the bits of the present units among `n` from unit `lo` on. -/
def presentBits (gone : List Nat) (lo n : Nat) : Nat :=
  (List.range n).foldl (fun x i => if gone.contains (lo + i) then x else x + 2 ^ i) 0

def Run.goneP (r : Run) : List Nat := (List.range 144).filter (fun i => !(r.port i).mapped)

/-- The capacity word of an index. -/
def Run.capacity (r : Run) (i : Nat) : Option Nat :=
  if i < 16 then
    let k := i / 4
    some (match i % 4 with
      | 0 => presentBits r.outPairs (k * 160) 64
      | 1 => presentBits r.outPairs (k * 160 + 64) 64
      | 2 => presentBits r.outPairs (k * 160 + 128) 32
      | _ => presentBits r.outSlices (k * 64) 64)
  else if i < 20 then some (presentBits r.goneP ((i - 16) * 36) 36)
  else if i = 20 then some (2 * ((List.range 640).filter (fun p => !r.outPairs.contains p)).length)
  else if i = 21 then some 2400
  else none

/-! ## Answers -/

/-- The versions: firmware and Iluit version 1. -/
def versionWord : Nat := Config.firmwareVersion.toNat + 65536

/-- What the Inn's table answers to SYSC n: a status and a value; the value beside a refusal is open. -/
def syscAnswer (r : Run) (wid n : Nat) : Nat × Word64 × Run :=
  let w := r.wave wid
  let c := r.ctxOf w
  match n with
  | 0 => (0, BitVec.ofNat 64 versionWord, r)
  | 1 => (match r.capacity (w.sReg 122).toNat with
    | some x => (0, BitVec.ofNat 64 x, r)
    | none => let (v, r) := r.drawFor wid [n]; (2, v, r))
  | 2 => (0, BitVec.ofNat 64 c.quotaMax, r)
  | 3 => (0, 0, r.event 0x0C c.tenant (coreOf wid) (w.sReg 122).toNat c.part)
  | _ => let (v, r) := r.drawFor wid [n]; (1, v, r)

/-- Leave the Inn's table by RTE. -/
def leaveTable (r : Run) (wid : Nat) (m : Lanes) : Run :=
  afterRte (r.onWave wid (fun w => w.rte m false)) wid ((r.wave wid).sup.head?.map (·.cls))

/-- The table's SYSC slot: s120 and s121 are written and the wave returns (R538). -/
def tableSysc (r : Run) (wid : Nat) (m : Lanes) : Run :=
  let (st, v, r) := syscAnswer r wid (bits (r.wave wid).scause 8 8)
  leaveTable (r.onWave wid (fun w => (w.setS 120 (BitVec.ofNat 64 st)).setS 121 v)) wid m

/-! ## The ATOMEMU routine (R291) -/

/-- An atomic instruction as the routine reads it at %SEPC. -/
def atomicWord (i : Instr) : Option (Hd × AtomForm × Ops) :=
  match i with
  | .atom h m o => some (h, ⟨false, false, m⟩, o)
  | .red h m o => some (h, ⟨false, true, m⟩, o)
  | .cas h m o => some (h, ⟨true, false, m⟩, o)
  | _ => none

/-- The lock word of a line among 4,096 (R291). -/
def lockIndex (pa : Nat) : Nat := pa / 2 ^ 8 % 4096 ^^^ pa / 2 ^ 20 % 4096 ^^^ pa / 2 ^ 32 % 4096 ^^^ pa / 2 ^ 44 % 256

/-- Change the routine's place. -/
def Run.onEmu (r : Run) (wid : Nat) (f : Emu → Emu) : Run := r.onWave wid (fun w => { w with emu := w.emu.map f })

/-- The routine reads a unit. What another device or a host holds comes with its answer, and is open here. -/
def emuRead (r : Run) (wid : Nat) (m : Lanes) (n l va pa : Nat) : Run :=
  if !isAper pa then r.onEmu wid (fun e => { e with read := some (memRead r.mem pa n) }) else
  let e := r.aperOf wid pa
  let (x, r) := r.free
  let (z, r) := r.free
  let old := (x.toNat + 2 ^ 64 * z.toNat) % 2 ^ (8 * n)
  let r := r.dataOut (r.partOf wid) (dieOf (coreOf wid)) e (pa / 256) (.read (aperPeer e) (aperHost e) wid [(l, pa % 2 ^ 40)])
  let far : FarLane := { lane := l, pa := pa, va := va, dev := aperDev e, sent := r.clk, priv := true }
  (r.onWave wid (fun w => w.owe [] (.load [far]) false m w.sepc)).onEmu wid (fun e => { e with read := some old })

/-- A line of another device that a write of the wave has yet to be acknowledged on (R312). -/
def Run.writeOut (r : Run) (wid pa : Nat) : Bool :=
  isAper pa && (r.wave wid).remote.any (fun a => a.msg.isNone && r.farLine (r.partOf wid) a.pa == r.farLine (r.partOf wid) pa)

/-- The routine's own access fails: on a page that is to come its part waits for that, at the routine's start, with what it holds and has
done; else the part takes the MEM trap there (R191, R245). -/
def emuFault (y : Sys) (r : Run) (wid : Nat) (m : Lanes) (l va : Nat) (we : WalkErr) (k : Want) : Run :=
  let w := r.wave wid
  let pc := ((w.partAt m).map (fun p : Part => p.pc)).getD 0
  if we.replay then
    (sendReplay r (coreOf wid) (slotOf wid) (r.cidOf wid) pc k [(va, we)]).onWave wid (fun w =>
      (w.regionEntry m).park m (.fault [va / 65536] true [(l, va)] (detailCode we k)))
  else trapAt y r ⟨wid, m, m, pc⟩ (memTrap we.sub [(l, va)] (detailCode we k))

/-- The next step of the routine for its first lane: it acquires the lock word of the line, reads the unit, writes it, and releases the
word once what it did has performed. -/
def emuLane (y : Sys) (r : Run) (wid : Nat) (m : Lanes) (f : AtomForm) (o : Ops) (e : Emu) (l va : Nat) (rest : List (Nat × Nat)) : Run :=
  let cid := r.cidOf wid
  let p := r.partOf wid
  let n := ATy.bytes f.m.ty
  let want : Want := { write := true, priv := true }
  match walkBoth y r cid va want with
  | .error we => emuFault y r wid m l va we want
  | .ok (_, _, gpa, pa) =>
    match e.lock, e.read with
    | none, _ =>
      if (r.part p).locks.contains (lockIndex pa) then r
      else (r.onPart p (fun q => { q with locks := lockIndex pa :: q.locks })).onEmu wid (fun e => { e with lock := some (lockIndex pa) })
    | some _, none => if r.writeOut wid pa then r else emuRead r wid m n l va pa
    | some k, some old =>
      if (r.wave wid).unperformed then r
      else if !e.wrote then
        let r := match atomicNew (f.req r wid o pa l) old with
          | some v => writeOne (markDirty r (coreOf wid) cid va gpa) p wid pa va (leBytes v n)
          | none => r
        r.onEmu wid (fun e => { e with wrote := true, vals := e.vals ++ [(l, old)] })
      else (r.onPart p (fun q => { q with locks := q.locks.erase k })).onEmu wid
        (fun e => { e with todo := rest, lock := none, read := none, wrote := false })

/-- The end of the routine: D is written, and the wave returns behind the instruction, whose region it closes. -/
def emuEnd (r : Run) (wid : Nat) (m act : Lanes) (f : AtomForm) (o : Ops) (e : Emu) : Run :=
  let r := if f.red then r else r.onWave wid (fun w => w.putOld o.d f.m.ty act (laneVal e.vals))
  let r := r.onWave wid (fun w => { w with sepc := w.sepc + 12, emu := none })
  (leaveTable r wid m).onWave wid (fun w => w.regionEntry m)

/-- A step of the table's ATOMEMU slot: the instruction at %SEPC is applied lane by lane, in ascending order (R291 states none: log entry
98). -/
def tableAtomic (y : Sys) (r : Run) (wid : Nat) (m : Lanes) : Run :=
  let w := r.wave wid
  match decodeWord {} (r.peek y wid w.sepc) with
  | .error _ => leaveTable r wid m
  | .ok i =>
    match atomicWord i with
    | none => leaveTable r wid m
    | some (h, f, o) =>
      let act := guard w h m
      match w.emu with
      | none =>
        let ls := if Ops.vecUnit o then act.toList else act.toList.take 1
        let xs := ls.map (fun l => (l, (r.rdScalar wid o.a 0 l + BitVec.ofInt 64 (r.rdLane wid o.b 0 l).toInt).toNat))
        r.onWave wid (fun w => { w with emu := some { todo := xs } })
      | some e => match e.todo with
        | [] => emuEnd r wid m act f o e
        | (l, va) :: rest => emuLane y r wid m f o e l va rest

/-- The slot of the Inn's table a group stands at, if any: its class. -/
def Run.tableSlot (r : Run) (wid : Nat) (pc : Word64) : Option Nat :=
  let w := r.wave wid
  let c := r.ctxOf w
  if w.priv && r.trapbase c = r.table && (w.sup.head?.map (·.cls)) = some 0 && pc = r.table then some 0
  else if w.priv && r.trapbase c = r.table && (w.sup.head?.map (·.cls)) = some 8 && pc = r.table + 0x800 then some 8
  else none

/-- The routine of the slot a group stands at. -/
def tableRun (y : Sys) (r : Run) (wid : Nat) (m : Lanes) (slot : Nat) : Run :=
  if slot = 0 then tableSysc r wid m else tableAtomic y r wid m

/-! ## FWCALL (R539) -/

/-- FWCALL n: s120 and s121 are empty and the part waits until the Inn's reply arrives. -/
def fwcallIssue (h : Hd) (n : Nat) (s : State) : Host.Outcome State Fault Refusal :=
  issue s h { priv := true, uses := [⟨0, .s 120, 2, true, false, none⟩, ⟨1, .s 122, 4, false, false, none⟩] } (fun _ r c =>
    let w := r.wave c.wid
    .park (r.onWave c.wid (fun w => w.owe [⟨false, 120, 0xFFFFFFFF#32⟩, ⟨false, 121, 0xFFFFFFFF#32⟩] .local false c.act c.pc))
      (.fwcall n ((List.range 4).map (fun i => w.sReg (122 + i))) r.clk))

def execFwcallVersion (h : Hd) (s : State) : Host.Outcome State Fault Refusal := fwcallIssue h 0 s
def execFwcallBbread (h : Hd) (s : State) : Host.Outcome State Fault Refusal := fwcallIssue h 1 s
def execFwcallPwrcap (h : Hd) (s : State) : Host.Outcome State Fault Refusal := fwcallIssue h 2 s
def execFwcallGreform (h : Hd) (s : State) : Host.Outcome State Fault Refusal := fwcallIssue h 3 s
def execFwcallUnassigned (h : Hd) (n : BitVec 8) (s : State) : Host.Outcome State Fault Refusal := fwcallIssue h n.toNat s

/-- The Inn's answer to a call: a status, s121, and s122 where the service returns it. A value beside a status other than
OK is open. -/
structure FwReply where
  status : Nat
  value : Word64
  second : Option Word64 := none
  run : Run
  deriving Repr

def refuseCall (r : Run) (st : Nat) : FwReply :=
  let (v, r) := r.free
  { status := st, value := v, run := r }

/-- Bytes of a range of the caller's virtual space, if all of it is this device's memory. -/
def Run.callBytes (y : Sys) (r : Run) (cid va n : Nat) : Option (List Byte) :=
  if 2 ^ 52 < va + n then none else
  ((piecesOf va n).mapM (fun a => match walkBoth y r cid a { priv := true } with
    | .ok (_, _, _, pa) => if isAper pa then none else some (memBytes r.mem pa (min (va + n) ((a / 8192 + 1) * 8192) - a))
    | .error _ => none)).map List.flatten

def fwAnswer (y : Sys) (r : Run) (wid n : Nat) (args : List Word64) : FwReply :=
  let cid := r.cidOf wid
  let p := r.partOf wid
  let a (i : Nat) : Nat := (args.getD i 0).toNat
  match n with
  | 0 => { status := 0, value := BitVec.ofNat 64 versionWord, run := r }
  | 1 => (match r.bb.find? (fun e => e.seq = a 0 && e.part.all (fun q => q = p)) with
    | some e => { status := 0, value := BitVec.ofNat 64 (ofLe (e.bytes.take 8)), second := some (BitVec.ofNat 64 (ofLe (e.bytes.drop 8))), run := r }
    | none => refuseCall r 2)
  | 2 =>
    let cap := max 300 (min 2400 (a 0))
    { status := 0, value := BitVec.ofNat 64 cap, run := r.onPart p (fun q => { q with cap := cap }) }
  | 3 => (match r.callBytes y cid (a 1) 512 with
    | none => refuseCall r 2
    | some bs =>
      let (st, v, r) := greform r p (a 0) (bitmapMembers bs)
      if st = 0 then { status := 0, value := BitVec.ofNat 64 v, run := r } else refuseCall r st)
  | _ => refuseCall r 1

/-- The part of a wave that waits in FWCALL. -/
def Wave.inFwcall (w : Wave) : Option (Part × Nat × List Word64 × Nat) :=
  w.parts.findSome? (fun (p : Part) => match p.park with | .fwcall n args t => some (p, n, args, t) | _ => none)

/-- The reply arrives: s120 and s121 fill and the part goes on. -/
def fwReply (y : Sys) (r : Run) (wid : Nat) : Run :=
  match (r.wave wid).inFwcall with
  | none => r
  | some (p, n, args, _) =>
    let x := fwAnswer y r wid n args
    x.run.onWave wid (fun w =>
      let w := (w.setS 120 (BitVec.ofNat 64 x.status)).setS 121 x.value
      let w := match x.second with | some v => w.setS 122 v | none => w
      w.complete (w.groupOf p) false)

/-- The cycles of 10 ms, after which a call with no answer times out. -/
def fwcallCycles : Nat := 21000000

/-- FWCALL_TIMEOUT: both registers are indeterminate. -/
def execFwcallTimeout (w : Nat) (s : State) : Host.Outcome State Fault Refusal :=
  event s (fun _ r => match (r.wave w).inFwcall with
    | none => r
    | some (p, _) => r.onWave w (fun x =>
      let x := x.spoil [⟨false, 120, 0xFFFFFFFF#32⟩, ⟨false, 121, 0xFFFFFFFF#32⟩]
      { x with pend := x.pend.filter (fun q => !q.regs.contains ⟨false, 120, 0xFFFFFFFF#32⟩) }.complete (x.groupOf p) false))

end Sys2Proof.Machine
end

