-- ==== Sys2Proof/Machine/Events.lean ====
section
/-! DEFINITION. Steps of a core that no instruction is: illegal words, stalls, results that arrive, acknowledgements and
timeouts, late traps, repaired and declined translations, and the ends of slots and blocks. -/

namespace Sys2Proof.Machine

/-- The issuing group, all of its members. -/
def Run.group (r : Run) : Option Iss :=
  match r.waves.get? r.cur.wave with
  | none => none
  | some w => (w.partAt r.cur.lanes).map (fun p => ⟨r.cur.wave, r.cur.lanes, r.cur.lanes, p.pc⟩)

/-- ILLOP (R61): before any effect, whatever the guard. -/
def execIllop (sub : BitVec 8) (s : State) : Host.Outcome State Fault Refusal :=
  match s.run.group with
  | none => .fault .noIssuer
  | some c => .next { s with run := trapAt s.sys s.run c { cls := 3, sub := sub.toNat, mask := c.m } }

/-- STALL_EXPIRY (R47): the cycle of `stall` has come. -/
def execStallExpiry (w : Nat) (s : State) : Host.Outcome State Fault Refusal :=
  event s (fun _ r => r.onWave w (fun x => if x.stall ≤ r.clk then { x with stall := 0 } else x))

/-! ## Results -/

/-- Write the arriving values of some remote lanes: register i of the result takes row i. -/
def Wave.arrive (w : Wave) (p : Pend) (m : Lanes) (x : List Row) : Wave :=
  if x = [] ∨ m = 0 then w else
  (List.range p.regs.length).foldl (fun (w : Wave) i =>
    match p.regs[i]? with
    | none => w
    | some g =>
      let row := x.getD (i % x.length) []
      if g.vec then { w with v := w.v.set zeroRow g.n (rowMix (w.vRow g.n) (g.mask &&& m) (rowAt row)) }
      else { w with s := w.s.set 0 g.n ((rowAt row 1) ++ (rowAt row 0)) }) w

/-- Updates of one completion object in host memory that await its value: each as whether it refuses. -/
def Pend.updates (p : Pend) (pa : Nat) : List Bool :=
  match p.kind with
  | .object f ls => if ls.any (fun x => x.pa = pa) then [f] else []
  | _ => []

/-- The value of a completion object in host memory arrives: every update of the partition's waves that awaits it enters it, and one
WRITE goes out (R477, R522). -/
def objectArrive (r : Run) (wid : Nat) (z : FarLane) (v : Nat) : Run :=
  let p := r.partOf wid
  let fs := (r.waves.filter (fun e => r.partOf e.1 = p)).flatMap (fun e => e.2.pend.flatMap (fun q => q.updates z.pa))
  let r := { r with waves := r.waves.mapAll (fun n w => if r.partOf n = p then { w with pend := w.pend.filter (fun q => q.updates z.pa = []) } else w) }
  writeOne r p wid z.pa z.va (leBytes (fs.foldl (fun v f => objWord f v) v) 8)

/-- A result arrives, or another device's answer for the remote lanes `m` of one (R129): what is complete is full. Replies of atomics
are acknowledged (R287). A firmware reply also sets its part going (R539). -/
def resultArrive (y : Sys) (r : Run) (wid k : Nat) (m : Lanes) (x : List Row) : Run :=
  match (r.wave wid).pend.find? (fun p => p.id = k) with
  | none => r
  | some p =>
    let ls := p.among m
    if p.far ≠ [] ∧ ls = [] then r else
    match p.kind, ls with
    | .object _ _, z :: _ => objectArrive r wid z (let row := x.getD 0 []; (rowAt row 1 ++ rowAt row 0).toNat)
    | _, _ =>
    let s := p.split m
    let r := r.onWave wid (fun w => ((w.arrive p (farMask ls) x).fill s.1).setPend k s.2)
    let r := match p.kind with | .atomic _ => releaseOut r ls | _ => r
    if p.regs.contains ⟨false, 120, 0xFFFFFFFF#32⟩ && (r.wave wid).inFwcall.isSome then fwReply y r wid else r

def execResultArrival (w k : Nat) (m : Lanes) (x : List Row) (s : State) : Host.Outcome State Fault Refusal :=
  event s (fun y r => if (r.wave w).pend.any (fun p => p.id = k && r.clk < p.after) then r else resultArrive y r w k m x)

/-! ## Acknowledgements and timeouts (R312, R313, R508) -/

/-- An acknowledgement, or a timeout or refusal, of the oldest write to a host address; a control message leaves its flow's window
(R314). The mark of a lost write stays with the wave through a halt (R308). -/
def writeAck (r : Run) (wid addr : Nat) (f : Option FarFault) : Run :=
  let w := r.wave wid
  match w.remote.find? (fun e => e.pa = addr) with
  | none => r
  | some e =>
    let r := match e.msg with
      | some (n, q) => r.onPart (r.partOf wid) (fun p =>
          { p with flows := p.flows.upd n (fun x => { x with unacked := x.unacked.filter (fun u => u.1 ≠ q) }) })
      | none => r
    r.onWave wid (fun w => { w with
      acks := w.acks - 1
      remote := w.remote.erase e
      marked := match f with
        | some f => if w.life = .ended then w.marked else some (FarFault.sub f, e.va, e.priv)
        | none => w.marked })

/-- A message of a group's collective control is acknowledged: `addr` is its partition times 2^40 with its sequence number (log entry
105). -/
def flowAck (r : Run) (flow addr : Nat) : Run :=
  r.onPart (addr / 2 ^ 40) (fun p => { p with flows := p.flows.upd flow (fun x => { x with unacked := x.unacked.filter (fun u => u.1 ≠ addr % 2 ^ 40) }) })

/-- WRITE_ACKNOWLEDGEMENT, of a write of a wave or of a message on a flow of the engine, which stands beyond the waves' numbers. -/
def execWriteAcknowledgement (w addr : Nat) (refused : Option FarFault) (s : State) : Host.Outcome State Fault Refusal :=
  event s (fun _ r => if w < 65536 then writeAck r w addr refused else flowAck r w addr)

/-- The update of a completion object that did not get its value: it is lost, as a write is (R313, R505). -/
def objectLost (r : Run) (wid : Nat) (p : Pend) (sub : Nat) : Run :=
  r.onWave wid (fun w => { w with
    pend := w.pend.filter (fun q => q.id ≠ p.id)
    marked := if w.life = .ended then w.marked else (p.far.head?.map (fun x => (sub, x.va, x.priv))).orElse (fun _ => w.marked) })

/-- FABRIC_TIMEOUT: the remote lanes `m` of the load with that pending number, or the write to that address. -/
def fabricTimeout (y : Sys) (r : Run) (wid k : Nat) (m : Lanes) (f : FarFault) : Run :=
  match (r.wave wid).pend.find? (fun p => p.id = k) with
  | some p => (match p.kind with
    | .load _ => farLost y r wid p m (FarFault.sub f) false
    | .object _ _ => objectLost r wid p (FarFault.sub f)
    | _ => r)
  | none => writeAck r wid k (some f)

def execFabricTimeout (w k : Nat) (m : Lanes) (f : FarFault) (s : State) : Host.Outcome State Fault Refusal :=
  event s (fun y r => fabricTimeout y r w k m f)

/-- WALK_COMPLETE: a walker is free again (R240). -/
def execWalkComplete (die : Nat) (s : State) : Host.Outcome State Fault Refusal :=
  event s (fun _ r => r.onDie die (fun d => { d with walks := d.walks - 1 }))

/-! ## Late traps (R189, R288, R496) -/

/-- LATE_TRAP_DELIVERY: the oldest pending one, before the next instruction (R496), in whatever state the wave is (log entry 6). The report
of a ticket's timeout frees its slot (R414). -/
def lateDeliver (y : Sys) (r : Run) (wid : Nat) : Run :=
  match (r.wave wid).late with
  | [] => r
  | t :: rest =>
    if (r.boundary wid).isNone then r
    else
      let report (w : Wave) : Wave := match w.active with
        | some one => if t.cls = 10 ∧ t.sub = 2 then { w.reported one with late := rest } else { w with late := rest }
        | none => { w with late := rest }
      boundaryTrap y (r.onWave wid report) wid (fun _ => t.trap)

def execLateTrapDelivery (w : Nat) (s : State) : Host.Outcome State Fault Refusal := event s (fun y r => lateDeliver y r w)

/-! ## Repaired and declined translations (R201, R245, R271, R335, R338) -/

def Park.isFault : Park → Bool | .fault _ _ _ _ => true | _ => false

/-- FAULT_REPAIRED: the parts of the fault restart at their region PCs; a stream issues its instruction afresh, and one
that system software answers for restarts at EPC. -/
def faultRepair (r : Run) (wid lane : Nat) : Run :=
  let w := r.wave wid
  let r := if w.stream then
      r.onBlock w.blk (fun b => { b with strap := b.strap.filter (fun t => t.delivered ≠ some wid) })
    else r
  match w.parts.find? (fun p => p.mask.getLsbD lane && Park.isFault p.park) with
  | none => r
  | some p =>
    let m := w.groupOf p
    r.onWave wid (fun w => w.onParts m (fun q => { q with pc := if w.stream then q.pc else q.rpc, park := .run }))

def execFaultRepaired (w lane : Nat) (s : State) : Host.Outcome State Fault Refusal :=
  event s (fun _ r => faultRepair r w lane)

/-- A page that will not come: the part takes the MEM trap at its instruction; a copy ends; a batch has its late fault. -/
def faultDecline (y : Sys) (r : Run) (site : FaultSite) (sub : Nat) : Run :=
  match site with
  | .part wid lane =>
    let w := r.wave wid
    (match w.parts.find? (fun p => p.mask.getLsbD lane && Park.isFault p.park) with
    | some p => (match p.park with
      | .fault _ _ lanes detail =>
        let m := w.groupOf p
        trapParked y r ⟨wid, m, m, p.pc⟩ (memTrap sub lanes (if 0x12 ≤ sub && sub ≤ 0x15 then detail else 0))
      | _ => r)
    | none => r)
  | .copy core ch =>
    (match r.channel core ch with
    | [] => r
    | op :: _ =>
      if op.paused = [] then r
      else copyFail r core ch (op.failure 7 sub (op.paused.getD 0 0) (if 0x12 ≤ sub && sub ≤ 0x15 then BitVec.ofNat 64 (op.paused.getD 1 0) else 0)))
  | .eval b =>
    r.onBlock b (fun z => { z with batches := z.batches.map (fun x => x.decline sub), spill := z.spill.map (fun x => x.decline sub) })

def execFaultDeclined (site : FaultSite) (s : State) : Host.Outcome State Fault Refusal :=
  event s (fun y r => faultDecline y r site 0x12)

/-! ## Ends -/

/-- WAVE_SLOT_RELEASE (R107). -/
def slotRelease (r : Run) (wid : Nat) : Run :=
  let w := r.wave wid
  if w.life = .ended && !w.stream && w.acks = 0 && w.remote = [] && w.pend = [] then { r with waves := r.waves.del wid } else r

def execWaveSlotRelease (w : Nat) (s : State) : Host.Outcome State Fault Refusal := event s (fun _ r => slotRelease r w)

/-- Whether a block is done: no wave, no stream, no copy, no bin (R107, R276). -/
def Run.blockDone (r : Run) (b : Nat) : Bool :=
  (r.blocks.get? b).isSome && r.waves.all (fun e => e.2.blk ≠ b || (e.2.stream && e.2.life = .ended)) &&
  (r.core (b / 4)).channels.all (fun q => q.2.all (fun op => op.blk ≠ b)) &&
  (r.core (b / 4)).bins.all (fun e => e.2.blk ≠ b)

/-- What the loss of its last block does to a pair (R431, R435, R449). -/
def pairIdle (r : Run) (p : Nat) : Run :=
  if (r.blocksOn (pairLo p)).isEmpty && (r.blocksOn (pairHi p)).isEmpty then
    mapOutCluster (mapOutPair (r.onPair p (fun q => { q with th := 600, tx := 900, target := 750 })) p) (clusterOf (pairLo p))
  else r

/-- A wait at a barrier word of a block that has gone: no later block's word is the one it waits at (R231, log entry 100). -/
def Park.orphan (b : Nat) (k : Park) : Park :=
  match k with
  | .bar l ph d act => if l.blk = b then .bar ⟨endedBlock, l.addr⟩ ph d act else k
  | _ => k

def Wave.orphan (b : Nat) (w : Wave) : Wave :=
  { w with
    parts := w.parts.map (fun p => { p with park := p.park.orphan b })
    sup := w.sup.map (fun e => { e with keep := e.keep.map (fun k => (k.1.orphan b, k.2)) }) }

/-- A block leaves its core, and with it what stands of its stream. -/
def blockRemove (r : Run) (b : Nat) : Run :=
  let r := r.onAnyWave (fun _ w => w.orphan b)
  let r := { r with blocks := r.blocks.del b, waves := r.waves.del (streamId b)
                    recent := r.recent.filter (fun x => x.blk ≠ b && x.spc ≠ some b) }
  let r := accForget r (b / 4) b
  let r := r.onCore (b / 4) (fun k => { k with trackers := k.trackers.filter (fun t => t.loc.blk ≠ b) })
  pairIdle r (pairOf (b / 4))

/-- BLOCK_END. -/
def blockEnd (r : Run) (b : Nat) : Run :=
  if !r.blockDone b then r
  else (blockRemove r b).onLaunch (r.block b).launch (fun l => { l with ended := l.ended + 1 })

def execBlockEnd (b : Nat) (s : State) : Host.Outcome State Fault Refusal := event s (fun _ r => blockEnd r b)

/-! ## Requests from other devices (R312, R314, R508, R522, R526) -/

/-- The current bytes of a guest page, as far as the partition holds them: a share can end within a page (R28, R524). -/
def pageBytes (y : Sys) (r : Run) (p pa : Nat) : List Byte :=
  (List.range 8).flatMap (fun i => if y.owns p (pa + 8192 * i) then memBytes r.mem (pa + 8192 * i) 8192 else List.replicate 8192 0)

/-- Send a guest page of a context that migrates (R531, R535). -/
def sendPage (y : Sys) (cid : Nat) (r : Run) (g : Nat) : Run :=
  match walk2 r.mem (g * 65536) false levels (r.ctx cid).hostRoot with
  | .error _ => r
  | .ok f =>
    let pa := f.addr + g * 65536 % f.size
    if y.owns (r.ctx cid).part pa then r.toPeer cid g (.page (g * 65536) (pageBytes y r (r.ctx cid).part pa)) else r

/-- Whether a context's pages are still kept for the destination of its migration. -/
def Ctx.kept (c : Ctx) (p : Nat) : Bool := c.part = p && (c.mig = .blackout || c.mig = .moved)

/-- A write from outside: performed, or refused. -/
def outerWrite (y : Sys) (r : Run) (p pa : Nat) (bs : List Byte) : Option FarFault × Run :=
  match fabricBad y r p pa bs.length with
  | some f => (some f, r)
  | none => (none, storeBytes r pa bs)

/-- A message's effect, with the refusal or acknowledgement by the port it came in at. -/
def answerAt (cls port : Nat) (x : Option FarFault × Run) : Run :=
  x.2.transmit port { cls := cls, port := port } (match x.1 with | some f => .refusal f | none => .ack 0)

/-- A load or a write of another device that has come in at a port: performed or refused, and answered there; and what the destination of a
migration asks (R535). Atomics come with their tags (R287), and collective control by its flows (R314). -/
def remoteData (y : Sys) (r : Run) (port : Nat) (q : RemoteReq) : Run :=
  let p := y.partOf (port / 36)
  match q with
  | .load pa n =>
    r.transmit port { cls := 0, port := port } (if 2 ^ 40 < pa + n ∨ !y.ownsAll p pa n then .refusal .nomap else .data (memBytes r.mem pa n))
  | .store pa bs => answerAt 0 port (outerWrite y r p pa bs)
  | .red _ => r
  | .descriptor .. => r
  | .reform .. => r
  | .abort .. => r
  | .pull cid gpa => if (r.ctx cid).kept p then sendPage y cid r (gpa / 65536) else r
  | .confirm cid => if (r.ctx cid).kept p then r.onCtx cid (fun c => { c with mig := .gone }) else r

/-- The address a request reaches; a message of collective control ends at the die of its port. -/
def RemoteReq.target (port : Nat) (q : RemoteReq) : Nat :=
  match q with | .load a _ => a | .store a _ => a | .red a => a.addr | _ => port / 36 * 2 ^ 38

/-- REMOTE_DATA_REQUEST: a flit that would cross a closed boundary is discarded and counted; else it is performed, or held
during a blackout. -/
def execRemoteDataRequest (port : Nat) (q : RemoteReq) (s : State) : Host.Outcome State Fault Refusal :=
  inbound port (RemoteReq.target port q) s (fun y r =>
    r.holdOr (y.partOf (port / 36)) (fun _ => true) (.remoteDataRequest port q) (fun r => remoteData y r port q))

end Sys2Proof.Machine
end

