-- ==== Sys2Proof/Machine/Queue.lean ====
section
/-! DEFINITION. Queues and command records (R456 to R462), launch records (R463, R464), the placing of neighbourhoods (R465,
R466), and the ends of commands and launches (R459, R467). -/

namespace Sys2Proof.Machine

/-! ## What the Inn reaches (R537) -/

inductive Reach where
  | ok (pa : Nat)
  | bad
  | wait
  deriving DecidableEq, Repr

/-- An address field of a record, bounded to the partition's memory and the tenant's stage-2 map. -/
def reachOf (y : Sys) (r : Run) (cid va : Nat) (wr : Bool) : Reach :=
  if 2 ^ 52 ≤ va then .bad else
  match walkBoth y r cid va { write := wr, priv := true } with
  | .ok (_, _, _, pa) => if y.owns (r.ctx cid).part pa then .ok pa else .bad
  | .error e => if e.replay then .wait else .bad

/-- The context of a tenant in a partition. -/
def Run.ctxFor (r : Run) (part tenant : Nat) : Option Nat :=
  (r.ctxs.find? (fun e => e.2.part = part && e.2.tenant = tenant)).map (·.1)
def Run.ctxOfQueue (r : Run) (q : Nat) : Option Nat := r.ctxFor (r.queue q).part (r.queue q).tenant
/-- The context whose records of a queue may run here: one in or past its blackout runs none (R532, R533). -/
def Run.ctxRunning (r : Run) (q : Nat) : Option Nat :=
  (r.ctxOfQueue q).filter (fun c => (r.ctx c).mig ≠ .blackout && (r.ctx c).mig ≠ .moved)

/-! ## Completion (R459) -/

def Cmd.hdr (c : Cmd) : Word64 := c.words.getD 0 0
def Cmd.ty (c : Cmd) : Nat := bits c.hdr 0 8
def Cmd.fence (c : Cmd) : Bool := c.hdr.getLsbD 8
def Cmd.addr (c : Cmd) : Nat := (c.words.getD 1 0).toNat
def Cmd.doneAt (c : Cmd) : Nat := (c.words.getD 2 0).toNat
def Cmd.arg (c : Cmd) (i : Nat) : Word64 := c.words.getD (3 + i) 0

/-- Whether the page of a command's completion word is still to come. -/
def Cmd.doneWaits (c : Cmd) (y : Sys) (r : Run) (cid : Nat) : Bool :=
  c.doneAt ≠ 0 && c.doneAt % 8 = 0 && reachOf y r cid c.doneAt true = .wait

/-- A command completes: its word is written, where its address is a multiple of 8, and it leaves the queue's list. While the word's page
is to come it stays there, complete (log entry 64). -/
def cmdComplete (y : Sys) (r : Run) (q : Nat) (c : Cmd) (status : Nat) : Run :=
  let gone := r.onQueue q (fun x => { x with cmds := x.cmds.filter (fun d => d.k ≠ c.k) })
  if c.doneAt = 0 ∨ c.doneAt % 8 ≠ 0 then gone else
  match r.ctxOfQueue q with
  | none => gone
  | some cid =>
    match reachOf y r cid c.doneAt true with
    | .ok pa => storeBytes gone pa (leBytes (status + 256) 8)
    | .bad => gone
    | .wait => r.onQueue q (fun x => { x with cmds := x.cmds.map (fun d => if d.k = c.k then { d with st := .complete status } else d) })

/-- A queue stops for BADFIELD; the black box notes its slot (R457, R537). -/
def queueStop (r : Run) (q : Nat) : Run :=
  let x := r.queue q
  let r := r.onQueue q (fun x => { x with stopped := true })
  (storeBytes r (x.qcb + 0x20) (leBytes 1 4)).event 9 x.tenant 0xFFFF x.slot x.part

def badField (y : Sys) (r : Run) (q : Nat) (c : Cmd) : Run := cmdComplete y (queueStop r q) q c 1

/-! ## Fetching (R457) -/

/-- Whether a capability lets `n` bytes at an address be read or written: a set tag, the permission, and every byte inside. -/
def Capability.allows (c : Capability) (write : Bool) (addr n : Nat) : Bool :=
  c.tag && (if write then c.write else c.read) && c.base.toNat ≤ addr && addr + n ≤ c.base.toNat + c.length.toNat

/-- What a plain write of a capability's bytes leaves: no tag. -/
def Capability.plainWrite (c : Capability) : Capability := { c with tag := false }

/-- A capability of a part of what another holds, with its tag where it lies inside. -/
def Capability.narrow (c : Capability) (addr n : Nat) : Capability :=
  { c with base := BitVec.ofNat 64 addr, length := BitVec.ofNat 48 n
           tag := c.tag && c.base.toNat ≤ addr && addr + n ≤ c.base.toNat + c.length.toNat }

/-- The capability of a ring of 2^n records of 64 bytes. -/
def ringCap (base : Word64) (logn : Nat) : Capability := { base := base, length := BitVec.ofNat 48 (64 * 2 ^ logn), read := true, tag := true }

/-- The capability the Inn reads record k of a queue through: the record's 64 bytes (R537). -/
def Queue.recordCap (x : Queue) (k : Nat) : Capability := x.ring.narrow (x.ring.base.toNat + 64 * (k % 2 ^ x.logn)) 64

/-- Where record k of a queue lies, as far as its capability and the tenant's map let the Inn read it. -/
def recordReach (y : Sys) (r : Run) (cid : Nat) (x : Queue) (k : Nat) : Reach :=
  let c := x.recordCap k
  if !c.allows false c.base.toNat 64 then .bad else reachOf y r cid c.base.toNat false

/-- The 8 words of a record. -/
def recordWords (r : Run) (pa : Nat) : List Word64 := (List.range 8).map (fun i => BitVec.ofNat 64 (memRead r.mem (pa + 8 * i) 8))

/-- Fetch records up to WPTR; one that cannot be read stops the queue, and one whose page is to come is waited for (log entry 64). -/
def fetchRecords (y : Sys) (q cid : Nat) : Nat → Run → Run
  | 0, r => r
  | n + 1, r =>
    let x := r.queue q
    match recordReach y r cid x x.rptr with
    | .bad => queueStop r q
    | .wait => r
    | .ok pa =>
      let r := r.onQueue q (fun x => { x with cmds := x.cmds ++ [{ k := x.rptr, words := recordWords r pa }], rptr := x.rptr + 1 })
      fetchRecords y q cid n (storeBytes r (x.qcb + 0x18) (leBytes (x.rptr + 1) 8))

/-- Whether the Inn fetches for a context (R488, R532). -/
def Ctx.fetching (c : Ctx) : Bool := bits c.preempt 4 3 = 0 && c.frozen.isNone && (c.mig = .off || c.mig = .rounds)

/-- WPTR_OBSERVE. -/
def wptrObserve (y : Sys) (r : Run) (q : Nat) : Run :=
  let x := r.queue q
  match r.ctxOfQueue q with
  | none => r
  | some cid =>
    if !x.mapped ∨ x.stopped ∨ !(r.ctx cid).fetching then r else
    let wp := memRead r.mem (x.qcb + 0x10) 8
    if wp < x.rptr ∨ x.rptr + 2 ^ x.logn < wp then queueStop r q
    else fetchRecords y q cid (wp - x.rptr) r

def execWptrObserve (q : Nat) (s : State) : Host.Outcome State Fault Refusal := event s (fun y r => wptrObserve y r q)

/-! ## Starting (R458, R459) -/

/-- The record that may start next: records start in ring order, with FENCE, and a SIGNAL, only as the oldest. -/
def Queue.startable (x : Queue) : Option Cmd :=
  match x.cmds.find? (fun c => c.st = .fetched) with
  | none => none
  | some c => if (c.fence || c.ty = 4) && (x.cmds.head?.map (·.k)) ≠ some c.k then none else some c

/-- A record whose fields R458 does not allow. -/
def Cmd.malformed (c : Cmd) : Bool :=
  let zero (i : Nat) : Bool := (List.range 5).all (fun j => j < i || c.arg j = 0)
  bits c.hdr 16 16 ≠ 0 || c.doneAt % 8 ≠ 0 ||
  (c.ty ≠ 1 && (bits c.hdr 9 7 ≠ 0 || bits c.hdr 32 32 ≠ 0)) ||
  match c.ty with
  | 0 => c.addr ≠ 0 || !zero 0
  | 1 => c.addr % 256 ≠ 0
  | 2 => !zero 2 || (c.arg 1).toNat % 4 ≠ 0 || 2 ^ 32 < (c.arg 1).toNat
  | 3 => !zero 1 || c.addr % 8 ≠ 0
  | 4 => !zero 1 || c.addr % 8 ≠ 0
  | _ => true

/-- Mark a record started. -/
def cmdStarted (r : Run) (q k : Nat) (l : Option Nat) : Run :=
  r.onQueue q (fun x => { x with
    last := r.clk
    cmds := x.cmds.map (fun c => if c.k = k then { c with st := .started, launch := l } else c) })

/-- Start record k of a queue, if it may start and is of a type; a malformed record completes with BADREC, a field out of
bounds with BADFIELD. -/
def cmdStart (q k ty : Nat) (go : Sys → Run → Nat → Cmd → Run) (y : Sys) (r : Run) : Run :=
  match (r.queue q).startable, r.ctxRunning q with
  | some c, some cid =>
    if c.k ≠ k ∨ (c.ty ≠ ty ∧ c.ty ≤ 4) ∨ c.doneWaits y r cid then r
    else if c.malformed then cmdComplete y (cmdStarted r q k none) q c 2
    else if c.doneAt ≠ 0 && reachOf y r cid c.doneAt true = .bad then badField y (cmdStarted r q k none) q c
    else go y r cid c
  | _, _ => r

/-- CMD_NOP. -/
def execCmdNop (q k : Nat) (s : State) : Host.Outcome State Fault Refusal :=
  event s (cmdStart q k 0 (fun y r _ c => cmdComplete y (cmdStarted r q k none) q c 0))

/-- How the Inn reaches the two ranges of a COPY command, page by page. -/
def copyReach (y : Sys) (r : Run) (cid : Nat) (c : Cmd) : List Reach :=
  let n := (c.arg 1).toNat
  (piecesOf c.addr n).map (fun a => reachOf y r cid a true) ++ (piecesOf (c.arg 0).toNat n).map (fun a => reachOf y r cid a false)

/-- COPY: its bytes move until COPY_COMMAND_COMPLETE; one of which any byte is out of bounds moves none (R537). -/
def copyStartCmd (q k : Nat) (y : Sys) (r : Run) (cid : Nat) (c : Cmd) : Run :=
  if (copyReach y r cid c).contains .bad then badField y (cmdStarted r q k none) q c else cmdStarted r q k none

def execCopy (q k : Nat) (s : State) : Host.Outcome State Fault Refusal := event s (cmdStart q k 2 (copyStartCmd q k))

/-- Mark the page of a virtual address that a COPY command writes (R530). -/
def markVa (y : Sys) (r : Run) (cid va : Nat) : Run :=
  match walkBoth y r cid va { write := true, priv := true } with
  | .ok (_, _, gpa, _) => markGuest r cid gpa
  | .error _ => r

/-- Move bytes one by one between ranges that are in bounds. -/
def moveBytes (y : Sys) (cid dst src : Nat) : Nat → Run → Run
  | 0, r => r
  | n + 1, r =>
    match reachOf y r cid src false, reachOf y r cid dst true with
    | .ok a, .ok b => moveBytes y cid (dst + 1) (src + 1) n (storeBytes (markVa y r cid dst) b [memGet r.mem a])
    | _, _ => moveBytes y cid (dst + 1) (src + 1) n r

/-- The record of a queue that has started. -/
def Queue.started (x : Queue) (k ty : Nat) : Option Cmd := x.cmds.find? (fun c => c.k = k && c.ty = ty && c.st = .started)

/-- Whether a page of a COPY command is still to come. -/
def copyWaits (y : Sys) (r : Run) (cid : Nat) (c : Cmd) : Bool := (copyReach y r cid c).contains .wait

/-- COPY_COMMAND_COMPLETE. -/
def copyDone (y : Sys) (r : Run) (q k : Nat) : Run :=
  match (r.queue q).started k 2, r.ctxRunning q with
  | some c, some cid =>
    if (copyReach y r cid c).contains .bad then badField y r q c
    else if copyWaits y r cid c then r
    else cmdComplete y (moveBytes y cid c.addr (c.arg 0).toNat (c.arg 1).toNat r) q c 0
  | _, _ => r

def execCopyCommandComplete (q k : Nat) (s : State) : Host.Outcome State Fault Refusal := event s (fun y r => copyDone y r q k)

/-- WAIT. -/
def execWait (q k : Nat) (s : State) : Host.Outcome State Fault Refusal :=
  event s (cmdStart q k 3 (fun y r cid c =>
    if reachOf y r cid c.addr false = .bad then badField y (cmdStarted r q k none) q c else cmdStarted r q k none))

/-- Whether the word of a WAIT has reached its value. -/
def waitMet (y : Sys) (r : Run) (cid : Nat) (c : Cmd) : Bool :=
  match reachOf y r cid c.addr false with
  | .ok pa => (c.arg 0).toNat ≤ memRead r.mem pa 8
  | _ => false

/-- A record that is complete but for its completion word, with its status. -/
def Queue.pendingWord (x : Queue) (k : Nat) : Option (Cmd × Nat) :=
  x.cmds.findSome? (fun c => match c.st with | .complete st => if c.k = k then some (c, st) else none | _ => none)

/-- WAIT_SATISFIED: the word of a WAIT has its value, or the page of a record's completion word has come. -/
def waitDone (y : Sys) (r : Run) (q k : Nat) : Run :=
  match (r.queue q).pendingWord k with
  | some (c, st) => cmdComplete y r q c st
  | none =>
    match (r.queue q).started k 3, r.ctxRunning q with
    | some c, some cid => if waitMet y r cid c then cmdComplete y r q c 0 else r
    | _, _ => r

def execWaitSatisfied (q k : Nat) (s : State) : Host.Outcome State Fault Refusal := event s (fun y r => waitDone y r q k)

/-- SIGNAL: every earlier record has completed. -/
def execSignal (q k : Nat) (s : State) : Host.Outcome State Fault Refusal :=
  event s (cmdStart q k 4 (fun y r cid c =>
    match reachOf y r cid c.addr true with
    | .ok pa => cmdComplete y (storeBytes (cmdStarted r q k none) pa (leBytes (c.arg 0).toNat 8)) q c 0
    | .bad => badField y (cmdStarted r q k none) q c
    | .wait => r))

/-! ## Launch records (R463, R464) -/

/-- The launch record of 256 bytes. -/
def launchRecord (bs : List Byte) : LaunchRec :=
  let f (lo n : Nat) : Nat := ofLe ((bs.drop lo).take n)
  let fl := f 0x0C 4
  { base := BitVec.ofNat 64 (f 0 8), size := f 8 4, det := fl % 2 = 1, nofill := fl / 2 % 2 = 1, nb := fl / 4 % 32, prio := fl / 128 % 16
    w := f 0x10 1, h := f 0x11 1, grid := f 0x14 4, extend := f 0x18 4
    roles := (List.range (min 4 (f 0x1C 4))).map (fun i => ⟨f (0x20 + 16 * i) 4, f (0x24 + 16 * i) 2, f (0x26 + 16 * i) 2⟩)
    tile := if f 0x60 4 = 0xFFFFFFFF then none else some (f 0x60 4)
    variants := (List.range (min 4 (f 0x64 4))).map (fun i => (f (0x68 + 16 * i) 8, f (0x70 + 16 * i) 4))
    scratch := (List.range 4).map (fun i => (f (0xA8 + 8 * i) 4, f (0xAC + 8 * i) 2, f (0xAE + 8 * i) 2)) }

/-- Reserved fields and counts of the record's bytes that R463 does not allow. -/
def recordReserved (bs : List Byte) : Bool :=
  let f (lo n : Nat) : Nat := ofLe ((bs.drop lo).take n)
  f 0x0C 4 / 2 ^ 11 ≠ 0 || f 0x12 2 ≠ 0 || f 0x1C 4 = 0 || 4 < f 0x1C 4 || 4 < f 0x64 4 || f 0xC8 56 ≠ 0 ||
  (List.range 4).any (fun i => f (0x28 + 16 * i) 8 ≠ 0 || f (0x74 + 16 * i) 4 ≠ 0)

/-- Waves of a block, and its vector registers (R120). -/
def LaunchRec.waves (l : LaunchRec) : Nat := l.roles.foldl (fun n x => n + x.waves) 0
def LaunchRec.regs (l : LaunchRec) : Nat := l.roles.foldl (fun n x => n + x.waves * x.regs) l.extend

/-- A field outside the limits of R76, R77 and R464. -/
def LaunchRec.bad (l : LaunchRec) : Bool :=
  let off (x : Nat) : Bool := l.size ≤ x || x % 4 ≠ 0
  l.base.toNat % 4096 ≠ 0 || l.size % 4 ≠ 0 || 16 < l.nb || l.w = 0 || l.w % 2 ≠ 0 || l.h = 0 || 24 < l.w * l.h || 16 < l.w || 20 < l.h ||
  l.grid = 0 || l.extend % 8 ≠ 0 ||
  l.roles.any (fun x => off x.entry || x.regs % 8 ≠ 0 || x.regs = 0 || 256 < x.regs || x.waves = 0) ||
  l.tile.any off || l.variants.any (fun v => off v.2) ||
  !((l.variants.zip (l.variants.drop 1)).all (fun e => e.1.1 < e.2.1)) ||
  l.scratch.any (fun s => !(s.2.1 = 0 && s.2.2 = 0) &&
    (s.2.1 = 0 || s.2.2 = 0 || 4096 < s.2.1 || 256 < s.2.2 || s.1 < 4 * s.2.1 * s.2.2 || (s.1 - 4 * s.2.1 * s.2.2) % 64 ≠ 0))

/-- A block that no core can hold (R464). -/
def LaunchRec.need (l : LaunchRec) : Bool := 2048 < l.regs || 128 < granules l.scratch || 24 < l.waves

/-- LAUNCH. -/
def launchStart (q k : Nat) (y : Sys) (r : Run) (cid : Nat) (c : Cmd) : Run :=
  match reachOf y r cid c.addr false with
  | .wait => r
  | .bad => badField y (cmdStarted r q k none) q c
  | .ok pa =>
    let bs := memBytes r.mem pa 256
    let l := launchRecord bs
    if recordReserved bs || l.bad then cmdComplete y (cmdStarted r q k none) q c 2
    else if l.need then cmdComplete y (cmdStarted r q k none) q c 3
    else
      let grid := if bits c.hdr 32 32 = 0 then l.grid else bits c.hdr 32 32
      let n := Tbl.free r.launches 0
      let x : Launch := { info := { l with grid := grid, det := if c.hdr.getLsbD 9 then c.hdr.getLsbD 10 else l.det }
                          ctx := cid, queue := some (q, k)
                          cls := if c.hdr.getLsbD 11 then bits c.hdr 12 4 else (r.queue q).cls
                          args := (List.range 5).map c.arg }
      cmdStarted { r with launches := r.launches.put n x } q k (some n)

def execLaunch (q k : Nat) (s : State) : Host.Outcome State Fault Refusal := event s (cmdStart q k 1 (launchStart q k))

/-- LAUNCH_COMPLETE (R467). -/
def Run.launchOver (r : Run) (l : Nat) : Bool :=
  match r.launches.get? l with
  | none => false
  | some x => x.info.grid ≤ x.next && x.info.grid * (x.info.w * x.info.h) ≤ x.ended && r.blocks.all (fun e => e.2.launch ≠ l) &&
      r.ctxs.all (fun c => c.2.saved.all (fun n => n.launch ≠ l))

/-- A launch is forgotten: its deque entries go with it. -/
def launchDrop (r : Run) (l : Nat) : Run :=
  { r with launches := r.launches.del l
           cores := r.cores.mapAll (fun _ k => { k with deque := k.deque.filter (fun e => e.1 ≠ l) }) }

def launchEnd (y : Sys) (r : Run) (l status : Nat) : Run :=
  let x := r.launch l
  let r := launchDrop r l
  match x.queue with
  | none => r
  | some (q, k) =>
    match (r.queue q).started k 1 with
    | some c => cmdComplete y r q c status
    | none => r

def execLaunchComplete (l : Nat) (s : State) : Host.Outcome State Fault Refusal :=
  event s (fun y r => if r.launchOver l then launchEnd y r l 0 else r)

/-! ## Queue slots (R460, R461) -/

/-- Slots of a class's minimum in use: by its own queues, and on loan. -/
def Run.inMin (r : Run) (p c : Nat) : Nat :=
  (r.queues.filter (fun e => e.2.part = p && e.2.mapped && ((e.2.reserved && e.2.cls = c) || e.2.loan = some c))).length
def Partition.minOf (p : Partition) (c : Nat) : Nat := p.mins.getD c 0
/-- Slots above all minimums, and those in use. -/
def Partition.common (p : Partition) : Nat := p.slots - p.mins.foldl (· + ·) 0
def Run.inCommon (r : Run) (p : Nat) : Nat :=
  (r.queues.filter (fun e => e.2.part = p && e.2.mapped && !e.2.reserved && e.2.loan.isNone)).length
/-- Mapped queues of a class. -/
def Run.held (r : Run) (p c : Nat) : Nat := (r.queues.filter (fun e => e.2.part = p && e.2.mapped && e.2.cls = c)).length

/-- A mapped queue that is idle: nothing to fetch, and no record started in the last 100 µs. -/
def Run.idleQueue (r : Run) (x : Queue) : Bool := memRead r.mem (x.qcb + 0x10) 8 = x.rptr && x.last + 210000 ≤ r.clk

/-- The class to whose minimum the slot of a mapped queue belongs, if to any. -/
def Queue.ofMin (x : Queue) : Option Nat := if x.reserved then some x.cls else x.loan

/-- Unmap: the Inn rewrites the privileged fields from its shadow (R457). -/
def queueUnmap (r : Run) (q : Nat) : Run :=
  let x := r.queue q
  let r := storeBytes r x.qcb (leBytes x.ring.base.toNat 8 ++ leBytes x.logn 1 ++ leBytes x.cls 1 ++ leBytes x.tenant 2)
  r.onQueue q (fun x => { x with mapped := false, reserved := false, loan := none, waiting := true })

/-- The lowest of the 128 queue slots that no queue is in. -/
def Run.freeQueueSlot (r : Run) : Nat :=
  ((List.range 128).find? (fun i => r.queues.all (fun e => !(e.2.mapped && e.2.slot = i)))).getD 0

/-- Map a queue: the privileged fields, RPTR and QSTAT are read now. -/
def queueTake (r : Run) (q : Nat) (reserved : Bool) (loan : Option Nat) : Run :=
  let b := (r.queue q).qcb
  r.onQueue q (fun x => { x with
    mapped := true, waiting := false, reserved := reserved, loan := loan, slot := r.freeQueueSlot
    ring := ringCap (BitVec.ofNat 64 (memRead r.mem b 8)) (memRead r.mem (b + 8) 1), logn := memRead r.mem (b + 8) 1, cls := memRead r.mem (b + 9) 1
    tenant := memRead r.mem (b + 10) 2, rptr := memRead r.mem (b + 0x18) 8, stopped := memRead r.mem (b + 0x20) 4 ≠ 0 })

/-- Whether the Inn may map a queue: its tenant is not frozen (R492) nor leaving (R532). -/
def Run.mayMap (r : Run) (p tenant : Nat) : Bool :=
  match r.ctxFor p tenant with
  | some c => (r.ctx c).frozen.isNone && ((r.ctx c).mig = .off || (r.ctx c).mig = .rounds)
  | none => false

/-- Whether a queue of a class waits for a slot, with records, and may have one. -/
def Run.classWaits (r : Run) (p c : Nat) : Bool :=
  r.queues.any (fun e => e.2.part = p && e.2.waiting && !e.2.mapped && memRead r.mem (e.2.qcb + 9) 1 = c &&
    memRead r.mem (e.2.qcb + 0x10) 8 ≠ memRead r.mem (e.2.qcb + 0x18) 8 && r.mayMap p (memRead r.mem (e.2.qcb + 10) 2))

/-- QUEUE_MAP: a free slot of the class's minimum, then one above all minimums, then an idle one of another class's minimum, unless that
class has a queue waiting for it. -/
def queueMap (r : Run) (q : Nat) : Run :=
  let x := r.queue q
  let p := x.part
  let c := memRead r.mem (x.qcb + 9) 1
  if (r.queues.get? q).isNone ∨ x.mapped ∨ !x.waiting ∨ !r.mayMap p (memRead r.mem (x.qcb + 10) 2) then r
  else if r.inMin p c < (r.part p).minOf c then queueTake r q true none
  else if r.inCommon p < (r.part p).common then queueTake r q false none
  else
    let lends (d : Nat) : Bool := d ≠ c && !r.classWaits p d
    match (List.range 16).find? (fun d => lends d && r.inMin p d < (r.part p).minOf d) with
    | some d => queueTake r q false (some d)
    | none =>
      match r.queues.find? (fun e => e.2.part = p && e.2.mapped && e.2.ofMin.any lends && r.idleQueue e.2) with
      | some e => queueTake (queueUnmap r e.1) q false e.2.ofMin
      | none => r

def execQueueMap (q : Nat) (s : State) : Host.Outcome State Fault Refusal := event s (fun _ r => queueMap r q)

/-- Whether the Inn reclaims a queue's slot (R461). -/
def Run.reclaims (r : Run) (q : Nat) : Bool :=
  let x := r.queue q
  match x.loan with
  | none => false
  | some c => x.mapped && r.held x.part c < (r.part x.part).minOf c && r.classWaits x.part c

/-- QUEUE_UNMAP_FORCED. -/
def execQueueUnmapForced (q : Nat) (s : State) : Host.Outcome State Fault Refusal :=
  event s (fun _ r => if r.reclaims q then queueUnmap r q else r)

/-! ## Placing (R462, R465, R466) -/

/-- What a core has left: blocks, wave slots, vector registers, granules. -/
def Run.blocksHeld (r : Run) (c : Nat) : Nat := (r.blocksOn c).length
def Run.slotsUsed (r : Run) (c : Nat) : Nat := (r.waves.filter (fun e => !e.2.stream && coreOf e.1 = c)).length
def Run.regsUsed (r : Run) (c : Nat) : Nat := (r.blocksOn c).foldl (fun n e => n + (r.launch e.2.launch).info.regs) 0
def Run.granulesUsed (r : Run) (c : Nat) : Nat := (r.blocksOn c).foldl (fun n e => n + granules (r.launch e.2.launch).info.scratch) 0

/-- Whether a core takes one block of a launch that needs some wave slots. -/
def Run.coreFits (r : Run) (l : LaunchRec) (waves c : Nat) : Bool :=
  !r.outPairs.contains (pairOf c) && !r.sick.contains (clusterOf c) && !(r.pair (pairOf c)).derated && r.blocksHeld c < 4 &&
  r.slotsUsed c + waves ≤ 24 && r.regsUsed c + l.regs ≤ 2048 && r.granulesUsed c + granules l.scratch ≤ 128

/-- The cores of the W × H rectangle at an origin, in the order of %BLOCK. -/
def rectangle (die x0 y0 w h : Nat) : List Nat := (List.range (w * h)).map (fun i => coreAt die (x0 + i % w) (y0 + i / w))

/-- The first rectangle of a die that takes a neighbourhood; `waves i` is what block i needs of wave slots. -/
def Run.findRect (r : Run) (l : LaunchRec) (waves : Nat → Nat) (die : Nat) : Option (List Nat) :=
  ((List.range (21 - l.h)).flatMap (fun y0 => (List.range ((18 - l.w) / 2)).map (fun i => rectangle die (2 * i) y0 l.w l.h))).find?
    (fun cs => ((List.range cs.length).zip cs).all (fun e => r.coreFits l (waves e.1) e.2))

/-- The rectangle a neighbourhood n takes: its dies are asked in turn from die n mod d on. -/
def Run.offer (r : Run) (y : Sys) (l : LaunchRec) (part n : Nat) (waves : Nat → Nat) : Option (Nat × List Nat) :=
  let ds := y.diesOf part
  (List.range ds.length).findSome? (fun i =>
    let d := ds.getD ((n + i) % ds.length) 0
    (r.findRect l waves d).map (fun cs => (d, cs)))

/-- The first cycle of the next pair window (R432). -/
def Run.nextWindow (r : Run) : Nat := (r.clk / 256 + 1) * 256

/-- The lowest free block position of a core. -/
def Run.freePos (r : Run) (c : Nat) : Nat := ((List.range 4).find? (fun i => (r.blocks.get? (c * 4 + i)).isNone)).getD 0

/-- The roles of a block's waves in the order of %WAVE. -/
def LaunchRec.roleList (l : LaunchRec) : List (Nat × Role) :=
  ((List.range l.roles.length).zip l.roles).flatMap (fun e => List.replicate e.2.waves e)

/-- A wave as it starts (R119, R466, R527). -/
def startWave (r : Run) (l : Launch) (b i : Nat) (role : Nat × Role) : Wave :=
  let pc := l.info.base + BitVec.ofNat 64 role.2.entry
  let w : Wave := { blk := b, index := i, stage := role.1, placed := role.2.regs, valloc := role.2.regs
                    parts := startParts 0xFFFFFFFF#32 pc, utrap := (r.ctx l.ctx).utrapbase &&& 0xFFFFF000#64, stall := r.nextWindow }
  (List.range 5).foldl (fun w j => w.setS j (l.args.getD j 0)) w

/-- A tile stream as it starts (R341). -/
def startStream (r : Run) (l : Launch) (b entry : Nat) : Wave :=
  let pc := l.info.base + BitVec.ofNat 64 entry
  { stream := true, blk := b, stall := r.nextWindow
    parts := [{ uid := 0, slice := 0, frag := none, mask := 1, pc := pc, rpc := pc }] }

/-- Put waves in the free slots of a core, lowest first. -/
def putWaves (core : Nat) : List Wave → Run → Run
  | [], r => r
  | w :: t, r =>
    match r.freeSlot core with
    | some s => putWaves core t (r.setWave (core * 24 + s) w)
    | none => r

/-- The wave of index 0 of a block (R426). -/
def Run.firstWave (r : Run) (b : Nat) : Nat :=
  ((r.wavesOf b).find? (fun e => e.2.index = 0)).map (·.1) |>.getD 0

/-- %BALCTL.AUTO of a core after a placement (R438), and the pair's window. -/
def setBalance (r : Run) (core : Nat) : Run :=
  let fill := (r.blocksOn core).all (fun e => !(r.launch e.2.launch).info.nofill)
  (r.onCore core (fun k => { k with balctl := setBits k.balctl 0 1 (if fill then 1 else 0) })).onPair (pairOf core)
    (fun p => { p with win := r.clk / 256 })

/-- Place one block of a neighbourhood. -/
def placeBlock (l n index core : Nat) (r : Run) : Run :=
  let x := r.launch l
  let b := core * 4 + r.freePos core
  let blk : Block := { launch := l, ctx := x.ctx, nbh := n, index := index, nextWave := x.info.waves
                       size := 3968 * granules x.info.scratch, poolFree := x.info.extend, nb := List.replicate x.info.nb {}
                       hasStream := x.info.tile.isSome }
  let r := { r with blocks := r.blocks.put b blk }
  let rl := x.info.roleList
  let r := putWaves core (((List.range rl.length).zip rl).map (fun e => startWave r x b e.1 e.2)) r
  let r := match x.info.tile with
    | some e => r.setWave (streamId b) (startStream r x b e)
    | none => r
  setBalance (r.onBlock b (fun z => { z with cur := r.firstWave b })) core

/-- Place neighbourhood n of a launch on a rectangle. -/
def placeNbh (r : Run) (l n : Nat) (cs : List Nat) : Run :=
  let r := ((List.range cs.length).zip cs).foldl (fun r e => placeBlock l n e.1 e.2 r) r
  r.onLaunch l (fun x => { x with next := x.next + 1 })

/-- Launches with a neighbourhood that waits, of running contexts. -/
def Run.waitingLaunches (r : Run) (part : Nat) : List (Nat × Launch) :=
  r.launches.filter (fun e => e.2.next < e.2.info.grid && (r.ctx e.2.ctx).part = part && (r.ctx e.2.ctx).running &&
    bits (r.ctx e.2.ctx).preempt 4 3 = 0 && (r.ctx e.2.ctx).frozen.isNone && (r.ctx e.2.ctx).saved = [])

/-- The order of service: class descending, within a class round-robin over queue slots from the one served last, then by record. -/
def serveKey (r : Run) (served : SMap Nat) (l : Launch) : List Nat :=
  let q := l.queue.getD (0, 0)
  [15 - l.cls, ((r.queue q.1).slot + 128 - (SMap.get 127 served l.cls + 1) % 128) % 128, q.1, q.2]

def insertLaunch (key : Launch → List Nat) (x : Nat × Launch) : List (Nat × Launch) → List (Nat × Launch)
  | [] => [x]
  | y :: t => if keyLe (key x.2) (key y.2) then x :: y :: t else y :: insertLaunch key x t

/-- The neighbourhood a die's dispatch unit places next, with its rectangle. -/
def Run.nextPlace (r : Run) (y : Sys) (die : Nat) : Option (Nat × List Nat) :=
  let p := y.partOf die
  ((r.waitingLaunches p).foldl (fun acc e => insertLaunch (serveKey r (r.die die).served) e acc) []).findSome? (fun e =>
    match r.offer y e.2.info p e.2.next (fun _ => e.2.info.waves) with
    | some (d, cs) => if d = die then some (e.1, cs) else none
    | none => none)

/-- NEIGHBOURHOOD_PLACE: no die runs work while the partition map is not in force (R524). -/
def neighbourhoodPlace (y : Sys) (r : Run) (die : Nat) : Run :=
  if !y.valid then r else
  match r.nextPlace y die with
  | none => r
  | some (l, cs) =>
    let x := r.launch l
    (placeNbh r l x.next cs).onDie die (fun d => { d with served := d.served.set 127 x.cls (r.queue (x.queue.getD (0, 0)).1).slot })

def execNeighbourhoodPlace (die : Nat) (s : State) : Host.Outcome State Fault Refusal :=
  event s (fun y r => neighbourhoodPlace y r die)

end Sys2Proof.Machine
end

