-- ==== Sys2Proof/Machine/Capture.lean ====
section
/-! DEFINITION. What a save and a capture record, as plain data and as bytes (R490, R494, R495, R499 to R501). -/

namespace Sys2Proof.Machine

/-! ## A block with all that belongs to it -/

/-- A deadline as what remains of it. -/
def Park.left (clk : Nat) (k : Park) : Park :=
  match k with
  | .mwait t d => .mwait (t.map (· - clk)) d
  | .pwrwait b t d => .pwrwait b (t.map (· - clk)) d
  | k => k

/-- How the save treats a wait (R495): what is saved as not issued, a burn that is over, and deadlines as what remains. -/
def Part.saved (p : Part) (clk : Nat) : Part :=
  match p.park with
  | .burn _ _ => { p with pc := p.pc + 12, park := .run }
  | .fault _ _ _ _ => { p with pc := p.rpc, park := .run }
  | .racq _ | .cacq _ | .pair _ _ | .steal _ _ _ _ | .contBin _ => { p with park := .run }
  | .retry (.ticket _ _) | .retry (.token _) | .retry (.regs _) => { p with park := .run }
  | k => { p with park := k.left clk }

/-- The quota that the CONTs parked for a bin give back, each group its own (R484). -/
def Wave.contQuota (w : Wave) : Nat :=
  ((w.parts.filterMap (fun (p : Part) => match p.park with | .contBin acc => some (w.groupOf p, acc) | _ => none)).dedup).foldl
    (fun n e => n + e.2.count) 0

/-- The D of a TXWAIT or a PAIR that is saved as not issued (R424, R447). -/
def Wave.txD (w : Wave) : List RegRef :=
  w.parts.filterMap (fun p => match p.park with | .retry (.ticket _ d) => some ⟨false, d, 0xFFFFFFFF#32⟩ | .pair _ d => some ⟨false, d.toNat, 0xFFFFFFFF#32⟩ | _ => none)

/-- A stream keeps its PC where it waits for a page. Every fixed-latency result is complete (R169). -/
def Wave.saved (w : Wave) (clk : Nat) : Wave :=
  { w.fill w.txD with
    parts := w.parts.map (fun p => if w.stream && Park.isFault p.park then { p with park := .run } else p.saved clk)
    stall := 0, yielded := false, young := [], fpTill := 0 }

/-- A wave as a capture takes it: as it stands (R492), its deadlines as what remains. -/
def Wave.standing (w : Wave) (clk : Nat) : Wave := { w with parts := w.parts.map (fun p => { p with park := p.park.left clk }) }

/-- The block a holder of an accumulator belongs to, or last belonged to. -/
def Run.accBlock (r : Run) (t : AccTok) : Option Nat := (r.holderBlk t.holder).orElse (fun _ => t.last)

/-! ### Names

What a save records speaks of blocks and waves by names that outlast it, since the neighbourhoods of a context come back at
different times and in other places; `fb` and `fw` carry block and wave numbers over. -/

def BarLoc.rename (fb : Nat → Nat) (l : BarLoc) : BarLoc := ⟨fb l.blk, l.addr⟩
def Park.rename (fb : Nat → Nat) : Park → Park
  | .bar l ph d act => .bar (l.rename fb) ph d act
  | .retry (.barw l ph) => .retry (.barw (l.rename fb) ph)
  | k => k
def Wave.rename (fb : Nat → Nat) (w : Wave) : Wave :=
  { w with
    blk := fb w.blk
    parts := w.parts.map (fun p => { p with park := p.park.rename fb })
    sup := w.sup.map (fun e => { e with keep := e.keep.map (fun k => (k.1.rename fb, k.2)) }) }
def AccHolder.rename (fw fb : Nat → Nat) : AccHolder → AccHolder
  | .wave w => .wave (fw w)
  | .stream b => .stream (fb b)
  | .free => .free
def AccReq.rename (fw fb : Nat → Nat) (q : AccReq) : AccReq := { q with who := q.who.rename fw fb }
def AccTok.rename (fw fb : Nat → Nat) (t : AccTok) : AccTok :=
  { t with holder := t.holder.rename fw fb, last := t.last.map fb, queue := t.queue.map (fun q => q.rename fw fb) }
def Tracker.rename (fw fb : Nat → Nat) (t : Tracker) : Tracker := { t with loc := t.loc.rename fb, wave := fw t.wave }
def Recent.rename (fw fb : Nat → Nat) (x : Recent) : Recent :=
  { x with blk := fb x.blk, spc := x.spc.map fb, by_ := x.by_.map fw }
def CopyOp.rename (fw fb : Nat → Nat) (op : CopyOp) : CopyOp := { op with blk := fb op.blk, wave := fw op.wave }
def Block.rename (fw fb : Nat → Nat) (z : Block) : Block :=
  { z with
    cur := fw z.cur
    poolQueue := z.poolQueue.map (fun q => { q with wave := q.wave.map (fun e => (fw e.1, e.2)) })
    watch := z.watch.map (fun e => (e.1, { e.2 with blk := e.2.blk.map fb }))
    strap := z.strap.map (fun t => { t with delivered := t.delivered.map fw }) }
def SavedBlock.rename (fw fb : Nat → Nat) (s : SavedBlock) : SavedBlock :=
  { s with
    blk := s.blk.rename fw fb
    waves := s.waves.map (fun e => (e.1, e.2.rename fb))
    stream := s.stream.map (fun w => w.rename fb)
    trackers := s.trackers.map (fun t => t.rename fw fb)
    copies := s.copies.map (fun e => (e.1, e.2.rename fw fb))
    accTok := s.accTok.mapAll (fun _ t => t.rename fw fb)
    accReq := s.accReq.map (fun e => (e.1, e.2.rename fw fb))
    bins := s.bins.map (fun e => (e.1, { e.2 with blk := fb e.2.blk }))
    recent := s.recent.map (fun x => x.rename fw fb) }
def SavedNbh.rename (fw fb : Nat → Nat) (n : SavedNbh) : SavedNbh := { n with blocks := n.blocks.map (fun b => b.rename fw fb) }
def FaultRec.rename (fb : Nat → Nat) : FaultRec → FaultRec
  | .stream b bs => .stream (fb b) bs
  | x => x

/-- The same change everywhere: in what is resident, and in what the save areas hold. -/
def Run.rename (fw fb : Nat → Nat) (r : Run) : Run :=
  { r with
    waves := r.waves.mapAll (fun _ w => w.rename fb)
    blocks := r.blocks.mapAll (fun _ z => z.rename fw fb)
    cores := r.cores.mapAll (fun _ k => { k with
      trackers := k.trackers.map (fun t => t.rename fw fb)
      accTok := k.accTok.mapAll (fun _ t => t.rename fw fb) })
    ctxs := r.ctxs.mapAll (fun _ c => { c with saved := c.saved.map (fun n => n.rename fw fb) })
    recent := r.recent.map (fun x => x.rename fw fb)
    faultq := r.faultq.map (fun x => x.rename fb) }

/-- The name of a resident block or wave; a number that is none stays. -/
def Run.blockName (r : Run) (b : Nat) : Nat := ((r.blocks.get? b).map Block.name).getD b
def Run.waveName (r : Run) (n : Nat) : Nat :=
  match r.waves.get? n with
  | some w => if w.life = .ended && !w.stream then n else Wave.name (r.blockName w.blk) w
  | none => n

/-! ### The snapshot -/

/-- A batch as a forced save leaves it: stopped at a clause boundary. -/
def Batch.cut (x : Batch) : Batch := { x with demands := x.demands.map Demand.cut }

/-- The evaluation of a block as a save records it (R347). -/
def Block.evalSaved (z : Block) (forced : Bool) : Block :=
  if forced then { z with batches := z.batches.map Batch.cut, spill := z.spill.map Batch.cut } else z

/-- The requests for tokens that agents of a block have made, each with its place in the queue (R393). -/
def Run.accReqs (r : Run) (b : Nat) : List (Nat × AccReq) :=
  (r.core (b / 4)).accTok.flatMap (fun t =>
    ((t.2.queue.mapIdx (fun i q => { q with rank := some (b / 4, i) })).filter (fun q => r.holderBlk q.who = some b)).map (fun q => (t.1, q)))

/-- The copies of a block, each with its place in its channel (R277). -/
def Run.copiesOf (r : Run) (b : Nat) : List (Nat × CopyOp) :=
  (r.core (b / 4)).channels.flatMap (fun q =>
    ((q.2.mapIdx (fun i op => { op with rank := some (b / 4, i), started := false })).filter (fun op => op.blk = b)).map (fun op => (q.1, op)))

/-- Everything of a resident block. The deque of its core goes with the lowest-numbered block of it (R484). A capture shows
the waves as they stand (R492); a forced save stops the evaluation at a clause boundary. -/
def snapshotBlock (r : Run) (capture forced : Bool) (b : Nat) : SavedBlock :=
  let core := b / 4
  let k := r.core core
  let ws := (r.waves.filter (fun e => e.2.blk = b && !e.2.stream && e.2.life ≠ .ended))
  let toks := k.accTok.filter (fun t => r.accBlock t.2 = some b)
  let first := (((r.blocksOn core).filter (fun e => e.2.ctx = (r.block b).ctx)).head?.map (·.1)) = some b
  let take (w : Wave) : Wave := if capture then w.standing r.clk else w.saved r.clk
  let saved : SavedBlock :=
  { blk := (r.block b).evalSaved forced, oldBlk := b, core := core
    waves := ws.map (fun e => (slotOf e.1, take e.2))
    stream := (r.waves.get? (streamId b)).map take
    side := ws.map (fun e => (slotOf e.1, memBytes k.side (slotOf e.1 * 512) 512))
    trackers := k.trackers.filter (fun t => t.loc.blk = b)
    copies := r.copiesOf b
    acc := k.acc.filter (fun e => toks.any (fun t => t.1 = e.1 / 4096))
    accTok := toks
    accReq := r.accReqs b
    bins := (k.bins.filter (fun e => e.2.blk = b)).map (fun e => (e.1, { e.2 with since := r.clk - e.2.since }))
    deque := if first then k.deque.filter (fun e => (r.launch e.1).ctx = (r.block b).ctx) else []
    recent := r.recent.filter (fun x => x.blk = b) }
  saved.rename r.waveName r.blockName

/-- The blocks of a context, by neighbourhood. -/
def snapshot (r : Run) (cid : Nat) (capture : Bool := false) : List SavedNbh :=
  let forced : Bool := !capture && 3 ≤ (r.ctx cid).step
  let bs := r.blocks.filter (fun e => e.2.ctx = cid)
  let keys := (bs.map (fun e => (e.2.launch, e.2.nbh))).dedup
  keys.map (fun k => ⟨k.1, k.2, (bs.filter (fun e => e.2.launch = k.1 && e.2.nbh = k.2)).map (fun e => snapshotBlock r capture forced e.1)⟩)

/-- The accumulators that an agent of an ended block of a context held last (R393), with their cores: one context at a time has
blocks on the cores of a partition. -/
def Run.endedToks (y : Sys) (r : Run) (cid core : Nat) (k : Core) : Tbl AccTok :=
  if !(r.ctx cid).running || y.partOf (dieOf core) ≠ (r.ctx cid).part then []
  else k.accTok.filter (fun t => t.2.last = some endedBlock && t.2.holder = .free)

/-- What the cores hold of a context beside its blocks. -/
def coreSnapshot (y : Sys) (r : Run) (cid : Nat) : List SavedCore :=
  r.cores.filterMap (fun e =>
    let toks := r.endedToks y cid e.1 e.2
    let deque := if (r.blocksOn e.1).any (fun b => b.2.ctx = cid) then [] else e.2.deque.filter (fun x => (r.launch x.1).ctx = cid)
    if toks = [] && deque = [] then none
    else some ⟨e.1, deque, e.2.acc.filter (fun x => toks.any (fun t => t.1 = x.1 / 4096)), toks⟩)

/-! ## Sections -/

structure Section where
  ty : Nat
  slot : Nat
  core : Nat
  bytes : List Byte
  deriving DecidableEq, Repr

/-- Pack 2-bit states, four to a byte. -/
def packStates (xs : List Nat) : List Byte :=
  (List.range (xs.length / 4)).map (fun i => BitVec.ofNat 8 ((List.range 4).foldl (fun v j => v + xs.getD (4 * i + j) 0 * 4 ^ j) 0))
def stateOf (empty ind : Bool) : Nat := if empty then 1 else if ind then 2 else 0

/-- The slice part of a slice. -/
def Wave.slicePart (w : Wave) (i : Nat) : Option Part := w.parts.find? (fun p => p.frag.isNone && p.slice = i)
def Wave.sliceOf (w : Wave) (owner : Nat) : Nat :=
  if owner < 8 then owner else ((w.parts.find? (fun p => p.uid = owner)).map (·.slice)).getD 0

def descriptor (kind slice k : Nat) (m : Lanes) (pc rpc : Word64) : List Byte :=
  leBytes kind 1 ++ leBytes slice 1 ++ leBytes k 1 ++ leBytes 0 1 ++ leBytes m.toNat 4 ++ leBytes pc.toNat 8 ++ leBytes rpc.toNat 8

/-- Fragments, held groups, waiting lanes. -/
def Wave.descriptors (w : Wave) : List (List Byte) :=
  (w.parts.filter (fun p => p.frag.isSome)).map (fun p => descriptor 0 p.slice 0 p.mask p.pc p.rpc) ++
  w.held.map (fun h => descriptor 1 (w.sliceOf h.owner) 0 h.lanes h.pc h.rpc) ++
  w.waiting.flatMap (fun h => (List.range 8).filterMap (fun i =>
    let m : Lanes := h.lanes &&& sliceMask i
    if m = 0 then none else some (descriptor 2 i h.k m h.addr h.rpc)))

/-- The destination field of a pending operation. -/
def Pend.field (p : Pend) : Nat := match p.regs.head? with | some x => if x.vec then x.n else 0x200 + x.n | none => 0

def maskBits (n : Nat) (f : Nat → Bool) : Nat := (List.range n).foldl (fun v i => if f i then v + 2 ^ i else v) 0

def Wave.frameBytes (w : Wave) : List Byte :=
  match w.frame.orElse (fun _ => w.sup.head?.map (·.frame)) with
  | none => List.replicate 72 0
  | some f => leBytes f.rgn.toNat 8 ++
      (List.range 8).flatMap (fun i =>
        let x : Word64 := ((f.rpcs.find? (fun e => e.1 = i)).map (fun e => e.2)).getD 0
        leBytes x.toNat 8)

/-- The code word at an address as a context fetches it; 0 where it cannot be read. -/
def Run.codeWord (y : Sys) (r : Run) (cid : Nat) (pc : Word64) : BitVec 96 :=
  if 2 ^ 52 < pc.toNat + 12 then 0 else
  match (List.range 12).mapM (fun i => match walkBoth y r cid (pc.toNat + i) { fetch := true, priv := true } with
    | .ok (_, _, _, pa) => some (memGet r.mem pa)
    | .error _ => none) with
  | some bs => wordOfBytes bs
  | none => 0

/-- A wave section (R500). -/
def waveSection (y : Sys) (r : Run) (cid : Nat) (w : Wave) (side : List Byte) : List Byte :=
  let part (f : Part → Word64) (i : Nat) : List Byte := leBytes (((w.slicePart i).map f).getD 0).toNat 8
  let flags := maskBits 6 (fun i => match i with
    | 0 => w.reconverged
    | 1 => w.priv
    | 2 => w.inh
    | 3 => w.late ≠ []
    | 4 => w.mon.isSome
    | _ => w.inMwait.isSome)
  let waiting : Lanes := w.waiting.foldl (fun m h => m ||| h.lanes) 0
  let snap : Word64 := (w.mon.map (fun m => m.snapshot)).getD 0
  let left := match w.inMwait with | some (some t, _) => t | _ => 0
  (List.range 8).flatMap (part (·.pc)) ++ (List.range 8).flatMap (part (·.rpc)) ++ leBytes w.rgn.toNat 8 ++ leBytes w.live.toNat 4 ++
  leBytes waiting.toNat 4 ++ leBytes flags 4 ++ leBytes w.fpcr.toNat 4 ++ leBytes w.fpsr.toNat 4 ++ leBytes w.index 2 ++ leBytes w.valloc 2 ++
  leBytes w.stage 1 ++ leBytes w.descriptors.length 1 ++ leBytes w.acquired 2 ++ leBytes w.cause.toNat 4 ++ leBytes w.epc.toNat 8 ++
  leBytes w.sepc.toNat 8 ++ leBytes ((w.mon.map (fun m => m.va)).getD 0) 8 ++ leBytes snap.toNat 8 ++ leBytes left 8 ++
  packStates ((List.range 128).map (fun n => stateOf (w.sEmpty.getLsbD n) (w.sInd.getLsbD n))) ++
  (List.range 128).flatMap (fun n => leBytes (w.sReg n).toNat 8) ++ (List.range 16).flatMap (fun n => leBytes (w.pReg n).toNat 4) ++
  (List.range 16).flatMap (fun n => laneIds.flatMap (fun l => leBytes (rowAt (w.aRow n) l).toNat 4)) ++
  (List.range 8).flatMap (fun n => leBytes (w.mReg n).1.toNat 4 ++ leBytes (w.mReg n).2.toNat 4) ++ side ++
  leBytes w.pend.length 4 ++ leBytes 0 4 ++ w.frameBytes ++ leBytes w.utrap.toNat 8 ++ leBytes w.rounds 8 ++ leBytes w.txOpen.toNat 8 ++
  List.replicate 40 0 ++
  (List.range w.valloc).flatMap (fun n => laneIds.flatMap (fun l => leBytes (rowAt (w.vRow n) l).toNat 4)) ++
  (List.range w.valloc).flatMap (fun n => packStates (laneIds.map (fun l =>
    stateOf ((SMap.get 0 w.vEmpty n).getLsbD l) ((SMap.get 0 w.vInd n).getLsbD l)))) ++
  w.descriptors.flatten ++
  w.pend.flatMap (fun p => bytesOfWord (r.codeWord y cid p.pc) ++ leBytes p.mask.toNat 4 ++ leBytes p.field 2 ++ leBytes 0 6 ++ leBytes p.pc.toNat 8) ++
  w.decl.flatMap (fun t => leBytes t.lo.toNat 8 ++ leBytes t.hi.toNat 8 ++ leBytes (if t.wr then 1 else 0) 1 ++ leBytes 0 7)

/-- Fields of given widths, the first in the lowest bits. -/
def packBits : List (Nat × Nat) → Nat
  | [] => 0
  | (w, v) :: t => v % 2 ^ w + 2 ^ w * packBits t

/-- A clause's operation in 8 bits: its kind in the low 3, above it TMMA's accumulation and outliers, TEW's operation, TRED's operation and
direction, TCVT's list and saturation. -/
def COp.number : COp → Nat
  | .tload => 0
  | .tmap => 1
  | .tmma acc ol => packBits [(3, 2), (1, acc.toNat), (1, ol.toNat)]
  | .tew op _ _ => packBits [(3, 3), (4, op.code.toNat)]
  | .tred max col => packBits [(3, 4), (1, max.toNat), (1, col.toNat)]
  | .tcvt m _ => packBits [(3, 5), (1, m.fixed.toNat), (1, m.ol.toNat), (1, m.olfault.toNat), (1, m.olsp.toNat), (1, m.sat.toNat)]
  | .leaf => 6

/-- What an operation holds beside its operands: TEW's rounding and scale, TCVT's rounding and list. -/
def COp.extra : COp → List (Nat × Nat)
  | .tew _ rm s => [(3, rm.code.toNat), (32, s.toNat)]
  | .tcvt m l => [(3, m.rm.code.toNat), (64, l.toNat)]
  | _ => []

/-- An operand with its index map: a clause (accumulators count from 96 on), or an address with its steps; 2^52 stands for an address beyond
the space. -/
def srcBits (s : Src × IMap) : List (Nat × Nat) :=
  let m := s.2
  let offs : List (Nat × Nat) := [(8, m.roff), (8, m.coff), (1, m.t.toNat), (1, m.br.toNat), (1, m.bc.toNat)]
  let steps : List (Nat × Nat) := [(32, (BitVec.ofInt 32 m.rs).toNat), (32, (BitVec.ofInt 32 m.cs).toNat)]
  match s.1 with
  | .clause i => [(2, 1), (7, i)] ++ offs
  | .acc c => [(2, 1), (7, 96 + c)] ++ offs
  | .global b => [(2, 2), (53, min b.toNat (2 ^ 52))] ++ offs ++ steps
  | .scratch b => [(2, 3), (53, b.toNat)] ++ offs ++ steps

/-- A clause record, padded to 64 bytes; R320 gives its fields and their widths but no places (log entry 106). -/
def clauseBytes (b : Block) (c : Option Clause) (i : Nat) : List Byte :=
  match c with
  | none => List.replicate 64 0
  | some c =>
    let refs := (b.handles.filter (fun h => h.2 = i)).length + (b.clauses.filter (fun d => d.2.srcs.any (fun s => match s.1 with | .clause j => j = i | _ => false))).length
    let watch := maskBits 32 (fun n => ((b.watch.get? n).map (fun w => w.by_.any (fun j => j % 128 = i))).getD false)
    let home : Nat × Nat := match c.home with | none => (0, 0) | some (sp, a) => (if sp then 2 else 1, a.toNat / 32)
    leBytes (packBits ([(8, c.op.number), (9, c.rows), (9, c.cols), (4, c.ty.code.toNat), (96, c.fmt.toNat), (2, home.1), (59, home.2), (13, c.fp.toNat),
      (64, c.origin.toNat), (64, c.no), (8, refs), (32, watch)] ++ c.srcs.flatMap srcBits ++ c.op.extra)) 64

def batchByte : BatchState → Nat | .closed => 0 | .evaluated => 1 | .faulted _ => 2 | .failed _ => 3 | .paused _ _ => 4

/-- A block section: pool, clauses, handles, watch ranges, batches, numbered barriers, and the stream. -/
def blockSection (s : SavedBlock) : List Byte :=
  let b := s.blk
  let w := s.stream.getD {}
  let pc : Word64 := (w.parts.head?.map (fun p => p.pc)).getD 0
  leBytes b.poolFree 4 ++ leBytes b.poolQueue.length 4 ++ b.poolQueue.flatMap (fun q =>
    leBytes q.n 4 ++ leBytes q.bin 4 ++ leBytes ((q.wave.map (fun e => e.1 % 2 ^ 16)).getD 0xFFFF) 4 ++ leBytes q.act.toNat 4) ++
  (List.range 96).flatMap (fun i => clauseBytes b (b.clauses.get? i) i) ++
  (List.range 64).flatMap (fun i => leBytes ((b.handles.get? i).getD 0xFF) 1) ++
  (List.range 32).flatMap (fun i => match b.watch.get? i with | some w => leBytes w.lo 8 ++ leBytes w.hi 8 | none => List.replicate 16 0) ++
  leBytes b.batches.length 4 ++ (b.batches ++ b.spill.toList).flatMap (fun x => leBytes x.no 8 ++ leBytes (batchByte x.st) 1 ++ leBytes x.flags 4) ++
  (List.range 16).flatMap (fun i => let n := b.nb.getD i {}; leBytes n.exp 1 ++ leBytes n.arr 1 ++ leBytes (if n.ph then 1 else 0) 1) ++
  (List.range 64).flatMap (fun n => leBytes (w.sReg n).toNat 8) ++ (List.range 16).flatMap (fun n => leBytes (w.pReg n).toNat 4) ++
  leBytes pc.toNat 8

/-- An unfinished copy (R277): channel and place in it, kind and spaces, element size, whether it has an object and waits for a page,
its operands, its originating PC and its delivered count. -/
def copyBytes (e : Nat × CopyOp) : List Byte :=
  let op := e.2
  let obj := op.obj.getD (0, 0)
  leBytes e.1 1 ++ leBytes ((op.rank.map (·.2)).getD 0) 1 ++ leBytes op.kind 1 ++ leBytes ((if op.srcSp then 1 else 0) + if op.dstSp then 2 else 0) 1 ++
  leBytes op.elem 2 ++ leBytes (if op.obj.isSome then 1 else 0) 1 ++ leBytes (if op.paused = [] then 0 else 1) 1 ++ leBytes op.src.toNat 8 ++
  leBytes op.dst.toNat 8 ++ leBytes op.len 8 ++ leBytes op.list.toNat 8 ++ leBytes obj.1 4 ++ leBytes obj.2 4 ++ leBytes op.pc.toNat 8 ++
  leBytes op.delivered 8

def copySection (s : SavedBlock) : List Byte :=
  s.copies.flatMap copyBytes ++ (List.range 8).flatMap (fun i => leBytes (s.blk.chwp.getD i 0) 8) ++
  s.blk.chFault.flatMap (fun f => leBytes f.1 1 ++ leBytes f.2.sub 1 ++ leBytes f.2.origin.toNat 8 ++ leBytes f.2.addr.toNat 8 ++ leBytes f.2.detail.toNat 8)

def ticketBytes (slot : Nat) (t : Option TickRef) : List Byte := leBytes ((t.map (fun t => (ticketValue slot t).toNat)).getD 0) 8

def launchSection (c : Ctx) (s : SavedBlock) : List Byte :=
  s.deque.flatMap (fun e => leBytes e.2.toNat 8) ++
  (s.bins.map (·.2)).flatMap (fun b => leBytes b.role 1 ++ leBytes b.entry 4 ++ leBytes b.recs.length 1 ++
    b.recs.flatMap (fun x => x.vals.flatMap (fun v => leBytes v.toNat 4) ++ leBytes x.obj 8)) ++
  s.waves.flatMap (fun w => ticketBytes 0 w.2.slot0 ++ ticketBytes 1 w.2.slot1) ++
  c.seals.flatMap (fun e => leBytes e.1 8 ++ leBytes e.2 8) ++ leBytes c.ptbase.toNat 8 ++ leBytes c.preempt.toNat 8 ++ leBytes c.tdeleg.toNat 8

/-- The holder of a token: what it is, the index of its block, and %WAVE. -/
def holderBytes (h : AccHolder) : List Byte :=
  match h with
  | .free => leBytes 0 4
  | .stream b => leBytes 1 1 ++ leBytes (b % 64) 1 ++ leBytes 0 2
  | .wave w => leBytes 2 1 ++ leBytes (w / 2 ^ 17 % 64) 1 ++ leBytes (w % 2 ^ 16) 2

def accSection (acc : SMap Word) (t : Nat × AccTok) : List Byte :=
  (List.range 4096).flatMap (fun i => leBytes (SMap.get 0 acc (t.1 * 4096 + i)).toNat 4) ++ holderBytes t.2.holder ++
  t.2.queue.flatMap (fun q => holderBytes q.who)

/-- Sections in the order of R501: waves by core and slot. -/
def sectionsOf (y : Sys) (r : Run) (cid : Nat) (ns : List SavedNbh) (ks : List SavedCore) : List Section :=
  let bs := (ns.flatMap (fun n => n.blocks)).foldl (fun (acc : List SavedBlock) b =>
    acc.filter (fun x => x.oldBlk < b.oldBlk) ++ [b] ++ acc.filter (fun x => b.oldBlk ≤ x.oldBlk)) []
  let ws := (bs.flatMap (fun b => b.waves.map (fun w => (b, w)))).foldl (fun (acc : List (SavedBlock × Nat × Wave)) e =>
    let key (x : SavedBlock × Nat × Wave) : Nat := x.1.core * 24 + x.2.1
    acc.filter (fun x => key x ≤ key e) ++ [e] ++ acc.filter (fun x => key e < key x)) []
  ws.map (fun e => ⟨1, e.2.1, e.1.core, waveSection y r cid e.2.2
    (((e.1.side.find? (fun x => x.1 = e.2.1)).map (·.2)).getD (List.replicate 512 0))⟩) ++
  bs.map (fun b => ⟨2, 0xFF, b.core, blockSection b⟩) ++ bs.map (fun b => ⟨5, 0xFF, b.core, copySection b⟩) ++
  bs.map (fun b => ⟨6, 0xFF, b.core, launchSection (r.ctx cid) b⟩) ++
  (ks.filter (fun k => k.deque ≠ [])).map (fun k => ⟨6, 0xFF, k.core, k.deque.flatMap (fun e => leBytes e.2.toNat 8)⟩) ++
  bs.map (fun b => ⟨3, 0xFF, b.core, memBytes b.blk.scratch 0 b.blk.size⟩) ++
  bs.flatMap (fun b => b.accTok.map (fun t => ⟨4, 0xFF, b.core, accSection b.acc t⟩)) ++
  ks.flatMap (fun k => k.accTok.map (fun t => ⟨4, 0xFF, k.core, accSection k.acc t⟩))

/-! ## The image (R499, R501) -/

def up256 (n : Nat) : Nat := (n + 255) / 256 * 256

/-- The offsets of sections behind a header and a directory of all of them. -/
def offsets (n : Nat) (ss : List Section) : List Nat :=
  (ss.foldl (fun (acc : Nat × List Nat) s => let o := up256 acc.1; (o + s.bytes.length, acc.2 ++ [o])) (64 + 16 * n, [])).2

/-- The end of the last section, or of the directory. -/
def imageEnd (ss : List Section) : Nat :=
  match (offsets ss.length ss).getLast?, ss.getLast? with
  | some o, some s => o + s.bytes.length
  | _, _ => 64

/-- The longest prefix of whole sections that fits a buffer. -/
def fitting (size : Nat) (ss : List Section) : List Section :=
  (((List.range (ss.length + 1)).reverse.map (fun k => ss.take k)).find? (fun t => imageEnd t ≤ size)).getD []

def pad (bs : List Byte) (n : Nat) : List Byte := bs ++ List.replicate (n - bs.length) 0

/-- The header's words: tenant, reason, STEP, nanoseconds, and the freeze event's number. -/
structure Heading where
  tenant : Nat
  reason : Nat
  step : Nat
  ns : Nat
  seq : Nat
  deriving DecidableEq, Repr

/-- The bytes of a capture in a buffer of some size; none for a buffer smaller than the header and one entry. -/
def image (h : Heading) (size : Nat) (all : List Section) : List Byte :=
  if size < 80 then [] else
  let ss := fitting size all
  let os := offsets ss.length ss
  let head := [0x49#8, 0x43#8, 0x41#8, 0x50#8] ++ leBytes 1 2 ++ leBytes h.tenant 2 ++ leBytes h.reason 4 ++
    leBytes (h.step + if ss.length < all.length then 8 else 0) 4 ++ leBytes h.ns 8 ++ leBytes (imageEnd ss) 8 ++ leBytes ss.length 4 ++
    leBytes h.seq 4 ++ List.replicate 24 0
  let dir := (os.zip ss).flatMap (fun e => leBytes e.1 8 ++ leBytes e.2.bytes.length 4 ++ leBytes e.2.ty 1 ++ leBytes e.2.slot 1 ++ leBytes e.2.core 2)
  (os.zip ss).foldl (fun bs e => pad bs e.1 ++ e.2.bytes) (head ++ dir)

/-- Nanoseconds of the model's clock. -/
def Run.ns (r : Run) : Nat := r.clk * 10 / 21

/-- Whether the Inn can write `n` bytes through the capability of a buffer (R536) that lies in the partition's memory. -/
def ownedBuffer (y : Sys) (p : Nat) (c : Capability) (n : Nat) : Bool := c.allows true c.base.toNat n && y.ownsAll p c.base.toNat n

end Sys2Proof.Machine
end

