-- ==== Sys2Proof/Machine/Preempt.lean ====
section
/-! DEFINITION. Pre-emption (R487 to R501), the freezing of a tenant, the save and the restore, and the switch between
contexts with its scrub (R527, R528). -/

namespace Sys2Proof.Machine

/-! ## %PREEMPT -/

def Ctx.trapping (c : Ctx) : Bool := c.preempt.getLsbD 7
def Ctx.setStep (c : Ctx) (n : Nat) (done : Bool) : Ctx :=
  { c with preempt := setBits (setBits c.preempt 4 3 n) 8 1 (if done then 1 else 0) }

/-- A request above STEP moves STEP to it (R487); the times of steps 2 and 3 begin there. -/
def raiseStep (r : Run) (cid req : Nat) : Run :=
  r.onCtx cid (fun c =>
    let c := if bits c.preempt 0 3 < req then { c with preempt := setBits c.preempt 0 3 req } else c
    if req ≤ c.step then c
    else { c.setStep req false with haltAt := if c.step < 2 then r.clk else c.haltAt, saveAt := if req = 3 then r.clk else c.saveAt })

/-! ## Stopping (R488, R489, R493) -/

/-- The waves and streams of a context, ended ones with writes still due among them. -/
def Run.wavesOfCtx (r : Run) (cid : Nat) : List (Nat × Wave) := r.waves.filter (fun e => (r.block e.2.blk).ctx = cid)

/-- Whether a wave stops now: under step 2 at a boundary where it is fully reconverged and not in supervisor state; a stream, and
any wave under step 3, at its next boundary (R102, R488). -/
def Wave.stops (w : Wave) (step : Nat) : Bool :=
  w.life = .live && (w.stream || 3 ≤ step || (!w.priv && w.reconverged))

/-- Whether every part of a wave is parked: such a wave stops at once as step 2 begins, diverged or not (R489). -/
def Wave.allParked (w : Wave) : Bool := w.life = .live && !w.priv && w.parts.all (fun p => p.park ≠ .run)

/-- Stop the waves that a test picks; with TRAP = 1 a wave is to take its PREEMPT trap instead. -/
def stopWaves (r : Run) (cid : Nat) (stops : Wave → Bool) : Run :=
  let c := r.ctx cid
  { r with waves := r.waves.mapAll (fun _ w =>
      if (r.block w.blk).ctx = cid && stops w then
        if c.trapping && c.step = 2 && !w.stream then { w with preTrap := true } else { w with life := .stopped }
      else w) }

/-- Whether every wave and stream of a context is stopped and what they await has come. -/
def Run.readyToSave (r : Run) (cid : Nat) : Bool := r.quietOn cid (fun _ => true)

/-! ## The save (R490, R494, R495) -/

/-- Results of this device arrive, a firmware call is answered, a burn ends, a CONT gives its quota back. -/
def settleWave (y : Sys) (cid : Nat) (r : Run) (wid : Nat) : Run :=
  let r := ((r.wave wid).pend.map (·.id)).foldl (fun r k => resultArrive y r wid k 0xFFFFFFFF#32 []) r
  let w := r.wave wid
  let r := w.parts.foldl (fun r p => match p.park with | .burn t l => cutBurn r wid t l | _ => r) r
  r.onCtx cid (fun c => { c with quota := c.quota + w.contQuota })

/-- Remove every trace of a context from the cores, its translations and read-only lines too (R490). -/
def removeContext (y : Sys) (r : Run) (cid : Nat) : Run :=
  let bs := (r.blocks.filter (fun e => e.2.ctx = cid)).map (·.1)
  let ws := (r.waves.filter (fun e => bs.contains e.2.blk)).map (·.1)
  let onCore (c : Nat) (k : Core) : Core :=
    if y.partOf (dieOf c) ≠ (r.ctx cid).part then k else
    let toks := (k.accTok.filter (fun t => (r.accBlock t.2).any (fun b => b = endedBlock || bs.contains b))).map (·.1)
    { k with
      side := k.side.filter (fun e => !ws.contains (c * 24 + e.1 / 512))
      trackers := k.trackers.filter (fun t => !bs.contains t.loc.blk)
      channels := (k.channels.map (fun q => (q.1, q.2.filter (fun op => !bs.contains op.blk)))).filter (fun q => q.2 ≠ [])
      acc := k.acc.filter (fun e => !toks.contains (e.1 / 4096))
      accTok := k.accTok.filter (fun t => !toks.contains t.1)
      ctok := if k.ctok.any (fun w => ws.contains w) then none else k.ctok
      ctokPass := if k.ctok.any (fun w => ws.contains w) then none else k.ctokPass
      ctokWait := k.ctokWait.filter (fun w => !ws.contains w)
      deque := k.deque.filter (fun e => (r.launch e.1).ctx ≠ cid)
      bins := k.bins.filter (fun e => !bs.contains e.2.blk)
      tlb := k.tlb.filter (fun t => t.tenant ≠ (r.ctx cid).tenant)
      ro := [] }
  let pairs := (bs.map (fun b => pairOf (b / 4))).dedup
  let r := { r with waves := r.waves.filter (fun e => !bs.contains e.2.blk)
                    cores := r.cores.mapAll onCore
                    recent := r.recent.filter (fun x => !bs.contains x.blk)
                    blocks := r.blocks.filter (fun e => e.2.ctx ≠ cid) }
  pairs.foldl pairIdle r

/-- Every command of a tenant's queues that is not complete ends FROZEN, and the queues are unmapped (R492). -/
def freezeQueues (y : Sys) (r : Run) (part tenant : Nat) : Run :=
  (r.queues.filter (fun e => e.2.part = part && e.2.tenant = tenant)).foldl (fun r e =>
    let r := e.2.cmds.foldl (fun r c => match c.st with | .complete _ => r | _ => cmdComplete y r e.1 c 4) r
    if e.2.mapped then queueUnmap r e.1 else r) r

/-- Tickets of a context's waves, resident or saved, end (R492). -/
def endTickets (y : Sys) (r : Run) (cid : Nat) : Run :=
  let c := r.ctx cid
  let r := ((r.wavesOfCtx cid).map (·.1)).foldl (fun r w => dropTickets y r w) r
  let ts := (c.saved.flatMap (fun n => n.blocks)).flatMap (fun b => b.waves.flatMap (fun w => w.2.slot0.toList ++ w.2.slot1.toList))
  sendDue y (r.onPart c.part (fun x => { x with tickets := x.tickets.filter (fun k => !(ts.any (fun t => t.is k))) })) c.part

/-- The lock words that waves of a context hold are given back: nobody else would (R291, log entry 93). -/
def freeLocks (r : Run) (cid : Nat) : Run :=
  let ls := (r.wavesOfCtx cid).filterMap (fun e => e.2.emu.bind (fun m => m.lock))
  r.onPart (r.ctx cid).part (fun p => { p with locks := p.locks.filter (fun l => !ls.contains l) })

/-- The collectives of a context that is frozen stop, and the other members learn it (R518); their slots are free. -/
def leaveColls (r : Run) (cid : Nat) : Run :=
  let p := (r.ctx cid).part
  let r := ((r.part p).colls.filter (fun e => e.2.ctx = cid && e.2.status.isNone)).foldl (fun r e => abortPeers r p e.2 2) r
  r.onPart p (fun q => { q with colls := q.colls.filter (fun e => e.2.ctx ≠ cid) })

/-- Freeze a context (R492): capture, scrub, commands FROZEN, queues unmapped, the black box's events. -/
def freezeCtx (y : Sys) (r : Run) (cid reason : Nat) : Run :=
  let c := r.ctx cid
  if (r.ctxs.get? cid).isNone ∨ c.frozen.isSome then r else
  let all := sectionsOf y r cid (snapshot r cid true ++ c.saved) (coreSnapshot y r cid ++ c.savedCores)
  let ns := r.ns
  let r := removeContext y (freeLocks (endTickets y r cid) cid) cid
  let r := leaveColls r cid
  let r := ((r.launches.filter (fun e => e.2.ctx = cid)).map (·.1)).foldl (fun r l => launchEnd y r l 4) r
  let r := freezeQueues y r c.part c.tenant
  let bs := image ⟨c.tenant, reason, c.step, ns, r.bbNext⟩ c.capture.length.toNat all
  let ok := ownedBuffer y c.part c.capture bs.length
  let r := if ok then storeBytes r c.capture.base.toNat bs else r
  let r := (r.event 1 c.tenant 0xFFFF reason c.part).event 1 c.tenant 0xFFFF (if ok then bs.length else 0) c.part
  r.onCtx cid (fun c => { c.setStep 4 true with frozen := some reason, saved := [], savedCores := [], seals := [] })

/-- Save a context whose waves have all stopped: its blocks leave the machine, and the save area holds their sections. -/
def saveContext (y : Sys) (r : Run) (cid : Nat) : Run :=
  let r := ((r.wavesOfCtx cid).map (·.1)).foldl (settleWave y cid) r
  let c := r.ctx cid
  let ns := snapshot r cid ++ c.saved
  let ks := coreSnapshot y r cid ++ c.savedCores
  let bs := image ⟨c.tenant, 0, c.step, r.ns, r.bbNext⟩ (2 ^ 52) (sectionsOf y r cid ns ks)
  if !ownedBuffer y c.part c.saveArea bs.length then freezeCtx y r cid 1
  else
    let r := storeBytes r c.saveArea.base.toNat bs
    let r := removeContext y { r with faultq := r.faultq.map (fun x => x.rename r.blockName) } cid
    r.onCtx cid (fun c => { c.setStep c.step true with saved := ns, savedCores := ks })

/-- What the step reached does now. -/
def preemptAct (y : Sys) (r : Run) (cid : Nat) : Run :=
  let c := r.ctx cid
  if c.done ∨ c.step = 0 ∨ 4 ≤ c.step then r
  else if c.step = 1 then
    if r.blocks.any (fun e => e.2.ctx = cid) then r else r.onCtx cid (fun c => c.setStep 1 true)
  else
    let r := stopWaves r cid (fun w => w.stops c.step)
    if r.readyToSave cid then saveContext y r cid else r

/-- The burns of a context's waves end at once (R444). -/
def endAllBurns (r : Run) (cid : Nat) : Run := ((r.wavesOfCtx cid).map (·.1)).foldl endBurns r

/-- The request for a step; as step 2 begins, every parked wave stops (R489), and as any begins, burns end (R444). -/
def enterStep (r : Run) (cid req : Nat) : Run :=
  let u := raiseStep r cid req
  if (u.ctx cid).step = (r.ctx cid).step then u else
  endAllBurns (if (r.ctx cid).step < 2 ∧ (u.ctx cid).step = 2 then stopWaves u cid Wave.allParked else u) cid

/-- A request: its step begins, and does what it can at this moment. -/
def preemptStep (y : Sys) (r : Run) (cid req : Nat) : Run := preemptAct y (enterStep r cid req) cid

/-- The Inn writes %PREEMPT (R487): REQ, TRAP and DEADLINE. -/
def innPreempt (r : Run) (cid req : Nat) (trap : Bool) (deadline : BitVec 8) : Run :=
  r.onCtx cid (fun c =>
    let x := setBits (setBits c.preempt 0 3 req) 7 1 trap.toNat
    { c with preempt := setBits x 16 8 (if deadline = 0 then 1 else deadline.toNat) })

/-- PREEMPT_DRAIN, PREEMPT_HALT, PREEMPT_FORCED_SAVE: with `set` the Inn's write; else what a request that stands or its step does now. -/
def preemptEvt (y : Sys) (r : Run) (cid req : Nat) (set : Option (Bool × BitVec 8)) : Run :=
  match set with
  | some (trap, deadline) => preemptStep y (innPreempt r cid req trap deadline) cid req
  | none =>
    if (r.ctx cid).step = req then preemptAct y r cid
    else if bits (r.ctx cid).preempt 0 3 = req then preemptStep y r cid req
    else r

def execPreemptDrain (ctx : Nat) (set : Option (Bool × BitVec 8)) (s : State) : Host.Outcome State Fault Refusal :=
  event s (fun y r => preemptEvt y r ctx 1 set)
def execPreemptHalt (ctx : Nat) (set : Option (Bool × BitVec 8)) (s : State) : Host.Outcome State Fault Refusal :=
  event s (fun y r => preemptEvt y r ctx 2 set)
def execPreemptForcedSave (ctx : Nat) (set : Option (Bool × BitVec 8)) (s : State) : Host.Outcome State Fault Refusal :=
  event s (fun y r => preemptEvt y r ctx 3 set)

/-- PREEMPT_CAPTURE: REQ = 100, written by the Inn or standing. -/
def preemptFreeze (y : Sys) (r : Run) (cid : Nat) (set : Option (Bool × BitVec 8)) : Run :=
  let r := match set with | some (trap, deadline) => innPreempt r cid 4 trap deadline | none => r
  if bits (r.ctx cid).preempt 0 3 = 4 then freezeCtx y r cid 6 else r

def execPreemptCapture (ctx : Nat) (set : Option (Bool × BitVec 8)) (s : State) : Host.Outcome State Fault Refusal :=
  event s (fun y r => preemptFreeze y r ctx set)

/-- Whether DEADLINE has run out in step 2, while a wave still issues (R488, R489). -/
def Run.haltDue (r : Run) (cid : Nat) : Bool :=
  let c := r.ctx cid
  c.step = 2 && !c.done && c.haltAt + 2100 * bits c.preempt 16 8 ≤ r.clk && (r.wavesOfCtx cid).any (fun e => e.2.life = .live)

/-- HALT_DEADLINE. -/
def execHaltDeadline (ctx : Nat) (s : State) : Host.Outcome State Fault Refusal :=
  event s (fun y r => if r.haltDue ctx then
      preemptAct y (r.onCtx ctx (fun c => { c.setStep 3 false with saveAt := r.clk })) ctx
    else r)

/-- What a PREEMPT trap leaves for the return of its handler: a BAR that has arrived, or a seal whose entry stands, waits on then. -/
def Part.interrupted (p : Part) : Option (Park × Word64) :=
  match p.park with
  | .bar _ _ _ _ | .retry (.sealing _ _) => some (p.park, p.pc)
  | _ => none

/-- PREEMPT_TRAP (R493): at the boundary where the wave would have stopped, a wait being withdrawn (log entry 67). -/
def preemptTrap (y : Sys) (r : Run) (wid : Nat) : Run :=
  let w := r.wave wid
  if !w.preTrap ∨ w.priv then r else
  match (if r.cur.wave = wid then w.partAt r.cur.lanes else none).orElse (fun _ => w.nextPart) with
  | none => r
  | some p =>
    match withdraw y r wid p true with
    | none => r
    | some (r, ended) =>
      let m := w.groupOf p
      let pc := if ended then p.pc + 12 else p.pc
      (takeTrap r wid m pc (r.peek y wid pc) { cls := 14, sub := 2, mask := m }).onWave wid (fun w => { w with
        preTrap := false
        sup := match w.sup with | e :: t => { e with keep := p.interrupted } :: t | [] => [] })

def execPreemptTrap (w : Nat) (s : State) : Host.Outcome State Fault Refusal := event s (fun y r => preemptTrap y r w)

/-- Whether step 3 has lasted 12 ms (R491). -/
def Run.saveLate (r : Run) (cid : Nat) : Bool :=
  let c := r.ctx cid
  c.step = 3 && !c.done && c.saveAt + 12 * 2100000 ≤ r.clk

/-- SAVETIME. -/
def execSavetime (ctx : Nat) (s : State) : Host.Outcome State Fault Refusal :=
  event s (fun y r => if r.saveLate ctx then freezeCtx y r ctx 2 else r)

/-- FREEZE: every context of a tenant of a partition. -/
def freezeTenant (y : Sys) (r : Run) (part tenant reason : Nat) : Run :=
  ((r.ctxs.filter (fun e => e.2.part = part && e.2.tenant = tenant)).map (·.1)).foldl (fun r c => freezeCtx y r c reason) r

def execFreeze (part tenant : Nat) (reason : BitVec 8) (s : State) : Host.Outcome State Fault Refusal :=
  event s (fun y r => freezeTenant y r part tenant reason.toNat)

/-- TENANT_RELEASE: the tenant's queues may be mapped again; its context begins anew. -/
def execTenantRelease (part tenant : Nat) (s : State) : Host.Outcome State Fault Refusal :=
  event s (fun _ r => { r with ctxs := r.ctxs.mapAll (fun _ c =>
    if c.part = part && c.tenant = tenant && c.frozen.isSome then
      { c with frozen := none, quota := c.quotaMax, running := false
               preempt := setBits (setBits (setBits c.preempt 0 3 0) 4 3 0) 8 1 0 }
    else c) })

/-! ## The restore (R102, R138, R234, R277, R294, R424, R498) -/

/-- Old numbers to new ones; a number that is not listed stays. -/
def renum (m : List (Nat × Nat)) (n : Nat) : Nat := ((m.find? (fun e => e.1 = n)).map (·.2)).getD n

/-- A wait as it comes back: what was saved as a time left is a deadline again. -/
def Park.restored (k : Park) (clk : Nat) : Park :=
  match k with
  | .mwait t d => .mwait (t.map (· + clk)) d
  | .pwrwait b t d => .pwrwait b (t.map (· + clk)) d
  | k => k

/-- Give a fragment a free slot; without one it becomes a held group of its slice's part, or that part itself where there
is none. Also its new number, none where it is no part any more. -/
def refit (w : Wave) (p : Part) (f : Option Nat) : Wave × Nat × Bool :=
  let rest := w.parts.filter (fun q => q.uid ≠ p.uid)
  match f with
  | some s => ({ w with parts := rest ++ [{ p with uid := 8 + s, frag := some s }] }, 8 + s, true)
  | none =>
    if rest.any (fun q => q.uid = p.slice) then
      ({ w with parts := rest, held := w.held ++ [⟨p.mask, p.pc, p.rpc, p.slice⟩] }, p.slice, false)
    else ({ w with parts := rest ++ [{ p with uid := p.slice, frag := none }] }, p.slice, true)

/-- A trap frame under new part numbers: the region PC of a fragment that is a part no more goes. -/
def Frame.rename (f : Frame) (old new : Nat) (part : Bool) : Frame :=
  { f with rpcs := if part then f.rpcs.map (fun e => if e.1 = old then (new, e.2) else e) else f.rpcs.filter (fun e => e.1 ≠ old) }

def Wave.renameFrames (w : Wave) (g : Frame → Frame) : Wave :=
  { w with frame := w.frame.map g, sup := w.sup.map (fun e => { e with frame := g e.frame }) }

/-- Rebuild the fragments of a wave from free slots, running ones first and then those whose lanes wait alone. Fragments are first numbered
apart from any slot; held groups, waiting lanes and trap frames follow the new numbers, all at once. -/
def Wave.refrag (w : Wave) (free : List Nat) : Wave :=
  let far (u : Nat) : Nat := if u < 8 then u else u + 1000
  let ps : List Part := w.parts.map (fun (p : Part) => { p with uid := far p.uid })
  let hs : List Held := w.held.map (fun (h : Held) => { h with owner := far h.owner })
  let w0 : Wave := ({ w with parts := ps, held := hs } : Wave).renameFrames (fun f => { f with rpcs := f.rpcs.map (fun e => (far e.1, e.2)) })
  let running := w.parts.filterMap (fun (p : Part) => p.frag)
  let alone := (w.waiting.filterMap (fun h => h.frag)).dedup.filter (fun s => !running.contains s)
  let new (s : Nat) : Option Nat := free[(running ++ alone).idxOf s]?
  let w1 := ps.foldl (fun (u : Wave) (p : Part) =>
    match p.frag with
    | none => u
    | some s =>
      let (u, n, part) := refit u p (new s)
      ({ u with held := u.held.map (fun (h : Held) => if h.owner = p.uid then { h with owner := n } else h) } : Wave).renameFrames
        (fun f => f.rename p.uid n part)) w0
  { w1 with waiting := w1.waiting.map (fun h => { h with frag := h.frag.bind new }) }

/-- A saved wave as it comes back. Its watch is registered anew where its home slice has room for it (R292, R294). A stream that had
ended stays so. -/
def Wave.restored (w : Wave) (y : Sys) (r : Run) : Wave :=
  let cid := (r.block w.blk).ctx
  let p := (r.ctx cid).part
  let home (m : Monitor) : Monitor := match walkBoth y r cid m.va {} with
    | .ok (_, _, _, pa) => { m with line := pa / 256 * 256, word := pa }
    | .error _ => m
  let room (m : Monitor) : Bool := !isAper m.word && r.watchesAt y p (homeSlice y r p m.line) < 32
  { w with
    life := if w.life = .ended then .ended else .live
    stall := r.nextWindow, preTrap := false
    parts := w.parts.map (fun p => { p with park := p.park.restored r.clk })
    mon := (w.mon.map home).map (fun m => { m with registered := room m, written := false }) }

/-- The watched word is read again: where it differs from the snapshot, a parked MWAIT returns WRITE at once (R294). Whether one of another
device does is open here. -/
def rewatch (r : Run) (wid : Nat) : Run :=
  match (r.wave wid).inMwait, (r.wave wid).mon with
  | some _, some m =>
    let (x, r) := if isAper m.word then r.free else (0, r)
    if r.monitorHit m || x.getLsbD 0 then mwaitEnd r wid 1 (fun _ => true) else r
  | _, _ => r

/-- A part that is to issue a RACQ or a CACQ afresh, whose request was queued: it takes its place again before newer requests, unless a late
trap comes first (R138, R393, R496). -/
def Wave.reissues (w : Wave) (m : Lanes) : Bool :=
  w.late = [] && (w.parts.filter (fun p => (p.mask &&& m) ≠ 0)).any (fun p => p.park == .run)

/-- The requests of a block's waves for registers of the pool stand again in the saved order; one whose fragment has become a held group
is made anew when that runs (log entry 67). -/
def requeuePool (r : Run) (b : Nat) : Run :=
  let ok (q : PoolReq) : Bool := q.wave.all (fun e => (r.wave e.1).reissues e.2)
  let qs := (r.block b).poolQueue.filter ok
  qs.foldl (fun r q => match q.wave with
    | some (w, m) => r.onWave w (fun x => x.park m (.racq q.n))
    | none => r) (r.onBlock b (fun z => { z with poolQueue := qs }))

/-- The new numbers of a neighbourhood's blocks, and of their waves and streams, by name. -/
def newBlocks (r : Run) (bs : List SavedBlock) (cs : List Nat) : List (Nat × Nat) :=
  bs.map (fun b => (b.blk.name, let c := cs.getD b.blk.index 0; c * 4 + r.freePos c))
def newWaves (r : Run) (bs : List SavedBlock) (cs : List Nat) (fb : Nat → Nat) : List (Nat × Nat) :=
  bs.flatMap (fun b =>
    let c := cs.getD b.blk.index 0
    let free := (List.range 24).filter (fun i => (r.waves.get? (c * 24 + i)).isNone)
    let stream : Wave := { stream := true }
    (stream.name b.blk.name, streamId (fb b.blk.name)) ::
      ((b.waves.zip free).map (fun e => (Wave.name b.blk.name e.1.2, c * 24 + e.2))))

/-- A ticket that has ended meanwhile is reported as R414 gives. -/
def reviveTickets (r : Run) (wid : Nat) : Run :=
  [false, true].foldl (fun r one =>
    let w := r.wave wid
    match w.slot one with
    | none => r
    | some t =>
      if t.dead || (r.ticketOf wid t).isSome then r
      else r.onWave wid (fun w => w.timedOut one t)) r

/-- A token and the words of its accumulator come back (R393): one that is held always; one that was held last where the target's is
unused, else it is as if another block had held it since (log entry 94). -/
def restoreTok (s : SavedBlock) (k : Core) (t : Nat × AccTok) : Core :=
  let old : AccTok := (k.accTok.get? t.1).getD {}
  let fresh : Bool := old.holder = .free && (old.last.isNone || old.last = some endedBlock)
  if t.2.holder = .free && !fresh then k else
  { k with
    acc := (s.acc.filter (fun e => e.1 / 4096 = t.1)).foldl (fun m e => SMap.set 0 m e.1 e.2) (k.acc.filter (fun e => e.1 / 4096 ≠ t.1))
    accTok := k.accTok.put t.1 { t.2 with queue := old.queue } }

/-- A copy comes back into its channel. -/
def restoreCopy (core : Nat) (q : Tbl (List CopyOp)) (e : Nat × CopyOp) : Tbl (List CopyOp) :=
  let op : CopyOp := if isName e.2.wave || coreOf e.2.wave = core then e.2 else { e.2 with wave := core * 24 + slotOf e.2.wave }
  Tbl.put q e.1 (match (Tbl.get? q e.1).getD [] with
    | h :: t => if h.started then h :: insertRanked CopyOp.rank op t else insertRanked CopyOp.rank op (h :: t)
    | [] => [op])

/-- Bring one saved block back on its new core: `s` speaks of the new numbers. Every batch that is paused goes on (R347). -/
def restoreBlock (y : Sys) (r : Run) (b : Nat) (slots : List Nat) (s : SavedBlock) : Run :=
  let core := b / 4
  let z := s.blk
  let z : Block := { z with batches := z.batches.map Batch.resume, spill := z.spill.map Batch.resume }
  let r := { r with blocks := r.blocks.put b z, recent := r.recent ++ s.recent }
  let r := (s.waves.zip slots).foldl (fun r e =>
    let wid := core * 24 + e.2
    let free := (List.range 32).filter (fun f => !(r.fragsUsed core).contains f)
    rewatch (reviveTickets (r.setWave wid ((e.1.2.restored y r).refrag free)) wid) wid) r
  let r := match s.stream with
    | some w => r.setWave (streamId b) (w.restored y r)
    | none => r
  let bm := s.bins.foldl (fun (acc : List (Nat × Nat) × Tbl Bin) x =>
    let n := Tbl.free acc.2 0
    (acc.1 ++ [(x.1, n)], Tbl.put acc.2 n { x.2 with since := r.clk - x.2.since })) ([], (r.core core).bins)
  let r := r.onBlock b (fun z => { z with poolQueue := z.poolQueue.map (fun q => if q.wave.isNone then { q with bin := renum bm.1 q.bin } else q) })
  let r := requeuePool r b
  let reqs := s.accReq.filter (fun e => match e.2.who with | .wave w => (r.wave w).reissues e.2.lanes | _ => true)
  let r := reqs.foldl (fun r e => match e.2.who with | .wave w => r.onWave w (fun x => x.park e.2.lanes (.cacq e.1)) | _ => r) r
  let sides := (s.waves.zip slots).filterMap (fun e => (s.side.find? (fun x => x.1 = e.1.1)).map (fun x => (e.2, x.2)))
  let r := r.onCore core (fun k =>
    let k := s.accTok.foldl (restoreTok s) k
    let k := reqs.foldl (fun k e =>
      let t : AccTok := (k.accTok.get? e.1).getD {}
      { k with accTok := k.accTok.put e.1 { t with queue := insertRanked AccReq.rank e.2 t.queue } }) k
    { k with
      side := sides.foldl (fun m e => memPut m (e.1 * 512) e.2) k.side
      trackers := k.trackers ++ s.trackers
      channels := s.copies.foldl (restoreCopy core) k.channels
      bins := bm.2
      deque := k.deque ++ s.deque })
  let r := (List.range 16).foldl (fun r c => accSettle r core c) r
  setBalance (poolRun y r b) core

/-- The rectangle of a saved neighbourhood, if one is free: also the tokens that its agents hold must be free there (log entry 94). -/
def Run.restoreRect (y : Sys) (r : Run) (n : SavedNbh) : Option (List Nat) :=
  let l := r.launch n.launch
  let rect := (r.offer y l.info (r.ctx l.ctx).part n.nbh (fun i =>
    ((n.blocks.find? (fun b => b.blk.index = i)).map (fun b => b.waves.length)).getD 0)).map (·.2)
  rect.filter (fun cs => n.blocks.all (fun b => b.accTok.all (fun t =>
    t.2.holder = .free || (r.accTok (cs.getD b.blk.index 0) t.1).holder = .free)))

/-- Place one saved neighbourhood whole, if it fits now; whatever spoke of its blocks and waves by name speaks of them by number
again. -/
def restoreNbh (y : Sys) (cid : Nat) (r : Run) (key : Nat × Nat) : Run :=
  match (r.ctx cid).saved.find? (fun n => n.launch = key.1 && n.nbh = key.2) with
  | none => r
  | some n =>
    match r.restoreRect y n with
    | none => r
    | some cs =>
      let fb := renum (newBlocks r n.blocks cs)
      let fw := renum (newWaves r n.blocks cs fb)
      let r := (r.onCtx cid (fun c => { c with saved := c.saved.erase n })).rename fw fb
      n.blocks.foldl (fun r b =>
        let c := cs.getD b.blk.index 0
        restoreBlock y r (fb b.blk.name) ((List.range 24).filter (fun i => (r.waves.get? (c * 24 + i)).isNone)) (b.rename fw fb)) r

/-- What a save recorded of a core beside its blocks comes back to that core (log entry 94). -/
def restoreCore (r : Run) (s : SavedCore) : Run :=
  r.onCore s.core (fun k =>
    let free (t : Nat × AccTok) : Bool := ((k.accTok.get? t.1).getD {}) == {}
    { k with
      deque := k.deque ++ s.deque
      acc := (s.acc.filter (fun e => s.accTok.any (fun t => t.1 = e.1 / 4096 && free t))).foldl (fun m e => SMap.set 0 m e.1 e.2) k.acc
      accTok := (s.accTok.filter free).foldl (fun m t => m.put t.1 t.2) k.accTok })

/-- CONTEXT_RESTORE: REQ, STEP and DONE return to 0, and every saved neighbourhood that fits is placed. -/
def contextRestore (y : Sys) (r : Run) (cid : Nat) : Run :=
  let c := r.ctx cid
  if c.frozen.isSome ∨ (c.step ≠ 0 ∧ !c.done) ∨ !c.running ∨ !y.valid then r
  else
    let r := r.onCtx cid (fun c => { c.setStep 0 false with preempt := setBits (c.setStep 0 false).preempt 0 3 0 })
    let r := c.savedCores.foldl restoreCore (r.onCtx cid (fun c => { c with savedCores := [] }))
    (c.saved.map (fun n => (n.launch, n.nbh))).foldl (restoreNbh y cid) r

def execContextRestore (ctx : Nat) (s : State) : Host.Outcome State Fault Refusal := event s (fun y r => contextRestore y r ctx)

/-! ## The switch (R527, R528) -/

/-- The scrub of every core and unit of a partition. -/
def Core.scrubbed (k : Core) : Core :=
  { k with side := [], trackers := [], tlb := [], ro := [], channels := [], acc := [], accTok := [], ctok := none, ctokPass := none, ctokWait := []
           deque := [], bins := [] }

def scrub (y : Sys) (r : Run) (p : Nat) : Run :=
  { r with cores := r.cores.mapAll (fun n k => if y.partOf (dieOf n) = p then k.scrubbed else k)
           pairs := r.pairs.mapAll (fun n q => if y.partOf (n / 160) = p then { q with th := 600, tx := 900 } else q) }

/-- What R525 does to the cores of some dies when the home slices of their lines change: TLBs, walkers and read-only caches
are cleared. Home-slice lines are memory, so writing them back changes nothing here; and no context runs, so every seal entry
is in a save area (R261), not on the dies. -/
def clearDies (r : Run) (ds : List Nat) : Run :=
  { r with
    cores := r.cores.mapAll (fun n k => if ds.contains (dieOf n) then { k with tlb := [], ro := [] } else k)
    dies := r.dies.mapAll (fun n d => if ds.contains n then { d with walks := 0 } else d) }

/-- At a point with no context running on a partition its failed slices are mapped out (R544). -/
def healthPoint (y : Sys) (r : Run) (p : Nat) : Run :=
  let ss := r.sickSlices.filter (fun s => y.partOf (s / 64) = p)
  if ss = [] ∨ r.ctxs.any (fun e => e.2.part = p && e.2.running) then r else
  let r := clearDies { r with outSlices := r.outSlices ++ ss, sickSlices := r.sickSlices.filter (fun s => !ss.contains s) } (y.diesOf p)
  ss.foldl (fun r s => r.service 3 s 3) r

/-- The 16 contexts that time-share a partition (R527): those of the lowest numbers. -/
def Run.ctxsOf (r : Run) (p : Nat) : List (Nat × Ctx) := (r.ctxs.filter (fun e => e.2.part = p)).take 16

/-- The context that runs next: the one of the next number, wrapping, that is neither frozen nor moved. -/
def Run.nextCtx (r : Run) (p : Nat) (cur : Option Nat) : Option Nat :=
  let ok := ((r.ctxsOf p).filter (fun e => e.2.frozen.isNone && (e.2.mig = .off || e.2.mig = .rounds))).map (·.1)
  match cur with
  | none => ok.head?
  | some c => (ok.find? (fun n => c < n)).orElse (fun _ => ok.head?)

/-- Give the partition to a context. -/
def switchTo (y : Sys) (r : Run) (p : Nat) (n : Option Nat) : Run :=
  let r := (healthPoint y r p).onPart p (fun q => { q with runCtx := n, qStart := r.clk })
  match n with
  | none => r
  | some c => contextRestore y (r.onCtx c (fun x => { x with running := true })) c

/-- A quantum in its range of 100 µs to 1 s, and its cycles (R527). -/
def quantumOf (us : Nat) : Nat := max 100 (min 1000000 us)
def Partition.quantumCycles (p : Partition) : Nat := quantumOf p.quantum * 2100

/-- QUANTUM_END: system software may set the quantum; a halt is requested while another context waits; once DONE is 1 the partition is
scrubbed and the next context restored. -/
def quantumEnd (y : Sys) (r : Run) (p : Nat) : Run :=
  let cur := (r.part p).runCtx
  let nxt := r.nextCtx p cur
  match cur with
  | none => switchTo y r p nxt
  | some c =>
    if (r.ctx c).done then
      switchTo y (scrub y (r.onCtx c (fun x => { x with running := false })) p) p nxt
    else if nxt = some c ∨ nxt = none then r.onPart p (fun q => { q with qStart := r.clk })
    else preemptStep y r c 2

def execQuantumEnd (part : Nat) (set : Option Nat) (s : State) : Host.Outcome State Fault Refusal :=
  event s (fun y r => match set with
    | some us => r.onPart part (fun q => { q with quantum := quantumOf us })
    | none => quantumEnd y r part)

end Sys2Proof.Machine
end

