-- ==== Sys2Proof/Machine/Fabric.lean ====
section
/-! DEFINITION. Links and ports (R503, R504, R544), the destination of a control flow (R314), and the host's RDMA
operations (R521, R522). -/

namespace Sys2Proof.Machine

/-! ## Links and ports -/

/-- Atomics in flight by source port and tag, with the port each goes out by now. -/
abbrev Moves := List ((Nat × Nat) × Nat)

def FarLane.moved (ms : Moves) (x : FarLane) : FarLane :=
  match ms.find? (fun m => m.1 = (x.port, x.tag) && x.req.isSome) with
  | some m => { x with via := m.2 }
  | none => x
def Pend.moved (ms : Moves) (q : Pend) : Pend :=
  match q.kind with
  | .atomic ls => { q with kind := .atomic (ls.map (FarLane.moved ms)) }
  | _ => q
def Demand.moved (ms : Moves) (d : Demand) : Demand := { d with far := d.far.map (FarLane.moved ms) }
def Batch.moved (ms : Moves) (x : Batch) : Batch := { x with demands := x.demands.map (Demand.moved ms) }

/-- Atomics that were in flight on a port, of waves and of streams, go out again by another port of the set, each with its tag (R504). -/
def resendAtomics (r : Run) (p port : Nat) : Run :=
  let go (acc : Moves × Run) (x : FarLane) : Moves × Run :=
    match (if x.via = port then x.req else none), acc.2.dataPort p (port / 36) x.dev (x.pa / 256) with
    | some a, some i => (((x.port, x.tag), i) :: acc.1, acc.2.transmit i { cls := 0, port := x.port, tag := x.tag } (.atomic x.dev a))
    | _, _ => acc
  let (ms, r) := r.atomicsOut.foldl go ([], r)
  { r with
    waves := r.waves.mapAll (fun _ w => { w with pend := w.pend.map (Pend.moved ms) })
    blocks := r.blocks.mapAll (fun _ z => { z with batches := z.batches.map (Batch.moved ms), spill := z.spill.map (Batch.moved ms) }) }

/-- The device that a control flow of the apertures leads to. -/
def Partition.flowDev (x : Partition) (f : Nat) : Nat :=
  ((x.aper.find? (fun e => aperCtrl e.2 && aperFlow e.2 = f)).map (fun e => aperDev e.2)).getD 0

/-- The ports that a flow may take beside one of a die: those that lead to the device of its aperture, or to the member it goes to, with the
die its pin is kept for. -/
def Run.flowWays (r : Run) (p die f : Nat) : Nat × List Nat :=
  if f < 65536 then (die, r.portsTo p die ((r.part p).flowDev f))
  else
    let g := (((r.part p).groups.get? ((f - 65536) / 2 ^ 24)).getD {})
    (4, r.waysTo p (g.members.getD (f % 4096) 0))

/-- A flow with what it has sent by a port moved to another, and pinned there. -/
def Flow.moveTo (x : Flow) (key port i : Nat) : Flow :=
  { x.pin key (some i) with unacked := x.unacked.map (fun u => if u.2.1 = port then (u.1, i, u.2.2) else u) }

/-- The unacknowledged messages of the flows pinned to a port go out again by another port, with their sequence numbers (R504). -/
def moveFlows (r : Run) (p port : Nat) : Run :=
  (r.part p).flows.foldl (fun r e =>
    let us := e.2.unacked.filter (fun u => u.2.1 = port)
    let (key, ports) := r.flowWays p (port / 36) e.1
    match (if us = [] then none else e.2.portIn key e.1 ports) with
    | none => r
    | some i => us.foldl (fun r u => r.transmit i { cls := 1, flow := e.1, seq := u.1, port := i } (.control e.1 u.1 u.2.2))
        (r.onPart p (fun z => { z with flows := z.flows.upd e.1 (fun x => x.moveTo key port i) }))) r

/-- PORT_DOWN: the black box notes it, atomics and control flows move to another port of the set (R504), and collectives that need a
member no port reaches any more abort (R517). -/
def portDown (y : Sys) (r : Run) (port : Nat) : Run :=
  let x := r.port port
  if !x.up ∨ !x.mapped then r else
  let p := y.partOf (port / 36)
  let r := (r.onPort port (fun x => { x with up := false, tries := [], lastIn := none })).event 6 0xFF port port
  collLinks (moveFlows (resendAtomics r p port) p port) p

def execPortDown (port : Nat) (s : State) : Host.Outcome State Fault Refusal := event s (fun y r => portDown y r port)

/-- A port is asked for the flits from one on, and sends them again from its replay buffer; one that has been replayed 8 times without
success takes the port down (R503). -/
def replayFrom (y : Sys) (r : Run) (port link : Nat) : Run :=
  let x := r.port port
  let n := if x.failed = link then x.replays else 0
  if 8 ≤ n then portDown y r port else
  (x.sent.filter (fun f => link ≤ f.1)).foldl (fun r f => r.send (.flit port f.1 f.2))
    (r.onPort port (fun x => { x with replays := n + 1, failed := link }))

/-- A flit has come in: the next one by its number, a copy of an earlier one, or one that shows a loss, for which a replay is asked (R503). -/
def flitIn (r : Run) (port link : Nat) (ok : Bool) : Run :=
  let x := r.port port
  let r := r.onPort port (fun x => { x with lastIn := some r.clk })
  if ok && link = x.expect then r.onPort port (fun x => { x with expect := x.expect + 1 })
  else if ok && link < x.expect then r
  else r.send (.replay port x.expect)

/-- LINK_REPLAY: what a port learns of its link. -/
def linkReplay (y : Sys) (r : Run) (port : Nat) (e : LinkEv) : Run :=
  let x := r.port port
  if !x.up ∨ !x.mapped then r else
  match e with
  | .have => r.onPort port (fun x => { x with replays := 0 })
  | .again link => replayFrom y r port link
  | .flit link ok => flitIn r port link ok

def execLinkReplay (port : Nat) (e : LinkEv) (s : State) : Host.Outcome State Fault Refusal := event s (fun y r => linkReplay y r port e)

/-- Whether a port has received no flit for 10 µs, since one has come (R503, log entry 107). -/
def Port.silent (x : Port) (clk : Nat) : Bool := x.up && x.mapped && x.lastIn.any (fun t => t + 21000 ≤ clk)

/-- PORT_RETRAINING: an attempt restores a port that is down, or counts as failed. -/
def portRetraining (r : Run) (port : Nat) (ok : Bool) : Run :=
  let x := r.port port
  if x.up ∨ !x.mapped then r
  else if ok then r.onPort port (fun x => { x with up := true, replays := 0, tries := [] })
  else r.onPort port (fun x => { x with tries := r.clk :: x.tries })

def execPortRetraining (port : Nat) (ok : Bool) (s : State) : Host.Outcome State Fault Refusal :=
  event s (fun _ r => portRetraining r port ok)

/-- Whether a port is due to be mapped out: the last three attempts have failed within 10 ms (R544). -/
def Port.lost (x : Port) : Bool :=
  !x.up && x.mapped && match x.tries with
  | a :: _ :: c :: _ => a ≤ c + 21000000
  | _ => false

/-- PORT_MAPOUT: the port leaves every route set. -/
def portMapout (r : Run) (port : Nat) : Run :=
  if !(r.port port).lost then r else
  let r := r.onPort port (fun x => { x with mapped := false })
  let r := { r with parts := r.parts.mapAll (fun _ p => { p with routes := p.routes.mapAll (fun _ l => l.filter (fun i => i ≠ port)) }) }
  r.service 4 port 4

def execPortMapout (port : Nat) (s : State) : Host.Outcome State Fault Refusal := event s (fun _ r => portMapout r port)

/-! ## Control flows at their destination (R314) -/

/-- Drain the reorder buffer of an ordered flow: messages whose turn has come, in sending order. -/
def drainFlow (x : Flow) : Nat → Flow × List RemoteReq
  | 0 => (x, [])
  | n + 1 =>
    match x.buffer.find? (fun e => e.1 = x.expect) with
    | none => (x, [])
    | some e =>
      let y := drainFlow { x with expect := x.expect + 1, buffer := x.buffer.filter (fun f => f.1 ≠ e.1) } n
      (y.1, e.2 :: y.2)

/-- What a message with sequence number `seq` makes a flow deliver. One that has come before is discarded. -/
def Flow.accept (x : Flow) (seq : Nat) (q : RemoteReq) : Flow × List RemoteReq :=
  if seq < x.expect ∨ x.seen.contains seq ∨ x.buffer.any (fun e => e.1 = seq) then (x, [])
  else if x.ordered then drainFlow { x with buffer := x.buffer ++ [(seq, q)] } (x.buffer.length + 1)
  else ({ x with seen := x.seen ++ [seq] }, [q])

/-- A delivered message: stores and reductions travel on a control flow (R507), and collective control; each is acknowledged. -/
def deliver (y : Sys) (port : Nat) (r : Run) (q : RemoteReq) : Run :=
  let p := y.partOf (port / 36)
  let done (r : Run) : Run := answerAt 1 port (none, r)
  match q with
  | .load _ _ => answerAt 1 port (some .perm, r)
  | .store pa bs => answerAt 1 port (outerWrite y r p pa bs)
  | .red a => (match fabricBad y r p a.addr (ATy.bytes a.ty) with
    | some f => answerAt 1 port (some f, r)
    | none => done (atomicAt r a).2)
  | .descriptor g n k z op red t c u => done (peerDescriptor r p ⟨g, n, k, z, (op, red, t, c, u)⟩)
  | .reform g n ms => done (peerReform r p g n ms)
  | .abort g n k z d => done (peerAbort r p g n k z d)
  | .pull _ _ => r
  | .confirm _ => r

/-- CONTROL_MESSAGE_DELIVERY: a message that has come in at a port. -/
def controlDelivery (y : Sys) (r : Run) (port flow seq : Nat) (q : RemoteReq) : Run :=
  let p := y.partOf (port / 36)
  let (x, qs) := (((r.part p).flows.get? flow).getD { ordered := 65536 ≤ flow }).accept seq q
  qs.foldl (deliver y port) (r.onPart p (fun z => { z with flows := z.flows.put flow x }))

def execControlMessageDelivery (port flow seq : Nat) (q : RemoteReq) (s : State) : Host.Outcome State Fault Refusal :=
  inbound port (RemoteReq.target port q) s (fun y r => r.holdOr (y.partOf (port / 36)) (fun _ => true) (.controlMessageDelivery port flow seq q)
    (fun r => controlDelivery y r port flow seq q))

/-! ## Host RDMA -/

/-- A guest physical address of a context as a queue pair's request names it: its host address, or what stops it. A page
that migration left behind is pulled first. -/
def rdmaAt (y : Sys) (r : Run) (cid gpa : Nat) (wr : Bool) : Except FarFault Nat :=
  let c := r.ctx cid
  if 2 ^ 52 ≤ gpa then .error .nomap else
  match walk2 r.mem gpa false levels c.hostRoot with
  | .error _ => .error .nomap
  | .ok f =>
    let pa := f.addr + gpa % f.size
    if !y.owns c.part pa then .error .nomap
    else if wr && !f.w then .error .perm
    else if wr && r.sealedPa y c.part pa 1 then .error .sealed
    else .ok pa

/-- The bytes of an RDMA WRITE in ascending order, each page marked before it is written. -/
def rdmaBytes (y : Sys) (cid : Nat) : Run → Nat → List Byte → Option FarFault × Run
  | r, _, [] => (none, r)
  | r, a, b :: t =>
    match rdmaAt y r cid a true with
    | .error f => (some f, r)
    | .ok pa => rdmaBytes y cid (storeBytes (markGuest r cid a) pa [b]) (a + 1) t

/-- Pages of a range that migration left behind. -/
def Run.missingOf (r : Run) (cid lo n : Nat) : List Nat :=
  ((pagesOf lo n).map (· / 65536)).filter (fun g => (r.ctx cid).missing.contains g)

/-- A queue pair of a partition, among the 1,024 of the device (R521). -/
def Run.qp (r : Run) (p qp : Nat) : Option Qp :=
  let all := r.parts.flatMap (fun e => e.2.qps.map (fun x => (e.1, x.1)))
  if ((all.filter (fun k => k.1 < p || (k.1 = p && k.2 < qp))).length) < 1024 then (r.part p).qps.get? qp else none

/-- Whether a context is the one a queue pair serves. -/
def Run.qpOf (r : Run) (p qp cid : Nat) : Bool := (r.qp p qp).any (fun x => x.ctx = cid)

/-- A request of a queue pair that belongs to the partition (R521), in the order of message sequence numbers (R522): one that comes early,
or meets pages left behind, which are pulled, is not performed and comes again, and so do those behind it; one that has been performed
is answered by `dup`. A packet that ECN has marked is answered by a congestion notification. -/
def onQp (r : Run) (p qp : Nat) (m : QpHead) (lo n : Nat) (dup : Run → Run) (k : Run → Nat → Run) : Run :=
  match r.qp p qp with
  | none => r.send (.refusal .nomap)
  | some x =>
    let r := if m.ecn then r.send (.cnp qp) else r
    if m.seq < x.expect then dup r
    else if x.expect < m.seq then r
    else match r.missingOf x.ctx lo n with
      | [] => k (r.onPart p (fun z => { z with qps := z.qps.upd qp (fun x => { x with expect := x.expect + 1 }) })) x.ctx
      | gs => gs.foldl (fun r g => pullPage r x.ctx g) r

def rdmaWrite (y : Sys) (r : Run) (p qp : Nat) (m : QpHead) (addr : Nat) (data : List Byte) : Run :=
  onQp r p qp m addr data.length (fun r => r.send (.ack qp)) (fun r cid => match rdmaBytes y cid r addr data with
    | (some f, r) => r.send (.refusal f)
    | (none, r) => r.send (.ack qp))

def execRdmaWrite (part qp : Nat) (m : QpHead) (addr : Nat) (data : List Byte) (s : State) : Host.Outcome State Fault Refusal :=
  event s (fun y r => r.holdOr part (r.qpOf part qp) (.rdmaWrite part qp m addr data) (fun r => rdmaWrite y r part qp m addr data))

/-- Cut bytes into packets of at most `n`. -/
def packets (n : Nat) : Nat → List Byte → List (List Byte)
  | 0, _ => []
  | k + 1, bs => if bs.length ≤ n then [bs] else bs.take n :: packets n k (bs.drop n)

/-- The answer to an RDMA READ, in packets of the path MTU (R521). -/
def rdmaAnswer (y : Sys) (p qp addr n : Nat) (r : Run) (cid : Nat) : Run :=
  match (List.range n).mapM (fun i => rdmaAt y r cid (addr + i) false) with
  | .ok pas => (packets (((r.qp p qp).map (·.mtu)).getD 1024) (n + 1) (pas.map (memGet r.mem))).foldl (fun r bs => r.send (.data bs)) r
  | .error f => r.send (.refusal f)

def rdmaRead (y : Sys) (r : Run) (p qp : Nat) (m : QpHead) (addr n : Nat) : Run :=
  onQp r p qp m addr n (fun r => rdmaAnswer y p qp addr n r (((r.qp p qp).map (·.ctx)).getD 0)) (rdmaAnswer y p qp addr n)

def execRdmaRead (part qp : Nat) (m : QpHead) (addr bytes : Nat) (s : State) : Host.Outcome State Fault Refusal :=
  event s (fun y r => r.holdOr part (r.qpOf part qp) (.rdmaRead part qp m addr bytes) (fun r => rdmaRead y r part qp m addr bytes))

/-- RDMA_SEND: the message is received on the queue pair, kept for its owner, and acknowledged. -/
def rdmaSend (r : Run) (p qp : Nat) (m : QpHead) (data : List Byte) : Run :=
  onQp r p qp m 0 0 (fun r => r.send (.ack qp)) (fun r _ => (r.onPart p (fun z => { z with msgs := z.msgs ++ [(qp, data)] })).send (.ack qp))

def execRdmaSend (part qp : Nat) (m : QpHead) (data : List Byte) (s : State) : Host.Outcome State Fault Refusal :=
  event s (fun _ r => r.holdOr part (r.qpOf part qp) (.rdmaSend part qp m data) (fun r => rdmaSend r part qp m data))

end Sys2Proof.Machine
end

