-- ==== Sys2Proof/Machine/Migrate.lean ====
section
/-! DEFINITION. Live migration of a virtual device, on the source and on the destination (R530 to R535). -/

namespace Sys2Proof.Machine

/-! ## Guest pages -/

/-- The 64 KiB pages that a stage-2 table maps, from the levels left: `base` is the guest address its first entry translates. -/
def mappedPages (m : SMap Byte) : List Nat → Nat → Nat → List Nat
  | [], _, _ => []
  | l :: ls, frame, base =>
    (List.range (2 ^ levelBits l)).flatMap (fun i =>
      let ga := base + i * 2 ^ levelLo l
      match readDesc (BitVec.ofNat 64 (memRead m (frame + 8 * i) 8)) 1 l false ga with
      | .error _ => []
      | .ok (.inr f) => (List.range (f.size / 65536)).map (fun k => ga / 65536 + k)
      | .ok (.inl t) => mappedPages m ls t ga)

/-- TLBI .tenant at .dev for a context (R260): its translations and those that gated accesses keep go. -/
def dropTenant (y : Sys) (r : Run) (cid : Nat) : Run :=
  let c := r.ctx cid
  r.untranslate (fun n => y.partOf (dieOf n) = c.part) (fun t => t.tenant == c.tenant)

/-- The other bitmap than the current one. -/
def Ctx.oldDirty (c : Ctx) : List Nat := if c.one then c.dirty0 else c.dirty1
def Ctx.clearOld (c : Ctx) : Ctx := if c.one then { c with dirty0 := [] } else { c with dirty1 := [] }
/-- Swap the bitmaps (R531). -/
def Ctx.swap (c : Ctx) : Ctx := { c with one := !c.one }

/-- The end of a round: the pages of the old bitmap are sent, and it is cleared. -/
def roundSend (y : Sys) (r : Run) (cid : Nat) : Run :=
  ((r.ctx cid).oldDirty.foldl (sendPage y cid) r).onCtx cid (fun c => { c.clearOld with roundDue := false })

/-- A round (R531): the bitmaps are swapped and the TLBI begins; it returns, and the pages are sent, once every access that may have used a
translation has performed. -/
def roundStep (y : Sys) (r : Run) (cid : Nat) : Run :=
  let r := if (r.ctx cid).roundDue then r else r.onCtx cid (fun c => { c.swap with roundDue := true })
  if r.farBusy (r.ctx cid).part then r else roundSend y (dropTenant y r cid) cid

/-- MIGRATION_ROUND, also where a round goes on: the first turns logging on, and sends every page. -/
def migrationRound (y : Sys) (r : Run) (cid : Nat) : Run :=
  let c := r.ctx cid
  if (r.ctxs.get? cid).isNone then r else
  match c.mig with
  | .off => roundStep y (r.onCtx cid (fun c =>
      { (c.setDirty (mappedPages r.mem levels c.hostRoot 0)) with logging := true, mig := .rounds })) cid
  | .rounds => roundStep y r cid
  | _ => r

def execMigrationRound (ctx : Nat) (s : State) : Host.Outcome State Fault Refusal := event s (fun y r => migrationRound y r ctx)

/-! ## The stop (R532, R533) -/

/-- The queues of a context. -/
def Run.queuesOf (r : Run) (cid : Nat) : List (Nat × Queue) :=
  r.queues.filter (fun e => e.2.part = (r.ctx cid).part && e.2.tenant = (r.ctx cid).tenant)

/-- COPY commands started and not complete. -/
def Run.copyCmds (r : Run) (cid : Nat) : List (Nat × Cmd) :=
  (r.queuesOf cid).flatMap (fun e => (e.2.cmds.filter (fun c => c.ty = 2 && c.st = .started)).map (fun c => (e.1, c)))

/-- The command log (R533): the COPY commands, and the unfinished copies of the saved blocks. -/
def takeLog (r : Run) (cid : Nat) : Run :=
  r.onCtx cid (fun c => { c with
    log := (r.copyCmds cid).map (fun e => (e.1, e.2.k))
    copyLog := (c.saved.flatMap (fun n => n.blocks)).flatMap (fun b => b.copies) })

/-- A channel copy as numbers: channel, core and place, kind, spaces, the block's and the wave's name, operands, object, PC, state and
delivered count. -/
def copyVals (e : Nat × CopyOp) : List Nat :=
  let op := e.2
  let at_ := op.rank.getD (0, 0)
  [e.1, at_.1, at_.2, op.kind, op.srcSp.toNat, op.dstSp.toNat, op.blk, op.wave, op.src.toNat, op.dst.toNat, op.len, op.elem, op.list.toNat,
   op.obj.isSome.toNat, (op.obj.getD (0, 0)).1, (op.obj.getD (0, 0)).2, op.pc.toNat, op.priv.toNat, op.ticket.toNat, op.delivered]
/-- The copy that such numbers describe; the tiles of its ticket come with it. -/
def copyOf (v : List Nat) (ts : Option (List Tile)) : Nat × CopyOp :=
  let n (i : Nat) : Nat := v.getD i 0
  let w (i : Nat) : Word64 := BitVec.ofNat 64 (n i)
  (n 0, { kind := n 3, blk := n 6, wave := n 7, srcSp := n 4 = 1, dstSp := n 5 = 1, src := w 8, dst := w 9, len := n 10, elem := n 11
          list := w 12, obj := if n 13 = 1 then some (n 14, n 15) else none, pc := w 16, priv := n 17 = 1, tiles := ts, ticket := w 18
          delivered := n 19, rank := some (n 1, n 2) })
/-- A declared set as bytes, and back: none, or its tiles in 17 bytes each. -/
def tileBytes (ts : Option (List Tile)) : List Byte :=
  match ts with
  | none => []
  | some ts => leBytes 1 1 ++ ts.flatMap (fun t => leBytes t.lo.toNat 8 ++ leBytes t.hi.toNat 8 ++ leBytes t.wr.toNat 1)
def tilesOf (bs : List Byte) : Option (List Tile) :=
  match bs with
  | [] => none
  | _ :: bs => some ((List.range (bs.length / 17)).map (fun i =>
      let f (lo n : Nat) : Nat := ofLe ((bs.drop (17 * i + lo)).take n)
      { lo := BitVec.ofNat 64 (f 0 8), hi := BitVec.ofNat 64 (f 8 8), wr := f 16 1 = 1 }))

/-- The guest pages whose current bytes the destination does not have: those of a round that has not ended. -/
def Ctx.unsent (c : Ctx) : List Nat := if c.roundDue then c.oldDirty else []

/-- What the final transfer carries beside pages (R532), as items: 0 the save area; 1 a queue; 2 a queue pair with its sequence number, and
3 a message it has received; 4 an aperture; 5 a control flow; 6 a collective's handle and status; 7 a COPY command and 8 a channel copy
of the command log; 9 a page that is to be pulled. -/
def finalItems (y : Sys) (r : Run) (cid : Nat) : List Moved :=
  let c := r.ctx cid
  let p := r.part c.part
  let save := image ⟨c.tenant, 0, c.step, r.ns, r.bbNext⟩ (2 ^ 52) (sectionsOf y r cid c.saved c.savedCores)
  let mine := p.qps.filter (fun e => e.2.ctx = cid)
  [⟨0, [cid], save⟩] ++
  (r.queuesOf cid).map (fun e => ⟨1, [e.1, e.2.rptr, memRead r.mem (e.2.qcb + 0x10) 8, e.2.stopped.toNat, e.2.ring.base.toNat, e.2.logn,
    e.2.cls, e.2.tenant, e.2.qcb], []⟩) ++
  mine.map (fun e => ⟨2, [e.1, e.2.mtu, e.2.expect], []⟩) ++
  (p.msgs.filter (fun m => mine.any (fun e => e.1 = m.1))).map (fun m => ⟨3, [m.1], m.2⟩) ++
  p.aper.map (fun e => ⟨4, [e.1, e.2.toNat], []⟩) ++
  p.flows.map (fun e => ⟨5, [e.1, e.2.ordered.toNat, e.2.next, e.2.expect] ++ e.2.seen, []⟩) ++
  (p.colls.filter (fun e => e.2.ctx = cid)).map (fun e => ⟨6, [e.1, e.2.use, e.2.word], []⟩) ++
  (r.copyCmds cid).filterMap (fun e => if c.log.contains (e.1, e.2.k) then
    some ⟨7, [e.1, e.2.k], e.2.words.flatMap (fun w => leBytes w.toNat 8)⟩ else none) ++
  c.copyLog.map (fun e => ⟨8, copyVals e, tileBytes e.2.tiles⟩) ++
  c.unsent.map (fun g => ⟨9, [g], []⟩)

/-- The blackout begins (R532): the last round, open tickets ended as by R414, the command log, the final transfer. -/
def blackout (y : Sys) (r : Run) (cid : Nat) : Run :=
  let r := roundStep y (endTickets y r cid) cid
  let r := takeLog r cid
  ((finalItems y r cid).foldl (fun r i => r.toPeer cid i.kind (.transfer i.kind i.vals i.data)) r).onCtx cid (fun c => { c with mig := .blackout })

/-- Whether a collective of a context still runs. -/
def Run.collBusy (r : Run) (cid : Nat) : Bool := (r.part (r.ctx cid).part).colls.any (fun e => e.2.ctx = cid && e.2.status.isNone)

/-- MIGRATION_STOP, as far as it gets: fetching ends, collectives complete, the halt, the blackout. -/
def migrationStop (y : Sys) (r : Run) (cid : Nat) : Run :=
  let c := r.ctx cid
  match c.mig with
  | .rounds | .stopping =>
    let r := r.onCtx cid (fun c => { c with mig := .stopping })
    if r.collBusy cid then r else
    let r := if c.done && 2 ≤ c.step then r else preemptStep y r cid 2
    if (r.ctx cid).done && 2 ≤ (r.ctx cid).step && (r.ctx cid).frozen.isNone then blackout y r cid else r
  | _ => r

def execMigrationStop (ctx : Nat) (s : State) : Host.Outcome State Fault Refusal := event s (fun y r => migrationStop y r ctx)

/-! ## The end of the blackout (R534) -/

/-- What has moved leaves the source: queues, queue pairs, collectives. -/
def leaveSource (r : Run) (cid : Nat) : Run :=
  let r := (r.queuesOf cid).foldl (fun r e => if e.2.mapped then queueUnmap r e.1 else r) r
  r.onPart (r.ctx cid).part (fun p => { p with
    qps := p.qps.filter (fun e => e.2.ctx ≠ cid), colls := p.colls.filter (fun e => e.2.ctx ≠ cid) })

/-- BLACKOUT_END at the source: the device number is rebound, the peers' route sets are updated, and the held requests go to the
destination in order. -/
def leaveBlackout (r : Run) (cid : Nat) : Run :=
  let c := r.ctx cid
  if c.mig ≠ .blackout then r else
  let dev := (r.part c.part).dev
  let r := ((leaveSource r cid).send (.rebind dev)).send (.reroute dev)
  let r := c.hold.foldl (fun r i => r.send (.held i)) r
  r.onCtx cid (fun c => { c with mig := .moved, hold := [], logging := false })

/-! ## The destination (R532, R533, R535) -/

/-- The stage-2 descriptor that a guest page ends at: its host address, and the bytes its leaf covers. -/
def descAt (m : SMap Byte) (gpa : Nat) : List Nat → Nat → Option (Nat × Nat)
  | [], _ => none
  | l :: ls, frame =>
    let a := frame + 8 * tableIndex gpa l
    match readDesc (BitVec.ofNat 64 (memRead m a 8)) 1 l false gpa with
    | .ok (.inl t) => descAt m gpa ls t
    | _ => some (a, 2 ^ levelLo l)

/-- Mark a page missing (R535): the leaf that maps it reads V = 0 and PEND = 1 until all its pages have come. -/
def markMissing (r : Run) (cid g : Nat) : Run :=
  match descAt r.mem (g * 65536) levels (r.ctx cid).hostRoot with
  | none => r
  | some (a, _) =>
    let d : Word64 := BitVec.ofNat 64 (memRead r.mem a 8)
    (storeBytes r a (leBytes (setBits (setBits d 0 1 0) 6 1 1).toNat 8)).onCtx cid (fun c =>
      { c with missing := if c.missing.contains g then c.missing else c.missing ++ [g] })

/-- A queue of the moved context, as it stood. -/
def takeQueue (r : Run) (cid : Nat) (v : List Nat) : Run :=
  let n (i : Nat) : Nat := v.getD i 0
  let c := r.ctx cid
  { r with queues := r.queues.put (n 0) { qcb := n 8, part := c.part, rptr := n 1, stopped := n 3 = 1, ring := ringCap (BitVec.ofNat 64 (n 4)) (n 5)
                                          logn := n 5, cls := n 6, tenant := n 7 } }

/-- A COPY command of the log is executed again from its first byte, before what the queue fetches now. -/
def takeCopyCmd (r : Run) (q k : Nat) (bs : List Byte) : Run :=
  let c : Cmd := { k := k, words := (List.range 8).map (fun i => BitVec.ofNat 64 (ofLe ((bs.drop (8 * i)).take 8))) }
  r.onQueue q (fun x => { x with cmds := x.cmds.filter (fun d => d.k < k) ++ [c] ++ x.cmds.filter (fun d => k < d.k) })

/-- The channel copies of the log stand with their blocks, to be enqueued again as those are restored (R277). -/
def placeCopies (r : Run) (cid : Nat) : Run :=
  r.onCtx cid (fun c => { c with saved := c.saved.map (fun n => { n with blocks := n.blocks.map (fun b =>
    { b with copies := c.copyLog.filter (fun e => e.2.blk = b.blk.name) }) }) })

/-- One item of the final transfer. What the save area says of the waves stands in the context already (log entry 107). -/
def takeItem (cid : Nat) (r : Run) (i : Moved) : Run :=
  let n (j : Nat) : Nat := i.vals.getD j 0
  let onP (f : Partition → Partition) : Run := r.onPart (r.ctx cid).part f
  match i.kind with
  | 0 => storeBytes r (r.ctx cid).saveArea.base.toNat i.data
  | 1 => takeQueue r cid i.vals
  | 2 => onP (fun p => { p with qps := p.qps.put (n 0) { ctx := cid, mtu := n 1, expect := n 2 } })
  | 3 => onP (fun p => { p with msgs := p.msgs ++ [(n 0, i.data)] })
  | 4 => onP (fun p => { p with aper := p.aper.set 0 (n 0) (BitVec.ofNat 64 (n 1)) })
  | 5 => onP (fun p => { p with flows := p.flows.put (n 0) { ordered := n 1 = 1, next := n 2, expect := n 3, seen := i.vals.drop 4 } })
  | 6 => onP (fun p => { p with
      collUse := p.collUse.set 0 (n 0) (n 1)
      colls := p.colls.put (n 0) { use := n 1, ctx := cid, group := 0, gen := n 2 / 2 ^ 32 % 65536, k := 0, det := false, op := 0, red := 0, ty := .fp32
                                   send := 0, recv := 0, count := 0, root := 0, status := some (n 2 % 256, n 2 / 2 ^ 9 % 4, n 2 / 2 ^ 16 % 65536) } })
  | 7 => (takeCopyCmd r (n 0) (n 1) i.data).onCtx cid (fun c => { c with log := c.log ++ [(n 0, n 1)] })
  | 8 => r.onCtx cid (fun c => { c with copyLog := c.copyLog ++ [copyOf i.vals (tilesOf i.data)] })
  | 9 => markMissing r cid (n 0)
  | _ => r

/-- BLACKOUT_END at the destination: the final transfer is taken in; with no page missing the source learns that at once. -/
def enterMoved (y : Sys) (r : Run) (cid : Nat) (items : List Moved) : Run :=
  if (r.ctxs.get? cid).isNone ∨ (r.ctx cid).mig ≠ .off then r else
  let r := placeCopies (items.foldl (takeItem cid) (r.onCtx cid (fun c => { c with log := [], copyLog := [] }))) cid
  if (r.ctx cid).missing = [] then r.toPeer cid 0 (.arrived (r.part (r.ctx cid).part).dev) else dropTenant y r cid

def execBlackoutEnd (ctx : Nat) (items : List Moved) (s : State) : Host.Outcome State Fault Refusal :=
  event s (fun y r => if items = [] then leaveBlackout r ctx else enterMoved y r ctx items)

/-! ## Post-copy (R535) -/

/-- The bytes of a page on their way into its frame, where the partition holds them. -/
def putPage (y : Sys) (r : Run) (p pa : Nat) (page : List Byte) : Run :=
  (List.range 8).foldl (fun r i =>
    if y.owns p (pa + 8192 * i) then storeBytes r (pa + 8192 * i) ((page.drop (8192 * i)).take 8192) else r) r

/-- POSTCOPY_PULL: a page has come: its bytes are written to its frame, and stage 2 maps its leaf once no page of that is missing. After the
last one the source learns that none is missing any more. -/
def postcopyPull (y : Sys) (r : Run) (cid gpa : Nat) (page : List Byte) : Run :=
  let c := r.ctx cid
  let g := gpa / 65536
  if !c.missing.contains g ∨ page.length ≠ 65536 then r else
  match descAt r.mem (g * 65536) levels c.hostRoot with
  | none => r
  | some (a, size) =>
    let d : Word64 := BitVec.ofNat 64 (memRead r.mem a 8)
    let pa := bits d 16 36 * 65536 + g * 65536 % size
    let left := c.missing.filter (fun h => h ≠ g)
    let r := (putPage y r c.part pa page).onCtx cid (fun c => { c with missing := left, pulls := c.pulls.filter (fun e => e.1 ≠ g) })
    let r := if left.any (fun h => h * 65536 / size = g * 65536 / size) then r
      else storeBytes r a (leBytes (setBits (setBits d 0 1 1) 6 1 0).toNat 8)
    if left = [] then r.toPeer cid 0 (.arrived (r.part c.part).dev) else r

def execPostcopyPull (ctx gpa : Nat) (page : List Byte) (s : State) : Host.Outcome State Fault Refusal :=
  event s (fun y r => postcopyPull y r ctx gpa page)

/-- Whether an address of a context fails on a missing page whose pull has not completed within FTO. -/
def Run.pullLost (y : Sys) (r : Run) (cid va : Nat) : Bool :=
  match walkBoth y r cid va { priv := true } with
  | .ok _ => false
  | .error e =>
    let c := r.ctx cid
    e.replay && e.stage = 1 && c.missing.contains (e.gpa / 65536) && c.pulls.any (fun p => p.1 = e.gpa / 65536 && p.2 + c.ftoCycles ≤ r.clk)

/-- The context of a parked translation fault whose page is lost so. -/
def Run.lostAt (y : Sys) (r : Run) (site : FaultSite) : Option Nat :=
  let ok (cid : Nat) (vas : List Nat) : Option Nat := if vas.any (r.pullLost y cid) then some cid else none
  match site with
  | .part w lane =>
    ok (r.cidOf w) ((r.wave w).parts.flatMap (fun p => match p.park with
      | .fault ps _ _ _ => if p.mask.getLsbD lane then ps.map (· * 65536) else []
      | _ => []))
  | .copy core ch =>
    (match r.channel core ch with
    | op :: _ => ok (r.block op.blk).ctx (op.paused.take 1)
    | [] => none)
  | .eval b =>
    ok (r.block b).ctx (((r.block b).spill.toList ++ (r.block b).batches).flatMap (fun x => match x.st with
      | .paused _ ps => ps.map (· * 65536)
      | _ => []))

/-- PULL_TIMEOUT: MEM MIGLOST at the access, and the tenant is frozen. -/
def pullTimeout (y : Sys) (r : Run) (site : FaultSite) : Run :=
  match r.lostAt y site with
  | none => r
  | some cid => freezeTenant y (faultDecline y r site 0x21) (r.ctx cid).part (r.ctx cid).tenant 5

def execPullTimeout (site : FaultSite) (s : State) : Host.Outcome State Fault Refusal := event s (fun y r => pullTimeout y r site)

end Sys2Proof.Machine
end

