-- ==== Sys2Proof/Machine/Inn.lean ====
section
/-! DEFINITION. The Inn: the firewall registers (R524, R525), boot and identity (R540, R541), the black box's reading (R547),
capability faults (R537), power, temperature and failing units (R542 to R544). -/

namespace Sys2Proof.Machine

/-- Secure boot has verified the Inn's firmware. -/
def Sys.ready (y : Sys) : Bool := y.boot = .ready

/-! ## The firewall set -/

/-- Dies that share a boundary (R10): all but D0 with D3 and D1 with D2. -/
def adjacent (a b : Nat) : Bool := a + b ≠ 3

/-- Dies of one partition under a map. -/
def mates (pd : List (BitVec 2)) (d : Nat) : List Nat := (List.range 4).filter (fun e => pd.getD e 0 = pd.getD d 0)

/-- The shapes of R27. -/
def shapeOk (pd : List (BitVec 2)) : Bool :=
  pd.length = 4 && (List.range 4).all (fun d => match mates pd d with
    | [_] => true
    | [a, b] => adjacent a b
    | [_, _, _, _] => true
    | _ => false)

/-- The map of a request: each die's partition is named by the lowest die it holds (R524). -/
def mapWord (pd : List (BitVec 2)) : Nat := (List.range 4).foldl (fun v d => v + (mates pd d).headD d * 4 ^ d) 0

/-- The dies of boundary n: D0–D1, D1–D3, D3–D2, D2–D0. -/
def boundaryDies (n : Nat) : Nat × Nat := [(0, 1), (1, 3), (3, 2), (2, 0)].getD n (0, 1)

/-- Whether boundary n joins two partitions. -/
def Sys.splits (y : Sys) (n : Nat) : Bool := y.pd (boundaryDies n).1 ≠ y.pd (boundaryDies n).2

/-- A boundary register as a write leaves it. -/
def bndWord (closed : Bool) : Word64 := if closed then 1 else 0

/-- The shares of the other partitions do not meet a range of units, and the bandwidth shares total at most 100. -/
def lpOk (y : Sys) (n base size bw : Nat) : Bool :=
  base + size ≤ Config.lpBytes / Config.lpUnit &&
  ((List.range 4).filter (fun m => m ≠ n)).all (fun m =>
    let x := y.lp.getD m 0
    size = 0 || bits x 8 8 = 0 || base + size ≤ bits x 0 8 || bits x 0 8 + bits x 8 8 ≤ base) &&
  ((List.range 4).filter (fun m => m ≠ n)).foldl (fun t m => t + bits (y.lp.getD m 0) 16 8) bw ≤ 100

/-- A share register's word. -/
def lpWord (base size bw : Nat) : Word64 := BitVec.ofNat 64 (base + size * 256 + bw * 65536)

/-- The share registers once partitions are formed (R524): of a partition that changes as the request wants it, none without one; of another
as it was; nothing at a number that names no partition. -/
def lpFormed (y y1 : Sys) (q : PartReq) (ds : List Nat) : List Word64 :=
  (List.range 4).map (fun n =>
    if y1.partOf n ≠ n then 0
    else if ds.contains n then (match q.lp.getD n none with | some (b, z, w) => lpWord b z w | none => 0)
    else y.lp.getD n 0)

/-- Whether every share a request names fits its register, and the shares stand together. -/
def lpAsked (y1 : Sys) (q : PartReq) (ds : List Nat) : Bool :=
  ds.all (fun n => y1.partOf n ≠ n || match q.lp.getD n none with
    | some (b, z, w) => b < 256 && lpOk y1 n b z w
    | none => true)

/-- The device number that a request gives a partition; without one, the number of its lowest die (R526, log entry 74). -/
def PartReq.device (q : PartReq) (n : Nat) : Nat := q.dev.getD n n

/-- Each partition of a map is a device of its own number (R526). -/
def devsOk (y1 : Sys) (dev : Nat → Nat) : Bool :=
  (List.range 4).all (fun m => (List.range m).all (fun n => y1.partOf m ≠ m || y1.partOf n ≠ n || dev m ≠ dev n))

/-- FWPMAP_WRITE: refused for another shape, for shares that do not stand together or device numbers that are not distinct, and while a
context runs on a die whose partition changes; else the steps of R525, which end with the map in force. -/
def fwpmapWrite (s : State) (q : PartReq) : State :=
  let y := s.sys
  let old : List (BitVec 2) := (List.range 4).map (fun d => BitVec.ofNat 2 (y.pd d))
  let ds := (List.range 4).filter (fun d => mates old d ≠ mates q.pd d || !y.valid)
  let busy := s.run.ctxs.any (fun e => e.2.running && (y.diesOf e.2.part).any (fun d => ds.contains d))
  let y0 : Sys := { y with pmap := BitVec.ofNat 64 (mapWord q.pd) }
  let y1 : Sys := { y0 with lp := lpFormed y y0 q ds }
  let dev (n : Nat) : Nat := if ds.contains n then PartReq.device q n else (s.run.part n).dev
  if !y.ready || !shapeOk q.pd || (y.valid && busy) || !lpAsked y1 q ds || !devsOk y1 dev then s else
  let y2 : Sys := { y1 with bnd := (List.range 4).map (fun n => bndWord (y1.splits n)), pmap := BitVec.ofNat 64 (mapWord q.pd + 256) }
  let r := clearDies s.run ds
  let r := ds.foldl (fun r d => if y2.partOf d = d then
    r.onPart d (fun p => { p with cap := 600 * (y2.diesOf d).length, dev := PartReq.device q d }) else r) r
  { run := r, sys := y2 }

def execFwpmapWrite (q : PartReq) (s : State) : Host.Outcome State Fault Refusal := .next (fwpmapWrite s q)

/-- FWBND_WRITE: CLOSED as the map wants it, DROPS cleared. The Inn writes no other value. -/
def execFwbndWrite (n : Nat) (closed : Bool) (s : State) : Host.Outcome State Fault Refusal :=
  let y := s.sys
  if y.ready && n < 4 && closed = y.splits n then .next { s with sys := { y with bnd := y.bnd.set n (bndWord closed) } }
  else .next s

/-- FWLP_WRITE: of a partition, and only while no context of it runs. -/
def execFwlpWrite (n base size bw : Nat) (s : State) : Host.Outcome State Fault Refusal :=
  let y := s.sys
  if y.ready && n < 4 && y.partOf n = n && base < 256 && lpOk y n base size bw && !(s.run.ctxs.any (fun e => e.2.part = n && e.2.running)) then
    .next { s with sys := { y with lp := y.lp.set n (lpWord base size bw) } }
  else .next s

/-! ## Boot (R540, R541) -/

/-- An image passes: its signature is good and its version is not below the fused counter. -/
def Image.passes (i : Image) (rollback : Nat) : Bool := i.sigOk && rollback ≤ i.version

/-- Run the stages after the first: the measurements of those that pass, and the stage that failed, if one did. -/
def runStages (rollback : Nat) : Nat → List Image → List Nat × Option Nat
  | _, [] => ([], none)
  | n, i :: t =>
    if Image.passes i rollback then
      let (ms, f) := runStages rollback (n + 1) t
      (i.digest :: ms, f)
    else ([], some n)

/-- The last CDI of a chain of measurements. -/
def lastCdi (cdi0 : Nat) (ms : List Nat) : Nat := ms.foldl Config.hmac cdi0

/-- The boot chain on the flash as it is. -/
def bootChain (y : Sys) (debugAuth : Bool) : Sys :=
  let y := { y with boots := y.boots + 1, jtag := false, measured := [], devId := 0, alias_ := 0
                    pmap := 0xE4, bnd := [1, 1, 1, 1], lp := [0, 0, 0, 0] }
  let first := if Image.passes y.slotA y.rollback then some y.slotA else if Image.passes y.slotB y.rollback then some y.slotB else none
  match first with
  | none => { y with boot := .recovery }
  | some i =>
    let (ms, f) := runStages y.rollback 2 y.stages
    let cdi0 := Config.hmac Config.uds i.digest
    match f with
    | some n => { y with boot := .failed n, measured := i.digest :: ms }
    | none => { y with boot := .ready, measured := i.digest :: ms, devId := Config.keyOf cdi0, alias_ := Config.keyOf (lastCdi cdi0 ms)
                       pmap := 0x1E4, jtag := debugAuth }

/-- What a reset leaves of the run: memory and the black box unless power was lost, the units mapped out, and what the outside
world has sent or is to see. -/
def resetRun (r : Run) : Run :=
  { mem := if r.down then [] else r.mem, bb := if r.down then [] else r.bb, bbNext := r.bbNext, ports := r.ports
    outPairs := r.outPairs, outSlices := r.outSlices, inbox := r.inbox, out := r.out, fresh := r.fresh }

/-- What the Inn's firmware, the last stage, sets beside the map (R540): the supervisor table, and each die's partition with its queue slots
and a device number of its own. Then it raises the ready state. -/
def lastStage (r : Run) : Run :=
  let r : Run := { r with table := Config.trapTable ++ 0#12 }
  ((List.range 4).foldl (fun r d => r.onPart d (fun p => { p with dev := d, slots := 32 })) r).send .ready

/-- BOOT: a reset, the chain, the RESET event, and what the last stage does where the chain comes to it. -/
def execBoot (debugAuth : Bool) (s : State) : Host.Outcome State Fault Refusal :=
  let y := bootChain s.sys debugAuth
  let r := (resetRun s.run).event 3 0xFF 0xFFFF y.boots
  .next { run := if y.ready then lastStage r else r, sys := y }

/-- RECOVERY_IMAGE_LOAD: only in recovery. Stage 1 goes to slot A, stage n to its place; 0 names slot B. -/
def execRecoveryImageLoad (stage : Nat) (i : Image) (s : State) : Host.Outcome State Fault Refusal :=
  let y := s.sys
  if y.boot ≠ .recovery then .next s
  else if stage = 0 then .next { s with sys := { y with slotB := i } }
  else if stage = 1 then .next { s with sys := { y with slotA := i } }
  else .next { s with sys := { y with stages := y.stages.set (stage - 2) i } }

/-! ## SPDM (R541) -/

/-- Answer a request that comes on a queue pair the Inn reserves (R523). -/
def innAnswer (qp : Nat) (y : Sys) (r : Run) (o : Out) : Run := if y.ready && y.innQps.contains qp then r.send o else r
def spdm (qp : Nat) (code : Nat) (vals : Sys → List Nat) (y : Sys) (r : Run) : Run := innAnswer qp y r (.spdm code (vals y))

/-- SPDM 1.3 alone. -/
def execGetVersion (qp : Nat) (s : State) : Host.Outcome State Fault Refusal := event s (spdm qp 0x04 (fun _ => [0x13]))
/-- The requests answered, in the order of R541. -/
def execGetCapabilities (qp : Nat) (s : State) : Host.Outcome State Fault Refusal :=
  event s (spdm qp 0x61 (fun _ => [0x84, 0xE1, 0xE3, 0x81, 0x82, 0x83, 0xE0]))
/-- ECDSA P-521 with SHA-512, or nothing in common. -/
def execNegotiateAlgorithms (qp : Nat) (p521Sha512 : Bool) (s : State) : Host.Outcome State Fault Refusal :=
  event s (spdm qp 0x63 (fun _ => [if p521Sha512 then 1 else 0]))
def execGetDigests (qp : Nat) (s : State) : Host.Outcome State Fault Refusal :=
  event s (spdm qp 0x01 (fun y => [Config.sha (Config.cert y.devId y.alias_)]))
def execGetCertificate (qp : Nat) (s : State) : Host.Outcome State Fault Refusal :=
  event s (spdm qp 0x02 (fun y => [Config.cert y.devId y.alias_]))
/-- The Alias key signs the nonce. -/
def execChallenge (qp : Nat) (nonce : Nat) (s : State) : Host.Outcome State Fault Refusal :=
  event s (spdm qp 0x03 (fun y => [Config.sign y.alias_ nonce]))
/-- Measurement block `index`, 1 to the number of stages; an error for any other. -/
def execGetMeasurements (qp index : Nat) (s : State) : Host.Outcome State Fault Refusal :=
  event s (fun y r => match (if index = 0 then none else y.measured[index - 1]?) with
    | some d => spdm qp 0x60 (fun _ => [index, d]) y r
    | none => spdm qp 0x7F (fun _ => [index]) y r)

/-! ## The black box and the Inn's own faults -/

/-- What a read over the management path gives: the whole entry that the slot of SEQ holds, nothing where none has been written (R547); a
capacity word (R545), 0 at an index that has none (log entry 76). -/
def MgmtReq.answer (q : MgmtReq) (r : Run) : Out :=
  match q with
  | .entry seq => .blackBox (((r.bb.find? (fun e => e.seq % 4096 = seq % 4096)).map (fun e => e.bytes)).getD [])
  | .capacity i => .capacity (BitVec.ofNat 64 ((r.capacity i).getD 0))

/-- BLACK_BOX_READ, on a queue pair the Inn reserves (R523). -/
def execBlackBoxRead (qp : Nat) (q : MgmtReq) (s : State) : Host.Outcome State Fault Refusal :=
  event s (fun y r => innAnswer qp y r (MgmtReq.answer q r))

/-- INN_CAPABILITY_FAULT: on record k of queue q, BADFIELD; in the Inn's own firmware, a reset of the Inn that shows only as
delay. -/
def execInnCapabilityFault (record : Option (Nat × Nat)) (s : State) : Host.Outcome State Fault Refusal :=
  event s (fun y r => match record with
    | none => r
    | some (q, k) => (match (r.queue q).cmds.find? (fun c => c.k = k) with
      | some c => badField y r q c
      | none => r))

/-! ## Power and temperature (R542, R543) -/

/-- POWER_AVERAGE: one step down above the cap, one up below 95 % of it. -/
def powerAverage (y : Sys) (r : Run) (p watts : Nat) : Run :=
  let cap := (r.part p).cap
  (y.diesOf p).foldl (fun r d => r.onDie d (fun x =>
    if cap < watts then { x with duty := x.duty - 1 }
    else if watts * 100 < cap * 95 && x.hot = 0 then { x with duty := min 16 (x.duty + 1) }
    else x)) r

def execPowerAverage (part watts : Nat) (s : State) : Host.Outcome State Fault Refusal := event s (fun y r => powerAverage y r part watts)

/-- Freeze every tenant, note the event, and power down once every capture is written. -/
def thermalStop (y : Sys) (r : Run) (detail : Nat) : Run :=
  if r.down then r else
  let r := (r.ctxs.map (·.1)).foldl (fun r c => freezeCtx y r c 7) r
  { (r.event 5 0xFF 0xFFFF detail).send .powerDown with down := true }

/-- The detail word of a THERMAL event: the sensor of the device and °C. -/
def thermalDetail (die sensor celsius : Nat) : Nat := (die * 16 + sensor) * 65536 + celsius

/-- THERMAL_READING: the hottest sensor of a die, once a millisecond. `hot` is 2 while the die issues nothing, 1 while its duty
falls. -/
def thermalReading (y : Sys) (r : Run) (die t sensor : Nat) : Run :=
  let x := r.die die
  if 110 ≤ t then thermalStop y r (thermalDetail die sensor t)
  else if 105 ≤ t then
    (if x.hot = 2 then r else r.event 5 0xFF 0xFFFF (thermalDetail die sensor t)).onDie die (fun x => { x with hot := 2 })
  else if x.hot = 2 && 100 ≤ t then r
  else if 95 ≤ t || (x.hot ≠ 0 && 92 ≤ t) then r.onDie die (fun x => { x with hot := 1, duty := x.duty - 1 })
  else r.onDie die (fun x => { x with hot := 0 })

def execThermalReading (die celsius sensor : Nat) (s : State) : Host.Outcome State Fault Refusal :=
  event s (fun y r => thermalReading y r die celsius sensor)

def execCoolantFlowLoss (s : State) : Host.Outcome State Fault Refusal := event s (fun y r => thermalStop y r 0xFFFF0000)

/-- SUPPLY_EXCURSION: `mil` is the deviation in thousandths of the nominal voltage, held for 1 ms. -/
def execSupplyExcursion (domain mil : Nat) (s : State) : Host.Outcome State Fault Refusal :=
  event s (fun _ r => if mil ≤ 50 then r else
    (((r.event 4 0xFF 0xFFFF (domain * 65536 + min 0xFFFF mil)).event 0x0A 0xFF 0xFFFF 5).send (.alert 5 domain)).send (.manage 5 domain 5))

/-! ## Failing units (R544) -/

/-- ECC_ERROR: a second corrected error within a second, or an uncorrectable one, makes the slice due to be mapped out; the
tenant that read the line is frozen. -/
def eccError (y : Sys) (r : Run) (die slice : Nat) (bad : Bool) (reader : Option Nat) : Run :=
  let n := die * 64 + slice
  let last := SMap.get 0 r.eccAt n
  let due := bad || (last ≠ 0 && r.us + 1 - last < 1000000)
  let r := if bad then r else { r with eccAt := r.eccAt.set 0 n (r.us + 1) }
  let r := if due && !r.outSlices.contains n && !r.sickSlices.contains n then { r with sickSlices := r.sickSlices ++ [n] } else r
  let r := if bad then (match reader with | some c => freezeTenant y r (r.ctx c).part (r.ctx c).tenant 4 | none => r) else r
  healthPoint y r (y.partOf die)

def execEccError (die slice : Nat) (uncorrectable : Bool) (reader : Option Nat) (s : State) : Host.Outcome State Fault Refusal :=
  event s (fun y r => eccError y r die slice uncorrectable reader)

/-- CLUSTER_UNIT_FAULT. -/
def execClusterUnitFault (die cluster : Nat) (s : State) : Host.Outcome State Fault Refusal :=
  event s (fun _ r =>
    let n := die * 40 + cluster
    mapOutCluster (if r.sick.contains n then r else { r with sick := r.sick ++ [n] }) n)

end Sys2Proof.Machine
end

