-- ==== Sys2Proof/Machine/Dispatch.lean ====
section
/-! DEFINITION. The one match that sends each instruction and each step of the device to its meaning. -/

namespace Sys2Proof.Machine

def exec (i : Instr) (s : State) : Host.Outcome State Fault Refusal :=
  match i with
  | .nop h => Sys2Proof.Machine.execNop h s
  | .bra h off => Sys2Proof.Machine.execBra h off s
  | .brx h o => Sys2Proof.Machine.execBrx h o s
  | .call h o => Sys2Proof.Machine.execCall h o s
  | .callx h o => Sys2Proof.Machine.execCallx h o s
  | .ret h o => Sys2Proof.Machine.execRet h o s
  | .exit h => Sys2Proof.Machine.execExit h s
  | .regang h k => Sys2Proof.Machine.execRegang h k s
  | .yield h => Sys2Proof.Machine.execYield h s
  | .region h => Sys2Proof.Machine.execRegion h s
  | .trap h n => Sys2Proof.Machine.execTrap h n s
  | .brk h n => Sys2Proof.Machine.execBrk h n s
  | .rte h => Sys2Proof.Machine.execRte h s
  | .rteRegion h => Sys2Proof.Machine.execRteRegion h s
  | .rolesw h o => Sys2Proof.Machine.execRolesw h o s
  | .phase h o => Sys2Proof.Machine.execPhase h o s
  | .iadd h m o => Sys2Proof.Machine.execIadd h m o s
  | .isub h m o => Sys2Proof.Machine.execIsub h m o s
  | .imin h t o => Sys2Proof.Machine.execImin h t o s
  | .imax h t o => Sys2Proof.Machine.execImax h t o s
  | .iabs h m o => Sys2Proof.Machine.execIabs h m o s
  | .ineg h m o => Sys2Proof.Machine.execIneg h m o s
  | .and h t o => Sys2Proof.Machine.execAnd h t o s
  | .or h t o => Sys2Proof.Machine.execOr h t o s
  | .xor h t o => Sys2Proof.Machine.execXor h t o s
  | .not h t o => Sys2Proof.Machine.execNot h t o s
  | .shl h t o => Sys2Proof.Machine.execShl h t o s
  | .shr h t o => Sys2Proof.Machine.execShr h t o s
  | .rot h m o => Sys2Proof.Machine.execRot h m o s
  | .popc h t o => Sys2Proof.Machine.execPopc h t o s
  | .clz h t o => Sys2Proof.Machine.execClz h t o s
  | .brev h t o => Sys2Proof.Machine.execBrev h t o s
  | .bfe h t o => Sys2Proof.Machine.execBfe h t o s
  | .bfi h t o => Sys2Proof.Machine.execBfi h t o s
  | .sel h t o => Sys2Proof.Machine.execSel h t o s
  | .isetp h m o => Sys2Proof.Machine.execIsetp h m o s
  | .lea h m o => Sys2Proof.Machine.execLea h m o s
  | .imul h m o => Sys2Proof.Machine.execImul h m o s
  | .imulh h t o => Sys2Proof.Machine.execImulh h t o s
  | .imad h t o => Sys2Proof.Machine.execImad h t o s
  | .imadw h t o => Sys2Proof.Machine.execImadw h t o s
  | .fadd h m o => Sys2Proof.Machine.execFadd h m o s
  | .fsub h m o => Sys2Proof.Machine.execFsub h m o s
  | .fmul h m o => Sys2Proof.Machine.execFmul h m o s
  | .ffma h m o => Sys2Proof.Machine.execFfma h m o s
  | .fmin h m o => Sys2Proof.Machine.execFmin h m o s
  | .fmax h m o => Sys2Proof.Machine.execFmax h m o s
  | .fsetp h m o => Sys2Proof.Machine.execFsetp h m o s
  | .fclass h o => Sys2Proof.Machine.execFclass h o s
  | .fscale h m o => Sys2Proof.Machine.execFscale h m o s
  | .frcp h m o => Sys2Proof.Machine.execFrcp h m o s
  | .frsq h m o => Sys2Proof.Machine.execFrsq h m o s
  | .fsqrt h m o => Sys2Proof.Machine.execFsqrt h m o s
  | .fexp2 h m o => Sys2Proof.Machine.execFexp2 h m o s
  | .flog2 h m o => Sys2Proof.Machine.execFlog2 h m o s
  | .fsin h m o => Sys2Proof.Machine.execFsin h m o s
  | .fcos h m o => Sys2Proof.Machine.execFcos h m o s
  | .ftanh h m o => Sys2Proof.Machine.execFtanh h m o s
  | .cvt h m o => Sys2Proof.Machine.execCvt h m o s
  | .pack h m o => Sys2Proof.Machine.execPack h m o s
  | .unpk h m o => Sys2Proof.Machine.execUnpk h m o s
  | .frnd h m o => Sys2Proof.Machine.execFrnd h m o s
  | .shfl h m o => Sys2Proof.Machine.execShfl h m o s
  | .vred h m o => Sys2Proof.Machine.execVred h m o s
  | .vscan h m o => Sys2Proof.Machine.execVscan h m o s
  | .vote h m o => Sys2Proof.Machine.execVote h m o s
  | .vbal h o => Sys2Proof.Machine.execVbal h o s
  | .vcomp h z o => Sys2Proof.Machine.execVcomp h z o s
  | .vexp h z o => Sys2Proof.Machine.execVexp h z o s
  | .vfirst h o => Sys2Proof.Machine.execVfirst h o s
  | .mov h o => Sys2Proof.Machine.execMov h o s
  | .movi h imm o => Sys2Proof.Machine.execMovi h imm o s
  | .movsGet h o => Sys2Proof.Machine.execMovsGet h o s
  | .movsPut h o => Sys2Proof.Machine.execMovsPut h o s
  | .movw h o => Sys2Proof.Machine.execMovw h o s
  | .mset h o => Sys2Proof.Machine.execMset h o s
  | .ld h m o => Sys2Proof.Machine.execLd h m o s
  | .st h m o => Sys2Proof.Machine.execSt h m o s
  | .lds h m o => Sys2Proof.Machine.execLds h m o s
  | .sts h m o => Sys2Proof.Machine.execSts h m o s
  | .ldc h m o => Sys2Proof.Machine.execLdc h m o s
  | .pref h m o => Sys2Proof.Machine.execPref h m o s
  | .atom h m o => Sys2Proof.Machine.execAtom h m o s
  | .red h m o => Sys2Proof.Machine.execRed h m o s
  | .cas h m o => Sys2Proof.Machine.execCas h m o s
  | .monitor h o => Sys2Proof.Machine.execMonitor h o s
  | .mwait h o => Sys2Proof.Machine.execMwait h o s
  | .fence h m => Sys2Proof.Machine.execFence h m s
  | .seal h o => Sys2Proof.Machine.execSeal h o s
  | .unseal h o => Sys2Proof.Machine.execUnseal h o s
  | .cacheRoinv h o => Sys2Proof.Machine.execCacheRoinv h o s
  | .cacheRoinvall h => Sys2Proof.Machine.execCacheRoinvall h s
  | .cacheClean h o => Sys2Proof.Machine.execCacheClean h o s
  | .cacheFlush h o => Sys2Proof.Machine.execCacheFlush h o s
  | .cpy h m o => Sys2Proof.Machine.execCpy h m o s
  | .cpyg h m o => Sys2Proof.Machine.execCpyg h m o s
  | .cpys h m o => Sys2Proof.Machine.execCpys h m o s
  | .cpywt h ch o => Sys2Proof.Machine.execCpywt h ch o s
  | .cpyq h ch o => Sys2Proof.Machine.execCpyq h ch o s
  | .bar h o => Sys2Proof.Machine.execBar h o s
  | .bara h o => Sys2Proof.Machine.execBara h o s
  | .barw h o => Sys2Proof.Machine.execBarw h o s
  | .nbar h n o => Sys2Proof.Machine.execNbar h n o s
  | .nbarw h n o => Sys2Proof.Machine.execNbarw h n o s
  | .ctacq h => Sys2Proof.Machine.execCtacq h s
  | .ctrel h => Sys2Proof.Machine.execCtrel h s
  | .racq h o => Sys2Proof.Machine.execRacq h o s
  | .racqTry h o => Sys2Proof.Machine.execRacqTry h o s
  | .rrel h o => Sys2Proof.Machine.execRrel h o s
  | .cacq h o => Sys2Proof.Machine.execCacq h o s
  | .cacqTry h o => Sys2Proof.Machine.execCacqTry h o s
  | .cacqRd h half o => Sys2Proof.Machine.execCacqRd h half o s
  | .crel h o => Sys2Proof.Machine.execCrel h o s
  | .crelWr h half o => Sys2Proof.Machine.execCrelWr h half o s
  | .tload h m o => Sys2Proof.Machine.execTload h m o s
  | .tmap h o => Sys2Proof.Machine.execTmap h o s
  | .tmma h m o => Sys2Proof.Machine.execTmma h m o s
  | .tew h m o => Sys2Proof.Machine.execTew h m o s
  | .tred h m o => Sys2Proof.Machine.execTred h m o s
  | .tcvt h m o => Sys2Proof.Machine.execTcvt h m o s
  | .tfmt h m o => Sys2Proof.Machine.execTfmt h m o s
  | .tbind h sp o => Sys2Proof.Machine.execTbind h sp o s
  | .tfree h o => Sys2Proof.Machine.execTfree h o s
  | .tfreeAcc h o => Sys2Proof.Machine.execTfreeAcc h o s
  | .torf h n => Sys2Proof.Machine.execTorf h n s
  | .tforce h close o => Sys2Proof.Machine.execTforce h close o s
  | .tstore h m o => Sys2Proof.Machine.execTstore h m o s
  | .twait h o => Sys2Proof.Machine.execTwait h o s
  | .tqry h k o => Sys2Proof.Machine.execTqry h k o s
  | .txdecl h wr o => Sys2Proof.Machine.execTxdecl h wr o s
  | .txsub h o => Sys2Proof.Machine.execTxsub h o s
  | .txwait h o => Sys2Proof.Machine.execTxwait h o s
  | .txend h o => Sys2Proof.Machine.execTxend h o s
  | .txqry h o => Sys2Proof.Machine.execTxqry h o s
  | .balburn h o => Sys2Proof.Machine.execBalburn h o s
  | .balshunt h o => Sys2Proof.Machine.execBalshunt h o s
  | .pwrwait h o => Sys2Proof.Machine.execPwrwait h o s
  | .pair h o => Sys2Proof.Machine.execPair h o s
  | .dqpush h o => Sys2Proof.Machine.execDqpush h o s
  | .dqpop h o => Sys2Proof.Machine.execDqpop h o s
  | .dqsteal h o => Sys2Proof.Machine.execDqsteal h o s
  | .cont h role o => Sys2Proof.Machine.execCont h role o s
  | .contw h o => Sys2Proof.Machine.execContw h o s
  | .clst h o => Sys2Proof.Machine.execClst h o s
  | .clwt h o => Sys2Proof.Machine.execClwt h o s
  | .clq h o => Sys2Proof.Machine.execClq h o s
  | .syscVersion h => Sys2Proof.Machine.execSyscVersion h s
  | .syscCapacity h => Sys2Proof.Machine.execSyscCapacity h s
  | .syscQuota h => Sys2Proof.Machine.execSyscQuota h s
  | .syscMark h => Sys2Proof.Machine.execSyscMark h s
  | .syscUnassigned h n => Sys2Proof.Machine.execSyscUnassigned h n s
  | .tlbiVa h dev o => Sys2Proof.Machine.execTlbiVa h dev o s
  | .tlbiTenant h dev o => Sys2Proof.Machine.execTlbiTenant h dev o s
  | .tlbiAll h dev => Sys2Proof.Machine.execTlbiAll h dev s
  | .fwcallVersion h => Sys2Proof.Machine.execFwcallVersion h s
  | .fwcallBbread h => Sys2Proof.Machine.execFwcallBbread h s
  | .fwcallPwrcap h => Sys2Proof.Machine.execFwcallPwrcap h s
  | .fwcallGreform h => Sys2Proof.Machine.execFwcallGreform h s
  | .fwcallUnassigned h n => Sys2Proof.Machine.execFwcallUnassigned h n s
  | .fwcallTimeout w => Sys2Proof.Machine.execFwcallTimeout w s
  | .illop sub => Sys2Proof.Machine.execIllop sub s
  | .softmaxFusion x => Sys2Proof.Machine.execSoftmaxFusion x s
  | .stallExpiry w => Sys2Proof.Machine.execStallExpiry w s
  | .resultArrival w k m x => Sys2Proof.Machine.execResultArrival w k m x s
  | .waveSlotRelease w => Sys2Proof.Machine.execWaveSlotRelease w s
  | .blockEnd b => Sys2Proof.Machine.execBlockEnd b s
  | .faultRepaired w lane => Sys2Proof.Machine.execFaultRepaired w lane s
  | .faultDeclined site => Sys2Proof.Machine.execFaultDeclined site s
  | .walkComplete die => Sys2Proof.Machine.execWalkComplete die s
  | .writeAcknowledgement w addr refused => Sys2Proof.Machine.execWriteAcknowledgement w addr refused s
  | .fabricTimeout w k m f => Sys2Proof.Machine.execFabricTimeout w k m f s
  | .atomicTimeout w k m applied => Sys2Proof.Machine.execAtomicTimeout w k m applied s
  | .lateTrapDelivery w => Sys2Proof.Machine.execLateTrapDelivery w s
  | .atomicRequest way port tag r => Sys2Proof.Machine.execAtomicRequest way port tag r s
  | .releaseFlit way port tag => Sys2Proof.Machine.execReleaseFlit way port tag s
  | .remoteDataRequest port r => Sys2Proof.Machine.execRemoteDataRequest port r s
  | .copyStart core ch => Sys2Proof.Machine.execCopyStart core ch s
  | .copyResume core ch => Sys2Proof.Machine.execCopyResume core ch s
  | .copyComplete core ch x => Sys2Proof.Machine.execCopyComplete core ch x s
  | .copyFault core ch f => Sys2Proof.Machine.execCopyFault core ch f s
  | .monitorWriteWake w => Sys2Proof.Machine.execMonitorWriteWake w s
  | .mwaitTimeout w => Sys2Proof.Machine.execMwaitTimeout w s
  | .mwaitEvent w => Sys2Proof.Machine.execMwaitEvent w s
  | .spuriousWake w => Sys2Proof.Machine.execSpuriousWake w s
  | .batchEvaluate b => Sys2Proof.Machine.execBatchEvaluate b s
  | .batchComplete b => Sys2Proof.Machine.execBatchComplete b s
  | .clauseFault b f => Sys2Proof.Machine.execClauseFault b f s
  | .evalResume b => Sys2Proof.Machine.execEvalResume b s
  | .streamTrapDelivery b => Sys2Proof.Machine.execStreamTrapDelivery b s
  | .beatEnd => Sys2Proof.Machine.execBeatEnd s
  | .grantRequestArrival => Sys2Proof.Machine.execGrantRequestArrival s
  | .ticketTimeout w slot => Sys2Proof.Machine.execTicketTimeout w slot s
  | .windowEnd pair => Sys2Proof.Machine.execWindowEnd pair s
  | .pwrTrap w => Sys2Proof.Machine.execPwrTrap w s
  | .burnEnd w lane => Sys2Proof.Machine.execBurnEnd w lane s
  | .pairDerate pair => Sys2Proof.Machine.execPairDerate pair s
  | .misthWrite pair v => Sys2Proof.Machine.execMisthWrite pair v s
  | .mistxWrite pair v => Sys2Proof.Machine.execMistxWrite pair v s
  | .balctlWrite core v => Sys2Proof.Machine.execBalctlWrite core v s
  | .fpcrWrite w v => Sys2Proof.Machine.execFpcrWrite w v s
  | .fpsrAccess w v => Sys2Proof.Machine.execFpsrAccess w v s
  | .preemptDrain ctx set => Sys2Proof.Machine.execPreemptDrain ctx set s
  | .preemptHalt ctx set => Sys2Proof.Machine.execPreemptHalt ctx set s
  | .preemptForcedSave ctx set => Sys2Proof.Machine.execPreemptForcedSave ctx set s
  | .preemptCapture ctx set => Sys2Proof.Machine.execPreemptCapture ctx set s
  | .haltDeadline ctx => Sys2Proof.Machine.execHaltDeadline ctx s
  | .preemptTrap w => Sys2Proof.Machine.execPreemptTrap w s
  | .savetime ctx => Sys2Proof.Machine.execSavetime ctx s
  | .freeze part tenant reason => Sys2Proof.Machine.execFreeze part tenant reason s
  | .contextRestore ctx => Sys2Proof.Machine.execContextRestore ctx s
  | .quantumEnd part set => Sys2Proof.Machine.execQuantumEnd part set s
  | .wptrObserve q => Sys2Proof.Machine.execWptrObserve q s
  | .cmdNop q k => Sys2Proof.Machine.execCmdNop q k s
  | .launch q k => Sys2Proof.Machine.execLaunch q k s
  | .copy q k => Sys2Proof.Machine.execCopy q k s
  | .wait q k => Sys2Proof.Machine.execWait q k s
  | .waitSatisfied q k => Sys2Proof.Machine.execWaitSatisfied q k s
  | .signal q k => Sys2Proof.Machine.execSignal q k s
  | .copyCommandComplete q k => Sys2Proof.Machine.execCopyCommandComplete q k s
  | .launchComplete l => Sys2Proof.Machine.execLaunchComplete l s
  | .queueMap q => Sys2Proof.Machine.execQueueMap q s
  | .queueUnmapForced q => Sys2Proof.Machine.execQueueUnmapForced q s
  | .neighbourhoodPlace die => Sys2Proof.Machine.execNeighbourhoodPlace die s
  | .binForm core bin => Sys2Proof.Machine.execBinForm core bin s
  | .binAgeExpiry core bin => Sys2Proof.Machine.execBinAgeExpiry core bin s
  | .linkReplay port e => Sys2Proof.Machine.execLinkReplay port e s
  | .portDown port => Sys2Proof.Machine.execPortDown port s
  | .portMapout port => Sys2Proof.Machine.execPortMapout port s
  | .controlMessageDelivery port flow seq r => Sys2Proof.Machine.execControlMessageDelivery port flow seq r s
  | .collectiveDone part slot x => Sys2Proof.Machine.execCollectiveDone part slot x s
  | .collectiveAbortReceive part slot rank detail => Sys2Proof.Machine.execCollectiveAbortReceive part slot rank detail s
  | .progressTimeout part slot => Sys2Proof.Machine.execProgressTimeout part slot s
  | .rdmaWrite part qp m addr data => Sys2Proof.Machine.execRdmaWrite part qp m addr data s
  | .rdmaRead part qp m addr bytes => Sys2Proof.Machine.execRdmaRead part qp m addr bytes s
  | .rdmaSend part qp m data => Sys2Proof.Machine.execRdmaSend part qp m data s
  | .migrationRound ctx => Sys2Proof.Machine.execMigrationRound ctx s
  | .migrationStop ctx => Sys2Proof.Machine.execMigrationStop ctx s
  | .blackoutEnd ctx items => Sys2Proof.Machine.execBlackoutEnd ctx items s
  | .pullTimeout site => Sys2Proof.Machine.execPullTimeout site s
  | .boot debugAuth => Sys2Proof.Machine.execBoot debugAuth s
  | .coolantFlowLoss => Sys2Proof.Machine.execCoolantFlowLoss s
  | .pwrwaitTimeout w => Sys2Proof.Machine.execPwrwaitTimeout w s
  | .dequeStealRequest core launch thief => Sys2Proof.Machine.execDequeStealRequest core launch thief s
  | .getVersion qp => Sys2Proof.Machine.execGetVersion qp s
  | .getCapabilities qp => Sys2Proof.Machine.execGetCapabilities qp s
  | .negotiateAlgorithms qp p521Sha512 => Sys2Proof.Machine.execNegotiateAlgorithms qp p521Sha512 s
  | .getDigests qp => Sys2Proof.Machine.execGetDigests qp s
  | .getCertificate qp => Sys2Proof.Machine.execGetCertificate qp s
  | .challenge qp nonce => Sys2Proof.Machine.execChallenge qp nonce s
  | .getMeasurements qp index => Sys2Proof.Machine.execGetMeasurements qp index s
  | .blackBoxRead qp q => Sys2Proof.Machine.execBlackBoxRead qp q s
  | .postcopyPull ctx gpa page => Sys2Proof.Machine.execPostcopyPull ctx gpa page s
  | .fwpmapWrite r => Sys2Proof.Machine.execFwpmapWrite r s
  | .fwbndWrite n closed => Sys2Proof.Machine.execFwbndWrite n closed s
  | .fwlpWrite n base size bw => Sys2Proof.Machine.execFwlpWrite n base size bw s
  | .innCapabilityFault record => Sys2Proof.Machine.execInnCapabilityFault record s
  | .powerAverage part watts => Sys2Proof.Machine.execPowerAverage part watts s
  | .thermalReading die celsius sensor => Sys2Proof.Machine.execThermalReading die celsius sensor s
  | .supplyExcursion domain mil => Sys2Proof.Machine.execSupplyExcursion domain mil s
  | .eccError die slice uncorrectable reader => Sys2Proof.Machine.execEccError die slice uncorrectable reader s
  | .portRetraining port ok => Sys2Proof.Machine.execPortRetraining port ok s
  | .clusterUnitFault die cluster => Sys2Proof.Machine.execClusterUnitFault die cluster s
  | .tenantRelease part tenant => Sys2Proof.Machine.execTenantRelease part tenant s
  | .recoveryImageLoad stage image => Sys2Proof.Machine.execRecoveryImageLoad stage image s

end Sys2Proof.Machine
end

