-- ==== Sys2Proof/Machine/Sched.lean ====
section
/-! DEFINITION. Which group issues next (R92 to R94, R436, R542): the ends of waits, ready waves, the priority class and the
rotation of a core. -/

namespace Sys2Proof.Machine

/-- Whether the wait of a part that will issue afresh is over. -/
def Run.waitOver (r : Run) (wid : Nat) (k : Wait) : Bool :=
  let w := r.wave wid
  let core := coreOf wid
  match k with
  | .regs rs => rs.all (fun x => !w.isEmpty x)
  | .xlane => !r.fpDue wid
  | .acquire => !w.acquirePending
  | .reads => w.pend.all (fun (p : Pend) => p.kind = .xlane)
  | .remotes => !r.farBusy (r.partOf wid)
  | .release _ => !w.unperformed
  | .ackRoom => w.acks < 256
  | .slices ss => ss.all (fun s => ((r.part (r.partOf wid)).dedup.filter (fun e => e.site = .slice s)).length ≤ 480)
  | .line l => w.remote.all (fun a => a.msg.isSome || r.farLine (r.partOf wid) a.pa ≠ l)
  | .flow f => (((r.part (r.partOf wid)).flows.get? f).getD {}).unacked.length < 64
  | .walker => r.walkerFree core
  | .channel ch => (r.channel core ch).length < 6
  | .txRoom => (freeEntry (r.part (r.partOf wid)) (dieOf core)).isSome
  | .clRoom => (r.part (r.partOf wid)).colls.length < 64
  | .drain => r.drained wid
  | .accToken c => (r.accTok core c).holder = .stream w.blk
  | .spill => (r.block w.blk).spill.all (fun x => match x.st with | .failed _ => true | _ => false)
  | .batchRoom => (r.block w.blk).incomplete.length < 4
  | k => r.effectDone wid k

/-- Whether a part may issue now (R93): its wait is over, and no trap of another part stops it (R102). -/
def Run.partReady (r : Run) (wid : Nat) (w : Wave) (p : Part) : Bool :=
  (w.handler = 0 || (p.mask &&& w.handler) ≠ 0) &&
  match p.park with
  | .run => true
  | .retry k => r.waitOver wid k
  | .contBin _ => (r.core (coreOf wid)).bins.length < 8
  | .trapped _ => true
  | _ => false

/-- Whether the issue ports of a core act in this cycle: the die's duty, throttle and clamp, and the pair's window ended. -/
def Run.portsOpen (r : Run) (core : Nat) : Bool :=
  let b := (r.core core).balctl
  r.clk % 16 < (r.die (dieOf core)).issueDuty &&
  !b.getLsbD 10 && (!b.getLsbD 8 || r.clk % 2 = 0) &&
  match r.pairs.get? (pairOf core) with
  | some p => r.clk / 256 ≤ p.win
  | none => true

/-- Whether a halt or a forced save stops a wave now: with a PREEMPT trap in place of its stop, only until that is due to it (R488, R493). -/
def Run.halting (r : Run) (w : Wave) : Bool :=
  let c := r.ctxOf w
  2 ≤ c.step && !c.done && w.stops c.step && !(c.trapping && c.step = 2 && !w.stream && w.preTrap)

/-- Whether a wave or a stream is ready (R93, R94, R338); one that a halt stops issues nothing more (R488). -/
def Run.waveReady (y : Sys) (r : Run) (wid : Nat) (w : Wave) : Bool :=
  y.valid && !r.halting w && w.life = .live && w.stall = 0 && !w.pend.any (fun p => p.hold) && !r.issued.contains wid &&
  (if w.stream then (r.block w.blk).strap.isNone
   else r.portsOpen (coreOf wid) && (!r.det w || (r.block w.blk).cur = wid)) &&
  w.parts.any (r.partReady wid w)

/-- The issue ports of a core still free in this cycle: two groups, of different waves. -/
def Run.portFree (r : Run) (core : Nat) : Bool := (r.issued.filter (fun n => n < 30720 && coreOf n = core)).length < 2

/-- The ready waves of a core that are of its highest ready class (R93). -/
def Run.rivals (r : Run) (core : Nat) (ready : List (Nat × Wave)) : List (Nat × Wave) :=
  let es := ready.filter (fun e => !e.2.stream && coreOf e.1 = core)
  let top := es.foldl (fun n e => max n (r.launchOf e.2).cls) 0
  es.filter (fun e => (r.launchOf e.2).cls = top)

/-- How far a wave stands from the next turn of its core's rotation. -/
def Run.turnsTo (r : Run) (wid : Nat) : Nat := (slotOf wid + 24 - (r.core (coreOf wid)).turn % 24) % 24

/-- Whether a wave gives up its next turn (R93, R109); YLD is ignored in DET mode (R48). -/
def Run.yields (r : Run) (w : Wave) : Bool := w.yielded && !r.det w

/-- The wave a port of a core picks among the ready ones: of the highest class, past the waves that yield where another is ready,
the next in rotation. -/
def Run.pickOn (r : Run) (core : Nat) (ready : List (Nat × Wave)) : Option Nat :=
  let es := r.rivals core ready
  let keep := es.filter (fun e => !r.yields e.2)
  (leastBy (fun e => r.turnsTo e.1) (if keep = [] then es else keep)).map (·.1)

/-- The waves and streams that are ready. -/
def Run.ready (y : Sys) (r : Run) : List (Nat × Wave) := r.waves.filter (fun e => r.waveReady y e.1 e.2)

/-- The wave or stream that issues next in this cycle: cores and streams take their turns in an order that is not stated. -/
def Run.pickWave (y : Sys) (r : Run) : Option Nat :=
  let ready := r.ready y
  match leastBy (fun (e : Nat × Wave) => Config.coreRank r.clk (if e.2.stream then e.1 else coreOf e.1))
      (ready.filter (fun e => e.2.stream || r.portFree (coreOf e.1))) with
  | none => none
  | some e => if e.2.stream then some e.1 else r.pickOn (coreOf e.1) ready

/-- The group that a ready part issues with: the ready parts of its gang. A part of another slice that is parked is left out, though its PC is
theirs (R92, log entry 4). -/
def Run.readyGroup (r : Run) (wid : Nat) (w : Wave) (p : Part) : Lanes :=
  (w.parts.filter (r.partReady wid w)).foldl (fun m (q : Part) => if (q.mask &&& w.groupOf p) ≠ 0 then m ||| q.mask else m) 0

/-- The group of a wave that issues next: its ready groups take turns by their lowest lanes (R100). -/
def Run.pickGroup (r : Run) (wid : Nat) : Option Lanes :=
  let w := r.wave wid
  leastBy (fun (m : Lanes) => (m.lowest + 32 - w.turn % 32) % 32) ((w.parts.filter (r.partReady wid w)).map (r.readyGroup wid w))

/-- What an issue at this cycle sees of a fixed-latency result in flight: all that its instruction wrote as it was, or as it is (R47);
the step of an LDS or STS so lane by lane (R222). -/
def Young.look (z : Young) (clk wid : Nat) : Young :=
  let m := if z.step then Lanes.ofTest (fun l => Config.seesOld clk wid z.src (some l))
    else if Config.seesOld clk wid z.src none then 0xFFFFFFFF#32 else 0
  { z with stale := z.lanes &&& m }
def Wave.look (w : Wave) (clk wid : Nat) : Wave :=
  { w with young := (w.young.filter (fun y => clk < y.till)).map (fun y => y.look clk wid) }

/-- The waves a port passes over when it picks `wid`: yielding ones whose turn came first, or all that yield where every
one does (R93). -/
def Run.passedOver (y : Sys) (r : Run) (wid : Nat) : List Nat :=
  let es := (r.rivals (coreOf wid) (r.ready y)).filter (fun e => e.1 ≠ wid && r.yields e.2)
  (es.filter (fun e => r.turnsTo e.1 < r.turnsTo wid || r.yields (r.wave wid))).map (·.1)

/-- The issue of a group begins: the rotation of its core moves past it, and who was passed over has given up its turn. -/
def Run.begin (y : Sys) (r : Run) (wid : Nat) (m : Lanes) : Run :=
  let past := if 30720 ≤ wid then [] else r.passedOver y wid
  let r : Run := { r with cur := ⟨wid, m, none⟩, issued := wid :: r.issued, evTurn := true }
  let r := r.onWave wid (fun w => w.look r.clk wid)
  if 30720 ≤ wid then r else
  let r := r.onCore (coreOf wid) (fun k => { k with turn := slotOf wid + 1 })
  let r := past.foldl (fun r n => r.onWave n (fun w => { w with yielded := false })) r
  r.onWave wid (fun w => { w with turn := m.lowest + 1, yielded := false })

end Sys2Proof.Machine
end

