-- ==== Sys2Proof/Machine/Due.lean ====
section
/-! DEFINITION. The steps of the device that are due of themselves: each is listed while its exec arm would change the run. What
comes from outside the device, or at a moment the spec leaves open there, comes through the inbox. -/

namespace Sys2Proof.Machine

/-- The first of some candidates whose condition holds. -/
def firstDue (xs : List (Bool × Instr)) : Option Instr := (xs.find? (fun e => e.1)).map (·.2)

/-- Whether a batch of a ticket's 65,536 beats has run out (R414). -/
def Run.ticketDue (r : Run) (wid : Nat) (one : Bool) : Bool :=
  match ((r.wave wid).slot one).bind (r.ticketOf wid) with
  | some k => k.beat + 65536 ≤ (r.part (r.partOf wid)).beat
  | none => false

/-- A request of a wave that no answer has met within the fabric timeout (R313, R505). -/
def Run.overdue (r : Run) (n : Nat) (w : Wave) : Option Instr :=
  let late (t : Nat) : Bool := t + (r.ctxOf w).ftoCycles ≤ r.clk
  let lost : Option Instr := w.pend.findSome? (fun (p : Pend) =>
    let m := farMask (p.far.filter (fun x => late x.sent))
    if m = 0 then none else match p.kind with
      | .load _ => some (.fabricTimeout n p.id m .timeout)
      | .atomic _ => some (.atomicTimeout n p.id m false)
      | .object _ _ => some (.fabricTimeout n p.id m .timeout)
      | _ => none)
  lost.orElse (fun _ => (w.remote.find? (fun x => late x.sent)).map (fun x => .fabricTimeout n x.pa 0 .timeout))

/-- Whether no part of a wave can issue. -/
def Run.noneReady (r : Run) (wid : Nat) : Bool := !(r.wave wid).parts.any (r.partReady wid (r.wave wid))

/-- A wave's steps. -/
def Run.dueWave (y : Sys) (r : Run) (e : Nat × Wave) : Option Instr :=
  let n := e.1
  let w := e.2
  match ((w.pend.find? (fun p => p.far = [] && p.after ≤ r.clk && !Config.holds 0 n p.id r.clk)).map
      (fun p => Instr.resultArrival n p.id 0xFFFFFFFF#32 [])).orElse (fun _ => r.overdue n w) with
  | some i => some i
  | none =>
    match w.parts.findSome? (fun (p : Part) => match p.park with
      | .burn t _ => if t ≤ r.clk then some (Instr.burnEnd n p.mask.lowest) else none
      | _ => none) with
    | some i => some i
    | none =>
      firstDue [
        (w.inFwcall.any (fun x => x.2.2.2 + fwcallCycles ≤ r.clk), .fwcallTimeout n),
        (w.stall ≠ 0 && w.stall ≤ r.clk, .stallExpiry n),
        (w.life = .ended && !w.stream && w.acks = 0 && w.remote = [] && w.pend = [], .waveSlotRelease n),
        (w.life = .live && w.inMwait.isSome && w.mon.any (fun m => m.registered && r.monitorHit m), .monitorWriteWake n),
        (w.life = .live && w.inMwait.isSome && r.eventFor n, .mwaitEvent n),
        (w.life = .live && w.mwaits.any (fun e => e.2.1.any (fun t => t ≤ r.clk)), .mwaitTimeout n),
        (w.life = .live && w.inPwrwait.any (fun x => r.pwrStatus n false x.1 x.2.1 ≠ 0), .pwrwaitTimeout n),
        (r.ticketDue n false, .ticketTimeout n 0),
        (r.ticketDue n true, .ticketTimeout n 1),
        (w.life = .live && w.preTrap && !w.priv && r.noneReady n && w.nextPart.any (fun p => (withdraw y r n p true).isSome), .preemptTrap n)]

/-- Whether the trap of a block's stream is to be delivered to a wave: to its control wave, at the class's user vector (R338). -/
def Run.strapFor (r : Run) (wid : Nat) : Bool :=
  let w := r.wave wid
  r.controlWave w.blk = some wid && !w.priv && !w.inh && w.life = .live &&
  match (r.block w.blk).strap with
  | some t => t.delivered.isNone && delegable t.cls && (r.ctxOf w).tdeleg.getLsbD t.cls
  | none => false

/-- Whether the delivery of a stream's trap would take place now (R338): at the Inn, or to a control wave none of whose parts can issue; one
that can takes it before its next instruction. -/
def Run.strapDue (y : Sys) (r : Run) (b : Nat) (z : Block) : Bool :=
  match z.strap with
  | none => false
  | some t =>
    t.delivered.isNone && match r.controlWave b with
    | none => true
    | some wid =>
      let w := r.wave wid
      !(delegable t.cls && (r.ctx z.ctx).tdeleg.getLsbD t.cls) ||
      (r.strapFor wid && r.noneReady wid && w.nextPart.any (fun p => (withdraw y r wid p).isSome))

/-- A block's steps. -/
def Run.dueBlock (y : Sys) (r : Run) (e : Nat × Block) : Option Instr :=
  let b := e.1
  let z := e.2
  let head (f : Batch → Bool) : Bool := z.spill.any f || z.batches.head?.any f
  let asks (x : Batch) : Bool := x.demands.any (fun d => d.asked.isSome)
  let late (x : Batch) : Bool := x.demands.any (fun d => (d.asked.isSome || d.out ≠ []) && d.sent + (r.ctx z.ctx).ftoCycles ≤ r.clk)
  firstDue [
    (r.strapDue y b z, .streamTrapDelivery b),
    (head (fun x => match x.st with | .faulted _ => true | _ => false), .clauseFault b none),
    (head late, .clauseFault b (some .timeout)),
    (head (fun x => x.st = .evaluated && !x.beyond) && !Config.holds 5 b 0 r.clk, .batchComplete b),
    (z.work.any (fun x => !asks x.2 && !r.evalHalted b x.2) && r.walkerFree (b / 4) && r.portsOpen (b / 4) && !Config.holds 4 b 0 r.clk, .batchEvaluate b),
    (r.blockDone b, .blockEnd b)]

/-- A copy channel's step. -/
def Run.dueChannel (r : Run) (core : Nat) (q : Nat × List CopyOp) : Option Instr :=
  match q.2 with
  | [] => none
  | op :: _ =>
    firstDue [
      (op.flight.head?.any (fun b => b.sent + (r.ctx (r.block op.blk).ctx).ftoCycles ≤ r.clk), .copyFault core q.1 (some .timeout)),
      (op.fault.isSome && op.flight = [], .copyFault core q.1 none),
      (op.len ≤ op.delivered && op.fault.isNone && !Config.holds 3 core q.1 r.clk, .copyComplete core q.1 []),
      (!op.stays && r.walkerFree core && r.copyMoves op && !Config.holds 2 core q.1 r.clk, .copyStart core q.1)]

/-- Whether BIN_FORM would change something. -/
def Run.binDue (r : Run) (core : Nat) (b : Bin) : Bool :=
  r.binReady b && (!b.asked || (b.got && (r.freeSlot core).isSome) ||
    r.allParked b.blk (fun k => match k with | .contBin _ => true | .retry (.done _ _) => true | _ => false))

/-- A core's steps. -/
def Run.dueCore (r : Run) (e : Nat × Core) : Option Instr :=
  match e.2.channels.findSome? (r.dueChannel e.1) with
  | some i => some i
  | none => e.2.bins.findSome? (fun b => firstDue [
      (!b.2.due && b.2.recs ≠ [] && b.2.since + 4096 ≤ r.clk, .binAgeExpiry e.1 b.1),
      (r.binDue e.1 b.2, .binForm e.1 b.1)])

/-- A context's steps. -/
def Run.dueCtx (y : Sys) (r : Run) (e : Nat × Ctx) : Option Instr :=
  let n := e.1
  let c := e.2
  let stopping : Bool := (r.wavesOfCtx n).any (fun e => r.halting e.2)
  firstDue [
    (r.saveLate n, .savetime n),
    (r.haltDue n, .haltDeadline n),
    (c.step = 1 && !c.done && r.blocks.all (fun b => b.2.ctx ≠ n), .preemptDrain n none),
    (c.step = 2 && !c.done && (stopping || r.readyToSave n), .preemptHalt n none),
    (c.step = 3 && !c.done && (stopping || r.readyToSave n), .preemptForcedSave n none),
    (c.mig = .rounds && c.roundDue && !r.farBusy c.part, .migrationRound n),
    (c.mig = .stopping && c.frozen.isNone && !r.collBusy n && (c.step < 2 || c.done), .migrationStop n),
    (c.running && c.frozen.isNone && c.step = 0 && y.valid && c.saved.any (fun s => (r.restoreRect y s).isSome), .contextRestore n)]

/-- Whether a quantum's end would change something (R527). -/
def Run.quantumDue (r : Run) (p : Nat) : Bool :=
  match (r.part p).runCtx with
  | none => (r.nextCtx p none).isSome
  | some c => (r.part p).qStart + (r.part p).quantumCycles ≤ r.clk &&
      ((r.ctx c).done || r.nextCtx p (some c) = some c || r.nextCtx p (some c) = none || (r.ctx c).step < 2)

/-- A partition's steps: among them the release of a dedup entry within 2 µs of the reply to a request of its own (R287), and the end of a
collective's wait (R517). -/
def Run.duePart (y : Sys) (r : Run) (p : Nat) : Option Instr :=
  (((r.part p).dedup.findSome? (fun e => match e.own with
    | some t => if t + 4200 ≤ r.clk || !Config.holds 7 e.port e.tag r.clk then some (.releaseFlit (.inside p) e.port e.tag) else none
    | none => none)).orElse fun _ =>
  (r.part p).colls.findSome? (fun e => if r.collLate p e.2 then some (.progressTimeout p e.1) else none)).orElse fun _ =>
  firstDue [
    ((sendDue y r p).part p ≠ r.part p, .grantRequestArrival),
    (r.quantumDue p, .quantumEnd p none)]

/-- The places where a translation waits for a page that its migration's source has failed to send (R535). -/
def Run.lostSite (y : Sys) (r : Run) : Option FaultSite :=
  let lost (x : FaultSite) : Option FaultSite := if (r.lostAt y x).isSome then some x else none
  ((r.waves.findSome? (fun e => e.2.parts.findSome? (fun (p : Part) =>
    if p.park.isFault then lost (.part e.1 p.mask.lowest) else none))).orElse fun _ =>
  r.cores.findSome? (fun e => e.2.channels.findSome? (fun q => lost (.copy e.1 q.1)))).orElse fun _ =>
  r.blocks.findSome? (fun e => lost (.eval e.1))

/-- A steal that arrives at the end of a cycle, after the local operations of the cycle, the lowest issuing core's first (R475). -/
def Run.stealDue (r : Run) : Option Instr :=
  r.waves.findSome? (fun e => e.2.parts.findSome? (fun (p : Part) => match p.park with
    | .steal v _ _ _ => if e.2.life ≠ .live || Config.holds 6 e.1 0 r.clk then none else some (.dequeStealRequest v (r.block e.2.blk).launch e.1)
    | _ => none))

/-- Whether the record that may start next can: it waits for a page of its completion word, a launch or a signal for its own, that is to
come. -/
def Run.startDue (y : Sys) (r : Run) (q : Nat) (x : Queue) : Option Instr :=
  match x.startable, r.ctxRunning q with
  | some c, some cid =>
    if c.doneWaits y r cid then none
    else if c.ty = 1 then (if reachOf y r cid c.addr false = .wait && !c.malformed then none else some (.launch q c.k))
    else if c.ty = 2 then some (.copy q c.k)
    else if c.ty = 3 then some (.wait q c.k)
    else if c.ty = 4 then (if reachOf y r cid c.addr true = .wait && !c.malformed then none else some (.signal q c.k))
    else some (.cmdNop q c.k)
  | _, _ => none

/-- The end of a record that has started, or whose completion word alone is left to write. -/
def Run.endDue (y : Sys) (r : Run) (q : Nat) (x : Queue) : Option Instr :=
  (match r.ctxOfQueue q with
  | none => none
  | some cid => x.cmds.findSome? (fun (c : Cmd) => match c.st with
      | .complete _ => if c.doneWaits y r cid then none else some (Instr.waitSatisfied q c.k)
      | _ => none)).orElse fun _ =>
  match r.ctxRunning q with
  | none => none
  | some cid => x.cmds.findSome? (fun (c : Cmd) =>
      if c.st ≠ CmdState.started then none
      else if c.ty = 2 && !copyWaits y r cid c then some (.copyCommandComplete q c.k)
      else if c.ty = 3 && waitMet y r cid c then some (.waitSatisfied q c.k)
      else none)

/-- Whether the Inn has records of a queue to fetch that it can, or a WPTR that stops the queue. -/
def Run.fetchDue (y : Sys) (r : Run) (q : Nat) (x : Queue) : Bool :=
  let wp := memRead r.mem (x.qcb + 0x10) 8
  x.mapped && !x.stopped && wp ≠ x.rptr &&
  match r.ctxOfQueue q with
  | some c => (r.ctx c).fetching && (wp < x.rptr || x.rptr + 2 ^ x.logn < wp || recordReach y r c x x.rptr ≠ .wait)
  | none => false

/-- A queue's steps. -/
def Run.dueQueue (y : Sys) (r : Run) (e : Nat × Queue) : Option Instr :=
  let q := e.1
  let x := e.2
  let work : Bool := memRead r.mem (x.qcb + 0x10) 8 ≠ memRead r.mem (x.qcb + 0x18) 8
  match firstDue [
    (r.fetchDue y q x, .wptrObserve q),
    (!x.mapped && x.waiting && work && ((queueMap r q).queue q).mapped, .queueMap q),
    (r.reclaims q, .queueUnmapForced q)] with
  | some i => some i
  | none => (r.endDue y q x).orElse (fun _ => if x.stopped then none else r.startDue y q x)

/-- The first step of the device that is due. -/
def Run.due (y : Sys) (r : Run) : Option Instr :=
  if r.down then none else
  (r.dies.findSome? (fun d => if 0 < d.2.walks && !Config.holds 1 d.1 d.2.walks r.clk then some (.walkComplete d.1) else none)).orElse fun _ =>
  (r.pairs.findSome? (fun p => if p.2.win < r.clk / 256 then some (.windowEnd p.1) else none)).orElse fun _ =>
  (if (r.part 0).beat < r.clk / 336 then some .beatEnd else none).orElse fun _ =>
  (r.waves.findSome? (r.dueWave y)).orElse fun _ =>
  (r.blocks.findSome? (r.dueBlock y)).orElse fun _ =>
  (r.cores.findSome? r.dueCore).orElse fun _ =>
  ((List.range 4).findSome? (r.duePart y)).orElse fun _ =>
  (r.ctxs.findSome? (r.dueCtx y)).orElse fun _ =>
  (r.launches.findSome? (fun l => if r.launchOver l.1 then some (.launchComplete l.1) else none)).orElse fun _ =>
  (r.queues.findSome? (r.dueQueue y)).orElse fun _ =>
  (r.ports.findSome? (fun p => firstDue [(p.2.lost, .portMapout p.1), (p.2.silent r.clk, .portDown p.1)])).orElse fun _ =>
  (r.pairs.findSome? (fun p => if p.2.bad then some (.pairDerate p.1) else none)).orElse fun _ =>
  ((r.lostSite y).map Instr.pullTimeout).orElse fun _ =>
  (List.range 4).findSome? (fun d => if y.valid && (r.nextPlace y d).isSome then some (.neighbourhoodPlace d) else none)

end Sys2Proof.Machine
end

