-- ==== Sys2Proof/Machine/Fetch.lean ====
section
/-! DEFINITION. The fetch of an instruction's bytes (R33, R105, R245), the traps at its boundary, fusion (R184), and what the
next step of the machine is. -/

namespace Sys2Proof.Machine

/-! ## Fetch -/

/-- Byte i of a word from its translated pieces (R238); a byte of another device is open. -/
def fetchByte (r : Run) (ts : List (Nat × Xlat)) (pc i : Nat) : Byte :=
  match ts.find? (fun t => t.1 ≤ pc + i && t.1 / 8192 = (pc + i) / 8192) with
  | none => 0
  | some t =>
    let pa := t.2.pa + (pc + i - t.1)
    if isAper pa then (Config.freeWord (r.fresh + i)).setWidth 8 else memGet r.mem pa

/-- Fetch the word a group stands at. -/
def fetchWord (y : Sys) (r : Run) (c : Iss) : Eff (BitVec 96) :=
  let w := r.wave c.wid
  let pc := c.pc.toNat
  let t (sub : Nat) : Trap := memTrap sub (c.m.toList.map (fun l => (l, pc)))
  if !w.priv && !r.inCode w pc then .trap r (t 2)
  else if 2 ^ 52 < pc + 12 then .trap r (t 0x11)
  else
    (preTranslateRange y r (coreOf c.wid) (if w.stream then Config.streamSlot else slotOf c.wid) (r.block w.blk).ctx { fetch := true, priv := w.priv } c.pc c.m pc 12).bind fun r ts =>
    let far := ts.any (fun t => isAper t.2.pa)
    .ok (if far then { r with fresh := r.fresh + 12 } else r) (wordOfBytes ((List.range 12).map (fetchByte r ts pc)))

/-! ## Before the instruction -/

/-- A trap that the boundary before an instruction delivers: late traps, PWR, PREEMPT, the trap of the block's stream. -/
def Run.boundaryEvent (y : Sys) (r : Run) (wid : Nat) (p : Part) : Option Instr :=
  let w := r.wave wid
  let first : Bool := match p.park with | .run => true | .retry k => !k.blocking | _ => false
  if w.stream || !first then none
  else if w.late ≠ [] then some (.lateTrapDelivery wid)
  else if r.pwrDue wid then some (.pwrTrap wid)
  else if w.preTrap && !w.priv then some (.preemptTrap wid)
  else if r.strapFor wid && (withdraw y r wid p).isSome then some (.streamTrapDelivery w.blk)
  else none

/-! ## Fusion (R184) -/

/-- The four instructions as a fused sequence. -/
def fuseOf (a b c d : Instr) : Option FuseArgs :=
  let isV (o : Opd) : Bool := match o with | .v _ | .rel _ _ => true | _ => false
  let arith : Option (Hd × Bool × FpMod × Ops) := match b with
    | .fsub h m o => some (h, false, m, o)
    | .ffma h m o => some (h, true, m, o)
    | _ => none
  match a, arith, c, d with
  | .vred h1 m1 o1, some (h2, f, m2, o2), .fexp2 h3 m3 o3, .vred h4 m4 o4 =>
    if m1.t = .f32 && m1.op = .max && isV o1.d && m2.t = .f32 && (o2.a = o1.d || o2.b = o1.d || (f && o2.c = o1.d)) &&
       m3.t = .f32 && o3.a = o2.d && m4.t = .f32 && m4.op = .add && o4.a = o3.d &&
       h1.grd = h2.grd && h1.grd = h3.grd && h1.grd = h4.grd then
      some ⟨h1, m1, o1, h2, f, m2, o2, h3, m3, o3, h4, m4, o4⟩
    else none
  | _, _, _, _ => none

/-- The instruction at an address as decode sees it ahead: in the code, readable and well formed. -/
def Run.ahead (y : Sys) (r : Run) (wid : Nat) (pc : Word64) : Option Instr :=
  if !(r.wave wid).priv && !r.inCode (r.wave wid) pc.toNat then none else r.instrAt y wid pc

/-- What decode makes of an instruction at a PC: itself, or the sequence it begins. -/
def Run.fused (y : Sys) (r : Run) (wid : Nat) (pc : Word64) (i : Instr) : Instr :=
  match i with
  | .vred _ _ _ =>
    if (r.wave wid).stream || !(r.wave wid).reconverged then i else
    match r.ahead y wid (pc + 12), r.ahead y wid (pc + 24), r.ahead y wid (pc + 36) with
    | some b, some c, some d => (match fuseOf i b c d with | some x => .softmaxFusion x | none => i)
    | _, _, _ => i
  | i => i

/-! ## Results in flight (R47) -/

/-- Cycles until the fixed-latency results of an instruction are ready, in vector, scalar, predicate and modulo registers,
and in address registers; 0 where it has none, its results being variable-latency or stated without a latency. -/
def latency (r : Run) (i : Instr) : Nat × Nat :=
  match i with
  | .iadd _ _ _ | .isub _ _ _ | .imin _ _ _ | .imax _ _ _ | .iabs _ _ _ | .ineg _ _ _ | .and _ _ _ | .or _ _ _ | .xor _ _ _ | .not _ _ _
  | .shl _ _ _ | .shr _ _ _ | .rot _ _ _ | .popc _ _ _ | .clz _ _ _ | .brev _ _ _ | .bfe _ _ _ | .bfi _ _ _ | .sel _ _ _
  | .isetp _ _ _ | .lea _ _ _ | .imul _ _ _ | .imulh _ _ _ | .imad _ _ _ | .imadw _ _ _
  | .fadd _ _ _ | .fsub _ _ _ | .fmul _ _ _ | .ffma _ _ _ | .fmin _ _ _ | .fmax _ _ _ | .fsetp _ _ _ | .fclass _ _ | .fscale _ _ _
  | .cvt _ _ _ | .pack _ _ _ | .unpk _ _ _ | .frnd _ _ _
  | .shfl _ _ _ | .vote _ _ _ | .vbal _ _ | .vfirst _ _
  | .mov _ _ | .movi _ _ _ | .movsPut _ _ | .mset _ _ | .call _ _ | .callx _ _ | .racqTry _ _
  | .txsub _ _ | .txqry _ _ | .balshunt _ _ | .dqpush _ _ | .dqpop _ _ | .clst _ _ | .clq _ _ => (4, 4)
  | .frcp _ _ _ | .frsq _ _ _ | .fsqrt _ _ _ | .fexp2 _ _ _ | .flog2 _ _ _ | .fsin _ _ _ | .fcos _ _ _ | .ftanh _ _ _ => (12, 12)
  | .sts _ _ _ => (0, 4)
  | .lds h m o =>
    (match r.issuer h with
    | none => (24, 4)
    | some c =>
      match scrAll r c (Size.bytes m.size) false (c.act.toList.map (fun l => (l, r.saddr c o m l))) with
      | .ok ps => (24 + excessPasses r c.wid (Size.bytes m.size) (c.act.toList.map (fun l => (l, r.saddr c o m l))) ps, 4)
      | .error _ => (24, 4))
  | _ => (0, 0)

/-- Whether an instruction is of the FALU, FSFU, CONV or XLANE class (R166). -/
def Instr.isFp : Instr → Bool
  | .fadd _ _ _ | .fsub _ _ _ | .fmul _ _ _ | .ffma _ _ _ | .fmin _ _ _ | .fmax _ _ _ | .fsetp _ _ _ | .fclass _ _ | .fscale _ _ _
  | .frcp _ _ _ | .frsq _ _ _ | .fsqrt _ _ _ | .fexp2 _ _ _ | .flog2 _ _ _ | .fsin _ _ _ | .fcos _ _ _ | .ftanh _ _ _
  | .cvt _ _ _ | .pack _ _ _ | .unpk _ _ _ | .frnd _ _ _ | .shfl _ _ _ | .vote _ _ _ | .vbal _ _ | .vfirst _ _ => true
  | _ => false

/-- LDS and STS, whose step of an address register is seen lane by lane (R222). -/
def Instr.isLocal : Instr → Bool
  | .lds _ _ _ | .sts _ _ _ => true
  | _ => false

/-- Whether a group has gone on to its next instruction between two states of its wave. -/
def Wave.passed (w u : Wave) (m : Lanes) : Bool :=
  match w.partAt m, u.partAt m with
  | some p, some q => q.pc = p.pc + 12
  | _, _ => false

/-- Keys of two maps at which they may differ. -/
def changedKeys {α : Type} [DecidableEq α] (d : α) (x y : SMap α) : List Nat :=
  ((y.filter (fun e => SMap.get d x e.1 ≠ e.2)).map (·.1)) ++ ((x.filter (fun e => (Tbl.get? y e.1).isNone)).map (·.1))

/-- The lanes in which two rows differ. -/
def rowDiff (x y : Row) : Lanes := Lanes.ofTest (fun l => rowAt x l ≠ rowAt y l)

/-- The results that an instruction has left in flight, given the wave before and after it. -/
def newYoung (w u : Wave) (clk lat latA : Nat) (step : Bool) : List Young :=
  (if lat = 0 then [] else
    ((changedKeys zeroRow w.v u.v).filter (fun n => rowDiff (w.vRow n) (u.vRow n) &&& SMap.get 0 u.vEmpty n = 0)).map
      (fun n => { old := .v n (w.vRow n), src := clk, till := clk + lat, lanes := rowDiff (w.vRow n) (u.vRow n) }) ++
    ((changedKeys 0 w.s u.s).filter (fun n => !u.sEmpty.getLsbD n)).map (fun n => { old := .s n (w.sReg n), src := clk, till := clk + lat }) ++
    (changedKeys 0 w.p u.p).map (fun n => { old := .p n (w.pReg n), src := clk, till := clk + lat, lanes := w.pReg n ^^^ u.pReg n }) ++
    (changedKeys (0, 0) w.m u.m).map (fun n => { old := .m n (w.mReg n), src := clk, till := clk + lat })) ++
  (if latA = 0 then [] else (changedKeys zeroRow w.a u.a).map (fun n => { old := .a n (w.aRow n), src := clk, step := step, till := clk + latA, lanes := rowDiff (w.aRow n) (u.aRow n) }))

/-- Note the results an instruction of the issuing wave has left in flight: `r` is the run it was executed on. A tile stream
interlocks its own results (R59). -/
def noteResults (i : Instr) (r : Run) (u : Run) : Run :=
  let (lat, latA) := latency r i
  let w := r.wave r.cur.wave
  if lat = 0 && latA = 0 || 30720 ≤ r.cur.wave then u else
  u.onWave r.cur.wave (fun x => { x with
    young := newYoung w x r.clk lat latA (Instr.isLocal i) ++ x.young
    fpTill := if Instr.isFp i && w.passed x r.cur.lanes then max x.fpTill (r.clk + lat) else x.fpTill })

/-- Note them in an outcome. -/
def settleStep (i : Instr) (t : State) (o : Host.Outcome State Fault Refusal) : Host.Outcome State Fault Refusal :=
  match o with
  | .next u => .next { u with run := (noteResults i t.run u.run).settleTokens }
  | .fault f => .fault f
  | .refused f => .refused f

/-! ## The next step -/

/-- What a step does: an instruction or a step of the device in a state, or a state alone. -/
inductive Act where
  | exec (i : Instr) (s : State)
  | done (s : State)
  deriving DecidableEq, Repr

/-- The decoded word of a group in a state. -/
def decodedAct (s : State) (wid : Nat) (pc : Word64) (word : BitVec 96) : Act :=
  match decodeWord (DCtx.ofWave (s.run.wave wid)) word with
  | .error e => .exec (.illop e.code) s
  | .ok i => .exec (s.run.fused s.sys wid pc i) s

/-- The issue of a group whose turn has come: `s` is the state in which it begins. -/
def groupAct (s : State) (wid : Nat) (m : Lanes) (p : Part) : Act :=
  match p.park, s.run.boundaryEvent s.sys wid p with
  | .trapped t, _ => .done { s with run := trapAt s.sys (s.run.onWave wid (fun w => w.park m .run)) ⟨wid, m, m, p.pc⟩ t.trap }
  | _, some i => .exec i s
  | _, none =>
    match s.run.tableSlot wid p.pc with
    | some slot => .done { s with run := tableRun s.sys s.run wid m slot }
    | none =>
      match fetchWord s.sys s.run ⟨wid, m, m, p.pc⟩ with
      | .trap r t => .done { s with run := trapAt s.sys r ⟨wid, m, m, p.pc⟩ t }
      | .park r k => .done { s with run := r.onWave wid (fun w => w.park m k) }
      | .ok r word => decodedAct { s with run := { r with cur := ⟨wid, m, some word⟩ } } wid p.pc word

/-- The group that issues next, with its part. -/
def Run.nextGroup (y : Sys) (r : Run) : Option (Nat × Lanes × Part) :=
  match r.pickWave y with
  | none => none
  | some wid =>
    match r.pickGroup wid with
    | none => none
    | some m => ((r.wave wid).partAt m).map (fun p => (wid, m, p))

/-- The end of a cycle in which nothing more issues and nothing is due. -/
def Run.tick (r : Run) : Run := { r with clk := r.clk + 1, issued := [] }

/-- No group is about to issue. -/
def State.idle (s : State) : State := { s with run := { s.run with cur := ⟨0, 0, none⟩ } }

/-- An input from outside: a powered-down module takes only a boot. -/
def inputAct (s : State) (i : Instr) : Act :=
  if s.run.down then (match i with | .boot d => .exec (.boot d) s.idle | _ => .done s) else .exec i s.idle

/-- A due step of the device, or the end of the cycle. -/
def dueAct (s : State) : Act :=
  match (s.run.due s.sys).orElse (fun _ => if (s.run.nextGroup s.sys).isSome then none else s.run.stealDue) with
  | some i => .exec i ({ s with run := { s.run with evTurn := false } } : State).idle
  | none => .done { s with run := s.run.tick }

/-- THE NEXT STEP: an input first; then a due step of the device and an issue in turn; a cycle ends when neither is left. -/
def nextAct (s : State) : Act :=
  match s.run.inbox with
  | i :: rest => inputAct { s with run := { s.run with inbox := rest } } i
  | [] =>
    if s.run.down then .done { s with run := s.run.tick }
    else if s.run.evTurn && (s.run.due s.sys).isSome then dueAct s
    else match s.run.nextGroup s.sys with
      | some (wid, m, p) => groupAct { s with run := s.run.begin s.sys wid m } wid m p
      | none => dueAct s

end Sys2Proof.Machine
end

