-- ==== Sys2Proof/Machine/Step.lean ====
section
/-! DEFINITION. One step of the machine, and the placing of an instruction where the next step fetches it. -/

namespace Sys2Proof.Machine

/-- One step: what `nextAct` finds, run by `exec`, and the results it leaves in flight. -/
def step (s : State) : Host.Outcome State Fault Refusal :=
  match nextAct s with
  | .exec i t => settleStep i t (exec i t)
  | .done t => .next t

/-! ## A program placed from outside -/

/-- The place of a word that is put into the machine: one page of code, translated by one leaf in each stage. -/
def placeBase : Nat := 0x100000

/-- The tables of both stages: root, then a leaf of 512 MiB with every permission, mapping the first 512 MiB onto themselves. -/
def placeTables (m : SMap Byte) : SMap Byte :=
  memWrite (memWrite (memWrite (memWrite m 0x10000 0x20001 8) 0x20000 0x1F 8) 0x30000 0x40001 8) 0x40000 0x1F 8

def placeBytes (m : SMap Byte) (x : BitVec 96) : SMap Byte := memPut m placeBase (bytesOfWord x)

/-- The launch of the placed word: one role of one wave with 16 vector registers, and a tile stream. -/
def placeLaunch : Launch :=
  { info := { base := BitVec.ofNat 64 placeBase, size := 0x1000, roles := [⟨0, 16, 1⟩], tile := some 0 }, next := 1 }

def placeFrame : SupEntry := { frame := ⟨0xFFFFFFFF#32, 0, []⟩, cls := 1, handler := 0 }

/-- The wave, or the tile stream, that stands at the word. -/
def placeWave (c : DCtx) : Wave :=
  let pc : Word64 := BitVec.ofNat 64 placeBase
  if c.tile then
    { stream := true, parts := [{ uid := 0, slice := 0, frag := none, mask := 1, pc := pc, rpc := pc }] }
  else
    { placed := 16, valloc := 16, parts := startParts 0xFFFFFFFF#32 pc
      sup := if c.priv then [placeFrame] else []
      handler := if c.priv then 0xFFFFFFFF#32 else 0 }

/-- A state with an instruction where the next step fetches it: context 0 runs on D0, its code at `placeBase`, and one wave or
stream of it stands there, in supervisor state for a privileged word. The bits above `nbits` are 0. -/
def State.withFetchWord (s : State) (nbits w : Nat) : State :=
  let x : BitVec 96 := BitVec.ofNat 96 (w % 2 ^ nbits)
  let c := anyCtx x
  let r := s.run
  let r : Run := { r with
    mem := placeBytes (placeTables r.mem) x
    ctxs := Tbl.put r.ctxs 0 { running := true, hostRoot := 0x10000, ptbase := 0x30000 }
    parts := Tbl.put r.parts 0 { r.part 0 with runCtx := some 0 }
    launches := Tbl.put r.launches 0 placeLaunch
    blocks := [(0, { launch := 0, ctx := 0, nbh := 0, index := 0, nextWave := 1, hasStream := true })]
    waves := [(if c.tile then 30720 else 0, placeWave c)]
    cores := Tbl.del r.cores 0
    dies := Tbl.del r.dies 0
    pairs := Tbl.del r.pairs 0
    inbox := [], issued := [], evTurn := false, down := false }
  { run := r, sys := { s.sys with pmap := 0x1E4 } }

end Sys2Proof.Machine
end

