-- ==== Sys2Proof/WellFormed.lean ====
section
/-! DEFINITION. Which instructions are well formed: the constraints the encoding tables put on an instruction as
syntax, each under the decode check of R60 that a word breaking it would fail. -/

namespace Sys2Proof

/-- EXT is a displacement or an offset only where the form makes it one. -/
def extOnly (f : Form) (o : Ops) : Bool := f.ext || o.x == 0

/-- The first check of R60 an instruction breaks as syntax, in the check's order; none when it is well formed in
the stream and state of `ctx`. Events have no word and break none. -/
def Instr.illFormed (ctx : DCtx) (i : Instr) : Option Ill :=
  match i.parts with
  | none => none
  | some (op, m, h, o) =>
    let f := formOf op m (encOpd o.a)
    if !(if ctx.tile then op.streams.2 else op.streams.1) then some .stream
    else if !privOk ctx op o then some .priv
    else if !(extOnly f o && (m &&& op.modRsvd) == 0 && feOk op h o &&
        (!ctx.tile || !(h.yld || h.fea || h.feb || h.fec)) && fpImmOk op m o && phaseOk op o) then some .rsvd
    else if !(o.d.accepted f.d && o.a.accepted f.a && o.b.accepted f.b && o.c.accepted f.c && kindRel op o &&
        (!ctx.tile || (tileOk o.d && tileOk o.a && tileOk o.b && tileOk o.c))) then some .kind
    else if !specOk ctx o then some .specidx
    else if !writeOk ctx o then some .readonly
    else if 1 < extClaims f o then some .extuse
    else if build op m h o ≠ some i then some .mod
    else none

/-- A well-formed instruction of a stream and state. -/
def Instr.wf (ctx : DCtx) (i : Instr) : Bool := (i.illFormed ctx).isNone

end Sys2Proof
end

