-- ==== Sys2Proof/Safety.lean ====
section
/-! DEFINITION. The terms in which claims about the machine are stated: when an instruction issues, what a step leaves alone, and
the invariant of the firewall registers. -/

namespace Sys2Proof.Machine

/-! ## When an instruction issues -/

/-- A group stands at the instruction, has an active lane (R37), and passes the checks of its operands `us` (R39, R49, R128). -/
def Issues (s : State) (h : Hd) (c : Iss) (us : List Use) : Prop :=
  s.run.issuer h = some c ∧ c.act ≠ 0 ∧ checkUses (s.run.wave c.wid) c.act us = .ok

/-- The issuing wave is fully reconverged (R95). -/
def Whole (s : State) (c : Iss) : Prop := (s.run.wave c.wid).reconverged = true

/-- The group stands in a wave, not in the tile stream, and the wave has not ended. -/
def InWave (s : State) (c : Iss) : Prop := (s.run.wave c.wid).stream = false ∧ (s.run.wave c.wid).life = .live

/-! ## What operands name -/

/-- Lane l of vector register k is in the group of `len` registers an operand names in the lanes `m`. -/
def vHit (w : Wave) (o : Opd) (len : Nat) (m : Lanes) (k l : Nat) : Prop :=
  m.getLsbD l = true ∧ ∃ i, i < len ∧ match o with
    | .v n => n.toNat + i = k
    | .rel _ _ => (w.vIdx o l + i).toNat = k
    | _ => False

/-- Scalar register k is in the group an operand names. -/
def sHit (o : Opd) (len k : Nat) : Prop := ∃ i, i < len ∧ match o with | .s n => n.toNat + i = k | _ => False

/-- Lane l of predicate k is named by an operand in the lanes `m`; p15 discards writes (R35). -/
def pHit (o : Opd) (m : Lanes) (k l : Nat) : Prop := m.getLsbD l = true ∧ match o with | .p n => n.toNat = k ∧ k ≠ 15 | _ => False

/-- Lane l of address register k is in the group an operand names in the lanes `m`. -/
def aHit (o : Opd) (len : Nat) (m : Lanes) (k l : Nat) : Prop :=
  m.getLsbD l = true ∧ ∃ i, i < len ∧ match o with | .a n => n.toNat + i = k | _ => False

/-- Modulo register k is named. -/
def mHit (o : Opd) (k : Nat) : Prop := match o with | .m n => n.toNat = k | _ => False

/-- A register with a value per lane. -/
def Opd.laneReg : Opd → Bool
  | .v _ | .rel _ _ | .a _ => true
  | _ => false

/-- What register i of the group an operand named in `w` holds in lane l of the wave `u`. -/
def Wave.lane (w u : Wave) (o : Opd) (i l : Nat) : Word :=
  match o with
  | .v n => rowAt (u.vRow (n.toNat + i)) l
  | .rel _ _ => rowAt (u.vRow (w.vIdx o l + i).toNat) l
  | .a n => rowAt (u.aRow (n.toNat + i)) l
  | _ => 0

/-! ## Frames -/

/-- Every register but those of the destinations `ds` (operand and number of registers) in the lanes `m` is unchanged. -/
def RegsKept (w u : Wave) (m : Lanes) (ds : List (Opd × Nat)) : Prop :=
  (∀ k l, l < 32 → (∀ d ∈ ds, ¬vHit w d.1 d.2 m k l) → rowAt (u.vRow k) l = rowAt (w.vRow k) l) ∧
  (∀ k, (∀ d ∈ ds, ¬sHit d.1 d.2 k) → u.sReg k = w.sReg k) ∧
  (∀ k l, (∀ d ∈ ds, ¬pHit d.1 m k l) → (u.pReg k).getLsbD l = (w.pReg k).getLsbD l) ∧
  (∀ k l, l < 32 → (∀ d ∈ ds, ¬aHit d.1 d.2 m k l) → rowAt (u.aRow k) l = rowAt (w.aRow k) l) ∧
  (∀ k, (∀ d ∈ ds, ¬mHit d.1 k) → u.mReg k = w.mReg k)

/-- All else that a wave holds is unchanged, but for where its parts stand and its STALL and YLD: the special registers, the trap
registers and frames, pending results, tickets, the monitor, the lanes held and waiting. -/
def RestKept (w u : Wave) : Prop :=
  { u with v := w.v, s := w.s, p := w.p, a := w.a, m := w.m, vEmpty := w.vEmpty, vInd := w.vInd, sEmpty := w.sEmpty, sInd := w.sInd
           parts := w.parts, stall := w.stall, yielded := w.yielded } = w

/-- A core is the same but for its issue counts (R433). -/
def Core.sameButCounts (k z : Core) : Prop := { k with nv := z.nv, nm := z.nm, vAt := z.vAt, mAt := z.mAt } = z

/-- Everything outside the waves and the cores' issue counts is unchanged: memory, scratchpads, blocks, the balance and every other
unit of the device, and the firewall registers; of the waves, all but one. -/
def DeviceKept (s t : State) (wid : Nat) : Prop :=
  t.sys = s.sys ∧ { t.run with waves := s.run.waves, cores := s.run.cores } = s.run ∧
  (∀ n, n ≠ wid → t.run.wave n = s.run.wave n) ∧
  (∀ n, (t.run.core n).sameButCounts (s.run.core n))

/-- The frame of an instruction of a wave that writes registers alone. -/
def RegFrame (s t : State) (c : Iss) (ds : List (Opd × Nat)) : Prop :=
  DeviceKept s t c.wid ∧ RegsKept (s.run.wave c.wid) (t.run.wave c.wid) c.act ds ∧
  RestKept (s.run.wave c.wid) (t.run.wave c.wid)

/-- The same where the wave also comes to hold what `w` says it does. -/
def RegFrameBut (s t : State) (c : Iss) (ds : List (Opd × Nat)) (w : Wave) : Prop :=
  DeviceKept s t c.wid ∧ RegsKept (s.run.wave c.wid) (t.run.wave c.wid) c.act ds ∧ RestKept w (t.run.wave c.wid)

/-- The group has moved on to the next instruction (R33), in all its parts; no other part has moved. -/
def MovedOn (s t : State) (c : Iss) : Prop :=
  (t.run.wave c.wid).parts = (s.run.wave c.wid).parts.map
    (fun p => if (p.mask &&& c.m) ≠ 0 then { p with pc := p.pc + 12, park := .run } else p)

/-- The state but for the free values drawn, of which it counts those that `s` had drawn. -/
def State.asDrawn (t s : State) : State :=
  let run := { t.run with fresh := s.run.fresh }
  { t with run := run }

/-- The state but for the notes of what the waves have read and written (R302, R340), of which it keeps those of `s`. -/
def State.butNotes (t s : State) : State :=
  let run := { t.run with recent := s.run.recent }
  { t with run := run }

/-- The state but for the units' dedup tables (R287), of which it keeps those of `s`. -/
def State.butDedup (t s : State) : State :=
  let run := { t.run with parts := s.run.parts }
  { t with run := run }

/-- The same behind a closer: the parts that moved on enter a region there (R199, R200). -/
def ClosedOn (s t : State) (c : Iss) : Prop :=
  (t.run.wave c.wid).parts = (s.run.wave c.wid).parts.map
    (fun p => if (p.mask &&& c.m) ≠ 0 then { p with pc := p.pc + 12, rpc := p.pc + 12, park := .run } else p)

/-! ## Completion -/

/-- A step ends in a next state that has a property. -/
def Completes (o : Host.Outcome State Fault Refusal) (P : State → Prop) : Prop := ∃ t, o = .next t ∧ P t

/-- What the state holds of the issuing wave. -/
abbrev State.wv (s : State) (c : Iss) : Wave := s.run.wave c.wid

/-- The state once the results that the group's instruction left owed have arrived: the wave owes what it owed in `s`. -/
def State.arrived (t s : State) (c : Iss) : State :=
  let run := t.run.onWave c.wid (fun w => { w with pend := (s.wv c).pend, vEmpty := (s.wv c).vEmpty, sEmpty := (s.wv c).sEmpty })
  { t with run := run }

/-- The word an operand gives lane l, and the one a scalar operand gives the group. -/
abbrev State.src (s : State) (c : Iss) (o : Opd) (l : Nat) : Word := s.run.rdLane c.wid o 0 l
abbrev State.ssrc (s : State) (c : Iss) (o : Opd) : Word64 := s.run.rdScalar c.wid o 0 c.act.lowest

/-- An instruction of the vector unit gives every active lane of D a value of its own lane's A, B, C and predicate C; the group
moves on, and nothing but D, with `ds` beside it, changes. -/
def LaneResult (mk : Hd → Ops → Instr) (ds : Ops → List (Opd × Nat)) (f : Word → Word → Word → Bool → Word) : Prop :=
  ∀ s h o c, Issues s h c (usesOf h o) → Opd.laneReg o.d = true →
    Completes (exec (mk h o) s) (fun t => RegFrame s t c ((o.d, 1) :: ds o) ∧ MovedOn s t c ∧
      ∀ l, l < 32 → c.act.getLsbD l = true → (s.wv c).lane (t.wv c) o.d 0 l =
        f (s.src c o.a l) (s.src c o.b l) (s.src c o.c l) (predAt (s.wv c) o.c l))

/-- The same in the scalar unit at width n: one value, of the sources' low n bits, extended to the register. -/
def ScalarResult (mk : Hd → Ops → Instr) (ds : Ops → List (Opd × Nat)) (n : Nat)
    (f : BitVec n → BitVec n → BitVec n → Bool → BitVec n) (ext : BitVec n → Word64) : Prop :=
  ∀ s h o c d, Issues s h c (usesOf h o) → o.d = .s d → Ops.vecUnit o = false →
    Completes (exec (mk h o) s) (fun t => RegFrame s t c ((o.d, 1) :: ds o) ∧ MovedOn s t c ∧
      (t.wv c).sReg d.toNat = ext (f ((s.ssrc c o.a).setWidth n) ((s.ssrc c o.b).setWidth n) ((s.ssrc c o.c).setWidth n)
        (predAt (s.wv c) o.c c.act.lowest)))

/-- Both units (R139, R140): lanes at 32 bits; the scalar unit at 32 bits, sign-extended for .s32 (but for a count, R149) and
zero-extended otherwise, or at 64. -/
def IntResult (mk : Hd → Ops → Instr) (t : IType) (ds : Ops → List (Opd × Nat)) (count : Bool)
    (f : (n : Nat) → BitVec n → BitVec n → BitVec n → Bool → BitVec n) : Prop :=
  (t.is64 = false → LaneResult mk ds (f 32) ∧
    ScalarResult mk ds 32 (f 32) (fun x => if t.signed && !count then x.signExtend 64 else x.setWidth 64)) ∧
  (t.is64 = true → ScalarResult mk ds 64 (f 64) (fun x => x))

/-- Each active lane of a predicate destination takes a value: of its lane in the vector unit, of the lowest active lane in the
scalar unit (R139); p15 discards it (R35). -/
def PredResult (mk : Hd → Ops → Instr) (n : Nat) (f : BitVec n → BitVec n → Bool → Bool) : Prop :=
  ∀ s h o c d, Issues s h c (usesOf h o) → o.d = .p d → (n = 64 → Ops.vecUnit o = false) →
    Completes (exec (mk h o) s) (fun t => RegFrame s t c [(o.d, 1)] ∧ MovedOn s t c ∧
      (d ≠ 15 → ∀ l, l < 32 → c.act.getLsbD l = true → ((t.wv c).pReg d.toNat).getLsbD l =
        if Ops.vecUnit o then f ((s.src c o.a l).setWidth n) ((s.src c o.b l).setWidth n) (predAt (s.wv c) o.c l)
        else f ((s.ssrc c o.a).setWidth n) ((s.ssrc c o.b).setWidth n) (predAt (s.wv c) o.c c.act.lowest)))

/-- The integer a pattern denotes, and the bounds of a type (R140). -/
def valOf (t : IType) {n : Nat} (x : BitVec n) : Int := if t.signed then x.toInt else x.toNat
def minOf (t : IType) (n : Nat) : Int := if t.signed then -(2 ^ (n - 1)) else 0
def maxOf (t : IType) (n : Nat) : Int := if t.signed then 2 ^ (n - 1) - 1 else 2 ^ n - 1
def clampOf (t : IType) (n : Nat) (z : Int) : Int := max (minOf t n) (min (maxOf t n) z)

/-- The exact sum of IADD, or difference of ISUB, with the carry in (R145). -/
def exactSum (m : AddMod) (sub : Bool) {n : Nat} (a b : BitVec n) (p : Bool) : Int :=
  let ci : Int := if m.ci && p then 1 else 0
  if sub then valOf m.t a - valOf m.t b - ci else valOf m.t a + valOf m.t b + ci

/-- Bit j of the field source of BFE: beyond the width the sign or 0 (R150). -/
def fieldBit (t : IType) {n : Nat} (a : BitVec n) (j : Nat) : Bool := if j < n then a.getLsbD j else t.signed && a.getLsbD (n - 1)

/-- Position and length of a field control (R150). -/
def ctlPos {n : Nat} (ctl : BitVec n) : Nat := ctl.toNat % 256
def ctlLen {n : Nat} (ctl : BitVec n) : Nat := min (ctl.toNat / 256 % 256) n

/-- BFE bit by bit (R150). -/
def bfeOf (t : IType) {n : Nat} (a ctl : BitVec n) : BitVec n :=
  BitVec.ofFnLE (fun i : Fin n => if ctlLen ctl = 0 then false
    else if i.val < ctlLen ctl then fieldBit t a (ctlPos ctl + i.val) else t.signed && fieldBit t a (ctlPos ctl + (ctlLen ctl - 1)))

/-- BFI under its mask (R150). -/
def bfiOf {n : Nat} (a b ctl : BitVec n) : BitVec n :=
  let mask : BitVec n := BitVec.ofNat n (2 ^ ctlLen ctl - 1) <<< ctlPos ctl
  (b &&& ~~~mask) ||| ((a <<< ctlPos ctl) &&& mask)

/-- Number of set bits, and of leading zero bits (R149). -/
def popOf {n : Nat} (a : BitVec n) : Nat := (List.range n).countP (fun i => a.getLsbD i)
def clzOf {n : Nat} (a : BitVec n) : Nat := ((List.range n).find? (fun i => a.getLsbD (n - 1 - i))).getD n

/-- ISETP's comparison of patterns (R152). -/
def cmpOf (t : IType) (k : Cmp) {n : Nat} (a b : BitVec n) : Bool :=
  match k with
  | .eq => a == b
  | .ne => a != b
  | .lt => decide (valOf t a < valOf t b)
  | .le => decide (valOf t a ≤ valOf t b)
  | .gt => decide (valOf t b < valOf t a)
  | .ge => decide (valOf t b ≤ valOf t a)

/-! ## Floating point and lanes -/

/-- The result and flags of an FP instruction of MOD's type in lane l, of the elements of its sources after their sign changes. -/
def fpValue (m : FpMod) (g : FCtl → Nat → Nat → Nat → Nat × Nat) (o : Ops) (r : Run) (c : Iss) (l : Nat) : Nat × Nat :=
  let f := FType.fmt m.t
  let k := fctl (r.wave c.wid) m.t m.rm
  perElem m.t (fun a b x =>
    let (p, fl) := g k (f.signs m.negA m.absA a) (f.signs m.negB m.absB b) (f.signs m.negC false x)
    (if m.sat then f.sat01 p else p, fl)) (r.rdFp c.wid m.t o.a l) (r.rdFp c.wid m.t o.b l) (r.rdFp c.wid m.t o.c l)

/-- The lane whose sources give lane l its result: itself, or in the scalar unit the lowest active lane. -/
def unitLane (o : Ops) (c : Iss) (l : Nat) : Nat := if Ops.vecUnit o then l else c.act.lowest

/-- An FP instruction (R159, R166, R168). With no enabled exception in an active lane, D takes the results (a scalar zero-extended, a
predicate its truth), the flags of all active lanes are ORed into %FPSR, and nothing else changes; with one, the FPX trap is taken
and no register changes before it. -/
def FpResult (mk : Hd → Ops → Instr) (src : Ops → Run → Iss → Nat → Word) (f : Ops → Run → Iss → Nat → Nat × Nat) : Prop :=
  ∀ s h o c, Issues s h c (usesOf h o) →
    ((∀ l, l < 32 → c.act.getLsbD l = true → (f o s.run c (unitLane o c l)).2 &&& fpEnables (s.wv c) = 0) →
      Completes (exec (mk h o) s) (fun t =>
        RegFrameBut s t c [(o.d, 1)] { s.wv c with fpsr := (t.wv c).fpsr } ∧ MovedOn s t c ∧
        (∀ n, n < 32 → ((t.wv c).fpsr.getLsbD n = true ↔ (s.wv c).fpsr.getLsbD n = true ∨
          ∃ l, l < 32 ∧ c.act.getLsbD l = true ∧ (f o s.run c (unitLane o c l)).2.testBit n = true)) ∧
        match o.d with
        | .s d => (t.wv c).sReg d.toNat = BitVec.ofNat 64 (f o s.run c (unitLane o c c.act.lowest)).1
        | .p d => d ≠ 15 → ∀ l, l < 32 → c.act.getLsbD l = true →
            ((t.wv c).pReg d.toNat).getLsbD l = decide ((f o s.run c (unitLane o c l)).1 ≠ 0)
        | d => Opd.laneReg d = true → ∀ l, l < 32 → c.act.getLsbD l = true →
            (s.wv c).lane (t.wv c) d 0 l = BitVec.ofNat 32 (f o s.run c (unitLane o c l)).1)) ∧
    ((∃ l, l < 32 ∧ c.act.getLsbD l = true ∧ (f o s.run c (unitLane o c l)).2 &&& fpEnables (s.wv c) ≠ 0) →
      ∃ tr, tr.cls = 6 ∧ tr.next = false ∧
        (∀ l, l < 32 → (tr.mask.getLsbD l = true ↔
          c.act.getLsbD l = true ∧ (f o s.run c (unitLane o c l)).2 &&& fpEnables (s.wv c) ≠ 0)) ∧
        (∀ l x, (l, x) ∈ tr.lv → x = src o s.run c (unitLane o c l)) ∧
        exec (mk h o) s = .next { s with run := trapAt s.sys s.run c tr })

/-! ## Memory -/

/-- The end of an issue whose effect has made the run `r` of `r0`: the group moves on, a closer enters a region, STALL, YLD and the issue
counts are noted, and an instruction that is a switch point passes the turn in a DET block (R33, R47, R94, R200, R433). -/
def Run.finish (r0 r : Run) (c : Iss) (h : Hd) (k : How) : Run :=
  if k.switch && !(r0.wave c.wid).resumes c.m then (r.retire c h k).switchPoint c.wid true else r.retire c h k

/-- The instruction's whole effect is to make the run `r`, and its issue ends. -/
def Does (s : State) (i : Instr) (c : Iss) (h : Hd) (k : How) (r : Run) : Prop :=
  exec i s = .next { s with run := s.run.finish r c h k }

/-- The instruction's whole effect is a trap of the group. -/
def Traps (s : State) (i : Instr) (c : Iss) (t : Trap) : Prop := exec i s = .next { s with run := trapAt s.sys s.run c t }

/-- No access of the wave is still to perform or to deliver an acquire, and it owes no trap for a lost write. -/
def Quiet (s : State) (c : Iss) : Prop :=
  (s.wv c).acquirePending = false ∧ (s.wv c).unperformed = false ∧ (s.wv c).marked = none

/-- The commit token is not needed, or the wave holds it (R417, R418). -/
def TokenHeld (s : State) (c : Iss) : Prop := s.run.det (s.wv c) = false ∨ s.run.tokenHolder (coreOf c.wid) = some c.wid

/-- The passage of an access through the commit token, where it needs it, is open: also by the write tiles of an active ticket (R417). -/
def TokenFree (s : State) (c : Iss) : Prop := TokenHeld s c ∨ (s.wv c).window.isSome = true

/-- Every page of an access is memory of this device. -/
def AllLocal (ts : List (Nat × Xlat)) : Prop := ∀ t ∈ ts, isAper t.2.pa = false

/-- What an access of memory may change beside memory and the issuing wave: translations and walks, dirty pages, the free values drawn,
the notes of old bytes that a clause may still read, the cores' issue counts, and the note in a monitor that its line was written. -/
def AccessFrame (s t : State) (wid : Nat) : Prop :=
  t.sys = s.sys ∧
  { t.run with mem := s.run.mem, waves := s.run.waves, cores := s.run.cores, dies := s.run.dies, ctxs := s.run.ctxs, fresh := s.run.fresh,
               recent := s.run.recent } = s.run ∧
  (∀ n, n ≠ wid → { t.run.wave n with mon := (s.run.wave n).mon } = s.run.wave n) ∧
  (∀ n, Core.sameButCounts { t.run.core n with tlb := (s.run.core n).tlb, ro := (s.run.core n).ro } (s.run.core n)) ∧
  (∀ n, { t.run.die n with walks := (s.run.die n).walks } = s.run.die n) ∧
  (∀ n, { t.run.ctx n with dirty0 := (s.run.ctx n).dirty0, dirty1 := (s.run.ctx n).dirty1 } = s.run.ctx n)

/-- The lines of a core's read-only cache outside the translated pages of a range (R258, R259). -/
def Core.keepsLine (k : Core) (base len : Nat) (ts : List (Nat × Xlat)) (e : Nat × List Byte) : Prop :=
  e ∈ k.ro ∧ ∀ x ∈ ts, ¬(x.2.pa ≤ e.1 * 256 ∧ e.1 * 256 < x.2.pa + (min (base + len) ((x.1 / 65536 + 1) * 65536) - x.1))

/-- Register i of the group of 32-bit registers a value fills, low register first. -/
def part32 (v i : Nat) : Word := BitVec.ofNat 32 (v / 2 ^ (32 * i))

/-- Atomics one after another: what they leave in memory, and the value each lane found (R283). -/
def atomicSeq (req : Nat → Nat → AtomicReq) (n : Nat) : SMap Byte → List (Nat × Nat) → SMap Byte × List (Nat × Nat)
  | m, [] => (m, [])
  | m, (l, pa) :: t =>
    let old := memRead m pa n
    let m' := match atomicNew (req l pa) old with
      | some x => memPut m pa (leBytes x n)
      | none => m
    let (m'', vs) := atomicSeq req n m' t
    (m'', (l, old) :: vs)

/-- The byte at a place of this device. -/
def byteIn (r : Run) (p : CopyPlace) : Byte :=
  match p with
  | .scr b a => memGet (r.block b).scratch a
  | .mem pa => memGet r.mem pa
  | .far _ => 0

/-- A place of this device: a word of a block that is there, or memory. -/
def placeHere (r : Run) (p : CopyPlace) : Prop :=
  match p with
  | .scr b _ => (r.blocks.get? b).isSome = true
  | .mem _ => True
  | .far _ => False

/-! ## What evaluations compute (R362 to R366, R375 to R380) -/

/-- A clause evaluates to the elements and flags of `f` over its box: the flags join those before, no other tile and no memory changes;
where an enabled exception is raised, that is a late FPEXC fault at an element that raises it. -/
def Ev.Computes (y : Sys) (e : Ev) (ci : Nat) (f : Nat → Nat → (Nat × Nat) × Nat) : Prop :=
  let b := e.box ci
  let inBox (i j : Nat) : Prop := b.r0 ≤ i ∧ i < b.r1 ∧ b.c0 ≤ j ∧ j < b.c1
  let en := bits (clauseAt e.g ci).fp 8 5
  ((∀ i j, inBox i j → (f i j).2 &&& en = 0) → ∃ e' : Ev, evClause y e ci = .ok e' () ∧
    (∀ i j, inBox i j → (e'.tile ci).elem i j = (f i j).1) ∧ (∀ k, k ≠ ci → e'.tile k = e.tile k) ∧
    e'.run.mem = e.run.mem ∧ e'.run.blocks = e.run.blocks ∧
    ∀ n, (e'.flags.testBit n = true ↔ e.flags.testBit n = true ∨ ∃ i j, inBox i j ∧ (f i j).2.testBit n = true)) ∧
  ((∃ i j, inBox i j ∧ (f i j).2 &&& en ≠ 0) → ∃ (e' : Ev) (i j : Nat), inBox i j ∧ (f i j).2 &&& en ≠ 0 ∧
    evClause y e ci = .fault e' (e.lateFault ci i j 0x11 ((f i j).2 % 32)))

/-- The exact value of an element of an operand's tile. -/
def Ev.exact (e : Ev) (k i j : Nat) : FV := widen (clauseAt e.g k).ty ((e.tile k).elem i j).1 ((e.tile k).elem i j).2

/-- An element of an operand's tile in FP32, with the flags of its conversion. -/
def Ev.single (e : Ev) (k i j : Nat) : Nat × Nat := elem32 (clauseAt e.g k).ty ((e.tile k).elem i j)

/-- The number a byte is, by its type. -/
def byteNum (t : ElemTy) (v : Nat) : Int := if t = .int8 then (BitVec.ofNat 8 v).toInt else (v % 256 : Nat)

/-- One group of 16 consecutive products joins a sum, rounded (R364). -/
def groupStep (ps : List (FV × Bool)) (acc : Nat × Nat) : Nat × Nat :=
  let g := groupSum ps
  let z := fmt32.add engineCtl acc.1 g.1
  (z.1, acc.2 ||| g.2 ||| z.2)

/-- The node over 2^n leaves from leaf i · 2^n on, with the flags of all that is below it. -/
def treeNode (f : Nat → Nat → Nat × Nat) (leaf : Nat → Nat × Nat) : Nat → Nat → Nat × Nat
  | 0, i => leaf i
  | n + 1, i =>
    let a := treeNode f leaf n (2 * i)
    let b := treeNode f leaf n (2 * i + 1)
    ((f a.1 b.1).1, a.2 ||| b.2 ||| (f a.1 b.1).2)

/-- Whether a finite element fits an exponent of a block (R355). -/
def pbFits (ty : ElemTy) (m : Nat) (e : Int) (x : Nat) : Prop := x ≠ 255 ∧ pbQ ty m e x ≤ if ty = .pb8 then 63 else 3

/-- The code of an element under a scale word, and whether it is an outlier (R356, R357). -/
def pbAssigned (ty : ElemTy) (word : Nat) (x : FV) (code : Nat) (outl : Bool) : Prop :=
  let top := if ty = .pb8 then 64 else 4
  match x with
  | .fin s m e =>
    let sign := if s then top else 0
    (pbFits ty m e (word % 256) → code = sign + pbQ ty m e (word % 256) ∧ outl = false) ∧
    (¬pbFits ty m e (word % 256) → pbFits ty m e (word / 256) → code = 2 * top + sign + pbQ ty m e (word / 256) ∧ outl = false) ∧
    (¬pbFits ty m e (word % 256) → ¬pbFits ty m e (word / 256) → code = 0 ∧ outl = true)
  | _ => code = 0 ∧ outl = true

/-! ## The firewall registers -/

/-- The map FWPMAP holds, die by die. -/
def mapOf (y : Sys) : List (BitVec 2) := (List.range 4).map (fun d => BitVec.ofNat 2 (y.pd d))

/-- The shares of LPDDR-6: ranges of units that do not meet, within the tier; bandwidths of at most 100 % in all (R524). -/
def sharesOk (lp : List Word64) : Prop :=
  (∀ i j, i < 4 → j < 4 → i ≠ j → bits (lp.getD i 0) 8 8 ≠ 0 → bits (lp.getD j 0) 8 8 ≠ 0 →
    bits (lp.getD i 0) 0 8 + bits (lp.getD i 0) 8 8 ≤ bits (lp.getD j 0) 0 8 ∨
    bits (lp.getD j 0) 0 8 + bits (lp.getD j 0) 8 8 ≤ bits (lp.getD i 0) 0 8) ∧
  (∀ i, i < 4 → bits (lp.getD i 0) 0 8 + bits (lp.getD i 0) 8 8 ≤ Config.lpBytes / Config.lpUnit) ∧
  bits (lp.getD 0 0) 16 8 + bits (lp.getD 1 0) 16 8 + bits (lp.getD 2 0) 16 8 + bits (lp.getD 3 0) 16 8 ≤ 100

/-- THE INVARIANT OF THE FIREWALL REGISTERS (R27, R31, R524): the map has one of the shapes a partitioning may have, and is in force
only once secure boot has verified the firmware; a boundary is CLOSED exactly where its two dies lie in different partitions; the
shares do not meet; reserved fields read 0. -/
structure Sys.Inv (y : Sys) : Prop where
  boundaries : y.bnd.length = 4
  shares : y.lp.length = 4
  shape : shapeOk (mapOf y) = true
  verified : y.valid = true → y.boot = .ready
  closed : ∀ n, n < 4 → (y.bnd.getD n 0).getLsbD 0 = y.splits n
  disjoint : sharesOk y.lp
  mapReserved : bits y.pmap 9 55 = 0
  bndReserved : ∀ n, n < 4 → bits (y.bnd.getD n 0) 1 15 = 0 ∧ bits (y.bnd.getD n 0) 32 32 = 0
  lpReserved : ∀ n, n < 4 → bits (y.lp.getD n 0) 24 40 = 0

end Sys2Proof.Machine
end

