-- ==== Sys2Proof/Certificates/Slice0/Obligations.lean ====
section
/-! DEFINITION. The statements about the model that the provers settle, family by family: what an instruction or a step of the device
does, cited by the rules of spec/. -/

open Sys2Proof Sys2Proof.Machine

/-! ## Encoding and decoding -/

/-- Words that the spec writes out beside its encodings, each decoding to the line it stands for: IADD.u32.co (R145), BRA (R105; the worked
word stands under R102), MOVI (R134, worked under R53), LD (R251), ATOM.add (R281, R282), FENCE.ar.dev (R307), RACQ.try (R122), CPY (R266),
and, in supervisor state (R58), FWCALL 3 (R539). -/
def Obligations.SpecWordsDecode : Prop :=
  decodeWord {} 0x000401300090040020007840#96 =
    .ok (.iadd { pred := 15, stall := 3 } { t := .u32, co := true } { d := .v 0, a := .v 2, b := .v 4, c := .p 1 }) ∧
  decodeWord {} 0x000003000000000000000801#96 = .ok (.bra { neg := false, pred := 1 } 3) ∧
  decodeWord {} 0x8000000003F00000000979C1#96 = .ok (.movi { pred := 15 } 0x3F800000 { d := .v 9 }) ∧
  decodeWord {} 0x000010000220022080037A00#96 = .ok (.ld { pred := 15 } { size := .b32, scale := 2 } { d := .v 3, a := .s 8, b := .v 2, x := 16 }) ∧
  decodeWord {} 0x000009008000022080057A40#96 =
    .ok (.atom { pred := 15 } { op := .add, ty := .u32, scope := .dev } { d := .v 5, a := .s 8, b := .v 2, c := .v 9 }) ∧
  decodeWord {} 0x00000000B000000000007A80#96 = .ok (.fence { pred := 15 } { ord := .ar, scope := .dev }) ∧
  decodeWord {} 0x00000000001000E184027B40#96 = .ok (.racqTry { pred := 15 } { d := .p 2, a := .imm8 24 }) ∧
  decodeWord {} 0x00020B0001220920820A7AC0#96 =
    .ok (.cpy { pred := 15 } { ch := 2, src := false, dst := true, nc := false } { d := .s 10, a := .s 8, b := .s 9, c := .s 11 }) ∧
  decodeWord { priv := true } 0x000000000030000000007D02#96 = .ok (.fwcallGreform { pred := 15 })

/-- DECODE AND ENCODE AGREE (R32 to R46): the word of every well-formed instruction, with every operand at every value its encoding admits,
decodes to that instruction in the stream and state in which it is well formed. -/
def Obligations.DecodeOfEncode : Prop :=
  ∀ (ctx : DCtx) (i : Instr), i.parts.isSome = true → i.wf ctx = true → ∃ w, encode i = some w ∧ decodeWord ctx w = .ok i

/-- Every word that decodes is the word of a well-formed instruction, so that no two words mean the same (R60). -/
def Obligations.EncodeOfDecode : Prop :=
  ∀ (ctx : DCtx) (w : BitVec 96) (i : Instr), decodeWord ctx w = .ok i → i.wf ctx = true ∧ encode i = some w

/-- Checks 1 and 2 of R60: an OPC of a class above 0x14 is reported as MAJOR and an unassigned minor as MINOR, whatever the rest of the word
holds and in whatever stream and state it is fetched. -/
def Obligations.UnassignedOpcodesRejected : Prop :=
  ∀ (ctx : DCtx) (w : BitVec 96), (∀ op ∈ Op.all, op.code ≠ bits w 0 11) →
    decodeWord ctx w = .error (if 0x15 * 64 ≤ bits w 0 11 then .major else .minor)

/-! ## The step -/

/-- A STEP RUNS THE DECODED INSTRUCTION. Nothing waits in the inbox and no step of the device takes its turn; the next group stands at
`p.pc`, no trap is delivered at the boundary, and the place is no service of the Inn's own table; the twelve bytes there translate to memory
of this device and decode to `i`, which begins no fused sequence. Then the step is `exec i` on the state in which the group's issue has
begun, and beyond what `exec` does it notes which old values of the issuing wave's registers later instructions may still read (`young`,
R47) and how long an FP instruction of it is in flight (`fpTill`, R166), and hands on the commit token of a core whose passer's accesses have
performed (R418). -/
def Obligations.StepRunsDecoded : Prop :=
  ∀ (s : State) (wid : Nat) (m : Lanes) (p : Part) (r : Run) (ts : List (Nat × Xlat)) (i : Instr),
    let s1 : State := { s with run := s.run.begin s.sys wid m }
    let w := s1.run.wave wid
    s.run.inbox = [] → s.run.down = false → (s.run.evTurn && (s.run.due s.sys).isSome) = false →
    s.run.nextGroup s.sys = some (wid, m, p) →
    (∀ t, p.park ≠ .trapped t) → s1.run.boundaryEvent s.sys wid p = none → s1.run.tableSlot wid p.pc = none →
    (w.priv = true ∨ s1.run.inCode w p.pc.toNat = true) → p.pc.toNat + 12 ≤ 2 ^ 52 →
    preTranslateRange s.sys s1.run (coreOf wid) (slotOf wid) (s1.run.block w.blk).ctx { fetch := true, priv := w.priv } p.pc m
      p.pc.toNat 12 = .ok r ts →
    ts.any (fun t => isAper t.2.pa) = false →
    let word := wordOfBytes ((List.range 12).map (fetchByte r ts p.pc.toNat))
    let s2 : State := { s with run := { r with cur := ⟨wid, m, some word⟩ } }
    decodeWord (DCtx.ofWave (r.wave wid)) word = .ok i → s2.run.fused s.sys wid p.pc i = i →
    step s = settleStep i s2 (exec i s2) ∧
    ∀ t, exec i s2 = .next t → Completes (step s) (fun u => u.sys = t.sys ∧
      { u.run with waves := t.run.waves, cores := t.run.cores } = t.run ∧ (∀ n, n ≠ wid → u.run.wave n = t.run.wave n) ∧
      { u.run.wave wid with young := (t.run.wave wid).young, fpTill := (t.run.wave wid).fpTill } = t.run.wave wid ∧
      ((∀ e ∈ t.run.cores, e.2.ctokPass = none) → u.run.cores = t.run.cores))

/-- A word that is no instruction (R61): under the same conditions the step takes ILLOP with the check's number as sub-cause, in every
member of the group whatever the guard, and nothing else of the instruction happens. -/
def Obligations.IllegalWordTraps : Prop :=
  ∀ (s : State) (wid : Nat) (m : Lanes) (p : Part) (r : Run) (w : BitVec 96) (e : Ill),
    let s1 : State := { s with run := s.run.begin s.sys wid m }
    s.run.inbox = [] → s.run.down = false → (s.run.evTurn && (s.run.due s.sys).isSome) = false →
    s.run.nextGroup s.sys = some (wid, m, p) →
    (∀ t, p.park ≠ .trapped t) → s1.run.boundaryEvent s.sys wid p = none → s1.run.tableSlot wid p.pc = none →
    fetchWord s.sys s1.run ⟨wid, m, m, p.pc⟩ = .ok r w →
    decodeWord (DCtx.ofWave (r.wave wid)) w = .error e →
    let s2 : State := { s with run := { r with cur := ⟨wid, m, some w⟩ } }
    s2.run.group = some ⟨wid, m, m, p.pc⟩ →
    Completes (exec (.illop e.code) s2) (fun t =>
      t = { s with run := trapAt s.sys s2.run ⟨wid, m, m, p.pc⟩ { cls := 3, sub := e.code.toNat, mask := m } } ∧
      step s = settleStep (.illop e.code) s2 (.next t))

/-! ## The firewall registers -/

/-- Reset meets the invariant of the firewall registers (R27, R524): the map is the one that gives every die a partition of its own, every
boundary is CLOSED, no share is given, VALID is 0. -/
def Obligations.ResetFirewall : Prop :=
  Sys.Inv State.reset.sys ∧ State.reset.sys.pmap = 0xE4 ∧ State.reset.sys.bnd = [1, 1, 1, 1] ∧ State.reset.sys.lp = [0, 0, 0, 0] ∧
  State.reset.run.mem = [] ∧ State.reset.run.waves = []

/-- AN INVARIANT THAT EVERY STEP KEEPS: the map has a shape of R27 and is in force only once the firmware is verified, each boundary is
CLOSED exactly where its dies lie in different partitions, the LPDDR-6 shares do not meet and give away at most 100 % of the bandwidth, and
reserved fields read 0 (R27, R31, R524). -/
def Obligations.FirewallInvariant : Prop :=
  ∀ s t : State, Sys.Inv s.sys → step s = .next t → Sys.Inv t.sys

/-- No instruction word, in user or supervisor state, changes a firewall register or the boot chain (R524). -/
def Obligations.WordsKeepFirewall : Prop :=
  ∀ (i : Instr) (s t : State), i.parts.isSome = true → exec i s = .next t → t.sys = s.sys

/-! ## Integer instructions -/

/-- IADD and ISUB (R145): an exact sum or difference, wrapped or saturated; under .co predicate C takes whether it lay outside the type's
range, computed with C as it was before. IMIN, IMAX, IABS and INEG (R146), and SEL (R151). -/
def Obligations.AddSelectResults : Prop :=
  (
  ∀ m : AddMod, ∀ sub : Bool,
    let mk : Hd → Ops → Instr := fun h o => if sub then .isub h m o else .iadd h m o
    IntResult mk m.t (fun o => if m.co then [(o.c, 1)] else []) false
      (fun n a b _ p => BitVec.ofInt n (if m.sat then clampOf m.t n (exactSum m sub a b p) else exactSum m sub a b p)) ∧
    (m.co = true → m.t.is64 = false → ∀ s h o c k, Issues s h c (usesOf h o) → Opd.laneReg o.d = true → o.c = .p k → k ≠ 15 →
      Completes (exec (mk h o) s) (fun t => ∀ l, l < 32 → c.act.getLsbD l = true →
        let z := exactSum m sub (s.src c o.a l) (s.src c o.b l) (predAt (s.wv c) o.c l)
        ((t.wv c).pReg k.toNat).getLsbD l = decide (z < minOf m.t 32 ∨ maxOf m.t 32 < z))) ∧
    (m.co = true → ∀ s h o c d k, Issues s h c (usesOf h o) → o.d = .s d → Ops.vecUnit o = false → o.c = .p k → k ≠ 15 →
      Completes (exec (mk h o) s) (fun t => ∀ l, l < 32 → c.act.getLsbD l = true →
        let n := if m.t.is64 then 64 else 32
        let z := exactSum m sub ((s.ssrc c o.a).setWidth n) ((s.ssrc c o.b).setWidth n) (predAt (s.wv c) o.c c.act.lowest)
        ((t.wv c).pReg k.toNat).getLsbD l = decide (z < minOf m.t n ∨ maxOf m.t n < z)))) ∧
  (
  (∀ t, IntResult (fun h o => .imin h t o) t (fun _ => []) false (fun _ a b _ _ => if valOf t b < valOf t a then b else a)) ∧
  (∀ t, IntResult (fun h o => .imax h t o) t (fun _ => []) false (fun _ a b _ _ => if valOf t a < valOf t b then b else a)) ∧
  (∀ m : SatMod, IntResult (fun h o => .iabs h m o) m.t (fun _ => []) false
    (fun n a _ _ _ => BitVec.ofInt n (let z : Int := (valOf m.t a).natAbs; if m.sat then clampOf m.t n z else z))) ∧
  (∀ m : SatMod, IntResult (fun h o => .ineg h m o) m.t (fun _ => []) false
    (fun n a _ _ _ => BitVec.ofInt n (if m.sat then clampOf m.t n (-(valOf m.t a)) else -(valOf m.t a)))) ∧
  (∀ t, IntResult (fun h o => .sel h t o) t (fun _ => []) false (fun _ a b _ p => if p then a else b)))

/-- AND, OR, XOR and NOT (R147): bitwise on patterns of the type's width; in the predicate form, on predicates. SHL, SHR and ROT (R148): the
amount is B[7:0], and an amount of the width or more shifts everything out. -/
def Obligations.LogicShiftResults : Prop :=
  (
  (∀ t, IntResult (fun h o => .and h t o) t (fun _ => []) false (fun _ a b _ _ => a &&& b)) ∧
  (∀ t, IntResult (fun h o => .or h t o) t (fun _ => []) false (fun _ a b _ _ => a ||| b)) ∧
  (∀ t, IntResult (fun h o => .xor h t o) t (fun _ => []) false (fun _ a b _ _ => a ^^^ b)) ∧
  (∀ t, IntResult (fun h o => .not h t o) t (fun _ => []) false (fun _ a _ _ _ => ~~~a)) ∧
  (PredResult (fun h o => .and h .s32 o) 32 (fun a b _ => (a &&& b).getLsbD 0)) ∧
  (PredResult (fun h o => .or h .s32 o) 32 (fun a b _ => (a ||| b).getLsbD 0)) ∧
  (PredResult (fun h o => .xor h .s32 o) 32 (fun a b _ => (a ^^^ b).getLsbD 0)) ∧
  (PredResult (fun h o => .not h .s32 o) 32 (fun a _ _ => !a.getLsbD 0))) ∧
  (
  (∀ t, IntResult (fun h o => .shl h t o) t (fun _ => []) false (fun _ a b _ _ => a <<< (b.toNat % 256))) ∧
  (∀ t, IntResult (fun h o => .shr h t o) t (fun _ => []) false
    (fun _ a b _ _ => if t.signed then a.sshiftRight (b.toNat % 256) else a >>> (b.toNat % 256))) ∧
  (∀ m : RotMod, IntResult (fun h o => .rot h m o) m.t (fun _ => []) false
    (fun n a b _ _ => if m.right then a.rotateRight (b.toNat % 256 % n) else a.rotateLeft (b.toNat % 256 % n))))

/-- POPC, CLZ and BREV (R149); the counts are written zero-extended whatever the signedness. BFE and BFI (R150): BFE bit by bit from the
field source, BFI under its mask. -/
def Obligations.BitFieldResults : Prop :=
  (
  (∀ t, IntResult (fun h o => .popc h t o) t (fun _ => []) true (fun n a _ _ _ => BitVec.ofNat n (popOf a))) ∧
  (∀ t, IntResult (fun h o => .clz h t o) t (fun _ => []) true (fun n a _ _ _ => BitVec.ofNat n (clzOf a))) ∧
  (∀ t, IntResult (fun h o => .brev h t o) t (fun _ => []) false (fun _ a _ _ _ => a.reverse))) ∧
  (
  (∀ t, IntResult (fun h o => .bfe h t o) t (fun _ => []) false (fun _ a b _ _ => bfeOf t a b)) ∧
  (∀ t, IntResult (fun h o => .bfi h t o) t (fun _ => []) false (fun _ a b c _ => bfiOf a b c)))

/-- ISETP (R152): the comparison, combined with C where MOD says so, in every active lane of predicate D; p15 discards it. -/
def Obligations.CompareResult : Prop :=
  ∀ m : SetpMod, PredResult (fun h o => .isetp h m o) (if m.t.is64 then 64 else 32)
    (fun a b p => match m.comb with
      | .none => cmpOf m.t m.cmp a b
      | .and => cmpOf m.t m.cmp a b && p
      | .or => cmpOf m.t m.cmp a b || p
      | .xor => xor (cmpOf m.t m.cmp a b) p)

/-- LEA (R153), IMUL, IMULH and IMAD (R154): of the exact value, wrapped, saturated, or its high half. IMADW (R155): the whole product plus
an addend of twice the width, as a pair in the vector unit, as one register of the scalar unit at 32 bits and as a pair at 64, a special
register as addend being zero-extended (the model's choice, log entry 28); a pair that would run past its file takes OPND PAIR at its first
register, D's before C's (the model's choice, log entry 5). -/
def Obligations.ProductResults : Prop :=
  (
  (∀ m : LeaMod, IntResult (fun h o => .lea h m o) m.t (fun _ => []) false
    (fun n a b _ _ => BitVec.ofInt n (valOf m.t a + valOf m.t b * 2 ^ m.n.toNat))) ∧
  (∀ m : SatMod, IntResult (fun h o => .imul h m o) m.t (fun _ => []) false
    (fun n a b _ _ => BitVec.ofInt n (if m.sat then clampOf m.t n (valOf m.t a * valOf m.t b) else valOf m.t a * valOf m.t b))) ∧
  (∀ t, IntResult (fun h o => .imulh h t o) t (fun _ => []) false (fun n a b _ _ => BitVec.ofInt n (valOf t a * valOf t b / 2 ^ n))) ∧
  (∀ t, IntResult (fun h o => .imad h t o) t (fun _ => []) false (fun n a b c _ => BitVec.ofInt n (valOf t a * valOf t b + valOf t c)))) ∧
  (
  (∀ s h o c t, t.is64 = false → Opd.laneReg o.d = true → pairPast (s.wv c).stream 2 o.d = none → pairPast (s.wv c).stream 2 o.c = none →
    Issues s h c [⟨0, o.d, 2, true, false, none⟩, ⟨1, o.a, 1, false, h.fea, none⟩, ⟨2, o.b, 1, false, h.feb, none⟩,
                  ⟨3, o.c, 2, false, h.fec, none⟩] →
    Completes (exec (.imadw h t o) s) (fun u => RegFrame s u c [(o.d, 2)] ∧ MovedOn s u c ∧
      ∀ l, l < 32 → c.act.getLsbD l = true →
        ((s.wv c).lane (u.wv c) o.d 0 l).toNat + 2 ^ 32 * ((s.wv c).lane (u.wv c) o.d 1 l).toNat =
          ((valOf t (s.src c o.a l) * valOf t (s.src c o.b l) + s.run.rdPair c.wid o.c l) % 2 ^ 64).toNat)) ∧
  (∀ s h o c d, o.d = .s d → Ops.vecUnit o = false →
    (match o.c with | .s _ => True | .imm8 _ => True | .sp _ => True | _ => False) →
    Issues s h c [⟨0, o.d, 1, true, false, none⟩, ⟨1, o.a, 1, false, h.fea, none⟩, ⟨2, o.b, 1, false, h.feb, none⟩,
                  ⟨3, o.c, 1, false, h.fec, none⟩] →
    pairPast (s.wv c).stream 1 o.d = none → pairPast (s.wv c).stream 1 o.c = none →
    ∀ t : IType, t.is64 = false →
    Completes (exec (.imadw h t o) s) (fun u => RegFrame s u c [(o.d, 1)] ∧ MovedOn s u c ∧
      (u.wv c).sReg d.toNat = BitVec.ofInt 64
        (valOf t ((s.ssrc c o.a).setWidth 32) * valOf t ((s.ssrc c o.b).setWidth 32) + (s.ssrc c o.c).toNat))) ∧
  (∀ s h o c d, o.d = .s d → Ops.vecUnit o = false →
    (match o.c with | .s _ => True | .imm8 _ => True | .sp _ => True | _ => False) →
    Issues s h c [⟨0, o.d, 2, true, false, none⟩, ⟨1, o.a, 1, false, h.fea, none⟩, ⟨2, o.b, 1, false, h.feb, none⟩,
                  ⟨3, o.c, 2, false, h.fec, none⟩] →
    pairPast (s.wv c).stream 2 o.d = none → pairPast (s.wv c).stream 2 o.c = none →
    ∀ t : IType, t.is64 = true →
    Completes (exec (.imadw h t o) s) (fun u => RegFrame s u c [(o.d, 2)] ∧ MovedOn s u c ∧
      let addend : BitVec 128 := match o.c with
        | .s n => s.run.rdScalar c.wid (.s n) 1 c.act.lowest ++ s.run.rdScalar c.wid (.s n) 0 c.act.lowest
        | .imm8 n => n.signExtend 128
        | x => (s.ssrc c x).setWidth 128
      (u.wv c).sReg (d.toNat + 1) ++ (u.wv c).sReg d.toNat =
        BitVec.ofInt 128 (valOf t (s.ssrc c o.a) * valOf t (s.ssrc c o.b)) + addend)) ∧
  (∀ s h o c t n, s.run.issuer h = some c → c.act ≠ 0 →
    let past (x : Opd) : Option Nat := pairPast (s.wv c).stream (if Ops.vecUnit o || t.is64 then 2 else 1) x
    past o.d = some n ∨ past o.d = none ∧ past o.c = some n →
    Completes (exec (.imadw h t o) s) (fun u =>
      u = { s with run := trapAt s.sys s.run c { cls := 4, sub := 5, mask := c.act, cw := BitVec.ofNat 64 n } })))

/-! ## Floating point and conversion -/

/-- FADD, FSUB, FMUL, FFMA, FMIN, FMAX and FSCALE (R159, R163, R166, R168, R171 to R175): the arithmetic of Flags.lean on each element, its
flags ORed into %FPSR, or the FPX trap. FSETP and FCLASS (R173, R174): FP32 compares combined with C; the class mask of A, or with a
predicate D whether it meets mask B. -/
def Obligations.FloatArithmetic : Prop :=
  (
  (∀ m, FpResult (fun h o => .fadd h m o) (fun o r c l => BitVec.ofNat 32 (r.rdFp c.wid m.t o.a l))
    (fpValue m (fun k a b _ => (FType.fmt m.t).add k a b))) ∧
  (∀ m, FpResult (fun h o => .fsub h m o) (fun o r c l => BitVec.ofNat 32 (r.rdFp c.wid m.t o.a l))
    (fpValue m (fun k a b _ => (FType.fmt m.t).sub k a b))) ∧
  (∀ m, FpResult (fun h o => .fmul h m o) (fun o r c l => BitVec.ofNat 32 (r.rdFp c.wid m.t o.a l))
    (fpValue m (fun k a b _ => (FType.fmt m.t).mul k a b))) ∧
  (∀ m, FpResult (fun h o => .ffma h m o) (fun o r c l => BitVec.ofNat 32 (r.rdFp c.wid m.t o.a l))
    (fpValue m (fun k a b x => (FType.fmt m.t).fma k a b x))) ∧
  (∀ m, FpResult (fun h o => .fmin h m o) (fun o r c l => BitVec.ofNat 32 (r.rdFp c.wid m.t o.a l))
    (fpValue m (fun k a b _ => (FType.fmt m.t).minmax k false a b))) ∧
  (∀ m, FpResult (fun h o => .fmax h m o) (fun o r c l => BitVec.ofNat 32 (r.rdFp c.wid m.t o.a l))
    (fpValue m (fun k a b _ => (FType.fmt m.t).minmax k true a b))) ∧
  (∀ m, FpResult (fun h o => .fscale h m o) (fun o r c l => BitVec.ofNat 32 (r.rdFp c.wid m.t o.a l))
    (fun o r c l => perElem m.t (fun a _ _ =>
      let (p, fl) := (FType.fmt m.t).scale (fctl (r.wave c.wid) m.t m.rm) ((FType.fmt m.t).signs m.negA m.absA a)
        (r.rdLane c.wid o.b 0 l).toInt
      (if m.sat then (FType.fmt m.t).sat01 p else p, fl)) (r.rdFp c.wid m.t o.a l) 0 0))) ∧
  (
  (∀ m : FsetpMod, FpResult (fun h o => .fsetp h m o) (fun o r c l => BitVec.ofNat 32 (r.rdFp c.wid .f32 o.a l))
    (fun o r c l =>
      let (x, fl) := fmt32.cmp (fctl (r.wave c.wid) .f32 .dyn) m.cmp
        (fmt32.signs m.negA m.absA (r.rdFp c.wid .f32 o.a l)) (fmt32.signs m.negB m.absB (r.rdFp c.wid .f32 o.b l))
      let q := predAt (r.wave c.wid) o.c l
      (if (match m.comb with | .none => x | .and => x && q | .or => x || q | .xor => xor x q) then 1 else 0, fl))) ∧
  FpResult (fun h o => .fclass h o) (fun o r c l => BitVec.ofNat 32 (r.rdFp c.wid .f32 o.a l))
    (fun o r c l =>
      let k := fmt32.classMask (r.rdFp c.wid .f32 o.a l)
      (match o.d with | .p _ => k &&& (r.rdLane c.wid o.b 0 l).toNat | _ => k, 0)))

/-- The special functions (R176, R177): FSQRT rounded exactly; the others per element as `Sfu.fp32` has them, where neither an exact case nor
a special one applies by a free value of the model (log entry 7). With no exception enabled each completes in every lane, whatever that
value is. The special cases of FP32 (R177): the poles raise DZ, a negative source of FRSQ and FLOG2 and an infinite one of FSIN and FCOS IV. -/
def Obligations.SpecialFunctions : Prop :=
  (∀ s h m o c, Issues s h c (usesOf h o) → fpEnables (s.wv c) = 0 →
    ∀ i ∈ [Instr.frcp h m o, .frsq h m o, .fsqrt h m o, .fexp2 h m o, .flog2 h m o, .fsin h m o, .fcos h m o, .ftanh h m o],
      Completes (exec i s) (fun t => RegFrameBut s t c [(o.d, 1)] { s.wv c with fpsr := (t.wv c).fpsr } ∧ MovedOn s t c ∧
        (s.wv c).fpsr &&& (t.wv c).fpsr = (s.wv c).fpsr)) ∧
  (∀ k : FCtl, let z := 0x80000000
    Sfu.rcp.fp32 k 0 = (0x7F800000, fDZ) ∧ Sfu.rcp.fp32 k z = (0xFF800000, fDZ) ∧
    Sfu.rcp.fp32 k 0x7F800000 = (0, 0) ∧ Sfu.rcp.fp32 k 0xFF800000 = (z, 0) ∧
    Sfu.rsq.fp32 k 0 = (0x7F800000, fDZ) ∧ Sfu.rsq.fp32 k z = (0xFF800000, fDZ) ∧ Sfu.rsq.fp32 k 0x7F800000 = (0, 0) ∧
    (Sfu.rsq.fp32 k 0xFF800000).2 = fIV ∧ (Sfu.rsq.fp32 k 0xBF800000).2 = fIV ∧ (Sfu.log2.fp32 k 0xBF800000).2 = fIV ∧
    Sfu.log2.fp32 k 0 = (0xFF800000, fDZ) ∧ Sfu.log2.fp32 k 0x3F800000 = (0, 0) ∧ Sfu.log2.fp32 k 0x7F800000 = (0x7F800000, 0) ∧
    Sfu.exp2.fp32 k 0 = (0x3F800000, 0) ∧ Sfu.exp2.fp32 k 0x7F800000 = (0x7F800000, 0) ∧ Sfu.exp2.fp32 k 0xFF800000 = (0, 0) ∧
    Sfu.sin.fp32 k 0 = (0, 0) ∧ Sfu.sin.fp32 k z = (z, 0) ∧ (Sfu.sin.fp32 k 0x7F800000).2 = fIV ∧ (Sfu.cos.fp32 k 0x7F800000).2 = fIV ∧
    Sfu.tanh.fp32 k 0x7F800000 = (0x3F800000, 0) ∧ Sfu.tanh.fp32 k 0xFF800000 = (0xBF800000, 0)) ∧
  ∀ (m : FpMod) (fn : Sfu),
    FpResult (fun h o => match fn with
        | .rcp => .frcp h m o | .rsq => .frsq h m o | .exp2 => .fexp2 h m o | .log2 => .flog2 h m o
        | .sin => .fsin h m o | .cos => .fcos h m o | .tanh => .ftanh h m o)
      (fun o r c l => BitVec.ofNat 32 (r.rdFp c.wid m.t o.a l))
      (fpValue m (fun k a _ _ => (FType.fmt m.t).special k (fun k x => fn.fp32 k x) a)) ∧
    FpResult (fun h o => .fsqrt h m o) (fun o r c l => BitVec.ofNat 32 (r.rdFp c.wid m.t o.a l))
      (fpValue m (fun k a _ _ => (FType.fmt m.t).special k (fun k x => fmt32.sqrt k x) a))

/-- CVT, PACK, UNPK and FRND (R180 to R183). VCOMP and VEXP (R116) in a fully reconverged wave: packing by position with the count in C, and
expanding to the selected lanes; .z clears the lanes left over, .m keeps them. Both are owed until they arrive. A source lane whose register
may not be told gives an open value (R110), and a relative D is written in the lanes whose index lies in the window. -/
def Obligations.ConversionResults : Prop :=
  (
  (∀ m : CvtMod, FpResult (fun h o => .cvt h m o) (fun o r c l => r.rdLane c.wid o.a 0 l)
    (fun o r c l => convert m.dst m.src (Rnd.of m.rm (r.wave c.wid).fpcr) m.sat
      (if m.dst = .fp32 then (r.wave c.wid).fpcr.getLsbD 3 else (r.wave c.wid).fpcr.getLsbD 4) ((r.wave c.wid).fpcr.getLsbD 5)
      (r.rdLane c.wid o.a 0 l).toNat)) ∧
  (∀ m : PackMod, FpResult (fun h o => .pack h m o) (fun o r c l => r.rdLane c.wid o.a 0 l)
    (fun o r c l => packLane (r.wave c.wid) m (r.rdLane c.wid o.d 0 l).toNat (r.rdLane c.wid o.a 0 l).toNat
      (r.rdLane c.wid o.b 0 l).toNat)) ∧
  (∀ m : UnpkMod, FpResult (fun h o => .unpk h m o) (fun o r c l => r.rdLane c.wid o.a 0 l)
    (fun o r c l => (unpack m.ty ((r.rdLane c.wid o.a 0 l).toNat / 2 ^ (m.n.toNat * m.ty.width) % 2 ^ m.ty.width), 0))) ∧
  (∀ m : FrndMod, FpResult (fun h o => .frnd h m o) (fun o r c l => r.frndSource c m.t o.a l)
    (fun o r c l => perElem m.t (fun a _ _ => (FType.fmt m.t).toIntegral (fctl (r.wave c.wid) m.t m.rm) a)
      (r.frndSource c m.t o.a l).toNat 0 0))) ∧
  (
  ∀ (s : State) (h : Hd) (z : Bool) (o : Ops) (c : Iss), Issues s h c [] → Whole s c → Opd.laneReg o.d = true →
    let w := s.wv c
    let sel := s.run.trueLanes c o.b
    let d (x : Option Lanes) : Use := ⟨0, o.d, 1, true, false, x⟩
    let n : Use := ⟨3, o.c, 1, true, false, none⟩
    let frame (t : State) (lanes : Lanes) (ds : List (Opd × Nat)) : Prop :=
      DeviceKept s (t.asDrawn s) c.wid ∧ RegsKept w (t.wv c) lanes ds ∧ MovedOn s t c ∧
      RestKept { w with pend := (t.wv c).pend, pendNext := w.pendNext + 1 } (t.wv c) ∧
      (∀ x ∈ w.refs o.d 1 lanes, x.mask ≠ 0 → (t.wv c).isEmpty x = true)
    (let lanes := w.writable o.d (if z then 0xFFFFFFFF#32 else Lanes.ofTest (fun l => l < sel.count))
     opndCheck w c.act [d none, ⟨1, o.a, 1, false, h.fea, none⟩, n] = none →
     feCheck w c.act [d (some lanes), crossUse w c.m 1 o.a h.fea sel, n] = .ok →
     Completes (exec (.vcomp h z o) s) (fun t => frame t lanes [(o.d, 1), (o.c, 1)] ∧
       (∀ k, o.c = .s k → (t.wv c).sReg k.toNat = BitVec.ofNat 64 sel.count ∧ (t.wv c).sEmpty.getLsbD k.toNat = true) ∧
       ∀ l, l < 32 → lanes.getLsbD l = true → let j := sel.toList.getD l 0
         (sel.count ≤ l → w.lane (t.wv c) o.d 0 l = 0) ∧
         (l < sel.count → (w.unsure c.m o.a).getLsbD j = false → w.lane (t.wv c) o.d 0 l = s.src c o.a j))) ∧
    (let lanes := w.writable o.d (if z then 0xFFFFFFFF#32 else sel)
     opndCheck w c.act [d none, ⟨1, o.a, 1, false, h.fea, none⟩] = none →
     feCheck w c.act [d (some lanes), crossUse w c.m 1 o.a h.fea (Lanes.ofTest (fun l => l < sel.count))] = .ok →
     o.c = .none →
     Completes (exec (.vexp h z o) s) (fun t => frame t lanes [(o.d, 1)] ∧
       ∀ l, l < 32 → lanes.getLsbD l = true → let j := sel.toList.idxOf l
         (sel.getLsbD l = false → w.lane (t.wv c) o.d 0 l = 0) ∧
         (sel.getLsbD l = true → (w.unsure c.m o.a).getLsbD j = false → w.lane (t.wv c) o.d 0 l = s.src c o.a j))))

/-! ## Lanes -/

/-- SHFL (R112): each active lane takes A of the lane its mode gives, or its own A where that lies outside the wave; from a lane that may not
be told (R110) an open value. MOVS.get and MOVS.put (R135), a relative operand standing for the register that the lowest active lane forms:
one lane of A into a scalar, owed until it arrives, an open value where the lane runs in another part; the low 32 bits of A into one lane of
D, active or not, in a fully reconverged wave. A lane index of 32 or more takes OPND LANE, an index formed outside the window OPND RELIDX
with the lowest active lane (the model's choice, log entry 5). -/
def Obligations.LaneMoves : Prop :=
  (
  ∀ (s : State) (h : Hd) (m : ShflMod) (o : Ops) (c : Iss), Issues s h c [] → Opd.laneReg o.d = true →
    let w := s.wv c
    let x (l : Nat) : Int := if m.f = 0 then (s.src c o.b l).toInt else 32 / 2 ^ m.f.toNat
    let from_ (l : Nat) : Int := match m.mode with
      | .idx => x l % 32
      | .up => l - x l
      | .down => l + x l
      | .xor => ((BitVec.ofNat 32 l ^^^ BitVec.ofInt 32 (x l)).toNat % 32 : Nat)
    let source (l : Nat) : Nat := if 0 ≤ from_ l ∧ from_ l < 32 then (from_ l).toNat else l
    let read := Lanes.ofTest (fun k => c.act.toList.any (fun l => source l == k))
    opndCheck w c.act [⟨0, o.d, 1, true, false, none⟩, ⟨1, o.a, 1, false, h.fea, none⟩, ⟨2, o.b, 1, false, h.feb, none⟩] = none →
    feCheck w c.act [⟨0, o.d, 1, true, false, none⟩, crossUse w c.m 1 o.a h.fea read, ⟨2, o.b, 1, false, h.feb, none⟩] = .ok →
    Completes (exec (.shfl h m o) s) (fun t => RegFrame s (t.asDrawn s) c [(o.d, 1)] ∧ MovedOn s t c ∧
      ∀ l, l < 32 → c.act.getLsbD l = true → (w.unsure c.m o.a).getLsbD (source l) = false →
        w.lane (t.wv c) o.d 0 l = s.src c o.a (source l))) ∧
  (
  ∀ (s : State) (h : Hd) (o : Ops) (c : Iss), Issues s h c [] →
    let w := s.wv c
    let l := s.run.rdCount c o.b
    let b : Use := ⟨2, o.b, 1, false, h.feb, none⟩
    (∀ (a : Opd) (d : BitVec 7), w.fixRel o.a c.act.lowest = .inl a → o.d = .s d → opndCheck w c.act [⟨1, a, 1, false, false, none⟩] = none →
      b.having w c.act (fun x => w.isEmpty x || w.isInd x) = [] →
      (l < 32 → checkUses w c.act [⟨0, o.d, 1, true, false, none⟩, ⟨1, a, 1, false, h.fea, some (laneBit l &&& ~~~w.foreign c.m)⟩, b] = .ok →
        Completes (exec (.movsGet h o) s) (fun t =>
          RegFrameBut s (t.asDrawn s) c [(o.d, 1)] { w with pend := (t.wv c).pend, pendNext := w.pendNext + 1 } ∧ MovedOn s t c ∧
          (t.wv c).sEmpty.getLsbD d.toNat = true ∧
          ((w.foreign c.m).getLsbD l = false → (t.wv c).sReg d.toNat = (s.src c a l).signExtend 64))) ∧
      (32 ≤ l → Traps s (.movsGet h o) c { cls := 4, sub := 4, mask := c.act, cw := BitVec.ofNat 64 l })) ∧
    (∀ x, w.fixRel o.a c.act.lowest = .inr x → Traps s (.movsGet h o) c (relTrap c.act.lowest 1 x)) ∧
    (∀ d : Opd, w.fixRel o.d c.act.lowest = .inl d → Whole s c → opndCheck w c.act [⟨0, d, 1, true, false, none⟩] = none →
      checkUses w c.act [⟨1, o.a, 1, false, h.fea, none⟩, b] = .ok →
      (l < 32 → checkUses w c.act [⟨0, d, 1, true, false, some (laneBit l)⟩] = .ok →
        Completes (exec (.movsPut h o) s) (fun t => DeviceKept s t c.wid ∧ RegsKept w (t.wv c) (laneBit l) [(d, 1)] ∧ RestKept w (t.wv c) ∧
          MovedOn s t c ∧ (Opd.laneReg d = true → w.lane (t.wv c) d 0 l = (s.ssrc c o.a).setWidth 32))) ∧
      (32 ≤ l → Traps s (.movsPut h o) c { cls := 4, sub := 4, mask := c.act, cw := BitVec.ofNat 64 l })) ∧
    (∀ x, w.fixRel o.d c.act.lowest = .inr x → Whole s c → Traps s (.movsPut h o) c (relTrap c.act.lowest 0 x)))

/-- VOTE, VBAL and VFIRST (R115), over the active lanes in which predicate A is true. -/
def Obligations.VoteResults : Prop :=
  ∀ (s : State) (h : Hd) (o : Ops) (c : Iss) (p : BitVec 4), Issues s h c (usesOf h o) → o.a = .p p →
    let yes (l : Nat) : Prop := l < 32 ∧ c.act.getLsbD l = true ∧ ((s.wv c).pSee p.toNat).getLsbD l = true
    (∀ (m : VoteMode) (b : Bool), (b = true ↔ match m with
        | .all => ∀ l, l < 32 → c.act.getLsbD l = true → yes l
        | .any => ∃ l, yes l
        | .uni => (∀ l, l < 32 → c.act.getLsbD l = true → yes l) ∨ ¬∃ l, yes l) →
      Completes (exec (.vote h m o) s) (fun t => RegFrame s t c [(o.d, 1)] ∧ MovedOn s t c ∧
        (∀ d, o.d = .s d → (t.wv c).sReg d.toNat = if b then 1 else 0) ∧
        (∀ d, o.d = .p d → d ≠ 15 → ∀ l, l < 32 → c.act.getLsbD l = true → ((t.wv c).pReg d.toNat).getLsbD l = b))) ∧
    Completes (exec (.vbal h o) s) (fun t => RegFrame s t c [(o.d, 1)] ∧ MovedOn s t c ∧
      (∀ d, o.d = .s d → ∀ l, l < 64 → (((t.wv c).sReg d.toNat).getLsbD l = true ↔ yes l)) ∧
      (Opd.laneReg o.d = true → ∀ l, l < 32 → c.act.getLsbD l = true → ∀ k, k < 32 →
        (((s.wv c).lane (t.wv c) o.d 0 l).getLsbD k = true ↔ yes k))) ∧
    (∀ i : Int, ((i = -1 ∧ ¬∃ l, yes l) ∨ ∃ n : Nat, i = n ∧ yes n ∧ ∀ k, k < n → ¬yes k) →
      Completes (exec (.vfirst h o) s) (fun t => RegFrame s t c [(o.d, 1)] ∧ MovedOn s t c ∧
        (∀ d, o.d = .s d → (t.wv c).sReg d.toNat = BitVec.ofInt 64 i) ∧
        (∀ d, o.d = .p d → d ≠ 15 → ∀ l, l < 32 → c.act.getLsbD l = true → ((t.wv c).pReg d.toNat).getLsbD l = decide ((l : Int) = i))))

/-- VRED and VSCAN (R113, R114) without an enabled exception: D takes the reduction over the steps, or the prefix, of the active lanes'
values; its registers read empty until the result arrives; the flags join %FPSR. A full integer VRED.add leaves in every active lane the sum
of the active lanes' A modulo 2^32, and the bitwise ones their AND, OR and XOR: the tree of R113 adds every lane once. -/
def Obligations.ReduceAndScan : Prop :=
  (
  ∀ (s : State) (h : Hd) (o : Ops) (c : Iss), Issues s h c (usesOf h o) →
    (∀ m : VredMod,
      let w0 := laneIds.map (fun l => (if c.act.getLsbD l then (s.src c o.a l).toNat else redIdentity m.t m.op, 0))
      let out := redTree (redNode (redCtl (s.wv c)) m.t m.op) (if m.step = 0 then [5, 4, 3, 2, 1] else [m.step.toNat]) w0
      let at_ (l : Nat) : Nat × Nat := if o.d.isS then out.getD 0 (0, 0) else out.getD l (0, 0)
      (∀ l, l < 32 → c.act.getLsbD l = true → (at_ l).2 &&& fpEnables (s.wv c) = 0) →
      Completes (exec (.vred h m o) s) (fun t =>
        RegFrameBut s t c [(o.d, 1)] { s.wv c with fpsr := (t.wv c).fpsr, pend := (t.wv c).pend, pendNext := (s.wv c).pendNext + 1 } ∧
        MovedOn s t c ∧
        (∃ p, (t.wv c).pend = (s.wv c).pend ++ [p] ∧ p.id = (s.wv c).pendNext ∧ p.regs = (s.wv c).refs o.d 1 c.act ∧ p.kind = .xlane) ∧
        (∀ x ∈ (s.wv c).refs o.d 1 c.act, x.mask ≠ 0 → (t.wv c).isEmpty x = true) ∧
        (∀ d, o.d = .s d → (t.wv c).sReg d.toNat =
          if m.t = .s32 then (BitVec.ofNat 32 (at_ 0).1).signExtend 64 else BitVec.ofNat 64 (at_ 0).1) ∧
        (Opd.laneReg o.d = true → ∀ l, l < 32 → c.act.getLsbD l = true → (s.wv c).lane (t.wv c) o.d 0 l = BitVec.ofNat 32 (at_ l).1))) ∧
    (∀ m : VscanMod, Opd.laneReg o.d = true →
      let xs := scanGo (redNode (redCtl (s.wv c)) m.t m.op) m.excl (c.act.toList.map (fun l => (l, (s.src c o.a l).toNat)))
        (redIdentity m.t m.op, 0)
      (∀ x ∈ xs, x.2.2 &&& fpEnables (s.wv c) = 0) →
      Completes (exec (.vscan h m o) s) (fun t =>
        RegFrameBut s t c [(o.d, 1)] { s.wv c with fpsr := (t.wv c).fpsr, pend := (t.wv c).pend, pendNext := (s.wv c).pendNext + 1 } ∧
        MovedOn s t c ∧
        (∀ x ∈ (s.wv c).refs o.d 1 c.act, x.mask ≠ 0 → (t.wv c).isEmpty x = true) ∧
        ∀ x ∈ xs, (s.wv c).lane (t.wv c) o.d 0 x.1 = BitVec.ofNat 32 x.2.1))) ∧
  (
  ∀ (xs : List Word) (l : Nat), xs.length = 32 → l < 32 → ∀ k : FCtl,
    let w0 := xs.map (fun x => (x.toNat, 0))
    ((redTree (redNode k .u32 .add) [5, 4, 3, 2, 1] w0).getD l (0, 0)).1 = (xs.map BitVec.toNat).sum % 2 ^ 32 ∧
    ((redTree (redNode k .u32 .and) [5, 4, 3, 2, 1] w0).getD l (0, 0)).1 = (xs.foldl (· &&& ·) 0xFFFFFFFF#32).toNat ∧
    ((redTree (redNode k .u32 .or) [5, 4, 3, 2, 1] w0).getD l (0, 0)).1 = (xs.foldl (· ||| ·) 0#32).toNat ∧
    ((redTree (redNode k .u32 .xor) [5, 4, 3, 2, 1] w0).getD l (0, 0)).1 = (xs.foldl (· ^^^ ·) 0#32).toNat)

/-- The fused softmax sequence (R184 to R186). With no exception enabled and every operand of the four readable it completes: the four results
are written and owed together, and the group goes on behind the fourth. Where nothing older is in flight and the four have one guard, the
registers and %FPSR are then those that VRED, FSUB or FFMA, FEXP2 and VRED leave when they issue one after another, each after the results
before it have arrived. Where one traps or waits, nothing of the sequence has happened. -/
def Obligations.FusedSequence : Prop :=
  ∀ (s : State) (x : FuseArgs) (c : Iss), Issues s x.h1 c [] →
    let all (t : State) : Prop := DeviceKept s t c.wid ∧
      RegsKept (s.wv c) (t.wv c) c.act [(x.o1.d, 1), (x.o2.d, 1), (x.o3.d, 1), (x.o4.d, 1)] ∧
      RestKept { s.wv c with fpsr := (t.wv c).fpsr, young := (t.wv c).young, pend := (t.wv c).pend, pendNext := (s.wv c).pendNext + 1 } (t.wv c) ∧
      (∀ y ∈ (t.wv c).young, y ∈ (s.wv c).young) ∧
      (t.wv c).parts = (s.wv c).parts.map (fun p => if (p.mask &&& c.m) ≠ 0 then { p with pc := p.pc + 48, park := .run } else p) ∧
      (∀ o ∈ [x.o1.d, x.o2.d, x.o3.d, x.o4.d], ∀ n, o = .v n → (t.wv c).isEmpty ⟨true, n.toNat, c.act⟩ = true)
    let vecD (o : Ops) : Prop := match o.d with | .v _ => True | .rel _ _ => True | _ => False
    (vecD x.o1 → vecD x.o2 → vecD x.o3 → vecD x.o4 →
      (∀ r, fuseEff x s.sys s.run c = .ok r () → Completes (exec (.softmaxFusion x) s) all) ∧
      (fpEnables (s.wv c) = 0 → checkUses (s.wv c) c.act (usesOf x.h1 x.o1) = .ok → checkUses (s.wv c) c.act (usesOf x.h2 x.o2) = .ok →
        checkUses (s.wv c) c.act (usesOf x.h3 x.o3) = .ok → checkUses (s.wv c) c.act (usesOf x.h4 x.o4) = .ok →
        Completes (exec (.softmaxFusion x) s) all ∧
        ((s.wv c).young = [] → Hd.grd x.h2 = Hd.grd x.h1 → Hd.grd x.h3 = Hd.grd x.h1 → Hd.grd x.h4 = Hd.grd x.h1 →
          Completes (exec (.vred x.h1 x.m1 x.o1) s) (fun s1 =>
            Completes (exec (if x.ffma then .ffma x.h2 x.m2 x.o2 else .fsub x.h2 x.m2 x.o2) (s1.arrived s c)) (fun s2 =>
              Completes (exec (.fexp2 x.h3 x.m3 x.o3) (s2.arrived s c)) (fun s3 =>
                Completes (exec (.vred x.h4 x.m4 x.o4) (s3.arrived s c)) (fun s4 =>
                  Completes (exec (.softmaxFusion x) s) (fun t =>
                    (∀ k, (t.wv c).vRow k = (s4.wv c).vRow k) ∧ (t.wv c).fpsr = (s4.wv c).fpsr)))))))) ∧
    (∀ r tr, fuseEff x s.sys s.run c = .trap r tr →
      exec (.softmaxFusion x) s = .next { s with run := trapAt s.sys s.run c tr }) ∧
    (∀ r k, fuseEff x s.sys s.run c = .park r (.retry (.regs k)) →
      Completes (exec (.softmaxFusion x) s) (fun t => t.sys = s.sys ∧ t.run.mem = s.run.mem ∧
        (t.wv c).v = (s.wv c).v ∧ (t.wv c).fpsr = (s.wv c).fpsr))

/-! ## Moves -/

/-- MOV and MOVI (R133, R134): per active lane into v, rel, a or p; 64 bits of A, or the immediate sign-extended, into a scalar. A MOV from
%FPSR has no earlier FP or cross-lane instruction to wait for (R166). MSET (R223) writes base and length into a modulo register. -/
def Obligations.MoveResults : Prop :=
  (
  ∀ (s : State) (h : Hd) (o : Ops) (c : Iss), Issues s h c (usesOf h o) →
    ((Ops.namesPriv o = true → (s.wv c).priv = true) → (isFpsr o.a = true → s.run.fpDue c.wid = false) →
      Completes (exec (.mov h o) s) (fun t => RegFrame s t c [(o.d, 1)] ∧ MovedOn s t c ∧
        (Opd.laneReg o.d = true → ∀ l, l < 32 → c.act.getLsbD l = true → (s.wv c).lane (t.wv c) o.d 0 l = s.src c o.a l) ∧
        (∀ d, o.d = .p d → d ≠ 15 → ∀ l, l < 32 → c.act.getLsbD l = true →
          ((t.wv c).pReg d.toNat).getLsbD l = decide (s.src c o.a l ≠ 0)) ∧
        (∀ d, o.d = .s d → (t.wv c).sReg d.toNat = s.ssrc c o.a))) ∧
    ∀ imm : Word, Completes (exec (.movi h imm o) s) (fun t => RegFrame s t c [(o.d, 1)] ∧ MovedOn s t c ∧
        (Opd.laneReg o.d = true → ∀ l, l < 32 → c.act.getLsbD l = true → (s.wv c).lane (t.wv c) o.d 0 l = imm) ∧
        (∀ d, o.d = .s d → (t.wv c).sReg d.toNat = imm.signExtend 64))) ∧
  (
  ∀ (s : State) (h : Hd) (o : Ops) (c : Iss) (d : BitVec 3), Issues s h c (usesOf h o) → o.d = .m d →
    Completes (exec (.mset h o) s) (fun t => RegFrame s t c [(o.d, 1)] ∧ MovedOn s t c ∧
      (t.wv c).mReg d.toNat = ((s.ssrc c o.a).setWidth 32, (s.ssrc c o.b).setWidth 32)))

/-! ## Control flow -/

/-- MOVW (R136, R164, R165, R195) writes a special register: the defined bits alone, a reserved rounding mode leaving RM and a reserved
AUTOMAX of %BALCTL leaving it and a 1 in THRSEEN changing nothing (R438). In supervisor state it also writes %TRAPBASE, %TDELEG, %SEPC, %PTBASE
(R56), %MISTH and %MISTX, kept to their range (R435), and %PREEMPT, where a request of more than 4 is ignored and one above STEP begins its
step before anything else happens (R487). It closes the region. The step FPCR_WRITE makes the same write, and FPSR_ACCESS replaces the six sticky bits or reads them. NOP, YIELD and
REGION (R104, R109, R203): the group moves on; YIELD sets the turn it gives up, REGION enters a region at the following instruction and
advances %RGN by 1. In DET mode YIELD also passes to the next current wave. -/
def Obligations.SpecialsAndAdvance : Prop :=
  (
  (∀ (s : State) (h : Hd) (o : Ops) (c : Iss), Issues s h c (usesOf h o) → Ops.namesPriv o = false →
    let v := s.ssrc c o.a
    (o.d = .sp 0x010 → Completes (exec (.movw h o) s) (fun t => RegFrameBut s t c [] { s.wv c with fpcr := (t.wv c).fpcr, rgn := (s.wv c).rgn + 1 } ∧
      (∀ n, n < 32 → (t.wv c).fpcr.getLsbD n =
        if n < 3 then (if v.toNat % 8 < 4 then v.getLsbD n else (s.wv c).fpcr.getLsbD n)
        else (decide (n = 3 ∨ n = 4 ∨ n = 5 ∨ 8 ≤ n ∧ n ≤ 12) && v.getLsbD n)) ∧
      (t.wv c).fpsr = (s.wv c).fpsr ∧ (t.wv c).rgn = (s.wv c).rgn + 1)) ∧
    (o.d = .sp 0x011 → s.run.fpDue c.wid = false → Completes (exec (.movw h o) s) (fun t => RegFrameBut s t c [] { s.wv c with fpsr := (t.wv c).fpsr, rgn := (s.wv c).rgn + 1 } ∧
      (t.wv c).fpsr = v.setWidth 32 &&& 0x3F#32 ∧ (t.wv c).fpcr = (s.wv c).fpcr ∧ (t.wv c).rgn = (s.wv c).rgn + 1)) ∧
    (o.d = .sp 0x012 → Completes (exec (.movw h o) s) (fun t => RegFrameBut s t c [] { s.wv c with epc := (t.wv c).epc, rgn := (s.wv c).rgn + 1 } ∧
      (t.wv c).epc = v ∧ (t.wv c).cause = (s.wv c).cause ∧ (t.wv c).rgn = (s.wv c).rgn + 1)) ∧
    (o.d = .sp 0x016 → Completes (exec (.movw h o) s) (fun t => RegFrameBut s t c [] { s.wv c with utrap := (t.wv c).utrap, rgn := (s.wv c).rgn + 1 } ∧
      (t.wv c).utrap = v &&& 0xFFFFF000#64 ∧ (t.wv c).rgn = (s.wv c).rgn + 1)) ∧
    (o.d = .sp 0x031 → Completes (exec (.movw h o) s) (fun t =>
      DeviceKept s (let run := t.run.onCore (coreOf c.wid) (fun k => { k with balctl := (s.run.core (coreOf c.wid)).balctl })
                    { t with run := run }) c.wid ∧ RegsKept (s.wv c) (t.wv c) c.act [] ∧
      RestKept { s.wv c with rgn := (s.wv c).rgn + 1 } (t.wv c) ∧ let old := (s.run.core (coreOf c.wid)).balctl
      let new := (t.run.core (coreOf c.wid)).balctl
      new.getLsbD 0 = v.getLsbD 0 ∧ bits new 1 3 = (if bits v 1 3 = 0 ∨ bits v 1 3 = 7 then bits old 1 3 else bits v 1 3) ∧
      new.getLsbD 9 = (old.getLsbD 9 && v.getLsbD 9) ∧ ∀ n, 4 ≤ n → n ≠ 9 → new.getLsbD n = old.getLsbD n))) ∧
  (∀ (s : State) (h : Hd) (o : Ops) (c : Iss), Issues s h c (usesOf h o) → (s.wv c).priv = true →
    let v := s.ssrc c o.a
    let cid := (s.run.block (s.wv c).blk).ctx
    let pr := pairOf (coreOf c.wid)
    let writes (f : Ctx → Ctx) : Prop := Completes (exec (.movw h o) s) (fun t => t.sys = s.sys ∧ t.run.ctx cid = f (s.run.ctx cid) ∧
      (∀ n, n ≠ cid → t.run.ctx n = s.run.ctx n) ∧ RegsKept (s.wv c) (t.wv c) c.act [] ∧
      RestKept { s.wv c with rgn := (s.wv c).rgn + 1 } (t.wv c) ∧ (∀ n, n ≠ c.wid → t.run.wave n = s.run.wave n) ∧
      (∀ n, (t.run.core n).sameButCounts (s.run.core n)) ∧
      { t.run with waves := s.run.waves, cores := s.run.cores, ctxs := s.run.ctxs } = s.run)
    ((s.run.ctxs.get? cid).isSome = true → o.d = .sp 0x100 → writes (fun x => { x with trapbase := some (v &&& 0xFFFFFFFFFFFFF000#64) })) ∧
    ((s.run.ctxs.get? cid).isSome = true → o.d = .sp 0x101 → writes (fun x => { x with tdeleg := v &&& 0x3EFE#64 })) ∧
    ((s.run.ctxs.get? cid).isSome = true → o.d = .sp 0x105 → writes (fun x => { x with ptbase := v &&& 0xFFFFFFFFF0000#64 })) ∧
    (o.d = .sp 0x102 → Completes (exec (.movw h o) s) (fun t => RegFrameBut s t c [] { s.wv c with sepc := v, rgn := (s.wv c).rgn + 1 })) ∧
    (o.d = .sp 0x106 ∨ o.d = .sp 0x107 → Completes (exec (.movw h o) s) (fun t => t.sys = s.sys ∧
      { t.run with waves := s.run.waves, cores := s.run.cores, pairs := s.run.pairs } = s.run ∧ RegsKept (s.wv c) (t.wv c) c.act [] ∧
      RestKept { s.wv c with rgn := (s.wv c).rgn + 1 } (t.wv c) ∧ (∀ n, n ≠ c.wid → t.run.wave n = s.run.wave n) ∧
      (∀ n, (t.run.core n).sameButCounts (s.run.core n)) ∧ (∀ n, n ≠ pr → t.run.pair n = s.run.pair n) ∧
      let x := max 100 (min 1000 (v.toNat % 2 ^ 16))
      ((t.run.pair pr).th = if o.d = .sp 0x106 then x else (s.run.pair pr).th) ∧
      ((t.run.pair pr).tx = if o.d = .sp 0x106 then max (s.run.pair pr).tx x else max (s.run.pair pr).th x))) ∧
    ((s.run.ctxs.get? cid).isSome = true → o.d = .sp 0x108 → Completes (exec (.movw h o) s) (fun t => t.sys = s.sys ∧
      RegsKept (s.wv c) (t.wv c) c.act [] ∧ RestKept { s.wv c with rgn := (s.wv c).rgn + 1 } (t.wv c) ∧
      { t.run with waves := s.run.waves, cores := s.run.cores, ctxs := s.run.ctxs, inbox := s.run.inbox } = s.run ∧
      let old := (s.run.ctx cid).preempt
      let new := (t.run.ctx cid).preempt
      bits new 0 3 = (if bits v 0 3 < 5 then bits v 0 3 else bits old 0 3) ∧ new.getLsbD 7 = v.getLsbD 7 ∧
      bits new 16 8 = (if bits v 16 8 = 0 then 1 else bits v 16 8) ∧
      (∀ n, 3 ≤ n → n ≠ 7 → (n < 16 ∨ 24 ≤ n) → new.getLsbD n = old.getLsbD n) ∧
      (bits new 0 3 ≤ bits new 4 3 → t.run.inbox = s.run.inbox) ∧
      (bits new 4 3 < bits new 0 3 → bits new 0 3 < 5 → ∃ i, preemptEvent cid (bits new 0 3) = some i ∧ t.run.inbox = i :: s.run.inbox)))) ∧
  (∀ (s : State) (w : Nat) (v : Word), Completes (exec (.fpcrWrite w v) s) (fun t =>
    t = { s with run := s.run.onWave w (fun x => { x with fpcr := fpcrWrite x.fpcr v }) })) ∧
  (∀ (s : State) (w : Nat) (v : Word), Completes (exec (.fpsrAccess w (some v)) s) (fun t =>
    t = { s with run := s.run.onWave w (fun x => { x with fpsr := v &&& 0x3F#32 }) })) ∧
  (∀ (s : State) (w : Nat), exec (.fpsrAccess w none) s = .next s)) ∧
  (
  ∀ (s : State) (h : Hd) (c : Iss), Issues s h c [] →
    Completes (exec (.nop h) s) (fun t => RegFrame s t c [] ∧ MovedOn s t c) ∧
    (s.run.det (s.wv c) = false → InWave s c →
      Completes (exec (.yield h) s) (fun t => RegFrame s t c [] ∧ MovedOn s t c ∧ (t.wv c).yielded = true)) ∧
    Does s (.yield h) c h { switch := true, yld := true } s.run ∧
    Completes (exec (.region h) s) (fun t => DeviceKept s t c.wid ∧
      RestKept { s.wv c with rgn := (s.wv c).rgn + 1 } (t.wv c) ∧
      (t.wv c).parts = (s.wv c).parts.map (fun p =>
        if (p.mask &&& c.m) ≠ 0 then { p with pc := p.pc + 12, rpc := p.pc + 12, park := .run } else p)))

/-- BRA (R105, R44): target PC + 12 × EXT; each part of the group is divided and the wave settles. Registers and the rest of the device keep
their values. The division of a part at BRA (R96): no active lane falls through, all of them go to the target; else the smaller side, a tie
detaching the taken side, is detached as a fragment where a slot is free, and without one the taken side is held and the rest falls through.
Every lane keeps a place, the active ones at the target, the others at the fall-through. BRX, CALL, CALLX and RET (R106): unaligned or
out-of-range offsets trap with exactly the lanes at fault, alignment first; otherwise the link is written where there is one and each lane
goes to code base + offset, inactive members to the next instruction. A transfer whose lanes all go to one address moves the part there
whole, and detaches and holds nothing (R106). -/
def Obligations.ControlTransfers : Prop :=
  (
  ∀ (s : State) (h : Hd) (off : BitVec 24) (c : Iss), Issues s h c [] →
    Completes (exec (.bra h off) s) (fun t => DeviceKept s t c.wid ∧
      { t.wv c with stall := (s.wv c).stall, yielded := (s.wv c).yielded } =
        ((s.wv c).divide c.m c.act (c.pc + 12 * off.signExtend 64) (s.run.fragsFree c.wid (s.wv c))).regroup)) ∧
  (
  ∀ (p : Part) (x : Lanes) (fall tgt : Word64) (f : Option Nat), x &&& p.mask = x →
    let d := dividePart p x fall tgt f
    let n := p.mask &&& ~~~x
    (x = 0 → d = ({ p with pc := fall }, none, none)) ∧
    (x ≠ 0 → n = 0 → d = ({ p with pc := tgt }, none, none)) ∧
    (x ≠ 0 → n ≠ 0 → f = none → d = ({ p with mask := n, pc := fall }, none, some ⟨x, tgt, p.rpc, p.uid⟩)) ∧
    (∀ slot, x ≠ 0 → n ≠ 0 → f = some slot →
      (x.count ≤ n.count → d = ({ p with mask := n, pc := fall }, some ⟨8 + slot, p.slice, some slot, x, tgt, p.rpc, .run⟩, none)) ∧
      (n.count < x.count → d = ({ p with mask := x, pc := tgt }, some ⟨8 + slot, p.slice, some slot, n, fall, p.rpc, .run⟩, none)))) ∧
  (
  ∀ (s : State) (h : Hd) (o : Ops) (c : Iss), Issues s h c (usesOf h o) →
    let w := s.wv c
    let base := s.run.codeBase w
    let off (l : Nat) : Nat := (s.src c o.a l).toNat
    let link : Word := (c.pc + 12 - base).setWidth 32
    let offs := laneIds.map off
    let go (u : Wave) : Wave := (u.divert c.m c.act (fun l => base + BitVec.ofNat 64 (offs.getD l 0)) (s.run.fragsFree c.wid w)).regroup
    let same (t : State) (u : Wave) : Prop :=
      DeviceKept s t c.wid ∧ { t.wv c with stall := w.stall, yielded := w.yielded } = u
    ((∀ l, l < 32 → c.act.getLsbD l = true → off l % 4 = 0 ∧ off l < s.run.codeSize w) →
      Completes (exec (.brx h o) s) (fun t => same t (go w)) ∧
      Completes (exec (.ret h o) s) (fun t => same t (go w)) ∧
      Completes (exec (.callx h o) s) (fun t => same t (go (w.link o.d c.act link)))) ∧
    ((∃ l, l < 32 ∧ c.act.getLsbD l = true ∧ off l % 4 ≠ 0) → ∃ tr, tr.cls = 7 ∧ tr.sub = 1 ∧
      (∀ l, l < 32 → (tr.mask.getLsbD l = true ↔ c.act.getLsbD l = true ∧ off l % 4 ≠ 0)) ∧
      exec (.brx h o) s = .next { s with run := trapAt s.sys s.run c tr } ∧
      exec (.ret h o) s = .next { s with run := trapAt s.sys s.run c tr } ∧
      exec (.callx h o) s = .next { s with run := trapAt s.sys s.run c tr }) ∧
    ((∀ l, l < 32 → c.act.getLsbD l = true → off l % 4 = 0) → (∃ l, l < 32 ∧ c.act.getLsbD l = true ∧ s.run.codeSize w ≤ off l) →
      ∃ tr, tr.cls = 7 ∧ tr.sub = 2 ∧
      (∀ l, l < 32 → (tr.mask.getLsbD l = true ↔ c.act.getLsbD l = true ∧ s.run.codeSize w ≤ off l)) ∧
      Traps s (.brx h o) c tr ∧ Traps s (.ret h o) c tr ∧ Traps s (.callx h o) c tr) ∧
    Completes (exec (.call h o) s) (fun t => same t
      (((w.link o.d c.act link).divert c.m c.act (fun _ => c.pc + 12 * o.x.signExtend 64) (s.run.fragsFree c.wid w)).regroup)) ∧
    (∀ (u : Wave) (n : BitVec 7), o.d = .s n → (u.link o.d c.act link).sReg n.toNat = link.setWidth 64) ∧
    (∀ (u : Wave) (l : Nat), Opd.laneReg o.d = true → l < 32 → c.act.getLsbD l = true → u.lane (u.link o.d c.act link) o.d 0 l = link)) ∧
  (
  ∀ (p : Part) (a fall : Word64) (f : Nat) (slots : List Nat), p.mask ≠ 0 →
    divertPart p (fun _ => a) fall f slots = ({ p with pc := a, park := .run }, [], [], slots))

/-- EXIT and REGANG (R107, R108): the active lanes leave their parts, or, where they are the wave's last and no ticket is open, the wave
ends with its registers of the pool returned; with a ticket open EXIT takes TXN OPENEXIT. In a continuation wave an exit retires records and
waits as a release for the accesses before it (R481). In the tile stream EXIT closes the open batch and waits for its batches, and with
nothing left to evaluate ends the stream (R342). REGANG makes the running lanes of each part with an active lane waiting at k, once the
accesses before it have performed (R297). The release of waiting lanes (R99):
nothing runs and nothing is held, so the lanes at the largest k, and of these the ones at the lowest address, run on behind that address as
the parts of their slices, and the others keep waiting. -/
def Obligations.ExitAndRegang : Prop :=
  (
  ∀ (s : State) (h : Hd) (c : Iss), Issues s h c [] →
    let w := s.wv c
    let b := s.run.block w.blk
    let some_ : Prop := (w.live &&& ~~~c.act) ≠ 0
    let waits (i : Instr) (r : Run) (k : Wait) : Prop := exec i s = .next { s with run := r.onWave c.wid (fun w => w.park c.m (.retry k)) }
    (w.stream = false → some_ → w.contWave = false → Completes (exec (.exit h) s) (fun t => DeviceKept s t c.wid ∧
      { t.wv c with stall := w.stall, yielded := w.yielded } = w.dropLanes c.m c.act)) ∧
    (w.stream = false → some_ → w.contWave = true → w.unperformed = false → Does s (.exit h) c h { branch := true }
      ((retireRecords s.sys s.run c.wid c.act).onWave c.wid (fun w => w.dropLanes c.m c.act))) ∧
    (w.stream = false → ¬some_ → w.txOpen ≠ 0 →
      Traps s (.exit h) c { cls := 10, sub := 0x10, mask := c.act, cw := w.firstTicket }) ∧
    (w.stream = false → ¬some_ → w.txOpen = 0 → (w.contWave = true → w.unperformed = false) →
      Does s (.exit h) c h { branch := true } (waveEnd s.sys s.run c.wid)) ∧
    (w.stream = false → w.contWave = true → w.unperformed = true → (some_ ∨ w.txOpen = 0) → waits (.exit h) s.run (.release false)) ∧
    (w.stream = true → b.openDemands = [] → b.batches = [] →
      Does s (.exit h) c h { branch := true } (streamEnd s.run w.blk)) ∧
    (w.stream = true → b.openDemands ≠ [] → b.batches.length < 4 → (∀ x ∈ b.batches, ∀ e, x.st ≠ .failed e) →
      waits (.exit h) (s.run.onBlock w.blk Block.close) (.batches (b.lastClosed + 1) true)) ∧
    (w.unperformed = false → ∀ k : BitVec 6, Completes (exec (.regang h k) s) (fun t => DeviceKept s t c.wid ∧
      { t.wv c with stall := w.stall, yielded := w.yielded } = w.regang c.m c.act k.toNat)) ∧
    (w.unperformed = true → ∀ k : BitVec 6, waits (.regang h k) s.run (.release true))) ∧
  (
  ∀ w : Wave, w.parts = [] → w.held = [] → w.waiting ≠ [] →
    ∃ (k : Nat) (addr : Word64), (∃ h ∈ w.waiting, h.k = k ∧ h.addr = addr) ∧ (∀ h ∈ w.waiting, h.k ≤ k) ∧
      (∀ h ∈ w.waiting, h.k = k → addr.toNat ≤ h.addr.toNat) ∧
      (∀ p ∈ w.release.parts, p.pc = addr + 12 ∧ p.rpc = addr + 12 ∧ p.frag = none ∧ p.uid = p.slice ∧ p.slice < 8) ∧
      (∀ l, l < 32 → ((∃ p ∈ w.release.parts, p.mask.getLsbD l = true) ↔
        ∃ h ∈ w.waiting, h.k = k ∧ h.addr = addr ∧ h.lanes.getLsbD l = true)) ∧
      (∀ h, h ∈ w.release.waiting ↔ h ∈ w.waiting ∧ ¬(h.k = k ∧ h.addr = addr)) ∧ w.release.rgn = w.rgn + 1)

/-! ## Traps -/

/-- TAKING AN EXCEPTION, the supervisor's way (R191 to R193): the wave saves the place in %SEPC and the cause in %SCAUSE with NEST where it
was in a user handler, keeps %RGN and every part's region PC in the frame, is in supervisor state, and the group goes to %TRAPBASE + class ×
0x100; the Inn's fault queue gets the record; outside a user handler so does the wave's side buffer entry. -/
def Obligations.SupervisorEntry : Prop :=
  ∀ (r : Run) (wid : Nat) (m : Lanes) (pc : Word64) (word : BitVec 96) (t : Trap) (w : Wave),
    r.waves.get? wid = some w → w.inDouble = false → (w.priv = false ∨ t.cls = 0) → r.delegates w t.cls = false →
    (w.inh = true ∨ r.sideFails wid = false) →
    let u := takeTrap r wid m pc word t
    let z := u.wave wid
    let epc := if t.next then pc + 12 else pc
    z.priv = true ∧ z.sepc = epc ∧
    z.scause = causeWord t.cls t.sub t.fpos t.late w.inh false false ∧
    z.epc = w.epc ∧ z.cause = w.cause ∧ z.handler = m ∧ z.seq = w.seq + 1 ∧
    z.sup = ⟨w.mkFrame m, t.cls, w.handler, none⟩ :: w.sup ∧
    z.parts = w.parts.map (fun p => if (p.mask &&& m) ≠ 0 then
      { p with pc := r.trapbase (r.ctxOf w) + BitVec.ofNat 64 (t.cls * 0x100), park := .run } else p) ∧
    (∃ bs, bs.length = 512 ∧ u.faultq = r.faultq ++ [.trap bs] ∧
      bs.take 16 = leBytes z.scause.toNat 4 ++ leBytes t.mask.toNat 4 ++ leBytes epc.toNat 8 ∧
      (w.inh = false → ∀ i, i < 512 → memGet (u.core (coreOf wid)).side (slotOf wid * 512 + i) = bs.getD i 0)) ∧
    (w.inh = true → (u.core (coreOf wid)).side = (r.core (coreOf wid)).side) ∧
    u.mem = r.mem ∧ (∀ n, n ≠ wid → u.wave n = r.wave n) ∧
    { z with sup := w.sup, sepc := w.sepc, scause := w.scause, handler := w.handler, seq := w.seq, parts := w.parts } = w

/-- A delegated entry (R191, R193): the user vector of the class, %EPC and %CAUSE with DELEG and INH set, the frame, the side buffer entry
whose cause word has INH clear; nothing goes to the Inn. Double faults (R192): a fault in supervisor state other than SYSC, a delegated
vector at or beyond the code's end, or a failed write to the side buffer (log entry 90), enters class 0xF with the class as sub-cause; in the double-fault handler any trap freezes the tenant
and enters no handler. -/
def Obligations.UserTrapEntries : Prop :=
  (
  ∀ (r : Run) (wid : Nat) (m : Lanes) (pc : Word64) (word : BitVec 96) (t : Trap) (w : Wave),
    r.waves.get? wid = some w → w.inDouble = false → r.delegates w t.cls = true →
    w.userVec t.cls < (r.launchOf w).info.size → r.sideFails wid = false → t.fpos < 8 →
    let u := takeTrap r wid m pc word t
    let z := u.wave wid
    w.priv = false ∧ w.inh = false ∧
    z.epc = (if t.next then pc + 12 else pc) ∧ z.cause = causeWord t.cls t.sub t.fpos t.late false true true ∧
    z.inh = true ∧ z.sepc = w.sepc ∧ z.scause = w.scause ∧ z.priv = false ∧
    z.frame = some (w.mkFrame m) ∧ z.handler = m ∧ z.seq = w.seq + 1 ∧
    z.parts = w.parts.map (fun p => if (p.mask &&& m) ≠ 0 then
      { p with pc := (r.launchOf w).info.base + BitVec.ofNat 64 (w.userVec t.cls), park := .run } else p) ∧
    u.faultq = r.faultq ∧ u.mem = r.mem ∧ (∀ n, n ≠ wid → u.wave n = r.wave n) ∧
    memRead (u.core (coreOf wid)).side (slotOf wid * 512) 4 =
      (causeWord t.cls t.sub t.fpos t.late false true false).toNat) ∧
  (
  ∀ (r : Run) (wid : Nat) (m : Lanes) (pc : Word64) (word : BitVec 96) (t : Trap) (w : Wave), r.waves.get? wid = some w →
    let u := takeTrap r wid m pc word t
    (w.inDouble = true → u = { r with inbox := .freeze (r.ctxOf w).part (r.ctxOf w).tenant 3 :: r.inbox }) ∧
    (w.inDouble = false → (w.priv = true ∧ t.cls ≠ 0 ∨ r.delegates w t.cls = true ∧ (r.launchOf w).info.size ≤ w.userVec t.cls ∨
        w.inh = false ∧ r.sideFails wid = true) →
      (u.wave wid).priv = true ∧ (u.wave wid).inDouble = true ∧
      (u.wave wid).scause = causeWord 15 t.cls t.fpos t.late w.inh false false ∧
      (u.wave wid).sepc = (if t.next then pc + 12 else pc) ∧
      (u.wave wid).parts = w.parts.map (fun p => if (p.mask &&& m) ≠ 0 then
        { p with pc := r.trapbase (r.ctxOf w) + 0xF00, park := .run } else p)))

/-- TRAP n, BRK n (R204), SYSC n (R205) take their trap with SUB n and the active lanes: TRAP and SYSC with EPC behind the instruction, BRK
with EPC at it. RTE and RTE.region (R206): outside a handler SYNC RTEOUT; from a handler, with an aligned target, %RGN and every part's
region PC come back from the frame, the group goes to %EPC, %SEPC or the saved region PC, and every part may issue again; a return from SYSC
enters a region there, one from PREEMPT whose context is at step 2 stops the wave (R493) and a wait that PREEMPT withdrew goes on (the
model's choice, log entry 67), and the last return of a wave that handled a trap of its tile stream lets the stream go on (R338). A target that is no multiple of 4 traps MEM CALIGN in the active lanes first. -/
def Obligations.TrapInstructions : Prop :=
  (
  ∀ (s : State) (h : Hd) (c : Iss), Issues s h c [] → (s.wv c).stream = false →
    let take (t : Trap) : State := { s with run := takeTrap s.run c.wid c.m c.pc (s.run.wordOf s.sys c) t }
    (∀ n : BitVec 8, exec (.trap h n) s = .next (take { cls := 2, sub := n.toNat, mask := c.act, next := true })) ∧
    (∀ n : BitVec 8, exec (.brk h n) s = .next (take { cls := 1, sub := n.toNat, mask := c.act })) ∧
    exec (.syscVersion h) s = .next (take { cls := 0, sub := 0, mask := c.act, next := true }) ∧
    exec (.syscCapacity h) s = .next (take { cls := 0, sub := 1, mask := c.act, next := true }) ∧
    exec (.syscQuota h) s = .next (take { cls := 0, sub := 2, mask := c.act, next := true }) ∧
    exec (.syscMark h) s = .next (take { cls := 0, sub := 3, mask := c.act, next := true }) ∧
    (∀ n : BitVec 8, exec (.syscUnassigned h n) s = .next (take { cls := 0, sub := n.toNat, mask := c.act, next := true }))) ∧
  (
  ∀ (s : State) (h : Hd) (region : Bool) (c : Iss), Issues s h c [] →
    let i : Instr := if region then .rteRegion h else .rte h
    let w := s.wv c
    let back (sup : List SupEntry) (inh : Bool) (fr : Frame) (sysc : Bool) (keep : Option (Park × Word64)) (home : Word64) (t : State) : Prop :=
      DeviceKept s (let run := { t.run with blocks := s.run.blocks }
                    { t with run := run }) c.wid ∧
      (∀ n, t.run.block n = if n = w.blk ∧ sup = [] ∧ inh = false ∧ (s.run.block n).strap.bind (·.delivered) = some c.wid
        then { s.run.block n with strap := none } else s.run.block n) ∧
      (t.wv c).sup = sup ∧ (t.wv c).inh = inh ∧ (t.wv c).rgn = (if sysc then fr.rgn + 1 else fr.rgn) ∧
      RegsKept w (t.wv c) c.act [] ∧
      (t.wv c).parts = w.parts.map (fun p =>
        let target := if region then fr.rpcOf p else home
        if (p.mask &&& c.m) ≠ 0 then match keep.filter (fun k => k.2 + 12 = target) with
          | some k => { p with rpc := fr.rpcOf p, pc := k.2, park := k.1 }
          | none => { p with rpc := (if sysc then target else fr.rpcOf p), pc := target, park := .run }
        else { p with rpc := fr.rpcOf p })
    (w.priv = false → w.inh = false → Traps s i c { cls := 13, sub := 4, mask := c.act }) ∧
    ((w.priv = true ∨ w.inh = true) → (∃ p ∈ w.parts, (p.mask &&& c.m) ≠ 0 ∧ (w.rteTarget region p).toNat % 4 ≠ 0) →
      ∃ tr, tr.cls = 7 ∧ tr.sub = 1 ∧ tr.mask = c.act ∧ Traps s i c tr) ∧
    ((∀ p ∈ w.parts, (p.mask &&& c.m) ≠ 0 → (w.rteTarget region p).toNat % 4 = 0) →
      (∀ f, w.priv = false → w.inh = true → w.frame = some f → Completes (exec i s) (fun t =>
        back w.sup false f false none w.epc t ∧ (t.wv c).handler = 0 ∧ (t.wv c).frame = none ∧ (t.wv c).life = w.life)) ∧
      (∀ e rest, w.sup = e :: rest → Completes (exec i s) (fun t =>
        back rest w.inh e.frame (e.cls == 0) e.keep w.sepc t ∧ (t.wv c).handler = e.handler ∧ (t.wv c).frame = w.frame ∧
        (t.wv c).life = (if e.cls = 14 ∧ (s.run.ctxOf w).step = 2 then .stopped else w.life)))))

/-! ## Global memory -/

/-- LD and LDC (R252, R254) from this device's memory, no acquire being due: every active lane's registers of D take the bytes at the
translated address, little-endian and extended to 32 bits (64 in a scalar), and are empty until they arrive; the registers but D, and every
byte of memory, keep their values. LDC's lines are ones that neither stage lets be written, or lie in a sealed range; LD under
policy .ro may read a line the core holds, so its values named here are those of lines not yet held (R250). The checks of an
access come before it performs (R247, R253): a lane whose address is not a multiple of the size traps ALIGN with exactly the lanes at fault,
before any address above 2^52 traps RANGE; no byte of memory and no register has changed by then. -/
def Obligations.LoadResult : Prop :=
  (
  ∀ (s : State) (h : Hd) (m : LdMod) (o : Ops) (c : Iss) (r : Run) (ts : List (Nat × Xlat)) (ldc : Bool),
    let n := Size.bytes m.size
    let xs := s.run.gaddrs c o m
    Issues s h c (loadUses h m o) → (s.wv c).acquirePending = false →
    globalChecks s.sys s.run c xs n true false true = .ok r ts → AllLocal ts →
    (ldc = true → ∀ e ∈ xs.zip ts, (e.2.2.ro || sealedWhole (s.run.ctx (s.run.cidOf c.wid)) e.1.2 (e.1.2 + n)) = true) →
    let len := groupLen o.d m.size
    Completes (exec (if ldc then .ldc h m o else .ld h m o) s) (fun t => AccessFrame s t c.wid ∧ t.run.mem = s.run.mem ∧
      t.run.ctxs = s.run.ctxs ∧ RegsKept (s.wv c) (t.wv c) c.act [(o.d, len)] ∧ MovedOn s t c ∧
      RestKept { s.wv c with pend := (t.wv c).pend, pendNext := (s.wv c).pendNext + 1 } (t.wv c) ∧
      (∀ x ∈ (s.wv c).refs o.d len c.act, x.mask ≠ 0 → (t.wv c).isEmpty x = true) ∧
      (ldc = true ∨ m.pol ≠ .ro ∨ (∀ e ∈ ts, (s.run.core (coreOf c.wid)).ro.get? (e.2.pa / 256) = none) →
        ∀ l x, (l, x) ∈ ts → x.pa % n = 0 →
          let v := extend m.sx n (loadWidth o.d m.size) (memRead s.run.mem x.pa n)
          (Opd.laneReg o.d = true → l < 32 → c.act.getLsbD l = true → ∀ i, i < len → (s.wv c).lane (t.wv c) o.d i l = part32 v i) ∧
          (∀ d, o.d = .s d → l = c.act.lowest → (t.wv c).sReg d.toNat = BitVec.ofNat 64 v)))) ∧
  (
  ∀ (s : State) (h : Hd) (m : LdMod) (o : Ops) (c : Iss) (i : Instr) (us : List Use),
    let n := Size.bytes m.size
    let a := s.run.gaddr c o m
    (i = .ld h m o ∨ i = .ldc h m o) ∧ us = loadUses h m o ∨
      i = .st h m o ∧ us = [⟨0, o.d, groupLen o.d m.size, false, h.fec, none⟩, ⟨1, o.a, 1, false, h.fea, none⟩, ⟨2, o.b, 1, false, h.feb, none⟩] →
    Issues s h c us → Quiet s c →
    ((∃ l, l < 32 ∧ c.act.getLsbD l = true ∧ a l % n ≠ 0) →
      ∃ tr, tr.cls = 7 ∧ tr.sub = 0x10 ∧ (∀ l, l < 32 → (tr.mask.getLsbD l = true ↔ c.act.getLsbD l = true ∧ a l % n ≠ 0)) ∧
        (∀ l x, (l, x) ∈ tr.lw → x = BitVec.ofNat 64 (a l)) ∧ Traps s i c tr) ∧
    ((∀ l, l < 32 → c.act.getLsbD l = true → a l % n = 0) → (∃ l, l < 32 ∧ c.act.getLsbD l = true ∧ 2 ^ 52 ≤ a l) →
      ∃ tr, tr.cls = 7 ∧ tr.sub = 0x11 ∧ (∀ l, l < 32 → (tr.mask.getLsbD l = true ↔ c.act.getLsbD l = true ∧ 2 ^ 52 ≤ a l)) ∧
        Traps s i c tr))

/-- ST (R253) to this device's memory: every byte of a lane's unit takes the byte of a lane that writes it, every byte outside the units
reads as before, and registers keep their values; a scalar store writes its one unit once. An ST closes the region. -/
def Obligations.StoreResult : Prop :=
  ∀ (s : State) (h : Hd) (m : LdMod) (o : Ops) (c : Iss) (r : Run) (ts : List (Nat × Xlat)),
    let n := Size.bytes m.size
    Issues s h c [⟨0, o.d, groupLen o.d m.size, false, h.fec, none⟩, ⟨1, o.a, 1, false, h.fea, none⟩, ⟨2, o.b, 1, false, h.feb, none⟩] →
    let xs := s.run.gaddrs c o m
    Quiet s c → gatedChecks s.sys s.run c { write := true, priv := (s.wv c).priv } false xs
      (globalChecks s.sys s.run c xs n false true false) = .ok r ts →
    AllLocal ts → (TokenFree s c ∨ ∀ t ∈ ts, t.2.sh = false) → (s.wv c).acks ≤ 256 →
    let us := if Ops.vecUnit o then ts else ts.take 1
    Completes (exec (.st h m o) s) (fun t => AccessFrame s t c.wid ∧ RegsKept (s.wv c) (t.wv c) c.act [] ∧
      RestKept { s.wv c with mon := (t.wv c).mon, rgn := (s.wv c).rgn + 1 } (t.wv c) ∧ ClosedOn s t c ∧
      (∀ a, (∀ e ∈ us, a < e.2.pa ∨ e.2.pa + n ≤ a) → memGet t.run.mem a = memGet s.run.mem a) ∧
      (∀ a, (∃ e ∈ us, e.2.pa ≤ a ∧ a < e.2.pa + n) → ∃ e ∈ us, e.2.pa ≤ a ∧ a < e.2.pa + n ∧
        memGet t.run.mem a = BitVec.ofNat 8 (s.run.groupVal c.wid o.d (groupLen o.d m.size) e.1 / 256 ^ (a - e.2.pa))))

/-! ## Scratchpad -/

/-- LDS (R222, R225): every active lane's registers of D take the words at the lane's places, extended to 32 bits; a post-increment or
wrapping form steps aN by K in the active lanes, within [base, base + len) of the modulo register; nothing else changes. STS (R226, R227,
R231): every byte of the words stored to takes the byte of a lane that writes it and every other byte of every scratchpad, and all of
memory, reads as before; aN is stepped as by LDS. Where no barrier word that waves or a tracker wait on is stored to, no other register and
no other wave changes. An STS closes no region (R200; R226 calls it a closer: log entry 79). -/
def Obligations.ScratchAccess : Prop :=
  (
  ∀ (s : State) (h : Hd) (m : LdsMod) (o : Ops) (c : Iss) (ps : List (Nat × List (ScrLoc × Nat))) (an : BitVec 4),
    let n := Size.bytes m.size
    let len := Size.regs m.size
    Issues s h c [⟨0, o.d, len, true, false, none⟩] → (s.wv c).acquirePending = false → o.a = .a an →
    scrAll s.run c n false (c.act.toList.map (fun l => (l, s.run.saddr c o m l))) = .ok ps →
    let base : Word × Word := match o.b with | .m k => (s.wv c).mSee k.toNat | _ => (0, 0)
    Completes (exec (.lds h m o) s) (fun t =>
      RegFrameBut s (t.butNotes s) c ((o.d, len) :: (if m.form = .disp then [] else [(o.a, 1)]))
        { s.wv c with pend := (t.wv c).pend, pendNext := (t.wv c).pendNext } ∧ MovedOn s t c ∧
      (∀ l p, (l, p) ∈ ps → Opd.laneReg o.d = true → l < 32 → c.act.getLsbD l = true → ∀ i, i < len → (∀ k, o.d ≠ .a k) →
        (s.wv c).lane (t.wv c) o.d i l = part32 (extend m.sx n 32 (scrValue s.run (coreOf c.wid) p)) i) ∧
      (m.form ≠ .disp → ∀ l, l < 32 → c.act.getLsbD l = true → (s.wv c).lane (t.wv c) o.a 0 l =
        if m.form = .wrap ∧ base.2 ≠ 0 then
          BitVec.ofInt 32 (base.1.toNat + (((s.src c o.a l).toNat : Int) + o.x.toInt - base.1.toNat) % (base.2.toNat : Int))
        else s.src c o.a l + o.x.signExtend 32))) ∧
  (
  ∀ (s : State) (h : Hd) (m : LdsMod) (o : Ops) (c : Iss) (ps : List (Nat × List (ScrLoc × Nat))) (an : BitVec 4),
    let n := Size.bytes m.size
    let len := Size.regs m.size
    let xs := c.act.toList.map (fun l => (l, s.run.saddr c o m l))
    Issues s h c [⟨2, o.b, len, false, h.feb, none⟩] → Quiet s c → o.a = .a an →
    scrAll s.run c n true xs = .ok ps → scrAlias (s.run.blockOf (s.wv c)) ps = none →
    let base : Word × Word := match o.d with | .m k => (s.wv c).mSee k.toNat | _ => (0, 0)
    Completes (exec (.sts h m o) s) (fun t => t.sys = s.sys ∧
      (m.form ≠ .disp → ∀ l, l < 32 → c.act.getLsbD l = true → (s.wv c).lane (t.wv c) o.a 0 l =
        if m.form = .wrap ∧ base.2 ≠ 0 then
          BitVec.ofInt 32 (base.1.toNat + (((s.src c o.a l).toNat : Int) + o.x.toInt - base.1.toNat) % (base.2.toNat : Int))
        else s.src c o.a l + o.x.signExtend 32) ∧
      { t.run with waves := s.run.waves, cores := s.run.cores, blocks := s.run.blocks, ctxs := s.run.ctxs, fresh := s.run.fresh,
                   recent := s.run.recent } = s.run ∧
      (∀ b a, (∀ e ∈ ps, ∀ x ∈ e.2, ∀ a0, x.1 = .blk b a0 → a < a0 ∨ a0 + x.2 ≤ a) →
        memGet (t.run.block b).scratch a = memGet (s.run.block b).scratch a) ∧
      (∀ b a, (∃ e ∈ ps, ∃ x ∈ e.2, ∃ a0, x.1 = .blk b a0 ∧ a0 ≤ a ∧ a < a0 + x.2) →
        ∃ e ∈ ps, ∃ i x a0, e.2[i]? = some x ∧ x.1 = .blk b a0 ∧ a0 ≤ a ∧ a < a0 + x.2 ∧
          memGet (t.run.block b).scratch a = BitVec.ofNat 8 (s.run.groupVal c.wid o.b len e.1 / 256 ^ (4 * i + (a - a0)))) ∧
      ((∀ e ∈ ps, ∀ x ∈ e.2, ∀ b a0, x.1 = .blk b a0 → s.run.watchedWords b a0 x.2 = []) →
        (∀ w, w ≠ c.wid → t.run.wave w = s.run.wave w) ∧ t.run.ctxs = s.run.ctxs ∧
        (∀ n, (t.run.core n).sameButCounts (s.run.core n)) ∧
        RestKept (s.wv c) (t.wv c) ∧ MovedOn s t c ∧
        RegsKept (s.wv c) (t.wv c) c.act (if m.form = .disp then [] else [(o.a, 1)]))))

/-! ## Atomics and ordering -/

/-- ATOM, RED and CAS (R282 to R286), on this device's memory and on scratchpad: the lanes' operations apply one after another in some
order, each to what the one before left, and D takes in each lane the value its operation found (a CAS that does not match writes nothing).
Every byte outside the units reads as before, and registers but D keep their values; the home slice of a unit on another die has
room in its dedup table, and remembers each operation there (R287). The combination of an operation (R283): integer sums
wrap, MIN and MAX compare by the type, INCW and DECW wrap at the operand, EXCH and the bitwise ones are plain; a CAS writes its new value
exactly where the unit holds the compare value. -/
def Obligations.AtomicResult : Prop :=
  (
  ∀ (s : State) (h : Hd) (f : AtomForm) (o : Ops) (c : Iss),
    let i : Instr := if f.cas then .cas h f.m o else if f.red then .red h f.m o else .atom h f.m o
    let n := ATy.bytes f.m.ty
    let len := atomLen o.d f.m.ty
    let ds := if f.red then [] else [(o.d, len)]
    let found (t : State) (vs : List (Nat × Nat)) : Prop := f.red = false →
      (∀ l v, (l, v) ∈ vs → Opd.laneReg o.d = true → ∀ j, j < ATy.regs f.m.ty → (s.wv c).lane (t.wv c) o.d j l = part32 v j) ∧
      (∀ v k, (c.act.lowest, v) ∈ vs → o.d = .s k → (t.wv c).sReg k.toNat = BitVec.ofNat 64 v ∧
        (f.m.ty = .b128 → (t.wv c).sReg (k.toNat + 1) = BitVec.ofNat 64 (v / 2 ^ 64)))
    let w (t : State) : Wave := { s.wv c with mon := (t.wv c).mon, rgn := (s.wv c).rgn + 1, pend := (t.wv c).pend, pendNext := (t.wv c).pendNext }
    Issues s h c [⟨0, o.d, len, true, false, none⟩, ⟨1, o.a, 1, false, h.fea, none⟩, ⟨2, o.b, 1, false, h.feb, none⟩,
      ⟨3, o.c, f.cLen o, false, h.fec, none⟩] →
    Quiet s c → (f.cas = true → f.red = false) → f.pairBad o = none → (∀ k, o.c ≠ .sp k) →
    (isAddrReg o.a = false → TokenFree s c → (s.wv c).acks ≤ 256 → ∀ r ts,
      let xs := c.act.toList.map (fun l => (l, (s.run.rdScalar c.wid o.a 0 l + BitVec.ofInt 64 (s.run.rdLane c.wid o.b 0 l).toInt).toNat))
      gatedChecks s.sys s.run c { write := true, priv := (s.wv c).priv } (!f.red) xs
        (globalChecks s.sys s.run c xs n true true (!f.red)) = .ok r ts →
      AllLocal ts → fullSlices s.sys r c.wid (actsFor o ts) = [] → (∀ t ∈ ts, f.emulated s.run c.wid t.2.pa = none) →
      let us := (if Ops.vecUnit o then ts else ts.take 1).map (fun t => (t.1, t.2.pa))
      Completes (exec i s) (fun t => AccessFrame s (t.butDedup s) c.wid ∧ RegsKept (s.wv c) (t.wv c) c.act ds ∧ RestKept (w t) (t.wv c) ∧
        ClosedOn s t c ∧
        (∀ n, { t.run.part n with dedup := (s.run.part n).dedup } = s.run.part n ∧ ∃ xs, (t.run.part n).dedup = (s.run.part n).dedup ++ xs ∧
          xs.length = (if n = s.run.partOf c.wid then (us.filter (fun u => (farSlice s.sys r c.wid u.2).isSome)).length else 0) ∧
          ∀ x ∈ xs, x.port = corePort (coreOf c.wid)) ∧
        (∀ a, (∀ e ∈ us, a < e.2 ∨ e.2 + n ≤ a) → memGet t.run.mem a = memGet s.run.mem a) ∧
        ∃ es : List (Nat × Nat), es.Perm us ∧
          let z := atomicSeq (fun l pa => f.req s.run c.wid o pa l) n s.run.mem es
          (∀ a, memGet t.run.mem a = memGet z.1 a) ∧ found t z.2)) ∧
    (isAddrReg o.a = true → TokenHeld s c → ∀ ps, let xs := c.act.toList.map (fun l => (l, (s.run.rdLane c.wid o.a 0 l).toNat))
      scrAll s.run c n true xs = .ok ps → scrAlias (s.run.blockOf (s.wv c)) ps = none →
      Completes (exec i s) (fun t => t.sys = s.sys ∧
        { t.run with waves := s.run.waves, cores := s.run.cores, blocks := s.run.blocks, ctxs := s.run.ctxs, fresh := s.run.fresh,
                     recent := s.run.recent } = s.run ∧
        (∀ b a, (∀ e ∈ ps, ∀ x ∈ e.2, ∀ a0, x.1 = .blk b a0 → a < a0 ∨ a0 + x.2 ≤ a) →
          memGet (t.run.block b).scratch a = memGet (s.run.block b).scratch a) ∧
        ((∀ e ∈ ps, ∀ x ∈ e.2, ∀ b a0, x.1 = .blk b a0 → s.run.watchedWords b a0 x.2 = []) →
          (∀ k, k ≠ c.wid → t.run.wave k = s.run.wave k) ∧ t.run.ctxs = s.run.ctxs ∧
          (∀ n, (t.run.core n).sameButCounts (s.run.core n)) ∧
          RegsKept (s.wv c) (t.wv c) c.act ds ∧ RestKept (w t) (t.wv c) ∧ ClosedOn s t c) ∧
        ∃ es r0, es.Perm ps ∧ { r0 with fresh := s.run.fresh } = s.run ∧
          t.run.blocks = (atomicBanks f o c r0 es).1.blocks ∧ found t (atomicBanks f o c r0 es).2))) ∧
  (
  (∀ (ty : ATy) (old c : Nat), ATy.isFp ty = false → old < 2 ^ (8 * ATy.bytes ty) → c < 2 ^ (8 * ATy.bytes ty) →
    let n := 8 * ATy.bytes ty
    let v (x : Nat) : Int := if ty = .s32 ∨ ty = .s64 then (BitVec.ofNat n x).toInt else x
    BitVec.ofNat n (atomOp .add ty old c) = BitVec.ofNat n old + BitVec.ofNat n c ∧
    v (atomOp .min ty old c) = min (v old) (v c) ∧ v (atomOp .max ty old c) = max (v old) (v c) ∧
    BitVec.ofNat n (atomOp .and ty old c) = BitVec.ofNat n old &&& BitVec.ofNat n c ∧
    BitVec.ofNat n (atomOp .or ty old c) = BitVec.ofNat n old ||| BitVec.ofNat n c ∧
    BitVec.ofNat n (atomOp .xor ty old c) = BitVec.ofNat n old ^^^ BitVec.ofNat n c ∧ atomOp .exch ty old c = c ∧
    (old < c → atomOp .incw ty old c = old + 1) ∧ (c ≤ old → atomOp .incw ty old c = 0) ∧
    (old ≠ 0 → old ≤ c → atomOp .decw ty old c = old - 1) ∧ (old = 0 ∨ c < old → atomOp .decw ty old c = c) ∧
    (∀ op, atomOp op ty old c < 2 ^ n)) ∧
  (∀ (a : AtomicReq) (old : Nat), a.cas = true → atomicNew a old = if old = a.opnd then some a.new else none))

/-- FENCE (R308, R302): with nothing before it left to perform it moves on and changes no register and nothing of the device; a release
waits while an access is unperformed, and at system scope a fence of any order takes the MEM trap of a lost write, whose mark it clears (R313). SEAL, UNSEAL,
CACHE and PREF (R255 to R259) on a range whose checks pass: SEAL adds the range to the context's seals unless it overlaps one (SEALOV) or 64
stand (SEALFULL), and waits for the stores into it that have passed their check; UNSEAL removes exactly the range named, or takes NOSEAL, and every core of the partition loses the read-only lines of it;
CACHE .roinv drops the lines of the range on this core and .roinvall all of them; .clean, .flush and PREF change no value. Memory and all
registers keep their values throughout. TLBI (R260, R58): outside supervisor state ILLOP PRIV; in it, once no translated access of the
partition is under way beyond the device, the combined translations that hold the address for the tenant, that belong to the tenant named, or all, are gone from this core, or
under .dev from every core of the partition, and no others, and with them the translations of accesses there that wait for a commit token
(R247). -/
def Obligations.OrderingAndCaches : Prop :=
  (
  ∀ (s : State) (h : Hd) (m : OrdMod) (c : Iss), Issues s h c [] → (s.wv c).acquirePending = false →
    (Order.isRel m.ord = true → (s.wv c).unperformed = true →
      exec (.fence h m) s = .next { s with run := s.run.onWave c.wid (fun w => w.park c.m (.retry (.release (m.scope = .sys)))) }) ∧
    ((Order.isRel m.ord = true → (s.wv c).unperformed = false) →
      (∀ sub a priv, m.scope = .sys → (s.wv c).marked = some (sub, a, priv) →
        ∃ tr, tr.cls = 7 ∧ tr.sub = sub ∧ (∀ l, l < 32 → tr.mask.getLsbD l = c.act.getLsbD l) ∧ tr.late = false ∧
          exec (.fence h m) s =
            .next { s with run := trapAt s.sys (s.run.onWave c.wid (fun w => { w with marked := none })) c tr }) ∧
      ((m.scope = .sys → (s.wv c).marked = none) →
        (Order.isAcq m.ord = true → ∀ p ∈ (s.wv c).pend, p.kind = .xlane) →
        Completes (exec (.fence h m) s) (fun t => RegFrame s t c [] ∧ MovedOn s t c)))) ∧
  (
  ∀ (s : State) (h : Hd) (o : Ops) (c : Iss) (cx : Ctx),
    let cid := s.run.cidOf c.wid
    let keeps (closer : Nat) (t : State) : Prop := t.sys = s.sys ∧
      { t.run with waves := s.run.waves, cores := s.run.cores, dies := s.run.dies, ctxs := s.run.ctxs } = s.run ∧
      (∀ n, n ≠ c.wid → t.run.wave n = s.run.wave n) ∧ (∀ n, n ≠ cid → t.run.ctx n = s.run.ctx n) ∧
      { t.run.ctx cid with seals := cx.seals } = cx ∧
      (∀ n, Core.sameButCounts { t.run.core n with tlb := (s.run.core n).tlb, ro := (s.run.core n).ro } (s.run.core n)) ∧
      RegsKept (s.wv c) (t.wv c) c.act [] ∧ RestKept { s.wv c with rgn := (s.wv c).rgn + BitVec.ofNat 64 closer } (t.wv c)
    s.run.ctxs.get? cid = some cx →
    (∀ r base len ts, Issues s h c (rangeUses h o) → rangeChecks s.sys s.run c o = .ok r (base, len, ts) →
      let overlaps : Prop := ∃ e ∈ cx.seals, e.1 < base + len ∧ base < e.1 + e.2
      ((s.wv c).sealing c.m = none → Quiet s c → ¬overlaps → cx.seals.length < 64 → Completes (exec (.seal h o) s) (fun t =>
        (t.run.ctx cid).seals = cx.seals ++ [(base, len)] ∧ (∀ n, (t.run.core n).ro = (s.run.core n).ro) ∧
        (s.run.storesInto cid base len = false → keeps 1 t) ∧
        (s.run.storesInto cid base len = true → keeps 0 t ∧ (t.wv c).parts = (s.wv c).parts.map (fun p =>
          if (p.mask &&& c.m) ≠ 0 then { p with park := .retry (.sealing base len) } else p)))) ∧
      ((s.wv c).sealing c.m = none → Quiet s c → overlaps → ∃ tr, tr.cls = 7 ∧ tr.sub = 0x18 ∧ exec (.seal h o) s = .next { s with run := trapAt s.sys r c tr }) ∧
      ((s.wv c).sealing c.m = none → Quiet s c → ¬overlaps → 64 ≤ cx.seals.length → ∃ tr, tr.cls = 7 ∧ tr.sub = 0x17 ∧
        exec (.seal h o) s = .next { s with run := trapAt s.sys r c tr }) ∧
      ((s.wv c).acquirePending = false → (base, len) ∈ cx.seals → Completes (exec (.unseal h o) s) (fun t => keeps 1 t ∧
        (∀ e, e ∈ (t.run.ctx cid).seals ↔ e ∈ cx.seals ∧ e ≠ (base, len)) ∧
        ∀ n, (s.sys.partOf (dieOf n) = cx.part → ∀ e, e ∈ (t.run.core n).ro ↔ (s.run.core n).keepsLine base len ts e) ∧
          (s.sys.partOf (dieOf n) ≠ cx.part → (t.run.core n).ro = (s.run.core n).ro))) ∧
      ((s.wv c).acquirePending = false → (base, len) ∉ cx.seals → ∃ tr, tr.cls = 7 ∧ tr.sub = 0x19 ∧ exec (.unseal h o) s = .next { s with run := trapAt s.sys r c tr }) ∧
      ((s.wv c).acquirePending = false → Completes (exec (.cacheRoinv h o) s) (fun t => keeps 0 t ∧ (t.run.ctx cid).seals = cx.seals ∧
        (∀ e, e ∈ (t.run.core (coreOf c.wid)).ro ↔ (s.run.core (coreOf c.wid)).keepsLine base len ts e) ∧
        ∀ n, n ≠ coreOf c.wid → (t.run.core n).ro = (s.run.core n).ro)) ∧
      ((s.wv c).acquirePending = false → ∀ i, i = .cacheClean h o ∨ i = .cacheFlush h o → Completes (exec i s) (fun t => keeps 0 t ∧
        (t.run.ctx cid).seals = cx.seals ∧ ∀ n, (t.run.core n).ro = (s.run.core n).ro))) ∧
    (∀ base len, Issues s h c (rangeUses h o) → (s.wv c).sealing c.m = some (base, len) → s.run.storesInto cid base len = false →
      Completes (exec (.seal h o) s) (fun t => keeps 1 t ∧ t.run.ctxs = s.run.ctxs)) ∧
    (Issues s h c [] → (s.wv c).acquirePending = false → Completes (exec (.cacheRoinvall h) s) (fun t => keeps 0 t ∧ (t.run.ctx cid).seals = cx.seals ∧ (t.run.core (coreOf c.wid)).ro = [] ∧
      ∀ n, n ≠ coreOf c.wid → (t.run.core n).ro = (s.run.core n).ro)) ∧
    (∀ m, Issues s h c [⟨1, o.a, 1, false, h.fea, none⟩, ⟨2, o.b, 1, false, h.feb, none⟩] → (s.wv c).acquirePending = false →
      Completes (exec (.pref h m o) s) (fun t => keeps 0 t ∧ (t.run.ctx cid).seals = cx.seals ∧ ∀ n, (t.run.core n).tlb = (s.run.core n).tlb))) ∧
  (
  ∀ (s : State) (h : Hd) (dev : Bool) (o : Ops) (c : Iss) (k : Fin 3), Issues s h c (if k = 2 then [] else rangeUses h o) →
    let i : Instr := if k = 0 then .tlbiVa h dev o else if k = 1 then .tlbiTenant h dev o else .tlbiAll h dev
    let cx := s.run.ctx (s.run.cidOf c.wid)
    let x := (s.ssrc c o.a).toNat
    let gone (e : TlbEntry) : Bool :=
      if k = 0 then e.tenant == cx.tenant && e.va ≤ x && x < e.va + e.size else if k = 1 then e.tenant == x else true
    let scope (n : Nat) : Bool := if dev then s.sys.partOf (dieOf n) = cx.part else n = coreOf c.wid
    let cut (n : Nat) (p : Part) : Part := if scope (coreOf n) then
      p.untranslate (fun z => gone (z.entry (s.run.ctx (s.run.block (s.run.wave n).blk).ctx).tenant)) else p
    ((s.wv c).priv = false → Traps s i c { cls := 3, sub := 4, mask := c.m }) ∧
    ((s.wv c).priv = true → s.run.farBusy cx.part = false → Completes (exec i s) (fun t =>
      t.sys = s.sys ∧ { t.run with waves := s.run.waves, cores := s.run.cores } = s.run ∧
      (∀ n, n ≠ c.wid → t.run.wave n = { s.run.wave n with parts := (s.run.wave n).parts.map (cut n) }) ∧
      RegsKept (s.wv c) (t.wv c) c.act [] ∧ RestKept (s.wv c) (t.wv c) ∧
      (t.wv c).parts = (s.wv c).parts.map (fun p => if (p.mask &&& c.m) ≠ 0 then { p with pc := p.pc + 12, park := .run } else cut c.wid p) ∧
      ∀ n, Core.sameButCounts { t.run.core n with tlb := (s.run.core n).tlb } (s.run.core n) ∧
        ∀ e, e ∈ (t.run.core n).tlb ↔ e ∈ (s.run.core n).tlb ∧ ¬(scope n = true ∧ gone e = true))))

/-- MONITOR and MWAIT (R292, R293): MONITOR of a word takes its line, its value (an open one for a word of another device) and the watch; MWAIT
returns 0 without a monitor and 1 where the word has been written since, and else waits in the wave; of another device's word it may do
either. A write seen at the home slice ends every wait of the wave with 1, the timeout those whose time has come with 2, a pending event all
with 3; a wake without any of these gives 1. Each return clears the monitor and moves the waiting groups on; no memory and no other wave
changes. -/
def Obligations.MonitorAndWait : Prop :=
  (∀ (s : State) (h : Hd) (o : Ops) (c : Iss) (r : Run) (l : Nat) (x : Xlat) (rest : List (Nat × Xlat)),
    Issues s h c (usesOf h o) → (s.wv c).acquirePending = false →
    let b := s.run.block (s.wv c).blk
    let a := (s.run.rdScalar c.wid o.a 0 c.act.lowest + BitVec.ofInt 64 (s.run.rdLane c.wid o.b 0 c.act.lowest).toInt).toNat
    let xs := c.act.toList.map (fun l => (l, a))
    issueChecks (s.wv c) { b with watch := [] } (s.run.ctx b.ctx) xs 8 true false = none →
    preTranslate s.sys s.run (coreOf c.wid) (slotOf c.wid) b.ctx { priv := (s.wv c).priv } true c.pc xs = .ok r ((l, x) :: rest) →
    Completes (exec (.monitor h o) s) (fun t => AccessFrame s t c.wid ∧ t.run.mem = s.run.mem ∧ RegsKept (s.wv c) (t.wv c) c.act [] ∧
      RestKept { s.wv c with mon := (t.wv c).mon } (t.wv c) ∧ MovedOn s t c ∧
      ∃ snap reg, (t.wv c).mon = some ⟨a, x.pa / 256 * 256, x.pa, snap, reg, false⟩ ∧
        (isAper x.pa = false → snap = BitVec.ofNat 64 (memRead s.run.mem x.pa 8)))) ∧
  (∀ (s : State) (h : Hd) (o : Ops) (c : Iss) (d : BitVec 7), Issues s h c (usesOf h o) → o.d = .s d →
    let k : How := { uses := usesOf h o, switch := true }
    ((s.wv c).mon = none → Does s (.mwait h o) c h k (s.run.onWave c.wid (fun w => w.setS d.toNat 0))) ∧
    (∀ m, (s.wv c).mon = some m →
      (s.run.monitorHit m = true → Does s (.mwait h o) c h k (s.run.onWave c.wid (fun w => { w.setS d.toNat 1 with mon := none }))) ∧
      (isAper m.word = true → Completes (exec (.mwait h o) s) (fun t => t.sys = s.sys ∧ t.run.mem = s.run.mem)) ∧
      (isAper m.word = false → s.run.monitorHit m = false → Completes (exec (.mwait h o) s) (fun t => t.sys = s.sys ∧ t.run.mem = s.run.mem ∧
        (t.wv c).parts = (s.wv c).parts.map (fun p => if (p.mask &&& c.m) ≠ 0 then { p with
          park := .mwait (if s.run.rdCount c o.a = 0 then none else some (s.run.clk + s.run.rdCount c o.a)) d } else p))))) ∧
  (∀ (s : State) (w : Nat) (x : Wave), s.run.waves.get? w = some x → x.life = .live → (∀ p ∈ x.parts, p.mask ≠ 0) →
    x.parts.Pairwise (fun p q => p.uid ≠ q.uid ∧ p.mask &&& q.mask = 0) →
    let ends (i : Instr) (status : Word64) (pick : Option Nat → Bool) : Prop := (∃ e ∈ x.mwaits, pick e.2.1 = true) →
      Completes (exec i s) (fun t => t.sys = s.sys ∧
      { t.run with waves := s.run.waves } = s.run ∧ (∀ n, n ≠ w → t.run.wave n = s.run.wave n) ∧
      RegsKept x (t.run.wave w) 0 (x.mwaits.map (fun e => (.s e.2.2, 1))) ∧ RestKept { x with mon := none } (t.run.wave w) ∧
      (∀ e ∈ x.mwaits, pick e.2.1 = true → (t.run.wave w).sReg e.2.2.toNat = status) ∧
      (t.run.wave w).parts = x.parts.map (fun p => match p.park with
        | .mwait dl _ => if pick dl then { p with pc := p.pc + 12, park := .run } else p
        | _ => p))
    (∀ m, x.mon = some m → m.registered = true → s.run.monitorHit m = true → ends (.monitorWriteWake w) 1 (fun _ => true)) ∧
    ends (.mwaitTimeout w) 2 s.run.past ∧ (s.run.eventFor w = true → ends (.mwaitEvent w) 3 (fun _ => true)) ∧
    ends (.spuriousWake w) 1 (fun _ => true))

/-! ## Copies -/

/-- CPY, CPYG and CPYS (R266 to R268): a request of no bytes counts its object at once; another joins the end of its channel, with its
operands, its object, the declared set and the ticket in force, and nothing else happens; one that touches a control aperture takes PERM
(log entry 103); CPYQ reads the channel's depth, the free places and whether
its head is paused; CPYWT goes on once the object's count is reached. A channel at work (R263, R265, R269 to R273): COPY_START and
COPY_RESUME carry the head copy on, in whatever it meets, and leave the copies behind it as they are: byte k of the destination order goes
from where `byteAt` has its source to where it has its destination, one byte after another, and no other byte changes; COPY_COMPLETE brings a byte that
another device was asked for to its place, and takes a delivered copy out and counts its object; COPY_FAULT of a copy that has met a fault,
or whose first byte under way is refused or expires, takes it out, keeps the first fault of the channel as its block's record and sets the
object's fault bit. A count keeps the fault bit and a fault the count. -/
def Obligations.Copies : Prop :=
  (
  ∀ (s : State) (h : Hd) (o : Ops) (c : Iss),
    let core := coreOf c.wid
    let w := s.wv c
    (∀ (kind : Fin 3) (m : CpyMod) (obj : Option (Nat × Nat)),
      let i : Instr := if kind = 0 then .cpy h m o else if kind = 1 then .cpyg h m o else .cpys h m o
      let a := if kind = 0 then cpyArgs m o s.run c else cpyIdxArgs kind m o s.run c
      let k : How := { uses := if kind = 0 then copyUses h o 1 else [], closer := true, mem := true }
      let ch := m.ch.toNat
      Issues s h c (copyUses h o (if kind = 0 then 1 else 2)) → (kind ≠ 0 → pairPast false 2 o.b = none) →
      w.acquirePending = false → a.checked s.run c = .ok obj →
      let ctrl := if (w.tokenKept c.m).isSome then none else a.ctrl s.sys s.run c
      (∀ tr, ctrl = some tr → Traps s i c tr ∧ tr.cls = 7 ∧ tr.sub = 0x13 ∧ tr.mask = c.act) ∧
      (ctrl = none → w.remote = [] → a.size = 0 → Does s i c h k (match obj with | some x => s.run.objCount w.blk x | none => s.run)) ∧
      (ctrl = none → w.remote = [] → a.size ≠ 0 → (a.m.dst = true ∨ TokenFree s c) → (s.run.channel core ch).length < 6 →
        Does s i c h k (s.run.setChannel core ch (s.run.channel core ch ++
          [{ kind := kind, blk := w.blk, wave := c.wid, srcSp := m.src, dstSp := m.dst, src := BitVec.ofNat 64 a.src,
             dst := BitVec.ofNat 64 a.dst, len := a.size, elem := a.elem, list := BitVec.ofNat 64 a.list, obj := obj, pc := c.pc,
             priv := w.priv, tiles := w.activeTiles, ticket := w.activeTicket }])))) ∧
    (∀ (ch : BitVec 3) (d : BitVec 7), Issues s h c (usesOf h o) → o.d = .s d → (s.run.block w.blk).chFault.get? ch.toNat = none →
      let q := s.run.channel core ch.toNat
      let used := (s.run.core core).channels.foldl (fun n e => n + e.2.length) 0
      Completes (exec (.cpyq h ch o) s) (fun t =>
        RegFrameBut s t c [(o.d, 1)] { w with pend := (t.wv c).pend, pendNext := w.pendNext + 1 } ∧ MovedOn s t c ∧
        (t.wv c).sReg d.toNat = BitVec.ofNat 64 (q.length + 16 * (48 - used) + if q.head?.any (fun op => op.paused ≠ []) then 1024 else 0) ∧
        (t.wv c).sEmpty.getLsbD d.toNat = true)) ∧
    (∀ (ch : BitVec 3) (p : Nat × Nat), Issues s h c (barUses h o) → objPlace s.run c.wid (s.run.wordAddr c o.a) = .ok p →
      s.run.objVal w.blk p < 2 ^ 63 → (s.ssrc c o.b).toNat ≤ s.run.objVal w.blk p →
      Does s (.cpywt h ch o) c h { uses := barUses h o, switch := true } (s.run.copyRecent w.blk c.wid p))) ∧
  (
  (∀ (s : State) (core ch : Nat) (op : CopyOp) (rest : List CopyOp), s.run.channel core ch = op :: rest →
    let runs (o : CopyOp) : Prop := s.run.walkerFree core = true ∧ o.stays = false ∧ s.run.copyMoves o = true
    let goes (i : Instr) (runs : Prop) : Prop := Completes (exec i s) (fun t => t.sys = s.sys ∧ ∃ op', t.run.channel core ch = op' :: rest ∧
      { op' with started := op.started, delivered := op.delivered, flight := op.flight, idx := op.idx, paused := op.paused,
                 fault := op.fault } = op ∧
      (runs → op'.started = true) ∧ op.delivered ≤ op'.delivered ∧ op'.delivered ≤ max op.delivered op.len ∧
      (∀ k n, (k, n) ≠ (core, ch) → t.run.channel k n = s.run.channel k n) ∧
      (op.srcSp = true → op.dstSp = true → op.flight = [] → t.run.mem = s.run.mem))
    goes (.copyStart core ch) (runs op) ∧ goes (.copyResume core ch) (runs { op with paused := [] }) ∧
    (∀ x r1 r2 src dst, runs op → op.edge = 1 ∨ op.len = op.delivered + 1 →
      let op1 := { op with started := true }
      let r0 := s.run.onHead core ch (fun o => { o with started := true })
      elemIndex r0 core op1 op.delivered = .ok x →
      copyAt s.sys r0 core op1 op.srcSp false (op.byteAt x op.delivered).1 = .place r1 src →
      copyAt s.sys r1 core op1 op.dstSp true (op.byteAt x op.delivered).2 = .place r2 dst →
      placeHere s.run src → placeHere s.run dst → op1.overlaps r2 core dst (op.byteAt x op.delivered).2 = false →
      Completes (exec (.copyStart core ch) s) (fun t => byteIn t.run dst = byteIn s.run src ∧
        (∀ p, p ≠ dst → byteIn t.run p = byteIn s.run p) ∧ ∃ op', t.run.channel core ch = op' :: rest ∧ op'.delivered = op.delivered + 1)) ∧
    (∀ (b1 b2 : Nat) (f g : Nat → Nat), runs op → op.kind = 0 → op.srcSp = true → op.dstSp = true →
      (s.run.blocks.get? b2).isSome = true →
      let moved (k : Nat) : Prop := op.delivered ≤ k ∧ k < op.delivered + min op.edge (op.len - op.delivered)
      let res (a : Nat) (wr : Bool) := scrResolve s.run op.blk core (slotOf op.wave) op.priv (a % 2 ^ 32) 1 wr
      (∀ k, moved k → res (op.src.toNat + k) false = .ok (.blk b1 (f k)) ∧ res (op.dst.toNat + k) true = .ok (.blk b2 (g k)) ∧
        op.overlaps s.run core (.scr b2 (g k)) (op.dst.toNat + k) = false) →
      (∀ k j, moved k → moved j → (b1 = b2 → f k ≠ g j) ∧ (g k = g j → k = j)) →
      Completes (exec (.copyStart core ch) s) (fun t => ∀ k, moved k →
        memGet (t.run.block b2).scratch (g k) = memGet (s.run.block b1).scratch (f k))) ∧
    (op.len ≤ op.delivered → op.fault = none → exec (.copyComplete core ch []) s = .next { s with run :=
      match op.obj with | some o => (s.run.setChannel core ch rest).objCount op.blk o | none => s.run.setChannel core ch rest }) ∧
    (∀ (x : CopyByte) (pa : Nat) (v : Byte), op.flight = [x] → x.val = none → x.dst = .mem pa → op.overlaps s.run core x.dst x.da = false →
      op.delivered + 1 < op.len → Completes (exec (.copyComplete core ch [v]) s) (fun t => memGet t.run.mem pa = v ∧
        (∀ a, a ≠ pa → memGet t.run.mem a = memGet s.run.mem a) ∧
        t.run.channel core ch = { op with flight := [], delivered := op.delivered + 1 } :: rest)) ∧
    (∀ b x f, s.run.blocks.get? op.blk = some b →
      (op.flight = [] ∧ op.fault = some x ∨ ∃ z zs e, op.flight = z :: zs ∧ f = some e ∧ x = farCopyFault s.sys s.run op z e) →
      Completes (exec (.copyFault core ch f) s) (fun t => t.run.channel core ch = rest ∧ t.run.mem = s.run.mem ∧
        (t.run.block op.blk).chFault.get? ch = some ((b.chFault.get? ch).getD x) ∧
        (∀ o, op.obj = some o → o.1 + 4 ≤ o.2 ∨ o.2 + 4 ≤ o.1 →
          t.run.objVal op.blk o % 2 ^ 63 = s.run.objVal op.blk o % 2 ^ 63 ∧ 2 ^ 63 ≤ t.run.objVal op.blk o)))) ∧
  (∀ (r : Run) (b lo hi : Nat), (r.blocks.get? b).isSome = true → lo + 4 ≤ hi ∨ hi + 4 ≤ lo →
    let v := r.objVal b (lo, hi)
    (r.objCount b (lo, hi)).objVal b (lo, hi) = v / 2 ^ 63 * 2 ^ 63 + (v + 1) % 2 ^ 63))

/-! ## Barriers -/

/-- BAR, BARA and BARW (R229 to R232). An arrival that is not the last counts one more in the word, BARA giving false and BAR waiting; the
last one turns the phase over with no arrivals, releases every part that waits there and frees the word's tracker; in the default mode D is
true in the last arriver alone, in DET mode in the arriver of the largest key {%BLOCK, %WAVE}. BARW goes on where the phase is not its
operand's. NBAR and NBARW (R343 to R346): a barrier the launch has not, and a bad count, trap; an arrival counts one more, the last one
turns the phase and releases the waves of the block that wait for it; NBARW goes on where the phase is not its operand's. No other numbered
barrier changes. -/
def Obligations.Barriers : Prop :=
  (
  ∀ (s : State) (h : Hd) (o : Ops) (c : Iss) (loc : BarLoc) (bara : Bool),
    let i : Instr := if bara then .bara h o else .bar h o
    let k : How := { uses := barUses h o, whole := some 1, closer := true, switch := true }
    let x := s.run.barWord loc
    let arr := x / 2 ^ 16 % 2 ^ 15
    let exp := x % 2 ^ 16
    let ph : Bool := x / 2 ^ 31 = 1
    let d : BitVec 4 := match o.d with | .p n => n | _ => 15
    let ts := (s.run.core (loc.blk / 4)).trackers
    let dIs (t : State) (n : Nat) (d : BitVec 4) (m : Lanes) (z : Bool) : Prop :=
      d ≠ 15 → ∀ l, l < 32 → m.getLsbD l = true → ((t.run.wave n).pReg d.toNat).getLsbD l = z
    Issues s h c (barUses h o) → Whole s c → barPlace s.run c.wid (s.run.wordAddr c o.a) = .ok loc →
    (Quiet s c → (exp = 0 ∨ 32768 < exp ∨ exp ≤ arr) → ∃ tr, tr.cls = 13 ∧ tr.sub = 5 ∧ Traps s i c tr) ∧
    (Quiet s c → exp ≤ 32768 → arr < exp → (∀ t ∈ ts, t.loc ≠ loc) → 64 ≤ ts.length → ∃ tr, tr.cls = 13 ∧ tr.sub = 6 ∧ Traps s i c tr) ∧
    (Quiet s c → exp ≤ 32768 → arr < exp → ((∃ t ∈ ts, t.loc = loc) ∨ ts.length < 64) →
      (arr + 1 < exp → Completes (exec i s) (fun t => t.sys = s.sys ∧ t.run.mem = s.run.mem ∧ t.run.barWord loc = x + 2 ^ 16 ∧
        (∀ n, n ≠ c.wid → t.run.wave n = s.run.wave n) ∧ (∃ e ∈ (t.run.core (loc.blk / 4)).trackers, e.loc = loc) ∧
        (bara = true → dIs t c.wid d c.act false ∧ ∀ p ∈ (s.wv c).parts, (p.mask &&& c.m) ≠ 0 →
          { p with pc := p.pc + 12, rpc := p.pc + 12, park := .run } ∈ (t.wv c).parts) ∧
        (bara = false → (t.wv c).parts = (s.wv c).parts.map (fun p =>
          if (p.mask &&& c.m) ≠ 0 then { p with park := .bar loc ph d c.act } else p)))) ∧
      (arr + 1 = exp → Completes (exec i s) (fun t => t.sys = s.sys ∧ t.run.mem = s.run.mem ∧
        t.run.barWord loc = exp + (if ph then 0 else 2 ^ 31) ∧ (∀ e ∈ (t.run.core (loc.blk / 4)).trackers, e.loc ≠ loc) ∧
        (s.run.det (s.wv c) = false → dIs t c.wid d c.act true) ∧
        (s.run.det (s.wv c) = true → (∀ e ∈ ts, e.loc = loc → e.key ≤ s.run.barKey c.wid) → dIs t c.wid d c.act (!bara)) ∧
        ∀ n y dn an, n ≠ c.wid → s.run.waves.get? n = some y → y.parts ≠ [] →
          (∀ p ∈ y.parts, p.park = .bar loc ph dn an ∧ p.mask ≠ 0) →
          (t.run.wave n).parts = y.parts.map (fun p => { p with pc := p.pc + 12, rpc := p.pc + 12, park := .run }) ∧
          (t.run.wave n).rgn = y.rgn + 1 ∧ (s.run.det (s.wv c) = false → dIs t n dn an false)))) ∧
    (ph ≠ (s.ssrc c o.b).getLsbD 0 → Does s (.barw h o) c h { k with closer := false } (s.run.barRecent loc [c.wid]))) ∧
  (
  ∀ (s : State) (h : Hd) (o : Ops) (c : Iss) (n : BitVec 4) (b : Block), Issues s h c (barUses h o) → Whole s c →
    s.run.blocks.get? (s.wv c).blk = some b →
    let x := b.nbar n.toNat
    let k := s.run.rdCount c o.a
    let nb := (s.run.launchOf (s.wv c)).info.nb
    (nb ≤ n.toNat → ∃ tr, tr.cls = 13 ∧ tr.sub = 7 ∧ Traps s (.nbar h n o) c tr ∧ Traps s (.nbarw h n o) c tr) ∧
    (n.toNat < nb → (k = 0 ∨ 25 < k ∨ x.arr ≠ 0 ∧ k ≠ x.exp) → ∃ tr, tr.cls = 13 ∧ tr.sub = 8 ∧ Traps s (.nbar h n o) c tr) ∧
    (n.toNat < nb → Quiet s c → 0 < k → k ≤ 25 → (x.arr = 0 ∨ k = x.exp) → Completes (exec (.nbar h n o) s) (fun t =>
      t.sys = s.sys ∧ t.run.mem = s.run.mem ∧ RegsKept (s.wv c) (t.wv c) c.act [] ∧
      ((t.run.block (s.wv c).blk).nbar n.toNat = if x.arr + 1 = k then ⟨k, 0, !x.ph⟩ else ⟨k, x.arr + 1, x.ph⟩) ∧
      (∀ j, j ≠ n.toNat → (t.run.block (s.wv c).blk).nbar j = b.nbar j) ∧
      (x.arr + 1 = k → ∀ w y, w ≠ c.wid → s.run.waves.get? w = some y → y.blk = (s.wv c).blk →
        (∀ p ∈ y.parts, p.mask ≠ 0) → ∀ p ∈ (t.run.wave w).parts, p.park ≠ .retry (.nbarw n.toNat x.ph)))) ∧
    (n.toNat < nb → x.ph ≠ (s.ssrc c o.a).getLsbD 0 →
      Does s (.nbarw h n o) c h { uses := barUses h o, whole := some 1, switch := true } (s.run.waitRecent (s.wv c).blk c.wid n.toNat)))

/-! ## The pool, the accumulators, roles -/

/-- RACQ, RACQ.try and RREL (R122 to R126): a bad count takes OPND COUNT; a grant that nothing waits before and that fits gives the wave n
more registers, zero and full, out of the pool; RACQ else joins the end of the queue and waits there while the pool is not deadlocked; .try
answers with true or, leaving all as it is, with false; RREL gives the highest n back once they are full. Registers that remain keep their values. The pool serves its requests in order (R124, R127): after a settling every
request left was waiting before, those of waves are what was behind the ones served or withdrawn, and the head, if any, does not fit (a bin's
request may have moved behind the others, which is the model's choice: log entry 91). -/
def Obligations.RegisterPool : Prop :=
  (
  ∀ (s : State) (h : Hd) (o : Ops) (c : Iss) (b : Block), Issues s h c (usesOf h o) → s.run.blocks.get? (s.wv c).blk = some b →
    let w := s.wv c
    let n := s.run.rdCount c o.a
    let bad : Prop := n = 0 ∨ n % 8 ≠ 0 ∨ (s.run.launchOf w).info.extend < n ∨ 256 < w.valloc + n
    let frame (t : State) : Prop := t.sys = s.sys ∧ t.run.mem = s.run.mem ∧ (∀ k, k ≠ c.wid → t.run.wave k = s.run.wave k) ∧
      (∀ k, k ≠ w.blk → t.run.block k = s.run.block k) ∧ (t.wv c).s = w.s ∧ (t.wv c).a = w.a ∧ (t.wv c).m = w.m
    let granted (t : State) : Prop := frame t ∧ (t.wv c).valloc = w.valloc + n ∧ (t.wv c).acquired = w.acquired + n ∧
      (t.run.block w.blk).poolFree = b.poolFree - n ∧ (t.run.block w.blk).poolQueue = [] ∧
      (∀ k l, l < 32 → rowAt ((t.wv c).vRow k) l = if w.valloc ≤ k ∧ k < w.valloc + n then 0 else rowAt (w.vRow k) l) ∧
      ∀ k m, w.valloc ≤ k → k < w.valloc + n → (t.wv c).isEmpty ⟨true, k, m⟩ = false
    (bad → ∃ tr, tr.cls = 4 ∧ tr.sub = 3 ∧ tr.cw = BitVec.ofNat 64 n ∧ Traps s (.racqTry h o) c tr ∧
      (b.poolQueue = [] → Traps s (.racq h o) c tr)) ∧
    (¬bad → b.poolQueue = [] → n ≤ b.poolFree →
      Completes (exec (.racq h o) s) (fun t => granted t ∧ (t.wv c).p = w.p) ∧
      (∀ d, o.d = .p d → Completes (exec (.racqTry h o) s) (fun t => granted t ∧
        (d ≠ 15 → ∀ l, l < 32 → c.act.getLsbD l = true → ((t.wv c).pReg d.toNat).getLsbD l = true)))) ∧
    (¬bad → (b.poolQueue ≠ [] ∨ b.poolFree < n) → ∀ d, o.d = .p d → Completes (exec (.racqTry h o) s) (fun t =>
      frame t ∧ RegsKept w (t.wv c) c.act [(o.d, 1)] ∧ (t.wv c).valloc = w.valloc ∧ t.run.blocks = s.run.blocks ∧
      (d ≠ 15 → ∀ l, l < 32 → c.act.getLsbD l = true → ((t.wv c).pReg d.toNat).getLsbD l = false))) ∧
    (0 < n → n % 8 = 0 → n ≤ w.acquired → n ≤ w.valloc → b.poolQueue = [] →
      (∀ e ∈ w.vEmpty, e.1 < w.valloc - n ∨ w.valloc ≤ e.1) →
      Completes (exec (.rrel h o) s) (fun t => frame t ∧ (t.wv c).p = w.p ∧ (t.wv c).valloc = w.valloc - n ∧
        (t.wv c).acquired = w.acquired - n ∧ (t.run.block w.blk).poolFree = b.poolFree + n ∧
        ∀ k l, l < 32 → k < w.valloc - n → rowAt ((t.wv c).vRow k) l = rowAt (w.vRow k) l)) ∧
    ((n = 0 ∨ n % 8 ≠ 0 ∨ w.acquired < n) → b.poolQueue = [] →
      ∃ tr, tr.cls = 4 ∧ tr.sub = 3 ∧ tr.cw = BitVec.ofNat 64 n ∧ Traps s (.rrel h o) c tr) ∧
    (¬bad → (b.poolQueue = [] → b.poolFree < n) → (∀ q rest, b.poolQueue = q :: rest → b.poolFree < q.n ∧ q.tooMuch s.run = false) →
      (∃ e ∈ s.run.wavesOf w.blk, e.1 ≠ c.wid ∧ e.2.acquired ≠ 0 ∧ ∀ q ∈ b.poolQueue, q.wave.map (·.1) ≠ some e.1) →
      Completes (exec (.racq h o) s) (fun t => frame t ∧ RegsKept w (t.wv c) c.act [] ∧ (t.wv c).valloc = w.valloc ∧
        (t.run.block w.blk).poolFree = b.poolFree ∧
        (t.run.block w.blk).poolQueue = b.poolQueue ++ [⟨some (c.wid, c.m), c.act, 0, n⟩] ∧
        (t.wv c).parts = w.parts.map (fun p => if (p.mask &&& c.m) ≠ 0 then { p with park := .racq n } else p)))) ∧
  (
  ∀ (y : Sys) (r : Run) (n : Nat) (b : Block), r.blocks.get? n = some b →
    let u := (poolRun y r n).block n
    (∀ q ∈ u.poolQueue, q ∈ b.poolQueue) ∧
    (∃ served, b.poolQueue.filter (fun q => q.wave.isSome) = served ++ u.poolQueue.filter (fun q => q.wave.isSome)) ∧
    (∀ q rest, u.poolQueue = q :: rest → u.poolFree < q.n))

/-- CACQ, CACQ.try, CACQ.rd, CREL and CREL.wr (R389 to R392): a free token that nobody waits for passes to the wave, whose block finds every
word zero where another block held the accumulator last; .try answers false otherwise; .rd gives each active lane its word of the row, .wr
writes them, both and CREL only under the token (TILE ACCTOKEN); CREL frees a token nobody waits for. -/
def Obligations.AccumulatorAccess : Prop :=
  ∀ (s : State) (h : Hd) (o : Ops) (c : Iss) (n : BitVec 4),
    let w := s.wv c
    let core := coreOf c.wid
    let tok := s.run.accTok core n.toNat
    let free : Prop := tok.holder = .free ∧ tok.queue = []
    let frame (t : State) (ds : List (Opd × Nat)) : Prop := t.sys = s.sys ∧
      { t.run with waves := s.run.waves, cores := s.run.cores } = s.run ∧ (∀ k, k ≠ c.wid → t.run.wave k = s.run.wave k) ∧
      RegsKept w (t.wv c) c.act ds
    let given (t : State) : Prop := (t.run.accTok core n.toNat).holder = .wave c.wid ∧
      ∀ k row col, row < 64 → col < 64 → t.run.accGet core k row col =
        if k = n.toNat ∧ tok.last.isSome = true ∧ tok.last ≠ some w.blk then 0 else s.run.accGet core k row col
    let answers (t : State) (d : BitVec 4) (z : Bool) : Prop :=
      d ≠ 15 → ∀ l, l < 32 → c.act.getLsbD l = true → ((t.wv c).pReg d.toNat).getLsbD l = z
    let traps (i : Instr) : Prop := ∃ tr, tr.cls = 9 ∧ tr.sub = 3 ∧ Traps s i c tr
    (Issues s h c [] → o.a = .c n →
      (free → Completes (exec (.cacq h o) s) (fun t => frame t [] ∧ given t)) ∧
      (free → ∀ d, o.d = .p d → Completes (exec (.cacqTry h o) s) (fun t => frame t [(o.d, 1)] ∧ given t ∧ answers t d true)) ∧
      (¬free → tok.holder ≠ .wave c.wid → ∀ d, o.d = .p d → Completes (exec (.cacqTry h o) s) (fun t =>
        frame t [(o.d, 1)] ∧ t.run.accTok core n.toNat = tok ∧ answers t d false)) ∧
      (tok.holder = .wave c.wid → traps (.cacq h o) ∧ traps (.cacqTry h o) ∧
        (tok.queue = [] → Completes (exec (.crel h o) s) (fun t => frame t [] ∧ (t.run.accTok core n.toNat).holder = .free ∧
          ∀ k row col, t.run.accGet core k row col = s.run.accGet core k row col))) ∧
      (tok.holder ≠ .wave c.wid → traps (.crel h o))) ∧
    (∀ half : Bool, Issues s h c (usesOf h o) →
      let row := s.run.rdCount c o.b % 64
      let col (l : Nat) : Nat := if half then l + 32 else l
      (o.a = .c n → tok.holder ≠ .wave c.wid → traps (.cacqRd h half o)) ∧
      (o.a = .c n → tok.holder = .wave c.wid → Opd.laneReg o.d = true → Completes (exec (.cacqRd h half o) s) (fun t =>
        frame t [(o.d, 1)] ∧ (∀ x ∈ w.refs o.d 1 c.act, x.mask ≠ 0 → (t.wv c).isEmpty x = true) ∧
        ∀ l, l < 32 → c.act.getLsbD l = true → w.lane (t.wv c) o.d 0 l = s.run.accGet core n.toNat row (col l))) ∧
      (o.d = .c n → tok.holder ≠ .wave c.wid → traps (.crelWr h half o)) ∧
      (o.d = .c n → tok.holder = .wave c.wid → Completes (exec (.crelWr h half o) s) (fun t => frame t [] ∧
        (∀ l, l < 32 → c.act.getLsbD l = true → t.run.accGet core n.toNat row (col l) = s.src c o.a l) ∧
        ∀ k row' x, row' < 64 → x < 64 → (k ≠ n.toNat ∨ row' ≠ row ∨ ∀ l, l < 32 → c.act.getLsbD l = true → x ≠ col l) →
          t.run.accGet core k row' x = s.run.accGet core k row' x)))

/-- ROLESW and PHASE (R468 to R471): an unknown role, too few registers placed, and anything still held trap TASK; once drained, the wave
has the role's registers, stage and entry, enters a region there and loses its monitor; PHASE notes the first variant whose limit its
operand does not pass and goes to its entry, and traps where there is none. Registers keep their values. -/
def Obligations.RoleAndPhase : Prop :=
  ∀ (s : State) (h : Hd) (o : Ops) (c : Iss), Issues s h c (usesOf h o) → Whole s c →
    let w := s.wv c
    let l := (s.run.launchOf w).info
    let base := s.run.codeBase w
    let n := s.run.rdCount c o.a
    let x := (s.ssrc c o.a).toNat
    let traps (i : Instr) (sub k : Nat) : Prop := ∃ tr, tr.cls = 12 ∧ tr.sub = sub ∧ tr.cw = BitVec.ofNat 64 k ∧ Traps s i c tr
    (l.roles[n]? = none → traps (.rolesw h o) 1 n) ∧
    (∀ role, l.roles[n]? = some role →
      (w.placed < role.regs → traps (.rolesw h o) 2 n) ∧
      (role.regs ≤ w.placed → s.run.roleHeld c.wid = true → traps (.rolesw h o) 3 n) ∧
      (role.regs ≤ w.placed → s.run.roleHeld c.wid = false → s.run.drained c.wid = true →
        Completes (exec (.rolesw h o) s) (fun t => DeviceKept s t c.wid ∧ RegsKept w (t.wv c) c.act [] ∧
          RestKept { w with mon := none, valloc := role.regs, stage := n, rgn := w.rgn + 1 } (t.wv c) ∧
          (t.wv c).parts = w.parts.map (fun p => if (p.mask &&& c.m) ≠ 0 then
            { p with pc := base + BitVec.ofNat 64 role.entry, rpc := base + BitVec.ofNat 64 role.entry, park := .run } else p)))) ∧
    ((∀ v ∈ l.variants, v.1 < x) → traps (.phase h o) 4 x) ∧
    (∀ k v, l.variants[k]? = some v → x ≤ v.1 → (∀ j u, j < k → l.variants[j]? = some u → u.1 < x) →
      Completes (exec (.phase h o) s) (fun t => DeviceKept s t c.wid ∧ RegsKept w (t.wv c) c.act [] ∧
        RestKept { w with sched := k } (t.wv c) ∧
        (t.wv c).parts = w.parts.map (fun p => if (p.mask &&& c.m) ≠ 0 then
          { p with pc := base + BitVec.ofNat 64 v.2, park := .run } else p)))

/-! ## The tile stream -/

/-- TLOAD, TMAP, TMMA, TEW, TRED and TCVT (R371 to R380) with their handles bound, their shapes in order, a clause free and the token of any
accumulator at hand: each appends one clause, of its operation, shape, type and sources, with the format block and FP control in force and
its own PC, and binds D to it; no other handle, no memory and no register changes. -/
def Obligations.TileAppends : Prop :=
  ∀ (s : State) (h : Hd) (o : Ops) (c : Iss) (b : Block) (tn : BitVec 6),
    let bid := (s.wv c).blk
    let x (o : Opd) (i : Nat) : Word64 := s.run.rdScalar c.wid o i 0
    let whole (e : Nat × Clause) : Src × IMap := (.clause e.1, { rs := e.2.cols })
    let fits (e z : Nat × Clause) : Prop := e.2.rows ≤ z.2.rows ∧ e.2.cols ≤ z.2.cols
    let appends (i : Instr) (op : COp) (rows cols : Nat) (ty : ElemTy) (srcs : List (Src × IMap)) : Prop :=
      Completes (exec i s) (fun t => t.sys = s.sys ∧
        { t.run with waves := s.run.waves, cores := s.run.cores, blocks := s.run.blocks } = s.run ∧
        (∀ k, k ≠ bid → t.run.block k = s.run.block k) ∧ (∀ k, k ≠ c.wid → t.run.wave k = s.run.wave k) ∧
        RegsKept (s.wv c) (t.wv c) c.act [] ∧ RestKept (s.wv c) (t.wv c) ∧ MovedOn s t c ∧
        (t.run.block bid).handles = b.handles.put tn.toNat (Tbl.free b.clauses 0) ∧ b.clauses.get? (Tbl.free b.clauses 0) = none ∧
        (t.run.block bid).clauses.get? (Tbl.free b.clauses 0) = some
          { op := op, rows := rows, cols := cols, ty := ty, fmt := b.fmt, srcs := srcs, fp := s.run.captured bid, origin := c.pc
            no := b.appends + 1 } ∧
        (t.run.block bid).openDemands = b.openDemands ∧ (t.run.block bid).batches = b.batches)
    Issues s h c [] → s.run.blocks.get? bid = some b → b.clauses.length < 96 → b.spill = none → o.d = .t tn →
    (∀ m : TloadMod, pairPast true 3 o.a = none →
      appends (.tload h m o) .tload (formRows (x o.a 2)) (formCols (x o.a 2)) m.ty
        [(if m.sp then .scratch ((x o.a 0).setWidth 32) else .global (x o.a 0),
          { formMap (x o.a 2) with rs := ((x o.a 1).setWidth 32).toInt, cs := ((x o.a 1).extractLsb' 32 32).toInt })]) ∧
    (∀ a, b.root o.a = some a →
      (let f := x o.b 0
       let last := (formMap f).coord (formRows f - 1) (formCols f - 1)
       last.1 < a.2.rows → last.2 < a.2.cols →
         appends (.tmap h o) .tmap (formRows f) (formCols f) a.2.ty [(.clause a.1, formMap f)]) ∧
      (∀ (m : TmmaMod) (e : Nat × Clause), b.root o.b = some e → a.2.cols ≤ e.2.rows →
        let ty : ElemTy := if ElemTy.isByteInt a.2.ty && ElemTy.isByteInt e.2.ty then .int32 else .fp32
        (m.acc = false → appends (.tmma h m o) (.tmma false m.ol) a.2.rows e.2.cols ty [whole a, whole e]) ∧
        (∀ z, m.acc = true → b.root o.c = some z → a.2.rows ≤ z.2.rows → e.2.cols ≤ z.2.cols →
          appends (.tmma h m o) (.tmma true m.ol) a.2.rows e.2.cols ty [whole a, whole e, whole z]) ∧
        (∀ n : BitVec 4, m.acc = true → o.c = .c n → a.2.rows ≤ 64 → e.2.cols ≤ 64 →
          let tok := s.run.accTok (bid / 4) n.toNat
          (tok.holder = .stream bid ∨ tok.holder = .free ∧ tok.queue = []) →
          appends (.tmma h m o) (.tmma true m.ol) a.2.rows e.2.cols ty [whole a, whole e, (.acc n.toNat, {})])) ∧
      (∀ (m : TewMod), let scale : Word := if m.op = .scale then (x o.c 0).setWidth 32 else 0
        (tewHandles m o = [] → appends (.tew h m o) (.tew m.op m.rm scale) a.2.rows a.2.cols .fp32 [whole a]) ∧
        (∀ e, tewHandles m o = [o.b] → b.root o.b = some e → fits a e →
          appends (.tew h m o) (.tew m.op m.rm scale) a.2.rows a.2.cols .fp32 [whole a, whole e]) ∧
        (∀ e z, tewHandles m o = [o.b, o.c] → b.root o.b = some e → b.root o.c = some z → fits a e → fits a z →
          appends (.tew h m o) (.tew m.op m.rm scale) a.2.rows a.2.cols .fp32 [whole a, whole e, whole z])) ∧
      (∀ m : TredMod, appends (.tred h m o) (.tred m.max m.col) (if m.col then 1 else a.2.rows) (if m.col then a.2.cols else 1) .fp32 [whole a]) ∧
      (∀ m : TcvtMod, appends (.tcvt h m o) (.tcvt m (if m.ol then x o.b 0 else 0)) a.2.rows a.2.cols m.ty [whole a])) ∧
    (b.root o.a = none → ∀ i, (i = .tmap h o ∨ ∃ m, i = .tmma h m o ∨ ∃ n, i = .tew h n o) →
      (s.wv c).stream = true → ∃ f, exec i s = .next { s with run := s.run.onBlock bid (fun z => { z with strap := some f }) } ∧
        f.cls = 9 ∧ f.sub = 6 ∧ f.epc = c.pc ∧ f.late = false)

/-- TFMT, TBIND, TFREE, TORF and TQRY (R353, R381 to R384, R388): TFMT makes the block's format block of its fields; TBIND gives the clause
a home at the address with bits 4 to 0 zero and watches its bytes; TFREE unbinds a handle, frees an accumulator the stream holds and no
demand reaches, and does nothing to one it does not hold; TORF orders later appends and changes nothing; TQRY reads one word about a handle,
an accumulator or the block. -/
def Obligations.TileBookkeeping : Prop :=
  ∀ (s : State) (h : Hd) (o : Ops) (c : Iss) (b : Block),
    let bid := (s.wv c).blk
    let x (o : Opd) : Word64 := s.run.rdScalar c.wid o 0 0
    let kept (t : State) : Prop := t.sys = s.sys ∧
      { t.run with waves := s.run.waves, cores := s.run.cores, blocks := s.run.blocks } = s.run ∧
      (∀ k, k ≠ bid → t.run.block k = s.run.block k) ∧ MovedOn s t c ∧ RestKept (s.wv c) (t.wv c)
    Issues s h c [] → s.run.blocks.get? bid = some b →
    (∀ m : TfmtMod, Completes (exec (.tfmt h m o) s) (fun t => kept t ∧ RegsKept (s.wv c) (t.wv c) c.act [] ∧
      { t.run.block bid with fmt := b.fmt } = b ∧
      let f := (t.run.block bid).fmt
      bits f 0 4 = m.fmt.code.toNat ∧ bits f 4 8 = (x o.b).toNat % 256 ∧ f.getLsbD 12 = m.sp ∧ bits f 32 64 = (x o.a).toNat)) ∧
    (∀ (sp : Bool) (e : Nat × Clause), b.root o.d = some e → b.clauses.get? e.1 = some e.2 →
      Completes (exec (.tbind h sp o) s) (fun t => kept t ∧ RegsKept (s.wv c) (t.wv c) c.act [] ∧
        ∃ a : Word64, (∀ n, n < 64 → a.getLsbD n = (decide (5 ≤ n ∧ (sp = true → n < 32)) && (x o.a).getLsbD n)) ∧
          (t.run.block bid).clauses.get? e.1 = some { e.2 with home := some (sp, a) } ∧
          (sp = false → ∃ k, (t.run.block bid).watch.get? k = some ⟨none, a.toNat, a.toNat + homeBytes e.2, [128 + e.1]⟩))) ∧
    (∀ e, b.root o.a = some e → Completes (exec (.tfree h o) s) (fun t => kept t ∧ RegsKept (s.wv c) (t.wv c) c.act [] ∧
      (t.run.block bid).handles.get? (handleNum o.a) = none ∧
      ∀ k, k ≠ handleNum o.a → (t.run.block bid).handles.get? k = b.handles.get? k)) ∧
    (∀ n : BitVec 4, o.a = .c n →
      ((s.run.accTok (bid / 4) n.toNat).holder ≠ .stream bid → Does s (.tfreeAcc h o) c h {} s.run) ∧
      ((s.run.accTok (bid / 4) n.toNat).holder = .stream bid → (s.run.accTok (bid / 4) n.toNat).queue = [] →
        (∀ d ∈ b.demands, b.reaches n.toNat d = false) →
        Completes (exec (.tfreeAcc h o) s) (fun t => kept t ∧ t.run.block bid = b ∧
          (t.run.accTok (bid / 4) n.toNat).holder = .free))) ∧
    (∀ n : BitVec 4, (n.toNat < (s.run.launchOf (s.wv c)).info.nb →
        Does s (.torf h n) c h {} (s.run.orderRecent (s.wv c).blk n.toNat)) ∧
      ((s.run.launchOf (s.wv c)).info.nb ≤ n.toNat → ∃ tr, tr.cls = 13 ∧ tr.sub = 7 ∧ Traps s (.torf h n) c tr)) ∧
    (∀ (k : BitVec 3) (d : BitVec 7), o.d = .s d → Completes (exec (.tqry h k o) s) (fun t => RegFrame s t c [(o.d, 1)] ∧ MovedOn s t c ∧
      let z := (t.wv c).sReg d.toNat
      (k = 5 → z = BitVec.ofNat 64 ((96 - b.clauses.length) + (64 - b.handles.length) * 2 ^ 8 + b.batches.length * 2 ^ 16 +
        (32 - b.watch.length) * 2 ^ 24)) ∧
      (k = 7 → z = BitVec.ofNat 64 b.lastDone) ∧
      (k.toNat < 5 → b.root o.a = none → z = 0) ∧
      (∀ e, b.root o.a = some e →
        (k = 0 → z = BitVec.ofNat 64 (e.2.rows + e.2.cols * 2 ^ 9 + e.2.ty.code.toNat * 2 ^ 18 + (if e.2.op = .leaf then 2 ^ 22 else 0) +
          (if e.2.home.isSome then 2 ^ 23 else 0) + e.1 * 2 ^ 24 + 2 ^ 31)) ∧
        (1 ≤ k.toNat → k.toNat ≤ 3 → z = BitVec.ofNat 64 (bits e.2.fmt (32 * (k.toNat - 1)) 32)) ∧
        (k = 4 → z = e.2.origin))))

/-- TFORCE, TSTORE and TWAIT (R370, R385 to R387): with the handle bound, the region inside its shape, no foreign clause watching what is
written and the accumulators' tokens held, the demand joins the open batch; with .close that batch takes the next number, which goes to sC
and %BATCH. A region outside takes DEMRANGE. TWAIT goes on once no batch up to its count, clamped to %BATCH, is left. -/
def Obligations.TileDemands : Prop :=
  ∀ (s : State) (h : Hd) (o : Ops) (c : Iss) (b : Block),
    let bid := (s.wv c).blk
    let x (o : Opd) (i : Nat) : Word64 := s.run.rdScalar c.wid o i 0
    let g := regionWord (x o.b 0)
    Issues s h c [] → s.run.blocks.get? bid = some b →
    (∀ (i : Instr) (close : Bool) (target : Target) (e : Nat × Clause),
      ((i = .tforce h close o ∧ ((∃ n, o.d = .c n ∧ target = .acc n.toNat) ∨ (∃ n, o.d = .s n) ∧ pairPast true 2 o.d = none ∧
          target = .mem true (((x o.d 0).setWidth 32).setWidth 64) (bits (x o.d 1) 0 32) 1)) ∨
        ∃ m : TstoreMod, i = .tstore h m o ∧ close = m.close ∧ pairPast true 2 o.d = none ∧
          target = .mem m.sp (if m.sp then ((x o.d 0).setWidth 32).setWidth 64 else x o.d 0)
            ((x o.d 1).setWidth 32).toInt ((x o.d 1).extractLsb' 32 32).toInt) →
      b.root o.a = some e →
      let toAcc := match target with | .acc n => [n] | _ => []
      let inside : Prop := g.row0 + g.rows ≤ e.2.rows ∧ g.col0 + g.cols ≤ e.2.cols ∧ (toAcc ≠ [] → g.row0 + g.rows ≤ 64 ∧ g.col0 + g.cols ≤ 64)
      (¬inside → ∃ tr, tr.cls = 9 ∧ tr.sub = 5 ∧ Traps s i c tr) ∧
      (∀ met, inside →
        s.run.watchMeets bid e.1 false (s.run.writeRanges bid { root := e.1, region := g, target := target, fmt := b.fmt, self := false }) = (none, met) →
        (∀ n ∈ toAcc ++ accsOf b.clauses e.1, (s.run.accTok (bid / 4) n).holder = .stream bid) → (close = true → b.batches.length < 4) →
        let self := met || toAcc.any (accsOf b.clauses e.1).contains
        let d : Demand := { root := e.1, region := g, target := target, fmt := b.fmt, self := self }
        Completes (exec i s) (fun t => t.sys = s.sys ∧
          { t.run with waves := s.run.waves, cores := s.run.cores, blocks := s.run.blocks } = s.run ∧ MovedOn s t c ∧
          (∀ k, k ≠ bid → t.run.block k = s.run.block k) ∧
          (close = false → RegsKept (s.wv c) (t.wv c) c.act [] ∧ t.run.block bid = { b with openDemands := b.openDemands ++ [d] }) ∧
          (close = true → ∀ n, o.c = .s n → RegsKept (s.wv c) (t.wv c) c.act [(o.c, 1)] ∧
            (t.wv c).sReg n.toNat = BitVec.ofNat 64 (b.lastClosed + 1) ∧
            t.run.block bid = { b with
              openDemands := [], lastClosed := b.lastClosed + 1
              batches := b.batches ++ [⟨b.lastClosed + 1, b.openDemands ++ [d], .closed, 0⟩] })))) ∧
    (let n := min ((x o.a 0).setWidth 32).toNat b.lastClosed
     (∀ z ∈ b.batches, n < z.no) → Does s (.twait h o) c h {} s.run)

/-- The steps of a stream's batches (R328, R329, R335 to R338), where no spill comes before them: evaluation takes the first demand not
done, which gets the answer it awaits, or waits for a table walker, or makes its next access; once its values are at hand it writes them: an
accumulator takes each element of the region as a word (R386), a tile in memory each at base + (row · rs + column · cs) · size; a batch whose
demands are done is evaluated; once its writes have performed, its completion takes it from the list, numbers it done and joins its flags to
the control wave's %FPSR, and before that acknowledges one demand's writes; a fault marks it failed, and the demands not complete will be
evaluated again with their reservations and the values kept of what they overwrite; a repaired pause lets it go on; a trap of the stream goes
to the Inn where the class is not delegated, and else is taken by the control wave with no lane at fault. WHAT A CLAUSE IS (the values): TMMA
sums exact products, of two byte types modulo 2^32 (R362), else in groups of 16 by ascending k, each exact within 48 bits from the top
and rounded, joined by IEEE additions to the addend, then the corrections of .ol (R363, R364, R375); TEW acts by elements (R378); TRED is
the pairwise tree over its row or column, padded with the identity (R366, R379); TCVT converts by elements, or by blocks whose exponents are
the least that hold them (R356, R380); TMAP moves elements. -/
def Obligations.BatchSteps : Prop :=
  ∀ (s : State) (bid : Nat) (b : Block), s.run.blocks.get? bid = some b →
    let others (t : State) : Prop := t.sys = s.sys ∧ t.run.mem = s.run.mem ∧ ∀ k, k ≠ bid → t.run.block k = s.run.block k
    (∀ x rest, b.batches = x :: rest →
      (∀ pre d post, x.st = .closed → b.spill = none → (∀ f, b.strap = some f → f.late = false) → s.run.evalHalted bid x = false →
        x.demands = pre ++ d :: post → (∀ z ∈ pre, z.done = true) → d.done = false →
        let i : Instr := .batchEvaluate bid
        let put (d' : Demand) : Batch := { x with demands := pre ++ d' :: post }
        let set (r : Run) (z : Batch) : State := { s with run := r.onBlock bid (fun (u : Block) => { u with batches := z :: rest }) }
        (∀ f n, d.asked = some (f, n) → Completes (exec i s) (fun t => others t ∧ t.run.waves = s.run.waves ∧ ∃ v, v < 2 ^ (8 * n) ∧
          t.run.block bid = { b with batches := put { d with log := d.log ++ [v], asked := none, far := none } :: rest })) ∧
        (d.asked = none → s.run.walkerFree (bid / 4) = false → exec i s = .next s) ∧
        (d.asked = none → s.run.walkerFree (bid / 4) = true →
          (∀ r d', evDemand s.sys s.run bid d = .more r d' → exec i s = .next (set r (put d'))) ∧
          (∀ r d' fl, evDemand s.sys s.run bid d = .done r d' fl → exec i s = .next (set r { put d' with flags := x.flags ||| fl })) ∧
          (∀ r d' f, evDemand s.sys s.run bid d = .fault r d' f → exec i s = .next (set r { put d' with st := .faulted f })) ∧
          (∀ r d' f ps, evDemand s.sys s.run bid d = .pause r d' f ps → exec i s = .next (set r { put d' with st := .paused f ps })) ∧
          ∀ v fl n, d.kept = some (v, fl) → d.target = .acc n → d.region.row0 + d.region.rows ≤ 64 → d.region.col0 + d.region.cols ≤ 64 →
            Completes (exec i s) (fun t => others t ∧ t.run.waves = s.run.waves ∧
              (∃ z, t.run.block bid = { b with batches := z :: rest } ∧ z.st = .closed ∧ z.flags = x.flags ||| fl ∧
                ∃ d' : Demand, z.demands = pre ++ d' :: post ∧ d'.done = true ∧ d'.root = d.root) ∧
              ∀ m row col, row < 64 → col < 64 → t.run.accGet (bid / 4) m row col =
                if m = n ∧ d.region.row0 ≤ row ∧ row < d.region.row0 + d.region.rows ∧
                    d.region.col0 ≤ col ∧ col < d.region.col0 + d.region.cols
                then accWord (clauseAt b.clauses d.root).ty (v.elem row col) else s.run.accGet (bid / 4) m row col))) ∧
      (x.st = .closed → b.spill = none → (∀ f, b.strap = some f → f.late = false) → s.run.evalHalted bid x = false →
        (∀ d ∈ x.demands, d.done = true) → Completes (exec (.batchEvaluate bid) s) (fun t => others t ∧ t.run.waves = s.run.waves ∧
          t.run.block bid = { b with batches := { x with st := .evaluated } :: rest })) ∧
      (x.st = .evaluated → b.spill = none → (∀ d ∈ x.demands, d.out = []) →
        Completes (exec (.batchComplete bid) s) (fun t => others t ∧ (t.run.block bid).batches = rest ∧
          (t.run.block bid).lastDone = x.no ∧ (t.run.block bid).handles = b.handles ∧
          (∀ w, s.run.controlWave bid = some w → (t.run.wave w).fpsr = (s.run.wave w).fpsr ||| BitVec.ofNat 32 x.flags) ∧
          ∀ w, s.run.controlWave bid ≠ some w → t.run.wave w = s.run.wave w)) ∧
      (∀ pre d post, b.spill = none → x.demands = pre ++ d :: post → (∀ z ∈ pre, z.out = []) → d.out ≠ [] → (∃ z ∈ post, z.out ≠ []) →
        Completes (exec (.batchComplete bid) s) (fun t => others t ∧ t.run.waves = s.run.waves ∧
          t.run.block bid = { b with batches := { x with demands := pre ++ { d with out := [] } :: post } :: rest })) ∧
      (∀ f, x.st = .faulted f → b.spill = none → Completes (exec (.clauseFault bid none) s) (fun t => others t ∧ t.run.waves = s.run.waves ∧
        ∃ ds : List Demand, t.run.block bid = { b with batches := { x with st := .failed f, demands := ds } :: rest } ∧
          ds.length = x.demands.length ∧
          ∀ (i : Nat) (d : Demand), x.demands[i]? = some d → ∃ d' : Demand, ds[i]? = some d' ∧
            (d.done = true → d.out = [] → d' = d) ∧ (d.done = false → d'.done = false ∧ d'.log = [] ∧ d'.resv = d.reserved ∧
              d'.kept = (if d.self then d.kept else none)))) ∧
      (∀ f ps, x.st = .paused f ps → b.spill = none → (∀ z ∈ rest, ∀ g qs, z.st ≠ .paused g qs) →
        Completes (exec (.evalResume bid) s) (fun t => others t ∧ t.run.waves = s.run.waves ∧
          t.run.block bid = { b with batches := { x with st := .closed } :: rest }))) ∧
    (∀ f, b.strap = some f → f.delivered = none →
      let deleg := delegable f.cls && (s.run.ctx b.ctx).tdeleg.getLsbD f.cls
      (deleg = false → Completes (exec (.streamTrapDelivery bid) s) (fun t => others t ∧ t.run.waves = s.run.waves ∧
        (∃ bs, bs.length = 512 ∧ t.run.faultq = s.run.faultq ++ [.stream bid bs]) ∧
        t.run.block bid = { b with strap := some { f with delivered := some (streamId bid) } })) ∧
      (∀ w p, deleg = true → s.run.controlWave bid = some w → (s.run.wave w).priv = false → (s.run.wave w).inh = false →
        (s.run.wave w).life = .live →
        (if s.run.cur.wave = w then (s.run.wave w).partAt s.run.cur.lanes else none).orElse (fun _ => (s.run.wave w).nextPart) = some p →
        p.park = .run →
        Completes (exec (.streamTrapDelivery bid) s) (fun t => ∃ word tr, tr.cls = f.cls ∧ tr.sub = f.sub ∧ tr.mask = 0 ∧ tr.cw = f.cw ∧
          t.run = (takeTrap s.run w ((s.run.wave w).groupOf p) p.pc word tr).onBlock bid
            (fun z => { z with strap := some { f with delivered := some w } })))) ∧
    (∀ (c : Clause) (d : Demand) (v : TileV) (sp : Bool) (base : Word64) (rs cs : Int), d.target = .mem sp base rs cs → ElemTy.isPb c.ty = false →
      (demandWrites c d v).map (fun w => (w.row, w.col, w.sp, w.addr, w.n, w.v)) =
        (List.range d.region.rows).flatMap (fun i => (List.range d.region.cols).map (fun j =>
          let row := d.region.row0 + i
          let col := d.region.col0 + j
          (row, col, sp, ((base.toNat + (row * rs + col * cs) * ElemTy.bytes c.ty) % 2 ^ 64).toNat, ElemTy.bytes c.ty, (v.elem row col).1)))) ∧
    ∀ (e : Ev) (ci : Nat),
      let c := clauseAt e.g ci
      let x := e.box ci
      (ElemTy.isPb c.ty = true → fmtTy c.fmt = c.ty.code) →
      (∀ acc ol ka ma kb mb rest, c.op = .tmma acc ol → c.srcs = (.clause ka, ma) :: (.clause kb, mb) :: rest →
        let ta := (clauseAt e.g ka).ty
        let tb := (clauseAt e.g kb).ty
        let n := (clauseAt e.g ka).cols
        let ad (int : Bool) (i j : Nat) : Nat × Nat := e.addend (rest.head?.map (fun (z : Src × IMap) => z.1)) int i j
        (ElemTy.isByteInt ta = true → ElemTy.isByteInt tb = true → Ev.Computes s.sys e ci (fun i j =>
          let z : Int := ((List.range n).map (fun k => byteNum ta ((e.tile ka).elem i k).1 * byteNum tb ((e.tile kb).elem k j).1)).sum
          ((((z + (ad true i j).1) % 2 ^ 32).toNat, 0), (ad true i j).2))) ∧
        (¬(ElemTy.isByteInt ta = true ∧ ElemTy.isByteInt tb = true) → Ev.Computes s.sys e ci (fun i j =>
          let sum := (List.range ((n + 15) / 16)).foldl (fun acc g =>
            groupStep (((List.range n).filter (fun k => k / 16 = g)).map (fun k => mulExact (e.exact ka i k) (e.exact kb k j))) acc) (ad false i j)
          let all := (if ol then e.corrections ka kb (clauseAt e.g ka) (clauseAt e.g kb) i j else []).foldl (fun acc p =>
            ((accAdd acc.1 p).1, acc.2 ||| (accAdd acc.1 p).2)) sum
          ((all.1, 0), all.2)))) ∧
      (∀ op rm sc, c.op = .tew op rm sc →
        let k := c.ctl rm
        let src (n i j : Nat) : Nat × Nat := match c.srcs[n]? with
          | some (.clause q, _) => e.single q i j
          | _ => (0, 0)
        Ev.Computes s.sys e ci (fun i j =>
          let a := src 0 i j
          let b := src 1 i j
          let two (z : Nat × Nat) : (Nat × Nat) × Nat := ((z.1, 0), z.2 ||| a.2 ||| b.2)
          let one (z : Nat × Nat) : (Nat × Nat) × Nat := ((z.1, 0), z.2 ||| a.2)
          match op with
          | .add => two (fmt32.add k a.1 b.1)
          | .sub => two (fmt32.sub k a.1 b.1)
          | .mul => two (fmt32.mul k a.1 b.1)
          | .max => two (fmt32.minmax k true a.1 b.1)
          | .min => two (fmt32.minmax k false a.1 b.1)
          | .exp2 => one (Sfu.fp32 .exp2 k a.1)
          | .scale => one (fmt32.mul k a.1 sc.toNat)
          | .neg => ((fmt32.canon k.dn (fmt32.signs true false (fmt32.flush k.ftz a.1)), 0), 0)
          | .abs => ((fmt32.canon k.dn (fmt32.signs false true (fmt32.flush k.ftz a.1)), 0), 0)
          | .sel => ((fmt32.canon k.dn (fmt32.flush k.ftz (if (fmt32.cmp k .gt a.1 0).1 then b.1 else (src 2 i j).1)), 0), 0))) ∧
      (∀ mx col q m rest depth, c.op = .tred mx col → c.srcs = (.clause q, m) :: rest →
        let n := if col then (clauseAt e.g q).rows else (clauseAt e.g q).cols
        let k : FCtl := { rm := .rne, ftz := c.fp.getLsbD 3, dn := c.fp.getLsbD 5 }
        n ≤ 2 ^ depth → (depth = 0 ∨ 2 ^ (depth - 1) < n) →
        Ev.Computes s.sys e ci (fun i j =>
          let z := treeNode (fun a b => if mx then fmt32.minmax k true a b else fmt32.add k a b)
            (fun t => if t < n then e.single q (if col then t else i) (if col then j else t) else (if mx then 0xFF800000 else 0x80000000, 0)) depth 0
          ((z.1, 0), z.2))) ∧
      (∀ m l q z rest, c.op = .tcvt m l → c.srcs = (.clause q, z) :: rest → m.ol = false →
        (ElemTy.isPb c.ty = false → Ev.Computes s.sys e ci (fun i j =>
          let v := elemConvert c.ty (clauseAt e.g q).ty (Rnd.of m.rm c.fp) m.sat (c.fp.getLsbD (if c.ty = .fp32 then 3 else 4)) (c.fp.getLsbD 5)
            ((e.tile q).elem i j)
          ((v.1 % 2 ^ c.ty.width, 0), v.2))) ∧
        (ElemTy.isPb c.ty = true → m.fixed = false → Ev.Computes s.sys e ci (fun i j =>
          let j0 := x.c0 + (j - x.c0) / 32 * 32
          let r := pbEncode c.ty ((List.range (min 32 (x.c1 - j0))).map (fun k => e.exact q i (j0 + k))) none
          ((r.1.getD (j - j0) 0, r.2.1), (if (e.exact q i j).isSnan then fIV else 0) ||| (if r.2.2.getD (j - j0) false then fOUT else 0))))) ∧
      (∀ q m rest, c.op = .tmap → c.srcs = (.clause q, m) :: rest → Ev.Computes s.sys e ci (fun i j =>
        ((e.tile q).elem (m.roff + if m.br then 0 else if m.t then j else i) (m.coff + if m.bc then 0 else if m.t then i else j), 0))) ∧
      (∀ ps : List (Bool × Nat),
        let top := (ps.foldl (fun (a : Nat) (p : Bool × Nat) => max a p.2) 0).log2
        let w := 2 ^ (top - 47)
        let z : Int := (ps.map (fun p => if p.1 then -((p.2 / w * w : Nat) : Int) else (p.2 / w * w : Nat))).sum
        let r := fmt32.result .rne false (z < 0) false z.natAbs 0
        groupSum (ps.map (fun p => (.fin p.1 p.2 0, false))) = (r.1, r.2 ||| if ps.any (fun p => p.2 % w ≠ 0) then fNX else 0)) ∧
      ∀ ty xs, ElemTy.isPb ty = true →
        (∀ w, ∃ cs os, pbEncode ty xs (some w) = (cs, w % 2 ^ 16, os) ∧ cs.length = xs.length ∧ os.length = xs.length ∧
          ∀ (k : Nat) (v : FV), xs[k]? = some v → pbAssigned ty (w % 2 ^ 16) v (cs.getD k 0) (os.getD k false)) ∧
        ∃ e1, (if ty = .pb8 then 4 else 2) ≤ e1 ∧ e1 ≤ 254 ∧ pbEncode ty xs none = pbEncode ty xs (some (e1 - (if ty = .pb8 then 4 else 2) + 256 * e1)) ∧
          (e1 < 254 → ∀ g m p, .fin g m p ∈ xs → pbFits ty m p e1) ∧
          ∀ x', (if ty = .pb8 then 4 else 2) ≤ x' → x' < e1 → ∃ g m p, .fin g m p ∈ xs ∧ ¬pbFits ty m p x'

/-! ## Ordered transactions -/

/-- TXDECL, TXSUB, TXWAIT, TXEND and TXQRY (R399 to R416): a declaration joins the at most eight of the wave; TXSUB, with a free slot, at
most 4,096 lines, every line of this device and an entry free, makes the ticket of all of them and empties the list; TXWAIT of a granted
ticket opens its access window and gives its lines, and until the grants waits with D empty; TXEND closes it and takes the ticket from its sequencer; TXQRY tells its state. The
sequencers (R405 to R414) and the commit token (R417 to R420): a beat's end numbers every submitted ticket it leaves to merge, in one
itinerary, moves no ticket merged before, and ends none but those whose time is over while no resident wave holds them; requests go out for
merged tickets two beats old alone; a ticket times out 65,536 beats after its acceptance and its slot stays until the report; CTACQ takes a
free token and CTREL passes it on once the wave's accesses have performed, to a waiting wave if any, and both do nothing outside DET mode. -/
def Obligations.Transactions : Prop :=
  (
  ∀ (s : State) (h : Hd) (o : Ops) (c : Iss),
    let w := s.wv c
    let part := s.run.partOf c.wid
    let v := s.ssrc c o.a
    let traps (i : Instr) (sub : Nat) : Prop := ∃ tr, tr.cls = 10 ∧ tr.sub = sub ∧ Traps s i c tr
    (∀ wr, Issues s h c [⟨1, o.a, 2, false, h.fea, none⟩] → pairPast false 2 o.a = none →
      let hi := s.run.rdScalar c.wid o.a 1 c.act.lowest
      (8 ≤ w.decl.length → traps (.txdecl h wr o) 8) ∧
      (w.decl.length < 8 → v.toNat < 2 ^ 52 → v.toNat + bits hi 48 12 * bits hi 0 32 + (bits hi 32 16 + 1) ≤ 2 ^ 52 →
        Completes (exec (.txdecl h wr o) s) (fun t => DeviceKept s t c.wid ∧ RegsKept w (t.wv c) c.act [] ∧
          RestKept { w with decl := w.decl ++ [⟨v, hi, wr⟩], rgn := w.rgn + 1 } (t.wv c)))) ∧
    (∀ d : BitVec 7, Issues s h c (usesOf h o) → o.d = .s d →
      (w.slot0.isSome = true → w.slot1.isSome = true → traps (.txsub h o) 6) ∧
      (∀ r pas e, w.slot0.isSome = false ∨ w.slot1.isSome = false → (lineSet w.decl).length ≤ 4096 →
        translateTiles s.sys s.run c (lineSet w.decl) = .ok r pas → (∀ x ∈ pas, isAper x.2 = false) →
        freeEntry (s.run.part part) (dieOf (coreOf c.wid)) = some e →
        Completes (exec (.txsub h o) s) (fun t => t.run.mem = s.run.mem ∧ RegsKept w (t.wv c) c.act [(o.d, 1)] ∧
          (∀ n, n ≠ c.wid → t.run.wave n = s.run.wave n) ∧ (t.wv c).decl = [] ∧ (t.wv c).active = w.active ∧
          ∃ tk k, (t.wv c).slot w.slot0.isSome = some tk ∧ (t.wv c).slot (!w.slot0.isSome) = w.slot (!w.slot0.isSome) ∧
            tk.die = dieOf (coreOf c.wid) ∧ tk.entry = e ∧ tk.tiles = w.decl ∧ tk.lines = (lineSet w.decl).length ∧ tk.pc = c.pc ∧
            tk.dead = false ∧ (t.wv c).sReg d.toNat = ticketValue (if w.slot0.isSome then 1 else 0) tk ∧
            tk.is k = true ∧ k.wave = c.wid ∧ k.merged = none ∧ k.sent = false ∧ k.beat = (s.run.part part).beat ∧
            (t.run.part part).tickets = (s.run.part part).tickets ++ [k])) ∧
      (w.findTicket v = none → traps (.txend h o) 7 ∧ (Whole s c → traps (.txwait h o) 7) ∧
        Completes (exec (.txqry h o) s) (fun t => RegFrame s t c [(o.d, 1)] ∧ MovedOn s t c ∧ (t.wv c).sReg d.toNat = 0)) ∧
      (∀ one t, w.findTicket v = some (one, t) → t.dead = false → w.active ≠ some one → w.txWaiting c.m = none →
        (∀ u, w.slot (!one) = some u → u.dead = true ∨ t.order ≤ u.order) →
        ∀ k, s.run.ticketOf c.wid t = some k → Whole s c →
          (k.granted (s.run.part part).tickets = true →
            Does s (.txwait h o) c h { uses := usesOf h o, whole := some 1, switch := true }
              (s.run.onWave c.wid (fun w => { w.setS d.toNat (BitVec.ofNat 64 t.lines) with active := some one }))) ∧
          (k.granted (s.run.part part).tickets = false →
            Completes (exec (.txwait h o) s) (fun u => u.run.mem = s.run.mem ∧ RegsKept w (u.wv c) c.act [(o.d, 1)] ∧
              (u.wv c).isEmpty ⟨false, d.toNat, 0xFFFFFFFF⟩ = true ∧ (u.wv c).parts = w.parts.map (fun p => if (p.mask &&& c.m) ≠ 0 then
                { p with park := .retry (.ticket (if one then 1 else 0) d.toNat) } else p)))) ∧
      (∀ one t, w.findTicket v = some (one, t) → t.dead = false → Quiet s c →
        Completes (exec (.txend h o) s) (fun u => u.run.mem = s.run.mem ∧ RegsKept w (u.wv c) c.act [] ∧
          (∀ n, n ≠ c.wid → u.run.wave n = s.run.wave n) ∧ (u.wv c).slot one = none ∧
          (u.wv c).slot (!one) = w.slot (!one) ∧ (u.wv c).active = (if w.active = some one then none else w.active) ∧
          ∀ k ∈ (u.run.part part).tickets, t.is k = false)) ∧
      (∀ one t, w.findTicket v = some (one, t) → Completes (exec (.txqry h o) s) (fun u =>
        RegFrame s u c [(o.d, 1)] ∧ MovedOn s u c ∧
        let k := s.run.ticketOf c.wid t
        let ts := (s.run.part part).tickets
        let state := if t.dead = true ∨ k = none then 5 else if w.window = some one then 4
          else if (k.any (fun k => k.granted ts)) = true then 3 else if (k.any (fun k => k.merged.isSome)) = true then 2 else 1
        (u.wv c).sReg d.toNat = BitVec.ofNat 64 (state + ((k.map (grantedLines ts)).getD 0) * 2 ^ 16 + t.lines * 2 ^ 32))))) ∧
  (
  (∀ (s : State) (p : Nat), p < 4 →
    let q := s.run.part p
    Completes (exec .beatEnd s) (fun t => t.sys = s.sys ∧ t.run.mem = s.run.mem ∧ t.run.waves = s.run.waves ∧
      let q' := t.run.part p
      q'.beat = q.beat + 1 ∧ q.itin ≤ q'.itin ∧ q'.tickets.length ≤ q.tickets.length ∧
      (∀ k' ∈ q'.tickets, ∃ k ∈ q.tickets, { k' with merged := k.merged, batch := k.batch, sent := k.sent } = k) ∧
      ∀ k ∈ q.tickets, (k.beat + 65536 ≤ q'.beat → ∃ n w u, s.run.waves.get? n = some w ∧ (w.slot0 = some u ∨ w.slot1 = some u) ∧ u.is k = true) →
        ∃ k' ∈ q'.tickets, { k' with merged := k.merged, batch := k.batch, sent := k.sent } = k ∧
          (k.merged.isSome = true → k'.merged = k.merged ∧ k'.batch = k.batch) ∧
          (k'.sent = true → k.sent = true ∨ k'.merged.isSome = true ∧ k'.batch + 2 ≤ q'.beat) ∧
          (k.merged = none → k.round = none → ∃ n, k'.merged = some n ∧ q.itin ≤ n ∧ n < q'.itin)) ∧
    Completes (exec .grantRequestArrival s) (fun t => t.sys = s.sys ∧ t.run.mem = s.run.mem ∧ t.run.waves = s.run.waves ∧
      let q' := t.run.part p
      q'.beat = q.beat ∧ q'.itin = q.itin ∧ q'.tickets.length = q.tickets.length ∧
      ∀ (i : Nat) (k : Ticket), q.tickets[i]? = some k → ∃ k' : Ticket, q'.tickets[i]? = some k' ∧ { k' with sent := k.sent } = k ∧
        (k.sent = true → k'.sent = true) ∧ (k'.sent = true → k.sent = true ∨ k.merged.isSome = true ∧ k.batch + 2 ≤ q.beat))) ∧
  (∀ (s : State) (wid : Nat) (w : Wave) (one : Bool) (t : TickRef) (k : Ticket), s.run.waves.get? wid = some w →
    w.slot one = some t → s.run.ticketOf wid t = some k → k.beat + 65536 ≤ (s.run.part (s.run.partOf wid)).beat →
    Completes (exec (.ticketTimeout wid (if one then 1 else 0)) s) (fun u => u.run.mem = s.run.mem ∧
      (∀ n, n ≠ wid → u.run.wave n = s.run.wave n) ∧ (∀ k ∈ (u.run.part (s.run.partOf wid)).tickets, t.is k = false) ∧
      (u.run.wave wid).slot one = some { t with dead := true } ∧ (u.run.wave wid).active = w.active ∧ (u.run.wave wid).window ≠ some one ∧
      (w.active ≠ some one → (u.run.wave wid).late = w.late) ∧
      (w.active = some one →
        ∃ l, (u.run.wave wid).late = w.late ++ [l] ∧ l.cls = 10 ∧ l.sub = 2 ∧ l.cw = ticketValue (if one then 1 else 0) t ∧ l.origin = t.pc))) ∧
  (∀ (s : State) (h : Hd) (c : Iss), Issues s h c [] → Whole s c →
    let core := coreOf c.wid
    let det := s.run.det (s.wv c)
    (det = false → Does s (.ctacq h) c h { whole := some 1 } s.run ∧ Does s (.ctrel h) c h { whole := some 1, closer := true } s.run) ∧
    (det = true → s.run.tokenHolder core ≠ some c.wid → Does s (.ctrel h) c h { whole := some 1, closer := true } s.run) ∧
    (det = true → (s.run.core core).ctok = none ∨ s.run.tokenHolder core = some c.wid →
      Completes (exec (.ctacq h) s) (fun t => t.run.mem = s.run.mem ∧ RegsKept (s.wv c) (t.wv c) c.act [] ∧ MovedOn s t c ∧
        (t.run.core core).ctok = some c.wid)) ∧
    (det = true → s.run.tokenHolder core = some c.wid → (s.wv c).unperformed = true → Completes (exec (.ctrel h) s) (fun t =>
      t.run.mem = s.run.mem ∧ RegsKept (s.wv c) (t.wv c) c.act [] ∧ (t.run.core core).ctok = some c.wid ∧ t.run.tokenHolder core = none ∧
        (t.run.core core).ctokWait = (s.run.core core).ctokWait)) ∧
    (det = true → s.run.tokenHolder core = some c.wid → (s.wv c).unperformed = false →
      Completes (exec (.ctrel h) s) (fun t => t.run.mem = s.run.mem ∧ RegsKept (s.wv c) (t.wv c) c.act [] ∧
        ((s.run.core core).ctokWait = [] → (t.run.core core).ctok = none) ∧
        ((s.run.core core).ctokWait ≠ [] → ∃ n ∈ (s.run.core core).ctokWait, (t.run.core core).ctok = some n ∧
          n ∉ (t.run.core core).ctokWait ∧
          ((∃ m ∈ (s.run.core core).ctokWait, s.run.tokKey c.wid < s.run.tokKey m) →
            s.run.tokKey c.wid < s.run.tokKey n ∧
            ∀ m ∈ (s.run.core core).ctokWait, s.run.tokKey c.wid < s.run.tokKey m → s.run.tokKey n ≤ s.run.tokKey m)))) ∧
    (det = true → ∀ x, (s.run.core core).ctok = some x → s.run.tokenHolder core ≠ some c.wid →
      Completes (exec (.ctacq h) s) (fun t => (t.run.core core).ctok = some x ∧ c.wid ∈ (t.run.core core).ctokWait ∧
        (t.wv c).parts = (s.wv c).parts.map (fun p => if (p.mask &&& c.m) ≠ 0 then { p with park := .retry (.token []) } else p)))))

/-! ## Stack pairs and current -/

/-- BALBURN, BALSHUNT, PWRWAIT and PAIR (R444 to R447): a burn of no cycles moves on, a bad level takes OPND COUNT, another holds its group
for n cycles at its level; BALSHUNT sets the midpoint within 700 to 800 mV, as the lower core sees it, unless the pair is derated; PWRWAIT
returns 1 at once below its bound; PAIR returns 0 without a partner and exchanges words with one that waits. The steps of a pair (R431 to
R449): a window's end sets the mismatch from both estimates, moves the midpoint at most 2 mV towards its target, throttles and clamps the
heavier core alone and raises its trap condition above TX or at the clamp, starts the counts anew, and has a trap that a clamp held back owed
until it is taken (log entry 6); PWR is taken at an issue boundary once until a window ends within TX, the mismatch as class word; thresholds
are held within 100 to 1,000 with TX at least TH; a derating of a pair whose current was unexplained for 4,096 windows halves them; a burn and
a bounded wait end with their time. -/
def Obligations.CurrentBalance : Prop :=
  (
  ∀ (s : State) (h : Hd) (o : Ops) (c : Iss), Issues s h c (usesOf h o) →
    let core := coreOf c.wid
    let n := s.run.rdCount c o.a
    let l := s.run.rdCount c o.b
    let q := s.run.pair (pairOf core)
    ((l = 0 ∨ 6 < l) → ∃ tr, tr.cls = 4 ∧ tr.sub = 3 ∧ tr.cw = BitVec.ofNat 64 l ∧ Traps s (.balburn h o) c tr) ∧
    (0 < l → l ≤ 6 → n = 0 → Does s (.balburn h o) c h { uses := usesOf h o } s.run) ∧
    (0 < l → l ≤ 6 → 0 < n → Completes (exec (.balburn h o) s) (fun t => t.run.mem = s.run.mem ∧ RegsKept (s.wv c) (t.wv c) c.act [] ∧
      (t.run.core core).burns = (s.run.core core).burns ++ [(s.run.clk, s.run.clk + n, l)] ∧
      (t.wv c).parts = (s.wv c).parts.map (fun p => if (p.mask &&& c.m) ≠ 0 then { p with park := .burn (s.run.clk + n) l } else p))) ∧
    (∀ d : BitVec 7, o.d = .s d →
      (Completes (exec (.balshunt h o) s) (fun t => RegsKept (s.wv c) (t.wv c) c.act [(o.d, 1)] ∧ RestKept (s.wv c) (t.wv c) ∧
        MovedOn s t c ∧ (∀ k, k ≠ c.wid → t.run.wave k = s.run.wave k) ∧ t.sys = s.sys ∧
        { t.run with waves := s.run.waves, cores := s.run.cores, pairs := s.run.pairs } = s.run ∧
        (∀ k, k ≠ pairOf core → t.run.pair k = s.run.pair k) ∧
        (q.derated = true → (t.wv c).sReg d.toNat = 0 ∧ t.run.pair (pairOf core) = q) ∧
        (q.derated = false → let v := if n < 700 then 700 else if 800 < n then 800 else n
          (t.wv c).sReg d.toNat = BitVec.ofNat 64 v ∧
          t.run.pair (pairOf core) = { q with target := if core % 2 = 0 then v else 1500 - v }))) ∧
      (Whole s c → ((s.run.pairMis core).natAbs < n → Does s (.pwrwait h o) c h { uses := usesOf h o, whole := some 1, switch := true }
          (s.run.onWave c.wid (fun w => w.setS d.toNat 1))) ∧
        (n ≤ (s.run.pairMis core).natAbs → Completes (exec (.pwrwait h o) s) (fun t => (t.wv c).parts = (s.wv c).parts.map (fun p =>
          if (p.mask &&& c.m) ≠ 0 then { p with park := .pwrwait n (if l = 0 then none else some (s.run.clk + l)) d } else p)))) ∧
      (Quiet s c →
        let x : Word := (s.ssrc c o.a).setWidth 32
        (s.run.partner c.wid = none → Completes (exec (.pair h o) s) (fun t => DeviceKept s t c.wid ∧
          RegsKept (s.wv c) (t.wv c) c.act [(o.d, 1)] ∧ (t.wv c).sReg d.toNat = 0)) ∧
        (∀ p y m z e, s.run.partner c.wid = some p → p ≠ c.wid → s.run.waves.get? p = some y → y.life = .live → y.inPair = some (m, z, e) →
          Completes (exec (.pair h o) s) (fun t => t.run.mem = s.run.mem ∧ RegsKept (s.wv c) (t.wv c) c.act [(o.d, 1)] ∧
            (t.wv c).sReg d.toNat = pairWord z ∧ (t.run.wave p).sReg e.toNat = pairWord x ∧
            (∀ k, k ≠ c.wid → k ≠ p → t.run.wave k = s.run.wave k))) ∧
        (∀ p, s.run.partner c.wid = some p → (s.run.wave p).inPair = none → Completes (exec (.pair h o) s) (fun t =>
          RegsKept (s.wv c) (t.wv c) c.act [(o.d, 1)] ∧ (t.wv c).isEmpty ⟨false, d.toNat, 0xFFFFFFFF⟩ = true ∧
          (t.wv c).parts = (s.wv c).parts.map (fun p => if (p.mask &&& c.m) ≠ 0 then { p with park := .pair x d } else p)))))) ∧
  (
  (∀ (k : Core) (t0 : Nat), k.burns = [] → k.autoLevel = 0 →
    k.estimate t0 = 380 + (700 * k.nv + 400 * k.nm + 1500 * k.nxRan) / 256) ∧
  (∀ (s : State) (p : Nat),
    let lo := pairLo p
    let hi := pairHi p
    let t1 := s.run.clk / 256 * 256
    let q := s.run.pair p
    let ran (n : Nat) : Core := (s.run.core n).runTo (s.run.die (dieOf n)).issueDuty t1
    let a := (ran lo).estimate (t1 - 256)
    let b := (ran hi).estimate (t1 - 256)
    let mis : Int := (a : Int) - b
    Completes (exec (.windowEnd p) s) (fun t => t.sys = s.sys ∧ t.run.mem = s.run.mem ∧ (t.run.pair p).mis = mis ∧
      (t.run.pair p).th = q.th ∧ (t.run.pair p).tx = q.tx ∧ (t.run.pair p).target = q.target ∧
      (let v := (t.run.pair p).vmid
       (q.vmid ≤ q.target → q.vmid ≤ v ∧ v ≤ q.target ∧ v ≤ q.vmid + 2) ∧ (q.target ≤ q.vmid → q.target ≤ v ∧ v ≤ q.vmid ∧ q.vmid ≤ v + 2)) ∧
      ((t.run.pair p).suspect = 0 ∨ (t.run.pair p).suspect = q.suspect + 1) ∧
      ∀ x, x = lo ∨ x = hi →
        let heavy : Prop := if x = lo then 0 < mis else mis < 0
        let k := t.run.core x
        (k.balctl.getLsbD 8 = true ↔ heavy ∧ (q.th < mis.natAbs ∨ 1000 ≤ mis.natAbs)) ∧
        (k.balctl.getLsbD 10 = true ↔ heavy ∧ 1000 ≤ mis.natAbs) ∧
        (k.balctl.getLsbD 9 = true ↔ (s.run.core x).balctl.getLsbD 9 = true ∨ k.balctl.getLsbD 8 = true) ∧
        (k.pwrCond = true ↔ heavy ∧ (q.tx < mis.natAbs ∨ 1000 ≤ mis.natAbs)) ∧ k.nv = 0 ∧ k.nm = 0 ∧
        ∀ n w, s.run.waves.get? n = some w → coreOf n = x →
          ((t.run.wave n).pwrTaken = true ↔ w.pwrTaken = true ∧ q.tx < mis.natAbs) ∧
          ((t.run.wave n).pwrOwed = true ↔ w.pwrOwed = true ∨ (s.run.core x).balctl.getLsbD 10 = true ∧ (s.run.core x).pwrCond = true ∧
            w.pwrTaken = false ∧ ∃ p ∈ w.parts, p.park = .run)) ∧
    (∀ v : Word64, Completes (exec (.misthWrite p v) s) (fun t =>
      let th := if bits v 0 16 < 100 then 100 else if 1000 < bits v 0 16 then 1000 else bits v 0 16
      { t.run with pairs := s.run.pairs } = s.run ∧ t.run.pair p = { q with th := th, tx := max q.tx th })) ∧
    (∀ v : Word64, Completes (exec (.mistxWrite p v) s) (fun t =>
      let tx := if bits v 0 16 < 100 then 100 else if 1000 < bits v 0 16 then 1000 else bits v 0 16
      { t.run with pairs := s.run.pairs } = s.run ∧ t.run.pair p = { q with tx := max q.th tx })) ∧
    (q.bad = false → exec (.pairDerate p) s = .next s) ∧
    (q.bad = true → Completes (exec (.pairDerate p) s) (fun t => t.run.mem = s.run.mem ∧ (t.run.pair p).derated = true ∧
      (t.run.pair p).th = max 100 (q.th / 2) ∧ (t.run.pair p).tx = max 100 (q.tx / 2) ∧
      (t.run.core lo).balctl.getLsbD 11 = true ∧ (t.run.core hi).balctl.getLsbD 11 = true))) ∧
  (∀ (s : State) (core : Nat) (v : Word64), Completes (exec (.balctlWrite core v) s) (fun t =>
    { t.run with cores := s.run.cores } = s.run ∧ (∀ k, k ≠ core → t.run.core k = s.run.core k) ∧
    let old := (s.run.core core).balctl
    let new := (t.run.core core).balctl
    { t.run.core core with balctl := old } = s.run.core core ∧
    ∀ n, n < 64 → new.getLsbD n = if n = 0 then v.getLsbD 0
      else if 1 ≤ n ∧ n ≤ 3 then (if bits v 1 3 = 0 ∨ bits v 1 3 = 7 then old.getLsbD n else v.getLsbD n)
      else if n = 9 then old.getLsbD 9 && v.getLsbD 9 else old.getLsbD n)) ∧
  (∀ (s : State) (wid : Nat) (w : Wave), s.run.waves.get? wid = some w →
    (∀ m pc, (w.pwrOwed = true ∨ (s.run.core (coreOf wid)).pwrCond = true ∧ w.pwrTaken = false) → s.run.boundary wid = some (m, pc) →
      Completes (exec (.pwrTrap wid) s) (fun t => ∃ word tr, tr.cls = 11 ∧ tr.sub = 1 ∧ tr.mask = m ∧
        tr.cw = BitVec.ofInt 64 (s.run.pairMis (coreOf wid)) ∧ tr.next = false ∧
        t.run = (takeTrap s.run wid m pc word tr).onWave wid (fun w => { w with pwrTaken := true, pwrOwed := false }))) ∧
    (∀ lane p dl l, w.partAt (laneBit lane) = some p → p.park = .burn dl l → dl ≤ s.run.clk →
      Completes (exec (.burnEnd wid lane) s) (fun t => { t.run with waves := s.run.waves } = s.run ∧
        t.run.wave wid = w.advance (w.groupOf p))) ∧
    (∀ bound dl d, w.life = .live → w.inPwrwait = some (bound, dl, d) → (∀ p ∈ w.parts, p.mask ≠ 0) →
      ((∃ n, dl = some n ∧ n ≤ s.run.clk) ∨ s.run.eventFor wid = true) →
      Completes (exec (.pwrwaitTimeout wid) s) (fun t => { t.run with waves := s.run.waves } = s.run ∧
        (t.run.wave wid).sReg d.toNat = (if ∃ n, dl = some n ∧ n ≤ s.run.clk then 2 else 3) ∧
        ∀ p ∈ (t.run.wave wid).parts, ∀ b dl' d', p.park ≠ .pwrwait b dl' d'))))

/-! ## Tasks -/

/-- DQPUSH, DQPOP and DQSTEAL (R472 to R475) with the step that answers a steal: a push joins the bottom of the core's deque, or finds it
full at 256 entries; a pop takes the launch's entry nearest the bottom, a steal the one nearest the top of the victim's deque, and both tell
whether there was one; a victim of no core of the partition answers false. -/
def Obligations.Deque : Prop :=
  (∀ (s : State) (h : Hd) (o : Ops) (c : Iss),
    let core := coreOf c.wid
    let dq := (s.run.core core).deque
    let l := (s.run.blockOf (s.wv c)).launch
    let tells (t : State) (o : Opd) (z : Bool) : Prop := ∀ d, o = .p d → d ≠ 15 → ∀ l, l < 32 → c.act.getLsbD l = true →
      ((t.wv c).pReg d.toNat).getLsbD l = z
    let frame (t : State) : Prop := t.sys = s.sys ∧ { t.run with waves := s.run.waves, cores := s.run.cores } = s.run ∧
      (∀ n, n ≠ c.wid → t.run.wave n = s.run.wave n)
    (∀ d : BitVec 4, Issues s h c (usesOf h o) → o.d = .p d → Quiet s c →
      (256 ≤ dq.length → Completes (exec (.dqpush h o) s) (fun t => frame t ∧ RegsKept (s.wv c) (t.wv c) c.act [(o.d, 1)] ∧
        (t.run.core core).deque = dq ∧ tells t o.d false)) ∧
      (dq.length < 256 → Completes (exec (.dqpush h o) s) (fun t => frame t ∧ RegsKept (s.wv c) (t.wv c) c.act [(o.d, 1)] ∧
        (t.run.core core).deque = dq ++ [(l, s.ssrc c o.a)] ∧ tells t o.d true))) ∧
    (∀ d p, Issues s h c [⟨0, o.d, 1, true, false, none⟩] → o.d = .s d → o.c = .p p →
      (∀ up down x, dq = up ++ (l, x) :: down → (∀ e ∈ down, e.1 ≠ l) → Completes (exec (.dqpop h o) s) (fun t => frame t ∧
        RegsKept (s.wv c) (t.wv c) c.act [(o.d, 1), (o.c, 1)] ∧ (t.run.core core).deque = up ++ down ∧
        (t.wv c).sReg d.toNat = x ∧ tells t o.c true)) ∧
      ((∀ e ∈ dq, e.1 ≠ l) → Completes (exec (.dqpop h o) s) (fun t => frame t ∧ RegsKept (s.wv c) (t.wv c) c.act [(o.c, 1)] ∧
        (t.run.core core).deque = dq ∧ tells t o.c false))) ∧
    (∀ d p, Issues s h c [⟨0, o.d, 1, true, false, none⟩, ⟨1, o.a, 1, false, h.fea, none⟩] → o.d = .s d → o.c = .p p →
      let v := (s.ssrc c o.a).toNat
      (1280 ≤ v ∨ s.sys.partOf (dieOf v) ≠ s.run.partOf c.wid → Completes (exec (.dqsteal h o) s) (fun t => frame t ∧
        RegsKept (s.wv c) (t.wv c) c.act [(o.c, 1)] ∧ tells t o.c false)) ∧
      (v < 1280 → s.sys.partOf (dieOf v) = s.run.partOf c.wid → Completes (exec (.dqsteal h o) s) (fun t => frame t ∧
        RegsKept (s.wv c) (t.wv c) c.act [] ∧ (t.wv c).parts = (s.wv c).parts.map (fun q =>
          if (q.mask &&& c.m) ≠ 0 then { q with park := .steal v d p c.act } else q))))) ∧
  (∀ (s : State) (core launch thief : Nat) (w : Wave) (q : Part) (d : BitVec 7) (p : BitVec 4) (act : Lanes),
    s.run.waves.get? thief = some w → w.life = .live → w.inSteal core = some (q, d, p, act) →
    let tells (t : State) (z : Bool) : Prop := p ≠ 15 → ∀ l, l < 32 → act.getLsbD l = true → ((t.run.wave thief).pReg p.toNat).getLsbD l = z
    let on (t : State) : Prop := (t.run.wave thief).parts = w.parts.map (fun x => if (x.mask &&& w.groupOf q) ≠ 0 then
      { x with pc := x.pc + 12, rpc := x.pc + 12, park := .run } else x)
    (∀ up down x, (s.run.core core).deque = up ++ (launch, x) :: down → (∀ e ∈ up, e.1 ≠ launch) →
      Completes (exec (.dequeStealRequest core launch thief) s) (fun t => t.run.mem = s.run.mem ∧ on t ∧ tells t true ∧
        (t.run.wave thief).sReg d.toNat = x ∧ (t.run.core core).deque = up ++ down)) ∧
    ((∀ e ∈ (s.run.core core).deque, e.1 ≠ launch) → Completes (exec (.dequeStealRequest core launch thief) s) (fun t =>
      t.run.mem = s.run.mem ∧ on t ∧ tells t false ∧ t.run.cores = s.run.cores)))

/-- CONT, CONTW and the bins (R476 to R483): a role the launch has not and an unaligned object trap; the lanes the quota accepts, the lowest
ones, each leave one record and the predicate tells them; CONTW of object 0 gives 0 and of this device's object the refusal bit once enough
are done; a full, aged or awaited bin with its registers becomes a wave whose lanes hold the records. -/
def Obligations.Continuations : Prop :=
  (∀ (s : State) (h : Hd) (role : BitVec 2) (o : Ops) (c : Iss),
    Issues s h c [⟨1, o.a, 16, false, h.fea, none⟩, ⟨2, o.b, 1, false, h.feb, none⟩] →
    let w := s.wv c
    let l := (s.run.launchOf w).info
    let tgt := c.pc + 12 * o.x.signExtend 64
    let entry := (tgt - s.run.codeBase w).toNat
    let obj := (s.ssrc c o.b).toNat
    let cid := s.run.cidOf c.wid
    (l.roles.length ≤ role.toNat → ∃ tr, tr.cls = 12 ∧ tr.sub = 1 ∧ Traps s (.cont h role o) c tr) ∧
    (role.toNat < l.roles.length → entry < l.size → obj % 8 ≠ 0 → ∃ tr, tr.cls = 7 ∧ tr.sub = 0x10 ∧ Traps s (.cont h role o) c tr) ∧
    (∀ cx d, (∀ k, o.a ≠ .sp k) → role.toNat < l.roles.length → entry < l.size → obj % 8 = 0 → Quiet s c → w.contKept c.m = none → o.d = .p d →
      s.run.ctxs.get? cid = some cx → c.act.count ≤ cx.quota → c.act.count ≤ (s.run.core (coreOf c.wid)).binRoom w.blk role.toNat entry →
      Completes (exec (.cont h role o) s) (fun t => t.sys = s.sys ∧
        { t.run with waves := s.run.waves, cores := s.run.cores, ctxs := s.run.ctxs } = s.run ∧
        RegsKept w (t.wv c) c.act [(o.d, 1)] ∧ (t.run.ctx cid).quota = cx.quota - c.act.count ∧
        (d ≠ 15 → ∀ l, l < 32 → c.act.getLsbD l = true → ((t.wv c).pReg d.toNat).getLsbD l = true) ∧
        ∀ n, n < 32 → c.act.getLsbD n = true → ∃ i b, (t.run.core (coreOf c.wid)).bins.get? i = some b ∧ b.blk = w.blk ∧
          b.role = role.toNat ∧ b.entry = entry ∧ ⟨(List.range 16).map (fun i => s.run.rdLane c.wid o.a i n), obj⟩ ∈ b.recs))) ∧
  (∀ (s : State) (h : Hd) (o : Ops) (c : Iss) (d : BitVec 7), Issues s h c (usesOf h o) → (s.wv c).acquirePending = false → o.d = .s d →
    let obj := (s.ssrc c o.a).toNat
    let k : How := { uses := usesOf h o, switch := true }
    let lanes := c.act.toList.map (fun l => (l, obj))
    (obj = 0 → Does s (.contw h o) c h k (s.run.onWave c.wid (fun w => w.setS d.toNat 0))) ∧
    (obj % 8 ≠ 0 → ∃ tr, tr.cls = 7 ∧ tr.sub = 0x10 ∧ Traps s (.contw h o) c tr) ∧
    (∀ r n x rest, obj ≠ 0 → obj % 8 = 0 → obj < 2 ^ 52 →
      preTranslate s.sys s.run (coreOf c.wid) (slotOf c.wid) (s.run.cidOf c.wid) { priv := (s.wv c).priv } true c.pc lanes = .ok r ((n, x) :: rest) →
      isAper x.pa = false →
      ((s.ssrc c o.b).toNat ≤ memRead s.run.mem x.pa 4 ∨ memRead s.run.mem (x.pa + 4) 4 % 2 = 1) →
      Completes (exec (.contw h o) s) (fun t => t.run.mem = s.run.mem ∧ RegsKept (s.wv c) (t.wv c) c.act [(o.d, 1)] ∧ MovedOn s t c ∧
        (t.wv c).sReg d.toNat = BitVec.ofNat 64 (memRead s.run.mem (x.pa + 4) 4 % 2)))) ∧
  (∀ (s : State) (core i : Nat) (b : Bin), (s.run.core core).bins.get? i = some b →
    (b.recs ≠ [] → b.since + 4096 ≤ s.run.clk → Completes (exec (.binAgeExpiry core i) s) (fun t =>
      { t.run with cores := s.run.cores } = s.run ∧ (t.run.core core).bins.get? i = some { b with due := true })) ∧
    (∀ slot blk, s.run.binReady b = true → b.asked = true → b.got = true → s.run.freeSlot core = some slot →
      s.run.blocks.get? b.blk = some blk → Completes (exec (.binForm core i) s) (fun t => t.run.mem = s.run.mem ∧
        (t.run.core core).bins.get? i = none ∧ (t.run.block b.blk).nextWave = blk.nextWave + 1 ∧
        let w := t.run.wave (core * 24 + slot)
        w.blk = b.blk ∧ w.index = blk.nextWave ∧ w.stage = b.role ∧ w.contWave = true ∧ w.valloc = (b.role' s.run).regs ∧
        ∀ j l, j < 16 → j < (b.role' s.run).regs → l < b.recs.length → l < 32 →
          rowAt (w.vRow j) l = ((b.recs[l]?).map (fun x => x.vals.getD j 0)).getD 0)))

/-! ## Collectives -/

/-- CLST, CLWT and CLQ and the engine's steps (R510 to R518): a descriptor that R510 does not allow traps; with a slot free, a good one
starts a collective under the next handle of its slot, or one already aborted where its generation is not the group's, another member has
aborted it or described it otherwise, or a member cannot be reached; CLQ reads the status word, CLWT also frees the slot once there is one; a
completion records OK, an abort and a timeout the status they name, a timeout only once the group's T_p (or, for a request of the engine's own,
FTO: log entry 105) has passed; and of memory none of them changes a byte outside the held pieces of RECV. -/
def Obligations.Collectives : Prop :=
  (∀ (s : State) (h : Hd) (o : Ops) (c : Iss) (d : BitVec 7), Issues s h c (usesOf h o) → o.d = .s d → Quiet s c →
    let a := (s.ssrc c o.a).toNat
    let w := s.wv c
    let p := s.run.partOf c.wid
    let q := s.run.part p
    let k : Want := { priv := w.priv }
    ∀ r l x rest, globalChecks s.sys s.run c (c.act.toList.map (fun l => (l, a))) 64 true false true = .ok r ((l, x) :: rest) →
      isAper x.pa = false →
      (readDescriptor (memBytes s.run.mem x.pa 64) = none → ∃ tr, tr.cls = 12 ∧ tr.sub = 0x20 ∧ tr.cw = BitVec.ofNat 64 a ∧
        exec (.clst h o) s = .next { s with run := trapAt s.sys r c tr }) ∧
      (∀ e g r1 ss r2 rs slot, readDescriptor (memBytes s.run.mem x.pa 64) = some e → q.groups.get? e.group = some g → e.fits g = true →
        let sz := e.sizes g.members.length g.rank
        collRanges w (s.run.block w.blk) c.act e sz.1 sz.2 = none →
        preTranslateRange s.sys r (coreOf c.wid) (slotOf c.wid) (s.run.cidOf c.wid) k c.pc c.act e.send sz.1 = .ok r1 ss →
        preTranslateRange s.sys r1 (coreOf c.wid) (slotOf c.wid) (s.run.cidOf c.wid) { k with write := true } c.pc c.act e.recv sz.2 = .ok r2 rs →
        (slot < 64 ∧ q.colls.get? slot = none ∧ ∀ i, i < slot → q.colls.get? i ≠ none) →
        let cut (i : Nat) : Prop := i < g.members.length ∧ i ≠ g.rank ∧ s.run.reachable p (g.members.getD i 0) = false
        let aborted (n : Nat × Nat × Nat × Nat × Nat) : Bool := n.1 = e.group && n.2.1 = e.gen && n.2.2.1 = g.accepted
        let unlike (n : PeerDesc) : Bool := n.group = e.group && n.gen = e.gen && n.k = g.accepted && n.fields ≠ (e.op, e.red, e.ty, e.count, e.root)
        let ends (st : Nat × Nat × Nat) : Prop := Completes (exec (.clst h o) s) (fun t => RegsKept w (t.wv c) c.act [(o.d, 1)] ∧
          (t.wv c).sReg d.toNat = BitVec.ofNat 64 (slot + 64 * (SMap.get 0 q.collUse slot + 1)) ∧
          ∃ y, (t.run.part p).colls.get? slot = some y ∧ y.status = some st)
        (∀ n, e.gen = g.gen → q.aborts.find? aborted = some n → ends (3, n.2.2.2.2 % 4, n.2.2.2.1)) ∧
        (∀ n, e.gen = g.gen → q.aborts.find? aborted = none → q.peers.find? unlike = some n → ends (3, 1, n.rank)) ∧
        (∀ i, e.gen = g.gen → q.aborts.find? aborted = none → q.peers.find? unlike = none → cut i → (∀ j, j < i → ¬cut j) → ends (1, 0, i)) ∧
        (e.gen ≠ g.gen ∨ (q.aborts.find? aborted = none ∧ q.peers.find? unlike = none ∧ ∀ i, ¬cut i) → Completes (exec (.clst h o) s) (fun t => t.run.mem = s.run.mem ∧ RegsKept w (t.wv c) c.act [(o.d, 1)] ∧
          (t.wv c).sReg d.toNat = BitVec.ofNat 64 (slot + 64 * (SMap.get 0 q.collUse slot + 1)) ∧
          ∃ y, (t.run.part p).colls.get? slot = some y ∧ y.group = e.group ∧ y.gen = e.gen ∧ y.op = e.op ∧ y.count = e.count ∧
            y.ctx = s.run.cidOf c.wid ∧ y.k = g.accepted ∧ y.status = (if e.gen = g.gen then none else some (4, 0, 0xFFFF)) ∧
            ∀ i, i ≠ slot → (t.run.part p).colls.get? i = q.colls.get? i)))) ∧
  (∀ (s : State) (h : Hd) (o : Ops) (c : Iss) (d : BitVec 7), Issues s h c (usesOf h o) → o.d = .s d →
    let v := (s.ssrc c o.a).toNat
    let p := s.run.partOf c.wid
    let named : Prop := ∃ y, (s.run.part p).colls.get? (v % 64) = some y ∧ y.use = v / 64 ∧ y.ctx = s.run.cidOf c.wid
    (¬named → ∃ tr, tr.cls = 12 ∧ tr.sub = 0x21 ∧ Traps s (.clwt h o) c tr ∧ Traps s (.clq h o) c tr) ∧
    (∀ y, (s.run.part p).colls.get? (v % 64) = some y → named →
      let z := y.status.getD (0, 0, 0xFFFF)
      let word := BitVec.ofNat 64 (z.1 + (if y.status.isSome then 256 else 0) + z.2.1 * 2 ^ 9 + z.2.2 * 2 ^ 16 + y.gen * 2 ^ 32)
      Completes (exec (.clq h o) s) (fun t => RegFrame s t c [(o.d, 1)] ∧ MovedOn s t c ∧ (t.wv c).sReg d.toNat = word) ∧
      (y.status.isSome = true → Completes (exec (.clwt h o) s) (fun t => t.run.mem = s.run.mem ∧ MovedOn s t c ∧
        RegsKept (s.wv c) (t.wv c) c.act [(o.d, 1)] ∧ (t.wv c).sReg d.toNat = word ∧ (t.run.part p).colls.get? (v % 64) = none)))) ∧
  (∀ (s : State) (p slot : Nat) (y : Coll) (g : Group), (s.run.part p).colls.get? slot = some y → y.status = none →
    (s.run.part p).groups.get? y.group = some g →
    let outside (t : State) : Prop := ∀ a, (∀ e ∈ y.recvPg, a / 8192 ≠ e.2.1 / 8192) → memGet t.run.mem a = memGet s.run.mem a
    (∀ xs : List (List Byte), y.out = [] → (∀ e ∈ y.sendPg ++ y.recvPg, isAper e.2.1 = false) → xs.length = g.members.length →
      (∀ i, i < g.members.length → i ≠ g.rank → (xs.getD i []).length = (y.desc.sizes g.members.length i).1) →
      Completes (exec (.collectiveDone p slot xs) s) (fun t =>
        outside t ∧ ∃ z, (t.run.part p).colls.get? slot = some z ∧ z.status = some (0, 0, 0xFFFF))) ∧
    (∀ rank (detail : BitVec 2), Completes (exec (.collectiveAbortReceive p slot rank detail) s) (fun t => outside t ∧
      ∃ z, (t.run.part p).colls.get? slot = some z ∧ z.status = some (3, detail.toNat, rank % 65536))) ∧
    (s.run.collLate p y = true → Completes (exec (.progressTimeout p slot) s) (fun t => outside t ∧
      ∃ z, (t.run.part p).colls.get? slot = some z ∧ z.status = some (2, 0, 0xFFFF))) ∧
    (s.run.collLate p y = false → exec (.progressTimeout p slot) s = .next s))

/-! ## Services, and the steps of a core that no instruction is -/

/-- FWCALL (R205, R539, R61): outside supervisor state an illegal instruction, PRIV, whatever its guard; in it, with s120 to s125 full, s120
and s121 are empty and the part waits for the Inn with the service and s122 to s125. The reply fills both and sets the part going: VERSION,
BBREAD of an entry of its own partition or of none
(whose second half comes in s122), PWRCAP clamped to 300 and 2400 W, GREFORM; any other service answers 1. A reply that does not come
leaves both indeterminate. What the Inn answers a verifier and the management network (R523, R541, R545, R547), ready and on a queue pair that
it reserves: one message each, of the values R541 names, of a black box entry, or of a capacity word, whose bits are the units present, and
nothing else changes; else it answers nothing. The response codes are SPDM's (log entry 8). -/
def Obligations.Services : Prop :=
  (
  (∀ (s : State) (h : Hd) (n : BitVec 8) (c : Iss), s.run.issuer h = some c →
    let w := s.wv c
    let calls : List (Instr × Nat) := [(.fwcallVersion h, 0), (.fwcallBbread h, 1), (.fwcallPwrcap h, 2), (.fwcallGreform h, 3),
      (.fwcallUnassigned h n, n.toNat)]
    ∀ e ∈ calls, (w.priv = false → Traps s e.1 c { cls := 3, sub := 4, mask := c.m }) ∧
      (w.priv = true → Issues s h c [⟨0, .s 120, 2, true, false, none⟩, ⟨1, .s 122, 4, false, false, none⟩] →
        Completes (exec e.1 s) (fun t => DeviceKept s t c.wid ∧ RegsKept w (t.wv c) c.act [] ∧
          (t.wv c).isEmpty ⟨false, 120, 0xFFFFFFFF#32⟩ = true ∧ (t.wv c).isEmpty ⟨false, 121, 0xFFFFFFFF#32⟩ = true ∧
          (t.wv c).parts = w.parts.map (fun p => if (p.mask &&& c.m) ≠ 0 then
            { p with park := .fwcall e.2 [w.sReg 122, w.sReg 123, w.sReg 124, w.sReg 125] s.run.clk } else p)))) ∧
  (∀ (s : State) (n k svc : Nat) (w : Wave) (q : Pend) (p : Part) (args : List Word64) (since : Nat), s.run.waves.get? n = some w →
    w.inFwcall = some (p, svc, args, since) → w.pend.find? (fun x => x.id = k) = some q → q.far = [] →
    (∀ x ∈ w.pend, x.id = k → x.after ≤ s.run.clk) → q.regs = [⟨false, 120, 0xFFFFFFFF#32⟩, ⟨false, 121, 0xFFFFFFFF#32⟩] →
    let cid := s.run.cidOf n
    let part := s.run.partOf n
    let a (i : Nat) : Nat := (args.getD i 0).toNat
    let r := s.run.onWave n (fun w => { w.fill q.regs with pend := w.pend.filter (fun x => x.id ≠ k) })
    let on (t : State) : Prop := t.sys = s.sys ∧ (svc ≠ 3 → t.run.mem = s.run.mem) ∧
      (t.run.wave n).isEmpty ⟨false, 120, 0xFFFFFFFF#32⟩ = false ∧ (t.run.wave n).isEmpty ⟨false, 121, 0xFFFFFFFF#32⟩ = false ∧
      (t.run.wave n).parts = w.parts.map (fun x => if (x.mask &&& w.groupOf p) ≠ 0 then { x with pc := x.pc + 12, park := .run } else x)
    let answers (P : State → Prop) : Prop := Completes (exec (.resultArrival n k 0 []) s) (fun t => on t ∧ P t)
    (svc = 0 → answers (fun t => (t.run.wave n).sReg 120 = 0 ∧ (t.run.wave n).sReg 121 = BitVec.ofNat 64 versionWord)) ∧
    (svc = 1 → ∀ e pre post, s.run.bb = pre ++ e :: post → e.seq = a 0 → (∀ x ∈ pre, x.seq ≠ a 0) →
      (e.part = none ∨ e.part = some part) → answers (fun t =>
      (t.run.wave n).sReg 120 = 0 ∧ (t.run.wave n).sReg 121 = BitVec.ofNat 64 (ofLe (e.bytes.take 8)) ∧
      (t.run.wave n).sReg 122 = BitVec.ofNat 64 (ofLe (e.bytes.drop 8)))) ∧
    (svc = 1 → (∀ x ∈ s.run.bb, x.seq = a 0 → ∃ d, x.part = some d ∧ d ≠ part) → answers (fun t => (t.run.wave n).sReg 120 = 2)) ∧
    (svc = 2 → answers (fun t => (t.run.wave n).sReg 120 = 0 ∧ (t.run.part part).cap = max 300 (min 2400 (a 0)) ∧
      (t.run.wave n).sReg 121 = BitVec.ofNat 64 (max 300 (min 2400 (a 0))))) ∧
    (svc = 3 → ∀ bs st v r', r.callBytes s.sys cid (a 1) 512 = some bs → greform r part (a 0) (bitmapMembers bs) = (st, v, r') →
      answers (fun t => (t.run.wave n).sReg 120 = BitVec.ofNat 64 st ∧ (st = 0 → (t.run.wave n).sReg 121 = BitVec.ofNat 64 v) ∧
        t.run.parts = r'.parts ∧ t.run.mem = r'.mem)) ∧
    (svc = 3 → r.callBytes s.sys cid (a 1) 512 = none → answers (fun t => (t.run.wave n).sReg 120 = 2 ∧ t.run.mem = s.run.mem)) ∧
    (4 ≤ svc → answers (fun t => (t.run.wave n).sReg 120 = 1)) ∧
    Completes (exec (.fwcallTimeout n) s) (fun t => on t ∧ t.run.mem = s.run.mem ∧ (t.run.wave n).isInd ⟨false, 120, 0xFFFFFFFF#32⟩ = true ∧
      (t.run.wave n).isInd ⟨false, 121, 0xFFFFFFFF#32⟩ = true))) ∧
  (
  ∀ (s : State) (qp nonce index : Nat) (alg : Bool),
    let reqs : List (Instr × Nat × List Nat) := [
      (.getVersion qp, 0x04, [0x13]), (.getCapabilities qp, 0x61, [0x84, 0xE1, 0xE3, 0x81, 0x82, 0x83, 0xE0]),
      (.negotiateAlgorithms qp alg, 0x63, [if alg then 1 else 0]), (.getDigests qp, 0x01, [Config.sha (Config.cert s.sys.devId s.sys.alias_)]),
      (.getCertificate qp, 0x02, [Config.cert s.sys.devId s.sys.alias_]), (.challenge qp nonce, 0x03, [Config.sign s.sys.alias_ nonce]),
      (.getMeasurements qp index, if 1 ≤ index ∧ index ≤ s.sys.measured.length then (0x60, [index, s.sys.measured.getD (index - 1) 0])
        else (0x7F, [index]))]
    let open_ : Prop := s.sys.ready = true ∧ qp ∈ s.sys.innQps
    (∀ e ∈ reqs, (open_ → exec e.1 s = .next { s with run := s.run.send (.spdm e.2.1 e.2.2) }) ∧ (¬open_ → exec e.1 s = .next s)) ∧
    (∀ q, ¬open_ → exec (.blackBoxRead qp q) s = .next s) ∧
    (∀ seq e pre post, s.run.bb = pre ++ e :: post → e.seq % 4096 = seq % 4096 → (∀ x ∈ pre, x.seq % 4096 ≠ seq % 4096) → open_ →
      exec (.blackBoxRead qp (.entry seq)) s = .next { s with run := s.run.send (.blackBox e.bytes) }) ∧
    (∀ seq, open_ → (∀ x ∈ s.run.bb, x.seq % 4096 ≠ seq % 4096) →
      exec (.blackBoxRead qp (.entry seq)) s = .next { s with run := s.run.send (.blackBox []) }) ∧
    ∀ i, open_ → ∃ v : Word64, exec (.blackBoxRead qp (.capacity i)) s = .next { s with run := s.run.send (.capacity v) } ∧ (i = 21 → v = 2400) ∧
      ∀ k, k < 64 →
        (i < 16 → i % 4 < 3 → (v.getLsbD k = true ↔ (i % 4 = 2 → k < 32) ∧ i / 4 * 160 + i % 4 * 64 + k ∉ s.run.outPairs)) ∧
        (i < 16 → i % 4 = 3 → (v.getLsbD k = true ↔ i / 4 * 64 + k ∉ s.run.outSlices)) ∧
        (16 ≤ i → i < 20 → (v.getLsbD k = true ↔ k < 36 ∧ (s.run.port ((i - 16) * 36 + k)).mapped = true)))

/-- The steps that end what a wave waits for (R47, R107, R129, R240, R245, R271, R288, R312, R313): a stall whose cycle has come; a result
that arrives fills its registers, or gives the remote lanes it is for their words; an acknowledgement, which takes a control message from its
flow's window; a timeout or refusal of some remote lanes, which leaves them indeterminate and owes a late MEM trap at their addresses, or marks
the wave for its write; a slot released when the wave has ended and awaits nothing; a fault repaired, whose part restarts at its region PC, or
declined, whose part takes MEM at its instruction, at once or once another part's handler is left; a late trap before the next instruction,
in whatever state the wave is (log entry 6), the report of a ticket's timeout freeing its slot; a walker free again; an acknowledgement on a
group's flow (log entry 105); a block's end, after which a wait at one of its barrier words stays (log entry 100). Each changes nothing else. -/
def Obligations.WaveSteps : Prop :=
  (∀ (s : State) (n : Nat) (w : Wave), s.run.waves.get? n = some w →
    let only (t : State) : Prop := t.sys = s.sys ∧ { t.run with waves := s.run.waves } = s.run ∧ ∀ k, k ≠ n → t.run.wave k = s.run.wave k
    let becomes (i : Instr) (u : Wave) : Prop := Completes (exec i s) (fun t => only t ∧ t.run.waves.get? n = some u)
    let sole (p : Pend) : Prop := w.pend.find? (fun q => q.id = p.id) = some p
    let due (k : Nat) : Prop := ∀ q ∈ w.pend, q.id = k → q.after ≤ s.run.clk
    let rest (p : Pend) : List Pend := w.pend.filter (fun q => q.id ≠ p.id)
    let left (p : Pend) (m : Lanes) (u : Wave) : Prop := let ls := p.far.filter (fun x => !m.getLsbD x.lane)
      (ls = [] → u.pend = rest p ∧ ∀ g ∈ p.regs, u.isEmpty g = false) ∧ (ls ≠ [] → ∃ q ∈ u.pend, q.id = p.id ∧ q.far = ls)
    let lost (p : Pend) (m : Lanes) (code : Nat) (wr : Bool) (i : Instr) : Prop := ∀ x xs, p.far.filter (fun x => m.getLsbD x.lane) = x :: xs →
      Completes (exec i s) (fun t => only t ∧
        let u := t.run.wave n
        let gone := farMask (x :: xs)
        left p m u ∧ RegsKept w u 0 [] ∧ (∀ g ∈ p.regs, u.isEmpty (g.inLanes gone) = false) ∧
        (∀ g ∈ p.regs, g.vec = true → g.mask &&& gone ≠ 0 → u.isInd (g.inLanes gone) = true) ∧
        u.late = if w.life = .ended then w.late
          else w.late ++ [lateMem code ((x :: xs).map (fun x => (x.lane, x.va))) p.pc (farDetail s.sys s.run n code x.va wr x.priv)])
    let acked (e : FarWrite) (post : List FarWrite) (pre : List FarWrite) (f : Option FarFault) : Wave :=
      let m := match f with
        | some f => if w.life = .ended then w.marked else some (FarFault.sub f, e.va, e.priv)
        | none => w.marked
      { w with acks := w.acks - 1, remote := pre ++ post, marked := m }
    becomes (.stallExpiry n) (if w.stall ≤ s.run.clk then { w with stall := 0 } else w) ∧
    (∀ p m x, sole p → due p.id → w.inFwcall = none → p.far = [] → becomes (.resultArrival n p.id m x) { w.fill p.regs with pend := rest p }) ∧
    (∀ k m x q, q ∈ w.pend → q.id = k → s.run.clk < q.after → exec (.resultArrival n k m x) s = .next s) ∧
    (∀ p k g m row, sole p → due p.id → w.inFwcall = none → p.regs = [⟨true, k, g⟩] → (∀ b xs, p.kind ≠ .object b xs) →
      let ans := p.far.filter (fun x => m.getLsbD x.lane)
      ans ≠ [] → Completes (exec (.resultArrival n p.id m [row]) s) (fun t =>
        t.sys = s.sys ∧ t.run.mem = s.run.mem ∧ (∀ k, k ≠ n → t.run.wave k = s.run.wave k) ∧ (∀ xs, p.kind = .load xs → only t) ∧
        left p m (t.run.wave n) ∧ (t.run.wave n).isEmpty ⟨true, k, g &&& farMask ans⟩ = false ∧
        ∀ j l, l < 32 → rowAt ((t.run.wave n).vRow j) l =
          if j = k ∧ (g &&& farMask ans).getLsbD l = true then rowAt row l else rowAt (w.vRow j) l)) ∧
    (∀ (e : FarWrite) (pre post : List FarWrite) (f : Option FarFault), n < 65536 → w.remote = pre ++ e :: post → (∀ x ∈ pre, x.pa ≠ e.pa) →
      (e.msg = none → becomes (.writeAcknowledgement n e.pa f) (acked e post pre f)) ∧
      (∀ k q, e.msg = some (k, q) → Completes (exec (.writeAcknowledgement n e.pa f) s) (fun t => t.sys = s.sys ∧ t.run.mem = s.run.mem ∧
        { t.run with waves := s.run.waves, parts := s.run.parts } = s.run ∧ t.run.waves.get? n = some (acked e post pre f) ∧
        ∀ x, (s.run.part (s.run.partOf n)).flows.get? k = some x →
          (t.run.part (s.run.partOf n)).flows.get? k = some { x with unacked := x.unacked.filter (fun u => u.1 ≠ q) }))) ∧
    (∀ p m xs f, sole p → p.kind = .load xs → lost p m (FarFault.sub f) false (.fabricTimeout n p.id m f)) ∧
    (∀ p m b x xs f, sole p → p.kind = .object b (x :: xs) → becomes (.fabricTimeout n p.id m f)
      { w with pend := rest p, marked := if w.life = .ended then w.marked else some (FarFault.sub f, x.va, x.priv) }) ∧
    (∀ k m f, n < 65536 → (∀ p ∈ w.pend, p.id ≠ k) → exec (.fabricTimeout n k m f) s = exec (.writeAcknowledgement n k (some f)) s) ∧
    (∀ p m xs b, sole p → p.kind = .atomic xs → lost p m 0x20 true (.atomicTimeout n p.id m b)) ∧
    (w.life = .ended → w.stream = false → w.acks = 0 → w.remote = [] → w.pend = [] →
      Completes (exec (.waveSlotRelease n) s) (fun t => only t ∧ t.run.waves.get? n = none)) ∧
    (w.life ≠ .ended ∨ w.stream = true ∨ w.acks ≠ 0 ∨ w.remote ≠ [] ∨ w.pend ≠ [] → exec (.waveSlotRelease n) s = .next s) ∧
    (∀ lane p, w.stream = false → w.parts.find? (fun p => p.mask.getLsbD lane && Park.isFault p.park) = some p →
      becomes (.faultRepaired n lane) { w with parts := w.parts.map (fun q =>
        if (q.mask &&& w.groupOf p) ≠ 0 then { q with pc := q.rpc, park := .run } else q) }) ∧
    (∀ lane p pages wr xs detail, w.parts.find? (fun p => p.mask.getLsbD lane && Park.isFault p.park) = some p →
      p.park = .fault pages wr xs detail →
      let r := s.run.onWave n (fun w => w.park (w.groupOf p) .run)
      let z := memTrap 0x12 xs detail
      (w.handler = 0 ∨ w.groupOf p &&& w.handler ≠ 0 →
        exec (.faultDeclined (.part n lane)) s = .next { s with run := trapAt s.sys r ⟨n, w.groupOf p, w.groupOf p, p.pc⟩ z }) ∧
      (w.handler ≠ 0 → w.groupOf p &&& w.handler = 0 → becomes (.faultDeclined (.part n lane)) (w.park (w.groupOf p) (.trapped z.kept)))) ∧
    (∀ x rest m pc, w.late = x :: rest → s.run.boundary n = some (m, pc) →
      let r := s.run.onWave n (fun w => match w.active with
        | some one => if x.cls = 10 ∧ x.sub = 2 then { w.reported one with late := rest } else { w with late := rest }
        | none => { w with late := rest })
      exec (.lateTrapDelivery n) s = .next { s with run := takeTrap r n m pc (r.peek s.sys n pc) x.trap }) ∧
    (w.late = [] ∨ s.run.boundary n = none → exec (.lateTrapDelivery n) s = .next s)) ∧
  (∀ (s : State) (n a : Nat) (f : Option FarFault) (x : Flow), 65536 ≤ n → (s.run.part (a / 2 ^ 40)).flows.get? n = some x →
    Completes (exec (.writeAcknowledgement n a f) s) (fun t => t.sys = s.sys ∧ { t.run with parts := s.run.parts } = s.run ∧
      (t.run.part (a / 2 ^ 40)).flows.get? n = some { x with unacked := x.unacked.filter (fun u => u.1 ≠ a % 2 ^ 40) })) ∧
  (∀ (s : State) (d : Nat), Completes (exec (.walkComplete d) s) (fun t => t.sys = s.sys ∧ { t.run with dies := s.run.dies } = s.run ∧
    t.run.die d = { s.run.die d with walks := (s.run.die d).walks - 1 } ∧ ∀ k, k ≠ d → t.run.die k = s.run.die k)) ∧
  (∀ (s : State) (b : Nat) (l : Launch), (s.run.blockDone b = false → exec (.blockEnd b) s = .next s) ∧
    (s.run.blockDone b = true → s.run.launches.get? (s.run.block b).launch = some l → Completes (exec (.blockEnd b) s) (fun t =>
      t.sys = s.sys ∧ t.run.mem = s.run.mem ∧ t.run.waves.get? (streamId b) = none ∧ t.run.blocks.get? b = none ∧
      (∀ k, k ≠ streamId b → t.run.waves.get? k = (s.run.waves.get? k).map (Wave.orphan b)) ∧
      (∀ k, k ≠ b → t.run.blocks.get? k = s.run.blocks.get? k) ∧
      t.run.launches.get? (s.run.block b).launch = some { l with ended := l.ended + 1 })))

/-! ## Requests from outside, and ports -/

/-- A request of another device (R506, R508, R526, R534): one that would cross a CLOSED boundary on its way from the die of its port is
discarded and counted in that register's DROPS, and nothing else happens; one that no grant covers is refused (log entry 101); one to a
partition in a blackout is held while 8 MiB last; else a load answers with the bytes, a store writes its bytes and is acknowledged, and one
outside the partition's memory or beyond 2^40, or a write into a sealed range, is refused, each answer by the port the request came in at.
Atomics, control flows and RDMA (R287, R314, R507, R521, R522), while nothing is held: an atomic request whose source and tag the partition's
tables still hold is answered with the reply they give and not applied again, another is applied once and noted at its site, one out of place
is refused, a full table leaves it; a release lets the note go; a control message that has come before is discarded; an unordered flow
delivers at once, an ordered one in sending order; a queue pair takes the request of the next sequence number: a READ answers in packets of the
path MTU with the bytes of its range or with what stops its first byte that may not be read; a WRITE of one byte performs it; a SEND is kept
for the owner of its queue pair; one that comes early or meets a page left behind is not performed, one that has been performed only answered,
an ECN mark notified; a queue pair the partition has not is refused. -/
def Obligations.OutsideRequests : Prop :=
  (
  ∀ (s : State) (port : Nat) (q : RemoteReq),
    let i : Instr := .remoteDataRequest port q
    let p := s.sys.partOf (port / 36)
    let a := RemoteReq.target port q
    let answers (o : Out) : Prop := exec i s = .next { s with run := s.run.transmit port { cls := 0, port := port } o }
    let said (t : State) (o : Out) : Prop := t.sys = s.sys ∧ ∃ more, t.run.out = s.run.out ++ o :: more
    (∀ n, s.sys.owns p a = false → s.sys.stopped (port / 36) a = some n → exec i s = .next { s with sys := s.sys.drop n } ∧
      ∀ x, s.sys.bnd[n]? = some x → (s.sys.drop n).bnd = s.sys.bnd.set n (setBits x 16 16 (min 0xFFFF (bits x 16 16 + 1)))) ∧
    (s.sys.owns p a = true ∨ s.sys.stopped (port / 36) a = none →
      (s.run.granted p port = false → answers (.refusal .perm)) ∧
      (∀ e, s.run.granted p port = true → s.run.ctxs.find? (fun e => e.2.part == p && e.2.mig == .blackout) = some e →
        let room := e.2.hold.foldl (fun n j => n + heldSpace j) (heldSpace i)
        (room ≤ 2 ^ 23 → Completes (exec i s) (fun t => t.sys = s.sys ∧ { t.run with ctxs := s.run.ctxs } = s.run ∧
          ∀ x, s.run.ctxs.get? e.1 = some x → t.run.ctxs.get? e.1 = some { x with hold := x.hold ++ [i] })) ∧
        (2 ^ 23 < room → exec i s = .next s)) ∧
      (s.run.granted p port = true → (∀ e ∈ s.run.ctxs, ¬(e.2.part = p ∧ e.2.mig = .blackout)) →
        (∀ n, q = .load a n → a + n ≤ 2 ^ 40 → s.sys.owns p a = true → (n = 0 ∨ s.sys.owns p (a + n - 1) = true) →
          answers (.data (memBytes s.run.mem a n))) ∧
        (∀ n, q = .load a n → (2 ^ 40 < a + n ∨ s.sys.owns p a = false ∨ n ≠ 0 ∧ s.sys.owns p (a + n - 1) = false) → answers (.refusal .nomap)) ∧
        (∀ bs, q = .store a bs → fabricBad s.sys s.run p a bs.length = none → Completes (exec i s) (fun t => said t (.ack 0) ∧
          ∀ x, memGet t.run.mem x = if a ≤ x ∧ x < a + bs.length then bs.getD (x - a) 0 else memGet s.run.mem x)) ∧
        (∀ bs f, q = .store a bs → fabricBad s.sys s.run p a bs.length = some f → answers (.refusal f)) ∧
        (∀ bs, q = .store a bs → 2 ^ 40 < a + bs.length → answers (.refusal .nomap))))) ∧
  (
  ∀ (s : State) (port flow seq : Nat) (q : RemoteReq),
    let p := s.sys.partOf (port / 36)
    let a := RemoteReq.target port q
    let x := ((s.run.part p).flows.get? flow).getD { ordered := decide (65536 ≤ flow) }
    let i : Instr := .controlMessageDelivery port flow seq q
    let with_ (x : Flow) : Run := s.run.onPart p (fun z => { z with flows := z.flows.put flow x })
    let old : Prop := seq < x.expect ∨ seq ∈ x.seen ∨ ∃ e ∈ x.buffer, e.1 = seq
    (∀ n, s.sys.owns p a = false → s.sys.stopped (port / 36) a = some n → exec i s = .next { s with sys := s.sys.drop n }) ∧
    (s.sys.owns p a = true ∨ s.sys.stopped (port / 36) a = none → s.run.granted p port = true →
      (∀ e ∈ s.run.ctxs, ¬(e.2.part = p ∧ e.2.mig = .blackout)) →
      (¬old → x.ordered = false → ∀ bs, q = .store a bs → fabricBad s.sys s.run p a bs.length = none → Completes (exec i s) (fun t =>
        ∀ z, memGet t.run.mem z = if a ≤ z ∧ z < a + bs.length then bs.getD (z - a) 0 else memGet s.run.mem z)) ∧
      (old → exec i s = .next { s with run := with_ x }) ∧
      (¬old → x.ordered = false → exec i s = .next { s with run := deliver s.sys port (with_ { x with seen := x.seen ++ [seq] }) q }) ∧
      (¬old → x.ordered = true → x.expect < seq → (∀ e ∈ x.buffer, e.1 ≠ x.expect) →
        exec i s = .next { s with run := with_ { x with buffer := x.buffer ++ [(seq, q)] } }) ∧
      (¬old → x.ordered = true → seq = x.expect → (∀ e ∈ x.buffer, e.1 ≠ seq + 1) →
        exec i s = .next { s with run := deliver s.sys port (with_ { x with expect := seq + 1 }) q }))) ∧
  (
  ∀ (s : State) (way : ReqWay) (port tag : Nat) (a : AtomicReq),
    let i : Instr := .atomicRequest way port tag a
    let p := ReqWay.part s.sys way
    let d := (s.run.part p).dedup
    let site := ReqWay.site s.sys s.run a.addr way
    let n := ATy.bytes a.ty
    let old := memRead s.run.mem a.addr n
    let fresh : Prop := ∀ x ∈ d, ¬(x.port = port ∧ x.tag = tag)
    let answers (o : Out) : Prop := exec i s = .next { s with run := answerReq s.run way port tag o }
    let bad : Option FarFault := match way with | .fabric _ => fabricBad s.sys s.run p a.addr n | .inside _ => outerBad s.sys s.run p a.addr n
    (∀ k m, way = .fabric k → s.sys.owns p a.addr = false → s.sys.stopped (k / 36) a.addr = some m →
      exec i s = .next { s with sys := s.sys.drop m }) ∧
    ((∀ k, way = .fabric k → (s.sys.owns p a.addr = true ∨ s.sys.stopped (k / 36) a.addr = none) ∧ s.run.granted p k = true) →
      (∀ e ∈ s.run.ctxs, ¬(e.2.part = p ∧ e.2.mig = .blackout)) →
      (∀ e pre post, d = pre ++ e :: post → e.port = port → e.tag = tag → (∀ x ∈ pre, ¬(x.port = port ∧ x.tag = tag)) →
        answers (.reply port tag e.reply)) ∧
      (fresh → (d.filter (fun e => e.site = site)).length < site.room →
        (∀ f, bad = some f → answers (.refusal f)) ∧
        (bad = none → Completes (exec i s) (fun t => t.sys = s.sys ∧
          (∃ more, t.run.out = s.run.out ++ .reply port tag old :: more) ∧ (t.run.part p).dedup = d ++ [⟨site, port, tag, old, none⟩] ∧
          ∀ x, memGet t.run.mem x = match atomicNew a old with
            | some v => if a.addr ≤ x ∧ x < a.addr + n then (leBytes v n).getD (x - a.addr) 0 else memGet s.run.mem x
            | none => memGet s.run.mem x))) ∧
      (fresh → site.room ≤ (d.filter (fun e => e.site = site)).length → exec i s = .next s)) ∧
    (let r := s.run.onPart p (fun q => { q with dedup := d.filter (fun e => !(e.port = port && e.tag = tag)) })
     exec (.releaseFlit way port tag) s = .next { s with run := r })) ∧
  (
  ∀ (s : State) (p qp : Nat),
    (∀ (x : Qp) (addr : Nat) (m : QpHead), s.run.qp p qp = some x → 0 < x.mtu → m.ecn = false →
      (∀ e ∈ s.run.ctxs, ¬(e.2.part = p ∧ e.2.mig = .blackout ∧ e.1 = x.ctx)) →
      let cid := x.ctx
      let r := s.run.onPart p (fun z => { z with qps := z.qps.upd qp (fun x => { x with expect := x.expect + 1 }) })
      let reads (i : Instr) (r : Run) (bs : List Byte) : Prop := ∃ cs : List (List Byte), cs.flatten = bs ∧ (∀ c ∈ cs, c.length ≤ x.mtu) ∧
        exec i s = .next { s with run := { r with out := s.run.out ++ cs.map (fun c => .data c) } }
      let all (bytes : Nat) (pas : List Nat) : Prop := pas.length = bytes ∧
        ∀ i, i < bytes → ∃ pa, pas[i]? = some pa ∧ rdmaAt s.sys s.run cid (addr + i) false = .ok pa
      (m.seq < x.expect →
        (∀ bytes pas, all bytes pas → reads (.rdmaRead p qp m addr bytes) s.run (pas.map (memGet s.run.mem))) ∧
        ∀ data, ∀ i ∈ [Instr.rdmaWrite p qp m addr data, .rdmaSend p qp m data], exec i s = .next { s with run := s.run.send (.ack qp) }) ∧
      (x.expect < m.seq → ∀ bytes data, ∀ i ∈ [Instr.rdmaRead p qp m addr bytes, .rdmaWrite p qp m addr data, .rdmaSend p qp m data],
        exec i s = .next s) ∧
      (m.seq = x.expect →
        (∀ bytes pas, s.run.missingOf cid addr bytes = [] → all bytes pas →
          reads (.rdmaRead p qp m addr bytes) r (pas.map (memGet s.run.mem))) ∧
        (∀ (bytes i : Nat) (f : FarFault), s.run.missingOf cid addr bytes = [] → i < bytes →
          (∀ j, j < i → ∃ pa, rdmaAt s.sys s.run cid (addr + j) false = .ok pa) →
          rdmaAt s.sys s.run cid (addr + i) false = .error f → exec (.rdmaRead p qp m addr bytes) s = .next { s with run := r.send (.refusal f) }) ∧
        (∀ b pa, s.run.missingOf cid addr 1 = [] → rdmaAt s.sys s.run cid addr true = .ok pa →
          Completes (exec (.rdmaWrite p qp m addr [b]) s) (fun t => t.sys = s.sys ∧ t.run.out = s.run.out ++ [.ack qp] ∧
            t.run.parts = r.parts ∧ ∀ x, memGet t.run.mem x = if x = pa then b else memGet s.run.mem x)) ∧
        (∀ b data f, s.run.missingOf cid addr (b :: data).length = [] → rdmaAt s.sys s.run cid addr true = .error f →
          exec (.rdmaWrite p qp m addr (b :: data)) s = .next { s with run := r.send (.refusal f) }) ∧
        (∀ bytes, s.run.missingOf cid addr bytes ≠ [] → Completes (exec (.rdmaRead p qp m addr bytes) s) (fun t =>
          t.run.mem = s.run.mem ∧ t.run.parts = s.run.parts)) ∧
        (∀ data, s.run.missingOf cid addr data.length ≠ [] → Completes (exec (.rdmaWrite p qp m addr data) s) (fun t =>
          t.run.mem = s.run.mem ∧ t.run.parts = s.run.parts)) ∧
        (∀ data, let r := r.onPart p (fun z => { z with msgs := z.msgs ++ [(qp, data)] })
          exec (.rdmaSend p qp m data) s = .next { s with run := r.send (.ack qp) }))) ∧
    (∀ (x : Qp) (m : QpHead) (data : List Byte), s.run.qp p qp = some x → m.ecn = true → x.expect < m.seq →
      (∀ e ∈ s.run.ctxs, ¬(e.2.part = p ∧ e.2.mig = .blackout ∧ e.1 = x.ctx)) →
      exec (.rdmaSend p qp m data) s = .next { s with run := s.run.send (.cnp qp) }) ∧
    (∀ m addr bytes data, s.run.qp p qp = none →
      ∀ i ∈ [Instr.rdmaRead p qp m addr bytes, .rdmaWrite p qp m addr data, .rdmaSend p qp m data],
        exec i s = .next { s with run := s.run.send (.refusal .nomap) }))

/-- Links and ports (R503, R504, R544): a port takes in the flit of the next number, discards one of an earlier number, and asks for a replay
where a number is missing or a flit is bad; a replay that succeeds clears the count; one that fails sends the kept flits again from the one asked
for and counts, and one of a flit that has failed eight times takes the port down, which the black box notes; the atomics in flight on it and
its unacknowledged control messages then go out again by another port of the set, where there is one; an attempt restores a port that is down
or counts as failed with its time, and when the last three have failed within 10 ms the port is mapped out of every route. Memory and waves are
as before, but for the RECV pages of collectives that the loss of a port aborts, the note in a monitor that its line was written, and the port
each atomic went out by. -/
def Obligations.Ports : Prop :=
  ∀ (s : State) (n : Nat),
    let x := s.run.port n
    let p := s.sys.partOf (n / 36)
    let kept (t : State) : Prop := t.sys = s.sys ∧ t.run.mem = s.run.mem ∧ t.run.waves = s.run.waves ∧ ∀ k, k ≠ n → t.run.port k = s.run.port k
    let sets (i : Instr) (z : Port) : Prop := Completes (exec i s) (fun t => kept t ∧ t.run.port n = z ∧ { t.run with ports := s.run.ports } = s.run)
    let held (a : Nat) : Prop := ∃ e ∈ (s.run.part p).colls, ∃ g ∈ e.2.recvPg, a / 8192 = g.2.1 / 8192
    let down := s.run.onPort n (fun x => { x with up := false, tries := [], lastIn := none })
    let falls (i : Instr) : Prop := Completes (exec i s) (fun t => t.sys = s.sys ∧ (∀ a, ¬held a → memGet t.run.mem a = memGet s.run.mem a) ∧
      (∀ k, { t.run.wave k with mon := (s.run.wave k).mon, pend := (s.run.wave k).pend } = s.run.wave k ∧
        (t.run.wave k).pend.map (fun q => q.id) = (s.run.wave k).pend.map (fun q => q.id)) ∧
      (∀ k, k ≠ n → { t.run.port k with link := (s.run.port k).link, sent := (s.run.port k).sent } = s.run.port k) ∧
      t.run.port n = { x with up := false, tries := [], lastIn := none } ∧
      (∃ e, e ∈ t.run.bb ∧ e.ty = 6 ∧ e.seq = s.run.bbNext ∧ e.detail = n % 2 ^ 32) ∧
      (∀ z ∈ s.run.atomicsOut, ∀ a, z.via = n → z.req = some a →
        (down.dataPort p (n / 36) z.dev (z.pa / 256)).isSome = true → .atomic z.dev a ∈ t.run.out) ∧
      ∀ fl z, (s.run.part p).flows.get? fl = some z → (z.portIn (down.flowWays p (n / 36) fl).1 fl (down.flowWays p (n / 36) fl).2).isSome = true →
        ∀ u ∈ z.unacked, u.2.1 = n → .control fl u.1 u.2.2 ∈ t.run.out)
    (x.up = true → x.mapped = true →
      sets (.linkReplay n .have) { x with replays := 0 } ∧
      (∀ link,
        let k := if x.failed = link then x.replays else 0
        (k < 8 → Completes (exec (.linkReplay n (.again link)) s) (fun t => kept t ∧
          t.run.port n = { x with replays := k + 1, failed := link } ∧ { t.run with ports := s.run.ports, out := s.run.out } = s.run ∧
          t.run.out = s.run.out ++ (x.sent.filter (fun f => link ≤ f.1)).map (fun f => .flit n f.1 f.2))) ∧
        (8 ≤ k → falls (.linkReplay n (.again link))) ∧
        (link = x.expect → sets (.linkReplay n (.flit link true)) { x with expect := link + 1, lastIn := some s.run.clk }) ∧
        (link < x.expect → sets (.linkReplay n (.flit link true)) { x with lastIn := some s.run.clk }) ∧
        ∀ ok, (ok = true → x.expect < link) → Completes (exec (.linkReplay n (.flit link ok)) s) (fun t => kept t ∧
          t.run.port n = { x with lastIn := some s.run.clk } ∧ { t.run with ports := s.run.ports, out := s.run.out } = s.run ∧
          t.run.out = s.run.out ++ [.replay n x.expect])) ∧
      falls (.portDown n) ∧ ∀ ok, ∀ i ∈ [Instr.portRetraining n ok, .portMapout n], exec i s = .next s) ∧
    (x.up = false → x.mapped = true → (∀ e, exec (.linkReplay n e) s = .next s) ∧ exec (.portDown n) s = .next s ∧
      sets (.portRetraining n true) { x with up := true, replays := 0, tries := [] } ∧
      sets (.portRetraining n false) { x with tries := s.run.clk :: x.tries } ∧
      (∀ a b c rest, x.tries = a :: b :: c :: rest → a ≤ c + 21000000 → Completes (exec (.portMapout n) s) (fun t =>
        kept t ∧ t.run.port n = { x with mapped := false } ∧ ∀ p d ps, (t.run.part p).routes.get? d = some ps → n ∉ ps)) ∧
      ((∀ a b c rest, x.tries = a :: b :: c :: rest → c + 21000000 < a) → exec (.portMapout n) s = .next s)) ∧
    (x.mapped = false → ∀ b e, ∀ i ∈ [Instr.linkReplay n e, .portDown n, .portRetraining n b, .portMapout n], exec i s = .next s)

/-! ## Commands and launches -/

/-- Fetching and the five command records (R457 to R459, R463, R535 to R537): the record at WPTR is fetched through the ring's capability and
RPTR written back, a WPTR outside the ring or a record that may not be read stops the queue, one whose page is to come is waited for (log entry
64); a record that may start and names a DONE word the tenant can write completes with OK there (NOP, a COPY once its
bytes have moved, a WAIT once its word has reached the value, a SIGNAL with its value written, a LAUNCH once it is over), with BADREC where
R458 forbids it, with NEED where no core can hold its block; it leaves the queue's list, once the page of its word has come; a COPY of which
any byte is out of bounds moves none and stops the queue, and of memory only the bytes named change. -/
def Obligations.QueueCommands : Prop :=
  ∀ (s : State) (n cid : Nat) (x : Queue), s.run.queues.get? n = some x → s.run.ctxRunning n = some cid →
    let at_ (va : Nat) (wr : Bool) : Reach := reachOf s.sys s.run cid va wr
    let same (t : State) (lo len : Nat) : Prop := ∀ a, (a < lo ∨ lo + len ≤ a) → memGet t.run.mem a = memGet s.run.mem a
    (x.mapped = true → x.stopped = false → s.run.ctxOfQueue n = some cid → (s.run.ctx cid).fetching = true →
      memRead s.run.mem (x.qcb + 0x10) 8 = x.rptr + 1 → x.logn ≤ 16 →
      let at' := x.ring.base.toNat + 64 * (x.rptr % 2 ^ x.logn)
      let mine : Prop := x.ring.tag = true ∧ x.ring.read = true ∧ at' + 64 ≤ x.ring.base.toNat + x.ring.length.toNat ∧ at' < 2 ^ 64
      let stops : Prop := Completes (exec (.wptrObserve n) s) (fun t => t.run.queue n = { x with stopped := true } ∧ same t (x.qcb + 0x20) 4 ∧
        memRead t.run.mem (x.qcb + 0x20) 4 = 1)
      (∀ pa, recordReach s.sys s.run cid x x.rptr = .ok pa → Completes (exec (.wptrObserve n) s) (fun t =>
        let fetched : Cmd := { k := x.rptr, words := (List.range 8).map (fun i => BitVec.ofNat 64 (memRead s.run.mem (pa + 8 * i) 8)) }
        t.sys = s.sys ∧ same t (x.qcb + 0x18) 8 ∧ memRead t.run.mem (x.qcb + 0x18) 8 = x.rptr + 1 ∧
        t.run.queue n = { x with cmds := x.cmds ++ [fetched], rptr := x.rptr + 1 })) ∧
      (recordReach s.sys s.run cid x x.rptr = .wait → exec (.wptrObserve n) s = .next s) ∧
      (recordReach s.sys s.run cid x x.rptr = .bad → stops) ∧
      (x.ring.tag = false → stops) ∧ (mine → recordReach s.sys s.run cid x x.rptr = at_ at' false)) ∧
    (x.mapped = true → x.stopped = false → s.run.ctxOfQueue n = some cid → (s.run.ctx cid).fetching = true →
      (memRead s.run.mem (x.qcb + 0x10) 8 < x.rptr ∨ x.rptr + 2 ^ x.logn < memRead s.run.mem (x.qcb + 0x10) 8) →
      Completes (exec (.wptrObserve n) s) (fun t => t.run.queue n = { x with stopped := true } ∧ same t (x.qcb + 0x20) 4 ∧
        memRead t.run.mem (x.qcb + 0x20) 4 = 1)) ∧
    let inBounds (c : Cmd) : Prop := (∀ a ∈ piecesOf c.addr (c.arg 1).toNat, at_ a true ≠ .bad) ∧
      ∀ a ∈ piecesOf (c.arg 0).toNat (c.arg 1).toNat, at_ a false ≠ .bad
    (∀ c, x.startable = some c →
      let starts (t : State) (l : Option Nat) : Prop := t.run.mem = s.run.mem ∧ t.run.queue n = { x with
        last := s.run.clk, cmds := x.cmds.map (fun d => if d.k = c.k then { d with st := .started, launch := l } else d) }
      let bounded : Prop := c.doneAt = 0 ∨ ∃ pa, at_ c.doneAt true = .ok pa
      let ends (i : Instr) (st : Nat) : Prop := Completes (exec i s) (fun t => t.sys = s.sys ∧ { t.run with mem := s.run.mem, waves := s.run.waves, queues := s.run.queues } = s.run ∧
        (t.run.queue n).cmds = x.cmds.filter (fun d => d.k ≠ c.k) ∧ (c.doneAt = 0 ∨ c.doneAt % 8 ≠ 0 → t.run.mem = s.run.mem) ∧
        ∀ pa, c.doneAt ≠ 0 → c.doneAt % 8 = 0 → at_ c.doneAt true = .ok pa → same t pa 8 ∧ memRead t.run.mem pa 8 = st + 256)
      (∀ e ∈ [(Instr.cmdNop n c.k, 0), (.launch n c.k, 1), (.copy n c.k, 2), (.wait n c.k, 3), (.signal n c.k, 4)],
        (c.ty = e.2 ∨ 4 < c.ty) → c.malformed = true → c.doneWaits s.sys s.run cid = false → ends e.1 2) ∧
      (c.malformed = false → bounded →
        (c.ty = 0 → ends (.cmdNop n c.k) 0) ∧
        (c.ty = 2 → inBounds c → Completes (exec (.copy n c.k) s) (fun t => starts t none)) ∧
        (c.ty = 2 → ¬inBounds c → c.doneAt = 0 → Completes (exec (.copy n c.k) s) (fun t => same t (x.qcb + 0x20) 4 ∧
          memRead t.run.mem (x.qcb + 0x20) 4 = 1 ∧ t.run.queue n = { x with
            last := s.run.clk, stopped := true, cmds := x.cmds.filter (fun d => d.k ≠ c.k) })) ∧
        (c.ty = 3 → at_ c.addr false ≠ .bad → Completes (exec (.wait n c.k) s) (fun t => starts t none)) ∧
        (∀ pa, c.ty = 4 → at_ c.addr true = .ok pa →
          (let r := storeBytes (cmdStarted s.run n c.k none) pa (leBytes (c.arg 0).toNat 8)
           exec (.signal n c.k) s = .next { s with run := cmdComplete s.sys r n c 0 }) ∧
          (c.doneAt = 0 → Completes (exec (.signal n c.k) s) (fun t => t.sys = s.sys ∧
            same t pa 8 ∧ memRead t.run.mem pa 8 = (c.arg 0).toNat ∧ (t.run.queue n).cmds = x.cmds.filter (fun d => d.k ≠ c.k)))) ∧
        (∀ pa, c.ty = 1 → at_ c.addr false = .ok pa →
          let bs := memBytes s.run.mem pa 256
          let l := launchRecord bs
          (recordReserved bs = true ∨ l.bad = true → ends (.launch n c.k) 2) ∧
          (recordReserved bs = false → l.bad = false → l.need = true → ends (.launch n c.k) 3) ∧
          (recordReserved bs = false → l.bad = false → l.need = false → ∃ m, s.run.launches.get? m = none ∧
            Completes (exec (.launch n c.k) s) (fun t => starts t (some m) ∧ (∀ j, j ≠ m → t.run.launches.get? j = s.run.launches.get? j) ∧
              ∃ z, t.run.launches.get? m = some z ∧ z.ctx = cid ∧ z.queue = some (n, c.k) ∧ z.next = 0 ∧ z.ended = 0 ∧
                z.args = [c.arg 0, c.arg 1, c.arg 2, c.arg 3, c.arg 4] ∧ z.info.roles = l.roles ∧ z.info.base = l.base ∧
                z.info.grid = (if bits c.hdr 32 32 = 0 then l.grid else bits c.hdr 32 32) ∧
                z.cls = (if c.hdr.getLsbD 11 then bits c.hdr 12 4 else x.cls)))))) ∧
    (∀ c k, x.cmds.find? (fun d => d.k = k && d.ty = 2 && d.st = .started) = some c →
      (inBounds c → copyWaits s.sys s.run cid c = true → exec (.copyCommandComplete n k) s = .next s) ∧
      (inBounds c → copyWaits s.sys s.run cid c = false →
        let r := moveBytes s.sys cid c.addr (c.arg 0).toNat (c.arg 1).toNat s.run
        exec (.copyCommandComplete n k) s = .next { s with run := cmdComplete s.sys r n c 0 }) ∧
      (¬inBounds c → exec (.copyCommandComplete n k) s = .next { s with run := badField s.sys s.run n c })) ∧
    (∀ c st k, x.cmds.find? (fun d => d.k = k) = some c → c.st = .complete st → c.doneAt ≠ 0 → c.doneAt % 8 = 0 →
      (at_ c.doneAt true = .wait → Completes (exec (.waitSatisfied n k) s) (fun t => t.run.mem = s.run.mem ∧ c ∈ (t.run.queue n).cmds)) ∧
      ∀ pa, at_ c.doneAt true = .ok pa → Completes (exec (.waitSatisfied n k) s) (fun t => same t pa 8 ∧
        (st < 2 ^ 32 → memRead t.run.mem pa 8 = st + 256) ∧ (t.run.queue n).cmds = x.cmds.filter (fun d => d.k ≠ k))) ∧
    (∀ c k pa, x.cmds.find? (fun d => d.k = k && d.ty = 3 && d.st = .started) = some c → (∀ d ∈ x.cmds, ∀ st, d.k = k → d.st ≠ .complete st) →
      at_ c.addr false = .ok pa →
      (memRead s.run.mem pa 8 < (c.arg 0).toNat → exec (.waitSatisfied n k) s = .next s) ∧
      ((c.arg 0).toNat ≤ memRead s.run.mem pa 8 →
        exec (.waitSatisfied n k) s = .next { s with run := cmdComplete s.sys s.run n c 0 }) ∧
      ((c.arg 0).toNat ≤ memRead s.run.mem pa 8 → c.doneWaits s.sys s.run cid = true → Completes (exec (.waitSatisfied n k) s) (fun t =>
        t.run.mem = s.run.mem ∧ t.run.queue n = { x with cmds := x.cmds.map (fun d => if d.k = k then { d with st := .complete 0 } else d) })) ∧
      ((c.arg 0).toNat ≤ memRead s.run.mem pa 8 → c.doneAt = 0 → Completes (exec (.waitSatisfied n k) s) (fun t =>
        t.run.mem = s.run.mem ∧ t.run.queue n = { x with cmds := x.cmds.filter (fun d => d.k ≠ k) }))) ∧
    (∀ l z k c, s.run.launches.get? l = some z → z.queue = some (n, k) → s.run.launchOver l = true →
      x.cmds.find? (fun d => d.k = k && d.ty = 1 && d.st = .started) = some c → c.doneAt = 0 →
      Completes (exec (.launchComplete l) s) (fun t => t.run.mem = s.run.mem ∧ t.run.launches.get? l = none ∧
        t.run.queue n = { x with cmds := x.cmds.filter (fun d => d.k ≠ k) })) ∧
    (∀ l, s.run.launchOver l = false → exec (.launchComplete l) s = .next s)

/-- Queue slots and the placing of a neighbourhood (R456, R460, R461, R465, R466): a queue whose tenant may run takes a slot of its class's
minimum, else one above all minimums, else one of another class's that has no queue waiting, the lowest number that is free (log entry 107),
and the Inn reads its control block; a reclaimed slot is given up and the privileged fields rewritten;
the neighbourhood served next has each of its blocks on its core of the free rectangle, with the waves of the record's roles in order, each
at its entry. What was resident stays as it is. -/
def Obligations.SlotsAndPlacing : Prop :=
  (∀ (s : State) (n : Nat) (x : Queue), s.run.queues.get? n = some x →
    let b := x.qcb
    let m := s.run.mem
    let c := memRead m (b + 9) 1
    let len : BitVec 48 := BitVec.ofNat 48 (64 * 2 ^ memRead m (b + 8) 1)
    let cap : Capability := { base := BitVec.ofNat 64 (memRead m b 8), length := len, read := true, tag := true }
    let taken (reserved : Bool) (loan : Option Nat) (i : Nat) : Queue := { x with
      mapped := true, waiting := false, reserved := reserved, loan := loan, slot := i, ring := cap, logn := memRead m (b + 8) 1
      cls := c, tenant := memRead m (b + 10) 2, rptr := memRead m (b + 0x18) 8, stopped := decide (memRead m (b + 0x20) 4 ≠ 0) }
    (∀ i, x.mapped = false → x.waiting = true → s.run.mayMap x.part (memRead m (b + 10) 2) = true →
      let used (i : Nat) : Prop := ∃ e ∈ s.run.queues, e.2.mapped = true ∧ e.2.slot = i
      i < 128 → ¬used i → (∀ j, j < i → used j) →
      let sets (z : Queue) : Prop := Completes (exec (.queueMap n) s) (fun t => { t.run with queues := s.run.queues } = s.run ∧
        t.run.queues.get? n = some z ∧ ∀ k, k ≠ n → t.run.queues.get? k = s.run.queues.get? k)
      (s.run.inMin x.part c < (s.run.part x.part).minOf c → sets (taken true none i)) ∧
      ((s.run.part x.part).minOf c ≤ s.run.inMin x.part c → s.run.inCommon x.part < (s.run.part x.part).common → sets (taken false none i)) ∧
      let lends (d : Nat) : Prop := d ≠ c ∧ s.run.classWaits x.part d = false ∧ s.run.inMin x.part d < (s.run.part x.part).minOf d
      ∀ d, (s.run.part x.part).minOf c ≤ s.run.inMin x.part c → (s.run.part x.part).common ≤ s.run.inCommon x.part → d < 16 → lends d →
        (∀ j, j < d → ¬lends j) → sets (taken false (some d) i)) ∧
    (s.run.mayMap x.part (memRead m (b + 10) 2) = false → exec (.queueMap n) s = .next s) ∧
    (s.run.reclaims n = false → exec (.queueUnmapForced n) s = .next s) ∧
    (s.run.reclaims n = true → Completes (exec (.queueUnmapForced n) s) (fun t =>
      t.run.queues.get? n = some { x with mapped := false, reserved := false, loan := none, waiting := true } ∧
      (∀ k, k ≠ n → t.run.queues.get? k = s.run.queues.get? k) ∧ (∀ a, (a < b ∨ b + 12 ≤ a) → memGet t.run.mem a = memGet m a) ∧
      memRead t.run.mem b 8 = x.ring.base.toNat))) ∧
  (∀ (s : State) (die l : Nat) (cs : List Nat) (z : Launch), s.sys.valid = true → s.run.nextPlace s.sys die = some (l, cs) →
    s.run.launches.get? l = some z → (∀ e ∈ s.run.waves, e.1 < 30720 → e.2.stream = false) → Completes (exec (.neighbourhoodPlace die) s) (fun t =>
      t.sys = s.sys ∧ t.run.mem = s.run.mem ∧ t.run.launches.get? l = some { z with next := z.next + 1 } ∧
      (∀ b y, s.run.blocks.get? b = some y → t.run.blocks.get? b = some y) ∧ (∀ w y, w < 30720 → s.run.waves.get? w = some y → t.run.waves.get? w = some y) ∧
      ∀ i core, cs[i]? = some core → ∃ b y, b / 4 = core ∧ s.run.blocks.get? b = none ∧ t.run.blocks.get? b = some y ∧
        y.launch = l ∧ y.ctx = z.ctx ∧ y.nbh = z.next ∧ y.index = i ∧ y.poolFree = z.info.extend ∧
        ∀ j e, z.info.roleList[j]? = some e → ∃ n w, coreOf n = core ∧ t.run.waves.get? n = some w ∧ w.blk = b ∧ w.index = j ∧
          w.stage = e.1 ∧ w.valloc = e.2.regs ∧ w.parts = startParts 0xFFFFFFFF#32 (z.info.base + BitVec.ofNat 64 e.2.entry) ∧
          w.sReg 0 = z.args.getD 0 0)) ∧
  (∀ (s : State) (die : Nat), (s.sys.valid = false ∨ s.run.nextPlace s.sys die = none) → exec (.neighbourhoodPlace die) s = .next s)

/-! ## Pre-emption -/

/-- The steps of pre-emption (R487 to R491, R493): the Inn's write, or a request that stands, raises STEP; a drain is done once no block of the
context is resident;
under step 2 the waves that stand reconverged at a boundary, outside supervisor state, and as it begins those wholly parked, stop, or with
TRAP owe their PREEMPT trap, and under step 3 every wave stops; the deadline leads from step 2 to step 3. While something of the context is under way
outside the device nothing is saved, and memory, blocks and other contexts are as before. Freezing (R491, R492): SAVETIME, a capture request
and FREEZE leave the context frozen with their reason, STEP 4 and DONE, no block and no launch of it, its queues unmapped and with no command
but those that are complete and wait for the page of their word (log entry 64); TENANT_RELEASE lets it begin anew; both act on the contexts of one tenant in one partition. -/
def Obligations.Preemption : Prop :=
  (
  ∀ (s : State) (cid : Nat) (c : Ctx), s.run.ctxs.get? cid = some c →
    let mine (w : Wave) : Prop := (s.run.block w.blk).ctx = cid
    let under : Prop := ∃ e ∈ s.run.waves, mine e.2 ∧ Wave.settled e.2 = false
    let stopped (step : Nat) (trap : Bool) (w : Wave) : Wave :=
      if w.stops step = true ∨ step = 2 ∧ w.allParked = true then (if trap && step = 2 && !w.stream then { w with preTrap := true } else { w with life := .stopped }) else w
    let calm : Prop := ∀ e ∈ s.run.waves, mine e.2 → ∀ p ∈ e.2.parts, ∀ a l, p.park ≠ .burn a l
    let asks (z : Option (Bool × BitVec 8)) (req : Nat) : Prop := z = none → bits c.preempt 0 3 = req
    let trap (z : Option (Bool × BitVec 8)) : Bool := match z with | some e => e.1 | none => c.trapping
    let written (t : State) (z : Option (Bool × BitVec 8)) : Prop := (t.run.ctx cid).trapping = trap z ∧
      ∀ a d, z = some (a, d) → bits (t.run.ctx cid).preempt 16 8 = if d = 0 then 1 else d.toNat
    let held (i : Instr) (step : Nat) (tr : Bool) : Prop := calm → Completes (exec i s) (fun t => t.sys = s.sys ∧
      { t.run with waves := s.run.waves, ctxs := s.run.ctxs } = s.run ∧ (∀ k, k ≠ cid → t.run.ctxs.get? k = s.run.ctxs.get? k) ∧
      (t.run.ctx cid).step = step ∧ (t.run.ctx cid).done = false ∧
      (∀ n w, s.run.waves.get? n = some w → (mine w → t.run.waves.get? n = some (stopped step tr w)) ∧
        (¬mine w → t.run.waves.get? n = some w)))
    (∀ z, asks z 1 → c.step = 0 → calm → Completes (exec (.preemptDrain cid z) s) (fun t => t.sys = s.sys ∧
      { t.run with ctxs := s.run.ctxs } = s.run ∧ written t z ∧ bits (t.run.ctx cid).preempt 0 3 = 1 ∧
      (∀ k, k ≠ cid → t.run.ctxs.get? k = s.run.ctxs.get? k) ∧ (t.run.ctx cid).step = 1 ∧
      ((t.run.ctx cid).done = true ↔ ∀ e ∈ s.run.blocks, e.2.ctx ≠ cid))) ∧
    (under →
      (∀ z, asks z 2 → c.step < 2 → held (.preemptHalt cid z) 2 (trap z)) ∧ (∀ z, asks z 3 → c.step < 3 → held (.preemptForcedSave cid z) 3 (trap z)) ∧
      (s.run.haltDue cid = true → held (.haltDeadline cid) 3 c.trapping)) ∧
    (∀ e ∈ [(Instr.preemptDrain cid none, 1), (.preemptHalt cid none, 2), (.preemptForcedSave cid none, 3), (.preemptCapture cid none, 4)],
      bits c.preempt 0 3 ≠ e.2 → c.step ≠ e.2 → exec e.1 s = .next s) ∧
    (s.run.haltDue cid = false → exec (.haltDeadline cid) s = .next s) ∧
    (s.run.saveLate cid = false → exec (.savetime cid) s = .next s) ∧
    (∀ n w p, s.run.waves.get? n = some w →
      (w.preTrap = false ∨ w.priv = true → exec (.preemptTrap n) s = .next s) ∧
      (w.preTrap = true → w.priv = false → s.run.cur.wave ≠ n → w.nextPart = some p → p.park = .run →
        Completes (exec (.preemptTrap n) s) (fun t => t.sys = s.sys ∧ (t.run.wave n).preTrap = false ∧
          ∃ r, r = takeTrap s.run n (w.groupOf p) p.pc (s.run.peek s.sys n p.pc) { cls := 14, sub := 2, mask := w.groupOf p } ∧
            t.run = r.onWave n (fun u => { u with
              preTrap := false, sup := match u.sup with | e :: es => { e with keep := none } :: es | [] => [] }))))) ∧
  (
  (∀ (s : State) (cid : Nat) (c : Ctx), s.run.ctxs.get? cid = some c → c.frozen = none →
    let frozen (i : Instr) (reason : Nat) : Prop := Completes (exec i s) (fun t => t.sys = s.sys ∧
      (t.run.ctx cid).frozen = some reason ∧ (t.run.ctx cid).step = 4 ∧ (t.run.ctx cid).done = true ∧ (t.run.ctx cid).saved = [] ∧
      (∀ e ∈ t.run.blocks, e.2.ctx ≠ cid) ∧ (∀ e ∈ t.run.launches, e.2.ctx ≠ cid) ∧
      (∀ q x, s.run.queues.get? q = some x → x.part = c.part → x.tenant = c.tenant →
        (t.run.queue q).mapped = false ∧ ∀ d ∈ (t.run.queue q).cmds, ∃ n, d.st = .complete n))
    (∀ z, (z = none → bits c.preempt 0 3 = 4) → frozen (.preemptCapture cid z) 6) ∧ (s.run.saveLate cid = true → frozen (.savetime cid) 2) ∧
    ∀ reason, frozen (.freeze c.part c.tenant reason) reason.toNat) ∧
  (∀ (s : State) (part tenant : Nat), Completes (exec (.tenantRelease part tenant) s) (fun t => t.sys = s.sys ∧ { t.run with ctxs := s.run.ctxs } = s.run ∧
    ∀ cid c, s.run.ctxs.get? cid = some c →
      ((c.part ≠ part ∨ c.tenant ≠ tenant ∨ c.frozen = none) → t.run.ctxs.get? cid = some c) ∧
      (c.part = part → c.tenant = tenant → c.frozen ≠ none → (t.run.ctx cid).frozen = none ∧ (t.run.ctx cid).running = false ∧ (t.run.ctx cid).quota = c.quotaMax ∧
        (t.run.ctx cid).step = 0 ∧ (t.run.ctx cid).done = false))))

/-- The restore and the switch (R498, R527, R528): a context that runs and is done with its step has REQ, STEP and DONE back at 0, and keeps
saved only what found no place; at the end of a quantum a context with another waiting is asked to halt, one alone begins a new quantum, and
one that is done gives the partition, scrubbed, to the next; a quantum that is set stays within 100 µs and 1 s. -/
def Obligations.RestoreAndSwitch : Prop :=
  (∀ (s : State) (cid : Nat) (c : Ctx), s.run.ctxs.get? cid = some c →
    ((c.frozen ≠ none ∨ c.running = false ∨ s.sys.valid = false ∨ (c.step ≠ 0 ∧ c.done = false)) → exec (.contextRestore cid) s = .next s) ∧
    (c.frozen = none → c.running = true → s.sys.valid = true → (c.step = 0 ∨ c.done = true) →
      Completes (exec (.contextRestore cid) s) (fun t => t.sys = s.sys ∧ t.run.mem = s.run.mem ∧
        (t.run.ctx cid).step = 0 ∧ (t.run.ctx cid).done = false ∧ bits (t.run.ctx cid).preempt 0 3 = 0 ∧
        (∀ n ∈ (t.run.ctx cid).saved, ∃ z ∈ c.saved, n.launch = z.launch ∧ n.nbh = z.nbh ∧
          n.blocks.map (fun b => b.oldBlk) = z.blocks.map (fun b => b.oldBlk)) ∧
        (∀ k x, k ≠ cid → s.run.ctxs.get? k = some x → ∃ z, t.run.ctxs.get? k = some z ∧ { z with saved := x.saved } = x) ∧
        (t.run.ctx cid).savedCores = [] ∧
        (c.saved = [] → c.savedCores = [] → { t.run with ctxs := s.run.ctxs } = s.run)))) ∧
  (∀ (s : State) (p us : Nat),
    let r := s.run.onPart p (fun q => { q with quantum := if us < 100 then 100 else if 1000000 < us then 1000000 else us })
    exec (.quantumEnd p (some us)) s = .next { s with run := r }) ∧
  (∀ (s : State) (p : Nat), let nxt := s.run.nextCtx p (s.run.part p).runCtx
    (∀ c, (s.run.part p).runCtx = some c → (s.run.ctx c).done = false →
      (∀ d, nxt = some d → d ≠ c → exec (.quantumEnd p none) s = .next { s with run := preemptStep s.sys s.run c 2 }) ∧
      ((nxt = some c ∨ nxt = none) → exec (.quantumEnd p none) s = .next { s with run := s.run.onPart p (fun q => { q with qStart := s.run.clk }) })) ∧
    (∀ c x, (s.run.part p).runCtx = some c → s.run.ctxs.get? c = some x → x.done = true → nxt = none → Completes (exec (.quantumEnd p none) s) (fun t =>
      (t.run.part p).runCtx = none ∧ (t.run.ctx c).running = false ∧
      ∀ n, s.sys.partOf (dieOf n) = p → (t.run.core n).tlb = [] ∧ (t.run.core n).ro = [] ∧ (t.run.core n).acc = [] ∧
        (t.run.core n).deque = [] ∧ (t.run.core n).side = [])) ∧
    (∀ d x, (s.run.part p).runCtx = none → nxt = some d → s.run.ctxs.get? d = some x → x.saved = [] → Completes (exec (.quantumEnd p none) s) (fun t =>
      (t.run.part p).runCtx = some d ∧ (t.run.part p).qStart = s.run.clk ∧ (t.run.ctx d).running = true ∧ t.run.mem = s.run.mem)))

/-! ## Migration -/

/-- Live migration (R530 to R535): the first round turns logging on and sends every mapped page, every later one swaps the bitmaps and sends
the pages marked in the old one, as they are, once no access of the partition is under way; the stop waits for the collectives and the halt,
then the blackout begins, with the queues and the COPY commands of the log in the final transfer; its end rebinds the device number, has the
peers' route sets changed, and sends on what was held, in order, and the queues, queue pairs and collectives leave the source. At the
destination the items of the final transfer are taken in: queue pairs, COPY commands to be executed again, pages that are missing. A page left
behind, once it has come, is written to its frame and its leaf mapped with the last of them; one that never comes freezes the tenant. -/
def Obligations.Migration : Prop :=
  ∀ (s : State) (cid : Nat) (c : Ctx), s.run.ctxs.get? cid = some c →
    let others (t : State) : Prop := t.sys = s.sys ∧ ∀ k, k ≠ cid → t.run.ctxs.get? k = s.run.ctxs.get? k
    let swapped (c : Ctx) : Ctx := { c with one := !c.one }
    let cleared (c : Ctx) : Ctx := if c.one then { c with dirty0 := [], roundDue := false } else { c with dirty1 := [], roundDue := false }
    let sent (gs : List Nat) (xs : List Out) : Prop := ∀ (g : Nat) (f : Leaf), g ∈ gs → walk2 s.run.mem (g * 65536) false levels c.hostRoot = .ok f →
      let pa := f.addr + g * 65536 % f.size
      s.sys.owns c.part pa = true → ∃ bs : List Byte, Out.page (g * 65536) bs ∈ xs ∧ bs.length = 65536 ∧
        ∀ i, i < 65536 → s.sys.owns c.part (pa + i / 8192 * 8192) = true → bs.getD i 0 = memGet s.run.mem (pa + i)
    let round (c0 : Ctx) (gs : List Nat) : Prop :=
      (s.run.farBusy c.part = false → Completes (exec (.migrationRound cid) s) (fun t => others t ∧ t.run.mem = s.run.mem ∧
        t.run.blocks = s.run.blocks ∧ t.run.ctxs.get? cid = some (cleared c0) ∧ ∃ xs, t.run.out = s.run.out ++ xs ∧ sent gs xs)) ∧
      (s.run.farBusy c.part = true → Completes (exec (.migrationRound cid) s) (fun t => others t ∧ { t.run with ctxs := s.run.ctxs } = s.run ∧
        t.run.ctxs.get? cid = some { c0 with roundDue := true }))
    let mapped := mappedPages s.run.mem levels c.hostRoot 0
    (c.mig = .off → c.roundDue = false →
      let marked : Ctx := if c.one then { c with dirty1 := mapped } else { c with dirty0 := mapped }
      round (swapped { marked with logging := true, mig := .rounds }) mapped) ∧
    (c.mig = .rounds → (c.roundDue = false → round (swapped c) c.dirty) ∧ (c.roundDue = true → round c c.oldDirty)) ∧
    ((c.mig = .rounds ∨ c.mig = .stopping) →
      (s.run.collBusy cid = true → exec (.migrationStop cid) s = .next { s with run := s.run.onCtx cid (fun c => { c with mig := .stopping }) }) ∧
      (s.run.collBusy cid = false → c.done = true → 2 ≤ c.step → c.frozen = none → Completes (exec (.migrationStop cid) s) (fun t =>
        (t.run.ctx cid).mig = .blackout ∧ ∀ n x, s.run.queues.get? n = some x → x.part = c.part → x.tenant = c.tenant →
          (∃ vs, Out.transfer 1 (n :: x.rptr :: vs) [] ∈ t.run.out) ∧
          ∀ d ∈ x.cmds, d.ty = 2 → d.st = .started → Out.transfer 7 [n, d.k] (d.words.flatMap (fun w => leBytes w.toNat 8)) ∈ t.run.out))) ∧
    (c.mig = .blackout → Completes (exec (.blackoutEnd cid []) s) (fun t => (t.run.ctx cid).mig = .moved ∧ (t.run.ctx cid).hold = [] ∧
      (t.run.ctx cid).logging = false ∧
      t.run.out = s.run.out ++ Out.rebind (s.run.part c.part).dev :: Out.reroute (s.run.part c.part).dev :: c.hold.map Out.held ∧
      (∀ n x, s.run.queues.get? n = some x → x.part = c.part → x.tenant = c.tenant → (t.run.queue n).mapped = false) ∧
      (∀ e ∈ (t.run.part c.part).qps, e.2.ctx ≠ cid) ∧ ∀ e ∈ (t.run.part c.part).colls, e.2.ctx ≠ cid)) ∧
    (c.mig ≠ .blackout → exec (.blackoutEnd cid []) s = .next s) ∧
    (c.mig ≠ .off → ∀ z zs, exec (.blackoutEnd cid (z :: zs)) s = .next s) ∧
    (c.mig = .off →
      (∀ qp mtu seq bs, Completes (exec (.blackoutEnd cid [⟨2, [qp, mtu, seq], bs⟩]) s) (fun t => t.run.mem = s.run.mem ∧
        (t.run.part c.part).qps.get? qp = some { ctx := cid, mtu := mtu, expect := seq })) ∧
      (∀ n x k bs, s.run.queues.get? n = some x → Completes (exec (.blackoutEnd cid [⟨7, [n, k], bs⟩]) s) (fun t => t.run.mem = s.run.mem ∧
        ∃ d ∈ (t.run.queue n).cmds, d.k = k ∧ d.st = .fetched ∧ d.words = (List.range 8).map (fun i => BitVec.ofNat 64 (ofLe ((bs.drop (8 * i)).take 8))))) ∧
      ∀ g a size bs, descAt s.run.mem (g * 65536) levels c.hostRoot = some (a, size) →
        Completes (exec (.blackoutEnd cid [⟨9, [g], bs⟩]) s) (fun t => g ∈ (t.run.ctx cid).missing ∧
          (memGet t.run.mem a).getLsbD 0 = false ∧ (memGet t.run.mem a).getLsbD 6 = true ∧
          ∀ x, (x < a ∨ a + 8 ≤ x) → memGet t.run.mem x = memGet s.run.mem x)) ∧
    (∀ (g : Nat) (page : List Byte) (a size : Nat), g ∈ c.missing → page.length = 65536 → descAt s.run.mem (g * 65536) levels c.hostRoot = some (a, size) →
      let pa := bits (BitVec.ofNat 64 (memRead s.run.mem a 8) : Word64) 16 36 * 65536 + g * 65536 % size
      let left := c.missing.filter (fun x => x ≠ g)
      (∀ i, i < 8 → s.sys.owns c.part (pa + 8192 * i) = true) → Completes (exec (.postcopyPull cid (g * 65536) page) s) (fun t => others t ∧
        t.run.ctxs.get? cid = some { c with missing := left, pulls := c.pulls.filter (fun e => e.1 ≠ g) } ∧
        (left = [] → Out.arrived (s.run.part c.part).dev ∈ t.run.out) ∧
        ((∀ h ∈ left, h * 65536 / size ≠ g * 65536 / size) → (memGet t.run.mem a).getLsbD 0 = true ∧ (memGet t.run.mem a).getLsbD 6 = false) ∧
        ∀ x, (x < a ∨ a + 8 ≤ x) → memGet t.run.mem x = if pa ≤ x ∧ x < pa + 65536 then page.getD (x - pa) 0 else memGet s.run.mem x)) ∧
    (∀ g page, g ∉ c.missing → exec (.postcopyPull cid (g * 65536) page) s = .next s) ∧
    (∀ site, s.run.lostAt s.sys site = none → exec (.pullTimeout site) s = .next s) ∧
    (∀ site, s.run.lostAt s.sys site = some cid → (∃ p ∈ c.pulls, p.1 ∈ c.missing ∧ p.2 + c.ftoCycles ≤ s.run.clk) ∧
      (c.frozen = none → Completes (exec (.pullTimeout site) s) (fun t => (t.run.ctx cid).frozen = some 5)))

/-! ## The Inn -/

/-- The firewall set (R27, R524 to R526): FWPMAP takes a map of one of the shapes R27 allows, once the Inn is ready, while no context runs on a
die whose partition changes, and where the shares it gives stand together and the device numbers differ (log entry 74: another request leaves
everything as it is): each die's partition is named by the lowest die it holds, VALID is 1, each boundary CLOSED exactly where its dies lie in
different partitions, DROPS 0, a partition that changes has the share asked for or none, and its device number; contexts that run elsewhere,
their cores and partitions stay. FWBND takes the value the map wants; FWLP takes, for a partition that is there, a share within the tier that
meets no other, while no context of the partition runs. -/
def Obligations.FirewallWrites : Prop :=
  ∀ (s : State),
    let y := s.sys
    (∀ q : PartReq,
      let i : Instr := .fwpmapWrite q
      let changes (d : Nat) : Bool := !y.valid || mates (mapOf y) d ≠ mates q.pd d
      let lowest (d : Nat) : Nat := (mates q.pd d).headD d
      let isPart (n : Nat) : Bool := n < 4 && lowest n = n
      let asked (n : Nat) : Word64 := match q.lp.getD n none with | some (b, z, w) => BitVec.ofNat 64 (b + z * 256 + w * 65536) | none => 0
      let share (n : Nat) : Word64 := if isPart n then (if changes n then asked n else y.lp.getD n 0) else 0
      let fits (n b z w : Nat) : Prop := b < 256 ∧ b + z ≤ 125 ∧
        (∀ m, m < 4 → m ≠ n → z = 0 ∨ bits (share m) 8 8 = 0 ∨ b + z ≤ bits (share m) 0 8 ∨ bits (share m) 0 8 + bits (share m) 8 8 ≤ b) ∧
        (([0, 1, 2, 3].filter (fun m => m ≠ n)).map (fun m => bits (share m) 16 8)).sum + w ≤ 100
      let together : Prop := ∀ n b z w, isPart n = true → changes n = true → q.lp.getD n none = some (b, z, w) → fits n b z w
      let dev (n : Nat) : Nat := if changes n then q.dev.getD n n else (s.run.part n).dev
      let distinct : Prop := ∀ m n, isPart m = true → isPart n = true → m ≠ n → dev m ≠ dev n
      let runs : Prop := ∃ e ∈ s.run.ctxs, e.2.running = true ∧ ∃ d, d < 4 ∧ d ∈ y.diesOf e.2.part ∧ changes d = true
      (y.ready = false ∨ shapeOk q.pd = false ∨ (y.valid = true ∧ runs) ∨ ¬together ∨ ¬distinct → exec i s = .next s) ∧
      (y.ready = true → shapeOk q.pd = true → (y.valid = true → ¬runs) → together → distinct → Completes (exec i s) (fun t =>
        t.run.mem = s.run.mem ∧ t.run.waves = s.run.waves ∧ t.run.ctxs = s.run.ctxs ∧ t.sys.valid = true ∧
        mapOf t.sys = [0, 1, 2, 3].map (fun d => BitVec.ofNat 2 (lowest d)) ∧ t.sys.lp = [0, 1, 2, 3].map share ∧ t.sys.boot = y.boot ∧
        t.sys.bnd = [0, 1, 2, 3].map (fun n => if t.sys.splits n then 1 else 0) ∧
        (∀ n, (isPart n = true ∧ changes n = true → (t.run.part n).dev = q.dev.getD n n ∧ (t.run.part n).cap = 600 * (mates q.pd n).length) ∧
          (isPart n = false ∨ changes n = false → t.run.part n = s.run.part n)) ∧
        ∀ n, (changes (dieOf n) = true ∧ dieOf n < 4 → (t.run.core n).tlb = [] ∧ (t.run.core n).ro = []) ∧
          (changes (dieOf n) = false → t.run.core n = s.run.core n)))) ∧
    (∀ n b, (y.ready = false ∨ 4 ≤ n ∨ b ≠ y.splits n → exec (.fwbndWrite n b) s = .next s) ∧
      (y.ready = true → n < 4 → b = y.splits n → exec (.fwbndWrite n b) s = .next { s with sys := { y with bnd := y.bnd.set n (if b then 1 else 0) } })) ∧
    (∀ n base size bw,
      let meets : Prop := ∃ m, m < 4 ∧ m ≠ n ∧ size ≠ 0 ∧ bits (y.lp.getD m 0) 8 8 ≠ 0 ∧
        base < bits (y.lp.getD m 0) 0 8 + bits (y.lp.getD m 0) 8 8 ∧ bits (y.lp.getD m 0) 0 8 < base + size
      let total := (([0, 1, 2, 3].filter (fun m => m ≠ n)).map (fun m => bits (y.lp.getD m 0) 16 8)).sum + bw
      (y.ready = false ∨ 4 ≤ n ∨ y.partOf n ≠ n ∨ meets ∨ 100 < total ∨ 125 < base + size ∨
          (∃ e ∈ s.run.ctxs, e.2.part = n ∧ e.2.running = true) → exec (.fwlpWrite n base size bw) s = .next s) ∧
      (y.ready = true → n < 4 → y.partOf n = n → ¬meets → total ≤ 100 → base + size ≤ 125 → (∀ e ∈ s.run.ctxs, e.2.part = n → e.2.running = false) →
        exec (.fwlpWrite n base size bw) s = .next { s with sys := { y with lp := y.lp.set n (BitVec.ofNat 64 (base + size * 256 + bw * 65536)) } }))

/-- Boot (R540, R541): the boot ROM takes slot A, else slot B, whose signature is good and whose version is not below the counter, else
enters recovery; the stages run in order until one fails; all passing, the measurements are the digests, each die is a partition of its own
and every boundary CLOSED, as reset leaves them, the map is in force, the Device and Alias keys come from the first and the last CDI, the Inn's
trap table stands at its place, and the Inn reports ready. Memory is kept unless power was lost;
nothing is resident. An image is loaded in recovery alone. -/
def Obligations.BootChain : Prop :=
  ∀ (s : State) (dbg : Bool),
    let y := s.sys
    let passes (i : Image) : Prop := i.sigOk = true ∧ y.rollback ≤ i.version
    let booted (P : State → Prop) : Prop := Completes (exec (.boot dbg) s) (fun t => t.sys.boots = y.boots + 1 ∧ t.run.waves = [] ∧
      t.run.blocks = [] ∧ t.run.ctxs = [] ∧ t.run.mem = (if s.run.down then [] else s.run.mem) ∧ t.sys.bnd = [1, 1, 1, 1] ∧ t.sys.lp = [0, 0, 0, 0] ∧
      (∃ e ∈ t.run.bb, e.ty = 3 ∧ e.seq = s.run.bbNext) ∧ P t)
    (¬passes y.slotA → ¬passes y.slotB → booted (fun t => t.sys.boot = .recovery ∧ t.sys.valid = false ∧ t.run.out = s.run.out)) ∧
    (∀ first, ((passes y.slotA ∧ first = y.slotA) ∨ (¬passes y.slotA ∧ passes y.slotB ∧ first = y.slotB)) →
      ((∀ i ∈ y.stages, passes i) → booted (fun t => t.sys.boot = .ready ∧ t.sys.pmap = 0x1E4 ∧ t.run.out = s.run.out ++ [.ready] ∧
        t.sys.measured = first.digest :: y.stages.map (·.digest) ∧ t.sys.jtag = dbg ∧
        (let cdi := Config.hmac Config.uds first.digest
         t.sys.devId = Config.keyOf cdi ∧ t.sys.alias_ = Config.keyOf ((y.stages.map (·.digest)).foldl Config.hmac cdi)) ∧
        t.run.table = Config.trapTable ++ 0#12 ∧ ∀ d, d < 4 → (t.run.part d).dev = d ∧ (t.run.part d).slots = 32)) ∧
      (∀ pre i post, y.stages = pre ++ i :: post → (∀ x ∈ pre, passes x) → ¬passes i → booted (fun t =>
        t.sys.boot = .failed (pre.length + 2) ∧ t.sys.valid = false ∧ t.run.out = s.run.out ∧
        t.sys.measured = first.digest :: pre.map (·.digest) ∧ t.sys.jtag = false))) ∧
    (∀ n i, (y.boot ≠ .recovery → exec (.recoveryImageLoad n i) s = .next s) ∧
      (y.boot = .recovery →
        (n = 1 → exec (.recoveryImageLoad n i) s = .next { s with sys := { y with slotA := i } }) ∧
        (n = 0 → exec (.recoveryImageLoad n i) s = .next { s with sys := { y with slotB := i } }) ∧
        (2 ≤ n → exec (.recoveryImageLoad n i) s = .next { s with sys := { y with stages := y.stages.set (n - 2) i } })))

/-- Power, temperature and failing units (R537, R542 to R544): the average of 1 ms moves every die of the partition one step of duty; a die
above 95 °C loses duty, at 105 °C issues nothing, and at 110 °C, or without coolant, every tenant is frozen and the module powers down; an
excursion of the supply is noted and reported; a failing slice or cluster is due to be mapped out, and the tenant that read a lost line
frozen; a capability fault of the Inn stops the queue whose record it worked on. -/
def Obligations.HealthSteps : Prop :=
  (∀ (s : State) (p w : Nat), Completes (exec (.powerAverage p w) s) (fun t => t.sys = s.sys ∧ { t.run with dies := s.run.dies } = s.run ∧
    ∀ d, t.run.die d = if d ∈ s.sys.diesOf p then
        (if (s.run.part p).cap < w then { s.run.die d with duty := (s.run.die d).duty - 1 }
        else if w * 100 < (s.run.part p).cap * 95 ∧ (s.run.die d).hot = 0 then { s.run.die d with duty := min 16 ((s.run.die d).duty + 1) }
        else s.run.die d)
      else s.run.die d)) ∧
  (∀ (s : State) (die t sensor : Nat), t < 110 → Completes (exec (.thermalReading die t sensor) s) (fun u => u.sys = s.sys ∧
    u.run.mem = s.run.mem ∧ u.run.waves = s.run.waves ∧ (∀ d, d ≠ die → u.run.die d = s.run.die d) ∧
    let x := s.run.die die
    (105 ≤ t → u.run.die die = { x with hot := 2 } ∧ (x.hot ≠ 2 → ∃ e ∈ u.run.bb, e.ty = 5 ∧ e.seq = s.run.bbNext)) ∧
    (t < 105 → u.run.bb = s.run.bb ∧ (100 ≤ t → x.hot = 2 → u.run.die die = x) ∧
      (95 ≤ t → (x.hot ≠ 2 ∨ t < 100) → u.run.die die = { x with hot := 1, duty := x.duty - 1 }) ∧
      (t < 92 → u.run.die die = { x with hot := 0 })))) ∧
  (∀ (s : State) (die t sensor : Nat), 110 ≤ t → ∀ i ∈ [Instr.thermalReading die t sensor, .coolantFlowLoss],
    (s.run.down = true → exec i s = .next s) ∧
    (s.run.down = false → Completes (exec i s) (fun u => u.run.down = true ∧ Out.powerDown ∈ u.run.out ∧
      ∀ cid c, s.run.ctxs.get? cid = some c → c.frozen = none → (u.run.ctx cid).frozen = some 7))) ∧
  (∀ (s : State) (dom mil : Nat), (mil ≤ 50 → exec (.supplyExcursion dom mil) s = .next s) ∧
    (50 < mil → Completes (exec (.supplyExcursion dom mil) s) (fun t => t.run.mem = s.run.mem ∧ t.run.out = s.run.out ++ [.alert 5 dom, .manage 5 dom 5] ∧
      ∃ e ∈ t.run.bb, e.ty = 4 ∧ e.detail = (dom * 65536 + min 0xFFFF mil) % 2 ^ 32))) ∧
  (∀ (s : State) (die slice : Nat), let n := die * 64 + slice
    (∀ c x, s.run.ctxs.get? c = some x → x.frozen = none → x.running = true → x.part = s.sys.partOf die → n ∉ s.run.outSlices →
      Completes (exec (.eccError die slice true (some c)) s) (fun t => t.sys = s.sys ∧ (t.run.ctx c).frozen = some 4 ∧ n ∈ t.run.sickSlices)) ∧
    (SMap.get 0 s.run.eccAt n = 0 → s.run.sickSlices = [] → Completes (exec (.eccError die slice false none) s) (fun t => t.sys = s.sys ∧
      { t.run with eccAt := s.run.eccAt } = s.run ∧ SMap.get 0 t.run.eccAt n = s.run.us + 1)) ∧
    (∀ l, SMap.get 0 s.run.eccAt n = l + 1 → s.run.us < l + 1000000 → (∃ e ∈ s.run.ctxs, e.2.part = s.sys.partOf die ∧ e.2.running = true) →
      n ∉ s.run.outSlices → Completes (exec (.eccError die slice false none) s) (fun t => t.run.mem = s.run.mem ∧ n ∈ t.run.sickSlices ∧
        t.run.outSlices = s.run.outSlices))) ∧
  (∀ (s : State) (die cluster : Nat), Completes (exec (.clusterUnitFault die cluster) s) (fun t => t.sys = s.sys ∧ t.run.mem = s.run.mem ∧
    t.run.waves = s.run.waves ∧ t.run.blocks = s.run.blocks ∧ die * 40 + cluster ∈ t.run.sick)) ∧
  (∀ (s : State), exec (.innCapabilityFault none) s = .next s) ∧
  (∀ (s : State) (n k : Nat) (x : Queue) (c : Cmd), s.run.queues.get? n = some x → x.cmds.find? (fun d => d.k = k) = some c → c.doneAt = 0 →
    Completes (exec (.innCapabilityFault (some (n, k))) s) (fun t => t.run.queue n = { x with
        stopped := true, cmds := x.cmds.filter (fun d => d.k ≠ k) } ∧
      memRead t.run.mem (x.qcb + 0x20) 4 = 1 ∧ ∀ a, (a < x.qcb + 0x20 ∨ x.qcb + 0x24 ≤ a) → memGet t.run.mem a = memGet s.run.mem a))
end

