-- ==== Sys2Proof/Laws/State.lean ====
section
/-! SUPPORT. What each update of the state's records leaves in each field: one lemma per field per update. -/

namespace Sys2Proof.Machine

@[simp] theorem Wave.setV_life (w : Wave) (n : Nat) (m : Lanes) (f : Nat → Word) : (w.setV n m f).life = w.life := rfl
@[simp] theorem Wave.setV_stream (w : Wave) (n : Nat) (m : Lanes) (f : Nat → Word) : (w.setV n m f).stream = w.stream := rfl
@[simp] theorem Wave.setV_blk (w : Wave) (n : Nat) (m : Lanes) (f : Nat → Word) : (w.setV n m f).blk = w.blk := rfl
@[simp] theorem Wave.setV_index (w : Wave) (n : Nat) (m : Lanes) (f : Nat → Word) : (w.setV n m f).index = w.index := rfl
@[simp] theorem Wave.setV_stage (w : Wave) (n : Nat) (m : Lanes) (f : Nat → Word) : (w.setV n m f).stage = w.stage := rfl
@[simp] theorem Wave.setV_placed (w : Wave) (n : Nat) (m : Lanes) (f : Nat → Word) : (w.setV n m f).placed = w.placed := rfl
@[simp] theorem Wave.setV_parts (w : Wave) (n : Nat) (m : Lanes) (f : Nat → Word) : (w.setV n m f).parts = w.parts := rfl
@[simp] theorem Wave.setV_held (w : Wave) (n : Nat) (m : Lanes) (f : Nat → Word) : (w.setV n m f).held = w.held := rfl
@[simp] theorem Wave.setV_waiting (w : Wave) (n : Nat) (m : Lanes) (f : Nat → Word) : (w.setV n m f).waiting = w.waiting := rfl
@[simp] theorem Wave.setV_v (w : Wave) (n : Nat) (m : Lanes) (f : Nat → Word) : (w.setV n m f).v = w.v.set zeroRow n (rowMix (w.vRow n) m f) := rfl
@[simp] theorem Wave.setV_s (w : Wave) (n : Nat) (m : Lanes) (f : Nat → Word) : (w.setV n m f).s = w.s := rfl
@[simp] theorem Wave.setV_p (w : Wave) (n : Nat) (m : Lanes) (f : Nat → Word) : (w.setV n m f).p = w.p := rfl
@[simp] theorem Wave.setV_a (w : Wave) (n : Nat) (m : Lanes) (f : Nat → Word) : (w.setV n m f).a = w.a := rfl
@[simp] theorem Wave.setV_m (w : Wave) (n : Nat) (m : Lanes) (f : Nat → Word) : (w.setV n m f).m = w.m := rfl
@[simp] theorem Wave.setV_vEmpty (w : Wave) (n : Nat) (m : Lanes) (f : Nat → Word) : (w.setV n m f).vEmpty = w.vEmpty.set 0 n (SMap.get 0 w.vEmpty n &&& ~~~m) := rfl
@[simp] theorem Wave.setV_vInd (w : Wave) (n : Nat) (m : Lanes) (f : Nat → Word) : (w.setV n m f).vInd = w.vInd.set 0 n (SMap.get 0 w.vInd n &&& ~~~m) := rfl
@[simp] theorem Wave.setV_sEmpty (w : Wave) (n : Nat) (m : Lanes) (f : Nat → Word) : (w.setV n m f).sEmpty = w.sEmpty := rfl
@[simp] theorem Wave.setV_sInd (w : Wave) (n : Nat) (m : Lanes) (f : Nat → Word) : (w.setV n m f).sInd = w.sInd := rfl
@[simp] theorem Wave.setV_valloc (w : Wave) (n : Nat) (m : Lanes) (f : Nat → Word) : (w.setV n m f).valloc = w.valloc := rfl
@[simp] theorem Wave.setV_acquired (w : Wave) (n : Nat) (m : Lanes) (f : Nat → Word) : (w.setV n m f).acquired = w.acquired := rfl
@[simp] theorem Wave.setV_fpcr (w : Wave) (n : Nat) (m : Lanes) (f : Nat → Word) : (w.setV n m f).fpcr = w.fpcr := rfl
@[simp] theorem Wave.setV_fpsr (w : Wave) (n : Nat) (m : Lanes) (f : Nat → Word) : (w.setV n m f).fpsr = w.fpsr := rfl
@[simp] theorem Wave.setV_sched (w : Wave) (n : Nat) (m : Lanes) (f : Nat → Word) : (w.setV n m f).sched = w.sched := rfl
@[simp] theorem Wave.setV_rgn (w : Wave) (n : Nat) (m : Lanes) (f : Nat → Word) : (w.setV n m f).rgn = w.rgn := rfl
@[simp] theorem Wave.setV_epc (w : Wave) (n : Nat) (m : Lanes) (f : Nat → Word) : (w.setV n m f).epc = w.epc := rfl
@[simp] theorem Wave.setV_cause (w : Wave) (n : Nat) (m : Lanes) (f : Nat → Word) : (w.setV n m f).cause = w.cause := rfl
@[simp] theorem Wave.setV_sepc (w : Wave) (n : Nat) (m : Lanes) (f : Nat → Word) : (w.setV n m f).sepc = w.sepc := rfl
@[simp] theorem Wave.setV_scause (w : Wave) (n : Nat) (m : Lanes) (f : Nat → Word) : (w.setV n m f).scause = w.scause := rfl
@[simp] theorem Wave.setV_utrap (w : Wave) (n : Nat) (m : Lanes) (f : Nat → Word) : (w.setV n m f).utrap = w.utrap := rfl
@[simp] theorem Wave.setV_handler (w : Wave) (n : Nat) (m : Lanes) (f : Nat → Word) : (w.setV n m f).handler = w.handler := rfl
@[simp] theorem Wave.setV_frame (w : Wave) (n : Nat) (m : Lanes) (f : Nat → Word) : (w.setV n m f).frame = w.frame := rfl
@[simp] theorem Wave.setV_sup (w : Wave) (n : Nat) (m : Lanes) (f : Nat → Word) : (w.setV n m f).sup = w.sup := rfl
@[simp] theorem Wave.setV_seq (w : Wave) (n : Nat) (m : Lanes) (f : Nat → Word) : (w.setV n m f).seq = w.seq := rfl
@[simp] theorem Wave.setV_pend (w : Wave) (n : Nat) (m : Lanes) (f : Nat → Word) : (w.setV n m f).pend = w.pend := rfl
@[simp] theorem Wave.setV_pendNext (w : Wave) (n : Nat) (m : Lanes) (f : Nat → Word) : (w.setV n m f).pendNext = w.pendNext := rfl
@[simp] theorem Wave.setV_young (w : Wave) (n : Nat) (m : Lanes) (f : Nat → Word) : (w.setV n m f).young = w.young := rfl
@[simp] theorem Wave.setV_fpTill (w : Wave) (n : Nat) (m : Lanes) (f : Nat → Word) : (w.setV n m f).fpTill = w.fpTill := rfl
@[simp] theorem Wave.setV_late (w : Wave) (n : Nat) (m : Lanes) (f : Nat → Word) : (w.setV n m f).late = w.late := rfl
@[simp] theorem Wave.setV_mon (w : Wave) (n : Nat) (m : Lanes) (f : Nat → Word) : (w.setV n m f).mon = w.mon := rfl
@[simp] theorem Wave.setV_decl (w : Wave) (n : Nat) (m : Lanes) (f : Nat → Word) : (w.setV n m f).decl = w.decl := rfl
@[simp] theorem Wave.setV_slot0 (w : Wave) (n : Nat) (m : Lanes) (f : Nat → Word) : (w.setV n m f).slot0 = w.slot0 := rfl
@[simp] theorem Wave.setV_slot1 (w : Wave) (n : Nat) (m : Lanes) (f : Nat → Word) : (w.setV n m f).slot1 = w.slot1 := rfl
@[simp] theorem Wave.setV_active (w : Wave) (n : Nat) (m : Lanes) (f : Nat → Word) : (w.setV n m f).active = w.active := rfl
@[simp] theorem Wave.setV_rounds (w : Wave) (n : Nat) (m : Lanes) (f : Nat → Word) : (w.setV n m f).rounds = w.rounds := rfl
@[simp] theorem Wave.setV_acks (w : Wave) (n : Nat) (m : Lanes) (f : Nat → Word) : (w.setV n m f).acks = w.acks := rfl
@[simp] theorem Wave.setV_remote (w : Wave) (n : Nat) (m : Lanes) (f : Nat → Word) : (w.setV n m f).remote = w.remote := rfl
@[simp] theorem Wave.setV_marked (w : Wave) (n : Nat) (m : Lanes) (f : Nat → Word) : (w.setV n m f).marked = w.marked := rfl
@[simp] theorem Wave.setV_stall (w : Wave) (n : Nat) (m : Lanes) (f : Nat → Word) : (w.setV n m f).stall = w.stall := rfl
@[simp] theorem Wave.setV_turn (w : Wave) (n : Nat) (m : Lanes) (f : Nat → Word) : (w.setV n m f).turn = w.turn := rfl
@[simp] theorem Wave.setV_yielded (w : Wave) (n : Nat) (m : Lanes) (f : Nat → Word) : (w.setV n m f).yielded = w.yielded := rfl
@[simp] theorem Wave.setV_pwrTaken (w : Wave) (n : Nat) (m : Lanes) (f : Nat → Word) : (w.setV n m f).pwrTaken = w.pwrTaken := rfl
@[simp] theorem Wave.setV_pwrOwed (w : Wave) (n : Nat) (m : Lanes) (f : Nat → Word) : (w.setV n m f).pwrOwed = w.pwrOwed := rfl
@[simp] theorem Wave.setV_preTrap (w : Wave) (n : Nat) (m : Lanes) (f : Nat → Word) : (w.setV n m f).preTrap = w.preTrap := rfl
@[simp] theorem Wave.setV_objs (w : Wave) (n : Nat) (m : Lanes) (f : Nat → Word) : (w.setV n m f).objs = w.objs := rfl
@[simp] theorem Wave.setV_contWave (w : Wave) (n : Nat) (m : Lanes) (f : Nat → Word) : (w.setV n m f).contWave = w.contWave := rfl
@[simp] theorem Wave.setV_emu (w : Wave) (n : Nat) (m : Lanes) (f : Nat → Word) : (w.setV n m f).emu = w.emu := rfl
@[simp] theorem Wave.setS_life (w : Wave) (n : Nat) (x : Word64) : (w.setS n x).life = w.life := rfl
@[simp] theorem Wave.setS_stream (w : Wave) (n : Nat) (x : Word64) : (w.setS n x).stream = w.stream := rfl
@[simp] theorem Wave.setS_blk (w : Wave) (n : Nat) (x : Word64) : (w.setS n x).blk = w.blk := rfl
@[simp] theorem Wave.setS_index (w : Wave) (n : Nat) (x : Word64) : (w.setS n x).index = w.index := rfl
@[simp] theorem Wave.setS_stage (w : Wave) (n : Nat) (x : Word64) : (w.setS n x).stage = w.stage := rfl
@[simp] theorem Wave.setS_placed (w : Wave) (n : Nat) (x : Word64) : (w.setS n x).placed = w.placed := rfl
@[simp] theorem Wave.setS_parts (w : Wave) (n : Nat) (x : Word64) : (w.setS n x).parts = w.parts := rfl
@[simp] theorem Wave.setS_held (w : Wave) (n : Nat) (x : Word64) : (w.setS n x).held = w.held := rfl
@[simp] theorem Wave.setS_waiting (w : Wave) (n : Nat) (x : Word64) : (w.setS n x).waiting = w.waiting := rfl
@[simp] theorem Wave.setS_v (w : Wave) (n : Nat) (x : Word64) : (w.setS n x).v = w.v := rfl
@[simp] theorem Wave.setS_s (w : Wave) (n : Nat) (x : Word64) : (w.setS n x).s = w.s.set 0 n x := rfl
@[simp] theorem Wave.setS_p (w : Wave) (n : Nat) (x : Word64) : (w.setS n x).p = w.p := rfl
@[simp] theorem Wave.setS_a (w : Wave) (n : Nat) (x : Word64) : (w.setS n x).a = w.a := rfl
@[simp] theorem Wave.setS_m (w : Wave) (n : Nat) (x : Word64) : (w.setS n x).m = w.m := rfl
@[simp] theorem Wave.setS_vEmpty (w : Wave) (n : Nat) (x : Word64) : (w.setS n x).vEmpty = w.vEmpty := rfl
@[simp] theorem Wave.setS_vInd (w : Wave) (n : Nat) (x : Word64) : (w.setS n x).vInd = w.vInd := rfl
@[simp] theorem Wave.setS_sEmpty (w : Wave) (n : Nat) (x : Word64) : (w.setS n x).sEmpty = w.sEmpty &&& ~~~(1#128 <<< n) := rfl
@[simp] theorem Wave.setS_sInd (w : Wave) (n : Nat) (x : Word64) : (w.setS n x).sInd = w.sInd &&& ~~~(1#128 <<< n) := rfl
@[simp] theorem Wave.setS_valloc (w : Wave) (n : Nat) (x : Word64) : (w.setS n x).valloc = w.valloc := rfl
@[simp] theorem Wave.setS_acquired (w : Wave) (n : Nat) (x : Word64) : (w.setS n x).acquired = w.acquired := rfl
@[simp] theorem Wave.setS_fpcr (w : Wave) (n : Nat) (x : Word64) : (w.setS n x).fpcr = w.fpcr := rfl
@[simp] theorem Wave.setS_fpsr (w : Wave) (n : Nat) (x : Word64) : (w.setS n x).fpsr = w.fpsr := rfl
@[simp] theorem Wave.setS_sched (w : Wave) (n : Nat) (x : Word64) : (w.setS n x).sched = w.sched := rfl
@[simp] theorem Wave.setS_rgn (w : Wave) (n : Nat) (x : Word64) : (w.setS n x).rgn = w.rgn := rfl
@[simp] theorem Wave.setS_epc (w : Wave) (n : Nat) (x : Word64) : (w.setS n x).epc = w.epc := rfl
@[simp] theorem Wave.setS_cause (w : Wave) (n : Nat) (x : Word64) : (w.setS n x).cause = w.cause := rfl
@[simp] theorem Wave.setS_sepc (w : Wave) (n : Nat) (x : Word64) : (w.setS n x).sepc = w.sepc := rfl
@[simp] theorem Wave.setS_scause (w : Wave) (n : Nat) (x : Word64) : (w.setS n x).scause = w.scause := rfl
@[simp] theorem Wave.setS_utrap (w : Wave) (n : Nat) (x : Word64) : (w.setS n x).utrap = w.utrap := rfl
@[simp] theorem Wave.setS_handler (w : Wave) (n : Nat) (x : Word64) : (w.setS n x).handler = w.handler := rfl
@[simp] theorem Wave.setS_frame (w : Wave) (n : Nat) (x : Word64) : (w.setS n x).frame = w.frame := rfl
@[simp] theorem Wave.setS_sup (w : Wave) (n : Nat) (x : Word64) : (w.setS n x).sup = w.sup := rfl
@[simp] theorem Wave.setS_seq (w : Wave) (n : Nat) (x : Word64) : (w.setS n x).seq = w.seq := rfl
@[simp] theorem Wave.setS_pend (w : Wave) (n : Nat) (x : Word64) : (w.setS n x).pend = w.pend := rfl
@[simp] theorem Wave.setS_pendNext (w : Wave) (n : Nat) (x : Word64) : (w.setS n x).pendNext = w.pendNext := rfl
@[simp] theorem Wave.setS_young (w : Wave) (n : Nat) (x : Word64) : (w.setS n x).young = w.young := rfl
@[simp] theorem Wave.setS_fpTill (w : Wave) (n : Nat) (x : Word64) : (w.setS n x).fpTill = w.fpTill := rfl
@[simp] theorem Wave.setS_late (w : Wave) (n : Nat) (x : Word64) : (w.setS n x).late = w.late := rfl
@[simp] theorem Wave.setS_mon (w : Wave) (n : Nat) (x : Word64) : (w.setS n x).mon = w.mon := rfl
@[simp] theorem Wave.setS_decl (w : Wave) (n : Nat) (x : Word64) : (w.setS n x).decl = w.decl := rfl
@[simp] theorem Wave.setS_slot0 (w : Wave) (n : Nat) (x : Word64) : (w.setS n x).slot0 = w.slot0 := rfl
@[simp] theorem Wave.setS_slot1 (w : Wave) (n : Nat) (x : Word64) : (w.setS n x).slot1 = w.slot1 := rfl
@[simp] theorem Wave.setS_active (w : Wave) (n : Nat) (x : Word64) : (w.setS n x).active = w.active := rfl
@[simp] theorem Wave.setS_rounds (w : Wave) (n : Nat) (x : Word64) : (w.setS n x).rounds = w.rounds := rfl
@[simp] theorem Wave.setS_acks (w : Wave) (n : Nat) (x : Word64) : (w.setS n x).acks = w.acks := rfl
@[simp] theorem Wave.setS_remote (w : Wave) (n : Nat) (x : Word64) : (w.setS n x).remote = w.remote := rfl
@[simp] theorem Wave.setS_marked (w : Wave) (n : Nat) (x : Word64) : (w.setS n x).marked = w.marked := rfl
@[simp] theorem Wave.setS_stall (w : Wave) (n : Nat) (x : Word64) : (w.setS n x).stall = w.stall := rfl
@[simp] theorem Wave.setS_turn (w : Wave) (n : Nat) (x : Word64) : (w.setS n x).turn = w.turn := rfl
@[simp] theorem Wave.setS_yielded (w : Wave) (n : Nat) (x : Word64) : (w.setS n x).yielded = w.yielded := rfl
@[simp] theorem Wave.setS_pwrTaken (w : Wave) (n : Nat) (x : Word64) : (w.setS n x).pwrTaken = w.pwrTaken := rfl
@[simp] theorem Wave.setS_pwrOwed (w : Wave) (n : Nat) (x : Word64) : (w.setS n x).pwrOwed = w.pwrOwed := rfl
@[simp] theorem Wave.setS_preTrap (w : Wave) (n : Nat) (x : Word64) : (w.setS n x).preTrap = w.preTrap := rfl
@[simp] theorem Wave.setS_objs (w : Wave) (n : Nat) (x : Word64) : (w.setS n x).objs = w.objs := rfl
@[simp] theorem Wave.setS_contWave (w : Wave) (n : Nat) (x : Word64) : (w.setS n x).contWave = w.contWave := rfl
@[simp] theorem Wave.setS_emu (w : Wave) (n : Nat) (x : Word64) : (w.setS n x).emu = w.emu := rfl
@[simp] theorem Wave.setA_life (w : Wave) (n : Nat) (m : Lanes) (f : Nat → Word) : (w.setA n m f).life = w.life := rfl
@[simp] theorem Wave.setA_stream (w : Wave) (n : Nat) (m : Lanes) (f : Nat → Word) : (w.setA n m f).stream = w.stream := rfl
@[simp] theorem Wave.setA_blk (w : Wave) (n : Nat) (m : Lanes) (f : Nat → Word) : (w.setA n m f).blk = w.blk := rfl
@[simp] theorem Wave.setA_index (w : Wave) (n : Nat) (m : Lanes) (f : Nat → Word) : (w.setA n m f).index = w.index := rfl
@[simp] theorem Wave.setA_stage (w : Wave) (n : Nat) (m : Lanes) (f : Nat → Word) : (w.setA n m f).stage = w.stage := rfl
@[simp] theorem Wave.setA_placed (w : Wave) (n : Nat) (m : Lanes) (f : Nat → Word) : (w.setA n m f).placed = w.placed := rfl
@[simp] theorem Wave.setA_parts (w : Wave) (n : Nat) (m : Lanes) (f : Nat → Word) : (w.setA n m f).parts = w.parts := rfl
@[simp] theorem Wave.setA_held (w : Wave) (n : Nat) (m : Lanes) (f : Nat → Word) : (w.setA n m f).held = w.held := rfl
@[simp] theorem Wave.setA_waiting (w : Wave) (n : Nat) (m : Lanes) (f : Nat → Word) : (w.setA n m f).waiting = w.waiting := rfl
@[simp] theorem Wave.setA_v (w : Wave) (n : Nat) (m : Lanes) (f : Nat → Word) : (w.setA n m f).v = w.v := rfl
@[simp] theorem Wave.setA_s (w : Wave) (n : Nat) (m : Lanes) (f : Nat → Word) : (w.setA n m f).s = w.s := rfl
@[simp] theorem Wave.setA_p (w : Wave) (n : Nat) (m : Lanes) (f : Nat → Word) : (w.setA n m f).p = w.p := rfl
@[simp] theorem Wave.setA_a (w : Wave) (n : Nat) (m : Lanes) (f : Nat → Word) : (w.setA n m f).a = w.a.set zeroRow n (rowMix (w.aRow n) m f) := rfl
@[simp] theorem Wave.setA_m (w : Wave) (n : Nat) (m : Lanes) (f : Nat → Word) : (w.setA n m f).m = w.m := rfl
@[simp] theorem Wave.setA_vEmpty (w : Wave) (n : Nat) (m : Lanes) (f : Nat → Word) : (w.setA n m f).vEmpty = w.vEmpty := rfl
@[simp] theorem Wave.setA_vInd (w : Wave) (n : Nat) (m : Lanes) (f : Nat → Word) : (w.setA n m f).vInd = w.vInd := rfl
@[simp] theorem Wave.setA_sEmpty (w : Wave) (n : Nat) (m : Lanes) (f : Nat → Word) : (w.setA n m f).sEmpty = w.sEmpty := rfl
@[simp] theorem Wave.setA_sInd (w : Wave) (n : Nat) (m : Lanes) (f : Nat → Word) : (w.setA n m f).sInd = w.sInd := rfl
@[simp] theorem Wave.setA_valloc (w : Wave) (n : Nat) (m : Lanes) (f : Nat → Word) : (w.setA n m f).valloc = w.valloc := rfl
@[simp] theorem Wave.setA_acquired (w : Wave) (n : Nat) (m : Lanes) (f : Nat → Word) : (w.setA n m f).acquired = w.acquired := rfl
@[simp] theorem Wave.setA_fpcr (w : Wave) (n : Nat) (m : Lanes) (f : Nat → Word) : (w.setA n m f).fpcr = w.fpcr := rfl
@[simp] theorem Wave.setA_fpsr (w : Wave) (n : Nat) (m : Lanes) (f : Nat → Word) : (w.setA n m f).fpsr = w.fpsr := rfl
@[simp] theorem Wave.setA_sched (w : Wave) (n : Nat) (m : Lanes) (f : Nat → Word) : (w.setA n m f).sched = w.sched := rfl
@[simp] theorem Wave.setA_rgn (w : Wave) (n : Nat) (m : Lanes) (f : Nat → Word) : (w.setA n m f).rgn = w.rgn := rfl
@[simp] theorem Wave.setA_epc (w : Wave) (n : Nat) (m : Lanes) (f : Nat → Word) : (w.setA n m f).epc = w.epc := rfl
@[simp] theorem Wave.setA_cause (w : Wave) (n : Nat) (m : Lanes) (f : Nat → Word) : (w.setA n m f).cause = w.cause := rfl
@[simp] theorem Wave.setA_sepc (w : Wave) (n : Nat) (m : Lanes) (f : Nat → Word) : (w.setA n m f).sepc = w.sepc := rfl
@[simp] theorem Wave.setA_scause (w : Wave) (n : Nat) (m : Lanes) (f : Nat → Word) : (w.setA n m f).scause = w.scause := rfl
@[simp] theorem Wave.setA_utrap (w : Wave) (n : Nat) (m : Lanes) (f : Nat → Word) : (w.setA n m f).utrap = w.utrap := rfl
@[simp] theorem Wave.setA_handler (w : Wave) (n : Nat) (m : Lanes) (f : Nat → Word) : (w.setA n m f).handler = w.handler := rfl
@[simp] theorem Wave.setA_frame (w : Wave) (n : Nat) (m : Lanes) (f : Nat → Word) : (w.setA n m f).frame = w.frame := rfl
@[simp] theorem Wave.setA_sup (w : Wave) (n : Nat) (m : Lanes) (f : Nat → Word) : (w.setA n m f).sup = w.sup := rfl
@[simp] theorem Wave.setA_seq (w : Wave) (n : Nat) (m : Lanes) (f : Nat → Word) : (w.setA n m f).seq = w.seq := rfl
@[simp] theorem Wave.setA_pend (w : Wave) (n : Nat) (m : Lanes) (f : Nat → Word) : (w.setA n m f).pend = w.pend := rfl
@[simp] theorem Wave.setA_pendNext (w : Wave) (n : Nat) (m : Lanes) (f : Nat → Word) : (w.setA n m f).pendNext = w.pendNext := rfl
@[simp] theorem Wave.setA_young (w : Wave) (n : Nat) (m : Lanes) (f : Nat → Word) : (w.setA n m f).young = w.young := rfl
@[simp] theorem Wave.setA_fpTill (w : Wave) (n : Nat) (m : Lanes) (f : Nat → Word) : (w.setA n m f).fpTill = w.fpTill := rfl
@[simp] theorem Wave.setA_late (w : Wave) (n : Nat) (m : Lanes) (f : Nat → Word) : (w.setA n m f).late = w.late := rfl
@[simp] theorem Wave.setA_mon (w : Wave) (n : Nat) (m : Lanes) (f : Nat → Word) : (w.setA n m f).mon = w.mon := rfl
@[simp] theorem Wave.setA_decl (w : Wave) (n : Nat) (m : Lanes) (f : Nat → Word) : (w.setA n m f).decl = w.decl := rfl
@[simp] theorem Wave.setA_slot0 (w : Wave) (n : Nat) (m : Lanes) (f : Nat → Word) : (w.setA n m f).slot0 = w.slot0 := rfl
@[simp] theorem Wave.setA_slot1 (w : Wave) (n : Nat) (m : Lanes) (f : Nat → Word) : (w.setA n m f).slot1 = w.slot1 := rfl
@[simp] theorem Wave.setA_active (w : Wave) (n : Nat) (m : Lanes) (f : Nat → Word) : (w.setA n m f).active = w.active := rfl
@[simp] theorem Wave.setA_rounds (w : Wave) (n : Nat) (m : Lanes) (f : Nat → Word) : (w.setA n m f).rounds = w.rounds := rfl
@[simp] theorem Wave.setA_acks (w : Wave) (n : Nat) (m : Lanes) (f : Nat → Word) : (w.setA n m f).acks = w.acks := rfl
@[simp] theorem Wave.setA_remote (w : Wave) (n : Nat) (m : Lanes) (f : Nat → Word) : (w.setA n m f).remote = w.remote := rfl
@[simp] theorem Wave.setA_marked (w : Wave) (n : Nat) (m : Lanes) (f : Nat → Word) : (w.setA n m f).marked = w.marked := rfl
@[simp] theorem Wave.setA_stall (w : Wave) (n : Nat) (m : Lanes) (f : Nat → Word) : (w.setA n m f).stall = w.stall := rfl
@[simp] theorem Wave.setA_turn (w : Wave) (n : Nat) (m : Lanes) (f : Nat → Word) : (w.setA n m f).turn = w.turn := rfl
@[simp] theorem Wave.setA_yielded (w : Wave) (n : Nat) (m : Lanes) (f : Nat → Word) : (w.setA n m f).yielded = w.yielded := rfl
@[simp] theorem Wave.setA_pwrTaken (w : Wave) (n : Nat) (m : Lanes) (f : Nat → Word) : (w.setA n m f).pwrTaken = w.pwrTaken := rfl
@[simp] theorem Wave.setA_pwrOwed (w : Wave) (n : Nat) (m : Lanes) (f : Nat → Word) : (w.setA n m f).pwrOwed = w.pwrOwed := rfl
@[simp] theorem Wave.setA_preTrap (w : Wave) (n : Nat) (m : Lanes) (f : Nat → Word) : (w.setA n m f).preTrap = w.preTrap := rfl
@[simp] theorem Wave.setA_objs (w : Wave) (n : Nat) (m : Lanes) (f : Nat → Word) : (w.setA n m f).objs = w.objs := rfl
@[simp] theorem Wave.setA_contWave (w : Wave) (n : Nat) (m : Lanes) (f : Nat → Word) : (w.setA n m f).contWave = w.contWave := rfl
@[simp] theorem Wave.setA_emu (w : Wave) (n : Nat) (m : Lanes) (f : Nat → Word) : (w.setA n m f).emu = w.emu := rfl
@[simp] theorem Wave.setM_life (w : Wave) (n : Nat) (x : Word × Word) : (w.setM n x).life = w.life := rfl
@[simp] theorem Wave.setM_stream (w : Wave) (n : Nat) (x : Word × Word) : (w.setM n x).stream = w.stream := rfl
@[simp] theorem Wave.setM_blk (w : Wave) (n : Nat) (x : Word × Word) : (w.setM n x).blk = w.blk := rfl
@[simp] theorem Wave.setM_index (w : Wave) (n : Nat) (x : Word × Word) : (w.setM n x).index = w.index := rfl
@[simp] theorem Wave.setM_stage (w : Wave) (n : Nat) (x : Word × Word) : (w.setM n x).stage = w.stage := rfl
@[simp] theorem Wave.setM_placed (w : Wave) (n : Nat) (x : Word × Word) : (w.setM n x).placed = w.placed := rfl
@[simp] theorem Wave.setM_parts (w : Wave) (n : Nat) (x : Word × Word) : (w.setM n x).parts = w.parts := rfl
@[simp] theorem Wave.setM_held (w : Wave) (n : Nat) (x : Word × Word) : (w.setM n x).held = w.held := rfl
@[simp] theorem Wave.setM_waiting (w : Wave) (n : Nat) (x : Word × Word) : (w.setM n x).waiting = w.waiting := rfl
@[simp] theorem Wave.setM_v (w : Wave) (n : Nat) (x : Word × Word) : (w.setM n x).v = w.v := rfl
@[simp] theorem Wave.setM_s (w : Wave) (n : Nat) (x : Word × Word) : (w.setM n x).s = w.s := rfl
@[simp] theorem Wave.setM_p (w : Wave) (n : Nat) (x : Word × Word) : (w.setM n x).p = w.p := rfl
@[simp] theorem Wave.setM_a (w : Wave) (n : Nat) (x : Word × Word) : (w.setM n x).a = w.a := rfl
@[simp] theorem Wave.setM_m (w : Wave) (n : Nat) (x : Word × Word) : (w.setM n x).m = w.m.set (0, 0) n x := rfl
@[simp] theorem Wave.setM_vEmpty (w : Wave) (n : Nat) (x : Word × Word) : (w.setM n x).vEmpty = w.vEmpty := rfl
@[simp] theorem Wave.setM_vInd (w : Wave) (n : Nat) (x : Word × Word) : (w.setM n x).vInd = w.vInd := rfl
@[simp] theorem Wave.setM_sEmpty (w : Wave) (n : Nat) (x : Word × Word) : (w.setM n x).sEmpty = w.sEmpty := rfl
@[simp] theorem Wave.setM_sInd (w : Wave) (n : Nat) (x : Word × Word) : (w.setM n x).sInd = w.sInd := rfl
@[simp] theorem Wave.setM_valloc (w : Wave) (n : Nat) (x : Word × Word) : (w.setM n x).valloc = w.valloc := rfl
@[simp] theorem Wave.setM_acquired (w : Wave) (n : Nat) (x : Word × Word) : (w.setM n x).acquired = w.acquired := rfl
@[simp] theorem Wave.setM_fpcr (w : Wave) (n : Nat) (x : Word × Word) : (w.setM n x).fpcr = w.fpcr := rfl
@[simp] theorem Wave.setM_fpsr (w : Wave) (n : Nat) (x : Word × Word) : (w.setM n x).fpsr = w.fpsr := rfl
@[simp] theorem Wave.setM_sched (w : Wave) (n : Nat) (x : Word × Word) : (w.setM n x).sched = w.sched := rfl
@[simp] theorem Wave.setM_rgn (w : Wave) (n : Nat) (x : Word × Word) : (w.setM n x).rgn = w.rgn := rfl
@[simp] theorem Wave.setM_epc (w : Wave) (n : Nat) (x : Word × Word) : (w.setM n x).epc = w.epc := rfl
@[simp] theorem Wave.setM_cause (w : Wave) (n : Nat) (x : Word × Word) : (w.setM n x).cause = w.cause := rfl
@[simp] theorem Wave.setM_sepc (w : Wave) (n : Nat) (x : Word × Word) : (w.setM n x).sepc = w.sepc := rfl
@[simp] theorem Wave.setM_scause (w : Wave) (n : Nat) (x : Word × Word) : (w.setM n x).scause = w.scause := rfl
@[simp] theorem Wave.setM_utrap (w : Wave) (n : Nat) (x : Word × Word) : (w.setM n x).utrap = w.utrap := rfl
@[simp] theorem Wave.setM_handler (w : Wave) (n : Nat) (x : Word × Word) : (w.setM n x).handler = w.handler := rfl
@[simp] theorem Wave.setM_frame (w : Wave) (n : Nat) (x : Word × Word) : (w.setM n x).frame = w.frame := rfl
@[simp] theorem Wave.setM_sup (w : Wave) (n : Nat) (x : Word × Word) : (w.setM n x).sup = w.sup := rfl
@[simp] theorem Wave.setM_seq (w : Wave) (n : Nat) (x : Word × Word) : (w.setM n x).seq = w.seq := rfl
@[simp] theorem Wave.setM_pend (w : Wave) (n : Nat) (x : Word × Word) : (w.setM n x).pend = w.pend := rfl
@[simp] theorem Wave.setM_pendNext (w : Wave) (n : Nat) (x : Word × Word) : (w.setM n x).pendNext = w.pendNext := rfl
@[simp] theorem Wave.setM_young (w : Wave) (n : Nat) (x : Word × Word) : (w.setM n x).young = w.young := rfl
@[simp] theorem Wave.setM_fpTill (w : Wave) (n : Nat) (x : Word × Word) : (w.setM n x).fpTill = w.fpTill := rfl
@[simp] theorem Wave.setM_late (w : Wave) (n : Nat) (x : Word × Word) : (w.setM n x).late = w.late := rfl
@[simp] theorem Wave.setM_mon (w : Wave) (n : Nat) (x : Word × Word) : (w.setM n x).mon = w.mon := rfl
@[simp] theorem Wave.setM_decl (w : Wave) (n : Nat) (x : Word × Word) : (w.setM n x).decl = w.decl := rfl
@[simp] theorem Wave.setM_slot0 (w : Wave) (n : Nat) (x : Word × Word) : (w.setM n x).slot0 = w.slot0 := rfl
@[simp] theorem Wave.setM_slot1 (w : Wave) (n : Nat) (x : Word × Word) : (w.setM n x).slot1 = w.slot1 := rfl
@[simp] theorem Wave.setM_active (w : Wave) (n : Nat) (x : Word × Word) : (w.setM n x).active = w.active := rfl
@[simp] theorem Wave.setM_rounds (w : Wave) (n : Nat) (x : Word × Word) : (w.setM n x).rounds = w.rounds := rfl
@[simp] theorem Wave.setM_acks (w : Wave) (n : Nat) (x : Word × Word) : (w.setM n x).acks = w.acks := rfl
@[simp] theorem Wave.setM_remote (w : Wave) (n : Nat) (x : Word × Word) : (w.setM n x).remote = w.remote := rfl
@[simp] theorem Wave.setM_marked (w : Wave) (n : Nat) (x : Word × Word) : (w.setM n x).marked = w.marked := rfl
@[simp] theorem Wave.setM_stall (w : Wave) (n : Nat) (x : Word × Word) : (w.setM n x).stall = w.stall := rfl
@[simp] theorem Wave.setM_turn (w : Wave) (n : Nat) (x : Word × Word) : (w.setM n x).turn = w.turn := rfl
@[simp] theorem Wave.setM_yielded (w : Wave) (n : Nat) (x : Word × Word) : (w.setM n x).yielded = w.yielded := rfl
@[simp] theorem Wave.setM_pwrTaken (w : Wave) (n : Nat) (x : Word × Word) : (w.setM n x).pwrTaken = w.pwrTaken := rfl
@[simp] theorem Wave.setM_pwrOwed (w : Wave) (n : Nat) (x : Word × Word) : (w.setM n x).pwrOwed = w.pwrOwed := rfl
@[simp] theorem Wave.setM_preTrap (w : Wave) (n : Nat) (x : Word × Word) : (w.setM n x).preTrap = w.preTrap := rfl
@[simp] theorem Wave.setM_objs (w : Wave) (n : Nat) (x : Word × Word) : (w.setM n x).objs = w.objs := rfl
@[simp] theorem Wave.setM_contWave (w : Wave) (n : Nat) (x : Word × Word) : (w.setM n x).contWave = w.contWave := rfl
@[simp] theorem Wave.setM_emu (w : Wave) (n : Nat) (x : Word × Word) : (w.setM n x).emu = w.emu := rfl
@[simp] theorem Wave.onParts_life (w : Wave) (m : Lanes) (f : Part → Part) : (w.onParts m f).life = w.life := rfl
@[simp] theorem Wave.onParts_stream (w : Wave) (m : Lanes) (f : Part → Part) : (w.onParts m f).stream = w.stream := rfl
@[simp] theorem Wave.onParts_blk (w : Wave) (m : Lanes) (f : Part → Part) : (w.onParts m f).blk = w.blk := rfl
@[simp] theorem Wave.onParts_index (w : Wave) (m : Lanes) (f : Part → Part) : (w.onParts m f).index = w.index := rfl
@[simp] theorem Wave.onParts_stage (w : Wave) (m : Lanes) (f : Part → Part) : (w.onParts m f).stage = w.stage := rfl
@[simp] theorem Wave.onParts_placed (w : Wave) (m : Lanes) (f : Part → Part) : (w.onParts m f).placed = w.placed := rfl
@[simp] theorem Wave.onParts_parts (w : Wave) (m : Lanes) (f : Part → Part) : (w.onParts m f).parts = w.parts.map (fun p => if (p.mask &&& m) ≠ 0 then f p else p) := rfl
@[simp] theorem Wave.onParts_held (w : Wave) (m : Lanes) (f : Part → Part) : (w.onParts m f).held = w.held := rfl
@[simp] theorem Wave.onParts_waiting (w : Wave) (m : Lanes) (f : Part → Part) : (w.onParts m f).waiting = w.waiting := rfl
@[simp] theorem Wave.onParts_v (w : Wave) (m : Lanes) (f : Part → Part) : (w.onParts m f).v = w.v := rfl
@[simp] theorem Wave.onParts_s (w : Wave) (m : Lanes) (f : Part → Part) : (w.onParts m f).s = w.s := rfl
@[simp] theorem Wave.onParts_p (w : Wave) (m : Lanes) (f : Part → Part) : (w.onParts m f).p = w.p := rfl
@[simp] theorem Wave.onParts_a (w : Wave) (m : Lanes) (f : Part → Part) : (w.onParts m f).a = w.a := rfl
@[simp] theorem Wave.onParts_m (w : Wave) (m : Lanes) (f : Part → Part) : (w.onParts m f).m = w.m := rfl
@[simp] theorem Wave.onParts_vEmpty (w : Wave) (m : Lanes) (f : Part → Part) : (w.onParts m f).vEmpty = w.vEmpty := rfl
@[simp] theorem Wave.onParts_vInd (w : Wave) (m : Lanes) (f : Part → Part) : (w.onParts m f).vInd = w.vInd := rfl
@[simp] theorem Wave.onParts_sEmpty (w : Wave) (m : Lanes) (f : Part → Part) : (w.onParts m f).sEmpty = w.sEmpty := rfl
@[simp] theorem Wave.onParts_sInd (w : Wave) (m : Lanes) (f : Part → Part) : (w.onParts m f).sInd = w.sInd := rfl
@[simp] theorem Wave.onParts_valloc (w : Wave) (m : Lanes) (f : Part → Part) : (w.onParts m f).valloc = w.valloc := rfl
@[simp] theorem Wave.onParts_acquired (w : Wave) (m : Lanes) (f : Part → Part) : (w.onParts m f).acquired = w.acquired := rfl
@[simp] theorem Wave.onParts_fpcr (w : Wave) (m : Lanes) (f : Part → Part) : (w.onParts m f).fpcr = w.fpcr := rfl
@[simp] theorem Wave.onParts_fpsr (w : Wave) (m : Lanes) (f : Part → Part) : (w.onParts m f).fpsr = w.fpsr := rfl
@[simp] theorem Wave.onParts_sched (w : Wave) (m : Lanes) (f : Part → Part) : (w.onParts m f).sched = w.sched := rfl
@[simp] theorem Wave.onParts_rgn (w : Wave) (m : Lanes) (f : Part → Part) : (w.onParts m f).rgn = w.rgn := rfl
@[simp] theorem Wave.onParts_epc (w : Wave) (m : Lanes) (f : Part → Part) : (w.onParts m f).epc = w.epc := rfl
@[simp] theorem Wave.onParts_cause (w : Wave) (m : Lanes) (f : Part → Part) : (w.onParts m f).cause = w.cause := rfl
@[simp] theorem Wave.onParts_sepc (w : Wave) (m : Lanes) (f : Part → Part) : (w.onParts m f).sepc = w.sepc := rfl
@[simp] theorem Wave.onParts_scause (w : Wave) (m : Lanes) (f : Part → Part) : (w.onParts m f).scause = w.scause := rfl
@[simp] theorem Wave.onParts_utrap (w : Wave) (m : Lanes) (f : Part → Part) : (w.onParts m f).utrap = w.utrap := rfl
@[simp] theorem Wave.onParts_handler (w : Wave) (m : Lanes) (f : Part → Part) : (w.onParts m f).handler = w.handler := rfl
@[simp] theorem Wave.onParts_frame (w : Wave) (m : Lanes) (f : Part → Part) : (w.onParts m f).frame = w.frame := rfl
@[simp] theorem Wave.onParts_sup (w : Wave) (m : Lanes) (f : Part → Part) : (w.onParts m f).sup = w.sup := rfl
@[simp] theorem Wave.onParts_seq (w : Wave) (m : Lanes) (f : Part → Part) : (w.onParts m f).seq = w.seq := rfl
@[simp] theorem Wave.onParts_pend (w : Wave) (m : Lanes) (f : Part → Part) : (w.onParts m f).pend = w.pend := rfl
@[simp] theorem Wave.onParts_pendNext (w : Wave) (m : Lanes) (f : Part → Part) : (w.onParts m f).pendNext = w.pendNext := rfl
@[simp] theorem Wave.onParts_young (w : Wave) (m : Lanes) (f : Part → Part) : (w.onParts m f).young = w.young := rfl
@[simp] theorem Wave.onParts_fpTill (w : Wave) (m : Lanes) (f : Part → Part) : (w.onParts m f).fpTill = w.fpTill := rfl
@[simp] theorem Wave.onParts_late (w : Wave) (m : Lanes) (f : Part → Part) : (w.onParts m f).late = w.late := rfl
@[simp] theorem Wave.onParts_mon (w : Wave) (m : Lanes) (f : Part → Part) : (w.onParts m f).mon = w.mon := rfl
@[simp] theorem Wave.onParts_decl (w : Wave) (m : Lanes) (f : Part → Part) : (w.onParts m f).decl = w.decl := rfl
@[simp] theorem Wave.onParts_slot0 (w : Wave) (m : Lanes) (f : Part → Part) : (w.onParts m f).slot0 = w.slot0 := rfl
@[simp] theorem Wave.onParts_slot1 (w : Wave) (m : Lanes) (f : Part → Part) : (w.onParts m f).slot1 = w.slot1 := rfl
@[simp] theorem Wave.onParts_active (w : Wave) (m : Lanes) (f : Part → Part) : (w.onParts m f).active = w.active := rfl
@[simp] theorem Wave.onParts_rounds (w : Wave) (m : Lanes) (f : Part → Part) : (w.onParts m f).rounds = w.rounds := rfl
@[simp] theorem Wave.onParts_acks (w : Wave) (m : Lanes) (f : Part → Part) : (w.onParts m f).acks = w.acks := rfl
@[simp] theorem Wave.onParts_remote (w : Wave) (m : Lanes) (f : Part → Part) : (w.onParts m f).remote = w.remote := rfl
@[simp] theorem Wave.onParts_marked (w : Wave) (m : Lanes) (f : Part → Part) : (w.onParts m f).marked = w.marked := rfl
@[simp] theorem Wave.onParts_stall (w : Wave) (m : Lanes) (f : Part → Part) : (w.onParts m f).stall = w.stall := rfl
@[simp] theorem Wave.onParts_turn (w : Wave) (m : Lanes) (f : Part → Part) : (w.onParts m f).turn = w.turn := rfl
@[simp] theorem Wave.onParts_yielded (w : Wave) (m : Lanes) (f : Part → Part) : (w.onParts m f).yielded = w.yielded := rfl
@[simp] theorem Wave.onParts_pwrTaken (w : Wave) (m : Lanes) (f : Part → Part) : (w.onParts m f).pwrTaken = w.pwrTaken := rfl
@[simp] theorem Wave.onParts_pwrOwed (w : Wave) (m : Lanes) (f : Part → Part) : (w.onParts m f).pwrOwed = w.pwrOwed := rfl
@[simp] theorem Wave.onParts_preTrap (w : Wave) (m : Lanes) (f : Part → Part) : (w.onParts m f).preTrap = w.preTrap := rfl
@[simp] theorem Wave.onParts_objs (w : Wave) (m : Lanes) (f : Part → Part) : (w.onParts m f).objs = w.objs := rfl
@[simp] theorem Wave.onParts_contWave (w : Wave) (m : Lanes) (f : Part → Part) : (w.onParts m f).contWave = w.contWave := rfl
@[simp] theorem Wave.onParts_emu (w : Wave) (m : Lanes) (f : Part → Part) : (w.onParts m f).emu = w.emu := rfl
@[simp] theorem Wave.advance_life (w : Wave) (m : Lanes) : (w.advance m).life = w.life := rfl
@[simp] theorem Wave.advance_stream (w : Wave) (m : Lanes) : (w.advance m).stream = w.stream := rfl
@[simp] theorem Wave.advance_blk (w : Wave) (m : Lanes) : (w.advance m).blk = w.blk := rfl
@[simp] theorem Wave.advance_index (w : Wave) (m : Lanes) : (w.advance m).index = w.index := rfl
@[simp] theorem Wave.advance_stage (w : Wave) (m : Lanes) : (w.advance m).stage = w.stage := rfl
@[simp] theorem Wave.advance_placed (w : Wave) (m : Lanes) : (w.advance m).placed = w.placed := rfl
@[simp] theorem Wave.advance_parts (w : Wave) (m : Lanes) : (w.advance m).parts = (w.onParts m (fun p => { p with pc := p.pc + 12, park := .run })).parts := rfl
@[simp] theorem Wave.advance_held (w : Wave) (m : Lanes) : (w.advance m).held = w.held := rfl
@[simp] theorem Wave.advance_waiting (w : Wave) (m : Lanes) : (w.advance m).waiting = w.waiting := rfl
@[simp] theorem Wave.advance_v (w : Wave) (m : Lanes) : (w.advance m).v = w.v := rfl
@[simp] theorem Wave.advance_s (w : Wave) (m : Lanes) : (w.advance m).s = w.s := rfl
@[simp] theorem Wave.advance_p (w : Wave) (m : Lanes) : (w.advance m).p = w.p := rfl
@[simp] theorem Wave.advance_a (w : Wave) (m : Lanes) : (w.advance m).a = w.a := rfl
@[simp] theorem Wave.advance_m (w : Wave) (m : Lanes) : (w.advance m).m = w.m := rfl
@[simp] theorem Wave.advance_vEmpty (w : Wave) (m : Lanes) : (w.advance m).vEmpty = w.vEmpty := rfl
@[simp] theorem Wave.advance_vInd (w : Wave) (m : Lanes) : (w.advance m).vInd = w.vInd := rfl
@[simp] theorem Wave.advance_sEmpty (w : Wave) (m : Lanes) : (w.advance m).sEmpty = w.sEmpty := rfl
@[simp] theorem Wave.advance_sInd (w : Wave) (m : Lanes) : (w.advance m).sInd = w.sInd := rfl
@[simp] theorem Wave.advance_valloc (w : Wave) (m : Lanes) : (w.advance m).valloc = w.valloc := rfl
@[simp] theorem Wave.advance_acquired (w : Wave) (m : Lanes) : (w.advance m).acquired = w.acquired := rfl
@[simp] theorem Wave.advance_fpcr (w : Wave) (m : Lanes) : (w.advance m).fpcr = w.fpcr := rfl
@[simp] theorem Wave.advance_fpsr (w : Wave) (m : Lanes) : (w.advance m).fpsr = w.fpsr := rfl
@[simp] theorem Wave.advance_sched (w : Wave) (m : Lanes) : (w.advance m).sched = w.sched := rfl
@[simp] theorem Wave.advance_rgn (w : Wave) (m : Lanes) : (w.advance m).rgn = w.rgn := rfl
@[simp] theorem Wave.advance_epc (w : Wave) (m : Lanes) : (w.advance m).epc = w.epc := rfl
@[simp] theorem Wave.advance_cause (w : Wave) (m : Lanes) : (w.advance m).cause = w.cause := rfl
@[simp] theorem Wave.advance_sepc (w : Wave) (m : Lanes) : (w.advance m).sepc = w.sepc := rfl
@[simp] theorem Wave.advance_scause (w : Wave) (m : Lanes) : (w.advance m).scause = w.scause := rfl
@[simp] theorem Wave.advance_utrap (w : Wave) (m : Lanes) : (w.advance m).utrap = w.utrap := rfl
@[simp] theorem Wave.advance_handler (w : Wave) (m : Lanes) : (w.advance m).handler = w.handler := rfl
@[simp] theorem Wave.advance_frame (w : Wave) (m : Lanes) : (w.advance m).frame = w.frame := rfl
@[simp] theorem Wave.advance_sup (w : Wave) (m : Lanes) : (w.advance m).sup = w.sup := rfl
@[simp] theorem Wave.advance_seq (w : Wave) (m : Lanes) : (w.advance m).seq = w.seq := rfl
@[simp] theorem Wave.advance_pend (w : Wave) (m : Lanes) : (w.advance m).pend = w.pend := rfl
@[simp] theorem Wave.advance_pendNext (w : Wave) (m : Lanes) : (w.advance m).pendNext = w.pendNext := rfl
@[simp] theorem Wave.advance_young (w : Wave) (m : Lanes) : (w.advance m).young = w.young := rfl
@[simp] theorem Wave.advance_fpTill (w : Wave) (m : Lanes) : (w.advance m).fpTill = w.fpTill := rfl
@[simp] theorem Wave.advance_late (w : Wave) (m : Lanes) : (w.advance m).late = w.late := rfl
@[simp] theorem Wave.advance_mon (w : Wave) (m : Lanes) : (w.advance m).mon = w.mon := rfl
@[simp] theorem Wave.advance_decl (w : Wave) (m : Lanes) : (w.advance m).decl = w.decl := rfl
@[simp] theorem Wave.advance_slot0 (w : Wave) (m : Lanes) : (w.advance m).slot0 = w.slot0 := rfl
@[simp] theorem Wave.advance_slot1 (w : Wave) (m : Lanes) : (w.advance m).slot1 = w.slot1 := rfl
@[simp] theorem Wave.advance_active (w : Wave) (m : Lanes) : (w.advance m).active = w.active := rfl
@[simp] theorem Wave.advance_rounds (w : Wave) (m : Lanes) : (w.advance m).rounds = w.rounds := rfl
@[simp] theorem Wave.advance_acks (w : Wave) (m : Lanes) : (w.advance m).acks = w.acks := rfl
@[simp] theorem Wave.advance_remote (w : Wave) (m : Lanes) : (w.advance m).remote = w.remote := rfl
@[simp] theorem Wave.advance_marked (w : Wave) (m : Lanes) : (w.advance m).marked = w.marked := rfl
@[simp] theorem Wave.advance_stall (w : Wave) (m : Lanes) : (w.advance m).stall = w.stall := rfl
@[simp] theorem Wave.advance_turn (w : Wave) (m : Lanes) : (w.advance m).turn = w.turn := rfl
@[simp] theorem Wave.advance_yielded (w : Wave) (m : Lanes) : (w.advance m).yielded = w.yielded := rfl
@[simp] theorem Wave.advance_pwrTaken (w : Wave) (m : Lanes) : (w.advance m).pwrTaken = w.pwrTaken := rfl
@[simp] theorem Wave.advance_pwrOwed (w : Wave) (m : Lanes) : (w.advance m).pwrOwed = w.pwrOwed := rfl
@[simp] theorem Wave.advance_preTrap (w : Wave) (m : Lanes) : (w.advance m).preTrap = w.preTrap := rfl
@[simp] theorem Wave.advance_objs (w : Wave) (m : Lanes) : (w.advance m).objs = w.objs := rfl
@[simp] theorem Wave.advance_contWave (w : Wave) (m : Lanes) : (w.advance m).contWave = w.contWave := rfl
@[simp] theorem Wave.advance_emu (w : Wave) (m : Lanes) : (w.advance m).emu = w.emu := rfl
@[simp] theorem Wave.park_life (w : Wave) (m : Lanes) (k : Park) : (w.park m k).life = w.life := rfl
@[simp] theorem Wave.park_stream (w : Wave) (m : Lanes) (k : Park) : (w.park m k).stream = w.stream := rfl
@[simp] theorem Wave.park_blk (w : Wave) (m : Lanes) (k : Park) : (w.park m k).blk = w.blk := rfl
@[simp] theorem Wave.park_index (w : Wave) (m : Lanes) (k : Park) : (w.park m k).index = w.index := rfl
@[simp] theorem Wave.park_stage (w : Wave) (m : Lanes) (k : Park) : (w.park m k).stage = w.stage := rfl
@[simp] theorem Wave.park_placed (w : Wave) (m : Lanes) (k : Park) : (w.park m k).placed = w.placed := rfl
@[simp] theorem Wave.park_parts (w : Wave) (m : Lanes) (k : Park) : (w.park m k).parts = (w.onParts m (fun p => { p with park := k })).parts := rfl
@[simp] theorem Wave.park_held (w : Wave) (m : Lanes) (k : Park) : (w.park m k).held = w.held := rfl
@[simp] theorem Wave.park_waiting (w : Wave) (m : Lanes) (k : Park) : (w.park m k).waiting = w.waiting := rfl
@[simp] theorem Wave.park_v (w : Wave) (m : Lanes) (k : Park) : (w.park m k).v = w.v := rfl
@[simp] theorem Wave.park_s (w : Wave) (m : Lanes) (k : Park) : (w.park m k).s = w.s := rfl
@[simp] theorem Wave.park_p (w : Wave) (m : Lanes) (k : Park) : (w.park m k).p = w.p := rfl
@[simp] theorem Wave.park_a (w : Wave) (m : Lanes) (k : Park) : (w.park m k).a = w.a := rfl
@[simp] theorem Wave.park_m (w : Wave) (m : Lanes) (k : Park) : (w.park m k).m = w.m := rfl
@[simp] theorem Wave.park_vEmpty (w : Wave) (m : Lanes) (k : Park) : (w.park m k).vEmpty = w.vEmpty := rfl
@[simp] theorem Wave.park_vInd (w : Wave) (m : Lanes) (k : Park) : (w.park m k).vInd = w.vInd := rfl
@[simp] theorem Wave.park_sEmpty (w : Wave) (m : Lanes) (k : Park) : (w.park m k).sEmpty = w.sEmpty := rfl
@[simp] theorem Wave.park_sInd (w : Wave) (m : Lanes) (k : Park) : (w.park m k).sInd = w.sInd := rfl
@[simp] theorem Wave.park_valloc (w : Wave) (m : Lanes) (k : Park) : (w.park m k).valloc = w.valloc := rfl
@[simp] theorem Wave.park_acquired (w : Wave) (m : Lanes) (k : Park) : (w.park m k).acquired = w.acquired := rfl
@[simp] theorem Wave.park_fpcr (w : Wave) (m : Lanes) (k : Park) : (w.park m k).fpcr = w.fpcr := rfl
@[simp] theorem Wave.park_fpsr (w : Wave) (m : Lanes) (k : Park) : (w.park m k).fpsr = w.fpsr := rfl
@[simp] theorem Wave.park_sched (w : Wave) (m : Lanes) (k : Park) : (w.park m k).sched = w.sched := rfl
@[simp] theorem Wave.park_rgn (w : Wave) (m : Lanes) (k : Park) : (w.park m k).rgn = w.rgn := rfl
@[simp] theorem Wave.park_epc (w : Wave) (m : Lanes) (k : Park) : (w.park m k).epc = w.epc := rfl
@[simp] theorem Wave.park_cause (w : Wave) (m : Lanes) (k : Park) : (w.park m k).cause = w.cause := rfl
@[simp] theorem Wave.park_sepc (w : Wave) (m : Lanes) (k : Park) : (w.park m k).sepc = w.sepc := rfl
@[simp] theorem Wave.park_scause (w : Wave) (m : Lanes) (k : Park) : (w.park m k).scause = w.scause := rfl
@[simp] theorem Wave.park_utrap (w : Wave) (m : Lanes) (k : Park) : (w.park m k).utrap = w.utrap := rfl
@[simp] theorem Wave.park_handler (w : Wave) (m : Lanes) (k : Park) : (w.park m k).handler = w.handler := rfl
@[simp] theorem Wave.park_frame (w : Wave) (m : Lanes) (k : Park) : (w.park m k).frame = w.frame := rfl
@[simp] theorem Wave.park_sup (w : Wave) (m : Lanes) (k : Park) : (w.park m k).sup = w.sup := rfl
@[simp] theorem Wave.park_seq (w : Wave) (m : Lanes) (k : Park) : (w.park m k).seq = w.seq := rfl
@[simp] theorem Wave.park_pend (w : Wave) (m : Lanes) (k : Park) : (w.park m k).pend = w.pend := rfl
@[simp] theorem Wave.park_pendNext (w : Wave) (m : Lanes) (k : Park) : (w.park m k).pendNext = w.pendNext := rfl
@[simp] theorem Wave.park_young (w : Wave) (m : Lanes) (k : Park) : (w.park m k).young = w.young := rfl
@[simp] theorem Wave.park_fpTill (w : Wave) (m : Lanes) (k : Park) : (w.park m k).fpTill = w.fpTill := rfl
@[simp] theorem Wave.park_late (w : Wave) (m : Lanes) (k : Park) : (w.park m k).late = w.late := rfl
@[simp] theorem Wave.park_mon (w : Wave) (m : Lanes) (k : Park) : (w.park m k).mon = w.mon := rfl
@[simp] theorem Wave.park_decl (w : Wave) (m : Lanes) (k : Park) : (w.park m k).decl = w.decl := rfl
@[simp] theorem Wave.park_slot0 (w : Wave) (m : Lanes) (k : Park) : (w.park m k).slot0 = w.slot0 := rfl
@[simp] theorem Wave.park_slot1 (w : Wave) (m : Lanes) (k : Park) : (w.park m k).slot1 = w.slot1 := rfl
@[simp] theorem Wave.park_active (w : Wave) (m : Lanes) (k : Park) : (w.park m k).active = w.active := rfl
@[simp] theorem Wave.park_rounds (w : Wave) (m : Lanes) (k : Park) : (w.park m k).rounds = w.rounds := rfl
@[simp] theorem Wave.park_acks (w : Wave) (m : Lanes) (k : Park) : (w.park m k).acks = w.acks := rfl
@[simp] theorem Wave.park_remote (w : Wave) (m : Lanes) (k : Park) : (w.park m k).remote = w.remote := rfl
@[simp] theorem Wave.park_marked (w : Wave) (m : Lanes) (k : Park) : (w.park m k).marked = w.marked := rfl
@[simp] theorem Wave.park_stall (w : Wave) (m : Lanes) (k : Park) : (w.park m k).stall = w.stall := rfl
@[simp] theorem Wave.park_turn (w : Wave) (m : Lanes) (k : Park) : (w.park m k).turn = w.turn := rfl
@[simp] theorem Wave.park_yielded (w : Wave) (m : Lanes) (k : Park) : (w.park m k).yielded = w.yielded := rfl
@[simp] theorem Wave.park_pwrTaken (w : Wave) (m : Lanes) (k : Park) : (w.park m k).pwrTaken = w.pwrTaken := rfl
@[simp] theorem Wave.park_pwrOwed (w : Wave) (m : Lanes) (k : Park) : (w.park m k).pwrOwed = w.pwrOwed := rfl
@[simp] theorem Wave.park_preTrap (w : Wave) (m : Lanes) (k : Park) : (w.park m k).preTrap = w.preTrap := rfl
@[simp] theorem Wave.park_objs (w : Wave) (m : Lanes) (k : Park) : (w.park m k).objs = w.objs := rfl
@[simp] theorem Wave.park_contWave (w : Wave) (m : Lanes) (k : Park) : (w.park m k).contWave = w.contWave := rfl
@[simp] theorem Wave.park_emu (w : Wave) (m : Lanes) (k : Park) : (w.park m k).emu = w.emu := rfl
@[simp] theorem Wave.jump_life (w : Wave) (m : Lanes) (pc : Word64) : (w.jump m pc).life = w.life := rfl
@[simp] theorem Wave.jump_stream (w : Wave) (m : Lanes) (pc : Word64) : (w.jump m pc).stream = w.stream := rfl
@[simp] theorem Wave.jump_blk (w : Wave) (m : Lanes) (pc : Word64) : (w.jump m pc).blk = w.blk := rfl
@[simp] theorem Wave.jump_index (w : Wave) (m : Lanes) (pc : Word64) : (w.jump m pc).index = w.index := rfl
@[simp] theorem Wave.jump_stage (w : Wave) (m : Lanes) (pc : Word64) : (w.jump m pc).stage = w.stage := rfl
@[simp] theorem Wave.jump_placed (w : Wave) (m : Lanes) (pc : Word64) : (w.jump m pc).placed = w.placed := rfl
@[simp] theorem Wave.jump_parts (w : Wave) (m : Lanes) (pc : Word64) : (w.jump m pc).parts = (w.onParts m (fun p => { p with pc := pc, park := .run })).parts := rfl
@[simp] theorem Wave.jump_held (w : Wave) (m : Lanes) (pc : Word64) : (w.jump m pc).held = w.held := rfl
@[simp] theorem Wave.jump_waiting (w : Wave) (m : Lanes) (pc : Word64) : (w.jump m pc).waiting = w.waiting := rfl
@[simp] theorem Wave.jump_v (w : Wave) (m : Lanes) (pc : Word64) : (w.jump m pc).v = w.v := rfl
@[simp] theorem Wave.jump_s (w : Wave) (m : Lanes) (pc : Word64) : (w.jump m pc).s = w.s := rfl
@[simp] theorem Wave.jump_p (w : Wave) (m : Lanes) (pc : Word64) : (w.jump m pc).p = w.p := rfl
@[simp] theorem Wave.jump_a (w : Wave) (m : Lanes) (pc : Word64) : (w.jump m pc).a = w.a := rfl
@[simp] theorem Wave.jump_m (w : Wave) (m : Lanes) (pc : Word64) : (w.jump m pc).m = w.m := rfl
@[simp] theorem Wave.jump_vEmpty (w : Wave) (m : Lanes) (pc : Word64) : (w.jump m pc).vEmpty = w.vEmpty := rfl
@[simp] theorem Wave.jump_vInd (w : Wave) (m : Lanes) (pc : Word64) : (w.jump m pc).vInd = w.vInd := rfl
@[simp] theorem Wave.jump_sEmpty (w : Wave) (m : Lanes) (pc : Word64) : (w.jump m pc).sEmpty = w.sEmpty := rfl
@[simp] theorem Wave.jump_sInd (w : Wave) (m : Lanes) (pc : Word64) : (w.jump m pc).sInd = w.sInd := rfl
@[simp] theorem Wave.jump_valloc (w : Wave) (m : Lanes) (pc : Word64) : (w.jump m pc).valloc = w.valloc := rfl
@[simp] theorem Wave.jump_acquired (w : Wave) (m : Lanes) (pc : Word64) : (w.jump m pc).acquired = w.acquired := rfl
@[simp] theorem Wave.jump_fpcr (w : Wave) (m : Lanes) (pc : Word64) : (w.jump m pc).fpcr = w.fpcr := rfl
@[simp] theorem Wave.jump_fpsr (w : Wave) (m : Lanes) (pc : Word64) : (w.jump m pc).fpsr = w.fpsr := rfl
@[simp] theorem Wave.jump_sched (w : Wave) (m : Lanes) (pc : Word64) : (w.jump m pc).sched = w.sched := rfl
@[simp] theorem Wave.jump_rgn (w : Wave) (m : Lanes) (pc : Word64) : (w.jump m pc).rgn = w.rgn := rfl
@[simp] theorem Wave.jump_epc (w : Wave) (m : Lanes) (pc : Word64) : (w.jump m pc).epc = w.epc := rfl
@[simp] theorem Wave.jump_cause (w : Wave) (m : Lanes) (pc : Word64) : (w.jump m pc).cause = w.cause := rfl
@[simp] theorem Wave.jump_sepc (w : Wave) (m : Lanes) (pc : Word64) : (w.jump m pc).sepc = w.sepc := rfl
@[simp] theorem Wave.jump_scause (w : Wave) (m : Lanes) (pc : Word64) : (w.jump m pc).scause = w.scause := rfl
@[simp] theorem Wave.jump_utrap (w : Wave) (m : Lanes) (pc : Word64) : (w.jump m pc).utrap = w.utrap := rfl
@[simp] theorem Wave.jump_handler (w : Wave) (m : Lanes) (pc : Word64) : (w.jump m pc).handler = w.handler := rfl
@[simp] theorem Wave.jump_frame (w : Wave) (m : Lanes) (pc : Word64) : (w.jump m pc).frame = w.frame := rfl
@[simp] theorem Wave.jump_sup (w : Wave) (m : Lanes) (pc : Word64) : (w.jump m pc).sup = w.sup := rfl
@[simp] theorem Wave.jump_seq (w : Wave) (m : Lanes) (pc : Word64) : (w.jump m pc).seq = w.seq := rfl
@[simp] theorem Wave.jump_pend (w : Wave) (m : Lanes) (pc : Word64) : (w.jump m pc).pend = w.pend := rfl
@[simp] theorem Wave.jump_pendNext (w : Wave) (m : Lanes) (pc : Word64) : (w.jump m pc).pendNext = w.pendNext := rfl
@[simp] theorem Wave.jump_young (w : Wave) (m : Lanes) (pc : Word64) : (w.jump m pc).young = w.young := rfl
@[simp] theorem Wave.jump_fpTill (w : Wave) (m : Lanes) (pc : Word64) : (w.jump m pc).fpTill = w.fpTill := rfl
@[simp] theorem Wave.jump_late (w : Wave) (m : Lanes) (pc : Word64) : (w.jump m pc).late = w.late := rfl
@[simp] theorem Wave.jump_mon (w : Wave) (m : Lanes) (pc : Word64) : (w.jump m pc).mon = w.mon := rfl
@[simp] theorem Wave.jump_decl (w : Wave) (m : Lanes) (pc : Word64) : (w.jump m pc).decl = w.decl := rfl
@[simp] theorem Wave.jump_slot0 (w : Wave) (m : Lanes) (pc : Word64) : (w.jump m pc).slot0 = w.slot0 := rfl
@[simp] theorem Wave.jump_slot1 (w : Wave) (m : Lanes) (pc : Word64) : (w.jump m pc).slot1 = w.slot1 := rfl
@[simp] theorem Wave.jump_active (w : Wave) (m : Lanes) (pc : Word64) : (w.jump m pc).active = w.active := rfl
@[simp] theorem Wave.jump_rounds (w : Wave) (m : Lanes) (pc : Word64) : (w.jump m pc).rounds = w.rounds := rfl
@[simp] theorem Wave.jump_acks (w : Wave) (m : Lanes) (pc : Word64) : (w.jump m pc).acks = w.acks := rfl
@[simp] theorem Wave.jump_remote (w : Wave) (m : Lanes) (pc : Word64) : (w.jump m pc).remote = w.remote := rfl
@[simp] theorem Wave.jump_marked (w : Wave) (m : Lanes) (pc : Word64) : (w.jump m pc).marked = w.marked := rfl
@[simp] theorem Wave.jump_stall (w : Wave) (m : Lanes) (pc : Word64) : (w.jump m pc).stall = w.stall := rfl
@[simp] theorem Wave.jump_turn (w : Wave) (m : Lanes) (pc : Word64) : (w.jump m pc).turn = w.turn := rfl
@[simp] theorem Wave.jump_yielded (w : Wave) (m : Lanes) (pc : Word64) : (w.jump m pc).yielded = w.yielded := rfl
@[simp] theorem Wave.jump_pwrTaken (w : Wave) (m : Lanes) (pc : Word64) : (w.jump m pc).pwrTaken = w.pwrTaken := rfl
@[simp] theorem Wave.jump_pwrOwed (w : Wave) (m : Lanes) (pc : Word64) : (w.jump m pc).pwrOwed = w.pwrOwed := rfl
@[simp] theorem Wave.jump_preTrap (w : Wave) (m : Lanes) (pc : Word64) : (w.jump m pc).preTrap = w.preTrap := rfl
@[simp] theorem Wave.jump_objs (w : Wave) (m : Lanes) (pc : Word64) : (w.jump m pc).objs = w.objs := rfl
@[simp] theorem Wave.jump_contWave (w : Wave) (m : Lanes) (pc : Word64) : (w.jump m pc).contWave = w.contWave := rfl
@[simp] theorem Wave.jump_emu (w : Wave) (m : Lanes) (pc : Word64) : (w.jump m pc).emu = w.emu := rfl
@[simp] theorem Wave.regionEntry_life (w : Wave) (m : Lanes) : (w.regionEntry m).life = w.life := rfl
@[simp] theorem Wave.regionEntry_stream (w : Wave) (m : Lanes) : (w.regionEntry m).stream = w.stream := rfl
@[simp] theorem Wave.regionEntry_blk (w : Wave) (m : Lanes) : (w.regionEntry m).blk = w.blk := rfl
@[simp] theorem Wave.regionEntry_index (w : Wave) (m : Lanes) : (w.regionEntry m).index = w.index := rfl
@[simp] theorem Wave.regionEntry_stage (w : Wave) (m : Lanes) : (w.regionEntry m).stage = w.stage := rfl
@[simp] theorem Wave.regionEntry_placed (w : Wave) (m : Lanes) : (w.regionEntry m).placed = w.placed := rfl
@[simp] theorem Wave.regionEntry_parts (w : Wave) (m : Lanes) : (w.regionEntry m).parts = (w.onParts m (fun p => { p with rpc := p.pc })).parts := rfl
@[simp] theorem Wave.regionEntry_held (w : Wave) (m : Lanes) : (w.regionEntry m).held = w.held := rfl
@[simp] theorem Wave.regionEntry_waiting (w : Wave) (m : Lanes) : (w.regionEntry m).waiting = w.waiting := rfl
@[simp] theorem Wave.regionEntry_v (w : Wave) (m : Lanes) : (w.regionEntry m).v = w.v := rfl
@[simp] theorem Wave.regionEntry_s (w : Wave) (m : Lanes) : (w.regionEntry m).s = w.s := rfl
@[simp] theorem Wave.regionEntry_p (w : Wave) (m : Lanes) : (w.regionEntry m).p = w.p := rfl
@[simp] theorem Wave.regionEntry_a (w : Wave) (m : Lanes) : (w.regionEntry m).a = w.a := rfl
@[simp] theorem Wave.regionEntry_m (w : Wave) (m : Lanes) : (w.regionEntry m).m = w.m := rfl
@[simp] theorem Wave.regionEntry_vEmpty (w : Wave) (m : Lanes) : (w.regionEntry m).vEmpty = w.vEmpty := rfl
@[simp] theorem Wave.regionEntry_vInd (w : Wave) (m : Lanes) : (w.regionEntry m).vInd = w.vInd := rfl
@[simp] theorem Wave.regionEntry_sEmpty (w : Wave) (m : Lanes) : (w.regionEntry m).sEmpty = w.sEmpty := rfl
@[simp] theorem Wave.regionEntry_sInd (w : Wave) (m : Lanes) : (w.regionEntry m).sInd = w.sInd := rfl
@[simp] theorem Wave.regionEntry_valloc (w : Wave) (m : Lanes) : (w.regionEntry m).valloc = w.valloc := rfl
@[simp] theorem Wave.regionEntry_acquired (w : Wave) (m : Lanes) : (w.regionEntry m).acquired = w.acquired := rfl
@[simp] theorem Wave.regionEntry_fpcr (w : Wave) (m : Lanes) : (w.regionEntry m).fpcr = w.fpcr := rfl
@[simp] theorem Wave.regionEntry_fpsr (w : Wave) (m : Lanes) : (w.regionEntry m).fpsr = w.fpsr := rfl
@[simp] theorem Wave.regionEntry_sched (w : Wave) (m : Lanes) : (w.regionEntry m).sched = w.sched := rfl
@[simp] theorem Wave.regionEntry_rgn (w : Wave) (m : Lanes) : (w.regionEntry m).rgn = w.rgn + 1 := rfl
@[simp] theorem Wave.regionEntry_epc (w : Wave) (m : Lanes) : (w.regionEntry m).epc = w.epc := rfl
@[simp] theorem Wave.regionEntry_cause (w : Wave) (m : Lanes) : (w.regionEntry m).cause = w.cause := rfl
@[simp] theorem Wave.regionEntry_sepc (w : Wave) (m : Lanes) : (w.regionEntry m).sepc = w.sepc := rfl
@[simp] theorem Wave.regionEntry_scause (w : Wave) (m : Lanes) : (w.regionEntry m).scause = w.scause := rfl
@[simp] theorem Wave.regionEntry_utrap (w : Wave) (m : Lanes) : (w.regionEntry m).utrap = w.utrap := rfl
@[simp] theorem Wave.regionEntry_handler (w : Wave) (m : Lanes) : (w.regionEntry m).handler = w.handler := rfl
@[simp] theorem Wave.regionEntry_frame (w : Wave) (m : Lanes) : (w.regionEntry m).frame = w.frame := rfl
@[simp] theorem Wave.regionEntry_sup (w : Wave) (m : Lanes) : (w.regionEntry m).sup = w.sup := rfl
@[simp] theorem Wave.regionEntry_seq (w : Wave) (m : Lanes) : (w.regionEntry m).seq = w.seq := rfl
@[simp] theorem Wave.regionEntry_pend (w : Wave) (m : Lanes) : (w.regionEntry m).pend = w.pend := rfl
@[simp] theorem Wave.regionEntry_pendNext (w : Wave) (m : Lanes) : (w.regionEntry m).pendNext = w.pendNext := rfl
@[simp] theorem Wave.regionEntry_young (w : Wave) (m : Lanes) : (w.regionEntry m).young = w.young := rfl
@[simp] theorem Wave.regionEntry_fpTill (w : Wave) (m : Lanes) : (w.regionEntry m).fpTill = w.fpTill := rfl
@[simp] theorem Wave.regionEntry_late (w : Wave) (m : Lanes) : (w.regionEntry m).late = w.late := rfl
@[simp] theorem Wave.regionEntry_mon (w : Wave) (m : Lanes) : (w.regionEntry m).mon = w.mon := rfl
@[simp] theorem Wave.regionEntry_decl (w : Wave) (m : Lanes) : (w.regionEntry m).decl = w.decl := rfl
@[simp] theorem Wave.regionEntry_slot0 (w : Wave) (m : Lanes) : (w.regionEntry m).slot0 = w.slot0 := rfl
@[simp] theorem Wave.regionEntry_slot1 (w : Wave) (m : Lanes) : (w.regionEntry m).slot1 = w.slot1 := rfl
@[simp] theorem Wave.regionEntry_active (w : Wave) (m : Lanes) : (w.regionEntry m).active = w.active := rfl
@[simp] theorem Wave.regionEntry_rounds (w : Wave) (m : Lanes) : (w.regionEntry m).rounds = w.rounds := rfl
@[simp] theorem Wave.regionEntry_acks (w : Wave) (m : Lanes) : (w.regionEntry m).acks = w.acks := rfl
@[simp] theorem Wave.regionEntry_remote (w : Wave) (m : Lanes) : (w.regionEntry m).remote = w.remote := rfl
@[simp] theorem Wave.regionEntry_marked (w : Wave) (m : Lanes) : (w.regionEntry m).marked = w.marked := rfl
@[simp] theorem Wave.regionEntry_stall (w : Wave) (m : Lanes) : (w.regionEntry m).stall = w.stall := rfl
@[simp] theorem Wave.regionEntry_turn (w : Wave) (m : Lanes) : (w.regionEntry m).turn = w.turn := rfl
@[simp] theorem Wave.regionEntry_yielded (w : Wave) (m : Lanes) : (w.regionEntry m).yielded = w.yielded := rfl
@[simp] theorem Wave.regionEntry_pwrTaken (w : Wave) (m : Lanes) : (w.regionEntry m).pwrTaken = w.pwrTaken := rfl
@[simp] theorem Wave.regionEntry_pwrOwed (w : Wave) (m : Lanes) : (w.regionEntry m).pwrOwed = w.pwrOwed := rfl
@[simp] theorem Wave.regionEntry_preTrap (w : Wave) (m : Lanes) : (w.regionEntry m).preTrap = w.preTrap := rfl
@[simp] theorem Wave.regionEntry_objs (w : Wave) (m : Lanes) : (w.regionEntry m).objs = w.objs := rfl
@[simp] theorem Wave.regionEntry_contWave (w : Wave) (m : Lanes) : (w.regionEntry m).contWave = w.contWave := rfl
@[simp] theorem Wave.regionEntry_emu (w : Wave) (m : Lanes) : (w.regionEntry m).emu = w.emu := rfl
@[simp] theorem Wave.setP_life (w : Wave) (n : Nat) (m : Lanes) (f : Nat → Bool) : (w.setP n m f).life = w.life := by
  unfold Wave.setP; split <;> rfl
@[simp] theorem Wave.setP_stream (w : Wave) (n : Nat) (m : Lanes) (f : Nat → Bool) : (w.setP n m f).stream = w.stream := by
  unfold Wave.setP; split <;> rfl
@[simp] theorem Wave.setP_blk (w : Wave) (n : Nat) (m : Lanes) (f : Nat → Bool) : (w.setP n m f).blk = w.blk := by
  unfold Wave.setP; split <;> rfl
@[simp] theorem Wave.setP_index (w : Wave) (n : Nat) (m : Lanes) (f : Nat → Bool) : (w.setP n m f).index = w.index := by
  unfold Wave.setP; split <;> rfl
@[simp] theorem Wave.setP_stage (w : Wave) (n : Nat) (m : Lanes) (f : Nat → Bool) : (w.setP n m f).stage = w.stage := by
  unfold Wave.setP; split <;> rfl
@[simp] theorem Wave.setP_placed (w : Wave) (n : Nat) (m : Lanes) (f : Nat → Bool) : (w.setP n m f).placed = w.placed := by
  unfold Wave.setP; split <;> rfl
@[simp] theorem Wave.setP_parts (w : Wave) (n : Nat) (m : Lanes) (f : Nat → Bool) : (w.setP n m f).parts = w.parts := by
  unfold Wave.setP; split <;> rfl
@[simp] theorem Wave.setP_held (w : Wave) (n : Nat) (m : Lanes) (f : Nat → Bool) : (w.setP n m f).held = w.held := by
  unfold Wave.setP; split <;> rfl
@[simp] theorem Wave.setP_waiting (w : Wave) (n : Nat) (m : Lanes) (f : Nat → Bool) : (w.setP n m f).waiting = w.waiting := by
  unfold Wave.setP; split <;> rfl
@[simp] theorem Wave.setP_v (w : Wave) (n : Nat) (m : Lanes) (f : Nat → Bool) : (w.setP n m f).v = w.v := by
  unfold Wave.setP; split <;> rfl
@[simp] theorem Wave.setP_s (w : Wave) (n : Nat) (m : Lanes) (f : Nat → Bool) : (w.setP n m f).s = w.s := by
  unfold Wave.setP; split <;> rfl
@[simp] theorem Wave.setP_a (w : Wave) (n : Nat) (m : Lanes) (f : Nat → Bool) : (w.setP n m f).a = w.a := by
  unfold Wave.setP; split <;> rfl
@[simp] theorem Wave.setP_m (w : Wave) (n : Nat) (m : Lanes) (f : Nat → Bool) : (w.setP n m f).m = w.m := by
  unfold Wave.setP; split <;> rfl
@[simp] theorem Wave.setP_vEmpty (w : Wave) (n : Nat) (m : Lanes) (f : Nat → Bool) : (w.setP n m f).vEmpty = w.vEmpty := by
  unfold Wave.setP; split <;> rfl
@[simp] theorem Wave.setP_vInd (w : Wave) (n : Nat) (m : Lanes) (f : Nat → Bool) : (w.setP n m f).vInd = w.vInd := by
  unfold Wave.setP; split <;> rfl
@[simp] theorem Wave.setP_sEmpty (w : Wave) (n : Nat) (m : Lanes) (f : Nat → Bool) : (w.setP n m f).sEmpty = w.sEmpty := by
  unfold Wave.setP; split <;> rfl
@[simp] theorem Wave.setP_sInd (w : Wave) (n : Nat) (m : Lanes) (f : Nat → Bool) : (w.setP n m f).sInd = w.sInd := by
  unfold Wave.setP; split <;> rfl
@[simp] theorem Wave.setP_valloc (w : Wave) (n : Nat) (m : Lanes) (f : Nat → Bool) : (w.setP n m f).valloc = w.valloc := by
  unfold Wave.setP; split <;> rfl
@[simp] theorem Wave.setP_acquired (w : Wave) (n : Nat) (m : Lanes) (f : Nat → Bool) : (w.setP n m f).acquired = w.acquired := by
  unfold Wave.setP; split <;> rfl
@[simp] theorem Wave.setP_fpcr (w : Wave) (n : Nat) (m : Lanes) (f : Nat → Bool) : (w.setP n m f).fpcr = w.fpcr := by
  unfold Wave.setP; split <;> rfl
@[simp] theorem Wave.setP_fpsr (w : Wave) (n : Nat) (m : Lanes) (f : Nat → Bool) : (w.setP n m f).fpsr = w.fpsr := by
  unfold Wave.setP; split <;> rfl
@[simp] theorem Wave.setP_sched (w : Wave) (n : Nat) (m : Lanes) (f : Nat → Bool) : (w.setP n m f).sched = w.sched := by
  unfold Wave.setP; split <;> rfl
@[simp] theorem Wave.setP_rgn (w : Wave) (n : Nat) (m : Lanes) (f : Nat → Bool) : (w.setP n m f).rgn = w.rgn := by
  unfold Wave.setP; split <;> rfl
@[simp] theorem Wave.setP_epc (w : Wave) (n : Nat) (m : Lanes) (f : Nat → Bool) : (w.setP n m f).epc = w.epc := by
  unfold Wave.setP; split <;> rfl
@[simp] theorem Wave.setP_cause (w : Wave) (n : Nat) (m : Lanes) (f : Nat → Bool) : (w.setP n m f).cause = w.cause := by
  unfold Wave.setP; split <;> rfl
@[simp] theorem Wave.setP_sepc (w : Wave) (n : Nat) (m : Lanes) (f : Nat → Bool) : (w.setP n m f).sepc = w.sepc := by
  unfold Wave.setP; split <;> rfl
@[simp] theorem Wave.setP_scause (w : Wave) (n : Nat) (m : Lanes) (f : Nat → Bool) : (w.setP n m f).scause = w.scause := by
  unfold Wave.setP; split <;> rfl
@[simp] theorem Wave.setP_utrap (w : Wave) (n : Nat) (m : Lanes) (f : Nat → Bool) : (w.setP n m f).utrap = w.utrap := by
  unfold Wave.setP; split <;> rfl
@[simp] theorem Wave.setP_handler (w : Wave) (n : Nat) (m : Lanes) (f : Nat → Bool) : (w.setP n m f).handler = w.handler := by
  unfold Wave.setP; split <;> rfl
@[simp] theorem Wave.setP_frame (w : Wave) (n : Nat) (m : Lanes) (f : Nat → Bool) : (w.setP n m f).frame = w.frame := by
  unfold Wave.setP; split <;> rfl
@[simp] theorem Wave.setP_sup (w : Wave) (n : Nat) (m : Lanes) (f : Nat → Bool) : (w.setP n m f).sup = w.sup := by
  unfold Wave.setP; split <;> rfl
@[simp] theorem Wave.setP_seq (w : Wave) (n : Nat) (m : Lanes) (f : Nat → Bool) : (w.setP n m f).seq = w.seq := by
  unfold Wave.setP; split <;> rfl
@[simp] theorem Wave.setP_pend (w : Wave) (n : Nat) (m : Lanes) (f : Nat → Bool) : (w.setP n m f).pend = w.pend := by
  unfold Wave.setP; split <;> rfl
@[simp] theorem Wave.setP_pendNext (w : Wave) (n : Nat) (m : Lanes) (f : Nat → Bool) : (w.setP n m f).pendNext = w.pendNext := by
  unfold Wave.setP; split <;> rfl
@[simp] theorem Wave.setP_young (w : Wave) (n : Nat) (m : Lanes) (f : Nat → Bool) : (w.setP n m f).young = w.young := by
  unfold Wave.setP; split <;> rfl
@[simp] theorem Wave.setP_fpTill (w : Wave) (n : Nat) (m : Lanes) (f : Nat → Bool) : (w.setP n m f).fpTill = w.fpTill := by
  unfold Wave.setP; split <;> rfl
@[simp] theorem Wave.setP_late (w : Wave) (n : Nat) (m : Lanes) (f : Nat → Bool) : (w.setP n m f).late = w.late := by
  unfold Wave.setP; split <;> rfl
@[simp] theorem Wave.setP_mon (w : Wave) (n : Nat) (m : Lanes) (f : Nat → Bool) : (w.setP n m f).mon = w.mon := by
  unfold Wave.setP; split <;> rfl
@[simp] theorem Wave.setP_decl (w : Wave) (n : Nat) (m : Lanes) (f : Nat → Bool) : (w.setP n m f).decl = w.decl := by
  unfold Wave.setP; split <;> rfl
@[simp] theorem Wave.setP_slot0 (w : Wave) (n : Nat) (m : Lanes) (f : Nat → Bool) : (w.setP n m f).slot0 = w.slot0 := by
  unfold Wave.setP; split <;> rfl
@[simp] theorem Wave.setP_slot1 (w : Wave) (n : Nat) (m : Lanes) (f : Nat → Bool) : (w.setP n m f).slot1 = w.slot1 := by
  unfold Wave.setP; split <;> rfl
@[simp] theorem Wave.setP_active (w : Wave) (n : Nat) (m : Lanes) (f : Nat → Bool) : (w.setP n m f).active = w.active := by
  unfold Wave.setP; split <;> rfl
@[simp] theorem Wave.setP_rounds (w : Wave) (n : Nat) (m : Lanes) (f : Nat → Bool) : (w.setP n m f).rounds = w.rounds := by
  unfold Wave.setP; split <;> rfl
@[simp] theorem Wave.setP_acks (w : Wave) (n : Nat) (m : Lanes) (f : Nat → Bool) : (w.setP n m f).acks = w.acks := by
  unfold Wave.setP; split <;> rfl
@[simp] theorem Wave.setP_remote (w : Wave) (n : Nat) (m : Lanes) (f : Nat → Bool) : (w.setP n m f).remote = w.remote := by
  unfold Wave.setP; split <;> rfl
@[simp] theorem Wave.setP_marked (w : Wave) (n : Nat) (m : Lanes) (f : Nat → Bool) : (w.setP n m f).marked = w.marked := by
  unfold Wave.setP; split <;> rfl
@[simp] theorem Wave.setP_stall (w : Wave) (n : Nat) (m : Lanes) (f : Nat → Bool) : (w.setP n m f).stall = w.stall := by
  unfold Wave.setP; split <;> rfl
@[simp] theorem Wave.setP_turn (w : Wave) (n : Nat) (m : Lanes) (f : Nat → Bool) : (w.setP n m f).turn = w.turn := by
  unfold Wave.setP; split <;> rfl
@[simp] theorem Wave.setP_yielded (w : Wave) (n : Nat) (m : Lanes) (f : Nat → Bool) : (w.setP n m f).yielded = w.yielded := by
  unfold Wave.setP; split <;> rfl
@[simp] theorem Wave.setP_pwrTaken (w : Wave) (n : Nat) (m : Lanes) (f : Nat → Bool) : (w.setP n m f).pwrTaken = w.pwrTaken := by
  unfold Wave.setP; split <;> rfl
@[simp] theorem Wave.setP_pwrOwed (w : Wave) (n : Nat) (m : Lanes) (f : Nat → Bool) : (w.setP n m f).pwrOwed = w.pwrOwed := by
  unfold Wave.setP; split <;> rfl
@[simp] theorem Wave.setP_preTrap (w : Wave) (n : Nat) (m : Lanes) (f : Nat → Bool) : (w.setP n m f).preTrap = w.preTrap := by
  unfold Wave.setP; split <;> rfl
@[simp] theorem Wave.setP_objs (w : Wave) (n : Nat) (m : Lanes) (f : Nat → Bool) : (w.setP n m f).objs = w.objs := by
  unfold Wave.setP; split <;> rfl
@[simp] theorem Wave.setP_contWave (w : Wave) (n : Nat) (m : Lanes) (f : Nat → Bool) : (w.setP n m f).contWave = w.contWave := by
  unfold Wave.setP; split <;> rfl
@[simp] theorem Wave.setP_emu (w : Wave) (n : Nat) (m : Lanes) (f : Nat → Bool) : (w.setP n m f).emu = w.emu := by
  unfold Wave.setP; split <;> rfl
@[simp] theorem Run.setWave_mem (r : Run) (n : Nat) (x : Wave) : (r.setWave n x).mem = r.mem := rfl
@[simp] theorem Run.setWave_waves (r : Run) (n : Nat) (x : Wave) : (r.setWave n x).waves = r.waves.put n x := rfl
@[simp] theorem Run.setWave_blocks (r : Run) (n : Nat) (x : Wave) : (r.setWave n x).blocks = r.blocks := rfl
@[simp] theorem Run.setWave_cores (r : Run) (n : Nat) (x : Wave) : (r.setWave n x).cores = r.cores := rfl
@[simp] theorem Run.setWave_pairs (r : Run) (n : Nat) (x : Wave) : (r.setWave n x).pairs = r.pairs := rfl
@[simp] theorem Run.setWave_dies (r : Run) (n : Nat) (x : Wave) : (r.setWave n x).dies = r.dies := rfl
@[simp] theorem Run.setWave_parts (r : Run) (n : Nat) (x : Wave) : (r.setWave n x).parts = r.parts := rfl
@[simp] theorem Run.setWave_ctxs (r : Run) (n : Nat) (x : Wave) : (r.setWave n x).ctxs = r.ctxs := rfl
@[simp] theorem Run.setWave_launches (r : Run) (n : Nat) (x : Wave) : (r.setWave n x).launches = r.launches := rfl
@[simp] theorem Run.setWave_queues (r : Run) (n : Nat) (x : Wave) : (r.setWave n x).queues = r.queues := rfl
@[simp] theorem Run.setWave_ports (r : Run) (n : Nat) (x : Wave) : (r.setWave n x).ports = r.ports := rfl
@[simp] theorem Run.setWave_outPairs (r : Run) (n : Nat) (x : Wave) : (r.setWave n x).outPairs = r.outPairs := rfl
@[simp] theorem Run.setWave_outSlices (r : Run) (n : Nat) (x : Wave) : (r.setWave n x).outSlices = r.outSlices := rfl
@[simp] theorem Run.setWave_sick (r : Run) (n : Nat) (x : Wave) : (r.setWave n x).sick = r.sick := rfl
@[simp] theorem Run.setWave_sickSlices (r : Run) (n : Nat) (x : Wave) : (r.setWave n x).sickSlices = r.sickSlices := rfl
@[simp] theorem Run.setWave_eccAt (r : Run) (n : Nat) (x : Wave) : (r.setWave n x).eccAt = r.eccAt := rfl
@[simp] theorem Run.setWave_down (r : Run) (n : Nat) (x : Wave) : (r.setWave n x).down = r.down := rfl
@[simp] theorem Run.setWave_bb (r : Run) (n : Nat) (x : Wave) : (r.setWave n x).bb = r.bb := rfl
@[simp] theorem Run.setWave_bbNext (r : Run) (n : Nat) (x : Wave) : (r.setWave n x).bbNext = r.bbNext := rfl
@[simp] theorem Run.setWave_faultq (r : Run) (n : Nat) (x : Wave) : (r.setWave n x).faultq = r.faultq := rfl
@[simp] theorem Run.setWave_inbox (r : Run) (n : Nat) (x : Wave) : (r.setWave n x).inbox = r.inbox := rfl
@[simp] theorem Run.setWave_out (r : Run) (n : Nat) (x : Wave) : (r.setWave n x).out = r.out := rfl
@[simp] theorem Run.setWave_clk (r : Run) (n : Nat) (x : Wave) : (r.setWave n x).clk = r.clk := rfl
@[simp] theorem Run.setWave_fresh (r : Run) (n : Nat) (x : Wave) : (r.setWave n x).fresh = r.fresh := rfl
@[simp] theorem Run.setWave_recent (r : Run) (n : Nat) (x : Wave) : (r.setWave n x).recent = r.recent := rfl
@[simp] theorem Run.setWave_cur (r : Run) (n : Nat) (x : Wave) : (r.setWave n x).cur = r.cur := rfl
@[simp] theorem Run.setWave_issued (r : Run) (n : Nat) (x : Wave) : (r.setWave n x).issued = r.issued := rfl
@[simp] theorem Run.setWave_evTurn (r : Run) (n : Nat) (x : Wave) : (r.setWave n x).evTurn = r.evTurn := rfl
@[simp] theorem Run.setWave_table (r : Run) (n : Nat) (x : Wave) : (r.setWave n x).table = r.table := rfl
@[simp] theorem Run.onWave_mem (r : Run) (n : Nat) (f : Wave → Wave) : (r.onWave n f).mem = r.mem := rfl
@[simp] theorem Run.onWave_waves (r : Run) (n : Nat) (f : Wave → Wave) : (r.onWave n f).waves = r.waves.upd n f := rfl
@[simp] theorem Run.onWave_blocks (r : Run) (n : Nat) (f : Wave → Wave) : (r.onWave n f).blocks = r.blocks := rfl
@[simp] theorem Run.onWave_cores (r : Run) (n : Nat) (f : Wave → Wave) : (r.onWave n f).cores = r.cores := rfl
@[simp] theorem Run.onWave_pairs (r : Run) (n : Nat) (f : Wave → Wave) : (r.onWave n f).pairs = r.pairs := rfl
@[simp] theorem Run.onWave_dies (r : Run) (n : Nat) (f : Wave → Wave) : (r.onWave n f).dies = r.dies := rfl
@[simp] theorem Run.onWave_parts (r : Run) (n : Nat) (f : Wave → Wave) : (r.onWave n f).parts = r.parts := rfl
@[simp] theorem Run.onWave_ctxs (r : Run) (n : Nat) (f : Wave → Wave) : (r.onWave n f).ctxs = r.ctxs := rfl
@[simp] theorem Run.onWave_launches (r : Run) (n : Nat) (f : Wave → Wave) : (r.onWave n f).launches = r.launches := rfl
@[simp] theorem Run.onWave_queues (r : Run) (n : Nat) (f : Wave → Wave) : (r.onWave n f).queues = r.queues := rfl
@[simp] theorem Run.onWave_ports (r : Run) (n : Nat) (f : Wave → Wave) : (r.onWave n f).ports = r.ports := rfl
@[simp] theorem Run.onWave_outPairs (r : Run) (n : Nat) (f : Wave → Wave) : (r.onWave n f).outPairs = r.outPairs := rfl
@[simp] theorem Run.onWave_outSlices (r : Run) (n : Nat) (f : Wave → Wave) : (r.onWave n f).outSlices = r.outSlices := rfl
@[simp] theorem Run.onWave_sick (r : Run) (n : Nat) (f : Wave → Wave) : (r.onWave n f).sick = r.sick := rfl
@[simp] theorem Run.onWave_sickSlices (r : Run) (n : Nat) (f : Wave → Wave) : (r.onWave n f).sickSlices = r.sickSlices := rfl
@[simp] theorem Run.onWave_eccAt (r : Run) (n : Nat) (f : Wave → Wave) : (r.onWave n f).eccAt = r.eccAt := rfl
@[simp] theorem Run.onWave_down (r : Run) (n : Nat) (f : Wave → Wave) : (r.onWave n f).down = r.down := rfl
@[simp] theorem Run.onWave_bb (r : Run) (n : Nat) (f : Wave → Wave) : (r.onWave n f).bb = r.bb := rfl
@[simp] theorem Run.onWave_bbNext (r : Run) (n : Nat) (f : Wave → Wave) : (r.onWave n f).bbNext = r.bbNext := rfl
@[simp] theorem Run.onWave_faultq (r : Run) (n : Nat) (f : Wave → Wave) : (r.onWave n f).faultq = r.faultq := rfl
@[simp] theorem Run.onWave_inbox (r : Run) (n : Nat) (f : Wave → Wave) : (r.onWave n f).inbox = r.inbox := rfl
@[simp] theorem Run.onWave_out (r : Run) (n : Nat) (f : Wave → Wave) : (r.onWave n f).out = r.out := rfl
@[simp] theorem Run.onWave_clk (r : Run) (n : Nat) (f : Wave → Wave) : (r.onWave n f).clk = r.clk := rfl
@[simp] theorem Run.onWave_fresh (r : Run) (n : Nat) (f : Wave → Wave) : (r.onWave n f).fresh = r.fresh := rfl
@[simp] theorem Run.onWave_recent (r : Run) (n : Nat) (f : Wave → Wave) : (r.onWave n f).recent = r.recent := rfl
@[simp] theorem Run.onWave_cur (r : Run) (n : Nat) (f : Wave → Wave) : (r.onWave n f).cur = r.cur := rfl
@[simp] theorem Run.onWave_issued (r : Run) (n : Nat) (f : Wave → Wave) : (r.onWave n f).issued = r.issued := rfl
@[simp] theorem Run.onWave_evTurn (r : Run) (n : Nat) (f : Wave → Wave) : (r.onWave n f).evTurn = r.evTurn := rfl
@[simp] theorem Run.onWave_table (r : Run) (n : Nat) (f : Wave → Wave) : (r.onWave n f).table = r.table := rfl
@[simp] theorem Run.onBlock_mem (r : Run) (n : Nat) (f : Block → Block) : (r.onBlock n f).mem = r.mem := rfl
@[simp] theorem Run.onBlock_waves (r : Run) (n : Nat) (f : Block → Block) : (r.onBlock n f).waves = r.waves := rfl
@[simp] theorem Run.onBlock_blocks (r : Run) (n : Nat) (f : Block → Block) : (r.onBlock n f).blocks = r.blocks.upd n f := rfl
@[simp] theorem Run.onBlock_cores (r : Run) (n : Nat) (f : Block → Block) : (r.onBlock n f).cores = r.cores := rfl
@[simp] theorem Run.onBlock_pairs (r : Run) (n : Nat) (f : Block → Block) : (r.onBlock n f).pairs = r.pairs := rfl
@[simp] theorem Run.onBlock_dies (r : Run) (n : Nat) (f : Block → Block) : (r.onBlock n f).dies = r.dies := rfl
@[simp] theorem Run.onBlock_parts (r : Run) (n : Nat) (f : Block → Block) : (r.onBlock n f).parts = r.parts := rfl
@[simp] theorem Run.onBlock_ctxs (r : Run) (n : Nat) (f : Block → Block) : (r.onBlock n f).ctxs = r.ctxs := rfl
@[simp] theorem Run.onBlock_launches (r : Run) (n : Nat) (f : Block → Block) : (r.onBlock n f).launches = r.launches := rfl
@[simp] theorem Run.onBlock_queues (r : Run) (n : Nat) (f : Block → Block) : (r.onBlock n f).queues = r.queues := rfl
@[simp] theorem Run.onBlock_ports (r : Run) (n : Nat) (f : Block → Block) : (r.onBlock n f).ports = r.ports := rfl
@[simp] theorem Run.onBlock_outPairs (r : Run) (n : Nat) (f : Block → Block) : (r.onBlock n f).outPairs = r.outPairs := rfl
@[simp] theorem Run.onBlock_outSlices (r : Run) (n : Nat) (f : Block → Block) : (r.onBlock n f).outSlices = r.outSlices := rfl
@[simp] theorem Run.onBlock_sick (r : Run) (n : Nat) (f : Block → Block) : (r.onBlock n f).sick = r.sick := rfl
@[simp] theorem Run.onBlock_sickSlices (r : Run) (n : Nat) (f : Block → Block) : (r.onBlock n f).sickSlices = r.sickSlices := rfl
@[simp] theorem Run.onBlock_eccAt (r : Run) (n : Nat) (f : Block → Block) : (r.onBlock n f).eccAt = r.eccAt := rfl
@[simp] theorem Run.onBlock_down (r : Run) (n : Nat) (f : Block → Block) : (r.onBlock n f).down = r.down := rfl
@[simp] theorem Run.onBlock_bb (r : Run) (n : Nat) (f : Block → Block) : (r.onBlock n f).bb = r.bb := rfl
@[simp] theorem Run.onBlock_bbNext (r : Run) (n : Nat) (f : Block → Block) : (r.onBlock n f).bbNext = r.bbNext := rfl
@[simp] theorem Run.onBlock_faultq (r : Run) (n : Nat) (f : Block → Block) : (r.onBlock n f).faultq = r.faultq := rfl
@[simp] theorem Run.onBlock_inbox (r : Run) (n : Nat) (f : Block → Block) : (r.onBlock n f).inbox = r.inbox := rfl
@[simp] theorem Run.onBlock_out (r : Run) (n : Nat) (f : Block → Block) : (r.onBlock n f).out = r.out := rfl
@[simp] theorem Run.onBlock_clk (r : Run) (n : Nat) (f : Block → Block) : (r.onBlock n f).clk = r.clk := rfl
@[simp] theorem Run.onBlock_fresh (r : Run) (n : Nat) (f : Block → Block) : (r.onBlock n f).fresh = r.fresh := rfl
@[simp] theorem Run.onBlock_recent (r : Run) (n : Nat) (f : Block → Block) : (r.onBlock n f).recent = r.recent := rfl
@[simp] theorem Run.onBlock_cur (r : Run) (n : Nat) (f : Block → Block) : (r.onBlock n f).cur = r.cur := rfl
@[simp] theorem Run.onBlock_issued (r : Run) (n : Nat) (f : Block → Block) : (r.onBlock n f).issued = r.issued := rfl
@[simp] theorem Run.onBlock_evTurn (r : Run) (n : Nat) (f : Block → Block) : (r.onBlock n f).evTurn = r.evTurn := rfl
@[simp] theorem Run.onBlock_table (r : Run) (n : Nat) (f : Block → Block) : (r.onBlock n f).table = r.table := rfl
@[simp] theorem Run.onCtx_mem (r : Run) (n : Nat) (f : Ctx → Ctx) : (r.onCtx n f).mem = r.mem := rfl
@[simp] theorem Run.onCtx_waves (r : Run) (n : Nat) (f : Ctx → Ctx) : (r.onCtx n f).waves = r.waves := rfl
@[simp] theorem Run.onCtx_blocks (r : Run) (n : Nat) (f : Ctx → Ctx) : (r.onCtx n f).blocks = r.blocks := rfl
@[simp] theorem Run.onCtx_cores (r : Run) (n : Nat) (f : Ctx → Ctx) : (r.onCtx n f).cores = r.cores := rfl
@[simp] theorem Run.onCtx_pairs (r : Run) (n : Nat) (f : Ctx → Ctx) : (r.onCtx n f).pairs = r.pairs := rfl
@[simp] theorem Run.onCtx_dies (r : Run) (n : Nat) (f : Ctx → Ctx) : (r.onCtx n f).dies = r.dies := rfl
@[simp] theorem Run.onCtx_parts (r : Run) (n : Nat) (f : Ctx → Ctx) : (r.onCtx n f).parts = r.parts := rfl
@[simp] theorem Run.onCtx_ctxs (r : Run) (n : Nat) (f : Ctx → Ctx) : (r.onCtx n f).ctxs = r.ctxs.upd n f := rfl
@[simp] theorem Run.onCtx_launches (r : Run) (n : Nat) (f : Ctx → Ctx) : (r.onCtx n f).launches = r.launches := rfl
@[simp] theorem Run.onCtx_queues (r : Run) (n : Nat) (f : Ctx → Ctx) : (r.onCtx n f).queues = r.queues := rfl
@[simp] theorem Run.onCtx_ports (r : Run) (n : Nat) (f : Ctx → Ctx) : (r.onCtx n f).ports = r.ports := rfl
@[simp] theorem Run.onCtx_outPairs (r : Run) (n : Nat) (f : Ctx → Ctx) : (r.onCtx n f).outPairs = r.outPairs := rfl
@[simp] theorem Run.onCtx_outSlices (r : Run) (n : Nat) (f : Ctx → Ctx) : (r.onCtx n f).outSlices = r.outSlices := rfl
@[simp] theorem Run.onCtx_sick (r : Run) (n : Nat) (f : Ctx → Ctx) : (r.onCtx n f).sick = r.sick := rfl
@[simp] theorem Run.onCtx_sickSlices (r : Run) (n : Nat) (f : Ctx → Ctx) : (r.onCtx n f).sickSlices = r.sickSlices := rfl
@[simp] theorem Run.onCtx_eccAt (r : Run) (n : Nat) (f : Ctx → Ctx) : (r.onCtx n f).eccAt = r.eccAt := rfl
@[simp] theorem Run.onCtx_down (r : Run) (n : Nat) (f : Ctx → Ctx) : (r.onCtx n f).down = r.down := rfl
@[simp] theorem Run.onCtx_bb (r : Run) (n : Nat) (f : Ctx → Ctx) : (r.onCtx n f).bb = r.bb := rfl
@[simp] theorem Run.onCtx_bbNext (r : Run) (n : Nat) (f : Ctx → Ctx) : (r.onCtx n f).bbNext = r.bbNext := rfl
@[simp] theorem Run.onCtx_faultq (r : Run) (n : Nat) (f : Ctx → Ctx) : (r.onCtx n f).faultq = r.faultq := rfl
@[simp] theorem Run.onCtx_inbox (r : Run) (n : Nat) (f : Ctx → Ctx) : (r.onCtx n f).inbox = r.inbox := rfl
@[simp] theorem Run.onCtx_out (r : Run) (n : Nat) (f : Ctx → Ctx) : (r.onCtx n f).out = r.out := rfl
@[simp] theorem Run.onCtx_clk (r : Run) (n : Nat) (f : Ctx → Ctx) : (r.onCtx n f).clk = r.clk := rfl
@[simp] theorem Run.onCtx_fresh (r : Run) (n : Nat) (f : Ctx → Ctx) : (r.onCtx n f).fresh = r.fresh := rfl
@[simp] theorem Run.onCtx_recent (r : Run) (n : Nat) (f : Ctx → Ctx) : (r.onCtx n f).recent = r.recent := rfl
@[simp] theorem Run.onCtx_cur (r : Run) (n : Nat) (f : Ctx → Ctx) : (r.onCtx n f).cur = r.cur := rfl
@[simp] theorem Run.onCtx_issued (r : Run) (n : Nat) (f : Ctx → Ctx) : (r.onCtx n f).issued = r.issued := rfl
@[simp] theorem Run.onCtx_evTurn (r : Run) (n : Nat) (f : Ctx → Ctx) : (r.onCtx n f).evTurn = r.evTurn := rfl
@[simp] theorem Run.onCtx_table (r : Run) (n : Nat) (f : Ctx → Ctx) : (r.onCtx n f).table = r.table := rfl
@[simp] theorem Run.onLaunch_mem (r : Run) (n : Nat) (f : Launch → Launch) : (r.onLaunch n f).mem = r.mem := rfl
@[simp] theorem Run.onLaunch_waves (r : Run) (n : Nat) (f : Launch → Launch) : (r.onLaunch n f).waves = r.waves := rfl
@[simp] theorem Run.onLaunch_blocks (r : Run) (n : Nat) (f : Launch → Launch) : (r.onLaunch n f).blocks = r.blocks := rfl
@[simp] theorem Run.onLaunch_cores (r : Run) (n : Nat) (f : Launch → Launch) : (r.onLaunch n f).cores = r.cores := rfl
@[simp] theorem Run.onLaunch_pairs (r : Run) (n : Nat) (f : Launch → Launch) : (r.onLaunch n f).pairs = r.pairs := rfl
@[simp] theorem Run.onLaunch_dies (r : Run) (n : Nat) (f : Launch → Launch) : (r.onLaunch n f).dies = r.dies := rfl
@[simp] theorem Run.onLaunch_parts (r : Run) (n : Nat) (f : Launch → Launch) : (r.onLaunch n f).parts = r.parts := rfl
@[simp] theorem Run.onLaunch_ctxs (r : Run) (n : Nat) (f : Launch → Launch) : (r.onLaunch n f).ctxs = r.ctxs := rfl
@[simp] theorem Run.onLaunch_launches (r : Run) (n : Nat) (f : Launch → Launch) : (r.onLaunch n f).launches = r.launches.upd n f := rfl
@[simp] theorem Run.onLaunch_queues (r : Run) (n : Nat) (f : Launch → Launch) : (r.onLaunch n f).queues = r.queues := rfl
@[simp] theorem Run.onLaunch_ports (r : Run) (n : Nat) (f : Launch → Launch) : (r.onLaunch n f).ports = r.ports := rfl
@[simp] theorem Run.onLaunch_outPairs (r : Run) (n : Nat) (f : Launch → Launch) : (r.onLaunch n f).outPairs = r.outPairs := rfl
@[simp] theorem Run.onLaunch_outSlices (r : Run) (n : Nat) (f : Launch → Launch) : (r.onLaunch n f).outSlices = r.outSlices := rfl
@[simp] theorem Run.onLaunch_sick (r : Run) (n : Nat) (f : Launch → Launch) : (r.onLaunch n f).sick = r.sick := rfl
@[simp] theorem Run.onLaunch_sickSlices (r : Run) (n : Nat) (f : Launch → Launch) : (r.onLaunch n f).sickSlices = r.sickSlices := rfl
@[simp] theorem Run.onLaunch_eccAt (r : Run) (n : Nat) (f : Launch → Launch) : (r.onLaunch n f).eccAt = r.eccAt := rfl
@[simp] theorem Run.onLaunch_down (r : Run) (n : Nat) (f : Launch → Launch) : (r.onLaunch n f).down = r.down := rfl
@[simp] theorem Run.onLaunch_bb (r : Run) (n : Nat) (f : Launch → Launch) : (r.onLaunch n f).bb = r.bb := rfl
@[simp] theorem Run.onLaunch_bbNext (r : Run) (n : Nat) (f : Launch → Launch) : (r.onLaunch n f).bbNext = r.bbNext := rfl
@[simp] theorem Run.onLaunch_faultq (r : Run) (n : Nat) (f : Launch → Launch) : (r.onLaunch n f).faultq = r.faultq := rfl
@[simp] theorem Run.onLaunch_inbox (r : Run) (n : Nat) (f : Launch → Launch) : (r.onLaunch n f).inbox = r.inbox := rfl
@[simp] theorem Run.onLaunch_out (r : Run) (n : Nat) (f : Launch → Launch) : (r.onLaunch n f).out = r.out := rfl
@[simp] theorem Run.onLaunch_clk (r : Run) (n : Nat) (f : Launch → Launch) : (r.onLaunch n f).clk = r.clk := rfl
@[simp] theorem Run.onLaunch_fresh (r : Run) (n : Nat) (f : Launch → Launch) : (r.onLaunch n f).fresh = r.fresh := rfl
@[simp] theorem Run.onLaunch_recent (r : Run) (n : Nat) (f : Launch → Launch) : (r.onLaunch n f).recent = r.recent := rfl
@[simp] theorem Run.onLaunch_cur (r : Run) (n : Nat) (f : Launch → Launch) : (r.onLaunch n f).cur = r.cur := rfl
@[simp] theorem Run.onLaunch_issued (r : Run) (n : Nat) (f : Launch → Launch) : (r.onLaunch n f).issued = r.issued := rfl
@[simp] theorem Run.onLaunch_evTurn (r : Run) (n : Nat) (f : Launch → Launch) : (r.onLaunch n f).evTurn = r.evTurn := rfl
@[simp] theorem Run.onLaunch_table (r : Run) (n : Nat) (f : Launch → Launch) : (r.onLaunch n f).table = r.table := rfl
@[simp] theorem Run.onQueue_mem (r : Run) (n : Nat) (f : Queue → Queue) : (r.onQueue n f).mem = r.mem := rfl
@[simp] theorem Run.onQueue_waves (r : Run) (n : Nat) (f : Queue → Queue) : (r.onQueue n f).waves = r.waves := rfl
@[simp] theorem Run.onQueue_blocks (r : Run) (n : Nat) (f : Queue → Queue) : (r.onQueue n f).blocks = r.blocks := rfl
@[simp] theorem Run.onQueue_cores (r : Run) (n : Nat) (f : Queue → Queue) : (r.onQueue n f).cores = r.cores := rfl
@[simp] theorem Run.onQueue_pairs (r : Run) (n : Nat) (f : Queue → Queue) : (r.onQueue n f).pairs = r.pairs := rfl
@[simp] theorem Run.onQueue_dies (r : Run) (n : Nat) (f : Queue → Queue) : (r.onQueue n f).dies = r.dies := rfl
@[simp] theorem Run.onQueue_parts (r : Run) (n : Nat) (f : Queue → Queue) : (r.onQueue n f).parts = r.parts := rfl
@[simp] theorem Run.onQueue_ctxs (r : Run) (n : Nat) (f : Queue → Queue) : (r.onQueue n f).ctxs = r.ctxs := rfl
@[simp] theorem Run.onQueue_launches (r : Run) (n : Nat) (f : Queue → Queue) : (r.onQueue n f).launches = r.launches := rfl
@[simp] theorem Run.onQueue_queues (r : Run) (n : Nat) (f : Queue → Queue) : (r.onQueue n f).queues = r.queues.upd n f := rfl
@[simp] theorem Run.onQueue_ports (r : Run) (n : Nat) (f : Queue → Queue) : (r.onQueue n f).ports = r.ports := rfl
@[simp] theorem Run.onQueue_outPairs (r : Run) (n : Nat) (f : Queue → Queue) : (r.onQueue n f).outPairs = r.outPairs := rfl
@[simp] theorem Run.onQueue_outSlices (r : Run) (n : Nat) (f : Queue → Queue) : (r.onQueue n f).outSlices = r.outSlices := rfl
@[simp] theorem Run.onQueue_sick (r : Run) (n : Nat) (f : Queue → Queue) : (r.onQueue n f).sick = r.sick := rfl
@[simp] theorem Run.onQueue_sickSlices (r : Run) (n : Nat) (f : Queue → Queue) : (r.onQueue n f).sickSlices = r.sickSlices := rfl
@[simp] theorem Run.onQueue_eccAt (r : Run) (n : Nat) (f : Queue → Queue) : (r.onQueue n f).eccAt = r.eccAt := rfl
@[simp] theorem Run.onQueue_down (r : Run) (n : Nat) (f : Queue → Queue) : (r.onQueue n f).down = r.down := rfl
@[simp] theorem Run.onQueue_bb (r : Run) (n : Nat) (f : Queue → Queue) : (r.onQueue n f).bb = r.bb := rfl
@[simp] theorem Run.onQueue_bbNext (r : Run) (n : Nat) (f : Queue → Queue) : (r.onQueue n f).bbNext = r.bbNext := rfl
@[simp] theorem Run.onQueue_faultq (r : Run) (n : Nat) (f : Queue → Queue) : (r.onQueue n f).faultq = r.faultq := rfl
@[simp] theorem Run.onQueue_inbox (r : Run) (n : Nat) (f : Queue → Queue) : (r.onQueue n f).inbox = r.inbox := rfl
@[simp] theorem Run.onQueue_out (r : Run) (n : Nat) (f : Queue → Queue) : (r.onQueue n f).out = r.out := rfl
@[simp] theorem Run.onQueue_clk (r : Run) (n : Nat) (f : Queue → Queue) : (r.onQueue n f).clk = r.clk := rfl
@[simp] theorem Run.onQueue_fresh (r : Run) (n : Nat) (f : Queue → Queue) : (r.onQueue n f).fresh = r.fresh := rfl
@[simp] theorem Run.onQueue_recent (r : Run) (n : Nat) (f : Queue → Queue) : (r.onQueue n f).recent = r.recent := rfl
@[simp] theorem Run.onQueue_cur (r : Run) (n : Nat) (f : Queue → Queue) : (r.onQueue n f).cur = r.cur := rfl
@[simp] theorem Run.onQueue_issued (r : Run) (n : Nat) (f : Queue → Queue) : (r.onQueue n f).issued = r.issued := rfl
@[simp] theorem Run.onQueue_evTurn (r : Run) (n : Nat) (f : Queue → Queue) : (r.onQueue n f).evTurn = r.evTurn := rfl
@[simp] theorem Run.onQueue_table (r : Run) (n : Nat) (f : Queue → Queue) : (r.onQueue n f).table = r.table := rfl
@[simp] theorem Run.setCore_mem (r : Run) (n : Nat) (x : Core) : (r.setCore n x).mem = r.mem := rfl
@[simp] theorem Run.setCore_waves (r : Run) (n : Nat) (x : Core) : (r.setCore n x).waves = r.waves := rfl
@[simp] theorem Run.setCore_blocks (r : Run) (n : Nat) (x : Core) : (r.setCore n x).blocks = r.blocks := rfl
@[simp] theorem Run.setCore_cores (r : Run) (n : Nat) (x : Core) : (r.setCore n x).cores = r.cores.put n x := rfl
@[simp] theorem Run.setCore_pairs (r : Run) (n : Nat) (x : Core) : (r.setCore n x).pairs = r.pairs := rfl
@[simp] theorem Run.setCore_dies (r : Run) (n : Nat) (x : Core) : (r.setCore n x).dies = r.dies := rfl
@[simp] theorem Run.setCore_parts (r : Run) (n : Nat) (x : Core) : (r.setCore n x).parts = r.parts := rfl
@[simp] theorem Run.setCore_ctxs (r : Run) (n : Nat) (x : Core) : (r.setCore n x).ctxs = r.ctxs := rfl
@[simp] theorem Run.setCore_launches (r : Run) (n : Nat) (x : Core) : (r.setCore n x).launches = r.launches := rfl
@[simp] theorem Run.setCore_queues (r : Run) (n : Nat) (x : Core) : (r.setCore n x).queues = r.queues := rfl
@[simp] theorem Run.setCore_ports (r : Run) (n : Nat) (x : Core) : (r.setCore n x).ports = r.ports := rfl
@[simp] theorem Run.setCore_outPairs (r : Run) (n : Nat) (x : Core) : (r.setCore n x).outPairs = r.outPairs := rfl
@[simp] theorem Run.setCore_outSlices (r : Run) (n : Nat) (x : Core) : (r.setCore n x).outSlices = r.outSlices := rfl
@[simp] theorem Run.setCore_sick (r : Run) (n : Nat) (x : Core) : (r.setCore n x).sick = r.sick := rfl
@[simp] theorem Run.setCore_sickSlices (r : Run) (n : Nat) (x : Core) : (r.setCore n x).sickSlices = r.sickSlices := rfl
@[simp] theorem Run.setCore_eccAt (r : Run) (n : Nat) (x : Core) : (r.setCore n x).eccAt = r.eccAt := rfl
@[simp] theorem Run.setCore_down (r : Run) (n : Nat) (x : Core) : (r.setCore n x).down = r.down := rfl
@[simp] theorem Run.setCore_bb (r : Run) (n : Nat) (x : Core) : (r.setCore n x).bb = r.bb := rfl
@[simp] theorem Run.setCore_bbNext (r : Run) (n : Nat) (x : Core) : (r.setCore n x).bbNext = r.bbNext := rfl
@[simp] theorem Run.setCore_faultq (r : Run) (n : Nat) (x : Core) : (r.setCore n x).faultq = r.faultq := rfl
@[simp] theorem Run.setCore_inbox (r : Run) (n : Nat) (x : Core) : (r.setCore n x).inbox = r.inbox := rfl
@[simp] theorem Run.setCore_out (r : Run) (n : Nat) (x : Core) : (r.setCore n x).out = r.out := rfl
@[simp] theorem Run.setCore_clk (r : Run) (n : Nat) (x : Core) : (r.setCore n x).clk = r.clk := rfl
@[simp] theorem Run.setCore_fresh (r : Run) (n : Nat) (x : Core) : (r.setCore n x).fresh = r.fresh := rfl
@[simp] theorem Run.setCore_recent (r : Run) (n : Nat) (x : Core) : (r.setCore n x).recent = r.recent := rfl
@[simp] theorem Run.setCore_cur (r : Run) (n : Nat) (x : Core) : (r.setCore n x).cur = r.cur := rfl
@[simp] theorem Run.setCore_issued (r : Run) (n : Nat) (x : Core) : (r.setCore n x).issued = r.issued := rfl
@[simp] theorem Run.setCore_evTurn (r : Run) (n : Nat) (x : Core) : (r.setCore n x).evTurn = r.evTurn := rfl
@[simp] theorem Run.setCore_table (r : Run) (n : Nat) (x : Core) : (r.setCore n x).table = r.table := rfl
@[simp] theorem Run.onCore_mem (r : Run) (n : Nat) (f : Core → Core) : (r.onCore n f).mem = r.mem := rfl
@[simp] theorem Run.onCore_waves (r : Run) (n : Nat) (f : Core → Core) : (r.onCore n f).waves = r.waves := rfl
@[simp] theorem Run.onCore_blocks (r : Run) (n : Nat) (f : Core → Core) : (r.onCore n f).blocks = r.blocks := rfl
@[simp] theorem Run.onCore_cores (r : Run) (n : Nat) (f : Core → Core) : (r.onCore n f).cores = r.cores.put n (f (r.core n)) := rfl
@[simp] theorem Run.onCore_pairs (r : Run) (n : Nat) (f : Core → Core) : (r.onCore n f).pairs = r.pairs := rfl
@[simp] theorem Run.onCore_dies (r : Run) (n : Nat) (f : Core → Core) : (r.onCore n f).dies = r.dies := rfl
@[simp] theorem Run.onCore_parts (r : Run) (n : Nat) (f : Core → Core) : (r.onCore n f).parts = r.parts := rfl
@[simp] theorem Run.onCore_ctxs (r : Run) (n : Nat) (f : Core → Core) : (r.onCore n f).ctxs = r.ctxs := rfl
@[simp] theorem Run.onCore_launches (r : Run) (n : Nat) (f : Core → Core) : (r.onCore n f).launches = r.launches := rfl
@[simp] theorem Run.onCore_queues (r : Run) (n : Nat) (f : Core → Core) : (r.onCore n f).queues = r.queues := rfl
@[simp] theorem Run.onCore_ports (r : Run) (n : Nat) (f : Core → Core) : (r.onCore n f).ports = r.ports := rfl
@[simp] theorem Run.onCore_outPairs (r : Run) (n : Nat) (f : Core → Core) : (r.onCore n f).outPairs = r.outPairs := rfl
@[simp] theorem Run.onCore_outSlices (r : Run) (n : Nat) (f : Core → Core) : (r.onCore n f).outSlices = r.outSlices := rfl
@[simp] theorem Run.onCore_sick (r : Run) (n : Nat) (f : Core → Core) : (r.onCore n f).sick = r.sick := rfl
@[simp] theorem Run.onCore_sickSlices (r : Run) (n : Nat) (f : Core → Core) : (r.onCore n f).sickSlices = r.sickSlices := rfl
@[simp] theorem Run.onCore_eccAt (r : Run) (n : Nat) (f : Core → Core) : (r.onCore n f).eccAt = r.eccAt := rfl
@[simp] theorem Run.onCore_down (r : Run) (n : Nat) (f : Core → Core) : (r.onCore n f).down = r.down := rfl
@[simp] theorem Run.onCore_bb (r : Run) (n : Nat) (f : Core → Core) : (r.onCore n f).bb = r.bb := rfl
@[simp] theorem Run.onCore_bbNext (r : Run) (n : Nat) (f : Core → Core) : (r.onCore n f).bbNext = r.bbNext := rfl
@[simp] theorem Run.onCore_faultq (r : Run) (n : Nat) (f : Core → Core) : (r.onCore n f).faultq = r.faultq := rfl
@[simp] theorem Run.onCore_inbox (r : Run) (n : Nat) (f : Core → Core) : (r.onCore n f).inbox = r.inbox := rfl
@[simp] theorem Run.onCore_out (r : Run) (n : Nat) (f : Core → Core) : (r.onCore n f).out = r.out := rfl
@[simp] theorem Run.onCore_clk (r : Run) (n : Nat) (f : Core → Core) : (r.onCore n f).clk = r.clk := rfl
@[simp] theorem Run.onCore_fresh (r : Run) (n : Nat) (f : Core → Core) : (r.onCore n f).fresh = r.fresh := rfl
@[simp] theorem Run.onCore_recent (r : Run) (n : Nat) (f : Core → Core) : (r.onCore n f).recent = r.recent := rfl
@[simp] theorem Run.onCore_cur (r : Run) (n : Nat) (f : Core → Core) : (r.onCore n f).cur = r.cur := rfl
@[simp] theorem Run.onCore_issued (r : Run) (n : Nat) (f : Core → Core) : (r.onCore n f).issued = r.issued := rfl
@[simp] theorem Run.onCore_evTurn (r : Run) (n : Nat) (f : Core → Core) : (r.onCore n f).evTurn = r.evTurn := rfl
@[simp] theorem Run.onCore_table (r : Run) (n : Nat) (f : Core → Core) : (r.onCore n f).table = r.table := rfl
@[simp] theorem Run.onPair_mem (r : Run) (n : Nat) (f : Pair → Pair) : (r.onPair n f).mem = r.mem := rfl
@[simp] theorem Run.onPair_waves (r : Run) (n : Nat) (f : Pair → Pair) : (r.onPair n f).waves = r.waves := rfl
@[simp] theorem Run.onPair_blocks (r : Run) (n : Nat) (f : Pair → Pair) : (r.onPair n f).blocks = r.blocks := rfl
@[simp] theorem Run.onPair_cores (r : Run) (n : Nat) (f : Pair → Pair) : (r.onPair n f).cores = r.cores := rfl
@[simp] theorem Run.onPair_pairs (r : Run) (n : Nat) (f : Pair → Pair) : (r.onPair n f).pairs = r.pairs.put n (f (r.pair n)) := rfl
@[simp] theorem Run.onPair_dies (r : Run) (n : Nat) (f : Pair → Pair) : (r.onPair n f).dies = r.dies := rfl
@[simp] theorem Run.onPair_parts (r : Run) (n : Nat) (f : Pair → Pair) : (r.onPair n f).parts = r.parts := rfl
@[simp] theorem Run.onPair_ctxs (r : Run) (n : Nat) (f : Pair → Pair) : (r.onPair n f).ctxs = r.ctxs := rfl
@[simp] theorem Run.onPair_launches (r : Run) (n : Nat) (f : Pair → Pair) : (r.onPair n f).launches = r.launches := rfl
@[simp] theorem Run.onPair_queues (r : Run) (n : Nat) (f : Pair → Pair) : (r.onPair n f).queues = r.queues := rfl
@[simp] theorem Run.onPair_ports (r : Run) (n : Nat) (f : Pair → Pair) : (r.onPair n f).ports = r.ports := rfl
@[simp] theorem Run.onPair_outPairs (r : Run) (n : Nat) (f : Pair → Pair) : (r.onPair n f).outPairs = r.outPairs := rfl
@[simp] theorem Run.onPair_outSlices (r : Run) (n : Nat) (f : Pair → Pair) : (r.onPair n f).outSlices = r.outSlices := rfl
@[simp] theorem Run.onPair_sick (r : Run) (n : Nat) (f : Pair → Pair) : (r.onPair n f).sick = r.sick := rfl
@[simp] theorem Run.onPair_sickSlices (r : Run) (n : Nat) (f : Pair → Pair) : (r.onPair n f).sickSlices = r.sickSlices := rfl
@[simp] theorem Run.onPair_eccAt (r : Run) (n : Nat) (f : Pair → Pair) : (r.onPair n f).eccAt = r.eccAt := rfl
@[simp] theorem Run.onPair_down (r : Run) (n : Nat) (f : Pair → Pair) : (r.onPair n f).down = r.down := rfl
@[simp] theorem Run.onPair_bb (r : Run) (n : Nat) (f : Pair → Pair) : (r.onPair n f).bb = r.bb := rfl
@[simp] theorem Run.onPair_bbNext (r : Run) (n : Nat) (f : Pair → Pair) : (r.onPair n f).bbNext = r.bbNext := rfl
@[simp] theorem Run.onPair_faultq (r : Run) (n : Nat) (f : Pair → Pair) : (r.onPair n f).faultq = r.faultq := rfl
@[simp] theorem Run.onPair_inbox (r : Run) (n : Nat) (f : Pair → Pair) : (r.onPair n f).inbox = r.inbox := rfl
@[simp] theorem Run.onPair_out (r : Run) (n : Nat) (f : Pair → Pair) : (r.onPair n f).out = r.out := rfl
@[simp] theorem Run.onPair_clk (r : Run) (n : Nat) (f : Pair → Pair) : (r.onPair n f).clk = r.clk := rfl
@[simp] theorem Run.onPair_fresh (r : Run) (n : Nat) (f : Pair → Pair) : (r.onPair n f).fresh = r.fresh := rfl
@[simp] theorem Run.onPair_recent (r : Run) (n : Nat) (f : Pair → Pair) : (r.onPair n f).recent = r.recent := rfl
@[simp] theorem Run.onPair_cur (r : Run) (n : Nat) (f : Pair → Pair) : (r.onPair n f).cur = r.cur := rfl
@[simp] theorem Run.onPair_issued (r : Run) (n : Nat) (f : Pair → Pair) : (r.onPair n f).issued = r.issued := rfl
@[simp] theorem Run.onPair_evTurn (r : Run) (n : Nat) (f : Pair → Pair) : (r.onPair n f).evTurn = r.evTurn := rfl
@[simp] theorem Run.onPair_table (r : Run) (n : Nat) (f : Pair → Pair) : (r.onPair n f).table = r.table := rfl
@[simp] theorem Run.onDie_mem (r : Run) (n : Nat) (f : Die → Die) : (r.onDie n f).mem = r.mem := rfl
@[simp] theorem Run.onDie_waves (r : Run) (n : Nat) (f : Die → Die) : (r.onDie n f).waves = r.waves := rfl
@[simp] theorem Run.onDie_blocks (r : Run) (n : Nat) (f : Die → Die) : (r.onDie n f).blocks = r.blocks := rfl
@[simp] theorem Run.onDie_cores (r : Run) (n : Nat) (f : Die → Die) : (r.onDie n f).cores = r.cores := rfl
@[simp] theorem Run.onDie_pairs (r : Run) (n : Nat) (f : Die → Die) : (r.onDie n f).pairs = r.pairs := rfl
@[simp] theorem Run.onDie_dies (r : Run) (n : Nat) (f : Die → Die) : (r.onDie n f).dies = r.dies.put n (f (r.die n)) := rfl
@[simp] theorem Run.onDie_parts (r : Run) (n : Nat) (f : Die → Die) : (r.onDie n f).parts = r.parts := rfl
@[simp] theorem Run.onDie_ctxs (r : Run) (n : Nat) (f : Die → Die) : (r.onDie n f).ctxs = r.ctxs := rfl
@[simp] theorem Run.onDie_launches (r : Run) (n : Nat) (f : Die → Die) : (r.onDie n f).launches = r.launches := rfl
@[simp] theorem Run.onDie_queues (r : Run) (n : Nat) (f : Die → Die) : (r.onDie n f).queues = r.queues := rfl
@[simp] theorem Run.onDie_ports (r : Run) (n : Nat) (f : Die → Die) : (r.onDie n f).ports = r.ports := rfl
@[simp] theorem Run.onDie_outPairs (r : Run) (n : Nat) (f : Die → Die) : (r.onDie n f).outPairs = r.outPairs := rfl
@[simp] theorem Run.onDie_outSlices (r : Run) (n : Nat) (f : Die → Die) : (r.onDie n f).outSlices = r.outSlices := rfl
@[simp] theorem Run.onDie_sick (r : Run) (n : Nat) (f : Die → Die) : (r.onDie n f).sick = r.sick := rfl
@[simp] theorem Run.onDie_sickSlices (r : Run) (n : Nat) (f : Die → Die) : (r.onDie n f).sickSlices = r.sickSlices := rfl
@[simp] theorem Run.onDie_eccAt (r : Run) (n : Nat) (f : Die → Die) : (r.onDie n f).eccAt = r.eccAt := rfl
@[simp] theorem Run.onDie_down (r : Run) (n : Nat) (f : Die → Die) : (r.onDie n f).down = r.down := rfl
@[simp] theorem Run.onDie_bb (r : Run) (n : Nat) (f : Die → Die) : (r.onDie n f).bb = r.bb := rfl
@[simp] theorem Run.onDie_bbNext (r : Run) (n : Nat) (f : Die → Die) : (r.onDie n f).bbNext = r.bbNext := rfl
@[simp] theorem Run.onDie_faultq (r : Run) (n : Nat) (f : Die → Die) : (r.onDie n f).faultq = r.faultq := rfl
@[simp] theorem Run.onDie_inbox (r : Run) (n : Nat) (f : Die → Die) : (r.onDie n f).inbox = r.inbox := rfl
@[simp] theorem Run.onDie_out (r : Run) (n : Nat) (f : Die → Die) : (r.onDie n f).out = r.out := rfl
@[simp] theorem Run.onDie_clk (r : Run) (n : Nat) (f : Die → Die) : (r.onDie n f).clk = r.clk := rfl
@[simp] theorem Run.onDie_fresh (r : Run) (n : Nat) (f : Die → Die) : (r.onDie n f).fresh = r.fresh := rfl
@[simp] theorem Run.onDie_recent (r : Run) (n : Nat) (f : Die → Die) : (r.onDie n f).recent = r.recent := rfl
@[simp] theorem Run.onDie_cur (r : Run) (n : Nat) (f : Die → Die) : (r.onDie n f).cur = r.cur := rfl
@[simp] theorem Run.onDie_issued (r : Run) (n : Nat) (f : Die → Die) : (r.onDie n f).issued = r.issued := rfl
@[simp] theorem Run.onDie_evTurn (r : Run) (n : Nat) (f : Die → Die) : (r.onDie n f).evTurn = r.evTurn := rfl
@[simp] theorem Run.onDie_table (r : Run) (n : Nat) (f : Die → Die) : (r.onDie n f).table = r.table := rfl
@[simp] theorem Run.onPart_mem (r : Run) (n : Nat) (f : Partition → Partition) : (r.onPart n f).mem = r.mem := rfl
@[simp] theorem Run.onPart_waves (r : Run) (n : Nat) (f : Partition → Partition) : (r.onPart n f).waves = r.waves := rfl
@[simp] theorem Run.onPart_blocks (r : Run) (n : Nat) (f : Partition → Partition) : (r.onPart n f).blocks = r.blocks := rfl
@[simp] theorem Run.onPart_cores (r : Run) (n : Nat) (f : Partition → Partition) : (r.onPart n f).cores = r.cores := rfl
@[simp] theorem Run.onPart_pairs (r : Run) (n : Nat) (f : Partition → Partition) : (r.onPart n f).pairs = r.pairs := rfl
@[simp] theorem Run.onPart_dies (r : Run) (n : Nat) (f : Partition → Partition) : (r.onPart n f).dies = r.dies := rfl
@[simp] theorem Run.onPart_parts (r : Run) (n : Nat) (f : Partition → Partition) : (r.onPart n f).parts = r.parts.put n (f (r.part n)) := rfl
@[simp] theorem Run.onPart_ctxs (r : Run) (n : Nat) (f : Partition → Partition) : (r.onPart n f).ctxs = r.ctxs := rfl
@[simp] theorem Run.onPart_launches (r : Run) (n : Nat) (f : Partition → Partition) : (r.onPart n f).launches = r.launches := rfl
@[simp] theorem Run.onPart_queues (r : Run) (n : Nat) (f : Partition → Partition) : (r.onPart n f).queues = r.queues := rfl
@[simp] theorem Run.onPart_ports (r : Run) (n : Nat) (f : Partition → Partition) : (r.onPart n f).ports = r.ports := rfl
@[simp] theorem Run.onPart_outPairs (r : Run) (n : Nat) (f : Partition → Partition) : (r.onPart n f).outPairs = r.outPairs := rfl
@[simp] theorem Run.onPart_outSlices (r : Run) (n : Nat) (f : Partition → Partition) : (r.onPart n f).outSlices = r.outSlices := rfl
@[simp] theorem Run.onPart_sick (r : Run) (n : Nat) (f : Partition → Partition) : (r.onPart n f).sick = r.sick := rfl
@[simp] theorem Run.onPart_sickSlices (r : Run) (n : Nat) (f : Partition → Partition) : (r.onPart n f).sickSlices = r.sickSlices := rfl
@[simp] theorem Run.onPart_eccAt (r : Run) (n : Nat) (f : Partition → Partition) : (r.onPart n f).eccAt = r.eccAt := rfl
@[simp] theorem Run.onPart_down (r : Run) (n : Nat) (f : Partition → Partition) : (r.onPart n f).down = r.down := rfl
@[simp] theorem Run.onPart_bb (r : Run) (n : Nat) (f : Partition → Partition) : (r.onPart n f).bb = r.bb := rfl
@[simp] theorem Run.onPart_bbNext (r : Run) (n : Nat) (f : Partition → Partition) : (r.onPart n f).bbNext = r.bbNext := rfl
@[simp] theorem Run.onPart_faultq (r : Run) (n : Nat) (f : Partition → Partition) : (r.onPart n f).faultq = r.faultq := rfl
@[simp] theorem Run.onPart_inbox (r : Run) (n : Nat) (f : Partition → Partition) : (r.onPart n f).inbox = r.inbox := rfl
@[simp] theorem Run.onPart_out (r : Run) (n : Nat) (f : Partition → Partition) : (r.onPart n f).out = r.out := rfl
@[simp] theorem Run.onPart_clk (r : Run) (n : Nat) (f : Partition → Partition) : (r.onPart n f).clk = r.clk := rfl
@[simp] theorem Run.onPart_fresh (r : Run) (n : Nat) (f : Partition → Partition) : (r.onPart n f).fresh = r.fresh := rfl
@[simp] theorem Run.onPart_recent (r : Run) (n : Nat) (f : Partition → Partition) : (r.onPart n f).recent = r.recent := rfl
@[simp] theorem Run.onPart_cur (r : Run) (n : Nat) (f : Partition → Partition) : (r.onPart n f).cur = r.cur := rfl
@[simp] theorem Run.onPart_issued (r : Run) (n : Nat) (f : Partition → Partition) : (r.onPart n f).issued = r.issued := rfl
@[simp] theorem Run.onPart_evTurn (r : Run) (n : Nat) (f : Partition → Partition) : (r.onPart n f).evTurn = r.evTurn := rfl
@[simp] theorem Run.onPart_table (r : Run) (n : Nat) (f : Partition → Partition) : (r.onPart n f).table = r.table := rfl
@[simp] theorem Run.onPort_mem (r : Run) (n : Nat) (f : Port → Port) : (r.onPort n f).mem = r.mem := rfl
@[simp] theorem Run.onPort_waves (r : Run) (n : Nat) (f : Port → Port) : (r.onPort n f).waves = r.waves := rfl
@[simp] theorem Run.onPort_blocks (r : Run) (n : Nat) (f : Port → Port) : (r.onPort n f).blocks = r.blocks := rfl
@[simp] theorem Run.onPort_cores (r : Run) (n : Nat) (f : Port → Port) : (r.onPort n f).cores = r.cores := rfl
@[simp] theorem Run.onPort_pairs (r : Run) (n : Nat) (f : Port → Port) : (r.onPort n f).pairs = r.pairs := rfl
@[simp] theorem Run.onPort_dies (r : Run) (n : Nat) (f : Port → Port) : (r.onPort n f).dies = r.dies := rfl
@[simp] theorem Run.onPort_parts (r : Run) (n : Nat) (f : Port → Port) : (r.onPort n f).parts = r.parts := rfl
@[simp] theorem Run.onPort_ctxs (r : Run) (n : Nat) (f : Port → Port) : (r.onPort n f).ctxs = r.ctxs := rfl
@[simp] theorem Run.onPort_launches (r : Run) (n : Nat) (f : Port → Port) : (r.onPort n f).launches = r.launches := rfl
@[simp] theorem Run.onPort_queues (r : Run) (n : Nat) (f : Port → Port) : (r.onPort n f).queues = r.queues := rfl
@[simp] theorem Run.onPort_ports (r : Run) (n : Nat) (f : Port → Port) : (r.onPort n f).ports = r.ports.put n (f (r.port n)) := rfl
@[simp] theorem Run.onPort_outPairs (r : Run) (n : Nat) (f : Port → Port) : (r.onPort n f).outPairs = r.outPairs := rfl
@[simp] theorem Run.onPort_outSlices (r : Run) (n : Nat) (f : Port → Port) : (r.onPort n f).outSlices = r.outSlices := rfl
@[simp] theorem Run.onPort_sick (r : Run) (n : Nat) (f : Port → Port) : (r.onPort n f).sick = r.sick := rfl
@[simp] theorem Run.onPort_sickSlices (r : Run) (n : Nat) (f : Port → Port) : (r.onPort n f).sickSlices = r.sickSlices := rfl
@[simp] theorem Run.onPort_eccAt (r : Run) (n : Nat) (f : Port → Port) : (r.onPort n f).eccAt = r.eccAt := rfl
@[simp] theorem Run.onPort_down (r : Run) (n : Nat) (f : Port → Port) : (r.onPort n f).down = r.down := rfl
@[simp] theorem Run.onPort_bb (r : Run) (n : Nat) (f : Port → Port) : (r.onPort n f).bb = r.bb := rfl
@[simp] theorem Run.onPort_bbNext (r : Run) (n : Nat) (f : Port → Port) : (r.onPort n f).bbNext = r.bbNext := rfl
@[simp] theorem Run.onPort_faultq (r : Run) (n : Nat) (f : Port → Port) : (r.onPort n f).faultq = r.faultq := rfl
@[simp] theorem Run.onPort_inbox (r : Run) (n : Nat) (f : Port → Port) : (r.onPort n f).inbox = r.inbox := rfl
@[simp] theorem Run.onPort_out (r : Run) (n : Nat) (f : Port → Port) : (r.onPort n f).out = r.out := rfl
@[simp] theorem Run.onPort_clk (r : Run) (n : Nat) (f : Port → Port) : (r.onPort n f).clk = r.clk := rfl
@[simp] theorem Run.onPort_fresh (r : Run) (n : Nat) (f : Port → Port) : (r.onPort n f).fresh = r.fresh := rfl
@[simp] theorem Run.onPort_recent (r : Run) (n : Nat) (f : Port → Port) : (r.onPort n f).recent = r.recent := rfl
@[simp] theorem Run.onPort_cur (r : Run) (n : Nat) (f : Port → Port) : (r.onPort n f).cur = r.cur := rfl
@[simp] theorem Run.onPort_issued (r : Run) (n : Nat) (f : Port → Port) : (r.onPort n f).issued = r.issued := rfl
@[simp] theorem Run.onPort_evTurn (r : Run) (n : Nat) (f : Port → Port) : (r.onPort n f).evTurn = r.evTurn := rfl
@[simp] theorem Run.onPort_table (r : Run) (n : Nat) (f : Port → Port) : (r.onPort n f).table = r.table := rfl
@[simp] theorem Run.send_mem (r : Run) (o : Out) : (r.send o).mem = r.mem := rfl
@[simp] theorem Run.send_waves (r : Run) (o : Out) : (r.send o).waves = r.waves := rfl
@[simp] theorem Run.send_blocks (r : Run) (o : Out) : (r.send o).blocks = r.blocks := rfl
@[simp] theorem Run.send_cores (r : Run) (o : Out) : (r.send o).cores = r.cores := rfl
@[simp] theorem Run.send_pairs (r : Run) (o : Out) : (r.send o).pairs = r.pairs := rfl
@[simp] theorem Run.send_dies (r : Run) (o : Out) : (r.send o).dies = r.dies := rfl
@[simp] theorem Run.send_parts (r : Run) (o : Out) : (r.send o).parts = r.parts := rfl
@[simp] theorem Run.send_ctxs (r : Run) (o : Out) : (r.send o).ctxs = r.ctxs := rfl
@[simp] theorem Run.send_launches (r : Run) (o : Out) : (r.send o).launches = r.launches := rfl
@[simp] theorem Run.send_queues (r : Run) (o : Out) : (r.send o).queues = r.queues := rfl
@[simp] theorem Run.send_ports (r : Run) (o : Out) : (r.send o).ports = r.ports := rfl
@[simp] theorem Run.send_outPairs (r : Run) (o : Out) : (r.send o).outPairs = r.outPairs := rfl
@[simp] theorem Run.send_outSlices (r : Run) (o : Out) : (r.send o).outSlices = r.outSlices := rfl
@[simp] theorem Run.send_sick (r : Run) (o : Out) : (r.send o).sick = r.sick := rfl
@[simp] theorem Run.send_sickSlices (r : Run) (o : Out) : (r.send o).sickSlices = r.sickSlices := rfl
@[simp] theorem Run.send_eccAt (r : Run) (o : Out) : (r.send o).eccAt = r.eccAt := rfl
@[simp] theorem Run.send_down (r : Run) (o : Out) : (r.send o).down = r.down := rfl
@[simp] theorem Run.send_bb (r : Run) (o : Out) : (r.send o).bb = r.bb := rfl
@[simp] theorem Run.send_bbNext (r : Run) (o : Out) : (r.send o).bbNext = r.bbNext := rfl
@[simp] theorem Run.send_faultq (r : Run) (o : Out) : (r.send o).faultq = r.faultq := rfl
@[simp] theorem Run.send_inbox (r : Run) (o : Out) : (r.send o).inbox = r.inbox := rfl
@[simp] theorem Run.send_out (r : Run) (o : Out) : (r.send o).out = r.out ++ [o] := rfl
@[simp] theorem Run.send_clk (r : Run) (o : Out) : (r.send o).clk = r.clk := rfl
@[simp] theorem Run.send_fresh (r : Run) (o : Out) : (r.send o).fresh = r.fresh := rfl
@[simp] theorem Run.send_recent (r : Run) (o : Out) : (r.send o).recent = r.recent := rfl
@[simp] theorem Run.send_cur (r : Run) (o : Out) : (r.send o).cur = r.cur := rfl
@[simp] theorem Run.send_issued (r : Run) (o : Out) : (r.send o).issued = r.issued := rfl
@[simp] theorem Run.send_evTurn (r : Run) (o : Out) : (r.send o).evTurn = r.evTurn := rfl
@[simp] theorem Run.send_table (r : Run) (o : Out) : (r.send o).table = r.table := rfl

end Sys2Proof.Machine
end

