-- ==== Sys2Proof/Laws/Memory.lean ====
section
/-! SUPPORT. The laws of the sparse maps and tables: what a write leaves at every key, and that every memory operation keeps the
canonical form. -/

namespace Sys2Proof

variable {α : Type}

/-! ## Reading after a write -/

theorem SMap.get_insert (d : α) (m : SMap α) (n k : Nat) (x : α) :
    SMap.get d (SMap.insert m n x) k = if k = n then x else SMap.get d m k := by
  induction m with
  | nil => simp only [SMap.insert, SMap.get]
  | cons e t ih =>
    obtain ⟨j, v⟩ := e
    simp only [SMap.insert]
    split
    · next h => subst h; by_cases hk : k = n <;> simp [SMap.get, hk]
    · split
      · rfl
      · next h1 h2 =>
        simp only [SMap.get, ih]
        by_cases hk : k = j
        · subst hk; simp [Ne.symm h1]
        · simp [hk]

theorem SMap.get_erase (d : α) (m : SMap α) (n k : Nat) :
    SMap.get d (SMap.erase m n) k = if k = n then d else SMap.get d m k := by
  induction m with
  | nil => simp [SMap.erase, SMap.get]
  | cons e t ih =>
    obtain ⟨j, v⟩ := e
    simp only [SMap.erase]
    split
    · next h => subst h; rw [ih]; by_cases hk : k = n <;> simp [SMap.get, hk]
    · next h =>
      simp only [SMap.get, ih]
      by_cases hk : k = j
      · subst hk; simp [Ne.symm h]
      · simp [hk]

/-- A read after a write gives the value written, and a write leaves every other key alone. -/
@[simp] theorem SMap.get_set [DecidableEq α] (d : α) (m : SMap α) (n k : Nat) (x : α) :
    SMap.get d (SMap.set d m n x) k = if k = n then x else SMap.get d m k := by
  unfold SMap.set
  split
  · next h => subst h; exact SMap.get_erase _ m n k
  · exact SMap.get_insert d m n k x

theorem Tbl.get?_insert (m : Tbl α) (n k : Nat) (x : α) :
    Tbl.get? (SMap.insert m n x) k = if k = n then some x else Tbl.get? m k := by
  induction m with
  | nil => simp only [SMap.insert, Tbl.get?]
  | cons e t ih =>
    obtain ⟨j, v⟩ := e
    simp only [SMap.insert]
    split
    · next h => subst h; by_cases hk : k = n <;> simp [Tbl.get?, hk]
    · split
      · rfl
      · next h1 h2 =>
        simp only [Tbl.get?, ih]
        by_cases hk : k = j
        · subst hk; simp [Ne.symm h1]
        · simp [hk]

@[simp] theorem Tbl.get?_put (m : Tbl α) (n k : Nat) (x : α) :
    Tbl.get? (Tbl.put m n x) k = if k = n then some x else Tbl.get? m k := Tbl.get?_insert m n k x

@[simp] theorem Tbl.get?_del (m : Tbl α) (n k : Nat) :
    Tbl.get? (Tbl.del m n) k = if k = n then none else Tbl.get? m k := by
  unfold Tbl.del
  induction m with
  | nil => simp [SMap.erase, Tbl.get?]
  | cons e t ih =>
    obtain ⟨j, v⟩ := e
    simp only [SMap.erase]
    split
    · next h => subst h; rw [ih]; by_cases hk : k = n <;> simp [Tbl.get?, hk]
    · next h =>
      simp only [Tbl.get?, ih]
      by_cases hk : k = j
      · subst hk; simp [Ne.symm h]
      · simp [hk]

/-- Changing one record changes it where it stands and no other. -/
@[simp] theorem Tbl.get?_upd (m : Tbl α) (n k : Nat) (f : α → α) :
    Tbl.get? (Tbl.upd m n f) k = if k = n then (Tbl.get? m n).map f else Tbl.get? m k := by
  unfold Tbl.upd
  split
  · next x h => rw [Tbl.get?_put]; simp [h]
  · next h => by_cases hk : k = n <;> simp [hk, h]

/-! ## The canonical form -/

theorem SMap.rising_mono (m : SMap α) (a b : Nat) (h : a ≤ b) (r : SMap.rising b m = true) : SMap.rising a m = true := by
  cases m with
  | nil => rfl
  | cons e t =>
    obtain ⟨j, v⟩ := e
    simp only [SMap.rising, Bool.and_eq_true, decide_eq_true_eq] at r ⊢
    exact ⟨le_trans h r.1, r.2⟩

theorem SMap.rising_erase (m : SMap α) (b n : Nat) (r : SMap.rising b m = true) : SMap.rising b (SMap.erase m n) = true := by
  induction m generalizing b with
  | nil => rfl
  | cons e t ih =>
    obtain ⟨j, v⟩ := e
    simp only [SMap.rising, Bool.and_eq_true, decide_eq_true_eq] at r
    simp only [SMap.erase]
    split
    · exact SMap.rising_mono _ b (j + 1) (by omega) (ih (j + 1) r.2)
    · simp only [SMap.rising, Bool.and_eq_true, decide_eq_true_eq]
      exact ⟨r.1, ih (j + 1) r.2⟩

theorem SMap.rising_insert (m : SMap α) (b n : Nat) (x : α) (hb : b ≤ n) (r : SMap.rising b m = true) :
    SMap.rising b (SMap.insert m n x) = true := by
  induction m generalizing b with
  | nil => simp [SMap.insert, SMap.rising, hb]
  | cons e t ih =>
    obtain ⟨j, v⟩ := e
    simp only [SMap.rising, Bool.and_eq_true, decide_eq_true_eq] at r
    simp only [SMap.insert]
    split
    · next h => subst h; simp only [SMap.rising, Bool.and_eq_true, decide_eq_true_eq]; exact ⟨hb, r.2⟩
    · split
      · next h => simp only [SMap.rising, Bool.and_eq_true, decide_eq_true_eq]; exact ⟨hb, by omega, r.2⟩
      · next h1 h2 =>
        simp only [SMap.rising, Bool.and_eq_true, decide_eq_true_eq]
        exact ⟨r.1, ih (j + 1) (by omega) r.2⟩

theorem SMap.mem_erase (m : SMap α) (n : Nat) (e : Nat × α) (h : e ∈ SMap.erase m n) : e ∈ m := by
  induction m with
  | nil => exact h
  | cons f t ih =>
    obtain ⟨j, v⟩ := f
    simp only [SMap.erase] at h
    split at h
    · exact List.mem_cons_of_mem _ (ih h)
    · rcases List.mem_cons.mp h with h | h
      · exact h ▸ List.mem_cons_self
      · exact List.mem_cons_of_mem _ (ih h)

theorem SMap.mem_insert (m : SMap α) (n : Nat) (x : α) (e : Nat × α) (h : e ∈ SMap.insert m n x) : e ∈ m ∨ e = (n, x) := by
  induction m with
  | nil => exact .inr (List.mem_singleton.mp h)
  | cons f t ih =>
    obtain ⟨j, v⟩ := f
    simp only [SMap.insert] at h
    split at h
    · rcases List.mem_cons.mp h with h | h
      · exact .inr h
      · exact .inl (List.mem_cons_of_mem _ h)
    · split at h
      · rcases List.mem_cons.mp h with h | h
        · exact .inr h
        · exact .inl h
      · rcases List.mem_cons.mp h with h | h
        · exact .inl (h ▸ List.mem_cons_self)
        · exact (ih h).imp (List.mem_cons_of_mem _) id

/-- A write keeps the canonical form. -/
theorem SMap.wf_set [DecidableEq α] (d : α) (m : SMap α) (n : Nat) (x : α) (h : SMap.wf d m = true) :
    SMap.wf d (SMap.set d m n x) = true := by
  simp only [SMap.wf, Bool.and_eq_true, List.all_eq_true, decide_eq_true_eq] at h ⊢
  unfold SMap.set
  split
  · exact ⟨SMap.rising_erase m 0 n h.1, fun e he => h.2 e (SMap.mem_erase m n e he)⟩
  · next hx =>
    refine ⟨SMap.rising_insert m 0 n x (Nat.zero_le _) h.1, fun e he => ?_⟩
    rcases SMap.mem_insert m n x e he with he | he
    · exact h.2 e he
    · subst he; exact hx

end Sys2Proof

namespace Sys2Proof.Machine

/-! ## Memory -/

@[simp] theorem memGet_memSet (m : SMap Byte) (a k : Nat) (b : Byte) :
    memGet (memSet m a b) k = if k = a then b else memGet m k := SMap.get_set _ m a k b

theorem Memory.wf_memSet (m : SMap Byte) (a : Nat) (b : Byte) (h : Memory.wf m = true) : Memory.wf (memSet m a b) = true :=
  SMap.wf_set _ m a b h

theorem Memory.wf_memWrite (m : SMap Byte) (a v n : Nat) (h : Memory.wf m = true) : Memory.wf (memWrite m a v n) = true := by
  induction n generalizing m a v with
  | zero => exact h
  | succ n ih => exact ih _ _ _ (Memory.wf_memSet m a _ h)

theorem Memory.wf_memPut (m : SMap Byte) (a : Nat) (bs : List Byte) (h : Memory.wf m = true) : Memory.wf (memPut m a bs) = true := by
  induction bs generalizing m a with
  | nil => exact h
  | cons b t ih => exact ih _ _ (Memory.wf_memSet m a b h)

/-- Reset memory is in canonical form: it lists nothing. -/
theorem Memory.wf_reset : Memory.wf State.reset.run.mem = true := rfl

/-- Bytes put in a row leave every byte outside them alone. -/
theorem memGet_memPut_of_out (m : SMap Byte) (a k : Nat) (bs : List Byte) (h : k < a ∨ a + bs.length ≤ k) :
    memGet (memPut m a bs) k = memGet m k := by
  induction bs generalizing m a with
  | nil => rfl
  | cons b t ih =>
    simp only [List.length_cons] at h
    simp only [memPut]
    rw [ih _ _ (by omega), memGet_memSet, if_neg (by omega)]

/-- Bytes put in a row read back. -/
theorem memGet_memPut (m : SMap Byte) (a i : Nat) (bs : List Byte) (h : i < bs.length) :
    memGet (memPut m a bs) (a + i) = bs[i] := by
  induction bs generalizing m a i with
  | nil => simp at h
  | cons b t ih =>
    simp only [memPut]
    cases i with
    | zero => rw [memGet_memPut_of_out _ _ _ _ (by omega)]; simp
    | succ i =>
      have := ih (memSet m a b) (a + 1) i (by simpa using h)
      simpa [Nat.add_assoc, Nat.add_comm 1 i] using this

theorem memGet_memWrite_of_out (m : SMap Byte) (a v n k : Nat) (h : k < a ∨ a + n ≤ k) :
    memGet (memWrite m a v n) k = memGet m k := by
  induction n generalizing m a v with
  | zero => rfl
  | succ n ih => simp only [memWrite]; rw [ih _ _ _ (by omega), memGet_memSet, if_neg (by omega)]

/-- A number written little-endian reads back. -/
theorem memRead_memWrite (m : SMap Byte) (a v n : Nat) : memRead (memWrite m a v n) a n = v % 256 ^ n := by
  induction n generalizing m a v with
  | zero => simp [memRead, Nat.mod_one]
  | succ n ih =>
    simp only [memRead, memWrite, ih]
    rw [memGet_memWrite_of_out _ _ _ _ _ (by omega), memGet_memSet, if_pos rfl, pow_succ']
    simp only [BitVec.toNat_ofNat]
    rw [Nat.mod_mul]

/-! ## Records of the run after an update -/

@[simp] theorem Run.get_onWave (r : Run) (n k : Nat) (f : Wave → Wave) :
    (r.onWave n f).waves.get? k = if k = n then (r.waves.get? n).map f else r.waves.get? k := Tbl.get?_upd _ _ _ _
@[simp] theorem Run.wave_setWave (r : Run) (n k : Nat) (x : Wave) : (r.setWave n x).wave k = if k = n then x else r.wave k := by
  simp only [Run.wave, Run.setWave, Tbl.get?_put]; split <;> rfl
theorem Run.wave_onWave_of_ne (r : Run) (n k : Nat) (f : Wave → Wave) (h : k ≠ n) : (r.onWave n f).wave k = r.wave k := by
  simp [Run.wave, h]
theorem Run.wave_onWave (r : Run) (n : Nat) (f : Wave → Wave) (w : Wave) (h : r.waves.get? n = some w) :
    (r.onWave n f).wave n = f (r.wave n) := by
  simp [Run.wave, h]
@[simp] theorem Run.core_setCore (r : Run) (n k : Nat) (x : Core) : (r.setCore n x).core k = if k = n then x else r.core k := by
  simp only [Run.core, Run.setCore, Tbl.get?_put]; split <;> rfl
@[simp] theorem Run.core_onCore (r : Run) (n k : Nat) (f : Core → Core) :
    (r.onCore n f).core k = if k = n then f (r.core n) else r.core k := Run.core_setCore r n k _
@[simp] theorem Run.pair_onPair (r : Run) (n k : Nat) (f : Pair → Pair) :
    (r.onPair n f).pair k = if k = n then f (r.pair n) else r.pair k := by
  simp only [Run.pair, Run.onPair, Tbl.get?_put]; split <;> rfl
@[simp] theorem Run.die_onDie (r : Run) (n k : Nat) (f : Die → Die) :
    (r.onDie n f).die k = if k = n then f (r.die n) else r.die k := by
  simp only [Run.die, Run.onDie, Tbl.get?_put]; split <;> rfl
@[simp] theorem Run.part_onPart (r : Run) (n k : Nat) (f : Partition → Partition) :
    (r.onPart n f).part k = if k = n then f (r.part n) else r.part k := by
  simp only [Run.part, Run.onPart, Tbl.get?_put]; split <;> rfl
@[simp] theorem Run.port_onPort (r : Run) (n k : Nat) (f : Port → Port) :
    (r.onPort n f).port k = if k = n then f (r.port n) else r.port k := by
  simp only [Run.port, Run.onPort, Tbl.get?_put]; split <;> rfl
theorem Run.block_onBlock_of_ne (r : Run) (n k : Nat) (f : Block → Block) (h : k ≠ n) : (r.onBlock n f).block k = r.block k := by
  simp [Run.block, h]
theorem Run.block_onBlock (r : Run) (n : Nat) (f : Block → Block) (b : Block) (h : r.blocks.get? n = some b) :
    (r.onBlock n f).block n = f (r.block n) := by
  simp [Run.block, h]
theorem Run.ctx_onCtx (r : Run) (n : Nat) (f : Ctx → Ctx) (b : Ctx) (h : r.ctxs.get? n = some b) :
    (r.onCtx n f).ctx n = f (r.ctx n) := by
  simp [Run.ctx, h]
theorem Run.ctx_onCtx_of_ne (r : Run) (n k : Nat) (f : Ctx → Ctx) (h : k ≠ n) : (r.onCtx n f).ctx k = r.ctx k := by
  simp [Run.ctx, h]

end Sys2Proof.Machine
end

