-- ==== Sys2Proof/Laws/Access.lean ====
section
/-! SUPPORT. The laws of the shared operations over global memory: what a store leaves, that it keeps memory's canonical form, and that
translating an address changes translations and walks alone. -/

namespace Sys2Proof.Machine

/-! ## Stores that perform -/

@[simp] theorem noteWrite_mem (r : Run) (pa n : Nat) : (noteWrite r pa n).mem = r.mem := by
  simp only [noteWrite]; split <;> rfl

/-- A store that performs changes memory, and the notes in monitors of the line it writes. -/
theorem noteWrite_frame (r : Run) (pa n : Nat) : ({ noteWrite r pa n with waves := r.waves } : Run) = r := by
  simp only [noteWrite]; split <;> rfl

@[simp] theorem storeBytes_mem (r : Run) (pa : Nat) (bs : List Byte) : (storeBytes r pa bs).mem = memPut r.mem pa bs := by
  simp [storeBytes]

theorem storeBytes_frame (r : Run) (pa : Nat) (bs : List Byte) :
    ({ storeBytes r pa bs with mem := r.mem, waves := r.waves } : Run) = r := by
  simp only [storeBytes, noteWrite]; split <;> rfl

theorem Memory.wf_storeBytes (r : Run) (pa : Nat) (bs : List Byte) (h : Memory.wf r.mem = true) :
    Memory.wf (storeBytes r pa bs).mem = true := by
  simpa using Memory.wf_memPut r.mem pa bs h

/-- Every byte after a store. -/
theorem memGet_storeBytes (r : Run) (pa a : Nat) (bs : List Byte) :
    memGet (storeBytes r pa bs).mem a = if pa ≤ a ∧ a < pa + bs.length then bs.getD (a - pa) 0 else memGet r.mem a := by
  rw [storeBytes_mem]
  split
  · rename_i h
    obtain ⟨i, rfl⟩ : ∃ i, a = pa + i := ⟨a - pa, by omega⟩
    have hi : i < bs.length := by omega
    rw [memGet_memPut _ _ _ _ hi]
    simp [hi]
  · rename_i h
    exact memGet_memPut_of_out _ _ _ _ (by omega)

/-- What a wave is after a store elsewhere, but for the note in its monitor. -/
theorem storeBytes_wave (r : Run) (pa n : Nat) (bs : List Byte) :
    ({ (storeBytes r pa bs).wave n with mon := (r.wave n).mon } : Wave) = r.wave n := by
  have get_mapAll : ∀ (m : Tbl Wave) (f : Nat → Wave → Wave), (m.mapAll f).get? n = (m.get? n).map (f n) := by
    intro m f
    induction m with
    | nil => rfl
    | cons e t ih =>
      obtain ⟨k, v⟩ := e
      simp only [Tbl.mapAll, List.map_cons, Tbl.get?] at ih ⊢
      split
      · subst_vars; rfl
      · exact ih
  simp only [storeBytes, noteWrite]
  split
  · simp only [Run.wave, get_mapAll]
    cases hw : r.waves.get? n with
    | none => rfl
    | some w => simp only [Option.map_some, Option.getD_some]; split <;> rfl
  · rfl

/-! ## Atomics at their home slice -/

/-- An operation of an atomic answers what its unit held, and writes at most that unit (R283). -/
theorem atomicAt_spec (r : Run) (a : AtomicReq) :
    (atomicAt r a).1 = memRead r.mem a.addr (ATy.bytes a.ty) ∧
    ({ (atomicAt r a).2 with mem := r.mem, waves := r.waves } : Run) = r ∧
    (Memory.wf r.mem = true → Memory.wf (atomicAt r a).2.mem = true) := by
  simp only [atomicAt]
  refine ⟨trivial, ?_, ?_⟩
  · split
    · exact storeBytes_frame _ _ _
    · rfl
  · intro h
    split
    · exact Memory.wf_storeBytes _ _ _ h
    · exact h

/-! ## Translation -/

/-- Two runs agree but for translations and walks. -/
def SameButTlb (r t : Run) : Prop := ({ t with cores := r.cores, dies := r.dies } : Run) = r

theorem SameButTlb.refl (r : Run) : SameButTlb r r := rfl

theorem SameButTlb.trans {a b c : Run} (h : SameButTlb a b) (g : SameButTlb b c) : SameButTlb a c := by
  unfold SameButTlb at *
  have e : ({ c with cores := a.cores, dies := a.dies } : Run) =
      ({ ({ c with cores := b.cores, dies := b.dies } : Run) with cores := a.cores, dies := a.dies } : Run) := rfl
  rw [e, g, h]

theorem translate_frame (y : Sys) (r : Run) (core cid va : Nat) (k : Want) : SameButTlb r (translate y r core cid va k).2 := by
  simp only [translate]
  split
  · rfl
  · split
    · rfl
    · split <;> rfl

theorem translateAll_frame (y : Sys) (core cid : Nat) (k : Want) (ctrl : Bool) (xs : List (Nat × Nat)) (r : Run) :
    SameButTlb r (translateAll y r core cid k ctrl xs).1 := by
  induction xs generalizing r with
  | nil => exact SameButTlb.refl r
  | cons e t ih =>
    obtain ⟨l, a⟩ := e
    have h := translate_frame y r core cid a k
    simp only [translateAll]
    split
    · rename_i x r' e; rw [e] at h
      split <;> exact h.trans (ih r')
    · rename_i f r' e; rw [e] at h; exact h.trans (ih r')

theorem startWalks_frame (r : Run) (core n : Nat) : SameButTlb r (r.startWalks core n) := by
  unfold Run.startWalks
  split <;> rfl

/-- The checks of an access that passes have changed translations and walks alone (R247). -/
theorem preTranslate_ok {y : Sys} {r t : Run} {core slot cid : Nat} {k : Want} {ctrl : Bool} {pc : Word64} {xs : List (Nat × Nat)}
    {os : List (Nat × Xlat)} (h : preTranslate y r core slot cid k ctrl pc xs = .ok t os) : SameButTlb r t := by
  simp only [preTranslate] at h
  split at h
  · cases h
  · have f := (startWalks_frame r core (missedPages y r core cid k (xs.map (·.2))).length).trans
      (translateAll_frame y core cid k ctrl xs (r.startWalks core (missedPages y r core cid k (xs.map (·.2))).length))
    split at h
    · cases h
    · split at h
      · cases h
      · cases h; exact f

theorem globalChecks_ok {y : Sys} {r t : Run} {c : Iss} {xs : List (Nat × Nat)} {size : Nat} {rd wr ctrl : Bool} {os : List (Nat × Xlat)}
    (h : globalChecks y r c xs size rd wr ctrl = .ok t os) : SameButTlb r t := by
  simp only [globalChecks] at h
  split at h
  · cases h
  · exact preTranslate_ok h

end Sys2Proof.Machine
end

