-- ==== Sys2Proof/Laws/Issue.lean ====
section
/-! SUPPORT. What the shared operations of an issue do, said once: the issue of an instruction whose checks pass, its retirement, and
what a step of the device leaves alone. -/

namespace Sys2Proof.Machine

/-! ## Retirement -/

/-- What the end of an issue makes of the issuing wave: its group moves on unless the effect set the PCs, a closer makes a region
entry, and STALL and YLD take hold. -/
def Wave.retired (clk : Nat) (c : Iss) (h : Hd) (k : How) (w : Wave) : Wave :=
  let w := if k.branch then w else w.advance c.m
  let w := if k.closer then w.regionEntry c.m else w
  if w.life = .live && !w.stream then
    { w with stall := if h.stall = 0 then w.stall else max w.stall (clk + 1 + h.stall.toNat), yielded := h.yld || k.yld }
  else w

theorem Run.get_retire (r : Run) (c : Iss) (h : Hd) (k : How) (n : Nat) :
    (r.retire c h k).waves.get? n = if n = c.wid then (r.waves.get? n).map (Wave.retired r.clk c h k) else r.waves.get? n := by
  simp only [Run.retire, Run.charge, Run.onCore_waves, Run.get_onWave]
  by_cases hn : n = c.wid
  · subst hn
    simp only [if_true]
    cases hb : k.branch <;> cases hc : k.closer <;>
      simp only [Bool.false_eq_true, if_true, if_false, Run.get_onWave, Run.onWave_clk, Option.map_map] <;>
      (cases r.waves.get? c.wid with
       | none => rfl
       | some w => simp only [Option.map_some, Function.comp_apply, Wave.retired, hb, hc, Bool.false_eq_true, if_true, if_false])
  · simp only [if_neg hn]
    cases k.branch <;> cases k.closer <;> simp [hn]

theorem Run.wave_retire (r : Run) (c : Iss) (h : Hd) (k : How) (w : Wave) (hw : r.waves.get? c.wid = some w) :
    (r.retire c h k).wave c.wid = Wave.retired r.clk c h k w := by
  simp [Run.wave, Run.get_retire, hw]

theorem Run.wave_retire_of_ne (r : Run) (c : Iss) (h : Hd) (k : How) (n : Nat) (hn : n ≠ c.wid) :
    (r.retire c h k).wave n = r.wave n := by
  simp [Run.wave, Run.get_retire, hn]

/-- Outside the waves and the issue counts of the core a retirement changes nothing. -/
theorem Run.retire_frame (r : Run) (c : Iss) (h : Hd) (k : How) :
    { r.retire c h k with waves := r.waves, cores := r.cores } = r := by
  unfold Run.retire Run.charge
  cases k.branch <;> cases k.closer <;> rfl

theorem Run.core_retire (r : Run) (c : Iss) (h : Hd) (k : How) (n : Nat) :
    (r.retire c h k).core n = if n = coreOf c.wid then (r.core n).count r.clk h k else r.core n := by
  unfold Run.retire Run.charge
  simp only [Run.core_onCore]
  split
  · next hn => subst hn; cases k.branch <;> cases k.closer <;> rfl
  · cases k.branch <;> cases k.closer <;> rfl

@[simp] theorem Run.retire_mem (r : Run) (c : Iss) (h : Hd) (k : How) : (r.retire c h k).mem = r.mem := by
  have e := congrArg Run.mem (Run.retire_frame r c h k); exact e
@[simp] theorem Run.retire_blocks (r : Run) (c : Iss) (h : Hd) (k : How) : (r.retire c h k).blocks = r.blocks := by
  have e := congrArg Run.blocks (Run.retire_frame r c h k); exact e
@[simp] theorem Run.retire_parts (r : Run) (c : Iss) (h : Hd) (k : How) : (r.retire c h k).parts = r.parts := by
  have e := congrArg Run.parts (Run.retire_frame r c h k); exact e
@[simp] theorem Run.retire_ctxs (r : Run) (c : Iss) (h : Hd) (k : How) : (r.retire c h k).ctxs = r.ctxs := by
  have e := congrArg Run.ctxs (Run.retire_frame r c h k); exact e
@[simp] theorem Run.retire_launches (r : Run) (c : Iss) (h : Hd) (k : How) : (r.retire c h k).launches = r.launches := by
  have e := congrArg Run.launches (Run.retire_frame r c h k); exact e
@[simp] theorem Run.retire_pairs (r : Run) (c : Iss) (h : Hd) (k : How) : (r.retire c h k).pairs = r.pairs := by
  have e := congrArg Run.pairs (Run.retire_frame r c h k); exact e
@[simp] theorem Run.retire_out (r : Run) (c : Iss) (h : Hd) (k : How) : (r.retire c h k).out = r.out := by
  have e := congrArg Run.out (Run.retire_frame r c h k); exact e
@[simp] theorem Run.retire_clk (r : Run) (c : Iss) (h : Hd) (k : How) : (r.retire c h k).clk = r.clk := by
  have e := congrArg Run.clk (Run.retire_frame r c h k); exact e

/-- Retirement leaves the registers, and everything but parts, region number, STALL and YLD, as they were. -/
theorem Wave.retired_frame (clk : Nat) (c : Iss) (h : Hd) (k : How) (w : Wave) :
    { Wave.retired clk c h k w with parts := w.parts, stall := w.stall, yielded := w.yielded, rgn := w.rgn } = w := by
  unfold Wave.retired
  cases k.branch <;> cases k.closer <;> simp only [Bool.false_eq_true, if_true, if_false] <;> split <;> rfl

/-- Only a closer makes a region entry. -/
theorem Wave.retired_rgn (clk : Nat) (c : Iss) (h : Hd) (k : How) (w : Wave) :
    (Wave.retired clk c h k w).rgn = if k.closer then w.rgn + 1 else w.rgn := by
  unfold Wave.retired
  cases k.branch <;> cases k.closer <;> simp only [Bool.false_eq_true, if_true, if_false] <;> split <;> rfl

/-- A group that no effect has moved goes on to the next instruction. -/
theorem Wave.retired_parts (clk : Nat) (c : Iss) (h : Hd) (k : How) (w : Wave) (hb : k.branch = false) (hc : k.closer = false) :
    (Wave.retired clk c h k w).parts = (w.advance c.m).parts := by
  unfold Wave.retired
  simp only [hb, hc, Bool.false_eq_true, if_false]
  split <;> rfl

/-! ## The issue -/

/-- The group that issues stands in a wave of the table. -/
theorem Run.issuer_wave (r : Run) (h : Hd) (c : Iss) (hc : r.issuer h = some c) :
    ∃ w, r.waves.get? c.wid = some w ∧ c.act = guard w h c.m ∧ r.wave c.wid = w := by
  unfold Run.issuer at hc
  split at hc
  · cases hc
  · next w hw =>
    split at hc
    · cases hc
    · next p hp =>
      cases hc
      exact ⟨w, hw, rfl, by simp [Run.wave, hw]⟩

/-- An instruction that issues, needs no more than its operands, and whose effect completes: the next state is the effect's, retired,
with the switch of a switch point. -/
theorem issue_ok {s : State} {h : Hd} {c : Iss} {k : How} {eff : Sys → Run → Iss → Eff Unit} {r : Run}
    (hI : Issues s h c k.uses) (hp : k.priv = false ∨ (s.run.wave c.wid).priv = true) (hw : k.whole = none ∨ Whole s c)
    (he : eff s.sys s.run c = .ok r ()) :
    issue s h k eff = .next { s with run :=
      if k.switch && !(s.run.wave c.wid).resumes c.m then (r.retire c h k).switchPoint c.wid true else r.retire c h k } := by
  obtain ⟨hc, ha, hu⟩ := hI
  have h1 : (k.priv && !(s.run.wave c.wid).priv) = false := by
    rcases hp with hp | hp <;> simp [hp]
  have h2 : (k.whole.isSome && !(s.run.wave c.wid).reconverged) = false := by
    rcases hw with hw | hw
    · simp [hw]
    · have : (s.run.wave c.wid).reconverged = true := hw
      simp [this]
  simp only [issue, hc, issueOn, h1, h2, Bool.false_eq_true, if_false, ha, hu, he]

/-- The same without a switch point. -/
theorem issue_ok' {s : State} {h : Hd} {c : Iss} {k : How} {eff : Sys → Run → Iss → Eff Unit} {r : Run}
    (hI : Issues s h c k.uses) (hp : k.priv = false ∨ (s.run.wave c.wid).priv = true) (hw : k.whole = none ∨ Whole s c)
    (hs : k.switch = false) (he : eff s.sys s.run c = .ok r ()) :
    issue s h k eff = .next { s with run := r.retire c h k } := by
  rw [issue_ok hI hp hw he, hs]; simp

/-- An effect that traps. -/
theorem issue_trap {s : State} {h : Hd} {c : Iss} {k : How} {eff : Sys → Run → Iss → Eff Unit} {r : Run} {t : Trap}
    (hI : Issues s h c k.uses) (hp : k.priv = false ∨ (s.run.wave c.wid).priv = true) (hw : k.whole = none ∨ Whole s c)
    (he : eff s.sys s.run c = .trap r t) :
    issue s h k eff = .next { s with run := trapAt s.sys r c t } := by
  obtain ⟨hc, ha, hu⟩ := hI
  have h1 : (k.priv && !(s.run.wave c.wid).priv) = false := by
    rcases hp with hp | hp <;> simp [hp]
  have h2 : (k.whole.isSome && !(s.run.wave c.wid).reconverged) = false := by
    rcases hw with hw | hw
    · simp [hw]
    · have : (s.run.wave c.wid).reconverged = true := hw
      simp [this]
  simp only [issue, hc, issueOn, h1, h2, Bool.false_eq_true, if_false, ha, hu, he]

/-- An issue changes no firewall register (R524). -/
theorem issue_sys {s t : State} {h : Hd} {k : How} {eff : Sys → Run → Iss → Eff Unit} (hi : issue s h k eff = .next t) :
    t.sys = s.sys := by
  unfold issue at hi
  split at hi
  · cases hi
  · cases hi; rfl

/-- A step of the device that changes `Run` alone changes no firewall register. -/
theorem event_sys {s t : State} {f : Sys → Run → Run} (hi : event s f = .next t) : t.sys = s.sys := by
  cases hi; rfl

/-! ## Register-only effects -/

/-- An effect that changes the issuing wave alone leaves the device as it was. -/
theorem deviceKept_onWave {s : State} {h : Hd} {c : Iss} {k : How} {f : Wave → Wave} :
    DeviceKept s { s with run := (s.run.onWave c.wid f).retire c h k } c.wid := by
  refine ⟨rfl, ?_, fun n hn => ?_, fun n => ?_⟩
  · have := Run.retire_frame (s.run.onWave c.wid f) c h k
    calc { (s.run.onWave c.wid f).retire c h k with waves := s.run.waves, cores := s.run.cores }
        = { { (s.run.onWave c.wid f).retire c h k with waves := (s.run.onWave c.wid f).waves, cores := (s.run.onWave c.wid f).cores } with
            waves := s.run.waves, cores := s.run.cores } := rfl
      _ = { s.run.onWave c.wid f with waves := s.run.waves, cores := s.run.cores } := by rw [this]
      _ = s.run := rfl
  · exact (Run.wave_retire_of_ne _ c h k n hn).trans (Run.wave_onWave_of_ne _ _ _ _ hn)
  · have hcore : (s.run.onWave c.wid f).core n = s.run.core n := rfl
    simp only [Run.core_retire, hcore]
    split <;> rfl

/-- The issuing wave after an effect that changes it alone. -/
theorem wave_onWave_retire {r : Run} {h : Hd} {c : Iss} {k : How} {f : Wave → Wave} {w : Wave} (hw : r.waves.get? c.wid = some w) :
    ((r.onWave c.wid f).retire c h k).wave c.wid = Wave.retired r.clk c h k (f w) :=
  Run.wave_retire _ c h k (f w) (by simp [hw])

/-! ## Writing registers -/

@[simp] theorem Wave.vRow_setV (w : Wave) (n k : Nat) (m : Lanes) (f : Nat → Word) :
    (w.setV n m f).vRow k = if k = n then rowMix (w.vRow n) m f else w.vRow k := by
  simp only [Wave.vRow, Wave.setV_v, SMap.get_set]
@[simp] theorem Wave.aRow_setA (w : Wave) (n k : Nat) (m : Lanes) (f : Nat → Word) :
    (w.setA n m f).aRow k = if k = n then rowMix (w.aRow n) m f else w.aRow k := by
  simp only [Wave.aRow, Wave.setA_a, SMap.get_set]
@[simp] theorem Wave.sReg_setS (w : Wave) (n k : Nat) (x : Word64) : (w.setS n x).sReg k = if k = n then x else w.sReg k := by
  simp only [Wave.sReg, Wave.setS_s, SMap.get_set]
@[simp] theorem Wave.mReg_setM (w : Wave) (n k : Nat) (x : Word × Word) : (w.setM n x).mReg k = if k = n then x else w.mReg k := by
  simp only [Wave.mReg, Wave.setM_m, SMap.get_set]
@[simp] theorem Wave.vRow_setS (w : Wave) (n k : Nat) (x : Word64) : (w.setS n x).vRow k = w.vRow k := rfl
@[simp] theorem Wave.aRow_setS (w : Wave) (n k : Nat) (x : Word64) : (w.setS n x).aRow k = w.aRow k := rfl
@[simp] theorem Wave.pReg_setS (w : Wave) (n k : Nat) (x : Word64) : (w.setS n x).pReg k = w.pReg k := rfl
@[simp] theorem Wave.mReg_setS (w : Wave) (n k : Nat) (x : Word64) : (w.setS n x).mReg k = w.mReg k := rfl
@[simp] theorem Wave.sReg_setV (w : Wave) (n k : Nat) (m : Lanes) (f : Nat → Word) : (w.setV n m f).sReg k = w.sReg k := rfl
@[simp] theorem Wave.aRow_setV (w : Wave) (n k : Nat) (m : Lanes) (f : Nat → Word) : (w.setV n m f).aRow k = w.aRow k := rfl
@[simp] theorem Wave.pReg_setV (w : Wave) (n k : Nat) (m : Lanes) (f : Nat → Word) : (w.setV n m f).pReg k = w.pReg k := rfl
@[simp] theorem Wave.mReg_setV (w : Wave) (n k : Nat) (m : Lanes) (f : Nat → Word) : (w.setV n m f).mReg k = w.mReg k := rfl
@[simp] theorem Wave.vRow_setA (w : Wave) (n k : Nat) (m : Lanes) (f : Nat → Word) : (w.setA n m f).vRow k = w.vRow k := rfl
@[simp] theorem Wave.sReg_setA (w : Wave) (n k : Nat) (m : Lanes) (f : Nat → Word) : (w.setA n m f).sReg k = w.sReg k := rfl
@[simp] theorem Wave.pReg_setA (w : Wave) (n k : Nat) (m : Lanes) (f : Nat → Word) : (w.setA n m f).pReg k = w.pReg k := rfl
@[simp] theorem Wave.mReg_setA (w : Wave) (n k : Nat) (m : Lanes) (f : Nat → Word) : (w.setA n m f).mReg k = w.mReg k := rfl
@[simp] theorem Wave.vRow_setP (w : Wave) (n k : Nat) (m : Lanes) (f : Nat → Bool) : (w.setP n m f).vRow k = w.vRow k := by simp [Wave.vRow]
@[simp] theorem Wave.sReg_setP (w : Wave) (n k : Nat) (m : Lanes) (f : Nat → Bool) : (w.setP n m f).sReg k = w.sReg k := by simp [Wave.sReg]
@[simp] theorem Wave.aRow_setP (w : Wave) (n k : Nat) (m : Lanes) (f : Nat → Bool) : (w.setP n m f).aRow k = w.aRow k := by simp [Wave.aRow]
@[simp] theorem Wave.mReg_setP (w : Wave) (n k : Nat) (m : Lanes) (f : Nat → Bool) : (w.setP n m f).mReg k = w.mReg k := by simp [Wave.mReg]

/-- The lanes of a row that a mask replaces. -/
theorem rowAt_rowMix (x : Row) (m : Lanes) (f : Nat → Word) (l : Nat) (hl : l < 32) :
    rowAt (rowMix x m f) l = if m.getLsbD l then f l else rowAt x l := by
  have h : (laneIds.map (fun l => if m.getLsbD l then f l else rowAt x l))[l]? =
      some (if m.getLsbD l then f l else rowAt x l) := by
    rw [List.getElem?_map, laneIds, List.getElem?_range hl]; rfl
  simp only [rowMix, rowAt] at h ⊢
  rw [List.getD_eq_getElem?_getD, h]
  rfl

theorem getLsbD_ofTest_aux (f : Nat → Bool) (xs : List Nat) (m : Lanes) (l : Nat) (hl : l < 32) :
    (xs.foldl (fun m l => if f l then m ||| (1#32 <<< l) else m) m).getLsbD l = (m.getLsbD l || (decide (l ∈ xs) && f l)) := by
  induction xs generalizing m with
  | nil => simp
  | cons x t ih =>
    rw [List.foldl_cons, ih]
    by_cases hx : l = x
    · subst hx
      cases hf : f l <;> simp [hl]
    · have : (1#32 <<< x).getLsbD l = false := by
        simp only [BitVec.getLsbD_shiftLeft, hl, decide_true, Bool.true_and]
        by_cases h : l < x
        · simp [h]
        · have : 0 < l - x := by omega
          have h2 : l - x ≠ 0 := by omega
          simp [h, h2, BitVec.getLsbD_one]
      cases hf : f x <;> simp [this, hx]

/-- A lane of the set of lanes that satisfy a test. -/
theorem getLsbD_ofTest (f : Nat → Bool) (l : Nat) (hl : l < 32) : (Lanes.ofTest f).getLsbD l = f l := by
  unfold Lanes.ofTest
  rw [getLsbD_ofTest_aux f laneIds 0#32 l hl]
  simp [laneIds, hl]

/-- A predicate after a write of some lanes. -/
theorem Wave.getLsbD_pReg_setP (w : Wave) (n k : Nat) (m : Lanes) (f : Nat → Bool) (l : Nat) (hl : l < 32) :
    ((w.setP n m f).pReg k).getLsbD l = if k = n ∧ n ≠ 15 ∧ m.getLsbD l = true then f l else (w.pReg k).getLsbD l := by
  unfold Wave.setP Wave.pReg
  by_cases hn : n = 15
  · simp [hn]
  · by_cases hk : k = 15
    · subst hk; simp [hn, Ne.symm hn]
    · simp only [hn, hk, if_false, SMap.get_set]
      by_cases h : k = n
      · subst h
        rw [if_pos rfl, BitVec.getLsbD_or, BitVec.getLsbD_and, BitVec.getLsbD_and, BitVec.getLsbD_not, getLsbD_ofTest _ _ hl]
        cases m.getLsbD l <;> simp [hn, hl, -BitVec.getLsbD_eq_getElem]
      · simp [h]

end Sys2Proof.Machine
end

