-- ==== Sys2Proof/Laws/Regs.lean ====
section
/-! SUPPORT. What writing an operand's registers does: the lanes named take the new values, and nothing else of the wave changes. -/

namespace Sys2Proof.Machine

@[simp] theorem mem_toList (m : Lanes) (l : Nat) : l ∈ Lanes.toList m ↔ l < 32 ∧ m.getLsbD l = true := by
  simp [Lanes.toList, laneIds]

theorem getLsbD_laneBit (i l : Nat) (hl : l < 32) : (laneBit i).getLsbD l = decide (l = i) := by
  unfold laneBit
  simp only [BitVec.getLsbD_shiftLeft, hl, decide_true, Bool.true_and, BitVec.getLsbD_one]
  by_cases h : l = i
  · subst h; simp
  · by_cases h2 : l < i <;> simp [h, h2]
    omega

/-! ## Two waves that differ in where their parts stand alone -/

theorem RegsKept.refl (w : Wave) (m : Lanes) (ds : List (Opd × Nat)) : RegsKept w w m ds :=
  ⟨fun _ _ _ _ => rfl, fun _ _ => rfl, fun _ _ _ => rfl, fun _ _ _ _ => rfl, fun _ _ => rfl⟩

/-- Retirement changes no register. -/
theorem RegsKept.retired {w u : Wave} {m : Lanes} {ds : List (Opd × Nat)} {clk : Nat} {c : Iss} {h : Hd} {k : How}
    (hk : RegsKept w u m ds) : RegsKept w (Wave.retired clk c h k u) m ds := by
  have e := Wave.retired_frame clk c h k u
  have hv : (Wave.retired clk c h k u).v = u.v := by have := congrArg Wave.v e; exact this
  have hs : (Wave.retired clk c h k u).s = u.s := by have := congrArg Wave.s e; exact this
  have hp : (Wave.retired clk c h k u).p = u.p := by have := congrArg Wave.p e; exact this
  have ha : (Wave.retired clk c h k u).a = u.a := by have := congrArg Wave.a e; exact this
  have hm : (Wave.retired clk c h k u).m = u.m := by have := congrArg Wave.m e; exact this
  obtain ⟨h1, h2, h3, h4, h5⟩ := hk
  refine ⟨fun k l hl hd => ?_, fun k hd => ?_, fun k l hd => ?_, fun k l hl hd => ?_, fun k hd => ?_⟩
  · rw [← h1 k l hl hd]; simp only [Wave.vRow, hv]
  · rw [← h2 k hd]; simp only [Wave.sReg, hs]
  · rw [← h3 k l hd]; simp only [Wave.pReg, hp]
  · rw [← h4 k l hl hd]; simp only [Wave.aRow, ha]
  · rw [← h5 k hd]; simp only [Wave.mReg, hm]

/-- Retirement changes nothing of what a register-only instruction keeps, unless it is a closer. -/
theorem RestKept.retired {w u : Wave} {clk : Nat} {c : Iss} {h : Hd} {k : How} (hc : k.closer = false) (hk : RestKept w u) :
    RestKept w (Wave.retired clk c h k u) := by
  unfold RestKept at hk ⊢
  rw [← hk]
  unfold Wave.retired
  rw [hc]
  cases k.branch <;> simp only [Bool.false_eq_true, if_true, if_false] <;> split <;> rfl

@[simp] theorem Wave.lane_retired (w u : Wave) (clk : Nat) (c : Iss) (h : Hd) (k : How) (o : Opd) (i l : Nat) :
    w.lane (Wave.retired clk c h k u) o i l = w.lane u o i l := by
  have e := Wave.retired_frame clk c h k u
  have hv : (Wave.retired clk c h k u).v = u.v := by have := congrArg Wave.v e; exact this
  have ha : (Wave.retired clk c h k u).a = u.a := by have := congrArg Wave.a e; exact this
  cases o <;> simp only [Wave.lane, Wave.vRow, Wave.aRow, hv, ha]

@[simp] theorem Wave.sReg_retired (u : Wave) (clk : Nat) (c : Iss) (h : Hd) (k : How) (n : Nat) :
    (Wave.retired clk c h k u).sReg n = u.sReg n := by
  have e := Wave.retired_frame clk c h k u
  have hs : (Wave.retired clk c h k u).s = u.s := by have := congrArg Wave.s e; exact this
  simp only [Wave.sReg, hs]

@[simp] theorem Wave.pReg_retired (u : Wave) (clk : Nat) (c : Iss) (h : Hd) (k : How) (n : Nat) :
    (Wave.retired clk c h k u).pReg n = u.pReg n := by
  have e := Wave.retired_frame clk c h k u
  have hs : (Wave.retired clk c h k u).p = u.p := by have := congrArg Wave.p e; exact this
  simp only [Wave.pReg, hs]

@[simp] theorem Wave.mReg_retired (u : Wave) (clk : Nat) (c : Iss) (h : Hd) (k : How) (n : Nat) :
    (Wave.retired clk c h k u).mReg n = u.mReg n := by
  have e := Wave.retired_frame clk c h k u
  have hs : (Wave.retired clk c h k u).m = u.m := by have := congrArg Wave.m e; exact this
  simp only [Wave.mReg, hs]

/-- The register-only frame and the advance of an effect that changes the issuing wave alone. -/
theorem regFrame_onWave {s : State} {h : Hd} {c : Iss} {k : How} {f : Wave → Wave} {w : Wave} {ds : List (Opd × Nat)}
    (hw : s.run.waves.get? c.wid = some w) (hc : k.closer = false)
    (hr : RegsKept w (f w) c.act ds) (hk : RestKept w (f w)) :
    RegFrame s { s with run := (s.run.onWave c.wid f).retire c h k } c ds := by
  have e : s.run.wave c.wid = w := by simp [Run.wave, hw]
  refine ⟨deviceKept_onWave, ?_, ?_⟩
  · rw [e, wave_onWave_retire hw]; exact RegsKept.retired hr
  · rw [e, wave_onWave_retire hw]; exact RestKept.retired hc hk

theorem movedOn_onWave {s : State} {h : Hd} {c : Iss} {k : How} {f : Wave → Wave} {w : Wave}
    (hw : s.run.waves.get? c.wid = some w) (hb : k.branch = false) (hc : k.closer = false) (hp : (f w).parts = w.parts) :
    MovedOn s { s with run := (s.run.onWave c.wid f).retire c h k } c := by
  have e : s.run.wave c.wid = w := by simp [Run.wave, hw]
  unfold MovedOn
  rw [e, wave_onWave_retire hw, Wave.retired_parts _ _ _ _ _ hb hc]
  simp only [Wave.advance_parts, Wave.onParts_parts, hp]

/-! ## Writing the lanes an operand names -/

theorem foldl_setV_parts (xs : List Nat) (g : Nat → Nat) (f : Nat → Word) (w : Wave) :
    (xs.foldl (fun w l => w.setV (g l) (laneBit l) f) w).parts = w.parts := by
  induction xs generalizing w with
  | nil => rfl
  | cons x t ih => rw [List.foldl_cons, ih]; rfl

theorem foldl_setV_rest (xs : List Nat) (g : Nat → Nat) (f : Nat → Word) (w : Wave) :
    { xs.foldl (fun w l => w.setV (g l) (laneBit l) f) w with v := w.v, vEmpty := w.vEmpty, vInd := w.vInd } = w := by
  induction xs generalizing w with
  | nil => rfl
  | cons x t ih =>
    rw [List.foldl_cons]
    have h := ih (w.setV (g x) (laneBit x) f)
    have := congrArg (fun u : Wave => { u with v := w.v, vEmpty := w.vEmpty, vInd := w.vInd }) h
    exact this

theorem foldl_setV_vRow (xs : List Nat) (g : Nat → Nat) (f : Nat → Word) (w : Wave) (k l : Nat) (hl : l < 32) :
    rowAt ((xs.foldl (fun w l => w.setV (g l) (laneBit l) f) w).vRow k) l =
      if l ∈ xs ∧ g l = k then f l else rowAt (w.vRow k) l := by
  induction xs generalizing w with
  | nil => simp
  | cons x t ih =>
    rw [List.foldl_cons, ih]
    by_cases ht : l ∈ t ∧ g l = k
    · simp [ht]
    · rw [if_neg ht, Wave.vRow_setV]
      by_cases hk : k = g x
      · rw [if_pos hk, rowAt_rowMix _ _ _ _ hl, getLsbD_laneBit _ _ hl, ← hk]
        by_cases hx : l = x
        · subst hx; simp [hk]
        · have : ¬(l ∈ x :: t ∧ g l = k) := by
            intro h; rcases List.mem_cons.mp h.1 with e | e
            · exact hx e
            · exact ht ⟨e, h.2⟩
          simp [hx, ht]
      · rw [if_neg hk]
        have : ¬(l ∈ x :: t ∧ g l = k) := by
          intro h; rcases List.mem_cons.mp h.1 with e | e
          · exact hk (by rw [← e]; exact h.2.symm)
          · exact ht ⟨e, h.2⟩
        rw [if_neg this]

@[simp] theorem Wave.put_parts (w : Wave) (o : Opd) (i : Nat) (m : Lanes) (f : Nat → Word) : (w.put o i m f).parts = w.parts := by
  cases o <;> simp only [Wave.put, Wave.setV_parts, Wave.setA_parts]
  exact foldl_setV_parts _ _ _ _

theorem restKept_put (w : Wave) (o : Opd) (i : Nat) (m : Lanes) (f : Nat → Word) : RestKept w (w.put o i m f) := by
  unfold RestKept
  cases o <;> try rfl
  next n k =>
    simp only [Wave.put]
    have h := foldl_setV_rest m.toList (fun l => (laneIds.map (fun l => (w.vIdx (.rel n k) l + i).toNat)).getD l 0) f w
    have := congrArg (fun u : Wave => { u with v := w.v, s := w.s, p := w.p, a := w.a, m := w.m, vEmpty := w.vEmpty, vInd := w.vInd
                                               sEmpty := w.sEmpty, sInd := w.sInd, parts := w.parts, stall := w.stall
                                               yielded := w.yielded }) h
    exact this

theorem relTable (w : Wave) (o : Opd) (i l : Nat) (hl : l < 32) :
    (laneIds.map (fun l => (w.vIdx o l + i).toNat)).getD l 0 = (w.vIdx o l + i).toNat := by
  rw [List.getD_eq_getElem?_getD, List.getElem?_map, laneIds, List.getElem?_range hl]; rfl

/-- Writing register i of an operand's group changes that register alone, in the lanes written. -/
theorem regsKept_put (w : Wave) (o : Opd) (i len : Nat) (m : Lanes) (f : Nat → Word) (hi : i < len) :
    RegsKept w (w.put o i m f) m [(o, len)] := by
  cases o with
  | v n =>
    refine ⟨fun k l hl hd => ?_, fun k hd => rfl, fun k l hd => rfl, fun k l hl hd => rfl, fun k hd => rfl⟩
    simp only [Wave.put, Wave.vRow_setV]
    split
    · next hk =>
      rw [rowAt_rowMix _ _ _ _ hl, hk]
      split
      · next hm => exact absurd ⟨hm, i, hi, hk.symm⟩ (hd (.v n, len) (List.mem_singleton.mpr rfl))
      · rfl
    · rfl
  | rel n x =>
    refine ⟨fun k l hl hd => ?_, ?_⟩
    · simp only [Wave.put]
      rw [foldl_setV_vRow _ (fun l => (laneIds.map (fun l => (w.vIdx (.rel n x) l + i).toNat)).getD l 0) f w k l hl]
      split
      · next hm =>
        rw [relTable _ _ _ _ hl, mem_toList] at hm
        exact absurd ⟨hm.1.2, i, hi, hm.2⟩ (hd (.rel n x, len) (List.mem_singleton.mpr rfl))
      · rfl
    · have h := foldl_setV_rest m.toList (fun l => (laneIds.map (fun l => (w.vIdx (.rel n x) l + i).toNat)).getD l 0) f w
      have hs := congrArg Wave.s h
      have hp := congrArg Wave.p h
      have ha := congrArg Wave.a h
      have hm := congrArg Wave.m h
      simp only [] at hs hp ha hm
      refine ⟨fun k hd => ?_, fun k l hd => ?_, fun k l hl hd => ?_, fun k hd => ?_⟩ <;>
        simp only [Wave.put, Wave.sReg, Wave.pReg, Wave.aRow, Wave.mReg, hs, hp, ha, hm]
  | a n =>
    refine ⟨fun k l hl hd => rfl, fun k hd => rfl, fun k l hd => rfl, fun k l hl hd => ?_, fun k hd => rfl⟩
    simp only [Wave.put, Wave.aRow_setA]
    split
    · next hk =>
      rw [rowAt_rowMix _ _ _ _ hl, hk]
      split
      · next hm => exact absurd ⟨hm, i, hi, hk.symm⟩ (hd (.a n, len) (List.mem_singleton.mpr rfl))
      · rfl
    · rfl
  | _ => exact RegsKept.refl w m _

/-- A lane written reads as the value written. -/
theorem lane_put (w : Wave) (o : Opd) (i : Nat) (m : Lanes) (f : Nat → Word) (l : Nat) (hl : l < 32) (hm : m.getLsbD l = true)
    (ho : Opd.laneReg o = true) : w.lane (w.put o i m f) o i l = f l := by
  cases o with
  | v n => simp [Wave.lane, Wave.put, rowAt_rowMix _ _ _ _ hl, hm, -BitVec.getLsbD_eq_getElem]
  | rel n x =>
    simp only [Wave.lane, Wave.put]
    rw [foldl_setV_vRow _ (fun l => (laneIds.map (fun l => (w.vIdx (.rel n x) l + i).toNat)).getD l 0) f w _ l hl, relTable _ _ _ _ hl,
      if_pos ⟨(mem_toList m l).mpr ⟨hl, hm⟩, rfl⟩]
  | a n => simp [Wave.lane, Wave.put, rowAt_rowMix _ _ _ _ hl, hm, -BitVec.getLsbD_eq_getElem]
  | _ => simp [Opd.laneReg] at ho

theorem regsKept_setS (w : Wave) (n : BitVec 7) (x : Word64) (m : Lanes) : RegsKept w (w.setS n.toNat x) m [(.s n, 1)] := by
  refine ⟨fun k l hl hd => rfl, fun k hd => ?_, fun k l hd => rfl, fun k l hl hd => rfl, fun k hd => rfl⟩
  rw [Wave.sReg_setS, if_neg]
  intro hk
  exact hd (.s n, 1) (List.mem_singleton.mpr rfl) ⟨0, by omega, by simp [hk]⟩

theorem regsKept_setP (w : Wave) (n : BitVec 4) (m : Lanes) (f : Nat → Bool) : RegsKept w (w.setP n.toNat m f) m [(.p n, 1)] := by
  refine ⟨fun k l hl hd => by simp, fun k hd => by simp, fun k l hd => ?_, fun k l hl hd => by simp, fun k hd => by simp⟩
  by_cases hl : l < 32
  · rw [Wave.getLsbD_pReg_setP _ _ _ _ _ _ hl]
    split
    · next h => exact absurd ⟨h.2.2, h.1.symm, by omega⟩ (hd (.p n, 1) (List.mem_singleton.mpr rfl))
    · rfl
  · rw [BitVec.getLsbD_of_ge _ _ (by omega), BitVec.getLsbD_of_ge _ _ (by omega)]

theorem restKept_setS (w : Wave) (n : Nat) (x : Word64) : RestKept w (w.setS n x) := rfl
theorem restKept_setP (w : Wave) (n : Nat) (m : Lanes) (f : Nat → Bool) : RestKept w (w.setP n m f) := by
  unfold RestKept Wave.setP; split <;> rfl

/-- One change after another. -/
theorem RestKept.trans {a b c : Wave} (h : RestKept a b) (g : RestKept b c) : RestKept a c := by
  unfold RestKept at *
  have := congrArg (fun u : Wave => { u with v := a.v, s := a.s, p := a.p, a := a.a, m := a.m, vEmpty := a.vEmpty, vInd := a.vInd
                                             sEmpty := a.sEmpty, sInd := a.sInd, parts := a.parts, stall := a.stall
                                             yielded := a.yielded }) g
  exact this.trans h

end Sys2Proof.Machine
end

