-- ==== Sys2Proof/Laws/Integer.lean ====
section
/-! SUPPORT. The laws of the integer pipe: the arithmetic of patterns as arithmetic of bit vectors, and what the shared issue of an
integer instruction leaves in its destination. -/

namespace Sys2Proof.Machine

theorem iw_pos (t : IType) : 0 < iw t := by cases t <;> decide

/-- The integer of a pattern (R140). -/
theorem ival_toNat (t : IType) (x : BitVec (iw t)) : ival t x.toNat = valOf t x := by
  unfold ival valOf
  rw [BitVec.toInt_eq_toNat_cond]
  cases t <;> simp [IType.signed, iw, IType.is64] <;> omega

/-- Wrapping an exact result (R142). -/
theorem ofNat_iwrap (t : IType) (z : Int) : BitVec.ofNat (iw t) (iwrap t z) = BitVec.ofInt (iw t) z := by
  unfold iwrap
  apply BitVec.eq_of_toNat_eq
  simp only [BitVec.toNat_ofNat, BitVec.toNat_ofInt]
  have h0 : 0 ≤ z % 2 ^ iw t := Int.emod_nonneg _ (by positivity)
  have h1 : z % 2 ^ iw t < 2 ^ iw t := Int.emod_lt_of_pos _ (by positivity)
  rw [Nat.mod_eq_of_lt (by zify; simp only [Int.toNat_of_nonneg h0]; exact_mod_cast h1)]
  congr 1

theorem imin_eq (t : IType) : imin t = minOf t (iw t) := by cases t <;> rfl
theorem imax_eq (t : IType) : imax t = maxOf t (iw t) := by cases t <;> rfl
theorem iclamp_eq (t : IType) (z : Int) : iclamp t z = clampOf t (iw t) z := by
  unfold iclamp clampOf; rw [imin_eq, imax_eq]

/-- Wrapping or saturating an exact result. -/
theorem ofNat_isat (t : IType) (sat : Bool) (z : Int) :
    BitVec.ofNat (iw t) (isat t sat z) = BitVec.ofInt (iw t) (if sat then clampOf t (iw t) z else z) := by
  unfold isat; rw [ofNat_iwrap]; cases sat <;> simp [iclamp_eq]

/-! ## The registers an integer instruction writes -/

/-- A vector-unit result changes D, and C under .co, and nothing else of the wave. -/
theorem putInt_lane (w : Wave) (t : IType) (o : Ops) (setC : Bool) (act : Lanes) (f : Nat → IntOut) (hd : Opd.laneReg o.d = true) :
    (w.putInt t o setC act f).parts = w.parts ∧ RestKept w (w.putInt t o setC act f) ∧
    RegsKept w (w.putInt t o setC act f) act ((o.d, 1) :: if setC then [(o.c, 1)] else []) ∧
    ∀ l, l < 32 → act.getLsbD l = true → w.lane (w.putInt t o setC act f) o.d 0 l = BitVec.ofNat 32 (f l).d := by
  have e : w.putInt t o setC act f = match setC, o.c with
      | true, .p n => (w.put o.d 0 act (fun l => BitVec.ofNat 32 (f l).d)).setP n.toNat act (fun l => (f l).p)
      | _, _ => w.put o.d 0 act (fun l => BitVec.ofNat 32 (f l).d) := by
    unfold Wave.putInt
    cases hh : o.d <;> simp [Opd.laneReg, hh] at hd <;> rfl
  set g := fun l => BitVec.ofNat 32 (f l).d with hg
  have hput := regsKept_put w o.d 0 1 act g (by omega)
  have hlane : ∀ l, l < 32 → act.getLsbD l = true → w.lane (w.put o.d 0 act g) o.d 0 l = g l :=
    fun l hl hm => lane_put w o.d 0 act g l hl hm hd
  rw [e]
  split
  · next n hn =>
    refine ⟨by simp, (restKept_put w o.d 0 act g).trans (restKept_setP _ _ _ _), ?_, fun l hl hm => ?_⟩
    · have hp := regsKept_setP (w.put o.d 0 act g) n act (fun l => (f l).p)
      refine ⟨fun k l hl h => ?_, fun k h => ?_, fun k l h => ?_, fun k l hl h => ?_, fun k h => ?_⟩
      · rw [Wave.vRow_setP]; exact hput.1 k l hl (fun d hd => h d (by simp_all))
      · rw [Wave.sReg_setP]; exact hput.2.1 k (fun d hd => h d (by simp_all))
      · rw [hp.2.2.1 k l (fun d hd => h d (by simp_all))]; exact hput.2.2.1 k l (fun d hd => h d (by simp_all))
      · rw [Wave.aRow_setP]; exact hput.2.2.2.1 k l hl (fun d hd => h d (by simp_all))
      · rw [Wave.mReg_setP]; exact hput.2.2.2.2 k (fun d hd => h d (by simp_all))
    · have e2 := hlane l hl hm
      refine Eq.trans ?_ e2
      cases o.d <;> simp only [Wave.lane, Wave.vRow_setP, Wave.aRow_setP]
  · refine ⟨by simp, restKept_put w o.d 0 act g, ?_, hlane⟩
    obtain ⟨h1, h2, h3, h4, h5⟩ := hput
    exact ⟨fun k l hl h => h1 k l hl (fun d hd => h d (by simp_all)), fun k h => h2 k (fun d hd => h d (by simp_all)),
      fun k l h => h3 k l (fun d hd => h d (by simp_all)), fun k l hl h => h4 k l hl (fun d hd => h d (by simp_all)),
      fun k h => h5 k (fun d hd => h d (by simp_all))⟩

/-- A scalar-unit result changes D, and C under .co, and nothing else of the wave. -/
theorem putInt_scalar (w : Wave) (t : IType) (o : Ops) (setC : Bool) (act : Lanes) (f : Nat → IntOut) (n : BitVec 7) (hd : o.d = .s n) :
    (w.putInt t o setC act f).parts = w.parts ∧ RestKept w (w.putInt t o setC act f) ∧
    RegsKept w (w.putInt t o setC act f) act ((o.d, 1) :: if setC then [(o.c, 1)] else []) ∧
    (w.putInt t o setC act f).sReg n.toNat = scalarExt t (f act.lowest).d := by
  have e : w.putInt t o setC act f = match setC, o.c with
      | true, .p k => (w.setS n.toNat (scalarExt t (f act.lowest).d)).setP k.toNat act (fun l => (f l).p)
      | _, _ => w.setS n.toNat (scalarExt t (f act.lowest).d) := by
    unfold Wave.putInt; rw [hd]; try rfl
  set x := scalarExt t (f act.lowest).d with hx
  have hput := regsKept_setS w n x act
  rw [e, hd]
  split
  · next k hk =>
    refine ⟨by simp, (restKept_setS w n.toNat x).trans (restKept_setP _ _ _ _), ?_, by simp⟩
    have hp := regsKept_setP (w.setS n.toNat x) k act (fun l => (f l).p)
    refine ⟨fun k l hl h => ?_, fun k h => ?_, fun k l h => ?_, fun k l hl h => ?_, fun k h => ?_⟩
    · rw [Wave.vRow_setP]; exact hput.1 k l hl (fun d hd => h d (by simp_all))
    · rw [Wave.sReg_setP]; exact hput.2.1 k (fun d hd => h d (by simp_all))
    · rw [hp.2.2.1 k l (fun d hd => h d (by simp_all))]; exact hput.2.2.1 k l (fun d hd => h d (by simp_all))
    · rw [Wave.aRow_setP]; exact hput.2.2.2.1 k l hl (fun d hd => h d (by simp_all))
    · rw [Wave.mReg_setP]; exact hput.2.2.2.2 k (fun d hd => h d (by simp_all))
  · refine ⟨by simp, restKept_setS w n.toNat x, ?_, by simp⟩
    obtain ⟨h1, h2, h3, h4, h5⟩ := hput
    exact ⟨fun k l hl h => h1 k l hl (fun d hd => h d (by simp_all)), fun k h => h2 k (fun d hd => h d (by simp_all)),
      fun k l h => h3 k l (fun d hd => h d (by simp_all)), fun k l hl h => h4 k l hl (fun d hd => h d (by simp_all)),
      fun k h => h5 k (fun d hd => h d (by simp_all))⟩

/-- The issue of an integer instruction in the vector unit. -/
theorem intIssue_lane {h : Hd} {t : IType} {o : Ops} {setC : Bool} {f : Nat → Nat → Nat → Bool → IntOut} {s : State} {c : Iss}
    (hI : Issues s h c (usesOf h o)) (hd : Opd.laneReg o.d = true) :
    Completes (intIssue h t o setC f s) (fun t' =>
      RegFrame s t' c ((o.d, 1) :: if setC then [(o.c, 1)] else []) ∧ MovedOn s t' c ∧
      ∀ l, l < 32 → c.act.getLsbD l = true → (s.wv c).lane (t'.wv c) o.d 0 l = BitVec.ofNat 32
        (f (s.src c o.a l).toNat (s.src c o.b l).toNat (s.src c o.c l).toNat (predAt (s.wv c) o.c l)).d) := by
  have hv : Ops.vecUnit o = true := by
    revert hd; cases hh : o.d <;> simp [Opd.laneReg, Ops.vecUnit, Opd.perLane, hh]
  obtain ⟨w, hw, -, hww⟩ := Run.issuer_wave _ _ _ hI.1
  refine ⟨_, issue_ok' (k := { uses := usesOf h o, vec := Ops.vecUnit o }) hI (.inl rfl) (.inl rfl) rfl rfl, ?_⟩
  simp only [hv, if_true]
  obtain ⟨k1, k2, k3, k4⟩ := putInt_lane w t o setC c.act (fun l => f (s.src c o.a l).toNat (s.src c o.b l).toNat
    (s.src c o.c l).toNat (predAt (s.run.wave c.wid) o.c l)) hd
  refine ⟨regFrame_onWave hw rfl k3 k2, movedOn_onWave hw rfl rfl k1, fun l hl hl2 => ?_⟩
  simp only [State.wv]
  rw [wave_onWave_retire hw, Wave.lane_retired, hww]
  rw [hww] at k4
  exact k4 l hl hl2

/-- The issue of an integer instruction in the scalar unit. -/
theorem intIssue_scalar {h : Hd} {t : IType} {o : Ops} {setC : Bool} {f : Nat → Nat → Nat → Bool → IntOut} {s : State} {c : Iss}
    {n : BitVec 7} (hI : Issues s h c (usesOf h o)) (hd : o.d = .s n) (hv : Ops.vecUnit o = false) :
    Completes (intIssue h t o setC f s) (fun t' =>
      RegFrame s t' c ((o.d, 1) :: if setC then [(o.c, 1)] else []) ∧ MovedOn s t' c ∧
      (t'.wv c).sReg n.toNat = scalarExt t (f ((s.ssrc c o.a).toNat % 2 ^ iw t) ((s.ssrc c o.b).toNat % 2 ^ iw t)
        ((s.ssrc c o.c).toNat % 2 ^ iw t) (predAt (s.wv c) o.c c.act.lowest)).d) := by
  obtain ⟨w, hw, -, hww⟩ := Run.issuer_wave _ _ _ hI.1
  refine ⟨_, issue_ok' (k := { uses := usesOf h o, vec := Ops.vecUnit o }) hI (.inl rfl) (.inl rfl) rfl rfl, ?_⟩
  simp only [hv, Bool.false_eq_true, if_false]
  obtain ⟨k1, k2, k3, k4⟩ := putInt_scalar w t o setC c.act (fun _ => f ((s.ssrc c o.a).toNat % 2 ^ iw t)
    ((s.ssrc c o.b).toNat % 2 ^ iw t) ((s.ssrc c o.c).toNat % 2 ^ iw t) (predAt (s.run.wave c.wid) o.c c.act.lowest)) n hd
  refine ⟨regFrame_onWave hw rfl k3 k2, movedOn_onWave hw rfl rfl k1, ?_⟩
  simp only [State.wv]
  rw [wave_onWave_retire hw, Wave.sReg_retired, k4]

end Sys2Proof.Machine
end

