-- ==== Sys2Proof/Laws/PerInstr.lean ====
section
/-! SUPPORT. What is said of every instruction, one constructor at a time: the operation code in the word of an instruction names its
mnemonic in the map of R60, and no other. -/

namespace Sys2Proof

theorem Op.ofCode_code (op : Op) : Op.ofCode op.code = some op := by cases op <;> rfl

theorem Op.code_lt (op : Op) : op.code < 2048 := by cases op <;> decide

theorem getLsbD_low {a b : Nat} (x : BitVec a) (y : BitVec b) (i : Nat) (h : i < b) : (x ++ y).getLsbD i = y.getLsbD i := by
  simp [BitVec.getLsbD_append, h]

theorem Raw.opc_toWord (r : Raw) : (Raw.toWord r).extractLsb' 0 11 = r.opc := by
  ext i hi
  rw [BitVec.getElem_extractLsb', Nat.zero_add]
  exact (getLsbD_low r.ext _ i (by omega)).trans <| (getLsbD_low r.hint _ i (by omega)).trans <|
    (getLsbD_low r.mod _ i (by omega)).trans <| (getLsbD_low r.b _ i (by omega)).trans <|
    (getLsbD_low r.a _ i (by omega)).trans <| (getLsbD_low r.d _ i (by omega)).trans (getLsbD_low r.grd r.opc i hi)

/-- OPC of the word of an instruction is the code of its mnemonic. -/
def Laws.OpcNames.Statement (i : Instr) : Prop := ∀ w, encode i = some w → Op.ofCode (bits w 0 11) = i.parts.map (fun p => p.1)

theorem Laws.OpcNames.spec (i : Instr) : Laws.OpcNames.Statement i := by
  intro w h
  unfold encode at h
  split at h
  · cases h
  · rename_i op m hd o e
    cases h
    rw [e]
    simp [bits, Raw.opc_toWord, Nat.mod_eq_of_lt op.code_lt, Op.ofCode_code]

theorem Laws.OpcNames.nop (h : _) : Laws.OpcNames.Statement (.nop h) := Laws.OpcNames.spec _
theorem Laws.OpcNames.bra (h : _) (off : _) : Laws.OpcNames.Statement (.bra h off) := Laws.OpcNames.spec _
theorem Laws.OpcNames.brx (h : _) (o : _) : Laws.OpcNames.Statement (.brx h o) := Laws.OpcNames.spec _
theorem Laws.OpcNames.call (h : _) (o : _) : Laws.OpcNames.Statement (.call h o) := Laws.OpcNames.spec _
theorem Laws.OpcNames.callx (h : _) (o : _) : Laws.OpcNames.Statement (.callx h o) := Laws.OpcNames.spec _
theorem Laws.OpcNames.ret (h : _) (o : _) : Laws.OpcNames.Statement (.ret h o) := Laws.OpcNames.spec _
theorem Laws.OpcNames.exit (h : _) : Laws.OpcNames.Statement (.exit h) := Laws.OpcNames.spec _
theorem Laws.OpcNames.regang (h : _) (k : _) : Laws.OpcNames.Statement (.regang h k) := Laws.OpcNames.spec _
theorem Laws.OpcNames.yield (h : _) : Laws.OpcNames.Statement (.yield h) := Laws.OpcNames.spec _
theorem Laws.OpcNames.region (h : _) : Laws.OpcNames.Statement (.region h) := Laws.OpcNames.spec _
theorem Laws.OpcNames.trap (h : _) (n : _) : Laws.OpcNames.Statement (.trap h n) := Laws.OpcNames.spec _
theorem Laws.OpcNames.brk (h : _) (n : _) : Laws.OpcNames.Statement (.brk h n) := Laws.OpcNames.spec _
theorem Laws.OpcNames.rte (h : _) : Laws.OpcNames.Statement (.rte h) := Laws.OpcNames.spec _
theorem Laws.OpcNames.rteRegion (h : _) : Laws.OpcNames.Statement (.rteRegion h) := Laws.OpcNames.spec _
theorem Laws.OpcNames.rolesw (h : _) (o : _) : Laws.OpcNames.Statement (.rolesw h o) := Laws.OpcNames.spec _
theorem Laws.OpcNames.phase (h : _) (o : _) : Laws.OpcNames.Statement (.phase h o) := Laws.OpcNames.spec _
theorem Laws.OpcNames.iadd (h : _) (m : _) (o : _) : Laws.OpcNames.Statement (.iadd h m o) := Laws.OpcNames.spec _
theorem Laws.OpcNames.isub (h : _) (m : _) (o : _) : Laws.OpcNames.Statement (.isub h m o) := Laws.OpcNames.spec _
theorem Laws.OpcNames.imin (h : _) (t : _) (o : _) : Laws.OpcNames.Statement (.imin h t o) := Laws.OpcNames.spec _
theorem Laws.OpcNames.imax (h : _) (t : _) (o : _) : Laws.OpcNames.Statement (.imax h t o) := Laws.OpcNames.spec _
theorem Laws.OpcNames.iabs (h : _) (m : _) (o : _) : Laws.OpcNames.Statement (.iabs h m o) := Laws.OpcNames.spec _
theorem Laws.OpcNames.ineg (h : _) (m : _) (o : _) : Laws.OpcNames.Statement (.ineg h m o) := Laws.OpcNames.spec _
theorem Laws.OpcNames.and (h : _) (t : _) (o : _) : Laws.OpcNames.Statement (.and h t o) := Laws.OpcNames.spec _
theorem Laws.OpcNames.or (h : _) (t : _) (o : _) : Laws.OpcNames.Statement (.or h t o) := Laws.OpcNames.spec _
theorem Laws.OpcNames.xor (h : _) (t : _) (o : _) : Laws.OpcNames.Statement (.xor h t o) := Laws.OpcNames.spec _
theorem Laws.OpcNames.not (h : _) (t : _) (o : _) : Laws.OpcNames.Statement (.not h t o) := Laws.OpcNames.spec _
theorem Laws.OpcNames.shl (h : _) (t : _) (o : _) : Laws.OpcNames.Statement (.shl h t o) := Laws.OpcNames.spec _
theorem Laws.OpcNames.shr (h : _) (t : _) (o : _) : Laws.OpcNames.Statement (.shr h t o) := Laws.OpcNames.spec _
theorem Laws.OpcNames.rot (h : _) (m : _) (o : _) : Laws.OpcNames.Statement (.rot h m o) := Laws.OpcNames.spec _
theorem Laws.OpcNames.popc (h : _) (t : _) (o : _) : Laws.OpcNames.Statement (.popc h t o) := Laws.OpcNames.spec _
theorem Laws.OpcNames.clz (h : _) (t : _) (o : _) : Laws.OpcNames.Statement (.clz h t o) := Laws.OpcNames.spec _
theorem Laws.OpcNames.brev (h : _) (t : _) (o : _) : Laws.OpcNames.Statement (.brev h t o) := Laws.OpcNames.spec _
theorem Laws.OpcNames.bfe (h : _) (t : _) (o : _) : Laws.OpcNames.Statement (.bfe h t o) := Laws.OpcNames.spec _
theorem Laws.OpcNames.bfi (h : _) (t : _) (o : _) : Laws.OpcNames.Statement (.bfi h t o) := Laws.OpcNames.spec _
theorem Laws.OpcNames.sel (h : _) (t : _) (o : _) : Laws.OpcNames.Statement (.sel h t o) := Laws.OpcNames.spec _
theorem Laws.OpcNames.isetp (h : _) (m : _) (o : _) : Laws.OpcNames.Statement (.isetp h m o) := Laws.OpcNames.spec _
theorem Laws.OpcNames.lea (h : _) (m : _) (o : _) : Laws.OpcNames.Statement (.lea h m o) := Laws.OpcNames.spec _
theorem Laws.OpcNames.imul (h : _) (m : _) (o : _) : Laws.OpcNames.Statement (.imul h m o) := Laws.OpcNames.spec _
theorem Laws.OpcNames.imulh (h : _) (t : _) (o : _) : Laws.OpcNames.Statement (.imulh h t o) := Laws.OpcNames.spec _
theorem Laws.OpcNames.imad (h : _) (t : _) (o : _) : Laws.OpcNames.Statement (.imad h t o) := Laws.OpcNames.spec _
theorem Laws.OpcNames.imadw (h : _) (t : _) (o : _) : Laws.OpcNames.Statement (.imadw h t o) := Laws.OpcNames.spec _
theorem Laws.OpcNames.fadd (h : _) (m : _) (o : _) : Laws.OpcNames.Statement (.fadd h m o) := Laws.OpcNames.spec _
theorem Laws.OpcNames.fsub (h : _) (m : _) (o : _) : Laws.OpcNames.Statement (.fsub h m o) := Laws.OpcNames.spec _
theorem Laws.OpcNames.fmul (h : _) (m : _) (o : _) : Laws.OpcNames.Statement (.fmul h m o) := Laws.OpcNames.spec _
theorem Laws.OpcNames.ffma (h : _) (m : _) (o : _) : Laws.OpcNames.Statement (.ffma h m o) := Laws.OpcNames.spec _
theorem Laws.OpcNames.fmin (h : _) (m : _) (o : _) : Laws.OpcNames.Statement (.fmin h m o) := Laws.OpcNames.spec _
theorem Laws.OpcNames.fmax (h : _) (m : _) (o : _) : Laws.OpcNames.Statement (.fmax h m o) := Laws.OpcNames.spec _
theorem Laws.OpcNames.fsetp (h : _) (m : _) (o : _) : Laws.OpcNames.Statement (.fsetp h m o) := Laws.OpcNames.spec _
theorem Laws.OpcNames.fclass (h : _) (o : _) : Laws.OpcNames.Statement (.fclass h o) := Laws.OpcNames.spec _
theorem Laws.OpcNames.fscale (h : _) (m : _) (o : _) : Laws.OpcNames.Statement (.fscale h m o) := Laws.OpcNames.spec _
theorem Laws.OpcNames.frcp (h : _) (m : _) (o : _) : Laws.OpcNames.Statement (.frcp h m o) := Laws.OpcNames.spec _
theorem Laws.OpcNames.frsq (h : _) (m : _) (o : _) : Laws.OpcNames.Statement (.frsq h m o) := Laws.OpcNames.spec _
theorem Laws.OpcNames.fsqrt (h : _) (m : _) (o : _) : Laws.OpcNames.Statement (.fsqrt h m o) := Laws.OpcNames.spec _
theorem Laws.OpcNames.fexp2 (h : _) (m : _) (o : _) : Laws.OpcNames.Statement (.fexp2 h m o) := Laws.OpcNames.spec _
theorem Laws.OpcNames.flog2 (h : _) (m : _) (o : _) : Laws.OpcNames.Statement (.flog2 h m o) := Laws.OpcNames.spec _
theorem Laws.OpcNames.fsin (h : _) (m : _) (o : _) : Laws.OpcNames.Statement (.fsin h m o) := Laws.OpcNames.spec _
theorem Laws.OpcNames.fcos (h : _) (m : _) (o : _) : Laws.OpcNames.Statement (.fcos h m o) := Laws.OpcNames.spec _
theorem Laws.OpcNames.ftanh (h : _) (m : _) (o : _) : Laws.OpcNames.Statement (.ftanh h m o) := Laws.OpcNames.spec _
theorem Laws.OpcNames.cvt (h : _) (m : _) (o : _) : Laws.OpcNames.Statement (.cvt h m o) := Laws.OpcNames.spec _
theorem Laws.OpcNames.pack (h : _) (m : _) (o : _) : Laws.OpcNames.Statement (.pack h m o) := Laws.OpcNames.spec _
theorem Laws.OpcNames.unpk (h : _) (m : _) (o : _) : Laws.OpcNames.Statement (.unpk h m o) := Laws.OpcNames.spec _
theorem Laws.OpcNames.frnd (h : _) (m : _) (o : _) : Laws.OpcNames.Statement (.frnd h m o) := Laws.OpcNames.spec _
theorem Laws.OpcNames.shfl (h : _) (m : _) (o : _) : Laws.OpcNames.Statement (.shfl h m o) := Laws.OpcNames.spec _
theorem Laws.OpcNames.vred (h : _) (m : _) (o : _) : Laws.OpcNames.Statement (.vred h m o) := Laws.OpcNames.spec _
theorem Laws.OpcNames.vscan (h : _) (m : _) (o : _) : Laws.OpcNames.Statement (.vscan h m o) := Laws.OpcNames.spec _
theorem Laws.OpcNames.vote (h : _) (m : _) (o : _) : Laws.OpcNames.Statement (.vote h m o) := Laws.OpcNames.spec _
theorem Laws.OpcNames.vbal (h : _) (o : _) : Laws.OpcNames.Statement (.vbal h o) := Laws.OpcNames.spec _
theorem Laws.OpcNames.vcomp (h : _) (z : _) (o : _) : Laws.OpcNames.Statement (.vcomp h z o) := Laws.OpcNames.spec _
theorem Laws.OpcNames.vexp (h : _) (z : _) (o : _) : Laws.OpcNames.Statement (.vexp h z o) := Laws.OpcNames.spec _
theorem Laws.OpcNames.vfirst (h : _) (o : _) : Laws.OpcNames.Statement (.vfirst h o) := Laws.OpcNames.spec _
theorem Laws.OpcNames.mov (h : _) (o : _) : Laws.OpcNames.Statement (.mov h o) := Laws.OpcNames.spec _
theorem Laws.OpcNames.movi (h : _) (imm : _) (o : _) : Laws.OpcNames.Statement (.movi h imm o) := Laws.OpcNames.spec _
theorem Laws.OpcNames.movsGet (h : _) (o : _) : Laws.OpcNames.Statement (.movsGet h o) := Laws.OpcNames.spec _
theorem Laws.OpcNames.movsPut (h : _) (o : _) : Laws.OpcNames.Statement (.movsPut h o) := Laws.OpcNames.spec _
theorem Laws.OpcNames.movw (h : _) (o : _) : Laws.OpcNames.Statement (.movw h o) := Laws.OpcNames.spec _
theorem Laws.OpcNames.mset (h : _) (o : _) : Laws.OpcNames.Statement (.mset h o) := Laws.OpcNames.spec _
theorem Laws.OpcNames.ld (h : _) (m : _) (o : _) : Laws.OpcNames.Statement (.ld h m o) := Laws.OpcNames.spec _
theorem Laws.OpcNames.st (h : _) (m : _) (o : _) : Laws.OpcNames.Statement (.st h m o) := Laws.OpcNames.spec _
theorem Laws.OpcNames.lds (h : _) (m : _) (o : _) : Laws.OpcNames.Statement (.lds h m o) := Laws.OpcNames.spec _
theorem Laws.OpcNames.sts (h : _) (m : _) (o : _) : Laws.OpcNames.Statement (.sts h m o) := Laws.OpcNames.spec _
theorem Laws.OpcNames.ldc (h : _) (m : _) (o : _) : Laws.OpcNames.Statement (.ldc h m o) := Laws.OpcNames.spec _
theorem Laws.OpcNames.pref (h : _) (m : _) (o : _) : Laws.OpcNames.Statement (.pref h m o) := Laws.OpcNames.spec _
theorem Laws.OpcNames.atom (h : _) (m : _) (o : _) : Laws.OpcNames.Statement (.atom h m o) := Laws.OpcNames.spec _
theorem Laws.OpcNames.red (h : _) (m : _) (o : _) : Laws.OpcNames.Statement (.red h m o) := Laws.OpcNames.spec _
theorem Laws.OpcNames.cas (h : _) (m : _) (o : _) : Laws.OpcNames.Statement (.cas h m o) := Laws.OpcNames.spec _
theorem Laws.OpcNames.monitor (h : _) (o : _) : Laws.OpcNames.Statement (.monitor h o) := Laws.OpcNames.spec _
theorem Laws.OpcNames.mwait (h : _) (o : _) : Laws.OpcNames.Statement (.mwait h o) := Laws.OpcNames.spec _
theorem Laws.OpcNames.fence (h : _) (m : _) : Laws.OpcNames.Statement (.fence h m) := Laws.OpcNames.spec _
theorem Laws.OpcNames.seal (h : _) (o : _) : Laws.OpcNames.Statement (.seal h o) := Laws.OpcNames.spec _
theorem Laws.OpcNames.unseal (h : _) (o : _) : Laws.OpcNames.Statement (.unseal h o) := Laws.OpcNames.spec _
theorem Laws.OpcNames.cacheRoinv (h : _) (o : _) : Laws.OpcNames.Statement (.cacheRoinv h o) := Laws.OpcNames.spec _
theorem Laws.OpcNames.cacheRoinvall (h : _) : Laws.OpcNames.Statement (.cacheRoinvall h) := Laws.OpcNames.spec _
theorem Laws.OpcNames.cacheClean (h : _) (o : _) : Laws.OpcNames.Statement (.cacheClean h o) := Laws.OpcNames.spec _
theorem Laws.OpcNames.cacheFlush (h : _) (o : _) : Laws.OpcNames.Statement (.cacheFlush h o) := Laws.OpcNames.spec _
theorem Laws.OpcNames.cpy (h : _) (m : _) (o : _) : Laws.OpcNames.Statement (.cpy h m o) := Laws.OpcNames.spec _
theorem Laws.OpcNames.cpyg (h : _) (m : _) (o : _) : Laws.OpcNames.Statement (.cpyg h m o) := Laws.OpcNames.spec _
theorem Laws.OpcNames.cpys (h : _) (m : _) (o : _) : Laws.OpcNames.Statement (.cpys h m o) := Laws.OpcNames.spec _
theorem Laws.OpcNames.cpywt (h : _) (ch : _) (o : _) : Laws.OpcNames.Statement (.cpywt h ch o) := Laws.OpcNames.spec _
theorem Laws.OpcNames.cpyq (h : _) (ch : _) (o : _) : Laws.OpcNames.Statement (.cpyq h ch o) := Laws.OpcNames.spec _
theorem Laws.OpcNames.bar (h : _) (o : _) : Laws.OpcNames.Statement (.bar h o) := Laws.OpcNames.spec _
theorem Laws.OpcNames.bara (h : _) (o : _) : Laws.OpcNames.Statement (.bara h o) := Laws.OpcNames.spec _
theorem Laws.OpcNames.barw (h : _) (o : _) : Laws.OpcNames.Statement (.barw h o) := Laws.OpcNames.spec _
theorem Laws.OpcNames.nbar (h : _) (n : _) (o : _) : Laws.OpcNames.Statement (.nbar h n o) := Laws.OpcNames.spec _
theorem Laws.OpcNames.nbarw (h : _) (n : _) (o : _) : Laws.OpcNames.Statement (.nbarw h n o) := Laws.OpcNames.spec _
theorem Laws.OpcNames.ctacq (h : _) : Laws.OpcNames.Statement (.ctacq h) := Laws.OpcNames.spec _
theorem Laws.OpcNames.ctrel (h : _) : Laws.OpcNames.Statement (.ctrel h) := Laws.OpcNames.spec _
theorem Laws.OpcNames.racq (h : _) (o : _) : Laws.OpcNames.Statement (.racq h o) := Laws.OpcNames.spec _
theorem Laws.OpcNames.racqTry (h : _) (o : _) : Laws.OpcNames.Statement (.racqTry h o) := Laws.OpcNames.spec _
theorem Laws.OpcNames.rrel (h : _) (o : _) : Laws.OpcNames.Statement (.rrel h o) := Laws.OpcNames.spec _
theorem Laws.OpcNames.cacq (h : _) (o : _) : Laws.OpcNames.Statement (.cacq h o) := Laws.OpcNames.spec _
theorem Laws.OpcNames.cacqTry (h : _) (o : _) : Laws.OpcNames.Statement (.cacqTry h o) := Laws.OpcNames.spec _
theorem Laws.OpcNames.cacqRd (h : _) (half : _) (o : _) : Laws.OpcNames.Statement (.cacqRd h half o) := Laws.OpcNames.spec _
theorem Laws.OpcNames.crel (h : _) (o : _) : Laws.OpcNames.Statement (.crel h o) := Laws.OpcNames.spec _
theorem Laws.OpcNames.crelWr (h : _) (half : _) (o : _) : Laws.OpcNames.Statement (.crelWr h half o) := Laws.OpcNames.spec _
theorem Laws.OpcNames.tload (h : _) (m : _) (o : _) : Laws.OpcNames.Statement (.tload h m o) := Laws.OpcNames.spec _
theorem Laws.OpcNames.tmap (h : _) (o : _) : Laws.OpcNames.Statement (.tmap h o) := Laws.OpcNames.spec _
theorem Laws.OpcNames.tmma (h : _) (m : _) (o : _) : Laws.OpcNames.Statement (.tmma h m o) := Laws.OpcNames.spec _
theorem Laws.OpcNames.tew (h : _) (m : _) (o : _) : Laws.OpcNames.Statement (.tew h m o) := Laws.OpcNames.spec _
theorem Laws.OpcNames.tred (h : _) (m : _) (o : _) : Laws.OpcNames.Statement (.tred h m o) := Laws.OpcNames.spec _
theorem Laws.OpcNames.tcvt (h : _) (m : _) (o : _) : Laws.OpcNames.Statement (.tcvt h m o) := Laws.OpcNames.spec _
theorem Laws.OpcNames.tfmt (h : _) (m : _) (o : _) : Laws.OpcNames.Statement (.tfmt h m o) := Laws.OpcNames.spec _
theorem Laws.OpcNames.tbind (h : _) (sp : _) (o : _) : Laws.OpcNames.Statement (.tbind h sp o) := Laws.OpcNames.spec _
theorem Laws.OpcNames.tfree (h : _) (o : _) : Laws.OpcNames.Statement (.tfree h o) := Laws.OpcNames.spec _
theorem Laws.OpcNames.tfreeAcc (h : _) (o : _) : Laws.OpcNames.Statement (.tfreeAcc h o) := Laws.OpcNames.spec _
theorem Laws.OpcNames.torf (h : _) (n : _) : Laws.OpcNames.Statement (.torf h n) := Laws.OpcNames.spec _
theorem Laws.OpcNames.tforce (h : _) (close : _) (o : _) : Laws.OpcNames.Statement (.tforce h close o) := Laws.OpcNames.spec _
theorem Laws.OpcNames.tstore (h : _) (m : _) (o : _) : Laws.OpcNames.Statement (.tstore h m o) := Laws.OpcNames.spec _
theorem Laws.OpcNames.twait (h : _) (o : _) : Laws.OpcNames.Statement (.twait h o) := Laws.OpcNames.spec _
theorem Laws.OpcNames.tqry (h : _) (k : _) (o : _) : Laws.OpcNames.Statement (.tqry h k o) := Laws.OpcNames.spec _
theorem Laws.OpcNames.txdecl (h : _) (wr : _) (o : _) : Laws.OpcNames.Statement (.txdecl h wr o) := Laws.OpcNames.spec _
theorem Laws.OpcNames.txsub (h : _) (o : _) : Laws.OpcNames.Statement (.txsub h o) := Laws.OpcNames.spec _
theorem Laws.OpcNames.txwait (h : _) (o : _) : Laws.OpcNames.Statement (.txwait h o) := Laws.OpcNames.spec _
theorem Laws.OpcNames.txend (h : _) (o : _) : Laws.OpcNames.Statement (.txend h o) := Laws.OpcNames.spec _
theorem Laws.OpcNames.txqry (h : _) (o : _) : Laws.OpcNames.Statement (.txqry h o) := Laws.OpcNames.spec _
theorem Laws.OpcNames.balburn (h : _) (o : _) : Laws.OpcNames.Statement (.balburn h o) := Laws.OpcNames.spec _
theorem Laws.OpcNames.balshunt (h : _) (o : _) : Laws.OpcNames.Statement (.balshunt h o) := Laws.OpcNames.spec _
theorem Laws.OpcNames.pwrwait (h : _) (o : _) : Laws.OpcNames.Statement (.pwrwait h o) := Laws.OpcNames.spec _
theorem Laws.OpcNames.pair (h : _) (o : _) : Laws.OpcNames.Statement (.pair h o) := Laws.OpcNames.spec _
theorem Laws.OpcNames.dqpush (h : _) (o : _) : Laws.OpcNames.Statement (.dqpush h o) := Laws.OpcNames.spec _
theorem Laws.OpcNames.dqpop (h : _) (o : _) : Laws.OpcNames.Statement (.dqpop h o) := Laws.OpcNames.spec _
theorem Laws.OpcNames.dqsteal (h : _) (o : _) : Laws.OpcNames.Statement (.dqsteal h o) := Laws.OpcNames.spec _
theorem Laws.OpcNames.cont (h : _) (role : _) (o : _) : Laws.OpcNames.Statement (.cont h role o) := Laws.OpcNames.spec _
theorem Laws.OpcNames.contw (h : _) (o : _) : Laws.OpcNames.Statement (.contw h o) := Laws.OpcNames.spec _
theorem Laws.OpcNames.clst (h : _) (o : _) : Laws.OpcNames.Statement (.clst h o) := Laws.OpcNames.spec _
theorem Laws.OpcNames.clwt (h : _) (o : _) : Laws.OpcNames.Statement (.clwt h o) := Laws.OpcNames.spec _
theorem Laws.OpcNames.clq (h : _) (o : _) : Laws.OpcNames.Statement (.clq h o) := Laws.OpcNames.spec _
theorem Laws.OpcNames.syscVersion (h : _) : Laws.OpcNames.Statement (.syscVersion h) := Laws.OpcNames.spec _
theorem Laws.OpcNames.syscCapacity (h : _) : Laws.OpcNames.Statement (.syscCapacity h) := Laws.OpcNames.spec _
theorem Laws.OpcNames.syscQuota (h : _) : Laws.OpcNames.Statement (.syscQuota h) := Laws.OpcNames.spec _
theorem Laws.OpcNames.syscMark (h : _) : Laws.OpcNames.Statement (.syscMark h) := Laws.OpcNames.spec _
theorem Laws.OpcNames.syscUnassigned (h : _) (n : _) : Laws.OpcNames.Statement (.syscUnassigned h n) := Laws.OpcNames.spec _
theorem Laws.OpcNames.tlbiVa (h : _) (dev : _) (o : _) : Laws.OpcNames.Statement (.tlbiVa h dev o) := Laws.OpcNames.spec _
theorem Laws.OpcNames.tlbiTenant (h : _) (dev : _) (o : _) : Laws.OpcNames.Statement (.tlbiTenant h dev o) := Laws.OpcNames.spec _
theorem Laws.OpcNames.tlbiAll (h : _) (dev : _) : Laws.OpcNames.Statement (.tlbiAll h dev) := Laws.OpcNames.spec _
theorem Laws.OpcNames.fwcallVersion (h : _) : Laws.OpcNames.Statement (.fwcallVersion h) := Laws.OpcNames.spec _
theorem Laws.OpcNames.fwcallBbread (h : _) : Laws.OpcNames.Statement (.fwcallBbread h) := Laws.OpcNames.spec _
theorem Laws.OpcNames.fwcallPwrcap (h : _) : Laws.OpcNames.Statement (.fwcallPwrcap h) := Laws.OpcNames.spec _
theorem Laws.OpcNames.fwcallGreform (h : _) : Laws.OpcNames.Statement (.fwcallGreform h) := Laws.OpcNames.spec _
theorem Laws.OpcNames.fwcallUnassigned (h : _) (n : _) : Laws.OpcNames.Statement (.fwcallUnassigned h n) := Laws.OpcNames.spec _
theorem Laws.OpcNames.fwcallTimeout (w : _) : Laws.OpcNames.Statement (.fwcallTimeout w) := Laws.OpcNames.spec _
theorem Laws.OpcNames.illop (sub : _) : Laws.OpcNames.Statement (.illop sub) := Laws.OpcNames.spec _
theorem Laws.OpcNames.softmaxFusion (x : _) : Laws.OpcNames.Statement (.softmaxFusion x) := Laws.OpcNames.spec _
theorem Laws.OpcNames.stallExpiry (w : _) : Laws.OpcNames.Statement (.stallExpiry w) := Laws.OpcNames.spec _
theorem Laws.OpcNames.resultArrival (w : _) (k : _) (m : _) (x : _) : Laws.OpcNames.Statement (.resultArrival w k m x) := Laws.OpcNames.spec _
theorem Laws.OpcNames.waveSlotRelease (w : _) : Laws.OpcNames.Statement (.waveSlotRelease w) := Laws.OpcNames.spec _
theorem Laws.OpcNames.blockEnd (b : _) : Laws.OpcNames.Statement (.blockEnd b) := Laws.OpcNames.spec _
theorem Laws.OpcNames.faultRepaired (w : _) (lane : _) : Laws.OpcNames.Statement (.faultRepaired w lane) := Laws.OpcNames.spec _
theorem Laws.OpcNames.faultDeclined (site : _) : Laws.OpcNames.Statement (.faultDeclined site) := Laws.OpcNames.spec _
theorem Laws.OpcNames.walkComplete (die : _) : Laws.OpcNames.Statement (.walkComplete die) := Laws.OpcNames.spec _
theorem Laws.OpcNames.writeAcknowledgement (w : _) (addr : _) (refused : _) : Laws.OpcNames.Statement (.writeAcknowledgement w addr refused) := Laws.OpcNames.spec _
theorem Laws.OpcNames.fabricTimeout (w : _) (k : _) (m : _) (f : _) : Laws.OpcNames.Statement (.fabricTimeout w k m f) := Laws.OpcNames.spec _
theorem Laws.OpcNames.atomicTimeout (w : _) (k : _) (m : _) (applied : _) : Laws.OpcNames.Statement (.atomicTimeout w k m applied) := Laws.OpcNames.spec _
theorem Laws.OpcNames.lateTrapDelivery (w : _) : Laws.OpcNames.Statement (.lateTrapDelivery w) := Laws.OpcNames.spec _
theorem Laws.OpcNames.atomicRequest (way : _) (port : _) (tag : _) (r : _) : Laws.OpcNames.Statement (.atomicRequest way port tag r) := Laws.OpcNames.spec _
theorem Laws.OpcNames.releaseFlit (way : _) (port : _) (tag : _) : Laws.OpcNames.Statement (.releaseFlit way port tag) := Laws.OpcNames.spec _
theorem Laws.OpcNames.remoteDataRequest (port : _) (r : _) : Laws.OpcNames.Statement (.remoteDataRequest port r) := Laws.OpcNames.spec _
theorem Laws.OpcNames.copyStart (core : _) (ch : _) : Laws.OpcNames.Statement (.copyStart core ch) := Laws.OpcNames.spec _
theorem Laws.OpcNames.copyResume (core : _) (ch : _) : Laws.OpcNames.Statement (.copyResume core ch) := Laws.OpcNames.spec _
theorem Laws.OpcNames.copyComplete (core : _) (ch : _) (x : _) : Laws.OpcNames.Statement (.copyComplete core ch x) := Laws.OpcNames.spec _
theorem Laws.OpcNames.copyFault (core : _) (ch : _) (f : _) : Laws.OpcNames.Statement (.copyFault core ch f) := Laws.OpcNames.spec _
theorem Laws.OpcNames.monitorWriteWake (w : _) : Laws.OpcNames.Statement (.monitorWriteWake w) := Laws.OpcNames.spec _
theorem Laws.OpcNames.mwaitTimeout (w : _) : Laws.OpcNames.Statement (.mwaitTimeout w) := Laws.OpcNames.spec _
theorem Laws.OpcNames.mwaitEvent (w : _) : Laws.OpcNames.Statement (.mwaitEvent w) := Laws.OpcNames.spec _
theorem Laws.OpcNames.spuriousWake (w : _) : Laws.OpcNames.Statement (.spuriousWake w) := Laws.OpcNames.spec _
theorem Laws.OpcNames.batchEvaluate (b : _) : Laws.OpcNames.Statement (.batchEvaluate b) := Laws.OpcNames.spec _
theorem Laws.OpcNames.batchComplete (b : _) : Laws.OpcNames.Statement (.batchComplete b) := Laws.OpcNames.spec _
theorem Laws.OpcNames.clauseFault (b : _) (f : _) : Laws.OpcNames.Statement (.clauseFault b f) := Laws.OpcNames.spec _
theorem Laws.OpcNames.evalResume (b : _) : Laws.OpcNames.Statement (.evalResume b) := Laws.OpcNames.spec _
theorem Laws.OpcNames.streamTrapDelivery (b : _) : Laws.OpcNames.Statement (.streamTrapDelivery b) := Laws.OpcNames.spec _
theorem Laws.OpcNames.beatEnd : Laws.OpcNames.Statement (.beatEnd) := Laws.OpcNames.spec _
theorem Laws.OpcNames.grantRequestArrival : Laws.OpcNames.Statement (.grantRequestArrival) := Laws.OpcNames.spec _
theorem Laws.OpcNames.ticketTimeout (w : _) (slot : _) : Laws.OpcNames.Statement (.ticketTimeout w slot) := Laws.OpcNames.spec _
theorem Laws.OpcNames.windowEnd (pair : _) : Laws.OpcNames.Statement (.windowEnd pair) := Laws.OpcNames.spec _
theorem Laws.OpcNames.pwrTrap (w : _) : Laws.OpcNames.Statement (.pwrTrap w) := Laws.OpcNames.spec _
theorem Laws.OpcNames.burnEnd (w : _) (lane : _) : Laws.OpcNames.Statement (.burnEnd w lane) := Laws.OpcNames.spec _
theorem Laws.OpcNames.pairDerate (pair : _) : Laws.OpcNames.Statement (.pairDerate pair) := Laws.OpcNames.spec _
theorem Laws.OpcNames.misthWrite (pair : _) (v : _) : Laws.OpcNames.Statement (.misthWrite pair v) := Laws.OpcNames.spec _
theorem Laws.OpcNames.mistxWrite (pair : _) (v : _) : Laws.OpcNames.Statement (.mistxWrite pair v) := Laws.OpcNames.spec _
theorem Laws.OpcNames.balctlWrite (core : _) (v : _) : Laws.OpcNames.Statement (.balctlWrite core v) := Laws.OpcNames.spec _
theorem Laws.OpcNames.fpcrWrite (w : _) (v : _) : Laws.OpcNames.Statement (.fpcrWrite w v) := Laws.OpcNames.spec _
theorem Laws.OpcNames.fpsrAccess (w : _) (v : _) : Laws.OpcNames.Statement (.fpsrAccess w v) := Laws.OpcNames.spec _
theorem Laws.OpcNames.preemptDrain (ctx : _) (set : _) : Laws.OpcNames.Statement (.preemptDrain ctx set) := Laws.OpcNames.spec _
theorem Laws.OpcNames.preemptHalt (ctx : _) (set : _) : Laws.OpcNames.Statement (.preemptHalt ctx set) := Laws.OpcNames.spec _
theorem Laws.OpcNames.preemptForcedSave (ctx : _) (set : _) : Laws.OpcNames.Statement (.preemptForcedSave ctx set) := Laws.OpcNames.spec _
theorem Laws.OpcNames.preemptCapture (ctx : _) (set : _) : Laws.OpcNames.Statement (.preemptCapture ctx set) := Laws.OpcNames.spec _
theorem Laws.OpcNames.haltDeadline (ctx : _) : Laws.OpcNames.Statement (.haltDeadline ctx) := Laws.OpcNames.spec _
theorem Laws.OpcNames.preemptTrap (w : _) : Laws.OpcNames.Statement (.preemptTrap w) := Laws.OpcNames.spec _
theorem Laws.OpcNames.savetime (ctx : _) : Laws.OpcNames.Statement (.savetime ctx) := Laws.OpcNames.spec _
theorem Laws.OpcNames.freeze (part : _) (tenant : _) (reason : _) : Laws.OpcNames.Statement (.freeze part tenant reason) := Laws.OpcNames.spec _
theorem Laws.OpcNames.contextRestore (ctx : _) : Laws.OpcNames.Statement (.contextRestore ctx) := Laws.OpcNames.spec _
theorem Laws.OpcNames.quantumEnd (part : _) (set : _) : Laws.OpcNames.Statement (.quantumEnd part set) := Laws.OpcNames.spec _
theorem Laws.OpcNames.wptrObserve (q : _) : Laws.OpcNames.Statement (.wptrObserve q) := Laws.OpcNames.spec _
theorem Laws.OpcNames.cmdNop (q : _) (k : _) : Laws.OpcNames.Statement (.cmdNop q k) := Laws.OpcNames.spec _
theorem Laws.OpcNames.launch (q : _) (k : _) : Laws.OpcNames.Statement (.launch q k) := Laws.OpcNames.spec _
theorem Laws.OpcNames.copy (q : _) (k : _) : Laws.OpcNames.Statement (.copy q k) := Laws.OpcNames.spec _
theorem Laws.OpcNames.wait (q : _) (k : _) : Laws.OpcNames.Statement (.wait q k) := Laws.OpcNames.spec _
theorem Laws.OpcNames.waitSatisfied (q : _) (k : _) : Laws.OpcNames.Statement (.waitSatisfied q k) := Laws.OpcNames.spec _
theorem Laws.OpcNames.signal (q : _) (k : _) : Laws.OpcNames.Statement (.signal q k) := Laws.OpcNames.spec _
theorem Laws.OpcNames.copyCommandComplete (q : _) (k : _) : Laws.OpcNames.Statement (.copyCommandComplete q k) := Laws.OpcNames.spec _
theorem Laws.OpcNames.launchComplete (l : _) : Laws.OpcNames.Statement (.launchComplete l) := Laws.OpcNames.spec _
theorem Laws.OpcNames.queueMap (q : _) : Laws.OpcNames.Statement (.queueMap q) := Laws.OpcNames.spec _
theorem Laws.OpcNames.queueUnmapForced (q : _) : Laws.OpcNames.Statement (.queueUnmapForced q) := Laws.OpcNames.spec _
theorem Laws.OpcNames.neighbourhoodPlace (die : _) : Laws.OpcNames.Statement (.neighbourhoodPlace die) := Laws.OpcNames.spec _
theorem Laws.OpcNames.binForm (core : _) (bin : _) : Laws.OpcNames.Statement (.binForm core bin) := Laws.OpcNames.spec _
theorem Laws.OpcNames.binAgeExpiry (core : _) (bin : _) : Laws.OpcNames.Statement (.binAgeExpiry core bin) := Laws.OpcNames.spec _
theorem Laws.OpcNames.linkReplay (port : _) (e : _) : Laws.OpcNames.Statement (.linkReplay port e) := Laws.OpcNames.spec _
theorem Laws.OpcNames.portDown (port : _) : Laws.OpcNames.Statement (.portDown port) := Laws.OpcNames.spec _
theorem Laws.OpcNames.portMapout (port : _) : Laws.OpcNames.Statement (.portMapout port) := Laws.OpcNames.spec _
theorem Laws.OpcNames.controlMessageDelivery (port : _) (flow : _) (seq : _) (r : _) : Laws.OpcNames.Statement (.controlMessageDelivery port flow seq r) := Laws.OpcNames.spec _
theorem Laws.OpcNames.collectiveDone (part : _) (slot : _) (x : _) : Laws.OpcNames.Statement (.collectiveDone part slot x) := Laws.OpcNames.spec _
theorem Laws.OpcNames.collectiveAbortReceive (part : _) (slot : _) (rank : _) (detail : _) : Laws.OpcNames.Statement (.collectiveAbortReceive part slot rank detail) := Laws.OpcNames.spec _
theorem Laws.OpcNames.progressTimeout (part : _) (slot : _) : Laws.OpcNames.Statement (.progressTimeout part slot) := Laws.OpcNames.spec _
theorem Laws.OpcNames.rdmaWrite (part : _) (qp : _) (m : _) (addr : _) (data : _) : Laws.OpcNames.Statement (.rdmaWrite part qp m addr data) := Laws.OpcNames.spec _
theorem Laws.OpcNames.rdmaRead (part : _) (qp : _) (m : _) (addr : _) (bytes : _) : Laws.OpcNames.Statement (.rdmaRead part qp m addr bytes) := Laws.OpcNames.spec _
theorem Laws.OpcNames.rdmaSend (part : _) (qp : _) (m : _) (data : _) : Laws.OpcNames.Statement (.rdmaSend part qp m data) := Laws.OpcNames.spec _
theorem Laws.OpcNames.migrationRound (ctx : _) : Laws.OpcNames.Statement (.migrationRound ctx) := Laws.OpcNames.spec _
theorem Laws.OpcNames.migrationStop (ctx : _) : Laws.OpcNames.Statement (.migrationStop ctx) := Laws.OpcNames.spec _
theorem Laws.OpcNames.blackoutEnd (ctx : _) (items : _) : Laws.OpcNames.Statement (.blackoutEnd ctx items) := Laws.OpcNames.spec _
theorem Laws.OpcNames.pullTimeout (site : _) : Laws.OpcNames.Statement (.pullTimeout site) := Laws.OpcNames.spec _
theorem Laws.OpcNames.boot (debugAuth : _) : Laws.OpcNames.Statement (.boot debugAuth) := Laws.OpcNames.spec _
theorem Laws.OpcNames.coolantFlowLoss : Laws.OpcNames.Statement (.coolantFlowLoss) := Laws.OpcNames.spec _
theorem Laws.OpcNames.pwrwaitTimeout (w : _) : Laws.OpcNames.Statement (.pwrwaitTimeout w) := Laws.OpcNames.spec _
theorem Laws.OpcNames.dequeStealRequest (core : _) (launch : _) (thief : _) : Laws.OpcNames.Statement (.dequeStealRequest core launch thief) := Laws.OpcNames.spec _
theorem Laws.OpcNames.getVersion (qp : _) : Laws.OpcNames.Statement (.getVersion qp) := Laws.OpcNames.spec _
theorem Laws.OpcNames.getCapabilities (qp : _) : Laws.OpcNames.Statement (.getCapabilities qp) := Laws.OpcNames.spec _
theorem Laws.OpcNames.negotiateAlgorithms (qp : _) (p521Sha512 : _) : Laws.OpcNames.Statement (.negotiateAlgorithms qp p521Sha512) := Laws.OpcNames.spec _
theorem Laws.OpcNames.getDigests (qp : _) : Laws.OpcNames.Statement (.getDigests qp) := Laws.OpcNames.spec _
theorem Laws.OpcNames.getCertificate (qp : _) : Laws.OpcNames.Statement (.getCertificate qp) := Laws.OpcNames.spec _
theorem Laws.OpcNames.challenge (qp : _) (nonce : _) : Laws.OpcNames.Statement (.challenge qp nonce) := Laws.OpcNames.spec _
theorem Laws.OpcNames.getMeasurements (qp : _) (index : _) : Laws.OpcNames.Statement (.getMeasurements qp index) := Laws.OpcNames.spec _
theorem Laws.OpcNames.blackBoxRead (qp : _) (q : _) : Laws.OpcNames.Statement (.blackBoxRead qp q) := Laws.OpcNames.spec _
theorem Laws.OpcNames.postcopyPull (ctx : _) (gpa : _) (page : _) : Laws.OpcNames.Statement (.postcopyPull ctx gpa page) := Laws.OpcNames.spec _
theorem Laws.OpcNames.fwpmapWrite (r : _) : Laws.OpcNames.Statement (.fwpmapWrite r) := Laws.OpcNames.spec _
theorem Laws.OpcNames.fwbndWrite (n : _) (closed : _) : Laws.OpcNames.Statement (.fwbndWrite n closed) := Laws.OpcNames.spec _
theorem Laws.OpcNames.fwlpWrite (n : _) (base : _) (size : _) (bw : _) : Laws.OpcNames.Statement (.fwlpWrite n base size bw) := Laws.OpcNames.spec _
theorem Laws.OpcNames.innCapabilityFault (record : _) : Laws.OpcNames.Statement (.innCapabilityFault record) := Laws.OpcNames.spec _
theorem Laws.OpcNames.powerAverage (part : _) (watts : _) : Laws.OpcNames.Statement (.powerAverage part watts) := Laws.OpcNames.spec _
theorem Laws.OpcNames.thermalReading (die : _) (celsius : _) (sensor : _) : Laws.OpcNames.Statement (.thermalReading die celsius sensor) := Laws.OpcNames.spec _
theorem Laws.OpcNames.supplyExcursion (domain : _) (mil : _) : Laws.OpcNames.Statement (.supplyExcursion domain mil) := Laws.OpcNames.spec _
theorem Laws.OpcNames.eccError (die : _) (slice : _) (uncorrectable : _) (reader : _) : Laws.OpcNames.Statement (.eccError die slice uncorrectable reader) := Laws.OpcNames.spec _
theorem Laws.OpcNames.portRetraining (port : _) (ok : _) : Laws.OpcNames.Statement (.portRetraining port ok) := Laws.OpcNames.spec _
theorem Laws.OpcNames.clusterUnitFault (die : _) (cluster : _) : Laws.OpcNames.Statement (.clusterUnitFault die cluster) := Laws.OpcNames.spec _
theorem Laws.OpcNames.tenantRelease (part : _) (tenant : _) : Laws.OpcNames.Statement (.tenantRelease part tenant) := Laws.OpcNames.spec _
theorem Laws.OpcNames.recoveryImageLoad (stage : _) (image : _) : Laws.OpcNames.Statement (.recoveryImageLoad stage image) := Laws.OpcNames.spec _

end Sys2Proof
end

