-- ==== Sys2Proof/Tests/Slice0.lean ====
section
/-! SUPPORT. The author's tests: ill-formed terms refused, words of the spec decoded, states that meet the hypotheses of every
obligation, and single steps. Expected values come from spec/, worked by hand from the rule a comment names. -/

namespace Sys2Proof.Tests
open Sys2Proof Sys2Proof.Machine

/-! ## Small states -/

/-- The state that `withFetchWord` makes for a NOP, its group chosen. -/
def tIn (w : Nat) (wid : Nat) (m : Lanes) : State :=
  let s := State.reset.withFetchWord 96 w
  { s with run := { s.run with cur := ⟨wid, m, none⟩ } }

/-- A user wave; a supervisor wave (an FWCALL's word places one); a tile stream (a TFREE's word). -/
def tU : State := tIn 0x7800 0 0xFFFFFFFF#32
def tP : State := tIn 0x000000000030000000007D02 0 0xFFFFFFFF#32
def tT : State := tIn 0x00000000001000E000007B88 30720 1#32

def tC : Iss := ⟨0, 0xFFFFFFFF#32, 0xFFFFFFFF#32, 0x100000⟩
def tCT : Iss := ⟨30720, 1#32, 1#32, 0x100000⟩
def hd : Hd := {}

/-- A state with its run changed. -/
def State.at_ (s : State) (f : Run → Run) : State := { s with run := f s.run }
/-- Wave 0, block 0, context 0 and core 0 changed. -/
def wv (s : State) (f : Wave → Wave) : State := State.at_ s (fun r => r.onWave 0 f)
def bk (s : State) (f : Block → Block) : State := State.at_ s (fun r => r.onBlock 0 f)
def cx (s : State) (f : Ctx → Ctx) : State := State.at_ s (fun r => r.onCtx 0 f)
def co (s : State) (f : Core → Core) : State := State.at_ s (fun r => r.onCore 0 f)
def pt (s : State) (f : Partition → Partition) : State := State.at_ s (fun r => r.onPart 0 f)
def la (s : State) (f : LaunchRec → LaunchRec) : State :=
  State.at_ s (fun r => { r with launches := r.launches.upd 0 (fun l => { l with info := f l.info }) })

/-- Scalar and vector registers of wave 0 that hold a value. -/
def sAs (s : State) (n : Nat) (x : Word64) : State := wv s (fun w => w.setS n x)
def vAs (s : State) (n : Nat) (x : Word) : State := wv s (fun w => w.setV n 0xFFFFFFFF#32 (fun _ => x))

/-- What a step leaves, read by `f`. -/
def after (o : Host.Outcome State Fault Refusal) (f : State → Bool) : Bool :=
  match o with | .next t => f t | _ => false

/-- One step on the word placed where the next step fetches it. -/
def run1 (w : Nat) (f : State → Bool) : Bool := after (step (State.reset.withFetchWord 96 w)) f

/-- An access that passes its checks, with what is true of the run and the translations it leaves. -/
theorem ok_ex {α : Type} {e : Eff α} {P : Run → α → Prop} [∀ r x, Decidable (P r x)]
    (h : (match e with | .ok r x => decide (P r x) | _ => false) = true) : ∃ r x, e = .ok r x ∧ P r x := by
  cases e <;> simp_all

/-- A step that ends in a next state, with what is true of it. -/
theorem next_ex {o : Host.Outcome State Fault Refusal} {P : State → Prop} [∀ t, Decidable (P t)]
    (h : (match o with | .next t => decide (P t) | _ => false) = true) : ∃ t, o = .next t ∧ P t := by
  cases o <;> simp_all

theorem got_ex {ε α : Type} {e : Except ε α} {P : α → Prop} [∀ x, Decidable (P x)]
    (h : (match e with | .ok x => decide (P x) | _ => false) = true) : ∃ x, e = .ok x ∧ P x := by
  cases e <;> simp_all

def memAs (s : State) (xs : List (Nat × List Byte)) : State :=
  State.at_ s (fun r => { r with mem := xs.foldl (fun m x => memPut m x.1 x.2) r.mem })

/-- The second 512 MiB of a tenant's addresses, whose page is still to come. -/
def pend (s : State) : State := memAs s [(0x40008, leBytes 0x40 8)]

/-- Every part of wave 0 parked. -/
def parked (s : State) (k : Park) : State := wv s (fun w => { w with parts := w.parts.map (fun p => { p with park := k }) })

/-- s8 holds `n`. -/
def tAt (n : Nat) : State := sAs tU 8 (BitVec.ofNat 64 n)

/-! ## Every well-formedness check refuses a term -/

theorem test_wf_stream : (Instr.tmap hd { d := .t 0, a := .t 1, b := .s 2 }).illFormed {} = some .stream := by decide
theorem test_wf_priv : (Instr.fwcallVersion hd).illFormed {} = some .priv := by decide
theorem test_wf_rsvd : (Instr.nop { fea := true }).illFormed {} = some .rsvd := by decide
theorem test_wf_kind : (Instr.iadd hd { t := .s32 } { d := .c 0, a := .v 2, b := .v 4 }).illFormed {} = some .kind := by decide
theorem test_wf_specidx : (Instr.mov hd { d := .s 7, a := .sp 0x07F }).illFormed {} = some .specidx := by decide
theorem test_wf_readonly : (Instr.movw hd { d := .sp 0x000, a := .s 1 }).illFormed {} = some .readonly := by decide
theorem test_wf_extuse : (Instr.imad hd .s32 { d := .v 0, a := .v 1, b := .imm24 5, c := .v 3 }).illFormed {} = some .extuse := by decide
theorem test_wf_mod : (Instr.vred hd { t := .f32, op := .and, step := 0 } { d := .v 0, a := .v 1 }).illFormed {} = some .mod := by decide
theorem test_wf_fine : (Instr.imad hd .s32 { d := .v 0, a := .v 1, b := .v 2, c := .v 3 }).illFormed {} = none := by decide

/-! ## Words written from the encoding tables of spec/ (R32, R38, R46 and the table of each class) -/

def dec (ctx : DCtx) (w : Nat) : Option Instr := (decodeWord ctx (BitVec.ofNat 96 w)).toOption

theorem test_decode_control :
    dec {} 0x000000000000000000007800 = some (.nop hd) ∧
    dec {} 0x00000000000000000000F800 = some (.nop { neg := true }) ∧
    dec {} 0xFFFFF1000000000000000801 = some (.bra { pred := 1 } (-15)) ∧
    dec {} 0x000000000000000090007802 = some (.brx hd { a := .v 9 }) ∧
    dec {} 0x000007000000000000017803 = some (.call hd { d := .v 1, x := 7 }) ∧
    dec {} 0x0000000000000000485D7804 = some (.callx hd { d := .rel 2 29, a := .v 4 }) ∧
    dec {} 0x000000000000000010007805 = some (.ret hd { a := .v 1 }) ∧
    dec {} 0x000000000000000000007806 = some (.exit hd) ∧
    dec {} 0x0000000003F0000000007807 = some (.regang hd 63) ∧
    dec {} 0x000000000000000000007808 = some (.yield hd) ∧
    dec {} 0x000000000000000000007809 = some (.region hd) ∧
    dec {} 0x00000000011000000000780A = some (.trap hd 17) ∧
    dec {} 0x000000000FF000000000780D = some (.brk hd 255) ∧
    dec {} 0x00000000000000000000780B = some (.rte hd) ∧
    dec {} 0x00000000001000000000780B = some (.rteRegion hd) ∧
    dec {} 0x00000000000000E03000780C = some (.rolesw hd { a := .imm8 3 }) ∧
    dec {} 0x00000000000000209000780E = some (.phase hd { a := .s 9 }) := by
  decide

theorem test_decode_integer :
    dec {} 0x000401300090040020007840 = some (.iadd { stall := 3 } { t := .u32, co := true } { d := .v 0, a := .v 2, b := .v 4, c := .p 1 }) ∧
    dec {} 0x00000000006EFB2022017841 = some (.isub hd { t := .s64, sat := true } { d := .s 1, a := .s 2, b := .imm8 251 }) ∧
    dec {} 0x000000000000040026037842 = some (.imin hd .s32 { d := .a 3, a := .v 2, b := .v 4 }) ∧
    dec {} 0xFFFFF700001F000020007843 = some (.imax hd .u32 { d := .v 0, a := .v 2, b := .imm24 16777207 }) ∧
    dec {} 0x000000000000000020007844 = some (.iabs hd { t := .s32 } { d := .v 0, a := .v 2 }) ∧
    dec {} 0x000000000040000020007845 = some (.ineg hd { t := .s32, sat := true } { d := .v 0, a := .v 2 }) ∧
    dec {} 0x0000000000040F4044037846 = some (.and hd .s32 { d := .p 3, a := .p 4, b := .p 15 }) ∧
    dec {} 0x000000000002040020007847 = some (.or hd .s32 { d := .v 0, a := .v 2, b := .s 4 }) ∧
    dec {} 0x000000000010040020007848 = some (.xor hd .u32 { d := .v 0, a := .v 2, b := .v 4 }) ∧
    dec {} 0x000000000000000020007849 = some (.not hd .s32 { d := .v 0, a := .v 2 }) ∧
    dec {} 0x00000000000E04002000784A = some (.shl hd .s32 { d := .v 0, a := .v 2, b := .imm8 4 }) ∧
    dec {} 0x00000000001E04002000784B = some (.shr hd .u32 { d := .v 0, a := .v 2, b := .imm8 4 }) ∧
    dec {} 0x00000000005E04002000784C = some (.rot hd { t := .u32, right := true } { d := .v 0, a := .v 2, b := .imm8 4 }) ∧
    dec {} 0x00000000003000202200784D = some (.popc hd .u64 { d := .s 0, a := .s 2 }) ∧
    dec {} 0x00000000001000002000784E = some (.clz hd .u32 { d := .v 0, a := .v 2 }) ∧
    dec {} 0x00000000001000002000784F = some (.brev hd .u32 { d := .v 0, a := .v 2 }) ∧
    dec {} 0x00080400000F000020007850 = some (.bfe hd .s32 { d := .v 0, a := .v 2, b := .imm24 2052 }) ∧
    dec {} 0x000006000010040020007851 = some (.bfi hd .u32 { d := .v 0, a := .v 2, b := .v 4, c := .v 6 }) ∧
    dec {} 0x000402000000040020007852 = some (.sel hd .s32 { d := .v 0, a := .v 2, b := .v 4, c := .p 2 }) ∧
    dec {} 0x000403000510040024017853 = some (.isetp hd { t := .u32, cmp := .gt, comb := .or } { d := .p 1, a := .v 2, b := .v 4, c := .p 3 }) ∧
    dec {} 0x0000000001D2040026007854 = some (.lea hd { t := .u32, n := 7 } { d := .a 0, a := .v 2, b := .s 4 }) ∧
    dec {} 0x000000000040040020007880 = some (.imul hd { t := .s32, sat := true } { d := .v 0, a := .v 2, b := .v 4 }) ∧
    dec {} 0x000000000010040020007881 = some (.imulh hd .u32 { d := .v 0, a := .v 2, b := .v 4 }) ∧
    dec {} 0x000006000000040020007882 = some (.imad hd .s32 { d := .v 0, a := .v 2, b := .v 4, c := .v 6 }) ∧
    dec {} 0x000006000000040020007883 = some (.imadw hd .s32 { d := .v 0, a := .v 2, b := .v 4, c := .v 6 }) := by
  decide

theorem test_decode_float :
    dec {} 0x0000000001000400200078C0 = some (.fadd hd { t := .f32, rm := .rz } { d := .v 0, a := .v 2, b := .v 4 }) ∧
    dec {} 0x0000000024100400200078C1 = some (.fsub hd { t := .f16, negA := true, absB := true } { d := .v 0, a := .v 2, b := .v 4 }) ∧
    dec {} 0x00000000802E0300200078C2 = some (.fmul hd { t := .bf16, sat := true } { d := .v 0, a := .v 2, b := .imm8 3 }) ∧
    dec {} 0x0000063201020200500498C3 = some (.ffma { neg := true, pred := 3, stall := 3, feb := true } { t := .f32, rm := .rz } { d := .v 4, a := .v 5, b := .s 2, c := .v 6 }) ∧
    dec {} 0x00000F0040800200100578C3 = some (.ffma hd { t := .f32, rm := .rne, negC := true } { d := .v 5, a := .v 1, b := .v 2, c := .v 15 }) ∧
    dec {} 0x0000000000000400200078C4 = some (.fmin hd { t := .f32 } { d := .v 0, a := .v 2, b := .v 4 }) ∧
    dec {} 0x0000000008000400200078C5 = some (.fmax hd { t := .f32, absA := true } { d := .v 0, a := .v 2, b := .v 4 }) ∧
    dec {} 0x0004050043000400240078C6 = some (.fsetp hd { cmp := .num, comb := .and } { d := .p 0, a := .v 2, b := .v 4, c := .p 5 }) ∧
    dec {} 0x00000000000E0300240078C7 = some (.fclass hd { d := .p 0, a := .v 2, b := .imm8 3 }) ∧
    dec {} 0x00000000000E0300200078C8 = some (.fscale hd { t := .f32 } { d := .v 0, a := .v 2, b := .imm8 3 }) ∧
    dec {} 0x000000000080000030057900 = some (.frcp hd { t := .f32, rm := .rne } { d := .v 5, a := .v 3 }) ∧
    dec {} 0x000000000080000030057901 = some (.frsq hd { t := .f32, rm := .rne } { d := .v 5, a := .v 3 }) ∧
    dec {} 0x000000000080000030057902 = some (.fsqrt hd { t := .f32, rm := .rne } { d := .v 5, a := .v 3 }) ∧
    dec {} 0x000000000080000030057903 = some (.fexp2 hd { t := .f32, rm := .rne } { d := .v 5, a := .v 3 }) ∧
    dec {} 0x000000000080000030057904 = some (.flog2 hd { t := .f32, rm := .rne } { d := .v 5, a := .v 3 }) ∧
    dec {} 0x000000000080000030057905 = some (.fsin hd { t := .f32, rm := .rne } { d := .v 5, a := .v 3 }) ∧
    dec {} 0x000000000080000030057906 = some (.fcos hd { t := .f32, rm := .rne } { d := .v 5, a := .v 3 }) ∧
    dec {} 0x000000000080000030057907 = some (.ftanh hd { t := .f32, rm := .rne } { d := .v 5, a := .v 3 }) ∧
    dec {} 0x000000009030000020037940 = some (.cvt hd { dst := .e4m3, src := .fp32, rm := .rne, sat := true } { d := .v 3, a := .v 2 }) ∧
    dec {} 0x000000000830040020037941 = some (.pack hd { ty := .e4m3, hi := true } { d := .v 3, a := .v 2, b := .v 4 }) ∧
    dec {} 0x000000000340000020037942 = some (.unpk hd { ty := .e5m2, n := 3 } { d := .v 3, a := .v 2 }) ∧
    dec {} 0x000000000180000020037943 = some (.frnd hd { t := .f32, rm := .ru } { d := .v 3, a := .v 2 }) := by
  decide

theorem test_decode_lanes :
    dec {} 0x00000000003E010040087980 = some (.shfl hd { mode := .xor, f := 0 } { d := .v 8, a := .v 4, b := .imm8 1 }) ∧
    dec {} 0x000000000160000020037980 = some (.shfl hd { mode := .down, f := 5 } { d := .v 3, a := .v 2 }) ∧
    dec {} 0x000000000120000022037981 = some (.vred hd { t := .f32, op := .max, step := 0 } { d := .s 3, a := .v 2 }) ∧
    dec {} 0x000000000410000020037982 = some (.vscan hd { t := .u32, op := .add, excl := true } { d := .v 3, a := .v 2 }) ∧
    dec {} 0x000000000020004024037983 = some (.vote hd .uni { d := .p 3, a := .p 2 }) ∧
    dec {} 0x000000000000004020037984 = some (.vbal hd { d := .v 3, a := .p 2 }) ∧
    dec {} 0x000204000014010020037985 = some (.vcomp hd true { d := .v 3, a := .v 2, b := .p 1, c := .s 4 }) ∧
    dec {} 0x000000000004010020037986 = some (.vexp hd false { d := .v 3, a := .v 2, b := .p 1 }) ∧
    dec {} 0x000000000000004022037987 = some (.vfirst hd { d := .s 3, a := .p 2 }) := by
  decide

theorem test_decode_moves :
    dec {} 0x0000000000000001880079C0 = some (.mov hd { d := .rel 0 0, a := .v 24 }) ∧
    dec {} 0x00000030000000C3020779C0 = some (.mov { stall := 3 } { d := .s 7, a := .sp 0x030 }) ∧
    dec {} 0x8000000003F00000000979C1 = some (.movi hd 0x3F800000 { d := .v 9 }) ∧
    dec {} 0x00000000000E0900720479C2 = some (.movsGet hd { d := .s 4, a := .v 7, b := .imm8 9 }) ∧
    dec {} 0x00000000001E0920400779C2 = some (.movsPut hd { d := .v 7, a := .s 4, b := .imm8 9 }) ∧
    dec {} 0x00100000000000F00C1079C3 = some (.movw hd { d := .sp 0x010, a := .imm24 4096 }) ∧
    dec {} 0x00400000000F00E0061779C4 = some (.mset hd { d := .m 7, a := .imm8 0, b := .imm24 16384 }) := by
  decide

theorem test_decode_memory :
    dec {} 0x000010000220022080037A00 = some (.ld hd { size := .b32, scale := 2 } { d := .v 3, a := .s 8, b := .v 2, x := 16 }) ∧
    dec {} 0x00000000DC80022080037A00 = some (.ld hd { size := .b8, sx := true, pol := .ro, ord := .acq, scope := .sys } { d := .v 3, a := .s 8, b := .v 2, x := 0 }) ∧
    dec {} 0xFFFF800064400020C0067A01 = some (.st hd { size := .b128, pol := .stream, ord := .rel, scope := .clu } { d := .v 6, a := .s 12, b := .v 0, x := 16777088 }) ∧
    dec {} 0x000040F00020006010147A02 = some (.lds { stall := 15 } { size := .b32 } { d := .v 20, a := .a 1, x := 64 }) ∧
    dec {} 0x000008000230046016127A03 = some (.sts hd { size := .b64, form := .wrap } { d := .m 2, a := .a 1, b := .v 4, x := 8 }) ∧
    dec {} 0x00000000002E002080037A04 = some (.ldc hd { size := .b32 } { d := .v 3, a := .s 8, b := .imm8 0, x := 0 }) ∧
    dec {} 0x000000000C00022080007A05 = some (.pref hd { size := .b8, pol := .ro } { a := .s 8, b := .v 2, x := 0 }) ∧
    dec {} 0x000009008000022080057A40 = some (.atom hd { op := .add, ty := .u32 } { d := .v 5, a := .s 8, b := .v 2, c := .v 9 }) ∧
    dec {} 0x00000900E080006020007A41 = some (.red hd { op := .decw, ty := .u32, ord := .rel, scope := .sys } { a := .a 2, c := .v 9 }) ∧
    dec {} 0x00001C0000000060201E7A42 = some (.cas hd { op := .add, ty := .u32, scope := .blk } { d := .v 30, a := .a 2, c := .v 28 }) ∧
    dec {} 0x00000000000E002080007A43 = some (.monitor hd { a := .s 8, b := .imm8 0 }) ∧
    dec {} 0x00000000000000E002062244 = some (.mwait { pred := 4 } { d := .s 6, a := .imm8 0 }) ∧
    dec {} 0x00000000B000000000007A80 = some (.fence hd { ord := .ar, scope := .dev }) ∧
    dec {} 0x00010000000F002030007A81 = some (.seal hd { a := .s 3, b := .imm24 256 }) ∧
    dec {} 0x000000000002042030007A82 = some (.unseal hd { a := .s 3, b := .s 4 }) ∧
    dec {} 0x000000000002042030007A83 = some (.cacheRoinv hd { a := .s 3, b := .s 4 }) ∧
    dec {} 0x00000000001E00E000007A83 = some (.cacheRoinvall hd) ∧
    dec {} 0x000000000022042030007A83 = some (.cacheClean hd { a := .s 3, b := .s 4 }) ∧
    dec {} 0x000000000032042030007A83 = some (.cacheFlush hd { a := .s 3, b := .s 4 }) ∧
    dec { priv := true } 0x000000000000002030007D01 = some (.tlbiVa hd false { a := .s 3 }) ∧
    dec { priv := true } 0x000000008010002030007D01 = some (.tlbiTenant hd true { a := .s 3 }) ∧
    dec { priv := true } 0x00000000002000E000007D01 = some (.tlbiAll hd false) := by
  decide

theorem test_decode_copies_and_barriers :
    dec {} 0x00020B0001220920820A7AC0 = some (.cpy hd { ch := 2, src := false, dst := true, nc := false } { d := .s 10, a := .s 8, b := .s 9, c := .s 11 }) ∧
    dec {} 0x00020B000CF20420820A7AC1 = some (.cpyg hd { ch := 7, src := true, dst := false, nc := false, e := 3 } { d := .s 10, a := .s 8, b := .s 4, c := .s 11 }) ∧
    dec {} 0x0000000002020420820A7AC2 = some (.cpys hd { ch := 0, src := false, dst := false, nc := true, e := 0 } { d := .s 10, a := .s 8, b := .s 4 }) ∧
    dec {} 0x00000000005E0120A0007AC3 = some (.cpywt hd 5 { a := .s 10, b := .imm8 1 }) ∧
    dec {} 0x0000000000500000020A7AC4 = some (.cpyq hd 5 { d := .s 10 }) ∧
    dec {} 0x0000000000000060140F7B00 = some (.bar hd { d := .p 15, a := .a 1 }) ∧
    dec {} 0x00008000000000F004027B01 = some (.bara hd { d := .p 2, a := .imm24 128 }) ∧
    dec {} 0x00000000000E012010007B02 = some (.barw hd { a := .s 1, b := .imm8 1 }) ∧
    dec {} 0x0000000000F000E190007B03 = some (.nbar hd 15 { a := .imm8 25 }) ∧
    dec {} 0x00000000001000E000007B04 = some (.nbarw hd 1 { a := .imm8 0 }) ∧
    dec {} 0x000000000000000000007B05 = some (.ctacq hd) ∧
    dec {} 0x000000000000000000007B06 = some (.ctrel hd) := by
  decide

theorem test_decode_the_pool_and_accumulators :
    dec {} 0x00006000000000F000007B40 = some (.racq hd { a := .imm24 96 }) ∧
    dec {} 0x00001800001000F004027B40 = some (.racqTry hd { d := .p 2, a := .imm24 24 }) ∧
    dec {} 0x000000000000002040007B41 = some (.rrel hd { a := .s 4 }) ∧
    dec {} 0x00000000000000A430007B42 = some (.cacq hd { a := .c 3 }) ∧
    dec {} 0x00000000001000A4F4017B42 = some (.cacqTry hd { d := .p 1, a := .c 15 }) ∧
    dec {} 0x0000000000A205A430047B42 = some (.cacqRd hd true { d := .v 4, a := .c 3, b := .s 5 }) ∧
    dec {} 0x00000000000000A430007B43 = some (.crel hd { a := .c 3 }) ∧
    dec {} 0x00000000002E0982FA437B43 = some (.crelWr hd false { d := .c 3, a := .rel 1 15, b := .imm8 9 }) := by
  decide

theorem test_decode_tiles :
    dec { tile := true } 0x00000000012000208A007B80 = some (.tload hd { ty := .bf16, mc := true, sp := false } { d := .t 0, a := .s 8 }) ∧
    dec { tile := true } 0x00000000000202A01A3F7B81 = some (.tmap hd { d := .t 63, a := .t 1, b := .s 2 }) ∧
    dec { tile := true } 0x000A4100001A02A00A037B82 = some (.tmma hd { acc := true, ol := false } { d := .t 3, a := .t 0, b := .t 2, c := .c 1 }) ∧
    dec { tile := true } 0x000A0100029A02A00A037B83 = some (.tew hd { op := .sel, rm := .rz } { d := .t 3, a := .t 0, b := .t 2, c := .t 1 }) ∧
    dec { tile := true } 0x00000000001000A00A017B84 = some (.tred hd { max := true, col := false } { d := .t 1, a := .t 0 }) ∧
    dec { tile := true } 0x00000000165205A00A017B85 = some (.tcvt hd { ty := .pb8, fixed := false, ol := true, olfault := true, olsp := false, rm := .rne, sat := false } { d := .t 1, a := .t 0, b := .s 5 }) ∧
    dec { tile := true } 0x00000000015E202010007B86 = some (.tfmt hd { fmt := .pb8, sp := true } { a := .s 1, b := .imm8 32 }) ∧
    dec { tile := true } 0x00000000001000202A017B87 = some (.tbind hd true { d := .t 1, a := .s 2 }) ∧
    dec { tile := true } 0x00000000000000A090007B88 = some (.tfree hd { a := .t 9 }) ∧
    dec { tile := true } 0x00000000000000A490007B88 = some (.tfreeAcc hd { a := .c 9 }) ∧
    dec { tile := true } 0x0000000000F0000000007B89 = some (.torf hd 15) ∧
    dec { tile := true } 0x00020D0000120CA04A427BC0 = some (.tforce hd true { d := .c 2, a := .t 4, b := .s 12, c := .s 13 }) ∧
    dec { tile := true } 0x0000000000220CA042027BC1 = some (.tstore hd { close := false, sp := true } { d := .s 2, a := .t 4, b := .s 12 }) ∧
    dec { tile := true } 0x00012C00000000F000007BC2 = some (.twait hd { a := .imm24 300 }) ∧
    dec { tile := true } 0x00000000006000A412037BC3 = some (.tqry hd 6 { d := .s 3, a := .c 1 }) := by
  decide

theorem test_decode_transactions_current_tasks_and_services :
    dec {} 0x000000000010002040007C00 = some (.txdecl hd true { a := .s 4 }) ∧
    dec {} 0x000000000000000002057C01 = some (.txsub hd { d := .s 5 }) ∧
    dec {} 0x000000000000002052067C02 = some (.txwait hd { d := .s 6, a := .s 5 }) ∧
    dec {} 0x000000000000002050007C03 = some (.txend hd { a := .s 5 }) ∧
    dec {} 0x000000000000002052077C04 = some (.txqry hd { d := .s 7, a := .s 5 }) ∧
    dec {} 0x00010000000E02F000007C40 = some (.balburn hd { a := .imm24 256, b := .imm8 2 }) ∧
    dec {} 0x0002F800000000F002017C41 = some (.balshunt hd { d := .s 1, a := .imm24 760 }) ∧
    dec {} 0x0000C800000E00F002067C42 = some (.pwrwait hd { d := .s 6, a := .imm24 200, b := .imm8 0 }) ∧
    dec {} 0x000000000000002072067C43 = some (.pair hd { d := .s 6, a := .s 7 }) ∧
    dec {} 0x000000000000002034017C80 = some (.dqpush hd { d := .p 1, a := .s 3 }) ∧
    dec {} 0x000401000000000002037C81 = some (.dqpop hd { d := .s 3, c := .p 1 }) ∧
    dec {} 0x000401000000002042037C82 = some (.dqsteal hd { d := .s 3, a := .s 4, c := .p 1 }) ∧
    dec {} 0xFFFFFC000022040084017C83 = some (.cont hd 2 { d := .p 1, a := .v 8, b := .s 4, x := 16777212 }) ∧
    dec {} 0x00000000000E012042037C84 = some (.contw hd { d := .s 3, a := .s 4, b := .imm8 1 }) ∧
    dec {} 0x000000000000002082057CC0 = some (.clst hd { d := .s 5, a := .s 8 }) ∧
    dec {} 0x000000000000002052067CC1 = some (.clwt hd { d := .s 6, a := .s 5 }) ∧
    dec {} 0x000000000000002052077CC2 = some (.clq hd { d := .s 7, a := .s 5 }) ∧
    dec {} 0x000000000000000000007D00 = some (.syscVersion hd) ∧
    dec {} 0x000000000010000000007D00 = some (.syscCapacity hd) ∧
    dec {} 0x000000000020000000007D00 = some (.syscQuota hd) ∧
    dec {} 0x000000000030000000007D00 = some (.syscMark hd) ∧
    dec {} 0x000000000050000000007D00 = some (.syscUnassigned hd 5) ∧
    dec { priv := true } 0x000000000000000000007D02 = some (.fwcallVersion hd) ∧
    dec { priv := true } 0x000000000010000000007D02 = some (.fwcallBbread hd) ∧
    dec { priv := true } 0x000000000020000000007D02 = some (.fwcallPwrcap hd) ∧
    dec { priv := true } 0x000000000030000000007D02 = some (.fwcallGreform hd) ∧
    dec { priv := true } 0x000000000FF0000000007D02 = some (.fwcallUnassigned hd 255) := by
  decide

/-! ## States that meet the hypotheses of the obligations

Each theorem is named after its obligation. Where a statement has several clauses over one input, the values where they meet are among
the witnesses. -/

theorem witness_DecodeOfEncode :
    let i : Instr := .iadd hd { t := .u32, co := true } { d := .v 255, a := .rel 15 16, b := .imm8 128, c := .p 15 }
    let j : Instr := .tforce hd true { d := .c 15, a := .t 63, b := .s 63, c := .s 0 }
    (i.parts.isSome = true ∧ i.wf {} = true) ∧ (j.parts.isSome = true ∧ j.wf { tile := true } = true) := by decide

theorem witness_EncodeOfDecode :
    dec {} 0x000401300090040020007840 =
      some (.iadd { stall := 3 } { t := .u32, co := true } { d := .v 0, a := .v 2, b := .v 4, c := .p 1 }) ∧
    (dec {} 0xF800).isSome = true := by decide

/-- Major 0x14's last, unassigned minor, and the first OPC above it. -/
theorem witness_UnassignedOpcodesRejected :
    Op.all.all (fun op => op.code ≠ bits (0x53F#96) 0 11) = true ∧ Op.all.all (fun op => op.code ≠ bits (0x540#96) 0 11) = true := by decide

/-- A state whose next group is the whole of wave 0 at the instruction placed. -/
def sFetch : State := State.reset.withFetchWord 96 0x8000000003F00000000979C1
def pFetch : Part := ⟨0, 0, none, 0xF#32, 0x100000, 0x100000, .run⟩

theorem witness_StepRunsDecoded :
    let s1 : State := { sFetch with run := sFetch.run.begin sFetch.sys 0 0xFFFFFFFF#32 }
    let i : Instr := .movi hd 0x3F800000 { d := .v 9 }
    (sFetch.run.inbox = [] ∧ sFetch.run.down = false ∧ (sFetch.run.evTurn && (sFetch.run.due sFetch.sys).isSome) = false ∧
    sFetch.run.nextGroup sFetch.sys = some (0, 0xFFFFFFFF#32, pFetch) ∧ pFetch.park = .run ∧
    s1.run.boundaryEvent sFetch.sys 0 pFetch = none ∧ s1.run.tableSlot 0 pFetch.pc = none ∧
    s1.run.inCode (s1.run.wave 0) pFetch.pc.toNat = true ∧ pFetch.pc.toNat + 12 ≤ 2 ^ 52) ∧
    ∃ r ts, preTranslateRange sFetch.sys s1.run (coreOf 0) (slotOf 0) (s1.run.block (s1.run.wave 0).blk).ctx
        { fetch := true, priv := (s1.run.wave 0).priv } pFetch.pc 0xFFFFFFFF#32 pFetch.pc.toNat 12 = .ok r ts ∧
      (ts.any (fun t => isAper t.2.pa) = false ∧
      (decodeWord (DCtx.ofWave (r.wave 0)) (wordOfBytes ((List.range 12).map (fetchByte r ts 0x100000)))).toOption = some i ∧
      (({ r with cur := ⟨0, 0xFFFFFFFF#32, some (wordOfBytes ((List.range 12).map (fetchByte r ts 0x100000)))⟩ } : Run).fused
        sFetch.sys 0 0x100000 i = i)) := by
  refine ⟨?_, ok_ex ?_⟩ <;> decide

def sIll : State := State.reset.withFetchWord 96 0x7E0F

theorem witness_IllegalWordTraps :
    let s1 : State := { sIll with run := sIll.run.begin sIll.sys 0 0xFFFFFFFF#32 }
    (sIll.run.inbox = [] ∧ sIll.run.down = false ∧ (sIll.run.evTurn && (sIll.run.due sIll.sys).isSome) = false ∧
    sIll.run.nextGroup sIll.sys = some (0, 0xFFFFFFFF#32, pFetch) ∧ pFetch.park = .run ∧
    s1.run.boundaryEvent sIll.sys 0 pFetch = none ∧ s1.run.tableSlot 0 pFetch.pc = none) ∧
    ∃ r w, fetchWord sIll.sys s1.run tC = .ok r w ∧
      (match decodeWord (DCtx.ofWave (r.wave 0)) w with | .error e => e == .major | .ok _ => false) = true ∧
      ({ r with cur := ⟨0, 0xFFFFFFFF#32, some w⟩ } : Run).group = some tC := by
  refine ⟨?_, ok_ex ?_⟩ <;> decide

theorem witness_FirewallInvariant : Sys.Inv State.reset.sys ∧ ∃ t, step State.reset = .next t ∧ t.run.clk = 1 := by
  refine ⟨⟨rfl, rfl, by decide, by decide, by decide, ⟨?_, by decide, by decide⟩, rfl, by decide, by decide⟩, next_ex (by decide)⟩
  intro i j hi hj _ h
  interval_cases i <;> exact absurd rfl h

theorem witness_WordsKeepFirewall : (Instr.nop hd).parts.isSome = true ∧ ∃ t, exec (.nop hd) tU = .next t ∧ t.run.faultq = [] :=
  ⟨rfl, next_ex (by decide)⟩

/-! ### Integer and floating point -/

def oV : Ops := { d := .v 0, a := .v 2, b := .imm8 1, c := .p 1 }
def oS : Ops := { d := .s 0, a := .s 2, b := .imm8 1, c := .p 1 }
def oR : Ops := { d := .rel 1 3, a := .v 2, b := .v 3, c := .v 4 }
def oP : Ops := { d := .p 2, a := .v 2, b := .imm8 1 }
def oPS : Ops := { d := .p 2, a := .s 2, b := .s 3 }

/-- Lanes of a vector, of a relative destination, and the scalar unit. -/
theorem witness_AddSelectResults :
    (Issues tU hd tC (usesOf hd oV) ∧ Opd.laneReg oV.d = true) ∧ (Issues tU hd tC (usesOf hd oR) ∧ Opd.laneReg oR.d = true) ∧
    (Issues tU hd tC (usesOf hd oS) ∧ Ops.vecUnit oS = false) := by unfold Issues; decide

theorem witness_LogicShiftResults :
    (Issues tU hd tC (usesOf hd oV) ∧ Opd.laneReg oV.d = true) ∧ (Issues tU hd tC (usesOf hd oS) ∧ Ops.vecUnit oS = false) ∧
    Issues tU hd tC (usesOf hd { d := .p 2, a := .p 3, b := .p 4 }) := by unfold Issues; decide

theorem witness_BitFieldResults :
    (Issues tU hd tC (usesOf hd oR) ∧ Opd.laneReg oR.d = true) ∧ (Issues tU hd tC (usesOf hd oS) ∧ Ops.vecUnit oS = false) := by
  unfold Issues; decide

theorem witness_CompareResult :
    Issues tU hd tC (usesOf hd oP) ∧ Issues tU hd tC (usesOf hd oPS) ∧ Ops.vecUnit oPS = false := by unfold Issues; decide

/-- IMADW's pair: s126 and s127 are one, s127 has none. -/
theorem witness_ProductResults :
    let ok : Ops := { d := .s 126, a := .s 2, b := .s 3, c := .s 4 }
    let bad : Ops := { d := .s 127, a := .s 2, b := .s 3, c := .s 4 }
    (Issues tU hd tC (usesOf hd oV) ∧ Opd.laneReg oV.d = true) ∧ (Issues tU hd tC (usesOf hd oS) ∧ Ops.vecUnit oS = false) ∧
    let vec : Ops := { d := .v 0, a := .v 2, b := .v 3, c := .v 4 }
    (Issues tU hd tC (usesOf hd ok) ∧ Ops.vecUnit ok = false ∧ pairPast false 2 ok.d = none ∧ pairPast false 2 ok.c = none ∧
      pairPast false 1 bad.d = none) ∧
    (Issues tU hd tC [⟨0, vec.d, 2, true, false, none⟩, ⟨1, vec.a, 1, false, false, none⟩, ⟨2, vec.b, 1, false, false, none⟩,
      ⟨3, vec.c, 2, false, false, none⟩] ∧ Opd.laneReg vec.d = true ∧ pairPast false 2 vec.d = none ∧ pairPast false 2 vec.c = none) ∧
    (Ops.vecUnit bad = false ∧ pairPast false 2 bad.d = some 127 ∧ tU.run.issuer hd = some tC ∧ tC.act ≠ 0) := by
  unfold Issues; decide

/-- Every exception enabled, and an sNaN in v2. -/
def tFp : State := vAs (wv tU (fun w => { w with fpcr := 0x1F00 })) 2 0x7F800001

theorem witness_FloatArithmetic :
    let o : Ops := { d := .v 0, a := .v 2, b := .v 3, c := .v 4 }
    let f : Ops → Run → Iss → Nat → Nat × Nat := fpValue { t := .f32 } (fun k a b _ => fmt32.add k a b)
    Issues tFp hd tC (usesOf hd o) ∧ Issues tU hd tC (usesOf hd o) ∧ Issues tU hd tC (usesOf hd oP) ∧
    (∀ l, l < 32 → tC.act.getLsbD l = true → (f o tU.run tC (unitLane o tC l)).2 &&& fpEnables (tU.wv tC) = 0) ∧
    (∃ l, l < 32 ∧ tC.act.getLsbD l = true ∧ (f o tFp.run tC (unitLane o tC l)).2 &&& fpEnables (tFp.wv tC) ≠ 0) := by
  unfold Issues; decide

theorem witness_SpecialFunctions :
    let o : Ops := { d := .v 0, a := .v 2 }
    let f : Ops → Run → Iss → Nat → Nat × Nat := fpValue { t := .f32 } (fun k a _ _ => fmt32.special k (fun k x => fmt32.sqrt k x) a)
    Issues tFp hd tC (usesOf hd o) ∧ Issues tU hd tC (usesOf hd o) ∧ fpEnables (tU.wv tC) = 0 ∧
    (∀ l, l < 32 → tC.act.getLsbD l = true → (f o tU.run tC (unitLane o tC l)).2 &&& fpEnables (tU.wv tC) = 0) ∧
    (∃ l, l < 32 ∧ tC.act.getLsbD l = true ∧ (f o tFp.run tC (unitLane o tC l)).2 &&& fpEnables (tFp.wv tC) ≠ 0) := by
  unfold Issues; decide

/-- VCOMP with two lanes selected. -/
theorem witness_ConversionResults :
    let s := wv tU (fun w => w.setP 1 0x11#32 (fun _ => true))
    let o : Ops := { d := .v 3, a := .v 2, b := .p 1, c := .s 4 }
    let sel := s.run.trueLanes tC o.b
    let w := s.wv tC
    let d (x : Option Lanes) : Use := ⟨0, o.d, 1, true, false, x⟩
    let n : Use := ⟨3, o.c, 1, true, false, none⟩
    let two := w.writable o.d 0x3#32
    let packed := w.writable o.d (Lanes.ofTest (fun l => l < sel.count))
    let spread := w.writable o.d sel
    Issues s hd tC [] ∧ Whole s tC ∧ Opd.laneReg o.d = true ∧ w.unsure tC.m o.a = 0 ∧ sel.count = 2 ∧ packed = two ∧
    opndCheck w tC.act [d none, ⟨1, o.a, 1, false, false, none⟩, n] = none ∧
    feCheck w tC.act [d (some packed), crossUse w tC.m 1 o.a false sel, n] = .ok ∧
    opndCheck w tC.act [d none, ⟨1, o.a, 1, false, false, none⟩] = none ∧
    feCheck w tC.act [d (some spread), crossUse w tC.m 1 o.a false (Lanes.ofTest (fun l => l < sel.count))] = .ok ∧
    Issues tU hd tC (usesOf hd { d := .v 0, a := .v 2, b := .v 3 }) := by
  unfold Issues Whole; decide

/-! ### Lanes -/

/-- The last lane, and the first index that is none. -/
theorem witness_LaneMoves :
    let x : Ops := { d := .v 8, a := .v 4, b := .imm8 1 }
    let g : Ops := { d := .s 4, a := .v 7, b := .imm8 31 }
    let g' : Ops := { d := .s 4, a := .v 7, b := .imm8 32 }
    let q : Ops := { d := .v 7, a := .s 4, b := .imm8 31 }
    let out : Opd := .rel 0 30
    let w := tU.wv tC
    let b (o : Ops) : Use := ⟨2, o.b, 1, false, false, none⟩
    (Issues tU hd tC [] ∧ w.unsure tC.m x.a = 0 ∧ Opd.laneReg x.d = true ∧
      opndCheck w tC.act [⟨0, x.d, 1, true, false, none⟩, ⟨1, x.a, 1, false, false, none⟩, b x] = none ∧
      feCheck w tC.act [⟨0, x.d, 1, true, false, none⟩, crossUse w tC.m 1 x.a false 0xFFFFFFFF#32, b x] = .ok) ∧
    (w.fixRel g.a tC.act.lowest = .inl g.a ∧ opndCheck w tC.act [⟨1, g.a, 1, false, false, none⟩] = none ∧
      (b g).having w tC.act (fun x => w.isEmpty x || w.isInd x) = [] ∧ tU.run.rdCount tC g.b = 31 ∧ (w.foreign tC.m).getLsbD 31 = false ∧
      checkUses w tC.act [⟨0, g.d, 1, true, false, none⟩, ⟨1, g.a, 1, false, false, some (laneBit 31 &&& ~~~w.foreign tC.m)⟩, b g] = .ok) ∧
    tU.run.rdCount tC g'.b = 32 ∧
    (match w.fixRel out tC.act.lowest with | .inl _ => false | .inr _ => true) = true ∧
    (w.fixRel q.d tC.act.lowest = .inl q.d ∧ Whole tU tC ∧ opndCheck w tC.act [⟨0, q.d, 1, true, false, none⟩] = none ∧
      checkUses w tC.act [⟨1, q.a, 1, false, false, none⟩, b q] = .ok ∧
      checkUses w tC.act [⟨0, q.d, 1, true, false, some (laneBit 31)⟩] = .ok) := by
  unfold Issues Whole; decide

/-- No lane, all lanes: both ends of every mode. -/
theorem witness_VoteResults :
    let o : Ops := { d := .s 3, a := .p 2 }
    let o' : Ops := { d := .p 3, a := .p 15 }
    Issues tU hd tC (usesOf hd o) ∧ Issues tU hd tC (usesOf hd o') ∧ (tU.wv tC).pSee 2 = 0 ∧ (tU.wv tC).pSee 15 = 0xFFFFFFFF#32 := by
  unfold Issues; decide

theorem witness_ReduceAndScan :
    let o : Ops := { d := .v 3, a := .v 2 }
    let w0 := laneIds.map (fun l => (if tC.act.getLsbD l then (tU.src tC o.a l).toNat else 0, 0))
    let out := redTree (redNode (redCtl (tU.wv tC)) .f32 .add) [5, 4, 3, 2, 1] w0
    let xs := scanGo (redNode (redCtl (tU.wv tC)) .f32 .add) true (tC.act.toList.map (fun l => (l, (tU.src tC o.a l).toNat))) (0, 0)
    (Issues tU hd tC (usesOf hd o) ∧ Opd.laneReg o.d = true) ∧ Issues tU hd tC (usesOf hd { d := .s 3, a := .v 2 }) ∧
    (∀ l, l < 32 → tC.act.getLsbD l = true → (out.getD l (0, 0)).2 &&& fpEnables (tU.wv tC) = 0) ∧
    (∀ x ∈ xs, x.2.2 &&& fpEnables (tU.wv tC) = 0) ∧ (List.replicate 32 (7#32 : Word)).length = 32 := by
  unfold Issues; decide

/-- The sequence on v2: its maximum, the difference, the exponential, the sum. -/
def fuse : FuseArgs :=
  { h1 := hd, m1 := { t := .f32, op := .max, step := 0 }, o1 := { d := .v 3, a := .v 2 }
    h2 := hd, ffma := false, m2 := { t := .f32 }, o2 := { d := .v 4, a := .v 2, b := .v 3 }
    h3 := hd, m3 := { t := .f32 }, o3 := { d := .v 5, a := .v 4 }
    h4 := hd, m4 := { t := .f32, op := .add, step := 0 }, o4 := { d := .v 6, a := .v 5 } }

def isTrap : Eff Unit → Bool | .trap _ _ => true | _ => false
def isParkRegs : Eff Unit → Bool | .park _ (.retry (.regs _)) => true | _ => false

/-- It completes; it traps where v3 lies outside the window; it waits for a register of it. -/
theorem witness_FusedSequence :
    let w := tU.wv tC
    Issues tU hd tC [] ∧ (match fuseEff fuse tU.sys tU.run tC with | .ok _ _ => true | _ => false) = true ∧
    (w.young = [] ∧ fpEnables w = 0 ∧ checkUses w tC.act (usesOf fuse.h1 fuse.o1) = .ok ∧ checkUses w tC.act (usesOf fuse.h2 fuse.o2) = .ok ∧
      checkUses w tC.act (usesOf fuse.h3 fuse.o3) = .ok ∧ checkUses w tC.act (usesOf fuse.h4 fuse.o4) = .ok) ∧
    isTrap (fuseEff { fuse with o1 := { d := .v 16, a := .v 2 } } tU.sys tU.run tC) = true ∧
    (let s := wv tU (fun w => { w with vEmpty := [(4, 0xFFFFFFFF#32)] })
     Issues s hd tC [] ∧ isParkRegs (fuseEff fuse s.sys s.run tC) = true) := by
  unfold Issues; decide

/-! ### Moves, control flow, traps -/

theorem witness_MoveResults :
    let o : Ops := { d := .v 3, a := .s 2 }
    let f : Ops := { d := .s 3, a := .sp 0x011 }
    let m : Ops := { d := .m 7, a := .s 2, b := .imm8 16 }
    (Issues tU hd tC (usesOf hd o) ∧ Ops.namesPriv o = false ∧ isFpsr o.a = false) ∧
    (Issues tU hd tC (usesOf hd f) ∧ isFpsr f.a = true ∧ tU.run.fpDue 0 = false) ∧
    Issues tU hd tC (usesOf hd { d := .p 3, a := .v 2 }) ∧ Issues tU hd tC (usesOf hd m) := by
  unfold Issues; decide

theorem witness_SpecialsAndAdvance :
    let o : Ops := { d := .sp 0x010, a := .s 2 }
    let o' : Ops := { d := .sp 0x011, a := .s 2 }
    (Issues tU hd tC (usesOf hd o) ∧ Ops.namesPriv o = false) ∧ (Issues tU hd tC (usesOf hd o') ∧ tU.run.fpDue 0 = false) ∧
    (Issues tU hd tC [] ∧ tU.run.det (tU.wv tC) = false ∧ InWave tU tC) ∧
    (∀ n ∈ [0x100, 0x101, 0x102, 0x105, 0x106, 0x107, 0x108], Issues tP hd tC (usesOf hd { d := .sp n, a := .s 2 })) ∧
    ((tP.wv tC).priv = true ∧ (tP.run.ctxs.get? (tP.run.block (tP.wv tC).blk).ctx).isSome = true) := by
  unfold Issues InWave; decide

/-- Offsets at both ends of the code, unaligned, and just past it. -/
theorem witness_ControlTransfers :
    let o : Ops := { d := .v 1, a := .v 2, x := 7 }
    let ok : Nat → State := fun n => vAs tU 2 (BitVec.ofNat 32 n)
    (Issues tU hd tC [] ∧ tU.run.codeSize (tU.wv tC) = 0x1000) ∧
    (∀ n ∈ [0, 0xFFC, 2, 0x1000], Issues (ok n) hd tC (usesOf hd o)) ∧
    (∀ n ∈ [0, 0xFFC], ((ok n).src tC o.a 31).toNat % 4 = 0 ∧ ((ok n).src tC o.a 31).toNat < (ok n).run.codeSize ((ok n).wv tC)) ∧
    ((ok 2).src tC o.a 0).toNat % 4 ≠ 0 ∧ ((ok 0x1000).src tC o.a 0).toNat % 4 = 0 ∧
    (ok 0x1000).run.codeSize ((ok 0x1000).wv tC) ≤ ((ok 0x1000).src tC o.a 0).toNat ∧
    (0x3#32 &&& pFetch.mask = 0x3#32) ∧ pFetch.mask ≠ 0 := by
  unfold Issues; decide

/-- Some lanes of eight leave; all leave, with and without a ticket; a stream ends; lanes wait at two labels. -/
theorem witness_ExitAndRegang :
    let h : Hd := { pred := 1 }
    let s := wv tU (fun w => w.setP 1 0x3#32 (fun _ => true))
    let c : Iss := { tC with act := 0x3#32 }
    let t := wv tU (fun w => { w with slot0 := some ⟨0, 0, 1, 1, [], 0, 0, false⟩ })
    let w : Wave := { waiting := [⟨0x1#32, 2, 0x10, 0x10, none⟩, ⟨0x2#32, 5, 0x40, 0x40, none⟩, ⟨0x4#32, 5, 0x30, 0x30, none⟩] }
    (Issues s h c [] ∧ (s.wv c).stream = false ∧ ((s.wv c).live &&& ~~~c.act) ≠ 0 ∧ (s.wv c).contWave = false) ∧
    (Issues t hd tC [] ∧ ((t.wv tC).live &&& ~~~tC.act) = 0 ∧ (t.wv tC).txOpen ≠ 0) ∧
    (Issues tU hd tC [] ∧ ((tU.wv tC).live &&& ~~~tC.act) = 0 ∧ (tU.wv tC).txOpen = 0) ∧
    (Issues tT hd tCT [] ∧ (tT.wv tCT).stream = true ∧ (tT.run.block (tT.wv tCT).blk).openDemands = [] ∧
      (tT.run.block (tT.wv tCT).blk).batches = []) ∧
    (let d : Demand := { root := 0, region := regionWord 0, target := .acc 3, fmt := 0, self := false }
     let s := bk tT (fun b => { b with openDemands := [d] })
     Issues s hd tCT [] ∧ (s.wv tCT).stream = true ∧ (s.run.block (s.wv tCT).blk).openDemands ≠ [] ∧
       (s.run.block (s.wv tCT).blk).batches = []) ∧
    (∀ f ∈ [[], [(⟨0x1000, 0x1000, none, 0, false⟩ : FarWrite)]],
      let s := wv tU (fun w => { w with contWave := true, remote := f })
      Issues s hd tC [] ∧ ((s.wv tC).live &&& ~~~tC.act) = 0 ∧ (s.wv tC).txOpen = 0 ∧ (s.wv tC).contWave = true ∧
        (s.wv tC).unperformed = !f.isEmpty) ∧
    (w.parts = [] ∧ w.held = [] ∧ w.waiting ≠ []) := by
  unfold Issues; decide

theorem witness_SupervisorEntry :
    (tU.run.waves.get? 0 = some (tU.wv tC) ∧ (tU.wv tC).inDouble = false ∧ (tU.wv tC).priv = false ∧ tU.run.delegates (tU.wv tC) 7 = false ∧
      tU.run.sideFails 0 = false) ∧
    (tP.run.waves.get? 0 = some (tP.wv tC) ∧ (tP.wv tC).inDouble = false ∧ (tP.wv tC).priv = true ∧ tP.run.delegates (tP.wv tC) 0 = false ∧
      tP.run.sideFails 0 = false) := by
  decide

/-- Delegated classes: the last vector of the code, the first beyond it; a fault in supervisor state and in the double-fault handler. -/
theorem witness_UserTrapEntries :
    let s := cx tU (fun c => { c with tdeleg := 0xFFFF })
    let u := wv s (fun w => { w with utrap := 0x1000 })
    let d := wv tU (fun w => { w with sup := [⟨⟨0, 0, []⟩, 15, 0, none⟩] })
    (s.run.waves.get? 0 = some (s.wv tC) ∧ (s.wv tC).inDouble = false ∧ s.run.delegates (s.wv tC) 7 = true ∧
      (s.wv tC).userVec 7 < (s.run.launchOf (s.wv tC)).info.size ∧ s.run.sideFails 0 = false) ∧
    (u.run.waves.get? 0 = some (u.wv tC) ∧ u.run.delegates (u.wv tC) 7 = true ∧ (u.wv tC).inDouble = false ∧
      (u.run.launchOf (u.wv tC)).info.size ≤ (u.wv tC).userVec 7) ∧
    ((tP.wv tC).inDouble = false ∧ (tP.wv tC).priv = true ∧ (7 : Nat) ≠ 0) ∧ (d.wv tC).inDouble = true := by
  decide

theorem witness_TrapInstructions :
    let f : Frame := ⟨0xFFFFFFFF#32, 0, []⟩
    let s := wv tU (fun w => { w with cause := 0x80000000, epc := 0x100040, frame := some f, handler := 0xFFFFFFFF#32 })
    let odd := wv s (fun w => { w with epc := 0x100042 })
    (Issues tU hd tC [] ∧ (tU.wv tC).stream = false ∧ (tU.wv tC).priv = false ∧ (tU.wv tC).inh = false) ∧
    (Issues odd hd tC [] ∧ (odd.wv tC).inh = true ∧
      ∃ p ∈ (odd.wv tC).parts, (p.mask &&& tC.m) ≠ 0 ∧ ((odd.wv tC).rteTarget false p).toNat % 4 ≠ 0) ∧
    (Issues s hd tC [] ∧ (s.run.block (s.wv tC).blk).strap = none ∧ (s.wv tC).frame = some f ∧ (s.wv tC).inh = true ∧
      (s.wv tC).priv = false ∧ ∀ p ∈ (s.wv tC).parts, ((s.wv tC).rteTarget false p).toNat % 4 = 0) ∧
    (Issues tP hd tC [] ∧ (tP.wv tC).sup = [placeFrame] ∧ placeFrame.cls ≠ 14 ∧
      ∀ p ∈ (tP.wv tC).parts, ((tP.wv tC).rteTarget false p).toNat % 4 = 0) := by
  unfold Issues; decide

/-! ### Memory -/

def mLd : LdMod := { size := .b32 }
def oLd : Ops := { d := .v 3, a := .s 8, b := .v 2 }

set_option maxRecDepth 8000 in
/-- An access of this device; the same sealed, for LDC; unaligned; at the last address and the first beyond the space. -/
theorem witness_LoadResult :
    (Issues (tAt 0x100200) hd tC (loadUses hd mLd oLd) ∧ ((tAt 0x100200).wv tC).acquirePending = false ∧ Quiet (tAt 0x100200) tC) ∧
    (∃ r ts, globalChecks (tAt 0x100200).sys (tAt 0x100200).run tC ((tAt 0x100200).run.gaddrs tC oLd mLd) 4 true false true = .ok r ts ∧
      AllLocal ts) ∧
    (let s := cx (tAt 0x100200) (fun c => { c with seals := [(0x100200, 0x100)] })
     ∃ r ts, globalChecks s.sys s.run tC (s.run.gaddrs tC oLd mLd) 4 true false true = .ok r ts ∧ (AllLocal ts ∧
      ∀ e ∈ (s.run.gaddrs tC oLd mLd).zip ts, (e.2.2.ro || sealedWhole (s.run.ctx (s.run.cidOf tC.wid)) e.1.2 (e.1.2 + 4)) = true)) ∧
    (Issues (tAt 0x100201) hd tC (loadUses hd mLd oLd) ∧ (tAt 0x100201).run.gaddr tC oLd mLd 0 % 4 ≠ 0) ∧
    (Issues (tAt (2 ^ 52)) hd tC (loadUses hd mLd oLd) ∧ (∀ l, l < 32 → (tAt (2 ^ 52)).run.gaddr tC oLd mLd l % 4 = 0) ∧
      2 ^ 52 ≤ (tAt (2 ^ 52)).run.gaddr tC oLd mLd 0 ∧ (tAt (2 ^ 52 - 4)).run.gaddr tC oLd mLd 0 < 2 ^ 52) := by
  unfold Issues Quiet AllLocal
  exact ⟨by decide, ok_ex (by decide), ok_ex (by decide), by decide, by decide⟩

def uSt (o : Ops) : List Use := [⟨0, o.d, 1, false, false, none⟩, ⟨1, o.a, 1, false, false, none⟩, ⟨2, o.b, 1, false, false, none⟩]

set_option maxRecDepth 8000 in
theorem witness_StoreResult :
    (Issues (tAt 0x100200) hd tC (uSt oLd) ∧ Quiet (tAt 0x100200) tC ∧ TokenFree (tAt 0x100200) tC ∧
      ((tAt 0x100200).wv tC).acks ≤ 256 ∧ groupLen oLd.d mLd.size = 1) ∧
    (let s := tAt 0x100200
     let xs := s.run.gaddrs tC oLd mLd
     ∃ r ts, gatedChecks s.sys s.run tC { write := true, priv := (s.wv tC).priv } false xs (globalChecks s.sys s.run tC xs 4 false true false) = .ok r ts ∧
      AllLocal ts) := by
  unfold Issues Quiet TokenFree TokenHeld AllLocal
  exact ⟨by decide, ok_ex (by decide)⟩

/-- A block of 64 KiB of scratchpad; a1 holds `n` in every lane. -/
def tScr (n : Nat) : State :=
  wv (bk tU (fun b => { b with size := 0x10000 })) (fun w => { w with a := [(1, List.replicate 32 (BitVec.ofNat 32 n))] })

def mS : LdsMod := { size := .b32 }
def oL : Ops := { d := .v 3, a := .a 1, b := .m 0, x := 4 }
def oSt : Ops := { a := .a 1, b := .v 4, x := 4 }
def addrs (s : State) (o : Ops) : List (Nat × Nat) := tC.act.toList.map (fun l => (l, s.run.saddr tC o mS l))

/-- The first word and the last one of the scratchpad. -/
theorem witness_ScratchAccess :
    (∀ n ∈ [0, 0xFFF8], Issues (tScr n) hd tC [⟨0, oL.d, 1, true, false, none⟩] ∧ ((tScr n).wv tC).acquirePending = false ∧
      Issues (tScr n) hd tC [⟨2, oSt.b, 1, false, false, none⟩] ∧ Quiet (tScr n) tC) ∧
    (∃ ps, scrAll (tScr 0xFFF8).run tC 4 false (addrs (tScr 0xFFF8) oL) = .ok ps ∧ ps.length = 32) ∧
    (∃ ps, scrAll (tScr 0).run tC 4 true (addrs (tScr 0) oSt) = .ok ps ∧
      (scrAlias ((tScr 0).run.blockOf ((tScr 0).wv tC)) ps = none ∧
       ∀ e ∈ ps, ∀ x ∈ e.2, (match x.1 with | .blk b a0 => ((tScr 0).run.watchedWords b a0 x.2).isEmpty | _ => true) = true)) := by
  unfold Issues Quiet
  exact ⟨by decide, got_ex (by decide), got_ex (by decide)⟩

def fAtom : AtomForm := { cas := false, red := false, m := { op := .add, ty := .u32 } }

set_option maxRecDepth 8000 in
/-- An operation on memory, one on scratchpad, a CAS, and both ends of INCW. -/
theorem witness_AtomicResult :
    let o : Ops := { d := .v 5, a := .s 8, b := .v 2, c := .v 9 }
    let o' : Ops := { d := .v 5, a := .a 1, c := .v 9 }
    let us (o : Ops) : List Use := [⟨0, o.d, 1, true, false, none⟩, ⟨1, o.a, 1, false, false, none⟩, ⟨2, o.b, 1, false, false, none⟩,
      ⟨3, o.c, 1, false, false, none⟩]
    let s := tAt 0x100200
    let xs := tC.act.toList.map (fun l => (l, (s.run.rdScalar tC.wid o.a 0 l + BitVec.ofInt 64 (s.run.rdLane tC.wid o.b 0 l).toInt).toNat))
    let ys := tC.act.toList.map (fun l => (l, ((tScr 0).run.rdLane tC.wid o'.a 0 l).toNat))
    (Issues s hd tC (us o) ∧ Quiet s tC ∧ fAtom.pairBad o = none ∧ TokenFree s tC ∧ isAddrReg o.a = false ∧ (s.wv tC).acks ≤ 256) ∧
    (Issues (tScr 0) hd tC (us o') ∧ Quiet (tScr 0) tC ∧ fAtom.pairBad o' = none ∧ isAddrReg o'.a = true ∧ TokenHeld (tScr 0) tC) ∧
    (∃ r ts, gatedChecks s.sys s.run tC { write := true, priv := (s.wv tC).priv } true xs (globalChecks s.sys s.run tC xs 4 true true true) = .ok r ts ∧
      (AllLocal ts ∧ fullSlices s.sys r 0 (actsFor o ts) = [] ∧ (∀ k, o.c ≠ .sp k) ∧ ∀ t ∈ ts, fAtom.emulated s.run tC.wid t.2.pa = none)) ∧
    (∃ ps, scrAll (tScr 0).run tC 4 true ys = .ok ps ∧ scrAlias ((tScr 0).run.blockOf ((tScr 0).wv tC)) ps = none) ∧
    (ATy.isFp .u32 = false ∧ (5 : Nat) < 2 ^ (8 * ATy.bytes .u32) ∧ ((4 : Nat) < 5 ∧ (5 : Nat) ≤ 5)) := by
  unfold Issues Quiet TokenFree TokenHeld AllLocal
  exact ⟨by decide, by decide, ok_ex (by decide), got_ex (by decide), by decide⟩

/-- A store beyond the device that has not been acknowledged. -/
def farW : FarWrite := ⟨0x1000, 0x1000, none, 0, false⟩
def oRg : Ops := { a := .s 8, b := .imm24 0x200 }
def tSeal (xs : List (Nat × Nat)) : State := cx (tAt 0x100000) (fun c => { c with seals := xs })

/-- A fence with an access outstanding, with a marked wave and with neither; ranges that meet a seal, that do not, with 63 and 64 seals, and that are
one; a SEAL that stores into its range keep waiting, and one at the end of its wait; a TLBI outside and in supervisor state. -/
theorem witness_OrderingAndCaches :
    let m : OrdMod := { ord := .ar, scope := .sys }
    let busy := wv tU (fun w => { w with remote := [farW], acks := 1 })
    let wait := parked (tSeal []) (.retry (.sealing 0x1000 0x100))
    let into := wv (tSeal []) (fun w => { w with remote := [farW] })
    let mark := wv tU (fun w => { w with marked := some (0x20, 0x1000, false) })
    let many (n : Nat) : List (Nat × Nat) := (List.range n).map (fun i => (0x200000 + 0x100 * i, 0x100))
    (Order.isRel m.ord = true ∧ Order.isAcq m.ord = true) ∧
    (Issues busy hd tC [] ∧ (busy.wv tC).acquirePending = false ∧ (busy.wv tC).unperformed = true) ∧
    (Issues mark hd tC [] ∧ (mark.wv tC).unperformed = false ∧ (mark.wv tC).marked = some (0x20, 0x1000, false)) ∧
    (Issues tU hd tC [] ∧ Quiet tU tC ∧ ∀ p ∈ (tU.wv tC).pend, p.kind = .xlane) ∧
    (Issues (tSeal []) hd tC (rangeUses hd oRg) ∧ (tSeal []).run.ctxs.get? 0 = some ((tSeal []).run.ctx 0) ∧ Quiet (tSeal []) tC ∧
      (many 63).length < 64 ∧ 64 ≤ (many 64).length) ∧
    (∃ r x, rangeChecks (tSeal []).sys (tSeal []).run tC oRg = .ok r x ∧ (x.1 = 0x100000 ∧ x.2.1 = 0x200)) ∧
    (∃ r x, rangeChecks (tSeal [(0x100000, 0x200)]).sys (tSeal [(0x100000, 0x200)]).run tC oRg = .ok r x ∧ (x.1, x.2.1) ∈ [(0x100000, 0x200)]) ∧
    Issues tU hd tC [⟨1, oLd.a, 1, false, false, none⟩, ⟨2, oLd.b, 1, false, false, none⟩] ∧
    ((wait.wv tC).sealing tC.m = some (0x1000, 0x100) ∧ wait.run.storesInto 0 0x1000 0x100 = false ∧ Issues wait hd tC (rangeUses hd oRg) ∧
      into.run.storesInto 0 0x1000 0x100 = true ∧ into.run.storesInto 0 0x1001 0x100 = false ∧ ((tSeal []).wv tC).sealing tC.m = none) ∧
    (Issues tP hd tC (rangeUses hd { a := .s 3 }) ∧ Issues tP hd tC [] ∧ (tP.wv tC).priv = true ∧ tP.run.farBusy 0 = false) ∧
    (Issues tU hd tC (rangeUses hd { a := .s 3 }) ∧ (tU.wv tC).priv = false) := by
  refine ⟨by decide, by unfold Issues; decide, by unfold Issues; decide, by unfold Issues Quiet; decide, by unfold Issues Quiet; decide, ok_ex ?_,
    ok_ex ?_, by unfold Issues; decide, by unfold Issues; decide, by unfold Issues; decide, by unfold Issues; decide⟩ <;> decide

set_option maxRecDepth 8000 in
/-- Without a monitor, with one whose word is as it was, and with one whose word was written; a part that waits in MWAIT. -/
theorem witness_MonitorAndWait :
    let o : Ops := { a := .s 8, b := .imm8 0 }
    let q : Ops := { d := .s 6, a := .imm8 0 }
    let m : Monitor := ⟨0x100200, 0x100200, 0x100200, 0, true, false⟩
    let s := tAt 0x100200
    let w1 := wv s (fun w => { w with mon := some m })
    let w2 := wv s (fun w => { w with mon := some { m with written := true } })
    let far := wv s (fun w => { w with mon := some { m with word := 3 * 2 ^ 50 } })
    let p := parked w2 (.mwait (some 0) 6)
    let late := wv p (fun w => { w with preTrap := true })
    let xs := tC.act.toList.map (fun l => (l, 0x100200))
    (Issues s hd tC (usesOf hd o) ∧ (s.wv tC).acquirePending = false ∧
      issueChecks (s.wv tC) { s.run.block (s.wv tC).blk with watch := [] } (s.run.ctx 0) xs 8 true false = none) ∧
    (∃ r ts, preTranslate s.sys s.run 0 0 0 { priv := (s.wv tC).priv } true tC.pc xs = .ok r ts ∧ (AllLocal ts ∧ ts ≠ [])) ∧
    (Issues s hd tC (usesOf hd q) ∧ (s.wv tC).mon = none) ∧ (Issues w1 hd tC (usesOf hd q) ∧ w1.run.monitorHit m = false) ∧
    (Issues w2 hd tC (usesOf hd q) ∧ w2.run.monitorHit { m with written := true } = true) ∧
    (Issues far hd tC (usesOf hd q) ∧ isAper (3 * 2 ^ 50) = true) ∧
    (p.run.waves.get? 0 = some (p.wv tC) ∧ (p.wv tC).mwaits.map (·.2) = [(some 0, 6)] ∧ (∀ x ∈ (p.wv tC).parts, x.mask ≠ 0) ∧
      (p.wv tC).parts.Pairwise (fun p q => p.uid ≠ q.uid ∧ p.mask &&& q.mask = 0) ∧ p.run.past (some 0) = true ∧
      (p.wv tC).mon = some { m with written := true }) ∧
    late.run.eventFor 0 = true := by
  unfold Issues AllLocal
  exact ⟨by decide, ok_ex (by decide), by decide, by decide, by decide, by decide, by decide, by decide⟩

/-! ### Copies and barriers -/

def mC : CpyMod := { ch := 2, src := false, dst := true, nc := false }
def tCpy (len : Nat) (pre : List CopyOp) : State :=
  sAs (sAs (sAs (sAs (co (tScr 0) (fun k => { k with channels := [(2, pre)] })) 8 0x100200) 10 0x100) 9 (BitVec.ofNat 64 len)) 11 0x40
def oC : Ops := { d := .s 10, a := .s 8, b := .s 9, c := .s 11 }
def oneOp : CopyOp :=
  { kind := 0, blk := 0, wave := 0, srcSp := false, dstSp := true, src := 0x100200, dst := 0x100, len := 16, elem := 4, list := 0
    obj := some (0x40, 0x44), pc := 0x100000, priv := false, tiles := none }

/-- No bytes and 16 of them, before five copies of the channel; an object reached; a copy delivered, and one that failed. -/
theorem witness_Copies :
    (∀ n ∈ [0, 16], Issues (tCpy n []) hd tC (copyUses hd oC 1) ∧ ((tCpy n []).wv tC).acquirePending = false ∧
      ((tCpy n []).wv tC).remote = []) ∧
    (∃ obj, (cpyArgs mC oC (tCpy 0 []).run tC).checked (tCpy 0 []).run tC = .ok obj ∧ (cpyArgs mC oC (tCpy 0 []).run tC).size = 0) ∧
    (∃ obj, (cpyArgs mC oC (tCpy 16 []).run tC).checked (tCpy 16 []).run tC = .ok obj ∧ ((cpyArgs mC oC (tCpy 16 []).run tC).size ≠ 0 ∧
      mC.dst = true ∧ ((tCpy 16 (List.replicate 5 oneOp)).run.channel 0 2).length < 6)) ∧
    (Issues (tScr 0) hd tC (usesOf hd { d := .s 10 }) ∧ ((tScr 0).run.block 0).chFault.get? 5 = none) ∧
    (let o : Ops := { a := .s 11, b := .imm8 0 }
     let s := tCpy 0 []
     Issues s hd tC (barUses hd o) ∧ ∃ p, objPlace s.run 0 (s.run.wordAddr tC o.a) = .ok p ∧
       (s.run.objVal 0 p < 2 ^ 63 ∧ (s.ssrc tC o.b).toNat ≤ s.run.objVal 0 p)) ∧
    (let bad : CopyOp := { oneOp with fault := some ⟨7, 0x14, 0x100000, 0x100200, 0⟩ }
     let s := tCpy 0 [oneOp]
     let t := tCpy 0 [{ oneOp with delivered := 16 }]
     let u := tCpy 0 [bad]
     s.run.channel 0 2 = [oneOp] ∧ oneOp.paused = [] ∧ t.run.channel 0 2 = [{ oneOp with delivered := 16 }] ∧ u.run.channel 0 2 = [bad] ∧
       u.run.blocks.get? bad.blk = some (u.run.block 0) ∧ (s.run.blocks.get? 0).isSome = true ∧ (0x40 + 4 ≤ 0x44) ∧
       s.run.walkerFree 0 = true ∧ (s.run.ctx (s.run.block oneOp.blk).ctx).step < 2) ∧
    (let x : CopyByte := ⟨3 * 2 ^ 50, 0x300000, none, .mem 0x300000, 0⟩
     let far : CopyOp := { oneOp with dstSp := false, src := BitVec.ofNat 64 (3 * 2 ^ 50), dst := 0x300000, flight := [x] }
     let s := tCpy 0 [far]
     s.run.channel 0 2 = [far] ∧ far.overlaps s.run 0 x.dst x.da = false ∧ far.delivered + 1 < far.len) := by
  refine ⟨by unfold Issues; decide, got_ex (by decide), got_ex (by decide), by unfold Issues; decide, ⟨by unfold Issues; decide, got_ex (by decide)⟩,
    by decide, by decide⟩

/-- A host leaf that leads to a control aperture (its bit 13, R506), and the guest leaf above it. -/
def ctrlAt (s : State) : State :=
  pt (memAs s [(0x20008, leBytes (3 * 2 ^ 50 + 0x1F) 8), (0x40008, leBytes 0x2000001F 8)]) (fun p => { p with aper := [(0, 0xA001 + 7 * 65536)] })

/-- A copy from a control aperture; one byte from memory to memory; a run of four from scratchpad to scratchpad. -/
theorem witness_Copies_bytes :
    let c := ctrlAt (sAs (tCpy 16 []) 8 0x20000000)
    let one : CopyOp := { oneOp with dstSp := false, src := 0x100200, dst := 0x300000, len := 1 }
    let s := tCpy 0 [one]
    let run : CopyOp := { oneOp with srcSp := true, dstSp := true, src := 0x200, dst := 0x100, len := 4 }
    let t := tCpy 0 [run]
    let res (a : Nat) (wr : Bool) := scrResolve t.run 0 0 0 false (a % 2 ^ 32) 1 wr
    ((cpyArgs mC oC c.run tC).ctrl c.sys c.run tC).isSome = true ∧
    (s.run.channel 0 2 = [one] ∧ s.run.walkerFree 0 = true ∧ one.stays = false ∧ s.run.copyMoves one = true ∧ one.len = one.delivered + 1 ∧
      (let op1 := { one with started := true }
       let r0 := s.run.onHead 0 2 (fun o => { o with started := true })
       (match elemIndex r0 0 op1 0 with | .ok x => x == 0 | .error _ => false) = true ∧
       (match copyAt s.sys r0 0 op1 false false 0x100200 with
        | .place r1 src => src == .mem 0x100200 && (match copyAt s.sys r1 0 op1 false true 0x300000 with
            | .place r2 dst => dst == .mem 0x300000 && !op1.overlaps r2 0 dst 0x300000
            | _ => false)
        | _ => false) = true)) ∧
    (t.run.channel 0 2 = [run] ∧ run.stays = false ∧ t.run.copyMoves run = true ∧ t.run.walkerFree 0 = true ∧ (t.run.blocks.get? 0).isSome = true ∧
      min run.edge (run.len - run.delivered) = 4 ∧
      ∀ k, k < 4 → res (0x200 + k) false = .ok (.blk 0 (0x200 + k)) ∧ res (0x100 + k) true = .ok (.blk 0 (0x100 + k)) ∧
        run.overlaps t.run 0 (.scr 0 (0x100 + k)) (0x100 + k) = false) := by
  decide

/-- A barrier word of two waves, with none and with one arrived; one of no waves. -/
def tBar (x : Nat) : State := bk (tScr 0x80) (fun b => { b with scratch := memPut b.scratch 0x80 (leBytes x 4) })

theorem witness_Barriers :
    let o : Ops := { d := .p 2, a := .a 1, b := .imm8 1 }
    let n : Ops := { a := .imm8 25 }
    let two : State := la (tScr 0) (fun l => { l with nb := 2 })
    let full : State := co (tBar 2) (fun k => { k with trackers := (List.range 64).map (fun i => ⟨⟨0, 0x200 + 4 * i⟩, 0, 0, false⟩) })
    (Issues (tBar 2) hd tC (barUses hd o) ∧ Whole (tBar 2) tC ∧ Quiet (tBar 2) tC) ∧
    (∃ loc, barPlace (tBar 2).run 0 ((tBar 2).run.wordAddr tC o.a) = .ok loc ∧
      ((tBar 0).run.barWord loc % 2 ^ 16 = 0 ∧
       ((tBar 2).run.barWord loc % 2 ^ 16 = 2 ∧ (tBar 2).run.barWord loc / 2 ^ 16 % 2 ^ 15 = 0) ∧
       (∀ t ∈ ((tBar 2).run.core (loc.blk / 4)).trackers, t.loc ≠ loc) ∧ loc.blk = 0 ∧
       (∀ t ∈ (full.run.core 0).trackers, t.loc ≠ loc) ∧ 64 ≤ (full.run.core 0).trackers.length ∧
       ((tBar (0x10002)).run.barWord loc / 2 ^ 16 % 2 ^ 15 + 1 = 2) ∧ ((tBar 2).run.core (loc.blk / 4)).trackers.length < 64 ∧
       decide ((tBar 2).run.barWord loc / 2 ^ 31 = 1) ≠ ((tBar 2).ssrc tC o.b).getLsbD 0)) ∧
    (Issues (tScr 0) hd tC (barUses hd n) ∧ (tScr 0).run.blocks.get? 0 = some ((tScr 0).run.block 0) ∧
      ((tScr 0).run.launchOf ((tScr 0).wv tC)).info.nb ≤ 1) ∧
    (Issues two hd tC (barUses hd n) ∧ Whole two tC ∧ Quiet two tC ∧ 1 < (two.run.launchOf (two.wv tC)).info.nb ∧ two.run.rdCount tC n.a = 25 ∧
      ((two.run.block 0).nbar 1).arr = 0 ∧ two.run.rdCount tC (.imm8 0) = 0 ∧ two.run.rdCount tC (.imm8 26) = 26 ∧
      ((two.run.block 0).nbar 1).ph ≠ (two.ssrc tC (.imm8 1)).getLsbD 0) := by
  refine ⟨by unfold Issues Whole Quiet; decide, got_ex (by decide), by unfold Issues; decide, by unfold Issues Whole Quiet; decide⟩

/-- A wave that waits at the word, and the arrival that turns it over, in DET mode too. -/
theorem witness_Barriers_waiting :
    let s : State := State.at_ (tBar 0x10002) (fun r => { r with waves := r.waves ++ [(1, { r.wave 0 with
      parts := (r.wave 0).parts.map (fun p => { p with park := .bar ⟨0, 0x80⟩ false 2 0xFFFFFFFF#32 }) })] })
    let det := co (la s (fun l => { l with det := true })) (fun k => { k with trackers := [⟨⟨0, 0x80⟩, 0, 1, false⟩] })
    (Issues s hd tC (barUses hd { a := .a 1 }) ∧ s.run.waves.get? 1 = some (s.run.wave 1) ∧ (s.run.wave 1).parts ≠ [] ∧
      ∀ p ∈ (s.run.wave 1).parts, p.park = .bar ⟨0, 0x80⟩ false 2 0xFFFFFFFF#32 ∧ p.mask ≠ 0) ∧
    (Issues det hd tC (barUses hd { a := .a 1 }) ∧ det.run.det (det.wv tC) = true ∧
      ∀ e ∈ (det.run.core 0).trackers, e.loc = ⟨0, 0x80⟩ → e.key ≤ det.run.barKey 0) := by
  unfold Issues; decide

/-! ### The pool, accumulators, roles -/

/-- Eight more registers where the pool has eight and where it has none; a count of none; registers to give back; a request that waits. -/
theorem witness_RegisterPool :
    let s (free : Nat) : State := bk (la tU (fun l => { l with extend := 16 })) (fun b => { b with poolFree := free })
    let o : Ops := { d := .p 2, a := .imm8 8 }
    let g := wv (s 0) (fun w => { w with acquired := 8, valloc := 24 })
    let q := bk (s 0) (fun b => { b with poolQueue := [⟨some (0, 0xFFFFFFFF#32), 0xFFFFFFFF#32, 0, 8⟩] })
    (Issues (s 8) hd tC (usesOf hd o) ∧ (s 8).run.blocks.get? 0 = some ((s 8).run.block 0) ∧ ((s 8).run.block 0).poolQueue = [] ∧
      8 ≤ ((s 8).run.block 0).poolFree ∧ (s 8).run.rdCount tC o.a = 8 ∧ ((s 8).run.launchOf ((s 8).wv tC)).info.extend = 16 ∧
      ((s 8).wv tC).valloc = 16) ∧
    (Issues (s 0) hd tC (usesOf hd o) ∧ ((s 0).run.block 0).poolFree < 8) ∧ (s 8).run.rdCount tC (.imm8 0) = 0 ∧
    (Issues g hd tC (usesOf hd o) ∧ 8 ≤ (g.wv tC).acquired ∧ 8 ≤ (g.wv tC).valloc ∧ (g.wv tC).vEmpty = []) ∧
    (q.run.blocks.get? 0 = some (q.run.block 0) ∧ (q.run.block 0).poolQueue ≠ []) ∧
    (let two := State.at_ (s 0) (fun r => { r with waves := r.waves ++ [(1, { r.wave 0 with acquired := 8 })] })
     Issues two hd tC (usesOf hd o) ∧ (two.run.block 0).poolQueue = [] ∧ (two.run.block 0).poolFree < 8 ∧ two.run.rdCount tC o.a = 8 ∧
       (∃ e ∈ two.run.wavesOf 0, e.1 ≠ 0 ∧ e.2.acquired ≠ 0 ∧ ∀ q ∈ (two.run.block 0).poolQueue, q.wave.map (·.1) ≠ some e.1)) := by
  unfold Issues; decide

theorem witness_AccumulatorAccess :
    let o : Ops := { d := .p 1, a := .c 3 }
    let r : Ops := { d := .v 4, a := .c 3, b := .imm8 63 }
    let w : Ops := { d := .c 3, a := .v 4, b := .imm8 0 }
    let mine := co tU (fun k => { k with accTok := [(3, { holder := .wave 0 })] })
    let other := co tU (fun k => { k with accTok := [(3, { holder := .wave 1 })] })
    (Issues tU hd tC [] ∧ (tU.run.accTok 0 3).holder = .free ∧ (tU.run.accTok 0 3).queue = []) ∧
    (Issues mine hd tC [] ∧ (mine.run.accTok 0 3).holder = .wave 0 ∧ (mine.run.accTok 0 3).queue = []) ∧
    (Issues other hd tC [] ∧ (other.run.accTok 0 3).holder ≠ .wave 0) ∧
    (∀ s ∈ [mine, other], Issues s hd tC (usesOf hd r) ∧ Issues s hd tC (usesOf hd w)) ∧ o.a = .c 3 ∧ Opd.laneReg r.d = true := by
  unfold Issues; decide

/-- Two roles and two variants: each role's outcome, each end of a variant's range. -/
theorem witness_RoleAndPhase :
    let s := la tU (fun l => { l with roles := [⟨0, 16, 1⟩, ⟨0x100, 24, 1⟩], variants := [(100, 0x40), (200, 0x80)] })
    let o (n : Nat) : Ops := { a := .imm8 (BitVec.ofNat 8 n) }
    let held := wv s (fun w => { w with acquired := 8, valloc := 24 })
    (∀ n ∈ [0, 1, 2], Issues s hd tC (usesOf hd (o n))) ∧ Whole s tC ∧
    (s.run.launchOf (s.wv tC)).info.roles[2]? = none ∧ (s.run.launchOf (s.wv tC)).info.roles[1]? = some ⟨0x100, 24, 1⟩ ∧
    (s.wv tC).placed = 16 ∧ s.run.roleHeld 0 = false ∧ s.run.drained 0 = true ∧ held.run.roleHeld 0 = true ∧
    (∀ n ∈ [100, 101, 200, 201], Issues (sAs s 9 (BitVec.ofNat 64 n)) hd tC (usesOf hd { a := .s 9 })) ∧
    (s.run.launchOf (s.wv tC)).info.variants[0]? = some (100, 0x40) ∧ (s.run.launchOf (s.wv tC)).info.variants[1]? = some (200, 0x80) := by
  unfold Issues Whole; decide

/-! ### The tile stream -/

/-- Clause 0 of 4 by 8 FP32 elements, bound to t1, and clause 1 of 8 by 4, bound to t2; wave 0 is the control wave. -/
def cl (rows cols : Nat) : Clause :=
  { op := .tload, rows := rows, cols := cols, ty := .fp32, fmt := 0, srcs := [(.global 0x100400, { rs := cols })], fp := 0, origin := 0x100000, no := 1 }
def tB (f : Block → Block) : State :=
  bk (State.at_ tT (fun r => { r with waves := (0, tU.run.wave 0) :: r.waves })) (fun b => f { b with
    clauses := [(0, cl 4 8), (1, cl 8 4)], handles := [(1, 0), (2, 1)], appends := 2, size := 0x10000 })
def tB0 : State := tB id
def sT (s : State) (n : Nat) (x : Word64) : State := State.at_ s (fun r => r.onWave 30720 (fun w => w.setS n x))

theorem witness_TileAppends :
    let o : Ops := { d := .t 3, a := .t 1, b := .t 2, c := .c 1 }
    let m : Ops := { d := .t 3, a := .t 1, b := .s 5 }
    let free : Ops := { d := .t 3, a := .t 9 }
    let b := tB0.run.block 0
    let s := sT tB0 5 (BitVec.ofNat 64 (3 + 7 * 256))
    (Issues tB0 hd tCT [] ∧ tB0.run.blocks.get? (tB0.wv tCT).blk = some b ∧ b.clauses.length < 96 ∧ b.spill = none) ∧
    pairPast true 3 (.s 61) = none ∧ pairPast true 3 (.s 62) = some 62 ∧
    b.root o.a = some (0, cl 4 8) ∧ b.root o.b = some (1, cl 8 4) ∧ (cl 4 8).cols ≤ (cl 8 4).rows ∧ (tB0.run.accTok 0 1).holder = .free ∧
    (tB0.run.accTok 0 1).queue = [] ∧
    (Issues s hd tCT [] ∧ formRows (s.run.rdScalar 30720 m.b 0 0) = 4 ∧ formCols (s.run.rdScalar 30720 m.b 0 0) = 8 ∧
      (let f := s.run.rdScalar 30720 m.b 0 0
       let last := (formMap f).coord (formRows f - 1) (formCols f - 1)
       last.1 < (cl 4 8).rows ∧ last.2 < (cl 4 8).cols)) ∧
    tewHandles { op := .neg } o = [] ∧ tewHandles { op := .add } o = [o.b] ∧ tewHandles { op := .sel } o = [o.b, o.c] ∧
    ((cl 4 8).rows ≤ (cl 4 8).rows ∧ (cl 4 8).cols ≤ (cl 4 8).cols) ∧ (b.root free.a = none ∧ (tB0.wv tCT).stream = true) := by
  unfold Issues; decide

theorem witness_TileBookkeeping :
    let b := tB0.run.block 0
    let own := State.at_ tB0 (fun r => r.onCore 0 (fun k => { k with accTok := [(3, { holder := .stream 0 })] }))
    let nb := la tB0 (fun l => { l with nb := 1 })
    (Issues tB0 hd tCT [] ∧ tB0.run.blocks.get? (tB0.wv tCT).blk = some b ∧ b.root (.t 1) = some (0, cl 4 8) ∧
      b.clauses.get? 0 = some (cl 4 8) ∧ b.root (.t 9) = none) ∧
    ((tB0.run.accTok 0 3).holder ≠ .stream 0) ∧
    (Issues own hd tCT [] ∧ (own.run.accTok 0 3).holder = .stream 0 ∧ (own.run.accTok 0 3).queue = [] ∧
      ∀ d ∈ (own.run.block 0).demands, (own.run.block 0).reaches 3 d = false) ∧
    (Issues nb hd tCT [] ∧ (nb.run.launchOf (nb.wv tCT)).info.nb = 1) ∧ ((tB0.run.launchOf (tB0.wv tCT)).info.nb = 0) := by
  unfold Issues; decide

/-- The whole of clause 0 into an accumulator and into memory; one row too many; a batch count below and at a batch. -/
theorem witness_TileDemands :
    let own := State.at_ tB0 (fun r => r.onCore 0 (fun k => { k with accTok := [(3, { holder := .stream 0 })] }))
    let s (rows : Nat) : State := sT own 12 (BitVec.ofNat 64 ((rows - 1) * 65536 + 7 * 2 ^ 24))
    let o : Ops := { d := .c 3, a := .t 1, b := .s 12, c := .s 13 }
    let g (rows : Nat) := regionWord ((s rows).run.rdScalar 30720 o.b 0 0)
    let mem : Target := .mem false 0x200000 8 1
    (∀ n ∈ [4, 5], Issues (s n) hd tCT [] ∧ ((s n).run.block 0).root o.a = some (0, cl 4 8)) ∧
    ((g 4).row0 + (g 4).rows ≤ 4 ∧ (g 4).col0 + (g 4).cols ≤ 8) ∧ ¬((g 5).row0 + (g 5).rows ≤ 4) ∧
    ((s 4).run.watchMeets 0 0 false ((s 4).run.writeRanges 0 { root := 0, region := g 4, target := .acc 3, fmt := 0, self := false })).1 = none ∧
    ((s 4).run.watchMeets 0 0 false ((s 4).run.writeRanges 0 { root := 0, region := g 4, target := mem, fmt := 0, self := false })).1 = none ∧
    (∀ n ∈ [3] ++ accsOf ((s 4).run.block 0).clauses 0, ((s 4).run.accTok 0 n).holder = .stream 0) ∧ ((s 4).run.block 0).batches.length < 4 ∧
    pairPast true 2 (.s 62) = none ∧ pairPast true 2 (.s 63) = some 63 ∧
    (let t := tB (fun b => { b with lastClosed := 2, batches := [⟨2, [], .closed, 0⟩] })
     Issues t hd tCT [] ∧ min ((t.run.rdScalar 30720 (.imm8 1) 0 0).setWidth 32).toNat (t.run.block 0).lastClosed = 1 ∧
       ∀ z ∈ (t.run.block 0).batches, 1 < z.no) := by
  unfold Issues; decide

theorem witness_BatchSteps :
    let f : BatchFault := ⟨5, 0, 0x100000, 0, 0, 0⟩
    let with_ (st : BatchState) (ds : List Demand) : State := tB (fun b => { b with lastClosed := 1, batches := [⟨1, ds, st, 0x10⟩] })
    let s (st : BatchState) : State := with_ st []
    let dem : Demand := { root := 0, region := regionWord 0, target := .acc 3, fmt := 0, self := false }
    let sent : Demand := { dem with done := true, out := [f] }
    let tr : StreamTrap := ⟨9, 6, 0x100000, 0, 0x100000, 0, 0, false, none⟩
    let d := tB (fun b => { b with strap := some tr })
    let u := cx d (fun c => { c with tdeleg := 0xFFFF })
    (∀ st ∈ [BatchState.closed, .evaluated, .faulted f, .paused f [0x10]], (s st).run.blocks.get? 0 = some ((s st).run.block 0) ∧
      ((s st).run.block 0).batches = [⟨1, [], st, 0x10⟩] ∧ ((s st).run.block 0).strap = none ∧ ((s st).run.block 0).spill = none) ∧
    ((s .closed).run.evalHalted 0 ⟨1, [], .closed, 0x10⟩ = false) ∧
    (((with_ .evaluated [sent, sent]).run.block 0).batches = [⟨1, [] ++ sent :: [sent], .evaluated, 0x10⟩] ∧ sent.out ≠ []) ∧
    (((with_ (.faulted f) [sent, dem]).run.block 0).batches = [⟨1, [sent, dem], .faulted f, 0x10⟩] ∧ dem.done = false) ∧
    ((s .evaluated).run.controlWave 0 = some 0) ∧
    ((d.run.block 0).strap = some tr ∧ tr.delivered = none ∧ (delegable tr.cls && (d.run.ctx 0).tdeleg.getLsbD tr.cls) = false) ∧
    ((delegable tr.cls && (u.run.ctx 0).tdeleg.getLsbD tr.cls) = true ∧ u.run.controlWave 0 = some 0 ∧ (u.run.wave 0).priv = false ∧
      (u.run.wave 0).inh = false ∧ (u.run.wave 0).life = .live ∧
      (match (u.run.wave 0).nextPart with | some p => p.park == .run | none => false) = true) := by
  decide

/-- How one step of a demand ends, if without an answer to come. -/
def kindOf (s : State) (d : Demand) : Nat :=
  match evDemand s.sys s.run 0 d with | .more _ _ => 0 | .done _ _ _ => 1 | .fault _ _ _ => 2 | .pause _ _ _ _ => 3

set_option maxRecDepth 8000 in
/-- A demand whose evaluation goes on, has its values, meets the end of the address space and a page that is to come; all walkers taken; an answer
that comes. -/
theorem witness_BatchSteps_evaluate :
    let dem : Demand := { root := 0, region := ⟨0, 0, 1, 1⟩, target := .acc 3, fmt := 0, self := false }
    let kept : Demand := { dem with kept := some (⟨0, 0, [[(0x3F800000, 0)]]⟩, 0) }
    let from_ (base : Word64) : State := pend (tB (fun b => { b with clauses := [(0, { cl 4 8 with srcs := [(.global base, { rs := 8 })] })] }))
    let s (d : Demand) : State := tB (fun b => { b with lastClosed := 1, batches := [⟨1, [{ dem with done := true }, d], .closed, 0⟩] })
    let busy := State.at_ (s dem) (fun r => r.onDie 0 (fun x => { x with walks := 64 }))
    let ask : Demand := { dem with asked := some (⟨5, 0, 0x100000, 0, 0, 0⟩, 4) }
    (∀ d ∈ [dem, kept, ask], ((s d).run.block 0).batches = [⟨1, [{ dem with done := true }] ++ d :: [], .closed, 0⟩] ∧ d.done = false ∧
      ((s d).run.block 0).spill = none ∧ ((s d).run.block 0).strap = none ∧
      (s d).run.evalHalted 0 ⟨1, [{ dem with done := true }, d], .closed, 0⟩ = false) ∧
    (s dem).run.walkerFree 0 = true ∧ busy.run.walkerFree 0 = false ∧ dem.asked = none ∧
    kindOf (from_ 0x100400) dem = 0 ∧ kindOf (s kept) kept = 1 ∧ kindOf (from_ (2 ^ 52)) dem = 2 ∧ kindOf (from_ 0x20000000) dem = 3 ∧
    dem.region.row0 + dem.region.rows ≤ 64 ∧ dem.region.col0 + dem.region.cols ≤ 64 := by
  decide

/-- A graph with a clause of every operation over two operands, and an element whose addition raises an enabled exception. -/
theorem witness_BatchSteps_values :
    let c (ty : ElemTy) (op : COp) (xs : List Nat) : Clause :=
      { op := op, rows := 1, cols := 1, ty := ty, fmt := BitVec.ofNat 96 ty.code.toNat, srcs := xs.map (fun i => (.clause i, { rs := 1 })), fp := 0x1F00, origin := 0, no := 1 }
    let cv : TcvtMod := { ty := .fp16, fixed := false, ol := false, olfault := false, olsp := false, rm := .rne, sat := false }
    let g : Tbl Clause := [(0, c .fp32 .leaf []), (1, c .int8 .leaf []), (2, c .fp32 (.tmma false false) [0, 0]), (3, c .int32 (.tmma false false) [1, 1]),
      (4, c .fp32 (.tew .add .rne 0) [0, 0]), (5, c .fp32 (.tred true false) [0]), (6, c .fp16 (.tcvt cv 0) [0]), (7, c .pb8 (.tcvt cv 0) [0]),
      (8, c .fp32 .tmap [0])]
    let e : Ev := { run := tU.run, bid := 0, g := g, boxes := [(4, ⟨0, 1, 0, 1⟩)], tiles := [(0, ⟨0, 0, [[(0x7F800001, 0)]]⟩)] }
    (∀ k ∈ [0, 1, 2, 3, 4, 5, 6, 7, 8], ElemTy.isPb (clauseAt e.g k).ty = true → fmtTy (clauseAt e.g k).fmt = (clauseAt e.g k).ty.code) ∧
    ElemTy.isPb (clauseAt e.g 7).ty = true ∧ ElemTy.isByteInt (clauseAt e.g 1).ty = true ∧ ElemTy.isByteInt (clauseAt e.g 0).ty = false ∧
    (∀ k ∈ [2, 3, 4, 5, 6, 7, 8], (clauseAt e.g k).srcs ≠ []) ∧
    ((clauseAt e.g 0).cols ≤ 2 ^ 0 ∧ 5 ≤ 2 ^ 3 ∧ 2 ^ (3 - 1) < 5) ∧
    (let b := e.box 4
     (b.r0 ≤ 0 ∧ 0 < b.r1 ∧ b.c0 ≤ 0 ∧ 0 < b.c1) ∧
     (fmt32.add ((clauseAt e.g 4).ctl .rne) (e.single 0 0 0).1 (e.single 0 0 0).1).2 &&& bits (clauseAt e.g 4).fp 8 5 ≠ 0) := by
  decide

/-! ### Transactions, current, tasks -/

def tick (n : Nat) : TickRef := ⟨0, n, 1, n + 1, [], 1, 0x100000, false⟩
def tk (n : Nat) (merged : Option Nat) : Ticket :=
  { die := 0, entry := n, gen := 1, wave := 0, lines := [(0x1002, false)], beat := 0, batch := 0, round := none, merged := merged, sent := merged.isSome }
def tTx : State := pt (wv tU (fun w => { w with slot0 := some (tick 0), slot1 := some (tick 1) })) (fun p =>
  { p with tickets := [tk 0 (some 0), tk 1 none], itin := 1, beat := 65536 })
def tV (n : Nat) : State := sAs tTx 5 (ticketValue n (tick n))
def tile8 : List Tile := List.replicate 8 ⟨0x100200, BitVec.ofNat 64 (15 * 65536), false⟩

theorem witness_Transactions :
    let o : Ops := { d := .s 6, a := .s 5 }
    let q : Ops := { a := .s 8 }
    let dcl (n : Nat) : State := wv (sAs (tAt (2 ^ 52 - 16)) 9 (BitVec.ofNat 64 (15 * 65536))) (fun w => { w with decl := tile8.take n })
    let det := la tU (fun l => { l with det := true })
    let mine := co det (fun k => { k with ctok := some 0, ctokWait := [1] })
    let other := co det (fun k => { k with ctok := some 1 })
    let busy := wv mine (fun w => { w with remote := [farW] })
    let one := wv (tV 1) (fun w => { w with slot0 := none })
    (∀ n ∈ [7, 8], Issues (dcl n) hd tC [⟨1, q.a, 2, false, false, none⟩]) ∧ pairPast false 2 q.a = none ∧
    ((dcl 7).wv tC).decl.length < 8 ∧ 8 ≤ ((dcl 8).wv tC).decl.length ∧
    (let s := dcl 7
     let v := s.ssrc tC q.a
     let hi := s.run.rdScalar 0 q.a 1 0
     v.toNat < 2 ^ 52 ∧ v.toNat + bits hi 48 12 * bits hi 0 32 + (bits hi 32 16 + 1) ≤ 2 ^ 52) ∧
    (Issues tTx hd tC (usesOf hd { d := .s 6 }) ∧ (tTx.wv tC).slot0.isSome = true ∧ (tTx.wv tC).slot1.isSome = true) ∧
    (let s := wv tU (fun w => { w with decl := tile8 })
     Issues s hd tC (usesOf hd { d := .s 6 }) ∧ (s.wv tC).slot0.isSome = false ∧ (lineSet (s.wv tC).decl).length ≤ 4096 ∧
       freeEntry (s.run.part 0) 0 = some 0 ∧
       ∃ r pas, translateTiles s.sys s.run tC (lineSet (s.wv tC).decl) = .ok r pas ∧ ∀ x ∈ pas, isAper x.2 = false) ∧
    ((tU.wv tC).findTicket (tU.ssrc tC o.a) = none ∧ Issues tU hd tC (usesOf hd o) ∧ Whole tU tC) ∧
    (∀ n ∈ [0, 1], Issues (tV n) hd tC (usesOf hd o) ∧ ((tV n).wv tC).findTicket ((tV n).ssrc tC o.a) = some (n == 1, tick n)) ∧
    ((tV 0).run.ticketOf 0 (tick 0) = some (tk 0 (some 0)) ∧ (tk 0 (some 0)).granted ((tV 0).run.part 0).tickets = true ∧
      ((tV 0).wv tC).active = none ∧ ((tV 0).wv tC).txWaiting tC.m = none ∧ (tick 0).dead = false ∧ (tick 0).order ≤ (tick 1).order ∧ Whole (tV 0) tC ∧ Quiet (tV 0) tC) ∧
    ((tV 1).run.ticketOf 0 (tick 1) = some (tk 1 none) ∧ (tk 1 none).granted ((tV 1).run.part 0).tickets = false ∧
      ((one.wv tC).findTicket (one.ssrc tC o.a) = some (true, tick 1) ∧ (one.wv tC).slot false = none ∧ Issues one hd tC (usesOf hd o) ∧
        one.run.ticketOf 0 (tick 1) = some (tk 1 none))) ∧
    (tTx.run.waves.get? 0 = some (tTx.wv tC) ∧ (tTx.wv tC).slot true = some (tick 1) ∧ tTx.run.ticketOf 0 (tick 1) = some (tk 1 none) ∧
      (tk 1 none).beat + 65536 ≤ (tTx.run.part 0).beat) ∧
    (Issues tU hd tC [] ∧ tU.run.det (tU.wv tC) = false) ∧
    (Issues det hd tC [] ∧ det.run.det (det.wv tC) = true ∧ (det.run.core 0).ctok = none) ∧
    (Issues mine hd tC [] ∧ mine.run.tokenHolder 0 = some 0 ∧ (mine.wv tC).unperformed = false ∧ (mine.run.core 0).ctokWait ≠ []) ∧
    (Issues busy hd tC [] ∧ busy.run.tokenHolder 0 = some 0 ∧ (busy.wv tC).unperformed = true) ∧
    (Issues other hd tC [] ∧ (other.run.core 0).ctok = some 1 ∧ other.run.tokenHolder 0 ≠ some 0) := by
  unfold Issues Whole Quiet
  exact ⟨by decide, by decide, by decide, by decide, by decide, by decide, ⟨by decide, by decide, by decide, by decide, ok_ex (by decide)⟩,
    by decide, by decide, by decide, by decide, by decide, by decide, by decide, by decide, by decide, by decide⟩

/-- Levels 0, 6 and 7; no cycles; a midpoint at each bound; a pair with and without a partner; the ends of a wait. -/
theorem witness_CurrentBalance :
    let o (n l : Nat) : Ops := { d := .s 6, a := .imm8 (BitVec.ofNat 8 n), b := .imm8 (BitVec.ofNat 8 l) }
    let mate := State.at_ tU (fun r => { r with
      waves := r.waves ++ [(24, { tU.wv tC with blk := 4, parts := (tU.wv tC).parts.map (fun p => { p with park := .pair 7 6 }) })]
      blocks := r.blocks ++ [(4, { r.block 0 with index := 1 })] })
    let idle := State.at_ tU (fun r => { r with
      waves := r.waves ++ [(24, { tU.wv tC with blk := 4 })], blocks := r.blocks ++ [(4, { r.block 0 with index := 1 })] })
    let owed := wv tU (fun w => { w with pwrOwed := true })
    let pw := State.at_ (parked tU (.pwrwait 10 (some 0) 6)) (fun r => r.onPair 0 (fun q => { q with mis := 50 }))
    let burn := parked tU (.burn 0 3)
    let cond := co tU (fun k => { k with pwrCond := true })
    (∀ x ∈ [(5, 0), (5, 6), (5, 7), (0, 1)], Issues tU hd tC (usesOf hd (o x.1 x.2)) ∧ tU.run.rdCount tC (o x.1 x.2).a = x.1 ∧
      tU.run.rdCount tC (o x.1 x.2).b = x.2) ∧
    (Whole tU tC ∧ Quiet tU tC ∧ (tU.run.pair (pairOf 0)).derated = false ∧ (tU.run.pairMis 0).natAbs < 5 ∧ 0 ≤ (tU.run.pairMis 0).natAbs) ∧
    tU.run.partner 0 = none ∧
    (mate.run.partner 0 = some 24 ∧ (Issues mate hd tC (usesOf hd (o 5 1)) ∧ (mate.run.wave 24).inPair = some (0xFFFFFFFF#32, 7, 6))) ∧
    (idle.run.partner 0 = some 24 ∧ (idle.run.wave 24).inPair = none ∧ Issues idle hd tC (usesOf hd (o 5 1))) ∧
    ((tU.run.pair 0).bad = false ∧ ((State.at_ tU (fun r => r.onPair 0 (fun q => { q with suspect := 4096 }))).run.pair 0).bad = true) ∧
    (∃ k : Core, k.burns = [] ∧ k.autoLevel = 0 ∧ k.nx = 0) ∧
    (cond.run.waves.get? 0 = some (cond.wv tC) ∧ (cond.run.core 0).pwrCond = true ∧ (cond.run.core 0).balctl.getLsbD 10 = false ∧ (cond.wv tC).pwrTaken = false ∧ (cond.wv tC).priv = false ∧
      cond.run.boundary 0 = some (0xFFFFFFFF#32, 0x100000)) ∧ (owed.wv tC).pwrOwed = true ∧
    (burn.run.waves.get? 0 = some (burn.wv tC) ∧ ((burn.wv tC).partAt (laneBit 3)).map (·.park) = some (.burn 0 3) ∧ 0 ≤ burn.run.clk) ∧
    (pw.run.waves.get? 0 = some (pw.wv tC) ∧ (pw.wv tC).inPwrwait = some (10, some 0, 6) ∧ (∀ p ∈ (pw.wv tC).parts, p.mask ≠ 0) ∧
      0 ≤ pw.run.clk) := by
  unfold Issues Whole Quiet
  exact ⟨by decide, by decide, by decide, by decide, by decide, by decide, ⟨{}, rfl, rfl, rfl⟩, by decide, by decide, by decide, by decide⟩

/-- A deque with 255 and with 256 entries; entries of this launch between others; victims at both ends of the core numbers. -/
theorem witness_Deque :
    let full (n : Nat) : State := co tU (fun k => { k with deque := List.replicate n (1, 9) })
    let some_ := co tU (fun k => { k with deque := [(1, 5), (0, 6), (0, 7), (1, 8)] })
    let o : Ops := { d := .p 1, a := .s 3 }
    let q : Ops := { d := .s 3, a := .s 4, c := .p 1 }
    let st := parked tU (.steal 0 3 1 0xFFFFFFFF#32)
    (Issues tU hd tC (usesOf hd o) ∧ Quiet tU tC) ∧ ((full 255).run.core 0).deque.length < 256 ∧ 256 ≤ ((full 256).run.core 0).deque.length ∧
    (Issues some_ hd tC [⟨0, q.d, 1, true, false, none⟩] ∧ (some_.run.core 0).deque = [(1, 5), (0, 6)] ++ (0, 7) :: [(1, 8)] ∧
      (∀ e ∈ [((1 : Nat), (8 : Word64))], e.1 ≠ (some_.run.blockOf (some_.wv tC)).launch)) ∧
    (Issues (sAs tU 4 1279) hd tC [⟨0, q.d, 1, true, false, none⟩, ⟨1, q.a, 1, false, false, none⟩] ∧ ((sAs tU 4 1279).ssrc tC q.a).toNat < 1280) ∧
    (1280 ≤ ((sAs tU 4 1280).ssrc tC q.a).toNat) ∧ tU.sys.partOf (dieOf 0) = tU.run.partOf 0 ∧
    (st.run.waves.get? 0 = some (st.wv tC) ∧ ((st.wv tC).inSteal 0).isSome = true ∧
      (some_.run.core 0).deque = [(1, 5)] ++ (0, 6) :: [(0, 7), (1, 8)]) := by
  unfold Issues Quiet
  refine ⟨by decide, ?_, ?_, by decide, by decide, by decide, by decide, by decide⟩
  · exact Nat.lt_of_le_of_lt (Nat.le_of_eq (List.length_replicate (n := 255) (a := ((1 : Nat), (9 : Word64))))) (by decide)
  · exact Nat.le_of_eq (List.length_replicate (n := 256) (a := ((1 : Nat), (9 : Word64)))).symm

set_option maxRecDepth 8000 in
/-- A role the launch has and one it has not; a quota of 32 and of 31; an object that is 0, unaligned, done; a bin of age 4096. -/
theorem witness_Continuations :
    let o : Ops := { d := .p 1, a := .v 0, b := .s 4, x := 3 }
    let u : List Use := [⟨1, o.a, 16, false, false, none⟩, ⟨2, o.b, 1, false, false, none⟩]
    let q : Ops := { d := .s 3, a := .s 8, b := .imm8 0 }
    let b : Bin := { blk := 0, role := 0, entry := 0, recs := [⟨[], 0⟩], since := 0 }
    let s := State.at_ (co tU (fun k => { k with bins := [(2, b)] })) (fun r => { r with clk := 4096 })
    let f := co tU (fun k => { k with bins := [(2, { b with due := true, asked := true, got := true })] })
    (Issues tU hd tC u ∧ (tU.run.launchOf (tU.wv tC)).info.roles.length = 1 ∧ ((sAs tU 4 4).ssrc tC o.b).toNat % 8 ≠ 0 ∧
      (tC.pc + 12 * o.x.signExtend 64 - tU.run.codeBase (tU.wv tC)).toNat < (tU.run.launchOf (tU.wv tC)).info.size) ∧
    (Quiet tU tC ∧ (tU.wv tC).contKept tC.m = none ∧ tU.run.ctxs.get? 0 = some (tU.run.ctx 0) ∧ tC.act.count ≤ (tU.run.ctx 0).quota ∧
      tC.act.count ≤ (tU.run.core 0).binRoom 0 0 36) ∧
    (Issues tU hd tC (usesOf hd q) ∧ (tU.ssrc tC q.a).toNat = 0) ∧
    (let t := tAt 0x100200
     Issues t hd tC (usesOf hd q) ∧ (t.ssrc tC q.a).toNat = 0x100200 ∧
       ∃ r ts, preTranslate t.sys t.run 0 0 (t.run.cidOf 0) { priv := (t.wv tC).priv } true tC.pc (tC.act.toList.map (fun l => (l, 0x100200))) = .ok r ts ∧
         (match ts with | (_, x) :: _ => decide (isAper x.pa = false ∧ (t.ssrc tC q.b).toNat ≤ memRead t.run.mem x.pa 4) | [] => false) = true) ∧
    ((s.run.core 0).bins.get? 2 = some b ∧ b.recs ≠ [] ∧ b.since + 4096 ≤ s.run.clk) ∧
    ((f.run.core 0).bins.get? 2 = some { b with due := true, asked := true, got := true } ∧
      f.run.binReady { b with due := true, asked := true, got := true } = true ∧ f.run.freeSlot 0 = some 1 ∧
      f.run.blocks.get? 0 = some (f.run.block 0)) := by
  unfold Issues Quiet
  exact ⟨by decide, by decide, by decide, ⟨by decide, by decide, ok_ex (by decide)⟩, by decide, by decide⟩

/-! ### Collectives, services, the steps of a wave -/

/-- The nonzero bytes of a descriptor at 0x100200: group 3, a generation, SEND, RECV, one element. -/
def descAt0 (op : Byte) : List (Nat × List Byte) :=
  [(0x100200, [op]), (0x100204, [3, 0, 1]), (0x10020A, [0x20]), (0x100212, [0x21]), (0x100218, [1])]
def desc : Desc := ⟨0, 0, .fp32, 3, 1, 0x200000, 0x210000, 1, 0⟩
def grp : Group := { members := [0, 1], rank := 0, gen := 1 }
def coll (st : Option (Nat × Nat × Nat)) : Coll := ⟨1, 0, 3, 1, 0, false, 0, 0, .fp32, 0x200000, 0x210000, 1, 0, st, [], [], 0, none, []⟩
def tColl (op : Byte) : State := pt (memAs (tAt 0x100200) (descAt0 op)) (fun p => { p with groups := [(3, grp)], routes := [(1, [2])] })
def tHas (st : Option (Nat × Nat × Nat)) : State := pt (sAs tU 5 64) (fun p => { p with groups := [(3, grp)], colls := [(0, coll st)] })

set_option maxRecDepth 8000 in
/-- A good descriptor and one whose operation code is no operation; a handle that names a collective, with and without its status, and one
that names none. -/
theorem witness_Collectives :
    let o : Ops := { d := .s 5, a := .s 8 }
    let q : Ops := { d := .s 6, a := .s 5 }
    let s := tColl 0
    let bad := tColl 5
    let xs := tC.act.toList.map (fun l => (l, 0x100200))
    (Issues s hd tC (usesOf hd o) ∧ Quiet s tC ∧ Issues bad hd tC (usesOf hd o) ∧ Quiet bad tC) ∧
    (∃ r ts, globalChecks s.sys s.run tC xs 64 true false true = .ok r ts ∧ ((∀ t ∈ ts, isAper t.2.pa = false) ∧ ts ≠ [])) ∧
    (readDescriptor (memBytes s.run.mem 0x100200 64) = some desc ∧ (s.run.part 0).groups.get? 3 = some grp ∧ desc.fits grp = true ∧
      desc.sizes 2 0 = (4, 4) ∧ collRanges (s.wv tC) (s.run.block 0) tC.act desc 4 4 = none ∧ (s.run.part 0).colls.get? 0 = none) ∧
    (s.run.reachable 0 1 = true ∧ (pt s (fun p => { p with routes := [] })).run.reachable 0 1 = false ∧ desc.gen = grp.gen) ∧
    (let ab := pt s (fun p => { p with aborts := [(3, 1, 0, 1, 2)], peers := [⟨3, 1, 0, 1, (1, 0, .fp32, 1, 0)⟩] })
     ab.run.reachable 0 1 = true ∧ grp.accepted = 0 ∧
     (ab.run.part 0).aborts.find? (fun n => n.1 = desc.group && n.2.1 = desc.gen && n.2.2.1 = grp.accepted) = some (3, 1, 0, 1, 2) ∧
     (ab.run.part 0).peers.find? (fun n => n.group = desc.group && n.gen = desc.gen && n.k = grp.accepted &&
       n.fields ≠ (desc.op, desc.red, desc.ty, desc.count, desc.root)) = some ⟨3, 1, 0, 1, (1, 0, .fp32, 1, 0)⟩) ∧
    ((tHas none).run.collLate 0 (coll none) = false ∧
      (State.at_ (tHas none) (fun r => { r with clk := 2 ^ 40 })).run.collLate 0 (coll none) = true ∧ (coll none).out = []) ∧
    readDescriptor (memBytes bad.run.mem 0x100200 64) = none ∧
    (∃ r ts, preTranslateRange s.sys s.run 0 0 0 {} tC.pc tC.act desc.send 4 = .ok r ts ∧ ts ≠ []) ∧
    (∃ r ts, preTranslateRange s.sys s.run 0 0 0 { write := true } tC.pc tC.act desc.recv 4 = .ok r ts ∧ ts ≠ []) ∧
    (∀ st ∈ [none, some (0, 0, 0xFFFF)], Issues (tHas st) hd tC (usesOf hd q) ∧ ((tHas st).ssrc tC q.a).toNat = 64 ∧
      ((tHas st).run.part 0).colls.get? (64 % 64) = some (coll st) ∧ (coll st).use = 64 / 64 ∧ (coll st).ctx = (tHas st).run.cidOf 0) ∧
    (Issues tU hd tC (usesOf hd q) ∧ (tU.run.part 0).colls.get? 0 = none) ∧
    ((coll none).status = none ∧ ([[], leBytes 7 4] : List (List Byte)).length = grp.members.length ∧ ((coll none).desc.sizes 2 1).1 = 4) := by
  unfold Issues Quiet
  exact ⟨by decide, ok_ex (by decide), by decide, by decide, by decide, by decide, by decide, ok_ex (by decide), ok_ex (by decide), by decide,
    by decide, by decide⟩

/-- A result that wave 0 awaits; an FWCALL that waits for its reply. -/
def pend0 (rs : List RegRef) (k : PendKind) : Pend := { id := 4, regs := rs, kind := k, acq := false, mask := 0xFFFFFFFF#32, pc := 0x100000 }
def tCall (svc : Nat) (a : List Word64) : State :=
  wv (parked tP (.fwcall svc a 0)) (fun w => { w with
    pend := [pend0 [⟨false, 120, 0xFFFFFFFF#32⟩, ⟨false, 121, 0xFFFFFFFF#32⟩] .local] })
def bbe : BBEntry := { seq := 5, ty := 3, tenant := 0, src := 0, us := 0, detail := 0 }

theorem witness_Services :
    let ready : State := { State.reset with sys := { State.reset.sys with boot := .ready }, run := { State.reset.run with bb := [bbe] } }
    (tU.run.issuer hd = some tC ∧ (tU.wv tC).priv = false) ∧
    (Issues tP hd tC [⟨0, .s 120, 2, true, false, none⟩, ⟨1, .s 122, 4, false, false, none⟩] ∧ (tP.wv tC).priv = true) ∧
    (∀ n ∈ [0, 1, 2, 3, 4], let s := tCall n [0, 299, 0, 0]
      s.run.waves.get? 0 = some (s.wv tC) ∧ ((s.wv tC).inFwcall.map (·.2)) = some (n, [0, 299, 0, 0], 0) ∧
      (s.wv tC).pend.find? (fun x => x.id = 4) = some (pend0 [⟨false, 120, 0xFFFFFFFF#32⟩, ⟨false, 121, 0xFFFFFFFF#32⟩] .local)) ∧
    (pend0 [⟨false, 120, 0xFFFFFFFF#32⟩, ⟨false, 121, 0xFFFFFFFF#32⟩] .local).far = [] ∧
    (ready.run.bb = [] ++ bbe :: [] ∧ bbe.seq = 5 ∧ bbe.seq % 4096 = 4101 % 4096 ∧ bbe.part = none) ∧
    (ready.sys.ready = true ∧ 0 ∈ ready.sys.innQps ∧ 7 ∉ ready.sys.innQps) ∧ State.reset.sys.ready = false := by
  unfold Issues; decide

/-- GREFORM's bitmap in memory of the device, and outside the address space. -/
theorem witness_Services_bitmap :
    ((tCall 3 [3, 2 ^ 52, 0, 0]).run.callBytes tU.sys 0 (2 ^ 52) 512).isNone = true ∧
    ((tCall 3 [3, 0x200000, 0, 0]).run.callBytes tU.sys 0 0x200000 512).isSome = true :=
  ⟨by decide +kernel, by decide +kernel⟩

/-- A load of which two lanes come from another device, and an atomic; writes beyond the device, one of them a control message; a wave that
has ended; a fault of a part, while another part's handler runs too; a late trap in user and in supervisor state; a block that is done. -/
theorem witness_WaveSteps :
    let lanes : List FarLane := [{ lane := 0, pa := 3 * 2 ^ 50, va := 0x1000 }, { lane := 4, pa := 3 * 2 ^ 50 + 4, va := 0x1004 }]
    let far := pend0 [⟨true, 3, 0xFFFFFFFF#32⟩] (.load lanes)
    let here := pend0 [⟨true, 3, 0xFFFFFFFF#32⟩] .local
    let atom := pend0 [⟨true, 3, 0xFFFFFFFF#32⟩] (.atomic lanes)
    let e2 : FarWrite := ⟨0x2000, 0x2000, some (1, 0), 0, false⟩
    let s := wv tU (fun w => { w with stall := 5, pend := [far], remote := [farW, e2], acks := 2 })
    let flow := pt s (fun p => { p with flows := [(1, { unacked := [(0, 2, .load 0 4)] })] })
    let g := wv tU (fun w => { w with pend := [here] })
    let q := wv tU (fun w => { w with pend := [{ here with after := 9 }] })
    let a := wv tU (fun w => { w with pend := [atom] })
    let obj := wv tU (fun w => { w with pend := [pend0 [] (.object false lanes)] })
    let e := wv tU (fun w => { w with life := .ended })
    let l : LateTrap := ⟨7, 0x20, 0, 0x100000, 0, [], 0, 0, true⟩
    let f := parked tU (.fault [0x10] false [(0, 0x100000)] 0)
    let busy := wv tU (fun w => { w with handler := 1#32, parts := [⟨0, 0, none, 1#32, 0, 0, .run⟩, ⟨1, 1, none, 4#32, 0, 0, .fault [0x10] false [] 0⟩] })
    let t := wv tU (fun w => { w with late := [l] })
    let tp := wv tP (fun w => { w with late := [l] })
    let done : State := { tU with run := { tU.run with waves := [] } }
    (s.run.waves.get? 0 = some (s.wv tC) ∧ (s.wv tC).pend.find? (fun q => q.id = far.id) = some far ∧ far.far = lanes ∧ (s.wv tC).inFwcall = none ∧
      far.after ≤ s.run.clk ∧ (s.wv tC).remote = [farW] ++ e2 :: [] ∧ (∀ x ∈ [farW], x.pa ≠ e2.pa) ∧ farW.msg = none ∧ e2.msg = some (1, 0) ∧
      ((flow.run.part (flow.run.partOf 0)).flows.get? 1).isSome = true) ∧
    ((g.wv tC).pend.find? (fun q => q.id = here.id) = some here ∧ here.far = []) ∧
    ((q.wv tC).pend = [{ here with after := 9 }] ∧ q.run.clk < 9) ∧
    ((a.wv tC).pend.find? (fun q => q.id = atom.id) = some atom ∧ atom.far.filter (fun x => (0x10#32 : Lanes).getLsbD x.lane) ≠ []) ∧
    ((e.wv tC).life = .ended ∧ (e.wv tC).stream = false ∧ (e.wv tC).acks = 0 ∧ (e.wv tC).remote = [] ∧ (e.wv tC).pend = []) ∧
    (tU.wv tC).life ≠ .ended ∧ (∀ p ∈ (tU.wv tC).pend, p.id ≠ 4) ∧
    ((f.wv tC).stream = false ∧ (f.wv tC).handler = 0 ∧ ((f.wv tC).parts.find? (fun p => p.mask.getLsbD 2 && Park.isFault p.park)).isSome = true) ∧
    ((busy.wv tC).handler ≠ 0 ∧ ∃ p, (busy.wv tC).parts.find? (fun p => p.mask.getLsbD 2 && Park.isFault p.park) = some p ∧
      (busy.wv tC).groupOf p &&& (busy.wv tC).handler = 0) ∧
    ((t.wv tC).late = l :: [] ∧ (t.wv tC).priv = false ∧ t.run.boundary 0 = some (0xFFFFFFFF#32, 0x100000)) ∧
    ((tp.wv tC).priv = true ∧ (tp.wv tC).late = l :: [] ∧ tp.run.boundary 0 = some (0xFFFFFFFF#32, 0x100000)) ∧
    ((obj.wv tC).pend.find? (fun q => q.id = 4) = some (pend0 [] (.object false lanes))) ∧
    (tU.run.blockDone 0 = false ∧ done.run.blockDone 0 = true ∧ done.run.launches.get? (done.run.block 0).launch = some placeLaunch) := by
  refine ⟨by decide, by decide, by decide, by decide, by decide, by decide, by decide, by decide, ⟨by decide, _, rfl, by decide⟩, by decide, by decide, by decide⟩

/-! ### Outside requests, ports, queues -/

/-- The last byte of die 0 and the first of another partition's die; a blackout; a store into a seal; duplicates and gaps of a flow. -/
theorem witness_OutsideRequests :
    let y := tU.sys
    let open_ : Sys := { y with bnd := [0, 0, 0, 0] }
    let dark := cx tU (fun c => { c with mig := .blackout })
    let z : AtomicReq := { cas := false, op := .add, ty := .u32, addr := 0x200000, opnd := 1 }
    let qp := pt tU (fun p => { p with qps := [(7, { ctx := 0, expect := 4 })], dedup := [⟨.port 2, 2, 3, 5, none⟩], grants := [1], routes := [(1, [2])] })
    let miss := cx qp (fun c => { c with missing := [0x20] })
    (y.owns 0 (2 ^ 38) = false ∧ (y.stopped 0 (2 ^ 38)).isSome = true ∧ open_.stopped 0 (2 ^ 38) = none ∧ y.owns 0 0x200000 = true) ∧
    ((dark.run.ctxs.find? (fun e => e.2.part == 0 && e.2.mig == .blackout)).isSome = true ∧ (dark.run.ctx 0).hold.foldl (fun n j => n + heldSpace j) (heldSpace (.remoteDataRequest 2 (.store 0x200000 [7]))) ≤ 2 ^ 23) ∧
    (∀ e ∈ tU.run.ctxs, ¬(e.2.part = 0 ∧ e.2.mig = .blackout)) ∧
    outerBad y tU.run 0 0x200000 4 = none ∧ outerBad y tU.run 0 (2 ^ 38) 1 = some .nomap ∧ (atomicNew z 0).isSome = true ∧
    (let x : Flow := { ordered := true, expect := 4 }
     (3 < x.expect) ∧ ¬(4 < x.expect ∨ 4 ∈ x.seen ∨ ∃ e ∈ x.buffer, e.1 = 4) ∧ x.expect < 5) ∧
    (∀ x ∈ (tU.run.part 0).dedup, ¬(x.port = 2 ∧ x.tag = 3)) ∧
    ((tU.run.part 0).dedup.filter (fun e => e.site = ReqWay.site y tU.run 0x200000 (.fabric 2))).length
      < (ReqWay.site y tU.run 0x200000 (.fabric 2)).room ∧
    (qp.run.part 0).dedup = [] ++ ⟨.port 2, 2, 3, 5, none⟩ :: [] ∧ (AtomSite.slice 0).room = 512 ∧ (AtomSite.port 0).room = 1024 ∧
    (qp.run.granted 0 2 = true ∧ qp.run.granted 0 3 = false ∧ 0x200000 + 4 ≤ 2 ^ 40 ∧ 2 ^ 40 < 2 ^ 40 - 3 + 4 ∧
      fabricBad y tU.run 0 0x200000 1 = none ∧ fabricBad y tU.run 0 (2 ^ 40 - 3) 4 = some .nomap) ∧
    (qp.run.qp 0 7 = some { ctx := 0, expect := 4 } ∧ (3 < 4 ∧ 4 < 5) ∧ qp.run.missingOf 0 0x200000 1 = [] ∧ miss.run.missingOf 0 0x200000 1 ≠ [] ∧
      (match rdmaAt qp.sys qp.run 0 0x200000 true with | .ok pa => pa == 0x200000 | .error _ => false) = true ∧
      (match rdmaAt qp.sys qp.run 0 (2 ^ 52) false with | .ok _ => false | .error f => f == .nomap) = true) ∧
    tU.run.qp 0 7 = none := by
  decide

/-- A request that does not fit what is left of the hold buffer. -/
theorem witness_OutsideRequests_full :
    (∀ n, heldSpace (.remoteDataRequest 2 (.store 0x200000 (List.replicate n 7))) = flitSpace n) ∧ 2 ^ 23 < flitSpace (2 ^ 23) := by
  refine ⟨fun n => ?_, by decide⟩
  simp only [heldSpace, List.length_replicate]

/-- The eighth replay of a flit that fails and the one after it; three attempts within 10 ms and just beyond; a port mapped out; an atomic in
flight on a port, with another of the set to go by, and a control message. -/
theorem witness_Ports :
    let s (x : Port) : State := State.at_ tU (fun r => { r with ports := [(2, x)] })
    let at_ (k : Nat) : State := s { up := false, tries := [21000000 + k, 5, 0] }
    let a : AtomicReq := { cas := false, op := .add, ty := .u32, addr := 0x200000, opnd := 1 }
    let z : FarLane := { lane := 0, pa := 3 * 2 ^ 50, va := 0, via := 2, dev := 1, req := some a }
    let two := pt (wv tU (fun w => { w with pend := [pend0 [] (.atomic [z])] })) (fun p => { p with
      routes := [(1, [2, 3])], flows := [(7, { pins := [(0, 3)], unacked := [(0, 2, .load 0 4)] })], aper := [(0, 0xA001 + 7 * 65536)] })
    let down := two.run.onPort 2 (fun x => { x with up := false })
    ((tU.run.port 2).up = true ∧ (tU.run.port 2).mapped = true) ∧
    (((s { replays := 7, failed := 4 }).run.port 2).replays < 8 ∧ ((s { replays := 7, failed := 4 }).run.port 2).failed = 4) ∧
    (8 ≤ ((s { replays := 8, failed := 4 }).run.port 2).replays ∧ ((s { replays := 8, failed := 4 }).run.port 2).failed = 4) ∧
    (((s { expect := 4 }).run.port 2).expect = 4 ∧ 3 < ((s { expect := 4 }).run.port 2).expect) ∧
    (((at_ 0).run.port 2).up = false ∧ ((at_ 0).run.port 2).mapped = true ∧ ((at_ 0).run.port 2).tries = [21000000, 5, 0] ∧
      21000000 ≤ 0 + 21000000 ∧ 0 + 21000000 < 21000001) ∧ ((s { up := false, mapped := false }).run.port 2).mapped = false ∧
    (z ∈ two.run.atomicsOut ∧ (down.dataPort 0 0 1 (z.pa / 256)).isSome = true ∧
      ((two.run.part 0).flows.get? 7).isSome = true ∧
      ({ pins := [(0, 3)], unacked := [(0, 2, .load 0 4)] : Flow }.portIn (down.flowWays 0 0 7).1 7 (down.flowWays 0 0 7).2).isSome = true) := by
  decide

def cmd (ty : Nat) (addr : Word64) (args : List Word64) : Cmd := { k := 0, words := BitVec.ofNat 64 ty :: addr :: 0 :: args }
def qAt (cs : List Cmd) (f : Queue → Queue) : State :=
  State.at_ tU (fun r => { r with queues := [(5, f { qcb := 0x300000, mapped := true, ring := { base := 0x310000, length := 1024, read := true, tag := true }, cmds := cs })] })
/-- The nonzero bytes of a launch record at 0x320000: code, one role of one wave, a rectangle of W by 1, one neighbourhood, no stream. -/
def recAt (w : Byte) : List (Nat × List Byte) :=
  [(0x320002, [0x10]), (0x320009, [0x10]), (0x320010, [w, 1]), (0x320014, [1]), (0x32001C, [1]), (0x320024, [16, 0, 1]),
   (0x320060, [0xFF, 0xFF, 0xFF, 0xFF])]

theorem witness_QueueCommands :
    let w (n : Nat) : State := memAs (qAt [] id) [(0x300010, leBytes n 1)]
    let starts (c : Cmd) (s : State) : Prop := (s.run.queue 5).startable = some c ∧ s.run.ctxRunning 5 = some 0 ∧ c.malformed = false ∧ c.doneAt = 0
    let l (n : Nat) : State := memAs (qAt [cmd 1 0x320000 [1, 2, 3, 4, 5]] id) (recAt (BitVec.ofNat 8 n))
    let st (c : Cmd) : Cmd := { c with st := .started }
    let ended : State := State.at_ (qAt [{ st (cmd 1 0x320000 []) with launch := some 0 }] id) (fun r => { r with
      blocks := [], waves := [], launches := [(0, { placeLaunch with ended := 2, queue := some (5, 0) })] })
    ((w 1).run.queues.get? 5 = some ((w 1).run.queue 5) ∧ (w 1).run.ctxOfQueue 5 = some 0 ∧ ((w 1).run.ctx 0).fetching = true ∧
      memRead (w 1).run.mem 0x300010 8 = ((w 1).run.queue 5).rptr + 1 ∧ ((w 1).run.queue 5).logn ≤ 16 ∧ ((w 1).run.ctx 0).mig = .off ∧
      recordReach (w 1).sys (w 1).run 0 ((w 1).run.queue 5) 0 = .ok 0x310000) ∧
    (∀ e ∈ [(0x20000000, Reach.wait), (2 ^ 38, .bad)],
      let ring : Capability := { base := BitVec.ofNat 64 e.1, length := 1024, read := true, tag := true }
      let s := pend (qAt [] (fun x => { x with ring := ring }))
      recordReach s.sys s.run 0 (s.run.queue 5) 0 = e.2 ∧ ((s.run.queue 5).ring.tag = true ∧ (s.run.queue 5).ring.read = true ∧
        e.1 + 64 ≤ (s.run.queue 5).ring.base.toNat + (s.run.queue 5).ring.length.toNat ∧ e.1 < 2 ^ 64)) ∧
    (((w 17).run.queue 5).rptr + 2 ^ ((w 17).run.queue 5).logn < memRead (w 17).run.mem 0x300010 8) ∧
    (∀ c ∈ [cmd 0 0 [], cmd 2 0x200000 [0x210000, 4], cmd 3 0x200000 [1], cmd 4 0x200000 [7]], starts c (qAt [c] id)) ∧
    ((cmd 9 0 []).malformed = true ∧ 4 < (cmd 9 0 []).ty ∧ (cmd 2 0x200000 [0x210000, 3]).malformed = true ∧
      (cmd 9 0 []).doneWaits tU.sys tU.run 0 = false) ∧
    (∀ a ∈ [0x200000, 0x210000], ∀ wr, reachOf tU.sys (qAt [] id).run 0 a wr = .ok a) ∧
    (piecesOf 0x200000 4 = [0x200000] ∧ piecesOf (2 ^ 38) 4 = [2 ^ 38] ∧ reachOf tU.sys (qAt [] id).run 0 (2 ^ 38) false = .bad) ∧
    (let far : Cmd := { k := 0, words := [3, 0x200000, 0x20000000, 1], st := .complete 0 }
     let near : Cmd := { k := 0, words := [3, 0x200000, 0x210000, 1], st := .complete 0 }
     far.doneAt % 8 = 0 ∧ ({ far with st := .started }).doneWaits tU.sys (pend tU).run 0 = true ∧
     reachOf tU.sys (pend tU).run 0 far.doneAt true = .wait ∧ near.doneAt ≠ 0 ∧ reachOf tU.sys (pend tU).run 0 near.doneAt true = .ok 0x210000) ∧
    (∀ n ∈ [2, 3], starts (cmd 1 0x320000 [1, 2, 3, 4, 5]) (l n) ∧ reachOf (l n).sys (l n).run 0 0x320000 false = .ok 0x320000) ∧
    (recordReserved (memBytes (l 2).run.mem 0x320000 256) = false ∧ (launchRecord (memBytes (l 2).run.mem 0x320000 256)).bad = false ∧
      (launchRecord (memBytes (l 2).run.mem 0x320000 256)).need = false) ∧ (launchRecord (memBytes (l 3).run.mem 0x320000 256)).bad = true ∧
    (let s := qAt [st (cmd 2 0x200000 [0x210000, 4])] id
     ((s.run.queue 5).cmds.find? (fun d => d.k = 0 && d.ty = 2 && d.st = .started)).isSome = true ∧
       copyWaits s.sys s.run 0 (st (cmd 2 0x200000 [0x210000, 4])) = false ∧ copyWaits s.sys (pend s).run 0 (st (cmd 2 0x20000000 [0x210000, 4])) = true) ∧
    (let s := qAt [st (cmd 3 0x200000 [1])] id
     let t := memAs s [(0x200000, [1])]
     ((s.run.queue 5).cmds.find? (fun d => d.k = 0 && d.ty = 3 && d.st = .started)).isSome = true ∧
       (∀ d ∈ (s.run.queue 5).cmds, d.st = .started) ∧ memRead s.run.mem 0x200000 8 < 1 ∧ 1 ≤ memRead t.run.mem 0x200000 8) ∧
    (ended.run.launchOver 0 = true ∧ ((ended.run.queue 5).cmds.find? (fun d => d.k = 0 && d.ty = 1 && d.st = .started)).isSome = true ∧ tU.run.launchOver 0 = false) := by
  decide

/-- A queue that waits with its class's minimum free and with none; a loan to give back; a neighbourhood of two blocks, and nothing to place. -/
theorem witness_SlotsAndPlacing :
    let wait : State := qAt [] (fun q => { q with mapped := false, waiting := true })
    let min1 := pt wait (fun p => { p with mins := [1] })
    let lent : State := State.at_ (memAs min1 [(0x300010, [1])]) (fun r => { r with queues :=
      [(4, { qcb := 0x330000, mapped := true, cls := 3, loan := some 0 }), (5, { qcb := 0x300000, waiting := true })] })
    let go : State := State.at_ tU (fun r => { r with waves := [], blocks := [], launches := [(0, { placeLaunch with next := 0 })] })
    (wait.run.queues.get? 5 = some (wait.run.queue 5) ∧ (wait.run.queue 5).waiting = true ∧ wait.run.mayMap 0 0 = true ∧
      (wait.run.part 0).minOf 0 ≤ wait.run.inMin 0 0 ∧ wait.run.inCommon 0 < (wait.run.part 0).common) ∧
    (min1.run.inMin 0 0 < (min1.run.part 0).minOf 0) ∧ (tU.run.mayMap 0 9 = false) ∧
    (min1.run.classWaits 0 1 = false ∧ let full : State := State.at_ (pt wait (fun p => { p with slots := 1, mins := [0, 1] })) (fun r => { r with
        queues := r.queues ++ [(6, { qcb := 0x340000, mapped := true, waiting := false, cls := 2 })] })
      (full.run.queue 5).mapped = false ∧ (full.run.part 0).minOf 0 ≤ full.run.inMin 0 0 ∧ (full.run.part 0).common ≤ full.run.inCommon 0 ∧
      full.run.classWaits 0 1 = false ∧ full.run.inMin 0 1 < (full.run.part 0).minOf 1 ∧ (full.run.queue 6).slot = 0) ∧
    (lent.run.reclaims 4 = true ∧ wait.run.reclaims 5 = false) ∧
    (go.sys.valid = true ∧ go.run.nextPlace go.sys 0 = some (0, [0, 1]) ∧ go.run.launches.get? 0 = some { placeLaunch with next := 0 } ∧
      (∀ e ∈ go.run.waves, e.1 < 30720 → e.2.stream = false)) ∧ tU.run.nextPlace tU.sys 0 = none := by
  decide

/-! ### Pre-emption, migration, the Inn -/

/-- %PREEMPT with a STEP and DONE (R487), HALTTIME as at reset. -/
def pre (step : Nat) (d : Bool) : Word64 := BitVec.ofNat 64 (0x140000 + step * 16 + (if d then 256 else 0))

/-- A drain and steps 2 and 3 with a remote access under way; the halt's deadline; the save's; a wave that owes its PREEMPT trap. -/
theorem witness_Preemption :
    let s (step : Nat) : State := wv (cx tU (fun c => { c with preempt := pre step false })) (fun w => { w with remote := [farW] })
    let late : State := State.at_ (s 2) (fun r => { r with clk := 2100 * 20 })
    let save : State := State.at_ (cx tU (fun c => { c with preempt := pre 3 false })) (fun r => { r with clk := 12 * 2100000 })
    let p := State.at_ (wv tU (fun w => { w with preTrap := true })) (fun r => { r with cur := ⟨1, 0, none⟩ })
    (∀ n ∈ [0, 2], (s n).run.ctxs.get? 0 = some ((s n).run.ctx 0) ∧ ((s n).run.ctx 0).step = n) ∧
    (∃ e ∈ (s 0).run.waves, ((s 0).run.block e.2.blk).ctx = 0 ∧ Wave.settled e.2 = false) ∧
    (∀ e ∈ (s 0).run.waves, ∀ p ∈ e.2.parts, p.park = .run) ∧
    (∀ n ∈ [1, 2, 3, 4], let t := cx (s 0) (fun c => { c with preempt := BitVec.ofNat 64 (0x140000 + n) })
      bits (t.run.ctx 0).preempt 0 3 = n ∧ (t.run.ctx 0).step = 0 ∧ bits ((s 0).run.ctx 0).preempt 0 3 ≠ n) ∧
    (late.run.haltDue 0 = true ∧ (s 2).run.haltDue 0 = false) ∧ (save.run.saveLate 0 = true ∧ tU.run.saveLate 0 = false) ∧
    (save.run.ctx 0).frozen = none ∧ ((tU.run.wave 0).preTrap = false) ∧
    (p.run.waves.get? 0 = some (p.wv tC) ∧ (p.wv tC).preTrap = true ∧ (p.wv tC).priv = false ∧ p.run.cur.wave ≠ 0 ∧
      (match (p.wv tC).nextPart with | some q => q.park == .run | none => false) = true) ∧
    (let f := cx tU (fun c => { c with frozen := some 2 })
     f.run.ctxs.get? 0 = some (f.run.ctx 0) ∧ (f.run.ctx 0).frozen ≠ none) := by
  decide

/-- A context with nothing saved and done with a step, and one still in it; a partition with one context, two, and none running. -/
theorem witness_RestoreAndSwitch :
    let s (step : Nat) (d : Bool) : State := cx tU (fun c => { c with preempt := pre step d })
    let two (s : State) : State := State.at_ s (fun r => { r with ctxs := r.ctxs ++ [(1, { r.ctx 0 with tenant := 1, running := false })] })
    let idle := pt (cx tU (fun c => { c with running := false })) (fun p => { p with runCtx := none })
    let gone := cx tU (fun c => { c with preempt := pre 0 true, frozen := some 2 })
    ((s 2 true).run.ctxs.get? 0 = some ((s 2 true).run.ctx 0) ∧ ((s 2 true).run.ctx 0).frozen = none ∧ ((s 2 true).run.ctx 0).running = true ∧
      (s 2 true).sys.valid = true ∧ ((s 2 true).run.ctx 0).done = true ∧ ((s 2 true).run.ctx 0).saved = [] ∧ ((s 2 true).run.ctx 0).savedCores = []) ∧
    (((s 2 false).run.ctx 0).step ≠ 0 ∧ ((s 2 false).run.ctx 0).done = false) ∧
    ((tU.run.part 0).runCtx = some 0 ∧ (tU.run.ctx 0).done = false ∧ tU.run.nextCtx 0 (some 0) = some 0) ∧
    ((two tU).run.nextCtx 0 (some 0) = some 1) ∧
    ((gone.run.part 0).runCtx = some 0 ∧ (gone.run.ctx 0).done = true ∧ gone.run.nextCtx 0 (some 0) = none) ∧
    ((idle.run.part 0).runCtx = none ∧ idle.run.nextCtx 0 none = some 0 ∧ (idle.run.ctx 0).saved = []) := by
  decide

def tMig (m : MigState) (ds : List Nat) : State := cx tU (fun c => { c with mig := m, dirty0 := ds })

/-- Every stage of a migration; a page of the bitmap that the tables map; an access under way beyond the device; a page still missing whose
request is older than FTO, and one that is not. -/
theorem witness_Migration :
    let busy := pt (tMig .rounds []) (fun p => { p with colls := [(0, coll none)] })
    let stop := cx (tMig .stopping []) (fun c => { c with preempt := pre 2 true })
    let due := cx (tMig .rounds [0x20]) (fun c => { c with roundDue := true })
    let far := wv (tMig .rounds []) (fun w => { w with remote := [farW] })
    let miss := cx (pend (tMig .moved [])) (fun c => { c with missing := [0x2000], pulls := [(0x2000, 0)] })
    let flt (n : Nat) : State := State.at_ (wv miss (fun w => { w with parts := w.parts.map (fun p => { p with park := .fault [0x2000] false [] 0 }) }))
      (fun r => { r with clk := n })
    (∀ m ∈ [MigState.off, .rounds, .blackout], (tMig m [0x20]).run.ctxs.get? 0 = some ((tMig m [0x20]).run.ctx 0) ∧
      ((tMig m [0x20]).run.ctx 0).mig = m ∧ ((tMig m [0x20]).run.ctx 0).roundDue = false ∧ ((tMig m [0x20]).run.ctx 0).dirty = [0x20]) ∧
    (due.run.ctx 0).roundDue = true ∧ tU.run.farBusy 0 = false ∧ far.run.farBusy 0 = true ∧
    (match walk2 (tMig .rounds [0x20]).run.mem (0x20 * 65536) false levels 0x10000 with
      | .ok f => (tMig .rounds [0x20]).sys.owns 0 (f.addr + 0x20 * 65536 % f.size) | .error _ => false) = true ∧
    (busy.run.collBusy 0 = true ∧ stop.run.collBusy 0 = false ∧ (stop.run.ctx 0).done = true ∧ 2 ≤ (stop.run.ctx 0).step ∧
      (stop.run.ctx 0).frozen = none) ∧
    (0x2000 ∈ (miss.run.ctx 0).missing ∧ 0x21 ∉ (miss.run.ctx 0).missing) ∧ tU.run.lostAt tU.sys (.part 0 2) = none ∧
    (flt 0).run.lostAt (flt 0).sys (.part 0 2) = none ∧ ((flt 0).run.ctx 0).frozen = none := by
  decide

/-- Where a missing page's descriptor would be: a level-3 entry under tables down to it. -/
theorem witness_Migration_descriptor :
    let m : SMap Byte := memWrite (memWrite (memWrite (memWrite [] 0x10000 0x20001 8) 0x20000 0x30001 8) 0x30008 0x40001 8) 0x40000 0x200040 8
    descAt m (0x20 * 65536) levels 0x10000 = some (0x40000, 65536) ∧
    tU.sys.owns 0 (bits (BitVec.ofNat 64 (memRead m 0x40000 8) : Word64) 16 36 * 65536) = true := by
  decide

def tInn (f : Sys → Sys) : State := { State.reset with sys := f { State.reset.sys with pmap := 0x1E4, boot := .ready } }

/-- Maps of one partition, of pairs that meet and of a pair that does not; shares that meet, touch, and fill the tier. -/
theorem witness_FirewallWrites :
    let s := tInn id
    let run := { s with run := tU.run }
    let one : PartReq := ⟨[0, 0, 0, 0], [], []⟩
    let far : PartReq := ⟨[0, 1, 2, 0], [], []⟩
    let half := tInn (fun y => { y with lp := [BitVec.ofNat 64 (64 * 256 + 50 * 65536), 0, 0, 0] })
    (s.sys.ready = true ∧ shapeOk one.pd = true ∧ shapeOk far.pd = false ∧ (∀ e ∈ s.run.ctxs, e.2.running = false)) ∧
    (run.sys.valid = true ∧ ∃ e ∈ run.run.ctxs, e.2.running = true ∧ ∃ d, d < 4 ∧ d ∈ run.sys.diesOf e.2.part ∧
      mates (mapOf run.sys) d ≠ mates one.pd d) ∧
    (State.reset.sys.ready = false ∧ s.sys.splits 3 = true) ∧
    (half.sys.partOf 0 = 0 ∧ half.sys.partOf 1 = 1 ∧ bits (half.sys.lp.getD 0 0) 8 8 = 64 ∧ (63 : Nat) < bits (half.sys.lp.getD 0 0) 0 8 + 64 ∧ ¬((64 : Nat) < bits (half.sys.lp.getD 0 0) 0 8 + 64) ∧
      (64 + 61 ≤ 125) ∧ 125 < 64 + 62 ∧ 50 + 50 ≤ 100 ∧ 100 < 50 + 51) ∧
    (∀ n, n < 4 → mates [1, 1, 3, 3] n ≠ [] → (mates ([1, 1, 3, 3] : List (BitVec 2)) n).headD n = if n < 2 then 0 else 2) := by
  decide

/-- Slot A good; slot A's version below the counter; neither good; a stage that fails; recovery. -/
theorem witness_BootChain :
    let old : Image := ⟨true, 0, 9⟩
    let bad : Image := ⟨false, 1, 9⟩
    let passes (y : Sys) (i : Image) : Prop := i.sigOk = true ∧ y.rollback ≤ i.version
    let y := State.reset.sys
    (passes y y.slotA ∧ ∀ i ∈ y.stages, passes y i) ∧ (¬passes y old ∧ passes y y.slotB) ∧ ¬passes y bad ∧
    (let z := { y with stages := [⟨true, 1, 2⟩] ++ bad :: [⟨true, 1, 3⟩] }
     (∀ x ∈ [(⟨true, 1, 2⟩ : Image)], passes z x) ∧ ¬passes z bad) ∧
    (y.boot ≠ .recovery ∧ ({ y with boot := .recovery }).boot = .recovery) := by
  decide

/-- Each threshold and the value beside it. -/
theorem witness_HealthSteps :
    let frz := tU
    let ecc := State.at_ tU (fun r => { r with eccAt := [(0, 1)] })
    let q := qAt [cmd 0 0 []] id
    ((104 : Nat) < 105 ∧ (105 : Nat) ≤ 109 ∧ (109 : Nat) < 110 ∧ (50 : Nat) ≤ 50 ∧ 50 < (51 : Nat)) ∧
    (0 ∈ tU.sys.diesOf 0 ∧ 1 ∉ tU.sys.diesOf 0) ∧ (tU.run.down = false ∧ ({ tU.run with down := true }).down = true) ∧
    (frz.run.ctxs.get? 0 = some (frz.run.ctx 0) ∧ (frz.run.ctx 0).frozen = none ∧ (frz.run.ctx 0).running = true ∧
      (frz.run.ctx 0).part = frz.sys.partOf 0 ∧ 0 ∉ frz.run.outSlices) ∧
    (SMap.get 0 tU.run.eccAt 0 = 0 ∧ tU.run.sickSlices = []) ∧ (SMap.get 0 ecc.run.eccAt 0 = 0 + 1 ∧ ecc.run.us < 0 + 1000000) ∧
    (q.run.queues.get? 5 = some (q.run.queue 5) ∧ (q.run.queue 5).cmds.find? (fun d => d.k = 0) = some (cmd 0 0 []) ∧ (cmd 0 0 []).doneAt = 0) := by
  decide

/-! ## Single steps

The values expected are worked by hand from the rules named. -/

/-- Lane l of vector register n, a scalar, a predicate of wave 0 after an instruction. -/
def vOut (i : Instr) (s : State) (n l : Nat) (x : Word) : Bool := after (exec i s) (fun t => rowAt ((t.run.wave 0).vRow n) l == x)
def sOut (i : Instr) (s : State) (n : Nat) (x : Word64) : Bool := after (exec i s) (fun t => (t.run.wave 0).sReg n == x)
def pOut (i : Instr) (s : State) (n : Nat) (x : Lanes) : Bool := after (exec i s) (fun t => (t.run.wave 0).pReg n == x)
/-- Wave 0 has entered a supervisor handler with this %SCAUSE. -/
def traps (i : Instr) (s : State) (cause : Word) : Bool := after (exec i s) (fun t => (t.run.wave 0).priv && (t.run.wave 0).scause == cause)
/-- v2 and v3 hold two values. -/
def v2 (a b : Word) : State := vAs (vAs tU 2 a) 3 b
def o23 : Ops := { d := .v 4, a := .v 2, b := .v 3 }
/-- Every lane holds its own number in v2. -/
def tIds : State := wv tU (fun w => w.setV 2 0xFFFFFFFF#32 (fun l => BitVec.ofNat 32 l))

/-- R145: the sum wraps and the carry goes to C; .sat clamps. -/
theorem test_iadd_wraps : (vOut (.iadd hd { t := .u32, co := true } { o23 with c := .p 1 }) (v2 0xFFFFFFFF 1) 4 31 0 &&
    pOut (.iadd hd { t := .u32, co := true } { o23 with c := .p 1 }) (v2 0xFFFFFFFF 1) 1 0xFFFFFFFF#32) = true := by decide
theorem test_isub_saturates : vOut (.isub hd { t := .s32, sat := true } o23) (v2 0x80000000 1) 4 0 0x80000000 = true := by decide
/-- R146: signedness. -/
theorem test_imin_signed : (vOut (.imin hd .s32 o23) (v2 0xFFFFFFFF 1) 4 0 0xFFFFFFFF && vOut (.imin hd .u32 o23) (v2 0xFFFFFFFF 1) 4 0 1) = true := by
  decide
/-- R148: an amount of the width or more leaves the sign. -/
theorem test_shr_by_40 : vOut (.shr hd .s32 o23) (v2 0x80000000 40) 4 0 0xFFFFFFFF = true := by decide
theorem test_rot_right : vOut (.rot hd { t := .u32, right := true } o23) (v2 0x00000001 4) 4 0 0x10000000 = true := by decide
/-- R149, R150. -/
theorem test_clz_of_zero : vOut (.clz hd .u32 { d := .v 4, a := .v 2 }) (v2 0 0) 4 0 32 = true := by decide
theorem test_bfe_signed : vOut (.bfe hd .s32 o23) (v2 0x00000080 0x0404) 4 0 0xFFFFFFF8 = true := by decide
theorem test_bfi : vOut (.bfi hd .u32 { o23 with c := .v 5 }) (vAs (v2 0xF 3) 5 0x0804) 4 0 0xF3 = true := by decide
/-- R152, R153, R154. -/
theorem test_isetp_unsigned : pOut (.isetp hd { t := .u32, cmp := .lt } { d := .p 1, a := .v 2, b := .v 3 }) (v2 1 0xFFFFFFFF) 1 0xFFFFFFFF#32 = true := by
  decide
theorem test_lea : vOut (.lea hd { t := .u32, n := 2 } o23) (v2 0x100 3) 4 0 0x10C = true := by decide
theorem test_imulh : vOut (.imulh hd .s32 o23) (v2 0xFFFFFFFF 1) 4 0 0xFFFFFFFF = true := by decide
theorem test_imad_source_is_destination : vOut (.imad hd .s32 { d := .v 2, a := .v 2, b := .v 3, c := .v 2 }) (v2 7 3) 2 0 28 = true := by decide
/-- A scalar of .s32 is sign-extended (R140). -/
theorem test_scalar_extends : sOut (.iadd hd { t := .s32 } { d := .s 4, a := .s 2, b := .imm8 255 }) tU 4 0xFFFFFFFFFFFFFFFF = true := by decide

/-- R171: 1 + 2^-24 is a tie, to even; R174: the minimum of the zeros is -0. -/
theorem test_fadd_ties_to_even : vOut (.fadd hd { t := .f32 } o23) (v2 0x3F800000 0x33800000) 4 0 0x3F800000 = true := by decide
theorem test_fmul_packed : vOut (.fmul hd { t := .f16 } o23) (v2 0x3C004000 0x40003C00) 4 0 0x40004000 = true := by decide
theorem test_fmin_of_zeros : vOut (.fmin hd { t := .f32 } o23) (v2 0 0x80000000) 4 0 0x80000000 = true := by decide
set_option maxRecDepth 4000 in
theorem test_fsqrt : vOut (.fsqrt hd { t := .f32 } { d := .v 4, a := .v 2 }) (v2 0x40800000 0) 4 0 0x40000000 = true := by decide
/-- An enabled invalid operation traps, FPX in class 6, and D keeps its value (R168). -/
theorem test_fadd_traps : after (exec (.fadd hd { t := .f32 } o23) tFp) (fun t => (t.run.wave 0).priv && bits (t.run.wave 0).scause 0 4 = 6 &&
    rowAt ((t.run.wave 0).vRow 4) 0 == 0) = true := by decide
/-- R180: 1000 is beyond E4M3's 448. -/
theorem test_cvt_saturates : vOut (.cvt hd { dst := .e4m3, src := .fp32, rm := .rne, sat := true } { d := .v 4, a := .v 2 }) (v2 0x447A0000 0) 4 0 0x7E = true := by
  decide

/-- R112, R113, R114, R115, on the lane numbers. -/
theorem test_shfl_xor : (vOut (.shfl hd { mode := .xor, f := 0 } { d := .v 4, a := .v 2, b := .imm8 1 }) tIds 4 6 7) = true := by decide
theorem test_shfl_down_at_the_end : (vOut (.shfl hd { mode := .down, f := 0 } { d := .v 4, a := .v 2, b := .imm8 1 }) tIds 4 31 31) = true := by decide
theorem test_vred_adds : (vOut (.vred hd { t := .u32, op := .add, step := 0 } { d := .v 4, a := .v 2 }) tIds 4 17 496) = true := by decide
theorem test_vscan_exclusive : (vOut (.vscan hd { t := .u32, op := .add, excl := true } { d := .v 4, a := .v 2 }) tIds 4 4 6) = true := by decide
theorem test_vbal : sOut (.vbal hd { d := .s 4, a := .p 15 }) tU 4 0xFFFFFFFF = true := by decide
theorem test_vfirst_of_none : sOut (.vfirst hd { d := .s 4, a := .p 1 }) tU 4 0xFFFFFFFFFFFFFFFF = true := by decide
theorem test_movs_get_lane : sOut (.movsGet hd { d := .s 4, a := .v 2, b := .imm8 9 }) tIds 4 9 = true := by decide
/-- R134 in a step from the fetch on; a guard that is false in every lane does nothing. -/
theorem test_movi_step : run1 0x8000000003F00000000979C1 (fun t => rowAt ((t.run.wave 0).vRow 9) 5 == 0x3F800000) = true := by decide
theorem test_movi_never : run1 0x8000000003F000000009F9C1 (fun t => rowAt ((t.run.wave 0).vRow 9) 5 == 0 && ((t.run.wave 0).parts.all (fun p => p.pc == 0x10000C))) = true := by
  decide

/-- R105: two instructions back; R108: lanes wait at k; R107: the last lanes end the wave. -/
theorem test_bra : after (exec (.bra hd (-2)) tU) (fun t => (t.run.wave 0).parts.all (fun p => p.pc == 0xFFFE8)) = true := by decide
theorem test_regang : after (exec (.regang hd 7) tU) (fun t => (t.run.wave 0).live == 0xFFFFFFFF#32) = true := by decide
set_option maxRecDepth 4000 in
theorem test_exit : after (exec (.exit hd) tU) (fun t => (t.run.waves.get? 0).all (fun w => w.life = .ended)) = true := by decide
theorem test_brx_unaligned : traps (.brx hd { a := .v 2 }) (v2 2 0) (7 + 1 * 256) = true := by decide
/-- R204, R205, R61: classes 2, 1, 0 and 3 with their sub-causes; %SEPC behind a TRAP, at a BRK. -/
theorem test_trap : after (exec (.trap hd 17) tU) (fun t => (t.run.wave 0).scause == 0x1102#32 && (t.run.wave 0).sepc == 0x10000C) = true := by decide
theorem test_brk : after (exec (.brk hd 5) tU) (fun t => (t.run.wave 0).scause == 0x0501#32 && (t.run.wave 0).sepc == 0x100000) = true := by decide
/-- R60: an FWCALL outside supervisor state is ILLOP PRIV. -/
theorem test_privileged_in_user_state : after (step (wv (State.reset.withFetchWord 96 0x000000000030000000007D02) (fun w =>
    { w with sup := [], handler := 0 }))) (fun t => (t.run.wave 0).priv && bits (t.run.wave 0).scause 0 16 = 0x0403) = true := by decide
theorem test_illop_step : run1 0x7E0F (fun t => (t.run.wave 0).scause == 0x0103#32 && (t.run.wave 0).sepc == 0x100000) = true := by decide

set_option maxRecDepth 8000 in
/-- R253, R252: bytes as stored, little-endian; R283: what the lanes found and left. -/
theorem test_st : after (exec (.st hd { size := .b32 } { d := .s 9, a := .s 8, b := .imm8 0 }) (sAs (tAt 0x100200) 9 0x11223344)) (fun t =>
    memGet t.run.mem 0x100200 == 0x44 && memGet t.run.mem 0x100203 == 0x11 && memGet t.run.mem 0x100204 == 0) = true := by decide
set_option maxRecDepth 8000 in
theorem test_ld_sign_extends : sOut (.ld hd { size := .b8, sx := true } { d := .s 9, a := .s 8, b := .imm8 0 }) (memAs (tAt 0x100200) [(0x100200, [0x80])]) 9
    0xFFFFFFFFFFFFFF80 = true := by decide
set_option maxRecDepth 8000 in
theorem test_atom_scalar : after (exec (.atom hd { op := .add, ty := .u32 } { d := .s 9, a := .s 8, b := .imm8 0, c := .imm8 1 })
    (memAs (tAt 0x100200) [(0x100200, [5])])) (fun t => (t.run.wave 0).sReg 9 == 5 && memGet t.run.mem 0x100200 == 6) = true := by decide
/-- R252: an address that is not a multiple of the width traps. -/
theorem test_ld_unaligned : after (exec (.ld hd { size := .b32 } { d := .v 3, a := .s 8, b := .imm8 0 }) (tAt 0x100202)) (fun t =>
    (t.run.wave 0).priv && bits (t.run.wave 0).scause 0 4 = 7 && rowAt ((t.run.wave 0).vRow 3) 0 == 0) = true := by decide
set_option maxRecDepth 4000 in
/-- R225, R222: the word and the stepped address. -/
theorem test_sts :
    let s := wv (vAs (tScr 0x80) 2 9) (fun w => w.setP 3 1#32 (fun _ => true))
    (match stsEff { pred := 3 } { size := .b32, form := .post } { a := .a 1, b := .v 2, x := 4 } s.sys s.run { tC with act := 1#32 } with
      | .ok r _ => memGet (r.block 0).scratch 0x80 == 9 && rowAt ((r.wave 0).aRow 1) 0 == 0x84#32
      | _ => false) = true := by decide
/-- R230: the one wave expected turns the phase and goes on. -/
theorem test_bar : after (exec (.bar hd { d := .p 2, a := .a 1 }) (tBar 1)) (fun t => memGet (t.run.block 0).scratch 0x83 == 0x80 &&
    (t.run.wave 0).pReg 2 == 0xFFFFFFFF#32 && (t.run.wave 0).parts.all (fun p => p.pc == 0x10000C)) = true := by decide
/-- R123: eight registers more. R472: the core's deque. -/
theorem test_racq : after (exec (.racqTry hd { d := .p 2, a := .imm8 8 }) (bk (la tU (fun l => { l with extend := 8 })) (fun b => { b with poolFree := 8 })))
    (fun t => (t.run.wave 0).valloc = 24 && (t.run.block 0).poolFree = 0 && (t.run.wave 0).pReg 2 == 0xFFFFFFFF#32) = true := by decide
theorem test_dqpush : after (exec (.dqpush hd { d := .p 1, a := .imm8 9 }) tU) (fun t => (t.run.core 0).deque == [(0, 9)]) = true := by decide
/-- R403, R404: the first ticket of die 0. -/
theorem test_txsub : after (exec (.txsub hd { d := .s 6 }) (wv tU (fun w => { w with decl := tile8.take 1 }))) (fun t =>
    (t.run.wave 0).slot0.isSome && (t.run.part 0).tickets.length = 1 && (t.run.wave 0).decl == []) = true := by decide
/-- R372: one clause of the form's shape; R385: a closed batch of one demand. -/
theorem test_tload : after (exec (.tload hd { ty := .fp32, mc := false, sp := false } { d := .t 5, a := .s 8 }) (sT tB0 10 (BitVec.ofNat 64 (3 + 7 * 256))))
    (fun t => (t.run.block 0).clauses.length = 3 && ((t.run.block 0).root (.t 5)).any (fun e => e.2.rows = 4 && e.2.cols = 8)) = true := by decide
theorem test_tforce : after (exec (.tforce hd true { d := .c 3, a := .t 1, b := .s 12, c := .s 13 })
    (sT (State.at_ tB0 (fun r => r.onCore 0 (fun k => { k with accTok := [(3, { holder := .stream 0 })] }))) 12 (BitVec.ofNat 64 (3 * 65536 + 7 * 2 ^ 24))))
    (fun t => (t.run.block 0).batches.length = 1 && (t.run.block 0).lastClosed = 1 && (t.run.wave 30720).sReg 13 == 1) = true := by decide

/-- A map of one partition closes no boundary; a closed boundary counts the request it discards. -/
theorem test_fwpmap : after (exec (.fwpmapWrite ⟨[0, 0, 0, 0], [], []⟩) (tInn id)) (fun t => t.sys.bnd == [0, 0, 0, 0] && t.sys.pmap == 0x100) = true := by decide
theorem test_drop_counts : after (exec (.remoteDataRequest 0 (.load (2 ^ 38) 4)) tU) (fun t => t.sys.bnd.any (fun x => bits x 16 16 = 1) && t.run.out == []) = true := by
  decide

end Sys2Proof.Tests
end

section
/-! The firewall registers (R27, R524 to R526): what the fields of their words hold, what a map of partitions names, when the LPDDR-6
shares stand together, and all that a step can do to these registers. -/

namespace Sys2Proof.Machine

/-! ## Fields of words -/

/-- A field of a word that is written as a number. -/
theorem bits_ofNat (w x lo n : Nat) (h : x < 2 ^ w) : bits (BitVec.ofNat w x) lo n = x / 2 ^ lo % 2 ^ n := by
  simp [bits, BitVec.extractLsb'_toNat, Nat.mod_eq_of_lt h, Nat.shiftRight_eq_div_pow]

/-- A bit that lies outside the field that `setBits` writes. -/
theorem getLsbD_setBits_of_out {w : Nat} (x : BitVec w) (lo n v i : Nat) (h : i < lo ∨ lo + n ≤ i) :
    (setBits x lo n v).getLsbD i = x.getLsbD i := by
  have hm : (BitVec.ofNat w ((2 ^ n - 1) * 2 ^ lo)).getLsbD i = false := by
    rw [BitVec.getLsbD_ofNat, Nat.testBit_mul_two_pow, Nat.testBit_two_pow_sub_one]
    rcases h with h | h
    · simp [h]
    · simp [show ¬ i - lo < n by omega]
  by_cases hi : i < w
  · simp only [setBits, BitVec.getLsbD_or, BitVec.getLsbD_and, BitVec.getLsbD_not, hm, hi]
    simp
  · simp [BitVec.getLsbD_of_ge _ _ (Nat.le_of_not_lt hi)]

/-- A field that lies apart from the one that `setBits` writes. -/
theorem bits_setBits_of_apart {w : Nat} (x : BitVec w) (lo n v a k : Nat) (h : a + k ≤ lo ∨ lo + n ≤ a) :
    bits (setBits x lo n v) a k = bits x a k := by
  refine congrArg BitVec.toNat (BitVec.eq_of_getLsbD_eq fun i hi => ?_)
  simp only [BitVec.getLsbD_extractLsb', hi, decide_true, Bool.true_and]
  exact getLsbD_setBits_of_out x lo n v _ (by omega)

/-- The fields of a share register: base, size, bandwidth, and a reserved rest that reads 0. -/
theorem bits_lpWord (b z w : Nat) (hb : b < 256) (hz : z < 256) (hw : w < 256) :
    bits (lpWord b z w) 0 8 = b ∧ bits (lpWord b z w) 8 8 = z ∧ bits (lpWord b z w) 16 8 = w ∧ bits (lpWord b z w) 24 40 = 0 := by
  have h : b + z * 256 + w * 65536 < 2 ^ 64 := by omega
  refine ⟨?_, ?_, ?_, ?_⟩ <;> rw [lpWord, bits_ofNat _ _ _ _ h] <;> omega

/-- A boundary register as a write leaves it: CLOSED, and nothing else. -/
theorem bndWord_fields (c : Bool) : (bndWord c).getLsbD 0 = c ∧ bits (bndWord c) 1 15 = 0 ∧ bits (bndWord c) 32 32 = 0 := by
  cases c <;> decide

/-- An entry of a list that is made die by die. -/
theorem getD_map_range {α : Type} (f : Nat → α) (x : α) (n : Nat) (h : n < 4) : ((List.range 4).map f).getD n x = f n := by
  simp [List.getD, h]

/-- An entry of a list after one is replaced. -/
theorem getD_set {α : Type} (l : List α) (x a : α) (n m : Nat) (h : n < l.length) :
    (l.set n a).getD m x = if m = n then a else l.getD m x := by
  simp only [List.getD, List.getElem?_set]
  by_cases e : m = n
  · simp [e, h]
  · simp [e, Ne.symm e]

/-! ## Maps of partitions (R27, R524) -/

/-- The lowest die of a die's partition under a map, which names it. -/
def lowestMate (pd : List (BitVec 2)) (d : Nat) : Nat := (mates pd d).headD d

@[simp] theorem mem_mates (pd : List (BitVec 2)) (d e : Nat) : e ∈ mates pd d ↔ e < 4 ∧ pd.getD e 0 = pd.getD d 0 := by
  simp [mates]

theorem mates_congr {pd : List (BitVec 2)} {d e : Nat} (h : pd.getD d 0 = pd.getD e 0) : mates pd d = mates pd e := by
  simp only [mates, h]

theorem lowestMate_mem (pd : List (BitVec 2)) (d : Nat) (hd : d < 4) : lowestMate pd d ∈ mates pd d := by
  have hm : d ∈ mates pd d := (mem_mates pd d d).mpr ⟨hd, rfl⟩
  unfold lowestMate
  cases h : mates pd d with
  | nil => simp [h] at hm
  | cons a l => simp

theorem lowestMate_lt (pd : List (BitVec 2)) (d : Nat) (hd : d < 4) : lowestMate pd d < 4 :=
  ((mem_mates pd d _).mp (lowestMate_mem pd d hd)).1

/-- Two dies have the same lowest mate exactly where the map gives them the same partition. -/
theorem lowestMate_eq_iff (pd : List (BitVec 2)) (d e : Nat) (hd : d < 4) (he : e < 4) :
    lowestMate pd d = lowestMate pd e ↔ pd.getD d 0 = pd.getD e 0 := by
  have hin (x : Nat) (hx : x < 4) := ((mem_mates pd x _).mp (lowestMate_mem pd x hx)).2
  constructor
  · intro h
    rw [← hin d hd, h, hin e he]
  · intro h
    have hne : mates pd e ≠ [] := List.ne_nil_of_mem (lowestMate_mem pd e he)
    rw [lowestMate, lowestMate, mates_congr h]
    cases hm : mates pd e with
    | nil => exact absurd hm hne
    | cons a l => rfl

theorem mapWord_eq (pd : List (BitVec 2)) :
    mapWord pd = lowestMate pd 0 + lowestMate pd 1 * 4 + lowestMate pd 2 * 16 + lowestMate pd 3 * 64 := by
  simp [mapWord, lowestMate, List.range_succ]

theorem mapWord_lt (pd : List (BitVec 2)) : mapWord pd < 256 := by
  have h (d : Nat) (hd : d < 4) := lowestMate_lt pd d hd
  have h0 := h 0 (by omega)
  have h1 := h 1 (by omega)
  have h2 := h 2 (by omega)
  have h3 := h 3 (by omega)
  rw [mapWord_eq]; omega

/-- The map register names each die's partition, of a map that a request asks for, by the lowest die it holds (R524). -/
def Sys.names (y : Sys) (pd : List (BitVec 2)) : Prop := ∀ d, d < 4 → y.pd d = lowestMate pd d

/-- The word of a map, with VALID or without, names the map's partitions. -/
theorem names_mapWord {y : Sys} {pd : List (BitVec 2)} {v : Nat} (hv : v ≤ 1) (h : y.pmap = BitVec.ofNat 64 (mapWord pd + 256 * v)) :
    y.names pd := by
  have hl (d : Nat) (hd : d < 4) := lowestMate_lt pd d hd
  have h0 := hl 0 (by omega)
  have h1 := hl 1 (by omega)
  have h2 := hl 2 (by omega)
  have h3 := hl 3 (by omega)
  have hlt : mapWord pd + 256 * v < 2 ^ 64 := by have := mapWord_lt pd; omega
  intro d hd
  rw [Sys.pd, h, bits_ofNat _ _ _ _ hlt, mapWord_eq]
  interval_cases d <;> omega

section Names
variable {y : Sys} {pd : List (BitVec 2)} (hn : y.names pd)
include hn

theorem Sys.names.pd_eq_iff (d e : Nat) (hd : d < 4) (he : e < 4) : y.pd d = y.pd e ↔ pd.getD d 0 = pd.getD e 0 := by
  rw [hn d hd, hn e he, lowestMate_eq_iff pd d e hd he]

theorem Sys.names.diesOf (d : Nat) (hd : d < 4) : y.diesOf d = mates pd d := by
  refine List.filter_congr fun e he => ?_
  rw [Bool.eq_iff_iff, beq_iff_eq, decide_eq_true_iff]
  exact hn.pd_eq_iff e d (List.mem_range.mp he) hd

theorem Sys.names.partOf (d : Nat) (hd : d < 4) : y.partOf d = lowestMate pd d := by
  have h := hn.diesOf d hd
  simp only [Sys.partOf, lowestMate, ← h, Sys.diesOf, ← List.head?_filter]
  cases (List.range 4).filter (fun e => y.pd e == y.pd d) <;> rfl

theorem Sys.names.map_eq : mapOf y = (List.range 4).map (fun d => BitVec.ofNat 2 (lowestMate pd d)) :=
  List.map_congr_left fun d hd => by rw [hn d (List.mem_range.mp hd)]

theorem Sys.names.mates_mapOf (d : Nat) (hd : d < 4) : mates (mapOf y) d = mates pd d := by
  have hg (e : Nat) (he : e < 4) : (mapOf y).getD e 0 = BitVec.ofNat 2 (lowestMate pd e) := by
    rw [hn.map_eq, getD_map_range _ _ _ he]
  refine List.filter_congr fun e he => ?_
  have he := List.mem_range.mp he
  have hd4 := lowestMate_lt pd d hd
  have he4 := lowestMate_lt pd e he
  have hinj : BitVec.ofNat 2 (lowestMate pd e) = BitVec.ofNat 2 (lowestMate pd d) ↔ lowestMate pd e = lowestMate pd d := by
    constructor
    · intro h
      have := congrArg BitVec.toNat h
      simp only [BitVec.toNat_ofNat] at this
      omega
    · exact fun h => by rw [h]
  rw [hg e he, hg d hd, decide_eq_decide, hinj, lowestMate_eq_iff pd e d he hd]

/-- A register that names a map of an allowed shape holds a map of that shape. -/
theorem Sys.names.shape (hs : shapeOk pd = true) : shapeOk (mapOf y) = true := by
  simp only [shapeOk, Bool.and_eq_true, decide_eq_true_eq, List.all_eq_true, List.mem_range] at hs ⊢
  refine ⟨by simp [mapOf], fun d hd => ?_⟩
  rw [hn.mates_mapOf d hd]
  exact hs.2 d hd

end Names

/-! ## LPDDR-6 shares (R524) -/

/-- Two shares do not meet: one is empty, or one ends where the other begins or before. -/
def sharesApart (x z : Word64) : Prop :=
  bits x 8 8 = 0 ∨ bits z 8 8 = 0 ∨ bits x 0 8 + bits x 8 8 ≤ bits z 0 8 ∨ bits z 0 8 + bits z 8 8 ≤ bits x 0 8

theorem sharesApart.symm {x z : Word64} (h : sharesApart x z) : sharesApart z x := by
  unfold sharesApart at *; omega

theorem sharesApart_zero (x : Word64) : sharesApart x 0 := .inr (.inl rfl)

/-- The bandwidth given away, in hundredths. -/
def bandwidth (lp : List Word64) : Nat :=
  bits (lp.getD 0 0) 16 8 + bits (lp.getD 1 0) 16 8 + bits (lp.getD 2 0) 16 8 + bits (lp.getD 3 0) 16 8

/-- The share of partition n lies within the tier, meets no other, and the bandwidth suffices for all. -/
def shareFits (lp : List Word64) (n : Nat) : Prop :=
  bits (lp.getD n 0) 0 8 + bits (lp.getD n 0) 8 8 ≤ 125 ∧
  (∀ m, m < 4 → m ≠ n → sharesApart (lp.getD n 0) (lp.getD m 0)) ∧ bandwidth lp ≤ 100

theorem sharesOk_iff (lp : List Word64) : sharesOk lp ↔ ∀ n, n < 4 → shareFits lp n := by
  have htier : Config.lpBytes / Config.lpUnit = 125 := by decide
  simp only [sharesOk, htier, shareFits]
  constructor
  · intro ⟨ha, ht, hb⟩ n hn
    refine ⟨ht n hn, fun m hm hne => ?_, hb⟩
    have := ha n m hn hm (Ne.symm hne)
    unfold sharesApart; omega
  · intro h
    refine ⟨fun i j hi hj hne hx hz => ?_, fun i hi => (h i hi).1, (h 0 (by omega)).2.2⟩
    have := (h i hi).2.1 j hj (Ne.symm hne)
    unfold sharesApart at this; omega

/-- Shares that stand together still do when each is kept, given up, or replaced by one that fits among the new ones. -/
theorem sharesOk_of_changed {lp lp' : List Word64} (h : sharesOk lp)
    (hc : ∀ n, n < 4 → lp'.getD n 0 = lp.getD n 0 ∨ lp'.getD n 0 = 0 ∨ shareFits lp' n) : sharesOk lp' := by
  rw [sharesOk_iff] at h ⊢
  have hbits (lo : Nat) : bits (0 : Word64) lo 8 = 0 := by simp [bits]
  have hband : bandwidth lp' ≤ 100 := by
    by_cases hf : ∃ n, n < 4 ∧ shareFits lp' n
    · obtain ⟨n, -, -, -, hb⟩ := hf
      exact hb
    · have hle (n : Nat) (hn : n < 4) : bits (lp'.getD n 0) 16 8 ≤ bits (lp.getD n 0) 16 8 := by
        rcases hc n hn with e | e | e
        · rw [e]
        · rw [e, hbits]; exact Nat.zero_le _
        · exact absurd ⟨n, hn, e⟩ hf
      have h0 := hle 0 (by omega)
      have h1 := hle 1 (by omega)
      have h2 := hle 2 (by omega)
      have h3 := hle 3 (by omega)
      have := (h 0 (by omega)).2.2
      unfold bandwidth at *; omega
  intro n hn
  refine ⟨?_, fun m hm hne => ?_, hband⟩
  · rcases hc n hn with e | e | e
    · rw [e]; exact (h n hn).1
    · rw [e, hbits, hbits]; omega
    · exact e.1
  · rcases hc n hn with en | en | en
    · rcases hc m hm with em | em | em
      · rw [en, em]; exact (h n hn).2.1 m hm hne
      · rw [em]; exact sharesApart_zero _
      · exact (em.2.1 n hn (Ne.symm hne)).symm
    · rw [en]; exact (sharesApart_zero _).symm
    · exact en.2.1 m hm hne

end Sys2Proof.Machine
end

section
/-! All that a step can do to the firewall registers and the boot chain, and that each of these steps keeps their invariant (R524). -/

namespace Sys2Proof.Machine

/-! ## The parts of FWPMAP's write -/

/-- The dies whose partition a request changes. -/
def Sys.changed (y : Sys) (q : PartReq) : List Nat :=
  (List.range 4).filter (fun d => mates (mapOf y) d ≠ mates q.pd d || !y.valid)

/-- The share register as a request asks for it: none is given without a request of one. -/
def PartReq.asked (q : PartReq) (n : Nat) : Word64 := match q.lp.getD n none with | some (b, z, w) => lpWord b z w | none => 0

/-- The registers with the map of a request and the shares it leaves. -/
def Sys.shared (y : Sys) (q : PartReq) : Sys :=
  { y with pmap := BitVec.ofNat 64 (mapWord q.pd)
           lp := lpFormed y { y with pmap := BitVec.ofNat 64 (mapWord q.pd) } q (y.changed q) }

/-- The registers once the partitions of a request are formed: the boundaries as the map wants them, VALID set. -/
def Sys.formed (y : Sys) (q : PartReq) : Sys :=
  { y.shared q with bnd := (List.range 4).map (fun n => bndWord ((y.shared q).splits n))
                    pmap := BitVec.ofNat 64 (mapWord q.pd + 256) }

/-- The device number of a partition once a request is met: asked for where the partition changes. -/
def State.devAfter (s : State) (q : PartReq) (n : Nat) : Nat :=
  if (s.sys.changed q).contains n then PartReq.device q n else (s.run.part n).dev

/-- Whether a context runs on a die whose partition a request changes. -/
def State.busyFor (s : State) (q : PartReq) : Bool :=
  s.run.ctxs.any (fun e => e.2.running && (s.sys.diesOf e.2.part).any (fun d => (s.sys.changed q).contains d))

/-- Whether a request is refused (R27, R525, log entry 74). -/
def State.refuses (s : State) (q : PartReq) : Bool :=
  !s.sys.ready || !shapeOk q.pd || (s.sys.valid && s.busyFor q) || !lpAsked (s.sys.shared q) q (s.sys.changed q) ||
    !devsOk (s.sys.shared q) (s.devAfter q)

/-- The run once the partitions of a request are formed: the cores of the dies `ds` cleared, and each partition that begins there with its
power cap and device number. -/
def Run.formed (r : Run) (y : Sys) (q : PartReq) (ds : List Nat) : Run :=
  ds.foldl (fun r d => if y.partOf d = d then
    r.onPart d (fun p => { p with cap := 600 * (y.diesOf d).length, dev := PartReq.device q d }) else r) (clearDies r ds)

/-- What FWPMAP's write does: nothing where it is refused. -/
theorem fwpmapWrite_eq (s : State) (q : PartReq) :
    fwpmapWrite s q = if s.refuses q then s
      else { run := s.run.formed (s.sys.formed q) q (s.sys.changed q), sys := s.sys.formed q } := rfl

theorem Sys.names_shared (y : Sys) (q : PartReq) : (y.shared q).names q.pd := names_mapWord (v := 0) (by omega) rfl

theorem Sys.names_formed (y : Sys) (q : PartReq) : (y.formed q).names q.pd := names_mapWord (v := 1) (by omega) rfl

theorem boundaryDies_lt (n : Nat) (hn : n < 4) : (boundaryDies n).1 < 4 ∧ (boundaryDies n).2 < 4 := by
  interval_cases n <;> decide

/-- VALID stands beside the map in the word. -/
theorem Sys.splits_formed (y : Sys) (q : PartReq) (n : Nat) (hn : n < 4) : (y.formed q).splits n = (y.shared q).splits n := by
  have hb := boundaryDies_lt n hn
  simp only [Sys.splits, y.names_formed q _ hb.1, y.names_formed q _ hb.2, y.names_shared q _ hb.1, y.names_shared q _ hb.2]

theorem Sys.mem_changed (y : Sys) (q : PartReq) (d : Nat) :
    d ∈ y.changed q ↔ d < 4 ∧ (mates (mapOf y) d ≠ mates q.pd d ∨ y.valid = false) := by
  simp [Sys.changed]

/-- Adding up values of a list's members from a start. -/
theorem foldl_add_eq (f : Nat → Nat) (l : List Nat) (w : Nat) : l.foldl (fun t m => t + f m) w = (l.map f).sum + w := by
  induction l generalizing w with
  | nil => simp
  | cons a l ih => simp only [List.foldl_cons, List.map_cons, List.sum_cons, ih]; omega

/-- The condition under which the Inn writes a share, on the registers. -/
theorem lpOk_iff (y : Sys) (n b z w : Nat) : lpOk y n b z w = true ↔
    b + z ≤ 125 ∧
    (∀ m, m < 4 → m ≠ n → z = 0 ∨ bits (y.lp.getD m 0) 8 8 = 0 ∨ b + z ≤ bits (y.lp.getD m 0) 0 8 ∨
      bits (y.lp.getD m 0) 0 8 + bits (y.lp.getD m 0) 8 8 ≤ b) ∧
    (([0, 1, 2, 3].filter (fun m => m ≠ n)).map (fun m => bits (y.lp.getD m 0) 16 8)).sum + w ≤ 100 := by
  have htier : Config.lpBytes / Config.lpUnit = 125 := by decide
  have hr : List.range 4 = [0, 1, 2, 3] := rfl
  have hm (m : Nat) : m ∈ ([0, 1, 2, 3] : List Nat) ↔ m < 4 := by rw [← hr, List.mem_range]
  simp only [lpOk, htier, foldl_add_eq, hr, Bool.and_eq_true, decide_eq_true_eq, List.all_eq_true, List.mem_filter, Bool.or_eq_true, hm, and_imp,
    and_assoc, or_assoc]

/-- A share that the Inn would write fits among shares of which it is one. -/
theorem shareFits_of_lpOk {y : Sys} {lp : List Word64} {n b z w : Nat} (hn : n < 4) (hw : lp.getD n 0 = lpWord b z w)
    (ho : ∀ m, m < 4 → m ≠ n → lp.getD m 0 = y.lp.getD m 0) (h : lpOk y n b z w = true) : shareFits lp n := by
  rw [lpOk_iff] at h
  obtain ⟨ht, ha, hb⟩ := h
  obtain ⟨h0, h8, h16, -⟩ := bits_lpWord b z w (by omega) (by omega) (by omega)
  refine ⟨by rw [hw, h0, h8]; exact ht, fun m hm hne => ?_, ?_⟩
  · rw [sharesApart, hw, h0, h8, ho m hm hne]
    exact ha m hm hne
  · have e (m : Nat) (hm : m < 4) : bits (lp.getD m 0) 16 8 = if m = n then w else bits (y.lp.getD m 0) 16 8 := by
      split
      · next h => rw [h, hw, h16]
      · next h => rw [ho m hm h]
    rw [bandwidth, e 0 (by omega), e 1 (by omega), e 2 (by omega), e 3 (by omega)]
    interval_cases n <;> simp at hb ⊢ <;> omega

/-! ## All that a step can do -/

/-- All that a step can do to the firewall registers and the boot chain (R524, R526, R540): nothing; a flit counted at a closed boundary; a
map formed, a boundary or a share written, by the Inn once it is ready; a boot; an image loaded in recovery. -/
inductive SysStep (y : Sys) : Sys → Prop where
  | kept : SysStep y y
  | dropped (n : Nat) : SysStep y (y.drop n)
  | formed (q : PartReq) (ready : y.ready = true) (shape : shapeOk q.pd = true) (asked : lpAsked (y.shared q) q (y.changed q) = true) :
      SysStep y (y.formed q)
  | bounded (n : Nat) (closed : Bool) (wanted : closed = y.splits n) : SysStep y { y with bnd := y.bnd.set n (bndWord closed) }
  | granted (n base size bw : Nat) (part : n < 4) (fits : lpOk y n base size bw = true) :
      SysStep y { y with lp := y.lp.set n (lpWord base size bw) }
  | booted (debugAuth : Bool) : SysStep y (bootChain y debugAuth)
  | loaded (a b : Image) (l : List Image) : SysStep y { y with slotA := a, slotB := b, stages := l }

theorem SysStep.of_eq {y z : Sys} (h : z = y) : SysStep y z := h ▸ .kept

/-- An instruction followed by a step of its block or core changes no firewall register. -/
theorem issueThen_sys {s t : State} {h : Hd} {k : How} {eff : Sys → Run → Iss → Eff Unit} {post : Sys → Run → Nat → Run}
    (hi : issueThen s h k eff post = .next t) : t.sys = s.sys := by
  unfold issueThen at hi
  split at hi
  · cases hi
  · cases hi; rfl

/-- An illegal word traps and changes no firewall register. -/
theorem execIllop_sys {sub : BitVec 8} {s t : State} (h : execIllop sub s = .next t) : t.sys = s.sys := by
  unfold execIllop at h
  split at h
  · cases h
  · cases h; rfl

/-- A request from outside is counted at the closed boundary it would cross, or changes no firewall register. -/
theorem inbound_sysStep {port pa : Nat} {s t : State} {k : Sys → Run → Run} (h : inbound port pa s k = .next t) :
    SysStep s.sys t.sys := by
  unfold inbound at h
  dsimp only at h
  split at h
  · next n _ => cases h; exact .dropped n
  · exact .of_eq (event_sys h)

theorem execAtomicRequest_sysStep {way : ReqWay} {port tag : Nat} {a : AtomicReq} {s t : State}
    (h : execAtomicRequest way port tag a s = .next t) : SysStep s.sys t.sys := by
  cases way with
  | fabric i => exact inbound_sysStep h
  | inside p => dsimp only [execAtomicRequest] at h; exact .of_eq (event_sys h)

theorem execFwpmapWrite_sysStep {q : PartReq} {s t : State} (h : execFwpmapWrite q s = .next t) : SysStep s.sys t.sys := by
  rw [execFwpmapWrite, fwpmapWrite_eq] at h
  split at h
  · cases h; exact .kept
  · next hr =>
    cases h
    simp only [State.refuses, Bool.or_eq_true, Bool.not_eq_true', not_or, Bool.not_eq_false] at hr
    obtain ⟨⟨⟨⟨hready, hshape⟩, -⟩, hasked⟩, -⟩ := hr
    exact .formed q hready hshape hasked

theorem execFwbndWrite_sysStep {n : Nat} {closed : Bool} {s t : State} (h : execFwbndWrite n closed s = .next t) :
    SysStep s.sys t.sys := by
  unfold execFwbndWrite at h
  dsimp only at h
  split at h
  · next hc =>
    cases h
    simp only [Bool.and_eq_true, decide_eq_true_eq] at hc
    exact .bounded n closed hc.2
  · cases h; exact .kept

theorem execFwlpWrite_sysStep {n base size bw : Nat} {s t : State} (h : execFwlpWrite n base size bw s = .next t) :
    SysStep s.sys t.sys := by
  unfold execFwlpWrite at h
  dsimp only at h
  split at h
  · next hc =>
    cases h
    simp only [Bool.and_eq_true, decide_eq_true_eq] at hc
    obtain ⟨⟨⟨⟨⟨-, hn⟩, -⟩, -⟩, hfits⟩, -⟩ := hc
    exact .granted n base size bw hn hfits
  · cases h; exact .kept

theorem execRecoveryImageLoad_sysStep {stage : Nat} {i : Image} {s t : State} (h : execRecoveryImageLoad stage i s = .next t) :
    SysStep s.sys t.sys := by
  unfold execRecoveryImageLoad at h
  dsimp only at h
  split at h
  · cases h; exact .kept
  · split at h
    · cases h; exact .loaded _ _ _
    · split at h <;> cases h <;> exact .loaded _ _ _

end Sys2Proof.Machine
end

section
/-! Every instruction and every step of the device does to the firewall registers what `SysStep` lists, so their invariant is kept. -/

namespace Sys2Proof.Machine

/-- An instruction word changes no firewall register: its arm is an issue, or an issue followed by a step of the pool. -/
theorem exec_sys_of_word {i : Instr} {s t : State} (hp : i.parts.isSome = true) (h : exec i s = .next t) : t.sys = s.sys := by
  cases i with
  | racq | rrel => dsimp only [exec] at h; exact issueThen_sys h
  | fwcallTimeout | illop | softmaxFusion | stallExpiry | resultArrival | waveSlotRelease | blockEnd | faultRepaired | faultDeclined |
    walkComplete | writeAcknowledgement | fabricTimeout | atomicTimeout | lateTrapDelivery | atomicRequest | releaseFlit |
    remoteDataRequest | copyStart | copyResume | copyComplete | copyFault | monitorWriteWake | mwaitTimeout | mwaitEvent | spuriousWake
    | batchEvaluate | batchComplete | clauseFault | evalResume | streamTrapDelivery | beatEnd | grantRequestArrival | ticketTimeout |
    windowEnd | pwrTrap | burnEnd | pairDerate | misthWrite | mistxWrite | balctlWrite | fpcrWrite | fpsrAccess | preemptDrain |
    preemptHalt | preemptForcedSave | preemptCapture | haltDeadline | preemptTrap | savetime | freeze | contextRestore | quantumEnd |
    wptrObserve | cmdNop | launch | copy | wait | waitSatisfied | signal | copyCommandComplete | launchComplete | queueMap |
    queueUnmapForced | neighbourhoodPlace | binForm | binAgeExpiry | linkReplay | portDown | portMapout | controlMessageDelivery |
    collectiveDone | collectiveAbortReceive | progressTimeout | rdmaWrite | rdmaRead | rdmaSend | migrationRound | migrationStop |
    blackoutEnd | pullTimeout | boot | coolantFlowLoss | pwrwaitTimeout | dequeStealRequest | getVersion | getCapabilities |
    negotiateAlgorithms | getDigests | getCertificate | challenge | getMeasurements | blackBoxRead | postcopyPull | fwpmapWrite |
    fwbndWrite | fwlpWrite | innCapabilityFault | powerAverage | thermalReading | supplyExcursion | eccError | portRetraining |
    clusterUnitFault | tenantRelease | recoveryImageLoad => cases hp
  | _ => dsimp only [exec] at h; exact issue_sys h

/-- A step of the device that no word names does one of the things of `SysStep`: most change `Run` alone. -/
theorem exec_sysStep_of_event {i : Instr} {s t : State} (hp : i.parts.isSome = false) (h : exec i s = .next t) :
    SysStep s.sys t.sys := by
  cases i with
  | illop => exact .of_eq (execIllop_sys h)
  | softmaxFusion => dsimp only [exec] at h; exact .of_eq (issue_sys h)
  | atomicRequest => exact execAtomicRequest_sysStep h
  | remoteDataRequest | controlMessageDelivery => dsimp only [exec] at h; exact inbound_sysStep h
  | boot dbg => cases h; exact .booted dbg
  | fwpmapWrite => exact execFwpmapWrite_sysStep h
  | fwbndWrite => exact execFwbndWrite_sysStep h
  | fwlpWrite => exact execFwlpWrite_sysStep h
  | recoveryImageLoad => exact execRecoveryImageLoad_sysStep h
  | fwcallTimeout | stallExpiry | resultArrival | waveSlotRelease | blockEnd | faultRepaired | faultDeclined | walkComplete |
    writeAcknowledgement | fabricTimeout | atomicTimeout | lateTrapDelivery | releaseFlit | copyStart | copyResume | copyComplete |
    copyFault | monitorWriteWake | mwaitTimeout | mwaitEvent | spuriousWake | batchEvaluate | batchComplete | clauseFault | evalResume |
    streamTrapDelivery | beatEnd | grantRequestArrival | ticketTimeout | windowEnd | pwrTrap | burnEnd | pairDerate | misthWrite |
    mistxWrite | balctlWrite | fpcrWrite | fpsrAccess | preemptDrain | preemptHalt | preemptForcedSave | preemptCapture | haltDeadline |
    preemptTrap | savetime | freeze | contextRestore | quantumEnd | wptrObserve | cmdNop | launch | copy | wait | waitSatisfied | signal
    | copyCommandComplete | launchComplete | queueMap | queueUnmapForced | neighbourhoodPlace | binForm | binAgeExpiry | linkReplay |
    portDown | portMapout | collectiveDone | collectiveAbortReceive | progressTimeout | rdmaWrite | rdmaRead | rdmaSend | migrationRound
    | migrationStop | blackoutEnd | pullTimeout | coolantFlowLoss | pwrwaitTimeout | dequeStealRequest | getVersion | getCapabilities |
    negotiateAlgorithms | getDigests | getCertificate | challenge | getMeasurements | blackBoxRead | postcopyPull | innCapabilityFault |
    powerAverage | thermalReading | supplyExcursion | eccError | portRetraining | clusterUnitFault | tenantRelease =>
    dsimp only [exec] at h; exact .of_eq (event_sys h)
  | _ => cases hp

/-- All that an instruction or a step of the device can do to the firewall registers and the boot chain. -/
theorem exec_sysStep {i : Instr} {s t : State} (h : exec i s = .next t) : SysStep s.sys t.sys := by
  cases hp : i.parts.isSome with
  | true => exact .of_eq (exec_sys_of_word hp h)
  | false => exact exec_sysStep_of_event hp h

/-- The results left in flight change no firewall register. -/
theorem settleStep_next {i : Instr} {s u : State} {o : Host.Outcome State Fault Refusal} (h : settleStep i s o = .next u) :
    ∃ t, o = .next t ∧ u.sys = t.sys := by
  cases o with
  | next t => cases h; exact ⟨t, rfl, rfl⟩
  | fault f => cases h
  | refused f => cases h

/-- The state in which the next step runs. -/
def Act.state : Act → State
  | .exec _ s => s
  | .done s => s

@[simp] theorem decodedAct_sys (s : State) (wid : Nat) (pc : Word64) (word : BitVec 96) : (decodedAct s wid pc word).state.sys = s.sys := by
  unfold decodedAct
  split <;> rfl

@[simp] theorem groupAct_sys (s : State) (wid : Nat) (m : Lanes) (p : Part) : (groupAct s wid m p).state.sys = s.sys := by
  unfold groupAct
  split
  · rfl
  · rfl
  · split
    · rfl
    · split
      · rfl
      · rfl
      · rw [decodedAct_sys]

@[simp] theorem inputAct_sys (s : State) (i : Instr) : (inputAct s i).state.sys = s.sys := by
  unfold inputAct
  split
  · split <;> rfl
  · rfl

@[simp] theorem dueAct_sys (s : State) : (dueAct s).state.sys = s.sys := by
  unfold dueAct
  split <;> rfl

/-- What the next step runs in has the firewall registers as they stand. -/
@[simp] theorem nextAct_sys (s : State) : (nextAct s).state.sys = s.sys := by
  unfold nextAct
  split
  · simp
  · split
    · rfl
    · split
      · simp
      · split <;> simp

/-- All that a step of the machine can do to the firewall registers and the boot chain. -/
theorem step_sysStep {s t : State} (h : step s = .next t) : SysStep s.sys t.sys := by
  have hs := nextAct_sys s
  unfold step at h
  split at h
  · next i u hu =>
    obtain ⟨v, hv, ht⟩ := settleStep_next h
    rw [hu] at hs
    rw [ht, ← hs]
    exact exec_sysStep hv
  · next u hu =>
    cases h
    rw [hu] at hs
    exact .of_eq hs

/-! ## The invariant -/

/-- No share is given, which stands together. -/
theorem sharesOk_none : sharesOk [0, 0, 0, 0] := by
  rw [sharesOk_iff]
  intro n hn
  interval_cases n <;> exact ⟨by decide, fun m hm _ => .inl rfl, by decide⟩

/-- The registers as a reset leaves them, with a map of a partition for each die, meet the invariant where VALID waits for the firmware. -/
theorem Sys.inv_of_reset {y : Sys} (hb : y.bnd = [1, 1, 1, 1]) (hl : y.lp = [0, 0, 0, 0])
    (hm : y.pmap = 0xE4 ∨ y.pmap = 0x1E4 ∧ y.boot = .ready) : Sys.Inv y := by
  have hpd (d : Nat) (hd : d < 4) : y.pd d = d := by
    unfold Sys.pd
    rcases hm with e | ⟨e, -⟩ <;> rw [e] <;> interval_cases d <;> decide
  have hn : y.names [0, 1, 2, 3] := fun d hd => (hpd d hd).trans (by interval_cases d <;> decide)
  exact {
    boundaries := by rw [hb]; rfl
    shares := by rw [hl]; rfl
    shape := hn.shape (by decide)
    verified := fun hv => by
      rcases hm with e | ⟨-, hr⟩
      · rw [Sys.valid, e] at hv; exact absurd hv (by decide)
      · exact hr
    closed := fun n hn4 => by
      have hd := boundaryDies_lt n hn4
      rw [hb, Sys.splits, hpd _ hd.1, hpd _ hd.2]
      interval_cases n <;> decide
    disjoint := by rw [hl]; exact sharesOk_none
    mapReserved := by rcases hm with e | ⟨e, -⟩ <;> rw [e] <;> decide
    bndReserved := fun n hn4 => by rw [hb]; interval_cases n <;> decide
    lpReserved := fun n hn4 => by rw [hl]; interval_cases n <;> decide }

/-- A boot leaves the boundaries CLOSED and no share given, and puts the map in force only as it comes to its end. -/
theorem bootChain_registers (y : Sys) (dbg : Bool) : (bootChain y dbg).bnd = [1, 1, 1, 1] ∧ (bootChain y dbg).lp = [0, 0, 0, 0] ∧
    ((bootChain y dbg).pmap = 0xE4 ∨ (bootChain y dbg).pmap = 0x1E4 ∧ (bootChain y dbg).boot = .ready) := by
  unfold bootChain
  dsimp only
  split
  · exact ⟨rfl, rfl, .inl rfl⟩
  · split
    · exact ⟨rfl, rfl, .inl rfl⟩
    · exact ⟨rfl, rfl, .inr ⟨rfl, rfl⟩⟩

theorem Sys.Inv.drop {y : Sys} (h : Sys.Inv y) (n : Nat) : Sys.Inv (y.drop n) := by
  have hlen : (y.drop n).bnd.length = 4 := by simp [Sys.drop, h.boundaries]
  have hget (m : Nat) (hm : m < 4) : (y.drop n).bnd.getD m 0 =
      if m = n then setBits (y.bnd.getD m 0) 16 16 (min 0xFFFF (bits (y.bnd.getD m 0) 16 16 + 1)) else y.bnd.getD m 0 := by
    have : m < y.bnd.length := by rw [h.boundaries]; exact hm
    simp [Sys.drop, List.getD, this]
  exact {
    boundaries := hlen
    shares := h.shares
    shape := h.shape
    verified := h.verified
    closed := fun m hm => by
      rw [hget m hm]
      refine Eq.trans ?_ (h.closed m hm)
      split
      · exact getLsbD_setBits_of_out _ _ _ _ _ (by omega)
      · rfl
    disjoint := h.disjoint
    mapReserved := h.mapReserved
    bndReserved := fun m hm => by
      rw [hget m hm]
      split
      · rw [bits_setBits_of_apart _ _ _ _ _ _ (by omega), bits_setBits_of_apart _ _ _ _ _ _ (by omega)]
        exact h.bndReserved m hm
      · exact h.bndReserved m hm
    lpReserved := h.lpReserved }

theorem Sys.Inv.bounded {y : Sys} (h : Sys.Inv y) (n : Nat) (closed : Bool) (hc : closed = y.splits n) :
    Sys.Inv { y with bnd := y.bnd.set n (bndWord closed) } := by
  have hget (m : Nat) (hm : m < 4) : (y.bnd.set n (bndWord closed)).getD m 0 = if m = n then bndWord (y.splits m) else y.bnd.getD m 0 := by
    split
    · next e => rw [e, hc, getD_set _ _ _ _ _ (by rw [h.boundaries]; omega), if_pos rfl]
    · next e => simp [List.getD, Ne.symm e]
  exact { h with
    boundaries := by simp [h.boundaries]
    closed := fun m hm => by
      rw [hget m hm]
      split
      · exact (bndWord_fields _).1
      · exact h.closed m hm
    bndReserved := fun m hm => by
      rw [hget m hm]
      split
      · exact (bndWord_fields _).2
      · exact h.bndReserved m hm }

theorem Sys.Inv.granted {y : Sys} (h : Sys.Inv y) {n b z w : Nat} (hn : n < 4) (hl : lpOk y n b z w = true) :
    Sys.Inv { y with lp := y.lp.set n (lpWord b z w) } := by
  have hget (m : Nat) : (y.lp.set n (lpWord b z w)).getD m 0 = if m = n then lpWord b z w else y.lp.getD m 0 :=
    getD_set _ _ _ _ _ (by rw [h.shares]; exact hn)
  have hw := (lpOk_iff y n b z w).mp hl
  exact { h with
    shares := by simp [h.shares]
    disjoint := sharesOk_of_changed h.disjoint fun m hm => by
      by_cases e : m = n
      · subst e
        exact .inr (.inr (shareFits_of_lpOk hm (by rw [hget, if_pos rfl]) (fun k _ hk => by rw [hget, if_neg hk]) hl))
      · exact .inl (by rw [hget, if_neg e])
    lpReserved := fun m hm => by
      rw [hget]
      split
      · exact (bits_lpWord b z w (by omega) (by omega) (by omega)).2.2.2
      · exact h.lpReserved m hm }

/-- The share a partition has once a request is met: what the request asks for where the partition changes, else its own. -/
theorem Sys.shared_lp (y : Sys) (q : PartReq) (n : Nat) (hn : n < 4) : (y.shared q).lp.getD n 0 =
    if lowestMate q.pd n ≠ n then 0
    else if (y.changed q).contains n then PartReq.asked q n
    else y.lp.getD n 0 := by
  rw [← (y.names_shared q).partOf n hn]
  change (lpFormed y _ q (y.changed q)).getD n 0 = _
  rw [lpFormed, getD_map_range _ _ n hn]
  rfl

/-- What the Inn has checked of a share it gives. -/
theorem lpAsked_some {y : Sys} {q : PartReq} (h : lpAsked (y.shared q) q (y.changed q) = true) {n b z w : Nat}
    (hc : (y.changed q).contains n = true) (hl : lowestMate q.pd n = n) (ha : q.lp.getD n none = some (b, z, w)) :
    lpOk (y.shared q) n b z w = true := by
  have hmem : n ∈ y.changed q := List.contains_iff_mem.mp hc
  have hn := ((y.mem_changed q n).mp hmem).1
  have hp : (y.shared q).partOf n = n := ((y.names_shared q).partOf n hn).trans hl
  have := List.all_eq_true.mp h n hmem
  rw [ha] at this
  exact (by simpa [hp] using this : b < 256 ∧ lpOk (y.shared q) n b z w = true).2

theorem Sys.Inv.formed {y : Sys} (h : Sys.Inv y) {q : PartReq} (hr : y.ready = true) (hs : shapeOk q.pd = true)
    (ha : lpAsked (y.shared q) q (y.changed q) = true) : Sys.Inv (y.formed q) := by
  have hsplits (n : Nat) (hn : n < 4) : (y.formed q).bnd.getD n 0 = bndWord ((y.formed q).splits n) := by
    rw [y.splits_formed q n hn]
    exact getD_map_range (fun n => bndWord ((y.shared q).splits n)) 0 n hn
  have hshare (n : Nat) (hn : n < 4) : (y.shared q).lp.getD n 0 = y.lp.getD n 0 ∨ (y.shared q).lp.getD n 0 = 0 ∨
      ∃ b z w, (y.shared q).lp.getD n 0 = lpWord b z w ∧ lpOk (y.shared q) n b z w = true := by
    rw [y.shared_lp q n hn]
    split
    · exact .inr (.inl rfl)
    · next hl =>
      split
      · next hc =>
        rw [PartReq.asked]
        split
        · next b z w hx => exact .inr (.inr ⟨b, z, w, rfl, lpAsked_some ha hc (not_not.mp hl) hx⟩)
        · exact .inr (.inl rfl)
      · exact .inl rfl
  exact {
    boundaries := by simp [Sys.formed]
    shares := by simp [Sys.formed, Sys.shared, lpFormed]
    shape := (y.names_formed q).shape hs
    verified := fun _ => of_decide_eq_true hr
    closed := fun n hn => by rw [hsplits n hn]; exact (bndWord_fields _).1
    disjoint := sharesOk_of_changed h.disjoint fun n hn => by
      rcases hshare n hn with e | e | ⟨b, z, w, e, hf⟩
      · exact .inl e
      · exact .inr (.inl e)
      · exact .inr (.inr (shareFits_of_lpOk hn e (fun _ _ _ => rfl) hf))
    mapReserved := by
      have := mapWord_lt q.pd
      rw [Sys.formed, bits_ofNat _ _ _ _ (by omega)]
      omega
    bndReserved := fun n hn => by rw [hsplits n hn]; exact (bndWord_fields _).2
    lpReserved := fun n hn => by
      change bits ((y.shared q).lp.getD n 0) 24 40 = 0
      rcases hshare n hn with e | e | ⟨b, z, w, e, hf⟩
      · rw [e]; exact h.lpReserved n hn
      · rw [e]; decide
      · obtain ⟨ht, -, hb⟩ := (lpOk_iff _ n b z w).mp hf
        rw [e]; exact (bits_lpWord b z w (by omega) (by omega) (by omega)).2.2.2 }

/-- Each of the things a step can do to the firewall registers keeps their invariant. -/
theorem SysStep.inv {y z : Sys} (hz : SysStep y z) (h : Sys.Inv y) : Sys.Inv z := by
  cases hz with
  | kept => exact h
  | dropped n => exact h.drop n
  | formed q hr hs ha => exact h.formed hr hs ha
  | bounded n closed hc => exact h.bounded n closed hc
  | granted n b z w hn hl => exact h.granted hn hl
  | booted dbg =>
    obtain ⟨hb, hl, hm⟩ := bootChain_registers y dbg
    exact Sys.inv_of_reset hb hl hm
  | loaded a b l => exact { h with }

/-- Settles O7: the reset registers are those of `Sys.inv_of_reset`. -/
theorem resetFirewall : Obligations.ResetFirewall :=
  ⟨Sys.inv_of_reset rfl rfl (.inl rfl), rfl, rfl, rfl, rfl, rfl⟩

/-- Settles O8: a step does one of the things of `SysStep`, and each keeps the invariant. -/
theorem firewallInvariant : Obligations.FirewallInvariant :=
  fun _ _ h hs => (step_sysStep hs).inv h

end Sys2Proof.Machine
end

section
/-! What the writes of the firewall set do (R27, R524 to R526): when the Inn refuses one, and what a write it takes leaves. -/

namespace Sys2Proof.Machine

/-! ## Tables and folds of the run -/

@[simp] theorem get?_mapAll {α : Type} (m : Tbl α) (f : Nat → α → α) (k : Nat) : (m.mapAll f).get? k = (m.get? k).map (f k) := by
  induction m with
  | nil => rfl
  | cons e l ih =>
    obtain ⟨j, v⟩ := e
    change (if k = j then some (f j v) else (Tbl.mapAll l f).get? k) = (if k = j then some v else Tbl.get? l k).map (f k)
    split
    · next h => rw [h]; rfl
    · exact ih

/-- Clearing dies empties the TLBs and read-only caches of their cores and leaves the other cores. -/
theorem core_clearDies (r : Run) (ds : List Nat) (n : Nat) :
    (clearDies r ds).core n = if ds.contains (dieOf n) then { r.core n with tlb := [], ro := [] } else r.core n := by
  simp only [Run.core, clearDies, get?_mapAll]
  cases r.cores.get? n with
  | none => simp
  | some k => simp only [Option.map_some, Option.getD_some]

section Fold
variable (P : Nat → Prop) [DecidablePred P] (f : Nat → Partition → Partition)

/-- Changing the partitions of a list leaves the rest of the run. -/
theorem foldl_onPart_frame (ds : List Nat) (r : Run) :
    { ds.foldl (fun r d => if P d then r.onPart d (f d) else r) r with parts := r.parts } = r := by
  induction ds generalizing r with
  | nil => rfl
  | cons d ds ih =>
    rw [List.foldl_cons]
    split
    · exact congrArg (fun u : Run => { u with parts := r.parts }) (ih (r.onPart d (f d)))
    · exact ih r

/-- It changes each of them once, where the condition holds. -/
theorem part_foldl_onPart (ds : List Nat) (r : Run) (n : Nat) (hd : ds.Nodup) :
    (ds.foldl (fun r d => if P d then r.onPart d (f d) else r) r).part n = if n ∈ ds ∧ P n then f n (r.part n) else r.part n := by
  induction ds generalizing r with
  | nil => simp
  | cons d ds ih =>
    obtain ⟨hnot, hd⟩ := List.nodup_cons.mp hd
    have hhead : (if P d then r.onPart d (f d) else r).part n = if n = d ∧ P d then f n (r.part n) else r.part n := by
      by_cases hp : P d
      · simp only [hp, if_true, and_true, Run.part_onPart]
        split
        · next h => rw [h]
        · rfl
      · simp only [hp, if_false, and_false]
    rw [List.foldl_cons, ih _ hd, hhead]
    by_cases hn : n = d
    · subst hn
      simp [hnot]
    · simp [hn]

end Fold

/-! ## What a request asks for -/

/-- Whether a request changes the partition of a die. -/
def Sys.changes (y : Sys) (q : PartReq) (d : Nat) : Bool := !y.valid || mates (mapOf y) d ≠ mates q.pd d

/-- Whether a number names a partition of the map a request asks for. -/
def PartReq.heads (q : PartReq) (n : Nat) : Bool := n < 4 && lowestMate q.pd n = n

/-- The share of partition n once a request is met. -/
def Sys.shareAfter (y : Sys) (q : PartReq) (n : Nat) : Word64 :=
  if PartReq.heads q n then (if y.changes q n then PartReq.asked q n else y.lp.getD n 0) else 0

/-- A share fits beside the others as the request leaves them. -/
def Sys.roomFor (y : Sys) (q : PartReq) (n b z w : Nat) : Prop :=
  b < 256 ∧ b + z ≤ 125 ∧
  (∀ m, m < 4 → m ≠ n → z = 0 ∨ bits (y.shareAfter q m) 8 8 = 0 ∨ b + z ≤ bits (y.shareAfter q m) 0 8 ∨
    bits (y.shareAfter q m) 0 8 + bits (y.shareAfter q m) 8 8 ≤ b) ∧
  (([0, 1, 2, 3].filter (fun m => m ≠ n)).map (fun m => bits (y.shareAfter q m) 16 8)).sum + w ≤ 100

/-- The shares a request gives stand together. -/
def Sys.together (y : Sys) (q : PartReq) : Prop :=
  ∀ n b z w, PartReq.heads q n = true → y.changes q n = true → q.lp.getD n none = some (b, z, w) → y.roomFor q n b z w

/-- The device number of partition n once a request is met. -/
def State.devOf (s : State) (q : PartReq) (n : Nat) : Nat := if s.sys.changes q n then q.dev.getD n n else (s.run.part n).dev

/-- The device numbers of the partitions differ. -/
def State.distinct (s : State) (q : PartReq) : Prop :=
  ∀ m n, PartReq.heads q m = true → PartReq.heads q n = true → m ≠ n → s.devOf q m ≠ s.devOf q n

/-- A context runs on a die whose partition changes. -/
def State.runsOn (s : State) (q : PartReq) : Prop :=
  ∃ e ∈ s.run.ctxs, e.2.running = true ∧ ∃ d, d < 4 ∧ d ∈ s.sys.diesOf e.2.part ∧ s.sys.changes q d = true

theorem Sys.contains_changed (y : Sys) (q : PartReq) (d : Nat) : (y.changed q).contains d = (decide (d < 4) && y.changes q d) := by
  rw [Bool.eq_iff_iff, List.contains_iff_mem, y.mem_changed]
  simp [Sys.changes, or_comm]

theorem PartReq.heads_iff (q : PartReq) (n : Nat) : PartReq.heads q n = true ↔ n < 4 ∧ lowestMate q.pd n = n := by
  simp [PartReq.heads]

/-- The map that a request leaves has a partition of number n exactly where the request's map names one so. -/
theorem Sys.names.partOf_eq_iff {y : Sys} {q : PartReq} (hn : y.names q.pd) (n : Nat) (h4 : n < 4) :
    y.partOf n = n ↔ PartReq.heads q n = true := by
  rw [hn.partOf n h4, PartReq.heads_iff]
  simp [h4]

theorem Sys.shared_lp_eq (y : Sys) (q : PartReq) (n : Nat) (hn : n < 4) : (y.shared q).lp.getD n 0 = y.shareAfter q n := by
  rw [y.shared_lp q n hn, y.contains_changed, Sys.shareAfter, PartReq.heads]
  simp [hn]

theorem lpAsked_iff (y : Sys) (q : PartReq) : lpAsked (y.shared q) q (y.changed q) = true ↔ y.together q := by
  have hroom (n b z w : Nat) : (decide (b < 256) && lpOk (y.shared q) n b z w) = true ↔ y.roomFor q n b z w := by
    have hs (m : Nat) (hm : m < 4) := y.shared_lp_eq q m hm
    have hsum : (([0, 1, 2, 3].filter (fun m => m ≠ n)).map (fun m => bits ((y.shared q).lp.getD m 0) 16 8)) =
        (([0, 1, 2, 3].filter (fun m => m ≠ n)).map (fun m => bits (y.shareAfter q m) 16 8)) := by
      refine List.map_congr_left fun m hm => ?_
      rw [hs m (List.mem_range.mp (List.mem_of_mem_filter hm : m ∈ List.range 4))]
    rw [Bool.and_eq_true, decide_eq_true_eq, lpOk_iff, hsum, Sys.roomFor]
    refine and_congr_right' (and_congr_right' (and_congr_left' (forall_congr' fun m => forall_congr' fun hm => ?_)))
    rw [hs m hm]
  simp only [lpAsked, List.all_eq_true, Sys.together]
  constructor
  · intro h n b z w hp hc hl
    have hn := ((PartReq.heads_iff q n).mp hp).1
    have := h n (by rw [← List.contains_iff_mem, y.contains_changed, hc]; simp [hn])
    rw [hl] at this
    rw [← hroom]
    simpa [((y.names_shared q).partOf_eq_iff n hn).mpr hp] using this
  · intro h n hmem
    rw [← List.contains_iff_mem, y.contains_changed, Bool.and_eq_true, decide_eq_true_eq] at hmem
    by_cases hp : (y.shared q).partOf n = n
    · cases hl : q.lp.getD n none with
      | none => simp
      | some x =>
        obtain ⟨b, z, w⟩ := x
        have := h n b z w (((y.names_shared q).partOf_eq_iff n hmem.1).mp hp) hmem.2 hl
        rw [← hroom] at this
        simp only [hp, this]
        simp
    · simp [hp]

theorem devsOk_iff (s : State) (q : PartReq) : devsOk (s.sys.shared q) (s.devAfter q) = true ↔ s.distinct q := by
  have hdev (n : Nat) (hn : n < 4) : s.devAfter q n = s.devOf q n := by
    rw [State.devAfter, s.sys.contains_changed, State.devOf, PartReq.device]
    simp [hn]
  have hpart (n : Nat) (hn : n < 4) := (s.sys.names_shared q).partOf_eq_iff n hn
  have hiff : devsOk (s.sys.shared q) (s.devAfter q) = true ↔
      ∀ m, m < 4 → ∀ n, n < m → PartReq.heads q m = true → PartReq.heads q n = true → s.devOf q m ≠ s.devOf q n := by
    simp only [devsOk, List.all_eq_true, List.mem_range, Bool.or_eq_true, decide_eq_true_eq]
    refine forall_congr' fun m => forall_congr' fun hm => forall_congr' fun n => forall_congr' fun hn => ?_
    rw [hdev m hm, hdev n (by omega), Ne, hpart m hm, Ne, hpart n (by omega)]
    tauto
  rw [hiff]
  constructor
  · intro h m n hm hn hne
    have hm4 := ((PartReq.heads_iff q m).mp hm).1
    have hn4 := ((PartReq.heads_iff q n).mp hn).1
    rcases Nat.lt_or_gt_of_ne hne with hlt | hlt
    · exact (h n hn4 m hlt hn hm).symm
    · exact h m hm4 n hlt hm hn
  · exact fun h m _ n hlt hm hn => h m n hm hn (by omega)

theorem busyFor_iff (s : State) (q : PartReq) : s.busyFor q = true ↔ s.runsOn q := by
  simp only [State.busyFor, State.runsOn, List.any_eq_true, Bool.and_eq_true, s.sys.contains_changed, decide_eq_true_eq]
  refine exists_congr fun e => and_congr_right' (and_congr_right' (exists_congr fun d => ?_))
  tauto

/-- When the Inn takes a map (R27, R525, log entry 74). -/
theorem refuses_eq_false_iff (s : State) (q : PartReq) : s.refuses q = false ↔
    s.sys.ready = true ∧ shapeOk q.pd = true ∧ (s.sys.valid = true → ¬s.runsOn q) ∧ s.sys.together q ∧ s.distinct q := by
  rw [← busyFor_iff, ← lpAsked_iff, ← devsOk_iff]
  simp only [State.refuses, Bool.or_eq_false_iff, Bool.not_eq_false', Bool.and_eq_false_imp, Bool.not_eq_true, and_assoc]

end Sys2Proof.Machine
end

section
/-! The writes of the firewall set, settled (R27, R524 to R526). -/

namespace Sys2Proof.Machine

/-! ## FWPMAP -/

/-- The registers that a map leaves: VALID, the map, the shares, and each boundary CLOSED where the map wants it. -/
theorem formed_registers (y : Sys) (q : PartReq) : (y.formed q).valid = true ∧
    mapOf (y.formed q) = [0, 1, 2, 3].map (fun d => BitVec.ofNat 2 (lowestMate q.pd d)) ∧
    (y.formed q).lp = [0, 1, 2, 3].map (y.shareAfter q) ∧
    (y.formed q).bnd = [0, 1, 2, 3].map (fun n => if (y.formed q).splits n then 1 else 0) := by
  refine ⟨?_, (y.names_formed q).map_eq, ?_, ?_⟩
  · have hlt := mapWord_lt q.pd
    rw [Sys.valid, Sys.formed, BitVec.getLsbD_ofNat, Nat.testBit_eq_decide_div_mod_eq]
    simp
    omega
  · calc (y.formed q).lp = (List.range 4).map (fun n => (y.shared q).lp.getD n 0) := rfl
      _ = [0, 1, 2, 3].map (y.shareAfter q) := List.map_congr_left fun n hn => y.shared_lp_eq q n (List.mem_range.mp hn)
  · refine List.map_congr_left fun n hn => ?_
    rw [← y.splits_formed q n (List.mem_range.mp hn)]
    rfl

theorem nodup_changed (y : Sys) (q : PartReq) : (y.changed q).Nodup := List.nodup_range.filter _

/-- Forming partitions changes the cores and dies that are cleared and the partitions, nothing else of the run. -/
theorem formed_frame (r : Run) (y : Sys) (q : PartReq) (ds : List Nat) :
    { r.formed y q ds with parts := r.parts } = clearDies r ds :=
  foldl_onPart_frame (fun d => y.partOf d = d) (fun d p => { p with cap := 600 * (y.diesOf d).length, dev := PartReq.device q d }) ds
    (clearDies r ds)

/-- A partition that changes has the cap of its dies and its device number; the others stay. -/
theorem part_formed (s : State) (q : PartReq) (n : Nat) :
    (s.run.formed (s.sys.formed q) q (s.sys.changed q)).part n =
      if PartReq.heads q n = true ∧ s.sys.changes q n = true then
        { s.run.part n with cap := 600 * (mates q.pd n).length, dev := q.dev.getD n n }
      else s.run.part n := by
  have hnames := s.sys.names_formed q
  have h := part_foldl_onPart (fun d => (s.sys.formed q).partOf d = d)
    (fun d p => { p with cap := 600 * ((s.sys.formed q).diesOf d).length, dev := PartReq.device q d }) (s.sys.changed q)
    (clearDies s.run (s.sys.changed q)) n (nodup_changed s.sys q)
  by_cases hn : n < 4
  · have hc : n ∈ s.sys.changed q ↔ s.sys.changes q n = true := by
      rw [← List.contains_iff_mem, s.sys.contains_changed]
      simp [hn]
    refine h.trans (if_congr ?_ ?_ rfl)
    · rw [hc, hnames.partOf_eq_iff n hn, and_comm]
    · rw [hnames.diesOf n hn]; rfl
  · have hm : n ∉ s.sys.changed q := fun h => hn ((s.sys.mem_changed q n).mp h).1
    have hh : PartReq.heads q n ≠ true := fun h => hn ((PartReq.heads_iff q n).mp h).1
    exact (h.trans (if_neg fun h => hm h.1)).trans (if_neg fun h => hh h.1).symm

/-- The cores of the dies whose partition changes are cleared. -/
theorem core_formed (s : State) (q : PartReq) (n : Nat) :
    (s.run.formed (s.sys.formed q) q (s.sys.changed q)).core n =
      if dieOf n < 4 ∧ s.sys.changes q (dieOf n) = true then { s.run.core n with tlb := [], ro := [] } else s.run.core n := by
  have h := congrArg (fun r : Run => r.core n) (formed_frame s.run (s.sys.formed q) q (s.sys.changed q))
  refine Eq.trans h ?_
  dsimp only
  rw [core_clearDies, s.sys.contains_changed]
  simp

/-- FWPMAP's write where the Inn refuses the request. -/
theorem exec_fwpmapWrite_refused {s : State} {q : PartReq}
    (h : s.sys.ready = false ∨ shapeOk q.pd = false ∨ (s.sys.valid = true ∧ s.runsOn q) ∨ ¬s.sys.together q ∨ ¬s.distinct q) :
    exec (.fwpmapWrite q) s = .next s := by
  have hr : s.refuses q = true := by
    by_contra hf
    obtain ⟨hready, hshape, hruns, htog, hdist⟩ := (refuses_eq_false_iff s q).mp (Bool.eq_false_iff.mpr hf)
    rcases h with h | h | ⟨hv, h⟩ | h | h
    · rw [hready] at h; cases h
    · rw [hshape] at h; cases h
    · exact hruns hv h
    · exact h htog
    · exact h hdist
  change Host.Outcome.next (fwpmapWrite s q) = _
  rw [fwpmapWrite_eq, if_pos hr]

/-- FWPMAP's write where the Inn takes the request. -/
theorem exec_fwpmapWrite_taken {s : State} {q : PartReq} (h : s.refuses q = false) :
    exec (.fwpmapWrite q) s = .next { run := s.run.formed (s.sys.formed q) q (s.sys.changed q), sys := s.sys.formed q } := by
  change Host.Outcome.next (fwpmapWrite s q) = _
  rw [fwpmapWrite_eq, if_neg (by rw [h]; decide)]

/-- What FWPMAP's write leaves. -/
theorem exec_fwpmapWrite_completes {s : State} {q : PartReq} (h : s.refuses q = false) :
    Completes (exec (.fwpmapWrite q) s) (fun t =>
      t.run.mem = s.run.mem ∧ t.run.waves = s.run.waves ∧ t.run.ctxs = s.run.ctxs ∧ t.sys.valid = true ∧
      mapOf t.sys = [0, 1, 2, 3].map (fun d => BitVec.ofNat 2 (lowestMate q.pd d)) ∧
      t.sys.lp = [0, 1, 2, 3].map (s.sys.shareAfter q) ∧ t.sys.boot = s.sys.boot ∧
      t.sys.bnd = [0, 1, 2, 3].map (fun n => if t.sys.splits n then 1 else 0) ∧
      (∀ n, (PartReq.heads q n = true ∧ s.sys.changes q n = true →
          (t.run.part n).dev = q.dev.getD n n ∧ (t.run.part n).cap = 600 * (mates q.pd n).length) ∧
        (PartReq.heads q n = false ∨ s.sys.changes q n = false → t.run.part n = s.run.part n)) ∧
      ∀ n, (s.sys.changes q (dieOf n) = true ∧ dieOf n < 4 → (t.run.core n).tlb = [] ∧ (t.run.core n).ro = []) ∧
        (s.sys.changes q (dieOf n) = false → t.run.core n = s.run.core n)) := by
  have hframe := formed_frame s.run (s.sys.formed q) q (s.sys.changed q)
  have hmem := congrArg Run.mem hframe
  have hwaves := congrArg Run.waves hframe
  have hctxs := congrArg Run.ctxs hframe
  obtain ⟨hvalid, hmap, hlp, hbnd⟩ := formed_registers s.sys q
  refine ⟨_, exec_fwpmapWrite_taken h, hmem, hwaves, hctxs, hvalid, hmap, hlp, rfl, hbnd, fun n => ?_, fun n => ?_⟩
  · rw [part_formed]
    refine ⟨fun hc => by rw [if_pos hc]; exact ⟨rfl, rfl⟩, fun hc => if_neg fun ⟨hh, hch⟩ => ?_⟩
    rcases hc with hc | hc
    · rw [hc] at hh; cases hh
    · rw [hc] at hch; cases hch
  · rw [core_formed]
    refine ⟨fun hc => by rw [if_pos hc.symm]; exact ⟨rfl, rfl⟩, fun hc => if_neg fun hch => ?_⟩
    rw [hc] at hch
    cases hch.2

/-! ## FWBND and FWLP -/

/-- FWBND takes the value the map wants, once the Inn is ready. -/
theorem exec_fwbndWrite (s : State) (n : Nat) (b : Bool) :
    (s.sys.ready = false ∨ 4 ≤ n ∨ b ≠ s.sys.splits n → exec (.fwbndWrite n b) s = .next s) ∧
    (s.sys.ready = true → n < 4 → b = s.sys.splits n →
      exec (.fwbndWrite n b) s = .next { s with sys := { s.sys with bnd := s.sys.bnd.set n (if b then 1 else 0) } }) := by
  change (_ → execFwbndWrite n b s = _) ∧ (_ → _ → _ → execFwbndWrite n b s = _)
  simp only [execFwbndWrite, Bool.and_eq_true, decide_eq_true_eq]
  constructor
  · intro h
    refine if_neg fun ⟨⟨hr, hn⟩, hb⟩ => ?_
    rcases h with h | h | h
    · rw [hr] at h; cases h
    · omega
    · exact h hb
  · exact fun hr hn hb => if_pos ⟨⟨hr, hn⟩, hb⟩

/-- The share a write of FWLP asks for meets that of another partition. -/
def Sys.meets (y : Sys) (n base size : Nat) : Prop :=
  ∃ m, m < 4 ∧ m ≠ n ∧ size ≠ 0 ∧ bits (y.lp.getD m 0) 8 8 ≠ 0 ∧
    base < bits (y.lp.getD m 0) 0 8 + bits (y.lp.getD m 0) 8 8 ∧ bits (y.lp.getD m 0) 0 8 < base + size

/-- The bandwidth given away once a write of FWLP is taken. -/
def Sys.bandwidthWith (y : Sys) (n bw : Nat) : Nat :=
  (([0, 1, 2, 3].filter (fun m => m ≠ n)).map (fun m => bits (y.lp.getD m 0) 16 8)).sum + bw

theorem lpOk_iff_meets (y : Sys) (n base size bw : Nat) :
    lpOk y n base size bw = true ↔ base + size ≤ 125 ∧ ¬y.meets n base size ∧ y.bandwidthWith n bw ≤ 100 := by
  rw [lpOk_iff, Sys.bandwidthWith]
  refine and_congr_right' (and_congr_left' ?_)
  simp only [Sys.meets, not_exists, not_and]
  refine forall_congr' fun m => forall_congr' fun hm => forall_congr' fun hne => ?_
  constructor
  · intro h hs hz hlt
    omega
  · intro h
    by_cases hs : size = 0
    · exact .inl hs
    · by_cases hz : bits (y.lp.getD m 0) 8 8 = 0
      · exact .inr (.inl hz)
      · have := h hs hz
        omega

/-- Whether the Inn takes a write of a share. -/
def State.takesShare (s : State) (n base size bw : Nat) : Bool :=
  s.sys.ready && n < 4 && s.sys.partOf n = n && base < 256 && lpOk s.sys n base size bw &&
    !(s.run.ctxs.any (fun e => e.2.part = n && e.2.running))

theorem takesShare_iff (s : State) (n base size bw : Nat) : s.takesShare n base size bw = true ↔
    s.sys.ready = true ∧ n < 4 ∧ s.sys.partOf n = n ∧ base + size ≤ 125 ∧ ¬s.sys.meets n base size ∧ s.sys.bandwidthWith n bw ≤ 100 ∧
      ∀ e ∈ s.run.ctxs, ¬(e.2.part = n ∧ e.2.running = true) := by
  simp only [State.takesShare, Bool.and_eq_true, decide_eq_true_eq, Bool.not_eq_true', List.any_eq_false, lpOk_iff_meets, and_assoc]
  constructor
  · exact fun ⟨hr, hn, hp, _, ht, hrest⟩ => ⟨hr, hn, hp, ht, hrest⟩
  · exact fun ⟨hr, hn, hp, ht, hrest⟩ => ⟨hr, hn, hp, by omega, ht, hrest⟩

/-- What FWLP's write does: nothing where it is refused. -/
theorem exec_fwlpWrite_eq (s : State) (n base size bw : Nat) :
    exec (.fwlpWrite n base size bw) s = if s.takesShare n base size bw then
      .next { s with sys := { s.sys with lp := s.sys.lp.set n (lpWord base size bw) } } else .next s := rfl

/-- FWLP takes, for a partition that is there, a share that fits, while no context of the partition runs. -/
theorem exec_fwlpWrite (s : State) (n base size bw : Nat) :
    (s.sys.ready = false ∨ 4 ≤ n ∨ s.sys.partOf n ≠ n ∨ s.sys.meets n base size ∨ 100 < s.sys.bandwidthWith n bw ∨ 125 < base + size ∨
      (∃ e ∈ s.run.ctxs, e.2.part = n ∧ e.2.running = true) → exec (.fwlpWrite n base size bw) s = .next s) ∧
    (s.sys.ready = true → n < 4 → s.sys.partOf n = n → ¬s.sys.meets n base size → s.sys.bandwidthWith n bw ≤ 100 → base + size ≤ 125 →
      (∀ e ∈ s.run.ctxs, e.2.part = n → e.2.running = false) →
      exec (.fwlpWrite n base size bw) s = .next { s with sys := { s.sys with lp := s.sys.lp.set n (lpWord base size bw) } }) := by
  rw [exec_fwlpWrite_eq]
  constructor
  · refine fun h => if_neg fun htake => ?_
    obtain ⟨hr, hn, hp, ht, hm, hw, hrun⟩ := (takesShare_iff s n base size bw).mp htake
    rcases h with h | h | h | h | h | h | ⟨e, he, hon⟩
    · rw [hr] at h; cases h
    · omega
    · exact h hp
    · exact hm h
    · omega
    · omega
    · exact hrun e he hon
  · refine fun hr hn hp hm hw ht hrun => if_pos ((takesShare_iff s n base size bw).mpr ⟨hr, hn, hp, ht, hm, hw, fun e he hon => ?_⟩)
    rw [hrun e he hon.1] at hon
    cases hon.2

/-- Settles O58: FWPMAP by `exec_fwpmapWrite_refused` and `exec_fwpmapWrite_completes`, whose conditions are complementary, FWBND and
FWLP by their equations. -/
theorem firewallWrites : Obligations.FirewallWrites := by
  unfold Obligations.FirewallWrites
  refine fun s => ⟨fun q => ⟨fun h => exec_fwpmapWrite_refused h, fun hr hs hv ht hd => ?_⟩, exec_fwbndWrite s, exec_fwlpWrite s⟩
  exact exec_fwpmapWrite_completes ((refuses_eq_false_iff s q).mpr ⟨hr, hs, hv, ht, hd⟩)

end Sys2Proof.Machine
end

section
/-! What the issue leaves of an instruction that sets the PCs itself, that waits to issue afresh, or that writes registers alone. -/

namespace Sys2Proof.Machine

/-! ## Waits -/

/-- An effect that waits to issue afresh, without a switch point: its group parks, and nothing else of the issue happens (R188). -/
theorem issue_park {s : State} {h : Hd} {c : Iss} {k : How} {eff : Sys → Run → Iss → Eff Unit} {r : Run} {q : Wait}
    (hI : Issues s h c k.uses) (hp : k.priv = false) (hw : k.whole = none) (hs : k.switch = false) (hq : ∀ ts, q ≠ .token ts)
    (he : eff s.sys s.run c = .park r (.retry q)) :
    issue s h k eff = .next { s with run := r.onWave c.wid (fun w => w.park c.m (.retry q)) } := by
  obtain ⟨hc, ha, hu⟩ := hI
  simp only [issue, hc, issueOn, hp, hw, Bool.false_and, Option.isSome_none, Bool.false_eq_true, if_false, ha, hu, he]
  cases q with
  | token ts => exact absurd rfl (hq ts)
  | _ => simp only [hs, Bool.false_and, Bool.false_eq_true, if_false]

/-! ## Branches -/

/-- STALL and YLD of a wave stand as they did (R46 to R48). -/
def Wave.SameHint (w u : Wave) : Prop := u.stall = w.stall ∧ u.yielded = w.yielded

theorem Wave.SameHint.refl (w : Wave) : w.SameHint w := ⟨rfl, rfl⟩

theorem Wave.SameHint.trans {w u z : Wave} (h : w.SameHint u) (g : u.SameHint z) : w.SameHint z :=
  ⟨g.1.trans h.1, g.2.trans h.2⟩

/-- The retirement of an instruction that has set the PCs itself touches STALL and YLD alone. -/
theorem Wave.retired_branch (clk : Nat) (c : Iss) (h : Hd) (us : List Use) {w u : Wave} (hu : w.SameHint u) :
    { Wave.retired clk c h { uses := us, branch := true } u with stall := w.stall, yielded := w.yielded } = u := by
  obtain ⟨hs, hy⟩ := hu
  rw [← hs, ← hy]
  simp only [Wave.retired, if_true, Bool.false_eq_true, if_false]
  split <;> rfl

/-- The issue of an instruction that sets the PCs itself and changes its wave alone. -/
theorem issue_branch {s : State} {h : Hd} {c : Iss} {us : List Use} {eff : Sys → Run → Iss → Eff Unit} {f : Wave → Wave}
    (hI : Issues s h c us) (he : eff s.sys s.run c = .ok (s.run.onWave c.wid f) ()) (hf : (s.wv c).SameHint (f (s.wv c))) :
    Completes (issue s h { uses := us, branch := true } eff) (fun t => DeviceKept s t c.wid ∧
      { t.wv c with stall := (s.wv c).stall, yielded := (s.wv c).yielded } = f (s.wv c)) := by
  obtain ⟨w, hw, -, hww⟩ := Run.issuer_wave _ _ _ hI.1
  refine ⟨_, issue_ok' hI (.inl rfl) (.inl rfl) rfl he, deviceKept_onWave, ?_⟩
  rw [State.wv, hww] at hf
  have hr := wave_onWave_retire (h := h) (k := { uses := us, branch := true }) (f := f) hw
  simp only [State.wv, hww, hr]
  exact Wave.retired_branch _ c h us hf

/-! ## Registers -/

/-- The issue of an instruction that changes registers of its wave alone, and the wave it leaves. -/
theorem issue_regs {s : State} {h : Hd} {c : Iss} {us : List Use} {vec : Bool} {eff : Sys → Run → Iss → Eff Unit} {f : Wave → Wave}
    {ds : List (Opd × Nat)} (hI : Issues s h c us) (he : eff s.sys s.run c = .ok (s.run.onWave c.wid f) ())
    (hp : (f (s.wv c)).parts = (s.wv c).parts) (hr : RegsKept (s.wv c) (f (s.wv c)) c.act ds) (hk : RestKept (s.wv c) (f (s.wv c))) :
    Completes (issue s h { uses := us, vec := vec } eff) (fun t => RegFrame s t c ds ∧ MovedOn s t c ∧
      t.wv c = Wave.retired s.run.clk c h { uses := us, vec := vec } (f (s.wv c))) := by
  obtain ⟨w, hw, -, hww⟩ := Run.issuer_wave _ _ _ hI.1
  rw [State.wv, hww] at hp hr hk ⊢
  refine ⟨_, issue_ok' hI (.inl rfl) (.inl rfl) rfl he, regFrame_onWave hw rfl hr hk, movedOn_onWave hw rfl rfl hp, ?_⟩
  exact wave_onWave_retire hw

theorem Completes.imp {o : Host.Outcome State Fault Refusal} {P Q : State → Prop} (h : Completes o P) (hi : ∀ t, P t → Q t) :
    Completes o Q := by
  obtain ⟨t, ht, hp⟩ := h
  exact ⟨t, ht, hi t hp⟩

end Sys2Proof.Machine
end

section
/-! The parts of a wave (R95 to R99): which updates leave STALL and YLD, and what a release of waiting lanes does. -/

namespace Sys2Proof.Machine

/-! ## STALL and YLD -/

theorem Wave.sameHint_settle (w : Wave) : w.SameHint w.settle := by
  unfold Wave.settle
  refine List.foldlRecOn w.parts _ (motive := fun u => w.SameHint u) (SameHint.refl w) fun u hu p _ => ?_
  split
  · exact hu
  · split <;> exact hu

theorem Wave.sameHint_release (w : Wave) : w.SameHint w.release := by
  unfold Wave.release
  split <;> exact SameHint.refl w

theorem Wave.sameHint_regroup (w : Wave) : w.SameHint w.regroup :=
  (sameHint_settle w).trans (sameHint_release w.settle)

theorem Wave.sameHint_divide (w : Wave) (m act : Lanes) (tgt : Word64) (slots : List Nat) : w.SameHint (w.divide m act tgt slots) := by
  unfold Wave.divide
  refine List.foldlRecOn w.parts _ (motive := fun acc : Wave × List Nat => w.SameHint acc.1) (SameHint.refl w) fun acc hacc p _ => ?_
  dsimp only
  split <;> exact hacc

theorem Wave.sameHint_divert (w : Wave) (m act : Lanes) (tgt : Nat → Word64) (slots : List Nat) :
    w.SameHint (w.divert m act tgt slots) := by
  unfold Wave.divert
  refine List.foldlRecOn w.parts _ (motive := fun acc : Wave × List Nat => w.SameHint acc.1) (SameHint.refl w) fun acc hacc p _ => ?_
  dsimp only
  split <;> exact hacc

theorem Wave.sameHint_put (w : Wave) (o : Opd) (i : Nat) (m : Lanes) (f : Nat → Word) : w.SameHint (w.put o i m f) := by
  cases o with
  | rel n x =>
    have h := foldl_setV_rest m.toList (fun l => (laneIds.map (fun l => (w.vIdx (.rel n x) l + i).toNat)).getD l 0) f w
    have hs := congrArg Wave.stall h
    have hy := congrArg Wave.yielded h
    exact ⟨hs, hy⟩
  | _ => exact SameHint.refl w

theorem Wave.sameHint_link (w : Wave) (d : Opd) (act : Lanes) (x : Word) : w.SameHint (w.link d act x) := by
  cases d with
  | s n => exact SameHint.refl w
  | _ => exact sameHint_put w _ 0 act _

theorem Wave.sameHint_dropLanes (w : Wave) (m gone : Lanes) : w.SameHint (w.dropLanes m gone) :=
  sameHint_regroup (w.onParts m _)

theorem Wave.sameHint_regang (w : Wave) (m act : Lanes) (k : Nat) : w.SameHint (w.regang m act k) :=
  sameHint_regroup _

/-! ## Lane sets of lists, largest and least of lists -/

/-- The lanes of a union over a list. -/
theorem getLsbD_foldl_or {α : Type} (g : α → Lanes) (xs : List α) (a : Lanes) (l : Nat) :
    (xs.foldl (fun m x => m ||| g x) a).getLsbD l = true ↔ a.getLsbD l = true ∨ ∃ x ∈ xs, (g x).getLsbD l = true := by
  induction xs generalizing a with
  | nil => simp
  | cons x xs ih =>
    rw [List.foldl_cons, ih, BitVec.getLsbD_or, Bool.or_eq_true, List.exists_mem_cons_iff, or_assoc]

/-- The largest value over a list and a start: a bound that the start or a member reaches. -/
theorem foldl_max_spec {α : Type} (f : α → Nat) (xs : List α) (a : Nat) :
    a ≤ xs.foldl (fun m x => max m (f x)) a ∧ (∀ x ∈ xs, f x ≤ xs.foldl (fun m x => max m (f x)) a) ∧
    (xs.foldl (fun m x => max m (f x)) a = a ∨ ∃ x ∈ xs, f x = xs.foldl (fun m x => max m (f x)) a) := by
  induction xs generalizing a with
  | nil => simp
  | cons x xs ih =>
    obtain ⟨hstart, hle, hmem⟩ := ih (max a (f x))
    rw [List.foldl_cons]
    refine ⟨by omega, fun y hy => ?_, ?_⟩
    · rcases List.mem_cons.mp hy with rfl | hy
      · omega
      · exact hle y hy
    · rcases hmem with hmem | ⟨y, hy, hmem⟩
      · rcases Nat.le_total (f x) a with h | h
        · exact .inl (hmem.trans (Nat.max_eq_left h))
        · exact .inr ⟨x, List.mem_cons_self, (hmem.trans (Nat.max_eq_right h)).symm⟩
      · exact .inr ⟨y, List.mem_cons_of_mem x hy, hmem⟩

/-- The least value over a list and a start. -/
theorem foldl_min_spec {α : Type} (f : α → Nat) (xs : List α) (a : Nat) :
    xs.foldl (fun m x => if f x < m then f x else m) a ≤ a ∧ (∀ x ∈ xs, xs.foldl (fun m x => if f x < m then f x else m) a ≤ f x) ∧
    (xs.foldl (fun m x => if f x < m then f x else m) a = a ∨ ∃ x ∈ xs, f x = xs.foldl (fun m x => if f x < m then f x else m) a) := by
  induction xs generalizing a with
  | nil => simp
  | cons x xs ih =>
    obtain ⟨hstart, hle, hmem⟩ := ih (if f x < a then f x else a)
    have ha : (if f x < a then f x else a) ≤ a := by split <;> omega
    have hx : (if f x < a then f x else a) ≤ f x := by split <;> omega
    rw [List.foldl_cons]
    refine ⟨hstart.trans ha, fun y hy => ?_, ?_⟩
    · rcases List.mem_cons.mp hy with rfl | hy
      · exact hstart.trans hx
      · exact hle y hy
    · rcases hmem with hmem | ⟨y, hy, hmem⟩
      · by_cases h : f x < a
        · exact .inr ⟨x, List.mem_cons_self, (hmem.trans (if_pos h)).symm⟩
        · exact .inl (hmem.trans (if_neg h))
      · exact .inr ⟨y, List.mem_cons_of_mem x hy, hmem⟩

/-! ## The release of waiting lanes (R99) -/

/-- A lane lies in the slice of its number. -/
theorem getLsbD_sliceMask (i l : Nat) (hl : l < 32) : (sliceMask i).getLsbD l = decide (l / 4 = i) := by
  unfold sliceMask
  rw [BitVec.getLsbD_shiftLeft]
  by_cases h : l / 4 = i
  · have : l - 4 * i < 4 := by omega
    have hb : (0xF#32).getLsbD (l - 4 * i) = true := by
      interval_cases l - 4 * i <;> rfl
    simp [hb, hl, h]
    omega
  · by_cases hlt : l < 4 * i
    · simp [hlt, h]
    · have hb : (0xF#32).getLsbD (l - 4 * i) = false := by
        rw [BitVec.getLsbD_ofNat, show (0xF : Nat) = 2 ^ 4 - 1 from rfl, Nat.testBit_two_pow_sub_one]
        have : ¬ l - 4 * i < 4 := by omega
        simp [this]
      simp [hb, h]

/-- A slice's part of the lanes `m`, at a fresh region entry, where it has any. -/
def releasedPart (m : Lanes) (pc : Word64) (i : Nat) : Option Part :=
  if m &&& sliceMask i = 0 then none else some { uid := i, slice := i, frag := none, mask := m &&& sliceMask i, pc := pc, rpc := pc }

theorem mem_releasedParts (m : Lanes) (pc : Word64) (p : Part) : p ∈ (List.range 8).filterMap (releasedPart m pc) ↔
    ∃ i, i < 8 ∧ m &&& sliceMask i ≠ 0 ∧ p = { uid := i, slice := i, frag := none, mask := m &&& sliceMask i, pc := pc, rpc := pc } := by
  rw [List.mem_filterMap]
  refine exists_congr fun i => ?_
  rw [List.mem_range, releasedPart]
  refine and_congr_right fun _ => ?_
  by_cases h : m &&& sliceMask i = 0
  · simp [h]
  · rw [if_neg h, Option.some_inj]
    exact ⟨fun e => ⟨h, e.symm⟩, fun e => e.2.symm⟩

/-- The slices' parts hold the lanes they are made of. -/
theorem getLsbD_releasedParts (m : Lanes) (pc : Word64) (l : Nat) (hl : l < 32) :
    (∃ p ∈ (List.range 8).filterMap (releasedPart m pc), p.mask.getLsbD l = true) ↔ m.getLsbD l = true := by
  have hbit (i : Nat) : (m &&& sliceMask i).getLsbD l = true ↔ m.getLsbD l = true ∧ l / 4 = i := by
    rw [BitVec.getLsbD_and, getLsbD_sliceMask i l hl, Bool.and_eq_true, decide_eq_true_iff]
  constructor
  · rintro ⟨p, hp, hmask⟩
    obtain ⟨i, -, -, rfl⟩ := (mem_releasedParts m pc p).mp hp
    exact ((hbit i).mp hmask).1
  · intro hm
    have hin := (hbit (l / 4)).mpr ⟨hm, rfl⟩
    refine ⟨_, (mem_releasedParts m pc _).mpr ⟨l / 4, by omega, fun h0 => ?_, rfl⟩, hin⟩
    rw [h0] at hin
    simp at hin

/-- The lanes that wait at k and an address. -/
def Wave.waitersAt (w : Wave) (k : Nat) (addr : Word64) : Lanes :=
  (w.waiting.filter (fun h => h.k = k ∧ h.addr = addr)).foldl (fun m h => m ||| h.lanes) 0

theorem Wave.getLsbD_waitersAt (w : Wave) (k : Nat) (addr : Word64) (l : Nat) :
    (w.waitersAt k addr).getLsbD l = true ↔ ∃ h ∈ w.waiting, h.k = k ∧ h.addr = addr ∧ h.lanes.getLsbD l = true := by
  rw [Wave.waitersAt, getLsbD_foldl_or]
  simp [and_assoc]

/-- The wave once the lanes waiting at k and an address run on behind it. -/
def Wave.released (w : Wave) (k : Nat) (addr : Word64) : Wave :=
  { w with
    waiting := w.waiting.filter (fun h => ¬(h.k = k ∧ h.addr = addr))
    parts := (List.range 8).filterMap (releasedPart (w.waitersAt k addr) (addr + 12))
    rgn := w.rgn + 1 }

/-- With nothing running and nothing held, a release is that of the lanes at the largest k, and there at the lowest address (R99). -/
theorem Wave.release_eq {w : Wave} (hp : w.parts = []) (hh : w.held = []) (hw : w.waiting ≠ []) :
    ∃ z ∈ w.waiting, (∀ h ∈ w.waiting, h.k ≤ z.k) ∧ (∀ h ∈ w.waiting, h.k = z.k → z.addr.toNat ≤ h.addr.toNat) ∧
      w.release = w.released z.k z.addr := by
  obtain ⟨-, hkle, hkmem⟩ := foldl_max_spec Waiting.k w.waiting 0
  set k := w.waiting.foldl (fun k h => max k h.k) 0 with hk
  obtain ⟨y, hy, hyk⟩ : ∃ y ∈ w.waiting, y.k = k := by
    rcases hkmem with h0 | h
    · obtain ⟨y, hy⟩ := List.exists_mem_of_ne_nil _ hw
      exact ⟨y, hy, by have := hkle y hy; omega⟩
    · exact h
  obtain ⟨-, hale, hamem⟩ := foldl_min_spec (fun h : Waiting => h.addr.toNat) (w.waiting.filter (fun h => h.k == k)) (2 ^ 64)
  set a := (w.waiting.filter (fun h => h.k == k)).foldl (fun a h => if h.addr.toNat < a then h.addr.toNat else a) (2 ^ 64) with ha
  obtain ⟨z, hz, hza⟩ : ∃ z ∈ w.waiting.filter (fun h => h.k == k), z.addr.toNat = a := by
    rcases hamem with h0 | h
    · have := hale y (List.mem_filter.mpr ⟨hy, by simp [hyk]⟩)
      have := y.addr.isLt
      omega
    · exact h
  rw [List.mem_filter, beq_iff_eq] at hz
  obtain ⟨hz, hzk⟩ := hz
  refine ⟨z, hz, fun h hm => by rw [hzk]; exact hkle h hm, fun h hm he => ?_, ?_⟩
  · rw [hza]
    exact hale h (List.mem_filter.mpr ⟨hm, by simp [he, hzk]⟩)
  · have hgo : (w.waiting.filter (fun h => h.k == k)).filter (fun h => h.addr.toNat == a) =
        w.waiting.filter (fun h => h.k = z.k ∧ h.addr = z.addr) := by
      rw [List.filter_filter]
      refine List.filter_congr fun h _ => ?_
      rw [hzk, ← hza, Bool.eq_iff_iff, Bool.and_eq_true, beq_iff_eq, beq_iff_eq, decide_eq_true_iff, BitVec.toNat_inj, and_comm]
    have hstay : w.waiting.filter (fun h => !((w.waiting.filter (fun h => h.k = z.k ∧ h.addr = z.addr)).contains h)) =
        w.waiting.filter (fun h => ¬(h.k = z.k ∧ h.addr = z.addr)) := by
      refine List.filter_congr fun h hm => ?_
      rw [Bool.eq_iff_iff]
      simp [hm]
    have hpc : BitVec.ofNat 64 (a + 12) = z.addr + 12 := by
      rw [← hza, BitVec.ofNat_add, BitVec.ofNat_toNat, BitVec.setWidth_eq]
      rfl
    unfold Wave.release Wave.released
    rw [if_neg (by simp [hp, hh, hw])]
    simp only [← hk, ← ha, hgo, hstay, hpc]
    rfl

end Sys2Proof.Machine
end

section
/-! EXIT and REGANG, settled (R107, R108, R297, R342, R481), with the release of waiting lanes (R99). -/

namespace Sys2Proof.Machine

/-! ## What EXIT's effect is -/

/-- What EXIT's effect is in a wave of which lanes stay. -/
theorem exitWave_some {y : Sys} {r : Run} {c : Iss} (hl : ((r.wave c.wid).live &&& ~~~c.act) ≠ 0)
    (hu : (r.wave c.wid).contWave = true → (r.wave c.wid).unperformed = false) :
    exitWave y r c = .ok ((retireRecords y r c.wid c.act).onWave c.wid (fun w => w.dropLanes c.m c.act)) () := by
  have hp : ((r.wave c.wid).contWave && (r.wave c.wid).unperformed) = false := by
    rw [Bool.and_eq_false_imp]; exact hu
  simp only [exitWave, hl, hp, Bool.false_eq_true, if_false]

/-- What it is where the wave's last lanes exit and no ticket is open. -/
theorem exitWave_last {y : Sys} {r : Run} {c : Iss} (hl : ((r.wave c.wid).live &&& ~~~c.act) = 0) (ht : (r.wave c.wid).txOpen = 0)
    (hu : (r.wave c.wid).contWave = true → (r.wave c.wid).unperformed = false) :
    exitWave y r c = .ok (waveEnd y r c.wid) () := by
  have hp : ((r.wave c.wid).contWave && (r.wave c.wid).unperformed) = false := by
    rw [Bool.and_eq_false_imp]; exact hu
  simp [exitWave, hl, ht, hp]

/-- In a continuation wave it waits as a release (R481). -/
theorem exitWave_waits {y : Sys} {r : Run} {c : Iss} (hc : (r.wave c.wid).contWave = true) (hu : (r.wave c.wid).unperformed = true)
    (h : ((r.wave c.wid).live &&& ~~~c.act) ≠ 0 ∨ (r.wave c.wid).txOpen = 0) :
    exitWave y r c = .park r (.retry (.release false)) := by
  by_cases hl : ((r.wave c.wid).live &&& ~~~c.act) = 0
  · have ht : (r.wave c.wid).txOpen = 0 := h.resolve_left fun hn => hn hl
    simp [exitWave, hl, ht, hc, hu]
  · simp only [exitWave, hl, hc, hu, Bool.and_self, if_true, if_false]

/-- No closed batch has failed. -/
theorem failedBatch_none {b : Block} (n : Nat) (h : ∀ x ∈ b.batches, ∀ e, x.st ≠ .failed e) : failedBatch b n = none := by
  rw [failedBatch, List.findSome?_eq_none_iff]
  intro x hx
  split
  · next f hf => exact absurd hf (h x hx f)
  · rfl

/-- A block that has open demands is resident. -/
theorem Run.block_resident {r : Run} {n : Nat} (h : (r.block n).openDemands ≠ []) : r.blocks.get? n = some (r.block n) := by
  unfold Run.block at h ⊢
  cases hb : r.blocks.get? n with
  | none => rw [hb] at h; exact absurd rfl h
  | some b => rfl

/-- With no demand and no batch left, EXIT ends the tile stream (R342). -/
theorem exitStream_ends {r : Run} {c : Iss} (hd : (r.block (r.wave c.wid).blk).openDemands = [])
    (hb : (r.block (r.wave c.wid).blk).batches = []) : exitStream r c = .ok (streamEnd r (r.wave c.wid).blk) () := by
  have hf (n : Nat) : failedBatch (r.block (r.wave c.wid).blk) n = none :=
    failedBatch_none n fun x hx => by rw [hb] at hx; cases hx
  simp [exitStream, hd, hf, Block.incomplete, hb]

/-- With open demands it closes the batch and waits for that one (R329, R342). -/
theorem exitStream_closes {r : Run} {c : Iss} (hd : (r.block (r.wave c.wid).blk).openDemands ≠ [])
    (hb : (r.block (r.wave c.wid).blk).batches.length < 4)
    (hok : ∀ x ∈ (r.block (r.wave c.wid).blk).batches, ∀ e, x.st ≠ .failed e) :
    exitStream r c = .park (r.onBlock (r.wave c.wid).blk Block.close)
      (.retry (.batches ((r.block (r.wave c.wid).blk).lastClosed + 1) true)) := by
  have hclose := Run.block_onBlock r _ Block.close _ (Run.block_resident hd)
  have hf (n : Nat) : failedBatch (r.block (r.wave c.wid).blk).close n = none := by
    refine failedBatch_none n fun x hx e => ?_
    rcases List.mem_append.mp hx with hx | hx
    · exact hok x hx e
    · rw [List.mem_singleton.mp hx]
      exact BatchState.noConfusion
  have hn : ¬4 ≤ (r.block (r.wave c.wid).blk).batches.length := Nat.not_le.mpr hb
  simp only [exitStream, Block.incomplete, hd, hn, and_false, if_false, hclose, hf]
  simp [Block.close]

/-! ## The instructions -/

section
variable {s : State} {h : Hd} {c : Iss} (hI : Issues s h c [])
include hI

/-- EXIT of a wave runs `exitWave`. -/
theorem exit_does {r : Run} (hs : (s.wv c).stream = false) (he : exitWave s.sys s.run c = .ok r ()) :
    Does s (.exit h) c h { branch := true } r :=
  issue_ok (k := { branch := true }) hI (.inl rfl) (.inl rfl) (by rw [← he]; exact if_neg (by rw [hs]; exact Bool.false_ne_true))

/-- EXIT of some lanes of an ordinary wave. -/
theorem exit_drops (hs : (s.wv c).stream = false) (hl : ((s.wv c).live &&& ~~~c.act) ≠ 0) (hc : (s.wv c).contWave = false) :
    Completes (exec (.exit h) s) (fun t => DeviceKept s t c.wid ∧
      { t.wv c with stall := (s.wv c).stall, yielded := (s.wv c).yielded } = (s.wv c).dropLanes c.m c.act) := by
  have hrec : retireRecords s.sys s.run c.wid c.act = s.run := by
    simp only [retireRecords, hc, Bool.not_false, if_true]
  have he := exitWave_some (y := s.sys) hl fun h => by rw [hc] at h; cases h
  rw [hrec] at he
  refine issue_branch (f := fun w => w.dropLanes c.m c.act) hI ?_ (Wave.sameHint_dropLanes _ _ _)
  rw [← he]
  exact if_neg (by rw [hs]; exact Bool.false_ne_true)

/-- EXIT of a wave's last lanes with a ticket open. -/
theorem exit_traps (hs : (s.wv c).stream = false) (hl : ((s.wv c).live &&& ~~~c.act) = 0) (ht : (s.wv c).txOpen ≠ 0) :
    Traps s (.exit h) c { cls := 10, sub := 0x10, mask := c.act, cw := (s.wv c).firstTicket } :=
  issue_trap (k := { branch := true }) hI (.inl rfl) (.inl rfl) (by
    simp only [hs, Bool.false_eq_true, if_false, exitWave, hl, if_true, ne_eq, ht, not_false_eq_true])

/-- EXIT whose effect waits parks its group. -/
theorem exit_waits {r : Run} {q : Wait} (hq : ∀ ts, q ≠ .token ts)
    (he : (if (s.wv c).stream then exitStream s.run c else exitWave s.sys s.run c) = .park r (.retry q)) :
    exec (.exit h) s = .next { s with run := r.onWave c.wid (fun w => w.park c.m (.retry q)) } :=
  issue_park (k := { branch := true }) hI rfl rfl rfl hq he

/-- EXIT of a tile stream with nothing left to evaluate. -/
theorem exit_endsStream (hs : (s.wv c).stream = true) (hd : (s.run.block (s.wv c).blk).openDemands = [])
    (hb : (s.run.block (s.wv c).blk).batches = []) : Does s (.exit h) c h { branch := true } (streamEnd s.run (s.wv c).blk) :=
  issue_ok (k := { branch := true }) hI (.inl rfl) (.inl rfl) ((if_pos hs).trans (exitStream_ends hd hb))

/-- REGANG once the accesses before it have performed. -/
theorem regang_arrives (k : BitVec 6) (hu : (s.wv c).unperformed = false) :
    Completes (exec (.regang h k) s) (fun t => DeviceKept s t c.wid ∧
      { t.wv c with stall := (s.wv c).stall, yielded := (s.wv c).yielded } = (s.wv c).regang c.m c.act k.toNat) :=
  issue_branch (f := fun w => w.regang c.m c.act k.toNat) hI (if_neg (by rw [hu]; exact Bool.false_ne_true))
    (Wave.sameHint_regang _ _ _ _)

/-- REGANG before they have (R297). -/
theorem regang_waits (k : BitVec 6) (hu : (s.wv c).unperformed = true) :
    exec (.regang h k) s = .next { s with run := s.run.onWave c.wid (fun w => w.park c.m (.retry (.release true))) } :=
  issue_park (k := { branch := true }) hI rfl rfl rfl (fun _ => Wait.noConfusion) (if_pos hu)

end

/-- The release of waiting lanes (R99). -/
theorem release_of_waiting {w : Wave} (hp : w.parts = []) (hh : w.held = []) (hw : w.waiting ≠ []) :
    ∃ (k : Nat) (addr : Word64), (∃ h ∈ w.waiting, h.k = k ∧ h.addr = addr) ∧ (∀ h ∈ w.waiting, h.k ≤ k) ∧
      (∀ h ∈ w.waiting, h.k = k → addr.toNat ≤ h.addr.toNat) ∧
      (∀ p ∈ w.release.parts, p.pc = addr + 12 ∧ p.rpc = addr + 12 ∧ p.frag = none ∧ p.uid = p.slice ∧ p.slice < 8) ∧
      (∀ l, l < 32 → ((∃ p ∈ w.release.parts, p.mask.getLsbD l = true) ↔
        ∃ h ∈ w.waiting, h.k = k ∧ h.addr = addr ∧ h.lanes.getLsbD l = true)) ∧
      (∀ h, h ∈ w.release.waiting ↔ h ∈ w.waiting ∧ ¬(h.k = k ∧ h.addr = addr)) ∧ w.release.rgn = w.rgn + 1 := by
  obtain ⟨z, hz, hk, ha, heq⟩ := Wave.release_eq hp hh hw
  rw [heq]
  refine ⟨z.k, z.addr, ⟨z, hz, rfl, rfl⟩, hk, ha, fun p hm => ?_, fun l hl => ?_, fun h => ?_, rfl⟩
  · obtain ⟨i, hi, -, rfl⟩ := (mem_releasedParts _ _ p).mp hm
    exact ⟨rfl, rfl, rfl, rfl, hi⟩
  · exact (getLsbD_releasedParts _ _ l hl).trans (w.getLsbD_waitersAt z.k z.addr l)
  · rw [Wave.released, List.mem_filter, decide_eq_true_iff]

/-- Settles O25: EXIT by the cases of its effect, REGANG by the accesses before it, the release by `Wave.release_eq`. -/
theorem exitAndRegang : Obligations.ExitAndRegang := by
  unfold Obligations.ExitAndRegang
  refine ⟨fun s h c hI => ?_, fun w => release_of_waiting⟩
  have wave {r : Run} {q : Wait} (hq : ∀ ts, q ≠ .token ts) (hs : (s.wv c).stream = false)
      (he : exitWave s.sys s.run c = .park r (.retry q)) := exit_waits hI hq ((if_neg (by rw [hs]; exact Bool.false_ne_true)).trans he)
  refine ⟨exit_drops hI, fun hs hl _ hu => exit_does hI hs (exitWave_some hl fun _ => hu),
    fun hs hl ht => exit_traps hI hs (not_not.mp hl) ht, fun hs hl ht hu => exit_does hI hs (exitWave_last (not_not.mp hl) ht hu),
    fun hs hc hu hor => wave (fun _ => Wait.noConfusion) hs (exitWave_waits hc hu hor), exit_endsStream hI,
    fun hs hd hb hok => exit_waits hI (fun _ => Wait.noConfusion) ((if_pos hs).trans (exitStream_closes hd hb hok)),
    fun hu k => regang_arrives hI k hu, fun hu k => regang_waits hI k hu⟩

end Sys2Proof.Machine
end

section
/-! The control transfers, settled (R44, R96, R105, R106). -/

namespace Sys2Proof.Machine

/-! ## The division of a part (R96) -/

theorem dividePart_none (p : Part) (fall tgt : Word64) (f : Option Nat) :
    dividePart p 0 fall tgt f = ({ p with pc := fall }, none, none) := by
  simp only [dividePart, if_true]

theorem dividePart_all {p : Part} {x : Lanes} (hx : x ≠ 0) (hn : p.mask &&& ~~~x = 0) (fall tgt : Word64) (f : Option Nat) :
    dividePart p x fall tgt f = ({ p with pc := tgt }, none, none) := by
  simp only [dividePart, hx, hn, if_false, if_true]

theorem dividePart_held {p : Part} {x : Lanes} (hx : x ≠ 0) (hn : p.mask &&& ~~~x ≠ 0) (fall tgt : Word64) :
    dividePart p x fall tgt none = ({ p with mask := p.mask &&& ~~~x, pc := fall }, none, some ⟨x, tgt, p.rpc, p.uid⟩) := by
  simp only [dividePart, hx, hn, if_false]

theorem dividePart_taken {p : Part} {x : Lanes} (hx : x ≠ 0) (hn : p.mask &&& ~~~x ≠ 0) (fall tgt : Word64) (slot : Nat)
    (hc : x.count ≤ Lanes.count (p.mask &&& ~~~x)) : dividePart p x fall tgt (some slot) =
      ({ p with mask := p.mask &&& ~~~x, pc := fall }, some ⟨8 + slot, p.slice, some slot, x, tgt, p.rpc, .run⟩, none) := by
  simp only [dividePart, hx, hn, hc, if_false, if_true]

theorem dividePart_fallen {p : Part} {x : Lanes} (hsub : x &&& p.mask = x) (hx : x ≠ 0) (hn : p.mask &&& ~~~x ≠ 0) (fall tgt : Word64)
    (slot : Nat) (hc : Lanes.count (p.mask &&& ~~~x) < x.count) : dividePart p x fall tgt (some slot) =
      ({ p with mask := x, pc := tgt }, some ⟨8 + slot, p.slice, some slot, p.mask &&& ~~~x, fall, p.rpc, .run⟩, none) := by
  have hne : p.mask &&& ~~~x ≠ x := fun e => by rw [e] at hc; exact Nat.lt_irrefl _ hc
  have hrest : p.mask &&& ~~~(p.mask &&& ~~~x) = x := by
    rw [BitVec.not_and, BitVec.not_not, BitVec.and_or_distrib_left, BitVec.and_not_self, BitVec.ofNat_eq_ofNat, BitVec.zero_or,
      BitVec.and_comm]
    exact hsub
  simp only [dividePart, hx, hn, Nat.not_le.mpr hc, hne, hrest, if_false]

/-! ## Offsets that trap (R106) -/

theorem getD_map_laneIds {α : Type} (f : Nat → α) (x : α) (l : Nat) (hl : l < 32) : (laneIds.map f).getD l x = f l := by
  simp [laneIds, List.getD, hl]

/-- The active lanes whose offset fails a check, with their offsets. -/
def faultyOffsets (act : Lanes) (off : Nat → Nat) (bad : Nat → Bool) : List (Nat × Nat) :=
  (act.toList.map (fun l => (l, off l))).filter (fun e => bad e.2)

theorem mem_faultyOffsets (act : Lanes) (off : Nat → Nat) (bad : Nat → Bool) (e : Nat × Nat) : e ∈ faultyOffsets act off bad ↔
    (e.1 < 32 ∧ act.getLsbD e.1 = true) ∧ off e.1 = e.2 ∧ bad e.2 = true := by
  obtain ⟨l, x⟩ := e
  simp only [faultyOffsets, List.mem_filter, List.mem_map, mem_toList, Prod.mk.injEq]
  constructor
  · rintro ⟨⟨k, hk, rfl, hx⟩, hb⟩
    exact ⟨hk, hx, hb⟩
  · rintro ⟨hl, hx, hb⟩
    exact ⟨⟨l, hl, rfl, hx⟩, hb⟩

theorem faultyOffsets_ne_nil (act : Lanes) (off : Nat → Nat) (bad : Nat → Bool) :
    faultyOffsets act off bad ≠ [] ↔ ∃ l, l < 32 ∧ act.getLsbD l = true ∧ bad (off l) = true := by
  constructor
  · intro h
    obtain ⟨e, he⟩ := List.exists_mem_of_ne_nil _ h
    obtain ⟨⟨hl, ha⟩, hx, hb⟩ := (mem_faultyOffsets act off bad e).mp he
    exact ⟨e.1, hl, ha, by rw [hx]; exact hb⟩
  · rintro ⟨l, hl, ha, hb⟩
    exact List.ne_nil_of_mem ((mem_faultyOffsets act off bad (l, off l)).mpr ⟨⟨hl, ha⟩, rfl, hb⟩)

/-- The trap of offsets names the lanes at fault. -/
theorem getLsbD_mask_memTrap (sub b : Nat) (act : Lanes) (off : Nat → Nat) (bad : Nat → Bool) (l : Nat) (hl : l < 32) :
    (memTrap sub ((faultyOffsets act off bad).map (fun e => (e.1, b + e.2)))).mask.getLsbD l = true ↔
      act.getLsbD l = true ∧ bad (off l) = true := by
  change (lanesOf _).getLsbD l = true ↔ _
  rw [lanesOf, getLsbD_ofTest _ _ hl, List.any_map, List.any_eq_true]
  constructor
  · rintro ⟨e, he, hk⟩
    obtain ⟨⟨-, ha⟩, hx, hb⟩ := (mem_faultyOffsets act off bad e).mp he
    have hk : e.1 = l := beq_iff_eq.mp hk
    rw [← hk, hx]
    exact ⟨ha, hb⟩
  · rintro ⟨ha, hb⟩
    exact ⟨(l, off l), (mem_faultyOffsets act off bad _).mpr ⟨⟨hl, ha⟩, rfl, hb⟩, beq_self_eq_true l⟩

/-- The checks in their order: alignment, then range. -/
theorem offsetTrap_eq (base : Word64) (size : Nat) (act : Lanes) (off : Nat → Nat) : offsetTrap base size act off =
    if faultyOffsets act off (fun x => x % 4 ≠ 0) ≠ [] then
      some (memTrap 1 ((faultyOffsets act off (fun x => x % 4 ≠ 0)).map (fun e => (e.1, base.toNat + e.2))))
    else if faultyOffsets act off (fun x => size ≤ x) ≠ [] then
      some (memTrap 2 ((faultyOffsets act off (fun x => size ≤ x)).map (fun e => (e.1, base.toNat + e.2))))
    else none := by
  change (match faultyOffsets act off (fun x => x % 4 ≠ 0), faultyOffsets act off (fun x => size ≤ x) with
    | [], [] => none
    | [], far => some (memTrap 2 (far.map (fun e : Nat × Nat => (e.1, base.toNat + e.2))))
    | mis, _ => some (memTrap 1 (mis.map (fun e : Nat × Nat => (e.1, base.toNat + e.2))))) = _
  cases faultyOffsets act off (fun x => x % 4 ≠ 0) with
  | cons e es => rfl
  | nil => cases faultyOffsets act off (fun x => size ≤ x) <;> rfl

/-! ## Transfers (R106) -/

/-- The offset that a transfer reads in a lane. -/
def Run.offsetOf (r : Run) (c : Iss) (o : Ops) (l : Nat) : Nat := (r.rdLane c.wid o.a 0 l).toNat

/-- The trap of a transfer's offsets, if any. -/
def Run.transferTrap (r : Run) (c : Iss) (o : Ops) : Option Trap :=
  offsetTrap (r.codeBase (r.wave c.wid)) (r.codeSize (r.wave c.wid)) c.act (fun l => (laneIds.map (r.offsetOf c o)).getD l 0)

/-- A wave whose active lanes go where a transfer's offsets lead. -/
def Run.transferred (r : Run) (c : Iss) (o : Ops) (u : Wave) : Wave :=
  (u.divert c.m c.act (fun l => r.codeBase (r.wave c.wid) + BitVec.ofNat 64 ((laneIds.map (r.offsetOf c o)).getD l 0))
    (r.fragsFree c.wid (r.wave c.wid))).regroup

theorem Run.transferTrap_eq_none {r : Run} {c : Iss} {o : Ops}
    (h : ∀ l, l < 32 → c.act.getLsbD l = true → r.offsetOf c o l % 4 = 0 ∧ r.offsetOf c o l < r.codeSize (r.wave c.wid)) :
    r.transferTrap c o = none := by
  rw [Run.transferTrap, offsetTrap_eq, if_neg, if_neg]
  · rw [faultyOffsets_ne_nil]
    rintro ⟨l, hl, ha, hb⟩
    rw [getD_map_laneIds _ _ _ hl, decide_eq_true_iff] at hb
    exact Nat.not_le.mpr (h l hl ha).2 hb
  · rw [faultyOffsets_ne_nil]
    rintro ⟨l, hl, ha, hb⟩
    rw [getD_map_laneIds _ _ _ hl, decide_eq_true_iff] at hb
    exact hb (h l hl ha).1

theorem Run.transferTrap_misaligned {r : Run} {c : Iss} {o : Ops}
    (h : ∃ l, l < 32 ∧ c.act.getLsbD l = true ∧ r.offsetOf c o l % 4 ≠ 0) :
    ∃ t, t.cls = 7 ∧ t.sub = 1 ∧ (∀ l, l < 32 → (t.mask.getLsbD l = true ↔ c.act.getLsbD l = true ∧ r.offsetOf c o l % 4 ≠ 0)) ∧
      r.transferTrap c o = some t := by
  have hbad : faultyOffsets c.act (fun l => (laneIds.map (r.offsetOf c o)).getD l 0) (fun x => x % 4 ≠ 0) ≠ [] := by
    obtain ⟨l, hl, ha, hb⟩ := h
    exact (faultyOffsets_ne_nil _ _ _).mpr ⟨l, hl, ha, by rw [getD_map_laneIds _ _ _ hl, decide_eq_true_iff]; exact hb⟩
  refine ⟨_, rfl, rfl, fun l hl => ?_, (offsetTrap_eq _ _ _ _).trans (if_pos hbad)⟩
  rw [getLsbD_mask_memTrap _ _ _ _ _ l hl, getD_map_laneIds _ _ _ hl, decide_eq_true_iff]

theorem Run.transferTrap_far {r : Run} {c : Iss} {o : Ops}
    (hal : ∀ l, l < 32 → c.act.getLsbD l = true → r.offsetOf c o l % 4 = 0)
    (h : ∃ l, l < 32 ∧ c.act.getLsbD l = true ∧ r.codeSize (r.wave c.wid) ≤ r.offsetOf c o l) :
    ∃ t, t.cls = 7 ∧ t.sub = 2 ∧
      (∀ l, l < 32 → (t.mask.getLsbD l = true ↔ c.act.getLsbD l = true ∧ r.codeSize (r.wave c.wid) ≤ r.offsetOf c o l)) ∧
      r.transferTrap c o = some t := by
  have hgood : ¬faultyOffsets c.act (fun l => (laneIds.map (r.offsetOf c o)).getD l 0) (fun x => x % 4 ≠ 0) ≠ [] := by
    rw [faultyOffsets_ne_nil]
    rintro ⟨l, hl, ha, hb⟩
    rw [getD_map_laneIds _ _ _ hl, decide_eq_true_iff] at hb
    exact hb (hal l hl ha)
  have hbad : faultyOffsets c.act (fun l => (laneIds.map (r.offsetOf c o)).getD l 0)
      (fun x => r.codeSize (r.wave c.wid) ≤ x) ≠ [] := by
    obtain ⟨l, hl, ha, hb⟩ := h
    exact (faultyOffsets_ne_nil _ _ _).mpr ⟨l, hl, ha, by rw [getD_map_laneIds _ _ _ hl, decide_eq_true_iff]; exact hb⟩
  refine ⟨_, rfl, rfl, fun l hl => ?_, (offsetTrap_eq _ _ _ _).trans ((if_neg hgood).trans (if_pos hbad))⟩
  rw [getLsbD_mask_memTrap _ _ _ _ _ l hl, getD_map_laneIds _ _ _ hl, decide_eq_true_iff]

/-- A transfer's effect: its trap, or the link where there is one, and the lanes sent. -/
theorem transfer_eq (link : Bool) (o : Ops) (y : Sys) (r : Run) (c : Iss) : transfer link o y r c =
    match r.transferTrap c o with
    | some t => .trap r t
    | none => .ok (r.onWave c.wid (fun w => r.transferred c o (if link then w.link o.d c.act (r.linkValue c) else w))) () := rfl

section
variable {s : State} {h : Hd} {o : Ops} {c : Iss} (hI : Issues s h c (usesOf h o))
include hI

/-- A transfer that passes its checks. -/
theorem transfer_completes (link : Bool)
    (hok : ∀ l, l < 32 → c.act.getLsbD l = true → s.run.offsetOf c o l % 4 = 0 ∧ s.run.offsetOf c o l < s.run.codeSize (s.wv c)) :
    Completes (issue s h { uses := usesOf h o, branch := true } (transfer link o)) (fun t => DeviceKept s t c.wid ∧
      { t.wv c with stall := (s.wv c).stall, yielded := (s.wv c).yielded } =
        s.run.transferred c o (if link then (s.wv c).link o.d c.act (s.run.linkValue c) else s.wv c)) := by
  refine issue_branch (f := fun w => s.run.transferred c o (if link then w.link o.d c.act (s.run.linkValue c) else w)) hI ?_ ?_
  · rw [transfer_eq, Run.transferTrap_eq_none hok]
  · have hlink : (s.wv c).SameHint (if link then (s.wv c).link o.d c.act (s.run.linkValue c) else s.wv c) := by
      cases link
      · exact Wave.SameHint.refl _
      · exact Wave.sameHint_link _ _ _ _
    exact hlink.trans ((Wave.sameHint_divert _ _ _ _ _).trans (Wave.sameHint_regroup _))

/-- A transfer whose offsets trap. -/
theorem transfer_traps (link : Bool) {t : Trap} (ht : s.run.transferTrap c o = some t) :
    issue s h { uses := usesOf h o, branch := true } (transfer link o) = .next { s with run := trapAt s.sys s.run c t } :=
  issue_trap (k := { uses := usesOf h o, branch := true }) hI (.inl rfl) (.inl rfl) (by rw [transfer_eq, ht])

/-- CALL links and goes, with no offset checks. -/
theorem call_completes : Completes (exec (.call h o) s) (fun t => DeviceKept s t c.wid ∧
    { t.wv c with stall := (s.wv c).stall, yielded := (s.wv c).yielded } =
      (((s.wv c).link o.d c.act (s.run.linkValue c)).divert c.m c.act (fun _ => branchTarget c.pc o.x)
        (s.run.fragsFree c.wid (s.wv c))).regroup) :=
  issue_branch (f := fun w => ((w.link o.d c.act (s.run.linkValue c)).divert c.m c.act (fun _ => branchTarget c.pc o.x)
      (s.run.fragsFree c.wid (s.wv c))).regroup) hI rfl
    ((Wave.sameHint_link _ _ _ _).trans ((Wave.sameHint_divert _ _ _ _ _).trans (Wave.sameHint_regroup _)))

end

theorem bra_completes {s : State} {h : Hd} {off : BitVec 24} {c : Iss} (hI : Issues s h c []) :
    Completes (exec (.bra h off) s) (fun t => DeviceKept s t c.wid ∧
      { t.wv c with stall := (s.wv c).stall, yielded := (s.wv c).yielded } =
        ((s.wv c).divide c.m c.act (branchTarget c.pc off) (s.run.fragsFree c.wid (s.wv c))).regroup) :=
  issue_branch (f := fun w => (w.divide c.m c.act (branchTarget c.pc off) (s.run.fragsFree c.wid w)).regroup) hI rfl
    ((Wave.sameHint_divide _ _ _ _ _).trans (Wave.sameHint_regroup _))

/-! ## The link -/

theorem Wave.sReg_link (u : Wave) {d : Opd} {n : BitVec 7} (hd : d = .s n) (act : Lanes) (x : Word) :
    (u.link d act x).sReg n.toNat = x.setWidth 64 := by
  subst hd
  simp [Wave.link]

theorem Wave.lane_link (u : Wave) {d : Opd} (act : Lanes) (x : Word) {l : Nat} (hd : Opd.laneReg d = true) (hl : l < 32)
    (ha : act.getLsbD l = true) : u.lane (u.link d act x) d 0 l = x := by
  have hp := lane_put u d 0 act (fun _ => x) l hl ha hd
  cases d with
  | s n => cases hd
  | _ => exact hp

/-! ## One address for all lanes -/

/-- Adding lanes of one address to their group. -/
theorem foldl_addrGroups_const (a : Word64) (xs : List Nat) (m : Lanes) :
    xs.foldl (fun (gs : List (Word64 × Lanes)) (l : Nat) =>
      if gs.any (fun g => g.1 == a) then gs.map (fun g => if g.1 == a then (g.1, g.2 ||| laneBit l) else g)
      else gs ++ [(a, laneBit l)]) [(a, m)] = [(a, xs.foldl (fun m l => m ||| laneBit l) m)] := by
  induction xs generalizing m with
  | nil => rfl
  | cons x xs ih =>
    rw [List.foldl_cons, List.foldl_cons, ← ih]
    simp

/-- A lane set is the union of its members. -/
theorem foldl_laneBit_toList (m : Lanes) : (Lanes.toList m).foldl (fun m l => m ||| laneBit l) 0 = m := by
  refine BitVec.eq_of_getLsbD_eq fun l hl => ?_
  rw [Bool.eq_iff_iff, getLsbD_foldl_or]
  constructor
  · rintro (h | ⟨k, hk, hb⟩)
    · simp at h
    · rw [getLsbD_laneBit k l hl, decide_eq_true_iff] at hb
      rw [hb]
      exact ((mem_toList m k).mp hk).2
  · intro h
    exact .inr ⟨l, (mem_toList m l).mpr ⟨hl, h⟩, by rw [getLsbD_laneBit l l hl]; exact decide_eq_true rfl⟩

/-- Lanes that all go to one address are one group. -/
theorem addrGroups_const {p : Part} (a : Word64) (hp : p.mask ≠ 0) : addrGroups p (fun _ => a) = [(a, p.mask)] := by
  have hm := foldl_laneBit_toList p.mask
  unfold addrGroups
  cases hl : p.mask.toList with
  | nil => rw [hl] at hm; exact absurd hm.symm hp
  | cons l ls =>
    rw [hl, List.foldl_cons] at hm
    rw [List.foldl_cons]
    refine (foldl_addrGroups_const a ls (laneBit l)).trans ?_
    rw [← hm]
    simp

theorem keptGroup_single (g : Word64 × Lanes) (fall : Word64) (f : Nat) : keptGroup [g] fall f = some g := by
  simp only [keptGroup, List.length_singleton, Nat.sub_self, Nat.zero_le, if_true, List.foldl_cons, List.foldl_nil, Nat.zero_max]
  by_cases h : g.1 = fall
  · simp [h]
  · simp [h]

/-- A part whose lanes all go to one address moves there whole. -/
theorem divertPart_const {p : Part} (a fall : Word64) (f : Nat) (slots : List Nat) (hp : p.mask ≠ 0) :
    divertPart p (fun _ => a) fall f slots = ({ p with pc := a, park := .run }, [], [], slots) := by
  simp [divertPart, addrGroups_const a hp, keptGroup_single]

/-- Settles O24: BRA, CALL and the transfers by their issue, the division and the transfer to one address by their cases. -/
theorem controlTransfers : Obligations.ControlTransfers := by
  unfold Obligations.ControlTransfers
  refine ⟨fun s h off c hI => bra_completes hI, fun p x fall tgt f hsub => ⟨fun hx => ?_, fun hx hn => dividePart_all hx hn fall tgt f,
    fun hx hn hf => ?_, fun slot hx hn hf => ?_⟩, fun s h o c hI => ⟨fun hok => ?_, fun hbad => ?_, fun hal hbad => ?_, call_completes hI,
    fun u n hd => u.sReg_link hd _ _, fun u l hd hl ha => u.lane_link _ _ hd hl ha⟩,
    fun p a fall f slots hp => divertPart_const a fall f slots hp⟩
  · subst hx
    exact dividePart_none p fall tgt f
  · subst hf
    exact dividePart_held hx hn fall tgt
  · subst hf
    exact ⟨dividePart_taken hx hn fall tgt slot, dividePart_fallen hsub hx hn fall tgt slot⟩
  · exact ⟨transfer_completes hI false hok, transfer_completes hI false hok, transfer_completes hI true hok⟩
  · obtain ⟨t, hcls, hsub, hmask, ht⟩ := Run.transferTrap_misaligned hbad
    exact ⟨t, hcls, hsub, hmask, transfer_traps hI false ht, transfer_traps hI false ht, transfer_traps hI true ht⟩
  · obtain ⟨t, hcls, hsub, hmask, ht⟩ := Run.transferTrap_far hal hbad
    exact ⟨t, hcls, hsub, hmask, transfer_traps hI false ht, transfer_traps hI false ht, transfer_traps hI true ht⟩

end Sys2Proof.Machine
end

section
/-! VOTE, VBAL and VFIRST, settled (R115). -/

namespace Sys2Proof.Machine

/-! ## Sets of lanes -/

theorem Lanes.ne_zero_iff (m : Lanes) : m ≠ 0 ↔ ∃ l, m.getLsbD l = true := by
  rw [ne_eq, BitVec.eq_of_getLsbD_eq_iff, not_forall]
  refine exists_congr fun l => ?_
  simp only [BitVec.ofNat_eq_ofNat, BitVec.getLsbD_zero, Bool.not_eq_false, not_forall, exists_prop]
  exact ⟨And.right, fun h => ⟨BitVec.lt_of_getLsbD h, h⟩⟩

/-- A subset is the whole where it has every member. -/
theorem Lanes.eq_iff_of_subset {m a : Lanes} (h : ∀ l, m.getLsbD l = true → a.getLsbD l = true) :
    m = a ↔ ∀ l, a.getLsbD l = true → m.getLsbD l = true := by
  refine ⟨fun e l => by rw [e]; exact id, fun hall => BitVec.eq_of_getLsbD_eq fun l _ => ?_⟩
  rw [Bool.eq_iff_iff]
  exact ⟨h l, hall l⟩

theorem Lanes.lowest_of_empty {m : Lanes} (h : ¬∃ l, m.getLsbD l = true) : Lanes.lowest m = 32 := by
  rw [Lanes.lowest, Lanes.toList, List.head?_filter, List.find?_eq_none.mpr fun l _ hl => h ⟨l, hl⟩]
  rfl

theorem Lanes.lowest_eq {m : Lanes} {n : Nat} (hn : m.getLsbD n = true) (hmin : ∀ k, k < n → ¬m.getLsbD k = true) :
    Lanes.lowest m = n := by
  have hlt : n < 32 := BitVec.lt_of_getLsbD hn
  have hfind : (List.range 32).find? (fun l => m.getLsbD l) = some n :=
    List.find?_range_eq_some.mpr ⟨hn, List.mem_range.mpr hlt, fun k hk => by simpa using hmin k hk⟩
  rw [Lanes.lowest, Lanes.toList, List.head?_filter, laneIds, hfind]
  rfl

/-! ## Where a result goes -/

/-- A result in a scalar, or in each active lane of a predicate or a vector. -/
def Wave.putVote (w : Wave) (act : Lanes) (d : Opd) (x : Word64) (f : Nat → Bool) : Wave :=
  match d with
  | .s n => w.setS n.toNat x
  | .p n => w.setP n.toNat act f
  | d => w.put d 0 act (fun _ => x.setWidth 32)

theorem Run.putVote_eq (r : Run) (c : Iss) (d : Opd) (x : Word64) (f : Nat → Bool) :
    r.putVote c d x f = r.onWave c.wid (fun w => w.putVote c.act d x f) := by
  cases d <;> rfl

theorem Wave.putVote_kept (w : Wave) (act : Lanes) (d : Opd) (x : Word64) (f : Nat → Bool) :
    (w.putVote act d x f).parts = w.parts ∧ RegsKept w (w.putVote act d x f) act [(d, 1)] ∧ RestKept w (w.putVote act d x f) := by
  cases d with
  | s n => exact ⟨rfl, regsKept_setS w n x act, restKept_setS w n.toNat x⟩
  | p n => exact ⟨w.setP_parts _ _ _, regsKept_setP w n act f, restKept_setP w n.toNat act f⟩
  | _ => exact ⟨w.put_parts _ _ _ _, regsKept_put w _ 0 1 act (fun _ => x.setWidth 32) Nat.one_pos, restKept_put w _ 0 act _⟩

theorem Wave.lane_putVote (w : Wave) {act : Lanes} {d : Opd} (x : Word64) (f : Nat → Bool) {l : Nat} (hd : Opd.laneReg d = true)
    (hl : l < 32) (ha : act.getLsbD l = true) : w.lane (w.putVote act d x f) d 0 l = x.setWidth 32 := by
  have hput := lane_put w d 0 act (fun _ => x.setWidth 32) l hl ha hd
  cases d with
  | s n => cases hd
  | p n => cases hd
  | _ => exact hput

/-- The issue of an instruction that leaves such a result. -/
theorem putVote_completes {s : State} {h : Hd} {o : Ops} {c : Iss} {eff : Sys → Run → Iss → Eff Unit} {x : Word64} {f : Nat → Bool}
    (hI : Issues s h c (usesOf h o)) (he : eff s.sys s.run c = .ok (s.run.putVote c o.d x f) ()) :
    Completes (issue s h { uses := usesOf h o, vec := true } eff) (fun t => RegFrame s t c [(o.d, 1)] ∧ MovedOn s t c ∧
      (∀ d, o.d = .s d → (t.wv c).sReg d.toNat = x) ∧
      (∀ d, o.d = .p d → d ≠ 15 → ∀ l, l < 32 → c.act.getLsbD l = true → ((t.wv c).pReg d.toNat).getLsbD l = f l) ∧
      (Opd.laneReg o.d = true → ∀ l, l < 32 → c.act.getLsbD l = true → (s.wv c).lane (t.wv c) o.d 0 l = x.setWidth 32)) := by
  obtain ⟨hp, hr, hk⟩ := (s.wv c).putVote_kept c.act o.d x f
  rw [Run.putVote_eq] at he
  refine (issue_regs hI he hp hr hk).imp fun t ⟨hframe, hmoved, ht⟩ => ⟨hframe, hmoved, ?_⟩
  rw [ht]
  refine ⟨fun d hd => ?_, fun d hd h15 l hl ha => ?_, fun hd l hl ha => ?_⟩
  · rw [hd, Wave.sReg_retired]
    simp [Wave.putVote]
  · have hne : d.toNat ≠ 15 := fun e => h15 (BitVec.eq_of_toNat_eq e)
    rw [hd, Wave.pReg_retired]
    exact (Wave.getLsbD_pReg_setP _ _ _ _ _ _ hl).trans (if_pos ⟨rfl, hne, ha⟩)
  · rw [Wave.lane_retired]
    exact (s.wv c).lane_putVote x f hd hl ha

/-! ## The results -/

/-- What VOTE finds of the active lanes in which its predicate is true. -/
def voteOf (m : VoteMode) (t act : Lanes) : Bool :=
  match m with
  | .all => t == act
  | .any => t ≠ 0
  | .uni => t == act || t == 0

theorem exec_vote (h : Hd) (m : VoteMode) (o : Ops) (s : State) : exec (.vote h m o) s =
    issue s h { uses := usesOf h o, vec := true } (fun _ r c => .ok (r.putVote c o.d
      (if voteOf m (r.trueLanes c o.a) c.act then 1 else 0) (fun _ => voteOf m (r.trueLanes c o.a) c.act)) ()) := by
  cases m <;> rfl

/-- An active lane in which the predicate is true. -/
theorem getLsbD_trueLanes {r : Run} {c : Iss} {o : Opd} {p : BitVec 4} (ho : o = .p p) (l : Nat) :
    (r.trueLanes c o).getLsbD l = true ↔
      l < 32 ∧ c.act.getLsbD l = true ∧ ((r.wave c.wid).pSee p.toNat).getLsbD l = true := by
  subst ho
  rw [Run.trueLanes, BitVec.getLsbD_and, Bool.and_eq_true]
  exact ⟨fun h => ⟨BitVec.lt_of_getLsbD h.1, h⟩, And.right⟩

theorem voteOf_iff (m : VoteMode) {t act : Lanes} (h : ∀ l, t.getLsbD l = true → act.getLsbD l = true) :
    voteOf m t act = true ↔ match m with
      | .all => ∀ l, act.getLsbD l = true → t.getLsbD l = true
      | .any => ∃ l, t.getLsbD l = true
      | .uni => (∀ l, act.getLsbD l = true → t.getLsbD l = true) ∨ ¬∃ l, t.getLsbD l = true := by
  cases m with
  | all => exact beq_iff_eq.trans (Lanes.eq_iff_of_subset h)
  | any => exact decide_eq_true_iff.trans (Lanes.ne_zero_iff t)
  | uni =>
    change (t == act || t == 0) = true ↔ _
    rw [Bool.or_eq_true, beq_iff_eq, beq_iff_eq, Lanes.eq_iff_of_subset h, ← Lanes.ne_zero_iff, not_not]

/-- The number VFIRST gives of the lowest lane. -/
theorem firstWord_eq {t : Lanes} {i : Int}
    (hi : (i = -1 ∧ ¬∃ l, t.getLsbD l = true) ∨ ∃ n : Nat, i = n ∧ t.getLsbD n = true ∧ ∀ k, k < n → ¬t.getLsbD k = true) :
    (if Lanes.lowest t < 32 then BitVec.ofNat 64 (Lanes.lowest t) else BitVec.ofInt 64 (-1)) = BitVec.ofInt 64 i ∧
    ∀ l, l < 32 → (l == Lanes.lowest t) = decide ((l : Int) = i) := by
  rcases hi with ⟨rfl, hnone⟩ | ⟨n, rfl, hn, hmin⟩
  · rw [Lanes.lowest_of_empty hnone]
    refine ⟨rfl, fun l hl => ?_⟩
    rw [Bool.eq_iff_iff, beq_iff_eq, decide_eq_true_iff]
    omega
  · rw [Lanes.lowest_eq hn hmin, if_pos (BitVec.lt_of_getLsbD hn), BitVec.ofInt_natCast]
    refine ⟨rfl, fun l _ => ?_⟩
    rw [Bool.eq_iff_iff, beq_iff_eq, decide_eq_true_iff, Nat.cast_inj]

/-- Settles O19: each writes, by `putVote_completes`, what its result is of the true lanes. -/
theorem voteResults : Obligations.VoteResults := by
  unfold Obligations.VoteResults
  intro s h o c p hI hp
  dsimp only
  simp only [← getLsbD_trueLanes (r := s.run) (c := c) hp]
  have hsub (l : Nat) (hl : (s.run.trueLanes c o.a).getLsbD l = true) : c.act.getLsbD l = true :=
    ((getLsbD_trueLanes hp l).mp hl).2.1
  refine ⟨fun m b hb => ?_, ?_, fun i hi => ?_⟩
  · have hv : voteOf m (s.run.trueLanes c o.a) c.act = b := by
      rw [Bool.eq_iff_iff, hb, voteOf_iff m hsub]
      cases m with
      | any => rfl
      | _ =>
        have hact : (∀ l, c.act.getLsbD l = true → (s.run.trueLanes c o.a).getLsbD l = true) ↔
            ∀ l, l < 32 → c.act.getLsbD l = true → (s.run.trueLanes c o.a).getLsbD l = true :=
          forall_congr' fun l => ⟨fun h _ => h, fun h hl => h (BitVec.lt_of_getLsbD hl) hl⟩
        simp only [hact]
    rw [exec_vote]
    refine (putVote_completes (x := if b then 1 else 0) (f := fun _ => b) hI (by rw [hv])).imp
      fun t ⟨hframe, hmoved, hs, hpred, _⟩ => ⟨hframe, hmoved, hs, hpred⟩
  · refine (putVote_completes hI rfl).imp fun t ⟨hframe, hmoved, hs, _, hlane⟩ => ⟨hframe, hmoved, fun d hd l hl => ?_,
      fun hd l hl ha k hk => ?_⟩
    · rw [hs d hd, BitVec.getLsbD_setWidth]
      simp [hl]
    · rw [hlane hd l hl ha, BitVec.getLsbD_setWidth, BitVec.getLsbD_setWidth]
      simp [hk, Nat.lt_trans hk (by decide : 32 < 64)]
  · obtain ⟨hword, hlow⟩ := firstWord_eq hi
    refine (putVote_completes hI rfl).imp fun t ⟨hframe, hmoved, hs, hpred, _⟩ => ⟨hframe, hmoved, fun d hd => ?_,
      fun d hd h15 l hl ha => ?_⟩
    · rw [hs d hd, hword]
    · rw [hpred d hd h15 l hl ha, hlow l hl]

end Sys2Proof.Machine
end

section
/-! SHFL and MOVS, settled (R110, R112, R135). -/

namespace Sys2Proof.Machine

/-! ## Instructions that may draw open values -/

@[simp] theorem Wave.retired_pend (clk : Nat) (c : Iss) (h : Hd) (k : How) (w : Wave) : (Wave.retired clk c h k w).pend = w.pend := by
  have e := congrArg Wave.pend (Wave.retired_frame clk c h k w)
  exact e

@[simp] theorem Wave.retired_sEmpty (clk : Nat) (c : Iss) (h : Hd) (k : How) (w : Wave) :
    (Wave.retired clk c h k w).sEmpty = w.sEmpty := by
  have e := congrArg Wave.sEmpty (Wave.retired_frame clk c h k w)
  exact e

/-- The run with another count of free values drawn. -/
def Run.withFresh (r : Run) (n : Nat) : Run := { r with fresh := n }

theorem Run.withFresh_self (r : Run) : r.withFresh r.fresh = r := rfl

/-- A retirement neither reads nor changes that count. -/
theorem Run.retire_withFresh (r : Run) (n : Nat) (c : Iss) (h : Hd) (k : How) :
    (r.withFresh n).retire c h k = (r.retire c h k).withFresh n := by
  unfold Run.retire Run.charge
  cases k.branch <;> cases k.closer <;> rfl

theorem Run.retire_fresh (r : Run) (c : Iss) (h : Hd) (k : How) : (r.retire c h k).fresh = r.fresh := by
  have e := congrArg Run.fresh (Run.retire_frame r c h k)
  exact e

/-- Up to the free values drawn, a state is the one that drew none. -/
theorem State.asDrawn_withFresh {s : State} {r : Run} (h : r.fresh = s.run.fresh) (n : Nat) :
    State.asDrawn { s with run := r.withFresh n } s = { s with run := r } := by
  rw [State.asDrawn, ← h]
  rfl

/-- The issue of an instruction that changes registers of its wave, and what `w` names beside them, and may draw free values. -/
theorem issue_drawn {s : State} {h : Hd} {c : Iss} {us : List Use} {vec : Bool} {eff : Sys → Run → Iss → Eff Unit} {f : Wave → Wave}
    {n : Nat} {ds : List (Opd × Nat)} {w : Wave} (hI : Issues s h c us)
    (he : eff s.sys s.run c = .ok ((s.run.onWave c.wid f).withFresh n) ())
    (hp : (f (s.wv c)).parts = (s.wv c).parts) (hr : RegsKept (s.wv c) (f (s.wv c)) c.act ds) (hk : RestKept w (f (s.wv c))) :
    Completes (issue s h { uses := us, vec := vec } eff) (fun t => RegFrameBut s (t.asDrawn s) c ds w ∧ MovedOn s t c ∧
      t.wv c = Wave.retired s.run.clk c h { uses := us, vec := vec } (f (s.wv c))) := by
  obtain ⟨u, hu, -, huw⟩ := Run.issuer_wave _ _ _ hI.1
  have hwv : s.wv c = u := huw
  rw [hwv] at hp hr hk ⊢
  have hwave := wave_onWave_retire (h := h) (k := { uses := us, vec := vec }) (f := f) hu
  have hmoved := movedOn_onWave (h := h) (k := { uses := us, vec := vec }) (f := f) hu rfl rfl hp
  have hdrawn := State.asDrawn_withFresh (s := s) (Run.retire_fresh (s.run.onWave c.wid f) c h { uses := us, vec := vec }) n
  refine ⟨_, issue_ok' (k := { uses := us, vec := vec }) hI (.inl rfl) (.inl rfl) rfl he, ?_⟩
  rw [Run.retire_withFresh]
  beta_reduce
  rw [hdrawn]
  refine ⟨⟨deviceKept_onWave, ?_, ?_⟩, hmoved, hwave⟩
  · rw [huw, hwave]
    exact RegsKept.retired hr
  · rw [hwave]
    exact RestKept.retired rfl hk

/-! ## SHFL (R112) -/

/-- The lane whose A a lane takes. -/
def Run.shflLane (r : Run) (c : Iss) (m : ShflMod) (o : Ops) (l : Nat) : Nat :=
  shflSource m (if m.f = 0 then (r.rdLane c.wid o.b 0 l).toInt else 32 / 2 ^ m.f.toNat) l

/-- A lane outside the wave gives way to the reader's own. -/
theorem laneOr_lt (z : Int) {l : Nat} (hl : l < 32) : (if 0 ≤ z ∧ z < 32 then z.toNat else l) < 32 := by
  split
  · omega
  · exact hl

theorem Run.shflLane_lt (r : Run) (c : Iss) (m : ShflMod) (o : Ops) {l : Nat} (hl : l < 32) : r.shflLane c m o l < 32 :=
  laneOr_lt _ hl

/-- The lanes that a SHFL reads. -/
def Run.shflRead (r : Run) (c : Iss) (m : ShflMod) (o : Ops) : Lanes :=
  Lanes.ofTest (fun k => c.act.toList.any (fun l => r.shflLane c m o l == k))

/-- The checks of a cross-lane instruction that pass. -/
theorem Run.checkedCross_ok {r : Run} {c : Iss} {us cross : List Use} (k : Eff Unit)
    (ho : opndCheck (r.wave c.wid) c.act (inOrder (us ++ cross.map (fun u => { u with lanes := none }))) = none)
    (hf : feCheck (r.wave c.wid) c.act (inOrder (us ++ cross)) = .ok) : r.checkedCross c us cross k = k := by
  simp only [Run.checkedCross, ho, hf]

theorem Run.crossDone_eq (r : Run) (c : Iss) (o : Opd) : ∃ n, r.crossDone c o = r.withFresh n := by
  unfold Run.crossDone
  split
  · exact ⟨r.fresh, rfl⟩
  · exact ⟨r.fresh + 32, rfl⟩

/-- A source across lanes where it can be told. -/
theorem rowAt_crossRow {r : Run} {c : Iss} {o : Opd} {l : Nat} (hl : l < 32) (hu : ((r.wave c.wid).unsure c.m o).getLsbD l = false) :
    rowAt (r.crossRow c o) l = r.rdLane c.wid o 0 l := by
  unfold rowAt Run.crossRow
  rw [getD_map_laneIds _ _ _ hl, hu]
  exact if_neg Bool.false_ne_true

/-- The lanes read, by the table of source lanes that the model makes. -/
theorem shflRead_eq (r : Run) (c : Iss) (m : ShflMod) (o : Ops) :
    Lanes.ofTest (fun k => c.act.toList.any (fun l => (laneIds.map (r.shflLane c m o)).getD l 0 == k)) = r.shflRead c m o := by
  refine congrArg Lanes.ofTest (funext fun k => ?_)
  rw [Bool.eq_iff_iff, List.any_eq_true, List.any_eq_true]
  refine exists_congr fun l => and_congr_right fun hl => ?_
  rw [getD_map_laneIds _ _ _ ((mem_toList c.act l).mp hl).1]

/-- What a SHFL makes of its wave. -/
def Run.shuffled (r : Run) (c : Iss) (m : ShflMod) (o : Ops) (w : Wave) : Wave :=
  w.put o.d 0 c.act (fun l => rowAt (r.crossRow c o.a) ((laneIds.map (r.shflLane c m o)).getD l 0))

theorem shflEff_eq (h : Hd) (m : ShflMod) (o : Ops) (y : Sys) (r : Run) (c : Iss) : shflEff h m o y r c =
    r.checkedCross c [⟨0, o.d, 1, true, false, none⟩, ⟨2, o.b, 1, false, h.feb, none⟩]
      [crossUse (r.wave c.wid) c.m 1 o.a h.fea (r.shflRead c m o)]
      (.ok ((r.onWave c.wid (r.shuffled c m o)).crossDone c o.a) ()) := by
  rw [← shflRead_eq]
  rfl

theorem shfl_completes {s : State} {h : Hd} {m : ShflMod} {o : Ops} {c : Iss} (hI : Issues s h c []) (hd : Opd.laneReg o.d = true)
    (ho : opndCheck (s.wv c) c.act
      [⟨0, o.d, 1, true, false, none⟩, ⟨1, o.a, 1, false, h.fea, none⟩, ⟨2, o.b, 1, false, h.feb, none⟩] = none)
    (hf : feCheck (s.wv c) c.act [⟨0, o.d, 1, true, false, none⟩, crossUse (s.wv c) c.m 1 o.a h.fea (s.run.shflRead c m o),
      ⟨2, o.b, 1, false, h.feb, none⟩] = .ok) :
    Completes (exec (.shfl h m o) s) (fun t => RegFrame s (t.asDrawn s) c [(o.d, 1)] ∧ MovedOn s t c ∧
      ∀ l, l < 32 → c.act.getLsbD l = true → ((s.wv c).unsure c.m o.a).getLsbD (s.run.shflLane c m o l) = false →
        (s.wv c).lane (t.wv c) o.d 0 l = s.src c o.a (s.run.shflLane c m o l)) := by
  obtain ⟨n, hn⟩ := (s.run.onWave c.wid (s.run.shuffled c m o)).crossDone_eq c o.a
  have he : shflEff h m o s.sys s.run c = .ok ((s.run.onWave c.wid (s.run.shuffled c m o)).withFresh n) () := by
    rw [shflEff_eq, Run.checkedCross_ok _ ho hf, hn]
  refine (issue_drawn (us := []) (vec := true) hI he (Wave.put_parts _ _ _ _ _) (regsKept_put _ _ 0 1 _ _ Nat.one_pos)
    (restKept_put _ _ _ _ _)).imp fun t ⟨hframe, hmoved, ht⟩ => ⟨hframe, hmoved, fun l hl ha hu => ?_⟩
  rw [ht, Wave.lane_retired]
  refine (lane_put _ _ _ _ _ l hl ha hd).trans ?_
  rw [getD_map_laneIds _ _ _ hl]
  exact rowAt_crossRow (s.run.shflLane_lt c m o hl) hu

/-! ## MOVS (R135) -/

theorem laneIndex_of_lt {r : Run} {c : Iss} {o : Opd} (hl : r.rdCount c o < 32) : laneIndex r c o = .inl (r.rdCount c o) :=
  if_pos hl

theorem laneIndex_of_ge {r : Run} {c : Iss} {o : Opd} (hl : 32 ≤ r.rdCount c o) :
    laneIndex r c o = .inr { cls := 4, sub := 4, mask := c.act, cw := BitVec.ofNat 64 (r.rdCount c o) } :=
  if_neg (Nat.not_lt.mpr hl)

/-- A value on its way to a scalar (R129). -/
def Wave.oweScalar (w : Wave) (d : BitVec 7) (x : Word64) (m : Lanes) (pc : Word64) : Wave :=
  (w.setS d.toNat x).owe [⟨false, d.toNat, 0xFFFFFFFF#32⟩] .local false m pc

theorem Wave.sEmpty_oweScalar (w : Wave) (d : BitVec 7) (x : Word64) (m : Lanes) (pc : Word64) :
    (w.oweScalar d x m pc).sEmpty.getLsbD d.toNat = true := by
  change ((w.setS d.toNat x).sEmpty ||| (1#128 <<< d.toNat)).getLsbD d.toNat = true
  have hd : d.toNat < 128 := d.isLt
  rw [BitVec.getLsbD_or, BitVec.getLsbD_shiftLeft]
  simp [hd]

/-- How MOVS uses its lane index B. -/
def laneUse (h : Hd) (o : Ops) : Use := ⟨2, o.b, 1, false, h.feb, none⟩

section
variable {s : State} {h : Hd} {o : Ops} {c : Iss} (hI : Issues s h c [])
include hI

section
variable {a : Opd} (hfix : (s.wv c).fixRel o.a c.act.lowest = .inl a)
  (hop : opndCheck (s.wv c) c.act [⟨1, a, 1, false, false, none⟩] = none)
  (hb : (laneUse h o).having (s.wv c) c.act (fun x => (s.wv c).isEmpty x || (s.wv c).isInd x) = [])
include hfix hop hb

theorem movsGet_completes {d : BitVec 7} (hd : o.d = .s d) (hl : s.run.rdCount c o.b < 32)
    (hchk : checkUses (s.wv c) c.act [⟨0, o.d, 1, true, false, none⟩,
      ⟨1, a, 1, false, h.fea, some (laneBit (s.run.rdCount c o.b) &&& ~~~(s.wv c).foreign c.m)⟩, laneUse h o] = .ok) :
    Completes (exec (.movsGet h o) s) (fun t =>
      RegFrameBut s (t.asDrawn s) c [(o.d, 1)] { s.wv c with pend := (t.wv c).pend, pendNext := (s.wv c).pendNext + 1 } ∧ MovedOn s t c ∧
      (t.wv c).sEmpty.getLsbD d.toNat = true ∧
      (((s.wv c).foreign c.m).getLsbD (s.run.rdCount c o.b) = false →
        (t.wv c).sReg d.toNat = (s.src c a (s.run.rdCount c o.b)).signExtend 64)) := by
  obtain ⟨n, x, he, hx⟩ : ∃ n x, movsGetEff h o s.sys s.run c =
      .ok ((s.run.onWave c.wid (fun w => w.oweScalar d x c.act c.pc)).withFresh n) () ∧
      (((s.wv c).foreign c.m).getLsbD (s.run.rdCount c o.b) = false → x = (s.src c a (s.run.rdCount c o.b)).signExtend 64) := by
    rw [laneUse] at hb
    rw [laneUse, hd] at hchk
    simp only [movsGetEff, hfix, hop, hb, if_true, laneIndex_of_lt hl, Run.checked, hd, hchk]
    cases hopen : ((s.wv c).foreign c.m).getLsbD (s.run.rdCount c o.b) with
    | true => exact ⟨s.run.fresh + 32, _, rfl, Bool.noConfusion⟩
    | false => exact ⟨s.run.fresh, _, rfl, fun _ => rfl⟩
  have hkept : RestKept { s.wv c with pend := ((s.wv c).oweScalar d x c.act c.pc).pend, pendNext := (s.wv c).pendNext + 1 }
      ((s.wv c).oweScalar d x c.act c.pc) := rfl
  have hregs : RegsKept (s.wv c) ((s.wv c).oweScalar d x c.act c.pc) c.act [(o.d, 1)] := by
    rw [hd]
    exact regsKept_setS (s.wv c) d x c.act
  refine (issue_drawn (us := []) (vec := true) hI he rfl hregs hkept).imp fun t ⟨hframe, hmoved, ht⟩ => ?_
  rw [ht, Wave.retired_pend, Wave.retired_sEmpty, Wave.sReg_retired]
  refine ⟨hframe, hmoved, Wave.sEmpty_oweScalar _ _ _ _ _, fun hf => ?_⟩
  rw [← hx hf]
  exact (Wave.sReg_setS (s.wv c) d.toNat d.toNat x).trans (if_pos rfl)

theorem movsGet_traps_lane (hl : 32 ≤ s.run.rdCount c o.b) :
    Traps s (.movsGet h o) c { cls := 4, sub := 4, mask := c.act, cw := BitVec.ofNat 64 (s.run.rdCount c o.b) } :=
  issue_trap (k := { vec := true }) hI (.inl rfl) (.inl rfl) (by
    rw [laneUse] at hb
    simp only [movsGetEff, hfix, hop, hb, if_true, laneIndex_of_ge hl])

end

theorem movsGet_traps_index {x : Int} (hfix : (s.wv c).fixRel o.a c.act.lowest = .inr x) :
    Traps s (.movsGet h o) c (relTrap c.act.lowest 1 x) :=
  issue_trap (k := { vec := true }) hI (.inl rfl) (.inl rfl) (by simp only [movsGetEff, hfix])

section
variable {d : Opd} (hfix : (s.wv c).fixRel o.d c.act.lowest = .inl d) (hw : Whole s c)
  (hop : opndCheck (s.wv c) c.act [⟨0, d, 1, true, false, none⟩] = none)
  (hchk : checkUses (s.wv c) c.act [⟨1, o.a, 1, false, h.fea, none⟩, laneUse h o] = .ok)
include hfix hw hop hchk

theorem movsPut_completes (hl : s.run.rdCount c o.b < 32)
    (hdst : checkUses (s.wv c) c.act [⟨0, d, 1, true, false, some (laneBit (s.run.rdCount c o.b))⟩] = .ok) :
    Completes (exec (.movsPut h o) s) (fun t => DeviceKept s t c.wid ∧
      RegsKept (s.wv c) (t.wv c) (laneBit (s.run.rdCount c o.b)) [(d, 1)] ∧ RestKept (s.wv c) (t.wv c) ∧ MovedOn s t c ∧
      (Opd.laneReg d = true → (s.wv c).lane (t.wv c) d 0 (s.run.rdCount c o.b) = (s.ssrc c o.a).setWidth 32)) := by
  have he : movsPutEff h o s.sys s.run c = .ok (s.run.onWave c.wid
      (fun w => w.put d 0 (laneBit (s.run.rdCount c o.b)) (fun _ => (s.ssrc c o.a).setWidth 32))) () := by
    rw [laneUse] at hchk
    simp only [movsPutEff, hfix, hop, Run.checked, hchk, laneIndex_of_lt hl, hdst]
  obtain ⟨w, hwv, -, hww⟩ := Run.issuer_wave _ _ _ hI.1
  have hwave := wave_onWave_retire (h := h) (k := { whole := some 2, vec := true })
    (f := fun w => w.put d 0 (laneBit (s.run.rdCount c o.b)) (fun _ => (s.ssrc c o.a).setWidth 32)) hwv
  refine ⟨_, issue_ok' (k := { whole := some 2, vec := true }) hI (.inl rfl) (.inr hw) rfl he, deviceKept_onWave, ?_, ?_,
    movedOn_onWave hwv rfl rfl (Wave.put_parts _ _ _ _ _), fun hd => ?_⟩
  · rw [State.wv, State.wv, hww, hwave]
    exact RegsKept.retired (regsKept_put w d 0 1 _ _ Nat.one_pos)
  · rw [State.wv, State.wv, hww, hwave]
    exact RestKept.retired rfl (restKept_put w d 0 _ _)
  · rw [State.wv, State.wv, hww, hwave, Wave.lane_retired]
    exact lane_put w d 0 _ _ _ hl (by rw [getLsbD_laneBit _ _ hl]; exact decide_eq_true rfl) hd

theorem movsPut_traps_lane (hl : 32 ≤ s.run.rdCount c o.b) :
    Traps s (.movsPut h o) c { cls := 4, sub := 4, mask := c.act, cw := BitVec.ofNat 64 (s.run.rdCount c o.b) } :=
  issue_trap (k := { whole := some 2, vec := true }) hI (.inl rfl) (.inr hw) (by
    rw [laneUse] at hchk
    simp only [movsPutEff, hfix, hop, Run.checked, hchk, laneIndex_of_ge hl])

end

theorem movsPut_traps_index {x : Int} (hfix : (s.wv c).fixRel o.d c.act.lowest = .inr x) (hw : Whole s c) :
    Traps s (.movsPut h o) c (relTrap c.act.lowest 0 x) :=
  issue_trap (k := { whole := some 2, vec := true }) hI (.inl rfl) (.inr hw) (by simp only [movsPutEff, hfix])

end

/-- Settles O18: SHFL by the lane its mode gives, MOVS by the lane index B and the index that a relative operand forms. -/
theorem laneMoves : Obligations.LaneMoves := by
  unfold Obligations.LaneMoves
  refine ⟨fun s h m o c hI hd => shfl_completes hI hd, fun s h o c hI => ⟨fun a d hfix hd hop hb => ?_,
    fun x hfix => movsGet_traps_index hI hfix, fun d hfix hw hop hchk => ?_, fun x hfix hw => movsPut_traps_index hI hfix hw⟩⟩
  · exact ⟨movsGet_completes hI hfix hop hb hd, movsGet_traps_lane hI hfix hop hb⟩
  · exact ⟨movsPut_completes hI hfix hw hop hchk, movsPut_traps_lane hI hfix hw hop hchk⟩

end Sys2Proof.Machine
end

section
/-! What an issue leaves of an instruction that completes: its wave retired, a closer's region entry (R199, R200), and the state outside
the waves and the issue counts as the effect made it. -/

namespace Sys2Proof.Machine

/-! ## The retired wave -/

/-- What a reading of a wave does not take from its parts, STALL, YLD and %RGN, the retirement leaves. -/
theorem Wave.retired_read {α : Type} (g : Wave → α)
    (hg : ∀ (w : Wave) ps st yd rg, g { w with parts := ps, stall := st, yielded := yd, rgn := rg } = g w)
    (clk : Nat) (c : Iss) (h : Hd) (k : How) (w : Wave) : g (Wave.retired clk c h k w) = g w := by
  have e := congrArg g (Wave.retired_frame clk c h k w)
  rw [hg] at e
  exact e

@[simp] theorem Wave.retired_fpcr (clk : Nat) (c : Iss) (h : Hd) (k : How) (w : Wave) : (Wave.retired clk c h k w).fpcr = w.fpcr :=
  Wave.retired_read Wave.fpcr (fun _ _ _ _ _ => rfl) clk c h k w

@[simp] theorem Wave.retired_fpsr (clk : Nat) (c : Iss) (h : Hd) (k : How) (w : Wave) : (Wave.retired clk c h k w).fpsr = w.fpsr :=
  Wave.retired_read Wave.fpsr (fun _ _ _ _ _ => rfl) clk c h k w

@[simp] theorem Wave.retired_epc (clk : Nat) (c : Iss) (h : Hd) (k : How) (w : Wave) : (Wave.retired clk c h k w).epc = w.epc :=
  Wave.retired_read Wave.epc (fun _ _ _ _ _ => rfl) clk c h k w

@[simp] theorem Wave.retired_cause (clk : Nat) (c : Iss) (h : Hd) (k : How) (w : Wave) : (Wave.retired clk c h k w).cause = w.cause :=
  Wave.retired_read Wave.cause (fun _ _ _ _ _ => rfl) clk c h k w

@[simp] theorem Wave.retired_utrap (clk : Nat) (c : Iss) (h : Hd) (k : How) (w : Wave) : (Wave.retired clk c h k w).utrap = w.utrap :=
  Wave.retired_read Wave.utrap (fun _ _ _ _ _ => rfl) clk c h k w

/-- The parts of a group behind a closer enter a region at the next instruction. -/
theorem Wave.retired_parts_closer (clk : Nat) (c : Iss) (h : Hd) {k : How} (w : Wave) (hb : k.branch = false) (hc : k.closer = true) :
    (Wave.retired clk c h k w).parts = w.parts.map (fun p =>
      if (p.mask &&& c.m) ≠ 0 then { p with pc := p.pc + 12, rpc := p.pc + 12, park := .run } else p) := by
  have he : (Wave.retired clk c h k w).parts = ((w.advance c.m).regionEntry c.m).parts := by
    unfold Wave.retired
    simp only [hb, hc, Bool.false_eq_true, if_false, if_true]
    split <;> rfl
  rw [he, Wave.regionEntry_parts, Wave.onParts_parts, Wave.advance_parts, Wave.onParts_parts, List.map_map]
  refine List.map_congr_left fun p _ => ?_
  by_cases hp : (p.mask &&& c.m) ≠ 0
  · simp only [Function.comp_apply, if_pos hp]
  · simp only [Function.comp_apply, if_neg hp]

/-- What a register-only effect keeps, a closer's retirement keeps but for %RGN, which advances. -/
theorem RestKept.retired_closer {w u : Wave} {clk : Nat} {c : Iss} {h : Hd} {k : How} (hc : k.closer = true) (hk : RestKept w u) :
    RestKept { w with rgn := u.rgn + 1 } (Wave.retired clk c h k u) := by
  unfold RestKept at hk ⊢
  rw [← hk]
  unfold Wave.retired
  rw [hc]
  cases k.branch <;> simp only [Bool.false_eq_true, if_true, if_false] <;> split <;> rfl

/-- STALL and YLD as the end of an issue leaves them in a wave that runs. -/
theorem Wave.retired_yielded (clk : Nat) (c : Iss) (h : Hd) (k : How) {w : Wave} (hl : w.life = .live) (hs : w.stream = false) :
    (Wave.retired clk c h k w).yielded = (h.yld || k.yld) := by
  unfold Wave.retired
  cases k.branch <;> cases k.closer <;> simp [hl, hs]

/-! ## The state behind a retirement -/

theorem Run.core_retire_same (r : Run) (c : Iss) (h : Hd) (k : How) (n : Nat) :
    ((r.retire c h k).core n).sameButCounts (r.core n) := by
  rw [Run.core_retire]
  split <;> rfl

/-- The issue of an instruction that changes its wave alone. -/
theorem issue_wave {s : State} {h : Hd} {c : Iss} {k : How} {eff : Sys → Run → Iss → Eff Unit} {f : Wave → Wave}
    (hI : Issues s h c k.uses) (hp : k.priv = false ∨ (s.wv c).priv = true) (hw : k.whole = none) (hs : k.switch = false)
    (he : eff s.sys s.run c = .ok (s.run.onWave c.wid f) ()) :
    Completes (issue s h k eff) (fun t => DeviceKept s t c.wid ∧ t.wv c = Wave.retired s.run.clk c h k (f (s.wv c))) := by
  obtain ⟨w, hwv, -, hww⟩ := Run.issuer_wave _ _ _ hI.1
  refine ⟨_, issue_ok' hI hp (.inl hw) hs he, deviceKept_onWave, ?_⟩
  rw [State.wv, State.wv, hww]
  exact wave_onWave_retire hwv

/-- The frame and the advance of an instruction that writes registers alone and neither closes a region nor branches. -/
theorem regFrame_of_retired {s t : State} {h : Hd} {c : Iss} {k : How} {u : Wave} {ds : List (Opd × Nat)} (hb : k.branch = false)
    (hc : k.closer = false) (hdev : DeviceKept s t c.wid) (ht : t.wv c = Wave.retired s.run.clk c h k u) (hp : u.parts = (s.wv c).parts)
    (hr : RegsKept (s.wv c) u c.act ds) (hk : RestKept (s.wv c) u) : RegFrame s t c ds ∧ MovedOn s t c := by
  rw [State.wv] at ht
  refine ⟨⟨hdev, ht ▸ hr.retired, ht ▸ hk.retired hc⟩, ?_⟩
  unfold MovedOn
  rw [ht, Wave.retired_parts _ _ _ _ _ hb hc, Wave.advance_parts, Wave.onParts_parts, hp]

/-- The frame of a closer that writes registers, and what `w` names beside them. -/
theorem regFrameBut_of_retired {s t : State} {h : Hd} {c : Iss} {k : How} {u w : Wave} {ds : List (Opd × Nat)} (hc : k.closer = true)
    (hdev : DeviceKept s t c.wid) (ht : t.wv c = Wave.retired s.run.clk c h k u) (hr : RegsKept (s.wv c) u c.act ds) (hk : RestKept w u) :
    RegFrameBut s t c ds { w with rgn := u.rgn + 1 } := by
  rw [State.wv] at ht
  exact ⟨hdev, ht ▸ hr.retired, ht ▸ hk.retired_closer hc⟩

end Sys2Proof.Machine
end

section
/-! MOV, MOVI and MSET, settled (R133, R134, R166, R223). -/

namespace Sys2Proof.Machine

/-! ## Where a move's value goes -/

/-- A value per active lane, or one value in a scalar. -/
def Wave.putWord (w : Wave) (act : Lanes) (d : Opd) (x : Word64) (f : Nat → Word) : Wave :=
  match d with
  | .s n => w.setS n.toNat x
  | d => w.put d 0 act f

/-- The same, where a predicate takes whether its lane's value is not 0. -/
def Wave.putMove (w : Wave) (act : Lanes) (d : Opd) (x : Word64) (f : Nat → Word) : Wave :=
  match d with
  | .p n => w.setP n.toNat act (fun l => f l ≠ 0)
  | d => w.putWord act d x f

/-- The wave `u` differs from `w` in registers that `ds` names in the lanes `act`, and in no more. -/
def Wave.WritesOnly (w u : Wave) (act : Lanes) (ds : List (Opd × Nat)) : Prop :=
  u.parts = w.parts ∧ RegsKept w u act ds ∧ RestKept w u

theorem Wave.writesOnly_putWord (w : Wave) (act : Lanes) (d : Opd) (x : Word64) (f : Nat → Word) :
    w.WritesOnly (w.putWord act d x f) act [(d, 1)] := by
  cases d with
  | s n => exact ⟨rfl, regsKept_setS w n x act, restKept_setS w n.toNat x⟩
  | _ => exact ⟨w.put_parts _ _ _ _, regsKept_put w _ 0 1 act f Nat.one_pos, restKept_put w _ 0 act f⟩

theorem Wave.writesOnly_putMove (w : Wave) (act : Lanes) (d : Opd) (x : Word64) (f : Nat → Word) :
    w.WritesOnly (w.putMove act d x f) act [(d, 1)] := by
  cases d with
  | p n => exact ⟨w.setP_parts _ _ _, regsKept_setP w n act _, restKept_setP w n.toNat act _⟩
  | _ => exact w.writesOnly_putWord act _ x f

theorem Wave.lane_putWord (w : Wave) {act : Lanes} {d : Opd} (x : Word64) (f : Nat → Word) {l : Nat} (hd : Opd.laneReg d = true)
    (hl : l < 32) (ha : act.getLsbD l = true) : w.lane (w.putWord act d x f) d 0 l = f l := by
  have hput := lane_put w d 0 act f l hl ha hd
  cases d with
  | s n => cases hd
  | _ => exact hput

theorem Wave.lane_putMove (w : Wave) {act : Lanes} {d : Opd} (x : Word64) (f : Nat → Word) {l : Nat} (hd : Opd.laneReg d = true)
    (hl : l < 32) (ha : act.getLsbD l = true) : w.lane (w.putMove act d x f) d 0 l = f l := by
  have hput := w.lane_putWord x f hd hl ha
  cases d with
  | p n => cases hd
  | _ => exact hput

theorem Wave.sReg_putWord (w : Wave) (act : Lanes) (n : BitVec 7) (x : Word64) (f : Nat → Word) :
    (w.putWord act (.s n) x f).sReg n.toNat = x :=
  (w.sReg_setS n.toNat n.toNat x).trans (if_pos rfl)

theorem Wave.sReg_putMove (w : Wave) (act : Lanes) (n : BitVec 7) (x : Word64) (f : Nat → Word) :
    (w.putMove act (.s n) x f).sReg n.toNat = x :=
  w.sReg_putWord act n x f

theorem Wave.getLsbD_pReg_putMove (w : Wave) {act : Lanes} {n : BitVec 4} (x : Word64) (f : Nat → Word) {l : Nat} (h15 : n ≠ 15)
    (hl : l < 32) (ha : act.getLsbD l = true) : ((w.putMove act (.p n) x f).pReg n.toNat).getLsbD l = decide (f l ≠ 0) :=
  (Wave.getLsbD_pReg_setP _ _ _ _ _ _ hl).trans (if_pos ⟨rfl, fun e => h15 (BitVec.eq_of_toNat_eq e), ha⟩)

/-! ## The effects -/

/-- MOV's effect, where it has nothing to wait for. -/
theorem movEff_eq {o : Ops} {r : Run} {c : Iss} (y : Sys) (hw : isFpsr o.a = true → r.fpDue c.wid = false) :
    movEff o y r c = .ok (r.onWave c.wid (fun w =>
      w.putMove c.act o.d (r.rdScalar c.wid o.a 0 c.act.lowest) (r.rdLane c.wid o.a 0))) () := by
  have hgo : (isFpsr o.a && r.fpDue c.wid) = false := by
    cases hf : isFpsr o.a with
    | false => rfl
    | true => exact hw hf
  unfold movEff
  rw [hgo]
  cases o.d <;> rfl

theorem exec_movi (h : Hd) (imm : Word) (o : Ops) (s : State) : exec (.movi h imm o) s =
    issue s h { uses := usesOf h o, vec := Ops.vecUnit o } (fun _ r c =>
      .ok (r.onWave c.wid (fun w => w.putWord c.act o.d (imm.signExtend 64) (fun _ => imm))) ()) := by
  change execMovi h imm o s = _
  unfold execMovi
  cases o.d <;> rfl

theorem Wave.writesOnly_setM (w : Wave) (n : BitVec 3) (x : Word × Word) (act : Lanes) :
    w.WritesOnly (w.setM n.toNat x) act [(.m n, 1)] := by
  refine ⟨rfl, ⟨fun _ _ _ _ => rfl, fun _ _ => rfl, fun _ _ _ => rfl, fun _ _ _ _ => rfl, fun k hk => ?_⟩, rfl⟩
  rw [Wave.mReg_setM, if_neg]
  exact fun e => hk (.m n, 1) (List.mem_singleton.mpr rfl) e.symm

theorem exec_mset {o : Ops} {d : BitVec 3} (hd : o.d = .m d) (h : Hd) (s : State) : exec (.mset h o) s =
    issue s h { uses := usesOf h o } (fun _ r c => .ok (r.onWave c.wid (fun w => w.setM d.toNat
      ((r.rdScalar c.wid o.a 0 c.act.lowest).setWidth 32, (r.rdScalar c.wid o.b 0 c.act.lowest).setWidth 32))) ()) := by
  change execMset h o s = _
  unfold execMset
  rw [hd]

section
variable {s : State} {h : Hd} {o : Ops} {c : Iss} (hI : Issues s h c (usesOf h o))
include hI

theorem mov_completes (hp : Ops.namesPriv o = true → (s.wv c).priv = true) (hw : isFpsr o.a = true → s.run.fpDue c.wid = false) :
    Completes (exec (.mov h o) s) (fun t => RegFrame s t c [(o.d, 1)] ∧ MovedOn s t c ∧
      t.wv c = Wave.retired s.run.clk c h { uses := usesOf h o, priv := Ops.namesPriv o, vec := Ops.vecUnit o }
        ((s.wv c).putMove c.act o.d (s.ssrc c o.a) (s.src c o.a))) := by
  have hpriv : Ops.namesPriv o = false ∨ (s.wv c).priv = true := by
    cases hn : Ops.namesPriv o with
    | false => exact .inl rfl
    | true => exact .inr (hp hn)
  obtain ⟨hparts, hr, hk⟩ := (s.wv c).writesOnly_putMove c.act o.d (s.ssrc c o.a) (s.src c o.a)
  refine (issue_wave (k := { uses := usesOf h o, priv := Ops.namesPriv o, vec := Ops.vecUnit o }) hI hpriv rfl rfl
    (movEff_eq s.sys hw)).imp fun t ⟨hdev, ht⟩ => ?_
  obtain ⟨hframe, hmoved⟩ := regFrame_of_retired rfl rfl hdev ht hparts hr hk
  exact ⟨hframe, hmoved, ht⟩

theorem movi_completes (imm : Word) :
    Completes (exec (.movi h imm o) s) (fun t => RegFrame s t c [(o.d, 1)] ∧ MovedOn s t c ∧
      t.wv c = Wave.retired s.run.clk c h { uses := usesOf h o, vec := Ops.vecUnit o }
        ((s.wv c).putWord c.act o.d (imm.signExtend 64) (fun _ => imm))) := by
  obtain ⟨hparts, hr, hk⟩ := (s.wv c).writesOnly_putWord c.act o.d (imm.signExtend 64) (fun _ => imm)
  rw [exec_movi]
  exact issue_regs (f := fun w => w.putWord c.act o.d (imm.signExtend 64) (fun _ => imm)) hI rfl hparts hr hk

theorem mset_completes {d : BitVec 3} (hd : o.d = .m d) :
    Completes (exec (.mset h o) s) (fun t => RegFrame s t c [(o.d, 1)] ∧ MovedOn s t c ∧
      (t.wv c).mReg d.toNat = ((s.ssrc c o.a).setWidth 32, (s.ssrc c o.b).setWidth 32)) := by
  obtain ⟨hparts, hr, hk⟩ := (s.wv c).writesOnly_setM d ((s.ssrc c o.a).setWidth 32, (s.ssrc c o.b).setWidth 32) c.act
  rw [exec_mset hd, hd]
  refine (issue_regs (vec := false) hI rfl hparts hr hk).imp fun t ⟨hframe, hmoved, ht⟩ => ⟨hframe, hmoved, ?_⟩
  rw [ht, Wave.mReg_retired, Wave.mReg_setM, if_pos rfl]

end

/-- Settles O22: each move by the kind of its destination. -/
theorem moveResults : Obligations.MoveResults := by
  unfold Obligations.MoveResults
  refine ⟨fun s h o c hI => ⟨fun hp hw => ?_, fun imm => ?_⟩, fun s h o c d hI hd => mset_completes hI hd⟩
  · refine (mov_completes hI hp hw).imp fun t ⟨hframe, hmoved, ht⟩ => ⟨hframe, hmoved, fun hd l hl ha => ?_,
      fun d hd h15 l hl ha => ?_, fun d hd => ?_⟩
    · rw [ht, Wave.lane_retired]
      exact Wave.lane_putMove _ _ _ hd hl ha
    · rw [ht, Wave.pReg_retired, hd]
      exact Wave.getLsbD_pReg_putMove _ _ _ h15 hl ha
    · rw [ht, Wave.sReg_retired, hd]
      exact Wave.sReg_putMove _ _ _ _ _
  · refine (movi_completes hI imm).imp fun t ⟨hframe, hmoved, ht⟩ => ⟨hframe, hmoved, fun hd l hl ha => ?_, fun d hd => ?_⟩
    · rw [ht, Wave.lane_retired]
      exact Wave.lane_putWord _ _ _ hd hl ha
    · rw [ht, Wave.sReg_retired, hd]
      exact Wave.sReg_putWord _ _ _ _ _

end Sys2Proof.Machine
end

section
/-! The values that special registers take when they are written (R164, R435, R438, R487), bit by bit. -/

namespace Sys2Proof.Machine

/-! ## Fields after a write -/

theorem testBit_bits {w : Nat} (x : BitVec w) (lo n i : Nat) : (bits x lo n).testBit i = (decide (i < n) && x.getLsbD (lo + i)) := by
  rw [bits, ← BitVec.getLsbD, BitVec.getLsbD_extractLsb']

/-- A bit that lies inside the field that `setBits` writes. -/
theorem getLsbD_setBits_of_in {w : Nat} (x : BitVec w) (lo n v i : Nat) (hi : i < w) (hlo : lo ≤ i) (hn : i < lo + n) :
    (setBits x lo n v).getLsbD i = v.testBit (i - lo) := by
  have hm : (BitVec.ofNat w ((2 ^ n - 1) * 2 ^ lo)).getLsbD i = true := by
    rw [BitVec.getLsbD_ofNat, Nat.testBit_mul_two_pow, Nat.testBit_two_pow_sub_one]
    simp [hi, hlo, show i - lo < n by omega]
  have hv : (BitVec.ofNat w (v * 2 ^ lo)).getLsbD i = v.testBit (i - lo) := by
    rw [BitVec.getLsbD_ofNat, Nat.testBit_mul_two_pow]
    simp [hi, hlo]
  simp only [setBits, BitVec.getLsbD_or, BitVec.getLsbD_and, BitVec.getLsbD_not, hm, hv, hi]
  simp

/-- A field written with a number that it can hold reads back. -/
theorem bits_setBits_same {w : Nat} (x : BitVec w) (lo n v : Nat) (hw : lo + n ≤ w) (hv : v < 2 ^ n) :
    bits (setBits x lo n v) lo n = v := by
  refine Nat.eq_of_testBit_eq fun i => ?_
  rw [testBit_bits]
  by_cases hi : i < n
  · rw [getLsbD_setBits_of_in _ _ _ _ _ (by omega) (by omega) (by omega), Nat.add_sub_cancel_left]
    simp [hi]
  · have hlt : v < 2 ^ i := Nat.lt_of_lt_of_le hv (Nat.pow_le_pow_right (by omega) (by omega))
    simp [hi, Nat.testBit_lt_two_pow hlt]

theorem bits_lt {w : Nat} (x : BitVec w) (lo n : Nat) : bits x lo n < 2 ^ n := (x.extractLsb' lo n).isLt

/-! ## %FPCR (R164) -/

/-- The defined bits of %FPCR beside RM. -/
theorem getLsbD_fpcrMask (n : Nat) (hn : n < 32) :
    (0x1F38#32).getLsbD n = decide (n = 3 ∨ n = 4 ∨ n = 5 ∨ 8 ≤ n ∧ n ≤ 12) := by
  interval_cases n <;> rfl

theorem getLsbD_rmMask (n : Nat) (hn : n < 32) : (7#32).getLsbD n = decide (n < 3) := by
  interval_cases n <;> rfl

theorem getLsbD_fpcrWrite (old : Word) (v : Word64) (n : Nat) (hn : n < 32) : (fpcrWrite old (v.setWidth 32)).getLsbD n =
    if n < 3 then (if v.toNat % 8 < 4 then v.getLsbD n else old.getLsbD n)
    else (decide (n = 3 ∨ n = 4 ∨ n = 5 ∨ 8 ≤ n ∧ n ≤ 12) && v.getLsbD n) := by
  have hrm : bits (v.setWidth 32 : Word) 0 3 = v.toNat % 8 := by
    simp only [bits, BitVec.extractLsb'_toNat, BitVec.toNat_setWidth, Nat.shiftRight_zero]
    omega
  have hlow : (if v.toNat % 8 < 4 then (v.setWidth 32 : Word) &&& 7#32 else old &&& 7#32).getLsbD n =
      (decide (n < 3) && if v.toNat % 8 < 4 then v.getLsbD n else old.getLsbD n) := by
    split <;> simp only [BitVec.getLsbD_and, BitVec.getLsbD_setWidth, getLsbD_rmMask n hn, hn, decide_true, Bool.true_and, Bool.and_comm]
  rw [fpcrWrite, hrm, BitVec.getLsbD_or, BitVec.getLsbD_and, BitVec.getLsbD_setWidth, getLsbD_fpcrMask n hn, hlow]
  by_cases h3 : n < 3
  · simp [h3, show ¬(n = 3 ∨ n = 4 ∨ n = 5 ∨ 8 ≤ n ∧ n ≤ 12) by omega]
  · simp [h3, hn, Bool.and_comm]

/-! ## %BALCTL (R438) -/

theorem balctlWrite_fields (old v : Word64) : (balctlWrite old v).getLsbD 0 = v.getLsbD 0 ∧
    bits (balctlWrite old v) 1 3 = (if bits v 1 3 = 0 ∨ bits v 1 3 = 7 then bits old 1 3 else bits v 1 3) ∧
    (balctlWrite old v).getLsbD 9 = (old.getLsbD 9 && v.getLsbD 9) ∧
    ∀ n, 4 ≤ n → n ≠ 9 → (balctlWrite old v).getLsbD n = old.getLsbD n := by
  set x := setBits old 0 1 (bits v 0 1) with hx
  set z := (if bits v 1 3 = 0 ∨ bits v 1 3 = 7 then x else setBits x 1 3 (bits v 1 3)) with hz
  have hw : balctlWrite old v = if v.getLsbD 9 then z else setBits z 9 1 0 := rfl
  have hout (n : Nat) (hn : n ≠ 9) : (balctlWrite old v).getLsbD n = z.getLsbD n := by
    rw [hw]
    split
    · rfl
    · exact getLsbD_setBits_of_out _ _ _ _ _ (by omega)
  have hzout (n : Nat) (hn : n < 1 ∨ 4 ≤ n) : z.getLsbD n = x.getLsbD n := by
    rw [hz]
    split
    · rfl
    · exact getLsbD_setBits_of_out _ _ _ _ _ (by omega)
  refine ⟨?_, ?_, ?_, fun n hn h9 => ?_⟩
  · rw [hout 0 (by omega), hzout 0 (by omega), hx, getLsbD_setBits_of_in _ _ _ _ _ (by omega) (by omega) (by omega), testBit_bits]
    rfl
  · have hfield : bits (balctlWrite old v) 1 3 = bits z 1 3 := by
      rw [hw]
      split
      · rfl
      · exact bits_setBits_of_apart _ _ _ _ _ _ (by omega)
    rw [hfield, hz]
    split
    · exact bits_setBits_of_apart _ _ _ _ _ _ (by omega)
    · exact bits_setBits_same _ _ _ _ (by omega) (bits_lt _ _ _)
  · have hz9 : z.getLsbD 9 = old.getLsbD 9 := (hzout 9 (by omega)).trans (getLsbD_setBits_of_out _ _ _ _ _ (by omega))
    rw [hw]
    cases h9 : v.getLsbD 9 with
    | true => rw [if_pos rfl, hz9, Bool.and_true]
    | false =>
      rw [if_neg Bool.false_ne_true, getLsbD_setBits_of_in _ _ _ _ _ (by omega) (by omega) (by omega), Nat.zero_testBit, Bool.and_false]
  · rw [hout n h9, hzout n (.inr hn)]
    exact getLsbD_setBits_of_out _ _ _ _ _ (by omega)

/-! ## The thresholds (R435) -/

theorem clampTh_eq (v : Word64) : clampTh v = max 100 (min 1000 (v.toNat % 2 ^ 16)) := by
  simp only [clampTh, bits, BitVec.extractLsb'_toNat, Nat.shiftRight_zero]
  omega

/-! ## %PREEMPT (R487) -/

/-- What %PREEMPT holds once it is written. -/
def preemptWritten (old v : Word64) : Word64 :=
  setBits (setBits (if 5 ≤ bits v 0 3 then old else setBits old 0 3 (bits v 0 3)) 7 1 (bits v 7 1)) 16 8
    (if bits v 16 8 = 0 then 1 else bits v 16 8)

theorem preemptWritten_fields (old v : Word64) :
    bits (preemptWritten old v) 0 3 = (if bits v 0 3 < 5 then bits v 0 3 else bits old 0 3) ∧
    (preemptWritten old v).getLsbD 7 = v.getLsbD 7 ∧
    bits (preemptWritten old v) 16 8 = (if bits v 16 8 = 0 then 1 else bits v 16 8) ∧
    (∀ n, 3 ≤ n → n ≠ 7 → (n < 16 ∨ 24 ≤ n) → (preemptWritten old v).getLsbD n = old.getLsbD n) := by
  unfold preemptWritten
  refine ⟨?_, ?_, ?_, fun n h3 h7 h16 => ?_⟩
  · rw [bits_setBits_of_apart _ _ _ _ _ _ (by omega), bits_setBits_of_apart _ _ _ _ _ _ (by omega)]
    by_cases h5 : bits v 0 3 < 5
    · rw [if_neg (by omega), if_pos h5]
      exact bits_setBits_same _ _ _ _ (by omega) (bits_lt _ _ _)
    · rw [if_pos (by omega), if_neg h5]
  · rw [getLsbD_setBits_of_out _ _ _ _ _ (by omega), getLsbD_setBits_of_in _ _ _ _ _ (by omega) (by omega) (by omega), testBit_bits]
    rfl
  · refine bits_setBits_same _ _ _ _ (by omega) ?_
    split
    · decide
    · exact bits_lt _ _ _
  · rw [getLsbD_setBits_of_out _ _ _ _ _ (by omega), getLsbD_setBits_of_out _ _ _ _ _ (by omega)]
    split
    · rfl
    · exact getLsbD_setBits_of_out _ _ _ _ _ (by omega)

/-- The steps that a request may name. -/
theorem preemptEvent_isSome {cid n : Nat} (h0 : 0 < n) (h5 : n < 5) : ∃ i, preemptEvent cid n = some i := by
  interval_cases n <;> exact ⟨_, rfl⟩

theorem preemptWrite_kept {r : Run} {cid : Nat} {v : Word64}
    (h : bits (preemptWritten (r.ctx cid).preempt v) 0 3 ≤ bits (preemptWritten (r.ctx cid).preempt v) 4 3) :
    preemptWrite r cid v = r.onCtx cid (fun x => { x with preempt := preemptWritten (r.ctx cid).preempt v }) :=
  if_neg (Nat.not_lt.mpr h)

theorem preemptWrite_begins {r : Run} {cid : Nat} {v : Word64}
    (h : bits (preemptWritten (r.ctx cid).preempt v) 4 3 < bits (preemptWritten (r.ctx cid).preempt v) 0 3) :
    preemptWrite r cid v = { r.onCtx cid (fun x => { x with preempt := preemptWritten (r.ctx cid).preempt v }) with
      inbox := (preemptEvent cid (bits (preemptWritten (r.ctx cid).preempt v) 0 3)).toList ++ r.inbox } :=
  if_pos h

end Sys2Proof.Machine
end

section
/-! MOVW, NOP, YIELD and REGION, settled (R104, R109, R136, R164 to R166, R195, R203, R435, R438, R487). -/

namespace Sys2Proof.Machine

/-! ## MOVW -/

/-- How MOVW issues. -/
def movwHow (h : Hd) (o : Ops) : How := { uses := usesOf h o, priv := Ops.namesPriv o, closer := true }

theorem movwEff_eq {o : Ops} {n : BitVec 9} (hd : o.d = .sp n) (y : Sys) {r : Run} {c : Iss} (hf : n = 0x011 → r.fpDue c.wid = false) :
    movwEff o y r c = .ok (writeSpecial r c.wid n.toNat (r.rdScalar c.wid o.a 0 c.act.lowest)) () := by
  unfold movwEff
  simp only [hd]
  refine if_neg fun h => ?_
  rw [Bool.and_eq_true, decide_eq_true_iff] at h
  rw [hf h.1] at h
  exact Bool.false_ne_true h.2

/-- What a closer that changes nothing of the waves keeps of them: the registers and the rest of its own but for %RGN, and the others. -/
def WavesClosed (s t : State) (c : Iss) : Prop :=
  RegsKept (s.wv c) (t.wv c) c.act [] ∧ RestKept { s.wv c with rgn := (s.wv c).rgn + 1 } (t.wv c) ∧
  ∀ n, n ≠ c.wid → t.run.wave n = s.run.wave n

theorem wavesClosed_retire {s : State} {h : Hd} {c : Iss} {k : How} {r : Run} (hi : s.run.issuer h = some c) (hc : k.closer = true)
    (hr : r.waves = s.run.waves) : WavesClosed s { s with run := r.retire c h k } c := by
  obtain ⟨w, hw, -, hww⟩ := Run.issuer_wave _ _ _ hi
  have hwave := Run.wave_retire r c h k w (hr ▸ hw)
  unfold WavesClosed
  simp only [State.wv, hww, hwave]
  refine ⟨(RegsKept.refl w c.act []).retired, RestKept.retired_closer hc rfl, fun n hn => ?_⟩
  rw [Run.wave_retire_of_ne r c h k n hn, Run.wave, Run.wave, hr]

theorem Run.retire_inbox (r : Run) (c : Iss) (h : Hd) (k : How) : (r.retire c h k).inbox = r.inbox := by
  have e := congrArg Run.inbox (Run.retire_frame r c h k)
  exact e

/-- Outside the waves and the cores, the state behind a retirement is the effect's. -/
theorem retire_frame_with {s : State} {r : Run} (c : Iss) (h : Hd) (k : How) {g : Run → Run}
    (hg : g r = s.run) (hk : ∀ x : Run, g { x with waves := r.waves, cores := r.cores } = g x) : g (r.retire c h k) = s.run := by
  rw [← hk, Run.retire_frame, hg]

/-- A core that is the same but for its counts and %BALCTL, with %BALCTL as it was. -/
theorem Core.sameButCounts_balctl {k z : Core} {x : Word64} (hk : k.sameButCounts { z with balctl := x }) :
    Core.sameButCounts { k with balctl := z.balctl } z := by
  have e := congrArg (fun k : Core => { k with balctl := z.balctl }) hk
  exact e

section
variable {s : State} {h : Hd} {o : Ops} {c : Iss} (hI : Issues s h c (usesOf h o)) (hp : Ops.namesPriv o = false ∨ (s.wv c).priv = true)
include hI hp

/-- The state that MOVW leaves. -/
theorem movw_next {n : BitVec 9} (hd : o.d = .sp n) (hf : n = 0x011 → s.run.fpDue c.wid = false) : exec (.movw h o) s =
    .next { s with run := (writeSpecial s.run c.wid n.toNat (s.ssrc c o.a)).retire c h (movwHow h o) } :=
  issue_ok' (k := movwHow h o) hI hp (.inl rfl) rfl (movwEff_eq hd s.sys hf)

/-- A write of a register that the wave itself holds; %FPSR's waits until nothing is due (R166). -/
theorem movw_wave {n : BitVec 9} {f : Wave → Wave} (hd : o.d = .sp n) (hf : n = 0x011 → s.run.fpDue c.wid = false)
    (hs : writeSpecial s.run c.wid n.toNat (s.ssrc c o.a) = s.run.onWave c.wid f) (hr : RegsKept (s.wv c) (f (s.wv c)) c.act []) :
    Completes (exec (.movw h o) s) (fun t => RegFrameBut s t c [] { f (s.wv c) with rgn := (f (s.wv c)).rgn + 1 } ∧
      t.wv c = Wave.retired s.run.clk c h (movwHow h o) (f (s.wv c))) := by
  have he := movwEff_eq hd s.sys hf
  rw [hs] at he
  refine (issue_wave (k := movwHow h o) hI hp rfl rfl he).imp fun t ⟨hdev, ht⟩ => ⟨?_, ht⟩
  exact regFrameBut_of_retired rfl hdev ht hr rfl

/-- A write of a register outside the waves. -/
theorem movw_outside {n : BitVec 9} {r : Run} (hd : o.d = .sp n) (hn : n ≠ 0x011)
    (hs : writeSpecial s.run c.wid n.toNat (s.ssrc c o.a) = r) (hw : r.waves = s.run.waves) :
    Completes (exec (.movw h o) s) (fun t => t = { s with run := r.retire c h (movwHow h o) } ∧ WavesClosed s t c) :=
  ⟨_, movw_next hI hp hd (fun e => absurd e hn), by rw [hs], by rw [hs]; exact wavesClosed_retire hI.1 rfl hw⟩

/-- A write of the wave's core's %BALCTL. -/
theorem movw_balctl (hd : o.d = .sp 0x031) : Completes (exec (.movw h o) s) (fun t =>
    DeviceKept s (let run := t.run.onCore (coreOf c.wid) (fun k => { k with balctl := (s.run.core (coreOf c.wid)).balctl })
                  { t with run := run }) c.wid ∧ RegsKept (s.wv c) (t.wv c) c.act [] ∧
    RestKept { s.wv c with rgn := (s.wv c).rgn + 1 } (t.wv c) ∧
    (t.run.core (coreOf c.wid)).balctl = balctlWrite (s.run.core (coreOf c.wid)).balctl (s.ssrc c o.a)) := by
  set core := coreOf c.wid with hcore
  set r := s.run.onCore core (fun k => { k with balctl := balctlWrite k.balctl (s.ssrc c o.a) }) with hr
  have hcore' : r.core core = { s.run.core core with balctl := balctlWrite (s.run.core core).balctl (s.ssrc c o.a) } :=
    (Run.core_onCore _ _ _ _).trans (if_pos rfl)
  refine (movw_outside (r := r) hI hp hd (by decide) rfl rfl).imp fun t ⟨ht, hregs, hrest, hothers⟩ => ⟨?_, hregs, hrest, ?_⟩
  · subst ht
    refine ⟨rfl, ?_, hothers, fun n => ?_⟩
    · exact retire_frame_with c h (movwHow h o) (g := fun x => { x with waves := s.run.waves, cores := s.run.cores }) rfl fun _ => rfl
    · change ((Run.onCore _ core _).core n).sameButCounts _
      have hsame := Run.core_retire_same r c h (movwHow h o) n
      rw [Run.core_onCore]
      by_cases hn : n = core
      · subst hn
        rw [if_pos rfl]
        exact Core.sameButCounts_balctl (hcore' ▸ hsame)
      · have hkept : r.core n = s.run.core n := (Run.core_onCore _ _ _ _).trans (if_neg hn)
        rw [if_neg hn]
        exact hkept ▸ hsame
  · have hsame := congrArg Core.balctl (Run.core_retire_same r c h (movwHow h o) core)
    rw [hcore'] at hsame
    rw [ht]
    exact hsame

/-- A write of a register of the wave's context. -/
theorem movw_ctx {n : BitVec 9} {f : Ctx → Ctx} (hd : o.d = .sp n) (hn : n ≠ 0x011)
    (hs : writeSpecial s.run c.wid n.toNat (s.ssrc c o.a) = s.run.onCtx (s.run.block (s.wv c).blk).ctx f)
    (hx : (s.run.ctxs.get? (s.run.block (s.wv c).blk).ctx).isSome = true) :
    Completes (exec (.movw h o) s) (fun t => t.sys = s.sys ∧
      t.run.ctx (s.run.block (s.wv c).blk).ctx = f (s.run.ctx (s.run.block (s.wv c).blk).ctx) ∧
      (∀ n, n ≠ (s.run.block (s.wv c).blk).ctx → t.run.ctx n = s.run.ctx n) ∧ RegsKept (s.wv c) (t.wv c) c.act [] ∧
      RestKept { s.wv c with rgn := (s.wv c).rgn + 1 } (t.wv c) ∧ (∀ n, n ≠ c.wid → t.run.wave n = s.run.wave n) ∧
      (∀ n, (t.run.core n).sameButCounts (s.run.core n)) ∧
      { t.run with waves := s.run.waves, cores := s.run.cores, ctxs := s.run.ctxs } = s.run) := by
  obtain ⟨x, hx⟩ := Option.isSome_iff_exists.mp hx
  refine (movw_outside hI hp hd hn hs rfl).imp fun t ⟨ht, hregs, hrest, hothers⟩ => ?_
  subst ht
  have hctx (m : Nat) (r : Run) : (r.retire c h (movwHow h o)).ctx m = r.ctx m := by rw [Run.ctx, Run.ctx, Run.retire_ctxs]
  refine ⟨rfl, (hctx _ _).trans (Run.ctx_onCtx _ _ _ _ hx), fun m hm => (hctx _ _).trans (Run.ctx_onCtx_of_ne _ _ _ _ hm), hregs, hrest,
    hothers, fun m => Run.core_retire_same _ _ _ _ m, ?_⟩
  exact retire_frame_with c h (movwHow h o) (g := fun x => { x with waves := s.run.waves, cores := s.run.cores, ctxs := s.run.ctxs }) rfl
    fun _ => rfl

/-- A write of a threshold of the wave's core's pair. -/
theorem movw_pair {n : BitVec 9} {f : Pair → Pair} (hd : o.d = .sp n) (hn : n ≠ 0x011)
    (hs : writeSpecial s.run c.wid n.toNat (s.ssrc c o.a) = s.run.onPair (pairOf (coreOf c.wid)) f) :
    Completes (exec (.movw h o) s) (fun t => t.sys = s.sys ∧
      { t.run with waves := s.run.waves, cores := s.run.cores, pairs := s.run.pairs } = s.run ∧ RegsKept (s.wv c) (t.wv c) c.act [] ∧
      RestKept { s.wv c with rgn := (s.wv c).rgn + 1 } (t.wv c) ∧ (∀ n, n ≠ c.wid → t.run.wave n = s.run.wave n) ∧
      (∀ n, (t.run.core n).sameButCounts (s.run.core n)) ∧
      (∀ n, n ≠ pairOf (coreOf c.wid) → t.run.pair n = s.run.pair n) ∧
      t.run.pair (pairOf (coreOf c.wid)) = f (s.run.pair (pairOf (coreOf c.wid)))) := by
  refine (movw_outside hI hp hd hn hs rfl).imp fun t ⟨ht, hregs, hrest, hothers⟩ => ?_
  subst ht
  have hpair (m : Nat) (r : Run) : (r.retire c h (movwHow h o)).pair m = r.pair m := by rw [Run.pair, Run.pair, Run.retire_pairs]
  refine ⟨rfl, ?_, hregs, hrest, hothers, fun m => Run.core_retire_same _ _ _ _ m,
    fun m hm => (hpair _ _).trans ((Run.pair_onPair _ _ _ _).trans (if_neg hm)),
    (hpair _ _).trans ((Run.pair_onPair _ _ _ _).trans (if_pos rfl))⟩
  exact retire_frame_with c h (movwHow h o) (g := fun x => { x with waves := s.run.waves, cores := s.run.cores, pairs := s.run.pairs }) rfl
    fun _ => rfl

/-- A write of the context's %PREEMPT, and the step it begins. -/
theorem movw_preempt (hd : o.d = .sp 0x108) (hx : (s.run.ctxs.get? (s.run.block (s.wv c).blk).ctx).isSome = true) :
    let cid := (s.run.block (s.wv c).blk).ctx
    let new := preemptWritten (s.run.ctx cid).preempt (s.ssrc c o.a)
    Completes (exec (.movw h o) s) (fun t => t.sys = s.sys ∧ RegsKept (s.wv c) (t.wv c) c.act [] ∧
      RestKept { s.wv c with rgn := (s.wv c).rgn + 1 } (t.wv c) ∧ (∀ n, n ≠ c.wid → t.run.wave n = s.run.wave n) ∧
      { t.run with waves := s.run.waves, cores := s.run.cores, ctxs := s.run.ctxs, inbox := s.run.inbox } = s.run ∧
      (t.run.ctx cid).preempt = new ∧
      (bits new 0 3 ≤ bits new 4 3 → t.run.inbox = s.run.inbox) ∧
      (bits new 4 3 < bits new 0 3 → t.run.inbox = (preemptEvent cid (bits new 0 3)).toList ++ s.run.inbox)) := by
  intro cid new
  obtain ⟨x, hx⟩ := Option.isSome_iff_exists.mp hx
  obtain ⟨i, hw⟩ : ∃ i, preemptWrite s.run cid (s.ssrc c o.a) =
      { s.run.onCtx cid (fun x => { x with preempt := new }) with inbox := i } ∧
      (bits new 0 3 ≤ bits new 4 3 → i = s.run.inbox) ∧
      (bits new 4 3 < bits new 0 3 → i = (preemptEvent cid (bits new 0 3)).toList ++ s.run.inbox) := by
    rcases Nat.lt_or_ge (bits new 4 3) (bits new 0 3) with hlt | hle
    · exact ⟨_, preemptWrite_begins hlt, fun hle => absurd hlt (Nat.not_lt.mpr hle), fun _ => rfl⟩
    · exact ⟨_, preemptWrite_kept hle, fun _ => rfl, fun hlt => absurd hlt (Nat.not_lt.mpr hle)⟩
  obtain ⟨hw, hkept, hbegins⟩ := hw
  refine (movw_outside hI hp hd (by decide) hw rfl).imp fun t ⟨ht, hregs, hrest, hothers⟩ => ?_
  have hinbox (r : Run) := Run.retire_inbox r c h (movwHow h o)
  have hctx (r : Run) : (r.retire c h (movwHow h o)).ctx cid = r.ctx cid := by rw [Run.ctx, Run.ctx, Run.retire_ctxs]
  subst ht
  refine ⟨rfl, hregs, hrest, hothers, ?_, ?_, fun hle => (hinbox _).trans (hkept hle), fun hlt => (hinbox _).trans (hbegins hlt)⟩
  · exact retire_frame_with c h (movwHow h o)
      (g := fun x => { x with waves := s.run.waves, cores := s.run.cores, ctxs := s.run.ctxs, inbox := s.run.inbox }) rfl fun _ => rfl
  · rw [hctx]
    exact congrArg Ctx.preempt (Run.ctx_onCtx s.run cid (fun x => { x with preempt := new }) x hx)

end

/-! ## The group moves on -/

@[simp] theorem Wave.retired_blk (clk : Nat) (c : Iss) (h : Hd) (k : How) (w : Wave) : (Wave.retired clk c h k w).blk = w.blk :=
  Wave.retired_read Wave.blk (fun _ _ _ _ _ => rfl) clk c h k w

theorem deviceKept_retire (s : State) (c : Iss) (h : Hd) (k : How) : DeviceKept s { s with run := s.run.retire c h k } c.wid :=
  ⟨rfl, Run.retire_frame _ _ _ _, fun n hn => Run.wave_retire_of_ne _ c h k n hn, fun n => Run.core_retire_same _ _ _ _ n⟩

theorem State.wv_retire {s : State} {c : Iss} {h : Hd} (hi : s.run.issuer h = some c) (k : How) :
    (s.run.retire c h k).wave c.wid = Wave.retired s.run.clk c h k (s.wv c) := by
  obtain ⟨w, hw, -, hww⟩ := Run.issuer_wave _ _ _ hi
  rw [State.wv, hww]
  exact Run.wave_retire _ c h k w hw

/-- Whether a launch is in DET mode is read from the launch, the block and the block's number alone. -/
theorem Run.det_congr {r t : Run} {w u : Wave} (hb : t.blocks = r.blocks) (hl : t.launches = r.launches) (hw : u.blk = w.blk) :
    t.det u = r.det w := by
  simp only [Run.det, Run.launchOf, Run.launch, Run.block, hb, hl, hw]

/-- A switch point outside DET mode is none (R94). -/
theorem Run.switchPoint_of_not_det {r : Run} {n : Nat} (h : r.det (r.wave n) = false) (pass : Bool) : r.switchPoint n pass = r := by
  unfold Run.switchPoint
  exact if_pos (by simp [h])

/-- How YIELD issues: a switch point that gives up its turn. -/
abbrev yieldHow : How := { switch := true, yld := true }

section
variable {s : State} {h : Hd} {c : Iss} (hI : Issues s h c [])
include hI

theorem nop_completes : Completes (exec (.nop h) s) (fun t => RegFrame s t c [] ∧ MovedOn s t c) :=
  ⟨_, issue_ok' (k := {}) hI (.inl rfl) (.inl rfl) rfl rfl,
    regFrame_of_retired rfl rfl (deviceKept_retire s c h {}) (State.wv_retire hI.1 {}) rfl (RegsKept.refl _ _ _) rfl⟩

theorem yield_does : Does s (.yield h) c h yieldHow s.run :=
  issue_ok (k := yieldHow) hI (.inl rfl) (.inl rfl) rfl

theorem yield_completes (hd : s.run.det (s.wv c) = false) (hw : InWave s c) :
    Completes (exec (.yield h) s) (fun t => RegFrame s t c [] ∧ MovedOn s t c ∧ (t.wv c).yielded = true) := by
  have hwv := State.wv_retire hI.1 yieldHow
  have hdet : (s.run.retire c h yieldHow).det ((s.run.retire c h yieldHow).wave c.wid) = false := by
    rw [hwv, ← hd]
    exact Run.det_congr (Run.retire_blocks _ _ _ _) (Run.retire_launches _ _ _ _) (Wave.retired_blk _ _ _ _ _)
  have hfin : s.run.finish s.run c h yieldHow = s.run.retire c h yieldHow := by
    unfold Run.finish
    rw [Run.switchPoint_of_not_det hdet, ite_self]
  obtain ⟨hframe, hmoved⟩ := regFrame_of_retired (t := { s with run := s.run.retire c h yieldHow }) (ds := []) rfl rfl
    (deviceKept_retire s c h _) hwv rfl (RegsKept.refl _ _ _) rfl
  refine ⟨_, hfin ▸ yield_does hI, hframe, hmoved, ?_⟩
  rw [State.wv, hwv, Wave.retired_yielded _ _ _ _ hw.2 hw.1]
  exact Bool.or_true _

theorem region_completes : Completes (exec (.region h) s) (fun t => DeviceKept s t c.wid ∧
    RestKept { s.wv c with rgn := (s.wv c).rgn + 1 } (t.wv c) ∧
    (t.wv c).parts = (s.wv c).parts.map (fun p =>
      if (p.mask &&& c.m) ≠ 0 then { p with pc := p.pc + 12, rpc := p.pc + 12, park := .run } else p)) := by
  have hwv := State.wv_retire hI.1 { closer := true }
  refine ⟨_, issue_ok' (k := { closer := true }) hI (.inl rfl) (.inl rfl) rfl rfl, deviceKept_retire s c h _, ?_, ?_⟩
  · change RestKept _ ((s.run.retire c h { closer := true }).wave c.wid)
    rw [hwv]
    exact RestKept.retired_closer rfl rfl
  · rw [State.wv, hwv]
    exact Wave.retired_parts_closer _ _ _ _ rfl rfl

end

/-- Settles O23: MOVW register by register, each by what the register is part of; the steps that make the same writes by definition; NOP,
YIELD and REGION by the retirement alone. -/
theorem specialsAndAdvance : Obligations.SpecialsAndAdvance := by
  unfold Obligations.SpecialsAndAdvance
  have hkept (w : Wave) (m : Lanes) := RegsKept.refl w m []
  refine ⟨⟨fun s h o c hI hn => ⟨fun hd => ?_, fun hd hf => ?_, fun hd => ?_, fun hd => ?_, fun hd => ?_⟩,
      fun s h o c hI hpriv => ⟨fun hx hd => ?_, fun hx hd => ?_, fun hx hd => ?_, fun hd => ?_, fun hd => ?_, fun hx hd => ?_⟩,
      fun s w v => ⟨_, rfl, rfl⟩, fun s w v => ⟨_, rfl, rfl⟩, fun s w => rfl⟩,
    fun s h c hI => ⟨nop_completes hI, yield_completes hI, yield_does hI, region_completes hI⟩⟩
  · refine (movw_wave (f := fun w => { w with fpcr := fpcrWrite w.fpcr ((s.ssrc c o.a).setWidth 32) }) hI (.inl hn) hd
      (fun e => absurd e (by decide)) rfl (hkept _ _)).imp fun t ⟨hframe, ht⟩ => ?_
    rw [ht, Wave.retired_fpcr, Wave.retired_fpsr, Wave.retired_rgn]
    exact ⟨hframe, getLsbD_fpcrWrite _ _, rfl, rfl⟩
  · refine (movw_wave (f := fun w => { w with fpsr := (s.ssrc c o.a).setWidth 32 &&& 0x3F#32 }) hI (.inl hn) hd (fun _ => hf) rfl
      (hkept _ _)).imp fun t ⟨hframe, ht⟩ => ?_
    rw [ht, Wave.retired_fpcr, Wave.retired_fpsr, Wave.retired_rgn]
    exact ⟨hframe, rfl, rfl, rfl⟩
  · refine (movw_wave (f := fun w => { w with epc := s.ssrc c o.a }) hI (.inl hn) hd
      (fun e => absurd e (by decide)) rfl (hkept _ _)).imp fun t ⟨hframe, ht⟩ => ?_
    rw [ht, Wave.retired_epc, Wave.retired_cause, Wave.retired_rgn]
    exact ⟨hframe, rfl, rfl, rfl⟩
  · refine (movw_wave (f := fun w => { w with utrap := s.ssrc c o.a &&& 0xFFFFF000#64 }) hI (.inl hn) hd
      (fun e => absurd e (by decide)) rfl (hkept _ _)).imp fun t ⟨hframe, ht⟩ => ?_
    rw [ht, Wave.retired_utrap, Wave.retired_rgn]
    exact ⟨hframe, rfl, rfl⟩
  · refine (movw_balctl hI (.inl hn) hd).imp fun t ⟨hdev, hregs, hrest, hbal⟩ => ⟨hdev, hregs, hrest, ?_⟩
    dsimp only
    rw [hbal]
    exact balctlWrite_fields _ _
  · exact movw_ctx hI (.inr hpriv) hd (by decide) rfl hx
  · exact movw_ctx hI (.inr hpriv) hd (by decide) rfl hx
  · exact movw_ctx hI (.inr hpriv) hd (by decide) rfl hx
  · exact (movw_wave (f := fun w => { w with sepc := s.ssrc c o.a }) hI (.inr hpriv) hd
      (fun e => absurd e (by decide)) rfl (hkept _ _)).imp fun t ⟨hframe, _⟩ => hframe
  · rcases hd with hd | hd
    · refine (movw_pair (f := fun p => p.writeTh (s.ssrc c o.a)) hI (.inr hpriv) hd (by decide) rfl).imp
        fun t ⟨hsys, hframe, hregs, hrest, hothers, hcores, hpairs, hpair⟩ =>
          ⟨hsys, hframe, hregs, hrest, hothers, hcores, hpairs, ?_⟩
      dsimp only
      rw [if_pos hd, if_pos hd, hpair, ← clampTh_eq]
      exact ⟨rfl, rfl⟩
    · have hne : o.d ≠ .sp 0x106 := by rw [hd]; decide
      refine (movw_pair (f := fun p => p.writeTx (s.ssrc c o.a)) hI (.inr hpriv) hd (by decide) rfl).imp
        fun t ⟨hsys, hframe, hregs, hrest, hothers, hcores, hpairs, hpair⟩ =>
          ⟨hsys, hframe, hregs, hrest, hothers, hcores, hpairs, ?_⟩
      dsimp only
      rw [if_neg hne, if_neg hne, hpair, ← clampTh_eq]
      exact ⟨rfl, rfl⟩
  · refine (movw_preempt hI (.inr hpriv) hd hx).imp fun t ⟨hsys, hregs, hrest, hothers, hframe, hnew, hinbox, hbegins⟩ => ?_
    obtain ⟨hreq, htrap, hdeadline, hbits⟩ := preemptWritten_fields (s.run.ctx (s.run.block (s.wv c).blk).ctx).preempt (s.ssrc c o.a)
    refine ⟨hsys, hregs, hrest, hframe, ?_⟩
    dsimp only
    rw [hnew]
    refine ⟨hreq, htrap, hdeadline, hbits, hinbox, fun hlt h5 => ?_⟩
    obtain ⟨i, hi⟩ := preemptEvent_isSome (Nat.zero_lt_of_lt hlt) h5
    exact ⟨i, hi, by rw [hbegins hlt, hi]; rfl⟩

end Sys2Proof.Machine
end

section
/-! The extended pool: what a wave holds after a grant and a return (R124, R126), what leaves the pools of the blocks as they were, and in
what order a settling serves the requests (R124, R127). -/

namespace Sys2Proof

/-- A read of a table of which only some keys are kept. -/
theorem SMap.get_filter {α : Type} (d : α) (p : Nat → Bool) (m : SMap α) (k : Nat) :
    SMap.get d (m.filter (fun e => p e.1)) k = if p k then SMap.get d m k else d := by
  induction m with
  | nil => simp [SMap.get]
  | cons e t ih =>
    obtain ⟨j, v⟩ := e
    by_cases hj : p j
    · rw [List.filter_cons_of_pos (by simpa using hj)]
      simp only [SMap.get]
      by_cases hk : k = j
      · rw [if_pos hk, if_pos hk, if_pos (hk ▸ hj)]
      · rw [if_neg hk, if_neg hk, ih]
    · rw [List.filter_cons_of_neg (by simpa using hj), ih]
      simp only [SMap.get]
      by_cases hk : k = j
      · rw [hk, if_neg hj, if_neg hj]
      · rw [if_neg hk]

end Sys2Proof

namespace Sys2Proof.Machine

/-! ## Registers gained and given back -/

/-- The registers that a wave keeps its values in when it gains n more. -/
def Wave.besides (w : Wave) (n k : Nat) : Bool := k < w.valloc || w.valloc + n ≤ k

theorem Wave.besides_eq_false {w : Wave} {n k : Nat} : w.besides n k = false ↔ w.valloc ≤ k ∧ k < w.valloc + n := by
  simp [Wave.besides]

theorem Wave.vRow_gain (w : Wave) (n k : Nat) : (w.gain n).vRow k = if w.besides n k then w.vRow k else zeroRow :=
  SMap.get_filter zeroRow (w.besides n) w.v k

theorem rowAt_zeroRow (l : Nat) : rowAt zeroRow l = 0 := by
  simp only [rowAt, zeroRow, List.getD_eq_getElem?_getD, List.getElem?_replicate]
  split <;> rfl

/-- A register gained is 0 in every lane, and every other is as it was. -/
theorem Wave.rowAt_gain (w : Wave) (n k l : Nat) :
    rowAt ((w.gain n).vRow k) l = if w.valloc ≤ k ∧ k < w.valloc + n then 0 else rowAt (w.vRow k) l := by
  rw [Wave.vRow_gain]
  cases hk : w.besides n k with
  | false => rw [if_pos (Wave.besides_eq_false.mp hk), if_neg Bool.false_ne_true, rowAt_zeroRow]
  | true =>
    rw [if_pos rfl, if_neg fun h => ?_]
    rw [Wave.besides_eq_false.mpr h] at hk
    exact Bool.false_ne_true hk

/-- A register gained is full. -/
theorem Wave.isEmpty_gain (w : Wave) {n k : Nat} (m : Lanes) (h0 : w.valloc ≤ k) (h1 : k < w.valloc + n) :
    (w.gain n).isEmpty ⟨true, k, m⟩ = false := by
  have hget : SMap.get 0 (w.gain n).vEmpty k = if w.besides n k then SMap.get 0 w.vEmpty k else 0 :=
    SMap.get_filter 0 (w.besides n) w.vEmpty k
  rw [Wave.besides_eq_false.mpr ⟨h0, h1⟩, if_neg Bool.false_ne_true] at hget
  simp only [Wave.isEmpty, if_true, hget]
  simp

/-- The registers that remain behind a return hold what they held. -/
theorem Wave.vRow_lose (w : Wave) {n k : Nat} (h : k < w.valloc - n) : (w.lose n).vRow k = w.vRow k :=
  (SMap.get_filter zeroRow (fun k => k < w.valloc - n) w.v k).trans (if_pos (decide_eq_true h))

/-! ## What leaves the pools alone -/

/-- Every block's pool is as it was: the registers free, and the requests that wait. -/
def Run.PoolKept (r t : Run) : Prop :=
  ∀ n, (t.block n).poolFree = (r.block n).poolFree ∧ (t.block n).poolQueue = (r.block n).poolQueue ∧
    (t.blocks.get? n).isSome = (r.blocks.get? n).isSome

theorem Run.PoolKept.of_blocks {r t : Run} (h : t.blocks = r.blocks) : r.PoolKept t := fun n => by
  simp only [Run.block, h, and_self]

theorem Run.PoolKept.trans {a b c : Run} (h : a.PoolKept b) (g : b.PoolKept c) : a.PoolKept c := fun n => by
  obtain ⟨hfree, hqueue, hsome⟩ := h n
  obtain ⟨gfree, gqueue, gsome⟩ := g n
  exact ⟨gfree.trans hfree, gqueue.trans hqueue, gsome.trans hsome⟩

/-- An update of a block that leaves its pool alone. -/
theorem Run.PoolKept.onBlock (r : Run) (b : Nat) {f : Block → Block} (hfree : ∀ x, (f x).poolFree = x.poolFree)
    (hqueue : ∀ x, (f x).poolQueue = x.poolQueue) : r.PoolKept (r.onBlock b f) := fun n => by
  by_cases hn : n = b
  · subst hn
    simp only [Run.block, Run.onBlock_blocks, Tbl.get?_upd, if_true]
    cases r.blocks.get? n with
    | none => simp
    | some x => simp [hfree, hqueue]
  · rw [Run.block_onBlock_of_ne _ _ _ _ hn]
    simp [hn]

theorem Run.wave_blk_onWave (r : Run) (n k : Nat) {f : Wave → Wave} (hf : ∀ w, (f w).blk = w.blk) :
    ((r.onWave n f).wave k).blk = (r.wave k).blk := by
  by_cases hk : k = n
  · subst hk
    simp only [Run.wave, Run.get_onWave, if_true]
    cases r.waves.get? k with
    | none => rfl
    | some w => exact hf w
  · rw [Run.wave_onWave_of_ne _ _ _ _ hk]

theorem logTrap_frame (r : Run) (core : Nat) (x : Ctx) (cls : Nat) (cause : Word) :
    { logTrap r core x cls cause with bb := r.bb, bbNext := r.bbNext, cores := r.cores } = r := by
  unfold logTrap
  split
  · rfl
  · dsimp only
    split <;> rfl

theorem logTrap_blocks (r : Run) (core : Nat) (x : Ctx) (cls : Nat) (cause : Word) : (logTrap r core x cls cause).blocks = r.blocks := by
  have e := congrArg Run.blocks (logTrap_frame r core x cls cause)
  exact e

theorem logTrap_waves (r : Run) (core : Nat) (x : Ctx) (cls : Nat) (cause : Word) : (logTrap r core x cls cause).waves = r.waves := by
  have e := congrArg Run.waves (logTrap_frame r core x cls cause)
  exact e

/-- A trap that leaves every block as it was and every wave in its block. -/
def Run.TrapKept (r t : Run) : Prop := t.blocks = r.blocks ∧ ∀ k, (t.wave k).blk = (r.wave k).blk

theorem supervisorEntry_kept (r : Run) (wid : Nat) (m : Lanes) (epc : Word64) (word : BitVec 96) (t : Trap) (cls sub : Nat) :
    r.TrapKept (supervisorEntry r wid m epc word t cls sub) := by
  unfold supervisorEntry
  dsimp only
  refine ⟨?_, fun k => ?_⟩
  · rw [Run.onWave_blocks]
    split
    · exact logTrap_blocks _ _ _ _ _
    · exact logTrap_blocks _ _ _ _ _
  · rw [Run.wave_blk_onWave]
    · split
      · rw [Run.wave, logTrap_waves]
        rfl
      · rw [Run.wave, Run.onCore_waves, logTrap_waves]
        rfl
    · exact fun w => rfl

theorem takeTrap_kept (r : Run) (wid : Nat) (m : Lanes) (pc : Word64) (word : BitVec 96) (t : Trap) :
    r.TrapKept (takeTrap r wid m pc word t) := by
  have hdelegated (epc : Word64) : r.TrapKept (delegatedEntry r wid m epc word t) :=
    ⟨rfl, fun k => Run.wave_blk_onWave _ _ _ fun w => rfl⟩
  unfold takeTrap
  dsimp only
  split
  · exact ⟨rfl, fun k => rfl⟩
  · split
    · exact supervisorEntry_kept _ _ _ _ _ _ _ _
    · split
      · split
        · exact supervisorEntry_kept _ _ _ _ _ _ _ _
        · exact hdelegated _
      · split <;> exact supervisorEntry_kept _ _ _ _ _ _ _ _

/-- A trap leaves the pools as they were, in a wave or in a stream, and every wave in its block. -/
theorem trapAt_kept (y : Sys) (r : Run) (c : Iss) (t : Trap) :
    r.PoolKept (trapAt y r c t) ∧ ∀ k, ((trapAt y r c t).wave k).blk = (r.wave k).blk := by
  unfold trapAt
  split
  · exact ⟨Run.PoolKept.onBlock _ _ (fun _ => rfl) (fun _ => rfl), fun k => rfl⟩
  · obtain ⟨hblocks, hwaves⟩ := takeTrap_kept r c.wid c.m c.pc (r.wordOf y c) t
    exact ⟨.of_blocks hblocks, hwaves⟩

theorem poolDecline_kept (y : Sys) (r : Run) (q : PoolReq) (t : Trap) : r.PoolKept (poolDecline y r q t) := by
  unfold poolDecline
  split
  · unfold trapParked
    dsimp only
    split
    · exact .of_blocks rfl
    · exact Run.PoolKept.trans (.of_blocks rfl) (trapAt_kept _ _ _ _).1
  · exact .of_blocks rfl

/-! ## A settling (R124, R127) -/

/-- A block that stands, with the requests that wait for its pool. -/
def Run.PoolIs (r : Run) (b : Nat) (qs : List PoolReq) : Prop := (r.blocks.get? b).isSome = true ∧ (r.block b).poolQueue = qs

theorem Run.PoolIs.of_kept {r t : Run} {b : Nat} {qs : List PoolReq} (hr : r.PoolIs b qs) (h : r.PoolKept t) : t.PoolIs b qs := by
  obtain ⟨-, hqueue, hsome⟩ := h b
  exact ⟨hsome.trans hr.1, hqueue.trans hr.2⟩

/-- A block whose requests are replaced. -/
theorem Run.PoolIs.replaced {r : Run} {b : Nat} {old new : List PoolReq} {f : Block → Block} (hr : r.PoolIs b old)
    (hf : ∀ x, (f x).poolQueue = new) : (r.onBlock b f).PoolIs b new := by
  obtain ⟨x, hx⟩ := Option.isSome_iff_exists.mp hr.1
  refine ⟨?_, ?_⟩
  · simp [hx]
  · rw [Run.block_onBlock _ _ _ _ hx, hf]

theorem poolGrantHead_poolIs {r : Run} {b : Nat} {q : PoolReq} {rest old : List PoolReq} (hr : r.PoolIs b old) :
    (poolGrantHead r b q rest).PoolIs b rest := by
  have h := hr.replaced (f := fun x => { x with poolFree := x.poolFree - q.n, poolQueue := rest }) (new := rest) fun _ => rfl
  unfold poolGrantHead
  split <;> exact h

theorem poolSettle_of_empty (y : Sys) {r : Run} {b : Nat} (fuel : Nat) (hq : (r.block b).poolQueue = []) :
    poolSettle y b (fuel + 1) r = r := by
  rw [poolSettle, hq]

/-- The head of the queue withdrawn by a trap. -/
def Run.withdrawn (y : Sys) (r : Run) (b : Nat) (q : PoolReq) (rest : List PoolReq) (t : Trap) : Run :=
  poolDecline y (r.onBlock b (fun x => { x with poolQueue := rest })) q t

/-- One round, by its head. -/
theorem poolSettle_of_cons (y : Sys) {r : Run} {b : Nat} {q : PoolReq} {rest : List PoolReq} (fuel : Nat)
    (hq : (r.block b).poolQueue = q :: rest) : poolSettle y b (fuel + 1) r =
      if q.tooMuch r then
        poolSettle y b fuel (Run.withdrawn y r b q rest { cls := 4, sub := 3, mask := q.act, cw := BitVec.ofNat 64 q.n })
      else if q.n ≤ (r.block b).poolFree then poolSettle y b fuel (poolGrantHead r b q rest)
      else if !poolDead r b then r
      else match q.wave with
        | none =>
          if rest.all (fun x => x.wave.isNone) then r
          else poolSettle y b fuel (r.onBlock b (fun x => { x with poolQueue := rest ++ [q] }))
        | some _ => poolSettle y b fuel (Run.withdrawn y r b q rest { cls := 13, sub := 3, mask := q.act }) := by
  rw [poolSettle, hq]
  rfl

theorem withdrawn_poolIs (y : Sys) {r : Run} {b : Nat} {old : List PoolReq} (hr : r.PoolIs b old) (q : PoolReq) (rest : List PoolReq)
    (t : Trap) : (Run.withdrawn y r b q rest t).PoolIs b rest := by
  have h := hr.replaced (f := fun x => { x with poolQueue := rest }) (new := rest) fun _ => rfl
  exact h.of_kept (poolDecline_kept _ _ _ _)

/-- What one round of a settling does: it ends where nothing waits or the head does not fit, or it goes on behind the head, which it has
served or withdrawn, or which is a bin's and has gone behind the others, waves' among them. -/
theorem poolSettle_succ (y : Sys) {b : Nat} (fuel : Nat) {r : Run} {qs : List PoolReq} (hr : r.PoolIs b qs) :
    (poolSettle y b (fuel + 1) r = r ∧ ∀ q rest, qs = q :: rest → (r.block b).poolFree < q.n) ∨
    ∃ q rest t new, qs = q :: rest ∧ poolSettle y b (fuel + 1) r = poolSettle y b fuel t ∧ t.PoolIs b new ∧
      (new = rest ∨ q.wave.isNone = true ∧ rest.all (fun x => x.wave.isNone) = false ∧ new = rest ++ [q]) := by
  cases qs with
  | nil => exact .inl ⟨poolSettle_of_empty y fuel hr.2, fun q rest h => nomatch h⟩
  | cons q rest =>
    have hround := poolSettle_of_cons y fuel hr.2
    by_cases hmuch : q.tooMuch r = true
    · rw [if_pos hmuch] at hround
      exact .inr ⟨q, rest, _, rest, rfl, hround, withdrawn_poolIs y hr q rest _, .inl rfl⟩
    rw [if_neg hmuch] at hround
    by_cases hfit : q.n ≤ (r.block b).poolFree
    · rw [if_pos hfit] at hround
      exact .inr ⟨q, rest, _, rest, rfl, hround, poolGrantHead_poolIs hr, .inl rfl⟩
    rw [if_neg hfit] at hround
    have hhead : ∀ q' rest', q :: rest = q' :: rest' → (r.block b).poolFree < q'.n := fun q' rest' h => by
      cases h
      exact Nat.lt_of_not_le hfit
    by_cases hdead : (!poolDead r b) = true
    · rw [if_pos hdead] at hround
      exact .inl ⟨hround, hhead⟩
    rw [if_neg hdead] at hround
    cases hwave : q.wave with
    | some x =>
      simp only [hwave] at hround
      exact .inr ⟨q, rest, _, rest, rfl, hround, withdrawn_poolIs y hr q rest _, .inl rfl⟩
    | none =>
      simp only [hwave] at hround
      by_cases hall : rest.all (fun x => x.wave.isNone) = true
      · rw [if_pos hall] at hround
        exact .inl ⟨hround, hhead⟩
      · rw [if_neg hall] at hround
        exact .inr ⟨q, rest, _, rest ++ [q], rfl, hround, hr.replaced (f := fun x => { x with poolQueue := rest ++ [q] }) fun _ => rfl,
          .inr ⟨Option.isNone_iff_eq_none.mpr hwave, Bool.eq_false_iff.mpr hall, rfl⟩⟩

/-- The rounds that a settling may take: one for each request, and one more for a bin's ahead of a wave's. -/
def poolRounds : List PoolReq → Nat
  | [] => 0
  | q :: rest => poolRounds rest + if q.wave.isNone && !rest.all (fun x => x.wave.isNone) then 2 else 1

theorem poolRounds_le (qs : List PoolReq) : poolRounds qs ≤ 2 * qs.length := by
  induction qs with
  | nil => exact Nat.le_refl 0
  | cons q rest ih =>
    have hone : (if q.wave.isNone && !rest.all (fun x => x.wave.isNone) then 2 else 1) ≤ 2 := by split <;> omega
    simp only [poolRounds, List.length_cons]
    omega

/-- A bin's request behind all others takes one round. -/
theorem poolRounds_append_bin {q : PoolReq} (hq : q.wave.isNone = true) (qs : List PoolReq) :
    poolRounds (qs ++ [q]) = poolRounds qs + 1 := by
  induction qs with
  | nil => simp [poolRounds]
  | cons x xs ih =>
    simp only [List.cons_append, poolRounds, ih, List.all_append, List.all_cons, List.all_nil, hq, Bool.and_true]
    omega

/-- Requests `new` that are left of `old`: none is new, and the waves' stand in their order, behind those that are gone. -/
def PoolLeft (old new : List PoolReq) : Prop :=
  (∀ q ∈ new, q ∈ old) ∧ ∃ served, old.filter (fun q => q.wave.isSome) = served ++ new.filter (fun q => q.wave.isSome)

theorem PoolLeft.refl (qs : List PoolReq) : PoolLeft qs qs := ⟨fun _ h => h, [], rfl⟩

theorem PoolLeft.trans {a b c : List PoolReq} (h : PoolLeft a b) (g : PoolLeft b c) : PoolLeft a c := by
  obtain ⟨hmem, served, hserved⟩ := h
  obtain ⟨gmem, more, gserved⟩ := g
  exact ⟨fun q hq => hmem q (gmem q hq), served ++ more, by rw [hserved, gserved, List.append_assoc]⟩

theorem PoolLeft.tail (q : PoolReq) (rest : List PoolReq) : PoolLeft (q :: rest) rest := by
  refine ⟨fun x hx => List.mem_cons_of_mem q hx, [q].filter (fun q => q.wave.isSome), ?_⟩
  rw [← List.filter_append, List.singleton_append]

theorem PoolLeft.behind {q : PoolReq} (hq : q.wave.isNone = true) (rest : List PoolReq) : PoolLeft (q :: rest) (rest ++ [q]) := by
  have hone : [q].filter (fun q => q.wave.isSome) = [] := by
    simp [Option.isNone_iff_eq_none.mp hq]
  refine ⟨fun x hx => ?_, [], ?_⟩
  · rw [List.mem_append, List.mem_singleton] at hx
    exact List.mem_cons.mpr hx.symm
  · rw [← List.singleton_append, List.filter_append, List.filter_append, hone, List.nil_append, List.nil_append, List.append_nil]

/-- A settling with rounds enough leaves requests of those that waited, in order, and a head that does not fit. -/
theorem poolSettle_serves (y : Sys) (b : Nat) (fuel : Nat) : ∀ (r : Run) (qs : List PoolReq), r.PoolIs b qs → poolRounds qs < fuel →
    PoolLeft qs ((poolSettle y b fuel r).block b).poolQueue ∧
    ∀ q rest, ((poolSettle y b fuel r).block b).poolQueue = q :: rest → ((poolSettle y b fuel r).block b).poolFree < q.n := by
  induction fuel with
  | zero => exact fun r qs _ h => absurd h (Nat.not_lt_zero _)
  | succ fuel ih =>
    intro r qs hr hrounds
    rcases poolSettle_succ y fuel hr with ⟨hstay, hhead⟩ | ⟨q, rest, t, new, rfl, hgo, ht, hnew⟩
    · rw [hstay, hr.2]
      exact ⟨PoolLeft.refl qs, hhead⟩
    · rw [hgo]
      have hstep : PoolLeft (q :: rest) new ∧ poolRounds new < poolRounds (q :: rest) := by
        rcases hnew with rfl | ⟨hbin, hwaves, rfl⟩
        · refine ⟨PoolLeft.tail q _, ?_⟩
          rw [poolRounds]
          split <;> omega
        · refine ⟨PoolLeft.behind hbin rest, ?_⟩
          rw [poolRounds_append_bin hbin, poolRounds, hbin, hwaves]
          simp
      obtain ⟨hleft, hhead⟩ := ih t new ht (by omega)
      exact ⟨hstep.1.trans hleft, hhead⟩

/-- Where the head of the queue does not fit and the pool is not deadlocked, a settling changes nothing. -/
theorem poolRun_waits {y : Sys} {r : Run} {b : Nat} {q : PoolReq} {rest : List PoolReq} (hq : (r.block b).poolQueue = q :: rest)
    (hmuch : q.tooMuch r = false) (hfit : (r.block b).poolFree < q.n) (hdead : poolDead r b = false) : poolRun y r b = r := by
  refine (poolSettle_of_cons y _ hq).trans ?_
  rw [hmuch, if_neg Bool.false_ne_true, if_neg (Nat.not_le.mpr hfit), hdead]
  rfl

theorem poolRun_of_empty {y : Sys} {r : Run} {b : Nat} (hq : (r.block b).poolQueue = []) : poolRun y r b = r :=
  poolSettle_of_empty y _ hq

end Sys2Proof.Machine
end

section
/-! RACQ, RACQ.try and RREL, settled (R122 to R127). -/

namespace Sys2Proof

/-- The record of another number stays in the table. -/
theorem SMap.mem_insert_of_ne {α : Type} {m : SMap α} {n : Nat} {x : α} {e : Nat × α} (he : e ∈ m) (hne : e.1 ≠ n) :
    e ∈ SMap.insert m n x := by
  induction m with
  | nil => cases he
  | cons f t ih =>
    obtain ⟨j, v⟩ := f
    simp only [SMap.insert]
    rcases List.mem_cons.mp he with rfl | ht
    · rw [if_neg fun h => hne h.symm]
      split
      · exact List.mem_cons_of_mem _ List.mem_cons_self
      · exact List.mem_cons_self
    · split
      · exact List.mem_cons_of_mem _ ht
      · split
        · exact List.mem_cons_of_mem _ he
        · exact List.mem_cons_of_mem _ (ih ht)

theorem Tbl.mem_upd_of_ne {α : Type} {m : Tbl α} {n : Nat} {f : α → α} {e : Nat × α} (he : e ∈ m) (hne : e.1 ≠ n) :
    e ∈ Tbl.upd m n f := by
  unfold Tbl.upd
  split
  · exact SMap.mem_insert_of_ne he hne
  · exact he

end Sys2Proof

namespace Sys2Proof.Machine

/-! ## Runs that differ in one wave and one block -/

/-- The run `t` comes from `r`: memory stands, wave `wid` is now `u` and block `blk` is now `x`, and no other wave or block has changed. -/
structure Run.Leaves (r t : Run) (wid : Nat) (u : Wave) (blk : Nat) (x : Block) : Prop where
  mem : t.mem = r.mem
  wave : t.waves.get? wid = some u
  others : ∀ k, k ≠ wid → t.wave k = r.wave k
  block : t.blocks.get? blk = some x
  blocks : ∀ k, k ≠ blk → t.block k = r.block k

namespace Run.Leaves
variable {r t : Run} {wid blk : Nat} {u : Wave} {x : Block} (hl : r.Leaves t wid u blk x)
include hl

theorem wave_eq : t.wave wid = u := by rw [Run.wave, hl.wave]; rfl

theorem block_eq : t.block blk = x := by rw [Run.block, hl.block]; rfl

theorem onWave (f : Wave → Wave) : r.Leaves (t.onWave wid f) wid (f u) blk x where
  mem := hl.mem
  wave := by rw [Run.get_onWave, if_pos rfl, hl.wave]; rfl
  others k hk := (Run.wave_onWave_of_ne t wid k f hk).trans (hl.others k hk)
  block := hl.block
  blocks := hl.blocks

theorem onBlock (f : Block → Block) : r.Leaves (t.onBlock blk f) wid u blk (f x) where
  mem := hl.mem
  wave := hl.wave
  others := hl.others
  block := by rw [Run.onBlock_blocks, Tbl.get?_upd, if_pos rfl, hl.block]; rfl
  blocks k hk := (Run.block_onBlock_of_ne t blk k f hk).trans (hl.blocks k hk)

/-- A change of neither memory, waves nor blocks. -/
theorem outside {t' : Run} (hm : t'.mem = t.mem) (hw : t'.waves = t.waves) (hb : t'.blocks = t.blocks) : r.Leaves t' wid u blk x where
  mem := hm.trans hl.mem
  wave := hw ▸ hl.wave
  others k hk := by rw [← hl.others k hk, Run.wave, Run.wave, hw]
  block := hb ▸ hl.block
  blocks k hk := by rw [← hl.blocks k hk, Run.block, Run.block, hb]

end Run.Leaves

theorem Run.Leaves.retire {r t : Run} {c : Iss} {blk : Nat} {u : Wave} {x : Block} (hl : r.Leaves t c.wid u blk x) (h : Hd) (k : How) :
    r.Leaves (t.retire c h k) c.wid (Wave.retired t.clk c h k u) blk x where
  mem := (Run.retire_mem t c h k).trans hl.mem
  wave := by rw [Run.get_retire, if_pos rfl, hl.wave]; rfl
  others n hn := (Run.wave_retire_of_ne t c h k n hn).trans (hl.others n hn)
  block := (Run.retire_blocks t c h k).symm ▸ hl.block
  blocks n hn := by rw [← hl.blocks n hn, Run.block, Run.block, Run.retire_blocks]

/-- STALL and YLD as the charge of an issue leaves them in a wave. -/
def Wave.charged (clk : Nat) (h : Hd) (k : How) (w : Wave) : Wave :=
  if w.life = .live && !w.stream then
    { w with stall := if h.stall = 0 then w.stall else max w.stall (clk + 1 + h.stall.toNat), yielded := h.yld || k.yld }
  else w

/-- The wave behind a RACQ that waits. -/
def Wave.awaits (clk : Nat) (h : Hd) (k : How) (m : Lanes) (n : Nat) (w : Wave) : Wave := (w.park m (.racq n)).charged clk h k

/-- What a reading of a wave does not take from its parts, STALL and YLD, a wait leaves. -/
theorem Wave.awaits_read {α : Type} (g : Wave → α)
    (hg : ∀ (w : Wave) ps st yd, g { w with parts := ps, stall := st, yielded := yd } = g w)
    (clk : Nat) (h : Hd) (k : How) (m : Lanes) (n : Nat) (w : Wave) : g (w.awaits clk h k m n) = g w := by
  unfold Wave.awaits Wave.charged
  split
  · exact hg w _ _ _
  · exact hg w _ _ _

theorem Wave.awaits_parts (clk : Nat) (h : Hd) (k : How) (m : Lanes) (n : Nat) (w : Wave) :
    (w.awaits clk h k m n).parts = w.parts.map (fun p => if (p.mask &&& m) ≠ 0 then { p with park := .racq n } else p) := by
  unfold Wave.awaits Wave.charged
  split <;> rfl

theorem Wave.regsKept_awaits (clk : Nat) (h : Hd) (k : How) (m : Lanes) (n : Nat) (w : Wave) (act : Lanes) :
    RegsKept w (w.awaits clk h k m n) act [] := by
  refine ⟨fun i l _ _ => ?_, fun i _ => ?_, fun i l _ => ?_, fun i l _ _ => ?_, fun i _ => ?_⟩
  · rw [Wave.awaits_read (fun w => w.vRow i) (fun _ _ _ _ => rfl)]
  · exact Wave.awaits_read (fun w => w.sReg i) (fun _ _ _ _ => rfl) ..
  · rw [Wave.awaits_read (fun w => w.pReg i) (fun _ _ _ _ => rfl)]
  · rw [Wave.awaits_read (fun w => w.aRow i) (fun _ _ _ _ => rfl)]
  · exact Wave.awaits_read (fun w => w.mReg i) (fun _ _ _ _ => rfl) ..

theorem Run.charge_waves (r : Run) (c : Iss) (h : Hd) (k : How) : (r.charge c h k).waves = r.waves.upd c.wid (Wave.charged r.clk h k) := rfl

theorem Run.Leaves.charge {r t : Run} {c : Iss} {blk : Nat} {u : Wave} {x : Block} (hl : r.Leaves t c.wid u blk x) (h : Hd) (k : How) :
    r.Leaves (t.charge c h k) c.wid (Wave.charged t.clk h k u) blk x :=
  (hl.onWave (Wave.charged t.clk h k)).outside rfl rfl rfl

/-! ## Switch points -/

/-- The passage of the commit token changes the cores alone. -/
theorem Run.passToken_frame (r : Run) (n : Nat) : { r.passToken n with cores := r.cores } = r := by
  unfold Run.passToken
  dsimp only
  split
  · rfl
  · split <;> rfl

/-- A switch point outside the cores changes the current wave of the block, if anything. -/
theorem Run.switchPoint_frame (r : Run) (n : Nat) (pass : Bool) :
    { r.switchPoint n pass with cores := r.cores, blocks := r.blocks } = r := by
  have hpass := congrArg (fun t : Run => { t with blocks := r.blocks }) (r.passToken_frame n)
  unfold Run.switchPoint
  dsimp only
  split
  · rfl
  · split
    · exact hpass
    · rfl

theorem Run.switchPoint_blocks (r : Run) (n : Nat) (pass : Bool) :
    (r.switchPoint n pass).blocks = r.blocks ∨
    ∃ k, (r.switchPoint n pass).blocks = r.blocks.upd (r.wave n).blk (fun b => { b with cur := k }) := by
  have hpass : (r.passToken n).blocks = r.blocks := by
    have e := congrArg Run.blocks (r.passToken_frame n)
    exact e
  unfold Run.switchPoint
  dsimp only
  split
  · exact .inl rfl
  · refine .inr ?_
    split
    · rw [Run.onBlock_blocks, hpass]
      exact ⟨_, rfl⟩
    · exact ⟨_, rfl⟩

theorem Run.switchPoint_waves (r : Run) (n : Nat) (pass : Bool) : (r.switchPoint n pass).waves = r.waves := by
  have e := congrArg Run.waves (r.switchPoint_frame n pass)
  exact e

theorem Run.Leaves.switchPoint {r t : Run} {wid blk : Nat} {u : Wave} {x : Block} (hl : r.Leaves t wid u blk x) (hu : u.blk = blk)
    (pass : Bool) : ∃ k, r.Leaves (t.switchPoint wid pass) wid u blk { x with cur := k } := by
  have hm : (t.switchPoint wid pass).mem = t.mem := by
    have e := congrArg Run.mem (t.switchPoint_frame wid pass)
    exact e
  rcases t.switchPoint_blocks wid pass with hb | ⟨k, hb⟩
  · exact ⟨x.cur, hl.outside hm (t.switchPoint_waves wid pass) hb⟩
  · rw [hl.wave_eq, hu] at hb
    exact ⟨k, (hl.onBlock (fun b => { b with cur := k })).outside hm (t.switchPoint_waves wid pass) hb⟩

/-! ## Issues that a settling of the pool follows -/

theorem issueThen_next {s : State} {h : Hd} {c : Iss} {k : How} {eff : Sys → Run → Iss → Eff Unit}
    {post : Sys → Run → Nat → Run} {r : Run} (hi : s.run.issuer h = some c) (hr : issue s h k eff = .next { s with run := r }) :
    issueThen s h k eff post = .next { s with run := post s.sys r c.wid } := by
  simp only [issue, hi, Host.Outcome.next.injEq, State.mk.injEq, and_true] at hr
  simp only [issueThen, hi, hr]

/-- An effect that waits for another step to end it: its group parks, and the issue is charged. -/
theorem issue_waits {s : State} {h : Hd} {c : Iss} {k : How} {eff : Sys → Run → Iss → Eff Unit} {r : Run} {p : Park}
    (hI : Issues s h c k.uses) (hp : k.priv = false) (hw : k.whole = none) (hs : k.switch = true) (hq : ∀ q, p ≠ .retry q)
    (he : eff s.sys s.run c = .park r p) :
    issue s h k eff = .next { s with run := ((r.onWave c.wid (fun w => w.park c.m p)).charge c h k).switchPoint c.wid true } := by
  obtain ⟨hc, ha, hu⟩ := hI
  simp only [issue, hc, issueOn, hp, hw, hs, Bool.false_and, Option.isSome_none, Bool.false_eq_true, if_false, if_true, ha, hu, he]
  cases p with
  | retry q => exact absurd rfl (hq q)
  | _ => rfl

theorem poolAfter_of_empty {y : Sys} {r : Run} {wid : Nat} (h : (r.block (r.wave wid).blk).poolQueue = []) : poolAfter y r wid = r :=
  poolRun_of_empty h

/-! ## The effects by their cases -/

theorem racqBad_iff (w : Wave) (e n : Nat) : racqBad w e n = true ↔ n = 0 ∨ n % 8 ≠ 0 ∨ e < n ∨ 256 < w.valloc + n := by
  simp [racqBad, or_assoc]

theorem rrelBad_iff (w : Wave) (n : Nat) : rrelBad w n = true ↔ n = 0 ∨ n % 8 ≠ 0 ∨ w.acquired < n := by
  simp [rrelBad, or_assoc]

theorem Block.canGrant_iff (b : Block) (n : Nat) : b.canGrant n = true ↔ b.poolQueue = [] ∧ n ≤ b.poolFree := by
  simp [Block.canGrant]

/-- How RACQ, RACQ.try and RREL issue. -/
abbrev racqHow (h : Hd) (o : Ops) : How := { uses := usesOf h o, closer := true, switch := true }
abbrev poolHow (h : Hd) (o : Ops) : How := { uses := usesOf h o, closer := true }

/-- Whether RACQ and RACQ.try trap for their count (R123). -/
def State.racqBad (s : State) (c : Iss) (o : Ops) : Bool :=
  Machine.racqBad (s.wv c) (s.run.launchOf (s.wv c)).info.extend (s.run.rdCount c o.a)

/-- The request that RACQ leaves in the queue. -/
def Run.poolReq (r : Run) (c : Iss) (o : Ops) : PoolReq := ⟨some (c.wid, c.m), c.act, 0, r.rdCount c o.a⟩

section
variable {s : State} {h : Hd} {o : Ops} {c : Iss} {b : Block} (hI : Issues s h c (usesOf h o))
  (hb : s.run.blocks.get? (s.wv c).blk = some b)

include hb in
theorem block_of_get : s.run.block (s.wv c).blk = b := by rw [Run.block, hb]; rfl

include hb in
theorem leaves_self (hi : s.run.issuer h = some c) : s.run.Leaves s.run c.wid (s.wv c) (s.wv c).blk b := by
  obtain ⟨w, hw, -, hww⟩ := Run.issuer_wave _ _ _ hi
  refine ⟨rfl, ?_, fun _ _ => rfl, hb, fun _ _ => rfl⟩
  rw [State.wv, hww]
  exact hw

/-! ## Traps -/

include hb in
/-- A trap brings nothing to serve where nothing waits. -/
theorem poolAfter_trapAt (hq : b.poolQueue = []) (t : Trap) :
    poolAfter s.sys (trapAt s.sys s.run c t) c.wid = trapAt s.sys s.run c t := by
  obtain ⟨hpool, hblk⟩ := trapAt_kept s.sys s.run c t
  refine poolAfter_of_empty ?_
  rw [hblk, (hpool _).2.1, block_of_get hb, hq]

include hI

theorem racqTry_traps (hbad : s.racqBad c o = true) : Traps s (.racqTry h o) c (countTrap c.act (s.run.rdCount c o.a)) :=
  issue_trap (k := poolHow h o) hI (.inl rfl) (.inl rfl) (if_pos hbad)

include hb

theorem racq_traps (hbad : s.racqBad c o = true) (hq : b.poolQueue = []) :
    Traps s (.racq h o) c (countTrap c.act (s.run.rdCount c o.a)) := by
  have hi := issue_trap (k := racqHow h o) (eff := racqEff o) hI (.inl rfl) (.inl rfl) (if_pos hbad)
  have hn := issueThen_next (post := poolAfter) hI.1 hi
  rw [poolAfter_trapAt hb hq] at hn
  exact hn

theorem rrel_traps (hbad : rrelBad (s.wv c) (s.run.rdCount c o.a) = true) (hq : b.poolQueue = []) :
    Traps s (.rrel h o) c (countTrap c.act (s.run.rdCount c o.a)) := by
  have hi := issue_trap (k := poolHow h o) (eff := rrelEff o) hI (.inl rfl) (.inl rfl) (if_pos hbad)
  have hn := issueThen_next (post := poolAfter) hI.1 hi
  rw [poolAfter_trapAt hb hq] at hn
  exact hn

/-! ## Grants -/

omit hI in
theorem canGrant_blockOf (n : Nat) : (s.run.blockOf (s.wv c)).canGrant n = b.canGrant n :=
  congrArg (fun b => Block.canGrant b n) (block_of_get hb)

/-- The registers are the wave's, and out of the pool. -/
theorem leaves_grantNow (n : Nat) : s.run.Leaves (s.run.grantNow c.wid n) c.wid ((s.wv c).gain n) (s.wv c).blk
    { b with poolFree := b.poolFree - n } :=
  ((leaves_self hb hI.1).onBlock _).onWave _

theorem racq_grants (hbad : s.racqBad c o = false) (hg : b.canGrant (s.run.rdCount c o.a) = true) :
    ∃ r k, exec (.racq h o) s = .next { s with run := r } ∧ s.run.Leaves r c.wid
      (Wave.retired s.run.clk c h (racqHow h o) ((s.wv c).gain (s.run.rdCount c o.a))) (s.wv c).blk
      { b with poolFree := b.poolFree - s.run.rdCount c o.a, cur := k } := by
  have he : racqEff o s.sys s.run c = .ok (s.run.grantNow c.wid (s.run.rdCount c o.a)) () :=
    (if_neg (Bool.eq_false_iff.mp hbad)).trans (if_pos ((canGrant_blockOf hb _).trans hg))
  have hi := issue_ok (k := racqHow h o) hI (.inl rfl) (.inl rfl) he
  have hl := (leaves_grantNow hI hb (s.run.rdCount c o.a)).retire h (racqHow h o)
  obtain ⟨r, k, hr, hl⟩ : ∃ r k, issue s h (racqHow h o) (racqEff o) = .next { s with run := r } ∧ s.run.Leaves r c.wid
      (Wave.retired s.run.clk c h (racqHow h o) ((s.wv c).gain (s.run.rdCount c o.a))) (s.wv c).blk
      { b with poolFree := b.poolFree - s.run.rdCount c o.a, cur := k } := by
    by_cases hsw : ((racqHow h o).switch && !(s.run.wave c.wid).resumes c.m) = true
    · rw [if_pos hsw] at hi
      obtain ⟨k, hl⟩ := hl.switchPoint (Wave.retired_blk _ _ _ _ _) true
      exact ⟨_, k, hi, hl⟩
    · rw [if_neg hsw] at hi
      exact ⟨_, b.cur, hi, hl⟩
  have hn := issueThen_next (post := poolAfter) hI.1 hr
  rw [poolAfter_of_empty] at hn
  · exact ⟨r, k, hn, hl⟩
  · rw [hl.wave_eq, Wave.retired_blk]
    exact (congrArg Block.poolQueue hl.block_eq).trans ((Block.canGrant_iff _ _).mp hg).1

theorem racqTry_grants (hbad : s.racqBad c o = false) (hg : b.canGrant (s.run.rdCount c o.a) = true) {d : BitVec 4} (hd : o.d = .p d) :
    ∃ r, exec (.racqTry h o) s = .next { s with run := r } ∧ s.run.Leaves r c.wid
      (Wave.retired s.run.clk c h (poolHow h o) (((s.wv c).gain (s.run.rdCount c o.a)).setP d.toNat c.act (fun _ => true))) (s.wv c).blk
      { b with poolFree := b.poolFree - s.run.rdCount c o.a } := by
  have he : racqTryEff o s.sys s.run c = .ok ((s.run.grantNow c.wid (s.run.rdCount c o.a)).onWave c.wid
      (fun w => w.setP d.toNat c.act (fun _ => true))) () := by
    refine (if_neg (Bool.eq_false_iff.mp hbad)).trans ((if_pos ((canGrant_blockOf hb _).trans hg)).trans ?_)
    rw [hd]
    rfl
  exact ⟨_, issue_ok' (k := poolHow h o) hI (.inl rfl) (.inl rfl) rfl he, ((leaves_grantNow hI hb _).onWave _).retire h _⟩

/-- A request that cannot be granted at once: RACQ.try answers false, and nothing else happens. -/
theorem racqTry_refuses (hbad : s.racqBad c o = false) (hg : b.canGrant (s.run.rdCount c o.a) = false) {d : BitVec 4} (hd : o.d = .p d) :
    ∃ r, exec (.racqTry h o) s = .next { s with run := r } ∧ r.blocks = s.run.blocks ∧ s.run.Leaves r c.wid
      (Wave.retired s.run.clk c h (poolHow h o) ((s.wv c).setP d.toNat c.act (fun _ => false))) (s.wv c).blk b := by
  have he : racqTryEff o s.sys s.run c = .ok (s.run.onWave c.wid (fun w => w.setP d.toNat c.act (fun _ => false))) () := by
    refine (if_neg (Bool.eq_false_iff.mp hbad)).trans ((if_neg (Bool.eq_false_iff.mp ((canGrant_blockOf hb _).trans hg))).trans ?_)
    rw [hd]
    rfl
  exact ⟨_, issue_ok' (k := poolHow h o) hI (.inl rfl) (.inl rfl) rfl he, Run.retire_blocks _ _ _ _,
    ((leaves_self hb hI.1).onWave _).retire h _⟩

/-! ## Returns -/

theorem rrel_returns (hbad : rrelBad (s.wv c) (s.run.rdCount c o.a) = false) (hq : b.poolQueue = [])
    (hfull : ∀ e ∈ (s.wv c).vEmpty, e.1 < (s.wv c).valloc - s.run.rdCount c o.a ∨ (s.wv c).valloc ≤ e.1) :
    ∃ r, exec (.rrel h o) s = .next { s with run := r } ∧ s.run.Leaves r c.wid
      (Wave.retired s.run.clk c h (poolHow h o) ((s.wv c).lose (s.run.rdCount c o.a))) (s.wv c).blk
      { b with poolFree := b.poolFree + s.run.rdCount c o.a } := by
  have howed : ((s.wv c).vEmpty.filter (fun e => (s.wv c).valloc - s.run.rdCount c o.a ≤ e.1 && e.1 < (s.wv c).valloc)).map
      (fun e => (⟨true, e.1, e.2⟩ : RegRef)) = [] := by
    rw [List.map_eq_nil_iff, List.filter_eq_nil_iff]
    intro e he
    have := hfull e he
    simp only [Bool.and_eq_true, decide_eq_true_eq]
    omega
  have he : rrelEff o s.sys s.run c = .ok ((s.run.onWave c.wid (fun w => w.lose (s.run.rdCount c o.a))).onBlock (s.wv c).blk
      (fun b => { b with poolFree := b.poolFree + s.run.rdCount c o.a })) () :=
    (if_neg (Bool.eq_false_iff.mp hbad)).trans (if_neg (not_not.mpr howed))
  have hi := issue_ok' (k := poolHow h o) hI (.inl rfl) (.inl rfl) rfl he
  have hl := (((leaves_self hb hI.1).onWave (fun w => w.lose (s.run.rdCount c o.a))).onBlock
    (fun b => { b with poolFree := b.poolFree + s.run.rdCount c o.a })).retire h (poolHow h o)
  have hn := issueThen_next (post := poolAfter) hI.1 hi
  rw [poolAfter_of_empty] at hn
  · exact ⟨_, hn, hl⟩
  · rw [hl.wave_eq, Wave.retired_blk]
    exact (congrArg Block.poolQueue hl.block_eq).trans hq

/-! ## Requests that wait -/

/-- RACQ joins the end of the queue where the request cannot be granted at once. -/
theorem racq_joins (hbad : s.racqBad c o = false) (hg : b.canGrant (s.run.rdCount c o.a) = false) :
    ∃ r k, issue s h (racqHow h o) (racqEff o) = .next { s with run := r } ∧ s.run.Leaves r c.wid
      (Wave.awaits s.run.clk h (racqHow h o) c.m (s.run.rdCount c o.a) (s.wv c)) (s.wv c).blk
      { b with poolQueue := b.poolQueue ++ [s.run.poolReq c o], cur := k } ∧
      ∀ e ∈ s.run.waves, e.1 ≠ c.wid → e ∈ r.waves := by
  have he : racqEff o s.sys s.run c = .park (s.run.onBlock (s.wv c).blk
      (fun b => { b with poolQueue := b.poolQueue ++ [s.run.poolReq c o] })) (.racq (s.run.rdCount c o.a)) :=
    (if_neg (Bool.eq_false_iff.mp hbad)).trans (if_neg (Bool.eq_false_iff.mp ((canGrant_blockOf hb _).trans hg)))
  have hi := issue_waits (k := racqHow h o) hI rfl rfl rfl (fun q => Park.noConfusion) he
  have hl := (((leaves_self hb hI.1).onBlock (fun b => { b with poolQueue := b.poolQueue ++ [s.run.poolReq c o] })).onWave
    (fun w => w.park c.m (.racq (s.run.rdCount c o.a)))).charge h (racqHow h o)
  obtain ⟨k, hl⟩ := hl.switchPoint (Wave.awaits_read Wave.blk (fun _ _ _ _ => rfl) ..) true
  refine ⟨_, k, hi, hl, fun e he hne => ?_⟩
  rw [Run.switchPoint_waves, Run.charge_waves, Run.onWave_waves, Run.onBlock_waves]
  exact Tbl.mem_upd_of_ne (Tbl.mem_upd_of_ne he hne) hne

/-- The request waits: its head does not fit, and some wave that holds registers of the pool is not parked in a RACQ (R127). -/
theorem racq_waits (hbad : s.racqBad c o = false) (hnew : b.poolQueue = [] → b.poolFree < s.run.rdCount c o.a)
    (hhead : ∀ q rest, b.poolQueue = q :: rest → b.poolFree < q.n ∧ q.tooMuch s.run = false)
    (hlive : ∃ e ∈ s.run.wavesOf (s.wv c).blk, e.1 ≠ c.wid ∧ e.2.acquired ≠ 0 ∧
      ∀ q ∈ b.poolQueue, q.wave.map (·.1) ≠ some e.1) :
    ∃ r k, exec (.racq h o) s = .next { s with run := r } ∧ s.run.Leaves r c.wid
      (Wave.awaits s.run.clk h (racqHow h o) c.m (s.run.rdCount c o.a) (s.wv c)) (s.wv c).blk
      { b with poolQueue := b.poolQueue ++ [s.run.poolReq c o], cur := k } := by
  have hg : b.canGrant (s.run.rdCount c o.a) = false := by
    rw [Bool.eq_false_iff]
    intro hg
    obtain ⟨hq, hfit⟩ := (Block.canGrant_iff _ _).mp hg
    exact Nat.not_le.mpr (hnew hq) hfit
  obtain ⟨r, k, hi, hl, hwaves⟩ := racq_joins hI hb hbad hg
  have hblk : (r.wave c.wid).blk = (s.wv c).blk :=
    (congrArg Wave.blk hl.wave_eq).trans (Wave.awaits_read Wave.blk (fun _ _ _ _ => rfl) ..)
  have hvalloc (n : Nat) : (r.wave n).valloc = (s.run.wave n).valloc := by
    by_cases hn : n = c.wid
    · rw [hn, hl.wave_eq]
      exact Wave.awaits_read Wave.valloc (fun _ _ _ _ => rfl) ..
    · rw [hl.others n hn]
  have hpool : (r.block (s.wv c).blk).poolQueue = b.poolQueue ++ [s.run.poolReq c o] ∧ (r.block (s.wv c).blk).poolFree = b.poolFree := by
    rw [hl.block_eq]
    exact ⟨rfl, rfl⟩
  obtain ⟨hqueue, hfree⟩ := hpool
  have hdead : poolDead r (s.wv c).blk = false := by
    obtain ⟨e, he, hne, hacq, hfar⟩ := hlive
    obtain ⟨hmem, hin⟩ := List.mem_filter.mp he
    refine List.all_eq_false.mpr ⟨e, List.mem_filter.mpr ⟨hwaves e hmem hne, hin⟩, ?_⟩
    have hfar' : ∀ q ∈ b.poolQueue ++ [s.run.poolReq c o], q.wave.map (·.1) ≠ some e.1 := by
      intro q hq
      rcases List.mem_append.mp hq with hq | hq
      · exact hfar q hq
      · rw [List.mem_singleton.mp hq]
        exact fun h => hne (Option.some_inj.mp h).symm
    have hnone : (b.poolQueue ++ [s.run.poolReq c o]).any (fun q => q.wave.any (fun x => x.1 = e.1)) = false := by
      refine List.any_eq_false.mpr fun q hq hany => hfar' q hq ?_
      cases hw : q.wave with
      | none => simp [hw] at hany
      | some x => simpa [hw] using hany
    rw [hqueue, hnone]
    simp [hacq]
  obtain ⟨q, rest, hcons, hmuch, hfit⟩ : ∃ q rest, b.poolQueue ++ [s.run.poolReq c o] = q :: rest ∧ q.tooMuch r = false ∧
      b.poolFree < q.n := by
    cases hq : b.poolQueue with
    | nil =>
      refine ⟨s.run.poolReq c o, [], rfl, decide_eq_false ?_, hnew hq⟩
      have hbound := (not_congr (racqBad_iff _ _ _)).mp (Bool.eq_false_iff.mp hbad)
      simp only [not_or] at hbound
      rw [hvalloc]
      exact hbound.2.2.2
    | cons q rest =>
      obtain ⟨hfit, hmuch⟩ := hhead q rest hq
      refine ⟨q, rest ++ [s.run.poolReq c o], rfl, ?_, hfit⟩
      rw [← hmuch]
      simp only [PoolReq.tooMuch, hvalloc]
  have hn := issueThen_next (post := poolAfter) hI.1 hi
  have hstay : poolAfter s.sys r c.wid = r := by
    rw [poolAfter, hblk]
    exact poolRun_waits (hqueue.trans hcons) hmuch (hfree ▸ hfit) hdead
  rw [hstay] at hn
  exact ⟨r, k, hn, hl⟩

end

/-! ## What the state shows -/

/-- What a grant, a wait and a return leave outside the wave's registers and its block. -/
def PoolFrame (s t : State) (c : Iss) : Prop :=
  t.sys = s.sys ∧ t.run.mem = s.run.mem ∧ (∀ k, k ≠ c.wid → t.run.wave k = s.run.wave k) ∧
  (∀ k, k ≠ (s.wv c).blk → t.run.block k = s.run.block k) ∧
  (t.wv c).s = (s.wv c).s ∧ (t.wv c).a = (s.wv c).a ∧ (t.wv c).m = (s.wv c).m

/-- A grant of n registers out of the pool of the block that was `b` (R124). -/
def PoolGranted (s t : State) (c : Iss) (n : Nat) (b : Block) : Prop :=
  PoolFrame s t c ∧ (t.wv c).valloc = (s.wv c).valloc + n ∧ (t.wv c).acquired = (s.wv c).acquired + n ∧
  (t.run.block (s.wv c).blk).poolFree = b.poolFree - n ∧ (t.run.block (s.wv c).blk).poolQueue = [] ∧
  (∀ k l, l < 32 → rowAt ((t.wv c).vRow k) l =
    if (s.wv c).valloc ≤ k ∧ k < (s.wv c).valloc + n then 0 else rowAt ((s.wv c).vRow k) l) ∧
  ∀ k m, (s.wv c).valloc ≤ k → k < (s.wv c).valloc + n → (t.wv c).isEmpty ⟨true, k, m⟩ = false

/-- The wave `u` holds what `w` does, but for predicates and where it stands. -/
def Wave.HoldsAs (w u : Wave) : Prop :=
  u.v = w.v ∧ u.vEmpty = w.vEmpty ∧ u.s = w.s ∧ u.a = w.a ∧ u.m = w.m ∧ u.valloc = w.valloc ∧ u.acquired = w.acquired

theorem Wave.holdsAs_setP (w : Wave) (n : Nat) (m : Lanes) (f : Nat → Bool) : w.HoldsAs (w.setP n m f) :=
  ⟨w.setP_v n m f, w.setP_vEmpty n m f, w.setP_s n m f, w.setP_a n m f, w.setP_m n m f, w.setP_valloc n m f, w.setP_acquired n m f⟩

theorem Wave.holdsAs_retired (w : Wave) (clk : Nat) (c : Iss) (h : Hd) (k : How) : w.HoldsAs (Wave.retired clk c h k w) := by
  have hkept {α : Type} (g : Wave → α)
      (hg : ∀ (w : Wave) ps st yd rg, g { w with parts := ps, stall := st, yielded := yd, rgn := rg } = g w) :=
    Wave.retired_read g hg clk c h k w
  exact ⟨hkept Wave.v fun _ _ _ _ _ => rfl, hkept Wave.vEmpty fun _ _ _ _ _ => rfl, hkept Wave.s fun _ _ _ _ _ => rfl,
    hkept Wave.a fun _ _ _ _ _ => rfl, hkept Wave.m fun _ _ _ _ _ => rfl, hkept Wave.valloc fun _ _ _ _ _ => rfl,
    hkept Wave.acquired fun _ _ _ _ _ => rfl⟩

theorem Wave.HoldsAs.trans {w u z : Wave} (hu : w.HoldsAs u) (hz : u.HoldsAs z) : w.HoldsAs z := by
  obtain ⟨hv, hve, hs, ha, hm, hvalloc, hacq⟩ := hu
  obtain ⟨gv, gve, gs, ga, gm, gvalloc, gacq⟩ := hz
  exact ⟨gv.trans hv, gve.trans hve, gs.trans hs, ga.trans ha, gm.trans hm, gvalloc.trans hvalloc, gacq.trans hacq⟩

@[simp] theorem Wave.retired_p (clk : Nat) (c : Iss) (h : Hd) (k : How) (w : Wave) : (Wave.retired clk c h k w).p = w.p :=
  Wave.retired_read Wave.p (fun _ _ _ _ _ => rfl) clk c h k w

section
variable {s : State} {c : Iss} {r : Run} {u : Wave} {x : Block} (hl : s.run.Leaves r c.wid u (s.wv c).blk x)
include hl

theorem poolFrame_of_leaves (hs : u.s = (s.wv c).s) (ha : u.a = (s.wv c).a) (hm : u.m = (s.wv c).m) :
    PoolFrame s { s with run := r } c := by
  have hu : (State.wv { s with run := r } c) = u := hl.wave_eq
  exact ⟨rfl, hl.mem, hl.others, hl.blocks, (congrArg Wave.s hu).trans hs, (congrArg Wave.a hu).trans ha, (congrArg Wave.m hu).trans hm⟩

theorem poolGranted_of_leaves {n : Nat} {b : Block} (hu : ((s.wv c).gain n).HoldsAs u) (hfree : x.poolFree = b.poolFree - n)
    (hqueue : x.poolQueue = []) : PoolGranted s { s with run := r } c n b := by
  obtain ⟨hv, hve, hs, ha, hm, hvalloc, hacq⟩ := hu
  have hwv : (State.wv { s with run := r } c) = u := hl.wave_eq
  refine ⟨poolFrame_of_leaves hl hs ha hm, ?_, ?_, ?_, ?_, fun k l _ => ?_, fun k m h0 h1 => ?_⟩
  · rw [hwv, hvalloc]
    rfl
  · rw [hwv, hacq]
    rfl
  · exact (congrArg Block.poolFree hl.block_eq).trans hfree
  · exact (congrArg Block.poolQueue hl.block_eq).trans hqueue
  · rw [← Wave.rowAt_gain, hwv, Wave.vRow, hv]
    rfl
  · rw [hwv, ← Wave.isEmpty_gain (s.wv c) m h0 h1]
    simp only [Wave.isEmpty, hve, if_true]

end

theorem getLsbD_pReg_answer {w u : Wave} {d : BitVec 4} {act : Lanes} {z : Bool} (hu : u.p = (w.setP d.toNat act (fun _ => z)).p)
    (h15 : d ≠ 15) {l : Nat} (hl : l < 32) (ha : act.getLsbD l = true) : (u.pReg d.toNat).getLsbD l = z := by
  rw [Wave.pReg, hu]
  exact (Wave.getLsbD_pReg_setP w d.toNat d.toNat act (fun _ => z) l hl).trans
    (if_pos ⟨rfl, fun e => h15 (BitVec.eq_of_toNat_eq e), ha⟩)

section
variable {s : State} {h : Hd} {o : Ops} {c : Iss} {b : Block} (hI : Issues s h c (usesOf h o))
  (hb : s.run.blocks.get? (s.wv c).blk = some b)
include hI hb

section
variable (hbad : s.racqBad c o = false)
include hbad

theorem racq_completes (hg : b.canGrant (s.run.rdCount c o.a) = true) :
    Completes (exec (.racq h o) s) (fun t => PoolGranted s t c (s.run.rdCount c o.a) b ∧ (t.wv c).p = (s.wv c).p) := by
  obtain ⟨r, k, hr, hl⟩ := racq_grants hI hb hbad hg
  refine ⟨_, hr, poolGranted_of_leaves hl (Wave.holdsAs_retired _ _ _ _ _) rfl ((Block.canGrant_iff _ _).mp hg).1, ?_⟩
  rw [State.wv, hl.wave_eq, Wave.retired_p]
  rfl

theorem racqTry_completes (hg : b.canGrant (s.run.rdCount c o.a) = true) {d : BitVec 4} (hd : o.d = .p d) :
    Completes (exec (.racqTry h o) s) (fun t => PoolGranted s t c (s.run.rdCount c o.a) b ∧
      (d ≠ 15 → ∀ l, l < 32 → c.act.getLsbD l = true → ((t.wv c).pReg d.toNat).getLsbD l = true)) := by
  obtain ⟨r, hr, hl⟩ := racqTry_grants hI hb hbad hg hd
  refine ⟨_, hr, poolGranted_of_leaves hl ((Wave.holdsAs_setP _ _ _ _).trans (Wave.holdsAs_retired _ _ _ _ _)) rfl
    ((Block.canGrant_iff _ _).mp hg).1, fun h15 l hl32 ha => ?_⟩
  rw [State.wv, hl.wave_eq, Wave.pReg_retired]
  exact getLsbD_pReg_answer rfl h15 hl32 ha

theorem racqTry_answersFalse (hg : b.canGrant (s.run.rdCount c o.a) = false) {d : BitVec 4} (hd : o.d = .p d) :
    Completes (exec (.racqTry h o) s) (fun t => PoolFrame s t c ∧ RegsKept (s.wv c) (t.wv c) c.act [(o.d, 1)] ∧
      (t.wv c).valloc = (s.wv c).valloc ∧ t.run.blocks = s.run.blocks ∧
      (d ≠ 15 → ∀ l, l < 32 → c.act.getLsbD l = true → ((t.wv c).pReg d.toNat).getLsbD l = false)) := by
  obtain ⟨r, hr, hblocks, hl⟩ := racqTry_refuses hI hb hbad hg hd
  obtain ⟨-, -, hs, ha, hm, hvalloc, -⟩ := ((s.wv c).holdsAs_setP d.toNat c.act (fun _ => false)).trans
    (Wave.holdsAs_retired _ s.run.clk c h (poolHow h o))
  refine ⟨_, hr, poolFrame_of_leaves hl hs ha hm, ?_, (congrArg Wave.valloc hl.wave_eq).trans hvalloc, hblocks, fun h15 l hl32 ha => ?_⟩
  · change RegsKept _ (r.wave c.wid) _ _
    rw [hd, hl.wave_eq]
    exact (regsKept_setP (s.wv c) d c.act _).retired
  · rw [State.wv, hl.wave_eq, Wave.pReg_retired]
    exact getLsbD_pReg_answer rfl h15 hl32 ha

theorem racq_parks (hnew : b.poolQueue = [] → b.poolFree < s.run.rdCount c o.a)
    (hhead : ∀ q rest, b.poolQueue = q :: rest → b.poolFree < q.n ∧ q.tooMuch s.run = false)
    (hlive : ∃ e ∈ s.run.wavesOf (s.wv c).blk, e.1 ≠ c.wid ∧ e.2.acquired ≠ 0 ∧
      ∀ q ∈ b.poolQueue, q.wave.map (·.1) ≠ some e.1) :
    Completes (exec (.racq h o) s) (fun t => PoolFrame s t c ∧ RegsKept (s.wv c) (t.wv c) c.act [] ∧
      (t.wv c).valloc = (s.wv c).valloc ∧
      (t.run.block (s.wv c).blk).poolFree = b.poolFree ∧
      (t.run.block (s.wv c).blk).poolQueue = b.poolQueue ++ [s.run.poolReq c o] ∧
      (t.wv c).parts = (s.wv c).parts.map (fun p =>
        if (p.mask &&& c.m) ≠ 0 then { p with park := .racq (s.run.rdCount c o.a) } else p)) := by
  obtain ⟨r, k, hr, hl⟩ := racq_waits hI hb hbad hnew hhead hlive
  have hread {α : Type} (g : Wave → α) (hg : ∀ (w : Wave) ps st yd, g { w with parts := ps, stall := st, yielded := yd } = g w) :=
    Wave.awaits_read g hg s.run.clk h (racqHow h o) c.m (s.run.rdCount c o.a) (s.wv c)
  refine ⟨_, hr, poolFrame_of_leaves hl (hread Wave.s fun _ _ _ _ => rfl) (hread Wave.a fun _ _ _ _ => rfl)
    (hread Wave.m fun _ _ _ _ => rfl), ?_, (congrArg Wave.valloc hl.wave_eq).trans (hread Wave.valloc fun _ _ _ _ => rfl),
    (congrArg Block.poolFree hl.block_eq).trans rfl, (congrArg Block.poolQueue hl.block_eq).trans rfl,
    (congrArg Wave.parts hl.wave_eq).trans (Wave.awaits_parts _ _ _ _ _ _)⟩
  change RegsKept _ (r.wave c.wid) _ _
  rw [hl.wave_eq]
  exact Wave.regsKept_awaits _ _ _ _ _ _ _

end

theorem rrel_completes (hbad : rrelBad (s.wv c) (s.run.rdCount c o.a) = false) (hq : b.poolQueue = [])
    (hfull : ∀ e ∈ (s.wv c).vEmpty, e.1 < (s.wv c).valloc - s.run.rdCount c o.a ∨ (s.wv c).valloc ≤ e.1) :
    Completes (exec (.rrel h o) s) (fun t => PoolFrame s t c ∧ (t.wv c).p = (s.wv c).p ∧
      (t.wv c).valloc = (s.wv c).valloc - s.run.rdCount c o.a ∧ (t.wv c).acquired = (s.wv c).acquired - s.run.rdCount c o.a ∧
      (t.run.block (s.wv c).blk).poolFree = b.poolFree + s.run.rdCount c o.a ∧
      ∀ k l, l < 32 → k < (s.wv c).valloc - s.run.rdCount c o.a → rowAt ((t.wv c).vRow k) l = rowAt ((s.wv c).vRow k) l) := by
  obtain ⟨r, hr, hl⟩ := rrel_returns hI hb hbad hq hfull
  obtain ⟨hv, -, hs, ha, hm, hvalloc, hacq⟩ :=
    Wave.holdsAs_retired ((s.wv c).lose (s.run.rdCount c o.a)) s.run.clk c h (poolHow h o)
  refine ⟨_, hr, poolFrame_of_leaves hl hs ha hm, (congrArg Wave.p hl.wave_eq).trans (Wave.retired_p _ _ _ _ _),
    (congrArg Wave.valloc hl.wave_eq).trans hvalloc, (congrArg Wave.acquired hl.wave_eq).trans hacq, congrArg Block.poolFree hl.block_eq,
    fun k l _ hk => ?_⟩
  rw [State.wv, hl.wave_eq, Wave.vRow, hv, ← Wave.vRow_lose (s.wv c) hk]
  rfl

end

/-! ## The order of the pool -/

/-- The settling of a block's pool has rounds enough for its queue. -/
theorem poolRun_serves (y : Sys) {r : Run} {n : Nat} {b : Block} (hb : r.blocks.get? n = some b) :
    PoolLeft b.poolQueue ((poolRun y r n).block n).poolQueue ∧
    ∀ q rest, ((poolRun y r n).block n).poolQueue = q :: rest → ((poolRun y r n).block n).poolFree < q.n := by
  have hr : r.PoolIs n b.poolQueue := ⟨by rw [hb]; rfl, by rw [Run.block, hb]; rfl⟩
  have hrounds := poolRounds_le b.poolQueue
  exact poolSettle_serves y n _ r b.poolQueue hr (by rw [hr.2]; omega)

/-- Settles O37: RACQ, RACQ.try and RREL by the cases of their effects, the order of the pool by the rounds of a settling. -/
theorem registerPool : Obligations.RegisterPool := by
  unfold Obligations.RegisterPool
  refine ⟨fun s h o c b hI hb => ?_, fun y r n b hb => ?_⟩
  · intro w n bad frame granted
    have hbad : s.racqBad c o = true ↔ bad := racqBad_iff _ _ _
    have hgood (hn : ¬bad) : s.racqBad c o = false := Bool.eq_false_iff.mpr fun h => hn (hbad.mp h)
    refine ⟨fun hn => ⟨_, rfl, rfl, rfl, racqTry_traps hI (hbad.mpr hn), racq_traps hI hb (hbad.mpr hn)⟩,
      fun hn hq hfit => ?_, fun hn hno d hd => racqTry_answersFalse hI hb (hgood hn) (Bool.eq_false_iff.mpr fun hg => ?_) hd,
      fun h0 h8 hacq _ hq hfull => rrel_completes hI hb (Bool.eq_false_iff.mpr fun hrel => ?_) hq hfull,
      fun hn hq => ⟨_, rfl, rfl, rfl, rrel_traps hI hb ((rrelBad_iff _ _).mpr hn) hq⟩,
      fun hn hnew hhead hlive => racq_parks hI hb (hgood hn) hnew hhead hlive⟩
    · have hg := (Block.canGrant_iff b n).mpr ⟨hq, hfit⟩
      exact ⟨racq_completes hI hb (hgood hn) hg, fun d hd => racqTry_completes hI hb (hgood hn) hg hd⟩
    · obtain ⟨hq, hfit⟩ := (Block.canGrant_iff _ _).mp hg
      exact hno.elim (fun h => h hq) (Nat.not_lt.mpr hfit)
    · have := (rrelBad_iff w n).mp hrel
      omega
  · obtain ⟨⟨hmem, hserved⟩, hhead⟩ := poolRun_serves y hb
    exact ⟨hmem, hserved, hhead⟩

end Sys2Proof.Machine
end

section
/-! The arithmetic of patterns (R147 to R150, R152): each result of the integer pipe, which the model gives as a number, as the operation
on bit vectors that it is. -/

namespace Sys2Proof.Machine

/-! ## Shifts and rotates (R148) -/

theorem ofNat_shlResult (t : IType) (a b : BitVec (iw t)) :
    BitVec.ofNat (iw t) (shlResult t a.toNat b.toNat) = a <<< (b.toNat % 256) := by
  apply BitVec.eq_of_toNat_eq
  rw [BitVec.toNat_ofNat, BitVec.toNat_shiftLeft, Nat.shiftLeft_eq, shlResult]
  split
  · rw [Nat.mod_mod]
  · next h =>
    have hdvd : 2 ^ iw t ∣ a.toNat * 2 ^ (b.toNat % 256) := (pow_dvd_pow 2 (Nat.le_of_not_lt h)).mul_left _
    rw [Nat.zero_mod, Nat.mod_eq_zero_of_dvd hdvd]

/-- Beyond the width a shift to the right gives the sign alone. -/
theorem ediv_two_pow_min {z : Int} {w : Nat} (hlo : -2 ^ w ≤ z) (hhi : z < 2 ^ w) (n : Nat) : z / 2 ^ min n w = z / 2 ^ n := by
  rcases Nat.le_total n w with h | h
  · rw [Nat.min_eq_left h]
  · have hpow : (2 : Int) ^ w ≤ 2 ^ n := pow_le_pow_right₀ (by decide) h
    rw [Nat.min_eq_right h]
    rcases Int.lt_or_le z 0 with hz | hz
    · rw [Int.ediv_eq_neg_one_of_neg_of_le hz (by omega), Int.ediv_eq_neg_one_of_neg_of_le hz (by omega)]
    · rw [Int.ediv_eq_zero_of_lt hz hhi, Int.ediv_eq_zero_of_lt hz (by omega)]

theorem valOf_bounds (t : IType) {n : Nat} (x : BitVec n) : -2 ^ n ≤ valOf t x ∧ valOf t x < 2 ^ n := by
  have hlt : (x.toNat : Int) < 2 ^ n := by exact_mod_cast x.isLt
  unfold valOf
  split
  · rw [BitVec.toInt_eq_toNat_cond]
    split <;> constructor <;> push_cast <;> omega
  · constructor <;> omega

/-- A pattern shifted to the right, filled as the type says. -/
def shiftedRight (t : IType) {n : Nat} (a : BitVec n) (k : Nat) : BitVec n := if t.signed then a.sshiftRight k else a >>> k

theorem ofInt_valOf_ediv (t : IType) {n : Nat} (a : BitVec n) (k : Nat) :
    BitVec.ofInt n (valOf t a / 2 ^ min k n) = shiftedRight t a k := by
  obtain ⟨hlo, hhi⟩ := valOf_bounds t a
  rw [ediv_two_pow_min hlo hhi, valOf, shiftedRight]
  split
  · rw [BitVec.sshiftRight_eq, Int.shiftRight_eq_div_pow]
    norm_cast
  · apply BitVec.eq_of_toNat_eq
    rw [BitVec.toNat_ushiftRight, Nat.shiftRight_eq_div_pow]
    have hcast : (a.toNat : Int) / 2 ^ k = ((a.toNat / 2 ^ k : Nat) : Int) := by norm_cast
    rw [hcast, BitVec.ofInt_natCast, BitVec.toNat_ofNat, Nat.mod_eq_of_lt (Nat.lt_of_le_of_lt (Nat.div_le_self _ _) a.isLt)]

theorem ofNat_shrResult (t : IType) (a b : BitVec (iw t)) :
    BitVec.ofNat (iw t) (shrResult t a.toNat b.toNat) = shiftedRight t a (b.toNat % 256) := by
  rw [shrResult, ofNat_iwrap, ival_toNat, ofInt_valOf_ediv]

/-- The bits of a pattern turned to the left by `k`. -/
theorem testBit_turned {w a k : Nat} (ha : a < 2 ^ w) (hk : k < w) (i : Nat) :
    (a * 2 ^ k % 2 ^ w + a / 2 ^ (w - k)).testBit i =
      if i < k then a.testBit (w - k + i) else decide (i < w) && a.testBit (i - k) := by
  have hw : 2 ^ w = 2 ^ (w - k) * 2 ^ k := by rw [← pow_add]; congr 1; omega
  have hlow : a / 2 ^ (w - k) < 2 ^ k := Nat.div_lt_of_lt_mul (hw ▸ ha)
  rw [hw, Nat.mul_mod_mul_right, Nat.mul_comm (a % _), Nat.testBit_two_pow_mul_add _ hlow, Nat.testBit_div_two_pow,
    Nat.testBit_mod_two_pow]
  split
  · rw [Nat.add_comm]
  · rw [show decide (i - k < w - k) = decide (i < w) from decide_eq_decide.mpr (by omega)]

theorem ofNat_rotResult (m : RotMod) (a b : BitVec (iw m.t)) : BitVec.ofNat (iw m.t) (rotResult m a.toNat b.toNat) =
    if m.right then a.rotateRight (b.toNat % 256 % iw m.t) else a.rotateLeft (b.toNat % 256 % iw m.t) := by
  have hw := iw_pos m.t
  have hn : b.toNat % 256 % iw m.t < iw m.t := Nat.mod_lt _ hw
  apply BitVec.eq_of_getLsbD_eq
  intro i hi
  rw [BitVec.getLsbD_ofNat, rotResult]
  generalize b.toNat % 256 % iw m.t = n at hn
  cases m.right with
  | false =>
    simp only [Bool.false_eq_true, if_false]
    rw [testBit_turned a.isLt hn, BitVec.getLsbD_rotateLeft, Nat.mod_eq_of_lt hn]
    by_cases h : i < n <;> simp [h, hi, BitVec.getLsbD]
  | true =>
    simp only [if_true]
    rw [testBit_turned a.isLt (Nat.mod_lt _ hw), BitVec.getLsbD_rotateRight, Nat.mod_eq_of_lt hn]
    rcases Nat.eq_zero_or_pos n with rfl | hpos
    · simp [hi, BitVec.getLsbD]
    · rw [Nat.mod_eq_of_lt (by omega : iw m.t - n < iw m.t), Nat.sub_sub_self hn.le]
      by_cases h : i < iw m.t - n <;> simp [h, hi, BitVec.getLsbD]

/-! ## Counts and reversal (R149) -/

theorem popcount_eq (a n : Nat) : popcount a n = (List.range n).countP (fun i => a.testBit i) := by
  induction n with
  | zero => rfl
  | succ n ih =>
    rw [popcount, ih, List.range_succ, List.countP_append, List.countP_singleton, Nat.add_comm]

theorem leadZeros_eq (a n : Nat) :
    leadZeros a n = ((List.range n).find? (fun i => a.testBit (n - 1 - i))).getD n := by
  induction n with
  | zero => rfl
  | succ n ih =>
    rw [leadZeros, ih, List.range_succ_eq_map, List.find?_cons, List.find?_map]
    have hshift : ((fun i => a.testBit (n + 1 - 1 - i)) ∘ Nat.succ) = fun i => a.testBit (n - 1 - i) := by
      funext i
      rw [Function.comp_apply, show n + 1 - 1 - i.succ = n - 1 - i by omega]
    rw [hshift, Nat.add_sub_cancel, Nat.sub_zero]
    cases a.testBit n with
    | true => rfl
    | false =>
      simp only [Bool.false_eq_true, if_false]
      cases (List.range n).find? (fun i => a.testBit (n - 1 - i)) with
      | none => exact Nat.add_comm 1 n
      | some i => exact Nat.add_comm 1 i

theorem popcount_toNat {n : Nat} (a : BitVec n) : popcount a.toNat n = popOf a := popcount_eq a.toNat n
theorem leadZeros_toNat {n : Nat} (a : BitVec n) : leadZeros a.toNat n = clzOf a := leadZeros_eq a.toNat n

theorem two_pow_dvd_bitReverse {w n : Nat} (hn : n ≤ w) (a : Nat) : 2 ^ (w - n) ∣ bitReverse w a n := by
  induction n with
  | zero => exact dvd_zero _
  | succ n ih =>
    refine dvd_add ?_ ((pow_dvd_pow 2 (by omega)).trans (ih (by omega)))
    split
    · exact pow_dvd_pow 2 (by omega)
    · exact dvd_zero _

theorem testBit_ite_two_pow (b : Bool) (k i : Nat) : (if b then 2 ^ k else 0).testBit i = (decide (k = i) && b) := by
  cases b with
  | true => rw [if_pos rfl, Nat.testBit_two_pow, Bool.and_true]
  | false => rw [if_neg Bool.false_ne_true, Nat.zero_testBit, Bool.and_false]

/-- The low `n` bits of a pattern, turned about in its width. -/
theorem testBit_bitReverse {w n : Nat} (hn : n ≤ w) (a i : Nat) :
    (bitReverse w a n).testBit i = (decide (w - n ≤ i ∧ i < w) && a.testBit (w - 1 - i)) := by
  induction n with
  | zero =>
    have hnone : ¬(w - 0 ≤ i ∧ i < w) := by omega
    rw [bitReverse, Nat.zero_testBit, decide_eq_false hnone, Bool.false_and]
  | succ n ih =>
    obtain ⟨q, hq⟩ := two_pow_dvd_bitReverse (Nat.le_of_succ_le hn) a
    have hbits := ih (Nat.le_of_succ_le hn)
    rw [hq, Nat.testBit_two_pow_mul] at hbits
    have hlow : (if a.testBit n then 2 ^ (w - 1 - n) else 0) < 2 ^ (w - n) := by
      split
      · exact Nat.pow_lt_pow_right (by decide) (by omega)
      · exact Nat.two_pow_pos _
    rw [bitReverse, hq, Nat.add_comm, Nat.testBit_two_pow_mul_add _ hlow, testBit_ite_two_pow]
    split
    · by_cases h : w - 1 - n = i
      · have hin : w - (n + 1) ≤ i ∧ i < w := by omega
        rw [decide_eq_true h, decide_eq_true hin, show w - 1 - i = n by omega]
      · have hout : ¬(w - (n + 1) ≤ i ∧ i < w) := by omega
        rw [decide_eq_false h, decide_eq_false hout, Bool.false_and, Bool.false_and]
    · next hi =>
      rw [decide_eq_true (Nat.le_of_not_lt hi), Bool.true_and] at hbits
      rw [hbits, show decide (w - (n + 1) ≤ i ∧ i < w) = decide (w - n ≤ i ∧ i < w) from decide_eq_decide.mpr (by omega)]

theorem ofNat_bitReverse {n : Nat} (a : BitVec n) : BitVec.ofNat n (bitReverse n a.toNat n) = a.reverse := by
  apply BitVec.eq_of_getLsbD_eq
  intro i hi
  rw [BitVec.getLsbD_ofNat, testBit_bitReverse le_rfl, BitVec.getLsbD_reverse, BitVec.getMsbD]
  simp [hi, BitVec.getLsbD]

/-! ## Fields (R150) -/

theorem getLsbD_shiftedRight (t : IType) {n : Nat} (a : BitVec n) (k : Nat) {i : Nat} (hi : i < n) :
    (shiftedRight t a k).getLsbD i = fieldBit t a (k + i) := by
  unfold shiftedRight fieldBit
  cases t.signed with
  | true => simp only [if_true, BitVec.getLsbD_sshiftRight, BitVec.msb_eq_getLsbD_last, Nat.not_le.mpr hi, decide_false, Bool.not_false,
      Bool.true_and]
  | false =>
    simp only [Bool.false_eq_true, if_false, BitVec.getLsbD_ushiftRight, Bool.false_and]
    split
    · rfl
    · next h => exact BitVec.getLsbD_of_ge a _ (Nat.le_of_not_lt h)

/-- The field that BFE extracts is what the low bits of the shifted pattern are. -/
theorem field_eq (t : IType) (a : BitVec (iw t)) (pos : Nat) {len : Nat} (hlen : len ≤ iw t) :
    (ival t a.toNat / 2 ^ min pos (iw t) % 2 ^ len).toNat = (shiftedRight t a pos).toNat % 2 ^ len := by
  rw [ival_toNat, ← ofInt_valOf_ediv, BitVec.toNat_ofInt]
  have hdvd : ((2 ^ len : Nat) : Int) ∣ ((2 ^ iw t : Nat) : Int) := by exact_mod_cast pow_dvd_pow 2 hlen
  generalize valOf t a / 2 ^ min pos (iw t) = z
  have hpos : 0 ≤ z % ((2 ^ iw t : Nat) : Int) := Int.emod_nonneg _ (by positivity)
  zify
  rw [Int.toNat_of_nonneg (Int.emod_nonneg _ (by positivity)), Int.toNat_of_nonneg (by exact_mod_cast hpos)]
  push_cast at hdvd
  exact (Int.emod_emod_of_dvd z hdvd).symm

/-- A field below ones up to the width. -/
theorem testBit_add_ones {f len w : Nat} (hf : f < 2 ^ len) (hlen : len ≤ w) {i : Nat} (hi : i < w) :
    (f + (2 ^ w - 2 ^ len)).testBit i = if i < len then f.testBit i else true := by
  have hones : 2 ^ w - 2 ^ len = 2 ^ len * (2 ^ (w - len) - 1) := by
    rw [Nat.mul_sub, ← pow_add, Nat.add_sub_cancel' hlen, Nat.mul_one]
  rw [hones, Nat.add_comm, Nat.testBit_two_pow_mul_add _ hf, Nat.testBit_two_pow_sub_one]
  split
  · rfl
  · exact decide_eq_true (by omega)

/-- BFE's result as a field of the shifted pattern, with ones above it where its sign is set. -/
theorem bfeResult_toNat (t : IType) (a ctl : BitVec (iw t)) : bfeResult t a.toNat ctl.toNat =
    if ctlLen ctl = 0 then 0 else
      let f := (shiftedRight t a (ctlPos ctl)).toNat % 2 ^ ctlLen ctl
      if t.signed && f.testBit (ctlLen ctl - 1) then f + (2 ^ iw t - 2 ^ ctlLen ctl) else f := by
  have hlen : ctlLen ctl ≤ iw t := Nat.min_le_right _ _
  rw [← field_eq t a (ctlPos ctl) hlen]
  rfl

theorem ofNat_bfeResult (t : IType) (a ctl : BitVec (iw t)) :
    BitVec.ofNat (iw t) (bfeResult t a.toNat ctl.toNat) = bfeOf t a ctl := by
  have hlen : ctlLen ctl ≤ iw t := Nat.min_le_right _ _
  apply BitVec.eq_of_getLsbD_eq
  intro i hi
  rw [BitVec.getLsbD_ofNat, decide_eq_true hi, Bool.true_and, bfeResult_toNat, bfeOf, BitVec.getLsbD_ofFnLE, dif_pos hi]
  dsimp only
  generalize ctlLen ctl = len at hlen
  generalize ctlPos ctl = pos
  by_cases h0 : len = 0
  · rw [if_pos h0, if_pos h0, Nat.zero_testBit]
  · rw [if_neg h0, if_neg h0]
    have hfield (j : Nat) (hj : j < len) :
        ((shiftedRight t a pos).toNat % 2 ^ len).testBit j = fieldBit t a (pos + j) := by
      rw [Nat.testBit_mod_two_pow, decide_eq_true hj, Bool.true_and]
      exact getLsbD_shiftedRight t a pos (by omega)
    have hlt : (shiftedRight t a pos).toNat % 2 ^ len < 2 ^ len := Nat.mod_lt _ (Nat.two_pow_pos _)
    rw [hfield (len - 1) (by omega)]
    by_cases hi' : i < len
    · rw [if_pos hi', ← hfield i hi']
      split
      · rw [testBit_add_ones hlt hlen hi, if_pos hi']
      · rfl
    · rw [if_neg hi']
      cases hs : t.signed && fieldBit t a (pos + (len - 1)) with
      | true => rw [if_pos rfl, testBit_add_ones hlt hlen hi, if_neg hi']
      | false => rw [if_neg Bool.false_ne_true, Nat.testBit_mod_two_pow, decide_eq_false hi', Bool.false_and]

/-- Under a mask one pattern, beside it another. -/
theorem sub_and_add_and {n : Nat} (b x m : BitVec n) : b - (b &&& m) + (x &&& m) = (b &&& ~~~m) ||| (x &&& m) := by
  have hdisjoint (y : BitVec n) : (b &&& ~~~m) &&& (y &&& m) = 0#n := by
    ext i hi
    simp only [BitVec.getElem_and, BitVec.getElem_not, BitVec.getElem_zero]
    cases m[i] <;> simp
  have hsplit : b = (b &&& ~~~m) + (b &&& m) := by
    rw [BitVec.add_eq_or_of_and_eq_zero _ _ (hdisjoint b), ← BitVec.and_or_distrib_left, BitVec.or_comm]
    simp
  have hsub : b - (b &&& m) = b &&& ~~~m := by
    conv_lhs => lhs; rw [hsplit]
    exact BitVec.add_sub_cancel _ _
  rw [hsub, BitVec.add_eq_or_of_and_eq_zero _ _ (hdisjoint x)]

theorem ofNat_bfiResult (t : IType) (a b ctl : BitVec (iw t)) :
    BitVec.ofNat (iw t) (bfiResult t a.toNat b.toNat ctl.toNat) = bfiOf a b ctl := by
  have hshift (x : Nat) : BitVec.ofNat (iw t) (x * 2 ^ ctlPos ctl) = BitVec.ofNat (iw t) x <<< ctlPos ctl := by
    apply BitVec.eq_of_toNat_eq
    rw [BitVec.toNat_shiftLeft, BitVec.toNat_ofNat, BitVec.toNat_ofNat, Nat.shiftLeft_eq, Nat.mod_mul_mod]
  have heq : bfiResult t a.toNat b.toNat ctl.toNat =
      (b.toNat - (b.toNat &&& ((2 ^ ctlLen ctl - 1) * 2 ^ ctlPos ctl % 2 ^ iw t))) +
        (a.toNat * 2 ^ ctlPos ctl &&& ((2 ^ ctlLen ctl - 1) * 2 ^ ctlPos ctl % 2 ^ iw t)) := rfl
  have hmod (x : Nat) : BitVec.ofNat (iw t) (x % 2 ^ iw t) = BitVec.ofNat (iw t) x :=
    BitVec.eq_of_toNat_eq (by rw [BitVec.toNat_ofNat, BitVec.toNat_ofNat, Nat.mod_mod])
  have hle (m : Nat) : b.toNat &&& m ≤ b.toNat := Nat.and_le_left
  rw [heq, BitVec.ofNat_add, ← BitVec.ofNat_sub_ofNat_of_le _ _ (Nat.lt_of_le_of_lt (hle _) b.isLt) (hle _), BitVec.ofNat_and,
    BitVec.ofNat_and, BitVec.ofNat_toNat, BitVec.setWidth_eq, hmod, hshift, hshift, BitVec.ofNat_toNat, BitVec.setWidth_eq]
  exact sub_and_add_and b _ _

/-! ## Comparison (R152) -/

theorem icmp_toNat (t : IType) (k : Cmp) (a b : BitVec (iw t)) : icmp t k a.toNat b.toNat = cmpOf t k a b := by
  cases k with
  | eq => rw [icmp, cmpOf, Bool.eq_iff_iff, beq_iff_eq, beq_iff_eq, BitVec.toNat_inj]
  | ne => rw [icmp, cmpOf, Bool.eq_iff_iff, decide_eq_true_iff, bne_iff_ne, ne_eq, BitVec.toNat_inj]
  | _ => simp only [icmp, cmpOf, ival_toNat]

end Sys2Proof.Machine
end

section
/-! The issue of an integer instruction (R139, R140): what its results are in each lane, that predicates take the results that are
truths, and how a result given as a function of patterns meets the statements of the unit it runs in. -/

namespace Sys2Proof.Machine

/-! ## The results of the lanes -/

/-- The result of each lane: of its own sources in the vector unit, the one result in the scalar unit (R139). -/
def Run.intOut (r : Run) (c : Iss) (t : IType) (o : Ops) (g : Nat → Nat → Nat → Bool → IntOut) : Nat → IntOut :=
  if Ops.vecUnit o then
    fun l => g (r.rdLane c.wid o.a 0 l).toNat (r.rdLane c.wid o.b 0 l).toNat (r.rdLane c.wid o.c 0 l).toNat
      (predAt (r.wave c.wid) o.c l)
  else
    let sc (x : Opd) : Nat := (r.rdScalar c.wid x 0 c.act.lowest).toNat % 2 ^ iw t
    fun _ => g (sc o.a) (sc o.b) (sc o.c) (predAt (r.wave c.wid) o.c c.act.lowest)

theorem intEff_eq (t : IType) (o : Ops) (setC : Bool) (g : Nat → Nat → Nat → Bool → IntOut) (y : Sys) (r : Run) (c : Iss) :
    intEff t o setC g y r c = .ok (r.onWave c.wid (fun w => w.putInt t o setC c.act (r.intOut c t o g))) () := rfl

theorem Run.intOut_vec {o : Ops} (hv : Ops.vecUnit o = true) (r : Run) (c : Iss) (t : IType) (g : Nat → Nat → Nat → Bool → IntOut)
    (l : Nat) : r.intOut c t o g l = g (r.rdLane c.wid o.a 0 l).toNat (r.rdLane c.wid o.b 0 l).toNat
      (r.rdLane c.wid o.c 0 l).toNat (predAt (r.wave c.wid) o.c l) := by
  rw [Run.intOut, if_pos hv]

theorem Run.intOut_scalar {o : Ops} (hv : Ops.vecUnit o = false) (r : Run) (c : Iss) (t : IType) (g : Nat → Nat → Nat → Bool → IntOut)
    (l : Nat) : r.intOut c t o g l = g ((r.rdScalar c.wid o.a 0 c.act.lowest).setWidth (iw t)).toNat
      ((r.rdScalar c.wid o.b 0 c.act.lowest).setWidth (iw t)).toNat ((r.rdScalar c.wid o.c 0 c.act.lowest).setWidth (iw t)).toNat
      (predAt (r.wave c.wid) o.c c.act.lowest) := by
  simp only [Run.intOut, hv, Bool.false_eq_true, if_false, BitVec.toNat_setWidth]

theorem Ops.vecUnit_of_laneReg {o : Ops} (hd : Opd.laneReg o.d = true) : Ops.vecUnit o = true := by
  unfold Ops.vecUnit
  cases hh : o.d <;> simp [hh, Opd.laneReg, Opd.perLane] at hd ⊢

theorem le_iw (t : IType) : 32 ≤ iw t := by cases t <;> decide

/-- A word of a lane is a pattern of the type. -/
theorem toNat_setWidth_word (t : IType) (x : Word) : (x.setWidth (iw t)).toNat = x.toNat := by
  rw [BitVec.toNat_setWidth, Nat.mod_eq_of_lt (Nat.lt_of_lt_of_le x.isLt (Nat.pow_le_pow_right (by decide) (le_iw t)))]

/-! ## Predicates that an integer instruction writes -/

theorem Wave.putInt_pred {o : Ops} {d : BitVec 4} (hd : o.d = .p d) (w : Wave) (t : IType) (act : Lanes) (f : Nat → IntOut) :
    w.putInt t o false act f = w.setP d.toNat act (fun l => (f l).p) := by
  unfold Wave.putInt
  rw [hd]

/-- C under .co, whatever D is. -/
theorem Wave.getLsbD_pReg_putInt_carry {o : Ops} {k : BitVec 4} (hc : o.c = .p k) (h15 : k ≠ 15) (w : Wave) (t : IType) {act : Lanes}
    (f : Nat → IntOut) {l : Nat} (hl : l < 32) (ha : act.getLsbD l = true) :
    ((w.putInt t o true act f).pReg k.toNat).getLsbD l = (f l).p := by
  have hne : k.toNat ≠ 15 := fun e => h15 (BitVec.eq_of_toNat_eq e)
  unfold Wave.putInt
  rw [hc]
  exact (Wave.getLsbD_pReg_setP _ _ _ _ _ _ hl).trans (if_pos ⟨rfl, hne, ha⟩)

section
variable {h : Hd} {t : IType} {o : Ops} {g : Nat → Nat → Nat → Bool → IntOut} {s : State} {c : Iss} (hI : Issues s h c (usesOf h o))
include hI

theorem intIssue_carry {k : BitVec 4} (hc : o.c = .p k) (h15 : k ≠ 15) :
    Completes (intIssue h t o true g s) (fun u => ∀ l, l < 32 → c.act.getLsbD l = true →
      ((u.wv c).pReg k.toNat).getLsbD l = (s.run.intOut c t o g l).p) := by
  refine (issue_wave (k := { uses := usesOf h o, vec := Ops.vecUnit o }) hI (.inl rfl) rfl rfl (intEff_eq t o true g s.sys s.run c)).imp
    fun u ⟨_, hu⟩ l hl ha => ?_
  rw [hu, Wave.pReg_retired]
  exact Wave.getLsbD_pReg_putInt_carry hc h15 _ t _ hl ha

theorem intIssue_pred {d : BitVec 4} (hd : o.d = .p d) :
    Completes (intIssue h t o false g s) (fun u => RegFrame s u c [(o.d, 1)] ∧ MovedOn s u c ∧
      (d ≠ 15 → ∀ l, l < 32 → c.act.getLsbD l = true →
        ((u.wv c).pReg d.toNat).getLsbD l = (s.run.intOut c t o g l).p)) := by
  have he : intEff t o false g s.sys s.run c =
      .ok (s.run.onWave c.wid (fun w => w.setP d.toNat c.act (fun l => (s.run.intOut c t o g l).p))) () := by
    rw [intEff_eq]
    simp only [Wave.putInt_pred hd]
  rw [hd]
  refine (issue_regs (vec := Ops.vecUnit o) hI he (Wave.setP_parts _ _ _ _) (regsKept_setP _ d _ _) (restKept_setP _ _ _ _)).imp
    fun u ⟨hframe, hmoved, hu⟩ => ⟨hframe, hmoved, fun h15 l hl ha => ?_⟩
  have hne : d.toNat ≠ 15 := fun e => h15 (BitVec.eq_of_toNat_eq e)
  rw [hu, Wave.pReg_retired]
  exact (Wave.getLsbD_pReg_setP _ _ _ _ _ _ hl).trans (if_pos ⟨rfl, hne, ha⟩)

end

/-! ## Results as functions of patterns -/

theorem iw_of_32 {t : IType} (h : t.is64 = false) : iw t = 32 := by rw [iw, h]; rfl
theorem iw_of_64 {t : IType} (h : t.is64 = true) : iw t = 64 := by rw [iw, h]; rfl

/-- A result of 32 bits as the scalar register holds it (R140). -/
theorem scalarExt_of_32 {t : IType} (h : t.is64 = false) (d : Nat) :
    scalarExt t d = if t.signed then (BitVec.ofNat 32 d).signExtend 64 else (BitVec.ofNat 32 d).setWidth 64 := by
  cases t with
  | s32 => rfl
  | u32 =>
    apply BitVec.eq_of_toNat_eq
    simp [scalarExt, IType.signed]
  | s64 => cases h
  | u64 => cases h

theorem scalarExt_of_64 {t : IType} (h : t.is64 = true) (d : Nat) : scalarExt t d = BitVec.ofNat 64 d := by
  cases t with
  | s32 => cases h
  | u32 => cases h
  | s64 => rfl
  | u64 => rfl

/-- An instruction that issues as a type `u` of the width of `t` gives in both units the result that it gives on patterns. -/
theorem intResult_of_pattern {mk : Hd → Ops → Instr} {t u : IType} {setC count : Bool} {g : Nat → Nat → Nat → Bool → IntOut}
    {f : (n : Nat) → BitVec n → BitVec n → BitVec n → Bool → BitVec n}
    (hmk : ∀ h o s, exec (mk h o) s = intIssue h u o setC g s) (hw : u.is64 = t.is64) (hs : u.signed = (t.signed && !count))
    (hg : ∀ (a b x : BitVec (iw t)) p, BitVec.ofNat (iw t) (g a.toNat b.toNat x.toNat p).d = f (iw t) a b x p) :
    IntResult mk t (fun o => if setC then [(o.c, 1)] else []) count f := by
  have hscalar {n : Nat} (hn : iw u = n) {h : Hd} {o : Ops} {s : State} {c : Iss} {d : BitVec 7} (hI : Issues s h c (usesOf h o))
      (hd : o.d = .s d) (hv : Ops.vecUnit o = false) := hn ▸ intIssue_scalar (t := u) (setC := setC) (f := g) hI hd hv
  simp only [← BitVec.toNat_setWidth] at hscalar
  refine ⟨fun h32 => ?_, fun h64 s h o c d hI hd hv => ?_⟩
  · rw [iw_of_32 h32] at hg
    refine ⟨fun s h o c hI hd => ?_, fun s h o c d hI hd hv => ?_⟩
    · rw [hmk]
      exact (intIssue_lane hI hd).imp fun t' ⟨hframe, hmoved, hlane⟩ =>
        ⟨hframe, hmoved, fun l hl ha => (hlane l hl ha).trans (hg _ _ _ _)⟩
    · rw [hmk]
      refine (hscalar (iw_of_32 (hw.trans h32)) hI hd hv).imp fun t' ⟨hframe, hmoved, hreg⟩ => ⟨hframe, hmoved, ?_⟩
      rw [hreg, scalarExt_of_32 (hw.trans h32), hs, hg]
  · rw [iw_of_64 h64] at hg
    rw [hmk]
    refine (hscalar (iw_of_64 (hw.trans h64)) hI hd hv).imp fun t' ⟨hframe, hmoved, hreg⟩ => ⟨hframe, hmoved, ?_⟩
    rw [hreg, scalarExt_of_64 (hw.trans h64), hg]

/-- The same where the type is the instruction's own and C is not written. -/
theorem intResult_plain {mk : Hd → Ops → Instr} {t : IType} {g : Nat → Nat → Nat → Bool → IntOut}
    {f : (n : Nat) → BitVec n → BitVec n → BitVec n → Bool → BitVec n} (hmk : ∀ h o s, exec (mk h o) s = intIssue h t o false g s)
    (hg : ∀ (a b x : BitVec (iw t)) p, BitVec.ofNat (iw t) (g a.toNat b.toNat x.toNat p).d = f (iw t) a b x p) :
    IntResult mk t (fun _ => []) false f :=
  intResult_of_pattern hmk rfl (Bool.and_true _).symm hg

/-- The same for a truth that goes to a predicate. -/
theorem predResult_of_pattern {mk : Hd → Ops → Instr} {t : IType} {g : Nat → Nat → Nat → Bool → IntOut}
    {f : BitVec (iw t) → BitVec (iw t) → Bool → Bool} (hmk : ∀ h o s, exec (mk h o) s = intIssue h t o false g s)
    (hg : ∀ (a b : BitVec (iw t)) x p, (g a.toNat b.toNat x p).p = f a b p) : PredResult mk (iw t) f := by
  intro s h o c d hI hd _
  rw [hmk]
  refine (intIssue_pred hI hd).imp fun u ⟨hframe, hmoved, hpred⟩ => ⟨hframe, hmoved, fun h15 l hl ha => ?_⟩
  rw [hpred h15 l hl ha]
  cases hv : Ops.vecUnit o with
  | true =>
    rw [Run.intOut_vec hv, if_pos rfl, ← hg _ _ (s.src c o.c l).toNat, toNat_setWidth_word, toNat_setWidth_word]
  | false => rw [Run.intOut_scalar hv, if_neg Bool.false_ne_true, hg]

end Sys2Proof.Machine
end

section
/-! The instructions of IALU, settled (R145 to R152). -/

namespace Sys2Proof.Machine

/-! ## Sums, differences and selections (R145, R146, R151) -/

/-- IADD and ISUB of patterns: the exact result wrapped or saturated, and whether it lay outside the type's range. -/
theorem addResult_toNat (m : AddMod) (sub : Bool) {n : Nat} (hn : iw m.t = n) (a b : BitVec n) (p : Bool) :
    addResult m sub a.toNat b.toNat p =
      { d := isat m.t m.sat (exactSum m sub a b p)
        p := decide (exactSum m sub a b p < minOf m.t n ∨ maxOf m.t n < exactSum m sub a b p) } := by
  subst hn
  simp only [addResult, exactSum, ival_toNat, imin_eq, imax_eq]
  exact congrArg (IntOut.mk _) (Bool.decide_or _ _).symm

theorem exec_addSub (m : AddMod) (sub : Bool) (h : Hd) (o : Ops) (s : State) :
    exec (if sub then .isub h m o else .iadd h m o) s = intIssue h m.t o m.co (fun a b _ p => addResult m sub a b p) s := by
  cases sub <;> rfl

/-- A choice between two patterns. -/
theorem ofNat_ite {n : Nat} (q : Prop) [Decidable q] (a b : BitVec n) :
    BitVec.ofNat n (if q then a.toNat else b.toNat) = if q then a else b := by
  split <;> rw [BitVec.ofNat_toNat, BitVec.setWidth_eq]

/-- Settles O10: each result by what it is of patterns, and C under .co by `intIssue_carry`. -/
theorem addSelectResults : Obligations.AddSelectResults := by
  unfold Obligations.AddSelectResults
  refine ⟨fun m sub => ⟨?_, fun hco h32 s h o c k hI hd hc h15 => ?_, fun hco s h o c d k hI hd hv hc h15 => ?_⟩,
    fun t => ?_, fun t => ?_, fun m => ?_, fun m => ?_, fun t => ?_⟩
  · refine intResult_of_pattern (exec_addSub m sub) rfl (Bool.and_true _).symm fun a b x p => ?_
    rw [addResult_toNat m sub rfl, ofNat_isat]
  · rw [exec_addSub, hco]
    refine (intIssue_carry hI hc h15).imp fun t ht l hl ha => ?_
    rw [ht l hl ha, Run.intOut_vec (Ops.vecUnit_of_laneReg hd), addResult_toNat m sub (iw_of_32 h32)]
  · rw [exec_addSub, hco]
    refine (intIssue_carry hI hc h15).imp fun t ht l hl ha => ?_
    rw [ht l hl ha, Run.intOut_scalar hv, addResult_toNat m sub rfl]
    rfl
  · refine intResult_plain (fun _ _ _ => rfl) fun a b x p => ?_
    rw [ival_toNat, ival_toNat, ofNat_ite]
  · refine intResult_plain (fun _ _ _ => rfl) fun a b x p => ?_
    rw [ival_toNat, ival_toNat, ofNat_ite]
  · refine intResult_plain (fun _ _ _ => rfl) fun a b x p => ?_
    rw [absResult, ival_toNat, ofNat_isat]
  · refine intResult_plain (fun _ _ _ => rfl) fun a b x p => ?_
    rw [negResult, ival_toNat, ofNat_isat]
  · exact intResult_plain (fun _ _ _ => rfl) fun a b x p => ofNat_ite _ a b

/-! ## Logic and shifts (R147, R148) -/

/-- Settles O11: the bitwise results are those of the patterns, the shifts and rotates are those of bit vectors. -/
theorem logicShiftResults : Obligations.LogicShiftResults := by
  unfold Obligations.LogicShiftResults
  refine ⟨⟨fun t => ?_, fun t => ?_, fun t => ?_, fun t => ?_, ?_, ?_, ?_, ?_⟩, fun t => ?_, fun t => ?_, fun m => ?_⟩
  · refine intResult_plain (fun _ _ _ => rfl) fun a b x p => ?_
    rw [bitwise, ← BitVec.toNat_and, BitVec.ofNat_toNat, BitVec.setWidth_eq]
  · refine intResult_plain (fun _ _ _ => rfl) fun a b x p => ?_
    rw [bitwise, ← BitVec.toNat_or, BitVec.ofNat_toNat, BitVec.setWidth_eq]
  · refine intResult_plain (fun _ _ _ => rfl) fun a b x p => ?_
    rw [bitwise, ← BitVec.toNat_xor, BitVec.ofNat_toNat, BitVec.setWidth_eq]
  · refine intResult_plain (fun _ _ _ => rfl) fun a b x p => ?_
    rw [← BitVec.toNat_not, bitwise, BitVec.ofNat_toNat, BitVec.setWidth_eq]
  · exact predResult_of_pattern (t := .s32) (fun _ _ _ => rfl) fun a b x p => rfl
  · exact predResult_of_pattern (t := .s32) (fun _ _ _ => rfl) fun a b x p => rfl
  · exact predResult_of_pattern (t := .s32) (fun _ _ _ => rfl) fun a b x p => rfl
  · refine predResult_of_pattern (t := .s32) (fun _ _ _ => rfl) fun a b x p => ?_
    rw [← BitVec.toNat_not]
    exact BitVec.getLsbD_not.trans (Bool.true_and _)
  · exact intResult_plain (fun _ _ _ => rfl) fun a b x p => ofNat_shlResult t a b
  · exact intResult_plain (fun _ _ _ => rfl) fun a b x p => ofNat_shrResult t a b
  · exact intResult_plain (fun _ _ _ => rfl) fun a b x p => ofNat_rotResult m a b

/-! ## Counts and fields (R149, R150) -/

theorem countType_is64 (t : IType) : (countType t).is64 = t.is64 := by cases t <;> rfl
theorem countType_signed (t : IType) : (countType t).signed = false := by cases t <;> rfl

/-- A count is written zero-extended (R149). -/
theorem countResult_of_pattern {mk : Hd → Ops → Instr} {t : IType} {g : Nat → Nat} {f : (n : Nat) → BitVec n → Nat}
    (hmk : ∀ h o s, exec (mk h o) s = intIssue h (countType t) o false (fun a _ _ _ => { d := g a }) s)
    (hg : ∀ a : BitVec (iw t), g a.toNat = f (iw t) a) :
    IntResult mk t (fun _ => []) true (fun n a _ _ _ => BitVec.ofNat n (f n a)) := by
  refine intResult_of_pattern hmk (countType_is64 t) ?_ fun a b x p => congrArg (BitVec.ofNat _) (hg a)
  rw [countType_signed, Bool.not_true, Bool.and_false]

/-- Settles O12: the counts by their recursions over the bits, reversal and fields bit by bit. -/
theorem bitFieldResults : Obligations.BitFieldResults := by
  unfold Obligations.BitFieldResults
  refine ⟨⟨fun t => ?_, fun t => ?_, fun t => ?_⟩, fun t => ?_, fun t => ?_⟩
  · exact countResult_of_pattern (fun _ _ _ => rfl) popcount_toNat
  · exact countResult_of_pattern (fun _ _ _ => rfl) leadZeros_toNat
  · exact intResult_plain (fun _ _ _ => rfl) fun a b x p => ofNat_bitReverse a
  · exact intResult_plain (fun _ _ _ => rfl) fun a b x p => ofNat_bfeResult t a b
  · exact intResult_plain (fun _ _ _ => rfl) fun a b x p => ofNat_bfiResult t a b x

/-! ## Comparison (R152) -/

/-- Settles O13: the comparison is that of patterns, and the combination with C is the one named. -/
theorem compareResult : Obligations.CompareResult := by
  unfold Obligations.CompareResult
  refine fun m => predResult_of_pattern (t := m.t) (fun _ _ _ => rfl) fun a b x p => ?_
  rw [icmp_toNat]
  cases m.comb <;> rfl

end Sys2Proof.Machine
end

section
/-! The products, settled (R153 to R155): LEA, IMUL, IMULH and IMAD of the exact value; IMADW with its pairs. -/

namespace Sys2Proof.Machine

/-! ## Operands that pass their checks (R128) -/

theorem checkUses_nil (w : Wave) (act : Lanes) : checkUses w act [] = .ok := rfl

/-- No active lane's register lies outside the window. -/
theorem bad_eq_none_of_checkUses {w : Wave} {act : Lanes} {us : List Use} (hchk : checkUses w act us = .ok) {u : Use} (hu : u ∈ us)
    (hlanes : u.lanes = none) {l : Nat} (hl : l < 32) (ha : act.getLsbD l = true) : u.bad w l = none := by
  have hop : opndCheck w act us = none := by
    cases ho : opndCheck w act us with
    | none => rfl
    | some t =>
      rw [checkUses, ho] at hchk
      cases hchk
  rw [opndCheck] at hop
  split at hop
  · next hnil =>
    have hall := List.filterMap_eq_nil_iff.mp hnil l (List.mem_range.mpr hl)
    have hbad := List.findSome?_eq_none_iff.mp (Option.map_eq_none_iff.mp hall) u hu
    rw [hlanes, Option.getD_none, BitVec.and_self, if_pos ha] at hbad
    exact Option.map_eq_none_iff.mp hbad
  · cases hop

/-- So the index formed for the first register of a group is not negative. -/
theorem vIdx_nonneg_of_bad {w : Wave} {u : Use} {l : Nat} (hlen : 0 < u.len) (hbad : u.bad w l = none) : 0 ≤ w.vIdx u.opd l := by
  cases ho : u.opd with
  | rel n k =>
    rw [Use.bad, ho] at hbad
    have hfirst := List.find?_eq_none.mp hbad (w.vIdx (.rel n k) l + ((0 : Nat) : Int))
      (List.mem_map.mpr ⟨0, List.mem_range.mpr hlen, rfl⟩)
    simp only [Nat.cast_zero, add_zero, Bool.or_eq_true, decide_eq_true_eq, not_or] at hfirst
    exact Int.not_lt.mp hfirst.1
  | v n => exact Int.natCast_nonneg _
  | _ => exact le_rfl

/-! ## Pairs of registers -/

theorem Wave.vIdx_put (w : Wave) (o : Opd) (i : Nat) (m : Lanes) (f : Nat → Word) (l : Nat) : (w.put o i m f).vIdx o l = w.vIdx o l := by
  cases o with
  | rel n k =>
    have hrest := foldl_setV_rest m.toList (fun l => (laneIds.map (fun l => (w.vIdx (.rel n k) l + i).toNat)).getD l 0) f w
    have hidx := congrArg (fun z : Wave => z.vIdx (.rel n k) l) hrest
    exact hidx
  | _ => rfl

theorem Wave.lane_congr {w u : Wave} {o : Opd} {l : Nat} (h : u.vIdx o l = w.vIdx o l) (z : Wave) (i : Nat) :
    u.lane z o i l = w.lane z o i l := by
  cases o with
  | rel n k => rw [Wave.lane, Wave.lane, h]
  | _ => rfl

/-- One register of a group is left by the write of another. -/
theorem lane_put_of_ne {w : Wave} {o : Opd} {i j l : Nat} (hij : i ≠ j) (hl : l < 32) (hx : 0 ≤ w.vIdx o l) (m : Lanes)
    (f : Nat → Word) : w.lane (w.put o j m f) o i l = w.lane w o i l := by
  cases o with
  | v n => rw [Wave.lane, Wave.put, Wave.vRow_setV, if_neg (by omega), Wave.lane]
  | rel n k =>
    simp only [Wave.lane, Wave.put]
    rw [foldl_setV_vRow _ (fun l => (laneIds.map (fun l => (w.vIdx (.rel n k) l + j).toNat)).getD l 0) f w _ l hl, relTable _ _ _ _ hl]
    exact if_neg fun h => by omega
  | a n => rw [Wave.lane, Wave.put, Wave.aRow_setA, if_neg (by omega), Wave.lane]
  | _ => rfl

/-- Two writes one after another of registers that the same operands name. -/
theorem RegsKept.trans {w u z : Wave} {m : Lanes} {ds : List (Opd × Nat)} (hx : ∀ d ∈ ds, ∀ l, u.vIdx d.1 l = w.vIdx d.1 l)
    (h : RegsKept w u m ds) (g : RegsKept u z m ds) : RegsKept w z m ds := by
  obtain ⟨hv, hs, hp, ha, hm⟩ := h
  obtain ⟨gv, gs, gp, ga, gm⟩ := g
  have hhit (d : Opd × Nat) (hd : d ∈ ds) (k l : Nat) : vHit u d.1 d.2 m k l ↔ vHit w d.1 d.2 m k l := by
    unfold vHit
    cases ho : d.1 with
    | rel n j => rw [← ho, hx d hd l]
    | _ => exact Iff.rfl
  exact ⟨fun k l hl hd => (gv k l hl fun d hm h => hd d hm ((hhit d hm k l).mp h)).trans (hv k l hl hd),
    fun k hd => (gs k hd).trans (hs k hd), fun k l hd => (gp k l hd).trans (hp k l hd),
    fun k l hl hd => (ga k l hl hd).trans (ha k l hl hd), fun k hd => (gm k hd).trans (hm k hd)⟩

/-- A 64-bit value per lane, in a pair of registers (R155). -/
def Wave.putPair (w : Wave) (o : Opd) (act : Lanes) (x : Nat → Nat) : Wave :=
  (w.put o 0 act (fun l => BitVec.ofNat 32 (x l))).put o 1 act (fun l => BitVec.ofNat 32 (x l / 2 ^ 32))

theorem Wave.writesOnly_putPair (w : Wave) (o : Opd) (act : Lanes) (x : Nat → Nat) :
    w.WritesOnly (w.putPair o act x) act [(o, 2)] := by
  refine ⟨?_, ?_, (restKept_put w o 0 act _).trans (restKept_put _ o 1 act _)⟩
  · rw [Wave.putPair, Wave.put_parts, Wave.put_parts]
  · refine RegsKept.trans (fun d hd l => ?_) (regsKept_put w o 0 2 act _ (by decide)) (regsKept_put _ o 1 2 act _ (by decide))
    rw [List.mem_singleton.mp hd]
    exact w.vIdx_put o 0 act _ l

theorem Wave.lane_putPair (w : Wave) {o : Opd} {act : Lanes} (x : Nat → Nat) {l : Nat} (ho : Opd.laneReg o = true) (hl : l < 32)
    (ha : act.getLsbD l = true) (hx : 0 ≤ w.vIdx o l) :
    w.lane (w.putPair o act x) o 0 l = BitVec.ofNat 32 (x l) ∧ w.lane (w.putPair o act x) o 1 l = BitVec.ofNat 32 (x l / 2 ^ 32) := by
  have hidx := w.vIdx_put o 0 act (fun l => BitVec.ofNat 32 (x l)) l
  rw [Wave.putPair, ← Wave.lane_congr hidx, ← Wave.lane_congr hidx]
  refine ⟨?_, lane_put _ o 1 act _ l hl ha ho⟩
  rw [lane_put_of_ne Nat.zero_ne_one hl (hidx ▸ hx), Wave.lane_congr hidx]
  exact lane_put w o 0 act _ l hl ha ho

/-- A value of twice 64 bits, in a pair of scalars. -/
def Wave.setPair (w : Wave) (n : Nat) (x : Nat) : Wave := (w.setS n (BitVec.ofNat 64 x)).setS (n + 1) (BitVec.ofNat 64 (x / 2 ^ 64))

theorem Wave.writesOnly_setPair (w : Wave) (n : BitVec 7) (x : Nat) (act : Lanes) :
    w.WritesOnly (w.setPair n.toNat x) act [(.s n, 2)] := by
  refine ⟨rfl, ⟨fun _ _ _ _ => rfl, fun k hk => ?_, fun _ _ _ => rfl, fun _ _ _ _ => rfl, fun _ _ => rfl⟩, rfl⟩
  have hnot := hk (.s n, 2) (List.mem_singleton.mpr rfl)
  rw [Wave.setPair, Wave.sReg_setS, if_neg fun e => hnot ⟨1, Nat.one_lt_two, e.symm⟩, Wave.sReg_setS,
    if_neg fun e => hnot ⟨0, Nat.two_pos, e.symm⟩]

/-- The two halves of a pattern of 128 bits. -/
theorem append_eq_ofNat (hi lo : Word64) : hi ++ lo = BitVec.ofNat 128 (lo.toNat + 2 ^ 64 * hi.toNat) := by
  have hlo := lo.isLt
  have hhi := hi.isLt
  apply BitVec.eq_of_toNat_eq
  rw [BitVec.toNat_append, ← Nat.shiftLeft_add_eq_or_of_lt hlo, Nat.shiftLeft_eq, BitVec.toNat_ofNat]
  omega

theorem Wave.sReg_setPair (w : Wave) (n : Nat) (x : Nat) :
    (w.setPair n x).sReg (n + 1) ++ (w.setPair n x).sReg n = BitVec.ofNat 128 x := by
  have hlow : n ≠ n + 1 := by omega
  rw [Wave.setPair, Wave.sReg_setS, if_pos rfl, Wave.sReg_setS, if_neg hlow, Wave.sReg_setS, if_pos rfl, append_eq_ofNat]
  apply BitVec.eq_of_toNat_eq
  simp only [BitVec.toNat_ofNat]
  omega

/-! ## IMADW's effect (R155) -/

/-- How IMADW uses its operands: D and C are groups of `len` registers. -/
def imadwUses (h : Hd) (o : Ops) (len : Nat) : List Use :=
  [⟨0, o.d, len, true, false, none⟩, ⟨1, o.a, 1, false, h.fea, none⟩, ⟨2, o.b, 1, false, h.feb, none⟩,
   ⟨3, o.c, len, false, h.fec, none⟩]

/-- The whole product plus an addend, of twice the width. -/
def fullProduct (t : IType) (a b x : Nat) : Nat := ((ival t a * ival t b + x) % 2 ^ (2 * iw t)).toNat

/-- The addend of the scalar unit. -/
def Run.wideAddend (r : Run) (c : Iss) (t : IType) (o : Opd) : Nat :=
  match o with
  | .imm8 n => (n.signExtend 128).toNat
  | .s n =>
    if t.is64 then (r.rdScalar c.wid (.s n) 0 c.act.lowest).toNat + 2 ^ 64 * (r.rdScalar c.wid (.s n) 1 c.act.lowest).toNat
    else (r.rdScalar c.wid (.s n) 0 c.act.lowest).toNat
  | x => (r.rdScalar c.wid x 0 c.act.lowest).toNat

/-- The results of the vector unit, by the table that the model makes of them. -/
def Run.laneProducts (r : Run) (c : Iss) (t : IType) (o : Ops) (l : Nat) : Nat :=
  (laneIds.map (fun l => fullProduct t (r.rdLane c.wid o.a 0 l).toNat (r.rdLane c.wid o.b 0 l).toNat (r.rdPair c.wid o.c l))).getD l 0

theorem Run.laneProducts_of_lt (r : Run) (c : Iss) (t : IType) (o : Ops) {l : Nat} (hl : l < 32) : r.laneProducts c t o l =
    fullProduct t (r.rdLane c.wid o.a 0 l).toNat (r.rdLane c.wid o.b 0 l).toNat (r.rdPair c.wid o.c l) :=
  getD_map_laneIds _ _ _ hl

/-- The one result of the scalar unit. -/
def Run.scalarProduct (r : Run) (c : Iss) (t : IType) (o : Ops) : Nat :=
  fullProduct t ((r.rdScalar c.wid o.a 0 c.act.lowest).setWidth (iw t)).toNat
    ((r.rdScalar c.wid o.b 0 c.act.lowest).setWidth (iw t)).toNat (r.wideAddend c t o.c)

section
variable {h : Hd} {t : IType} {o : Ops} {r : Run} {c : Iss} (y : Sys)

theorem imadwEff_vec (hv : Ops.vecUnit o = true) (hd : pairPast (r.wave c.wid).stream 2 o.d = none)
    (hc : pairPast (r.wave c.wid).stream 2 o.c = none) (hchk : checkUses (r.wave c.wid) c.act (imadwUses h o 2) = .ok) :
    imadwEff h t o y r c = .ok (r.onWave c.wid (fun w => w.putPair o.d c.act (r.laneProducts c t o))) () := by
  rw [imadwUses] at hchk
  simp only [imadwEff, hv, Bool.true_or, if_true, hd, hc, Run.checked, hchk]
  rfl

theorem imadwEff_scalar {d : BitVec 7} (hs : o.d = .s d) (hv : Ops.vecUnit o = false) {len : Nat} (hlen : len = if t.is64 then 2 else 1)
    (hd : pairPast (r.wave c.wid).stream len o.d = none) (hc : pairPast (r.wave c.wid).stream len o.c = none)
    (hchk : checkUses (r.wave c.wid) c.act (imadwUses h o len) = .ok) :
    imadwEff h t o y r c = .ok (r.onWave c.wid (fun w =>
      if t.is64 then w.setPair d.toNat (r.scalarProduct c t o)
      else w.setS d.toNat (BitVec.ofNat 64 (r.scalarProduct c t o)))) () := by
  subst hlen
  rw [imadwUses] at hchk
  rw [hs] at hd hchk
  simp only [imadwEff, hv, Bool.false_or, Bool.false_eq_true, if_false, hs, hd, hc, Run.checked, hchk, ← BitVec.toNat_setWidth]
  rfl

theorem imadwEff_trap {n : Nat} {len : Nat} (hlen : len = if Ops.vecUnit o || t.is64 then 2 else 1)
    (hpast : pairPast (r.wave c.wid).stream len o.d = some n ∨
      pairPast (r.wave c.wid).stream len o.d = none ∧ pairPast (r.wave c.wid).stream len o.c = some n) :
    imadwEff h t o y r c = .trap r (pairTrap c.act n) := by
  subst hlen
  unfold imadwEff
  rcases hpast with hd | ⟨hd, hc⟩
  · simp only [hd]
  · simp only [hd, hc]

end

/-! ## What the addends and results are of patterns -/

theorem ofNat_emod_toNat (n : Nat) (z : Int) : BitVec.ofNat n (z % 2 ^ n).toNat = BitVec.ofInt n z := by
  have hlo : 0 ≤ z % 2 ^ n := Int.emod_nonneg _ (by positivity)
  rw [← BitVec.ofInt_natCast, Int.toNat_of_nonneg hlo]
  apply BitVec.eq_of_toNat_eq
  rw [BitVec.toNat_ofInt, BitVec.toNat_ofInt]
  push_cast
  rw [Int.emod_emod_of_dvd z dvd_rfl]

theorem fullProduct_toNat (t : IType) {n : Nat} (hn : iw t = n) (a b : BitVec n) (x : Nat) :
    fullProduct t a.toNat b.toNat x = ((valOf t a * valOf t b + x) % 2 ^ (2 * n)).toNat := by
  subst hn
  rw [fullProduct, ival_toNat, ival_toNat]

theorem ofNat_fullProduct (t : IType) {n : Nat} (hn : iw t = n) (a b : BitVec n) (x : Nat) :
    BitVec.ofNat (2 * n) (fullProduct t a.toNat b.toNat x) =
      BitVec.ofInt (2 * n) (valOf t a * valOf t b) + BitVec.ofNat (2 * n) x := by
  rw [fullProduct_toNat t hn, ofNat_emod_toNat, BitVec.ofInt_add, BitVec.ofInt_natCast]

/-- At 32 bits the addend is what its register holds. -/
theorem ofNat_wideAddend_of_32 (r : Run) (c : Iss) {t : IType} (h32 : t.is64 = false) (o : Opd) :
    BitVec.ofNat 64 (r.wideAddend c t o) = r.rdScalar c.wid o 0 c.act.lowest := by
  cases o with
  | imm8 n =>
    change BitVec.ofNat 64 (n.signExtend 128).toNat = n.signExtend 64
    rw [BitVec.ofNat_toNat]
    apply BitVec.eq_of_getLsbD_eq
    intro i hi
    rw [BitVec.getLsbD_setWidth, BitVec.getLsbD_signExtend, BitVec.getLsbD_signExtend, decide_eq_true hi,
      decide_eq_true (by omega : i < 128), Bool.true_and, Bool.true_and]
  | s n => simp only [Run.wideAddend, h32, Bool.false_eq_true, if_false, BitVec.ofNat_toNat, BitVec.setWidth_eq]
  | _ => simp only [Run.wideAddend, BitVec.ofNat_toNat, BitVec.setWidth_eq]

/-- At 64 bits a scalar addend is a pair, and any other is extended. -/
theorem ofNat_wideAddend_of_64 (r : Run) (c : Iss) {t : IType} (h64 : t.is64 = true) (o : Opd) :
    BitVec.ofNat 128 (r.wideAddend c t o) = match o with
      | .s n => r.rdScalar c.wid (.s n) 1 c.act.lowest ++ r.rdScalar c.wid (.s n) 0 c.act.lowest
      | .imm8 n => n.signExtend 128
      | x => (r.rdScalar c.wid x 0 c.act.lowest).setWidth 128 := by
  cases o with
  | s n => simp only [Run.wideAddend, h64, if_true, append_eq_ofNat]
  | _ => simp only [Run.wideAddend, BitVec.ofNat_toNat, BitVec.setWidth_eq]

/-- The halves of a result of 64 bits. -/
theorem halves_toNat {x : Nat} (hx : x < 2 ^ 64) : (BitVec.ofNat 32 x).toNat + 2 ^ 32 * (BitVec.ofNat 32 (x / 2 ^ 32)).toNat = x := by
  simp only [BitVec.toNat_ofNat]
  omega

/-! ## IMADW -/

section
variable {s : State} {h : Hd} {o : Ops} {c : Iss} {t : IType}

theorem imadw_vec_completes (h32 : t.is64 = false) (hd : Opd.laneReg o.d = true) (hpd : pairPast (s.wv c).stream 2 o.d = none)
    (hpc : pairPast (s.wv c).stream 2 o.c = none) (hI : Issues s h c (imadwUses h o 2)) :
    Completes (exec (.imadw h t o) s) (fun u => RegFrame s u c [(o.d, 2)] ∧ MovedOn s u c ∧
      ∀ l, l < 32 → c.act.getLsbD l = true →
        ((s.wv c).lane (u.wv c) o.d 0 l).toNat + 2 ^ 32 * ((s.wv c).lane (u.wv c) o.d 1 l).toNat =
          ((valOf t (s.src c o.a l) * valOf t (s.src c o.b l) + s.run.rdPair c.wid o.c l) % 2 ^ 64).toNat) := by
  obtain ⟨hc, ha, hchk⟩ := hI
  obtain ⟨hparts, hr, hk⟩ := (s.wv c).writesOnly_putPair o.d c.act (s.run.laneProducts c t o)
  refine (issue_regs (vec := Ops.vecUnit o) ⟨hc, ha, checkUses_nil _ _⟩
    (imadwEff_vec s.sys (Ops.vecUnit_of_laneReg hd) hpd hpc hchk) hparts hr hk).imp
    fun u ⟨hframe, hmoved, hu⟩ => ⟨hframe, hmoved, fun l hl hal => ?_⟩
  have hbad : Use.bad (s.wv c) ⟨0, o.d, 2, true, false, none⟩ l = none :=
    bad_eq_none_of_checkUses hchk (List.mem_cons_self) rfl hl hal
  obtain ⟨hlow, hhigh⟩ := (s.wv c).lane_putPair (s.run.laneProducts c t o) hd hl hal
    (vIdx_nonneg_of_bad Nat.two_pos hbad)
  rw [hu, Wave.lane_retired, Wave.lane_retired, hlow, hhigh, Run.laneProducts_of_lt _ _ _ _ hl, fullProduct_toNat t (iw_of_32 h32)]
  refine halves_toNat ?_
  have hlt : (valOf t (s.src c o.a l) * valOf t (s.src c o.b l) + s.run.rdPair c.wid o.c l) % 2 ^ 64 < 2 ^ 64 :=
    Int.emod_lt_of_pos _ (by decide)
  omega

theorem imadw_scalar_completes {d : BitVec 7} {len : Nat} (hs : o.d = .s d) (hv : Ops.vecUnit o = false)
    (hlen : len = if t.is64 then 2 else 1) (hI : Issues s h c (imadwUses h o len)) (hpd : pairPast (s.wv c).stream len o.d = none)
    (hpc : pairPast (s.wv c).stream len o.c = none) :
    Completes (exec (.imadw h t o) s) (fun u => RegFrame s u c [(o.d, len)] ∧ MovedOn s u c ∧
      (t.is64 = false → (u.wv c).sReg d.toNat = BitVec.ofNat 64 (s.run.scalarProduct c t o)) ∧
      (t.is64 = true → (u.wv c).sReg (d.toNat + 1) ++ (u.wv c).sReg d.toNat = BitVec.ofNat 128 (s.run.scalarProduct c t o))) := by
  obtain ⟨hc, ha, hchk⟩ := hI
  have he := imadwEff_scalar s.sys hs hv hlen hpd hpc hchk
  generalize s.run.scalarProduct c t o = x at he ⊢
  have hwrites : (s.wv c).WritesOnly (if t.is64 then (s.wv c).setPair d.toNat x else (s.wv c).setS d.toNat (BitVec.ofNat 64 x)) c.act
      [(o.d, len)] := by
    rw [hs, hlen]
    cases t.is64 with
    | true => exact (s.wv c).writesOnly_setPair d x c.act
    | false => exact ⟨rfl, regsKept_setS (s.wv c) d _ c.act, restKept_setS (s.wv c) d.toNat _⟩
  obtain ⟨hparts, hr, hk⟩ := hwrites
  refine (issue_regs (vec := Ops.vecUnit o) ⟨hc, ha, checkUses_nil _ _⟩ he hparts hr hk).imp
    fun u ⟨hframe, hmoved, hu⟩ => ⟨hframe, hmoved, fun h32 => ?_, fun h64 => ?_⟩
  · rw [hu, Wave.sReg_retired, h32, if_neg Bool.false_ne_true, Wave.sReg_setS, if_pos rfl]
  · rw [hu, Wave.sReg_retired, Wave.sReg_retired, h64, if_pos rfl, Wave.sReg_setPair]

theorem imadw_traps {n len : Nat} (hlen : len = if Ops.vecUnit o || t.is64 then 2 else 1) (hc : s.run.issuer h = some c) (ha : c.act ≠ 0)
    (hpast : pairPast (s.wv c).stream len o.d = some n ∨
      pairPast (s.wv c).stream len o.d = none ∧ pairPast (s.wv c).stream len o.c = some n) :
    Traps s (.imadw h t o) c (pairTrap c.act n) :=
  issue_trap (k := { vec := Ops.vecUnit o }) ⟨hc, ha, checkUses_nil _ _⟩ (.inl rfl) (.inl rfl) (imadwEff_trap s.sys hlen hpast)

end

/-- Settles O14: LEA and the products by the exact values of their patterns, IMADW by its shapes. -/
theorem productResults : Obligations.ProductResults := by
  unfold Obligations.ProductResults
  refine ⟨⟨fun m => ?_, fun m => ?_, fun t => ?_, fun t => ?_⟩, ?_, fun s h o c d hs hv _ hI hpd hpc t h32 => ?_,
    fun s h o c d hs hv _ hI hpd hpc t h64 => ?_, fun s h o c t n hc ha hpast => ?_⟩
  · refine intResult_plain (fun _ _ _ => rfl) fun a b x p => ?_
    rw [ofNat_iwrap, ival_toNat, ival_toNat]
  · refine intResult_plain (fun _ _ _ => rfl) fun a b x p => ?_
    rw [ofNat_isat, ival_toNat, ival_toNat]
  · refine intResult_plain (fun _ _ _ => rfl) fun a b x p => ?_
    rw [ofNat_iwrap, ival_toNat, ival_toNat]
  · refine intResult_plain (fun _ _ _ => rfl) fun a b x p => ?_
    rw [ofNat_iwrap, ival_toNat, ival_toNat, ival_toNat]
  · exact fun s h o c t h32 hd hpd hpc hI => imadw_vec_completes h32 hd hpd hpc hI
  · refine (imadw_scalar_completes hs hv (by rw [h32]; rfl) hI hpd hpc).imp fun u ⟨hframe, hmoved, hreg, _⟩ => ⟨hframe, hmoved, ?_⟩
    have hsum := ofNat_fullProduct t (iw_of_32 h32) ((s.ssrc c o.a).setWidth 32) ((s.ssrc c o.b).setWidth 32) (s.run.wideAddend c t o.c)
    rw [hreg h32, Run.scalarProduct, iw_of_32 h32, hsum, ofNat_wideAddend_of_32 _ _ h32, BitVec.ofInt_add, BitVec.ofInt_natCast,
      BitVec.ofNat_toNat, BitVec.setWidth_eq]
  · refine (imadw_scalar_completes hs hv (by rw [h64]; rfl) hI hpd hpc).imp fun u ⟨hframe, hmoved, _, hreg⟩ => ⟨hframe, hmoved, ?_⟩
    have hsum := ofNat_fullProduct t (iw_of_64 h64) (s.ssrc c o.a) (s.ssrc c o.b) (s.run.wideAddend c t o.c)
    dsimp only
    rw [hreg h64, Run.scalarProduct, iw_of_64 h64, BitVec.setWidth_eq, BitVec.setWidth_eq, hsum]
    exact congrArg (BitVec.ofInt 128 _ + ·) (ofNat_wideAddend_of_64 s.run c h64 o.c)
  · exact ⟨_, imadw_traps rfl hc ha hpast, rfl⟩

end Sys2Proof.Machine
end

section
/-! The words that the spec writes out beside its encodings, settled (R145, R105, R134, R251, R281, R307, R122, R266, R539). -/

namespace Sys2Proof.Machine

/-- Settles O1: each word is decoded. -/
theorem specWordsDecode : Obligations.SpecWordsDecode := by
  unfold Obligations.SpecWordsDecode
  exact ⟨by decide, by decide, by decide, by decide, by decide, by decide, by decide, by decide, by decide⟩

end Sys2Proof.Machine
end

section
/-! The floating-point pipe (R159, R163 to R168): the lanes' results and flags, the FPX trap, and what the issue of an FP instruction
leaves. -/

namespace Sys2Proof.Machine

/-! ## Results and flags of the lanes -/

/-- What the active lanes of an FP instruction give, of the unit's lane for each: `a` its source A, `f` its result and flags. -/
def fpLanes (o : Ops) (c : Iss) (a : Nat → Word) (f : Nat → Nat × Nat) : List FpLane :=
  c.act.toList.map (fun l => ⟨l, (f (unitLane o c l)).1, (f (unitLane o c l)).2, a (unitLane o c l)⟩)

theorem mem_fpLanes {o : Ops} {c : Iss} {a : Nat → Word} {f : Nat → Nat × Nat} {x : FpLane} : x ∈ fpLanes o c a f ↔
    ∃ l, l < 32 ∧ c.act.getLsbD l = true ∧ x = ⟨l, (f (unitLane o c l)).1, (f (unitLane o c l)).2, a (unitLane o c l)⟩ := by
  simp only [fpLanes, List.mem_map, mem_toList, and_assoc, eq_comm]

/-- A list that names each lane once gives the lane's own result. -/
theorem fpResult_map {g : Nat → FpLane} (hg : ∀ l, (g l).lane = l) {xs : List Nat} {l : Nat} (hl : l ∈ xs) :
    fpResult (xs.map g) l = (g l).d := by
  have hfind : xs.find? ((fun x : FpLane => x.lane == l) ∘ g) = some l := by
    have hcomp : (fun x : FpLane => x.lane == l) ∘ g = fun k => k == l := funext fun k => by
      rw [Function.comp_apply, hg]
    rw [hcomp]
    cases hk : xs.find? (fun k => k == l) with
    | none => exact absurd (beq_self_eq_true l) (List.find?_eq_none.mp hk l hl)
    | some k => rw [beq_iff_eq.mp (List.find?_some (p := fun k => k == l) hk)]
  rw [fpResult, List.find?_map, hfind]
  rfl

theorem fpResult_fpLanes {o : Ops} {c : Iss} (a : Nat → Word) (f : Nat → Nat × Nat) {l : Nat} (hl : l < 32)
    (ha : c.act.getLsbD l = true) : fpResult (fpLanes o c a f) l = (f (unitLane o c l)).1 :=
  fpResult_map (fun _ => rfl) ((mem_toList c.act l).mpr ⟨hl, ha⟩)

theorem testBit_foldl_or {α : Type} (g : α → Nat) (xs : List α) (a n : Nat) :
    (xs.foldl (fun m x => m ||| g x) a).testBit n = true ↔ a.testBit n = true ∨ ∃ x ∈ xs, (g x).testBit n = true := by
  induction xs generalizing a with
  | nil => simp
  | cons x xs ih =>
    rw [List.foldl_cons, ih, Nat.testBit_or, Bool.or_eq_true, List.exists_mem_cons_iff, or_assoc]

/-- %FPSR after the flags of some lanes have joined it (R166). -/
theorem getLsbD_fpsr_orFlags (w : Wave) (xs : List FpLane) {n : Nat} (hn : n < 32) :
    (w.orFlags xs).fpsr.getLsbD n = true ↔ w.fpsr.getLsbD n = true ∨ ∃ x ∈ xs, x.fl.testBit n = true := by
  change (w.fpsr ||| BitVec.ofNat 32 (xs.foldl (fun n x => n ||| x.fl) 0)).getLsbD n = true ↔ _
  rw [BitVec.getLsbD_or, BitVec.getLsbD_ofNat, Bool.or_eq_true, Bool.and_eq_true, testBit_foldl_or]
  simp [hn]

/-! ## The FPX trap (R168, R197) -/

theorem fpxTrap_none {w : Wave} {xs : List FpLane} (h : ∀ x ∈ xs, x.fl &&& fpEnables w = 0) : fpxTrap w xs = none := by
  have hbad : xs.filter (fun x => (x.fl &&& fpEnables w) ≠ 0) = [] :=
    List.filter_eq_nil_iff.mpr fun x hx => by simp [h x hx]
  simp only [fpxTrap, hbad, if_true]

/-- The trap names the lanes in which an enabled exception arose, with their source A. -/
theorem fpxTrap_some {w : Wave} {xs : List FpLane} (h : ∃ x ∈ xs, x.fl &&& fpEnables w ≠ 0) :
    ∃ tr, fpxTrap w xs = some tr ∧ tr.cls = 6 ∧ tr.next = false ∧
      (∀ l, l < 32 → (tr.mask.getLsbD l = true ↔ ∃ x ∈ xs, x.fl &&& fpEnables w ≠ 0 ∧ x.lane = l)) ∧
      ∀ e ∈ tr.lv, ∃ x ∈ xs, e = (x.lane, x.a) := by
  obtain ⟨x, hx, hfl⟩ := h
  have hbad : xs.filter (fun x => (x.fl &&& fpEnables w) ≠ 0) ≠ [] :=
    List.ne_nil_of_mem (List.mem_filter.mpr ⟨hx, decide_eq_true hfl⟩)
  refine ⟨_, if_neg hbad, rfl, rfl, fun l hl => ?_, fun e he => ?_⟩
  · dsimp only
    rw [lanesOf, getLsbD_ofTest _ _ hl, List.any_map, List.any_eq_true]
    simp only [List.mem_filter, decide_eq_true_eq, Function.comp_apply, beq_iff_eq, and_assoc]
  · obtain ⟨x, hx, he⟩ := List.mem_map.mp he
    exact ⟨x, (List.mem_filter.mp hx).1, he.symm⟩

/-! ## The effect -/

/-- What a completed FP instruction makes of its wave: the results in D, the flags in %FPSR. -/
def Wave.fpWritten (w : Wave) (d : Opd) (act : Lanes) (xs : List FpLane) : Wave := (w.putFp d act xs).orFlags xs

/-- The lanes' results go to D and their flags to %FPSR, or the FPX trap is taken. -/
theorem fpEff_eq (o : Ops) (a : Run → Iss → Nat → Word) (f : Run → Iss → Nat → Nat × Nat) (y : Sys) (r : Run) (c : Iss) :
    (fpxTrap (r.wave c.wid) (fpLanes o c (a r c) (f r c)) = none →
      fpEff o a f y r c = .ok (r.onWave c.wid (fun w => w.fpWritten o.d c.act (fpLanes o c (a r c) (f r c)))) ()) ∧
    (∀ t, fpxTrap (r.wave c.wid) (fpLanes o c (a r c) (f r c)) = some t → fpEff o a f y r c = .trap r t) := by
  have hxs : fpLanes o c (a r c) (f r c) = if Ops.vecUnit o then
      c.act.toList.map (fun l => (⟨l, (f r c l).1, (f r c l).2, a r c l⟩ : FpLane))
    else c.act.toList.map (fun l => ⟨l, (f r c c.act.lowest).1, (f r c c.act.lowest).2, a r c c.act.lowest⟩) := by
    unfold fpLanes unitLane
    cases Ops.vecUnit o <;> rfl
  simp only [fpEff, ← hxs]
  exact ⟨fun h => by rw [h]; rfl, fun t h => by rw [h]⟩

/-- But for a predicate, which takes whether its lane's result is not 0, results go where a move's value goes. -/
theorem Wave.putFp_eq_putWord (w : Wave) {d : Opd} (hd : ∀ n, d ≠ .p n) (act : Lanes) (xs : List FpLane) :
    w.putFp d act xs = w.putWord act d (BitVec.ofNat 64 (fpResult xs act.lowest)) (fun l => BitVec.ofNat 32 (fpResult xs l)) := by
  cases d with
  | p n => exact absurd rfl (hd n)
  | _ => rfl

theorem Wave.writesOnly_putFp (w : Wave) (d : Opd) (act : Lanes) (xs : List FpLane) :
    w.WritesOnly (w.putFp d act xs) act [(d, 1)] := by
  by_cases hd : ∀ n, d ≠ .p n
  · rw [w.putFp_eq_putWord hd]
    exact w.writesOnly_putWord act d _ _
  · obtain ⟨n, rfl⟩ := not_forall_not.mp hd
    exact ⟨w.setP_parts _ _ _, regsKept_setP w n act _, restKept_setP w n.toNat act _⟩

theorem RestKept.withFpsr {w u : Wave} (hk : RestKept w u) (x : Word) : RestKept { w with fpsr := x } { u with fpsr := x } := by
  have e := congrArg (fun z : Wave => { z with fpsr := x }) hk
  exact e

theorem Wave.fpWritten_eq (w : Wave) (d : Opd) (act : Lanes) (xs : List FpLane) :
    w.fpWritten d act xs = { w.putFp d act xs with fpsr := (w.orFlags xs).fpsr } := by
  have hfpsr : (w.putFp d act xs).fpsr = w.fpsr := by
    have e := congrArg Wave.fpsr (w.writesOnly_putFp d act xs).2.2
    exact e
  rw [Wave.fpWritten, Wave.orFlags, hfpsr]
  rfl

theorem Wave.fpWritten_kept (w : Wave) (d : Opd) (act : Lanes) (xs : List FpLane) : (w.fpWritten d act xs).parts = w.parts ∧
    RegsKept w (w.fpWritten d act xs) act [(d, 1)] ∧ RestKept { w with fpsr := (w.orFlags xs).fpsr } (w.fpWritten d act xs) := by
  obtain ⟨hp, hr, hk⟩ := w.writesOnly_putFp d act xs
  rw [w.fpWritten_eq]
  exact ⟨hp, hr, hk.withFpsr _⟩

theorem Wave.fpWritten_fpsr (w : Wave) (d : Opd) (act : Lanes) (xs : List FpLane) :
    (w.fpWritten d act xs).fpsr = (w.orFlags xs).fpsr := by
  rw [w.fpWritten_eq]

/-! ## The issue -/

theorem SMap.insert_insert {α : Type} (m : SMap α) (n : Nat) (x y : α) : SMap.insert (SMap.insert m n x) n y = SMap.insert m n y := by
  induction m with
  | nil => simp [SMap.insert]
  | cons e m ih =>
    obtain ⟨k, v⟩ := e
    simp only [SMap.insert]
    split
    · simp [SMap.insert]
    · next hne =>
      split
      · simp [SMap.insert]
      · next hlt => simp only [SMap.insert, if_neg hne, if_neg hlt, ih]

theorem Tbl.upd_upd {α : Type} (m : Tbl α) (n : Nat) (f g : α → α) : (m.upd n f).upd n g = m.upd n (fun x => g (f x)) := by
  unfold Tbl.upd
  cases hm : m.get? n with
  | none => simp only [hm]
  | some x =>
    simp only [Tbl.get?_put, if_true]
    exact SMap.insert_insert m n _ _

theorem Run.onWave_onWave (r : Run) (n : Nat) (f g : Wave → Wave) : (r.onWave n f).onWave n g = r.onWave n (fun w => g (f w)) := by
  simp only [Run.onWave, Tbl.upd_upd]

/-- The wait for an FP instruction's end touches STALL alone (R168). -/
theorem Run.fpWait_onWave (r : Run) (c : Iss) (h : Hd) (lat : Nat) (f : Wave → Wave) :
    ∃ st : Wave → Nat, (r.onWave c.wid f).fpWait c h lat = r.onWave c.wid (fun w => { f w with stall := st w }) := by
  unfold Run.fpWait
  split
  · exact ⟨fun w => (f w).stall, rfl⟩
  · exact ⟨_, Run.onWave_onWave r c.wid f _⟩

/-- The frame and the advance of an instruction that writes registers, and what `w` names beside them. -/
theorem regFrameBut_of_written {s t : State} {h : Hd} {c : Iss} {k : How} {u w : Wave} {ds : List (Opd × Nat)} (hb : k.branch = false)
    (hc : k.closer = false) (hdev : DeviceKept s t c.wid) (ht : t.wv c = Wave.retired s.run.clk c h k u) (hp : u.parts = (s.wv c).parts)
    (hr : RegsKept (s.wv c) u c.act ds) (hk : RestKept w u) : RegFrameBut s t c ds w ∧ MovedOn s t c := by
  rw [State.wv] at ht
  refine ⟨⟨hdev, ht ▸ hr.retired, ht ▸ hk.retired hc⟩, ?_⟩
  unfold MovedOn
  rw [ht, Wave.retired_parts _ _ _ _ _ hb hc, Wave.advance_parts, Wave.onParts_parts, hp]

section
variable {s : State} {h : Hd} {o : Ops} {c : Iss} {lat : Nat} {a : Run → Iss → Nat → Word} {f : Run → Iss → Nat → Nat × Nat}
  (hI : Issues s h c (usesOf h o))
include hI

/-- Without an enabled exception the results are written and the flags join %FPSR. -/
theorem fpRun_completes (hno : ∀ l, l < 32 → c.act.getLsbD l = true → (f s.run c (unitLane o c l)).2 &&& fpEnables (s.wv c) = 0) :
    Completes (fpRun h lat o s (fpEff o a f)) (fun t =>
      RegFrameBut s t c [(o.d, 1)] { s.wv c with fpsr := (t.wv c).fpsr } ∧ MovedOn s t c ∧ ∃ st : Nat, t.wv c =
        Wave.retired s.run.clk c h { uses := usesOf h o, vec := Ops.vecUnit o }
          { (s.wv c).fpWritten o.d c.act (fpLanes o c (a s.run c) (f s.run c)) with stall := st }) := by
  set xs := fpLanes o c (a s.run c) (f s.run c) with hxs
  have htrap : fpxTrap (s.wv c) xs = none := fpxTrap_none fun x hx => by
    obtain ⟨l, hl, ha, rfl⟩ := mem_fpLanes.mp hx
    exact hno l hl ha
  obtain ⟨st, hst⟩ := s.run.fpWait_onWave c h lat (fun w => w.fpWritten o.d c.act xs)
  have he : (fpEff o a f s.sys s.run c).bind (fun r _ => .ok (r.fpWait c h lat) ()) =
      .ok (s.run.onWave c.wid (fun w => { w.fpWritten o.d c.act xs with stall := st w })) () := by
    rw [(fpEff_eq o a f s.sys s.run c).1 htrap, ← hst]
    rfl
  obtain ⟨hp, hr, hk⟩ := (s.wv c).fpWritten_kept o.d c.act xs
  refine (issue_wave (k := { uses := usesOf h o, vec := Ops.vecUnit o }) hI (.inl rfl) rfl rfl he).imp fun t ⟨hdev, ht⟩ => ?_
  have hfpsr : (t.wv c).fpsr = ((s.wv c).orFlags xs).fpsr := by
    rw [ht, Wave.retired_fpsr]
    exact Wave.fpWritten_fpsr _ _ _ _
  rw [hfpsr]
  obtain ⟨hframe, hmoved⟩ := regFrameBut_of_written rfl rfl hdev ht hp hr hk
  exact ⟨hframe, hmoved, st (s.wv c), ht⟩

/-- With an enabled exception the FPX trap is taken, and nothing is written. -/
theorem fpRun_traps (hex : ∃ l, l < 32 ∧ c.act.getLsbD l = true ∧ (f s.run c (unitLane o c l)).2 &&& fpEnables (s.wv c) ≠ 0) :
    ∃ tr, tr.cls = 6 ∧ tr.next = false ∧
      (∀ l, l < 32 → (tr.mask.getLsbD l = true ↔
        c.act.getLsbD l = true ∧ (f s.run c (unitLane o c l)).2 &&& fpEnables (s.wv c) ≠ 0)) ∧
      (∀ l x, (l, x) ∈ tr.lv → x = a s.run c (unitLane o c l)) ∧
      fpRun h lat o s (fpEff o a f) = .next { s with run := trapAt s.sys s.run c tr } := by
  obtain ⟨l, hl, ha, hfl⟩ := hex
  obtain ⟨tr, htr, hcls, hnext, hmask, hlv⟩ := fpxTrap_some (w := s.wv c) (xs := fpLanes o c (a s.run c) (f s.run c))
    ⟨_, mem_fpLanes.mpr ⟨l, hl, ha, rfl⟩, hfl⟩
  refine ⟨tr, hcls, hnext, fun l hl => (hmask l hl).trans ⟨?_, fun ⟨ha, hfl⟩ => ?_⟩, fun l x hx => ?_, ?_⟩
  · rintro ⟨x, hx, hfl, rfl⟩
    obtain ⟨l, -, ha, rfl⟩ := mem_fpLanes.mp hx
    exact ⟨ha, hfl⟩
  · exact ⟨_, mem_fpLanes.mpr ⟨l, hl, ha, rfl⟩, hfl, rfl⟩
  · obtain ⟨x, hmem, he⟩ := hlv _ hx
    obtain ⟨k, -, -, rfl⟩ := mem_fpLanes.mp hmem
    obtain ⟨rfl, rfl⟩ := Prod.mk.inj he
    rfl
  · refine issue_trap (k := { uses := usesOf h o, vec := Ops.vecUnit o }) hI (.inl rfl) (.inl rfl) ?_
    rw [(fpEff_eq o a f s.sys s.run c).2 tr htr]
    rfl

end

theorem Lanes.lowest_mem {m : Lanes} (h : m ≠ 0) : m.lowest < 32 ∧ m.getLsbD m.lowest = true := by
  obtain ⟨l, hl⟩ := (Lanes.ne_zero_iff m).mp h
  have hmem : l ∈ m.toList := (mem_toList m l).mpr ⟨BitVec.lt_of_getLsbD hl, hl⟩
  rw [Lanes.lowest, List.head?_eq_getElem?, List.getElem?_eq_getElem (List.length_pos_of_mem hmem), Option.getD_some]
  exact (mem_toList m _).mp (List.getElem_mem _)

/-- What D holds of the lanes' results `g`, as each kind of destination takes them. -/
def Wave.FpResults (w u : Wave) (d : Opd) (act : Lanes) (g : Nat → Nat) : Prop :=
  match d with
  | .s n => u.sReg n.toNat = BitVec.ofNat 64 (g act.lowest)
  | .p n => n ≠ 15 → ∀ l, l < 32 → act.getLsbD l = true → (u.pReg n.toNat).getLsbD l = decide (g l ≠ 0)
  | d => Opd.laneReg d = true → ∀ l, l < 32 → act.getLsbD l = true → w.lane u d 0 l = BitVec.ofNat 32 (g l)

theorem Wave.fpResults_putFp (w : Wave) (d : Opd) {act : Lanes} (hact : act ≠ 0) {xs : List FpLane} {g : Nat → Nat}
    (hg : ∀ l, l < 32 → act.getLsbD l = true → fpResult xs l = g l) : w.FpResults (w.putFp d act xs) d act g := by
  cases d with
  | s n =>
    obtain ⟨hlow, hmem⟩ := Lanes.lowest_mem hact
    exact (w.sReg_setS n.toNat n.toNat _).trans ((if_pos rfl).trans (by rw [hg _ hlow hmem]))
  | p n =>
    intro h15 l hl ha
    have hne : n.toNat ≠ 15 := fun e => h15 (BitVec.eq_of_toNat_eq e)
    exact (w.getLsbD_pReg_setP _ _ _ _ l hl).trans ((if_pos ⟨rfl, hne, ha⟩).trans (by rw [hg l hl ha]))
  | _ =>
    intro hreg l hl ha
    exact (lane_put w _ 0 act (fun l => BitVec.ofNat 32 (fpResult xs l)) l hl ha hreg).trans (congrArg (BitVec.ofNat 32) (hg l hl ha))

/-- They stand in the retired wave, whatever %FPSR and STALL. -/
theorem Wave.FpResults.retired {w u : Wave} {d : Opd} {act : Lanes} {g : Nat → Nat} (hu : w.FpResults u d act g) (x : Word) (st clk : Nat)
    (c : Iss) (h : Hd) (k : How) : w.FpResults (Wave.retired clk c h k { u with fpsr := x, stall := st }) d act g := by
  cases d with
  | s n => exact (Wave.sReg_retired _ clk c h k n.toNat).trans hu
  | p n =>
    intro h15 l hl ha
    rw [Wave.pReg_retired]
    exact hu h15 l hl ha
  | _ => exact fun hreg l hl ha => (Wave.lane_retired w _ clk c h k _ 0 l).trans (hu hreg l hl ha)

/-- An instruction that issues as an FP instruction over the lanes' results is one (R159, R166, R168). -/
theorem fpResult_of_fpRun {mk : Hd → Ops → Instr} {lat : Nat} {src : Ops → Run → Iss → Nat → Word}
    {f : Ops → Run → Iss → Nat → Nat × Nat} (hexec : ∀ s h o, exec (mk h o) s = fpRun h lat o s (fpEff o (src o) (f o))) :
    FpResult mk src f := by
  intro s h o c hI
  rw [hexec]
  refine ⟨fun hno => (fpRun_completes hI hno).imp fun t ⟨hframe, hmoved, st, ht⟩ => ⟨hframe, hmoved, fun n hn => ?_, ?_⟩, fpRun_traps hI⟩
  · rw [ht, Wave.retired_fpsr]
    change ((s.wv c).fpWritten o.d c.act _).fpsr.getLsbD n = true ↔ _
    rw [Wave.fpWritten_fpsr, getLsbD_fpsr_orFlags _ _ hn]
    refine or_congr_right ⟨?_, ?_⟩
    · rintro ⟨x, hx, hbit⟩
      obtain ⟨l, hl, ha, rfl⟩ := mem_fpLanes.mp hx
      exact ⟨l, hl, ha, hbit⟩
    · rintro ⟨l, hl, ha, hbit⟩
      exact ⟨_, mem_fpLanes.mpr ⟨l, hl, ha, rfl⟩, hbit⟩
  · have hwritten := (s.wv c).fpResults_putFp o.d hI.2.1 (g := fun l => (f o s.run c (unitLane o c l)).1)
      fun l hl ha => fpResult_fpLanes (o := o) (c := c) (src o s.run c) (f o s.run c) hl ha
    rw [ht, Wave.fpWritten_eq]
    exact hwritten.retired _ st _ _ _ _

end Sys2Proof.Machine
end

section
/-! FADD to FSCALE, FSETP and FCLASS, settled (R159, R163, R166, R168, R171 to R175). -/

namespace Sys2Proof.Machine

/-- The arithmetic of MOD's type (R163): elements after their sign changes, saturated where MOD says so. -/
theorem fpResult_of_fpIssue {mk : Hd → Ops → Instr} {lat : Nat} {m : FpMod} {g : FCtl → Nat → Nat → Nat → Nat × Nat}
    (hexec : ∀ s h o, exec (mk h o) s = fpIssue h m o g s lat) :
    FpResult mk (fun o r c l => BitVec.ofNat 32 (r.rdFp c.wid m.t o.a l)) (fpValue m g) :=
  fpResult_of_fpRun hexec

/-- Settles O15: every instruction of FALU issues as an FP instruction over its elements' results. -/
theorem floatArithmetic : Obligations.FloatArithmetic := by
  unfold Obligations.FloatArithmetic
  refine ⟨⟨fun m => ?_, fun m => ?_, fun m => ?_, fun m => ?_, fun m => ?_, fun m => ?_, fun m => ?_⟩, fun m => ?_, ?_⟩
  iterate 6 exact fpResult_of_fpIssue fun _ _ _ => rfl
  · exact fpResult_of_fpRun fun _ _ _ => rfl
  · exact fpResult_of_fpRun fun _ _ _ => rfl
  · exact fpResult_of_fpRun fun _ _ _ => rfl

end Sys2Proof.Machine
end

section
/-! The special functions, settled (R176, R177). -/

namespace Sys2Proof.Machine

/-- The instruction of a special function other than FSQRT. -/
def Sfu.instr (fn : Sfu) (h : Hd) (m : FpMod) (o : Ops) : Instr :=
  match fn with
  | .rcp => .frcp h m o
  | .rsq => .frsq h m o
  | .exp2 => .fexp2 h m o
  | .log2 => .flog2 h m o
  | .sin => .fsin h m o
  | .cos => .fcos h m o
  | .tanh => .ftanh h m o

theorem Sfu.exec_instr (fn : Sfu) (h : Hd) (m : FpMod) (o : Ops) (s : State) : exec (fn.instr h m o) s = sfuIssue fn h m o s := by
  cases fn <;> rfl

/-- An element takes the function's FP32 result of it, converted where the type is packed (R176). -/
theorem Sfu.fpResult_instr (fn : Sfu) (m : FpMod) : FpResult (fun h o => fn.instr h m o)
    (fun o r c l => BitVec.ofNat 32 (r.rdFp c.wid m.t o.a l))
    (fpValue m (fun k a _ _ => (FType.fmt m.t).special k (fun k x => fn.fp32 k x) a)) :=
  fpResult_of_fpIssue fun s h o => fn.exec_instr h m o s

theorem fpResult_fsqrt (m : FpMod) : FpResult (fun h o => .fsqrt h m o) (fun o r c l => BitVec.ofNat 32 (r.rdFp c.wid m.t o.a l))
    (fpValue m (fun k a _ _ => (FType.fmt m.t).special k (fun k x => fmt32.sqrt k x) a)) :=
  fpResult_of_fpIssue fun _ _ _ => rfl

/-- With no exception enabled an FP instruction completes, and %FPSR loses no flag. -/
theorem FpResult.completes {mk : Hd → Ops → Instr} {src : Ops → Run → Iss → Nat → Word} {f : Ops → Run → Iss → Nat → Nat × Nat}
    (hf : FpResult mk src f) {s : State} {h : Hd} {o : Ops} {c : Iss} (hI : Issues s h c (usesOf h o)) (hen : fpEnables (s.wv c) = 0) :
    Completes (exec (mk h o) s) (fun t => RegFrameBut s t c [(o.d, 1)] { s.wv c with fpsr := (t.wv c).fpsr } ∧ MovedOn s t c ∧
      (s.wv c).fpsr &&& (t.wv c).fpsr = (s.wv c).fpsr) := by
  have hno (x : Nat) : x &&& fpEnables (s.wv c) = 0 := by rw [hen, Nat.and_zero]
  refine ((hf s h o c hI).1 fun _ _ _ => hno _).imp fun t ⟨hframe, hmoved, hflags, _⟩ =>
    ⟨hframe, hmoved, BitVec.eq_of_getLsbD_eq fun n hn => ?_⟩
  rw [BitVec.getLsbD_and, Bool.and_eq_left_iff_imp]
  exact fun hold => (hflags n hn).mpr (.inl hold)

/-- Settles O16: each special function issues as an FP instruction; the special cases are evaluated, FTZ or not, since a zero, an
infinity and a normal number read the same under it. -/
theorem specialFunctions : Obligations.SpecialFunctions := by
  unfold Obligations.SpecialFunctions
  refine ⟨fun s h m o c hI hen => ?_, fun k => ?_, fun m fn => ⟨fn.fpResult_instr m, fpResult_fsqrt m⟩⟩
  · have hsfu (fn : Sfu) := (fn.fpResult_instr m).completes hI hen
    simp only [List.forall_mem_cons, List.not_mem_nil, false_imp_iff, implies_true, and_true]
    exact ⟨hsfu .rcp, hsfu .rsq, (fpResult_fsqrt m).completes hI hen, hsfu .exp2, hsfu .log2, hsfu .sin, hsfu .cos, hsfu .tanh⟩
  · obtain ⟨rm, ftz, dn⟩ := k
    cases ftz <;> and_intros <;> rfl

end Sys2Proof.Machine
end

section
/-! Registers that are owed (R129): what marking them empty changes, and that they read empty until the result arrives. -/

namespace Sys2Proof.Machine

/-- One register marked empty. -/
def Wave.markOne (w : Wave) (r : RegRef) : Wave :=
  if r.vec then { w with vEmpty := w.vEmpty.set 0 r.n (SMap.get 0 w.vEmpty r.n ||| r.mask) }
  else { w with sEmpty := w.sEmpty ||| (1#128 <<< r.n) }

theorem Wave.markEmpty_cons (w : Wave) (r : RegRef) (rs : List RegRef) : w.markEmpty (r :: rs) = (w.markOne r).markEmpty rs := rfl

/-- Marking registers empty changes no more than what is marked. -/
theorem Wave.markEmpty_eq (w : Wave) (rs : List RegRef) : ∃ ve se, w.markEmpty rs = { w with vEmpty := ve, sEmpty := se } := by
  induction rs generalizing w with
  | nil => exact ⟨w.vEmpty, w.sEmpty, rfl⟩
  | cons r rs ih =>
    obtain ⟨ve, se, h⟩ := ih (w.markOne r)
    refine ⟨ve, se, h.trans ?_⟩
    unfold Wave.markOne
    split <;> rfl

theorem Wave.owe_eq (w : Wave) (rs : List RegRef) (kind : PendKind) (acq : Bool) (m : Lanes) (pc : Word64) :
    ∃ ve se ps, w.owe rs kind acq m pc = { w with vEmpty := ve, sEmpty := se, pend := ps, pendNext := w.pendNext + 1 } := by
  obtain ⟨ve, se, h⟩ := w.markEmpty_eq rs
  exact ⟨ve, se, _, by rw [Wave.owe, h]⟩

theorem Wave.isEmpty_iff_of_vec (w : Wave) {x : RegRef} (hv : x.vec = true) :
    w.isEmpty x = true ↔ ∃ l, (SMap.get 0 w.vEmpty x.n).getLsbD l = true ∧ x.mask.getLsbD l = true := by
  rw [Wave.isEmpty, if_pos hv, decide_eq_true_iff, Lanes.ne_zero_iff]
  simp only [BitVec.getLsbD_and, Bool.and_eq_true]

theorem Wave.isEmpty_of_scalar (w : Wave) {x : RegRef} (hv : x.vec = false) : w.isEmpty x = w.sEmpty.getLsbD x.n := by
  rw [Wave.isEmpty, hv]
  exact if_neg Bool.false_ne_true

/-- What reads empty goes on to, whatever else is marked. -/
theorem Wave.isEmpty_markOne_of_isEmpty {w : Wave} {x : RegRef} (hx : w.isEmpty x = true) (r : RegRef) :
    (w.markOne r).isEmpty x = true := by
  unfold Wave.markOne
  cases hv : x.vec with
  | true =>
    obtain ⟨l, hl, hm⟩ := (w.isEmpty_iff_of_vec hv).mp hx
    refine (Wave.isEmpty_iff_of_vec _ hv).mpr ⟨l, ?_, hm⟩
    split
    · rw [SMap.get_set]
      split
      · next hn => rw [← hn, BitVec.getLsbD_or, hl, Bool.true_or]
      · exact hl
    · exact hl
  | false =>
    rw [Wave.isEmpty_of_scalar _ hv] at hx ⊢
    split
    · exact hx
    · rw [BitVec.getLsbD_or, hx, Bool.true_or]

theorem Wave.isEmpty_markOne (w : Wave) {r : RegRef} (hm : r.vec = true → r.mask ≠ 0) (hn : r.vec = false → r.n < 128) :
    (w.markOne r).isEmpty r = true := by
  unfold Wave.markOne
  cases hv : r.vec with
  | true =>
    obtain ⟨l, hl⟩ := (Lanes.ne_zero_iff r.mask).mp (hm hv)
    refine (Wave.isEmpty_iff_of_vec _ hv).mpr ⟨l, ?_, hl⟩
    rw [if_pos rfl, SMap.get_set, if_pos rfl, BitVec.getLsbD_or, hl, Bool.or_true]
  | false =>
    rw [Wave.isEmpty_of_scalar _ hv, if_neg Bool.false_ne_true, BitVec.getLsbD_or, BitVec.getLsbD_shiftLeft]
    simp [hn hv]

theorem Wave.isEmpty_markEmpty_of_isEmpty {w : Wave} {x : RegRef} (hx : w.isEmpty x = true) (rs : List RegRef) :
    (w.markEmpty rs).isEmpty x = true := by
  induction rs generalizing w with
  | nil => exact hx
  | cons r rs ih => exact ih (Wave.isEmpty_markOne_of_isEmpty hx r)

/-- A register owed reads empty. -/
theorem Wave.isEmpty_markEmpty (w : Wave) {rs : List RegRef} {x : RegRef} (hx : x ∈ rs) (hm : x.vec = true → x.mask ≠ 0)
    (hn : x.vec = false → x.n < 128) : (w.markEmpty rs).isEmpty x = true := by
  induction rs generalizing w with
  | nil => cases hx
  | cons r rs ih =>
    rw [Wave.markEmpty_cons]
    rcases List.mem_cons.mp hx with rfl | hx
    · exact Wave.isEmpty_markEmpty_of_isEmpty (w.isEmpty_markOne hm hn) rs
    · exact ih _ hx

theorem Wave.lane_owe (w u : Wave) (rs : List RegRef) (kind : PendKind) (acq : Bool) (m : Lanes) (pc : Word64) (o : Opd) (i l : Nat) :
    w.lane (u.owe rs kind acq m pc) o i l = w.lane u o i l := by
  obtain ⟨ve, se, ps, h⟩ := u.owe_eq rs kind acq m pc
  rw [h]
  cases o <;> rfl

theorem Wave.sReg_owe (u : Wave) (rs : List RegRef) (kind : PendKind) (acq : Bool) (m : Lanes) (pc : Word64) (k : Nat) :
    (u.owe rs kind acq m pc).sReg k = u.sReg k := by
  obtain ⟨ve, se, ps, h⟩ := u.owe_eq rs kind acq m pc
  rw [h]
  rfl

theorem Wave.isEmpty_retired (u : Wave) (clk : Nat) (c : Iss) (h : Hd) (k : How) (x : RegRef) :
    (Wave.retired clk c h k u).isEmpty x = u.isEmpty x :=
  Wave.retired_read (fun w => w.isEmpty x) (fun _ _ _ _ _ => rfl) clk c h k u

/-- The registers of an operand with a value per lane are vector registers, if it names any that can be owed. -/
theorem Wave.vec_of_mem_refs {w : Wave} {o : Opd} {len : Nat} {m : Lanes} (ho : Opd.laneReg o = true) {x : RegRef}
    (hx : x ∈ w.refs o len m) : x.vec = true := by
  cases o with
  | v n =>
    obtain ⟨i, -, rfl⟩ := List.mem_map.mp hx
    rfl
  | rel n k =>
    obtain ⟨l, -, hx⟩ := List.mem_flatMap.mp hx
    obtain ⟨i, -, rfl⟩ := List.mem_map.mp hx
    rfl
  | a n => cases hx
  | _ => cases ho

/-- The registers that an operand names follow the wave's address registers as they are read. -/
theorem Wave.refs_congr {w u : Wave} {o : Opd} (h : ∀ l, u.vIdx o l = w.vIdx o l) (len : Nat) (m : Lanes) :
    u.refs o len m = w.refs o len m := by
  cases o with
  | rel n k => simp only [Wave.refs, h]
  | _ => rfl

end Sys2Proof.Machine
end

section
/-! CVT, PACK, UNPK and FRND (R180 to R183), and VCOMP and VEXP (R116), settled. -/

namespace Sys2Proof.Machine

/-! ## Results of a pack or an expansion -/

theorem RegsKept.mono {w u : Wave} {m : Lanes} {ds es : List (Opd × Nat)} (h : ∀ d ∈ ds, d ∈ es) (hk : RegsKept w u m ds) :
    RegsKept w u m es := by
  obtain ⟨hv, hs, hp, ha, hm⟩ := hk
  exact ⟨fun k l hl hd => hv k l hl fun d hmem => hd d (h d hmem), fun k hd => hs k fun d hmem => hd d (h d hmem),
    fun k l hd => hp k l fun d hmem => hd d (h d hmem), fun k l hl hd => ha k l hl fun d hmem => hd d (h d hmem),
    fun k hd => hm k fun d hmem => hd d (h d hmem)⟩

/-- A count, where C is a scalar that takes it. -/
def Wave.withCount (w : Wave) (o : Opd) (n : Nat) : Wave :=
  match o with
  | .s k => w.setS k.toNat (BitVec.ofNat 64 n)
  | _ => w

def countRefs (o : Opd) : List RegRef :=
  match o with
  | .s k => [⟨false, k.toNat, 0xFFFFFFFF#32⟩]
  | _ => []

/-- What a pack or an expansion makes of its wave: a row over a set of lanes and the count, both owed. -/
def Wave.packed (w : Wave) (c : Iss) (o : Ops) (lanes : Lanes) (x : Row) (n : Nat) : Wave :=
  let u := (w.put o.d 0 lanes (rowAt x)).withCount o.c n
  u.owe (u.refs o.d 1 lanes ++ countRefs o.c) .xlane false c.act c.pc

theorem packFinish_eq (r : Run) (c : Iss) (o : Ops) (m : Lanes) (x : Row) (n : Nat) : packFinish r c o m x n =
    .ok ((r.onWave c.wid (fun w => w.packed c o (w.writable o.d m) x n)).crossDone c o.a) () := by
  unfold packFinish Wave.packed
  cases o with
  | mk d a b e i => cases e <;> rfl

theorem Wave.writesOnly_withCount (w : Wave) (o : Opd) (n : Nat) (m : Lanes) : w.WritesOnly (w.withCount o n) m [(o, 1)] := by
  cases o with
  | s k => exact ⟨rfl, regsKept_setS w k _ m, restKept_setS w k.toNat _⟩
  | _ => exact ⟨rfl, RegsKept.refl w m _, rfl⟩

theorem Wave.vIdx_withCount (w : Wave) (e : Opd) (n : Nat) (o : Opd) (l : Nat) : (w.withCount e n).vIdx o l = w.vIdx o l := by
  cases e <;> rfl

theorem Wave.lane_withCount (w u : Wave) (e : Opd) (n : Nat) (o : Opd) (i l : Nat) :
    w.lane (u.withCount e n) o i l = w.lane u o i l := by
  cases e <;> rfl

section
variable (w : Wave) (c : Iss) (o : Ops) (lanes : Lanes) (x : Row) (n : Nat)

theorem Wave.refs_packed : ((w.put o.d 0 lanes (rowAt x)).withCount o.c n).refs o.d 1 lanes = w.refs o.d 1 lanes :=
  Wave.refs_congr (fun l => (Wave.vIdx_withCount _ _ _ _ l).trans (w.vIdx_put o.d 0 lanes _ l)) 1 lanes

theorem Wave.regsKept_putCount :
    RegsKept w ((w.put o.d 0 lanes (rowAt x)).withCount o.c n) lanes [(o.d, 1), (o.c, 1)] := by
  have hput := regsKept_put w o.d 0 1 lanes (rowAt x) Nat.one_pos
  have hfirst : ∀ d ∈ [(o.d, 1)], d ∈ [(o.d, 1), (o.c, 1)] := fun d hd => List.mem_cons.mpr (.inl (List.mem_singleton.mp hd))
  cases hc : o.c with
  | s k =>
    rw [hc] at hfirst
    refine RegsKept.trans (fun d hd l => ?_) (hput.mono hfirst) ((regsKept_setS _ k _ lanes).mono (by simp))
    rcases List.mem_cons.mp hd with rfl | hd
    · exact w.vIdx_put o.d 0 lanes _ l
    · rw [List.mem_singleton.mp hd]
      rfl
  | _ =>
    rw [hc] at hfirst
    exact hput.mono hfirst

theorem Wave.packed_kept : (w.packed c o lanes x n).parts = w.parts ∧
    RestKept { w with pend := (w.packed c o lanes x n).pend, pendNext := w.pendNext + 1 } (w.packed c o lanes x n) ∧
    (∀ ds, RegsKept w ((w.put o.d 0 lanes (rowAt x)).withCount o.c n) lanes ds → RegsKept w (w.packed c o lanes x n) lanes ds) := by
  obtain ⟨hp, -, hk⟩ := (w.put o.d 0 lanes (rowAt x)).writesOnly_withCount o.c n lanes
  have hrest := (restKept_put w o.d 0 lanes (rowAt x)).trans hk
  have hnext : ((w.put o.d 0 lanes (rowAt x)).withCount o.c n).pendNext = w.pendNext := by
    have e := congrArg Wave.pendNext hrest
    exact e
  obtain ⟨ve, se, ps, h⟩ := ((w.put o.d 0 lanes (rowAt x)).withCount o.c n).owe_eq
    (((w.put o.d 0 lanes (rowAt x)).withCount o.c n).refs o.d 1 lanes ++ countRefs o.c) .xlane false c.act c.pc
  rw [Wave.packed, h, hnext]
  refine ⟨hp.trans (w.put_parts _ _ _ _), ?_, fun ds hds => hds⟩
  have e := congrArg (fun z : Wave => { z with pend := ps, pendNext := w.pendNext + 1 }) hrest
  exact e

/-- What is owed reads empty. -/
theorem Wave.isEmpty_packed (hd : Opd.laneReg o.d = true) :
    (∀ r ∈ w.refs o.d 1 lanes, r.mask ≠ 0 → (w.packed c o lanes x n).isEmpty r = true) ∧
    ∀ k, o.c = .s k → (w.packed c o lanes x n).sEmpty.getLsbD k.toNat = true := by
  refine ⟨fun r hr hm => ?_, fun k hk => ?_⟩
  · have hmem : r ∈ ((w.put o.d 0 lanes (rowAt x)).withCount o.c n).refs o.d 1 lanes ++ countRefs o.c := by
      rw [w.refs_packed o lanes x n]
      exact List.mem_append_left _ hr
    exact Wave.isEmpty_markEmpty _ hmem (fun _ => hm) fun hv => absurd (Wave.vec_of_mem_refs hd hr) (by simp [hv])
  · have hmem : (⟨false, k.toNat, 0xFFFFFFFF#32⟩ : RegRef) ∈
        ((w.put o.d 0 lanes (rowAt x)).withCount o.c n).refs o.d 1 lanes ++ countRefs o.c :=
      List.mem_append_right _ (by rw [hk]; exact List.mem_singleton.mpr rfl)
    exact Wave.isEmpty_markEmpty _ hmem Bool.noConfusion fun _ => k.isLt

theorem Wave.lane_packed (hd : Opd.laneReg o.d = true) {l : Nat} (hl : l < 32) (hm : lanes.getLsbD l = true) :
    w.lane (w.packed c o lanes x n) o.d 0 l = rowAt x l := by
  rw [Wave.packed, Wave.lane_owe, Wave.lane_withCount]
  exact lane_put w o.d 0 lanes (rowAt x) l hl hm hd

theorem Wave.sReg_packed {k : BitVec 7} (hk : o.c = .s k) : (w.packed c o lanes x n).sReg k.toNat = BitVec.ofNat 64 n := by
  rw [Wave.packed, Wave.sReg_owe, hk]
  exact (Wave.sReg_setS _ _ _ _).trans (if_pos rfl)

end

/-! ## The issue of a pack or an expansion -/

/-- The issue of an instruction of a fully reconverged wave that changes its wave, and may draw free values. -/
theorem issue_whole {s : State} {h : Hd} {c : Iss} {eff : Sys → Run → Iss → Eff Unit} {f : Wave → Wave} {n : Nat}
    (hI : Issues s h c []) (hw : Whole s c) (he : eff s.sys s.run c = .ok ((s.run.onWave c.wid f).withFresh n) ())
    (hp : (f (s.wv c)).parts = (s.wv c).parts) :
    Completes (issue s h { whole := some 2, vec := true } eff) (fun t => DeviceKept s (t.asDrawn s) c.wid ∧ MovedOn s t c ∧
      t.wv c = Wave.retired s.run.clk c h { whole := some 2, vec := true } (f (s.wv c))) := by
  obtain ⟨u, hu, -, huw⟩ := Run.issuer_wave _ _ _ hI.1
  have hwv : s.wv c = u := huw
  rw [hwv] at hp ⊢
  refine ⟨_, issue_ok' (k := { whole := some 2, vec := true }) hI (.inl rfl) (.inr hw) rfl he, ?_⟩
  rw [Run.retire_withFresh]
  beta_reduce
  rw [State.asDrawn_withFresh (Run.retire_fresh (s.run.onWave c.wid f) c h { whole := some 2, vec := true })]
  exact ⟨deviceKept_onWave, movedOn_onWave hu rfl rfl hp, wave_onWave_retire hu⟩

/-- What a completed pack or expansion leaves outside the row it writes. -/
def PackFrame (s t : State) (c : Iss) (o : Ops) (lanes : Lanes) (ds : List (Opd × Nat)) : Prop :=
  DeviceKept s (t.asDrawn s) c.wid ∧ RegsKept (s.wv c) (t.wv c) lanes ds ∧ MovedOn s t c ∧
  RestKept { s.wv c with pend := (t.wv c).pend, pendNext := (s.wv c).pendNext + 1 } (t.wv c) ∧
  (∀ x ∈ (s.wv c).refs o.d 1 lanes, x.mask ≠ 0 → (t.wv c).isEmpty x = true)

theorem pack_completes {s : State} {h : Hd} {c : Iss} {o : Ops} {eff : Sys → Run → Iss → Eff Unit} {m : Lanes} {x : Row} {n : Nat}
    {ds : List (Opd × Nat)} (hI : Issues s h c []) (hw : Whole s c) (hd : Opd.laneReg o.d = true)
    (he : eff s.sys s.run c = packFinish s.run c o m x n)
    (hds : RegsKept (s.wv c) (((s.wv c).put o.d 0 ((s.wv c).writable o.d m) (rowAt x)).withCount o.c n) ((s.wv c).writable o.d m) ds) :
    Completes (issue s h { whole := some 2, vec := true } eff) (fun t => PackFrame s t c o ((s.wv c).writable o.d m) ds ∧
      (∀ k, o.c = .s k → (t.wv c).sReg k.toNat = BitVec.ofNat 64 n ∧ (t.wv c).sEmpty.getLsbD k.toNat = true) ∧
      ∀ l, l < 32 → ((s.wv c).writable o.d m).getLsbD l = true → (s.wv c).lane (t.wv c) o.d 0 l = rowAt x l) := by
  obtain ⟨d, hdone⟩ := (s.run.onWave c.wid (fun w => w.packed c o (w.writable o.d m) x n)).crossDone_eq c o.a
  rw [packFinish_eq, hdone] at he
  obtain ⟨hp, hk, hr⟩ := (s.wv c).packed_kept c o ((s.wv c).writable o.d m) x n
  obtain ⟨hempty, hcount⟩ := (s.wv c).isEmpty_packed c o ((s.wv c).writable o.d m) x n hd
  refine (issue_whole hI hw he hp).imp fun t ⟨hdev, hmoved, ht⟩ => ?_
  rw [PackFrame, ht, Wave.retired_pend, Wave.retired_sEmpty]
  refine ⟨⟨hdev, (hr ds hds).retired, hmoved, hk.retired rfl, fun r hr hm => ?_⟩, fun k hc => ⟨?_, hcount k hc⟩, fun l hl hm => ?_⟩
  · rw [Wave.isEmpty_retired]
    exact hempty r hr hm
  · rw [Wave.sReg_retired]
    exact Wave.sReg_packed _ c o _ x n hc
  · rw [Wave.lane_retired]
    exact Wave.lane_packed _ c o _ x n hd hl hm

/-! ## VCOMP and VEXP (R116) -/

/-- The row that VCOMP packs: position by position the sources of the lanes selected. -/
def packedRow (a : Row) (sel : Lanes) : Row := laneIds.map (fun l => (sel.toList.map (rowAt a)).getD l 0)

/-- The row that VEXP expands: each lane selected takes the source of its position. -/
def expandedRow (a : Row) (sel : Lanes) : Row := laneIds.map (fun l => if sel.getLsbD l then rowAt a (sel.toList.idxOf l) else 0)

theorem Lanes.count_le (m : Lanes) : m.count ≤ 32 := List.length_filter_le _ laneIds

theorem rowAt_packedRow (a : Row) (sel : Lanes) {l : Nat} (hl : l < 32) :
    (sel.count ≤ l → rowAt (packedRow a sel) l = 0) ∧
    (l < sel.count → sel.toList.getD l 0 < 32 ∧ rowAt (packedRow a sel) l = rowAt a (sel.toList.getD l 0)) := by
  have hrow : rowAt (packedRow a sel) l = (sel.toList.map (rowAt a)).getD l 0 := getD_map_laneIds _ _ l hl
  rw [hrow]
  refine ⟨fun h => List.getD_eq_default _ _ (by rw [List.length_map]; exact h), fun h => ?_⟩
  have hget : sel.toList.getD l 0 = sel.toList[l]'h := List.getD_eq_getElem _ _ h
  refine ⟨hget ▸ ((mem_toList sel _).mp (List.getElem_mem h)).1, ?_⟩
  rw [hget, List.getD_eq_getElem _ _ (by rw [List.length_map]; exact h), List.getElem_map]
  rfl

theorem rowAt_expandedRow (a : Row) (sel : Lanes) {l : Nat} (hl : l < 32) :
    (sel.getLsbD l = false → rowAt (expandedRow a sel) l = 0) ∧
    (sel.getLsbD l = true → sel.toList.idxOf l < 32 ∧ rowAt (expandedRow a sel) l = rowAt a (sel.toList.idxOf l)) := by
  have hrow : rowAt (expandedRow a sel) l = if sel.getLsbD l then rowAt a (sel.toList.idxOf l) else 0 := getD_map_laneIds _ _ l hl
  rw [hrow]
  refine ⟨fun h => if_neg (by simp [h]), fun h => ⟨?_, if_pos h⟩⟩
  exact (List.idxOf_lt_length_of_mem ((mem_toList sel l).mpr ⟨hl, h⟩)).trans_le (Lanes.count_le sel)

section
variable {s : State} {h : Hd} {z : Bool} {o : Ops} {c : Iss} (hI : Issues s h c []) (hw : Whole s c) (hd : Opd.laneReg o.d = true)
include hI hw hd

theorem vcomp_completes {lanes sel : Lanes} (hsel : sel = s.run.trueLanes c o.b)
    (hlanes : lanes = (s.wv c).writable o.d (if z then 0xFFFFFFFF#32 else Lanes.ofTest (fun l => l < sel.count)))
    (hop : opndCheck (s.wv c) c.act [⟨0, o.d, 1, true, false, none⟩, ⟨1, o.a, 1, false, h.fea, none⟩, ⟨3, o.c, 1, true, false, none⟩] = none)
    (hfe : feCheck (s.wv c) c.act
      [⟨0, o.d, 1, true, false, some lanes⟩, crossUse (s.wv c) c.m 1 o.a h.fea sel, ⟨3, o.c, 1, true, false, none⟩] = .ok) :
    Completes (exec (.vcomp h z o) s) (fun t => PackFrame s t c o lanes [(o.d, 1), (o.c, 1)] ∧
      (∀ k, o.c = .s k → (t.wv c).sReg k.toNat = BitVec.ofNat 64 sel.count ∧ (t.wv c).sEmpty.getLsbD k.toNat = true) ∧
      ∀ l, l < 32 → lanes.getLsbD l = true → (sel.count ≤ l → (s.wv c).lane (t.wv c) o.d 0 l = 0) ∧
        (l < sel.count → ((s.wv c).unsure c.m o.a).getLsbD (sel.toList.getD l 0) = false →
          (s.wv c).lane (t.wv c) o.d 0 l = s.src c o.a (sel.toList.getD l 0))) := by
  subst hsel hlanes
  refine (pack_completes (x := packedRow (s.run.crossRow c o.a) (s.run.trueLanes c o.b)) hI hw hd
    (Run.checkedCross_ok _ hop hfe) (Wave.regsKept_putCount _ _ _ _ _)).imp fun t ⟨hframe, hcount, hrow⟩ =>
      ⟨hframe, hcount, fun l hl hm => ?_⟩
  obtain ⟨hover, hwithin⟩ := rowAt_packedRow (s.run.crossRow c o.a) (s.run.trueLanes c o.b) hl
  refine ⟨fun h => (hrow l hl hm).trans (hover h), fun h hu => ?_⟩
  obtain ⟨hj, hval⟩ := hwithin h
  exact (hrow l hl hm).trans (hval.trans (rowAt_crossRow hj hu))

theorem vexp_completes {lanes sel : Lanes} (hsel : sel = s.run.trueLanes c o.b)
    (hlanes : lanes = (s.wv c).writable o.d (if z then 0xFFFFFFFF#32 else sel))
    (hop : opndCheck (s.wv c) c.act [⟨0, o.d, 1, true, false, none⟩, ⟨1, o.a, 1, false, h.fea, none⟩] = none)
    (hfe : feCheck (s.wv c) c.act [⟨0, o.d, 1, true, false, some lanes⟩,
      crossUse (s.wv c) c.m 1 o.a h.fea (Lanes.ofTest (fun l => l < sel.count))] = .ok) (hc : o.c = .none) :
    Completes (exec (.vexp h z o) s) (fun t => PackFrame s t c o lanes [(o.d, 1)] ∧
      ∀ l, l < 32 → lanes.getLsbD l = true → (sel.getLsbD l = false → (s.wv c).lane (t.wv c) o.d 0 l = 0) ∧
        (sel.getLsbD l = true → ((s.wv c).unsure c.m o.a).getLsbD (sel.toList.idxOf l) = false →
          (s.wv c).lane (t.wv c) o.d 0 l = s.src c o.a (sel.toList.idxOf l))) := by
  subst hsel hlanes
  refine (pack_completes (x := expandedRow (s.run.crossRow c o.a) (s.run.trueLanes c o.b)) (n := 0) (ds := [(o.d, 1)]) hI hw hd
    (Run.checkedCross_ok _ hop hfe) (by rw [hc]; exact regsKept_put _ o.d 0 1 _ _ Nat.one_pos)).imp fun t ⟨hframe, _, hrow⟩ =>
      ⟨hframe, fun l hl hm => ?_⟩
  obtain ⟨hout, hin⟩ := rowAt_expandedRow (s.run.crossRow c o.a) (s.run.trueLanes c o.b) hl
  refine ⟨fun h => (hrow l hl hm).trans (hout h), fun h hu => ?_⟩
  obtain ⟨hj, hval⟩ := hin h
  exact (hrow l hl hm).trans (hval.trans (rowAt_crossRow hj hu))

end

/-- Settles O17: the conversions issue as FP instructions; VCOMP packs and VEXP expands a row over the lanes they may write. -/
theorem conversionResults : Obligations.ConversionResults := by
  unfold Obligations.ConversionResults
  refine ⟨⟨fun m => ?_, fun m => ?_, fun m => ?_, fun m => ?_⟩, fun s h z o c hI hw hd => ⟨fun hop hfe => ?_, fun hop hfe hc => ?_⟩⟩
  iterate 4 exact fpResult_of_fpRun fun _ _ _ => rfl
  · exact vcomp_completes hI hw hd rfl rfl hop hfe
  · exact vexp_completes hI hw hd rfl rfl hop hfe hc

end Sys2Proof.Machine
end

section
/-! Taking an exception (R191 to R193): the bytes of a side buffer entry (R196), and what the two kinds of entry do to the wave, the side
buffer and the Inn's fault queue. -/

namespace Sys2Proof.Machine

/-! ## Little-endian bytes -/

@[simp] theorem length_leBytes (v n : Nat) : (leBytes v n).length = n := by
  induction n generalizing v with
  | zero => rfl
  | succ n ih => rw [leBytes, List.length_cons, ih]

/-- A number put at the head of a row of bytes reads back. -/
theorem memRead_memPut_leBytes (m : SMap Byte) (a v n : Nat) (bs : List Byte) :
    memRead (memPut m a (leBytes v n ++ bs)) a n = v % 256 ^ n := by
  induction n generalizing m a v with
  | zero => simp [memRead, Nat.mod_one]
  | succ n ih =>
    have hhead : memGet (memPut (memSet m a (BitVec.ofNat 8 v)) (a + 1) (leBytes (v / 256) n ++ bs)) a = BitVec.ofNat 8 v := by
      rw [memGet_memPut_of_out _ _ _ _ (.inl (Nat.lt_succ_self a)), memGet_memSet, if_pos rfl]
    rw [leBytes, List.cons_append, memPut, memRead, ih, hhead, BitVec.toNat_ofNat]
    exact (Nat.mod_mul (x := v) (a := 256) (b := 256 ^ n)).symm.trans (by rw [Nat.pow_succ'])

/-! ## The cause word and the side buffer entry -/

/-- Bit 31 of a cause word is INH (R193). -/
theorem getLsbD_causeWord_inh {cls fpos : Nat} (sub : Nat) (late nest deleg inh : Bool) (hc : cls < 256) (hf : fpos < 8) :
    (causeWord cls sub fpos late nest deleg inh).getLsbD 31 = inh := by
  have hlow : cls + sub % 256 * 256 + fpos * 65536 + (if late then 2 ^ 19 else 0) + (if nest then 2 ^ 20 else 0) +
      (if deleg then 2 ^ 21 else 0) < 2 ^ 31 := by
    have hs : sub % 256 < 256 := Nat.mod_lt _ (by decide)
    split <;> split <;> split <;> omega
  rw [causeWord, BitVec.getLsbD_ofNat, show decide (31 < 32) = true from rfl, Bool.true_and]
  cases inh with
  | false => exact Nat.testBit_lt_two_pow hlow
  | true => rw [if_pos rfl, Nat.add_comm, Nat.testBit_two_pow_add_eq, Nat.testBit_lt_two_pow hlow]; rfl

/-- A side buffer entry begins with the cause, the lanes at fault and the place (R196). -/
theorem take_sideEntry (t : Trap) (cause : Word) (epc rpc rgn : Word64) (part : Lanes) (seq : Nat) (word : BitVec 96) :
    (sideEntry t cause epc rpc rgn part seq word).take 16 =
      leBytes cause.toNat 4 ++ leBytes t.mask.toNat 4 ++ leBytes epc.toNat 8 := by
  simp only [sideEntry, List.append_assoc]
  rw [← List.append_assoc, ← List.append_assoc]
  rw [List.take_append_of_le_length] <;> simp


theorem length_sideEntry (t : Trap) (cause : Word) (epc rpc rgn : Word64) (part : Lanes) (seq : Nat) (word : BitVec 96) :
    (sideEntry t cause epc rpc rgn part seq word).length = 512 := by
  have hlanes (n : Nat) (f : Nat → List Byte) (hf : ∀ l, (f l).length = n) : (laneIds.flatMap f).length = 32 * n := by
    rw [List.length_flatMap, List.map_congr_left (g := fun _ => n) fun l _ => hf l, List.map_const', List.sum_replicate]
    rfl
  simp only [sideEntry, List.length_append, length_leBytes, List.length_replicate, bytesOfWord, List.length_map, List.length_range,
    hlanes 8 _ fun _ => length_leBytes _ _, hlanes 4 _ fun _ => length_leBytes _ _]

/-! ## What the entries read, in a run that has another black box -/

@[simp] theorem Trap.forClass_mask (t : Trap) (cls : Nat) : (t.forClass cls).mask = t.mask := by unfold Trap.forClass; split <;> rfl
@[simp] theorem Trap.forClass_fpos (t : Trap) (cls : Nat) : (t.forClass cls).fpos = t.fpos := by unfold Trap.forClass; split <;> rfl
@[simp] theorem Trap.forClass_late (t : Trap) (cls : Nat) : (t.forClass cls).late = t.late := by unfold Trap.forClass; split <;> rfl

/-- The black box's note of a trap leaves every side buffer alone. -/
theorem side_logTrap (r : Run) (core : Nat) (x : Ctx) (cls : Nat) (cause : Word) (n : Nat) :
    ((logTrap r core x cls cause).core n).side = (r.core n).side := by
  have hnote (r : Run) (f : Core → Core) (hf : ∀ k, (f k).side = k.side) : ((r.onCore core f).core n).side = (r.core n).side := by
    rw [Run.core_onCore]
    split
    · next h => rw [h, hf]
    · rfl
  unfold logTrap
  split
  · rfl
  · dsimp only
    split
    · exact hnote _ _ fun _ => rfl
    · exact hnote _ _ fun _ => rfl

theorem Run.get_wave {r : Run} {n : Nat} {w : Wave} (hw : r.waves.get? n = some w) : r.wave n = w := by rw [Run.wave, hw]; rfl

/-! ## The supervisor's entry -/

section
variable (r : Run) (wid : Nat) (m : Lanes) (epc : Word64) (word : BitVec 96) (t : Trap) (cls sub : Nat)

/-- The cause of a supervisor entry (R193). -/
def Run.supCause : Word := causeWord cls sub t.fpos t.late (r.wave wid).inh false false

/-- The bytes of a supervisor entry's record (R196). -/
def Run.supRecord : List Byte :=
  sideEntry (t.forClass cls) (r.supCause wid t cls sub) epc (((r.wave wid).partAt m).map (·.rpc) |>.getD 0) (r.wave wid).rgn m
    ((r.wave wid).seq + 1) word

/-- The run once the Inn and the black box have their records of a supervisor entry. -/
def Run.supNoted : Run :=
  logTrap { r with faultq := r.faultq ++ [.trap (r.supRecord wid m epc word t cls sub)] } (coreOf wid) (r.ctxOf (r.wave wid)) cls
    (r.supCause wid t cls sub)

theorem Run.supNoted_frame :
    { r.supNoted wid m epc word t cls sub with faultq := r.faultq, bb := r.bb, bbNext := r.bbNext, cores := r.cores } = r := by
  have e := congrArg (fun x : Run => { x with faultq := r.faultq })
    (logTrap_frame { r with faultq := r.faultq ++ [.trap (r.supRecord wid m epc word t cls sub)] } (coreOf wid) (r.ctxOf (r.wave wid)) cls
      (r.supCause wid t cls sub))
  exact e

/-- What a reading takes from neither the fault queue, the black box nor the cores is as before the entry. -/
theorem Run.supNoted_read {α : Type} (g : Run → α)
    (hg : ∀ (r : Run) fq b n cs, g { r with faultq := fq, bb := b, bbNext := n, cores := cs } = g r) :
    g (r.supNoted wid m epc word t cls sub) = g r := by
  have e := congrArg g (r.supNoted_frame wid m epc word t cls sub)
  rw [hg] at e
  exact e

theorem Run.supNoted_faultq :
    (r.supNoted wid m epc word t cls sub).faultq = r.faultq ++ [.trap (r.supRecord wid m epc word t cls sub)] := by
  have e := congrArg Run.faultq
    (logTrap_frame { r with faultq := r.faultq ++ [.trap (r.supRecord wid m epc word t cls sub)] } (coreOf wid) (r.ctxOf (r.wave wid)) cls
      (r.supCause wid t cls sub))
  exact e

/-- Then the side buffer has it, where the wave is in no user handler and the write does not fail (R192). -/
def Run.supSaved : Run :=
  if (r.wave wid).inh || (r.supNoted wid m epc word t cls sub).sideFails wid then r.supNoted wid m epc word t cls sub
  else (r.supNoted wid m epc word t cls sub).onCore (coreOf wid) (fun c => c.setSide (slotOf wid) (r.supRecord wid m epc word t cls sub))

theorem Run.supSaved_read {α : Type} (g : Run → α)
    (hg : ∀ (r : Run) fq b n cs, g { r with faultq := fq, bb := b, bbNext := n, cores := cs } = g r) :
    g (r.supSaved wid m epc word t cls sub) = g r := by
  refine Eq.trans ?_ (r.supNoted_read wid m epc word t cls sub g hg)
  unfold Run.supSaved
  split
  · rfl
  · exact hg _ _ _ _ _

theorem supervisorEntry_eq : supervisorEntry r wid m epc word t cls sub = (r.supSaved wid m epc word t cls sub).onWave wid
    (fun w => w.enterSup m epc (r.supCause wid t cls sub) cls (r.trapbase (r.ctxOf w))) := by
  have hbase (w : Wave) := r.supSaved_read wid m epc word t cls sub (fun x => x.trapbase (x.ctxOf w)) fun _ _ _ _ _ => rfl
  have he : supervisorEntry r wid m epc word t cls sub = (r.supSaved wid m epc word t cls sub).onWave wid (fun w =>
      w.enterSup m epc (r.supCause wid t cls sub) cls
        ((r.supSaved wid m epc word t cls sub).trapbase ((r.supSaved wid m epc word t cls sub).ctxOf w))) := by
    unfold supervisorEntry
    simp only [Trap.forClass_fpos, Trap.forClass_late]
    rfl
  rw [he]
  exact congrArg _ (funext fun w => congrArg _ (hbase w))

/-- The wave after a supervisor entry (R191). -/
theorem wave_supervisorEntry {w : Wave} (hw : r.waves.get? wid = some w) :
    (supervisorEntry r wid m epc word t cls sub).wave wid =
      w.enterSup m epc (causeWord cls sub t.fpos t.late w.inh false false) cls (r.trapbase (r.ctxOf w)) := by
  have hget : (r.supSaved wid m epc word t cls sub).waves.get? wid = some w :=
    (r.supSaved_read wid m epc word t cls sub (fun x => x.waves.get? wid) fun _ _ _ _ _ => rfl).trans hw
  rw [supervisorEntry_eq, Run.wave_onWave _ _ _ _ hget, Run.get_wave hget, Run.supCause, Run.get_wave hw]

theorem wave_supervisorEntry_of_ne {n : Nat} (hn : n ≠ wid) : (supervisorEntry r wid m epc word t cls sub).wave n = r.wave n := by
  rw [supervisorEntry_eq, Run.wave_onWave_of_ne _ _ _ _ hn]
  exact r.supSaved_read wid m epc word t cls sub (fun x => x.wave n) fun _ _ _ _ _ => rfl

theorem supervisorEntry_mem : (supervisorEntry r wid m epc word t cls sub).mem = r.mem := by
  rw [supervisorEntry_eq, Run.onWave_mem]
  exact r.supSaved_read wid m epc word t cls sub Run.mem fun _ _ _ _ _ => rfl

/-- The Inn's fault queue gets the record (R191). -/
theorem supervisorEntry_faultq :
    (supervisorEntry r wid m epc word t cls sub).faultq = r.faultq ++ [.trap (r.supRecord wid m epc word t cls sub)] := by
  rw [supervisorEntry_eq, Run.onWave_faultq, ← Run.supNoted_faultq, Run.supSaved]
  split <;> rfl

/-- The side buffers after a supervisor entry (R191, R192). -/
theorem side_supervisorEntry : ((supervisorEntry r wid m epc word t cls sub).core (coreOf wid)).side =
    if (r.wave wid).inh || r.sideFails wid then (r.core (coreOf wid)).side
    else memPut (r.core (coreOf wid)).side (slotOf wid * 512) (r.supRecord wid m epc word t cls sub) := by
  have hfail := r.supNoted_read wid m epc word t cls sub (fun x => x.sideFails wid) fun _ _ _ _ _ => rfl
  have hside : ((r.supNoted wid m epc word t cls sub).core (coreOf wid)).side = (r.core (coreOf wid)).side := side_logTrap _ _ _ _ _ _
  rw [supervisorEntry_eq]
  change ((r.supSaved wid m epc word t cls sub).core (coreOf wid)).side = _
  rw [Run.supSaved, hfail]
  split
  · exact hside
  · rw [Run.core_onCore, if_pos rfl, Core.setSide, hside]

end

/-! ## The delegated entry -/

section
variable (r : Run) (wid : Nat) (m : Lanes) (epc : Word64) (word : BitVec 96) (t : Trap)

/-- The cause of a delegated entry as %CAUSE holds it, or, with INH clear, as the side buffer does (R193, R206). -/
def Trap.userCause (t : Trap) (inh : Bool) : Word := causeWord t.cls t.sub t.fpos t.late false true inh

/-- The bytes of a delegated entry's record (R196). -/
def Run.userRecord : List Byte :=
  sideEntry t (t.userCause false) epc (((r.wave wid).partAt m).map (·.rpc) |>.getD 0) (r.wave wid).rgn m ((r.wave wid).seq + 1) word

theorem delegatedEntry_eq : delegatedEntry r wid m epc word t =
    (r.onCore (coreOf wid) (fun c => c.setSide (slotOf wid) (r.userRecord wid m epc word t))).onWave wid
      (fun w => w.enterUser m epc (t.userCause true) ((r.launchOf w).info.base + BitVec.ofNat 64 (w.userVec t.cls))) := rfl

/-- The wave after a delegated entry (R191). -/
theorem wave_delegatedEntry {w : Wave} (hw : r.waves.get? wid = some w) : (delegatedEntry r wid m epc word t).wave wid =
    w.enterUser m epc (t.userCause true) ((r.launchOf w).info.base + BitVec.ofNat 64 (w.userVec t.cls)) := by
  have hget : (r.onCore (coreOf wid) (fun c => c.setSide (slotOf wid) (r.userRecord wid m epc word t))).waves.get? wid = some w := hw
  rw [delegatedEntry_eq, Run.wave_onWave _ _ _ _ hget, Run.get_wave hget]

theorem wave_delegatedEntry_of_ne {n : Nat} (hn : n ≠ wid) : (delegatedEntry r wid m epc word t).wave n = r.wave n :=
  Run.wave_onWave_of_ne _ _ _ _ hn

/-- The side buffer's cause word after a delegated entry. -/
theorem memRead_side_delegatedEntry :
    memRead ((delegatedEntry r wid m epc word t).core (coreOf wid)).side (slotOf wid * 512) 4 = (t.userCause false).toNat := by
  have hside : ((delegatedEntry r wid m epc word t).core (coreOf wid)).side =
      memPut (r.core (coreOf wid)).side (slotOf wid * 512) (r.userRecord wid m epc word t) := by
    change ((r.onCore (coreOf wid) (fun c => c.setSide (slotOf wid) (r.userRecord wid m epc word t))).core (coreOf wid)).side = _
    rw [Run.core_onCore, if_pos rfl, Core.setSide]
  rw [hside, Run.userRecord]
  simp only [sideEntry, List.append_assoc]
  rw [memRead_memPut_leBytes]
  exact Nat.mod_eq_of_lt (t.userCause false).isLt

end

/-! ## Which entry a trap takes -/

section
variable {r : Run} {wid : Nat} {w : Wave} (hw : r.waves.get? wid = some w) (m : Lanes) (pc : Word64) (word : BitVec 96) (t : Trap)

/-- EPC: the instruction of the trap, or the one behind it (R204, R205). -/
def Trap.epc (t : Trap) (pc : Word64) : Word64 := if t.next then pc + 12 else pc

theorem delegates_iff (r : Run) (w : Wave) (cls : Nat) : r.delegates w cls = true ↔
    delegable cls = true ∧ (r.ctxOf w).tdeleg.getLsbD cls = true ∧ w.inh = false ∧ w.priv = false := by
  simp only [Run.delegates, Bool.and_eq_true, Bool.not_eq_true', and_assoc]

include hw

/-- In the double-fault handler the tenant is frozen (R192, R491). -/
theorem takeTrap_inDouble (hd : w.inDouble = true) : takeTrap r wid m pc word t =
    { r with inbox := .freeze (r.ctxOf w).part (r.ctxOf w).tenant 3 :: r.inbox } := by
  simp only [takeTrap, Run.get_wave hw, hd, if_true]

/-- A double fault (R192). -/
theorem takeTrap_double (hd : w.inDouble = false) (h : w.priv = true ∧ t.cls ≠ 0 ∨
      r.delegates w t.cls = true ∧ (r.launchOf w).info.size ≤ w.userVec t.cls ∨ w.inh = false ∧ r.sideFails wid = true) :
    takeTrap r wid m pc word t = supervisorEntry r wid m (t.epc pc) word t 15 t.cls := by
  simp only [takeTrap, Run.get_wave hw, hd, Bool.false_eq_true, if_false]
  split
  · rfl
  · next hp =>
    have hrest := h.resolve_left fun ⟨hpriv, hcls⟩ => hp (by simp [hpriv, hcls])
    split
    · have hfault : (decide ((r.launchOf w).info.size ≤ w.userVec t.cls) || r.sideFails wid) = true := by
        rcases hrest with ⟨-, hv⟩ | ⟨-, hs⟩
        · simp [hv]
        · simp [hs]
      rw [if_pos hfault, Trap.epc]
    · next hdel =>
      obtain ⟨hi, hs⟩ := hrest.resolve_left fun h => hdel h.1
      rw [if_pos (by simp [hi, hs]), Trap.epc]

/-- A delegated trap (R191). -/
theorem takeTrap_delegated (hd : w.inDouble = false) (hdel : r.delegates w t.cls = true)
    (hv : w.userVec t.cls < (r.launchOf w).info.size) (hs : r.sideFails wid = false) :
    takeTrap r wid m pc word t = delegatedEntry r wid m (t.epc pc) word t := by
  obtain ⟨-, -, -, hpriv⟩ := (delegates_iff r w t.cls).mp hdel
  simp [takeTrap, Run.get_wave hw, hd, hpriv, hdel, Nat.not_le.mpr hv, hs, Trap.epc]

/-- A trap that goes to the supervisor (R191). -/
theorem takeTrap_supervisor (hd : w.inDouble = false) (hp : w.priv = false ∨ t.cls = 0) (hdel : r.delegates w t.cls = false)
    (hs : w.inh = true ∨ r.sideFails wid = false) :
    takeTrap r wid m pc word t = supervisorEntry r wid m (t.epc pc) word t t.cls t.sub := by
  have hp' : (w.priv && decide (t.cls ≠ 0)) = false := by rcases hp with h | h <;> simp [h]
  have hs' : (!w.inh && r.sideFails wid) = false := by rcases hs with h | h <;> simp [h]
  simp only [takeTrap, Run.get_wave hw, hd, hp', hdel, hs', Bool.false_eq_true, if_false, Trap.epc]

end

end Sys2Proof.Machine
end

section
/-! The entries of traps, settled (R191 to R193). -/

namespace Sys2Proof
open Machine

/-- Settles O26: such a trap is a supervisor entry, whose records and wave are known. -/
theorem supervisorEntry : Obligations.SupervisorEntry := by
  unfold Obligations.SupervisorEntry
  intro r wid m pc word t w hw hd hp hdel hs
  have hww := Run.get_wave hw
  have hrecord : r.supRecord wid m (t.epc pc) word t t.cls t.sub = sideEntry (t.forClass t.cls)
      (causeWord t.cls t.sub t.fpos t.late w.inh false false) (t.epc pc) ((w.partAt m).map (·.rpc) |>.getD 0) w.rgn m (w.seq + 1) word := by
    rw [Run.supRecord, Run.supCause, hww]
  have hside := side_supervisorEntry r wid m (t.epc pc) word t t.cls t.sub
  have hfq := supervisorEntry_faultq r wid m (t.epc pc) word t t.cls t.sub
  dsimp only
  rw [hww] at hside
  rw [hrecord] at hside hfq
  rw [takeTrap_supervisor hw m pc word t hd hp hdel hs, wave_supervisorEntry _ _ _ _ _ _ _ _ hw]
  refine ⟨rfl, rfl, rfl, rfl, rfl, rfl, rfl, rfl, rfl, ⟨_, length_sideEntry .., hfq, ?_, fun hi i hn => ?_⟩, fun hi => ?_,
    supervisorEntry_mem .., fun n hn => wave_supervisorEntry_of_ne _ _ _ _ _ _ _ _ hn, rfl⟩
  · rw [take_sideEntry, Trap.forClass_mask]
    rfl
  · have hlen := length_sideEntry (t.forClass t.cls) (causeWord t.cls t.sub t.fpos t.late w.inh false false) (t.epc pc)
      ((w.partAt m).map (·.rpc) |>.getD 0) w.rgn m (w.seq + 1) word
    rw [hside, if_neg (by simp [hi, hs.resolve_left (by simp [hi])]), memGet_memPut _ _ _ _ (by rw [hlen]; exact hn),
      List.getD_eq_getElem]
  · rw [hside, if_pos (by simp [hi])]

/-- Settles O27: a delegated entry, and the double faults, each by which entry the trap takes. -/
theorem userTrapEntries : Obligations.UserTrapEntries := by
  unfold Obligations.UserTrapEntries
  refine ⟨fun r wid m pc word t w hw hd hdel hv hs hf => ?_, fun r wid m pc word t w hw => ⟨fun hd => ?_, fun hd h => ?_⟩⟩
  · obtain ⟨hcls, -, hi, hpriv⟩ := (delegates_iff r w t.cls).mp hdel
    have hlt : t.cls < 256 := by
      simp only [delegable, Bool.or_eq_true, Bool.and_eq_true, decide_eq_true_eq] at hcls
      omega
    dsimp only
    rw [takeTrap_delegated hw m pc word t hd hdel hv hs, wave_delegatedEntry _ _ _ _ _ _ hw]
    exact ⟨hpriv, hi, rfl, rfl, getLsbD_causeWord_inh _ _ _ _ _ hlt hf, rfl, rfl, hpriv, rfl, rfl, rfl, rfl, rfl, rfl,
      fun n hn => wave_delegatedEntry_of_ne _ _ _ _ _ _ hn, memRead_side_delegatedEntry ..⟩
  · exact takeTrap_inDouble hw m pc word t hd
  · rw [takeTrap_double hw m pc word t hd h, wave_supervisorEntry _ _ _ _ _ _ _ _ hw]
    exact ⟨rfl, rfl, rfl, rfl, rfl⟩

end Sys2Proof
end

section
/-! What the return from a handler does (R206): to the wave, to the stream whose trap the handler answered (R338), and to a wave that PREEMPT
had trapped (R493). -/

namespace Sys2Proof.Machine

/-! ## The wave -/

/-- A part behind a return from a handler that a frame was saved for: `home` is where RTE goes, `keep` the wait that a PREEMPT trap withdrew. -/
def Frame.returned (f : Frame) (region : Bool) (home : Word64) (sysc : Bool) (keep : Option (Park × Word64)) (m : Lanes) (p : Part) : Part :=
  let target := if region then f.rpcOf p else home
  if (p.mask &&& m) ≠ 0 then match keep.filter (fun k => k.2 + 12 = target) with
    | some k => { p with rpc := f.rpcOf p, pc := k.2, park := k.1 }
    | none => { p with rpc := (if sysc then target else f.rpcOf p), pc := target, park := .run }
  else { p with rpc := f.rpcOf p }

/-- The return from a supervisor handler. -/
theorem Wave.rte_of_sup {w : Wave} {e : SupEntry} {rest : List SupEntry} (hs : w.sup = e :: rest) (m : Lanes) (region : Bool) :
    w.rte m region = { w with
      rgn := if e.cls == 0 then e.frame.rgn + 1 else e.frame.rgn
      parts := w.parts.map (e.frame.returned region w.sepc (e.cls == 0) e.keep m)
      sup := rest
      handler := e.handler } := by
  have htarget (p : Part) : w.rteTarget region p = if region then e.frame.rpcOf p else w.sepc := by rw [Wave.rteTarget, hs]
  unfold Wave.rte Frame.returned
  simp only [hs, htarget, ne_eq, ite_not] <;> rfl

/-- The return from a user handler. -/
theorem Wave.rte_of_frame {w : Wave} {f : Frame} (hs : w.sup = []) (hf : w.frame = some f) (m : Lanes) (region : Bool) :
    w.rte m region = { w with
      rgn := f.rgn
      parts := w.parts.map (f.returned region w.epc false none m)
      frame := none
      handler := 0
      cause := w.cause &&& 0x7FFFFFFF#32 } := by
  have htarget (p : Part) : w.rteTarget region p = if region then f.rpcOf p else w.epc := by rw [Wave.rteTarget, hs, hf]
  unfold Wave.rte Frame.returned
  simp only [hs, hf, htarget, ne_eq, ite_not] <;> rfl

/-- What a reading of a wave takes from none of the fields a return sets, a return leaves. -/
theorem Wave.rte_read {α : Type} (g : Wave → α)
    (hg : ∀ (w : Wave) rgn ps sup hd fr ca, g { w with rgn := rgn, parts := ps, sup := sup, handler := hd, frame := fr, cause := ca } = g w)
    (w : Wave) (m : Lanes) (region : Bool) : g (w.rte m region) = g w := by
  cases hs : w.sup with
  | cons e rest => rw [Wave.rte_of_sup hs]; exact hg w _ _ _ _ _ _
  | nil =>
    cases hf : w.frame with
    | some f => rw [Wave.rte_of_frame hs hf]; exact hg w _ _ _ _ _ _
    | none => rw [Wave.rte, hs, hf]

/-- A wave whose handler of a class is left, with the step of pre-emption its context is at (R493). -/
def Wave.afterHandler (w : Wave) (step : Nat) (left : Option Nat) : Wave :=
  if left ≠ some 14 then w else { w with life := if step = 2 then .stopped else w.life, preTrap := false }

theorem Wave.afterHandler_read {α : Type} (g : Wave → α) (hg : ∀ (w : Wave) l p, g { w with life := l, preTrap := p } = g w)
    (w : Wave) (step : Nat) (left : Option Nat) : g (w.afterHandler step left) = g w := by
  unfold Wave.afterHandler
  split
  · rfl
  · exact hg w _ _

theorem Wave.afterHandler_life (w : Wave) (step : Nat) (left : Option Nat) :
    (w.afterHandler step left).life = if left = some 14 ∧ step = 2 then .stopped else w.life := by
  unfold Wave.afterHandler
  by_cases hl : left = some 14 <;> simp [hl]

/-- The retirement of an instruction that has set the PCs itself, read but for STALL and YLD. -/
theorem Wave.retired_branch_read {α : Type} (g : Wave → α) (hg : ∀ (w : Wave) st yd, g { w with stall := st, yielded := yd } = g w)
    (clk : Nat) (c : Iss) (h : Hd) (us : List Use) (w : Wave) : g (Wave.retired clk c h { uses := us, branch := true } w) = g w := by
  have e := congrArg g (Wave.retired_branch clk c h us (SameHint.refl w))
  rw [hg] at e
  exact e

/-- Waves whose register files are the same. -/
theorem regsKept_of_files {w u : Wave} (h : (u.v, u.s, u.p, u.a, u.m) = (w.v, w.s, w.p, w.a, w.m)) (act : Lanes) : RegsKept w u act [] := by
  simp only [Prod.mk.injEq] at h
  obtain ⟨hv, hs, hp, ha, hm⟩ := h
  refine ⟨fun k l _ _ => ?_, fun k _ => ?_, fun k l _ => ?_, fun k l _ _ => ?_, fun k _ => ?_⟩
  · simp only [Wave.vRow, hv]
  · simp only [Wave.sReg, hs]
  · simp only [Wave.pReg, hp]
  · simp only [Wave.aRow, ha]
  · simp only [Wave.mReg, hm]

/-! ## The stream and the device -/

/-- A block that has a trap of its stream is resident. -/
theorem Run.get_block_of_strap {r : Run} {n : Nat} {t : StreamTrap} (h : (r.block n).strap = some t) :
    r.blocks.get? n = some (r.block n) := by
  unfold Run.block at h ⊢
  cases hb : r.blocks.get? n with
  | none => rw [hb] at h; cases h
  | some b => rfl

/-- The stream whose trap a wave's handler answered goes on once the wave is in no handler (R338). -/
def Run.strapAnswered (r : Run) (wid : Nat) : Run :=
  match (r.block (r.wave wid).blk).strap with
  | some t => if t.delivered = some wid && !(r.wave wid).inh && !(r.wave wid).priv then
      r.onBlock (r.wave wid).blk (fun b => { b with strap := none }) else r
  | none => r

theorem Run.strapAnswered_frame (r : Run) (wid : Nat) : { r.strapAnswered wid with blocks := r.blocks } = r := by
  unfold Run.strapAnswered
  split
  · split <;> rfl
  · rfl

theorem Wave.priv_eq_false {w : Wave} : w.priv = false ↔ w.sup = [] := by simp [Wave.priv]

theorem Run.block_strapAnswered {r : Run} {wid : Nat} {w : Wave} (hw : r.wave wid = w) (n : Nat) : (r.strapAnswered wid).block n =
    if n = w.blk ∧ w.sup = [] ∧ w.inh = false ∧ (r.block n).strap.bind (·.delivered) = some wid
    then { r.block n with strap := none } else r.block n := by
  unfold Run.strapAnswered
  rw [hw]
  cases ht : (r.block w.blk).strap with
  | none =>
    rw [if_neg]
    rintro ⟨rfl, -, -, hd⟩
    rw [ht] at hd
    cases hd
  | some t =>
    have hiff : (decide (t.delivered = some wid) && !w.inh && !w.priv) = true ↔ w.sup = [] ∧ w.inh = false ∧ t.delivered = some wid := by
      simp only [Bool.and_eq_true, decide_eq_true_eq, Bool.not_eq_true', Wave.priv_eq_false]
      exact ⟨fun ⟨⟨hd, hi⟩, hs⟩ => ⟨hs, hi, hd⟩, fun ⟨hs, hi, hd⟩ => ⟨⟨hd, hi⟩, hs⟩⟩
    by_cases hn : n = w.blk
    · subst hn
      simp only [ht, Option.bind_some, true_and, hiff]
      split
      · exact Run.block_onBlock _ _ _ _ (Run.get_block_of_strap ht)
      · rfl
    · rw [if_neg fun h => hn h.1]
      dsimp only
      split
      · exact Run.block_onBlock_of_ne _ _ _ _ hn
      · rfl

theorem Run.strapAnswered_step (r : Run) (wid : Nat) (w : Wave) : ((r.strapAnswered wid).ctxOf w).step = (r.ctxOf w).step := by
  have hb (n : Nat) : ((r.strapAnswered wid).block n).ctx = (r.block n).ctx := by
    rw [Run.block_strapAnswered rfl]
    split <;> rfl
  have hc : (r.strapAnswered wid).ctxs = r.ctxs := by
    have e := congrArg Run.ctxs (r.strapAnswered_frame wid)
    exact e
  rw [Run.ctxOf, Run.ctxOf, hb, Run.ctx, Run.ctx, hc]

theorem Run.strapAnswered_waves (r : Run) (wid : Nat) : (r.strapAnswered wid).waves = r.waves := by
  have e := congrArg Run.waves (r.strapAnswered_frame wid)
  exact e

theorem afterRte_eq (r : Run) (wid : Nat) (left : Option Nat) : afterRte r wid left =
    if left ≠ some 14 then r.strapAnswered wid
    else (r.strapAnswered wid).onWave wid (fun w =>
      { w with life := if ((r.strapAnswered wid).ctxOf w).step = 2 then .stopped else w.life, preTrap := false }) := rfl

theorem afterRte_frame (r : Run) (wid : Nat) (left : Option Nat) :
    { afterRte r wid left with waves := r.waves, blocks := r.blocks } = r := by
  have e := congrArg (fun x : Run => { x with waves := r.waves }) (r.strapAnswered_frame wid)
  rw [afterRte_eq]
  split <;> exact e

/-- What a reading takes from neither waves nor blocks is as before. -/
theorem afterRte_read {α : Type} (g : Run → α) (hg : ∀ (r : Run) ws bs, g { r with waves := ws, blocks := bs } = g r)
    (r : Run) (wid : Nat) (left : Option Nat) : g (afterRte r wid left) = g r := by
  have e := congrArg g (afterRte_frame r wid left)
  rw [hg] at e
  exact e

theorem afterRte_blocks (r : Run) (wid : Nat) (left : Option Nat) : (afterRte r wid left).blocks = (r.strapAnswered wid).blocks := by
  rw [afterRte_eq]
  split <;> rfl

theorem get_afterRte {r : Run} {wid : Nat} {w : Wave} (hw : r.waves.get? wid = some w) (left : Option Nat) :
    (afterRte r wid left).waves.get? wid = some (w.afterHandler (r.ctxOf w).step left) := by
  rw [afterRte_eq, Wave.afterHandler]
  split
  · rw [Run.strapAnswered_waves, hw]
  · rw [Run.get_onWave, if_pos rfl, Run.strapAnswered_waves, hw, Option.map_some, Run.strapAnswered_step]

theorem wave_afterRte_of_ne (r : Run) {wid n : Nat} (hn : n ≠ wid) (left : Option Nat) : (afterRte r wid left).wave n = r.wave n := by
  have hs : (r.strapAnswered wid).wave n = r.wave n := by rw [Run.wave, Run.strapAnswered_waves, Run.wave]
  rw [afterRte_eq]
  split
  · exact hs
  · rw [Run.wave_onWave_of_ne _ _ _ _ hn, hs]

end Sys2Proof.Machine
end

section
/-! TRAP, BRK, SYSC, and the returns from handlers, settled (R204 to R206, R338, R493). -/

namespace Sys2Proof.Machine

/-- An instruction of a wave whose effect is a trap takes it (R188). -/
theorem issue_takesTrap {s : State} {h : Hd} {c : Iss} {k : How} {eff : Sys → Run → Iss → Eff Unit} {t : Trap}
    (hI : Issues s h c k.uses) (hp : k.priv = false) (hw : k.whole = none) (hs : (s.wv c).stream = false)
    (he : eff s.sys s.run c = .trap s.run t) :
    issue s h k eff = .next { s with run := takeTrap s.run c.wid c.m c.pc (s.run.wordOf s.sys c) t } := by
  rw [issue_trap hI (.inl hp) (.inl hw) he, trapAt, if_neg (by rw [hs]; exact Bool.false_ne_true)]

/-- A set of lanes is that of the list of its members, whatever stands beside them. -/
theorem lanesOf_toList (m : Lanes) (f : Nat → Nat) : lanesOf (m.toList.map (fun l => (l, f l))) = m := by
  refine BitVec.eq_of_getLsbD_eq fun l hl => ?_
  rw [lanesOf, getLsbD_ofTest _ _ hl, List.any_map, Bool.eq_iff_iff, List.any_eq_true]
  constructor
  · rintro ⟨k, hk, he⟩
    rw [← show k = l from beq_iff_eq.mp he]
    exact ((mem_toList m k).mp hk).2
  · exact fun hm => ⟨l, (mem_toList m l).mpr ⟨hl, hm⟩, beq_self_eq_true l⟩

/-! ## The effect of RTE -/

section
variable {r : Run} {c : Iss} {w : Wave} (hw : r.wave c.wid = w) (region : Bool) (y : Sys)
include hw

/-- Outside a handler (R206). -/
theorem returnEff_outside (hp : w.priv = false) (hi : w.inh = false) :
    returnEff region y r c = .trap r { cls := 13, sub := 4, mask := c.act } := by
  simp only [returnEff, hw, hp, hi, Bool.not_false, Bool.and_self, if_true]

/-- With a misaligned target in some part of the group (R33). -/
theorem returnEff_misaligned (hin : w.priv = true ∨ w.inh = true)
    (hbad : ∃ p ∈ w.parts, (p.mask &&& c.m) ≠ 0 ∧ (w.rteTarget region p).toNat % 4 ≠ 0) :
    ∃ t : Word64, returnEff region y r c = .trap r (memTrap 1 (c.act.toList.map (fun l => (l, t.toNat)))) := by
  obtain ⟨p, hp, hm, hal⟩ := hbad
  have hin' : (!w.priv && !w.inh) = false := by rcases hin with h | h <;> simp [h]
  obtain ⟨t, ht⟩ : ∃ t, ((w.parts.filter (fun p => (p.mask &&& c.m) ≠ 0)).map (fun p => w.rteTarget region p)).find?
      (fun t => t.toNat % 4 ≠ 0) = some t := by
    refine Option.isSome_iff_exists.mp (List.find?_isSome.mpr ⟨w.rteTarget region p, ?_, by simpa using hal⟩)
    exact List.mem_map_of_mem (List.mem_filter.mpr ⟨hp, by simpa using hm⟩)
  exact ⟨t, by simp only [returnEff, hw, hin', ht, Bool.false_eq_true, if_false]⟩

/-- From a handler, with aligned targets. -/
theorem returnEff_returns (hin : w.priv = true ∨ w.inh = true)
    (hal : ∀ p ∈ w.parts, (p.mask &&& c.m) ≠ 0 → (w.rteTarget region p).toNat % 4 = 0) : returnEff region y r c =
      .ok (afterRte (r.onWave c.wid (fun w => w.rte c.m region)) c.wid (w.sup.head?.map (·.cls))) () := by
  have hin' : (!w.priv && !w.inh) = false := by rcases hin with h | h <;> simp [h]
  have hnone : ((w.parts.filter (fun p => (p.mask &&& c.m) ≠ 0)).map (fun p => w.rteTarget region p)).find?
      (fun t => t.toNat % 4 ≠ 0) = none := by
    refine List.find?_eq_none.mpr fun t ht => ?_
    obtain ⟨p, hp, rfl⟩ := List.mem_map.mp ht
    obtain ⟨hp, hm⟩ := List.mem_filter.mp hp
    simpa using hal p hp (by simpa using hm)
  simp only [returnEff, hw, hin', hnone, Bool.false_eq_true, if_false]

end

/-! ## The return -/

theorem exec_rte (h : Hd) (region : Bool) (s : State) :
    exec (if region then .rteRegion h else .rte h) s = issue s h { branch := true } (returnEff region) := by
  cases region <;> rfl

/-- Leaving a handler changes, outside its wave, whether the stream of the wave's block waits (R338). -/
def ReturnFrame (s t : State) (c : Iss) (u : Wave) : Prop :=
  DeviceKept s (let run := { t.run with blocks := s.run.blocks }
                { t with run := run }) c.wid ∧
  ∀ n, t.run.block n = if n = (s.wv c).blk ∧ u.sup = [] ∧ u.inh = false ∧ (s.run.block n).strap.bind (·.delivered) = some c.wid
    then { s.run.block n with strap := none } else s.run.block n

/-- The return from a handler: the wave that it leaves, and its frame. -/
theorem rte_returns {s : State} {h : Hd} {c : Iss} (hI : Issues s h c []) (region : Bool)
    (hin : (s.wv c).priv = true ∨ (s.wv c).inh = true)
    (hal : ∀ p ∈ (s.wv c).parts, (p.mask &&& c.m) ≠ 0 → ((s.wv c).rteTarget region p).toNat % 4 = 0) :
    Completes (exec (if region then .rteRegion h else .rte h) s) (fun t => ReturnFrame s t c ((s.wv c).rte c.m region) ∧
      t.wv c = Wave.retired s.run.clk c h { branch := true } (((s.wv c).rte c.m region).afterHandler (s.run.ctxOf (s.wv c)).step
        ((s.wv c).sup.head?.map (·.cls)))) := by
  obtain ⟨w, hw, -, hww⟩ := Run.issuer_wave _ _ _ hI.1
  rw [State.wv, hww] at hin hal
  simp only [State.wv, ReturnFrame, hww]
  set r := s.run.onWave c.wid (fun w => w.rte c.m region) with hr
  set left := w.sup.head?.map (·.cls)
  have hget : r.waves.get? c.wid = some (w.rte c.m region) := by rw [hr, Run.get_onWave, if_pos rfl, hw]; rfl
  have hblk : (w.rte c.m region).blk = w.blk := w.rte_read Wave.blk (fun _ _ _ _ _ _ _ => rfl) c.m region
  have hcore (n : Nat) : (afterRte r c.wid left).core n = s.run.core n := afterRte_read (fun x => x.core n) (fun _ _ _ => rfl) r c.wid left
  have hclk : (afterRte r c.wid left).clk = s.run.clk := afterRte_read Run.clk (fun _ _ _ => rfl) r c.wid left
  have hctx : r.ctxOf (w.rte c.m region) = s.run.ctxOf w := by rw [Run.ctxOf, Run.ctxOf, hblk]; rfl
  rw [exec_rte]
  refine ⟨_, issue_ok' (k := { branch := true }) hI (.inl rfl) (.inl rfl) rfl (returnEff_returns hww region s.sys hin hal),
    ⟨⟨rfl, ?_, fun n hn => ?_, fun n => ?_⟩, fun n => ?_⟩, ?_⟩
  · exact retire_frame_with c h { branch := true } (g := fun x => { x with waves := s.run.waves, cores := s.run.cores, blocks := s.run.blocks })
      (afterRte_read (fun x => { x with waves := s.run.waves, cores := s.run.cores, blocks := s.run.blocks }) (fun _ _ _ => rfl) r c.wid left)
      fun _ => rfl
  · exact (Run.wave_retire_of_ne _ c h _ n hn).trans ((wave_afterRte_of_ne r hn left).trans (Run.wave_onWave_of_ne _ _ _ _ hn))
  · have hsame := Run.core_retire_same (afterRte r c.wid left) c h { branch := true } n
    rw [hcore] at hsame
    exact hsame
  · have hb : ((afterRte r c.wid left).retire c h { branch := true }).block n = (r.strapAnswered c.wid).block n := by
      rw [Run.block, Run.retire_blocks, afterRte_blocks, Run.block]
    rw [hb, Run.block_strapAnswered (Run.get_wave hget), hblk]
    rfl
  · rw [Run.wave_retire _ c h _ _ (get_afterRte hget left), hclk, hctx]

/-- What a reading of the wave takes from neither STALL, YLD nor its stopping is that of the return. -/
theorem Wave.retired_return_read {α : Type} (g : Wave → α)
    (hg : ∀ (w : Wave) st yd l p, g { w with stall := st, yielded := yd, life := l, preTrap := p } = g w)
    (clk : Nat) (c : Iss) (h : Hd) (w : Wave) (step : Nat) (left : Option Nat) :
    g (Wave.retired clk c h { branch := true } (w.afterHandler step left)) = g w :=
  (Wave.retired_branch_read g (fun w _ _ => hg w _ _ w.life w.preTrap) clk c h [] _).trans
    (Wave.afterHandler_read g (fun w _ _ => hg w w.stall w.yielded _ _) w step left)

/-- A return writes no register. -/
theorem regsKept_return (clk : Nat) (c : Iss) (h : Hd) (w : Wave) (region : Bool) (step : Nat) (left : Option Nat) : RegsKept w
    (Wave.retired clk c h { branch := true } ((w.rte c.m region).afterHandler step left)) c.act [] :=
  regsKept_of_files ((Wave.retired_return_read (fun u => (u.v, u.s, u.p, u.a, u.m)) (fun _ _ _ _ _ => rfl) clk c h _ step left).trans
    (Wave.rte_read (fun u => (u.v, u.s, u.p, u.a, u.m)) (fun _ _ _ _ _ _ _ => rfl) w c.m region)) c.act

/-- The return by a frame: `z` is what it leaves in the other fields of the wave, `home` and `keep` are where it goes. -/
theorem rte_completes {s : State} {h : Hd} {c : Iss} (hI : Issues s h c []) {region : Bool}
    (hin : (s.wv c).priv = true ∨ (s.wv c).inh = true)
    (hal : ∀ p ∈ (s.wv c).parts, (p.mask &&& c.m) ≠ 0 → ((s.wv c).rteTarget region p).toNat % 4 = 0)
    {f : Frame} {sysc : Bool} {keep : Option (Park × Word64)} {home : Word64} {z : Wave}
    (hz : (s.wv c).rte c.m region = { z with
      rgn := if sysc then f.rgn + 1 else f.rgn
      parts := (s.wv c).parts.map (f.returned region home sysc keep c.m) }) :
    Completes (exec (if region then .rteRegion h else .rte h) s) (fun t => ReturnFrame s t c z ∧
      (t.wv c).sup = z.sup ∧ (t.wv c).inh = z.inh ∧ (t.wv c).rgn = (if sysc then f.rgn + 1 else f.rgn) ∧
      RegsKept (s.wv c) (t.wv c) c.act [] ∧ (t.wv c).parts = (s.wv c).parts.map (f.returned region home sysc keep c.m) ∧
      (t.wv c).handler = z.handler ∧ (t.wv c).frame = z.frame ∧
      (t.wv c).life = if (s.wv c).sup.head?.map (·.cls) = some 14 ∧ (s.run.ctxOf (s.wv c)).step = 2 then .stopped else (s.wv c).life) := by
  refine (rte_returns hI region hin hal).imp fun t ⟨hframe, ht⟩ => ?_
  have hlife : ((s.wv c).rte c.m region).life = (s.wv c).life := Wave.rte_read Wave.life (fun _ _ _ _ _ _ _ => rfl) ..
  have hregs := regsKept_return s.run.clk c h (s.wv c) region (s.run.ctxOf (s.wv c)).step ((s.wv c).sup.head?.map (·.cls))
  rw [← ht] at hregs
  have hstop := (congrArg Wave.life ht).trans (Wave.retired_branch_read Wave.life (fun _ _ _ => rfl) ..)
  rw [Wave.afterHandler_life, hlife] at hstop
  rw [hz] at hframe ht
  have read {α : Type} (g : Wave → α) (hg : ∀ (w : Wave) st yd l p, g { w with stall := st, yielded := yd, life := l, preTrap := p } = g w) :=
    (congrArg g ht).trans (Wave.retired_return_read g hg ..)
  exact ⟨hframe, read Wave.sup fun _ _ _ _ _ => rfl, read Wave.inh fun _ _ _ _ _ => rfl, read Wave.rgn fun _ _ _ _ _ => rfl, hregs,
    read Wave.parts fun _ _ _ _ _ => rfl, read Wave.handler fun _ _ _ _ _ => rfl, read Wave.frame fun _ _ _ _ _ => rfl, hstop⟩

/-- Settles O28: TRAP, BRK and SYSC by their issue, RTE by the cases of its effect and of the frame it returns by. -/
theorem trapInstructions : Obligations.TrapInstructions := by
  unfold Obligations.TrapInstructions
  refine ⟨fun s h c hI hs => ?_, fun s h region c hI => ?_⟩
  · have take {t : Trap} {eff : Sys → Run → Iss → Eff Unit} (he : eff s.sys s.run c = .trap s.run t) :=
      issue_takesTrap (k := {}) hI rfl rfl hs he
    exact ⟨fun n => take rfl, fun n => take rfl, take rfl, take rfl, take rfl, take rfl, fun n => take rfl⟩
  · dsimp only
    refine ⟨fun hp hi => ?_, fun hin hbad => ?_, fun hal => ⟨fun f hp hi hf => ?_, fun e rest hs => ?_⟩⟩
    · rw [Traps, exec_rte]
      exact issue_trap (k := { branch := true }) hI (.inl rfl) (.inl rfl) (returnEff_outside rfl region s.sys hp hi)
    · obtain ⟨t, ht⟩ := returnEff_misaligned rfl region s.sys hin hbad
      refine ⟨memTrap 1 (c.act.toList.map (fun l => (l, t.toNat))), rfl, rfl, lanesOf_toList c.act fun _ => t.toNat, ?_⟩
      rw [Traps, exec_rte]
      exact issue_trap (k := { branch := true }) hI (.inl rfl) (.inl rfl) ht
    · have hs := Wave.priv_eq_false.mp hp
      refine (rte_completes hI (.inr hi) hal (f := f) (sysc := false) (keep := none) (home := (s.wv c).epc)
        (z := { s.wv c with frame := none, handler := 0, cause := (s.wv c).cause &&& 0x7FFFFFFF#32 })
        (Wave.rte_of_frame hs hf c.m region)).imp fun t ⟨⟨hdev, hblocks⟩, hsup, hinh, hrgn, hregs, hparts, hhandler, hframe, hlife⟩ => ?_
      have hleft : ({ s.wv c with cause := (s.wv c).cause &&& 0x7FFFFFFF#32 } : Wave).inh = false := by
        rw [Wave.inh, BitVec.getLsbD_and]; simp
      exact ⟨⟨hdev, fun n => (hblocks n).trans (by rw [← hleft]; rfl), hsup, hinh.trans hleft, hrgn, hregs, hparts⟩, hhandler, hframe,
        hlife.trans (by rw [hs]; rfl)⟩
    · have hp : (s.wv c).priv = true := by rw [Wave.priv, hs]; rfl
      refine (rte_completes hI (.inl hp) hal (f := e.frame) (sysc := e.cls == 0) (keep := e.keep) (home := (s.wv c).sepc)
        (z := { s.wv c with sup := rest, handler := e.handler })
        (Wave.rte_of_sup hs c.m region)).imp fun t ⟨⟨hdev, hblocks⟩, hsup, hinh, hrgn, hregs, hparts, hhandler, hframe, hlife⟩ => ?_
      exact ⟨⟨hdev, hblocks, hsup, hinh, hrgn, hregs, hparts⟩, hhandler, hframe, hlife.trans (by rw [hs]; simp)⟩

end Sys2Proof.Machine
end

section
/-! What FWCALL leaves until its reply, and what a reply, or its absence, does (R539). -/

namespace Sys2Proof.Machine

/-! ## The call -/

/-- The registers that the Inn's reply fills (R539). -/
abbrev fwcallRegs : List RegRef := [⟨false, 120, 0xFFFFFFFF#32⟩, ⟨false, 121, 0xFFFFFFFF#32⟩]

/-- How FWCALL issues. -/
abbrev fwcallHow : How := { priv := true, uses := [⟨0, .s 120, 2, true, false, none⟩, ⟨1, .s 122, 4, false, false, none⟩] }

/-- An instruction of the supervisor outside supervisor state, whatever its guard (R61). -/
theorem issue_unprivileged {s : State} {h : Hd} {c : Iss} {k : How} {eff : Sys → Run → Iss → Eff Unit} (hc : s.run.issuer h = some c)
    (hk : k.priv = true) (hp : (s.wv c).priv = false) :
    issue s h k eff = .next { s with run := trapAt s.sys s.run c { cls := 3, sub := 4, mask := c.m } } := by
  have hp' : (s.run.wave c.wid).priv = false := hp
  simp only [issue, hc, issueOn, hk, hp', Bool.not_false, Bool.and_self, if_true]

/-- An instruction of the supervisor whose effect waits for another step to end it. -/
theorem issue_privWaits {s : State} {h : Hd} {c : Iss} {k : How} {eff : Sys → Run → Iss → Eff Unit} {r : Run} {p : Park}
    (hI : Issues s h c k.uses) (hp : (s.wv c).priv = true) (hw : k.whole = none) (hs : k.switch = false) (hq : ∀ q, p ≠ .retry q)
    (he : eff s.sys s.run c = .park r p) :
    issue s h k eff = .next { s with run := (r.onWave c.wid (fun w => w.park c.m p)).charge c h k } := by
  obtain ⟨hc, ha, hu⟩ := hI
  have hp' : (s.run.wave c.wid).priv = true := hp
  simp only [issue, hc, issueOn, hp', hw, hs, Bool.not_true, Bool.and_false, Option.isSome_none, Bool.false_and, Bool.false_eq_true,
    if_false, ha, hu, he]
  cases p with
  | retry q => exact absurd rfl (hq q)
  | _ => rfl

/-- A wave that has called the Inn. -/
def Wave.fwcalled (w : Wave) (c : Iss) (n : Nat) (args : List Word64) (clk : Nat) : Wave :=
  (w.owe fwcallRegs .local false c.act c.pc).park c.m (.fwcall n args clk)

theorem Wave.fwcalled_read {α : Type} (g : Wave → α) (hg : ∀ (w : Wave) ve se ps pn pt,
      g { w with vEmpty := ve, sEmpty := se, pend := ps, pendNext := pn, parts := pt } = g w)
    (w : Wave) (c : Iss) (n : Nat) (args : List Word64) (clk : Nat) : g (w.fwcalled c n args clk) = g w := by
  obtain ⟨ve, se, ps, h⟩ := w.owe_eq fwcallRegs .local false c.act c.pc
  rw [Wave.fwcalled, h]
  exact hg w _ _ _ _ _

theorem Wave.fwcalled_parts (w : Wave) (c : Iss) (n : Nat) (args : List Word64) (clk : Nat) : (w.fwcalled c n args clk).parts =
    w.parts.map (fun p => if (p.mask &&& c.m) ≠ 0 then { p with park := .fwcall n args clk } else p) := by
  obtain ⟨ve, se, ps, h⟩ := w.owe_eq fwcallRegs .local false c.act c.pc
  rw [Wave.fwcalled, h]
  rfl

theorem Wave.isEmpty_fwcalled (w : Wave) (c : Iss) (n : Nat) (args : List Word64) (clk : Nat) {x : RegRef} (hx : x ∈ fwcallRegs)
    (hv : x.vec = false) (hn : x.n < 128) : (w.fwcalled c n args clk).isEmpty x = true :=
  w.isEmpty_markEmpty hx (fun h => absurd (hv.symm.trans h) Bool.false_ne_true) (fun _ => hn)

/-- FWCALL in supervisor state: the part waits for the Inn. -/
theorem fwcallIssue_waits {s : State} {h : Hd} {c : Iss} (n : Nat) (hp : (s.wv c).priv = true) (hI : Issues s h c fwcallHow.uses) :
    Completes (fwcallIssue h n s) (fun t => DeviceKept s t c.wid ∧ RegsKept (s.wv c) (t.wv c) c.act [] ∧
      (∀ x ∈ fwcallRegs, (t.wv c).isEmpty x = true) ∧ (t.wv c).parts = (s.wv c).parts.map (fun p => if (p.mask &&& c.m) ≠ 0 then
        { p with park := .fwcall n [(s.wv c).sReg 122, (s.wv c).sReg 123, (s.wv c).sReg 124, (s.wv c).sReg 125] s.run.clk } else p)) := by
  obtain ⟨w, hw, -, hww⟩ := Run.issuer_wave _ _ _ hI.1
  set args := (List.range 4).map (fun i => (s.run.wave c.wid).sReg (122 + i))
  have hissue : fwcallIssue h n s =
      .next { s with run := (s.run.onWave c.wid (fun w => w.fwcalled c n args s.run.clk)).charge c h fwcallHow } :=
    (issue_privWaits (k := fwcallHow) hI hp rfl rfl (fun _ => Park.noConfusion) rfl).trans (by rw [Run.onWave_onWave]; rfl)
  -- the charge of a wait is the retirement of an instruction that has set the PCs itself
  refine ⟨_, hissue, deviceKept_onWave (k := { fwcallHow with branch := true }), ?_⟩
  have ht := wave_onWave_retire (h := h) (k := { fwcallHow with branch := true }) (f := fun w => w.fwcalled c n args s.run.clk) hw
  change RegsKept (s.run.wave c.wid) (((s.run.onWave c.wid _).retire c h { fwcallHow with branch := true }).wave c.wid) c.act [] ∧
    (∀ x ∈ fwcallRegs, (((s.run.onWave c.wid _).retire c h { fwcallHow with branch := true }).wave c.wid).isEmpty x = true) ∧
    (((s.run.onWave c.wid _).retire c h { fwcallHow with branch := true }).wave c.wid).parts = (s.run.wave c.wid).parts.map _
  rw [ht, hww]
  have hfiles := w.fwcalled_read (fun u => (u.v, u.s, u.p, u.a, u.m)) (fun _ _ _ _ _ _ => rfl) c n args s.run.clk
  refine ⟨RegsKept.retired (regsKept_of_files hfiles c.act), fun x hx => ?_, ?_⟩
  · have hscalar : x.vec = false ∧ x.n < 128 := by
      rcases List.mem_cons.mp hx with rfl | hx
      · exact ⟨rfl, by decide⟩
      · rw [List.mem_singleton.mp hx]
        exact ⟨rfl, by decide⟩
    rw [Wave.isEmpty_retired]
    exact w.isEmpty_fwcalled c n args _ hx hscalar.1 hscalar.2
  · exact (Wave.retired_branch_read Wave.parts (fun _ _ _ => rfl) s.run.clk c h fwcallHow.uses _).trans (w.fwcalled_parts c n args _)

end Sys2Proof.Machine
end

section
/-! A re-forming of a group (R519) changes no wave but for the notes in monitors of what the engine writes. -/

namespace Sys2Proof.Machine

/-- The waves without their monitors. -/
def Run.unmonitored (r : Run) : Tbl Wave := r.waves.mapAll (fun _ w => { w with mon := none })

/-- Two runs whose waves differ in their monitors alone. -/
def SameButMon (r t : Run) : Prop := t.unmonitored = r.unmonitored

theorem SameButMon.refl (r : Run) : SameButMon r r := rfl

theorem SameButMon.trans {r t u : Run} (h : SameButMon r t) (g : SameButMon t u) : SameButMon r u := Eq.trans g h

theorem SameButMon.of_waves {r t : Run} (h : t.waves = r.waves) : SameButMon r t := by
  unfold SameButMon Run.unmonitored
  rw [h]

/-- Steps that each keep the waves keep them together. -/
theorem SameButMon.foldl {α : Type} {f : Run → α → Run} (h : ∀ r x, SameButMon r (f r x)) (xs : List α) (r : Run) :
    SameButMon r (xs.foldl f r) := by
  induction xs generalizing r with
  | nil => exact .refl r
  | cons x xs ih => exact (h r x).trans (ih _)

theorem SameButMon.get {r t : Run} (h : SameButMon r t) {n : Nat} {w : Wave} (hw : r.waves.get? n = some w) :
    ∃ m, t.waves.get? n = some { w with mon := m } := by
  have e := congrArg (fun x => Tbl.get? x n) h
  simp only [Run.unmonitored, get?_mapAll, hw, Option.map_some] at e
  obtain ⟨u, hu, e⟩ := Option.map_eq_some_iff.mp e
  exact ⟨u.mon, hu.trans (congrArg some (congrArg (fun x : Wave => { x with mon := u.mon }) e))⟩

theorem sameButMon_noteWrite (r : Run) (pa n : Nat) : SameButMon r (noteWrite r pa n) := by
  unfold noteWrite
  dsimp only
  split
  · unfold SameButMon Run.unmonitored Tbl.mapAll
    rw [List.map_map]
    refine List.map_congr_left fun e _ => ?_
    simp only [Function.comp_apply]
    split <;> rfl
  · exact .refl r

theorem sameButMon_storeBytes (r : Run) (pa : Nat) (bs : List Byte) : SameButMon r (storeBytes r pa bs) :=
  sameButMon_noteWrite { r with mem := memPut r.mem pa bs } pa bs.length

theorem markGuest_waves (r : Run) (cid gpa : Nat) : (markGuest r cid gpa).waves = r.waves := by
  unfold markGuest
  split <;> rfl

theorem engineOut_waves (r : Run) (p : Nat) (e : Word64) (line : Nat) (o : Out) : (r.engineOut p e line o).waves = r.waves := by
  unfold Run.engineOut
  split
  · rfl
  · split <;> rfl

theorem sendFlow_waves (r : Run) (p die f : Nat) (ordered : Bool) (ports : List Nat) (q : RemoteReq) :
    (sendFlow r p die f ordered ports q).waves = r.waves := by
  unfold sendFlow
  dsimp only
  split <;> rfl

theorem sameButMon_toMembers (r : Run) (p group : Nat) (q : RemoteReq) : SameButMon r (toMembers r p group q) :=
  .foldl (fun r _ => .of_waves (sendFlow_waves r ..)) _ r

theorem sameButMon_writeHeld (cid : Nat) (pg : List (Nat × Nat × Nat)) (bs : List Byte) (r : Run) (a : Nat) :
    SameButMon r (writeHeld r cid pg a bs).2 := by
  induction bs generalizing r a with
  | nil => exact .refl r
  | cons b t ih =>
    unfold writeHeld
    split
    · exact ih r (a + 1)
    · next pa gpa _ =>
      have hmark : SameButMon r (markGuest r cid gpa) := .of_waves (markGuest_waves r cid gpa)
      dsimp only
      split
      · exact hmark.trans ((SameButMon.of_waves (engineOut_waves ..)).trans (ih _ (a + 1)))
      · exact hmark.trans ((sameButMon_storeBytes ..).trans (ih _ (a + 1)))

theorem sameButMon_spoilRecv (r : Run) (x : Coll) (n : Nat) : SameButMon r (spoilRecv r x n) := by
  refine (SameButMon.of_waves rfl : SameButMon r { r with fresh := r.fresh + n }).trans (.foldl (fun r i => ?_) _ _)
  dsimp only
  split
  · exact sameButMon_writeHeld ..
  · exact .refl r

theorem collEnd_waves (r : Run) (p slot : Nat) (st : Nat × Nat × Nat) : (collEnd r p slot st).waves = r.waves := rfl

theorem sameButMon_collAbort (r : Run) (p slot : Nat) (st : Nat × Nat × Nat) : SameButMon r (collAbort r p slot st) := by
  unfold collAbort
  split
  · exact .refl r
  · dsimp only
    split
    · exact .refl r
    · exact (sameButMon_spoilRecv ..).trans ((SameButMon.of_waves (collEnd_waves _ p slot st)).trans (sameButMon_toMembers ..))

theorem sameButMon_reformHere (r : Run) (p g : Nat) (old : Group) (ms : List Nat) (gen : Nat) :
    SameButMon r (reformHere r p g old ms gen) := by
  refine (SameButMon.foldl (fun r e => ?_) _ r).trans (.of_waves rfl)
  split
  · exact sameButMon_collAbort ..
  · exact .refl r

theorem sameButMon_greform (r : Run) (p g : Nat) (ms : List Nat) : SameButMon r (greform r p g ms).2.2 := by
  unfold greform
  split
  · exact .refl r
  · dsimp only
    split
    · exact .refl r
    · split
      · exact .refl r
      · exact (sameButMon_toMembers ..).trans (sameButMon_reformHere ..)

end Sys2Proof.Machine
end

section
/-! The Inn's reply to FWCALL, and its absence (R539). -/

namespace Sys2Proof.Machine

/-! ## Registers -/

theorem Wave.isEmpty_setS (w : Wave) (n k : Nat) (x : Word64) (m : Lanes) (hk : k < 128) :
    (w.setS n x).isEmpty ⟨false, k, m⟩ = (w.isEmpty ⟨false, k, m⟩ && decide (k ≠ n)) := by
  rw [Wave.isEmpty_of_scalar _ rfl, Wave.isEmpty_of_scalar _ rfl, Wave.setS_sEmpty, BitVec.getLsbD_and, BitVec.getLsbD_not,
    BitVec.getLsbD_shiftLeft, BitVec.getLsbD_one]
  congr 1
  by_cases hn : k = n
  · simp [hn]
  · by_cases hlt : k < n
    · simp [hk, hlt, hn]
    · simp [hk, hn]; omega

/-- The wave when the reply has come. -/
def Wave.replied (w : Wave) (p : Part) (x : FwReply) : Wave :=
  let w := (w.setS 120 (BitVec.ofNat 64 x.status)).setS 121 x.value
  let w := match x.second with | some v => w.setS 122 v | none => w
  w.complete (w.groupOf p) false

theorem Wave.complete_parts (w : Wave) (m : Lanes) : (w.complete m false).parts =
    w.parts.map (fun x => if (x.mask &&& m) ≠ 0 then { x with pc := x.pc + 12, park := .run } else x) := rfl

theorem Wave.isEmpty_complete (w : Wave) (m : Lanes) (x : RegRef) : (w.complete m false).isEmpty x = w.isEmpty x := rfl

section
variable (w : Wave) (p : Part) (x : FwReply)

theorem Wave.replied_parts : (w.replied p x).parts =
    w.parts.map (fun y => if (y.mask &&& w.groupOf p) ≠ 0 then { y with pc := y.pc + 12, park := .run } else y) := by
  unfold Wave.replied
  cases x.second <;> rfl

theorem Wave.isEmpty_replied {y : RegRef} (hy : y ∈ fwcallRegs) : (w.replied p x).isEmpty y = false := by
  have hset (u : Wave) : ((u.setS 120 (BitVec.ofNat 64 x.status)).setS 121 x.value).isEmpty y = false := by
    rcases List.mem_cons.mp hy with rfl | hy
    · rw [Wave.isEmpty_setS _ _ _ _ _ (by decide), Wave.isEmpty_setS _ _ _ _ _ (by decide)]; simp
    · rw [List.mem_singleton.mp hy, Wave.isEmpty_setS _ _ _ _ _ (by decide)]; simp
  have hmore (u : Wave) (v : Word64) (hu : u.isEmpty y = false) : (u.setS 122 v).isEmpty y = false := by
    rcases List.mem_cons.mp hy with rfl | hy
    · rw [Wave.isEmpty_setS _ _ _ _ _ (by decide), hu]; rfl
    · rw [List.mem_singleton.mp hy] at hu ⊢
      rw [Wave.isEmpty_setS _ _ _ _ _ (by decide), hu]; rfl
  unfold Wave.replied
  dsimp only
  rw [Wave.isEmpty_complete]
  cases x.second with
  | none => exact hset w
  | some v => exact hmore _ v (hset w)

theorem Wave.sReg_replied_status : (w.replied p x).sReg 120 = BitVec.ofNat 64 x.status := by
  have e (u : Wave) (m : Lanes) : (u.complete m false).sReg 120 = u.sReg 120 := rfl
  unfold Wave.replied
  cases x.second <;> simp [e]

theorem Wave.sReg_replied_value : (w.replied p x).sReg 121 = x.value := by
  have e (u : Wave) (m : Lanes) : (u.complete m false).sReg 121 = u.sReg 121 := rfl
  unfold Wave.replied
  cases x.second <;> simp [e]

theorem Wave.sReg_replied_second {v : Word64} (hv : x.second = some v) : (w.replied p x).sReg 122 = v := by
  have e (u : Wave) (m : Lanes) : (u.complete m false).sReg 122 = u.sReg 122 := rfl
  unfold Wave.replied
  simp [hv, e]

end

/-! ## The arrival of the reply -/

theorem Wave.setPend_none (w : Wave) (k : Nat) : w.setPend k none = { w with pend := w.pend.filter (fun x => x.id ≠ k) } := by
  unfold Wave.setPend
  rw [← List.filterMap_eq_filter]
  congr 2
  funext x
  by_cases hx : x.id = k <;> simp [Option.guard, hx]

/-- The wave once the result that it is owed has arrived. -/
abbrev Wave.arrived (rs : List RegRef) (k : Nat) (w : Wave) : Wave := { w.fill rs with pend := w.pend.filter (fun x => x.id ≠ k) }

/-- The arrival of the result of an FWCALL is the Inn's reply. -/
theorem resultArrive_eq_fwReply {y : Sys} {r : Run} {n k : Nat} {w : Wave} {q : Pend} (hw : r.waves.get? n = some w)
    (hq : w.pend.find? (fun x => x.id = k) = some q) (hfar : q.far = []) (hregs : q.regs = fwcallRegs) (hcall : w.inFwcall.isSome = true) :
    resultArrive y r n k 0 [] = fwReply y (r.onWave n (Wave.arrived q.regs k)) n := by
  have hamong : q.among 0 = [] := by rw [Pend.among, hfar]; rfl
  have hsplit : q.split 0 = (q.regs, none) := by rw [Pend.split, hfar]; rfl
  have hwave : (fun w : Wave => ((w.arrive q (farMask []) []).fill q.regs).setPend k none) = Wave.arrived q.regs k := by
    funext w
    rw [Wave.arrive, if_pos (.inl rfl), Wave.setPend_none, hregs]
    rfl
  have hstill : ((r.onWave n (Wave.arrived q.regs k)).wave n).inFwcall = w.inFwcall := by
    rw [Run.wave_onWave _ _ _ _ hw, Run.get_wave hw, hregs]
    rfl
  have hgo : (q.regs.contains ⟨false, 120, 0xFFFFFFFF#32⟩ && ((r.onWave n (Wave.arrived q.regs k)).wave n).inFwcall.isSome) = true := by
    rw [hstill, hcall, hregs]
    decide
  unfold resultArrive
  rw [Run.get_wave hw, hq]
  dsimp only
  rw [hamong, hsplit]
  dsimp only
  rw [hwave, if_neg fun h => h.1 hfar]
  cases q.kind <;> exact if_pos hgo

/-! ## What the Inn answers -/

theorem fwAnswer_version (y : Sys) (r : Run) (n : Nat) (args : List Word64) :
    fwAnswer y r n 0 args = { status := 0, value := BitVec.ofNat 64 versionWord, run := r } := rfl

theorem fwAnswer_refused {svc : Nat} (hs : 4 ≤ svc) (y : Sys) (r : Run) (n : Nat) (args : List Word64) :
    fwAnswer y r n svc args = refuseCall r 1 := by
  obtain ⟨m, rfl⟩ := Nat.exists_eq_add_of_le' hs
  rfl

theorem fwAnswer_mem {svc : Nat} (hs : svc ≠ 3) (y : Sys) (r : Run) (n : Nat) (args : List Word64) :
    (fwAnswer y r n svc args).run.mem = r.mem := by
  unfold fwAnswer
  dsimp only
  split
  · rfl
  · split <;> rfl
  · rfl
  · exact absurd rfl hs
  · rfl

/-- No answer changes a wave but in its monitor. -/
theorem sameButMon_fwAnswer (y : Sys) (r : Run) (n svc : Nat) (args : List Word64) : SameButMon r (fwAnswer y r n svc args).run := by
  unfold fwAnswer
  dsimp only
  split
  · exact .refl r
  · split <;> exact .of_waves rfl
  · exact .of_waves rfl
  · split
    · exact .of_waves rfl
    · next bs _ =>
      have hreform := sameButMon_greform r (r.partOf n) (args.getD 0 0).toNat (bitmapMembers bs)
      split
      · exact hreform
      · exact hreform.trans (.of_waves rfl)
  · exact .of_waves rfl

/-! ## The reply, and its absence -/

/-- What the reply `x` has made of a run. -/
structure Replied (s t : State) (n : Nat) (w : Wave) (p : Part) (x : FwReply) : Prop where
  sys : t.sys = s.sys
  mem : t.run.mem = x.run.mem
  partitions : t.run.parts = x.run.parts
  filled : ∀ y ∈ fwcallRegs, (t.run.wave n).isEmpty y = false
  parts : (t.run.wave n).parts =
    w.parts.map (fun y => if (y.mask &&& w.groupOf p) ≠ 0 then { y with pc := y.pc + 12, park := .run } else y)
  status : (t.run.wave n).sReg 120 = BitVec.ofNat 64 x.status
  value : (t.run.wave n).sReg 121 = x.value
  second : ∀ v, x.second = some v → (t.run.wave n).sReg 122 = v

/-- The wave when the reply has not come. -/
def Wave.unanswered (p : Part) (w : Wave) : Wave :=
  let w := w.spoil fwcallRegs
  { w with pend := w.pend.filter (fun q => !q.regs.contains ⟨false, 120, 0xFFFFFFFF#32⟩) }.complete (w.groupOf p) false

theorem Wave.spoil_fwcallRegs (w : Wave) : w.spoil fwcallRegs =
    { w with sEmpty := (w.sEmpty &&& ~~~(1#128 <<< 120)) &&& ~~~(1#128 <<< 121)
             sInd := (w.sInd ||| (1#128 <<< 120)) ||| (1#128 <<< 121) } := by
  simp only [Wave.spoil, Wave.fill, List.foldl_cons, List.foldl_nil, Bool.false_eq_true, if_false]

theorem Wave.unanswered_sEmpty (w : Wave) (p : Part) :
    (w.unanswered p).sEmpty = (w.sEmpty &&& ~~~(1#128 <<< 120)) &&& ~~~(1#128 <<< 121) := by
  rw [Wave.unanswered, Wave.spoil_fwcallRegs]
  rfl

theorem Wave.unanswered_sInd (w : Wave) (p : Part) : (w.unanswered p).sInd = (w.sInd ||| (1#128 <<< 120)) ||| (1#128 <<< 121) := by
  rw [Wave.unanswered, Wave.spoil_fwcallRegs]
  rfl

theorem Wave.unanswered_parts (w : Wave) (p : Part) : (w.unanswered p).parts =
    w.parts.map (fun y => if (y.mask &&& w.groupOf p) ≠ 0 then { y with pc := y.pc + 12, park := .run } else y) := by
  rw [Wave.unanswered, Wave.spoil_fwcallRegs]
  rfl

theorem Wave.isInd_of_scalar (w : Wave) {x : RegRef} (hv : x.vec = false) : w.isInd x = w.sInd.getLsbD x.n := by
  rw [Wave.isInd, hv]
  exact if_neg Bool.false_ne_true

theorem Wave.isEmpty_unanswered (w : Wave) (p : Part) {y : RegRef} (hy : y ∈ fwcallRegs) : (w.unanswered p).isEmpty y = false := by
  rcases List.mem_cons.mp hy with rfl | hy
  · rw [Wave.isEmpty_of_scalar _ rfl, Wave.unanswered_sEmpty]; simp
  · rw [List.mem_singleton.mp hy, Wave.isEmpty_of_scalar _ rfl, Wave.unanswered_sEmpty]; simp

theorem Wave.isInd_unanswered (w : Wave) (p : Part) {y : RegRef} (hy : y ∈ fwcallRegs) : (w.unanswered p).isInd y = true := by
  rcases List.mem_cons.mp hy with rfl | hy
  · rw [Wave.isInd_of_scalar _ rfl, Wave.unanswered_sInd]; simp
  · rw [List.mem_singleton.mp hy, Wave.isInd_of_scalar _ rfl, Wave.unanswered_sInd]; simp

theorem Run.blk_onWave {f : Wave → Wave} (hf : ∀ w, (f w).blk = w.blk) (r : Run) (n k : Nat) :
    ((r.onWave n f).wave k).blk = (r.wave k).blk := by
  unfold Run.wave
  rw [Run.get_onWave]
  split
  · next hk =>
    subst hk
    cases r.waves.get? k with
    | none => rfl
    | some w => exact hf w
  · rfl

theorem Run.cidOf_arrived (r : Run) (n k m : Nat) : (r.onWave n (Wave.arrived fwcallRegs k)).cidOf m = r.cidOf m :=
  congrArg (fun b => (r.block b).ctx) (r.blk_onWave (f := Wave.arrived fwcallRegs k) (fun _ => rfl) n m)

theorem Run.partOf_arrived (r : Run) (n k m : Nat) : (r.onWave n (Wave.arrived fwcallRegs k)).partOf m = r.partOf m :=
  congrArg (fun c => (r.ctx c).part) (r.cidOf_arrived n k m)

section
variable {s : State} {n k svc : Nat} {w : Wave} {q : Pend} {p : Part} {args : List Word64} {since : Nat}
  (hw : s.run.waves.get? n = some w) (hcall : w.inFwcall = some (p, svc, args, since))
include hw hcall

/-- The reply has the Inn's answer in the registers, and its part goes on. -/
theorem resultArrival_replies (hq : w.pend.find? (fun x => x.id = k) = some q) (hfar : q.far = [])
    (hdue : ∀ x ∈ w.pend, x.id = k → x.after ≤ s.run.clk) (hregs : q.regs = fwcallRegs) :
    Completes (exec (.resultArrival n k 0 []) s) (fun t =>
      Replied s t n w p (fwAnswer s.sys (s.run.onWave n (Wave.arrived q.regs k)) n svc args)) := by
  set r := s.run.onWave n (Wave.arrived q.regs k) with hr
  set x := fwAnswer s.sys r n svc args with hx
  have hget : r.waves.get? n = some (Wave.arrived q.regs k w) := by rw [hr, Run.get_onWave, if_pos rfl, hw]; rfl
  obtain ⟨m, hu⟩ := (sameButMon_fwAnswer s.sys r n svc args).get hget
  have hstill : (r.wave n).inFwcall = some (p, svc, args, since) := by
    rw [Run.get_wave hget, ← hcall, hregs]
    rfl
  have harrive : exec (.resultArrival n k 0 []) s = .next { s with run := x.run.onWave n (fun w => w.replied p x) } := by
    have hnone : ¬((s.run.wave n).pend.any fun x => x.id = k && decide (s.run.clk < x.after)) = true := by
      rw [Run.get_wave hw, Bool.not_eq_true, List.any_eq_false]
      exact fun x hx => by simpa using hdue x hx
    have hreply : fwReply s.sys r n = x.run.onWave n (fun w => w.replied p x) := by
      rw [fwReply, hstill]
      rfl
    rw [← hreply, hr, ← resultArrive_eq_fwReply hw hq hfar hregs (by rw [hcall]; rfl)]
    exact congrArg (fun r => Host.Outcome.next { s with run := r }) (if_neg hnone)
  have hwave : (x.run.onWave n (fun w => w.replied p x)).wave n = ({ Wave.arrived q.regs k w with mon := m } : Wave).replied p x := by
    rw [Run.wave_onWave _ _ _ _ hu, Run.get_wave hu]
  refine ⟨_, harrive, rfl, rfl, rfl, fun y hy => ?_, ?_, ?_, ?_, fun v hv => ?_⟩
  · rw [hwave]; exact Wave.isEmpty_replied _ p x hy
  · rw [hwave, Wave.replied_parts, hregs]; rfl
  · rw [hwave]; exact Wave.sReg_replied_status _ p x
  · rw [hwave]; exact Wave.sReg_replied_value _ p x
  · rw [hwave]; exact Wave.sReg_replied_second _ p x hv

/-- A reply that does not come leaves its registers indeterminate. -/
theorem fwcallTimeout_spoils : Completes (exec (.fwcallTimeout n) s) (fun t => t.sys = s.sys ∧ t.run.mem = s.run.mem ∧
    (∀ y ∈ fwcallRegs, (t.run.wave n).isEmpty y = false ∧ (t.run.wave n).isInd y = true) ∧ (t.run.wave n).parts =
      w.parts.map (fun y => if (y.mask &&& w.groupOf p) ≠ 0 then { y with pc := y.pc + 12, park := .run } else y)) := by
  have hexec : exec (.fwcallTimeout n) s = .next { s with run := s.run.onWave n (Wave.unanswered p) } := by
    refine congrArg (fun r => Host.Outcome.next { s with run := r }) ?_
    dsimp only
    rw [Run.get_wave hw, hcall]
    rfl
  refine ⟨_, hexec, rfl, rfl, ?_⟩
  rw [Run.wave_onWave _ _ _ _ hw, Run.get_wave hw]
  exact ⟨fun y hy => ⟨w.isEmpty_unanswered p hy, w.isInd_unanswered p hy⟩, w.unanswered_parts p⟩

end

end Sys2Proof.Machine
end

section
/-! What the Inn answers a verifier and the management network (R523, R541, R545, R547), and the settling of the services. -/

namespace Sys2Proof.Machine

/-! ## Capacity words (R545) -/

theorem presentBits_succ (gone : List Nat) (lo n : Nat) : presentBits gone lo (n + 1) =
    if gone.contains (lo + n) then presentBits gone lo n else presentBits gone lo n + 2 ^ n := by
  rw [presentBits, List.range_succ, List.foldl_append]
  rfl

theorem presentBits_lt (gone : List Nat) (lo n : Nat) : presentBits gone lo n < 2 ^ n := by
  induction n with
  | zero => exact Nat.one_pos
  | succ n ih =>
    rw [presentBits_succ, Nat.pow_succ]
    split <;> omega

theorem testBit_presentBits (gone : List Nat) (lo n k : Nat) :
    (presentBits gone lo n).testBit k = true ↔ k < n ∧ lo + k ∉ gone := by
  induction n with
  | zero => simp [presentBits]
  | succ n ih =>
    have hlt := presentBits_lt gone lo n
    rw [presentBits_succ]
    rcases Nat.lt_trichotomy k n with hk | rfl | hk
    · have hsame : (if gone.contains (lo + n) then presentBits gone lo n else presentBits gone lo n + 2 ^ n).testBit k =
          (presentBits gone lo n).testBit k := by
        split
        · rfl
        · rw [Nat.add_comm, Nat.testBit_two_pow_add_gt hk]
      rw [hsame, ih]
      simp [hk, Nat.lt_succ_of_lt hk]
    · have hclear : (presentBits gone lo k).testBit k = false := Nat.testBit_lt_two_pow hlt
      by_cases hg : lo + k ∈ gone
      · simp [hg, hclear]
      · simp [hg, Nat.add_comm _ (2 ^ k), Nat.testBit_two_pow_add_eq, hclear]
    · have hpow : 2 ^ (n + 1) ≤ 2 ^ k := Nat.pow_le_pow_right (by decide) hk
      have hnew := presentBits_lt gone lo (n + 1)
      rw [presentBits_succ] at hnew
      rw [Nat.testBit_lt_two_pow (Nat.lt_of_lt_of_le hnew hpow)]
      simp; omega

theorem getLsbD_presentBits (gone : List Nat) (lo n : Nat) {k : Nat} (hk : k < 64) :
    (BitVec.ofNat 64 (presentBits gone lo n)).getLsbD k = true ↔ k < n ∧ lo + k ∉ gone := by
  rw [BitVec.getLsbD_ofNat, decide_eq_true hk, Bool.true_and, testBit_presentBits]

theorem Run.mem_goneP (r : Run) (i : Nat) : i ∈ r.goneP ↔ i < 144 ∧ (r.port i).mapped = false := by
  simp [Run.goneP]

theorem Run.capacity_pairs (r : Run) {i : Nat} (hi : i < 16) (h4 : i % 4 < 3) :
    r.capacity i = some (presentBits r.outPairs (i / 4 * 160 + i % 4 * 64) (if i % 4 = 2 then 32 else 64)) := by
  obtain h | h | h : i % 4 = 0 ∨ i % 4 = 1 ∨ i % 4 = 2 := by omega
  all_goals simp [Run.capacity, hi, h]

theorem Run.capacity_slices (r : Run) {i : Nat} (hi : i < 16) (h4 : i % 4 = 3) :
    r.capacity i = some (presentBits r.outSlices (i / 4 * 64) 64) := by
  simp [Run.capacity, hi, h4]

theorem Run.capacity_ports (r : Run) {i : Nat} (hlo : 16 ≤ i) (hi : i < 20) :
    r.capacity i = some (presentBits r.goneP ((i - 16) * 36) 36) := by
  rw [Run.capacity, if_neg (Nat.not_lt.mpr hlo), if_pos hi]

/-! ## Answers to requests -/

theorem innAnswer_open {qp : Nat} {y : Sys} (h : y.ready = true ∧ qp ∈ y.innQps) (r : Run) (o : Out) :
    innAnswer qp y r o = r.send o := by
  obtain ⟨hready, hqp⟩ := h
  exact if_pos (by rw [hready, Bool.true_and]; exact List.contains_iff_mem.mpr hqp)

theorem innAnswer_closed {qp : Nat} {y : Sys} (h : ¬(y.ready = true ∧ qp ∈ y.innQps)) (r : Run) (o : Out) : innAnswer qp y r o = r :=
  if_neg fun hc => h (by simpa using hc)

/-- GET_MEASUREMENTS, by whether the index names a stage (R541). -/
theorem exec_getMeasurements (qp index : Nat) (s : State) : exec (.getMeasurements qp index) s =
    let e : Nat × List Nat := if 1 ≤ index ∧ index ≤ s.sys.measured.length then (0x60, [index, s.sys.measured.getD (index - 1) 0])
      else (0x7F, [index])
    .next { s with run := innAnswer qp s.sys s.run (.spdm e.1 e.2) } := by
  have hexec : exec (.getMeasurements qp index) s = .next { s with run :=
      match (if index = 0 then none else s.sys.measured[index - 1]?) with
      | some d => innAnswer qp s.sys s.run (.spdm 0x60 [index, d])
      | none => innAnswer qp s.sys s.run (.spdm 0x7F [index]) } := rfl
  rw [hexec]
  by_cases h0 : index = 0
  · simp [h0]
  · by_cases hle : index ≤ s.sys.measured.length
    · have hlt : index - 1 < s.sys.measured.length := by omega
      simp [h0, hle, Nat.one_le_iff_ne_zero, List.getElem?_eq_getElem hlt]
    · have hnone : s.sys.measured[index - 1]? = none := List.getElem?_eq_none (by omega)
      simp [h0, hle, hnone]

theorem exec_blackBoxRead (qp : Nat) (q : MgmtReq) (s : State) :
    exec (.blackBoxRead qp q) s = .next { s with run := innAnswer qp s.sys s.run (MgmtReq.answer q s.run) } := rfl

/-- The first of a list that a test accepts, by the list's parts. -/
theorem find?_append_cons {α : Type} {f : α → Bool} {pre post : List α} {e : α} (he : f e = true)
    (hpre : ∀ x ∈ pre, f x = false) : (pre ++ e :: post).find? f = some e :=
  List.find?_eq_some_iff_append.mpr ⟨he, pre, post, rfl, fun x hx => by rw [hpre x hx]; rfl⟩

theorem MgmtReq.answer_entry {r : Run} {seq : Nat} {pre post : List BBEntry} {e : BBEntry} (hb : r.bb = pre ++ e :: post)
    (he : e.seq % 4096 = seq % 4096) (hpre : ∀ x ∈ pre, x.seq % 4096 ≠ seq % 4096) :
    MgmtReq.answer (.entry seq) r = .blackBox e.bytes := by
  have hfind : (pre ++ e :: post).find? (fun x => x.seq % 4096 = seq % 4096) = some e :=
    find?_append_cons (decide_eq_true he) fun x hx => decide_eq_false (hpre x hx)
  rw [MgmtReq.answer, hb, hfind]
  rfl

theorem MgmtReq.answer_noEntry {r : Run} {seq : Nat} (h : ∀ x ∈ r.bb, x.seq % 4096 ≠ seq % 4096) :
    MgmtReq.answer (.entry seq) r = .blackBox [] := by
  rw [MgmtReq.answer, List.find?_eq_none.mpr fun x hx => by simpa using h x hx]
  rfl

/-! ## Answers to FWCALL -/

theorem fwAnswer_bbread_eq (y : Sys) (r : Run) (n : Nat) (args : List Word64) : fwAnswer y r n 1 args =
    match r.bb.find? (fun x => x.seq = (args.getD 0 0).toNat && x.part.all (fun q => q = r.partOf n)) with
    | some e => { status := 0, value := BitVec.ofNat 64 (ofLe (e.bytes.take 8))
                  second := some (BitVec.ofNat 64 (ofLe (e.bytes.drop 8))), run := r }
    | none => refuseCall r 2 := rfl

theorem fwAnswer_bbread {r : Run} {n part : Nat} {args : List Word64} {pre post : List BBEntry} {e : BBEntry} (y : Sys)
    (hp : r.partOf n = part) (hb : r.bb = pre ++ e :: post) (he : e.seq = (args.getD 0 0).toNat)
    (hpre : ∀ x ∈ pre, x.seq ≠ (args.getD 0 0).toNat) (hpart : e.part = none ∨ e.part = some part) :
    fwAnswer y r n 1 args = { status := 0, value := BitVec.ofNat 64 (ofLe (e.bytes.take 8))
                              second := some (BitVec.ofNat 64 (ofLe (e.bytes.drop 8))), run := r } := by
  have hfind : r.bb.find? (fun x => x.seq = (args.getD 0 0).toNat && x.part.all (fun q => q = part)) = some e := by
    rw [hb]
    refine find?_append_cons ?_ fun x hx => ?_
    · rcases hpart with h | h <;> simp [he, h]
    · rw [decide_eq_false (hpre x hx), Bool.false_and]
  rw [fwAnswer_bbread_eq, hp, hfind]

theorem fwAnswer_bbread_refused {r : Run} {n part : Nat} {args : List Word64} (y : Sys) (hp : r.partOf n = part)
    (h : ∀ x ∈ r.bb, x.seq = (args.getD 0 0).toNat → ∃ d, x.part = some d ∧ d ≠ part) :
    fwAnswer y r n 1 args = refuseCall r 2 := by
  have hfind : r.bb.find? (fun x => x.seq = (args.getD 0 0).toNat && x.part.all (fun q => q = part)) = none := by
    refine List.find?_eq_none.mpr fun x hx hc => ?_
    obtain ⟨hseq, hall⟩ := (Bool.and_eq_true _ _).mp hc
    obtain ⟨d, hd, hne⟩ := h x hx (of_decide_eq_true hseq)
    rw [hd] at hall
    exact hne (of_decide_eq_true hall)
  rw [fwAnswer_bbread_eq, hp, hfind]

theorem fwAnswer_greform {r : Run} {n part cid : Nat} {args : List Word64} {y : Sys} (hp : r.partOf n = part) (hc : r.cidOf n = cid)
    {bs : List Byte} (hb : r.callBytes y cid (args.getD 1 0).toNat 512 = some bs) {st v : Nat} {t : Run}
    (hg : greform r part (args.getD 0 0).toNat (bitmapMembers bs) = (st, v, t)) :
    fwAnswer y r n 3 args = if st = 0 then { status := 0, value := BitVec.ofNat 64 v, run := t } else refuseCall t st := by
  unfold fwAnswer
  dsimp only
  rw [hp, hc, hb]
  dsimp only
  rw [hg]
  rfl

theorem fwAnswer_greform_refused {r : Run} {n cid : Nat} {args : List Word64} {y : Sys} (hc : r.cidOf n = cid)
    (hb : r.callBytes y cid (args.getD 1 0).toNat 512 = none) : fwAnswer y r n 3 args = refuseCall r 2 := by
  unfold fwAnswer
  dsimp only
  rw [hc, hb]
  rfl

/-! ## The obligation -/

/-- Each FWCALL is the one issue, by the number of its service. -/
theorem exec_fwcall (h : Hd) (n : BitVec 8) (s : State) : ∀ e ∈ [(Instr.fwcallVersion h, 0), (.fwcallBbread h, 1), (.fwcallPwrcap h, 2),
    (.fwcallGreform h, 3), (.fwcallUnassigned h n, n.toNat)], exec e.1 s = fwcallIssue h e.2 s := by
  simp only [List.forall_mem_cons]
  exact ⟨rfl, rfl, rfl, rfl, rfl, List.forall_mem_nil _⟩

/-- Each request of a verifier is one answer (R541). -/
theorem exec_spdm (qp nonce index : Nat) (alg : Bool) (s : State) : ∀ e ∈ [
    (Instr.getVersion qp, 0x04, [0x13]), (.getCapabilities qp, 0x61, [0x84, 0xE1, 0xE3, 0x81, 0x82, 0x83, 0xE0]),
    (.negotiateAlgorithms qp alg, 0x63, [if alg then 1 else 0]), (.getDigests qp, 0x01, [Config.sha (Config.cert s.sys.devId s.sys.alias_)]),
    (.getCertificate qp, 0x02, [Config.cert s.sys.devId s.sys.alias_]), (.challenge qp nonce, 0x03, [Config.sign s.sys.alias_ nonce]),
    (.getMeasurements qp index, if 1 ≤ index ∧ index ≤ s.sys.measured.length then (0x60, [index, s.sys.measured.getD (index - 1) 0])
      else (0x7F, [index]))],
    exec e.1 s = .next { s with run := innAnswer qp s.sys s.run (.spdm e.2.1 e.2.2) } := by
  simp only [List.forall_mem_cons]
  exact ⟨rfl, rfl, rfl, rfl, rfl, rfl, exec_getMeasurements qp index s, List.forall_mem_nil _⟩

/-- The bits of a capacity word (R545). -/
theorem capacity_bits (r : Run) (i : Nat) {k : Nat} (hk : k < 64) :
    (i < 16 → i % 4 < 3 → ((BitVec.ofNat 64 ((r.capacity i).getD 0)).getLsbD k = true ↔
      (i % 4 = 2 → k < 32) ∧ i / 4 * 160 + i % 4 * 64 + k ∉ r.outPairs)) ∧
    (i < 16 → i % 4 = 3 → ((BitVec.ofNat 64 ((r.capacity i).getD 0)).getLsbD k = true ↔ i / 4 * 64 + k ∉ r.outSlices)) ∧
    (16 ≤ i → i < 20 → ((BitVec.ofNat 64 ((r.capacity i).getD 0)).getLsbD k = true ↔
      k < 36 ∧ (r.port ((i - 16) * 36 + k)).mapped = true)) := by
  refine ⟨fun hi h4 => ?_, fun hi h4 => ?_, fun hlo hi => ?_⟩
  · rw [r.capacity_pairs hi h4, Option.getD_some, getLsbD_presentBits _ _ _ hk]
    refine and_congr_left' ?_
    split <;> simp_all
  · rw [r.capacity_slices hi h4, Option.getD_some, getLsbD_presentBits _ _ _ hk]
    exact and_iff_right hk
  · rw [r.capacity_ports hlo hi, Option.getD_some, getLsbD_presentBits _ _ _ hk, r.mem_goneP]
    refine and_congr_right fun hk => ?_
    have hlt : (i - 16) * 36 + k < 144 := by omega
    simp [hlt]

/-- Settles O49: FWCALL by its issue, the replies by the Inn's answer, the messages by whether the Inn answers. -/
theorem services : Obligations.Services := by
  unfold Obligations.Services
  refine ⟨⟨fun s h m c hc => ?_, fun s n k svc w q p args since hw hcall hq hfar hdue hregs => ?_⟩, fun s qp nonce index alg => ?_⟩
  · dsimp only
    intro e he
    refine ⟨fun hp => ?_, fun hp hI => ?_⟩
    · rw [Traps, exec_fwcall h m s e he]
      exact issue_unprivileged hc rfl hp
    · rw [exec_fwcall h m s e he]
      refine (fwcallIssue_waits e.2 hp hI).imp fun t ⟨hdev, hkept, hempty, hparts⟩ => ?_
      exact ⟨hdev, hkept, hempty _ (.head _), hempty _ (.tail _ (.head _)), hparts⟩
  · have hreply := resultArrival_replies hw hcall hq hfar hdue hregs
    have hpart : (s.run.onWave n (Wave.arrived q.regs k)).partOf n = s.run.partOf n := by rw [hregs]; exact s.run.partOf_arrived n k n
    have hcid : (s.run.onWave n (Wave.arrived q.regs k)).cidOf n = s.run.cidOf n := by rw [hregs]; exact s.run.cidOf_arrived n k n
    -- a reply by the answer `x` completes as `on` says, and with what `x` gives
    have answers {x : FwReply} {P : State → Prop} (hx : fwAnswer s.sys (s.run.onWave n (Wave.arrived q.regs k)) n svc args = x)
        (hP : ∀ t, Replied s t n w p x → P t) : Completes (exec (.resultArrival n k 0 []) s) (fun t =>
          (t.sys = s.sys ∧ (svc ≠ 3 → t.run.mem = s.run.mem) ∧ (t.run.wave n).isEmpty ⟨false, 120, 0xFFFFFFFF#32⟩ = false ∧
            (t.run.wave n).isEmpty ⟨false, 121, 0xFFFFFFFF#32⟩ = false ∧ (t.run.wave n).parts =
              w.parts.map (fun x => if (x.mask &&& w.groupOf p) ≠ 0 then { x with pc := x.pc + 12, park := .run } else x)) ∧ P t) := by
      refine hreply.imp fun t ht => ?_
      have hmem (hs : svc ≠ 3) := ht.mem.trans (fwAnswer_mem hs s.sys (s.run.onWave n (Wave.arrived q.regs k)) n args)
      exact ⟨⟨ht.sys, hmem, ht.filled _ (.head _), ht.filled _ (.tail _ (.head _)), ht.parts⟩, hP t (hx ▸ ht)⟩
    refine ⟨?_, ?_, ?_, ?_, ?_, ?_, ?_, ?_⟩
    · rintro rfl
      exact answers (fwAnswer_version ..) fun t ht => ⟨ht.status, ht.value⟩
    · rintro rfl e pre post hb he hpre hown
      exact answers (fwAnswer_bbread s.sys hpart hb he hpre hown) fun t ht => ⟨ht.status, ht.value, ht.second _ rfl⟩
    · rintro rfl hnone
      exact answers (fwAnswer_bbread_refused s.sys hpart hnone) fun t ht => ht.status
    · rintro rfl
      refine answers (x := { status := 0, value := BitVec.ofNat 64 (max 300 (min 2400 (args.getD 0 0).toNat)), run := _ }) rfl
        fun t ht => ?_
      refine ⟨ht.status, ?_, ht.value⟩
      rw [Run.part, ht.partitions, ← Run.part, Run.part_onPart, if_pos hpart.symm]
    · rintro rfl bs st v r' hb hg
      refine answers (fwAnswer_greform hpart hcid hb hg) fun t ht => ?_
      by_cases hst : st = 0
      · rw [if_pos hst] at ht
        exact ⟨ht.status.trans (by rw [hst]), fun _ => ht.value, ht.partitions, ht.mem⟩
      · rw [if_neg hst] at ht
        exact ⟨ht.status, fun h => absurd h hst, ht.partitions, ht.mem⟩
    · rintro rfl hb
      exact answers (fwAnswer_greform_refused hcid hb) fun t ht => ⟨ht.status, ht.mem⟩
    · intro hs
      exact answers (fwAnswer_refused hs ..) fun t ht => ht.status
    · refine (fwcallTimeout_spoils hw hcall).imp fun t ⟨hsys, hmem, hregs, hparts⟩ => ?_
      obtain ⟨hempty0, hind0⟩ := hregs _ (.head _)
      obtain ⟨hempty1, hind1⟩ := hregs _ (.tail _ (.head _))
      exact ⟨⟨hsys, fun _ => hmem, hempty0, hempty1, hparts⟩, hmem, hind0, hind1⟩
  · dsimp only
    refine ⟨fun e he => ⟨fun ho => ?_, fun ho => ?_⟩, fun q ho => ?_, fun seq e pre post hb he hpre ho => ?_, fun seq ho hnone => ?_,
      fun i ho => ⟨BitVec.ofNat 64 ((s.run.capacity i).getD 0), ?_, ?_, fun k hk => capacity_bits s.run i hk⟩⟩
    · rw [exec_spdm qp nonce index alg s e he, innAnswer_open ho]
    · rw [exec_spdm qp nonce index alg s e he, innAnswer_closed ho]
    · rw [exec_blackBoxRead, innAnswer_closed ho]
    · rw [exec_blackBoxRead, innAnswer_open ho, MgmtReq.answer_entry hb he hpre]
    · rw [exec_blackBoxRead, innAnswer_open ho, MgmtReq.answer_noEntry hnone]
    · rw [exec_blackBoxRead, innAnswer_open ho]
      rfl
    · rintro rfl
      rfl

end Sys2Proof.Machine
end

section
/-! The registers that LDS and STS write (R222, R225): the data group, the step of the address register, and what an LDS owes. -/

namespace Sys2Proof.Machine

/-! ## One register write after another -/

theorem Wave.WritesOnly.mono {w u : Wave} {act : Lanes} {ds es : List (Opd × Nat)} (h : ∀ d ∈ ds, d ∈ es) (hw : w.WritesOnly u act ds) :
    w.WritesOnly u act es :=
  ⟨hw.1, hw.2.1.mono h, hw.2.2⟩

theorem Wave.WritesOnly.trans {w u z : Wave} {act : Lanes} {ds : List (Opd × Nat)} (hx : ∀ d ∈ ds, ∀ l, u.vIdx d.1 l = w.vIdx d.1 l)
    (h : w.WritesOnly u act ds) (g : u.WritesOnly z act ds) : w.WritesOnly z act ds :=
  ⟨g.1.trans h.1, h.2.1.trans hx g.2.1, h.2.2.trans g.2.2⟩

/-- The wave with another stall count: all that an access's excess passes change of it. -/
def Wave.withStall (w : Wave) (n : Nat) : Wave := { w with stall := n }

/-- A wait set before the registers are written is no change of theirs. -/
theorem Wave.WritesOnly.of_withStall {w u : Wave} {n : Nat} {act : Lanes} {ds : List (Opd × Nat)} (h : (w.withStall n).WritesOnly u act ds) :
    w.WritesOnly u act ds :=
  Wave.WritesOnly.trans (u := w.withStall n) (fun _ _ _ => rfl) ⟨rfl, RegsKept.refl w act ds, rfl⟩ h

/-! ## The data group -/

/-- The first `n` registers of a group of 32-bit registers, written one after another. -/
def Wave.putParts (w : Wave) (o : Opd) (n : Nat) (act : Lanes) (v : Nat → Nat) : Wave :=
  (List.range n).foldl (fun w i => w.put o i act (fun l => part32 (v l) i)) w

theorem Wave.putParts_succ (w : Wave) (o : Opd) (n : Nat) (act : Lanes) (v : Nat → Nat) :
    w.putParts o (n + 1) act v = (w.putParts o n act v).put o n act (fun l => part32 (v l) n) := by
  rw [Wave.putParts, List.range_succ, List.foldl_append]
  rfl

theorem Wave.putGroup_eq_putParts (w : Wave) {o : Opd} (ho : ∀ n, o ≠ .s n) (len : Nat) (act : Lanes) (v : Nat → Nat) :
    w.putGroup o len act v = w.putParts o len act v := by
  cases o with
  | s n => exact absurd rfl (ho n)
  | _ => rfl

theorem Wave.vIdx_putParts (w : Wave) (o : Opd) (n : Nat) (act : Lanes) (v : Nat → Nat) (l : Nat) :
    (w.putParts o n act v).vIdx o l = w.vIdx o l := by
  induction n with
  | zero => rfl
  | succ n ih => rw [Wave.putParts_succ, Wave.vIdx_put, ih]

theorem Wave.writesOnly_putParts (w : Wave) (o : Opd) {n len : Nat} (hn : n ≤ len) (act : Lanes) (v : Nat → Nat) :
    w.WritesOnly (w.putParts o n act v) act [(o, len)] := by
  induction n with
  | zero => exact ⟨rfl, RegsKept.refl w act _, rfl⟩
  | succ n ih =>
    rw [Wave.putParts_succ]
    refine (ih (by omega)).trans (fun d hd l => ?_) ⟨Wave.put_parts _ _ _ _ _, regsKept_put _ o n len act _ hn, restKept_put _ o n act _⟩
    rw [List.mem_singleton.mp hd]
    exact w.vIdx_putParts o n act v l

/-- Each register of the group takes its part of the value. -/
theorem Wave.lane_putParts (w : Wave) {o : Opd} (ho : Opd.laneReg o = true) {n i : Nat} (hi : i < n) {act : Lanes} (v : Nat → Nat) {l : Nat}
    (hl : l < 32) (ha : act.getLsbD l = true) (hx : 0 ≤ w.vIdx o l) : w.lane (w.putParts o n act v) o i l = part32 (v l) i := by
  induction n with
  | zero => omega
  | succ n ih =>
    have hidx := w.vIdx_putParts o n act v l
    rw [Wave.putParts_succ, ← Wave.lane_congr hidx]
    rcases Nat.lt_succ_iff_lt_or_eq.mp hi with hlt | rfl
    · rw [lane_put_of_ne hlt.ne hl (hidx ▸ hx), Wave.lane_congr hidx]
      exact ih hlt
    · exact lane_put _ o i act _ l hl ha ho

theorem Wave.writesOnly_putGroup (w : Wave) (o : Opd) {len : Nat} (hlen : 0 < len) (act : Lanes) (v : Nat → Nat) :
    w.WritesOnly (w.putGroup o len act v) act [(o, len)] := by
  cases o with
  | s n =>
    refine ⟨rfl, ⟨fun _ _ _ _ => rfl, fun k hk => ?_, fun _ _ _ => rfl, fun _ _ _ _ => rfl, fun _ _ => rfl⟩, rfl⟩
    exact (w.sReg_setS _ _ _).trans (if_neg fun e => hk (.s n, len) (List.mem_singleton.mpr rfl) ⟨0, hlen, e.symm⟩)
  | _ => exact w.writesOnly_putParts _ le_rfl act v

theorem Wave.vIdx_putGroup (w : Wave) (o : Opd) (len : Nat) (act : Lanes) (v : Nat → Nat) (l : Nat) :
    (w.putGroup o len act v).vIdx o l = w.vIdx o l := by
  cases o with
  | s n => rfl
  | _ => exact w.vIdx_putParts _ len act v l

/-! ## The step of an address register (R222) -/

/-- What the step of an address register reads of its wave: the address and modulo registers, and the results in flight over them. -/
def Wave.stepView (w : Wave) : SMap Row × SMap (Word × Word) × List Young := (w.a, w.m, w.young)

/-- The modulo register an operand names; any other operand gives base and length 0. -/
def Wave.modulo (w : Wave) (mo : Opd) : Word × Word := match mo with | .m k => w.mSee k.toNat | _ => (0, 0)

/-- An address behind its step by K, which the wrapping form makes within [base, base + len) where the length is not 0. -/
def Wave.stepped (w : Wave) (m : LdsMod) (k : BitVec 24) (mo : Opd) (a : Word) : Word :=
  let base := w.modulo mo
  if m.form = .wrap ∧ base.2 ≠ 0 then BitVec.ofInt 32 (base.1.toNat + ((a.toNat : Int) + k.toInt - base.1.toNat) % (base.2.toNat : Int))
  else a + k.signExtend 32

theorem Wave.stepAddr_eq (w : Wave) {m : LdsMod} (hf : m.form ≠ .disp) (k : BitVec 24) (mo : Opd) (a : Word) :
    stepAddr m a k (w.modulo mo).1 (w.modulo mo).2 = w.stepped m k mo a := by
  unfold stepAddr Wave.stepped
  cases h : m.form with
  | disp => exact absurd h hf
  | post => simp
  | wrap => by_cases hlen : (w.modulo mo).2 = 0 <;> simp [hlen]

theorem Wave.aSee_congr {w u : Wave} (h : u.stepView = w.stepView) (n : Nat) : u.aSee n = w.aSee n := by
  simp only [Wave.stepView, Prod.mk.injEq] at h
  simp only [Wave.aSee, Wave.seeRow, Wave.aRow, h]

theorem Wave.stepped_congr {w u : Wave} (h : u.stepView = w.stepView) (m : LdsMod) (k : BitVec 24) (mo : Opd) (a : Word) :
    u.stepped m k mo a = w.stepped m k mo a := by
  simp only [Wave.stepView, Prod.mk.injEq] at h
  simp only [Wave.stepped, Wave.modulo, Wave.mSee, Wave.stale?, Wave.mReg, h]

theorem Wave.stepView_put (w : Wave) {o : Opd} (ho : ∀ k, o ≠ .a k) (i : Nat) (act : Lanes) (f : Nat → Word) :
    (w.put o i act f).stepView = w.stepView := by
  cases o with
  | a k => exact absurd rfl (ho k)
  | rel n k =>
    have hrest := foldl_setV_rest act.toList (fun l => (laneIds.map (fun l => (w.vIdx (.rel n k) l + i).toNat)).getD l 0) f w
    have hview := congrArg Wave.stepView hrest
    exact hview
  | _ => rfl

/-- A data group that is no address register leaves what the step reads. -/
theorem Wave.stepView_putGroup (w : Wave) {o : Opd} (ho : ∀ k, o ≠ .a k) (len : Nat) (act : Lanes) (v : Nat → Nat) :
    (w.putGroup o len act v).stepView = w.stepView := by
  have hparts (n : Nat) : (w.putParts o n act v).stepView = w.stepView := by
    induction n with
    | zero => rfl
    | succ n ih => rw [Wave.putParts_succ, Wave.stepView_put _ ho, ih]
  cases o with
  | s n => rfl
  | _ => exact hparts len

/-- The registers that an LDS or STS steps. -/
def stepDest (m : LdsMod) (a : Opd) : List (Opd × Nat) := if m.form = .disp then [] else [(a, 1)]

section
variable (w : Wave) (m : LdsMod) {o : Ops} {an : BitVec 4} (ha : o.a = .a an) (mo : Opd) (act : Lanes)
include ha

theorem Wave.stepA_eq : w.stepA m o mo act =
    if m.form = .disp then w else w.setA an.toNat act (fun l => w.stepped m o.x mo (rowAt (w.aSee an.toNat) l)) := by
  have hmodel : w.stepA m o mo act = if m.form = .disp then w else
      w.setA an.toNat act (fun l => stepAddr m (rowAt (w.aSee an.toNat) l) o.x (w.modulo mo).1 (w.modulo mo).2) := by
    unfold Wave.stepA
    rw [ha]
    cases m.form <;> rfl
  rw [hmodel]
  split
  · rfl
  · next hf => simp only [w.stepAddr_eq hf]

theorem Wave.writesOnly_stepA : w.WritesOnly (w.stepA m o mo act) act (stepDest m o.a) := by
  rw [w.stepA_eq m ha, stepDest, ha]
  split
  · exact ⟨rfl, RegsKept.refl w act [], rfl⟩
  · exact ⟨rfl, regsKept_put w (.a an) 0 1 act _ Nat.one_pos, rfl⟩

/-- In an active lane aN comes to hold its address stepped. -/
theorem Wave.rowAt_stepA (hf : m.form ≠ .disp) {l : Nat} (hl : l < 32) (hm : act.getLsbD l = true) :
    rowAt ((w.stepA m o mo act).aRow an.toNat) l = w.stepped m o.x mo (rowAt (w.aSee an.toNat) l) := by
  rw [w.stepA_eq m ha, if_neg hf, Wave.aRow_setA, if_pos rfl, rowAt_rowMix _ _ _ _ hl, if_pos hm]

/-- No other register is written, so a data group of vector registers reads as before the step. -/
theorem Wave.lane_stepA (u : Wave) {d : Opd} (hd : ∀ k, d ≠ .a k) (i l : Nat) : u.lane (w.stepA m o mo act) d i l = u.lane w d i l := by
  rw [w.stepA_eq m ha]
  split
  · rfl
  · cases d with
    | a k => exact absurd rfl (hd k)
    | _ => rfl

end

/-! ## What an LDS owes (R225, R303) -/

/-- An LDS owes its registers where a lane reads afar, and as an acquire of local words the wave's later accesses wait for its delivery. -/
def Wave.ldsOwes (w : Wave) (far acq : Bool) (rs : List RegRef) (till : Nat) (act : Lanes) (pc : Word64) : Wave :=
  if far then w.owe rs .local acq act pc else if acq then w.acquireUntil till act pc else w

/-- That changes what the wave owes and which registers read empty, and nothing else. -/
theorem Wave.ldsOwes_eq (w : Wave) (far acq : Bool) (rs : List RegRef) (till : Nat) (act : Lanes) (pc : Word64) :
    ∃ ve se ps pn, w.ldsOwes far acq rs till act pc = { w with vEmpty := ve, sEmpty := se, pend := ps, pendNext := pn } := by
  unfold Wave.ldsOwes
  split
  · obtain ⟨ve, se, ps, h⟩ := w.owe_eq rs .local acq act pc
    exact ⟨ve, se, ps, _, h⟩
  · split
    · exact ⟨w.vEmpty, w.sEmpty, _, _, rfl⟩
    · exact ⟨w.vEmpty, w.sEmpty, w.pend, w.pendNext, rfl⟩

theorem Wave.ldsOwes_read {α : Type} (g : Wave → α)
    (hg : ∀ (w : Wave) ve se ps pn, g { w with vEmpty := ve, sEmpty := se, pend := ps, pendNext := pn } = g w)
    (w : Wave) (far acq : Bool) (rs : List RegRef) (till : Nat) (act : Lanes) (pc : Word64) : g (w.ldsOwes far acq rs till act pc) = g w := by
  obtain ⟨ve, se, ps, pn, h⟩ := w.ldsOwes_eq far acq rs till act pc
  rw [h, hg]

/-- The registers written and the rest of the wave stand as they did, but for what it owes. -/
theorem Wave.WritesOnly.ldsOwes {w u : Wave} {act : Lanes} {ds : List (Opd × Nat)} (h : w.WritesOnly u act ds) (far acq : Bool)
    (rs : List RegRef) (till : Nat) (m : Lanes) (pc : Word64) : (u.ldsOwes far acq rs till m pc).parts = w.parts ∧
      RegsKept w (u.ldsOwes far acq rs till m pc) act ds ∧
      RestKept { w with pend := (u.ldsOwes far acq rs till m pc).pend, pendNext := (u.ldsOwes far acq rs till m pc).pendNext }
        (u.ldsOwes far acq rs till m pc) := by
  obtain ⟨hp, hr, hk⟩ := h
  obtain ⟨ve, se, ps, pn, h⟩ := u.ldsOwes_eq far acq rs till m pc
  rw [h]
  have howed := congrArg (fun z : Wave => { z with pend := ps, pendNext := pn }) hk
  exact ⟨hp, hr, howed⟩

end Sys2Proof.Machine
end

section
/-! LDS (R225): the places its lanes read, and what its issue leaves. -/

namespace Sys2Proof.Machine

/-! ## The places of the lanes (R215, R221) -/

/-- Where no lane's address fails, each lane has the places of its address. -/
theorem mem_of_scrAll {r : Run} {c : Iss} {n : Nat} {write : Bool} {xs : List (Nat × Nat)} {ps : List (Nat × List (ScrLoc × Nat))}
    (hok : scrAll r c n write xs = .ok ps) {e : Nat × List (ScrLoc × Nat)} (he : e ∈ ps) :
    ∃ a, (e.1, a) ∈ xs ∧ scrPlaces r c.wid a n write = .ok e.2 := by
  simp only [scrAll] at hok
  split at hok
  · injection hok with hps
    rw [← hps, List.filterMap_map] at he
    obtain ⟨x, hx, hplace⟩ := List.mem_filterMap.mp he
    simp only [Function.comp_apply] at hplace
    split at hplace
    · next p hp =>
      cases hplace
      exact ⟨x.2, hx, hp⟩
    · cases hplace
  · cases hok

theorem laneVal_of_mem {vs : List (Nat × Nat)} {l x : Nat} (hx : (l, x) ∈ vs) (huniq : ∀ y, (l, y) ∈ vs → y = x) : laneVal vs l = x := by
  obtain ⟨e, he⟩ := Option.isSome_iff_exists.mp (List.find?_isSome (p := fun e : Nat × Nat => e.1 == l).mpr ⟨(l, x), hx, beq_self_eq_true l⟩)
  have hlane : e.1 = l := eq_of_beq (List.find?_some (p := fun e : Nat × Nat => e.1 == l) he)
  rw [laneVal, he]
  exact huniq e.2 (hlane ▸ List.mem_of_find?_eq_some he)

/-- So a lane's value is the one at its places. -/
theorem laneVal_of_scrAll {r : Run} {c : Iss} {n : Nat} {write : Bool} {m : Lanes} {f : Nat → Nat} {ps : List (Nat × List (ScrLoc × Nat))}
    (hok : scrAll r c n write (m.toList.map (fun l => (l, f l))) = .ok ps) (g : List (ScrLoc × Nat) → Nat) {l : Nat}
    {p : List (ScrLoc × Nat)} (hp : (l, p) ∈ ps) : laneVal (ps.map (fun e => (e.1, g e.2))) l = g p := by
  have hplace (q : List (ScrLoc × Nat)) (hq : (l, q) ∈ ps) : scrPlaces r c.wid (f l) n write = .ok q := by
    obtain ⟨a, ha, hok⟩ := mem_of_scrAll hok hq
    obtain ⟨k, -, hk⟩ := List.mem_map.mp ha
    cases hk
    exact hok
  refine laneVal_of_mem (List.mem_map.mpr ⟨(l, p), hp, rfl⟩) fun y hy => ?_
  obtain ⟨⟨k, q⟩, hq, he⟩ := List.mem_map.mp hy
  cases he
  exact congrArg g (Except.ok.inj ((hplace q hq).symm.trans (hplace p hp)))

/-! ## Notes of reads and writes, and the wait for bank passes -/

/-- The run with other notes of what the waves have read and written. -/
def Run.withRecent (r : Run) (xs : List Recent) : Run := { r with recent := xs }

theorem Run.readRecent_eq (r : Run) (wid : Nat) (acq : Option Scope) (spc : Option Nat) (addr n : Nat) :
    ∃ xs, r.readRecent wid acq spc addr n = r.withRecent xs := by
  unfold Run.readRecent
  split
  · exact ⟨r.recent, rfl⟩
  · exact ⟨_, rfl⟩

theorem Run.sawPlace_eq (r : Run) (wid : Nat) (acq : Option Scope) (p : ScrLoc × Nat) : ∃ xs, r.sawPlace wid acq p = r.withRecent xs := by
  unfold Run.sawPlace
  split
  · exact r.readRecent_eq _ _ _ _ _
  · exact ⟨r.recent, rfl⟩

/-- Steps that each change the notes alone change the notes alone together. -/
theorem Run.foldl_withRecent {α : Type} {f : Run → α → Run} (hf : ∀ r x, ∃ xs, f r x = r.withRecent xs) (as : List α) (r : Run) :
    ∃ xs, as.foldl f r = r.withRecent xs := by
  induction as generalizing r with
  | nil => exact ⟨r.recent, rfl⟩
  | cons a as ih =>
    obtain ⟨xs, hx⟩ := hf r a
    obtain ⟨ys, hy⟩ := ih (r.withRecent xs)
    exact ⟨ys, by rw [List.foldl_cons, hx, hy]; rfl⟩

/-- A retirement neither reads nor changes the notes. -/
theorem Run.retire_withRecent (r : Run) (xs : List Recent) (c : Iss) (h : Hd) (k : How) :
    (r.withRecent xs).retire c h k = (r.retire c h k).withRecent xs := by
  unfold Run.retire Run.charge
  cases k.branch <;> cases k.closer <;> rfl

/-- The wait for bank passes touches STALL alone (R219). -/
theorem Run.holdPasses_onWave (r : Run) (c : Iss) (h : Hd) (n : Nat) (f : Wave → Wave) :
    ∃ st : Wave → Nat, (r.holdPasses c h n).onWave c.wid f = r.onWave c.wid (fun w => f (w.withStall (st w))) := by
  unfold Run.holdPasses
  split
  · exact ⟨Wave.stall, rfl⟩
  · exact ⟨_, Run.onWave_onWave r c.wid _ f⟩

/-- An access that no earlier access holds back (R302, R303). -/
theorem ordered_eq {s : State} {c : Iss} (hacq : (s.wv c).acquirePending = false) {rel : Bool}
    (hrel : rel = true → (s.wv c).unperformed = false) (k : Sys → Run → Iss → Eff Unit) (y : Sys) :
    ordered rel false k y s.run c = k y s.run c := by
  have hperf : (rel && (s.wv c).unperformed) = false := by
    cases rel with
    | false => rfl
    | true => rw [hrel rfl]; rfl
  unfold ordered
  rw [if_neg (by rw [hacq]; exact Bool.false_ne_true), if_neg (by rw [hperf]; exact Bool.false_ne_true), Bool.and_false,
    if_neg Bool.false_ne_true]

/-! ## The effect -/

/-- The wave once an LDS has loaded its values and stepped its address register. -/
def Wave.loaded (w : Wave) (m : LdsMod) (o : Ops) (act : Lanes) (v : Nat → Nat) : Wave :=
  (w.putGroup o.d (Size.regs m.size) act v).stepA m o o.b act

/-- The wave that an LDS leaves to its retirement. -/
def Wave.ldsDone (w : Wave) (m : LdsMod) (o : Ops) (act : Lanes) (pc : Word64) (v : Nat → Nat) (far : Bool) (till : Nat) : Wave :=
  (w.loaded m o act v).ldsOwes far (Order.isAcq m.ord) (w.refs o.d (Size.regs m.size) act) till act pc

/-- What a lane loads, of the places of all. -/
def Run.loadedVal (r : Run) (core : Nat) (m : LdsMod) (ps : List (Nat × List (ScrLoc × Nat))) (l : Nat) : Nat :=
  extend m.sx (Size.bytes m.size) 32 (laneVal (ps.map (fun p => (p.1, scrValue r core p.2))) l)

theorem ldsEff_eq {m : LdsMod} {o : Ops} {r : Run} {c : Iss} {ps : List (Nat × List (ScrLoc × Nat))}
    (hok : scrAll r c (Size.bytes m.size) false (c.act.toList.map (fun l => (l, r.saddr c o m l))) = .ok ps) (h : Hd) (y : Sys) :
    ∃ (st : Wave → Nat) (far : Bool) (till : Nat) (xs : List Recent), ldsEff h m o y r c = .ok ((r.onWave c.wid (fun w =>
      (w.withStall (st w)).ldsDone m o c.act c.pc (r.loadedVal (coreOf c.wid) m ps) far till)).withRecent xs) () := by
  obtain ⟨xs, hxs⟩ := Run.foldl_withRecent (fun r (p : Nat × List (ScrLoc × Nat)) => Run.foldl_withRecent (fun r x => r.sawPlace_eq c.wid
    (if Order.isAcq m.ord then some m.scope else none) x) p.2 r) ps r
  let as := c.act.toList.map (fun l => (l, r.saddr c o m l))
  let far := as.any (fun x => !(r.withRecent xs).scrNear c.wid x.2)
  let k := excessPasses (r.withRecent xs) c.wid (Size.bytes m.size) as ps
  obtain ⟨st, hst⟩ := (r.withRecent xs).holdPasses_onWave c h k
    (fun w => w.ldsDone m o c.act c.pc (r.loadedVal (coreOf c.wid) m ps) far (r.clk + 24 + k))
  refine ⟨st, far, r.clk + 24 + k, xs, ?_⟩
  simp only [ldsEff, hok, hxs]
  exact congrArg (fun r => Eff.ok r ()) hst

section
variable (w : Wave) (m : LdsMod) {o : Ops} {an : BitVec 4} (ha : o.a = .a an) (act : Lanes) (v : Nat → Nat)
include ha

theorem Wave.writesOnly_loaded : w.WritesOnly (w.loaded m o act v) act ((o.d, Size.regs m.size) :: stepDest m o.a) := by
  have hlen : 0 < Size.regs m.size := by cases m.size <;> decide
  have hgroup := w.writesOnly_putGroup o.d hlen act v
  have hstep := (w.putGroup o.d (Size.regs m.size) act v).writesOnly_stepA m ha o.b act
  refine (hgroup.mono (by simp)).trans (fun d hd l => ?_) (hstep.mono fun d => List.mem_cons_of_mem _)
  rcases List.mem_cons.mp hd with rfl | hd
  · exact w.vIdx_putGroup o.d _ act v l
  · have hda : d.1 = .a an := by
      unfold stepDest at hd
      split at hd
      · cases hd
      · rw [List.mem_singleton.mp hd, ha]
    rw [hda]
    rfl

section
variable (hd : ∀ k, o.d ≠ .a k) {l : Nat} (hl : l < 32) (hm : act.getLsbD l = true)
include hd hl hm

/-- The registers of D take the value loaded. -/
theorem Wave.lane_loaded (ho : Opd.laneReg o.d = true) (hx : 0 ≤ w.vIdx o.d l) {i : Nat} (hi : i < Size.regs m.size) :
    w.lane (w.loaded m o act v) o.d i l = part32 (v l) i := by
  have hs : ∀ n, o.d ≠ .s n := fun n e => by rw [e] at ho; cases ho
  rw [Wave.loaded, Wave.lane_stepA _ m ha o.b act w hd, Wave.putGroup_eq_putParts _ hs]
  exact w.lane_putParts ho hi v hl hm hx

/-- The address is stepped from what it was, D being no address register. -/
theorem Wave.rowAt_loaded (hf : m.form ≠ .disp) :
    rowAt ((w.loaded m o act v).aRow an.toNat) l = w.stepped m o.x o.b (rowAt (w.aSee an.toNat) l) := by
  have hview := w.stepView_putGroup hd (Size.regs m.size) act v
  rw [Wave.loaded, Wave.rowAt_stepA _ m ha o.b act hf hl hm, Wave.stepped_congr hview, Wave.aSee_congr hview]

end

end

/-! ## The issue -/

theorem Run.retire_recent (r : Run) (c : Iss) (h : Hd) (k : How) : (r.retire c h k).recent = r.recent := by
  have e := congrArg Run.recent (Run.retire_frame r c h k)
  exact e

theorem State.butNotes_withRecent {s : State} {r : Run} (h : r.recent = s.run.recent) (xs : List Recent) :
    State.butNotes { s with run := r.withRecent xs } s = { s with run := r } := by
  rw [State.butNotes, ← h]
  rfl

/-- The issue of an instruction that changes its wave, and notes what it has read. -/
theorem issue_noted {s : State} {h : Hd} {c : Iss} {us : List Use} {eff : Sys → Run → Iss → Eff Unit} {f : Wave → Wave} {xs : List Recent}
    {ds : List (Opd × Nat)} {w : Wave} (hI : Issues s h c us)
    (he : eff s.sys s.run c = .ok ((s.run.onWave c.wid f).withRecent xs) ())
    (hp : (f (s.wv c)).parts = (s.wv c).parts) (hr : RegsKept (s.wv c) (f (s.wv c)) c.act ds) (hk : RestKept w (f (s.wv c))) :
    Completes (issue s h { uses := us, mem := true } eff) (fun t => RegFrameBut s (t.butNotes s) c ds w ∧ MovedOn s t c ∧
      t.wv c = Wave.retired s.run.clk c h { uses := us, mem := true } (f (s.wv c))) := by
  obtain ⟨u, hu, -, huw⟩ := Run.issuer_wave _ _ _ hI.1
  have hwv : s.wv c = u := huw
  have hwave : ((s.run.onWave c.wid f).retire c h { uses := us, mem := true }).wave c.wid =
      Wave.retired s.run.clk c h { uses := us, mem := true } (f (s.wv c)) := by
    rw [hwv]
    exact wave_onWave_retire hu
  refine ⟨_, issue_ok' (k := { uses := us, mem := true }) hI (.inl rfl) (.inl rfl) rfl he, ?_⟩
  rw [Run.retire_withRecent]
  beta_reduce
  rw [State.butNotes_withRecent (Run.retire_recent (s.run.onWave c.wid f) c h { uses := us, mem := true })]
  obtain ⟨hframe, hmoved⟩ := regFrameBut_of_written rfl rfl deviceKept_onWave hwave hp hr hk
  exact ⟨hframe, hmoved, hwave⟩

/-- LDS (R222, R225): where D is no address register, as R224 has it, an active lane's registers of D take the words at its places and aN
is stepped in the active lanes. -/
theorem lds_completes {s : State} {h : Hd} {m : LdsMod} {o : Ops} {c : Iss} {ps : List (Nat × List (ScrLoc × Nat))} {an : BitVec 4}
    (hI : Issues s h c [⟨0, o.d, Size.regs m.size, true, false, none⟩]) (hacq : (s.wv c).acquirePending = false) (ha : o.a = .a an)
    (hok : scrAll s.run c (Size.bytes m.size) false (c.act.toList.map (fun l => (l, s.run.saddr c o m l))) = .ok ps)
    (hd : ∀ k, o.d ≠ .a k) : Completes (exec (.lds h m o) s) (fun t =>
      RegFrameBut s (t.butNotes s) c ((o.d, Size.regs m.size) :: stepDest m o.a)
        { s.wv c with pend := (t.wv c).pend, pendNext := (t.wv c).pendNext } ∧ MovedOn s t c ∧
      (∀ l p, (l, p) ∈ ps → Opd.laneReg o.d = true → l < 32 → c.act.getLsbD l = true → ∀ i, i < Size.regs m.size →
        (s.wv c).lane (t.wv c) o.d i l = part32 (extend m.sx (Size.bytes m.size) 32 (scrValue s.run (coreOf c.wid) p)) i) ∧
      (m.form ≠ .disp → ∀ l, l < 32 → c.act.getLsbD l = true →
        (s.wv c).lane (t.wv c) o.a 0 l = (s.wv c).stepped m o.x o.b (s.src c o.a l))) := by
  obtain ⟨st, far, till, xs, heff⟩ := ldsEff_eq hok h s.sys
  set v := s.run.loadedVal (coreOf c.wid) m ps with hv
  set w := (s.wv c).withStall (st (s.wv c))
  have hrun := (ordered_eq hacq (fun e => absurd e Bool.false_ne_true) (ldsEff h m o) s.sys).trans heff
  obtain ⟨hp, hr, hk⟩ := (w.writesOnly_loaded m ha c.act v).of_withStall.ldsOwes far (Order.isAcq m.ord)
    (w.refs o.d (Size.regs m.size) c.act) till c.act c.pc
  refine (issue_noted hI hrun hp hr hk).imp fun t ⟨hframe, hmoved, ht⟩ => ?_
  have howed : (t.wv c).pend = (w.ldsDone m o c.act c.pc v far till).pend ∧
      (t.wv c).pendNext = (w.ldsDone m o c.act c.pc v far till).pendNext := by
    rw [ht]
    exact ⟨Wave.retired_pend _ _ _ _ _, Wave.retired_read Wave.pendNext (fun _ _ _ _ _ => rfl) _ _ _ _ _⟩
  rw [howed.1, howed.2]
  refine ⟨hframe, hmoved, fun l p hlp ho hl hm i hi => ?_, fun hf l hl hm => ?_⟩
  · have hin : 0 ≤ w.vIdx o.d l := vIdx_nonneg_of_bad (u := ⟨0, o.d, Size.regs m.size, true, false, none⟩) (Nat.zero_lt_of_lt hi)
      (bad_eq_none_of_checkUses hI.2.2 (List.mem_singleton.mpr rfl) rfl hl hm)
    have hval : v l = extend m.sx (Size.bytes m.size) 32 (scrValue s.run (coreOf c.wid) p) := by
      rw [hv, Run.loadedVal, laneVal_of_scrAll hok _ hlp]
    rw [ht, Wave.lane_retired]
    refine (Wave.ldsOwes_read (fun u => (s.wv c).lane u o.d i l) (fun u _ _ _ _ => by cases o.d <;> rfl) _ _ _ _ _ _ _).trans ?_
    rw [Wave.lane_congr (w := w) (u := s.wv c) rfl, w.lane_loaded m ha c.act v hd hl hm ho hin hi, hval]
  · rw [ht, Wave.lane_retired, ha, State.src]
    refine (Wave.ldsOwes_read (fun u => (s.wv c).lane u (.a an) 0 l) (fun _ _ _ _ _ => rfl) _ _ _ _ _ _ _).trans ?_
    exact w.rowAt_loaded m ha c.act v hd hl hm hf

end Sys2Proof.Machine
end

section
/-! A store that performs at a bank (R226, R231): the bytes it writes, and what the waves that a change of phase releases keep. -/

namespace Sys2Proof.Machine

/-! ## Bytes -/

/-- Every byte after a number is written little-endian. -/
theorem memGet_memWrite (m : SMap Byte) (a v n k : Nat) :
    memGet (memWrite m a v n) k = if a ≤ k ∧ k < a + n then BitVec.ofNat 8 (v / 256 ^ (k - a)) else memGet m k := by
  induction n generalizing m a v with
  | zero => rw [if_neg (by omega)]; rfl
  | succ n ih =>
    rw [memWrite, ih, memGet_memSet]
    by_cases hk : k = a
    · subst hk
      rw [if_neg (by omega), if_pos rfl, if_pos (by omega), Nat.sub_self, pow_zero, Nat.div_one]
    · by_cases hin : a + 1 ≤ k ∧ k < a + 1 + n
      · rw [if_pos hin, if_pos (by omega), Nat.div_div_eq_div_mul, ← pow_succ', Nat.sub_add_eq, Nat.sub_add_cancel (by omega)]
      · rw [if_neg hin, if_neg hk, if_neg (by omega)]

/-- The byte at a place of a block's scratchpad. -/
def Run.scrByte (r : Run) (b a : Nat) : Byte := memGet (r.block b).scratch a

theorem Run.scrByte_congr {r t : Run} (h : t.blocks = r.blocks) (b a : Nat) : t.scrByte b a = r.scrByte b a := by
  rw [Run.scrByte, Run.scrByte, Run.block, Run.block, h]

theorem isSome_scrWrite (r : Run) (b a v n k : Nat) : ((scrWrite r b a v n).blocks.get? k).isSome = (r.blocks.get? k).isSome := by
  rw [scrWrite, Run.onBlock_blocks, Tbl.get?_upd]
  split
  · next hk => rw [Option.isSome_map, hk]
  · rfl

theorem scrByte_scrWrite_of_out {r : Run} {b a v n : Nat} {b' a' : Nat} (h : b' = b → a' < a ∨ a + n ≤ a') :
    (scrWrite r b a v n).scrByte b' a' = r.scrByte b' a' := by
  rw [Run.scrByte, Run.scrByte, scrWrite]
  by_cases hb : b' = b
  · subst hb
    cases hx : r.blocks.get? b' with
    | none => simp [Run.block, hx]
    | some x => rw [Run.block_onBlock _ _ _ _ hx, memGet_memWrite_of_out _ _ _ _ _ (h rfl)]
  · rw [Run.block_onBlock_of_ne _ _ _ _ hb]

theorem scrByte_scrWrite_of_in {r : Run} {b a v n : Nat} {a' : Nat} (hb : (r.blocks.get? b).isSome = true) (h : a ≤ a' ∧ a' < a + n) :
    (scrWrite r b a v n).scrByte b a' = BitVec.ofNat 8 (v / 256 ^ (a' - a)) := by
  obtain ⟨x, hx⟩ := Option.isSome_iff_exists.mp hb
  rw [Run.scrByte, scrWrite, Run.block_onBlock _ _ _ _ hx, memGet_memWrite, if_pos h]

/-! ## Releases at a barrier word -/

/-- What stores that perform in scratchpads can change: the blocks, where waves stand and what they have read, the cores' trackers, and the
saved waves of contexts; what the step of an address register reads of a wave stays. -/
structure Run.Performs (r t : Run) : Prop where
  outside : { t with waves := r.waves, cores := r.cores, blocks := r.blocks, ctxs := r.ctxs, recent := r.recent } = r
  view : ∀ n, (t.waves.get? n).map Wave.stepView = (r.waves.get? n).map Wave.stepView

theorem Run.Performs.refl (r : Run) : r.Performs r := ⟨rfl, fun _ => rfl⟩

theorem Run.Performs.trans {r t u : Run} (h : r.Performs t) (g : t.Performs u) : r.Performs u where
  outside := by
    have e := congrArg (fun x : Run =>
      { x with waves := r.waves, cores := r.cores, blocks := r.blocks, ctxs := r.ctxs, recent := r.recent }) g.outside
    exact e.trans h.outside
  view n := (g.view n).trans (h.view n)

theorem Run.Performs.foldl {α : Type} {f : Run → α → Run} (hf : ∀ (r : Run) x, r.Performs (f r x)) (as : List α) (r : Run) :
    r.Performs (as.foldl f r) := by
  induction as generalizing r with
  | nil => exact .refl r
  | cons a as ih => exact (hf r a).trans (ih _)

/-- What each step keeps, steps keep together. -/
theorem Run.foldl_keeps {α β : Type} (g : Run → β) {f : Run → α → Run} (hf : ∀ r x, g (f r x) = g r) (as : List α) (r : Run) :
    g (as.foldl f r) = g r := by
  induction as generalizing r with
  | nil => rfl
  | cons a as ih => exact (ih _).trans (hf r a)

theorem Wave.stepView_complete (w : Wave) (m : Lanes) (closer : Bool) : (w.complete m closer).stepView = w.stepView := by
  cases closer <;> rfl

theorem Wave.stepView_finishParks (w : Wave) (f : Park → Bool) (closer : Bool) : (w.finishParks f closer).stepView = w.stepView := by
  unfold Wave.finishParks
  dsimp only
  split
  · rfl
  · exact w.stepView_complete _ _

theorem Wave.stepView_setP (w : Wave) (n : Nat) (m : Lanes) (f : Nat → Bool) : (w.setP n m f).stepView = w.stepView := by
  unfold Wave.setP
  split <;> rfl

theorem Wave.stepView_barResult (w : Wave) (loc : BarLoc) (ph x : Bool) : (w.barResult loc ph x).stepView = w.stepView := by
  unfold Wave.barResult
  split
  · exact w.stepView_setP _ _ _
  · rfl

theorem Run.barRecent_eq (r : Run) (loc : BarLoc) (ws : List Nat) : ∃ xs, r.barRecent loc ws = r.withRecent xs :=
  Run.foldl_withRecent (fun r n => r.readRecent_eq n (some .dev) (some loc.blk) loc.addr 4) ws r

/-- A release moves waves on, writes their predicates and ends their interrupted waits (R230 to R232). -/
theorem performs_wakeBar (r : Run) (loc : BarLoc) (ph : Bool) (win : Option Nat) : r.Performs (wakeBar r loc ph win) := by
  obtain ⟨xs, hxs⟩ := r.barRecent_eq loc (r.barWaiters loc ph)
  unfold wakeBar
  rw [hxs]
  refine ⟨rfl, fun n => ?_⟩
  simp only [Run.onAnyWave, get?_mapAll, Option.map_map]
  refine congrArg (fun f => (r.waves.get? n).map f) (funext fun w => ?_)
  simp only [Function.comp_apply, Wave.stepView_finishParks]
  exact w.stepView_barResult loc ph _

theorem wakeBar_blocks (r : Run) (loc : BarLoc) (ph : Bool) (win : Option Nat) : (wakeBar r loc ph win).blocks = r.blocks := by
  obtain ⟨xs, hxs⟩ := r.barRecent_eq loc (r.barWaiters loc ph)
  unfold wakeBar
  rw [hxs]
  rfl

/-! ## The store -/

theorem performs_scrStore (r : Run) (b a v n : Nat) : r.Performs (scrStore r b a v n) := by
  have hwrite : r.Performs (scrWrite r b a v n) := ⟨rfl, fun _ => rfl⟩
  refine hwrite.trans (Run.Performs.foldl (fun r' l => ?_) _ _)
  dsimp only
  split
  · exact .refl r'
  · have hfree : r'.Performs (freeTracker r' l) := ⟨rfl, fun _ => rfl⟩
    exact hfree.trans (performs_wakeBar _ l _ none)

/-- The blocks are as the store's own bytes leave them, whatever it wakes. -/
theorem scrStore_blocks (r : Run) (b a v n : Nat) : (scrStore r b a v n).blocks = (scrWrite r b a v n).blocks := by
  refine Run.foldl_keeps Run.blocks (fun r' l => ?_) _ _
  dsimp only
  split
  · rfl
  · exact wakeBar_blocks _ l _ none

/-- Where no word stored to is watched, the store writes its bytes and does no more. -/
theorem scrStore_of_unwatched {r : Run} {b a n : Nat} (h : r.watchedWords b a n = []) (v : Nat) : scrStore r b a v n = scrWrite r b a v n := by
  rw [scrStore, h]
  rfl

end Sys2Proof.Machine
end

section
/-! The words of an STS (R226, R227): the blocks they lie in, the order they perform in, and the bytes they leave. -/

namespace Sys2Proof.Machine

/-! ## Places lie in blocks that are there (R215) -/

theorem Run.get_block_of_size {r : Run} {b : Nat} (h : 0 < (r.block b).size) : (r.blocks.get? b).isSome = true := by
  cases hb : r.blocks.get? b with
  | none => simp [Run.block, hb] at h
  | some x => rfl

/-- A resolved place, if it is one of a block, is of a block that is there. -/
def Run.Lies (r : Run) (x : Except Nat ScrLoc) : Prop := ∀ b a, x = .ok (.blk b a) → (r.blocks.get? b).isSome = true

theorem Run.Lies.error (r : Run) (e : Nat) : r.Lies (.error e) := fun _ _ h => by cases h
theorem Run.Lies.side (r : Run) (i off : Nat) : r.Lies (.ok (.side i off)) := fun _ _ h => by cases h

theorem Run.Lies.ite {r : Run} {p : Prop} [Decidable p] {x y : Except Nat ScrLoc} (hx : r.Lies x) (hy : r.Lies y) :
    r.Lies (if p then x else y) := by
  split
  · exact hx
  · exact hy

/-- The byte of a block, plain or skewed, that a window names. -/
def Run.placeIn (r : Run) (skew : Bool) (tiles : List (Nat × Nat × Nat)) (nb : Option Nat) (off : Nat) : Except Nat ScrLoc :=
  match nb with
  | none => .error 0x34
  | some n =>
    if (r.block n).size ≤ off then .error 0x31
    else if skew then (match unskew tiles off with | none => .error 0x33 | some p => .ok (.blk n p))
    else .ok (.blk n off)

theorem Run.lies_placeIn (r : Run) (skew : Bool) (tiles : List (Nat × Nat × Nat)) (nb : Option Nat) (off : Nat) :
    r.Lies (r.placeIn skew tiles nb off) := by
  cases nb with
  | none => exact .error r _
  | some n =>
    unfold Run.placeIn
    dsimp only
    split
    · exact .error r _
    · next hsize =>
      have hin (a : Nat) : r.Lies (.ok (.blk n a)) := fun b a h => by
        cases h
        exact Run.get_block_of_size (Nat.zero_lt_of_lt (Nat.not_le.mp hsize))
      refine .ite ?_ (hin off)
      split
      · exact .error r _
      · exact hin _

theorem lies_scrResolve (r : Run) (bid core slot : Nat) (priv : Bool) (addr size : Nat) (write : Bool) :
    r.Lies (scrResolve r bid core slot priv addr size write) := by
  unfold scrResolve
  set skew := addr / 2 ^ 30 % 2 == 1
  set tiles := skewTiles (r.launch (r.block bid).launch).info.scratch
  have hnamed (nb : Option Nat) (off : Nat) := r.lies_placeIn skew tiles nb off
  exact .ite (.error r _) <| .ite (hnamed (some bid) _) <| .ite (.ite (.error r _) <| .ite (hnamed (some bid) _) (hnamed (r.nbhBlock _ _) _)) <|
    .ite (.ite (.error r _) (hnamed (r.clusterBlock _ _) _)) <| .ite (.ite (.error r _) <| .ite (.error r _) (.side r _ _)) (.error r _)

/-- Each element of the result of a fallible map is that of some element. -/
theorem exists_of_mem_mapM {ε α β : Type} {f : α → Except ε β} {xs : List α} {ys : List β} (h : xs.mapM f = .ok ys) {y : β} (hy : y ∈ ys) :
    ∃ x ∈ xs, f x = .ok y := by
  induction xs generalizing ys with
  | nil =>
    cases h
    cases hy
  | cons x xs ih =>
    rw [List.mapM_cons] at h
    cases hx : f x with
    | error e => rw [hx] at h; cases h
    | ok z =>
      cases hxs : xs.mapM f with
      | error e => rw [hx, hxs] at h; cases h
      | ok zs =>
        rw [hx, hxs] at h
        cases h
        rcases List.mem_cons.mp hy with rfl | hy
        · exact ⟨x, List.mem_cons_self, hx⟩
        · obtain ⟨w, hw, hf⟩ := ih hxs hy
          exact ⟨w, List.mem_cons_of_mem _ hw, hf⟩

/-- The words of an access lie in blocks that are there. -/
theorem isSome_of_scrPlaces {r : Run} {wid addr size : Nat} {write : Bool} {ps : List (ScrLoc × Nat)}
    (h : scrPlaces r wid addr size write = .ok ps) {x : ScrLoc × Nat} (hx : x ∈ ps) {b a : Nat} (hb : x.1 = .blk b a) :
    (r.blocks.get? b).isSome = true := by
  unfold scrPlaces at h
  dsimp only at h
  split at h
  · cases h
  · obtain ⟨p, -, hp⟩ := exists_of_mem_mapM h hx
    cases hz : scrResolve r (r.wave wid).blk (coreOf wid) (slotOf wid) (r.wave wid).priv p.1 p.2 write with
    | error e =>
      rw [hz] at hp
      cases hp
    | ok z =>
      rw [hz] at hp
      cases hp
      exact lies_scrResolve r _ _ _ _ _ _ _ b a (hz.trans (congrArg Except.ok hb))

/-! ## The order of the words -/

theorem mem_insertKey {α : Type} (key : Nat → Nat) (x y : Nat × α) (xs : List (Nat × α)) : y ∈ insertKey key x xs ↔ y = x ∨ y ∈ xs := by
  induction xs with
  | nil => simp [insertKey]
  | cons z xs ih =>
    unfold insertKey
    split
    · exact List.mem_cons
    · rw [List.mem_cons, List.mem_cons, ih, or_left_comm]

theorem mem_foldl_insertKey {α : Type} (key : Nat → Nat) (y : Nat × α) (xs ys : List (Nat × α)) :
    y ∈ xs.foldl (fun ys x => insertKey key x ys) ys ↔ y ∈ xs ∨ y ∈ ys := by
  induction xs generalizing ys with
  | nil => simp
  | cons x xs ih => rw [List.foldl_cons, ih, mem_insertKey, List.mem_cons, or_assoc, or_left_comm]

/-- Whatever the order, the words of a store are the same ones, and only free values are drawn. -/
theorem storeOrder_spec {α : Type} (r : Run) (wid : Nat) (clash : Bool) (xs : List (Nat × α)) :
    (∀ x, x ∈ (storeOrder r wid clash (fun _ => false) xs).1 ↔ x ∈ xs) ∧
    ∃ n, (storeOrder r wid clash (fun _ => false) xs).2 = r.withFresh n := by
  unfold storeOrder
  split
  · refine ⟨fun x => ?_, _, rfl⟩
    simp [mem_foldl_insertKey]
  · exact ⟨fun _ => Iff.rfl, r.fresh, rfl⟩

/-- The words of a store, each of a lane's places with its part of the lane's value. -/
theorem exists_mem_scrWords (ps : List (Nat × List (ScrLoc × Nat))) (v : Nat → Nat) (y : (ScrLoc × Nat) × Nat) :
    (∃ k, (k, y) ∈ scrWords ps v) ↔ ∃ e ∈ ps, ∃ i, e.2[i]? = some y.1 ∧ y.2 = v e.1 / 2 ^ (32 * i) := by
  have hpieces : (∃ k, (k, y) ∈ scrWords ps v) ↔ y ∈ ps.flatMap (fun p => p.2.mapIdx (fun i x => (x, v p.1 / 2 ^ (32 * i)))) := by
    constructor
    · rintro ⟨k, hk⟩
      obtain ⟨i, hi, he⟩ := List.mem_mapIdx.mp hk
      cases he
      exact List.getElem_mem hi
    · intro hy
      obtain ⟨i, hi, rfl⟩ := List.mem_iff_getElem.mp hy
      exact ⟨i, List.mem_mapIdx.mpr ⟨i, hi, rfl⟩⟩
  rw [hpieces, List.mem_flatMap]
  refine exists_congr fun e => and_congr_right fun _ => List.mem_mapIdx.trans (exists_congr fun i => ?_)
  constructor
  · rintro ⟨hi, rfl⟩
    exact ⟨List.getElem?_eq_getElem hi, rfl⟩
  · rintro ⟨hx, hv⟩
    obtain ⟨hi, hx⟩ := List.getElem?_eq_some_iff.mp hx
    exact ⟨hi, Prod.ext hx hv.symm⟩

/-! ## The words perform -/

/-- A word of a store performs at its place, after the notes of what stood there and what the write stands for. -/
def Run.storeWord (r : Run) (wid : Nat) (rel : Option Scope) (y : (ScrLoc × Nat) × Nat) : Run :=
  scrStoreAt (r.notePlace wid rel false y.1) y.2 [y.1]

/-- A word covers a byte of a block. -/
def covers (x : ScrLoc × Nat) (b a : Nat) : Prop := ∃ a0, x.1 = .blk b a0 ∧ a0 ≤ a ∧ a < a0 + x.2

theorem Run.noteOld_eq (r : Run) (wid : Nat) (spc : Option Nat) (addr n : Nat) : ∃ xs, r.noteOld wid spc addr n = r.withRecent xs := by
  unfold Run.noteOld Run.noteWriter
  dsimp only
  split
  · exact ⟨r.recent, rfl⟩
  · exact ⟨_, rfl⟩

theorem Run.writeRecent_eq (r : Run) (wid : Nat) (rel : Option Scope) (atomic : Bool) (spc : Option Nat) (addr n : Nat) :
    ∃ xs, r.writeRecent wid rel atomic spc addr n = r.withRecent xs := by
  unfold Run.writeRecent
  split
  · exact ⟨r.recent, rfl⟩
  · exact ⟨_, rfl⟩

/-- A word performs as one store where it lies in a block, and one of a side buffer does nothing. -/
theorem Run.storeWord_cases (r : Run) (wid : Nat) (rel : Option Scope) (y : (ScrLoc × Nat) × Nat) :
    (∃ b a xs, y.1.1 = .blk b a ∧ r.storeWord wid rel y = scrStore (r.withRecent xs) b a y.2 y.1.2) ∨
      (∀ b a, y.1.1 ≠ .blk b a) ∧ r.storeWord wid rel y = r := by
  obtain ⟨⟨p, n⟩, v⟩ := y
  cases p with
  | blk b a =>
    obtain ⟨xs, hxs⟩ := r.noteOld_eq wid (some b) a n
    obtain ⟨zs, hzs⟩ := (r.withRecent xs).writeRecent_eq wid rel false (some b) a n
    refine .inl ⟨b, a, zs, rfl, ?_⟩
    simp only [Run.storeWord, Run.notePlace, hxs, hzs]
    rfl
  | side i off => exact .inr ⟨fun _ _ h => (by cases h), rfl⟩

section
variable (r : Run) (wid : Nat) (rel : Option Scope) (y : (ScrLoc × Nat) × Nat)

theorem Run.performs_storeWord : r.Performs (r.storeWord wid rel y) := by
  rcases r.storeWord_cases wid rel y with ⟨b, a, xs, -, h⟩ | ⟨-, h⟩
  · have hnote : r.Performs (r.withRecent xs) := ⟨rfl, fun _ => rfl⟩
    exact h ▸ hnote.trans (performs_scrStore _ b a _ _)
  · exact h.symm ▸ .refl r

theorem Run.isSome_storeWord (k : Nat) : ((r.storeWord wid rel y).blocks.get? k).isSome = (r.blocks.get? k).isSome := by
  rcases r.storeWord_cases wid rel y with ⟨b, a, xs, -, h⟩ | ⟨-, h⟩
  · rw [h, scrStore_blocks, isSome_scrWrite]
    rfl
  · rw [h]

variable {r wid rel y} {b a : Nat}

theorem Run.scrByte_storeWord_of_out (hout : ¬covers y.1 b a) : (r.storeWord wid rel y).scrByte b a = r.scrByte b a := by
  rcases r.storeWord_cases wid rel y with ⟨b', a', xs, hb, h⟩ | ⟨-, h⟩
  · rw [h, Run.scrByte_congr (scrStore_blocks _ _ _ _ _), scrByte_scrWrite_of_out]
    · rfl
    · rintro rfl
      by_contra hin
      exact hout ⟨a', hb, by omega⟩
  · rw [h]

theorem Run.scrByte_storeWord_of_in {a0 : Nat} (hb : (r.blocks.get? b).isSome = true) (hy : y.1.1 = .blk b a0)
    (hin : a0 ≤ a ∧ a < a0 + y.1.2) : (r.storeWord wid rel y).scrByte b a = BitVec.ofNat 8 (y.2 / 256 ^ (a - a0)) := by
  rcases r.storeWord_cases wid rel y with ⟨b', a', xs, hy', h⟩ | ⟨hside, -⟩
  · cases hy'.symm.trans hy
    rw [h, Run.scrByte_congr (scrStore_blocks _ _ _ _ _)]
    exact scrByte_scrWrite_of_in hb hin
  · exact absurd hy (hside b a0)

end

/-- The words of a store perform one after another. -/
def Run.storeWords (r : Run) (wid : Nat) (rel : Option Scope) (ys : List (Nat × (ScrLoc × Nat) × Nat)) : Run :=
  ys.foldl (fun r y => r.storeWord wid rel y.2) r

section
variable {r : Run} {wid : Nat} {rel : Option Scope} {ys : List (Nat × (ScrLoc × Nat) × Nat)} {b a : Nat}

theorem Run.performs_storeWords (r : Run) (wid : Nat) (rel : Option Scope) (ys : List (Nat × (ScrLoc × Nat) × Nat)) :
    r.Performs (r.storeWords wid rel ys) :=
  Run.Performs.foldl (fun r (y : Nat × (ScrLoc × Nat) × Nat) => r.performs_storeWord wid rel y.2) ys r

/-- A byte that no word covers reads as before. -/
theorem Run.scrByte_storeWords_of_out (hout : ∀ y ∈ ys, ¬covers y.2.1 b a) : (r.storeWords wid rel ys).scrByte b a = r.scrByte b a := by
  induction ys generalizing r with
  | nil => rfl
  | cons y ys ih =>
    refine (ih fun z hz => hout z (List.mem_cons_of_mem _ hz)).trans ?_
    exact Run.scrByte_storeWord_of_out (hout y List.mem_cons_self)

/-- A byte that words cover takes the byte of one of them, the last to perform. -/
theorem Run.scrByte_storeWords_of_in (hb : (r.blocks.get? b).isSome = true) (hin : ∃ y ∈ ys, covers y.2.1 b a) :
    ∃ y ∈ ys, ∃ a0, y.2.1.1 = .blk b a0 ∧ a0 ≤ a ∧ a < a0 + y.2.1.2 ∧
      (r.storeWords wid rel ys).scrByte b a = BitVec.ofNat 8 (y.2.2 / 256 ^ (a - a0)) := by
  induction ys generalizing r with
  | nil =>
    obtain ⟨y, hy, -⟩ := hin
    cases hy
  | cons y ys ih =>
    by_cases htail : ∃ z ∈ ys, covers z.2.1 b a
    · obtain ⟨z, hz, hbyte⟩ := ih ((r.isSome_storeWord wid rel y.2 b).trans hb) htail
      exact ⟨z, List.mem_cons_of_mem _ hz, hbyte⟩
    · obtain ⟨z, hz, hcov⟩ := hin
      rcases List.mem_cons.mp hz with rfl | hz
      · obtain ⟨a0, hz, hin⟩ := hcov
        refine ⟨z, List.mem_cons_self, a0, hz, hin.1, hin.2, ?_⟩
        refine (Run.scrByte_storeWords_of_out fun w hw hc => htail ⟨w, hw, hc⟩).trans ?_
        exact Run.scrByte_storeWord_of_in hb hz hin
      · exact absurd ⟨z, hz, hcov⟩ htail

/-- The run with other blocks and notes. -/
def Run.withStored (r : Run) (bs : Tbl Block) (xs : List Recent) : Run := { r with blocks := bs, recent := xs }

/-- Where no word is watched, the words change blocks and notes alone. -/
theorem Run.storeWords_of_unwatched (h : ∀ y ∈ ys, ∀ b a, y.2.1.1 = .blk b a → r.watchedWords b a y.2.1.2 = []) :
    ∃ bs xs, r.storeWords wid rel ys = r.withStored bs xs := by
  induction ys generalizing r with
  | nil => exact ⟨r.blocks, r.recent, rfl⟩
  | cons y ys ih =>
    have hword : ∃ bs xs, r.storeWord wid rel y.2 = r.withStored bs xs := by
      rcases r.storeWord_cases wid rel y.2 with ⟨b, a, xs, hy, hs⟩ | ⟨-, hs⟩
      · refine ⟨_, xs, hs.trans (scrStore_of_unwatched ?_ _)⟩
        exact h y List.mem_cons_self b a hy
      · exact ⟨r.blocks, r.recent, hs⟩
    obtain ⟨bs, xs, hw⟩ := hword
    obtain ⟨cs, zs, hws⟩ := ih (r := r.withStored bs xs) fun z hz => h z (List.mem_cons_of_mem _ hz)
    refine ⟨cs, zs, ?_⟩
    rw [Run.storeWords, List.foldl_cons, hw]
    exact hws

end

end Sys2Proof.Machine
end

section
/-! STS (R226, R227, R231): what its issue leaves. -/

namespace Sys2Proof.Machine

/-- How STS issues: no closer (R200). -/
abbrev stsHow (h : Hd) (m : LdsMod) (o : Ops) : How := { uses := [⟨2, o.b, Size.regs m.size, false, h.feb, none⟩], mem := true }

/-- The scope in which an STS is a release, if it is one. -/
def relScope (m : LdsMod) : Option Scope := if Order.isRel m.ord then some m.scope else none

/-- The run that an STS leaves, once its words have performed in an order `ys`. -/
def Run.stsDone (r : Run) (c : Iss) (h : Hd) (m : LdsMod) (o : Ops) (ys : List (Nat × (ScrLoc × Nat) × Nat)) (st : Wave → Nat) : Run :=
  ((r.storeWords c.wid (relScope m) ys).onWave c.wid
    (fun w => (w.withStall (st w)).stepA m o o.d c.act)).retire c h (stsHow h m o)

/-- The run but for what stores in scratchpads change, and the free values drawn, of which it keeps those of `r`. -/
def Run.butStores (t r : Run) : Run :=
  { t with waves := r.waves, cores := r.cores, blocks := r.blocks, ctxs := r.ctxs, fresh := r.fresh, recent := r.recent }

theorem stsEff_eq {m : LdsMod} {o : Ops} {r : Run} {c : Iss} {ps : List (Nat × List (ScrLoc × Nat))}
    (hok : scrAll r c (Size.bytes m.size) true (c.act.toList.map (fun l => (l, r.saddr c o m l))) = .ok ps)
    (hal : scrAlias (r.blockOf (r.wave c.wid)) ps = none) (h : Hd) (y : Sys) :
    ∃ (ys : List (Nat × (ScrLoc × Nat) × Nat)) (n : Nat) (st : Wave → Nat),
      (∀ z, z ∈ ys ↔ z ∈ scrWords ps (r.groupVal c.wid o.b (Size.regs m.size))) ∧
      stsEff h m o y r c = .ok (((r.withFresh n).storeWords c.wid (relScope m) ys).onWave c.wid
        (fun w => (w.withStall (st w)).stepA m o o.d c.act)) () := by
  obtain ⟨hmem, n, hn⟩ := storeOrder_spec r c.wid (storesClash (scrKeys ps) (min (Size.bytes m.size) 4))
    (scrWords ps (r.groupVal c.wid o.b (Size.regs m.size)))
  simp only [stsEff, hok, hal]
  generalize storeOrder r c.wid _ _ _ = vr at hmem hn
  obtain ⟨ys, r'⟩ := vr
  cases hn
  obtain ⟨st, hst⟩ := ((r.withFresh n).storeWords c.wid (relScope m) ys).holdPasses_onWave c h
    (excessPasses r c.wid (Size.bytes m.size) (c.act.toList.map (fun l => (l, r.saddr c o m l))) ps) (fun w => w.stepA m o o.d c.act)
  exact ⟨ys, n, st, hmem, congrArg (fun r => Eff.ok r ()) hst⟩

theorem sts_next {s : State} {h : Hd} {m : LdsMod} {o : Ops} {c : Iss} {ps : List (Nat × List (ScrLoc × Nat))}
    (hI : Issues s h c (stsHow h m o).uses) (hq : Quiet s c)
    (hok : scrAll s.run c (Size.bytes m.size) true (c.act.toList.map (fun l => (l, s.run.saddr c o m l))) = .ok ps)
    (hal : scrAlias (s.run.blockOf (s.wv c)) ps = none) :
    ∃ ys n st, (∀ z, z ∈ ys ↔ z ∈ scrWords ps (s.run.groupVal c.wid o.b (Size.regs m.size))) ∧
      exec (.sts h m o) s = .next { s with run := (s.run.withFresh n).stsDone c h m o ys st } := by
  obtain ⟨ys, n, st, hmem, heff⟩ := stsEff_eq hok hal h s.sys
  obtain ⟨hacq, hperf, -⟩ := hq
  have hrun := (ordered_eq hacq (rel := Order.isRel m.ord) (fun _ => hperf) (stsEff h m o) s.sys).trans heff
  exact ⟨ys, n, st, hmem, issue_ok' (k := stsHow h m o) hI (.inl rfl) (.inl rfl) rfl hrun⟩

section
variable {s : State} {h : Hd} {m : LdsMod} {o : Ops} {c : Iss} (ys : List (Nat × (ScrLoc × Nat) × Nat)) (n : Nat) (st : Wave → Nat)

/-! ## What an STS leaves alone -/

/-- Memory and all else outside the waves, the cores, the blocks and the contexts, but for notes and the free values drawn. -/
theorem stsDone_outside : ((s.run.withFresh n).stsDone c h m o ys st).butStores s.run = s.run := by
  refine retire_frame_with (s := s) c h _ (g := fun x => x.butStores s.run) ?_ fun _ => rfl
  have hout := ((s.run.withFresh n).performs_storeWords c.wid (relScope m) ys).outside
  have hfresh := congrArg (fun x : Run => { x with fresh := s.run.fresh }) hout
  exact hfresh

theorem scrByte_stsDone (b a : Nat) : ((s.run.withFresh n).stsDone c h m o ys st).scrByte b a =
    ((s.run.withFresh n).storeWords c.wid (relScope m) ys).scrByte b a :=
  Run.scrByte_congr (Run.retire_blocks _ _ _ _) b a

/-! ## The step of aN -/

/-- In an active lane aN is stepped from what it was, whatever waves the stores have woken. -/
theorem rowAt_stsDone (hi : s.run.issuer h = some c) {an : BitVec 4} (ha : o.a = .a an) (hf : m.form ≠ .disp) {l : Nat} (hl : l < 32)
    (hm : c.act.getLsbD l = true) : rowAt ((((s.run.withFresh n).stsDone c h m o ys st).wave c.wid).aRow an.toNat) l =
      (s.wv c).stepped m o.x o.d (s.src c o.a l) := by
  obtain ⟨w, hw, -, hww⟩ := Run.issuer_wave _ _ _ hi
  have hview := ((s.run.withFresh n).performs_storeWords c.wid (relScope m) ys).view c.wid
  obtain ⟨u, hu, huw⟩ := Option.map_eq_some_iff.mp (hview.trans (congrArg (Option.map Wave.stepView) hw))
  rw [Run.stsDone, wave_onWave_retire hu]
  refine (Wave.retired_read (fun u => rowAt (u.aRow an.toNat) l) (fun _ _ _ _ _ => rfl) _ _ _ _ _).trans ?_
  have hstall : (u.withStall (st u)).stepView = w.stepView := huw
  rw [Wave.rowAt_stepA _ m ha o.d c.act hf hl hm, Wave.stepped_congr hstall, Wave.aSee_congr hstall, State.wv, hww, State.src, ha]
  simp only [Run.rdLane, hww]
  rfl

/-! ## An STS that wakes nobody -/

/-- Where no word stored to is watched, the waves are as before but for the issuing one, which has stepped aN and moved on. -/
theorem stsDone_of_unwatched (hi : s.run.issuer h = some c) {an : BitVec 4} (ha : o.a = .a an)
    (hu : ∀ y ∈ ys, ∀ b a, y.2.1.1 = .blk b a → s.run.watchedWords b a y.2.1.2 = []) :
    let t : State := { s with run := (s.run.withFresh n).stsDone c h m o ys st }
    (∀ w, w ≠ c.wid → t.run.wave w = s.run.wave w) ∧ t.run.ctxs = s.run.ctxs ∧ (∀ k, (t.run.core k).sameButCounts (s.run.core k)) ∧
      RestKept (s.wv c) (t.wv c) ∧ MovedOn s t c ∧ RegsKept (s.wv c) (t.wv c) c.act (stepDest m o.a) := by
  obtain ⟨w, hw, -, hww⟩ := Run.issuer_wave _ _ _ hi
  obtain ⟨bs, xs, hr⟩ := Run.storeWords_of_unwatched (r := s.run.withFresh n) (wid := c.wid) (rel := relScope m) hu
  intro t
  have ht : t.run = (((s.run.withFresh n).withStored bs xs).onWave c.wid
      (fun w => (w.withStall (st w)).stepA m o o.d c.act)).retire c h (stsHow h m o) := by rw [← hr]; rfl
  obtain ⟨hp, hregs, hrest⟩ := ((s.wv c).withStall (st (s.wv c))).writesOnly_stepA m ha o.d c.act |>.of_withStall
  have hwave : t.wv c = Wave.retired s.run.clk c h (stsHow h m o) (((s.wv c).withStall (st (s.wv c))).stepA m o o.d c.act) := by
    rw [State.wv, ht, State.wv, hww]
    exact wave_onWave_retire hw
  refine ⟨fun k hk => ?_, ?_, fun k => ?_, hwave ▸ hrest.retired rfl, ?_, hwave ▸ hregs.retired⟩
  · rw [ht, Run.wave_retire_of_ne _ _ _ _ _ hk, Run.wave_onWave_of_ne _ _ _ _ hk]
    rfl
  · rw [ht, Run.retire_ctxs]
    rfl
  · rw [ht]
    exact Run.core_retire_same _ _ _ _ _
  · have hparts := congrArg Wave.parts hwave
    rw [Wave.retired_parts _ _ _ _ _ rfl rfl, Wave.advance_parts, Wave.onParts_parts, hp] at hparts
    exact hparts

end

/-! ## The bytes -/

/-- The bytes of a value's 32-bit part are bytes of the value. -/
theorem div_two_pow_word (x i k : Nat) : x / 2 ^ (32 * i) / 256 ^ k = x / 256 ^ (4 * i + k) := by
  rw [Nat.div_div_eq_div_mul, pow_add, pow_mul 256 4 i, pow_mul 2 32 i]
  norm_num

section
variable {s : State} {c : Iss} {size : Nat} {xs : List (Nat × Nat)} {ps : List (Nat × List (ScrLoc × Nat))} {v : Nat → Nat}
  {ys : List (Nat × (ScrLoc × Nat) × Nat)} (hys : ∀ z, z ∈ ys ↔ z ∈ scrWords ps v)
include hys

/-- The words that perform are those of the lanes' places, each with its part of the lane's value. -/
theorem exists_word_iff (P : (ScrLoc × Nat) × Nat → Prop) :
    (∃ y ∈ ys, P y.2) ↔ ∃ e ∈ ps, ∃ i x, e.2[i]? = some x ∧ P (x, v e.1 / 2 ^ (32 * i)) := by
  constructor
  · rintro ⟨⟨k, y⟩, hy, hP⟩
    obtain ⟨e, he, i, hx, hv⟩ := (exists_mem_scrWords ps v y).mp ⟨k, (hys _).mp hy⟩
    exact ⟨e, he, i, y.1, hx, hv ▸ hP⟩
  · rintro ⟨e, he, i, x, hx, hP⟩
    obtain ⟨k, hk⟩ := (exists_mem_scrWords ps v (x, v e.1 / 2 ^ (32 * i))).mpr ⟨e, he, i, hx, rfl⟩
    exact ⟨(k, _), (hys _).mpr hk, hP⟩

variable (wid : Nat) (rel : Option Scope) (n b a : Nat)

/-- A byte outside every place stored to reads as before. -/
theorem scrByte_storeWords_outside (hout : ∀ e ∈ ps, ∀ x ∈ e.2, ∀ a0, x.1 = .blk b a0 → a < a0 ∨ a0 + x.2 ≤ a) :
    ((s.run.withFresh n).storeWords wid rel ys).scrByte b a = s.run.scrByte b a := by
  refine Run.scrByte_storeWords_of_out fun y hy hcov => ?_
  obtain ⟨e, he, i, x, hx, a0, hb, hlo, hhi⟩ := (exists_word_iff hys (fun z => covers z.1 b a)).mp ⟨y, hy, hcov⟩
  exact (hout e he x (List.mem_of_getElem? hx) a0 hb).elim (Nat.not_lt.mpr hlo) (Nat.not_le.mpr hhi)

/-- A byte of a place stored to takes its byte of the value of a lane that writes it. -/
theorem scrByte_storeWords_inside (hok : scrAll s.run c size true xs = .ok ps)
    (hin : ∃ e ∈ ps, ∃ x ∈ e.2, ∃ a0, x.1 = .blk b a0 ∧ a0 ≤ a ∧ a < a0 + x.2) :
    ∃ e ∈ ps, ∃ i x a0, e.2[i]? = some x ∧ x.1 = .blk b a0 ∧ a0 ≤ a ∧ a < a0 + x.2 ∧
      ((s.run.withFresh n).storeWords wid rel ys).scrByte b a = BitVec.ofNat 8 (v e.1 / 256 ^ (4 * i + (a - a0))) := by
  obtain ⟨e, he, x, hx, a0, hb, hbyte⟩ := hin
  obtain ⟨addr, -, hplaces⟩ := mem_of_scrAll hok he
  obtain ⟨i, hi⟩ := List.mem_iff_getElem?.mp hx
  have hcov := (exists_word_iff hys (fun z => covers z.1 b a)).mpr ⟨e, he, i, x, hi, a0, hb, hbyte⟩
  have hlast := Run.scrByte_storeWords_of_in (r := s.run.withFresh n) (wid := wid) (rel := rel) (isSome_of_scrPlaces hplaces hx hb) hcov
  obtain ⟨e, he, i, x, hx, a0, hb, hlo, hhi, hval⟩ := (exists_word_iff hys (fun z => ∃ a0, z.1.1 = .blk b a0 ∧ a0 ≤ a ∧ a < a0 + z.1.2 ∧
    ((s.run.withFresh n).storeWords wid rel ys).scrByte b a = BitVec.ofNat 8 (z.2 / 256 ^ (a - a0)))).mp hlast
  exact ⟨e, he, i, x, a0, hx, hb, hlo, hhi, hval.trans (congrArg (BitVec.ofNat 8) (div_two_pow_word _ _ _))⟩

end

/-- STS (R226, R227, R231): what O31 states of it holds. -/
theorem sts_completes {s : State} {h : Hd} {m : LdsMod} {o : Ops} {c : Iss} {ps : List (Nat × List (ScrLoc × Nat))} {an : BitVec 4}
    (hI : Issues s h c [⟨2, o.b, Size.regs m.size, false, h.feb, none⟩]) (hq : Quiet s c) (ha : o.a = .a an)
    (hok : scrAll s.run c (Size.bytes m.size) true (c.act.toList.map (fun l => (l, s.run.saddr c o m l))) = .ok ps)
    (hal : scrAlias (s.run.blockOf (s.wv c)) ps = none) : Completes (exec (.sts h m o) s) (fun t => t.sys = s.sys ∧
      (m.form ≠ .disp → ∀ l, l < 32 → c.act.getLsbD l = true →
        (s.wv c).lane (t.wv c) o.a 0 l = (s.wv c).stepped m o.x o.d (s.src c o.a l)) ∧
      t.run.butStores s.run = s.run ∧
      (∀ b a, (∀ e ∈ ps, ∀ x ∈ e.2, ∀ a0, x.1 = .blk b a0 → a < a0 ∨ a0 + x.2 ≤ a) →
        memGet (t.run.block b).scratch a = memGet (s.run.block b).scratch a) ∧
      (∀ b a, (∃ e ∈ ps, ∃ x ∈ e.2, ∃ a0, x.1 = .blk b a0 ∧ a0 ≤ a ∧ a < a0 + x.2) →
        ∃ e ∈ ps, ∃ i x a0, e.2[i]? = some x ∧ x.1 = .blk b a0 ∧ a0 ≤ a ∧ a < a0 + x.2 ∧ memGet (t.run.block b).scratch a =
          BitVec.ofNat 8 (s.run.groupVal c.wid o.b (Size.regs m.size) e.1 / 256 ^ (4 * i + (a - a0)))) ∧
      ((∀ e ∈ ps, ∀ x ∈ e.2, ∀ b a0, x.1 = .blk b a0 → s.run.watchedWords b a0 x.2 = []) →
        (∀ w, w ≠ c.wid → t.run.wave w = s.run.wave w) ∧ t.run.ctxs = s.run.ctxs ∧
        (∀ k, (t.run.core k).sameButCounts (s.run.core k)) ∧
        RestKept (s.wv c) (t.wv c) ∧ MovedOn s t c ∧ RegsKept (s.wv c) (t.wv c) c.act (stepDest m o.a))) := by
  obtain ⟨ys, n, st, hys, hnext⟩ := sts_next hI hq hok hal
  refine ⟨_, hnext, rfl, fun hf l hl hm => ?_, stsDone_outside ys n st, fun b a hout => ?_, fun b a hin => ?_, fun hun => ?_⟩
  · have hstep := rowAt_stsDone (s := s) (h := h) ys n st hI.1 ha hf hl hm
    rw [ha] at hstep ⊢
    exact hstep
  · exact (scrByte_stsDone ys n st b a).trans (scrByte_storeWords_outside hys c.wid (relScope m) n b a hout)
  · obtain ⟨e, he, i, x, a0, hx, hb, hlo, hhi, hval⟩ := scrByte_storeWords_inside hys c.wid (relScope m) n b a hok hin
    exact ⟨e, he, i, x, a0, hx, hb, hlo, hhi, (scrByte_stsDone ys n st b a).trans hval⟩
  · refine stsDone_of_unwatched ys n st hI.1 ha fun y hy b a hb => ?_
    by_contra hw
    obtain ⟨e, he, i, x, hx, a0, hb, hw⟩ := (exists_word_iff hys (fun z => ∃ a, z.1.1 = .blk b a ∧ s.run.watchedWords b a z.1.2 ≠ [])).mp
      ⟨y, hy, a, hb, hw⟩
    exact hw (hun e he x (List.mem_of_getElem? hx) b a0 hb)

end Sys2Proof.Machine
end

section
/-! O31, settled: it fails where an LDS has its own address register as D (R222). What it states of LDS with any other D and of STS holds
(`lds_completes`, `sts_completes`). -/

namespace Sys2Proof.Machine

/-- An LDS of one word that steps a1 by 4 and loads into a1 itself. -/
abbrev loadIntoAddress : Ops := { d := .a 1, a := .a 1, x := 4 }

abbrev stepAfter : LdsMod := { size := .b32, form := .post }

/-- A wave of lane 0 alone stands at the instruction, its a1 at byte 4 of a block whose 64 bytes of scratchpad are 0. -/
def atZeroWord : State where
  run := { State.reset.run with
    waves := [(0, { parts := [⟨0, 0, none, 1, 0, 0, .run⟩], a := [(1, List.replicate 32 4)] })]
    blocks := [(0, { launch := 0, ctx := 0, nbh := 0, index := 0, size := 64 })]
    cur := ⟨0, 1, none⟩ }
  sys := State.reset.sys

/-- The group of that wave. -/
def loneLane : Iss := ⟨0, 1, 1, 0⟩

theorem issues_atZeroWord : Issues atZeroWord {} loneLane [⟨0, loadIntoAddress.d, 1, true, false, none⟩] := by
  unfold Issues
  decide

/-- Its lane reads the word at byte 4. -/
theorem scrAll_atZeroWord : scrAll atZeroWord.run loneLane 4 false
    (loneLane.act.toList.map (fun l => (l, atZeroWord.run.saddr loneLane loadIntoAddress stepAfter l))) = .ok [(0, [(.blk 0 4, 4)])] := by
  decide

/-- The word read, 0, stands in a1 when it is stepped: a1 comes to hold 0 + 4. -/
theorem aRow_loadIntoAddress {t : State} (ht : exec (.lds {} stepAfter loadIntoAddress) atZeroWord = .next t) :
    rowAt ((t.run.wave 0).aRow 1) 0 = 4 := by
  have heval : (match exec (.lds {} stepAfter loadIntoAddress) atZeroWord with
    | .next t => rowAt ((t.run.wave 0).aRow 1) 0
    | _ => 0) = 4 := by decide
  rw [ht] at heval
  exact heval

/-- Refutes O31: where D of an LDS is its address register aN, which no word encodes (R224) and the statement allows, the word loaded goes
to aN before the step of R222. Here aN comes to hold 0 + 4, and the statement has the address 4 stepped to 8. -/
theorem not_scratchAccess : ¬ Obligations.ScratchAccess := by
  rintro ⟨hlds, -⟩
  obtain ⟨t, ht, -, -, -, hstep⟩ :=
    hlds atZeroWord {} stepAfter loadIntoAddress loneLane _ 1 issues_atZeroWord rfl rfl scrAll_atZeroWord
  have hstated : rowAt ((t.run.wave 0).aRow 1) 0 = 8 := hstep (by decide) 0 (by decide) (by decide)
  exact absurd ((aRow_loadIntoAddress ht).symm.trans hstated) (by decide)

end Sys2Proof.Machine
end

section
/-! What an access of this device's memory may change beside memory and its own wave (R240, R250, R530): translations, walks, dirty pages, the
read-only cache, the free values drawn, the notes of reads and writes, and the issue counts. -/

namespace Sys2Proof.Machine

/-- What `AccessFrame` lists, of the run alone. -/
structure Run.Accesses (wid : Nat) (r t : Run) : Prop where
  outside : { t with mem := r.mem, waves := r.waves, cores := r.cores, dies := r.dies, ctxs := r.ctxs, fresh := r.fresh,
                     recent := r.recent } = r
  wave : ∀ n, n ≠ wid → { t.wave n with mon := (r.wave n).mon } = r.wave n
  core : ∀ n, Core.sameButCounts { t.core n with tlb := (r.core n).tlb, ro := (r.core n).ro } (r.core n)
  die : ∀ n, { t.die n with walks := (r.die n).walks } = r.die n
  ctx : ∀ n, { t.ctx n with dirty0 := (r.ctx n).dirty0, dirty1 := (r.ctx n).dirty1 } = r.ctx n

theorem Run.Accesses.accessFrame {s : State} {wid : Nat} {t : Run} (h : s.run.Accesses wid t) : AccessFrame s { s with run := t } wid :=
  ⟨rfl, h.outside, h.wave, h.core, h.die, h.ctx⟩

theorem Run.Accesses.refl (wid : Nat) (r : Run) : r.Accesses wid r := ⟨rfl, fun _ _ => rfl, fun _ => rfl, fun _ => rfl, fun _ => rfl⟩

theorem Run.Accesses.trans {wid : Nat} {r t u : Run} (h : r.Accesses wid t) (g : t.Accesses wid u) : r.Accesses wid u where
  outside := by
    have e := congrArg (fun x : Run => { x with
      mem := r.mem, waves := r.waves, cores := r.cores, dies := r.dies, ctxs := r.ctxs, fresh := r.fresh, recent := r.recent }) g.outside
    exact e.trans h.outside
  wave n hn := by
    have e := congrArg (fun x : Wave => { x with mon := (r.wave n).mon }) (g.wave n hn)
    exact e.trans (h.wave n hn)
  core n := by
    have e := congrArg (fun x : Core => { x with
      tlb := (r.core n).tlb, ro := (r.core n).ro, nv := (r.core n).nv, nm := (r.core n).nm, vAt := (r.core n).vAt, mAt := (r.core n).mAt })
      (g.core n)
    exact e.trans (h.core n)
  die n := by
    have e := congrArg (fun x : Die => { x with walks := (r.die n).walks }) (g.die n)
    exact e.trans (h.die n)
  ctx n := by
    have e := congrArg (fun x : Ctx => { x with dirty0 := (r.ctx n).dirty0, dirty1 := (r.ctx n).dirty1 }) (g.ctx n)
    exact e.trans (h.ctx n)

theorem Run.Accesses.foldl {α : Type} {wid : Nat} {f : Run → α → Run} (hf : ∀ (r : Run) x, r.Accesses wid (f r x)) (as : List α) (r : Run) :
    r.Accesses wid (as.foldl f r) := by
  induction as generalizing r with
  | nil => exact .refl wid r
  | cons a as ih => exact (hf r a).trans (ih _)

/-! ## The steps of an access -/

/-- A store leaves what is read from neither memory nor the waves. -/
theorem storeBytes_read {α : Type} (g : Run → α) (hg : ∀ (r : Run) m ws, g { r with mem := m, waves := ws } = g r) (r : Run) (pa : Nat)
    (bs : List Byte) : g (storeBytes r pa bs) = g r := by
  have e := congrArg g (storeBytes_frame r pa bs)
  rw [hg] at e
  exact e

section
variable (wid : Nat) (r : Run)

theorem Run.accesses_withFresh (n : Nat) : r.Accesses wid (r.withFresh n) :=
  ⟨rfl, fun _ _ => rfl, fun _ => rfl, fun _ => rfl, fun _ => rfl⟩

theorem Run.accesses_withRecent (xs : List Recent) : r.Accesses wid (r.withRecent xs) :=
  ⟨rfl, fun _ _ => rfl, fun _ => rfl, fun _ => rfl, fun _ => rfl⟩

/-- A change of a core's translations and read-only cache. -/
theorem Run.accesses_onCore (n : Nat) {f : Core → Core} (hf : ∀ k, Core.sameButCounts { f k with tlb := k.tlb, ro := k.ro } k) :
    r.Accesses wid (r.onCore n f) := by
  refine ⟨rfl, fun _ _ => rfl, fun k => ?_, fun _ => rfl, fun _ => rfl⟩
  rw [Run.core_onCore]
  split
  · next hk =>
    subst hk
    exact hf (r.core k)
  · rfl

theorem Run.accesses_onWave (f : Wave → Wave) : r.Accesses wid (r.onWave wid f) :=
  ⟨rfl, fun n hn => by rw [Run.wave_onWave_of_ne _ _ _ _ hn], fun _ => rfl, fun _ => rfl, fun _ => rfl⟩

theorem Run.accesses_retire (c : Iss) (h : Hd) (k : How) : r.Accesses c.wid (r.retire c h k) := by
  have hframe := r.retire_frame c h k
  have hdies := congrArg Run.dies hframe
  refine ⟨?_, fun n hn => by rw [Run.wave_retire_of_ne _ _ _ _ _ hn], fun n => ?_, fun n => ?_, fun n => ?_⟩
  · have e := congrArg (fun x : Run => { x with mem := r.mem, dies := r.dies, ctxs := r.ctxs, fresh := r.fresh, recent := r.recent }) hframe
    exact e
  · rw [Run.core_retire]
    split <;> rfl
  · rw [Run.die, show (r.retire c h k).dies = r.dies from hdies]
    rfl
  · rw [Run.ctx, Run.retire_ctxs]
    rfl

theorem accesses_storeBytes (pa : Nat) (bs : List Byte) : r.Accesses wid (storeBytes r pa bs) := by
  have hcore n := storeBytes_read (fun x => x.core n) (fun _ _ _ => rfl) r pa bs
  have hdie n := storeBytes_read (fun x => x.die n) (fun _ _ _ => rfl) r pa bs
  have hctx n := storeBytes_read (fun x => x.ctx n) (fun _ _ _ => rfl) r pa bs
  refine ⟨?_, fun n _ => storeBytes_wave r pa n bs, fun n => by rw [hcore n]; rfl, fun n => by rw [hdie n], fun n => by rw [hctx n]⟩
  exact storeBytes_read (fun x : Run => { x with
    mem := r.mem, waves := r.waves, cores := r.cores, dies := r.dies, ctxs := r.ctxs, fresh := r.fresh, recent := r.recent })
    (fun _ _ _ => rfl) r pa bs

theorem accesses_roFill (core pa : Nat) : r.Accesses wid (roFill r core pa) := by
  unfold roFill
  exact r.accesses_onCore wid core fun _ => rfl

/-! ## Translation (R240, R241) -/

theorem accesses_translate (y : Sys) (core cid va : Nat) (k : Want) : r.Accesses wid (translate y r core cid va k).2 := by
  unfold translate
  dsimp only
  split
  · exact .refl wid r
  · split
    · exact .refl wid r
    · dsimp only
      exact r.accesses_onCore wid core fun _ => rfl

theorem accesses_startWalks (core n : Nat) : r.Accesses wid (r.startWalks core n) := by
  unfold Run.startWalks
  split
  · exact .refl wid r
  · refine ⟨rfl, fun _ _ => rfl, fun _ => rfl, fun k => ?_, fun _ => rfl⟩
    rw [Run.die_onDie]
    split
    · next hk => rw [hk]
    · rfl

end

theorem accesses_translateAll (wid : Nat) (y : Sys) (core cid : Nat) (k : Want) (ctrl : Bool) (xs : List (Nat × Nat)) (r : Run) :
    r.Accesses wid (translateAll y r core cid k ctrl xs).1 := by
  induction xs generalizing r with
  | nil => exact .refl wid r
  | cons e t ih =>
    obtain ⟨l, a⟩ := e
    have h := accesses_translate wid r y core cid a k
    simp only [translateAll]
    split
    · next x r' e =>
      rw [e] at h
      split <;> exact h.trans (ih r')
    · next f r' e =>
      rw [e] at h
      exact h.trans (ih r')

/-- Where no lane fails, the translations are of the lanes asked for, in their order. -/
theorem translateAll_lanes {y : Sys} {core cid : Nat} {k : Want} {ctrl : Bool} {xs : List (Nat × Nat)} {r t : Run} {os : List (Nat × Xlat)}
    (h : translateAll y r core cid k ctrl xs = (t, os, [])) : os.map (·.1) = xs.map (·.1) := by
  induction xs generalizing r t os with
  | nil =>
    cases h
    rfl
  | cons e xs ih =>
    obtain ⟨l, a⟩ := e
    simp only [translateAll] at h
    split at h
    · next x r' _ =>
      split at h
      · cases h
      · simp only [Prod.mk.injEq] at h
        obtain ⟨-, rfl, hes⟩ := h
        exact congrArg (l :: ·) (ih (Prod.ext rfl (Prod.ext rfl hes)))
    · cases h

/-- The pre-translation that passes is that of every lane, with no lane at fault. -/
theorem preTranslate_ok_inv {y : Sys} {r t : Run} {core slot cid : Nat} {k : Want} {ctrl : Bool} {pc : Word64} {xs : List (Nat × Nat)}
    {os : List (Nat × Xlat)} (h : preTranslate y r core slot cid k ctrl pc xs = .ok t os) :
    ∃ n, translateAll y (r.startWalks core n) core cid k ctrl xs = (t, os, []) := by
  simp only [preTranslate] at h
  split at h
  · cases h
  · split at h
    · cases h
    · split at h
      · cases h
      · next hes =>
        cases h
        exact ⟨_, Prod.ext rfl (Prod.ext rfl (not_not.mp hes))⟩

section
variable {y : Sys} {r t : Run} {c : Iss} {xs : List (Nat × Nat)} {ctrl : Bool} {ts : List (Nat × Xlat)}

theorem accesses_preTranslate (wid : Nat) {core slot cid : Nat} {k : Want} {pc : Word64}
    (h : preTranslate y r core slot cid k ctrl pc xs = .ok t ts) : r.Accesses wid t := by
  obtain ⟨n, hn⟩ := preTranslate_ok_inv h
  have e := accesses_translateAll wid y core cid k ctrl xs (r.startWalks core n)
  rw [hn] at e
  exact (accesses_startWalks wid r core n).trans e

/-- Checks that pass are the pre-translation. -/
theorem globalChecks_ok_inv {size : Nat} {rd wr : Bool} (h : globalChecks y r c xs size rd wr ctrl = .ok t ts) :
    preTranslate y r (coreOf c.wid) (slotOf c.wid) (r.cidOf c.wid) { write := wr, priv := (r.wave c.wid).priv } ctrl c.pc xs = .ok t ts := by
  simp only [globalChecks] at h
  split at h
  · cases h
  · exact h

theorem globalChecks_lanes {size : Nat} {rd wr : Bool} (h : globalChecks y r c xs size rd wr ctrl = .ok t ts) :
    ts.map (·.1) = xs.map (·.1) := by
  obtain ⟨n, hn⟩ := preTranslate_ok_inv (globalChecks_ok_inv h)
  exact translateAll_lanes hn

/-- Checks that the commit token may have held back pass with translations, old or new, and change no more than these (R247). -/
theorem gatedChecks_ok (wid : Nat) {k : Want} {size : Nat} {rd wr : Bool}
    (h : gatedChecks y r c k ctrl xs (globalChecks y r c xs size rd wr ctrl) = .ok t ts) : r.Accesses wid t ∧ SameButTlb r t := by
  unfold gatedChecks at h
  split at h
  · exact ⟨accesses_preTranslate wid (globalChecks_ok_inv h), globalChecks_ok h⟩
  · exact ⟨accesses_preTranslate wid h, preTranslate_ok h⟩
  · cases h
    exact ⟨.refl wid r, .refl r⟩

end

/-! ## Dirty pages (R530) -/

theorem Ctx.markPage_eq (x : Ctx) (g : Nat) : { x.markPage g with dirty0 := x.dirty0, dirty1 := x.dirty1 } = x := by
  unfold Ctx.markPage Ctx.setDirty
  split
  · rfl
  · split <;> rfl

theorem accesses_markGuest (wid : Nat) (r : Run) (cid gpa : Nat) : r.Accesses wid (markGuest r cid gpa) := by
  unfold markGuest
  split
  · refine ⟨rfl, fun _ _ => rfl, fun _ => rfl, fun _ => rfl, fun n => ?_⟩
    simp only [Run.ctx, Run.onCtx, Tbl.get?_upd]
    split
    · next hn =>
      subst hn
      cases r.ctxs.get? n with
      | none => rfl
      | some x => exact x.markPage_eq _
    · rfl
  · exact .refl wid r

theorem accesses_markDirty (wid : Nat) (r : Run) (core cid va gpa : Nat) : r.Accesses wid (markDirty r core cid va gpa) := by
  unfold markDirty
  dsimp only
  split
  · exact .refl wid r
  · split
    · exact accesses_markGuest wid r cid gpa
    · split
      · exact .refl wid r
      · exact (r.accesses_onCore wid core (by exact fun _ => rfl)).trans (accesses_markGuest wid _ cid _)

/-- A page's mark leaves what is read from neither the cores nor the contexts. -/
theorem markDirty_read {α : Type} (g : Run → α) (hg : ∀ (r : Run) cs xs, g { r with cores := cs, ctxs := xs } = g r) (r : Run)
    (core cid va gpa : Nat) : g (markDirty r core cid va gpa) = g r := by
  have hguest (r : Run) (gpa : Nat) : g (markGuest r cid gpa) = g r := by
    unfold markGuest
    split
    · exact hg r r.cores _
    · rfl
  unfold markDirty
  dsimp only
  split
  · rfl
  · split
    · exact hguest r gpa
    · split
      · rfl
      · exact (hguest _ _).trans (hg r _ r.ctxs)

/-! ## What operands read -/

section
variable {wid : Nat} {r t : Run} (h : r.Accesses wid t)
include h

theorem Run.Accesses.read {α : Type} (g : Run → α) (hg : ∀ (r : Run) m ws cs ds xs n rs, g { r with
    mem := m, waves := ws, cores := cs, dies := ds, ctxs := xs, fresh := n, recent := rs } = g r) : g t = g r := by
  have e := congrArg g h.outside
  rw [hg] at e
  exact e

theorem Run.Accesses.core_read {α : Type} (g : Core → α) (hg : ∀ (k : Core) tl ro nv nm va ma, g { k with
    tlb := tl, ro := ro, nv := nv, nm := nm, vAt := va, mAt := ma } = g k) (n : Nat) : g (t.core n) = g (r.core n) :=
  (hg _ _ _ _ _ _ _).symm.trans (congrArg g (h.core n))

theorem Run.Accesses.ctx_read {α : Type} (g : Ctx → α) (hg : ∀ (x : Ctx) d e, g { x with dirty0 := d, dirty1 := e } = g x) (n : Nat) :
    g (t.ctx n) = g (r.ctx n) :=
  (hg _ _ _).symm.trans (congrArg g (h.ctx n))

variable (hw : t.waves = r.waves)
include hw

/-- What is read from neither what an access may change, nor the translations, nor dirty pages: special registers. -/
theorem Run.Accesses.special (n l k : Nat) : t.special n l k = r.special n l k := by
  have hwave n : t.wave n = r.wave n := by rw [Run.wave, Run.wave, hw]
  have hblock n : t.block n = r.block n := h.read (fun x => x.block n) fun _ _ _ _ _ _ _ _ => rfl
  have hpair n : t.pair n = r.pair n := h.read (fun x => x.pair n) fun _ _ _ _ _ _ _ _ => rfl
  have hlaunch n : t.launch n = r.launch n := h.read (fun x => x.launch n) fun _ _ _ _ _ _ _ _ => rfl
  have hclk : t.clk = r.clk := h.read Run.clk fun _ _ _ _ _ _ _ _ => rfl
  have htable : t.table = r.table := h.read Run.table fun _ _ _ _ _ _ _ _ => rfl
  have hcyc := h.core_read Core.cyc fun _ _ _ _ _ _ _ => rfl
  have hbal := h.core_read Core.balctl fun _ _ _ _ _ _ _ => rfl
  have hdeque := h.core_read Core.deque fun _ _ _ _ _ _ _ => rfl
  have hctok := h.core_read Core.ctok fun _ _ _ _ _ _ _ => rfl
  have hpass := h.core_read Core.ctokPass fun _ _ _ _ _ _ _ => rfl
  have hquota := h.ctx_read Ctx.quota fun _ _ _ => rfl
  have hdeleg := h.ctx_read Ctx.tdeleg fun _ _ _ => rfl
  have hbase := h.ctx_read Ctx.trapbase fun _ _ _ => rfl
  have htenant := h.ctx_read Ctx.tenant fun _ _ _ => rfl
  have hpt := h.ctx_read Ctx.ptbase fun _ _ _ => rfl
  have hpre := h.ctx_read Ctx.preempt fun _ _ _ => rfl
  simp only [Run.special, Run.ctok, Run.tokenHolder, Run.pairMis, Run.det, Run.launchOf, Run.trapbase, hwave, hblock, hpair, hlaunch, hclk,
    htable, hcyc, hbal, hdeque, hctok, hpass, hquota, hdeleg, hbase, htenant, hpt, hpre]
  rfl

variable (hf : t.fresh = r.fresh)
include hf

theorem Run.Accesses.rdLane (n : Nat) (o : Opd) (i l : Nat) : t.rdLane n o i l = r.rdLane n o i l := by
  have hwave n : t.wave n = r.wave n := by rw [Run.wave, Run.wave, hw]
  have hblock n : t.block n = r.block n := h.read (fun x => x.block n) fun _ _ _ _ _ _ _ _ => rfl
  have hlaunch n : t.launch n = r.launch n := h.read (fun x => x.launch n) fun _ _ _ _ _ _ _ _ => rfl
  have hcur : t.cur = r.cur := h.read Run.cur fun _ _ _ _ _ _ _ _ => rfl
  have hdet w : t.det w = r.det w := by simp only [Run.det, Run.launchOf, hblock, hlaunch]
  have hopen : t.openWord n o i l = r.openWord n o i l := by
    cases hd : r.det (r.wave n) with
    | true => simp only [Run.openWord, Run.drawFor, Run.launchOf, Run.blockOf, hwave, hdet, hd, hblock, hlaunch, hcur, if_true]
    | false => simp only [Run.openWord, hwave, hdet, hd, hf, Bool.false_eq_true, if_false]
  cases o <;> simp only [Run.rdLane, hwave, hopen, h.special hw]

/-- A data group reads the same behind the checks and the marks of an access. -/
theorem Run.Accesses.groupVal (n : Nat) (o : Opd) (len l : Nat) : t.groupVal n o len l = r.groupVal n o len l := by
  have hwave : t.wave n = r.wave n := by rw [Run.wave, Run.wave, hw]
  cases o <;> simp only [Run.groupVal, hwave, h.rdLane hw hf]

end

end Sys2Proof.Machine
end

section
/-! ST (R253): the units that its lanes write, the order they perform in, and the bytes they leave. -/

namespace Sys2Proof.Machine

/-! ## Bytes -/

theorem getD_leBytes {n i : Nat} (hi : i < n) (v : Nat) : (leBytes v n).getD i 0 = BitVec.ofNat 8 (v / 256 ^ i) := by
  induction n generalizing v i with
  | zero => omega
  | succ n ih =>
    cases i with
    | zero => rw [pow_zero, Nat.div_one]; rfl
    | succ i => exact (ih (Nat.lt_of_succ_lt_succ hi) (v / 256)).trans (by rw [Nat.div_div_eq_div_mul, pow_succ'])

/-! ## The units perform -/

/-- What a lane of a store writes: its lane, the place, and the bytes. -/
abbrev StoreUnit : Type := Nat × Nat × List Byte

/-- A unit has a byte at an address. -/
def StoreUnit.covers (u : StoreUnit) (a : Nat) : Prop := u.2.1 ≤ a ∧ a < u.2.1 + u.2.2.length

/-- A unit of a store performs at its place, after the notes of what stood there and what the write stands for. -/
def Run.storeUnit (r : Run) (wid : Nat) (rel : Option Scope) (n : Nat) (u : StoreUnit) : Run :=
  storeBytes ((r.noteOld wid none u.2.1 n).writeRecent wid rel false none u.2.1 n) u.2.1 u.2.2

/-- The units of a store perform one after another. -/
def Run.storeUnits (r : Run) (wid : Nat) (rel : Option Scope) (n : Nat) (us : List StoreUnit) : Run :=
  us.foldl (fun r u => r.storeUnit wid rel n u) r

section
variable (r : Run) (wid : Nat) (rel : Option Scope) (n : Nat)

theorem Run.storeUnit_eq (u : StoreUnit) : ∃ xs, r.storeUnit wid rel n u = storeBytes (r.withRecent xs) u.2.1 u.2.2 := by
  obtain ⟨xs, hxs⟩ := r.noteOld_eq wid none u.2.1 n
  obtain ⟨zs, hzs⟩ := (r.withRecent xs).writeRecent_eq wid rel false none u.2.1 n
  exact ⟨zs, by rw [Run.storeUnit, hxs, hzs]; rfl⟩

theorem Run.accesses_storeUnits (us : List StoreUnit) : r.Accesses wid (r.storeUnits wid rel n us) := by
  refine Run.Accesses.foldl (fun r u => ?_) us r
  obtain ⟨xs, h⟩ := r.storeUnit_eq wid rel n u
  rw [h]
  exact (r.accesses_withRecent wid xs).trans (accesses_storeBytes wid _ _ _)

/-- The waves are as before, but for the notes in monitors. -/
theorem Run.sameButMon_storeUnits (us : List StoreUnit) : SameButMon r (r.storeUnits wid rel n us) := by
  refine SameButMon.foldl (fun r u => ?_) us r
  obtain ⟨xs, h⟩ := r.storeUnit_eq wid rel n u
  rw [h]
  exact sameButMon_storeBytes (r.withRecent xs) _ _

/-- Every byte after a unit has performed. -/
theorem Run.memGet_storeUnit (u : StoreUnit) (a : Nat) : memGet (r.storeUnit wid rel n u).mem a =
    if u.2.1 ≤ a ∧ a < u.2.1 + u.2.2.length then u.2.2.getD (a - u.2.1) 0 else memGet r.mem a := by
  obtain ⟨xs, h⟩ := r.storeUnit_eq wid rel n u
  rw [h]
  exact memGet_storeBytes _ _ _ _

end

section
variable {r : Run} {wid : Nat} {rel : Option Scope} {n a : Nat} {us : List StoreUnit}

/-- A byte outside every unit reads as before. -/
theorem Run.memGet_storeUnits_of_out (hout : ∀ u ∈ us, ¬u.covers a) : memGet (r.storeUnits wid rel n us).mem a = memGet r.mem a := by
  induction us generalizing r with
  | nil => rfl
  | cons u us ih =>
    refine (ih fun z hz => hout z (List.mem_cons_of_mem _ hz)).trans ?_
    exact (r.memGet_storeUnit wid rel n u a).trans (if_neg (hout u List.mem_cons_self))

/-- A byte in some unit takes its byte of the last of these to perform. -/
theorem Run.memGet_storeUnits_of_in (hin : ∃ u ∈ us, u.covers a) :
    ∃ u ∈ us, u.covers a ∧ memGet (r.storeUnits wid rel n us).mem a = u.2.2.getD (a - u.2.1) 0 := by
  induction us generalizing r with
  | nil =>
    obtain ⟨u, hu, -⟩ := hin
    cases hu
  | cons u us ih =>
    by_cases hlater : ∃ z ∈ us, z.covers a
    · obtain ⟨z, hz, hbyte⟩ := ih hlater
      exact ⟨z, List.mem_cons_of_mem _ hz, hbyte⟩
    · obtain ⟨z, hz, hcov⟩ := hin
      obtain rfl : z = u := (List.mem_cons.mp hz).resolve_right fun hz => hlater ⟨z, hz, hcov⟩
      refine ⟨z, List.mem_cons_self, hcov, ?_⟩
      refine (Run.memGet_storeUnits_of_out fun w hw hc => hlater ⟨w, hw, hc⟩).trans ?_
      exact (r.memGet_storeUnit wid rel n z a).trans (if_pos hcov)

end

/-! ## What the store waits for -/

/-- Quiet, an access is held back by no earlier one (R302, R303, R308). -/
theorem ordered_of_quiet {s : State} {c : Iss} (hq : Quiet s c) (rel sys : Bool) (k : Sys → Run → Iss → Eff Unit) (y : Sys) :
    ordered rel sys k y s.run c = k y s.run c := by
  obtain ⟨hacq, hperf, hmark⟩ := hq
  have htrap : markTrap y s.run c.wid c.act = none := by rw [markTrap, hmark]; rfl
  simp only [ordered, hacq, hperf, htrap, Bool.and_false, Bool.false_eq_true, if_false, ite_self]

/-- The commit token lets a store pass whose pages need it not, or whose wave may pass (R417, R418). -/
theorem gate_passes {r : Run} {c : Iss} {need free : Bool} (ts : List (Nat × Xlat)) (k : Run → Eff Unit)
    (h : (r.det (r.wave c.wid) = false ∨ r.tokenHolder (coreOf c.wid) = some c.wid) ∨ free = true ∨ need = false) :
    gate r c need free ts k = k r := by
  unfold gate
  split
  · next hc =>
    simp only [Bool.and_eq_true, Bool.not_eq_true'] at hc
    obtain ⟨⟨hneed, hdet⟩, hfree⟩ := hc
    rcases h with (h | h) | h | h
    · exact absurd (hdet.symm.trans h) (by decide)
    · unfold Run.tokenHolder at h
      split at h
      · cases h
      · next hpass =>
        unfold takeToken
        simp only [h, Option.not_isSome_iff_eq_none.mp hpass, and_self, if_true]
    · exact absurd (hfree.symm.trans h) (by decide)
    · exact absurd (hneed.symm.trans h) (by decide)
  · rfl

theorem actsFor_sublist (o : Ops) (ts : List (Nat × Xlat)) : (actsFor o ts).Sublist ts := by
  unfold actsFor
  split
  · exact List.Sublist.refl ts
  · exact List.take_sublist 1 ts

theorem AllLocal.actsFor {ts : List (Nat × Xlat)} (h : AllLocal ts) (o : Ops) : AllLocal (actsFor o ts) :=
  fun t ht => h t ((actsFor_sublist o ts).subset ht)

section
variable {ts : List (Nat × Xlat)} (h : AllLocal ts)
include h

theorem AllLocal.lineBusy (r : Run) (wid : Nat) : r.lineBusy wid ts = none :=
  List.findSome?_eq_none_iff.mpr fun t ht => by simp [h t ht]

theorem AllLocal.remotes (clk : Nat) (priv : Bool) : remotes ts clk priv = [] := by
  rw [Machine.remotes, List.filter_eq_nil_iff.mpr fun t ht => by simp [h t ht]]
  rfl

/-- Nothing at the fabric holds back a store of this device's memory. -/
theorem AllLocal.writeHold {r : Run} {wid : Nat} (hacks : (r.wave wid).acks ≤ 256) : writeHold r wid ts = none := by
  simp [Machine.writeHold, h.lineBusy, h.remotes, hacks]

end

/-- Whatever the order, the units of a store are the same ones, and only free values are drawn. -/
theorem storeOrder_mem {α : Type} (r : Run) (wid : Nat) (clash : Bool) (kept : α → Bool) (xs : List (Nat × α)) :
    (∀ x, x ∈ (storeOrder r wid clash kept xs).1 ↔ x ∈ xs) ∧ ∃ n, (storeOrder r wid clash kept xs).2 = r.withFresh n := by
  unfold storeOrder
  split
  · refine ⟨fun x => ?_, _, rfl⟩
    rw [List.mem_append, mem_foldl_insertKey]
    cases hk : kept x.2 <;> simp [hk]
  · exact ⟨fun _ => Iff.rfl, r.fresh, rfl⟩

end Sys2Proof.Machine
end

section
/-! ST (R253), settled. -/

namespace Sys2Proof.Machine

theorem SameButTlb.read {α : Type} {r t : Run} (h : SameButTlb r t) (g : Run → α)
    (hg : ∀ (r : Run) cs ds, g { r with cores := cs, dies := ds } = g r) : g t = g r := by
  have e := congrArg g h
  rw [hg] at e
  exact e

/-- The unit that a lane of an access stores of its data group. -/
def Run.unitOf (r : Run) (wid : Nat) (d : Opd) (len n : Nat) (t : Nat × Xlat) : StoreUnit :=
  (t.1, t.2.pa, leBytes (r.groupVal wid d len t.1) n)

/-- The run with the pages of an access marked dirty. -/
def Run.markAll (r : Run) (core cid : Nat) (ts : List (Nat × Xlat)) : Run :=
  ts.foldl (fun r t => markDirty r core cid t.2.va t.2.gpa) r

theorem Run.accesses_markAll (wid : Nat) (r : Run) (core cid : Nat) (ts : List (Nat × Xlat)) : r.Accesses wid (r.markAll core cid ts) := by
  unfold Run.markAll
  exact Run.Accesses.foldl (f := fun r t => markDirty r core cid t.2.va t.2.gpa)
    (fun r t => accesses_markDirty wid r core cid t.2.va t.2.gpa) ts r

theorem Run.markAll_read {α : Type} (g : Run → α) (hg : ∀ (r : Run) cs xs, g { r with cores := cs, ctxs := xs } = g r) (r : Run)
    (core cid : Nat) (ts : List (Nat × Xlat)) : g (r.markAll core cid ts) = g r := by
  unfold Run.markAll
  exact Run.foldl_keeps (f := fun r t => markDirty r core cid t.2.va t.2.gpa) g
    (fun r t => markDirty_read g hg r core cid t.2.va t.2.gpa) ts r

/-- A store of this device's memory writes its units here, whatever its release stands for. -/
theorem storeUnits_of_local (r : Run) (wid : Nat) (rel : Option Scope) (n : Nat) (va : Nat → Nat) {us : List StoreUnit}
    (h : ∀ u ∈ us, isAper u.2.1 = false) :
    us.foldl (fun r u => writeOne
      (if isAper u.2.1 then r else (r.noteOld wid none u.2.1 n).writeRecent wid rel false none u.2.1 n)
      (r.partOf wid) wid u.2.1 (va u.1) u.2.2) r = r.storeUnits wid rel n us := by
  refine List.foldl_ext _ _ _ fun r u hu => ?_
  rw [h u hu, if_neg Bool.false_ne_true, writeOne, h u hu]
  rfl

section
variable {s : State} {c : Iss} {m : LdMod} {o : Ops} {r : Run} {ts : List (Nat × Xlat)}
  (hck : gatedChecks s.sys s.run c { write := true, priv := (s.wv c).priv } false (s.run.gaddrs c o m)
    (globalChecks s.sys s.run c (s.run.gaddrs c o m) (Size.bytes m.size) false true false) = .ok r ts)
  (hloc : AllLocal ts) (htok : TokenFree s c ∨ ∀ t ∈ ts, t.2.sh = false) (hacks : (s.wv c).acks ≤ 256)
include hck htok

/-- The commit token lets the store pass. -/
theorem token_open : (r.det (r.wave c.wid) = false ∨ r.tokenHolder (coreOf c.wid) = some c.wid) ∨ (r.wave c.wid).window.isSome = true ∨
    (actsFor o ts).any (fun t => t.2.sh) = false := by
  obtain ⟨hacc, hsame⟩ := gatedChecks_ok c.wid hck
  have hwave : r.wave c.wid = s.wv c := hsame.read (fun x => x.wave c.wid) fun _ _ _ => rfl
  have hdet : r.det (r.wave c.wid) = s.run.det (s.wv c) := hsame.read (fun x => x.det (x.wave c.wid)) fun _ _ _ => rfl
  have hholder : r.tokenHolder (coreOf c.wid) = s.run.tokenHolder (coreOf c.wid) := by
    simp only [Run.tokenHolder, hacc.core_read Core.ctok fun _ _ _ _ _ _ _ => rfl, hacc.core_read Core.ctokPass fun _ _ _ _ _ _ _ => rfl]
  rw [hdet, hholder, hwave]
  rcases htok with (h | h) | h
  · exact .inl h
  · exact .inr (.inl h)
  · refine .inr (.inr (List.any_eq_false.mpr fun t ht => ?_))
    rw [h t ((actsFor_sublist o ts).subset ht)]
    exact Bool.false_ne_true

include hloc hacks

/-- The checks passed, an ST marks its pages and performs its units in some order. -/
theorem stEff_eq : ∃ (t : Run) (us : List StoreUnit) (rel : Option Scope),
    s.run.Accesses c.wid t ∧ t.waves = s.run.waves ∧ t.mem = s.run.mem ∧
    (∀ u, u ∈ us ↔ u ∈ (actsFor o ts).map (s.run.unitOf c.wid o.d (groupLen o.d m.size) (Size.bytes m.size))) ∧
    stEff m o s.sys s.run c = .ok (t.storeUnits c.wid rel (Size.bytes m.size) us) () := by
  obtain ⟨hacc, hsame⟩ := gatedChecks_ok c.wid hck
  have hwave : r.wave c.wid = s.wv c := hsame.read (fun x => x.wave c.wid) fun _ _ _ => rfl
  have hopen := token_open hck htok
  have hhold : writeHold r c.wid (actsFor o ts) = none := (hloc.actsFor o).writeHold (by rw [hwave]; exact hacks)
  set n := Size.bytes m.size
  set len := groupLen o.d m.size
  set r1 := r.markAll (coreOf c.wid) (r.cidOf c.wid) (actsFor o ts) with hr1
  have hacc1 : s.run.Accesses c.wid r1 := hacc.trans (r.accesses_markAll c.wid _ _ _)
  have hread {α : Type} (g : Run → α) (hg : ∀ (r : Run) cs ds xs, g { r with cores := cs, dies := ds, ctxs := xs } = g r) :
      g r1 = g s.run :=
    (r.markAll_read g (fun r cs xs => hg r cs r.dies xs) _ _ _).trans (hsame.read g fun r cs ds => hg r cs ds r.ctxs)
  have hval (l : Nat) : r1.groupVal c.wid o.d len l = s.run.groupVal c.wid o.d len l :=
    hacc1.groupVal (hread Run.waves fun _ _ _ _ => rfl) (hread Run.fresh fun _ _ _ _ => rfl) _ _ _ _
  obtain ⟨hmem, k, hk⟩ := storeOrder_mem r1 c.wid (storesClash ((actsFor o ts).map (fun t => (t.1, t.2.pa))) n)
    (fun v : Nat × List Byte => r1.onOrdered c.wid v.1) ((actsFor o ts).map (r1.unitOf c.wid o.d len n))
  have heff : stEff m o s.sys s.run c = (
      let (vs, r) := storeOrder r1 c.wid (storesClash ((actsFor o ts).map (fun t => (t.1, t.2.pa))) n)
        (fun v : Nat × List Byte => r1.onOrdered c.wid v.1) ((actsFor o ts).map (r1.unitOf c.wid o.d len n))
      .ok (vs.foldl (fun r v => writeOne
        (if isAper v.2.1 then r else (r.noteOld c.wid none v.2.1 n).writeRecent c.wid
          (if Order.isRel m.ord then some m.scope else none) false none v.2.1 n) (r.partOf c.wid) c.wid v.2.1 (laneVal (s.run.gaddrs c o m) v.1) v.2.2) r) ()) := by
    simp only [stEff]
    rw [hck]
    simp only [Eff.bind]
    rw [gate_passes _ _ hopen]
    simp only [hhold]
    rfl
  generalize storeOrder r1 c.wid _ _ _ = vr at hmem hk heff
  obtain ⟨us, r'⟩ := vr
  cases hk
  have hunits : r1.unitOf c.wid o.d len n = s.run.unitOf c.wid o.d len n := funext fun t => by simp only [Run.unitOf, hval]
  rw [hunits] at hmem
  refine ⟨r1.withFresh k, us, if Order.isRel m.ord then some m.scope else none, hacc1.trans (r1.accesses_withFresh c.wid k), hread Run.waves fun _ _ _ _ => rfl,
    hread Run.mem fun _ _ _ _ => rfl, hmem, heff.trans (congrArg (fun r => Eff.ok r ()) ?_)⟩
  refine storeUnits_of_local _ _ _ _ (laneVal (s.run.gaddrs c o m)) fun u hu => ?_
  obtain ⟨t, ht, rfl⟩ := List.mem_map.mp ((hmem u).mp hu)
  exact hloc.actsFor o t ht

end

/-- How ST issues: a closer (R200). -/
abbrev stHow (h : Hd) (m : LdMod) (o : Ops) : How :=
  { uses := [⟨0, o.d, groupLen o.d m.size, false, h.fec, none⟩, ⟨1, o.a, 1, false, h.fea, none⟩, ⟨2, o.b, 1, false, h.feb, none⟩]
    closer := true, mem := true }

end Sys2Proof.Machine

namespace Sys2Proof
open Machine

/-- Settles O30: the checks passed, the units perform one after another, and a byte takes that of the last that covers it. -/
theorem storeResult : Obligations.StoreResult := by
  unfold Obligations.StoreResult
  intro s h m o c r ts n hI xs hq hck hloc htok hacks us
  obtain ⟨t, vs, rel, hacc, hwaves, hmem, hvs, heff⟩ := stEff_eq hck hloc htok hacks
  have hus : us = actsFor o ts := rfl
  have hrun := (ordered_of_quiet hq (Order.isRel m.ord) (m.scope = .sys) (stEff m o) s.sys).trans heff
  set u := t.storeUnits c.wid rel n vs
  obtain ⟨w, hw, -, hww⟩ := Run.issuer_wave _ _ _ hI.1
  obtain ⟨mon, hmon⟩ := (t.sameButMon_storeUnits c.wid rel n vs).get (hwaves ▸ hw)
  have hwave : (u.retire c h (stHow h m o)).wave c.wid = Wave.retired u.clk c h (stHow h m o) { s.wv c with mon := mon } := by
    rw [State.wv, hww]
    exact Run.wave_retire _ _ _ _ _ hmon
  have hmon' : ((u.retire c h (stHow h m o)).wave c.wid).mon = mon := by
    rw [hwave]
    exact Wave.retired_read Wave.mon (fun _ _ _ _ _ => rfl) _ _ _ _ _
  have hbytes (e : Nat × Xlat) (a : Nat) : (s.run.unitOf c.wid o.d (groupLen o.d m.size) n e).covers a ↔ e.2.pa ≤ a ∧ a < e.2.pa + n := by
    rw [StoreUnit.covers, Run.unitOf, length_leBytes]
  refine ⟨_, issue_ok' (k := stHow h m o) hI (.inl rfl) (.inl rfl) rfl hrun, ?_, ?_, ?_, ?_, fun a hout => ?_, fun a hin => ?_⟩
  · exact ((hacc.trans (t.accesses_storeUnits c.wid rel n vs)).trans (u.accesses_retire c h _)).accessFrame
  · show RegsKept (s.wv c) ((u.retire c h (stHow h m o)).wave c.wid) c.act []
    have hkept : RegsKept (s.wv c) { s.wv c with mon := mon } c.act [] :=
      ⟨fun _ _ _ _ => rfl, fun _ _ => rfl, fun _ _ _ => rfl, fun _ _ _ _ => rfl, fun _ _ => rfl⟩
    rw [hwave]
    exact hkept.retired
  · show RestKept { s.wv c with mon := ((u.retire c h (stHow h m o)).wave c.wid).mon, rgn := (s.wv c).rgn + 1 }
      ((u.retire c h (stHow h m o)).wave c.wid)
    rw [hmon', hwave]
    have hkept : RestKept { s.wv c with mon := mon } { s.wv c with mon := mon } := rfl
    exact hkept.retired_closer rfl
  · exact (congrArg Wave.parts hwave).trans (Wave.retired_parts_closer _ _ _ _ rfl rfl)
  · rw [Run.retire_mem, Run.memGet_storeUnits_of_out, hmem]
    intro z hz hc
    obtain ⟨e, he, rfl⟩ := List.mem_map.mp ((hvs z).mp hz)
    have hpa := hout e he
    have hcov := (hbytes e a).mp hc
    omega
  · rw [Run.retire_mem]
    obtain ⟨e, he, hcov⟩ := hin
    obtain ⟨z, hz, hc, hval⟩ := Run.memGet_storeUnits_of_in (r := t) (wid := c.wid) (rel := rel) (n := n) (us := vs)
      ⟨_, (hvs _).mpr (List.mem_map.mpr ⟨e, he, rfl⟩), (hbytes e a).mpr hcov⟩
    obtain ⟨e, he, rfl⟩ := List.mem_map.mp ((hvs z).mp hz)
    obtain ⟨hlo, hhi⟩ := (hbytes e a).mp hc
    have hi : a - e.2.pa < n := by omega
    exact ⟨e, he, hlo, hhi, hval.trans (getD_leBytes hi _)⟩

end Sys2Proof
end

section
/-! LD and LDC (R252, R254) of this device's memory: what each lane reads, and what the load leaves. -/

namespace Sys2Proof.Machine

/-! ## Bytes of a line -/

theorem memBytes_succ (m : SMap Byte) (a n : Nat) : memBytes m a (n + 1) = memGet m a :: memBytes m (a + 1) n := by
  simp [memBytes, List.range_succ_eq_map, Nat.add_assoc, Nat.add_comm 1]

theorem ofLe_memBytes (m : SMap Byte) (a n : Nat) : ofLe (memBytes m a n) = memRead m a n := by
  induction n generalizing a with
  | zero => rfl
  | succ n ih => rw [memBytes_succ, ofLe, memRead, ih]

theorem take_drop_memBytes (m : SMap Byte) (a : Nat) {i n k : Nat} (h : i + n ≤ k) :
    ((memBytes m a k).drop i).take n = memBytes m (a + i) n := by
  refine List.ext_getElem (by simp [memBytes]; omega) fun j _ _ => ?_
  simp [memBytes, Nat.add_assoc]

/-- A unit that lies in a line reads from the line as from memory. -/
theorem ofLe_line (m : SMap Byte) {pa n : Nat} (h : pa % 256 + n ≤ 256) :
    ofLe (((memBytes m (pa / 256 * 256) 256).drop (pa % 256)).take n) = memRead m pa n := by
  rw [take_drop_memBytes m _ h, ofLe_memBytes, Nat.div_add_mod' pa 256]

/-- A unit at a multiple of its size lies in one line. -/
theorem unit_within_line {pa : Nat} (z : Size) (h : pa % Size.bytes z = 0) : pa % 256 + Size.bytes z ≤ 256 := by
  cases z <;> simp only [Size.bytes] at h ⊢ <;> omega

/-! ## What the reads of a load change -/

/-- A load's reads change the core's translations and its read-only cache, the walks, the free values and the notes of reads. -/
structure Run.Loads (wid : Nat) (r t : Run) : Prop where
  accesses : r.Accesses wid t
  rest : { t with cores := r.cores, dies := r.dies, fresh := r.fresh, recent := r.recent } = r

namespace Run.Loads

theorem refl (wid : Nat) (r : Run) : r.Loads wid r := ⟨.refl wid r, rfl⟩

theorem trans {wid : Nat} {r t u : Run} (h : r.Loads wid t) (g : t.Loads wid u) : r.Loads wid u where
  accesses := h.accesses.trans g.accesses
  rest := by
    have e := congrArg (fun x : Run => { x with cores := r.cores, dies := r.dies, fresh := r.fresh, recent := r.recent }) g.rest
    exact e.trans h.rest

theorem read {α : Type} {wid : Nat} {r t : Run} (h : r.Loads wid t) (g : Run → α)
    (hg : ∀ (r : Run) cs ds n rs, g { r with cores := cs, dies := ds, fresh := n, recent := rs } = g r) : g t = g r :=
  (hg _ _ _ _ _).symm.trans (congrArg g h.rest)

theorem of_globalChecks (wid : Nat) {y : Sys} {r t : Run} {c : Iss} {xs : List (Nat × Nat)} {size : Nat} {rd wr ctrl : Bool}
    {ts : List (Nat × Xlat)} (h : globalChecks y r c xs size rd wr ctrl = .ok t ts) : r.Loads wid t where
  accesses := accesses_preTranslate wid (globalChecks_ok_inv h)
  rest := by
    have e := congrArg (fun x : Run => { x with fresh := r.fresh, recent := r.recent }) (globalChecks_ok h)
    exact e

theorem roFill (wid : Nat) (r : Run) (core pa : Nat) : r.Loads wid (roFill r core pa) := ⟨accesses_roFill wid r core pa, rfl⟩

theorem withFresh (wid : Nat) (r : Run) (n : Nat) : r.Loads wid (r.withFresh n) := ⟨r.accesses_withFresh wid n, rfl⟩

theorem sawLanes (wid : Nat) (r : Run) (acq : Option Scope) (n : Nat) (ts : List (Nat × Xlat)) : r.Loads wid (sawLanes r wid acq n ts) := by
  obtain ⟨xs, hxs⟩ : ∃ xs, Machine.sawLanes r wid acq n ts = r.withRecent xs :=
    Run.foldl_withRecent (fun r t => by
      split
      · exact ⟨r.recent, rfl⟩
      · exact r.readRecent_eq wid acq none t.2.pa n) ts r
  rw [hxs]
  exact ⟨r.accesses_withRecent wid xs, rfl⟩

end Run.Loads

/-! ## The read-only cache (R250) -/

/-- The lines that the core holds of those listed are as memory has them. -/
def Run.HoldsMemory (r : Run) (core : Nat) (ls : List Nat) : Prop :=
  ∀ e ∈ (r.core core).ro, e.1 ∈ ls → e.2 = memBytes r.mem (e.1 * 256) 256

theorem Tbl.mem_of_get? {α : Type} {m : Tbl α} {n : Nat} {x : α} (h : m.get? n = some x) : (n, x) ∈ m := by
  induction m with
  | nil => cases h
  | cons e m ih =>
    obtain ⟨k, y⟩ := e
    simp only [Tbl.get?] at h
    split at h
    · next hk =>
      cases h
      exact hk ▸ List.mem_cons_self
    · exact List.mem_cons_of_mem _ (ih h)

theorem Tbl.not_mem_of_get?_eq_none {α : Type} {m : Tbl α} {n : Nat} (h : m.get? n = none) (x : α) : (n, x) ∉ m := by
  induction m with
  | nil => exact List.not_mem_nil
  | cons e m ih =>
    obtain ⟨k, y⟩ := e
    simp only [Tbl.get?] at h
    split at h
    · cases h
    · next hk =>
      rw [List.mem_cons, not_or]
      exact ⟨fun he => hk (congrArg Prod.fst he), ih h⟩

/-- A core that holds none of the lines. -/
theorem Run.holdsMemory_of_none {r : Run} {core : Nat} {ls : List Nat} (h : ∀ l ∈ ls, (r.core core).ro.get? l = none) :
    r.HoldsMemory core ls := fun e he hl => absurd he (Tbl.not_mem_of_get?_eq_none (h e.1 hl) e.2)

/-- A line filled anew is as memory has it. -/
theorem Run.HoldsMemory.roFill {r : Run} {core : Nat} {ls : List Nat} (h : r.HoldsMemory core ls) (pa : Nat) :
    (Machine.roFill r core pa).HoldsMemory core ls := by
  intro e he hl
  rw [Machine.roFill, Run.core_onCore, if_pos rfl] at he
  rcases SMap.mem_insert _ _ _ _ he with he | rfl
  · refine h e ?_ hl
    split at he
    · exact List.mem_of_mem_drop he
    · exact he
  · rfl

/-! ## The lanes read -/

/-- What one lane of this device's memory reads, and the run behind it. -/
def readLocal (r : Run) (core : Nat) (via : ReadVia) (n pa : Nat) : Nat × Run :=
  match via with
  | .cache => roRead r core pa n
  | .fill => (memRead r.mem pa n, roFill r core pa)
  | .memory => (memRead r.mem pa n, r)

theorem readLanes_cons {r : Run} {core : Nat} {via : ReadVia} {n : Nat} {t : Nat × Xlat} (ht : isAper t.2.pa = false)
    (ts : List (Nat × Xlat)) : readLanes r core via n (t :: ts) =
      ((readLanes (readLocal r core via n t.2.pa).2 core via n ts).1,
        (t.1, (readLocal r core via n t.2.pa).1) :: (readLanes (readLocal r core via n t.2.pa).2 core via n ts).2) := by
  simp only [readLanes, ht, Bool.false_eq_true, if_false]
  cases via <;> rfl

/-- A lane reads memory, filling its line or not, or a line that the core holds (R250). -/
theorem readLocal_cases (r : Run) (core : Nat) (via : ReadVia) (n pa : Nat) :
    readLocal r core via n pa = (memRead r.mem pa n, r) ∨ (∃ k, readLocal r core via n pa = (memRead r.mem pa n, roFill (r.withFresh k) core pa)) ∨
      via = .cache ∧ ∃ bs k, (pa / 256, bs) ∈ (r.core core).ro ∧
        readLocal r core via n pa = (ofLe ((bs.drop (pa % 256)).take n), r.withFresh k) := by
  cases via with
  | memory => exact .inl rfl
  | fill => exact .inr (.inl ⟨r.fresh, rfl⟩)
  | cache =>
    simp only [readLocal, roRead]
    split
    · next bs hbs _ =>
      simp only [Run.free]
      by_cases hbit : (Config.freeWord r.fresh).getLsbD 0 = true
      · exact .inr (.inl ⟨r.fresh + 1, if_pos hbit⟩)
      · exact .inr (.inr ⟨trivial, bs, r.fresh + 1, Tbl.mem_of_get? hbs, if_neg hbit⟩)
    · exact .inr (.inl ⟨r.fresh, rfl⟩)

section
variable (r : Run) (core : Nat) (via : ReadVia) (n pa : Nat)

theorem loads_readLocal (wid : Nat) : r.Loads wid (readLocal r core via n pa).2 := by
  rcases readLocal_cases r core via n pa with h | ⟨k, h⟩ | ⟨-, bs, k, -, h⟩ <;> rw [h]
  · exact .refl wid r
  · exact (Run.Loads.withFresh wid r k).trans (.roFill wid _ core pa)
  · exact .withFresh wid r k

theorem Run.HoldsMemory.readLocal {r : Run} {core : Nat} {ls : List Nat} (h : r.HoldsMemory core ls) :
    (readLocal r core via n pa).2.HoldsMemory core ls := by
  rcases readLocal_cases r core via n pa with e | ⟨k, e⟩ | ⟨-, bs, k, -, e⟩ <;> rw [e]
  · exact h
  · exact Run.HoldsMemory.roFill (r := r.withFresh k) h pa
  · exact h

end

/-- An aligned lane reads memory where the core's lines are as memory has them, or are not read. -/
theorem readLocal_value {r : Run} {core : Nat} {via : ReadVia} {pa : Nat} {ls : List Nat} (z : Size)
    (h : via = .cache → r.HoldsMemory core ls) (hl : pa / 256 ∈ ls) (ha : pa % Size.bytes z = 0) :
    (readLocal r core via (Size.bytes z) pa).1 = memRead r.mem pa (Size.bytes z) := by
  rcases readLocal_cases r core via (Size.bytes z) pa with e | ⟨k, e⟩ | ⟨hvia, bs, k, hbs, e⟩ <;> rw [e]
  have hline : bs = memBytes r.mem (pa / 256 * 256) 256 := h hvia _ hbs hl
  rw [hline]
  exact ofLe_line r.mem (unit_within_line z ha)

section
variable {core : Nat} {via : ReadVia} {ts : List (Nat × Xlat)} (hloc : AllLocal ts)
include hloc

theorem loads_readLanes (wid n : Nat) (r : Run) : r.Loads wid (readLanes r core via n ts).1 := by
  induction ts generalizing r with
  | nil => exact .refl wid r
  | cons t ts ih =>
    rw [readLanes_cons (hloc t List.mem_cons_self)]
    exact (loads_readLocal r core via n t.2.pa wid).trans (ih (fun t ht => hloc t (List.mem_cons_of_mem _ ht)) _)

theorem readLanes_lanes (n : Nat) (r : Run) : (readLanes r core via n ts).2.map (·.1) = ts.map (·.1) := by
  induction ts generalizing r with
  | nil => rfl
  | cons t ts ih =>
    rw [readLanes_cons (hloc t List.mem_cons_self)]
    exact congrArg (t.1 :: ·) (ih (fun t ht => hloc t (List.mem_cons_of_mem _ ht)) _)

/-- What each aligned lane reads. -/
theorem mem_readLanes {r : Run} (z : Size) {ls : List Nat} (h : via = .cache → r.HoldsMemory core ls)
    (hls : ∀ t ∈ ts, t.2.pa / 256 ∈ ls) {l : Nat} {x : Xlat} (hx : (l, x) ∈ ts) (ha : x.pa % Size.bytes z = 0) :
    (l, memRead r.mem x.pa (Size.bytes z)) ∈ (readLanes r core via (Size.bytes z) ts).2 := by
  induction ts generalizing r with
  | nil => cases hx
  | cons t ts ih =>
    rw [readLanes_cons (hloc t List.mem_cons_self)]
    rcases List.mem_cons.mp hx with rfl | hx
    · rw [readLocal_value z h (hls _ List.mem_cons_self) ha]
      exact List.mem_cons_self
    · have hrest := ih (fun t ht => hloc t (List.mem_cons_of_mem _ ht)) (r := (readLocal r core via (Size.bytes z) t.2.pa).2)
        (fun e => (h e).readLocal via _ _) (fun t ht => hls t (List.mem_cons_of_mem _ ht)) hx
      rw [(loads_readLocal r core via (Size.bytes z) t.2.pa 0).read Run.mem fun _ _ _ _ _ => rfl] at hrest
      exact List.mem_cons_of_mem _ hrest

end

end Sys2Proof.Machine
end

section
/-! LD and LDC (R252, R254): the registers that a load leaves. -/

namespace Sys2Proof.Machine

/-! ## Translations fill no line -/

theorem core_ro_translate (y : Sys) (r : Run) (core cid va : Nat) (k : Want) (n : Nat) :
    ((translate y r core cid va k).2.core n).ro = (r.core n).ro := by
  unfold translate
  dsimp only
  split
  · rfl
  · split
    · rfl
    · dsimp only
      rw [Run.core_onCore]
      split
      · next hn => rw [hn]
      · rfl

theorem core_ro_translateAll (y : Sys) (core cid : Nat) (k : Want) (ctrl : Bool) (xs : List (Nat × Nat)) (r : Run) (n : Nat) :
    ((translateAll y r core cid k ctrl xs).1.core n).ro = (r.core n).ro := by
  induction xs generalizing r with
  | nil => rfl
  | cons e t ih =>
    obtain ⟨l, a⟩ := e
    have h := core_ro_translate y r core cid a k n
    simp only [translateAll]
    split
    · next x r' e =>
      rw [e] at h
      split <;> exact (ih r').trans h
    · next f r' e =>
      rw [e] at h
      exact (ih r').trans h

theorem core_startWalks (r : Run) (core m n : Nat) : (r.startWalks core m).core n = r.core n := by
  unfold Run.startWalks
  split <;> rfl

theorem core_ro_globalChecks {y : Sys} {r t : Run} {c : Iss} {xs : List (Nat × Nat)} {size : Nat} {rd wr ctrl : Bool} {ts : List (Nat × Xlat)}
    (h : globalChecks y r c xs size rd wr ctrl = .ok t ts) (n : Nat) : (t.core n).ro = (r.core n).ro := by
  obtain ⟨m, hm⟩ := preTranslate_ok_inv (globalChecks_ok_inv h)
  have hro := core_ro_translateAll y (coreOf c.wid) (r.cidOf c.wid) { write := wr, priv := (r.wave c.wid).priv } ctrl xs
    (r.startWalks (coreOf c.wid) m) n
  rw [hm, core_startWalks] at hro
  exact hro

/-! ## The lanes of an access -/

theorem Lanes.nodup_toList (m : Lanes) : m.toList.Nodup := List.nodup_range.filter _

/-- A list names a lane once. -/
theorem eq_of_nodup_lanes {α : Type} {vs : List (Nat × α)} (h : (vs.map (·.1)).Nodup) {l : Nat} {x y : α} (hx : (l, x) ∈ vs)
    (hy : (l, y) ∈ vs) : y = x :=
  congrArg Prod.snd (List.inj_on_of_nodup_map h hy hx rfl)

/-- The lanes whose accesses perform: all of them, or the lowest one, of an access of scalars. -/
theorem mem_actsFor {o : Ops} {ts : List (Nat × Xlat)} {act : Lanes} (hts : ts.map (·.1) = act.toList) {l : Nat} {x : Xlat}
    (hx : (l, x) ∈ ts) (hl : Ops.vecUnit o = true ∨ l = act.lowest) : (l, x) ∈ actsFor o ts := by
  unfold actsFor
  split
  · exact hx
  · next hv =>
    have hlow : l = act.lowest := hl.resolve_left hv
    cases ts with
    | nil => cases hx
    | cons t ts =>
      have hhead : t.1 = act.lowest := by rw [Lanes.lowest, ← hts]; rfl
      have hnodup : ((t :: ts).map (·.1)).Nodup := hts ▸ Lanes.nodup_toList _
      have hmem : (l, t.2) ∈ t :: ts := by rw [hlow, ← hhead]; exact List.mem_cons_self
      rw [← eq_of_nodup_lanes hnodup hx hmem, hlow, ← hhead]
      exact List.mem_cons_self

/-! ## The wave that a load leaves to its retirement -/

def Wave.loadDone (w : Wave) (m : LdMod) (o : Ops) (c : Iss) (v : Nat → Nat) : Wave :=
  (w.putGroup o.d (groupLen o.d m.size) c.act v).owe (w.refs o.d (groupLen o.d m.size) c.act) .local (Order.isAcq m.ord) c.act c.pc

theorem groupLen_pos (o : Opd) (z : Size) : 0 < groupLen o z := by
  have hregs : 0 < Size.regs z := by cases z <;> decide
  cases o with
  | s _ => exact Nat.one_pos
  | _ => exact hregs

section
variable (w : Wave) (m : LdMod) (o : Ops) (c : Iss) (v : Nat → Nat)

theorem Wave.loadDone_kept : (w.loadDone m o c v).parts = w.parts ∧ RegsKept w (w.loadDone m o c v) c.act [(o.d, groupLen o.d m.size)] ∧
    RestKept { w with pend := (w.loadDone m o c v).pend, pendNext := w.pendNext + 1 } (w.loadDone m o c v) := by
  obtain ⟨hp, hr, hk⟩ := w.writesOnly_putGroup o.d (groupLen_pos o.d m.size) c.act v
  have hnext : (w.putGroup o.d (groupLen o.d m.size) c.act v).pendNext = w.pendNext := by
    have e := congrArg Wave.pendNext hk
    exact e
  obtain ⟨ve, se, ps, h⟩ := (w.putGroup o.d (groupLen o.d m.size) c.act v).owe_eq (w.refs o.d (groupLen o.d m.size) c.act) .local
    (Order.isAcq m.ord) c.act c.pc
  rw [Wave.loadDone, h, hnext]
  refine ⟨hp, hr, ?_⟩
  have e := congrArg (fun z : Wave => { z with pend := ps, pendNext := w.pendNext + 1 }) hk
  exact e

/-- The registers of D are empty until the values arrive. -/
theorem Wave.isEmpty_loadDone {x : RegRef} (hx : x ∈ w.refs o.d (groupLen o.d m.size) c.act) (hm : x.mask ≠ 0) :
    (w.loadDone m o c v).isEmpty x = true := by
  refine Wave.isEmpty_markEmpty _ hx (fun _ => hm) fun hv => ?_
  cases ho : o.d with
  | s k =>
    rw [ho] at hx
    obtain ⟨i, hi, rfl⟩ := List.mem_map.mp hx
    have hi : i < 1 := List.mem_range.mp hi
    have hk : k.toNat < 128 := k.isLt
    show k.toNat + i < 128
    omega
  | v k | rel k j => exact absurd (Wave.vec_of_mem_refs (by rw [ho]; rfl) hx) (by simp [hv])
  | _ =>
    rw [ho] at hx
    cases hx

theorem Wave.lane_loadDone (hd : Opd.laneReg o.d = true) {l : Nat} (hl : l < 32) (ha : c.act.getLsbD l = true) (hx : 0 ≤ w.vIdx o.d l)
    {i : Nat} (hi : i < groupLen o.d m.size) : w.lane (w.loadDone m o c v) o.d i l = part32 (v l) i := by
  have hs : ∀ n, o.d ≠ .s n := fun n e => by rw [e] at hd; cases hd
  rw [Wave.loadDone, Wave.lane_owe, Wave.putGroup_eq_putParts _ hs]
  exact w.lane_putParts hd hi v hl ha hx

theorem Wave.sReg_loadDone {d : BitVec 7} (hd : o.d = .s d) : (w.loadDone m o c v).sReg d.toNat = BitVec.ofNat 64 (v c.act.lowest) := by
  rw [Wave.loadDone, Wave.sReg_owe, hd]
  exact (w.sReg_setS _ _ _).trans (if_pos rfl)

end

/-! ## The effect -/

/-- What a load writes in a lane, of what the lanes read. -/
def loadVal (m : LdMod) (o : Ops) (vs : List (Nat × Nat)) (l : Nat) : Nat :=
  extend m.sx (Size.bytes m.size) (loadWidth o.d m.size) (laneVal vs l)

/-- The lanes of this device's memory read, and D takes what they read. -/
theorem loadPerform_eq {ts : List (Nat × Xlat)} (hloc : AllLocal ts) (m : LdMod) (via : ReadVia) (o : Ops) (r : Run) (c : Iss) :
    ∃ t, r.Loads c.wid t ∧ loadPerform m via o r c ts = .ok (t.onWave c.wid (fun w => w.loadDone m o c
      (loadVal m o (readLanes r (coreOf c.wid) via (Size.bytes m.size) (actsFor o ts)).2))) () := by
  have hacts := hloc.actsFor o
  refine ⟨_, (loads_readLanes (core := coreOf c.wid) (via := via) hacts c.wid (Size.bytes m.size) r).trans
    (.sawLanes c.wid _ (if Order.isAcq m.ord then some m.scope else none) (Size.bytes m.size) (actsFor o ts)), ?_⟩
  simp only [loadPerform, hacts.lineBusy, hacts.remotes, List.foldl_nil, if_true]
  rfl

section
variable {s : State} {m : LdMod} {o : Ops} {c : Iss} {r : Run} {ts : List (Nat × Xlat)}
  (hck : globalChecks s.sys s.run c (s.run.gaddrs c o m) (Size.bytes m.size) true false true = .ok r ts)
include hck

theorem lanes_of_globalChecks : ts.map (·.1) = c.act.toList := by
  rw [globalChecks_lanes hck, Run.gaddrs, List.map_map]
  exact List.map_id _

theorem ldEff_eq_loadPerform :
    ldEff m o s.sys s.run c = loadPerform m (if m.pol = .ro then .cache else .memory) o r c ts := by
  rw [ldEff, hck]
  rfl

/-- LDC performs where each lane's bytes are read-only or sealed (R254). -/
theorem ldcEff_eq_loadPerform (hro : ∀ e ∈ (s.run.gaddrs c o m).zip ts,
    (e.2.2.ro || sealedWhole (s.run.ctx (s.run.cidOf c.wid)) e.1.2 (e.1.2 + Size.bytes m.size)) = true) :
    ldcEff m o s.sys s.run c = loadPerform m .fill o r c ts := by
  have hctx : r.ctx (r.cidOf c.wid) = s.run.ctx (s.run.cidOf c.wid) :=
    (Run.Loads.of_globalChecks c.wid hck).read (fun x => x.ctx (x.cidOf c.wid)) fun _ _ _ _ _ => rfl
  have hnone : ((s.run.gaddrs c o m).zip ts).filter (fun e =>
      !(e.2.2.ro || sealedWhole (s.run.ctx (s.run.cidOf c.wid)) e.1.2 (e.1.2 + Size.bytes m.size))) = [] :=
    List.filter_eq_nil_iff.mpr fun e he => by rw [hro e he]; exact Bool.false_ne_true
  rw [ldcEff, hck]
  simp only [Eff.bind, hctx, hnone]

variable {via : ReadVia} (hloc : AllLocal ts)
include hloc

/-- What an aligned lane of a load takes, of memory as it was before the checks. -/
theorem loadVal_of_mem (hvia : via = .cache → ∀ e ∈ ts, (s.run.core (coreOf c.wid)).ro.get? (e.2.pa / 256) = none) {l : Nat} {x : Xlat}
    (hx : (l, x) ∈ ts) (hal : x.pa % Size.bytes m.size = 0) (hl : Ops.vecUnit o = true ∨ l = c.act.lowest) :
    loadVal m o (readLanes r (coreOf c.wid) via (Size.bytes m.size) (actsFor o ts)).2 l =
      extend m.sx (Size.bytes m.size) (loadWidth o.d m.size) (memRead s.run.mem x.pa (Size.bytes m.size)) := by
  have hloads := Run.Loads.of_globalChecks c.wid hck
  have hacts := hloc.actsFor o
  have hts := lanes_of_globalChecks hck
  have hmem : r.mem = s.run.mem := hloads.read Run.mem fun _ _ _ _ _ => rfl
  have hnodup : ((readLanes r (coreOf c.wid) via (Size.bytes m.size) (actsFor o ts)).2.map (·.1)).Nodup := by
    rw [readLanes_lanes hacts]
    exact (hts ▸ Lanes.nodup_toList _).sublist ((actsFor_sublist o ts).map _)
  have hheld : via = .cache → r.HoldsMemory (coreOf c.wid) (ts.map fun e => e.2.pa / 256) := fun e => by
    refine Run.holdsMemory_of_none fun k hk => ?_
    obtain ⟨t, ht, rfl⟩ := List.mem_map.mp hk
    rw [core_ro_globalChecks hck]
    exact hvia e t ht
  have hread := mem_readLanes hacts m.size hheld
    (fun t ht => List.mem_map.mpr ⟨t, (actsFor_sublist o ts).subset ht, rfl⟩) (mem_actsFor hts hx hl) hal
  rw [loadVal, laneVal_of_mem hread fun y hy => eq_of_nodup_lanes hnodup hread hy, hmem]

end

/-! ## The issue -/

/-- How LD and LDC issue. -/
abbrev loadHow (h : Hd) (m : LdMod) (o : Ops) : How := { uses := loadUses h m o, mem := true }

/-- LD and LDC read each lane the one way or the other. -/
theorem load_exec {s : State} {h : Hd} {m : LdMod} {o : Ops} {c : Iss} {r : Run} {ts : List (Nat × Xlat)} {ldc : Bool}
    (hck : globalChecks s.sys s.run c (s.run.gaddrs c o m) (Size.bytes m.size) true false true = .ok r ts)
    (hro : ldc = true → ∀ e ∈ (s.run.gaddrs c o m).zip ts,
      (e.2.2.ro || sealedWhole (s.run.ctx (s.run.cidOf c.wid)) e.1.2 (e.1.2 + Size.bytes m.size)) = true) :
    ∃ via eff, exec (if ldc then .ldc h m o else .ld h m o) s = issue s h (loadHow h m o) (ordered false false eff) ∧
      eff s.sys s.run c = loadPerform m via o r c ts ∧ (via = .cache → ldc = false ∧ m.pol = .ro) := by
  cases ldc with
  | true => exact ⟨.fill, ldcEff m o, rfl, ldcEff_eq_loadPerform hck (hro rfl), ReadVia.noConfusion⟩
  | false =>
    refine ⟨_, ldEff m o, rfl, ldEff_eq_loadPerform hck, fun hvia => ⟨rfl, ?_⟩⟩
    by_contra hpol
    rw [if_neg hpol] at hvia
    cases hvia

/-- LD or LDC from this device's memory, the checks passed: its lines are not yet held where it reads them (R250). -/
theorem load_completes {s : State} {h : Hd} {m : LdMod} {o : Ops} {c : Iss} {r : Run} {ts : List (Nat × Xlat)} {ldc : Bool}
    (hI : Issues s h c (loadUses h m o)) (hacq : (s.wv c).acquirePending = false)
    (hck : globalChecks s.sys s.run c (s.run.gaddrs c o m) (Size.bytes m.size) true false true = .ok r ts) (hloc : AllLocal ts)
    (hro : ldc = true → ∀ e ∈ (s.run.gaddrs c o m).zip ts,
      (e.2.2.ro || sealedWhole (s.run.ctx (s.run.cidOf c.wid)) e.1.2 (e.1.2 + Size.bytes m.size)) = true) :
    Completes (exec (if ldc then .ldc h m o else .ld h m o) s) (fun t => AccessFrame s t c.wid ∧ t.run.mem = s.run.mem ∧
      t.run.ctxs = s.run.ctxs ∧ RegsKept (s.wv c) (t.wv c) c.act [(o.d, groupLen o.d m.size)] ∧ MovedOn s t c ∧
      RestKept { s.wv c with pend := (t.wv c).pend, pendNext := (s.wv c).pendNext + 1 } (t.wv c) ∧
      (∀ x ∈ (s.wv c).refs o.d (groupLen o.d m.size) c.act, x.mask ≠ 0 → (t.wv c).isEmpty x = true) ∧
      (ldc = true ∨ m.pol ≠ .ro ∨ (∀ e ∈ ts, (s.run.core (coreOf c.wid)).ro.get? (e.2.pa / 256) = none) →
        ∀ l x, (l, x) ∈ ts → x.pa % Size.bytes m.size = 0 →
          let v := extend m.sx (Size.bytes m.size) (loadWidth o.d m.size) (memRead s.run.mem x.pa (Size.bytes m.size))
          (Opd.laneReg o.d = true → l < 32 → c.act.getLsbD l = true → ∀ i, i < groupLen o.d m.size →
            (s.wv c).lane (t.wv c) o.d i l = part32 v i) ∧
          (∀ d, o.d = .s d → l = c.act.lowest → (t.wv c).sReg d.toNat = BitVec.ofNat 64 v))) := by
  obtain ⟨via, eff, hexec, heff, hcache⟩ := load_exec hck hro (h := h)
  have hvia (hopen : ldc = true ∨ m.pol ≠ .ro ∨ ∀ e ∈ ts, (s.run.core (coreOf c.wid)).ro.get? (e.2.pa / 256) = none) (e : via = .cache) :
      ∀ e ∈ ts, (s.run.core (coreOf c.wid)).ro.get? (e.2.pa / 256) = none := by
    obtain ⟨hld, hpol⟩ := hcache e
    rcases hopen with h | h | h
    · exact absurd (hld.symm.trans h) Bool.false_ne_true
    · exact absurd hpol h
    · exact h
  obtain ⟨t, hloads, hperf⟩ := loadPerform_eq hloc m via o r c
  have hall := (Run.Loads.of_globalChecks c.wid hck).trans hloads
  set v := loadVal m o (readLanes r (coreOf c.wid) via (Size.bytes m.size) (actsFor o ts)).2 with hv
  set u := t.onWave c.wid (fun w => w.loadDone m o c v)
  obtain ⟨w, hw, -, hww⟩ := Run.issuer_wave _ _ _ hI.1
  have hwv : s.wv c = w := hww
  have hwaves : t.waves = s.run.waves := hall.read Run.waves fun _ _ _ _ _ => rfl
  have hwave : (u.retire c h (loadHow h m o)).wave c.wid = Wave.retired t.clk c h (loadHow h m o) ((s.wv c).loadDone m o c v) := by
    rw [hwv]
    exact wave_onWave_retire (hwaves ▸ hw)
  obtain ⟨hp, hr, hk⟩ := (s.wv c).loadDone_kept m o c v
  have hpend : ((u.retire c h (loadHow h m o)).wave c.wid).pend = ((s.wv c).loadDone m o c v).pend := by
    rw [hwave, Wave.retired_pend]
  rw [hexec]
  refine ⟨_, issue_ok' (k := loadHow h m o) hI (.inl rfl) (.inl rfl) rfl
    ((ordered_eq hacq (fun e => absurd e Bool.false_ne_true) eff s.sys).trans (heff.trans hperf)), ?_⟩
  dsimp only [State.wv] at hwave ⊢
  rw [hpend, hwave]
  refine ⟨?_, ?_, ?_, hr.retired, ?_, hk.retired rfl, fun x hx hm => ?_, fun hopen l x hx hal => ⟨fun hd hl ha i hi => ?_, fun d hd hl => ?_⟩⟩
  · exact ((hall.accesses.trans (t.accesses_onWave c.wid _)).trans (u.accesses_retire c h _)).accessFrame
  · rw [Run.retire_mem]
    exact hall.read Run.mem fun _ _ _ _ _ => rfl
  · rw [Run.retire_ctxs]
    exact hall.read Run.ctxs fun _ _ _ _ _ => rfl
  · unfold MovedOn
    rw [hwave, Wave.retired_parts _ _ _ _ _ rfl rfl, Wave.advance_parts, Wave.onParts_parts]
    exact congrArg _ hp
  · rw [Wave.isEmpty_retired]
    exact Wave.isEmpty_loadDone _ m o c v hx hm
  · have hin : 0 ≤ (s.wv c).vIdx o.d l := vIdx_nonneg_of_bad (u := ⟨0, o.d, groupLen o.d m.size, true, false, none⟩) (groupLen_pos o.d m.size)
      (bad_eq_none_of_checkUses hI.2.2 List.mem_cons_self rfl hl ha)
    rw [Wave.lane_retired]
    refine ((s.wv c).lane_loadDone m o c v hd hl ha hin hi).trans ?_
    rw [hv, loadVal_of_mem hck hloc (hvia hopen) hx hal (.inl (Ops.vecUnit_of_laneReg hd))]
  · have hreg := (s.wv c).sReg_loadDone m o c v hd
    rw [hv, ← hl, loadVal_of_mem hck hloc (hvia hopen) hx hal (.inr hl)] at hreg
    exact (Wave.retired_read (fun w => w.sReg d.toNat) (fun _ _ _ _ _ => rfl) _ _ _ _ _).trans hreg

end Sys2Proof.Machine
end

section
/-! The checks of an access that come before it performs (R247): its alignment, then the 52 bits of its address. -/

namespace Sys2Proof.Machine

/-- The lanes at fault are exactly those of the trap. -/
theorem getLsbD_mask_faulty (sub : Nat) (act : Lanes) (off : Nat → Nat) (bad : Nat → Bool) {l : Nat} (hl : l < 32) :
    (memTrap sub (faultyOffsets act off bad)).mask.getLsbD l = true ↔ act.getLsbD l = true ∧ bad (off l) = true := by
  have h := getLsbD_mask_memTrap sub 0 act off bad l hl
  simp only [Nat.zero_add, Prod.mk.eta, List.map_id'] at h
  exact h

/-- The words of the trap are the addresses of its lanes. -/
theorem lw_faulty (sub : Nat) {act : Lanes} {off : Nat → Nat} {bad : Nat → Bool} {l : Nat} {x : Word64}
    (h : (l, x) ∈ (memTrap sub (faultyOffsets act off bad)).lw) : x = BitVec.ofNat 64 (off l) := by
  obtain ⟨e, he, hx⟩ := List.mem_map.mp h
  obtain ⟨-, hoff, -⟩ := (mem_faultyOffsets act off bad e).mp he
  cases hx
  rw [hoff]

section
variable {w : Wave} {b : Block} {x : Ctx} {act : Lanes} {off : Nat → Nat} {size : Nat} {rd wr : Bool}

theorem issueChecks_misaligned (h : faultyOffsets act off (fun a => a % size ≠ 0) ≠ []) :
    issueChecks w b x (act.toList.map (fun l => (l, off l))) size rd wr = some (memTrap 0x10 (faultyOffsets act off (fun a => a % size ≠ 0))) :=
  if_pos h

theorem issueChecks_far (hal : ¬faultyOffsets act off (fun a => a % size ≠ 0) ≠ []) (h : faultyOffsets act off (fun a => 2 ^ 52 ≤ a) ≠ []) :
    issueChecks w b x (act.toList.map (fun l => (l, off l))) size rd wr = some (memTrap 0x11 (faultyOffsets act off (fun a => 2 ^ 52 ≤ a))) :=
  (if_neg hal).trans (if_pos h)

end

/-- LD and LDC, and an ST that does not go on behind its wait for the commit token. -/
inductive ChecksAtIssue (s : State) (h : Hd) (m : LdMod) (o : Ops) (c : Iss) : Instr → List Use → Prop
  | ld : ChecksAtIssue s h m o c (.ld h m o) (loadUses h m o)
  | ldc : ChecksAtIssue s h m o c (.ldc h m o) (loadUses h m o)
  | st : (s.wv c).tokenKept c.m = none → ChecksAtIssue s h m o c (.st h m o) (stHow h m o).uses

section
variable {s : State} {h : Hd} {m : LdMod} {o : Ops} {c : Iss} {i : Instr} {us : List Use} (hi : ChecksAtIssue s h m o c i us)
  (hI : Issues s h c us) (hq : Quiet s c)
include hi hI hq

/-- What the checks at issue find is the trap of the access. -/
theorem ChecksAtIssue.traps {tr : Trap} (hchk : ∀ w b x rd wr, issueChecks w b x (s.run.gaddrs c o m) (Size.bytes m.size) rd wr = some tr) :
    Traps s i c tr := by
  have hck (rd wr ctrl : Bool) : globalChecks s.sys s.run c (s.run.gaddrs c o m) (Size.bytes m.size) rd wr ctrl = .trap s.run tr := by
    simp only [globalChecks, hchk]
  cases hi with
  | ld =>
    refine issue_trap (k := loadHow h m o) hI (.inl rfl) (.inl rfl) ((ordered_of_quiet hq false false (ldEff m o) s.sys).trans ?_)
    rw [ldEff, hck]
    rfl
  | ldc =>
    refine issue_trap (k := loadHow h m o) hI (.inl rfl) (.inl rfl) ((ordered_of_quiet hq false false (ldcEff m o) s.sys).trans ?_)
    rw [ldcEff, hck]
    rfl
  | st hfree =>
    refine issue_trap (k := stHow h m o) hI (.inl rfl) (.inl rfl)
      ((ordered_of_quiet hq (Order.isRel m.ord) (m.scope = .sys) (stEff m o) s.sys).trans ?_)
    have hgated : gatedChecks s.sys s.run c { write := true, priv := (s.run.wave c.wid).priv } false (s.run.gaddrs c o m)
        (globalChecks s.sys s.run c (s.run.gaddrs c o m) (Size.bytes m.size) false true false) = .trap s.run tr := by
      have hfree : (s.run.wave c.wid).tokenKept c.m = none := hfree
      rw [gatedChecks, hfree]
      exact hck false true false
    simp only [stEff, hgated]
    rfl

/-- A lane whose address is no multiple of the size (R247). -/
theorem access_misaligned (hbad : ∃ l, l < 32 ∧ c.act.getLsbD l = true ∧ s.run.gaddr c o m l % Size.bytes m.size ≠ 0) :
    ∃ tr, tr.cls = 7 ∧ tr.sub = 0x10 ∧
      (∀ l, l < 32 → (tr.mask.getLsbD l = true ↔ c.act.getLsbD l = true ∧ s.run.gaddr c o m l % Size.bytes m.size ≠ 0)) ∧
      (∀ l x, (l, x) ∈ tr.lw → x = BitVec.ofNat 64 (s.run.gaddr c o m l)) ∧ Traps s i c tr := by
  have hne := (faultyOffsets_ne_nil c.act (s.run.gaddr c o m) (fun a => a % Size.bytes m.size ≠ 0)).mpr (by simpa using hbad)
  refine ⟨_, rfl, rfl, fun l hl => ?_, fun l x hx => lw_faulty 0x10 hx, hi.traps hI hq fun w b x rd wr => issueChecks_misaligned hne⟩
  rw [getLsbD_mask_faulty _ _ _ _ hl, decide_eq_true_iff]

/-- The addresses aligned, a lane whose address takes more than 52 bits (R247). -/
theorem access_far (hal : ∀ l, l < 32 → c.act.getLsbD l = true → s.run.gaddr c o m l % Size.bytes m.size = 0)
    (hbad : ∃ l, l < 32 ∧ c.act.getLsbD l = true ∧ 2 ^ 52 ≤ s.run.gaddr c o m l) :
    ∃ tr, tr.cls = 7 ∧ tr.sub = 0x11 ∧
      (∀ l, l < 32 → (tr.mask.getLsbD l = true ↔ c.act.getLsbD l = true ∧ 2 ^ 52 ≤ s.run.gaddr c o m l)) ∧ Traps s i c tr := by
  have hne := (faultyOffsets_ne_nil c.act (s.run.gaddr c o m) (fun a => 2 ^ 52 ≤ a)).mpr (by simpa using hbad)
  have hnil : ¬faultyOffsets c.act (s.run.gaddr c o m) (fun a => a % Size.bytes m.size ≠ 0) ≠ [] := by
    rw [faultyOffsets_ne_nil]
    rintro ⟨l, hl, ha, hm⟩
    exact absurd (hal l hl ha) (of_decide_eq_true hm)
  refine ⟨_, rfl, rfl, fun l hl => ?_, hi.traps hI hq fun w b x rd wr => issueChecks_far hnil hne⟩
  rw [getLsbD_mask_faulty _ _ _ _ hl, decide_eq_true_iff]

end

end Sys2Proof.Machine
end

section
/-! O29, settled: it fails where an ST goes on behind its wait for the commit token, since it then keeps its translations and checks its
addresses no more (R247). What it states of LD and LDC, and of an ST that has not waited, holds (`load_completes`, `access_misaligned`,
`access_far`). -/

namespace Sys2Proof.Machine

theorem takeTrap_mem (r : Run) (wid : Nat) (m : Lanes) (pc : Word64) (word : BitVec 96) (t : Trap) :
    (takeTrap r wid m pc word t).mem = r.mem := by
  unfold takeTrap
  dsimp only
  split
  · rfl
  · split
    · exact supervisorEntry_mem ..
    · split
      · split
        · exact supervisorEntry_mem ..
        · rfl
      · split
        · exact supervisorEntry_mem ..
        · exact supervisorEntry_mem ..

/-- A trap changes no byte of memory, in a wave or in a stream. -/
theorem trapAt_mem (y : Sys) (r : Run) (c : Iss) (t : Trap) : (trapAt y r c t).mem = r.mem := by
  unfold trapAt
  split
  · rfl
  · exact takeTrap_mem ..

/-- A word store of s2 to the address in s1. -/
abbrev storeAtBase : Ops := { d := .s 2, a := .s 1 }

abbrev wordAccess : LdMod := { size := .b32 }

/-- The translation of the aligned address 0x1000, of a page shared between blocks. -/
def keptXlat : Xlat := { pa := 0x1000, w := true, sh := true, ro := false, gpa := 0x1000, va := 0x1000, page := 0, size := 0x10000 }

/-- A wave of lane 0 alone, of a DET launch, has waited at its store for the commit token with that translation, and the token is free.
Its s1, which another part of the wave may have written meanwhile, holds 1, and its s2 holds 7. -/
def behindToken : State where
  run := { State.reset.run with
    waves := [(0, { parts := [⟨0, 0, none, 1, 0, 0, .retry (.token [(0, keptXlat)])⟩], s := [(1, 1), (2, 7)] })]
    blocks := [(0, { launch := 0, ctx := 0, nbh := 0, index := 0 })]
    launches := [(0, { info := { det := true } })]
    cur := ⟨0, 1, none⟩ }
  sys := State.reset.sys

def storeUses : List Use := [⟨0, .s 2, 1, false, false, none⟩, ⟨1, .s 1, 1, false, false, none⟩, ⟨2, .none, 1, false, false, none⟩]

theorem issues_behindToken : Issues behindToken {} loneLane storeUses := by
  unfold Issues
  decide

theorem quiet_behindToken : Quiet behindToken loneLane := by
  unfold Quiet
  decide

/-- Its address is no multiple of 4. -/
theorem misaligned_behindToken : behindToken.run.gaddr loneLane storeAtBase wordAccess 0 % 4 ≠ 0 := by decide

/-- The store writes its word where its translation leads. -/
theorem memGet_behindToken {t : State} (ht : exec (.st {} wordAccess storeAtBase) behindToken = .next t) : memGet t.run.mem 0x1000 = 7 := by
  have heval : (match exec (.st {} wordAccess storeAtBase) behindToken with
    | .next t => memGet t.run.mem 0x1000
    | _ => 0) = 7 := by decide
  rw [ht] at heval
  exact heval

/-- Refutes O29: the statement has every misaligned ST trap, whatever its group has waited for. Here the ST stores its word. -/
theorem not_loadResult : ¬ Obligations.LoadResult := by
  rintro ⟨-, hchecks⟩
  obtain ⟨hmisaligned, -⟩ := hchecks behindToken {} wordAccess storeAtBase loneLane (.st {} wordAccess storeAtBase) storeUses (.inr ⟨rfl, rfl⟩)
    issues_behindToken quiet_behindToken
  obtain ⟨tr, -, -, -, -, htraps⟩ := hmisaligned ⟨0, by decide, by decide, misaligned_behindToken⟩
  have hstored := memGet_behindToken htraps
  rw [trapAt_mem] at hstored
  exact absurd hstored (by decide)

end Sys2Proof.Machine
end

section
/-! O35, settled: it fails at an indexed copy whose elements have no bytes, since the bytes to its next resting place are then 0 - 0 and a
channel never carries it on (R269, R277). No CPYG or CPYS makes such a copy (R266), but the command log of a migration is taken in unchecked
(R533), and the statement is of every copy at the head of a channel. -/

namespace Sys2Proof.Machine

/-! ## The head of a channel -/

theorem Run.channel_setChannel (r : Run) (core ch : Nat) (q : List CopyOp) : (r.setChannel core ch q).channel core ch = q := by
  simp only [Run.channel, Run.setChannel, Run.core_onCore, if_true]
  split
  · next hq => simp [hq]
  · simp

theorem Run.channel_onHead {r : Run} {core ch : Nat} {op : CopyOp} {rest : List CopyOp} (hc : r.channel core ch = op :: rest)
    (f : CopyOp → CopyOp) : (r.onHead core ch f).channel core ch = f op :: rest := by
  simp only [Run.onHead, hc, Run.channel_setChannel]

/-! ## Elements of no bytes -/

/-- Such a copy has no byte to go to the end of its element. -/
theorem CopyOp.edge_of_elem_zero {op : CopyOp} (hk : op.kind ≠ 0) (he : op.elem = 0) : op.edge = 0 := by
  simp only [CopyOp.edge, CopyOp.unit, hk, he, if_false, Nat.zero_sub]

/-- A channel at work delivers no byte of a head copy that has none to its next resting place: it only notes that it has begun. -/
theorem copyGo_of_edge_zero {r : Run} {core ch : Nat} {op : CopyOp} {rest : List CopyOp} (hc : r.channel core ch = op :: rest)
    (he : op.edge = 0) (y : Sys) : ∃ op', (copyGo y r core ch).channel core ch = op' :: rest ∧ op'.delivered = op.delivered := by
  simp only [copyGo, hc, he, copyRun]
  split
  · exact ⟨op, hc, rfl⟩
  · exact ⟨{ op with started := true }, Run.channel_onHead hc _, rfl⟩

theorem exec_copyStart_of_edge_zero {s t : State} {core ch : Nat} {op : CopyOp} {rest : List CopyOp}
    (hc : s.run.channel core ch = op :: rest) (he : op.edge = 0) (ht : exec (.copyStart core ch) s = .next t) :
    ∃ op', t.run.channel core ch = op' :: rest ∧ op'.delivered = op.delivered := by
  cases ht
  exact copyGo_of_edge_zero hc he s.sys

/-- A byte of a copy in the scratchpad is where its address resolves (R215), and nothing else changes. -/
theorem copyAt_scratchpad {r : Run} {core : Nat} {op : CopyOp} {wr : Bool} {a b x : Nat}
    (h : scrResolve r op.blk core (slotOf op.wave) op.priv (a % 2 ^ 32) 1 wr = .ok (.blk b x)) (y : Sys) :
    copyAt y r core op true wr a = .place r (.scr b x) := by
  simp only [copyAt, h, if_true]

/-! ## A copy out of a migration's command log -/

/-- Item 8 of a final transfer as `takeItem` reads it (R532), for channel 0: a CPYG in block 0's scratchpad, one byte from 0x200 to
0x100, of element size 0. -/
def movedCopy : Nat × CopyOp := copyOf [0, 0, 0, 1, 1, 1, 0, 0, 0x200, 0x100, 1, 0, 0x300, 0, 0, 0, 0, 0, 0, 0] none

/-- Block 0 is there, and the copy has come back into its channel of core 0. -/
def movedIn : State where
  run := { State.reset.run with
    blocks := [(0, { launch := 0, ctx := 0, nbh := 0, index := 0, size := 0x1000 })]
    cores := [(0, { channels := restoreCopy 0 [] movedCopy })] }
  sys := State.reset.sys

theorem channel_movedIn : movedIn.run.channel 0 0 = [movedCopy.2] := by decide

/-- Nothing holds the channel back. -/
theorem runs_movedIn : movedIn.run.walkerFree 0 = true ∧ movedCopy.2.stays = false ∧ movedIn.run.copyMoves movedCopy.2 = true := by decide

/-- The run in which the channel has begun the copy. -/
abbrev begun : Run := movedIn.run.onHead 0 0 (fun o => { o with started := true })

abbrev begunCopy : CopyOp := { movedCopy.2 with started := true }

/-- Refutes O35: the statement has COPY_START deliver the last byte of a copy whose two places are here. Here it delivers none. -/
theorem not_copies : ¬ Obligations.Copies := by
  rintro ⟨-, hchannels, -⟩
  obtain ⟨-, -, hbyte, -⟩ := hchannels movedIn 0 0 movedCopy.2 [] channel_movedIn
  have hindex : elemIndex begun 0 begunCopy 0 = .ok 0 := rfl
  have hsrc : scrResolve begun 0 0 0 false 0x200 1 false = .ok (.blk 0 0x200) := rfl
  have hdst : scrResolve begun 0 0 0 false 0x100 1 true = .ok (.blk 0 0x100) := rfl
  have hblock : (movedIn.run.blocks.get? 0).isSome = true := rfl
  have hapart : begunCopy.overlaps begun 0 (.scr 0 0x100) 0x100 = false := by decide
  obtain ⟨t, ht, -, -, op', hop', hdelivered⟩ := hbyte 0 begun begun (.scr 0 0x200) (.scr 0 0x100) runs_movedIn (.inr rfl) hindex
    (copyAt_scratchpad hsrc movedIn.sys) (copyAt_scratchpad hdst movedIn.sys) hblock hblock hapart
  obtain ⟨op, hop, hkept⟩ := exec_copyStart_of_edge_zero channel_movedIn (CopyOp.edge_of_elem_zero (by decide) rfl) ht
  obtain ⟨rfl, -⟩ := List.cons.inj (hop.symm.trans hop')
  exact absurd (hdelivered.symm.trans hkept) (by decide)

end Sys2Proof.Machine
end

section
/-! The groups of a wave that wait in MWAIT (R92, R293): where its parts lie apart, a part belongs to the one group it issues with, and the
returns of some of the groups move on just the parts that wait in them. -/

namespace Sys2Proof.Machine

/-! ## Groups (R92) -/

/-- Whether a part issues with another. -/
def Part.issuesWith (q p : Part) : Bool :=
  q.uid = p.uid || (q.frag.isNone && p.frag.isNone && q.pc = p.pc && q.park.joins p.park)

/-- A group's lanes are those of the parts that issue with it. -/
theorem Wave.and_groupOf_ne_zero (w : Wave) (p : Part) (m : Lanes) :
    (m &&& w.groupOf p) ≠ 0 ↔ ∃ q ∈ w.parts, q.issuesWith p = true ∧ (m &&& q.mask) ≠ 0 := by
  have hfold : w.groupOf p = w.parts.foldl (fun g q => g ||| if q.issuesWith p then q.mask else 0) 0 :=
    List.foldl_ext _ _ _ fun g q _ => by
      change (if q.issuesWith p then g ||| q.mask else g) = _
      split <;> simp
  have hlane (l : Nat) : (w.groupOf p).getLsbD l = true ↔ ∃ q ∈ w.parts, q.issuesWith p = true ∧ q.mask.getLsbD l = true := by
    rw [hfold, getLsbD_foldl_or]
    have hbit (q : Part) : (if q.issuesWith p then q.mask else 0 : Lanes).getLsbD l = true ↔
        q.issuesWith p = true ∧ q.mask.getLsbD l = true := by
      cases q.issuesWith p <;> simp
    simp only [hbit]
    exact or_iff_right (by simp)
  simp only [Lanes.ne_zero_iff, BitVec.getLsbD_and, Bool.and_eq_true, hlane]
  constructor
  · rintro ⟨l, hm, q, hq, hj, hl⟩
    exact ⟨q, hq, hj, l, hm, hl⟩
  · rintro ⟨q, hq, hj, l, hm, hl⟩
    exact ⟨l, hm, q, hq, hj, hl⟩

/-! ## The groups in MWAIT (R293) -/

/-- A wave's waits in MWAIT are those of the groups of its parts that wait there. -/
theorem Wave.mem_mwaits {w : Wave} {g : Lanes} {t : Option Nat} {d : BitVec 7} :
    (g, t, d) ∈ w.mwaits ↔ ∃ p ∈ w.parts, p.park = .mwait t d ∧ w.groupOf p = g := by
  simp only [Wave.mwaits, List.mem_dedup, List.mem_filterMap]
  refine exists_congr fun p => and_congr_right fun _ => ?_
  cases p.park with
  | mwait t' d' =>
    simp only [Option.some.injEq, Prod.mk.injEq, Park.mwait.injEq]
    exact ⟨fun ⟨hg, ht, hd⟩ => ⟨⟨ht, hd⟩, hg⟩, fun ⟨⟨ht, hd⟩, hg⟩ => ⟨hg, ht, hd⟩⟩
  | _ => simp

/-- A part joins one that waits in MWAIT where it waits in the same way. -/
theorem Park.joins_mwait (j : Park) (t : Option Nat) (d : BitVec 7) : j.joins (.mwait t d) = true ↔ j = .mwait t d := by
  simp [Park.joins]

/-- The parts of a wave have lanes, and no two have a number or a lane in common. -/
structure Wave.Apart (w : Wave) : Prop where
  lanes : ∀ p ∈ w.parts, p.mask ≠ 0
  apart : w.parts.Pairwise (fun p q => p.uid ≠ q.uid ∧ p.mask &&& q.mask = 0)

section
variable {w : Wave} (h : w.Apart) {p q : Part} (hp : p ∈ w.parts) (hq : q ∈ w.parts)
include h hp hq

theorem Wave.Apart.ne (hne : p ≠ q) : p.uid ≠ q.uid ∧ p.mask &&& q.mask = 0 := by
  have hsymm : Std.Symm fun p q : Part => p.uid ≠ q.uid ∧ p.mask &&& q.mask = 0 :=
    ⟨fun _ _ ⟨hu, hm⟩ => ⟨hu.symm, (BitVec.and_comm ..).trans hm⟩⟩
  exact h.apart.forall hp hq hne

theorem Wave.Apart.eq_of_uid (hu : p.uid = q.uid) : p = q :=
  not_not.mp fun hne => (h.ne hp hq hne).1 hu

theorem Wave.Apart.eq_of_mask (hm : (p.mask &&& q.mask) ≠ 0) : p = q :=
  not_not.mp fun hne => hm (h.ne hp hq hne).2

theorem Wave.Apart.issuesWith_mwait {t : Option Nat} {d : BitVec 7} (hw : p.park = .mwait t d) :
    q.issuesWith p = true ↔ q = p ∨ q.frag = none ∧ p.frag = none ∧ q.pc = p.pc ∧ q.park = p.park := by
  simp only [Part.issuesWith, hw, Bool.or_eq_true, Bool.and_eq_true, decide_eq_true_eq, Option.isNone_iff_eq_none, Park.joins_mwait,
    and_assoc]
  exact or_congr_left ⟨h.eq_of_uid hq hp, congrArg Part.uid⟩

end

section
variable {w : Wave} (h : w.Apart)
include h

/-- The group of a part that issues with one in MWAIT is that one's. -/
theorem Wave.Apart.groupOf_mwait {p q : Part} (hp : p ∈ w.parts) (hq : q ∈ w.parts) {t : Option Nat} {d : BitVec 7}
    (hw : p.park = .mwait t d) (hj : q.issuesWith p = true) : q.park = .mwait t d ∧ w.groupOf q = w.groupOf p := by
  rcases (h.issuesWith_mwait hp hq hw).mp hj with rfl | ⟨hqf, hpf, hpc, hpark⟩
  · exact ⟨hw, rfl⟩
  · have hqw := hpark.trans hw
    have hsame (x : Part) (hx : x ∈ w.parts) : x.issuesWith q = x.issuesWith p := by
      rw [Bool.eq_iff_iff, h.issuesWith_mwait hq hx hqw, h.issuesWith_mwait hp hx hw, hqf, hpf, hpc, hpark]
      constructor
      · rintro (rfl | hx)
        · exact .inr ⟨hqf, rfl, hpc, hpark⟩
        · exact .inr hx
      · rintro (rfl | hx)
        · exact .inr ⟨hpf, rfl, rfl, rfl⟩
        · exact .inr hx
    refine ⟨hqw, List.foldl_ext _ _ _ fun g x hx => ?_⟩
    change (if x.issuesWith q then g ||| x.mask else g) = if x.issuesWith p then g ||| x.mask else g
    rw [hsame x hx]

/-- A part that has lanes in a waiting group waits with it. -/
theorem Wave.Apart.of_mwaits {p : Part} (hp : p ∈ w.parts) {g : Lanes} {t : Option Nat} {d : BitVec 7} (he : (g, t, d) ∈ w.mwaits)
    (hm : (p.mask &&& g) ≠ 0) : p.park = .mwait t d ∧ g = w.groupOf p := by
  obtain ⟨z, hz, hw, rfl⟩ := Wave.mem_mwaits.mp he
  obtain ⟨q, hq, hj, hpq⟩ := (w.and_groupOf_ne_zero z _).mp hm
  obtain rfl := h.eq_of_mask hp hq hpq
  obtain ⟨hpark, hg⟩ := h.groupOf_mwait hz hp hw hj
  exact ⟨hpark, hg.symm⟩

/-- A waiting part has its lanes in its own group. -/
theorem Wave.Apart.and_groupOf {p : Part} (hp : p ∈ w.parts) : (p.mask &&& w.groupOf p) ≠ 0 := by
  refine (w.and_groupOf_ne_zero p _).mpr ⟨p, hp, ?_, ?_⟩
  · simp [Part.issuesWith]
  · rw [BitVec.and_self]
    exact h.lanes p hp

end

/-! ## Returns -/

/-- A part moves on with the lanes `m`, where it has some of them. -/
def Part.passes (p : Part) (m : Lanes) : Part := if (p.mask &&& m) ≠ 0 then { p with pc := p.pc + 12, park := .run } else p

theorem Part.foldl_passes_of_none {α : Type} {g : α → Lanes} {es : List α} {p : Part} (h : ∀ e ∈ es, (p.mask &&& g e) = 0) :
    es.foldl (fun p e => p.passes (g e)) p = p := by
  induction es with
  | nil => rfl
  | cons e es ih =>
    obtain ⟨he, hes⟩ := List.forall_mem_cons.mp h
    rw [List.foldl_cons, Part.passes, if_neg (not_not.mpr he)]
    exact ih hes

/-- A part moves on once with the one of several lane sets that meets its own. -/
theorem Part.foldl_passes_of_one {α : Type} {g : α → Lanes} {es : List α} {p : Part} (hnodup : es.Nodup) {e : α} (he : e ∈ es)
    (hmeets : (p.mask &&& g e) ≠ 0) (hone : ∀ x ∈ es, (p.mask &&& g x) ≠ 0 → x = e) :
    es.foldl (fun p e => p.passes (g e)) p = { p with pc := p.pc + 12, park := .run } := by
  induction es with
  | nil => cases he
  | cons x es ih =>
    obtain ⟨hx, hes⟩ := List.nodup_cons.mp hnodup
    rw [List.foldl_cons]
    by_cases hxe : x = e
    · subst hxe
      rw [Part.passes, if_pos hmeets]
      refine Part.foldl_passes_of_none fun z hz => not_not.mp fun hzm => hx ?_
      exact hone z (List.mem_cons_of_mem _ hz) hzm ▸ hz
    · rw [Part.passes, if_neg fun hm => hxe (hone x List.mem_cons_self hm)]
      exact ih hes ((List.mem_cons.mp he).resolve_left (Ne.symm hxe)) fun z hz => hone z (List.mem_cons_of_mem _ hz)

/-- The wave whose waits `es` have returned with a status. -/
def Wave.returned (w : Wave) (status : Word64) (es : List (Lanes × Option Nat × BitVec 7)) : Wave :=
  es.foldl (fun (w : Wave) e => (w.setS e.2.2.toNat status).complete e.1 false) w

section
variable (w : Wave) (status : Word64) (es : List (Lanes × Option Nat × BitVec 7))

theorem Wave.returned_frame :
    { w.returned status es with s := w.s, sEmpty := w.sEmpty, sInd := w.sInd, parts := w.parts } = w := by
  induction es generalizing w with
  | nil => rfl
  | cons e es ih =>
    have hrest := congrArg (fun u : Wave => { u with s := w.s, sEmpty := w.sEmpty, sInd := w.sInd, parts := w.parts })
      (ih ((w.setS e.2.2.toNat status).complete e.1 false))
    exact hrest

theorem Wave.returned_parts : (w.returned status es).parts = w.parts.map (fun p => es.foldl (fun p e => p.passes e.1) p) := by
  induction es generalizing w with
  | nil => exact (List.map_id _).symm
  | cons e es ih =>
    refine (ih ((w.setS e.2.2.toNat status).complete e.1 false)).trans ?_
    rw [Wave.complete_parts, Wave.setS_parts, List.map_map]
    rfl

theorem Wave.returned_sReg (k : Nat) :
    (w.returned status es).sReg k = if ∃ e ∈ es, e.2.2.toNat = k then status else w.sReg k := by
  induction es generalizing w with
  | nil => simp [Wave.returned]
  | cons e es ih =>
    have hset : ((w.setS e.2.2.toNat status).complete e.1 false).sReg k = if k = e.2.2.toNat then status else w.sReg k :=
      w.sReg_setS _ _ _
    refine (ih _).trans ?_
    simp only [hset, List.exists_mem_cons_iff]
    by_cases hes : ∃ e ∈ es, e.2.2.toNat = k
    · rw [if_pos hes, if_pos (.inr hes)]
    · simp only [hes, if_false, or_false, eq_comm (a := k)]

/-- The returns of some of the waits `es'`, with the monitor disarmed, change no register but status registers, and nothing else beside
the parts and the monitor. -/
theorem Wave.returned_kept (es' : List (Lanes × Option Nat × BitVec 7)) (hsub : ∀ e ∈ es, e ∈ es') :
    RegsKept w { w.returned status es with mon := none } 0 (es'.map fun e => (.s e.2.2, 1)) ∧
    RestKept { w with mon := none } { w.returned status es with mon := none } := by
  have hframe := w.returned_frame status es
  have hread {α : Type} (g : Wave → α)
      (hg : ∀ (w : Wave) s e i ps, g { w with s := s, sEmpty := e, sInd := i, parts := ps } = g w) :
      g (w.returned status es) = g w := by
    have e := congrArg g hframe
    rw [hg] at e
    exact e
  refine ⟨⟨fun k l _ _ => ?_, fun k hd => ?_, fun k l _ => ?_, fun k l _ _ => ?_, fun k _ => ?_⟩, ?_⟩
  · exact congrArg (rowAt · l) (hread (fun w => w.vRow k) fun _ _ _ _ _ => rfl)
  · refine (w.returned_sReg status es k).trans (if_neg ?_)
    rintro ⟨e, he, rfl⟩
    exact hd _ (List.mem_map_of_mem (hsub e he)) ⟨0, Nat.one_pos, rfl⟩
  · exact congrArg (BitVec.getLsbD · l) (hread (fun w => w.pReg k) fun _ _ _ _ _ => rfl)
  · exact congrArg (rowAt · l) (hread (fun w => w.aRow k) fun _ _ _ _ _ => rfl)
  · exact hread (fun w => w.mReg k) fun _ _ _ _ _ => rfl
  · have e := congrArg (fun u : Wave => { u with
      v := w.v, s := w.s, p := w.p, a := w.a, m := w.m, vEmpty := w.vEmpty, vInd := w.vInd, sEmpty := w.sEmpty, sInd := w.sInd
      parts := w.parts, stall := w.stall, yielded := w.yielded, mon := none }) hframe
    exact e

end

/-- A part that waits in MWAIT with a deadline that is picked moves on. -/
def Part.afterMwait (pick : Option Nat → Bool) (p : Part) : Part :=
  match p.park with
  | .mwait dl _ => if pick dl then { p with pc := p.pc + 12, park := .run } else p
  | _ => p

/-- The waits that a status ends: those that a test on their deadlines picks. -/
def Wave.picked (w : Wave) (pick : Option Nat → Bool) : List (Lanes × Option Nat × BitVec 7) := w.mwaits.filter (fun e => pick e.2.1)

/-- The returns move on just the parts in the waits that are picked. -/
theorem Wave.Apart.returned_parts {w : Wave} (h : w.Apart) (status : Word64) (pick : Option Nat → Bool) :
    (w.returned status (w.picked pick)).parts = w.parts.map (Part.afterMwait pick) := by
  rw [w.returned_parts]
  refine List.map_congr_left fun p hp => ?_
  have hin {e : Lanes × Option Nat × BitVec 7} (he : e ∈ w.picked pick) (hm : (p.mask &&& e.1) ≠ 0) :
      (p.park = .mwait e.2.1 e.2.2 ∧ e.1 = w.groupOf p) ∧ pick e.2.1 = true := by
    obtain ⟨hwait, hpick⟩ := List.mem_filter.mp he
    exact ⟨h.of_mwaits hp hwait hm, hpick⟩
  by_cases hwaits : ∃ t d, p.park = .mwait t d ∧ pick t = true
  · obtain ⟨t, d, hpark, hpick⟩ := hwaits
    have he : (w.groupOf p, t, d) ∈ w.picked pick := List.mem_filter.mpr ⟨Wave.mem_mwaits.mpr ⟨p, hp, hpark, rfl⟩, hpick⟩
    have hnodup : (w.picked pick).Nodup := (List.nodup_dedup _).filter _
    rw [Part.foldl_passes_of_one (g := Prod.fst) hnodup he (h.and_groupOf hp), Part.afterMwait, hpark]
    · exact (if_pos hpick).symm
    · rintro ⟨g, t', d'⟩ hx hm
      obtain ⟨⟨hpark', rfl⟩, -⟩ := hin hx hm
      rw [hpark, Park.mwait.injEq] at hpark'
      rw [hpark'.1, hpark'.2]
  · rw [Part.foldl_passes_of_none (g := Prod.fst)]
    · unfold Part.afterMwait
      split
      · next t d hpark => exact (if_neg fun hpick => hwaits ⟨t, d, hpark, hpick⟩).symm
      · rfl
    · intro e he
      by_contra hm
      obtain ⟨⟨hpark, -⟩, hpick⟩ := hin he hm
      exact hwaits ⟨_, _, hpark, hpick⟩

/-! ## The ends of a wait -/

/-- The waits that are picked return, and nothing else of the device changes. -/
theorem mwaitEnd_completes {s : State} {w : Nat} {x : Wave} (hx : s.run.waves.get? w = some x) (hlive : x.life = .live) (h : x.Apart)
    {i : Instr} {status : Word64} {pick : Option Nat → Bool} (hi : exec i s = .next { s with run := mwaitEnd s.run w status pick })
    (hany : ∃ e ∈ x.mwaits, pick e.2.1 = true) :
    Completes (exec i s) (fun t => t.sys = s.sys ∧
      { t.run with waves := s.run.waves } = s.run ∧ (∀ n, n ≠ w → t.run.wave n = s.run.wave n) ∧
      RegsKept x (t.run.wave w) 0 (x.mwaits.map (fun e => (.s e.2.2, 1))) ∧ RestKept { x with mon := none } (t.run.wave w) ∧
      (∀ e ∈ x.mwaits, pick e.2.1 = true → (t.run.wave w).sReg e.2.2.toNat = status) ∧
      (t.run.wave w).parts = x.parts.map (Part.afterMwait pick)) := by
  have hne : ¬(x.picked pick = [] ∨ x.life ≠ .live) := by
    rintro (hnil | hdead)
    · obtain ⟨e, he, hpick⟩ := hany
      exact List.filter_eq_nil_iff.mp hnil e he hpick
    · exact hdead hlive
  have hwave : (mwaitEnd s.run w status pick).wave w = { x.returned status (x.picked pick) with mon := none } := by
    unfold mwaitEnd
    rw [Run.wave_onWave _ _ _ _ hx, Run.wave, hx]
    exact if_neg hne
  obtain ⟨hregs, hrest⟩ := x.returned_kept status (x.picked pick) x.mwaits fun e he => List.mem_of_mem_filter he
  refine ⟨_, hi, rfl, rfl, fun n hn => Run.wave_onWave_of_ne _ _ _ _ hn, ?_⟩
  dsimp only
  rw [hwave]
  refine ⟨hregs, hrest, fun e he hpick => ?_, h.returned_parts status pick⟩
  exact (x.returned_sReg status _ _).trans (if_pos ⟨e, List.mem_filter.mpr ⟨he, hpick⟩, rfl⟩)

theorem exec_monitorWriteWake {s : State} {w : Nat} {x : Wave} (hx : s.run.waves.get? w = some x) {m : Monitor} (hm : x.mon = some m)
    (hreg : m.registered = true) (hhit : s.run.monitorHit m = true) :
    exec (.monitorWriteWake w) s = .next { s with run := mwaitEnd s.run w 1 (fun _ => true) } := by
  have hmon : (s.run.wave w).mon = some m := by rw [Run.wave, hx]; exact hm
  change execMonitorWriteWake w s = _
  simp only [execMonitorWriteWake, event, hmon, hreg, hhit, Bool.and_self, if_true]

theorem exec_mwaitEvent {s : State} {w : Nat} (he : s.run.eventFor w = true) :
    exec (.mwaitEvent w) s = .next { s with run := mwaitEnd s.run w 3 (fun _ => true) } := by
  change execMwaitEvent w s = _
  simp only [execMwaitEvent, event, he, if_true]

end Sys2Proof.Machine
end

section
/-! MONITOR and MWAIT, settled (R292, R293). -/

namespace Sys2Proof.Machine

/-! ## MONITOR (R292) -/

/-- The wave has a monitor, whatever it had before. -/
def Run.armed (r : Run) (wid : Nat) (m : Monitor) : Run :=
  (r.onWave wid (fun w => { w with mon := none })).onWave wid (fun w => { w with mon := some m })

/-- The address that MONITOR watches. -/
def Run.watchedAddr (r : Run) (c : Iss) (o : Ops) : Nat :=
  (r.rdScalar c.wid o.a 0 c.act.lowest + BitVec.ofInt 64 (r.rdLane c.wid o.b 0 c.act.lowest).toInt).toNat

section
variable {s : State} {h : Hd} {o : Ops} {c : Iss} {r : Run} {l : Nat} {x : Xlat} {rest : List (Nat × Xlat)}
  (hck : issueChecks (s.wv c) { s.run.block (s.wv c).blk with watch := [] } (s.run.ctx (s.run.block (s.wv c).blk).ctx)
    (c.act.toList.map (fun l => (l, s.run.watchedAddr c o))) 8 true false = none)
  (htr : preTranslate s.sys s.run (coreOf c.wid) (slotOf c.wid) (s.run.block (s.wv c).blk).ctx { priv := (s.wv c).priv } true c.pc
    (c.act.toList.map (fun l => (l, s.run.watchedAddr c o))) = .ok r ((l, x) :: rest))
include hck htr

/-- The checks passed, MONITOR takes the line and the word's value, an open one of another device's word. -/
theorem monitorEff_ok : ∃ n snap reg,
    monitorEff o s.sys s.run c =
      .ok ((r.withFresh n).armed c.wid ⟨s.run.watchedAddr c o, x.pa / 256 * 256, x.pa, snap, reg, false⟩) () ∧
    (isAper x.pa = false → snap = BitVec.ofNat 64 (memRead s.run.mem x.pa 8)) := by
  have hmem : r.mem = s.run.mem := by
    have e := congrArg Run.mem (preTranslate_ok htr)
    exact e
  unfold Run.watchedAddr at hck htr ⊢
  simp only [monitorEff, hck, htr, Eff.bind]
  cases haper : isAper x.pa with
  | true =>
    simp only [if_true]
    exact ⟨r.fresh + 1, Config.freeWord r.fresh, false, rfl, fun e => absurd e.symm Bool.false_ne_true⟩
  | false =>
    simp only [Bool.false_eq_true, if_false, Run.onWave_mem, hmem]
    exact ⟨r.fresh, _, _, rfl, fun _ => rfl⟩

theorem monitor_completes (hI : Issues s h c (usesOf h o)) (hacq : (s.wv c).acquirePending = false) :
    Completes (exec (.monitor h o) s) (fun t => AccessFrame s t c.wid ∧ t.run.mem = s.run.mem ∧ RegsKept (s.wv c) (t.wv c) c.act [] ∧
      RestKept { s.wv c with mon := (t.wv c).mon } (t.wv c) ∧ MovedOn s t c ∧
      ∃ snap reg, (t.wv c).mon = some ⟨s.run.watchedAddr c o, x.pa / 256 * 256, x.pa, snap, reg, false⟩ ∧
        (isAper x.pa = false → snap = BitVec.ofNat 64 (memRead s.run.mem x.pa 8))) := by
  obtain ⟨n, snap, reg, heff, hsnap⟩ := monitorEff_ok hck htr
  obtain ⟨w, hw, -, hww⟩ := Run.issuer_wave _ _ _ hI.1
  have hwv : s.wv c = w := hww
  have hsame := preTranslate_ok htr
  have hwaves : r.waves = s.run.waves := by
    have e := congrArg Run.waves hsame
    exact e
  have hmem : r.mem = s.run.mem := by
    have e := congrArg Run.mem hsame
    exact e
  set m : Monitor := ⟨s.run.watchedAddr c o, x.pa / 256 * 256, x.pa, snap, reg, false⟩
  set u := (r.withFresh n).armed c.wid m
  have hget : u.waves.get? c.wid = some { s.wv c with mon := some m } := by
    rw [hwv]
    simp only [u, Run.armed, Run.get_onWave, if_true, Run.withFresh, hwaves, hw, Option.map_some]
  have hwave := Run.wave_retire u c h { uses := usesOf h o } _ hget
  refine ⟨_, issue_ok' (k := { uses := usesOf h o }) hI (.inl rfl) (.inl rfl) rfl
    ((ordered_eq hacq (fun e => absurd e Bool.false_ne_true) (monitorEff o) s.sys).trans heff), ?_⟩
  dsimp only [State.wv] at hwave ⊢
  have hmon : ((u.retire c h { uses := usesOf h o }).wave c.wid).mon = some m := by
    rw [hwave]
    exact Wave.retired_read Wave.mon (fun _ _ _ _ _ => rfl) ..
  refine ⟨?_, ?_, ?_, ?_, ?_, snap, reg, hmon, hsnap⟩
  · have hacc : s.run.Accesses c.wid u :=
      (((accesses_preTranslate c.wid htr).trans (r.accesses_withFresh c.wid n)).trans (Run.accesses_onWave ..)).trans
        (Run.accesses_onWave ..)
    exact (hacc.trans (u.accesses_retire c h _)).accessFrame
  · rw [Run.retire_mem]
    exact hmem
  · rw [hwave]
    have hr : RegsKept (s.run.wave c.wid) { s.run.wave c.wid with mon := some m } c.act [] := regsKept_of_files rfl _
    exact hr.retired
  · rw [hmon, hwave]
    have hk : RestKept { s.run.wave c.wid with mon := some m } { s.run.wave c.wid with mon := some m } := rfl
    exact hk.retired rfl
  · unfold MovedOn
    rw [hwave, Wave.retired_parts _ _ _ _ _ rfl rfl, Wave.advance_parts, Wave.onParts_parts]

end

/-! ## MWAIT (R293) -/

/-- How MWAIT issues. -/
abbrev mwaitHow (h : Hd) (o : Ops) : How := { uses := usesOf h o, switch := true }

/-- MWAIT's wait, with the deadline that its operand gives. -/
def Run.mwaitPark (r : Run) (c : Iss) (o : Ops) (d : BitVec 7) : Park :=
  .mwait (if r.rdCount c o.a = 0 then none else some (r.clk + r.rdCount c o.a)) d

theorem Run.switchPoint_mem (r : Run) (n : Nat) (pass : Bool) : (r.switchPoint n pass).mem = r.mem := by
  have e := congrArg Run.mem (r.switchPoint_frame n pass)
  exact e

theorem Run.finish_mem (r0 r : Run) (c : Iss) (h : Hd) (k : How) : (r0.finish r c h k).mem = r.mem := by
  unfold Run.finish
  split
  · exact (Run.switchPoint_mem ..).trans (r.retire_mem c h k)
  · exact r.retire_mem c h k

section
variable {s : State} {h : Hd} {o : Ops} {c : Iss} {d : BitVec 7} (hI : Issues s h c (usesOf h o)) (hd : o.d = .s d)
include hI hd

theorem mwait_does_of_none (hm : (s.wv c).mon = none) :
    Does s (.mwait h o) c h (mwaitHow h o) (s.run.onWave c.wid (fun w => w.setS d.toNat 0)) :=
  issue_ok (k := mwaitHow h o) hI (.inl rfl) (.inl rfl) (by simp only [mwaitEff, hm, hd, scalarNum])

variable {m : Monitor} (hm : (s.wv c).mon = some m)
include hm

theorem mwait_does_of_hit (hhit : s.run.monitorHit m = true) :
    Does s (.mwait h o) c h (mwaitHow h o) (s.run.onWave c.wid (fun w => { w.setS d.toNat 1 with mon := none })) := by
  have haper : isAper m.word = false := by
    simp only [Run.monitorHit, Bool.and_eq_true, Bool.not_eq_true'] at hhit
    exact hhit.1
  exact issue_ok (k := mwaitHow h o) hI (.inl rfl) (.inl rfl)
    (by simp only [mwaitEff, hm, haper, hhit, hd, scalarNum, Bool.true_or, Bool.false_eq_true, if_false, if_true])

/-- The group waits, and the turn passes at the switch point. -/
theorem mwait_waits (haper : isAper m.word = false) (hhit : s.run.monitorHit m = false) :
    exec (.mwait h o) s = .next { s with
      run := ((s.run.onWave c.wid (fun w => w.park c.m (s.run.mwaitPark c o d))).charge c h (mwaitHow h o)).switchPoint c.wid true } :=
  issue_waits (k := mwaitHow h o) hI rfl rfl rfl (fun _ => Park.noConfusion)
    (by simp only [mwaitEff, hm, haper, hhit, hd, scalarNum, Run.mwaitPark, Bool.false_or, Bool.false_eq_true, if_false]; rfl)

/-- MWAIT on another device's word returns or waits as an open value has it. -/
theorem mwait_completes_of_aper (haper : isAper m.word = true) :
    Completes (exec (.mwait h o) s) (fun t => t.sys = s.sys ∧ t.run.mem = s.run.mem) := by
  have hhit (r : Run) : r.monitorHit m = false := by simp only [Run.monitorHit, haper, Bool.not_true, Bool.false_and]
  have heff : mwaitEff o s.sys s.run c = if s.run.free.1.getLsbD 0 = true
      then .ok (s.run.free.2.onWave c.wid (fun w => { w.setS d.toNat 1 with mon := none })) ()
      else .park s.run.free.2 (s.run.free.2.mwaitPark c o d) := by
    simp only [mwaitEff, hm, haper, hhit, hd, scalarNum, Run.mwaitPark, Bool.false_or, if_true]
  by_cases hopen : s.run.free.1.getLsbD 0 = true
  · rw [if_pos hopen] at heff
    exact ⟨_, issue_ok (k := mwaitHow h o) hI (.inl rfl) (.inl rfl) heff, rfl, Run.finish_mem s.run _ c h (mwaitHow h o)⟩
  · rw [if_neg hopen] at heff
    exact ⟨_, issue_waits (k := mwaitHow h o) hI rfl rfl rfl (fun _ => Park.noConfusion) heff, rfl, Run.switchPoint_mem ..⟩

theorem mwait_parks (haper : isAper m.word = false) (hhit : s.run.monitorHit m = false) :
    Completes (exec (.mwait h o) s) (fun t => t.sys = s.sys ∧ t.run.mem = s.run.mem ∧
      (t.wv c).parts = (s.wv c).parts.map (fun p => if (p.mask &&& c.m) ≠ 0 then { p with park := s.run.mwaitPark c o d } else p)) := by
  obtain ⟨w, hw, -, hww⟩ := Run.issuer_wave _ _ _ hI.1
  refine ⟨_, mwait_waits hI hd hm haper hhit, rfl, Run.switchPoint_mem .., ?_⟩
  rw [State.wv, State.wv, Run.wave, Run.switchPoint_waves, Run.charge_waves, Tbl.get?_upd, if_pos rfl, Run.get_onWave, if_pos rfl, hw, hww]
  simp only [Option.map_some, Option.getD_some, Wave.charged]
  split <;> rfl

end

/-- Settles O34: MONITOR and MWAIT by the cases of their effects, the ends of a wait by the returns of the waits that they pick. -/
theorem monitorAndWait : Obligations.MonitorAndWait := by
  refine ⟨fun s h o c r l x rest hI hacq hck htr => monitor_completes hck htr hI hacq, fun s h o c d hI hd => ⟨mwait_does_of_none hI hd,
    fun m hm => ⟨mwait_does_of_hit hI hd hm, mwait_completes_of_aper hI hd hm, mwait_parks hI hd hm⟩⟩, ?_⟩
  intro s w x hx hlive hlanes hapart ends
  have hends (i : Instr) (status : Word64) (pick : Option Nat → Bool)
      (hi : exec i s = .next { s with run := mwaitEnd s.run w status pick }) : ends i status pick :=
    mwaitEnd_completes hx hlive ⟨hlanes, hapart⟩ hi
  exact ⟨fun m hm hreg hhit => hends (.monitorWriteWake w) 1 _ (exec_monitorWriteWake hx hm hreg hhit),
    hends (.mwaitTimeout w) 2 s.run.past rfl, fun hevent => hends (.mwaitEvent w) 3 _ (exec_mwaitEvent hevent),
    hends (.spuriousWake w) 1 _ rfl⟩

end Sys2Proof.Machine
end

section
/-! O32, settled: it fails in its last clause, at a CAS request that also carries the mark of a saturating sum (R360), which `atomicNew` looks
at first. Without the mark a CAS writes as the clause says (`atomicNew_of_cas`). -/

namespace Sys2Proof.Machine

/-- A request with the mark writes a saturating sum, whatever else it says. -/
theorem atomicNew_of_sat {a : AtomicReq} (hsat : a.sat = true) (old : Nat) : atomicNew a old = some (min (old + a.opnd) 0xFFFFFFFF) := by
  rw [atomicNew, if_pos hsat]

/-- A CAS without the mark writes its new value exactly where the unit holds the compare value (R283). -/
theorem atomicNew_of_cas {a : AtomicReq} (hsat : a.sat = false) (hcas : a.cas = true) (old : Nat) :
    atomicNew a old = if old = a.opnd then some a.new else none := by
  rw [atomicNew, if_neg (by rw [hsat]; exact Bool.false_ne_true), if_pos hcas]

/-- A CAS of the word at 0x1000 from 1 to 7 that carries the mark. -/
def markedCas : AtomicReq := { cas := true, op := .exch, ty := .u32, addr := 0x1000, opnd := 1, new := 7, sat := true }

/-- Where the word holds the compare value 1, the request leaves the sum 2 and not the new value 7. -/
theorem atomicNew_markedCas : atomicNew markedCas 1 = some 2 := atomicNew_of_sat rfl 1

/-- Refutes O32: the statement has every request with `cas` write its new value where the unit holds the compare value. This one writes a
sum. -/
theorem not_atomicResult : ¬ Obligations.AtomicResult := by
  rintro ⟨-, -, hcas⟩
  have hnew : atomicNew markedCas 1 = some 7 := hcas markedCas 1 rfl
  rw [atomicNew_markedCas] at hnew
  exact absurd hnew (by decide)

end Sys2Proof.Machine
end

section
/-! The boot chain, settled (R540, R541), and the words of programs, which leave it and the firewall registers alone (R524). -/

namespace Sys2Proof.Machine

/-- Settles O9: a word's arm is an issue, which changes the run alone. -/
theorem wordsKeepFirewall : Obligations.WordsKeepFirewall :=
  fun _ _ _ hp h => exec_sys_of_word hp h

/-! ## The stages in order (R540) -/

/-- An image that passes, as a proposition. -/
theorem Image.passes_iff (i : Image) (rollback : Nat) : Image.passes i rollback = true ↔ i.sigOk = true ∧ rollback ≤ i.version := by
  simp [Image.passes]

/-- Stages that all pass are all measured. -/
theorem runStages_of_all {rollback : Nat} {l : List Image} (n : Nat) (h : ∀ i ∈ l, Image.passes i rollback = true) :
    runStages rollback n l = (l.map (·.digest), none) := by
  induction l generalizing n with
  | nil => rfl
  | cons i l ih =>
    have hl := ih (n + 1) fun x hx => h x (List.mem_cons_of_mem _ hx)
    simp [runStages, h i List.mem_cons_self, hl]

/-- The first stage that does not pass ends the chain: those before it are measured. -/
theorem runStages_of_fail {rollback : Nat} {pre post : List Image} {i : Image} (n : Nat)
    (h : ∀ x ∈ pre, Image.passes x rollback = true) (hi : Image.passes i rollback = false) :
    runStages rollback n (pre ++ i :: post) = (pre.map (·.digest), some (n + pre.length)) := by
  induction pre generalizing n with
  | nil => simp [runStages, hi]
  | cons x pre ih =>
    have hl := ih (n + 1) fun x hx => h x (List.mem_cons_of_mem _ hx)
    simp [runStages, h x List.mem_cons_self, hl]
    omega

/-! ## What the chain leaves (R540, R541) -/

/-- The image the boot ROM takes: slot A, else slot B (R540). -/
def Sys.firstImage (y : Sys) : Option Image :=
  if Image.passes y.slotA y.rollback then some y.slotA else if Image.passes y.slotB y.rollback then some y.slotB else none

/-- The registers and the measurements as a boot begins. -/
def Sys.cleared (y : Sys) : Sys :=
  { y with boots := y.boots + 1, jtag := false, measured := [], devId := 0, alias_ := 0
           pmap := 0xE4, bnd := [1, 1, 1, 1], lp := [0, 0, 0, 0] }

theorem bootChain_recovery {y : Sys} (dbg : Bool) (h : y.firstImage = none) : bootChain y dbg = { y.cleared with boot := .recovery } := by
  unfold Sys.firstImage at h
  simp only [bootChain, h, Sys.cleared]

theorem bootChain_ready {y : Sys} (dbg : Bool) {i : Image} {ms : List Nat} (h : y.firstImage = some i)
    (hs : runStages y.rollback 2 y.stages = (ms, none)) :
    bootChain y dbg = { y.cleared with
      boot := .ready, measured := i.digest :: ms, devId := Config.keyOf (Config.hmac Config.uds i.digest)
      alias_ := Config.keyOf (lastCdi (Config.hmac Config.uds i.digest) ms), pmap := 0x1E4, jtag := dbg } := by
  unfold Sys.firstImage at h
  simp only [bootChain, h, hs, Sys.cleared]

theorem bootChain_failed {y : Sys} (dbg : Bool) {i : Image} {ms : List Nat} {n : Nat} (h : y.firstImage = some i)
    (hs : runStages y.rollback 2 y.stages = (ms, some n)) :
    bootChain y dbg = { y.cleared with boot := .failed n, measured := i.digest :: ms } := by
  unfold Sys.firstImage at h
  simp only [bootChain, h, hs, Sys.cleared]

theorem bootChain_boots (y : Sys) (dbg : Bool) : (bootChain y dbg).boots = y.boots + 1 := by
  unfold bootChain
  dsimp only
  split
  · rfl
  · split <;> rfl

/-! ## The run after a boot (R541) -/

/-- An event's entry stands at the head of the black box. -/
theorem exists_mem_event (r : Run) (ty tenant src detail : Nat) (part : Option Nat) :
    ∃ e ∈ (r.event ty tenant src detail part).bb, e.ty = ty ∧ e.seq = r.bbNext ∧ e.detail = detail % 2 ^ 32 :=
  ⟨_, List.mem_cons_self, rfl, rfl, rfl⟩

theorem lastStage_part (r : Run) (d : Nat) (hd : d < 4) : ((lastStage r).part d).dev = d ∧ ((lastStage r).part d).slots = 32 := by
  have h := part_foldl_onPart (fun _ => True) (fun d p => { p with dev := d, slots := 32 }) (List.range 4)
    ({ r with table := Config.trapTable ++ 0#12 } : Run) d List.nodup_range
  simp only [if_true, and_true, List.mem_range, hd] at h
  have e : (lastStage r).part d = ((List.range 4).foldl (fun r d => r.onPart d (fun p => { p with dev := d, slots := 32 }))
    ({ r with table := Config.trapTable ++ 0#12 } : Run)).part d := rfl
  rw [e, h]
  exact ⟨rfl, rfl⟩

/-- The run a boot leaves, where the chain came to its end and where not. -/
def State.bootRun (s : State) (dbg : Bool) : Run := (resetRun s.run).event 3 0xFF 0xFFFF (bootChain s.sys dbg).boots

theorem exec_boot_ready {s : State} {dbg : Bool} (h : (bootChain s.sys dbg).boot = .ready) :
    exec (.boot dbg) s = .next { run := lastStage (s.bootRun dbg), sys := bootChain s.sys dbg } := by
  change Host.Outcome.next _ = _
  simp [Sys.ready, h, State.bootRun]

theorem exec_boot_short {s : State} {dbg : Bool} (h : (bootChain s.sys dbg).boot ≠ .ready) :
    exec (.boot dbg) s = .next { run := s.bootRun dbg, sys := bootChain s.sys dbg } := by
  change Host.Outcome.next _ = _
  simp [Sys.ready, h, State.bootRun]

/-- What every boot leaves, whatever the chain comes to. -/
def Booted (s t : State) : Prop :=
  t.sys.boots = s.sys.boots + 1 ∧ t.run.waves = [] ∧ t.run.blocks = [] ∧ t.run.ctxs = [] ∧
  t.run.mem = (if s.run.down then [] else s.run.mem) ∧ t.sys.bnd = [1, 1, 1, 1] ∧ t.sys.lp = [0, 0, 0, 0] ∧
  ∃ e ∈ t.run.bb, e.ty = 3 ∧ e.seq = s.run.bbNext

theorem exists_mem_bootRun (s : State) (dbg : Bool) : ∃ e ∈ (s.bootRun dbg).bb, e.ty = 3 ∧ e.seq = s.run.bbNext := by
  obtain ⟨e, he, hty, hseq, -⟩ := exists_mem_event (resetRun s.run) 3 0xFF 0xFFFF (bootChain s.sys dbg).boots none
  exact ⟨e, he, hty, hseq⟩

theorem booted_short (s : State) (dbg : Bool) : Booted s { run := s.bootRun dbg, sys := bootChain s.sys dbg } := by
  obtain ⟨hb, hl, -⟩ := bootChain_registers s.sys dbg
  exact ⟨bootChain_boots _ _, rfl, rfl, rfl, rfl, hb, hl, exists_mem_bootRun s dbg⟩

theorem booted_ready (s : State) (dbg : Bool) : Booted s { run := lastStage (s.bootRun dbg), sys := bootChain s.sys dbg } := by
  obtain ⟨hb, hl, -⟩ := bootChain_registers s.sys dbg
  exact ⟨bootChain_boots _ _, rfl, rfl, rfl, rfl, hb, hl, exists_mem_bootRun s dbg⟩

/-- A boot that stops short leaves what the chain says, and the outside world sees nothing. -/
theorem boot_completes_short {s : State} {dbg : Bool} {P : State → Prop} (h : (bootChain s.sys dbg).boot ≠ .ready)
    (hP : P { run := s.bootRun dbg, sys := bootChain s.sys dbg }) : Completes (exec (.boot dbg) s) (fun t => Booted s t ∧ P t) :=
  ⟨_, exec_boot_short h, booted_short s dbg, hP⟩

theorem boot_completes_ready {s : State} {dbg : Bool} {P : State → Prop} (h : (bootChain s.sys dbg).boot = .ready)
    (hP : P { run := lastStage (s.bootRun dbg), sys := bootChain s.sys dbg }) :
    Completes (exec (.boot dbg) s) (fun t => Booted s t ∧ P t) :=
  ⟨_, exec_boot_ready h, booted_ready s dbg, hP⟩

/-- VALID is 0 in the map of a reset. -/
theorem valid_of_reset_map : (0xE4 : Word64).getLsbD 8 = false := by decide

/-- The first image by the cases of R540. -/
theorem Sys.firstImage_none {y : Sys} (ha : Image.passes y.slotA y.rollback = false) (hb : Image.passes y.slotB y.rollback = false) :
    y.firstImage = none := by
  simp [Sys.firstImage, ha, hb]

theorem Sys.firstImage_some {y : Sys} {i : Image} (h : (Image.passes y.slotA y.rollback = true ∧ i = y.slotA) ∨
    (Image.passes y.slotA y.rollback = false ∧ Image.passes y.slotB y.rollback = true ∧ i = y.slotB)) : y.firstImage = some i := by
  rcases h with ⟨ha, rfl⟩ | ⟨ha, hb, rfl⟩
  · simp [Sys.firstImage, ha]
  · simp [Sys.firstImage, ha, hb]

/-- An image is loaded in recovery alone, in the place its number names (R541). -/
theorem exec_recoveryImageLoad (s : State) (n : Nat) (i : Image) :
    (s.sys.boot ≠ .recovery → exec (.recoveryImageLoad n i) s = .next s) ∧
    (s.sys.boot = .recovery →
      (n = 1 → exec (.recoveryImageLoad n i) s = .next { s with sys := { s.sys with slotA := i } }) ∧
      (n = 0 → exec (.recoveryImageLoad n i) s = .next { s with sys := { s.sys with slotB := i } }) ∧
      (2 ≤ n → exec (.recoveryImageLoad n i) s = .next { s with sys := { s.sys with stages := s.sys.stages.set (n - 2) i } })) := by
  have e : exec (.recoveryImageLoad n i) s = execRecoveryImageLoad n i s := rfl
  simp only [e, execRecoveryImageLoad]
  refine ⟨fun h => if_pos h, fun h => ⟨?_, ?_, fun hn => ?_⟩⟩
  · rintro rfl; simp [h]
  · rintro rfl; simp [h]
  · have h0 : n ≠ 0 := by omega
    have h1 : n ≠ 1 := by omega
    simp [h, h0, h1]

end Sys2Proof.Machine

namespace Sys2Proof
open Machine

/-- Settles O59: the boot by which image is first and which stage fails, the load by its place. -/
theorem bootChain : Obligations.BootChain := by
  unfold Obligations.BootChain
  intro s dbg
  simp only [← Image.passes_iff, Bool.not_eq_true]
  refine ⟨fun ha hb => ?_, fun first hfirst => ⟨fun hall => ?_, fun pre i post hst hpre hi => ?_⟩, exec_recoveryImageLoad s⟩
  · have e := bootChain_recovery dbg (Sys.firstImage_none ha hb)
    have hc := boot_completes_short (s := s) (dbg := dbg)
      (P := fun t => t.sys.boot = .recovery ∧ t.sys.valid = false ∧ t.run.out = s.run.out)
      (by rw [e]; exact BootState.noConfusion) (by rw [e]; exact ⟨rfl, valid_of_reset_map, rfl⟩)
    exact hc.imp fun t ⟨⟨h1, h2, h3, h4, h5, h6, h7, h8⟩, hP⟩ => ⟨h1, h2, h3, h4, h5, h6, h7, h8, hP⟩
  · have e := bootChain_ready dbg (Sys.firstImage_some hfirst) (runStages_of_all 2 hall)
    have hc := boot_completes_ready (s := s) (dbg := dbg)
      (P := fun t => t.sys.boot = .ready ∧ t.sys.pmap = 0x1E4 ∧ t.run.out = s.run.out ++ [.ready] ∧
        t.sys.measured = first.digest :: s.sys.stages.map (·.digest) ∧ t.sys.jtag = dbg ∧
        (let cdi := Config.hmac Config.uds first.digest
         t.sys.devId = Config.keyOf cdi ∧ t.sys.alias_ = Config.keyOf ((s.sys.stages.map (·.digest)).foldl Config.hmac cdi)) ∧
        t.run.table = Config.trapTable ++ 0#12 ∧ ∀ d, d < 4 → (t.run.part d).dev = d ∧ (t.run.part d).slots = 32)
      (by rw [e]) (by rw [e]; exact ⟨rfl, rfl, rfl, rfl, rfl, ⟨rfl, rfl⟩, rfl, lastStage_part _⟩)
    exact hc.imp fun t ⟨⟨h1, h2, h3, h4, h5, h6, h7, h8⟩, hP⟩ => ⟨h1, h2, h3, h4, h5, h6, h7, h8, hP⟩
  · have e := bootChain_failed dbg (Sys.firstImage_some hfirst) (hst ▸ runStages_of_fail 2 hpre hi)
    have hc := boot_completes_short (s := s) (dbg := dbg)
      (P := fun t => t.sys.boot = .failed (pre.length + 2) ∧ t.sys.valid = false ∧ t.run.out = s.run.out ∧
        t.sys.measured = first.digest :: pre.map (·.digest) ∧ t.sys.jtag = false)
      (by rw [e]; exact BootState.noConfusion) (by rw [e]; exact ⟨by rw [Nat.add_comm], valid_of_reset_map, rfl, rfl, rfl⟩)
    exact hc.imp fun t ⟨⟨h1, h2, h3, h4, h5, h6, h7, h8⟩, hP⟩ => ⟨h1, h2, h3, h4, h5, h6, h7, h8, hP⟩

end Sys2Proof
end

section
/-! What an issue leaves of an instruction whose effect changes its wave and the cores, and of one that waits for another step to end it. -/

namespace Sys2Proof.Machine

/-! ## Cores but for their issue counts -/

/-- What a reading of a core does not take from the issue counts is the same. -/
theorem Core.sameButCounts.read {α : Type} {k z : Core} (hk : k.sameButCounts z) (g : Core → α)
    (hg : ∀ (k : Core) nv nm va ma, g { k with nv := nv, nm := nm, vAt := va, mAt := ma } = g k) : g k = g z := by
  have e := congrArg g hk
  rw [hg] at e
  exact e

theorem Run.core_charge_same (r : Run) (c : Iss) (h : Hd) (k : How) (n : Nat) : ((r.charge c h k).core n).sameButCounts (r.core n) := by
  unfold Run.charge
  simp only [Run.core_onCore]
  split
  · next hn => subst hn; rfl
  · rfl

/-! ## Effects on the wave and the cores -/

/-- The run `t` differs from `r` in the cores, and in the waves by wave `wid` alone, which is now `u`. -/
structure Run.Turns (r t : Run) (wid : Nat) (u : Wave) : Prop where
  frame : ({ t with waves := r.waves, cores := r.cores } : Run) = r
  wave : t.waves.get? wid = some u
  others : ∀ n, n ≠ wid → t.wave n = r.wave n

namespace Run.Turns
variable {r t : Run} {wid : Nat} {u : Wave}

theorem self {w : Wave} (hw : r.waves.get? wid = some w) : r.Turns r wid w := ⟨rfl, hw, fun _ _ => rfl⟩

theorem onWave (ht : r.Turns t wid u) (f : Wave → Wave) : r.Turns (t.onWave wid f) wid (f u) where
  frame := ht.frame
  wave := by rw [Run.get_onWave, if_pos rfl, ht.wave]; rfl
  others n hn := (Run.wave_onWave_of_ne t wid n f hn).trans (ht.others n hn)

theorem onCore (ht : r.Turns t wid u) (n : Nat) (f : Core → Core) : r.Turns (t.onCore n f) wid u where
  frame := ht.frame
  wave := ht.wave
  others := ht.others

theorem wave_eq (ht : r.Turns t wid u) : t.wave wid = u := by rw [Run.wave, ht.wave]; rfl

theorem clk (ht : r.Turns t wid u) : t.clk = r.clk := by
  have e := congrArg Run.clk ht.frame
  exact e

theorem retire {c : Iss} (ht : r.Turns t c.wid u) (h : Hd) (k : How) :
    r.Turns (t.retire c h k) c.wid (Wave.retired r.clk c h k u) where
  frame := by
    have e := congrArg (fun x : Run => { x with waves := r.waves, cores := r.cores }) (Run.retire_frame t c h k)
    exact e.trans ht.frame
  wave := by rw [Run.get_retire, if_pos rfl, ht.wave, ht.clk]; rfl
  others n hn := (Run.wave_retire_of_ne t c h k n hn).trans (ht.others n hn)

theorem charge {c : Iss} (ht : r.Turns t c.wid u) (h : Hd) (k : How) : r.Turns (t.charge c h k) c.wid (u.charged r.clk h k) := by
  have e : t.charge c h k = (t.onWave c.wid (Wave.charged t.clk h k)).onCore (coreOf c.wid) (fun x => x.count t.clk h k) := rfl
  rw [e, ht.clk]
  exact (ht.onWave _).onCore _ _

end Run.Turns

/-- The issuing wave as a run that only its own issue has touched. -/
theorem turns_self {s : State} {h : Hd} {c : Iss} (hi : s.run.issuer h = some c) : s.run.Turns s.run c.wid (s.wv c) := by
  obtain ⟨w, hw, -, hww⟩ := Run.issuer_wave _ _ _ hi
  rw [State.wv, hww]
  exact .self hw

/-- What an effect on the wave and the cores leaves once its issue has ended, of an instruction that is no switch point. -/
theorem issue_turns {s : State} {h : Hd} {c : Iss} {k : How} {eff : Sys → Run → Iss → Eff Unit} {r : Run} {u : Wave}
    (hI : Issues s h c k.uses) (hp : k.priv = false) (hw : k.whole = none ∨ Whole s c) (hs : k.switch = false)
    (he : eff s.sys s.run c = .ok r ()) (hr : s.run.Turns r c.wid u) :
    Completes (issue s h k eff) (fun t => t.sys = s.sys ∧ { t.run with waves := s.run.waves, cores := s.run.cores } = s.run ∧
      (∀ n, n ≠ c.wid → t.run.wave n = s.run.wave n) ∧ t.wv c = Wave.retired s.run.clk c h k u ∧
      ∀ n, (t.run.core n).sameButCounts (r.core n)) := by
  have ht := hr.retire h k
  exact ⟨_, issue_ok' hI (.inl hp) hw hs he, rfl, ht.frame, ht.others, ht.wave_eq, Run.core_retire_same r c h k⟩

/-- An effect that waits for another step to end it, of an instruction that is no switch point: its group parks, and the issue is charged. -/
theorem issue_parks {s : State} {h : Hd} {c : Iss} {k : How} {eff : Sys → Run → Iss → Eff Unit} {r : Run} {p : Park}
    (hI : Issues s h c k.uses) (hp : k.priv = false) (hw : k.whole = none ∨ Whole s c) (hs : k.switch = false) (hq : ∀ q, p ≠ .retry q)
    (he : eff s.sys s.run c = .park r p) :
    issue s h k eff = .next { s with run := (r.onWave c.wid (fun w => w.park c.m p)).charge c h k } := by
  obtain ⟨hc, ha, hu⟩ := hI
  have hwh : (k.whole.isSome && !(s.run.wave c.wid).reconverged) = false := by
    rcases hw with hw | hw
    · simp [hw]
    · simp [show (s.run.wave c.wid).reconverged = true from hw]
  simp only [issue, hc, issueOn, hp, hwh, hs, Bool.false_and, Bool.false_eq_true, if_false, ha, hu, he]
  cases p with
  | retry q => exact absurd rfl (hq q)
  | _ => rfl

theorem Wave.charged_parts (clk : Nat) (h : Hd) (k : How) (w : Wave) : (w.charged clk h k).parts = w.parts := by
  unfold Wave.charged
  split <;> rfl

/-- What a reading of a wave does not take from STALL and YLD, a charge leaves. -/
theorem Wave.charged_read {α : Type} (g : Wave → α) (hg : ∀ (w : Wave) st yd, g { w with stall := st, yielded := yd } = g w)
    (clk : Nat) (h : Hd) (k : How) (w : Wave) : g (w.charged clk h k) = g w := by
  unfold Wave.charged
  split
  · exact hg w _ _
  · rfl

theorem regsKept_charged (clk : Nat) (h : Hd) (k : How) {w u : Wave} {m : Lanes} {ds : List (Opd × Nat)} (hk : RegsKept w u m ds) :
    RegsKept w (u.charged clk h k) m ds := by
  have e (x : Wave) (hv : x.v = u.v) (hs : x.s = u.s) (hp : x.p = u.p) (ha : x.a = u.a) (hm : x.m = u.m) : RegsKept w x m ds := by
    simpa only [RegsKept, Wave.vRow, Wave.sReg, Wave.pReg, Wave.aRow, Wave.mReg, hv, hs, hp, ha, hm] using hk
  exact e _ (Wave.charged_read Wave.v (fun _ _ _ => rfl) ..) (Wave.charged_read Wave.s (fun _ _ _ => rfl) ..)
    (Wave.charged_read Wave.p (fun _ _ _ => rfl) ..) (Wave.charged_read Wave.a (fun _ _ _ => rfl) ..)
    (Wave.charged_read Wave.m (fun _ _ _ => rfl) ..)

theorem regsKept_park (w : Wave) (m : Lanes) (p : Park) (act : Lanes) : RegsKept w (w.park m p) act [] := RegsKept.refl w act []

/-- What an effect on the wave and the cores leaves that then waits for another step to end it. -/
theorem issue_parks_turns {s : State} {h : Hd} {c : Iss} {k : How} {eff : Sys → Run → Iss → Eff Unit} {r : Run} {p : Park}
    (hI : Issues s h c k.uses) (hp : k.priv = false) (hw : k.whole = none ∨ Whole s c) (hs : k.switch = false) (hq : ∀ q, p ≠ .retry q)
    (he : eff s.sys s.run c = .park r p) (hr : s.run.Turns r c.wid (s.wv c)) :
    Completes (issue s h k eff) (fun t => t.sys = s.sys ∧ { t.run with waves := s.run.waves, cores := s.run.cores } = s.run ∧
      (∀ n, n ≠ c.wid → t.run.wave n = s.run.wave n) ∧ t.wv c = ((s.wv c).park c.m p).charged s.run.clk h k ∧
      RegsKept (s.wv c) (t.wv c) c.act [] ∧
      (t.wv c).parts = (s.wv c).parts.map (fun q => if (q.mask &&& c.m) ≠ 0 then { q with park := p } else q) ∧
      ∀ n, (t.run.core n).sameButCounts (r.core n)) := by
  have ht := (hr.onWave (fun w => w.park c.m p)).charge h k
  refine ⟨_, issue_parks hI hp hw hs hq he, rfl, ht.frame, ht.others, ht.wave_eq, ?_, ?_, Run.core_charge_same _ c h k⟩
  · simp only [State.wv, ht.wave_eq]
    exact regsKept_charged _ _ _ (regsKept_park _ _ _ _)
  · simp only [State.wv, ht.wave_eq, Wave.charged_parts]
    rfl

/-! ## Predicates that answer -/

theorem Run.putBool_pred (r : Run) (c : Iss) (d : BitVec 4) (x : Bool) :
    r.putBool c (.p d) x = r.onWave c.wid (fun w => w.setP d.toNat c.act (fun _ => x)) := rfl

/-- A predicate that was written reads so in the lanes written. -/
theorem getLsbD_pReg_setP_of_mem (w : Wave) {d : BitVec 4} (hd : d ≠ 15) {m : Lanes} (f : Nat → Bool) {l : Nat} (hl : l < 32)
    (hm : m.getLsbD l = true) : ((w.setP d.toNat m f).pReg d.toNat).getLsbD l = f l := by
  have hne : d.toNat ≠ 15 := fun h => hd (BitVec.eq_of_toNat_eq (h.trans rfl))
  rw [Wave.getLsbD_pReg_setP _ _ _ _ _ _ hl, if_pos ⟨rfl, hne, hm⟩]

end Sys2Proof.Machine
end

section
/-! CACQ and CREL with their forms, settled (R389 to R392). -/

namespace Sys2Proof.Machine

/-! ## Words and tokens after an update -/

/-- The key of a word names its accumulator. -/
theorem accKey_div (n row col : Nat) (hr : row < 64) (hc : col < 64) : accKey n row col / 4096 = n := by
  unfold accKey
  omega

/-- Words of accumulators have keys of their own. -/
theorem accKey_inj {n k row i col j : Nat} (hr : row < 64) (hc : col < 64) (hi : i < 64) (hj : j < 64) :
    accKey n row col = accKey k i j ↔ n = k ∧ row = i ∧ col = j := by
  unfold accKey
  omega

@[simp] theorem Run.accTok_onAccTok (r : Run) (core n m : Nat) (f : AccTok → AccTok) :
    (r.onAccTok core n f).accTok core m = if m = n then f (r.accTok core n) else r.accTok core m := by
  simp only [Run.accTok, Run.onAccTok, Run.core_onCore, if_true, Tbl.get?_put]
  split <;> rfl

@[simp] theorem Run.accGet_onAccTok (r : Run) (core n k row col : Nat) (f : AccTok → AccTok) :
    (r.onAccTok core n f).accGet core k row col = r.accGet core k row col := by
  simp only [Run.accGet, Run.onAccTok, Run.core_onCore, if_true]

/-- A token and the words read the same where the cores differ in their issue counts. -/
theorem Run.accTok_congr {r t : Run} {core : Nat} (h : (t.core core).sameButCounts (r.core core)) (n : Nat) :
    t.accTok core n = r.accTok core n := by
  simp only [Run.accTok, h.read Core.accTok fun _ _ _ _ _ => rfl]

theorem Run.accGet_congr {r t : Run} {core : Nat} (h : (t.core core).sameButCounts (r.core core)) (n row col : Nat) :
    t.accGet core n row col = r.accGet core n row col := by
  simp only [Run.accGet, h.read Core.acc fun _ _ _ _ _ => rfl]

/-! ## Grants and returns (R390) -/

theorem Run.Turns.onAccTok {r t : Run} {wid : Nat} {u : Wave} (ht : r.Turns t wid u) (core n : Nat) (f : AccTok → AccTok) :
    r.Turns (t.onAccTok core n f) wid u := ht.onCore core _

/-- A grant changes the core alone. -/
theorem Run.Turns.accGive {r t : Run} {wid : Nat} {u : Wave} (ht : r.Turns t wid u) (core n : Nat) (z : AccHolder) :
    r.Turns (Machine.accGive t core n z) wid u := by
  unfold Machine.accGive
  dsimp only
  split
  · exact (ht.onCore core _).onCore core _
  · exact ht.onCore core _

theorem accTok_accGive_holder (r : Run) (core n : Nat) (z : AccHolder) : ((accGive r core n z).accTok core n).holder = z := by
  unfold accGive
  simp only [Run.accTok_onAccTok, if_true]

/-- Words after a grant: zero where an agent of another block held the accumulator last (R390). -/
theorem accGet_accGive (r : Run) (core n wid k row col : Nat) (hr : row < 64) (hc : col < 64) :
    (accGive r core n (.wave wid)).accGet core k row col =
      if k = n ∧ (r.accTok core n).last.isSome = true ∧ (r.accTok core n).last ≠ some (r.wave wid).blk then 0
      else r.accGet core k row col := by
  unfold accGive
  simp only [Run.accGet_onAccTok]
  split
  · next hl =>
    have hl : (r.accTok core n).last.isSome = true ∧ (r.accTok core n).last ≠ some (r.wave wid).blk := by
      have h := hl
      simp only [Bool.and_eq_true, decide_eq_true_eq] at h
      exact h
    have hf := SMap.get_filter (0 : Word) (fun e => decide (e / 4096 ≠ n)) (r.core core).acc (accKey k row col)
    rw [accKey_div _ _ _ hr hc] at hf
    simp only [Run.accGet, Run.core_onCore, if_true]
    rw [hf]
    by_cases hk : k = n <;> simp [hk, hl]
  · next hl =>
    refine (if_neg fun h => hl ?_).symm
    simp only [Bool.and_eq_true, decide_eq_true_eq]
    exact h.2

/-- A return of a token that nobody waits for frees it and keeps the words. -/
theorem accRelease_eq {r : Run} {core n : Nat} (hq : (r.accTok core n).queue = []) :
    accRelease r core n = r.onAccTok core n (fun t => { t with holder := .free }) := by
  unfold accRelease accSettle
  simp only [Run.accTok_onAccTok, if_true, hq]

/-! ## The row writes of CREL.wr -/

/-- A row of an accumulator after writes of some of its columns, one after another. -/
theorem getAcc_foldl (xs : List Nat) (n row : Nat) (col : Nat → Nat) (f : Nat → Word) (k : Core) (i r0 c0 : Nat) (hr : row < 64)
    (hcol : ∀ l ∈ xs, col l < 64) (hinj : ∀ l ∈ xs, ∀ m ∈ xs, col l = col m → l = m) (hr0 : r0 < 64) (hc0 : c0 < 64) :
    (∀ l ∈ xs, i = n → r0 = row → c0 = col l →
      SMap.get 0 (xs.foldl (fun k l => k.accSet n row (col l) (f l)) k).acc (accKey i r0 c0) = f l) ∧
    ((i = n → r0 = row → ∀ l ∈ xs, c0 ≠ col l) →
      SMap.get 0 (xs.foldl (fun k l => k.accSet n row (col l) (f l)) k).acc (accKey i r0 c0) = SMap.get 0 k.acc (accKey i r0 c0)) := by
  induction xs generalizing k with
  | nil => exact ⟨fun l hl => absurd hl List.not_mem_nil, fun _ => rfl⟩
  | cons x t ih =>
    have hx := hcol x List.mem_cons_self
    obtain ⟨hin, hout⟩ := ih (k.accSet n row (col x) (f x)) (fun l hl => hcol l (List.mem_cons_of_mem _ hl))
      (fun l hl m hm => hinj l (List.mem_cons_of_mem _ hl) m (List.mem_cons_of_mem _ hm))
    have hset : SMap.get 0 (k.accSet n row (col x) (f x)).acc (accKey i r0 c0) =
        if i = n ∧ r0 = row ∧ c0 = col x then f x else SMap.get 0 k.acc (accKey i r0 c0) := by
      simp only [Core.accSet, SMap.get_set, accKey_inj hr0 hc0 hr hx]
    refine ⟨fun l hl hi hr' hc' => ?_, fun h => ?_⟩
    · by_cases hlt : l ∈ t
      · exact hin l hlt hi hr' hc'
      · have hlx : l = x := (List.mem_cons.mp hl).resolve_right hlt
        rw [List.foldl_cons, hout fun _ _ m hm hcm => ?_, hset, if_pos ⟨hi, hr', hlx ▸ hc'⟩, hlx]
        exact hlt (hinj l hl m (List.mem_cons_of_mem _ hm) (hc'.symm.trans hcm) ▸ hm)
    · rw [List.foldl_cons, hout fun hi hr' l hl => h hi hr' l (List.mem_cons_of_mem _ hl), hset,
        if_neg fun ⟨hi, hr', hc'⟩ => h hi hr' x List.mem_cons_self hc']

/-! ## The instructions -/

/-- Whether the issuing wave holds the token, and whether a token is free and nobody waits for it, as the effects test them. -/
theorem Run.holdsAcc_iff (r : Run) (wid n : Nat) : r.holdsAcc wid n = true ↔ (r.accTok (coreOf wid) n).holder = .wave wid := by
  simp [Run.holdsAcc]

/-- The state of the accumulators' statement that a grant leaves. -/
def AccGiven (s t : State) (c : Iss) (n : Nat) : Prop :=
  let core := coreOf c.wid
  let tok := s.run.accTok core n
  (t.run.accTok core n).holder = .wave c.wid ∧ ∀ k row col, row < 64 → col < 64 → t.run.accGet core k row col =
    if k = n ∧ tok.last.isSome = true ∧ tok.last ≠ some (s.wv c).blk then 0 else s.run.accGet core k row col

/-- The frame of the accumulators' statement: registers but D, and whatever is neither a wave nor a core. -/
def AccFrame (s t : State) (c : Iss) (ds : List (Opd × Nat)) : Prop :=
  t.sys = s.sys ∧ { t.run with waves := s.run.waves, cores := s.run.cores } = s.run ∧ (∀ k, k ≠ c.wid → t.run.wave k = s.run.wave k) ∧
  RegsKept (s.wv c) (t.wv c) c.act ds

/-- An effect that keeps the registers but `ds`, of an accumulator's instruction: the frame, the wave and the accumulators behind it. -/
theorem acc_issue {s : State} {h : Hd} {c : Iss} {us : List Use} {eff : Sys → Run → Iss → Eff Unit} {r : Run} {u : Wave}
    {ds : List (Opd × Nat)} (hI : Issues s h c us) (he : eff s.sys s.run c = .ok r ()) (hr : s.run.Turns r c.wid u)
    (hk : RegsKept (s.wv c) u c.act ds) :
    Completes (issue s h { uses := us, closer := true } eff) (fun t => AccFrame s t c ds ∧
      t.wv c = Wave.retired s.run.clk c h { uses := us, closer := true } u ∧
      (∀ n, t.run.accTok (coreOf c.wid) n = r.accTok (coreOf c.wid) n) ∧
      ∀ n row col, t.run.accGet (coreOf c.wid) n row col = r.accGet (coreOf c.wid) n row col) := by
  have hc := issue_turns (k := { uses := us, closer := true }) hI rfl (.inl rfl) rfl he hr
  refine hc.imp fun t ⟨hsys, hrun, hothers, hwv, hcores⟩ => ⟨⟨hsys, hrun, hothers, ?_⟩, hwv,
    fun n => Run.accTok_congr (hcores _) n, fun n row col => Run.accGet_congr (hcores _) n row col⟩
  rw [hwv]
  exact hk.retired

/-- The columns of a row that the lanes of a form name (R391). -/
def rowCol (half : Bool) (l : Nat) : Nat := if half then l + 32 else l

theorem rowCol_eq (half : Bool) (l : Nat) : l + (if half then 32 else 0) = rowCol half l := by
  unfold rowCol
  split <;> rfl

/-- What keeps the registers keeps them when registers are then owed. -/
theorem RegsKept.owe {w u : Wave} {m : Lanes} {ds : List (Opd × Nat)} (hk : RegsKept w u m ds) (rs : List RegRef) (kind : PendKind)
    (acq : Bool) (am : Lanes) (pc : Word64) : RegsKept w (u.owe rs kind acq am pc) m ds := by
  obtain ⟨ve, se, ps, e⟩ := u.owe_eq rs kind acq am pc
  rw [e]
  exact hk

section
variable {s : State} {h : Hd} {o : Ops} {c : Iss} {n : BitVec 4}

section
variable (hI : Issues s h c []) (ho : o.a = .c n)
include hI ho

theorem cacq_traps (hh : (s.run.accTok (coreOf c.wid) n.toNat).holder = .wave c.wid) :
    Traps s (.cacq h o) c (accTrap c.act n.toNat) ∧ Traps s (.cacqTry h o) c (accTrap c.act n.toNat) := by
  have hn : accNum o.a = n.toNat := by rw [ho]; rfl
  have hholds := (s.run.holdsAcc_iff c.wid n.toNat).mpr hh
  exact ⟨issue_trap (k := { closer := true }) hI (.inl rfl) (.inl rfl) (by simp only [cacqEff, hn, hholds, if_true]),
    issue_trap (k := { closer := true }) hI (.inl rfl) (.inl rfl) (by simp only [cacqTryEff, hn, hholds, if_true])⟩

theorem crel_traps (hh : (s.run.accTok (coreOf c.wid) n.toNat).holder ≠ .wave c.wid) :
    Traps s (.crel h o) c (accTrap c.act n.toNat) := by
  have hn : accNum o.a = n.toNat := by rw [ho]; rfl
  have hholds := mt (s.run.holdsAcc_iff c.wid n.toNat).mp hh
  exact issue_trap (k := { closer := true }) hI (.inl rfl) (.inl rfl) (by simp [crelEff, hn, hholds])

theorem crel_completes (hh : (s.run.accTok (coreOf c.wid) n.toNat).holder = .wave c.wid)
    (hq : (s.run.accTok (coreOf c.wid) n.toNat).queue = []) :
    Completes (exec (.crel h o) s) (fun t => AccFrame s t c [] ∧ (t.run.accTok (coreOf c.wid) n.toNat).holder = .free ∧
      ∀ k row col, t.run.accGet (coreOf c.wid) k row col = s.run.accGet (coreOf c.wid) k row col) := by
  have hn : accNum o.a = n.toNat := by rw [ho]; rfl
  have hholds := (s.run.holdsAcc_iff c.wid n.toNat).mpr hh
  refine (acc_issue hI (eff := crelEff o) ?_ ((turns_self hI.1).onAccTok (coreOf c.wid) n.toNat fun t => { t with holder := .free })
    (RegsKept.refl _ _ _)).imp fun t ⟨hf, _, htok, hget⟩ =>
    ⟨hf, ?_, fun k row col => (hget k row col).trans (Run.accGet_onAccTok s.run _ n.toNat k row col _)⟩
  · simp only [crelEff, hn, hholds, Bool.not_true, Bool.false_eq_true, if_false, accRelease_eq hq]
  · rw [htok]
    exact congrArg AccTok.holder ((Run.accTok_onAccTok s.run (coreOf c.wid) n.toNat n.toNat _).trans (if_pos rfl))

section
variable (hfree : (s.run.accTok (coreOf c.wid) n.toNat).holder = .free ∧ (s.run.accTok (coreOf c.wid) n.toNat).queue = [])
include hfree

theorem cacq_completes : Completes (exec (.cacq h o) s) (fun t => AccFrame s t c [] ∧ AccGiven s t c n.toNat) := by
  have hn : accNum o.a = n.toNat := by rw [ho]; rfl
  have hholds : s.run.holdsAcc c.wid n.toNat = false := by simp [Run.holdsAcc, hfree.1]
  refine (acc_issue hI (eff := cacqEff o) ?_ ((turns_self hI.1).accGive (coreOf c.wid) n.toNat (.wave c.wid)) (RegsKept.refl _ _ _)).imp
    fun t ⟨hf, _, htok, hget⟩ => ⟨hf, ?_, fun k row col hr hc => (hget k row col).trans (accGet_accGive _ _ _ _ _ _ _ hr hc)⟩
  · simp [cacqEff, hn, hholds, hfree.1, hfree.2]
  · rw [htok, accTok_accGive_holder]

theorem cacqTry_completes {d : BitVec 4} (hd : o.d = .p d) : Completes (exec (.cacqTry h o) s) (fun t =>
    AccFrame s t c [(o.d, 1)] ∧ AccGiven s t c n.toNat ∧
    (d ≠ 15 → ∀ l, l < 32 → c.act.getLsbD l = true → ((t.wv c).pReg d.toNat).getLsbD l = true)) := by
  have hn : accNum o.a = n.toNat := by rw [ho]; rfl
  have hholds : s.run.holdsAcc c.wid n.toNat = false := by simp [Run.holdsAcc, hfree.1]
  rw [hd]
  refine (acc_issue hI (eff := cacqTryEff o) ?_
    (((turns_self hI.1).accGive (coreOf c.wid) n.toNat (.wave c.wid)).onWave (fun w => w.setP d.toNat c.act (fun _ => true)))
    (regsKept_setP _ d _ _)).imp fun t ⟨hf, hwv, htok, hget⟩ =>
      ⟨hf, ⟨?_, fun k row col hr hc => (hget k row col).trans (accGet_accGive _ _ _ _ _ _ _ hr hc)⟩, fun h15 l hl ha => ?_⟩
  · simp [cacqTryEff, hn, hholds, hfree.1, hfree.2, hd, Run.putBool]
  · rw [htok]
    exact accTok_accGive_holder s.run (coreOf c.wid) n.toNat (.wave c.wid)
  · exact getLsbD_pReg_answer (by rw [hwv, Wave.retired_p]) h15 hl ha

end

theorem cacqTry_answersFalse (hbusy : ¬((s.run.accTok (coreOf c.wid) n.toNat).holder = .free ∧
      (s.run.accTok (coreOf c.wid) n.toNat).queue = [])) (hh : (s.run.accTok (coreOf c.wid) n.toNat).holder ≠ .wave c.wid)
    {d : BitVec 4} (hd : o.d = .p d) : Completes (exec (.cacqTry h o) s) (fun t => AccFrame s t c [(o.d, 1)] ∧
      t.run.accTok (coreOf c.wid) n.toNat = s.run.accTok (coreOf c.wid) n.toNat ∧
      (d ≠ 15 → ∀ l, l < 32 → c.act.getLsbD l = true → ((t.wv c).pReg d.toNat).getLsbD l = false)) := by
  have hn : accNum o.a = n.toNat := by rw [ho]; rfl
  have hholds := mt (s.run.holdsAcc_iff c.wid n.toNat).mp hh
  have hfree : ¬((s.run.accTok (coreOf c.wid) n.toNat).holder == AccHolder.free &&
      (s.run.accTok (coreOf c.wid) n.toNat).queue.isEmpty) = true := by simpa using hbusy
  rw [hd]
  refine (acc_issue hI (eff := cacqTryEff o) ?_ ((turns_self hI.1).onWave (fun w => w.setP d.toNat c.act (fun _ => false)))
    (regsKept_setP _ d _ _)).imp fun t ⟨hf, hwv, htok, _⟩ => ⟨hf, htok _, fun h15 l hl ha => ?_⟩
  · simp only [cacqTryEff, hn, hholds, hfree, hd, Run.putBool_pred, Bool.false_eq_true, if_false]
  · exact getLsbD_pReg_answer (by rw [hwv, Wave.retired_p]) h15 hl ha

end

section
variable (hI : Issues s h c (usesOf h o)) (half : Bool)
include hI

theorem cacqRd_traps (ho : o.a = .c n) (hh : (s.run.accTok (coreOf c.wid) n.toNat).holder ≠ .wave c.wid) :
    Traps s (.cacqRd h half o) c (accTrap c.act n.toNat) := by
  have hn : accNum o.a = n.toNat := by rw [ho]; rfl
  have hholds := mt (s.run.holdsAcc_iff c.wid n.toNat).mp hh
  exact issue_trap (k := { uses := usesOf h o, closer := true }) hI (.inl rfl) (.inl rfl) (by simp [cacqRdEff, hn, hholds])

theorem crelWr_traps (ho : o.d = .c n) (hh : (s.run.accTok (coreOf c.wid) n.toNat).holder ≠ .wave c.wid) :
    Traps s (.crelWr h half o) c (accTrap c.act n.toNat) := by
  have hn : accNum o.d = n.toNat := by rw [ho]; rfl
  have hholds := mt (s.run.holdsAcc_iff c.wid n.toNat).mp hh
  exact issue_trap (k := { uses := usesOf h o, closer := true }) hI (.inl rfl) (.inl rfl) (by simp [crelWrEff, hn, hholds])

theorem cacqRd_completes (ho : o.a = .c n) (hh : (s.run.accTok (coreOf c.wid) n.toNat).holder = .wave c.wid)
    (hd : Opd.laneReg o.d = true) : Completes (exec (.cacqRd h half o) s) (fun t => AccFrame s t c [(o.d, 1)] ∧
      (∀ x ∈ (s.wv c).refs o.d 1 c.act, x.mask ≠ 0 → (t.wv c).isEmpty x = true) ∧
      ∀ l, l < 32 → c.act.getLsbD l = true → (s.wv c).lane (t.wv c) o.d 0 l =
        s.run.accGet (coreOf c.wid) n.toNat (s.run.rdCount c o.b % 64) (rowCol half l)) := by
  have hn : accNum o.a = n.toNat := by rw [ho]; rfl
  have hholds := (s.run.holdsAcc_iff c.wid n.toNat).mpr hh
  let row (l : Nat) : Word := s.run.accGet (coreOf c.wid) n.toNat (s.run.rdCount c o.b % 64) (rowCol half l)
  refine (acc_issue hI (eff := cacqRdEff half o) ?_
    ((turns_self hI.1).onWave fun w => (w.put o.d 0 c.act row).owe (w.refs o.d 1 c.act) .local false c.act c.pc)
    ((regsKept_put _ o.d 0 1 _ row Nat.one_pos).owe _ _ _ _ _)).imp fun t ⟨hf, hwv, _, _⟩ => ⟨hf, fun x hx hm => ?_, fun l hl ha => ?_⟩
  · simp only [cacqRdEff, hn, hholds, Bool.not_true, Bool.false_eq_true, if_false, Run.rowIndex, rowCol_eq, row]
  · rw [hwv, Wave.isEmpty_retired]
    have hv := Wave.vec_of_mem_refs hd hx
    exact Wave.isEmpty_markEmpty ((s.wv c).put o.d 0 c.act row) hx (fun _ => hm) (fun h => absurd h (by simp [hv]))
  · rw [hwv, Wave.lane_retired, Wave.lane_owe, lane_put _ _ _ _ _ _ hl ha hd]

theorem crelWr_completes (ho : o.d = .c n) (hh : (s.run.accTok (coreOf c.wid) n.toNat).holder = .wave c.wid) :
    Completes (exec (.crelWr h half o) s) (fun t => AccFrame s t c [] ∧
      (∀ l, l < 32 → c.act.getLsbD l = true →
        t.run.accGet (coreOf c.wid) n.toNat (s.run.rdCount c o.b % 64) (rowCol half l) = s.src c o.a l) ∧
      ∀ k row' x, row' < 64 → x < 64 → (k ≠ n.toNat ∨ row' ≠ s.run.rdCount c o.b % 64 ∨
          ∀ l, l < 32 → c.act.getLsbD l = true → x ≠ rowCol half l) →
        t.run.accGet (coreOf c.wid) k row' x = s.run.accGet (coreOf c.wid) k row' x) := by
  have hn : accNum o.d = n.toNat := by rw [ho]; rfl
  have hholds := (s.run.holdsAcc_iff c.wid n.toNat).mpr hh
  have hrow : s.run.rdCount c o.b % 64 < 64 := Nat.mod_lt _ (by omega)
  have hcol (l : Nat) (hl : l < 32) : rowCol half l < 64 := by unfold rowCol; split <;> omega
  have hinj (l m : Nat) (h : rowCol half l = rowCol half m) : l = m := by unfold rowCol at h; split at h <;> omega
  have hlane (l : Nat) (hl : l ∈ c.act.toList) : l < 32 := ((mem_toList _ _).mp hl).1
  refine (acc_issue hI (eff := crelWrEff half o) ?_ ((turns_self hI.1).onCore (coreOf c.wid)
    (fun k => c.act.toList.foldl (fun k l => k.accSet n.toNat (s.run.rdCount c o.b % 64) (rowCol half l) (s.src c o.a l)) k))
    (RegsKept.refl _ _ _)).imp fun t ⟨hf, _, _, hget⟩ => ⟨hf, fun l hl ha => ?_, fun k row' x hr' hx hne => ?_⟩
  · simp only [crelWrEff, hn, hholds, Bool.not_true, Bool.false_eq_true, if_false, Run.rowIndex, rowCol_eq, List.foldl_map]
  · rw [hget]
    simp only [Run.accGet, Run.core_onCore, if_true]
    exact (getAcc_foldl c.act.toList n.toNat _ (rowCol half) (s.src c o.a) _ n.toNat _ _ hrow (fun m hm => hcol m (hlane m hm))
      (fun m _ j _ => hinj m j) hrow (hcol l hl)).1 l ((mem_toList _ _).mpr ⟨hl, ha⟩) rfl rfl rfl
  · rw [hget]
    simp only [Run.accGet, Run.core_onCore, if_true]
    refine (getAcc_foldl c.act.toList n.toNat _ (rowCol half) (s.src c o.a) _ k row' x hrow (fun m hm => hcol m (hlane m hm))
      (fun m _ j _ => hinj m j) hr' hx).2 fun hk hrw l hl => ?_
    obtain ⟨hl, ha⟩ := (mem_toList _ _).mp hl
    exact (hne.resolve_left (not_not.mpr hk)).resolve_left (not_not.mpr hrw) l hl ha

end
end

/-- Settles O38: each form by who holds the token. -/
theorem accumulatorAccess : Obligations.AccumulatorAccess := by
  unfold Obligations.AccumulatorAccess
  refine fun s h o c n => ⟨fun hI ho => ⟨cacq_completes hI ho, fun hf d => cacqTry_completes hI ho hf,
    fun hf hh d => cacqTry_answersFalse hI ho hf hh, fun hh => ⟨⟨_, rfl, rfl, (cacq_traps hI ho hh).1⟩,
    ⟨_, rfl, rfl, (cacq_traps hI ho hh).2⟩, crel_completes hI ho hh⟩, fun hh => ⟨_, rfl, rfl, crel_traps hI ho hh⟩⟩, fun half hI => ?_⟩
  exact ⟨fun ho hh => ⟨_, rfl, rfl, cacqRd_traps hI half ho hh⟩, cacqRd_completes hI half,
    fun ho hh => ⟨_, rfl, rfl, crelWr_traps hI half ho hh⟩, crelWr_completes hI half⟩

end Sys2Proof.Machine
end

section
/-! ROLESW and PHASE, settled (R468 to R471). -/

namespace Sys2Proof.Machine

/-- The issue of an instruction of a whole wave that sets the PCs itself and otherwise writes no register: what it makes the wave. -/
theorem issue_moves {s : State} {h : Hd} {c : Iss} {us : List Use} {eff : Sys → Run → Iss → Eff Unit} {f : Wave → Wave} {u : Wave}
    (hI : Issues s h c us) (hw : Whole s c) (he : eff s.sys s.run c = .ok (s.run.onWave c.wid f) ())
    (hr : RegsKept (s.wv c) (f (s.wv c)) c.act []) (hk : RestKept u (f (s.wv c))) :
    Completes (issue s h { uses := us, whole := some 1, branch := true } eff) (fun t => DeviceKept s t c.wid ∧
      RegsKept (s.wv c) (t.wv c) c.act [] ∧ RestKept u (t.wv c) ∧ (t.wv c).parts = (f (s.wv c)).parts) := by
  obtain ⟨w, hwv, -, hww⟩ := Run.issuer_wave _ _ _ hI.1
  rw [State.wv, hww] at hr hk ⊢
  have ht := wave_onWave_retire (h := h) (k := { uses := us, whole := some 1, branch := true }) (f := f) hwv
  refine ⟨_, issue_ok' hI (.inl rfl) (.inr hw) rfl he, deviceKept_onWave, ?_, ?_, ?_⟩ <;> simp only [State.wv, ht]
  · exact hr.retired
  · exact hk.retired rfl
  · unfold Wave.retired
    simp only [if_true, Bool.false_eq_true, if_false]
    split <;> rfl

/-- The wave behind a change of role (R470). -/
def Wave.roled (w : Wave) (m : Lanes) (regs stage : Nat) (pc : Word64) : Wave :=
  ({ w with mon := none, valloc := regs, stage := stage }.jump m pc).regionEntry m

theorem Wave.roled_parts (w : Wave) (m : Lanes) (regs stage : Nat) (pc : Word64) : (w.roled m regs stage pc).parts =
    w.parts.map (fun p => if (p.mask &&& m) ≠ 0 then { p with pc := pc, rpc := pc, park := .run } else p) := by
  simp only [Wave.roled, Wave.regionEntry, Wave.jump, Wave.onParts_parts, List.map_map]
  refine List.map_congr_left fun p _ => ?_
  by_cases hp : (p.mask &&& m) ≠ 0
  · simp only [Function.comp_apply, if_pos hp]
  · simp only [Function.comp_apply, if_neg hp]

/-- The wave behind a choice of a variant (R471). -/
def Wave.phased (w : Wave) (m : Lanes) (k : Nat) (pc : Word64) : Wave := { w with sched := k }.jump m pc

section
variable {s : State} {h : Hd} {o : Ops} {c : Iss} (hI : Issues s h c (usesOf h o)) (hw : Whole s c)
include hI hw

theorem rolesw_traps_unknown (hn : (s.run.launchOf (s.wv c)).info.roles[s.run.rdCount c o.a]? = none) :
    Traps s (.rolesw h o) c (taskTrap c.act 1 (s.run.rdCount c o.a)) :=
  issue_trap (k := { uses := usesOf h o, whole := some 1, branch := true }) hI (.inl rfl) (.inr hw) (by simp only [roleswEff, hn])

section
variable {role : Role} (hn : (s.run.launchOf (s.wv c)).info.roles[s.run.rdCount c o.a]? = some role)
include hn

theorem rolesw_traps_few (hreg : (s.wv c).placed < role.regs) :
    Traps s (.rolesw h o) c (taskTrap c.act 2 (s.run.rdCount c o.a)) :=
  issue_trap (k := { uses := usesOf h o, whole := some 1, branch := true }) hI (.inl rfl) (.inr hw)
    (by simp only [roleswEff, hn, if_pos hreg])

theorem rolesw_traps_held (hreg : role.regs ≤ (s.wv c).placed) (hheld : s.run.roleHeld c.wid = true) :
    Traps s (.rolesw h o) c (taskTrap c.act 3 (s.run.rdCount c o.a)) :=
  issue_trap (k := { uses := usesOf h o, whole := some 1, branch := true }) hI (.inl rfl) (.inr hw)
    (by simp only [roleswEff, hn, if_neg (Nat.not_lt.mpr hreg), hheld, if_true])

theorem rolesw_completes (hreg : role.regs ≤ (s.wv c).placed) (hheld : s.run.roleHeld c.wid = false)
    (hdr : s.run.drained c.wid = true) :
    let pc := s.run.codeBase (s.wv c) + BitVec.ofNat 64 role.entry
    Completes (exec (.rolesw h o) s) (fun t => DeviceKept s t c.wid ∧ RegsKept (s.wv c) (t.wv c) c.act [] ∧
      RestKept { s.wv c with mon := none, valloc := role.regs, stage := s.run.rdCount c o.a, rgn := (s.wv c).rgn + 1 } (t.wv c) ∧
      (t.wv c).parts = (s.wv c).parts.map (fun p => if (p.mask &&& c.m) ≠ 0 then { p with pc := pc, rpc := pc, park := .run } else p)) := by
  intro pc
  rw [← Wave.roled_parts (s.wv c) c.m role.regs (s.run.rdCount c o.a) pc]
  refine issue_moves (f := fun w => w.roled c.m role.regs (s.run.rdCount c o.a) pc) hI hw ?_ (RegsKept.refl _ _ _) rfl
  simp only [roleswEff, hn, if_neg (Nat.not_lt.mpr hreg), hheld, hdr, Bool.not_true, Bool.false_eq_true, if_false]
  rfl

end

theorem phase_traps (hv : ∀ v ∈ (s.run.launchOf (s.wv c)).info.variants, v.1 < (s.ssrc c o.a).toNat) :
    Traps s (.phase h o) c (taskTrap c.act 4 (s.ssrc c o.a).toNat) := by
  have hnone : (s.run.launchOf (s.wv c)).info.variants.findIdx? (fun v => decide ((s.ssrc c o.a).toNat ≤ v.1)) = none :=
    List.findIdx?_eq_none_iff.mpr fun v hm => decide_eq_false (Nat.not_le.mpr (hv v hm))
  exact issue_trap (k := { uses := usesOf h o, whole := some 1, branch := true }) hI (.inl rfl) (.inr hw)
    (by simp only [phaseEff, hnone])

theorem phase_completes {k : Nat} {v : Nat × Nat} (hget? : (s.run.launchOf (s.wv c)).info.variants[k]? = some v)
    (hv : (s.ssrc c o.a).toNat ≤ v.1)
    (hfirst : ∀ j u, j < k → (s.run.launchOf (s.wv c)).info.variants[j]? = some u → u.1 < (s.ssrc c o.a).toNat) :
    Completes (exec (.phase h o) s) (fun t => DeviceKept s t c.wid ∧ RegsKept (s.wv c) (t.wv c) c.act [] ∧
      RestKept { s.wv c with sched := k } (t.wv c) ∧
      (t.wv c).parts = (s.wv c).parts.map (fun p => if (p.mask &&& c.m) ≠ 0 then
        { p with pc := s.run.codeBase (s.wv c) + BitVec.ofNat 64 v.2, park := .run } else p)) := by
  obtain ⟨hlt, hget⟩ := List.getElem?_eq_some_iff.mp hget?
  have hsome : (s.run.launchOf (s.wv c)).info.variants.findIdx? (fun v => decide ((s.ssrc c o.a).toNat ≤ v.1)) = some k := by
    refine List.findIdx?_eq_some_iff_getElem.mpr ⟨hlt, decide_eq_true (hget ▸ hv), fun j hj => ?_⟩
    have hu := hfirst j _ hj (List.getElem?_eq_getElem (hj.trans hlt))
    simpa using hu
  have hk : RestKept { s.wv c with sched := k } ((s.wv c).phased c.m k (s.run.codeBase (s.wv c) + BitVec.ofNat 64 v.2)) := rfl
  refine issue_moves (f := fun w => w.phased c.m k (s.run.codeBase w + BitVec.ofNat 64 v.2)) hI hw ?_ (RegsKept.refl _ _ _) hk
  simp only [phaseEff, hsome, hget?, Option.map_some, Option.getD_some]
  rfl

end

/-- Settles O39: ROLESW by its checks in their order, PHASE by the first variant within whose limit the operand lies. -/
theorem roleAndPhase : Obligations.RoleAndPhase := by
  unfold Obligations.RoleAndPhase
  refine fun s h o c hI hw => ⟨fun hn => ⟨_, rfl, rfl, rfl, rolesw_traps_unknown hI hw hn⟩, fun role hn => ⟨?_, ?_, ?_⟩, ?_, ?_⟩
  · exact fun hreg => ⟨_, rfl, rfl, rfl, rolesw_traps_few hI hw hn hreg⟩
  · exact fun hreg hheld => ⟨_, rfl, rfl, rfl, rolesw_traps_held hI hw hn hreg hheld⟩
  · exact rolesw_completes hI hw hn
  · exact fun hv => ⟨_, rfl, rfl, rfl, phase_traps hI hw hv⟩
  · exact fun k v hk hv hfirst => phase_completes hI hw hk hv hfirst

end Sys2Proof.Machine
end

section
/-! The task deque, settled (R472 to R475). -/

namespace Sys2Proof.Machine

/-! ## The entry taken -/

/-- The entry of a launch that stands first. -/
theorem takeFirst_some {l : Nat} {x : Word64} {up down : List (Nat × Word64)} (h : ∀ e ∈ up, e.1 ≠ l) :
    takeFirst (fun e => e.1 = l) (up ++ (l, x) :: down) = some (x, up ++ down) := by
  have hf : (up ++ (l, x) :: down).findIdx? (fun e => decide (e.1 = l)) = some up.length := by
    refine List.findIdx?_eq_some_iff_getElem.mpr ⟨by simp, by simp, fun j hj => ?_⟩
    rw [List.getElem_append_left hj]
    simpa using h _ (List.getElem_mem hj)
  simp [takeFirst, hf, List.eraseIdx_append_of_length_le]

theorem takeFirst_none {l : Nat} {q : List (Nat × Word64)} (h : ∀ e ∈ q, e.1 ≠ l) : takeFirst (fun e => e.1 = l) q = none := by
  have hf : q.findIdx? (fun e => decide (e.1 = l)) = none := List.findIdx?_eq_none_iff.mpr fun e he => decide_eq_false (h e he)
  simp only [takeFirst, hf]

/-- The entry of a launch that stands last. -/
theorem takeLast_some {l : Nat} {x : Word64} {up down : List (Nat × Word64)} (h : ∀ e ∈ down, e.1 ≠ l) :
    takeLast (fun e => e.1 = l) (up ++ (l, x) :: down) = some (x, up ++ down) := by
  have hr : (up ++ (l, x) :: down).reverse = down.reverse ++ (l, x) :: up.reverse := by simp
  have hf : (up ++ (l, x) :: down).reverse.findIdx? (fun e => decide (e.1 = l)) = some down.length := by
    rw [hr]
    refine List.findIdx?_eq_some_iff_getElem.mpr ⟨by simp, by simp, fun j hj => ?_⟩
    rw [List.getElem_append_left (by simpa using hj)]
    have hm := List.getElem_mem (l := down.reverse) (by simpa using hj)
    simpa using h _ (List.mem_reverse.mp hm)
  have hj : (up ++ (l, x) :: down).length - 1 - down.length = up.length := by simp
  rw [takeLast, hf]
  simp only [hj]
  simp [List.eraseIdx_append_of_length_le]

theorem takeLast_none {l : Nat} {q : List (Nat × Word64)} (h : ∀ e ∈ q, e.1 ≠ l) : takeLast (fun e => e.1 = l) q = none := by
  have hf : q.reverse.findIdx? (fun e => decide (e.1 = l)) = none :=
    List.findIdx?_eq_none_iff.mpr fun e he => decide_eq_false (h e (List.mem_reverse.mp he))
  simp only [takeLast, hf]

/-- The run with another deque of a core. -/
def Run.setDeque (r : Run) (core : Nat) (q : List (Nat × Word64)) : Run := r.onCore core fun k => { k with deque := q }

theorem Run.deque_setDeque (r : Run) (core : Nat) (q : List (Nat × Word64)) : ((r.setDeque core q).core core).deque = q :=
  congrArg Core.deque ((Run.core_onCore r core core _).trans (if_pos rfl))

theorem Run.Turns.setDeque {r t : Run} {wid : Nat} {u : Wave} (ht : r.Turns t wid u) (core : Nat) (q : List (Nat × Word64)) :
    r.Turns (t.setDeque core q) wid u := ht.onCore core _

/-! ## The instructions -/

/-- The frame of the deque's statement. -/
def TaskFrame (s t : State) (c : Iss) : Prop :=
  t.sys = s.sys ∧ { t.run with waves := s.run.waves, cores := s.run.cores } = s.run ∧ ∀ n, n ≠ c.wid → t.run.wave n = s.run.wave n

/-- A predicate that tells an answer in the lanes `act`. -/
def Wave.tells (w : Wave) (act : Lanes) (o : Opd) (z : Bool) : Prop :=
  ∀ d, o = .p d → d ≠ 15 → ∀ l, l < 32 → act.getLsbD l = true → (w.pReg d.toNat).getLsbD l = z

/-- An effect of a deque's instruction: the frame, the wave and the deque behind it. -/
theorem deque_issue {s : State} {h : Hd} {c : Iss} {us : List Use} {eff : Sys → Run → Iss → Eff Unit} {r : Run} {u : Wave}
    (hI : Issues s h c us) (he : eff s.sys s.run c = .ok r ()) (hr : s.run.Turns r c.wid u) :
    Completes (issue s h { uses := us, closer := true } eff) (fun t => TaskFrame s t c ∧
      t.wv c = Wave.retired s.run.clk c h { uses := us, closer := true } u ∧
      (t.run.core (coreOf c.wid)).deque = (r.core (coreOf c.wid)).deque) :=
  (issue_turns (k := { uses := us, closer := true }) hI rfl (.inl rfl) rfl he hr).imp fun _ ⟨hsys, hrun, hothers, hwv, hcores⟩ =>
    ⟨⟨hsys, hrun, hothers⟩, hwv, (hcores _).read Core.deque fun _ _ _ _ _ => rfl⟩

/-- What the wave holds once an instruction that answers has ended: registers but D, and the answer. -/
theorem answer_kept {w u : Wave} {clk : Nat} {c : Iss} {h : Hd} {k : How} {o : Opd} {ds : List (Opd × Nat)} {p : BitVec 4} {z : Bool}
    (hk : RegsKept w u c.act ds) (hx : ∀ d ∈ ds, ∀ l, u.vIdx d.1 l = w.vIdx d.1 l) (ho : o = .p p) (hds : (o, 1) ∈ ds) :
    RegsKept w (Wave.retired clk c h k (u.setP p.toNat c.act (fun _ => z))) c.act ds ∧
    (Wave.retired clk c h k (u.setP p.toNat c.act (fun _ => z))).tells c.act o z := by
  subst ho
  refine ⟨RegsKept.retired (RegsKept.trans hx hk ((regsKept_setP u p c.act _).mono fun d hd => ?_)), fun d hd h15 l hl ha => ?_⟩
  · rw [List.mem_singleton.mp hd]; exact hds
  · cases hd
    exact getLsbD_pReg_answer (by rw [Wave.retired_p]) h15 hl ha

section
variable {s : State} {h : Hd} {o : Ops} {c : Iss}

section
variable {d : BitVec 4} (hI : Issues s h c (usesOf h o)) (hd : o.d = .p d) (hq : Quiet s c)
include hI hd hq

theorem dqpush_full (hn : 256 ≤ (s.run.core (coreOf c.wid)).deque.length) :
    Completes (exec (.dqpush h o) s) (fun t => TaskFrame s t c ∧ RegsKept (s.wv c) (t.wv c) c.act [(o.d, 1)] ∧
      (t.run.core (coreOf c.wid)).deque = (s.run.core (coreOf c.wid)).deque ∧ (t.wv c).tells c.act o.d false) := by
  refine (deque_issue hI (eff := ordered true false (dqpushEff o)) ?_
    ((turns_self hI.1).onWave fun w => w.setP d.toNat c.act (fun _ => false))).imp fun t ⟨hf, hwv, hdq⟩ => ⟨hf, ?_⟩
  · rw [ordered_of_quiet hq, dqpushEff, if_pos hn, hd, Run.putBool_pred]
  · obtain ⟨hk, ht⟩ := answer_kept (z := false) (RegsKept.refl (s.wv c) c.act [(o.d, 1)]) (fun _ _ _ => rfl) hd List.mem_cons_self
    rw [hwv]
    exact ⟨hk, hdq, ht⟩

theorem dqpush_joins (hn : (s.run.core (coreOf c.wid)).deque.length < 256) :
    Completes (exec (.dqpush h o) s) (fun t => TaskFrame s t c ∧ RegsKept (s.wv c) (t.wv c) c.act [(o.d, 1)] ∧
      (t.run.core (coreOf c.wid)).deque = (s.run.core (coreOf c.wid)).deque ++ [((s.run.blockOf (s.wv c)).launch, s.ssrc c o.a)] ∧
      (t.wv c).tells c.act o.d true) := by
  refine (deque_issue hI (eff := ordered true false (dqpushEff o)) ?_
    (((turns_self hI.1).setDeque (coreOf c.wid)
      ((s.run.core (coreOf c.wid)).deque ++ [((s.run.blockOf (s.wv c)).launch, s.ssrc c o.a)])).onWave
        fun w => w.setP d.toNat c.act (fun _ => true))).imp fun t ⟨hf, hwv, hdq⟩ => ⟨hf, ?_⟩
  · rw [ordered_of_quiet hq, dqpushEff, if_neg (Nat.not_le.mpr hn), hd, Run.putBool_pred]
    rfl
  · obtain ⟨hk, ht⟩ := answer_kept (z := true) (RegsKept.refl (s.wv c) c.act [(o.d, 1)]) (fun _ _ _ => rfl) hd List.mem_cons_self
    rw [hwv]
    exact ⟨hk, hdq.trans (s.run.deque_setDeque (coreOf c.wid) _), ht⟩

end

section
variable {d : BitVec 7} {p : BitVec 4} (hI : Issues s h c [⟨0, o.d, 1, true, false, none⟩]) (hd : o.d = .s d) (hp : o.c = .p p)
include hI hp

theorem dqpop_empty (hq : ∀ e ∈ (s.run.core (coreOf c.wid)).deque, e.1 ≠ (s.run.blockOf (s.wv c)).launch) :
    Completes (exec (.dqpop h o) s) (fun t => TaskFrame s t c ∧ RegsKept (s.wv c) (t.wv c) c.act [(o.c, 1)] ∧
      (t.run.core (coreOf c.wid)).deque = (s.run.core (coreOf c.wid)).deque ∧ (t.wv c).tells c.act o.c false) := by
  refine (deque_issue hI (eff := dqpopEff o) ?_ ((turns_self hI.1).onWave fun w => w.setP p.toNat c.act (fun _ => false))).imp
    fun t ⟨hf, hwv, hdq⟩ => ⟨hf, ?_⟩
  · simp only [dqpopEff, takeLast_none hq, hp, Run.putBool_pred]
  · obtain ⟨hk, ht⟩ := answer_kept (z := false) (RegsKept.refl (s.wv c) c.act [(o.c, 1)]) (fun _ _ _ => rfl) hp List.mem_cons_self
    rw [hwv]
    exact ⟨hk, hdq, ht⟩

include hd

theorem dqpop_takes {up down : List (Nat × Word64)} {x : Word64}
    (hq : (s.run.core (coreOf c.wid)).deque = up ++ ((s.run.blockOf (s.wv c)).launch, x) :: down)
    (hdown : ∀ e ∈ down, e.1 ≠ (s.run.blockOf (s.wv c)).launch) :
    Completes (exec (.dqpop h o) s) (fun t => TaskFrame s t c ∧ RegsKept (s.wv c) (t.wv c) c.act [(o.d, 1), (o.c, 1)] ∧
      (t.run.core (coreOf c.wid)).deque = up ++ down ∧ (t.wv c).sReg d.toNat = x ∧ (t.wv c).tells c.act o.c true) := by
  have htake := takeLast_some (x := x) (up := up) hdown
  rw [← hq] at htake
  refine (deque_issue hI (eff := dqpopEff o) ?_ ((((turns_self hI.1).setDeque (coreOf c.wid) (up ++ down)).onWave
    fun w => w.setS d.toNat x).onWave fun w => w.setP p.toNat c.act (fun _ => true))).imp fun t ⟨hf, hwv, hdq⟩ => ⟨hf, ?_⟩
  · simp only [dqpopEff, htake, hp, hd, Run.putBool_pred, scalarNum]
    rfl
  · obtain ⟨hk, ht⟩ := answer_kept (z := true) (ds := [(o.d, 1), (o.c, 1)]) ((regsKept_setS (s.wv c) d x c.act).mono (by simp [hd]))
      (fun _ _ _ => rfl) hp (List.mem_cons_of_mem _ List.mem_cons_self)
    rw [hwv]
    refine ⟨hk, hdq.trans (s.run.deque_setDeque (coreOf c.wid) _), ?_, ht⟩
    · rw [Wave.sReg_retired, Wave.sReg, Wave.setP_s]
      exact (Wave.sReg_setS _ _ _ _).trans (if_pos rfl)

end

section
variable {d : BitVec 7} {p : BitVec 4} (hI : Issues s h c [⟨0, o.d, 1, true, false, none⟩, ⟨1, o.a, 1, false, h.fea, none⟩])
  (hd : o.d = .s d) (hp : o.c = .p p)
include hI hp

theorem dqsteal_refused (hv : 1280 ≤ (s.ssrc c o.a).toNat ∨ s.sys.partOf (dieOf (s.ssrc c o.a).toNat) ≠ s.run.partOf c.wid) :
    Completes (exec (.dqsteal h o) s) (fun t => TaskFrame s t c ∧ RegsKept (s.wv c) (t.wv c) c.act [(o.c, 1)] ∧
      (t.wv c).tells c.act o.c false) := by
  refine (deque_issue hI (eff := dqstealEff o) ?_ ((turns_self hI.1).onWave fun w => w.setP p.toNat c.act (fun _ => false))).imp
    fun t ⟨hf, hwv, _⟩ => ⟨hf, ?_⟩
  · rw [dqstealEff, if_pos hv, hp, Run.putBool_pred]
  · rw [hwv]
    exact answer_kept (RegsKept.refl (s.wv c) c.act [(o.c, 1)]) (fun _ _ _ => rfl) hp List.mem_cons_self

include hd

theorem dqsteal_waits (hv : (s.ssrc c o.a).toNat < 1280) (hpart : s.sys.partOf (dieOf (s.ssrc c o.a).toNat) = s.run.partOf c.wid) :
    Completes (exec (.dqsteal h o) s) (fun t => TaskFrame s t c ∧ RegsKept (s.wv c) (t.wv c) c.act [] ∧
      (t.wv c).parts = (s.wv c).parts.map (fun q =>
        if (q.mask &&& c.m) ≠ 0 then { q with park := .steal (s.ssrc c o.a).toNat d p c.act } else q)) := by
  refine (issue_parks_turns (k := { uses := [⟨0, o.d, 1, true, false, none⟩, ⟨1, o.a, 1, false, h.fea, none⟩], closer := true }) hI rfl
    (.inl rfl) rfl (fun _ => Park.noConfusion) (eff := dqstealEff o) ?_ (turns_self hI.1)).imp
    fun t ⟨hsys, hrun, hothers, _, hk, hparts, _⟩ => ⟨⟨hsys, hrun, hothers⟩, hk, hparts⟩
  rw [dqstealEff, if_neg (by rintro (h | h); exacts [absurd hv (Nat.not_lt.mpr h), h hpart]), hd, hp]
  rfl

end
end

/-! ## The answer to a steal -/

/-- A wave whose steal has been answered. -/
def Wave.stolen (w : Wave) (q : Part) (p : BitVec 4) (act : Lanes) (z : Bool) : Wave :=
  (w.setP p.toNat act (fun _ => z)).complete (w.groupOf q) true

theorem Wave.stolen_parts (w : Wave) (q : Part) (p : BitVec 4) (act : Lanes) (z : Bool) : (w.stolen q p act z).parts =
    w.parts.map (fun x => if (x.mask &&& w.groupOf q) ≠ 0 then { x with pc := x.pc + 12, rpc := x.pc + 12, park := .run } else x) := by
  simp only [Wave.stolen, Wave.complete, if_true, Wave.regionEntry_parts, Wave.advance_parts, Wave.onParts_parts, Wave.setP_parts,
    List.map_map]
  refine List.map_congr_left fun x _ => ?_
  by_cases hx : (x.mask &&& w.groupOf q) ≠ 0
  · simp only [Function.comp_apply, if_pos hx]
  · simp only [Function.comp_apply, if_neg hx]

theorem Wave.stolen_p (w : Wave) (q : Part) (p : BitVec 4) (act : Lanes) (z : Bool) :
    (w.stolen q p act z).p = (w.setP p.toNat act (fun _ => z)).p := rfl

theorem Wave.stolen_s (w : Wave) (q : Part) (p : BitVec 4) (act : Lanes) (z : Bool) : (w.stolen q p act z).s = w.s :=
  Wave.setP_s w p.toNat act _

section
variable {s : State} {core launch thief : Nat} {w : Wave} {q : Part} {d : BitVec 7} {p : BitVec 4} {act : Lanes}
  (hw : s.run.waves.get? thief = some w) (hl : w.life = .live) (hs : w.inSteal core = some (q, d, p, act))
include hw hl hs

theorem steal_takes {up down : List (Nat × Word64)} {x : Word64} (hq : (s.run.core core).deque = up ++ (launch, x) :: down)
    (hup : ∀ e ∈ up, e.1 ≠ launch) : exec (.dequeStealRequest core launch thief) s =
      .next { s with run := (s.run.setDeque core (up ++ down)).onWave thief fun w => (w.setS d.toNat x).stolen q p act true } := by
  have hww : s.run.wave thief = w := Run.get_wave hw
  change Host.Outcome.next { s with run := stealAnswer s.run core launch thief } = _
  simp only [stealAnswer, hww, hl, hs, hq, if_true, takeFirst_some hup]
  rfl

theorem steal_none (hq : ∀ e ∈ (s.run.core core).deque, e.1 ≠ launch) : exec (.dequeStealRequest core launch thief) s =
    .next { s with run := s.run.onWave thief fun w => w.stolen q p act false } := by
  have hww : s.run.wave thief = w := Run.get_wave hw
  change Host.Outcome.next { s with run := stealAnswer s.run core launch thief } = _
  simp only [stealAnswer, hww, hl, hs, if_true, takeFirst_none hq]
  rfl

end

/-- Settles O46: each instruction by what the deque holds, the answer to a steal by the first entry of the launch. -/
theorem deque : Obligations.Deque := by
  refine ⟨fun s h o c => ⟨fun d hI hd hq => ⟨dqpush_full hI hd hq, dqpush_joins hI hd hq⟩, fun d p hI hd hp => ⟨?_, ?_⟩,
    fun d p hI hd hp => ⟨dqsteal_refused hI hp, dqsteal_waits hI hd hp⟩⟩, fun s core launch thief w q d p act hw hl hs => ⟨?_, ?_⟩⟩
  · exact fun up down x hq hdown => dqpop_takes hI hd hp hq hdown
  · exact fun hq => dqpop_empty hI hp hq
  · intro up down x hq hup
    have hwave : ((s.run.setDeque core (up ++ down)).onWave thief
        fun w => (w.setS d.toNat x).stolen q p act true).wave thief = (w.setS d.toNat x).stolen q p act true := by
      have hw' : (s.run.setDeque core (up ++ down)).waves.get? thief = some w := hw
      simp [Run.wave, hw']
    refine ⟨_, steal_takes hw hl hs hq hup, rfl, ?_, fun h15 l hl' ha => ?_, ?_, ?_⟩ <;> simp only [hwave]
    · exact Wave.stolen_parts _ _ _ _ _
    · exact getLsbD_pReg_answer (Wave.stolen_p _ _ _ _ _) h15 hl' ha
    · rw [Wave.sReg, Wave.stolen_s]
      exact (Wave.sReg_setS _ _ _ _).trans (if_pos rfl)
    · exact s.run.deque_setDeque core _
  · intro hq
    have hwave : (s.run.onWave thief fun w => w.stolen q p act false).wave thief = w.stolen q p act false := by simp [Run.wave, hw]
    refine ⟨_, steal_none hw hl hs hq, rfl, ?_, fun h15 l hl' ha => ?_, rfl⟩ <;> simp only [hwave]
    · exact Wave.stolen_parts _ _ _ _ _
    · exact getLsbD_pReg_answer (Wave.stolen_p _ _ _ _ _) h15 hl' ha

end Sys2Proof.Machine
end

section
/-! BALBURN, BALSHUNT, PWRWAIT and PAIR (R444 to R447). -/

namespace Sys2Proof.Machine

/-! ## Waits of whole waves -/

/-- An effect that waits for another step to end it, of a switch point that may want its wave whole: the wave parks, and the issue is
charged. -/
theorem issue_waits_of_whole {s : State} {h : Hd} {c : Iss} {k : How} {eff : Sys → Run → Iss → Eff Unit} {r : Run} {p : Park}
    (hI : Issues s h c k.uses) (hp : k.priv = false) (hw : Whole s c) (hs : k.switch = true) (hq : ∀ q, p ≠ .retry q)
    (he : eff s.sys s.run c = .park r p) :
    issue s h k eff = .next { s with run := ((r.onWave c.wid (fun w => w.park c.m p)).charge c h k).switchPoint c.wid true } := by
  obtain ⟨hc, ha, hu⟩ := hI
  have hwh : (s.run.wave c.wid).reconverged = true := hw
  simp only [issue, hc, issueOn, hp, hwh, hs, Bool.false_and, Bool.not_true, Bool.and_false, Bool.false_eq_true, if_false, if_true, ha, hu, he]
  cases p with
  | retry q => exact absurd rfl (hq q)
  | _ => rfl

theorem Run.Turns.mem {r t : Run} {wid : Nat} {u : Wave} (ht : r.Turns t wid u) : t.mem = r.mem := by
  have e := congrArg Run.mem ht.frame
  exact e

/-- The run with other pairs. -/
def Run.setPairs (r : Run) (ps : Tbl Pair) : Run := { r with pairs := ps }

theorem Run.onPair_eq (r : Run) (p : Nat) (f : Pair → Pair) : r.onPair p f = r.setPairs (r.onPair p f).pairs := rfl

theorem regsKept_markEmpty (w : Wave) (rs : List RegRef) (m : Lanes) (ds : List (Opd × Nat)) : RegsKept w (w.markEmpty rs) m ds := by
  obtain ⟨ve, se, e⟩ := w.markEmpty_eq rs
  rw [e]
  exact RegsKept.refl w m ds

theorem min_max_eq_clamp (n lo hi : Nat) (h : lo ≤ hi) : min hi (max lo n) = if n < lo then lo else if hi < n then hi else n := by
  split
  · omega
  · split <;> omega

/-! ## BALBURN -/

section
variable {s : State} {h : Hd} {o : Ops} {c : Iss} (hI : Issues s h c (usesOf h o))
include hI

theorem balburn_traps (hl : s.run.rdCount c o.b = 0 ∨ 6 < s.run.rdCount c o.b) :
    Traps s (.balburn h o) c (countTrap c.act (s.run.rdCount c o.b)) :=
  issue_trap (eff := balburnEff o) hI (.inl rfl) (.inl rfl) (if_pos hl)

theorem balburn_moves (hl : 0 < s.run.rdCount c o.b) (h6 : s.run.rdCount c o.b ≤ 6) (hn : s.run.rdCount c o.a = 0) :
    Does s (.balburn h o) c h { uses := usesOf h o } s.run :=
  have hlevel : ¬(s.run.rdCount c o.b = 0 ∨ 6 < s.run.rdCount c o.b) := by omega
  issue_ok (eff := balburnEff o) hI (.inl rfl) (.inl rfl) ((if_neg hlevel).trans (if_pos hn))

theorem balburn_burns (hl : 0 < s.run.rdCount c o.b) (h6 : s.run.rdCount c o.b ≤ 6) (hn : 0 < s.run.rdCount c o.a) :
    Completes (exec (.balburn h o) s) (fun t => t.run.mem = s.run.mem ∧ RegsKept (s.wv c) (t.wv c) c.act [] ∧
      (t.run.core (coreOf c.wid)).burns = (s.run.core (coreOf c.wid)).burns ++ [(s.run.clk, s.run.clk + s.run.rdCount c o.a, s.run.rdCount c o.b)] ∧
      (t.wv c).parts = (s.wv c).parts.map (fun p =>
        if (p.mask &&& c.m) ≠ 0 then { p with park := .burn (s.run.clk + s.run.rdCount c o.a) (s.run.rdCount c o.b) } else p)) := by
  have hlevel : ¬(s.run.rdCount c o.b = 0 ∨ 6 < s.run.rdCount c o.b) := by omega
  refine (issue_parks_turns (eff := balburnEff o) (k := { uses := usesOf h o }) hI rfl (.inl rfl) rfl (fun _ => Park.noConfusion)
    ((if_neg hlevel).trans (if_neg (Nat.ne_of_gt hn))) ((turns_self hI.1).onCore _ _)).imp ?_
  intro t ⟨_, hf, _, _, hr, hp, hc⟩
  have hm := congrArg Run.mem hf
  refine ⟨hm, hr, ?_, hp⟩
  rw [(hc _).read Core.burns (fun _ _ _ _ _ => rfl), Run.core_onCore, if_pos rfl]
  rfl

/-! ## BALSHUNT -/

/-- What BALSHUNT leaves that puts `ps` for the pairs and `x` in D. -/
theorem balshunt_puts {d : BitVec 7} {ps : Tbl Pair} {x : Word64} (hd : o.d = .s d)
    (he : balshuntEff o s.sys s.run c = .ok ((s.run.setPairs ps).onWave c.wid (fun w => w.setS d.toNat x)) ()) :
    Completes (exec (.balshunt h o) s) (fun t => RegsKept (s.wv c) (t.wv c) c.act [(o.d, 1)] ∧ RestKept (s.wv c) (t.wv c) ∧
      MovedOn s t c ∧ (∀ k, k ≠ c.wid → t.run.wave k = s.run.wave k) ∧ t.sys = s.sys ∧
      { t.run with waves := s.run.waves, cores := s.run.cores, pairs := s.run.pairs } = s.run ∧
      t.run.pairs = ps ∧ (t.wv c).sReg d.toNat = x) := by
  obtain ⟨w, hw, -, hww⟩ := Run.issuer_wave _ _ _ hI.1
  have h0 := (Run.Turns.self (r := s.run.setPairs ps) hw).onWave (fun w => w.setS d.toNat x)
  have ht := h0.retire h { uses := usesOf h o }
  have hk : RestKept w (w.setS d.toNat x) := rfl
  have hwv : s.wv c = w := hww
  refine ⟨_, issue_ok' (eff := balshuntEff o) hI (.inl rfl) (.inl rfl) rfl he, ?_, ?_, ?_, ht.others, rfl, ?_, ?_, ?_⟩
  · simp only [State.wv, ht.wave_eq, hww, hd]
    exact (regsKept_setS w d x c.act).retired
  · simp only [State.wv, ht.wave_eq, hww]
    exact hk.retired rfl
  · simp only [MovedOn, ht.wave_eq, hww]
    exact Wave.retired_parts _ _ _ _ _ rfl rfl
  · have e := congrArg (fun r : Run => { r with pairs := s.run.pairs }) ht.frame
    exact e
  · have e := congrArg Run.pairs ht.frame
    exact e
  · simp only [State.wv, ht.wave_eq]
    exact (Wave.retired_read (fun w => w.sReg d.toNat) (fun _ _ _ _ _ => rfl) ..).trans ((Wave.sReg_setS _ _ _ _).trans (if_pos rfl))

end

theorem balshunt_derated {s : State} {o : Ops} {c : Iss} {d : BitVec 7} (hd : o.d = .s d) (hq : (s.run.pair (pairOf (coreOf c.wid))).derated = true) :
    balshuntEff o s.sys s.run c = .ok ((s.run.setPairs s.run.pairs).onWave c.wid (fun w => w.setS d.toNat 0)) () := by
  unfold balshuntEff
  simp only [hd, hq, if_true]
  rfl

theorem balshunt_sets {s : State} {o : Ops} {c : Iss} {d : BitVec 7} (hd : o.d = .s d) (hq : (s.run.pair (pairOf (coreOf c.wid))).derated = false) :
    let core := coreOf c.wid
    let n := s.run.rdCount c o.a
    let v := if n < 700 then 700 else if 800 < n then 800 else n
    balshuntEff o s.sys s.run c = .ok ((s.run.setPairs (s.run.onPair (pairOf core)
      (fun p => { p with target := if core % 2 = 0 then v else 1500 - v })).pairs).onWave c.wid
        (fun w => w.setS d.toNat (BitVec.ofNat 64 v))) () := by
  intro core n v
  have hv : v = min 800 (max 700 n) := (min_max_eq_clamp n 700 800 (by omega)).symm
  rw [hv]
  unfold balshuntEff
  simp only [hd, hq, Bool.false_eq_true, if_false]
  rfl

/-! ## PWRWAIT and PAIR -/

theorem Wave.sReg_complete (w : Wave) (m : Lanes) (closer : Bool) (n : Nat) : (w.complete m closer).sReg n = w.sReg n := by
  cases closer <;> rfl

theorem Wave.sReg_pairEnd {w : Wave} {m : Lanes} {z : Word} {e : BitVec 7} (hw : w.inPair = some (m, z, e)) (v : Word64) :
    (w.pairEnd v).sReg e.toNat = v := by
  simp only [Wave.pairEnd, hw, Wave.sReg_complete, Wave.sReg_setS, if_true]



section
variable {s : State} {h : Hd} {o : Ops} {c : Iss} (hI : Issues s h c (usesOf h o)) {d : BitVec 7} (hd : o.d = .s d)
include hI hd

theorem pwrwait_returns (hw : Whole s c) (hb : (s.run.pairMis (coreOf c.wid)).natAbs < s.run.rdCount c o.a) :
    Does s (.pwrwait h o) c h { uses := usesOf h o, whole := some 1, switch := true } (s.run.onWave c.wid (fun w => w.setS d.toNat 1)) := by
  refine issue_ok (eff := pwrwaitEff o) hI (.inl rfl) (.inr hw) ?_
  unfold pwrwaitEff
  simp only [countArg, hd]
  exact if_pos hb

theorem pwrwait_parks (hw : Whole s c) (hb : s.run.rdCount c o.a ≤ (s.run.pairMis (coreOf c.wid)).natAbs) :
    let n := s.run.rdCount c o.a
    let l := s.run.rdCount c o.b
    Completes (exec (.pwrwait h o) s) (fun t => (t.wv c).parts = (s.wv c).parts.map (fun p =>
      if (p.mask &&& c.m) ≠ 0 then { p with park := .pwrwait n (if l = 0 then none else some (s.run.clk + l)) d } else p)) := by
  intro n l
  have he : pwrwaitEff o s.sys s.run c = .park s.run (.pwrwait n (if l = 0 then none else some (s.run.clk + l)) d) := by
    unfold pwrwaitEff
    simp only [countArg, hd]
    exact if_neg (Nat.not_lt.mpr hb)
  have ht := ((turns_self hI.1).onWave (fun w => w.park c.m (.pwrwait n (if l = 0 then none else some (s.run.clk + l)) d))).charge h
    { uses := usesOf h o, whole := some 1, switch := true }
  refine ⟨_, issue_waits_of_whole (eff := pwrwaitEff o) hI rfl hw rfl (fun _ => Park.noConfusion) he, ?_⟩
  simp only [State.wv, Run.wave, Run.switchPoint_waves, ht.wave, Option.getD_some, Wave.charged_parts]
  rfl

theorem pair_alone (hq : Quiet s c) (hp : s.run.partner c.wid = none) : Completes (exec (.pair h o) s) (fun t => DeviceKept s t c.wid ∧
    RegsKept (s.wv c) (t.wv c) c.act [(o.d, 1)] ∧ (t.wv c).sReg d.toNat = 0) := by
  have he : ordered true false (pairEff o) s.sys s.run c = .ok (s.run.onWave c.wid (fun w => w.setS d.toNat 0)) () := by
    rw [ordered_of_quiet hq]
    unfold pairEff
    simp only [hp, hd]
    rfl
  refine (issue_wave (k := { uses := usesOf h o, closer := true }) hI (.inl rfl) rfl rfl he).imp ?_
  intro t ⟨hdev, hu⟩
  refine ⟨hdev, ?_, ?_⟩
  · rw [hu, hd]
    exact (regsKept_setS _ d _ _).retired
  · rw [hu, Wave.retired_read (fun w => w.sReg d.toNat) (fun _ _ _ _ _ => rfl), Wave.sReg_setS, if_pos rfl]

theorem pair_exchanges (hq : Quiet s c) {p : Nat} {y : Wave} {m : Lanes} {z : Word} {e : BitVec 7} (hp : s.run.partner c.wid = some p)
    (hne : p ≠ c.wid) (hy : s.run.waves.get? p = some y) (hl : y.life = .live) (hin : y.inPair = some (m, z, e)) :
    let x : Word := (s.ssrc c o.a).setWidth 32
    Completes (exec (.pair h o) s) (fun t => t.run.mem = s.run.mem ∧ RegsKept (s.wv c) (t.wv c) c.act [(o.d, 1)] ∧
      (t.wv c).sReg d.toNat = pairWord z ∧ (t.run.wave p).sReg e.toNat = pairWord x ∧
      (∀ k, k ≠ c.wid → k ≠ p → t.run.wave k = s.run.wave k)) := by
  intro x
  have hyw : s.run.wave p = y := by rw [Run.wave, hy]; rfl
  let r0 := s.run.onWave p (fun w => w.pairEnd (pairWord x))
  have he : ordered true false (pairEff o) s.sys s.run c = .ok (r0.onWave c.wid (fun w => w.setS d.toNat (pairWord z))) () := by
    rw [ordered_of_quiet hq]
    unfold pairEff
    simp only [hp, hd, hyw, hl, hin, if_true]
    rfl
  obtain ⟨w, hw, -, hww⟩ := Run.issuer_wave _ _ _ hI.1
  have hw0 : r0.waves.get? c.wid = some w := by rw [Run.get_onWave, if_neg (Ne.symm hne), hw]
  have ht := ((Run.Turns.self hw0).onWave (fun w => w.setS d.toNat (pairWord z))).retire h { uses := usesOf h o, closer := true }
  have hwv : s.wv c = w := hww
  refine ⟨_, issue_ok' (k := { uses := usesOf h o, closer := true }) hI (.inl rfl) (.inl rfl) rfl he, ht.mem, ?_, ?_, ?_, ?_⟩
  · simp only [State.wv, ht.wave_eq, hww, hd]
    exact (regsKept_setS w d _ c.act).retired
  · simp only [State.wv, ht.wave_eq]
    exact (Wave.retired_read (fun w => w.sReg d.toNat) (fun _ _ _ _ _ => rfl) ..).trans ((Wave.sReg_setS _ _ _ _).trans (if_pos rfl))
  · rw [ht.others p hne, Run.wave_onWave _ _ _ _ hy, hyw]
    exact Wave.sReg_pairEnd hin _
  · intro k hk hkp
    exact (ht.others k hk).trans (Run.wave_onWave_of_ne _ _ _ _ hkp)

theorem pair_waits (hq : Quiet s c) {p : Nat} (hp : s.run.partner c.wid = some p) (hin : (s.run.wave p).inPair = none) :
    let x : Word := (s.ssrc c o.a).setWidth 32
    Completes (exec (.pair h o) s) (fun t => RegsKept (s.wv c) (t.wv c) c.act [(o.d, 1)] ∧
      (t.wv c).isEmpty ⟨false, d.toNat, 0xFFFFFFFF⟩ = true ∧
      (t.wv c).parts = (s.wv c).parts.map (fun p => if (p.mask &&& c.m) ≠ 0 then { p with park := .pair x d } else p)) := by
  intro x
  let refs : List RegRef := [⟨false, d.toNat, 0xFFFFFFFF#32⟩]
  have he : ordered true false (pairEff o) s.sys s.run c = .park (s.run.onWave c.wid (fun w => w.markEmpty refs)) (.pair x d) := by
    rw [ordered_of_quiet hq]
    unfold pairEff
    simp only [hp, hd, hin, ite_self]
    rfl
  have ht := (((turns_self hI.1).onWave (fun w => w.markEmpty refs)).onWave (fun w => w.park c.m (.pair x d))).charge h
    { uses := usesOf h o, closer := true }
  have hpk : RegsKept (s.wv c) (((s.wv c).markEmpty refs).park c.m (.pair x d)) c.act [(o.d, 1)] := regsKept_markEmpty _ refs _ _
  refine ⟨_, issue_parks (k := { uses := usesOf h o, closer := true }) hI rfl (.inl rfl) rfl (fun _ => Park.noConfusion) he, ?_, ?_, ?_⟩
  · simp only [State.wv, ht.wave_eq]
    exact regsKept_charged _ _ _ hpk
  · simp only [State.wv, ht.wave_eq]
    exact (Wave.charged_read (fun w => w.isEmpty ⟨false, d.toNat, 0xFFFFFFFF⟩) (fun _ _ _ => rfl) ..).trans
      (Wave.isEmpty_markEmpty (s.wv c) (rs := refs) (List.mem_singleton.mpr rfl) (fun hv => absurd hv Bool.false_ne_true) (fun _ => d.isLt))
  · simp only [State.wv, ht.wave_eq, Wave.charged_parts]
    rfl

end

end Sys2Proof.Machine
end

section
/-! The steps of a stack pair, settled with its instructions (R431 to R449). -/

namespace Sys2Proof.Machine

/-! ## The estimate -/

theorem Core.burnAt_of_none {k : Core} (hb : k.burns = []) (ha : k.autoLevel = 0) (t : Nat) : k.burnAt t = 0 := by
  simp [Core.burnAt, hb, ha]

theorem Core.estimate_of_none {k : Core} (hb : k.burns = []) (ha : k.autoLevel = 0) (t0 : Nat) : k.estimate t0 = k.base := by
  have hz : (List.range 256).foldl (fun n i => n + k.burnAt (t0 + i)) 0 = 0 := by
    simp only [Core.burnAt_of_none hb ha, Nat.add_zero]
    exact List.foldl_fixed' (fun _ => rfl) _
  simp [Core.estimate, hz]

/-! ## What a window's end does to a core, a pair and a wave -/

theorem getLsbD_bit_of_in (x : Word64) (i : Nat) (b : Bool) (hi : i < 64) :
    (setBits x i 1 (if b then 1 else 0)).getLsbD i = b := by
  rw [getLsbD_setBits_of_in _ _ _ _ _ hi le_rfl (Nat.lt_succ_self i), Nat.sub_self]
  cases b <;> rfl

theorem getLsbD_bit_of_ne (x : Word64) {i j : Nat} (v : Nat) (h : j ≠ i) : (setBits x i 1 v).getLsbD j = x.getLsbD j :=
  getLsbD_setBits_of_out _ _ _ _ _ (by omega)

/-- %BALCTL's bits THROT, THROTTLED and CLAMP behind a window's end. -/
theorem Core.act_balctl (k : Core) (hv : Bool) (m th tx lv t1 e : Nat) :
    let z := (k.act hv m th tx lv t1 e).balctl
    (z.getLsbD 8 = true ↔ hv = true ∧ (th < m ∨ 1000 ≤ m)) ∧ (z.getLsbD 10 = true ↔ hv = true ∧ 1000 ≤ m) ∧
    (z.getLsbD 9 = true ↔ k.balctl.getLsbD 9 = true ∨ z.getLsbD 8 = true) := by
  intro z
  let clamp : Bool := hv && decide (1000 ≤ m)
  let throt : Bool := hv && decide (th < m)
  let b := setBits (setBits k.balctl 8 1 (if throt || clamp then 1 else 0)) 10 1 (if clamp then 1 else 0)
  have hz : z = if throt || clamp then setBits b 9 1 1 else b := rfl
  have hout (j : Nat) (hj : j ≠ 9) : z.getLsbD j = b.getLsbD j := by
    rw [hz]
    split
    · exact getLsbD_bit_of_ne _ _ hj
    · rfl
  have h8 : z.getLsbD 8 = (throt || clamp) := by
    rw [hout 8 (by omega), getLsbD_bit_of_ne _ _ (by omega), getLsbD_bit_of_in _ _ _ (by omega)]
  have h10 : z.getLsbD 10 = clamp := by rw [hout 10 (by omega), getLsbD_bit_of_in _ _ _ (by omega)]
  have h9 : z.getLsbD 9 = (k.balctl.getLsbD 9 || (throt || clamp)) := by
    rw [hz]
    cases hb : throt || clamp with
    | true => rw [if_pos rfl, Bool.or_true]; exact getLsbD_bit_of_in b 9 true (by omega)
    | false =>
      rw [if_neg Bool.false_ne_true, Bool.or_false, getLsbD_bit_of_ne _ _ (by omega), getLsbD_bit_of_ne _ _ (by omega)]
  refine ⟨?_, ?_, ?_⟩
  · rw [h8, ← Bool.and_or_distrib_left, Bool.and_eq_true, Bool.or_eq_true, decide_eq_true_iff, decide_eq_true_iff]
  · rw [h10, Bool.and_eq_true, decide_eq_true_iff]
  · rw [h9, h8, Bool.or_eq_true]

theorem Core.act_pwrCond (k : Core) (hv : Bool) (m th tx lv t1 e : Nat) :
    (k.act hv m th tx lv t1 e).pwrCond = true ↔ hv = true ∧ (tx < m ∨ 1000 ≤ m) := by
  simp [Core.act]

/-- The midpoint goes towards its target by two millivolts at most (R431). -/
theorem Pair.window_vmid (q : Pair) (n win : Nat) (mis : Int) :
    let v := (q.window n win mis).vmid
    (q.vmid ≤ q.target → q.vmid ≤ v ∧ v ≤ q.target ∧ v ≤ q.vmid + 2) ∧
    (q.target ≤ q.vmid → q.target ≤ v ∧ v ≤ q.vmid ∧ q.vmid ≤ v + 2) := by
  have hd : Config.slew n win % 3 < 3 := Nat.mod_lt _ (by omega)
  simp only [Pair.window]
  generalize Config.slew n win % 3 = d at hd
  split <;> constructor <;> intro h <;> omega

theorem Pair.window_suspect (q : Pair) (n win : Nat) (mis : Int) :
    (q.window n win mis).suspect = 0 ∨ (q.window n win mis).suspect = q.suspect + 1 := by
  simp only [Pair.window]
  split
  · exact .inr rfl
  · exact .inl rfl

theorem Wave.pwrWindow_taken (w : Wave) (k : Core) (m tx : Nat) :
    (w.pwrWindow k (decide (m ≤ tx))).pwrTaken = true ↔ w.pwrTaken = true ∧ tx < m := by
  simp [Wave.pwrWindow]

theorem Wave.pwrWindow_owed (w : Wave) (k : Core) (b : Bool) : (w.pwrWindow k b).pwrOwed = true ↔
    w.pwrOwed = true ∨ k.balctl.getLsbD 10 = true ∧ k.pwrCond = true ∧ w.pwrTaken = false ∧ ∃ p ∈ w.parts, p.park = .run := by
  simp [Wave.pwrWindow, Core.clamped, and_assoc]

/-! ## The waits that a window's end looks at -/

/-- What a window's end leaves of a run whose waits it looks at: the waves change by what a return of PWRWAIT writes alone. -/
structure WaitsReturned (r t : Run) : Prop where
  frame : ({ t with waves := r.waves } : Run) = r
  taken : ∀ n, (t.wave n).pwrTaken = (r.wave n).pwrTaken
  owed : ∀ n, (t.wave n).pwrOwed = (r.wave n).pwrOwed

theorem WaitsReturned.refl (r : Run) : WaitsReturned r r := ⟨rfl, fun _ => rfl, fun _ => rfl⟩

theorem WaitsReturned.trans {r t z : Run} (h : WaitsReturned r t) (g : WaitsReturned t z) : WaitsReturned r z where
  frame := by
    have e := congrArg (fun x : Run => { x with waves := r.waves }) g.frame
    exact e.trans h.frame
  taken n := (g.taken n).trans (h.taken n)
  owed n := (g.owed n).trans (h.owed n)

theorem Wave.finishParks_pwr (w : Wave) (f : Park → Bool) (closer : Bool) :
    (w.finishParks f closer).pwrTaken = w.pwrTaken ∧ (w.finishParks f closer).pwrOwed = w.pwrOwed := by
  unfold Wave.finishParks
  dsimp only
  split
  · exact ⟨rfl, rfl⟩
  · cases closer <;> exact ⟨rfl, rfl⟩

/-- A reading of a wave that an update keeps is the same of every wave behind it. -/
theorem Run.wave_onWave_read {α : Type} (g : Wave → α) {r : Run} {n : Nat} {f : Wave → Wave} (hf : ∀ w, g (f w) = g w) (k : Nat) :
    g ((r.onWave n f).wave k) = g (r.wave k) := by
  simp only [Run.wave, Run.get_onWave]
  split
  · next hk =>
    subst hk
    cases r.waves.get? k with
    | none => rfl
    | some w => exact hf w
  · rfl

theorem pwrwaitCheck_returned (b : Bool) (r : Run) (wid : Nat) : WaitsReturned r (pwrwaitCheck b r wid) := by
  unfold pwrwaitCheck
  split
  · exact .refl r
  · split
    · exact .refl r
    · exact ⟨rfl, Run.wave_onWave_read Wave.pwrTaken (fun w => (Wave.finishParks_pwr _ _ _).1),
        Run.wave_onWave_read Wave.pwrOwed (fun w => (Wave.finishParks_pwr _ _ _).2)⟩

theorem pwrwaitChecks_returned (b : Bool) (ns : List Nat) (r : Run) : WaitsReturned r (ns.foldl (pwrwaitCheck b) r) := by
  induction ns generalizing r with
  | nil => exact .refl r
  | cons n ns ih => exact (pwrwaitCheck_returned b r n).trans (ih _)

/-! ## The end of a window -/

section
variable (r : Run) (p : Nat)

/-- The run in which the engines of both cores of a pair have come to the end of a window. -/
def Run.ranTo (t1 : Nat) : Run :=
  (r.onCore (pairLo p) (fun k => k.runTo (r.die (dieOf (pairLo p))).issueDuty t1)).onCore (pairHi p)
    (fun k => k.runTo (r.die (dieOf (pairHi p))).issueDuty t1)

theorem pairLo_ne_pairHi : pairLo p ≠ pairHi p := by unfold pairHi; omega

theorem Run.core_ranTo {n : Nat} (hn : n = pairLo p ∨ n = pairHi p) (t1 : Nat) :
    (r.ranTo p t1).core n = (r.core n).runTo (r.die (dieOf n)).issueDuty t1 := by
  have hne := pairLo_ne_pairHi p
  unfold Run.ranTo
  rcases hn with rfl | rfl
  · rw [Run.core_onCore, if_neg hne, Run.core_onCore, if_pos rfl]
  · rw [Run.core_onCore, if_pos rfl, Run.core_onCore, if_neg hne.symm]

/-- The mismatch at a window's end (R434). -/
def Run.windowMis : Int :=
  let t1 := r.clk / 256 * 256
  (((r.ranTo p t1).core (pairLo p)).estimate (t1 - 256) : Int) - ((r.ranTo p t1).core (pairHi p)).estimate (t1 - 256)

/-- The wave a window's end makes of one, before PWRWAIT is looked at. -/
def Run.windowWave (n : Nat) (w : Wave) : Wave :=
  if coreOf n = pairLo p || coreOf n = pairHi p then
    w.pwrWindow ((r.ranTo p (r.clk / 256 * 256)).core (coreOf n)) ((r.windowMis p).natAbs ≤ (r.pair p).tx) else w

/-- One of the pair's cores at a window's end: what R436 does to it, whose estimate is `e` and whose mate's is `f`. -/
def Run.windowCore (heavier : Bool) (n e f : Nat) (k : Core) : Core :=
  let t1 := r.clk / 256 * 256
  k.act heavier (r.windowMis p).natAbs (r.pair p).th (r.pair p).tx
    ((r.ranTo p t1).burnLevel n f ((r.ranTo p t1).core n).base) t1 e

/-- The run with both cores of a pair as a window's end leaves them. -/
def Run.windowedCores : Run :=
  let t1 := r.clk / 256 * 256
  let a := ((r.ranTo p t1).core (pairLo p)).estimate (t1 - 256)
  let b := ((r.ranTo p t1).core (pairHi p)).estimate (t1 - 256)
  ((r.ranTo p t1).onCore (pairLo p) (r.windowCore p (0 < r.windowMis p) (pairLo p) a b)).onCore (pairHi p)
    (r.windowCore p (r.windowMis p < 0) (pairHi p) b a)

/-- The run with the pair as a window's end leaves it too. -/
def Run.windowedPair : Run := (r.windowedCores p).onPair p (fun q => q.window p (r.clk / 256) (r.windowMis p))

/-- The run at a window's end before PWRWAIT is looked at. -/
def Run.windowed : Run := { r.windowedPair p with waves := (r.windowedPair p).waves.mapAll (r.windowWave p) }

theorem windowEnd_eq : windowEnd r p = (((r.windowed p).waves.map (·.1)).filter
    (fun n => coreOf n = pairLo p || coreOf n = pairHi p)).foldl (pwrwaitCheck true) (r.windowed p) := rfl

theorem windowEnd_returned : WaitsReturned (r.windowed p) (windowEnd r p) := windowEnd_eq r p ▸ pwrwaitChecks_returned true _ _

theorem windowEnd_read {α : Type} (g : Run → α) (hg : ∀ (x : Run) ws, g { x with waves := ws } = g x) :
    g (windowEnd r p) = g (r.windowed p) := by
  have e := congrArg g (windowEnd_returned r p).frame
  rw [hg] at e
  exact e

theorem Run.windowed_pair : (r.windowed p).pair p = (r.pair p).window p (r.clk / 256) (r.windowMis p) := by
  have e : (r.windowed p).pair p = (r.windowedPair p).pair p := rfl
  rw [e, Run.windowedPair, Run.pair_onPair, if_pos rfl]
  rfl

/-- The core that a window's end leaves of one of the pair. -/
theorem Run.windowed_core {n : Nat} (hn : n = pairLo p ∨ n = pairHi p) :
    ∃ e f, (r.windowed p).core n = r.windowCore p (if n = pairLo p then 0 < r.windowMis p else r.windowMis p < 0) n e f
      ((r.ranTo p (r.clk / 256 * 256)).core n) := by
  have hne := pairLo_ne_pairHi p
  have e : (r.windowed p).core n = (r.windowedCores p).core n := rfl
  rw [e, Run.windowedCores]
  rcases hn with rfl | rfl
  · simp only [Run.core_onCore, if_neg hne, if_true]
    exact ⟨_, _, rfl⟩
  · simp only [Run.core_onCore, if_neg hne.symm, if_true]
    exact ⟨_, _, rfl⟩

theorem Run.windowed_wave {n : Nat} {w : Wave} (hw : r.waves.get? n = some w) (hn : coreOf n = pairLo p ∨ coreOf n = pairHi p) :
    (r.windowed p).wave n = w.pwrWindow ((r.ranTo p (r.clk / 256 * 256)).core (coreOf n))
      (decide ((r.windowMis p).natAbs ≤ (r.pair p).tx)) := by
  have hm : (r.windowed p).waves.get? n = some (r.windowWave p n w) := (get?_mapAll _ _ _).trans (congrArg _ hw)
  have hc : (decide (coreOf n = pairLo p) || decide (coreOf n = pairHi p)) = true := by simpa using hn
  rw [Run.wave, hm, Option.getD_some, Run.windowWave, if_pos hc]

end

/-! ## Derating -/

theorem mapOutPair_read {α : Type} (g : Run → α)
    (hg : ∀ (x : Run) (ps : List Nat) bb nx out, g { x with outPairs := ps, bb := bb, bbNext := nx, out := out } = g x) (r : Run) (p : Nat) :
    g (mapOutPair r p) = g r := by
  unfold mapOutPair
  split
  · exact hg r _ _ _ _
  · rfl

/-! ## The ends of a burn and of a wait -/

/-- The wave behind the end of its burn. -/
theorem burnEnd_completes {s : State} {wid lane : Nat} {w : Wave} (hw : s.run.waves.get? wid = some w) {p : Part} {dl l : Nat}
    (hp : w.partAt (laneBit lane) = some p) (hb : p.park = .burn dl l) (hdl : dl ≤ s.run.clk) :
    Completes (exec (.burnEnd wid lane) s) (fun t => { t.run with waves := s.run.waves } = s.run ∧
      t.run.wave wid = w.advance (w.groupOf p)) := by
  have hww : s.run.wave wid = w := Run.get_wave hw
  have he : exec (.burnEnd wid lane) s = .next { s with run := s.run.onWave wid (fun x => x.advance (x.groupOf p)) } := by
    show execBurnEnd wid lane s = _
    simp only [execBurnEnd, event, hww, hp, hb, hdl, if_true]
  refine ⟨_, he, rfl, ?_⟩
  rw [Run.wave_onWave _ _ _ _ hw, hww]

/-- The lanes of the parts whose wait `f` names. -/
def Wave.parkLanes (w : Wave) (f : Park → Bool) : Lanes := w.parts.foldl (fun m (p : Part) => if f p.park then m ||| p.mask else m) 0

theorem Wave.and_parkLanes {w : Wave} {f : Park → Bool} {p : Part} (hp : p ∈ w.parts) (hf : f p.park = true) :
    p.mask &&& w.parkLanes f = p.mask := by
  have hfold : w.parkLanes f = w.parts.foldl (fun m (p : Part) => m ||| (if f p.park then p.mask else 0)) 0 := by
    unfold Wave.parkLanes
    congr 1
    funext m q
    split
    · rfl
    · exact BitVec.or_zero.symm
  refine BitVec.eq_of_getLsbD_eq fun l _ => ?_
  rw [BitVec.getLsbD_and]
  cases hl : p.mask.getLsbD l with
  | false => rfl
  | true =>
    rw [Bool.true_and, hfold, getLsbD_foldl_or]
    exact .inr ⟨p, hp, by rw [if_pos hf, hl]⟩

theorem Wave.finishParks_eq (w : Wave) (f : Park → Bool) (closer : Bool) :
    w.finishParks f closer = if w.parkLanes f = 0 then w else w.complete (w.parkLanes f) closer := rfl

/-- Where every part has lanes, no part is left waiting as `f` names it. -/
theorem Wave.finishParks_none {w : Wave} {f : Park → Bool} (hm : ∀ p ∈ w.parts, p.mask ≠ 0) (hrun : f .run = false) :
    ∀ p ∈ (w.finishParks f false).parts, f p.park = false := by
  intro q hq
  rw [Wave.finishParks_eq] at hq
  split at hq
  · next h0 =>
    by_contra hf
    have he := Wave.and_parkLanes hq (Bool.eq_true_of_not_eq_false hf)
    rw [h0] at he
    exact hm q hq (he.symm.trans BitVec.and_zero)
  · rw [Wave.complete_parts] at hq
    obtain ⟨p, hp, rfl⟩ := List.mem_map.mp hq
    by_cases hpm : (p.mask &&& w.parkLanes f) ≠ 0
    · rw [if_pos hpm]
      exact hrun
    · rw [if_neg hpm]
      by_contra hf
      rw [Wave.and_parkLanes hp (Bool.eq_true_of_not_eq_false hf)] at hpm
      exact hpm (hm p hp)

def Park.inPwrwait (k : Park) : Bool := match k with | .pwrwait _ _ _ => true | _ => false

theorem Wave.sReg_finishParks (w : Wave) (f : Park → Bool) (closer : Bool) (n : Nat) : (w.finishParks f closer).sReg n = w.sReg n := by
  rw [Wave.finishParks_eq]
  split
  · rfl
  · exact Wave.sReg_complete _ _ _ _

theorem pwrwaitCheck_of_status {b : Bool} {r : Run} {wid bound st : Nat} {dl : Option Nat} {d : BitVec 7}
    (hin : (if (r.wave wid).life = .live then (r.wave wid).inPwrwait else none) = some (bound, dl, d))
    (hst : r.pwrStatus wid b bound dl = st) (h0 : st ≠ 0) :
    pwrwaitCheck b r wid = r.onWave wid (fun w => (w.setS d.toNat (BitVec.ofNat 64 st)).finishParks Park.inPwrwait false) := by
  obtain ⟨n, rfl⟩ := Nat.exists_eq_succ_of_ne_zero h0
  unfold pwrwaitCheck
  simp only [hin, hst]
  rfl

/-- A bounded wait ends with its time, or with an event for the wave (R446). -/
theorem pwrwaitTimeout_completes {s : State} {wid : Nat} {w : Wave} (hw : s.run.waves.get? wid = some w) {bound : Nat} {dl : Option Nat}
    {d : BitVec 7} (hl : w.life = .live) (hin : w.inPwrwait = some (bound, dl, d)) (hm : ∀ p ∈ w.parts, p.mask ≠ 0)
    (hend : (∃ n, dl = some n ∧ n ≤ s.run.clk) ∨ s.run.eventFor wid = true) :
    Completes (exec (.pwrwaitTimeout wid) s) (fun t => { t.run with waves := s.run.waves } = s.run ∧
      (t.run.wave wid).sReg d.toNat = (if ∃ n, dl = some n ∧ n ≤ s.run.clk then 2 else 3) ∧
      ∀ p ∈ (t.run.wave wid).parts, ∀ b dl' d', p.park ≠ .pwrwait b dl' d') := by
  have hww : s.run.wave wid = w := Run.get_wave hw
  let st : Nat := if ∃ n, dl = some n ∧ n ≤ s.run.clk then 2 else 3
  have hany : dl.any (fun t => decide (t ≤ s.run.clk)) = true ↔ ∃ n, dl = some n ∧ n ≤ s.run.clk := by
    cases dl <;> simp
  have hst : s.run.pwrStatus wid false bound dl = st := by
    unfold Run.pwrStatus
    simp only [Bool.false_and, Bool.false_eq_true, if_false, hany, st]
    split
    · rfl
    · next hn => rw [if_pos (hend.resolve_left hn)]
  let f : Wave → Wave := fun w => (w.setS d.toNat (BitVec.ofNat 64 st)).finishParks Park.inPwrwait false
  have he : exec (.pwrwaitTimeout wid) s = .next { s with run := s.run.onWave wid f } := by
    have hcheck : pwrwaitCheck false s.run wid = s.run.onWave wid f := by
      refine pwrwaitCheck_of_status (by rw [hww, if_pos hl, hin]) hst ?_
      simp only [st]
      split <;> omega
    exact congrArg (fun r => Host.Outcome.next { s with run := r }) hcheck
  refine ⟨_, he, rfl, ?_, ?_⟩
  · rw [Run.wave_onWave _ _ _ _ hw, Wave.sReg_finishParks, Wave.sReg_setS, if_pos rfl]
    simp only [st]
    split <;> rfl
  · intro p hp b dl' d' hpk
    rw [Run.wave_onWave _ _ _ _ hw, hww] at hp
    have hf := Wave.finishParks_none (w := w.setS d.toNat (BitVec.ofNat 64 st)) (f := Park.inPwrwait) hm rfl p hp
    rw [hpk] at hf
    exact Bool.false_ne_true hf.symm

/-- PWR is taken at an issue boundary (R437). -/
theorem pwrTrap_completes {s : State} {wid : Nat} {w : Wave} (hw : s.run.waves.get? wid = some w) {m : Lanes} {pc : Word64}
    (hdue : w.pwrOwed = true ∨ (s.run.core (coreOf wid)).pwrCond = true ∧ w.pwrTaken = false) (hb : s.run.boundary wid = some (m, pc)) :
    Completes (exec (.pwrTrap wid) s) (fun t => ∃ word tr, tr.cls = 11 ∧ tr.sub = 1 ∧ tr.mask = m ∧
      tr.cw = BitVec.ofInt 64 (s.run.pairMis (coreOf wid)) ∧ tr.next = false ∧
      t.run = (takeTrap s.run wid m pc word tr).onWave wid (fun w => { w with pwrTaken := true, pwrOwed := false })) := by
  have hd : s.run.pwrDue wid = true := by
    simp only [Run.pwrDue, Run.get_wave hw, Bool.or_eq_true, Bool.and_eq_true, Bool.not_eq_true']
    exact hdue
  let tr : Trap := { cls := 11, sub := 1, mask := m, cw := BitVec.ofInt 64 (s.run.pairMis (coreOf wid)) }
  have he : pwrTrap s.sys s.run wid = (takeTrap s.run wid m pc (s.run.peek s.sys wid pc) tr).onWave wid
      (fun w => { w with pwrTaken := true, pwrOwed := false }) := by
    unfold pwrTrap boundaryTrap
    simp only [hd, hb, Option.isSome_some, Bool.and_true, if_true]
    rfl
  exact ⟨_, rfl, _, tr, rfl, rfl, rfl, rfl, rfl, he⟩

/-- A write of %BALCTL (R438). -/
theorem getLsbD_balctlWrite (old v : Word64) (n : Nat) : (balctlWrite old v).getLsbD n = if n = 0 then v.getLsbD 0
    else if 1 ≤ n ∧ n ≤ 3 then (if bits v 1 3 = 0 ∨ bits v 1 3 = 7 then old.getLsbD n else v.getLsbD n)
    else if n = 9 then old.getLsbD 9 && v.getLsbD 9 else old.getLsbD n := by
  obtain ⟨h0, hlv, h9, hout⟩ := balctlWrite_fields old v
  have hbit (x : Word64) (hn : 1 ≤ n ∧ n ≤ 3) : x.getLsbD n = (bits x 1 3).testBit (n - 1) := by
    rw [testBit_bits, show decide (n - 1 < 3) = true from decide_eq_true (by omega), Bool.true_and, show 1 + (n - 1) = n by omega]
  split
  · next hn => rw [hn, h0]
  · split
    · next hn =>
      rw [hbit _ hn, hlv]
      split
      · exact (hbit old hn).symm
      · exact (hbit v hn).symm
    · split
      · next hn => rw [hn, h9]
      · exact hout n (by omega) ‹_›

theorem balctlWrite_completes (s : State) (core : Nat) (v : Word64) : Completes (exec (.balctlWrite core v) s) (fun t =>
    { t.run with cores := s.run.cores } = s.run ∧ (∀ k, k ≠ core → t.run.core k = s.run.core k) ∧
    t.run.core core = { s.run.core core with balctl := balctlWrite (s.run.core core).balctl v }) :=
  ⟨_, rfl, rfl, fun k hk => (Run.core_onCore _ _ _ _).trans (if_neg hk), (Run.core_onCore _ _ _ _).trans (if_pos rfl)⟩

theorem misthWrite_completes (s : State) (p : Nat) (v : Word64) : Completes (exec (.misthWrite p v) s) (fun t =>
    let th := if bits v 0 16 < 100 then 100 else if 1000 < bits v 0 16 then 1000 else bits v 0 16
    { t.run with pairs := s.run.pairs } = s.run ∧ t.run.pair p = { s.run.pair p with th := th, tx := max (s.run.pair p).tx th }) := by
  refine ⟨_, rfl, rfl, ?_⟩
  rw [← min_max_eq_clamp _ 100 1000 (by omega)]
  exact (Run.pair_onPair _ _ _ _).trans (if_pos rfl)

theorem mistxWrite_completes (s : State) (p : Nat) (v : Word64) : Completes (exec (.mistxWrite p v) s) (fun t =>
    let tx := if bits v 0 16 < 100 then 100 else if 1000 < bits v 0 16 then 1000 else bits v 0 16
    { t.run with pairs := s.run.pairs } = s.run ∧ t.run.pair p = { s.run.pair p with tx := max (s.run.pair p).th tx }) := by
  refine ⟨_, rfl, rfl, ?_⟩
  rw [← min_max_eq_clamp _ 100 1000 (by omega)]
  exact (Run.pair_onPair _ _ _ _).trans (if_pos rfl)

theorem balanceWrites (s : State) (core : Nat) (v : Word64) : Completes (exec (.balctlWrite core v) s) (fun t =>
    { t.run with cores := s.run.cores } = s.run ∧ (∀ k, k ≠ core → t.run.core k = s.run.core k) ∧
    let old := (s.run.core core).balctl
    let new := (t.run.core core).balctl
    { t.run.core core with balctl := old } = s.run.core core ∧
    ∀ n, n < 64 → new.getLsbD n = if n = 0 then v.getLsbD 0
      else if 1 ≤ n ∧ n ≤ 3 then (if bits v 1 3 = 0 ∨ bits v 1 3 = 7 then old.getLsbD n else v.getLsbD n)
      else if n = 9 then old.getLsbD 9 && v.getLsbD 9 else old.getLsbD n) := by
  refine (balctlWrite_completes s core v).imp ?_
  intro t ⟨hf, ho, hc⟩
  refine ⟨hf, ho, ?_⟩
  rw [hc]
  exact ⟨rfl, fun n _ => getLsbD_balctlWrite _ _ _⟩

/-- Of a pair whose current was unexplained for 4,096 windows the thresholds are halved (R449). -/
theorem pairDerate_completes {s : State} {p : Nat} (hq : (s.run.pair p).bad = true) :
    Completes (exec (.pairDerate p) s) (fun t => t.run.mem = s.run.mem ∧ (t.run.pair p).derated = true ∧
      (t.run.pair p).th = max 100 ((s.run.pair p).th / 2) ∧ (t.run.pair p).tx = max 100 ((s.run.pair p).tx / 2) ∧
      (t.run.core (pairLo p)).balctl.getLsbD 11 = true ∧ (t.run.core (pairHi p)).balctl.getLsbD 11 = true) := by
  let mark : Core → Core := fun k => { k with balctl := setBits k.balctl 11 1 1 }
  let z := ((s.run.onCore (pairLo p) mark).onCore (pairHi p) mark).onPair p
    (fun q => { q with derated := true, th := max 100 (q.th / 2), tx := max 100 (q.tx / 2) })
  have hz : z.pair p = { s.run.pair p with derated := true, th := max 100 ((s.run.pair p).th / 2), tx := max 100 ((s.run.pair p).tx / 2) } :=
    (Run.pair_onPair _ _ _ _).trans (if_pos rfl)
  have hbit (k : Core) : (mark k).balctl.getLsbD 11 = true := getLsbD_bit_of_in _ 11 true (by omega)
  have hlo : z.core (pairLo p) = mark (s.run.core (pairLo p)) := by
    have e : z.core (pairLo p) = ((s.run.onCore (pairLo p) mark).onCore (pairHi p) mark).core (pairLo p) := rfl
    rw [e, Run.core_onCore, if_neg (pairLo_ne_pairHi p), Run.core_onCore, if_pos rfl]
  have hhi : z.core (pairHi p) = mark (s.run.core (pairHi p)) := by
    have e : z.core (pairHi p) = ((s.run.onCore (pairLo p) mark).onCore (pairHi p) mark).core (pairHi p) := rfl
    rw [e, Run.core_onCore, if_pos rfl, Run.core_onCore, if_neg (pairLo_ne_pairHi p).symm]
  have he : pairDerate s.run p = mapOutPair z p := by
    unfold pairDerate
    rw [hq]
    rfl
  have hread {α : Type} (g : Run → α) (hg : ∀ (x : Run) (ps : List Nat) bb nx out,
      g { x with outPairs := ps, bb := bb, bbNext := nx, out := out } = g x) : g (pairDerate s.run p) = g z := by
    rw [he]
    exact mapOutPair_read g hg z p
  have hpair : (pairDerate s.run p).pair p = z.pair p := hread (fun x => x.pair p) fun _ _ _ _ _ => rfl
  have hcore (n : Nat) : (pairDerate s.run p).core n = z.core n := hread (fun x => x.core n) fun _ _ _ _ _ => rfl
  refine ⟨_, rfl, hread Run.mem fun _ _ _ _ _ => rfl, ?_⟩
  simp only [hpair, hz, hcore, hlo, hhi, hbit, and_self]

theorem pairDerate_idle {s : State} {p : Nat} (hq : (s.run.pair p).bad = false) : exec (.pairDerate p) s = .next s := by
  have he : pairDerate s.run p = s.run := by
    unfold pairDerate
    rw [hq]
    rfl
  exact congrArg (fun r => Host.Outcome.next { s with run := r }) he

/-- What a window's end leaves of a pair's core (R436). -/
theorem windowEnd_core (r : Run) (p : Nat) {x : Nat} (hx : x = pairLo p ∨ x = pairHi p) :
    let mis := r.windowMis p
    let q := r.pair p
    let heavy : Prop := if x = pairLo p then 0 < mis else mis < 0
    let k := (windowEnd r p).core x
    (k.balctl.getLsbD 8 = true ↔ heavy ∧ (q.th < mis.natAbs ∨ 1000 ≤ mis.natAbs)) ∧
    (k.balctl.getLsbD 10 = true ↔ heavy ∧ 1000 ≤ mis.natAbs) ∧
    (k.balctl.getLsbD 9 = true ↔ (r.core x).balctl.getLsbD 9 = true ∨ k.balctl.getLsbD 8 = true) ∧
    (k.pwrCond = true ↔ heavy ∧ (q.tx < mis.natAbs ∨ 1000 ≤ mis.natAbs)) ∧ k.nv = 0 ∧ k.nm = 0 := by
  intro mis q heavy k
  obtain ⟨e, f, hk⟩ := r.windowed_core p hx
  have hk : k = r.windowCore p (if x = pairLo p then 0 < r.windowMis p else r.windowMis p < 0) x e f
      ((r.ranTo p (r.clk / 256 * 256)).core x) := (windowEnd_read r p (fun z => z.core x) (fun _ _ => rfl)).trans hk
  rw [Run.core_ranTo r p hx] at hk
  set hv : Bool := if x = pairLo p then 0 < r.windowMis p else r.windowMis p < 0 with hvdef
  have hheavy : hv = true ↔ heavy := by
    simp only [hvdef, heavy]
    split <;> exact decide_eq_true_iff
  obtain ⟨h8, h10, h9⟩ := Core.act_balctl ((r.core x).runTo (r.die (dieOf x)).issueDuty (r.clk / 256 * 256)) hv mis.natAbs
    q.th q.tx ((r.ranTo p (r.clk / 256 * 256)).burnLevel x f ((r.ranTo p (r.clk / 256 * 256)).core x).base) (r.clk / 256 * 256) e
  rw [hheavy] at h8 h10
  rw [hk]
  exact ⟨h8, h10, h9, (Core.act_pwrCond ..).trans (and_congr_left' hheavy), rfl, rfl⟩

/-- What a window's end leaves of a wave of the pair (R437). -/
theorem windowEnd_wave (r : Run) (p : Nat) {n : Nat} {w : Wave} (hw : r.waves.get? n = some w)
    (hn : coreOf n = pairLo p ∨ coreOf n = pairHi p) :
    (((windowEnd r p).wave n).pwrTaken = true ↔ w.pwrTaken = true ∧ (r.pair p).tx < (r.windowMis p).natAbs) ∧
    (((windowEnd r p).wave n).pwrOwed = true ↔ w.pwrOwed = true ∨ (r.core (coreOf n)).balctl.getLsbD 10 = true ∧
      (r.core (coreOf n)).pwrCond = true ∧ w.pwrTaken = false ∧ ∃ p ∈ w.parts, p.park = .run) := by
  have hr := windowEnd_returned r p
  constructor
  · rw [hr.taken, r.windowed_wave p hw hn, Wave.pwrWindow_taken]
  · rw [hr.owed, r.windowed_wave p hw hn, Wave.pwrWindow_owed, r.core_ranTo p hn]
    rfl

/-- What a window's end leaves of the pair itself, and of the rest. -/
theorem windowEnd_pair (r : Run) (p : Nat) : (windowEnd r p).mem = r.mem ∧
    (windowEnd r p).pair p = (r.pair p).window p (r.clk / 256) (r.windowMis p) :=
  ⟨windowEnd_read r p Run.mem fun _ _ => rfl, (windowEnd_read r p (fun z => z.pair p) fun _ _ => rfl).trans (r.windowed_pair p)⟩

/-- The mismatch as the two estimates give it. -/
theorem Run.windowMis_eq (r : Run) (p : Nat) :
    let t1 := r.clk / 256 * 256
    let ran (n : Nat) : Core := (r.core n).runTo (r.die (dieOf n)).issueDuty t1
    r.windowMis p = ((ran (pairLo p)).estimate (t1 - 256) : Int) - (ran (pairHi p)).estimate (t1 - 256) := by
  intro t1 ran
  unfold Run.windowMis
  simp only [r.core_ranTo p (.inl rfl), r.core_ranTo p (.inr rfl)]
  rfl

/-- Settles O45: the four instructions by their effects, a window's end by what it makes of the pair, its two cores and their waves, where a
look at PWRWAIT afterwards touches neither the trap's bookkeeping nor anything but waves. -/
theorem currentBalance : Obligations.CurrentBalance := by
  unfold Obligations.CurrentBalance
  refine ⟨?_, ?_, ?_, balanceWrites, ?_⟩
  · intro s h o c hI core n l q
    refine ⟨fun hl => ⟨_, rfl, rfl, rfl, balburn_traps hI hl⟩, balburn_moves hI, balburn_burns hI, fun d hd => ⟨?_, ?_, ?_⟩⟩
    · rcases Bool.eq_false_or_eq_true q.derated with hq | hq
      · refine (balshunt_puts hI hd (balshunt_derated hd hq)).imp ?_
        intro t ⟨h1, h2, h3, h4, h5, h6, h7, h8⟩
        have hp (k : Nat) : t.run.pair k = s.run.pair k := by rw [Run.pair, h7]; rfl
        exact ⟨h1, h2, h3, h4, h5, h6, fun k _ => hp k, fun _ => ⟨h8, hp _⟩, fun h => absurd (hq.symm.trans h) Bool.noConfusion⟩
      · refine (balshunt_puts hI hd (balshunt_sets hd hq)).imp ?_
        intro t ⟨h1, h2, h3, h4, h5, h6, h7, h8⟩
        have hp (k : Nat) := (congrArg (fun ps : Tbl Pair => (ps.get? k).getD {}) h7).trans (Run.pair_onPair ..)
        exact ⟨h1, h2, h3, h4, h5, h6, fun k hk => (hp k).trans (if_neg hk), fun h => absurd (hq.symm.trans h) Bool.noConfusion,
          fun _ => ⟨h8, (hp _).trans (if_pos rfl)⟩⟩
    · exact fun hw => ⟨pwrwait_returns hI hd hw, pwrwait_parks hI hd hw⟩
    · intro hq x
      exact ⟨pair_alone hI hd hq, fun p y m z e hp hne hy hl hin => pair_exchanges hI hd hq hp hne hy hl hin,
        fun p hp hin => pair_waits hI hd hq hp hin⟩
  · intro k t0 hb ha
    exact Core.estimate_of_none hb ha t0
  · intro s p lo hi t1 q ran a b mis
    refine ⟨?_, misthWrite_completes s p, mistxWrite_completes s p, pairDerate_idle, pairDerate_completes⟩
    have hmis : s.run.windowMis p = mis := s.run.windowMis_eq p
    obtain ⟨hm, hq⟩ := windowEnd_pair s.run p
    rw [hmis] at hq
    refine ⟨_, rfl, rfl, hm, by rw [hq]; rfl, by rw [hq]; rfl, by rw [hq]; rfl, by rw [hq]; rfl, ?_, ?_, fun x hx => ?_⟩
    · rw [hq]; exact Pair.window_vmid _ _ _ _
    · rw [hq]; exact Pair.window_suspect _ _ _ _
    · have hc := windowEnd_core s.run p hx
      rw [hmis] at hc
      obtain ⟨h8, h10, h9, hpw, hnv, hnm⟩ := hc
      refine ⟨h8, h10, h9, hpw, hnv, hnm, fun n w hw hn => ?_⟩
      subst hn
      exact hmis ▸ windowEnd_wave s.run p hw hx
  · intro s wid w hw
    exact ⟨fun m pc hdue hb => pwrTrap_completes hw hdue hb, fun lane p dl l hp hb hdl => burnEnd_completes hw hp hb hdl,
      fun bound dl d hl hin hm hend => pwrwaitTimeout_completes hw hl hin hm hend⟩

end Sys2Proof.Machine
end

section
/-! FENCE, SEAL, UNSEAL, CACHE, PREF and TLBI, settled (R255 to R260, R302, R308, R313). -/

namespace Sys2Proof.Machine

/-! ## FENCE -/

/-- The order that an instruction asks for before its effect, where nothing the wave has under way keeps it waiting. -/
theorem ordered_of_done {s : State} {c : Iss} {rel sys : Bool} (hacq : (s.wv c).acquirePending = false)
    (hrel : rel = true → (s.wv c).unperformed = false) (hm : rel = true → sys = true → (s.wv c).marked = none)
    (k : Sys → Run → Iss → Eff Unit) (y : Sys) : ordered rel sys k y s.run c = k y s.run c := by
  have ha : (s.run.wave c.wid).acquirePending = false := hacq
  cases rel with
  | false => simp only [ordered, ha, Bool.false_and, Bool.false_eq_true, if_false]
  | true =>
    have hu : (s.run.wave c.wid).unperformed = false := hrel rfl
    cases sys with
    | false => simp only [ordered, ha, hu, Bool.and_false, Bool.false_eq_true, if_false]
    | true =>
      have hn : (s.run.wave c.wid).marked = none := hm rfl rfl
      simp only [ordered, ha, hu, markTrap, hn, Bool.and_false, Bool.false_eq_true, if_false, ite_self, Option.map_none]

section
variable {s : State} {h : Hd} {m : OrdMod} {c : Iss} (hI : Issues s h c []) (hacq : (s.wv c).acquirePending = false)
include hI hacq

theorem fence_waits (hrel : Order.isRel m.ord = true) (hu : (s.wv c).unperformed = true) : exec (.fence h m) s =
    .next { s with run := s.run.onWave c.wid (fun w => w.park c.m (.retry (.release (m.scope = .sys)))) } := by
  have ha : (s.run.wave c.wid).acquirePending = false := hacq
  have hu : (s.run.wave c.wid).unperformed = true := hu
  refine issue_park (k := {}) hI rfl rfl rfl (fun _ => Wait.noConfusion) ?_
  simp only [ordered, ha, hrel, hu, Bool.and_self, Bool.false_eq_true, if_false, if_true]

/-- A fence of any order at system scope takes the trap of a lost write (R313). -/
theorem fence_traps (hdone : Order.isRel m.ord = true → (s.wv c).unperformed = false) {sub a : Nat} {priv : Bool} (hs : m.scope = .sys)
    (hm : (s.wv c).marked = some (sub, a, priv)) : ∃ tr, tr.cls = 7 ∧ tr.sub = sub ∧
      (∀ l, l < 32 → tr.mask.getLsbD l = c.act.getLsbD l) ∧ tr.late = false ∧ exec (.fence h m) s =
        .next { s with run := trapAt s.sys (s.run.onWave c.wid (fun w => { w with marked := none })) c tr } := by
  have ha : (s.run.wave c.wid).acquirePending = false := hacq
  have hm : (s.run.wave c.wid).marked = some (sub, a, priv) := hm
  refine ⟨memTrap sub (c.act.toList.map (fun l => (l, a))) (farDetail s.sys s.run c.wid sub a true priv), rfl, rfl, fun l _ => ?_, rfl,
    issue_trap (k := {}) hI (.inl rfl) (.inl rfl) ?_⟩
  · exact congrArg (fun x : Lanes => x.getLsbD l) (lanesOf_toList c.act fun _ => a)
  · cases hr : Order.isRel m.ord with
    | false =>
      simp only [ordered, fenceEff, ha, hs, markTrap, hm, Bool.false_and, Bool.false_eq_true, if_false, if_true, Option.map_some]
    | true =>
      have hu : (s.run.wave c.wid).unperformed = false := hdone hr
      simp only [ordered, ha, hu, hs, markTrap, hm, Bool.and_false, Bool.false_eq_true, if_false, decide_true, Bool.and_self, if_true,
        Option.map_some]

theorem fence_moves (hdone : Order.isRel m.ord = true → (s.wv c).unperformed = false) (hm : m.scope = .sys → (s.wv c).marked = none)
    (hp : Order.isAcq m.ord = true → ∀ p ∈ (s.wv c).pend, p.kind = .xlane) :
    Completes (exec (.fence h m) s) (fun t => RegFrame s t c [] ∧ MovedOn s t c) := by
  obtain ⟨w, hw, -, -⟩ := Run.issuer_wave _ _ _ hI.1
  have he : ordered (Order.isRel m.ord) (m.scope = .sys) (fenceEff m) s.sys s.run c = .ok s.run () := by
    rw [ordered_of_done hacq hdone (fun _ hs => hm (of_decide_eq_true hs))]
    have hmark : (if m.scope = .sys then markTrap s.sys s.run c.wid c.act else none) = none := by
      split
      · next hs =>
        have hn : (s.run.wave c.wid).marked = none := hm hs
        simp only [markTrap, hn, Option.map_none]
      · rfl
    have hpend : (Order.isAcq m.ord && (s.run.wave c.wid).pend.any (fun (p : Pend) => p.kind ≠ .xlane)) = false := by
      cases ha : Order.isAcq m.ord with
      | false => rfl
      | true =>
        rw [Bool.true_and, List.any_eq_false]
        intro p hpm
        simpa using hp ha p hpm
    unfold fenceEff
    simp only [hmark, hpend, Bool.false_eq_true, if_false]
  have ht := (turns_self hI.1).retire h {}
  refine ⟨_, issue_ok' (k := {}) hI (.inl rfl) (.inl rfl) rfl he, ?_⟩
  have hdev : DeviceKept s { s with run := s.run.retire c h {} } c.wid := ⟨rfl, ht.frame, ht.others, Run.core_retire_same s.run c h {}⟩
  exact regFrame_of_retired rfl rfl hdev ht.wave_eq rfl (RegsKept.refl _ _ _) rfl

end

/-! ## What the checks of a range change -/

/-- The run `t` differs from `r` in translations and walks alone. -/
structure Run.SameButWalks (r t : Run) : Prop where
  frame : SameButTlb r t
  core : ∀ n, { t.core n with tlb := (r.core n).tlb } = r.core n

theorem Run.SameButWalks.refl (r : Run) : r.SameButWalks r := ⟨.refl r, fun _ => rfl⟩

theorem Run.SameButWalks.trans {r t z : Run} (h : r.SameButWalks t) (g : t.SameButWalks z) : r.SameButWalks z where
  frame := h.frame.trans g.frame
  core n := by
    have e := congrArg (fun k : Core => { k with tlb := (r.core n).tlb }) (g.core n)
    exact e.trans (h.core n)

theorem sameButWalks_startWalks (r : Run) (core n : Nat) : r.SameButWalks (r.startWalks core n) := by
  refine ⟨startWalks_frame r core n, fun k => ?_⟩
  unfold Run.startWalks
  split <;> rfl

theorem sameButWalks_translate (y : Sys) (r : Run) (core cid va : Nat) (k : Want) : r.SameButWalks (translate y r core cid va k).2 := by
  refine ⟨translate_frame y r core cid va k, fun n => ?_⟩
  unfold translate
  dsimp only
  split
  · rfl
  · split
    · rfl
    · rw [Run.core_onCore]
      split
      · next hn =>
        rw [hn]
      · rfl

theorem sameButWalks_translateAll (y : Sys) (core cid : Nat) (k : Want) (ctrl : Bool) (xs : List (Nat × Nat)) (r : Run) :
    r.SameButWalks (translateAll y r core cid k ctrl xs).1 := by
  induction xs generalizing r with
  | nil => exact .refl r
  | cons e t ih =>
    obtain ⟨l, a⟩ := e
    have h := sameButWalks_translate y r core cid a k
    simp only [translateAll]
    split
    · next x r' e =>
      rw [e] at h
      split <;> exact h.trans (ih r')
    · next f r' e =>
      rw [e] at h
      exact h.trans (ih r')

theorem sameButWalks_preTranslate {y : Sys} {r t : Run} {core slot cid : Nat} {k : Want} {ctrl : Bool} {pc : Word64} {xs : List (Nat × Nat)}
    {ts : List (Nat × Xlat)} (h : preTranslate y r core slot cid k ctrl pc xs = .ok t ts) : r.SameButWalks t := by
  obtain ⟨n, hn⟩ := preTranslate_ok_inv h
  have e := sameButWalks_translateAll y core cid k ctrl xs (r.startWalks core n)
  rw [hn] at e
  exact (sameButWalks_startWalks r core n).trans e

theorem rangeChecks_sameButWalks {y : Sys} {r t : Run} {c : Iss} {o : Ops} {x : Nat × Nat × List (Nat × Xlat)}
    (h : rangeChecks y r c o = .ok t x) : r.SameButWalks t := by
  unfold rangeChecks at h
  dsimp only at h
  split at h
  · cases h
  · split at h
    · cases h
    · unfold preTranslateRange at h
      split at h
      · cases h
      · cases h
      · cases hp : preTranslate y r (coreOf c.wid) (slotOf c.wid) (r.cidOf c.wid) { priv := (r.wave c.wid).priv } false c.pc
            ((piecesOf (r.range c o).1 (r.range c o).2).map (fun a => (a, a))) with
        | ok z ts =>
          rw [hp] at h
          cases h
          exact sameButWalks_preTranslate hp
        | trap z tr => rw [hp] at h; cases h
        | park z p => rw [hp] at h; cases h

/-! ## The frame of an instruction on a range -/

/-- What SEAL, UNSEAL, CACHE and PREF leave as it was: all but the context's seals, the translations and the read-only lines. `closer` is 1
for an instruction that closes the region. -/
def RangeFrame (s : State) (c : Iss) (cx : Ctx) (closer : Nat) (t : State) : Prop :=
  t.sys = s.sys ∧ { t.run with waves := s.run.waves, cores := s.run.cores, dies := s.run.dies, ctxs := s.run.ctxs } = s.run ∧
  (∀ n, n ≠ c.wid → t.run.wave n = s.run.wave n) ∧ (∀ n, n ≠ s.run.cidOf c.wid → t.run.ctx n = s.run.ctx n) ∧
  { t.run.ctx (s.run.cidOf c.wid) with seals := cx.seals } = cx ∧
  (∀ n, Core.sameButCounts { t.run.core n with tlb := (s.run.core n).tlb, ro := (s.run.core n).ro } (s.run.core n)) ∧
  RegsKept (s.wv c) (t.wv c) c.act [] ∧ RestKept { s.wv c with rgn := (s.wv c).rgn + BitVec.ofNat 64 closer } (t.wv c)

/-- What the effect of such an instruction leaves before the issue ends. -/
structure Run.Ranges (r z : Run) (cid : Nat) (cx : Ctx) : Prop where
  frame : ({ z with cores := r.cores, dies := r.dies, ctxs := r.ctxs } : Run) = r
  others : ∀ n, n ≠ cid → z.ctx n = r.ctx n
  ctx : { z.ctx cid with seals := cx.seals } = cx
  core : ∀ n, { z.core n with tlb := (r.core n).tlb, ro := (r.core n).ro } = r.core n

namespace Run.Ranges
variable {s : State} {z : Run} {cx : Ctx}

theorem of_sameButWalks {r : Run} {cid : Nat} (hcx : r.ctxs.get? cid = some cx) (h : r.SameButWalks z) : r.Ranges z cid cx := by
  have hctx (n : Nat) : z.ctx n = r.ctx n := h.frame.read (fun x => x.ctx n) fun _ _ _ => rfl
  refine ⟨congrArg (fun x : Run => { x with ctxs := r.ctxs }) h.frame, fun n _ => hctx n, ?_, fun n => ?_⟩
  · rw [hctx, Run.ctx, hcx]
    rfl
  · have e := congrArg (fun k : Core => { k with ro := (r.core n).ro }) (h.core n)
    exact e

theorem waves {r : Run} {cid : Nat} (h : r.Ranges z cid cx) : z.waves = r.waves := by
  have e := congrArg Run.waves h.frame
  exact e

theorem clk {r : Run} {cid : Nat} (h : r.Ranges z cid cx) : z.clk = r.clk := by
  have e := congrArg Run.clk h.frame
  exact e

/-- A change of the read-only lines of cores. -/
theorem lines {r : Run} {cid : Nat} (h : r.Ranges z cid cx) {cs : Tbl Core}
    (hcs : ∀ n, { (({ z with cores := cs } : Run).core n) with ro := (z.core n).ro } = z.core n) :
    r.Ranges ({ z with cores := cs } : Run) cid cx := by
  refine ⟨h.frame, h.others, h.ctx, fun n => ?_⟩
  have e := congrArg (fun k : Core => { k with tlb := (r.core n).tlb, ro := (r.core n).ro }) (hcs n)
  exact e.trans (h.core n)

/-- A change of the context's seals. -/
theorem onCtx {r : Run} {cid : Nat} (h : r.Ranges z cid cx) {f : Ctx → Ctx} (hf : ∀ x : Ctx, { f x with seals := x.seals } = x)
    (hz : z.ctxs.get? cid = some (z.ctx cid)) : r.Ranges (z.onCtx cid f) cid cx := by
  refine ⟨h.frame, fun n hn => (Run.ctx_onCtx_of_ne _ _ _ _ hn).trans (h.others n hn), ?_, h.core⟩
  rw [Run.ctx_onCtx _ _ _ _ hz]
  have e := congrArg (fun x : Ctx => { x with seals := cx.seals }) (hf (z.ctx cid))
  exact e.trans h.ctx

end Run.Ranges

section
variable {s : State} {h : Hd} {c : Iss} {k : How} {z : Run} {cx : Ctx}

theorem ranged_wave (hz : s.run.Ranges z (s.run.cidOf c.wid) cx) (hi : s.run.issuer h = some c) : z.Turns z c.wid (s.wv c) := by
  obtain ⟨w, hw, -, hww⟩ := Run.issuer_wave _ _ _ hi
  rw [State.wv, hww]
  exact .self (by rw [hz.waves, hw])

/-- The frame from that of the effect, where the issue's end touches the wave and the issue counts alone. -/
theorem Run.Ranges.rangeFrame {t : State} {n : Nat} {u : Wave} (hz : s.run.Ranges z (s.run.cidOf c.wid) cx) (hsys : t.sys = s.sys)
    (ht : z.Turns t.run c.wid u) (hcore : ∀ n, (t.run.core n).sameButCounts (z.core n)) (hr : RegsKept (s.wv c) u c.act [])
    (hk : RestKept { s.wv c with rgn := (s.wv c).rgn + BitVec.ofNat 64 n } u) : RangeFrame s c cx n t := by
  have hctxs : t.run.ctxs = z.ctxs := by
    have e := congrArg Run.ctxs ht.frame
    exact e
  have hctx (n : Nat) : t.run.ctx n = z.ctx n := by rw [Run.ctx, hctxs]; rfl
  refine ⟨hsys, ?_, fun n hn => ?_, fun n hn => (hctx n).trans (hz.others n hn), ?_, fun n => ?_, ?_, ?_⟩
  · have e := congrArg (fun x : Run => { x with waves := s.run.waves, cores := s.run.cores, dies := s.run.dies, ctxs := s.run.ctxs }) ht.frame
    have f := congrArg (fun x : Run => { x with waves := s.run.waves }) hz.frame
    exact e.trans f
  · rw [ht.others n hn, Run.wave, hz.waves]
    rfl
  · rw [hctx]
    exact hz.ctx
  · have e := congrArg (fun k : Core => { k with
      tlb := (s.run.core n).tlb, ro := (s.run.core n).ro, nv := (s.run.core n).nv, nm := (s.run.core n).nm, vAt := (s.run.core n).vAt,
      mAt := (s.run.core n).mAt }) (hcore n)
    have f := congrArg (fun k : Core => { k with
      nv := (s.run.core n).nv, nm := (s.run.core n).nm, vAt := (s.run.core n).vAt, mAt := (s.run.core n).mAt }) (hz.core n)
    exact e.trans f
  · rw [show t.wv c = u from ht.wave_eq]
    exact hr
  · rw [show t.wv c = u from ht.wave_eq]
    exact hk

/-- The end of an instruction on a range that does not close its region. -/
theorem range_moves {eff : Sys → Run → Iss → Eff Unit} (hI : Issues s h c k.uses) (hp : k.priv = false) (hw : k.whole = none)
    (hs : k.switch = false) (hc : k.closer = false) (he : eff s.sys s.run c = .ok z ()) (hz : s.run.Ranges z (s.run.cidOf c.wid) cx) :
    Completes (issue s h k eff) (fun t => RangeFrame s c cx 0 t ∧ t.run.ctxs = z.ctxs ∧ ∀ n, (t.run.core n).sameButCounts (z.core n)) := by
  have ht := (ranged_wave hz hI.1).retire h k
  have hcore := Run.core_retire_same z c h k
  have hself : RestKept { s.wv c with rgn := (s.wv c).rgn + BitVec.ofNat 64 0 } (s.wv c) := by rw [BitVec.add_zero]; rfl
  refine ⟨_, issue_ok' hI (.inl hp) (.inl hw) hs he, hz.rangeFrame rfl ht hcore (RegsKept.refl _ _ _).retired (hself.retired hc), ?_, hcore⟩
  have e := congrArg Run.ctxs ht.frame
  exact e

/-- The end of an instruction on a range that closes its region. -/
theorem range_closes {eff : Sys → Run → Iss → Eff Unit} (hI : Issues s h c k.uses) (hp : k.priv = false) (hw : k.whole = none)
    (hs : k.switch = false) (hc : k.closer = true) (he : eff s.sys s.run c = .ok z ()) (hz : s.run.Ranges z (s.run.cidOf c.wid) cx) :
    Completes (issue s h k eff) (fun t => RangeFrame s c cx 1 t ∧ t.run.ctxs = z.ctxs ∧ ∀ n, (t.run.core n).sameButCounts (z.core n)) := by
  have ht := (ranged_wave hz hI.1).retire h k
  have hcore := Run.core_retire_same z c h k
  have hself : RestKept (s.wv c) (s.wv c) := rfl
  refine ⟨_, issue_ok' hI (.inl hp) (.inl hw) hs he,
    hz.rangeFrame rfl ht hcore (RegsKept.refl _ _ _).retired (hself.retired_closer hc), ?_, hcore⟩
  have e := congrArg Run.ctxs ht.frame
  exact e

/-- A SEAL that waits for stores into its range. -/
theorem range_waits {eff : Sys → Run → Iss → Eff Unit} {base len : Nat} (hI : Issues s h c k.uses) (hp : k.priv = false) (hw : k.whole = none)
    (hs : k.switch = false) (he : eff s.sys s.run c = .park z (.retry (.sealing base len)))
    (hz : s.run.Ranges z (s.run.cidOf c.wid) cx) :
    Completes (issue s h k eff) (fun t => RangeFrame s c cx 0 t ∧ t.run.ctxs = z.ctxs ∧ (∀ n, (t.run.core n).sameButCounts (z.core n)) ∧
      (t.wv c).parts = (s.wv c).parts.map (fun p => if (p.mask &&& c.m) ≠ 0 then { p with park := .retry (.sealing base len) } else p)) := by
  have ht := (ranged_wave hz hI.1).onWave (fun w => w.park c.m (.retry (.sealing base len)))
  have hcore (n : Nat) : ((z.onWave c.wid (fun w => w.park c.m (.retry (.sealing base len)))).core n).sameButCounts (z.core n) := rfl
  have hk : RestKept { s.wv c with rgn := (s.wv c).rgn + BitVec.ofNat 64 0 } ((s.wv c).park c.m (.retry (.sealing base len))) := by
    rw [BitVec.add_zero]; rfl
  refine ⟨_, issue_park hI hp hw hs (fun _ => Wait.noConfusion) he, hz.rangeFrame rfl ht hcore (regsKept_park _ _ _ _) hk, rfl, hcore, ?_⟩
  rw [State.wv, ht.wave_eq]
  rfl

end

/-! ## Read-only lines -/

theorem Core.mem_dropLines (k : Core) (base len : Nat) (ts : List (Nat × Xlat)) (e : Nat × List Byte) :
    e ∈ (k.dropLines base len ts).ro ↔ k.keepsLine base len ts e := by
  simp [Core.dropLines, Core.keepsLine]

/-- What relates each core to its update, and the core that has no entry to itself, relates the cores before and behind an update of all. -/
theorem Run.core_mapCores (r : Run) {f : Nat → Core → Core} {P : Core → Core → Prop} (n : Nat) (h0 : P {} {}) (hf : ∀ k, P k (f n k)) :
    P (r.core n) (({ r with cores := r.cores.mapAll f } : Run).core n) := by
  simp only [Run.core, get?_mapAll]
  cases r.cores.get? n with
  | none => exact h0
  | some k => exact hf k

theorem Core.keepsLine_congr {k z : Core} (h : k.ro = z.ro) (base len : Nat) (ts : List (Nat × Xlat)) (e : Nat × List Byte) :
    k.keepsLine base len ts e ↔ z.keepsLine base len ts e := by
  unfold Core.keepsLine
  rw [h]

/-- The run `t` differs from `r` in read-only lines alone. -/
structure Run.SameButLines (r t : Run) : Prop where
  eq : ({ r with cores := t.cores } : Run) = t
  core : ∀ n, { t.core n with ro := (r.core n).ro } = r.core n

theorem Run.SameButLines.trans {r t z : Run} (h : r.SameButLines t) (g : t.SameButLines z) : r.SameButLines z where
  eq := by
    have e := congrArg (fun x : Run => { x with cores := z.cores }) h.eq
    exact e.trans g.eq
  core n := by
    have e := congrArg (fun k : Core => { k with ro := (r.core n).ro }) (g.core n)
    exact e.trans (h.core n)

theorem sameButLines_roFill (r : Run) (core pa : Nat) : r.SameButLines (roFill r core pa) := by
  unfold roFill
  refine ⟨rfl, fun n => ?_⟩
  rw [Run.core_onCore]
  split
  · next hn => rw [hn]
  · rfl

/-- PREF moves on, with lines read into the core's read-only cache at most. -/
theorem prefEff_lines (m : LdMod) (o : Ops) (y : Sys) (r : Run) (c : Iss) : ∃ z, prefEff m o y r c = .ok z () ∧ r.SameButLines z := by
  have hself (z : Run) : z.SameButLines z := ⟨rfl, fun _ => rfl⟩
  unfold prefEff
  split
  · exact ⟨r, rfl, hself r⟩
  · refine ⟨_, rfl, ?_⟩
    generalize c.act.toList = ls
    generalize r.cidOf c.wid = cid
    generalize ({ priv := (r.wave c.wid).priv } : Want) = k
    induction ls generalizing r with
    | nil => exact hself r
    | cons l ls ih =>
      refine Run.SameButLines.trans ?_ (ih _)
      dsimp only
      split
      · exact hself r
      · split
        · split
          · exact hself r
          · exact sameButLines_roFill _ _ _
        · exact hself r

/-! ## SEAL, UNSEAL and CACHE -/

theorem sealedHit_iff (cx : Ctx) (lo hi : Nat) : sealedHit cx lo hi = true ↔ ∃ e ∈ cx.seals, e.1 < hi ∧ lo < e.1 + e.2 := by
  simp [sealedHit]

section
variable {s : State} {h : Hd} {o : Ops} {c : Iss} {cx : Ctx} {r : Run} {base len : Nat} {ts : List (Nat × Xlat)}
  (hcx : s.run.ctxs.get? (s.run.cidOf c.wid) = some cx) (hI : Issues s h c (rangeUses h o))
  (hck : rangeChecks s.sys s.run c o = .ok r (base, len, ts))

section
include hck

theorem rangeChecks_ctxs : r.ctxs = s.run.ctxs := (rangeChecks_sameButWalks hck).frame.read Run.ctxs fun _ _ _ => rfl

theorem rangeChecks_cidOf : r.cidOf c.wid = s.run.cidOf c.wid :=
  (rangeChecks_sameButWalks hck).frame.read (fun x => x.cidOf c.wid) fun _ _ _ => rfl

theorem rangeChecks_ro (n : Nat) : (r.core n).ro = (s.run.core n).ro := by
  have e := congrArg Core.ro ((rangeChecks_sameButWalks hck).core n)
  exact e

include hcx

theorem rangeChecks_ranges : s.run.Ranges r (s.run.cidOf c.wid) cx := .of_sameButWalks hcx (rangeChecks_sameButWalks hck)

theorem rangeChecks_ctx : r.ctx (s.run.cidOf c.wid) = cx := by
  rw [Run.ctx, rangeChecks_ctxs hck, hcx]
  rfl

end

theorem Run.ctx_onCtx_of_get {r : Run} {cid : Nat} {x : Ctx} (h : r.ctxs.get? cid = some x) (f : Ctx → Ctx) : (r.onCtx cid f).ctx cid = f x := by
  rw [Run.ctx_onCtx _ _ _ _ h, Run.ctx, h]
  rfl

section
include hcx hI hck

/-- A SEAL whose range overlaps none installs it, and waits for the stores into it that have passed their check (R257). -/
theorem seal_installs (hse : (s.wv c).sealing c.m = none) (hq : Quiet s c) (hov : ¬∃ e ∈ cx.seals, e.1 < base + len ∧ base < e.1 + e.2)
    (hlen : cx.seals.length < 64) : Completes (exec (.seal h o) s) (fun t =>
      (t.run.ctx (s.run.cidOf c.wid)).seals = cx.seals ++ [(base, len)] ∧ (∀ n, (t.run.core n).ro = (s.run.core n).ro) ∧
      (s.run.storesInto (s.run.cidOf c.wid) base len = false → RangeFrame s c cx 1 t) ∧
      (s.run.storesInto (s.run.cidOf c.wid) base len = true → RangeFrame s c cx 0 t ∧ (t.wv c).parts = (s.wv c).parts.map (fun p =>
        if (p.mask &&& c.m) ≠ 0 then { p with park := .retry (.sealing base len) } else p))) := by
  let cid := s.run.cidOf c.wid
  let z := r.onCtx cid (fun x => { x with seals := x.seals ++ [(base, len)] })
  have hr := rangeChecks_ranges hcx hck
  have hctxs := rangeChecks_ctxs hck
  have hrcx : r.ctxs.get? cid = some cx := by rw [hctxs, hcx]
  have hrctx : r.ctx cid = cx := rangeChecks_ctx hcx hck
  have hz : s.run.Ranges z cid cx := hr.onCtx (fun _ => rfl) (by rw [hrcx, hrctx])
  have hseals {t : State} (ht : t.run.ctxs = z.ctxs) : (t.run.ctx cid).seals = cx.seals ++ [(base, len)] := by
    rw [Run.ctx, ht]
    exact congrArg Ctx.seals (Run.ctx_onCtx_of_get hrcx _)
  have hro {t : State} (ht : ∀ n, (t.run.core n).sameButCounts (z.core n)) (n : Nat) : (t.run.core n).ro = (s.run.core n).ro :=
    ((ht n).read Core.ro fun _ _ _ _ _ => rfl).trans (rangeChecks_ro hck n)
  have hst : z.storesInto cid base len = s.run.storesInto cid base len := by
    have e : z.storesInto cid base len = r.storesInto cid base len := rfl
    rw [e]
    exact (rangeChecks_sameButWalks hck).frame.read (fun x => x.storesInto cid base len) fun _ _ _ => rfl
  have hover : sealedHit cx base (base + len) = false := by
    rw [← Bool.not_eq_true, sealedHit_iff]
    exact hov
  have he : sealRun o s.sys s.run c =
      if s.run.storesInto cid base len then .park z (.retry (.sealing base len)) else .ok z () := by
    have hse : (s.run.wave c.wid).sealing c.m = none := hse
    unfold sealRun
    simp only [hse]
    rw [ordered_of_quiet hq]
    unfold sealEff
    simp only [hck, Eff.bind, rangeChecks_cidOf hck, rangeChecks_ctx hcx hck, hover, Bool.false_eq_true, if_false, Nat.not_le.mpr hlen]
    rw [show s.run.cidOf c.wid = cid from rfl, ← hst]
  cases hb : s.run.storesInto cid base len with
  | true =>
    rw [hb, if_pos rfl] at he
    refine (range_waits (k := { uses := rangeUses h o, closer := true }) hI rfl rfl rfl he hz).imp ?_
    intro t ⟨hf, hc, hk, hp⟩
    exact ⟨hseals hc, hro hk, fun hn => absurd hn Bool.noConfusion, fun _ => ⟨hf, hp⟩⟩
  | false =>
    rw [hb, if_neg Bool.false_ne_true] at he
    refine (range_closes (k := { uses := rangeUses h o, closer := true }) hI rfl rfl rfl rfl he hz).imp ?_
    intro t ⟨hf, hc, hk⟩
    exact ⟨hseals hc, hro hk, fun _ => hf, fun hn => absurd hn Bool.noConfusion⟩

/-- A SEAL that overlaps one, or finds 64 (R257). -/
theorem seal_traps (hse : (s.wv c).sealing c.m = none) (hq : Quiet s c) {sub : Nat}
    (hbad : (∃ e ∈ cx.seals, e.1 < base + len ∧ base < e.1 + e.2) ∧ sub = 0x18 ∨
      (¬∃ e ∈ cx.seals, e.1 < base + len ∧ base < e.1 + e.2) ∧ 64 ≤ cx.seals.length ∧ sub = 0x17) :
    ∃ tr, tr.cls = 7 ∧ tr.sub = sub ∧ exec (.seal h o) s = .next { s with run := trapAt s.sys r c tr } := by
  refine ⟨rangeTrap c.act sub base, rfl, rfl,
    issue_trap (k := { uses := rangeUses h o, closer := true }) (eff := sealRun o) hI (.inl rfl) (.inl rfl) ?_⟩
  have hse : (s.run.wave c.wid).sealing c.m = none := hse
  unfold sealRun
  simp only [hse]
  rw [ordered_of_quiet hq]
  unfold sealEff
  simp only [hck, Eff.bind, rangeChecks_cidOf hck, rangeChecks_ctx hcx hck, sealedHit_iff]
  rcases hbad with ⟨hov, rfl⟩ | ⟨hov, hlen, rfl⟩
  · rw [if_pos hov]
  · rw [if_neg hov, if_pos hlen]

/-- UNSEAL of a range that is sealed (R258). -/
theorem unseal_removes (hacq : (s.wv c).acquirePending = false) (hmem : (base, len) ∈ cx.seals) :
    Completes (exec (.unseal h o) s) (fun t => RangeFrame s c cx 1 t ∧
      (∀ e, e ∈ (t.run.ctx (s.run.cidOf c.wid)).seals ↔ e ∈ cx.seals ∧ e ≠ (base, len)) ∧
      ∀ n, (s.sys.partOf (dieOf n) = cx.part → ∀ e, e ∈ (t.run.core n).ro ↔ (s.run.core n).keepsLine base len ts e) ∧
        (s.sys.partOf (dieOf n) ≠ cx.part → (t.run.core n).ro = (s.run.core n).ro)) := by
  let cid := s.run.cidOf c.wid
  let z0 := r.onCtx cid (fun x => { x with seals := x.seals.filter (fun e => !(e == (base, len))) })
  let f : Nat → Core → Core := fun n k => if s.sys.partOf (dieOf n) = cx.part then k.dropLines base len ts else k
  let z : Run := { z0 with cores := z0.cores.mapAll f }
  have hr := rangeChecks_ranges hcx hck
  have hrcx : r.ctxs.get? cid = some cx := by rw [rangeChecks_ctxs hck, hcx]
  have hrctx : r.ctx cid = cx := rangeChecks_ctx hcx hck
  have hro (n : Nat) : (z0.core n).ro = (s.run.core n).ro := rangeChecks_ro hck n
  have hlines (n : Nat) : { z.core n with ro := (z0.core n).ro } = z0.core n :=
    Run.core_mapCores z0 (f := f) (P := fun k k' => { k' with ro := k.ro } = k) n rfl fun k => by
      simp only [f]
      split <;> rfl
  have hz0 : s.run.Ranges z0 cid cx := hr.onCtx (fun _ => rfl) (by rw [hrcx, hrctx])
  have hz : s.run.Ranges z cid cx := hz0.lines hlines
  have he : ordered false false (unsealEff o) s.sys s.run c = .ok z () := by
    rw [ordered_of_done hacq (fun h => absurd h Bool.noConfusion) (fun h => absurd h Bool.noConfusion)]
    unfold unsealEff
    have hin : cx.seals.contains (base, len) = true := List.contains_iff_mem.mpr hmem
    simp only [hck, Eff.bind, rangeChecks_cidOf hck, rangeChecks_ctx hcx hck, hin, Bool.not_true, Bool.false_eq_true, if_false]
    rfl
  refine (range_closes (k := { uses := rangeUses h o, closer := true }) hI rfl rfl rfl rfl he hz).imp ?_
  intro t ⟨hf, hc, hk⟩
  have hto (n : Nat) : (t.run.core n).ro = (z.core n).ro := (hk n).read Core.ro fun _ _ _ _ _ => rfl
  refine ⟨hf, fun e => ?_, fun n => ⟨fun hp e => ?_, fun hp => ?_⟩⟩
  · have hseals : (t.run.ctx cid).seals = cx.seals.filter (fun e => !(e == (base, len))) := by
      rw [Run.ctx, hc]
      exact congrArg Ctx.seals (Run.ctx_onCtx_of_get hrcx _)
    rw [hseals, List.mem_filter, Bool.not_eq_true', beq_eq_false_iff_ne]
  · rw [hto, ← Core.keepsLine_congr (hro n)]
    refine Run.core_mapCores z0 (f := f) (P := fun k k' => e ∈ k'.ro ↔ k.keepsLine base len ts e) n ?_ fun k => ?_
    · exact ⟨fun h => absurd h List.not_mem_nil, fun h => absurd h.1 List.not_mem_nil⟩
    · simp only [f, if_pos hp]
      exact Core.mem_dropLines k base len ts e
  · rw [hto, ← hro n]
    refine Run.core_mapCores z0 (f := f) (P := fun k k' => k'.ro = k.ro) n rfl fun k => ?_
    simp only [f, if_neg hp]

/-- UNSEAL of a range that is not sealed (R258). -/
theorem unseal_traps (hacq : (s.wv c).acquirePending = false) (hmem : (base, len) ∉ cx.seals) : ∃ tr, tr.cls = 7 ∧ tr.sub = 0x19 ∧
    exec (.unseal h o) s = .next { s with run := trapAt s.sys r c tr } := by
  refine ⟨rangeTrap c.act 0x19 base, rfl, rfl,
    issue_trap (k := { uses := rangeUses h o, closer := true }) (eff := ordered false false (unsealEff o)) hI (.inl rfl) (.inl rfl) ?_⟩
  rw [ordered_of_done hacq (fun h => absurd h Bool.noConfusion) (fun h => absurd h Bool.noConfusion)]
  unfold unsealEff
  have hout : cx.seals.contains (base, len) = false := by
    rw [← Bool.not_eq_true, List.contains_iff_mem]
    exact hmem
  simp only [hck, Eff.bind, rangeChecks_cidOf hck, rangeChecks_ctx hcx hck, hout, Bool.not_false, if_true]

/-- CACHE.roinv drops the lines of the range on this core (R259). -/
theorem cacheRoinv_drops (hacq : (s.wv c).acquirePending = false) : Completes (exec (.cacheRoinv h o) s) (fun t => RangeFrame s c cx 0 t ∧
    (t.run.ctx (s.run.cidOf c.wid)).seals = cx.seals ∧
    (∀ e, e ∈ (t.run.core (coreOf c.wid)).ro ↔ (s.run.core (coreOf c.wid)).keepsLine base len ts e) ∧
    ∀ n, n ≠ coreOf c.wid → (t.run.core n).ro = (s.run.core n).ro) := by
  let core := coreOf c.wid
  let z := r.onCore core (fun k => k.dropLines base len ts)
  have hrctx : r.ctx (s.run.cidOf c.wid) = cx := rangeChecks_ctx hcx hck
  have hlines (n : Nat) : { z.core n with ro := (r.core n).ro } = r.core n := by
    rw [Run.core_onCore]
    split
    · next hn => rw [hn]; rfl
    · rfl
  have he : ordered false false (fun y r c => (rangeChecks y r c o).bind fun r (base, len, ts) =>
      .ok (r.onCore (coreOf c.wid) (fun k => k.dropLines base len ts)) ()) s.sys s.run c = .ok z () := by
    rw [ordered_of_done hacq (fun h => absurd h Bool.noConfusion) (fun h => absurd h Bool.noConfusion), hck]
    rfl
  refine (range_moves (k := { uses := rangeUses h o }) hI rfl rfl rfl rfl he ((rangeChecks_ranges hcx hck).lines hlines)).imp ?_
  intro t ⟨hf, hc, hk⟩
  have hto (n : Nat) : (t.run.core n).ro = (z.core n).ro := (hk n).read Core.ro fun _ _ _ _ _ => rfl
  refine ⟨hf, ?_, fun e => ?_, fun n hn => ?_⟩
  · rw [Run.ctx, hc]
    exact congrArg Ctx.seals hrctx
  · rw [hto, Run.core_onCore, if_pos rfl, Core.mem_dropLines]
    exact Core.keepsLine_congr (rangeChecks_ro hck _) ..
  · rw [hto, Run.core_onCore, if_neg hn]
    exact rangeChecks_ro hck n

/-- CACHE.clean and CACHE.flush change no value (R259). -/
theorem cacheWrite_keeps (hacq : (s.wv c).acquirePending = false) (i : Instr) (hi : i = .cacheClean h o ∨ i = .cacheFlush h o) :
    Completes (exec i s) (fun t => RangeFrame s c cx 0 t ∧ (t.run.ctx (s.run.cidOf c.wid)).seals = cx.seals ∧
      ∀ n, (t.run.core n).ro = (s.run.core n).ro) := by
  have hrctx : r.ctx (s.run.cidOf c.wid) = cx := rangeChecks_ctx hcx hck
  have he : ordered false false (fun y r c => (rangeChecks y r c o).bind fun r _ => .ok r ()) s.sys s.run c = .ok r () := by
    rw [ordered_of_done hacq (fun h => absurd h Bool.noConfusion) (fun h => absurd h Bool.noConfusion), hck]
    rfl
  have hend := (range_moves (k := { uses := rangeUses h o }) hI rfl rfl rfl rfl he (rangeChecks_ranges hcx hck)).imp fun t ⟨hf, hc, hk⟩ =>
    show RangeFrame s c cx 0 t ∧ (t.run.ctx (s.run.cidOf c.wid)).seals = cx.seals ∧ ∀ n, (t.run.core n).ro = (s.run.core n).ro from
    ⟨hf, by rw [Run.ctx, hc]; exact congrArg Ctx.seals hrctx,
      fun n => ((hk n).read Core.ro fun _ _ _ _ _ => rfl).trans (rangeChecks_ro hck n)⟩
  rcases hi with rfl | rfl
  · exact hend
  · exact hend

end

section
include hcx hI

/-- A SEAL that has waited moves on once its stores have performed (R257). -/
theorem seal_resumes (hse : (s.wv c).sealing c.m = some (base, len)) (hst : s.run.storesInto (s.run.cidOf c.wid) base len = false) :
    Completes (exec (.seal h o) s) (fun t => RangeFrame s c cx 1 t ∧ t.run.ctxs = s.run.ctxs) := by
  have he : sealRun o s.sys s.run c = .ok s.run () := by
    have hse : (s.run.wave c.wid).sealing c.m = some (base, len) := hse
    unfold sealRun
    simp only [hse, hst, Bool.false_eq_true, if_false]
  exact (range_closes (k := { uses := rangeUses h o, closer := true }) hI rfl rfl rfl rfl he (.of_sameButWalks hcx (.refl _))).imp
    fun t ⟨hf, hc, _⟩ => ⟨hf, hc⟩

end

include hcx

/-- CACHE.roinvall drops every line of this core (R259). -/
theorem cacheRoinvall_drops (hI : Issues s h c []) (hacq : (s.wv c).acquirePending = false) :
    Completes (exec (.cacheRoinvall h) s) (fun t => RangeFrame s c cx 0 t ∧ (t.run.ctx (s.run.cidOf c.wid)).seals = cx.seals ∧
      (t.run.core (coreOf c.wid)).ro = [] ∧ ∀ n, n ≠ coreOf c.wid → (t.run.core n).ro = (s.run.core n).ro) := by
  let z := s.run.onCore (coreOf c.wid) (fun k => { k with ro := [] })
  have hlines (n : Nat) : { z.core n with ro := (s.run.core n).ro } = s.run.core n := by
    rw [Run.core_onCore]
    split
    · next hn => rw [hn]
    · rfl
  have he : ordered false false (fun _ r c => .ok (r.onCore (coreOf c.wid) (fun k => { k with ro := [] })) ()) s.sys s.run c = .ok z () := by
    rw [ordered_of_done hacq (fun h => absurd h Bool.noConfusion) (fun h => absurd h Bool.noConfusion)]
  refine (range_moves (k := {}) hI rfl rfl rfl rfl he ((Run.Ranges.of_sameButWalks hcx (.refl _)).lines hlines)).imp ?_
  intro t ⟨hf, hc, hk⟩
  have hto (n : Nat) : (t.run.core n).ro = (z.core n).ro := (hk n).read Core.ro fun _ _ _ _ _ => rfl
  refine ⟨hf, ?_, ?_, fun n hn => ?_⟩
  · rw [Run.ctx, hc]
    exact congrArg (fun x : Option Ctx => (x.getD {}).seals) hcx
  · rw [hto, Run.core_onCore, if_pos rfl]
  · rw [hto, Run.core_onCore, if_neg hn]

/-- PREF changes no value (R255). -/
theorem pref_keeps {m : LdMod} (hI : Issues s h c [⟨1, o.a, 1, false, h.fea, none⟩, ⟨2, o.b, 1, false, h.feb, none⟩])
    (hacq : (s.wv c).acquirePending = false) : Completes (exec (.pref h m o) s) (fun t => RangeFrame s c cx 0 t ∧
      (t.run.ctx (s.run.cidOf c.wid)).seals = cx.seals ∧ ∀ n, (t.run.core n).tlb = (s.run.core n).tlb) := by
  obtain ⟨z, hz, hl⟩ := prefEff_lines m o s.sys s.run c
  have he : ordered false false (prefEff m o) s.sys s.run c = .ok z () := by
    rw [ordered_of_done hacq (fun h => absurd h Bool.noConfusion) (fun h => absurd h Bool.noConfusion), hz]
  have hr : s.run.Ranges ({ s.run with cores := z.cores } : Run) (s.run.cidOf c.wid) cx :=
    (Run.Ranges.of_sameButWalks hcx (.refl _)).lines hl.core
  rw [hl.eq] at hr
  refine (range_moves (k := { uses := [⟨1, o.a, 1, false, h.fea, none⟩, ⟨2, o.b, 1, false, h.feb, none⟩], mem := true }) hI rfl rfl rfl rfl
    he hr).imp ?_
  intro t ⟨hf, hc, hk⟩
  refine ⟨hf, ?_, fun n => ?_⟩
  · have e := congrArg Run.ctxs hl.eq
    rw [Run.ctx, hc, ← e]
    exact congrArg (fun x : Option Ctx => (x.getD {}).seals) hcx
  · have e := congrArg Core.tlb (hl.core n)
    exact ((hk n).read Core.tlb fun _ _ _ _ _ => rfl).trans e

end

end Sys2Proof.Machine
end

section
/-! TLBI, settled with FENCE, SEAL, UNSEAL, CACHE and PREF (R260, R58). -/

namespace Sys2Proof.Machine

/-! ## What a TLBI removes -/

/-- The wave whose gated accesses have lost what a TLBI removes on the cores `here`. -/
def Run.untranslated (r : Run) (here : Nat → Bool) (gone : TlbEntry → Bool) (n : Nat) (w : Wave) : Wave :=
  if here (coreOf n) then
    { w with parts := w.parts.map (fun p => p.untranslate (fun x => gone (x.entry (r.ctx (r.block w.blk).ctx).tenant))) } else w

section
variable {r : Run} {here : Nat → Bool} {gone : TlbEntry → Bool}

theorem get_untranslate (n : Nat) : (r.untranslate here gone).waves.get? n = (r.waves.get? n).map (r.untranslated here gone n) := by
  simp only [Run.untranslate, get?_mapAll]
  rfl

/-- A wave keeps everything but what its gated accesses keep of translations. -/
theorem wave_untranslate (n : Nat) : (r.untranslate here gone).wave n = { r.wave n with parts := (r.wave n).parts.map (fun p =>
    if here (coreOf n) then p.untranslate (fun x => gone (x.entry (r.ctx (r.block (r.wave n).blk).ctx).tenant)) else p) } := by
  simp only [Run.wave, get_untranslate]
  cases r.waves.get? n with
  | none => rfl
  | some w =>
    simp only [Option.map_some, Option.getD_some, Run.untranslated]
    split
    · rfl
    · rw [List.map_id']

theorem core_untranslate (n : Nat) : { (r.untranslate here gone).core n with tlb := (r.core n).tlb } = r.core n ∧
    ∀ e, e ∈ ((r.untranslate here gone).core n).tlb ↔ e ∈ (r.core n).tlb ∧ ¬(here n = true ∧ gone e = true) := by
  simp only [Run.core, Run.untranslate, get?_mapAll]
  cases r.cores.get? n with
  | none => exact ⟨rfl, fun e => ⟨fun h => absurd h List.not_mem_nil, fun h => absurd h.1 List.not_mem_nil⟩⟩
  | some k =>
    simp only [Option.map_some, Option.getD_some]
    cases hn : here n with
    | true => exact ⟨rfl, fun e => by simp⟩
    | false => exact ⟨rfl, fun e => by simp⟩

/-- A part that loses translations it kept differs in what it waits for alone. -/
theorem Part.untranslate_park (p : Part) (g : Xlat → Bool) : ∃ k, p.untranslate g = { p with park := k } := by
  unfold Part.untranslate
  split
  · split
    · exact ⟨_, rfl⟩
    · exact ⟨p.park, rfl⟩
  · exact ⟨p.park, rfl⟩

end

/-- What a TLBI leaves that removes, on the cores `here`, the translations `gone`. -/
def TlbiFrame (s : State) (c : Iss) (here : Nat → Bool) (gone : TlbEntry → Bool) (t : State) : Prop :=
  let cut (n : Nat) (p : Part) : Part := if here (coreOf n) then
    p.untranslate (fun z => gone (z.entry (s.run.ctx (s.run.block (s.run.wave n).blk).ctx).tenant)) else p
  t.sys = s.sys ∧ { t.run with waves := s.run.waves, cores := s.run.cores } = s.run ∧
  (∀ n, n ≠ c.wid → t.run.wave n = { s.run.wave n with parts := (s.run.wave n).parts.map (cut n) }) ∧
  RegsKept (s.wv c) (t.wv c) c.act [] ∧ RestKept (s.wv c) (t.wv c) ∧
  (t.wv c).parts = (s.wv c).parts.map (fun p => if (p.mask &&& c.m) ≠ 0 then { p with pc := p.pc + 12, park := .run } else cut c.wid p) ∧
  ∀ n, Core.sameButCounts { t.run.core n with tlb := (s.run.core n).tlb } (s.run.core n) ∧
    ∀ e, e ∈ (t.run.core n).tlb ↔ e ∈ (s.run.core n).tlb ∧ ¬(here n = true ∧ gone e = true)

/-- TLBI in supervisor state, with no translated access of the partition under way beyond the device (R260). -/
theorem tlbi_completes {s : State} {h : Hd} {c : Iss} {us : List Use} {eff : Sys → Run → Iss → Eff Unit} {here : Nat → Bool}
    {gone : TlbEntry → Bool} (hI : Issues s h c us) (hp : (s.wv c).priv = true)
    (he : eff s.sys s.run c = .ok (s.run.untranslate here gone) ()) :
    Completes (issue s h { uses := us, priv := true } eff) (TlbiFrame s c here gone) := by
  let cut (n : Nat) (p : Part) : Part := if here (coreOf n) then
    p.untranslate (fun z => gone (z.entry (s.run.ctx (s.run.block (s.run.wave n).blk).ctx).tenant)) else p
  obtain ⟨w, hw, -, hww⟩ := Run.issuer_wave _ _ _ hI.1
  let z := s.run.untranslate here gone
  have hzw : z.waves.get? c.wid = some (s.run.untranslated here gone c.wid w) := by rw [get_untranslate, hw]; rfl
  have hself : z.Turns z c.wid (z.wave c.wid) := by
    rw [Run.get_wave hzw]
    exact .self hzw
  have ht := hself.retire h { uses := us, priv := true }
  have hzc : z.wave c.wid = { s.wv c with parts := (s.wv c).parts.map (cut c.wid) } := wave_untranslate c.wid
  have hcore := Run.core_retire_same z c h { uses := us, priv := true }
  have hwv : State.wv { s with run := z.retire c h { uses := us, priv := true } } c =
      Wave.retired z.clk c h { uses := us, priv := true } (z.wave c.wid) := ht.wave_eq
  refine ⟨_, issue_ok' (k := { uses := us, priv := true }) hI (.inr hp) (.inl rfl) rfl he, rfl, ?_, fun n hn => ?_, ?_, ?_, ?_, fun n => ⟨?_, fun e => ?_⟩⟩
  · have e := congrArg (fun x : Run => { x with waves := s.run.waves, cores := s.run.cores }) ht.frame
    exact e
  · exact (ht.others n hn).trans (wave_untranslate n)
  · have hr : RegsKept (s.wv c) (z.wave c.wid) c.act [] := by rw [hzc]; exact RegsKept.refl _ _ _
    rw [hwv]
    exact hr.retired
  · have hk : RestKept (s.wv c) (z.wave c.wid) := by rw [hzc]; rfl
    rw [hwv]
    exact hk.retired rfl
  · rw [hwv, Wave.retired_parts _ _ _ _ _ rfl rfl, Wave.advance_parts, Wave.onParts_parts, hzc]
    rw [List.map_map]
    refine List.map_congr_left fun p _ => ?_
    have hk : ∃ k, cut c.wid p = { p with park := k } := by
      simp only [cut]
      split
      · exact Part.untranslate_park p _
      · exact ⟨p.park, rfl⟩
    have hmove (q : Part) (hq : ∃ k, q = { p with park := k }) :
        (if (q.mask &&& c.m) ≠ 0 then { q with pc := q.pc + 12, park := .run } else q) =
        if (p.mask &&& c.m) ≠ 0 then { p with pc := p.pc + 12, park := .run } else q := by
      obtain ⟨k, rfl⟩ := hq
      rfl
    exact hmove _ hk
  · have e := congrArg (fun k : Core => { k with
      tlb := (s.run.core n).tlb, nv := (s.run.core n).nv, nm := (s.run.core n).nm, vAt := (s.run.core n).vAt,
      mAt := (s.run.core n).mAt }) (hcore n)
    have f := congrArg (fun k : Core => { k with
      nv := (s.run.core n).nv, nm := (s.run.core n).nm, vAt := (s.run.core n).vAt, mAt := (s.run.core n).mAt })
      (core_untranslate (r := s.run) (here := here) (gone := gone) n).1
    exact e.trans f
  · rw [(hcore n).read Core.tlb fun _ _ _ _ _ => rfl]
    exact (core_untranslate n).2 e

/-- The cores that a TLBI names: its own, or every core of the partition. -/
def tlbiScope (s : State) (c : Iss) (dev : Bool) (n : Nat) : Bool :=
  if dev then s.sys.partOf (dieOf n) = (s.run.ctx (s.run.cidOf c.wid)).part else n = coreOf c.wid

/-- A TLBI instruction, by the translations that its operand names for a tenant. -/
theorem tlbi_settled {s : State} {h : Hd} {c : Iss} {dev : Bool} {i : Instr} {us : List Use} {eff : Sys → Run → Iss → Eff Unit}
    {gone : Nat → TlbEntry → Bool} (hx : exec i s = issue s h { uses := us, priv := true } eff)
    (he : eff s.sys s.run c = tlbiEff dev gone s.sys s.run c) (hI : Issues s h c us) :
    ((s.wv c).priv = false → Traps s i c { cls := 3, sub := 4, mask := c.m }) ∧
    ((s.wv c).priv = true → s.run.farBusy (s.run.ctx (s.run.cidOf c.wid)).part = false →
      Completes (exec i s) (TlbiFrame s c (tlbiScope s c dev) (gone (s.run.ctx (s.run.cidOf c.wid)).tenant))) := by
  refine ⟨fun hp => hx.trans (issue_unprivileged hI.1 rfl hp), fun hp hb => ?_⟩
  rw [hx]
  refine tlbi_completes hI hp (he.trans ?_)
  unfold tlbiEff
  simp only [hb, Bool.false_eq_true, if_false]
  rfl

/-- Settles O33: FENCE by the order it waits in, SEAL, UNSEAL and CACHE by what the checks of a range leave and the one change behind them,
TLBI by what it removes on the cores it names. -/
theorem orderingAndCaches : Obligations.OrderingAndCaches := by
  unfold Obligations.OrderingAndCaches
  refine ⟨?_, ?_, ?_⟩
  · intro s h m c hI hacq
    exact ⟨fence_waits hI hacq, fun hdone => ⟨fun sub a priv hs hm => fence_traps hI hacq hdone hs hm, fence_moves hI hacq hdone⟩⟩
  · intro s h o c cx cid keeps hcx
    refine ⟨fun r base len ts hI hck => ?_, fun base len hI hse hst => seal_resumes hcx hI hse hst, cacheRoinvall_drops hcx,
      fun m hI hacq => pref_keeps hcx hI hacq⟩
    exact ⟨seal_installs hcx hI hck, fun hse hq hov => seal_traps hcx hI hck hse hq (.inl ⟨hov, rfl⟩),
      fun hse hq hov hlen => seal_traps hcx hI hck hse hq (.inr ⟨hov, hlen, rfl⟩), unseal_removes hcx hI hck, unseal_traps hcx hI hck,
      cacheRoinv_drops hcx hI hck, fun hacq i hi => cacheWrite_keeps hcx hI hck hacq i hi⟩
  · intro s h dev o c k
    match k with
    | 0 =>
      exact tlbi_settled (i := .tlbiVa h dev o) (gone := fun t e => e.tenant == t && e.va ≤ (s.ssrc c o.a).toNat && (s.ssrc c o.a).toNat < e.va + e.size) rfl rfl
    | 1 => exact tlbi_settled (i := .tlbiTenant h dev o) (gone := fun _ e => e.tenant == (s.ssrc c o.a).toNat) rfl rfl
    | 2 => exact tlbi_settled (i := .tlbiAll h dev) (gone := fun _ _ => true) rfl rfl

end Sys2Proof.Machine
end

section
/-! TFMT, TBIND, TFREE, TORF and TQRY, settled (R353, R381 to R384, R388). -/

namespace Sys2Proof.Machine

/-! ## Effects on the wave, its block and the cores -/

/-- The run `t` differs from `r` in the cores, in the waves by wave `wid` alone, which is now `u`, and in the blocks by block `blk` alone,
which is now `x`. -/
structure Run.Streams (r t : Run) (wid : Nat) (u : Wave) (blk : Nat) (x : Block) : Prop where
  frame : ({ t with waves := r.waves, cores := r.cores, blocks := r.blocks } : Run) = r
  wave : t.waves.get? wid = some u
  others : ∀ n, n ≠ wid → t.wave n = r.wave n
  block : t.blocks.get? blk = some x
  blocks : ∀ k, k ≠ blk → t.block k = r.block k

namespace Run.Streams
variable {r t : Run} {wid blk : Nat} {u : Wave} {x : Block}

theorem onWave (h : r.Streams t wid u blk x) (f : Wave → Wave) : r.Streams (t.onWave wid f) wid (f u) blk x where
  frame := h.frame
  wave := by rw [Run.get_onWave, if_pos rfl, h.wave]; rfl
  others n hn := (Run.wave_onWave_of_ne t wid n f hn).trans (h.others n hn)
  block := h.block
  blocks := h.blocks

theorem onBlock (h : r.Streams t wid u blk x) (f : Block → Block) : r.Streams (t.onBlock blk f) wid u blk (f x) where
  frame := h.frame
  wave := h.wave
  others := h.others
  block := by rw [Run.onBlock, Tbl.get?_upd, if_pos rfl, h.block]; rfl
  blocks k hk := (Run.block_onBlock_of_ne t blk k f hk).trans (h.blocks k hk)

theorem onCore (h : r.Streams t wid u blk x) (n : Nat) (f : Core → Core) : r.Streams (t.onCore n f) wid u blk x :=
  ⟨h.frame, h.wave, h.others, h.block, h.blocks⟩

theorem wave_eq (h : r.Streams t wid u blk x) : t.wave wid = u := Run.get_wave h.wave

theorem block_eq (h : r.Streams t wid u blk x) : t.block blk = x := by rw [Run.block, h.block]; rfl

theorem clk (h : r.Streams t wid u blk x) : t.clk = r.clk := by
  have e := congrArg Run.clk h.frame
  exact e

theorem retire {c : Iss} (h : r.Streams t c.wid u blk x) (hd : Hd) (k : How) :
    r.Streams (t.retire c hd k) c.wid (Wave.retired r.clk c hd k u) blk x where
  frame := by
    have e := congrArg (fun z : Run => { z with waves := r.waves, cores := r.cores, blocks := r.blocks }) (Run.retire_frame t c hd k)
    exact e.trans h.frame
  wave := by rw [Run.get_retire, if_pos rfl, h.wave, h.clk]; rfl
  others n hn := (Run.wave_retire_of_ne t c hd k n hn).trans (h.others n hn)
  block := by
    have e := congrArg Run.blocks (Run.retire_frame t c hd k)
    exact (congrArg (fun bs : Tbl Block => bs.get? blk) e).trans h.block
  blocks n hn := by
    have e := congrArg Run.blocks (Run.retire_frame t c hd k)
    exact (congrArg (fun bs : Tbl Block => (bs.get? n).getD { launch := 0, ctx := 0, nbh := 0, index := 0 }) e).trans (h.blocks n hn)

end Run.Streams

/-- The run before an effect as one that only its own issue has touched. -/
theorem streams_self {s : State} {h : Hd} {c : Iss} {b : Block} (hi : s.run.issuer h = some c) (hb : s.run.blocks.get? (s.wv c).blk = some b) :
    s.run.Streams s.run c.wid (s.wv c) (s.wv c).blk b := by
  obtain ⟨w, hw, -, hww⟩ := Run.issuer_wave _ _ _ hi
  have hwv : s.wv c = w := hww
  rw [hwv] at hb ⊢
  exact ⟨rfl, hw, fun _ _ => rfl, hb, fun _ _ => rfl⟩

/-- What the statements about the tile instructions say is left of everything but the wave, its block and the cores. -/
def TileFrame (s t : State) (c : Iss) : Prop :=
  t.sys = s.sys ∧ { t.run with waves := s.run.waves, cores := s.run.cores, blocks := s.run.blocks } = s.run ∧
  (∀ k, k ≠ (s.wv c).blk → t.run.block k = s.run.block k) ∧ (∀ k, k ≠ c.wid → t.run.wave k = s.run.wave k) ∧ MovedOn s t c

/-- The end of a tile instruction whose effect changes the wave's registers, its block and the cores. -/
theorem issue_streams {s : State} {h : Hd} {c : Iss} {eff : Sys → Run → Iss → Eff Unit} {r : Run} {u : Wave} {x : Block}
    (hI : Issues s h c []) (he : eff s.sys s.run c = .ok r ()) (hr : s.run.Streams r c.wid u (s.wv c).blk x)
    (hp : u.parts = (s.wv c).parts) :
    Completes (issue s h {} eff) (fun t => TileFrame s t c ∧ t.wv c = Wave.retired s.run.clk c h {} u ∧ t.run.block (s.wv c).blk = x ∧
      ∀ n, (t.run.core n).sameButCounts (r.core n)) := by
  have ht := hr.retire h {}
  have hwv : State.wv { s with run := r.retire c h {} } c = Wave.retired s.run.clk c h {} u := ht.wave_eq
  refine ⟨_, issue_ok' (k := {}) hI (.inl rfl) (.inl rfl) rfl he, ⟨rfl, ht.frame, ht.blocks, ht.others, ?_⟩, hwv, ht.block_eq,
    Run.core_retire_same r c h {}⟩
  show (State.wv { s with run := r.retire c h {} } c).parts = _
  rw [hwv, Wave.retired_parts _ _ _ _ _ rfl rfl, Wave.advance_parts, Wave.onParts_parts, hp]

/-- Where the wave keeps its registers, so does the instruction's end. -/
theorem tileKept {s t : State} {h : Hd} {c : Iss} {u : Wave} {ds : List (Opd × Nat)} (ht : t.wv c = Wave.retired s.run.clk c h {} u)
    (hr : RegsKept (s.wv c) u c.act ds) (hk : RestKept (s.wv c) u) : RegsKept (s.wv c) (t.wv c) c.act ds ∧ RestKept (s.wv c) (t.wv c) := by
  rw [ht]
  exact ⟨hr.retired, hk.retired rfl⟩

/-! ## TFMT -/

theorem fmtBlock_fields (m : TfmtMod) (n : Nat) (a : Word64) : let f := fmtBlock m n a
    bits f 0 4 = m.fmt.code.toNat ∧ bits f 4 8 = n % 256 ∧ f.getLsbD 12 = m.sp ∧ bits f 32 64 = a.toNat := by
  intro f
  have hc : m.fmt.code.toNat < 16 := m.fmt.code.isLt
  have ha : a.toNat < 2 ^ 64 := a.isLt
  have hn : n % 256 < 256 := Nat.mod_lt _ (by omega)
  let sp : Nat := if m.sp then 2 ^ 12 else 0
  have hsp : sp ≤ 2 ^ 12 := by simp only [sp]; split <;> omega
  have hsp2 : sp / 2 ^ 12 = m.sp.toNat ∧ sp % 2 ^ 12 = 0 := by simp only [sp]; cases m.sp <;> exact ⟨rfl, rfl⟩
  have hv : m.fmt.code.toNat + n % 256 * 2 ^ 4 + sp + a.toNat * 2 ^ 32 < 2 ^ 96 := by omega
  have hf : f = BitVec.ofNat 96 (m.fmt.code.toNat + n % 256 * 2 ^ 4 + sp + a.toNat * 2 ^ 32) := rfl
  have hbit : bits f 12 1 = m.sp.toNat := by
    have h1 : m.sp.toNat < 2 := by cases m.sp <;> decide
    rw [hf, bits_ofNat _ _ _ _ hv]
    omega
  refine ⟨?_, ?_, ?_, ?_⟩
  · rw [hf, bits_ofNat _ _ _ _ hv]; omega
  · rw [hf, bits_ofNat _ _ _ _ hv]; omega
  · have e := testBit_bits f 12 1 0
    rw [hbit] at e
    have e : m.sp.toNat.testBit 0 = f.getLsbD 12 := by simpa using e
    rw [← e]
    cases m.sp <;> rfl
  · rw [hf, bits_ofNat _ _ _ _ hv]; omega

section
variable {s : State} {h : Hd} {o : Ops} {c : Iss} {b : Block} (hI : Issues s h c []) (hb : s.run.blocks.get? (s.wv c).blk = some b)
include hI hb

theorem tfmt_completes (m : TfmtMod) : Completes (exec (.tfmt h m o) s) (fun t => TileFrame s t c ∧
    RegsKept (s.wv c) (t.wv c) c.act [] ∧ RestKept (s.wv c) (t.wv c) ∧ { t.run.block (s.wv c).blk with fmt := b.fmt } = b ∧
    (t.run.block (s.wv c).blk).fmt = fmtBlock m (s.run.rdScalar c.wid o.b 0 0).toNat (s.run.rdScalar c.wid o.a 0 0)) := by
  refine (issue_streams (eff := tfmtEff m o) hI rfl ((streams_self hI.1 hb).onBlock _) rfl).imp ?_
  intro t ⟨hf, hu, hx, _⟩
  obtain ⟨hr, hk⟩ := tileKept hu (RegsKept.refl _ _ _) rfl
  refine ⟨hf, hr, hk, ?_, ?_⟩
  · rw [hx]
  · rw [hx]
    rfl

end

/-! ## TBIND -/

theorem root_eq {s : State} {c : Iss} {b : Block} (hb : s.run.blocks.get? (s.wv c).blk = some b) {o : Opd} {e : Nat × Clause} (he : b.root o = some e) : (s.run.block (s.run.wave c.wid).blk).root o = some e := by
  rw [Run.block, show s.run.blocks.get? (s.run.wave c.wid).blk = some b from hb]
  exact he

/-- The handle an operand names is of a clause. -/
theorem withRoot_of_root {o : Opd} {e : Nat × Clause} {k : Nat × Clause → Run → Eff Unit} {r : Run} {c : Iss}
    (he : (r.block (r.wave c.wid).blk).root o = some e) : withRoot o k r c = k e r := by
  simp only [withRoot, he]

/-- The address that TBIND takes: bits 4 to 0 zero, and of a scratchpad address 32 bits. -/
def homeAddr (sp : Bool) (x : Word64) : Word64 := if sp then ((x &&& ~~~31).setWidth 32).setWidth 64 else x &&& ~~~31

theorem getLsbD_homeAddr (sp : Bool) (x : Word64) (n : Nat) (hn : n < 64) :
    (homeAddr sp x).getLsbD n = (decide (5 ≤ n ∧ (sp = true → n < 32)) && x.getLsbD n) := by
  have h31 : (~~~(31 : Word64)).getLsbD n = decide (5 ≤ n) := by
    have : ∀ m : Fin 64, (~~~(31 : Word64)).getLsbD m = decide (5 ≤ m.val) := by decide
    exact this ⟨n, hn⟩
  cases sp with
  | false =>
    simp only [homeAddr, Bool.false_eq_true, if_false, BitVec.getLsbD_and, h31, false_implies, and_true]
    exact Bool.and_comm _ _
  | true =>
    have h32 : decide (5 ≤ n ∧ n < 32) = (decide (5 ≤ n) && decide (n < 32)) := by simp
    simp only [homeAddr, if_true, BitVec.getLsbD_setWidth, BitVec.getLsbD_and, h31, hn, decide_true, Bool.true_and, true_implies, h32]
    cases decide (n < 32) <;> simp [Bool.and_comm]

/-- What no demand reaches keeps no batch waiting. -/
theorem Block.reaches_none {b : Block} {n : Nat} (hd : ∀ d ∈ b.demands, b.reaches n d = false) : b.openDemands.any (b.reaches n) = false ∧
    b.incomplete.filter (fun x => x.demands.any (b.reaches n)) = [] := by
  have hopen : ∀ d ∈ b.openDemands, b.reaches n d = false := fun d hm => hd d (List.mem_append_left _ hm)
  have hbat : ∀ x ∈ b.batches, ∀ d ∈ x.demands, b.reaches n d = false := fun x hx d hm =>
    hd d (List.mem_append_right _ (List.mem_flatMap.mpr ⟨x, List.mem_append_right _ hx, hm⟩))
  refine ⟨List.any_eq_false.mpr fun d hm => by rw [hopen d hm]; exact Bool.false_ne_true, ?_⟩
  rw [List.filter_eq_nil_iff]
  intro x hx
  rw [Bool.not_eq_true, List.any_eq_false]
  intro d hm
  rw [hbat x hx d hm]
  exact Bool.false_ne_true

/-- Charging ranges changes the watch ranges of a block alone. -/
theorem Run.Streams.watchOver {r t : Run} {wid blk : Nat} {u : Wave} {x : Block} (h : r.Streams t wid u blk x) (who : Nat)
    (rs : List (Option Nat × Nat × Nat)) :
    ∃ ws, r.Streams (t.watchOver blk who rs) wid u blk { x with watch := ws } := by
  induction rs generalizing t x with
  | nil => exact ⟨x.watch, h⟩
  | cons e rs ih =>
    obtain ⟨ws, hs⟩ := ih (h.onBlock (fun b => b.charge who e.1 e.2.1 e.2.2))
    exact ⟨ws, hs⟩

section
variable {s : State} {h : Hd} {o : Ops} {c : Iss} {b : Block} (hI : Issues s h c []) (hb : s.run.blocks.get? (s.wv c).blk = some b)
include hI hb

theorem tbind_completes (sp : Bool) {e : Nat × Clause} (hr : b.root o.d = some e) (he : b.clauses.get? e.1 = some e.2) :
    Completes (exec (.tbind h sp o) s) (fun t => TileFrame s t c ∧ RegsKept (s.wv c) (t.wv c) c.act [] ∧ RestKept (s.wv c) (t.wv c) ∧
      let a := homeAddr sp (s.run.rdScalar c.wid o.a 0 0)
      (t.run.block (s.wv c).blk).clauses.get? e.1 = some { e.2 with home := some (sp, a) } ∧
      (sp = false → ∃ k, (t.run.block (s.wv c).blk).watch.get? k = some ⟨none, a.toNat, a.toNat + homeBytes e.2, [128 + e.1]⟩)) := by
  let a := homeAddr sp (s.run.rdScalar c.wid o.a 0 0)
  let bound : Block → Block := fun b =>
    ({ b with clauses := b.clauses.upd e.1 (fun x => { x with home := some (sp, a) }) } : Block).uncharge (128 + e.1)
  have hr' : (s.run.block (s.run.wave c.wid).blk).root o.d = some e := root_eq hb hr
  have h0 := (streams_self hI.1 hb).onBlock bound
  let z := s.run.onBlock (s.wv c).blk bound
  obtain ⟨ws, hs⟩ := h0.watchOver (128 + e.1) (z.byteRange (s.wv c).blk sp a.toNat (homeBytes e.2))
  have heff : tbindEff sp o s.sys s.run c =
      .ok (z.watchOver (s.wv c).blk (128 + e.1) (z.byteRange (s.wv c).blk sp a.toNat (homeBytes e.2))) () := by
    unfold tbindEff
    rw [withRoot_of_root hr']
    rfl
  refine (issue_streams (eff := tbindEff sp o) hI heff hs rfl).imp ?_
  intro t ⟨hf, hu, hx, _⟩
  obtain ⟨hr, hk⟩ := tileKept hu (RegsKept.refl _ _ _) rfl
  refine ⟨hf, hr, hk, ?_, fun hsp => ?_⟩
  · rw [hx]
    have hc : (bound b).clauses.get? e.1 = some { e.2 with home := some (sp, a) } := by
      show (b.clauses.upd e.1 _).get? e.1 = _
      rw [Tbl.get?_upd, if_pos rfl, he]
      rfl
    exact hc
  · subst hsp
    have h1 := (h0.onBlock (fun b => b.charge (128 + e.1) none a.toNat (a.toNat + homeBytes e.2))).block
    have hw := hs.block.symm.trans h1
    have hw : ws = ((bound b).charge (128 + e.1) none a.toNat (a.toNat + homeBytes e.2)).watch := congrArg Block.watch (Option.some.inj hw)
    rw [hx]
    refine ⟨_, (congrArg (fun w : Tbl Watch => w.get? _) hw).trans ((Tbl.get?_put _ _ _ _).trans (if_pos rfl))⟩

/-! ## TFREE -/

theorem tfree_completes {e : Nat × Clause} (hr : b.root o.a = some e) : Completes (exec (.tfree h o) s) (fun t => TileFrame s t c ∧
    RegsKept (s.wv c) (t.wv c) c.act [] ∧ RestKept (s.wv c) (t.wv c) ∧
    (t.run.block (s.wv c).blk).handles = b.handles.del (handleNum o.a)) := by
  have heff : tfreeEff o s.sys s.run c = .ok (s.run.onBlock (s.wv c).blk
      (fun b => ({ b with handles := b.handles.del (handleNum o.a) } : Block).reclaim)) () := by
    unfold tfreeEff
    rw [withRoot_of_root (root_eq hb hr)]
  refine (issue_streams (eff := tfreeEff o) hI heff ((streams_self hI.1 hb).onBlock _) rfl).imp ?_
  intro t ⟨hf, hu, hx, _⟩
  obtain ⟨hr, hk⟩ := tileKept hu (RegsKept.refl _ _ _) rfl
  exact ⟨hf, hr, hk, by rw [hx]; rfl⟩

omit hb in
theorem tfreeAcc_idle {n : BitVec 4} (ha : o.a = .c n) (hh : (s.run.accTok ((s.wv c).blk / 4) n.toNat).holder ≠ .stream (s.wv c).blk) :
    Does s (.tfreeAcc h o) c h {} s.run := by
  refine issue_ok (eff := tfreeAccEff o) hI (.inl rfl) (.inl rfl) ?_
  unfold tfreeAccEff
  simp only [ha, accNum]
  exact if_pos hh

theorem tfreeAcc_frees {n : BitVec 4} (ha : o.a = .c n) (hh : (s.run.accTok ((s.wv c).blk / 4) n.toNat).holder = .stream (s.wv c).blk)
    (hq : (s.run.accTok ((s.wv c).blk / 4) n.toNat).queue = []) (hd : ∀ d ∈ b.demands, b.reaches n.toNat d = false) :
    Completes (exec (.tfreeAcc h o) s) (fun t => TileFrame s t c ∧ RestKept (s.wv c) (t.wv c) ∧ t.run.block (s.wv c).blk = b ∧
      (t.run.accTok ((s.wv c).blk / 4) n.toNat).holder = .free) := by
  let core := (s.wv c).blk / 4
  obtain ⟨hopen, hbat⟩ := Block.reaches_none hd
  have hblk : s.run.block (s.run.wave c.wid).blk = b := by
    rw [Run.block, show s.run.blocks.get? (s.run.wave c.wid).blk = some b from hb]
    rfl
  have hh' : (s.run.accTok ((s.run.wave c.wid).blk / 4) n.toNat).holder = .stream (s.run.wave c.wid).blk := hh
  have heff : tfreeAccEff o s.sys s.run c = .ok (accRelease s.run core n.toNat) () := by
    unfold tfreeAccEff
    simp only [ha, accNum, hh', hblk, hopen, hbat, ne_eq, not_true_eq_false, if_false, Bool.false_and, Bool.false_eq_true, List.map_nil]
    rfl
  rw [accRelease_eq hq] at heff
  refine (issue_streams (eff := tfreeAccEff o) hI heff ((streams_self hI.1 hb).onCore _ _) rfl).imp ?_
  intro t ⟨hf, hu, hx, hc⟩
  obtain ⟨-, hk⟩ := tileKept hu (RegsKept.refl _ _ []) rfl
  refine ⟨hf, hk, hx, ?_⟩
  have htok : t.run.accTok core n.toNat = (s.run.onAccTok core n.toNat (fun t => { t with holder := .free })).accTok core n.toNat :=
    (hc core).read (fun k => (k.accTok.get? n.toNat).getD {}) fun _ _ _ _ _ => rfl
  rw [htok, Run.accTok_onAccTok, if_pos rfl]

/-! ## TORF and TQRY -/

end

theorem torf_orders {s : State} {h : Hd} {c : Iss} (hI : Issues s h c []) {n : BitVec 4}
    (hn : n.toNat < (s.run.launchOf (s.wv c)).info.nb) : Does s (.torf h n) c h {} (s.run.orderRecent (s.wv c).blk n.toNat) :=
  issue_ok (k := {}) hI (.inl rfl) (.inl rfl) (if_neg (Nat.not_le.mpr hn))

theorem torf_traps {s : State} {h : Hd} {c : Iss} (hI : Issues s h c []) {n : BitVec 4}
    (hn : (s.run.launchOf (s.wv c)).info.nb ≤ n.toNat) : Traps s (.torf h n) c (syncTrap c.act 7) :=
  issue_trap (k := {}) hI (.inl rfl) (.inl rfl) (if_pos hn)

theorem tqry_completes {s : State} {h : Hd} {o : Ops} {c : Iss} (hI : Issues s h c []) (k : BitVec 3) {d : BitVec 7} (hd : o.d = .s d) :
    Completes (exec (.tqry h k o) s) (fun t => RegFrame s t c [(o.d, 1)] ∧ MovedOn s t c ∧
      (t.wv c).sReg d.toNat = BitVec.ofNat 64 (tqryWord s.run (s.wv c).blk k.toNat o.a)) := by
  let x := BitVec.ofNat 64 (tqryWord s.run (s.wv c).blk k.toNat o.a)
  refine (issue_regs (us := []) (vec := false) (f := fun w => w.setS (scalarNum o.d).toNat x) (ds := [(o.d, 1)]) hI rfl rfl ?_ rfl).imp ?_
  · rw [hd]
    exact regsKept_setS _ d x _
  · intro t ⟨hf, hm, hu⟩
    refine ⟨hf, hm, ?_⟩
    rw [hu, Wave.retired_read (fun w => w.sReg d.toNat) (fun _ _ _ _ _ => rfl), hd]
    exact (Wave.sReg_setS _ _ _ _).trans (if_pos rfl)

/-- The words about the block, and that of a handle which names nothing. -/
theorem tqryWord_block (r : Run) (bid : Nat) (o : Opd) : let b := r.block bid
    tqryWord r bid 5 o = (96 - b.clauses.length) + (64 - b.handles.length) * 2 ^ 8 + b.batches.length * 2 ^ 16 + (32 - b.watch.length) * 2 ^ 24 ∧
    tqryWord r bid 7 o = b.lastDone ∧ ∀ k, k < 5 → b.root o = none → tqryWord r bid k o = 0 := by
  refine ⟨by unfold tqryWord; rfl, by unfold tqryWord; rfl, fun k hk hr => ?_⟩
  unfold tqryWord
  simp only [hr]
  match k, hk with
  | 0, _ | 1, _ | 2, _ | 3, _ | 4, _ => rfl

/-- The words about the clause that a handle names. -/
theorem tqryWord_clause (r : Run) (bid : Nat) (o : Opd) {e : Nat × Clause} (he : (r.block bid).root o = some e) :
    tqryWord r bid 0 o = e.2.rows + e.2.cols * 2 ^ 9 + e.2.ty.code.toNat * 2 ^ 18 + (if e.2.op = .leaf then 2 ^ 22 else 0) +
      (if e.2.home.isSome then 2 ^ 23 else 0) + e.1 * 2 ^ 24 + 2 ^ 31 ∧
    (∀ k, 1 ≤ k → k ≤ 3 → tqryWord r bid k o = bits e.2.fmt (32 * (k - 1)) 32) ∧ tqryWord r bid 4 o = e.2.origin.toNat := by
  refine ⟨by unfold tqryWord; simp only [he], fun k h1 h3 => ?_, by unfold tqryWord; simp only [he]⟩
  unfold tqryWord
  simp only [he]
  match k, h1, h3 with
  | 1, _, _ | 2, _, _ | 3, _, _ => rfl

/-- Settles O41: each instruction by what its effect leaves of the block, TQRY by the word it reads. -/
theorem tileBookkeeping : Obligations.TileBookkeeping := by
  unfold Obligations.TileBookkeeping
  intro s h o c b bid x kept hI hb
  have hkept {t : State} (hf : TileFrame s t c) (hk : RestKept (s.wv c) (t.wv c)) : kept t := by
    obtain ⟨hsys, hrun, hblocks, -, hmoved⟩ := hf
    exact ⟨hsys, hrun, hblocks, hmoved, hk⟩
  have hblk : s.run.block (s.wv c).blk = b := by rw [Run.block, hb]; rfl
  refine ⟨fun m => ?_, fun sp e hr he => ?_, fun e hr => ?_, fun n ha => ⟨tfreeAcc_idle hI ha, fun hh hq hd => ?_⟩,
    fun n => ⟨torf_orders hI, fun hn => ⟨_, rfl, rfl, torf_traps hI hn⟩⟩, fun k d hd => ?_⟩
  · refine (tfmt_completes hI hb m).imp fun t ⟨hf, hr, hk, hx, hfmt⟩ => ⟨hkept hf hk, hr, hx, ?_⟩
    rw [hfmt]
    exact fmtBlock_fields m _ _
  · exact (tbind_completes hI hb sp hr he).imp fun t ⟨hf, hr, hk, hc, hw⟩ =>
      ⟨hkept hf hk, hr, homeAddr sp (x o.a), fun n hn => getLsbD_homeAddr sp (x o.a) n hn, hc, hw⟩
  · refine (tfree_completes hI hb hr).imp fun t ⟨hf, hr, hk, hx⟩ => ⟨hkept hf hk, hr, ?_, fun k hk => ?_⟩
    · rw [hx, Tbl.get?_del, if_pos rfl]
    · rw [hx, Tbl.get?_del, if_neg hk]
  · exact (tfreeAcc_frees hI hb ha hh hq hd).imp fun t ⟨hf, hk, hx, hfree⟩ => ⟨hkept hf hk, hx, hfree⟩
  · refine (tqry_completes hI k hd).imp fun t ⟨hf, hm, hz⟩ => ⟨hf, hm, ?_⟩
    obtain ⟨h5, h7, hnone⟩ := tqryWord_block s.run (s.wv c).blk o.a
    simp only [hblk] at h5 h7 hnone
    simp only [hz]
    refine ⟨?_, ?_, fun hk hr => ?_, fun e he => ?_⟩
    · rintro rfl
      exact congrArg (BitVec.ofNat 64) h5
    · rintro rfl
      exact congrArg (BitVec.ofNat 64) h7
    · exact congrArg (BitVec.ofNat 64) (hnone k.toNat hk hr)
    · obtain ⟨h0, h123, h4⟩ := tqryWord_clause s.run (s.wv c).blk o.a (e := e) (by rw [hblk]; exact he)
      refine ⟨?_, fun h1 h3 => congrArg (BitVec.ofNat 64) (h123 k.toNat h1 h3), ?_⟩
      · rintro rfl
        exact congrArg (BitVec.ofNat 64) h0
      · rintro rfl
        exact (congrArg (BitVec.ofNat 64) h4).trans (by simp)

end Sys2Proof.Machine
end

section
/-! TFORCE, TSTORE and TWAIT, settled (R370, R385 to R387). -/

namespace Sys2Proof.Machine

/-! ## Strides and groups -/

theorem sx_bits (x : Word64) (lo : Nat) : sx 32 (bits x lo 32) = (x.extractLsb' lo 32).toInt := by
  unfold sx bits
  rw [BitVec.ofNat_toNat, BitVec.setWidth_eq]

theorem groupOk_of_fits {n : Nat} {o : Opd} (h : pairPast true n o = none) (k : Run → Eff Unit) (r : Run) : groupOk n o k r = k r := by
  simp only [groupOk, h]

/-- A stream that holds the tokens it needs goes on at once. -/
theorem streamTokens_of_held {bid : Nat} {k : Run → Eff Unit} {ns : List Nat} {r : Run}
    (h : ∀ n ∈ ns, (r.accTok (bid / 4) n).holder = .stream bid) : streamTokens bid k ns r = k r := by
  induction ns with
  | nil => rfl
  | cons n ns ih =>
    have hn : ((r.accTok (bid / 4) n).holder == .stream bid) = true := beq_iff_eq.mpr (h n List.mem_cons_self)
    rw [streamTokens]
    simp only [hn, if_true]
    exact ih fun m hm => h m (List.mem_cons_of_mem _ hm)

/-! ## A demand -/

/-- The accumulators a target names. -/
def Target.accs (x : Target) : List Nat := match x with | .acc n => [n] | _ => []

def Target.isAcc (x : Target) : Bool := match x with | .acc _ => true | _ => false

/-- Whether a target is one of some accumulators. -/
def Target.among (x : Target) (ns : List Nat) : Bool := match x with | .acc n => ns.contains n | _ => false

theorem Target.isAcc_iff (x : Target) : x.isAcc = true ↔ x.accs ≠ [] := by
  cases x <;> simp [Target.isAcc, Target.accs]

theorem Target.among_eq (x : Target) (ns : List Nat) : x.among ns = x.accs.any ns.contains := by
  cases x <;> simp [Target.among, Target.accs]

/-- Whether a region lies in a clause's shape, and in an accumulator's where it goes to one (R370). -/
def Target.holds (x : Target) (g : Region) (e : Nat × Clause) : Prop :=
  g.row0 + g.rows ≤ e.2.rows ∧ g.col0 + g.cols ≤ e.2.cols ∧ (x.accs ≠ [] → g.row0 + g.rows ≤ 64 ∧ g.col0 + g.cols ≤ 64)

/-- The test that R370 makes of a region, as an instruction makes it. -/
def Target.misses (x : Target) (g : Region) (e : Nat × Clause) : Prop :=
  e.2.rows < g.row0 + g.rows ∨ e.2.cols < g.col0 + g.cols ∨ (x.isAcc = true ∧ (64 < g.row0 + g.rows ∨ 64 < g.col0 + g.cols))

theorem Target.misses_iff (x : Target) (g : Region) (e : Nat × Clause) : x.misses g e ↔ ¬x.holds g e := by
  simp only [Target.misses, Target.holds, Target.isAcc_iff]
  by_cases hx : x.accs = []
  · simp only [hx, ne_eq, not_true_eq_false, false_and, or_false, false_implies, and_true]
    omega
  · simp only [hx, ne_eq, not_false_eq_true, true_and, true_implies]
    omega

/-- The demand that TFORCE or TSTORE makes. -/
def demandOf (b : Block) (root : Nat) (g : Region) (target : Target) (self : Bool) : Demand :=
  { root := root, region := g, target := target, fmt := b.fmt, self := self }

/-- The run once a demand has joined the open batch of a block. -/
def Run.demanded (r : Run) (bid : Nat) (d : Demand) : Run := r.onBlock bid (fun b => { b with openDemands := b.openDemands ++ [d] })

/-- The run once .close has closed that batch too. -/
def Run.demandClosed (r : Run) (bid wid : Nat) (d : Demand) (sc : Nat) : Run :=
  let z := (r.demanded bid d).onBlock bid Block.close
  z.onWave wid (fun w => w.setS sc (BitVec.ofNat 64 (z.block bid).lastClosed))

/-- What follows the watch ranges' test: the tokens, then the demand. -/
def demandEnd (close : Bool) (target : Target) (o : Ops) (c : Iss) (bid : Nat) (b : Block) (root : Nat) (g : Region) (met : Bool) (r : Run) : Eff Unit :=
  streamTokens bid (fun r =>
    let d := demandOf b root g target (met || target.among (accsOf b.clauses root))
    if close && 4 ≤ (r.block bid).incomplete.length then .park r (.retry .batchRoom)
    else if close then .ok (r.demandClosed bid c.wid d (scalarNum o.c).toNat) ()
    else .ok (r.demanded bid d) ()) (target.accs ++ accsOf b.clauses root) r

section
variable {s : State} {h : Hd} {o : Ops} {c : Iss} {b : Block} {close : Bool} {target : Target} {e : Nat × Clause}
  (hI : Issues s h c []) (hb : s.run.blocks.get? (s.wv c).blk = some b) (hr : b.root o.a = some e)

theorem block_of_wv (hb : s.run.blocks.get? (s.wv c).blk = some b) : s.run.block (s.wv c).blk = b := by
  rw [Run.block, hb]
  rfl

section
include hb hr

/-- A region outside the shape (R370). -/
theorem demandEff_outside (hout : ¬target.holds (regionWord (s.run.rdScalar c.wid o.b 0 0)) e) :
    demandEff close target o s.sys s.run c = .trap s.run (tileTrap 5 o.a) := by
  unfold demandEff
  rw [withRoot_of_root (root_eq hb hr)]
  exact if_pos ((Target.misses_iff _ _ _).mpr hout)

theorem demandEff_inside {met : Bool} (hin : target.holds (regionWord (s.run.rdScalar c.wid o.b 0 0)) e)
    (hw : s.run.watchMeets (s.wv c).blk e.1 false (s.run.writeRanges (s.wv c).blk
      (demandOf b e.1 (regionWord (s.run.rdScalar c.wid o.b 0 0)) target false)) = (none, met)) :
    demandEff close target o s.sys s.run c =
      demandEnd close target o c (s.wv c).blk b e.1 (regionWord (s.run.rdScalar c.wid o.b 0 0)) met s.run := by
  have hmiss : ¬target.misses (regionWord (s.run.rdScalar c.wid o.b 0 0)) e := fun hm => (Target.misses_iff _ _ _).mp hm hin
  have hw : s.run.watchMeets (s.wv c).blk e.1 false (s.run.writeRanges (s.wv c).blk
      (demandOf (s.run.block (s.wv c).blk) e.1 (regionWord (s.run.rdScalar c.wid o.b 0 0)) target false)) = (none, met) := by
    rw [block_of_wv hb]
    exact hw
  unfold demandEff
  rw [withRoot_of_root (root_eq hb hr)]
  refine (if_neg hmiss).trans ?_
  have hw' : s.run.watchMeets (s.run.wave c.wid).blk e.1 false (s.run.writeRanges (s.run.wave c.wid).blk
      { root := e.1, region := regionWord (s.run.streamS c o.b 0), target := target,
        fmt := (s.run.block (s.run.wave c.wid).blk).fmt, self := false }) = (none, met) := hw
  simp only [hw']
  rw [demandEnd, ← block_of_wv hb]
  rfl

/-- Where nothing refuses it, the demand joins the open batch, which .close closes (R385). -/
theorem demandEff_joins {met : Bool} (hin : target.holds (regionWord (s.run.rdScalar c.wid o.b 0 0)) e)
    (hw : s.run.watchMeets (s.wv c).blk e.1 false (s.run.writeRanges (s.wv c).blk
      (demandOf b e.1 (regionWord (s.run.rdScalar c.wid o.b 0 0)) target false)) = (none, met))
    (ht : ∀ n ∈ target.accs ++ accsOf b.clauses e.1, (s.run.accTok ((s.wv c).blk / 4) n).holder = .stream (s.wv c).blk)
    (hroom : close = true → b.batches.length < 4) :
    let d := demandOf b e.1 (regionWord (s.run.rdScalar c.wid o.b 0 0)) target (met || target.accs.any (accsOf b.clauses e.1).contains)
    demandEff close target o s.sys s.run c = .ok (if close then s.run.demandClosed (s.wv c).blk c.wid d (scalarNum o.c).toNat
      else s.run.demanded (s.wv c).blk d) () := by
  intro d
  rw [demandEff_inside hb hr hin hw, demandEnd, streamTokens_of_held ht]
  simp only [block_of_wv hb, Target.among_eq]
  cases close with
  | false => rfl
  | true =>
    have hfull : (true && decide (4 ≤ b.incomplete.length)) = false := decide_eq_false (Nat.not_le.mpr (hroom rfl))
    simp only [hfull, Bool.false_eq_true, if_false, if_true]
    rfl

end

section
include hI hb hr

/-- What a demand that joins the open batch leaves (R385). -/
theorem demand_completes {met : Bool} {eff : Sys → Run → Iss → Eff Unit}
    (heff : eff s.sys s.run c = demandEff close target o s.sys s.run c)
    (hin : target.holds (regionWord (s.run.rdScalar c.wid o.b 0 0)) e)
    (hw : s.run.watchMeets (s.wv c).blk e.1 false (s.run.writeRanges (s.wv c).blk
      (demandOf b e.1 (regionWord (s.run.rdScalar c.wid o.b 0 0)) target false)) = (none, met))
    (ht : ∀ n ∈ target.accs ++ accsOf b.clauses e.1, (s.run.accTok ((s.wv c).blk / 4) n).holder = .stream (s.wv c).blk)
    (hroom : close = true → b.batches.length < 4) :
    let d := demandOf b e.1 (regionWord (s.run.rdScalar c.wid o.b 0 0)) target (met || target.accs.any (accsOf b.clauses e.1).contains)
    Completes (issue s h {} eff) (fun t => TileFrame s t c ∧
      (close = false → RegsKept (s.wv c) (t.wv c) c.act [] ∧
        t.run.block (s.wv c).blk = { b with openDemands := b.openDemands ++ [d] }) ∧
      (close = true → ∀ n, o.c = .s n → RegsKept (s.wv c) (t.wv c) c.act [(o.c, 1)] ∧
        (t.wv c).sReg n.toNat = BitVec.ofNat 64 (b.lastClosed + 1) ∧
        t.run.block (s.wv c).blk = { b with
          openDemands := [], lastClosed := b.lastClosed + 1
          batches := b.batches ++ [⟨b.lastClosed + 1, b.openDemands ++ [d], .closed, 0⟩] })) := by
  intro d
  have hs := (streams_self hI.1 hb).onBlock (fun b => { b with openDemands := b.openDemands ++ [d] })
  have he := heff.trans (demandEff_joins hb hr hin hw ht hroom)
  cases close with
  | false =>
    refine (issue_streams hI he hs rfl).imp ?_
    intro t ⟨hf, hu, hx, _⟩
    exact ⟨hf, fun _ => ⟨(tileKept hu (RegsKept.refl _ _ _) rfl).1, hx⟩, fun hn => absurd hn Bool.noConfusion⟩
  | true =>
    have hz := hs.onBlock Block.close
    have hlast : (((s.run.demanded (s.wv c).blk d).onBlock (s.wv c).blk Block.close).block (s.wv c).blk).lastClosed = b.lastClosed + 1 :=
      congrArg Block.lastClosed hz.block_eq
    have hend := hz.onWave (fun w => w.setS (scalarNum o.c).toNat (BitVec.ofNat 64 (b.lastClosed + 1)))
    have he : eff s.sys s.run c = .ok (((s.run.demanded (s.wv c).blk d).onBlock (s.wv c).blk Block.close).onWave c.wid
        (fun w => w.setS (scalarNum o.c).toNat (BitVec.ofNat 64 (b.lastClosed + 1)))) () := by
      rw [he, if_pos rfl, Run.demandClosed, hlast]
    refine (issue_streams hI he hend rfl).imp ?_
    intro t ⟨hf, hu, hx, _⟩
    refine ⟨hf, fun hn => absurd hn Bool.noConfusion, fun _ n hc => ?_⟩
    rw [hc] at hu
    refine ⟨?_, ?_, hx⟩
    · rw [hc]
      exact (tileKept hu (regsKept_setS _ n _ _) rfl).1
    · rw [hu, Wave.retired_read (fun w => w.sReg n.toNat) (fun _ _ _ _ _ => rfl)]
      exact (Wave.sReg_setS _ _ _ _).trans (if_pos rfl)

theorem demand_traps {eff : Sys → Run → Iss → Eff Unit} (heff : eff s.sys s.run c = demandEff close target o s.sys s.run c)
    (hout : ¬target.holds (regionWord (s.run.rdScalar c.wid o.b 0 0)) e) :
    issue s h {} eff = .next { s with run := trapAt s.sys s.run c (tileTrap 5 o.a) } :=
  issue_trap hI (.inl rfl) (.inl rfl) (heff.trans (demandEff_outside hb hr hout))

end

end

/-! ## TFORCE, TSTORE and TWAIT -/

/-- The target a demand's instruction names: an accumulator, or a tile in memory whose address and strides are scalars. -/
def demandTarget (s : State) (h : Hd) (o : Ops) (c : Iss) (i : Instr) (close : Bool) (target : Target) : Prop :=
  let x (o : Opd) (i : Nat) : Word64 := s.run.rdScalar c.wid o i 0
  (i = .tforce h close o ∧ ((∃ n, o.d = .c n ∧ target = .acc n.toNat) ∨ (∃ n, o.d = .s n) ∧ pairPast true 2 o.d = none ∧
    target = .mem true (((x o.d 0).setWidth 32).setWidth 64) (bits (x o.d 1) 0 32) 1)) ∨
  ∃ m : TstoreMod, i = .tstore h m o ∧ close = m.close ∧ pairPast true 2 o.d = none ∧
    target = .mem m.sp (if m.sp then ((x o.d 0).setWidth 32).setWidth 64 else x o.d 0)
      ((x o.d 1).setWidth 32).toInt ((x o.d 1).extractLsb' 32 32).toInt

theorem demandTarget_eff {s : State} {h : Hd} {o : Ops} {c : Iss} {i : Instr} {close : Bool} {target : Target}
    (hi : demandTarget s h o c i close target) : ∃ eff, exec i s = issue s h {} eff ∧
      eff s.sys s.run c = demandEff close target o s.sys s.run c := by
  rcases hi with ⟨rfl, ⟨n, hd, rfl⟩ | ⟨⟨n, hd⟩, hp, rfl⟩⟩ | ⟨m, rfl, rfl, hp, rfl⟩
  · refine ⟨tforceEff close o, rfl, ?_⟩
    unfold tforceEff
    simp only [hd]
  · refine ⟨tforceEff close o, rfl, ?_⟩
    unfold tforceEff
    rw [groupOk_of_fits hp]
    simp only [hd]
    rfl
  · refine ⟨tstoreEff m o, rfl, ?_⟩
    unfold tstoreEff
    rw [groupOk_of_fits hp]
    simp only [sx_bits]
    rfl

theorem twait_moves {s : State} {h : Hd} {o : Ops} {c : Iss} {b : Block} (hI : Issues s h c [])
    (hb : s.run.blocks.get? (s.wv c).blk = some b)
    (hz : ∀ z ∈ b.batches, min ((s.run.rdScalar c.wid o.a 0 0).setWidth 32).toNat b.lastClosed < z.no) :
    Does s (.twait h o) c h {} s.run := by
  refine issue_ok (eff := twaitEff o) hI (.inl rfl) (.inl rfl) ?_
  have hblk : s.run.block (s.run.wave c.wid).blk = b := block_of_wv hb
  have hfail : failedBatch b (min ((s.run.streamS c o.a 0).setWidth 32).toNat b.lastClosed) = none := by
    unfold failedBatch
    rw [List.findSome?_eq_none_iff]
    intro z hm
    have hno := Nat.not_le.mpr (hz z hm)
    split
    · exact if_neg hno
    · rfl
  have hany : b.incomplete.any (fun x => decide (x.no ≤ min ((s.run.streamS c o.a 0).setWidth 32).toNat b.lastClosed)) = false :=
    List.any_eq_false.mpr fun z hm => by
      rw [decide_eq_true_iff]
      exact Nat.not_le.mpr (hz z hm)
  unfold twaitEff
  simp only [hblk, hfail, hany, Bool.false_eq_true, if_false]

/-- Settles O42: a demand's instruction by the target it names, then the demand by the steps of R385. -/
theorem tileDemands : Obligations.TileDemands := by
  unfold Obligations.TileDemands
  intro s h o c b bid x g hI hb
  refine ⟨fun i close target e hi hr => ?_, fun hz => twait_moves hI hb hz⟩
  intro toAcc inside
  obtain ⟨eff, hx, heff⟩ := demandTarget_eff hi
  unfold Traps
  rw [hx]
  refine ⟨fun hout => ⟨_, rfl, rfl, demand_traps hI hb hr heff hout⟩, fun met hin hw ht hroom => ?_⟩
  intro self d
  refine (demand_completes hI hb hr heff hin hw ht hroom).imp ?_
  intro t ⟨⟨hsys, hrun, hblocks, _, hmoved⟩, hopen, hclose⟩
  exact ⟨hsys, hrun, hmoved, hblocks, hopen, hclose⟩

end Sys2Proof.Machine
end

section
/-! The tile instructions that append a clause, settled (R371 to R380). -/

namespace Sys2Proof.Machine

/-! ## A free number of a table -/

theorem Tbl.get?_eq_none_of_notMem {α : Type} {m : Tbl α} {n : Nat} (h : n ∉ m.map (·.1)) : m.get? n = none := by
  induction m with
  | nil => rfl
  | cons e m ih =>
    obtain ⟨k, v⟩ := e
    rw [List.map_cons, List.mem_cons, not_or] at h
    exact (if_neg h.1).trans (ih h.2)

/-- Among more numbers than a table has entries one is free. -/
theorem Tbl.get?_free {α : Type} (m : Tbl α) (b : Nat) : m.get? (m.free b) = none := by
  have hsome : (((List.range (m.length + 1)).map (b + ·)).find? (fun n => (m.get? n).isNone)).isSome := by
    rw [List.find?_isSome]
    by_contra hn
    push Not at hn
    have hsub : ((List.range (m.length + 1)).map (b + ·)) ⊆ m.map (·.1) := by
      intro n hm
      by_contra hout
      exact hn n hm (by rw [Tbl.get?_eq_none_of_notMem hout]; rfl)
    have hnd : ((List.range (m.length + 1)).map (b + ·)).Nodup :=
      List.nodup_range.map fun i j h => Nat.add_left_cancel h
    have hle := (List.subperm_of_subset hnd hsub).length_le
    simp only [List.length_map, List.length_range] at hle
    omega
  obtain ⟨n, hn⟩ := Option.isSome_iff_exists.mp hsome
  have hf : m.free b = n := by rw [Tbl.free, hn]; rfl
  rw [hf]
  have hnone := List.find?_some hn
  exact Option.isNone_iff_eq_none.mp hnone

/-! ## What stays reachable -/

theorem mem_postOrder_of_mem (g : Tbl Clause) (n i : Nat) {seen : List Nat} {j : Nat} (h : j ∈ seen) : j ∈ postOrder g n i seen := by
  induction n generalizing i seen with
  | zero => exact h
  | succ n ih =>
    rw [postOrder]
    split
    · exact h
    · next hc =>
      clear hc
      refine List.mem_append_left _ ?_
      generalize (clauseAt g i).srcs = ss
      induction ss generalizing seen with
      | nil => exact h
      | cons s ss ihs =>
        refine ihs ?_
        dsimp only
        split
        · exact ih _ h
        · exact h

theorem mem_postOrder_self (g : Tbl Clause) (n i : Nat) (seen : List Nat) : i ∈ postOrder g (n + 1) i seen := by
  rw [postOrder]
  split
  · next h => exact List.contains_iff_mem.mp h
  · exact List.mem_append_right _ (List.mem_singleton.mpr rfl)

theorem mem_reach_of_mem (g : Tbl Clause) {roots : List Nat} {i : Nat} (h : i ∈ roots) : i ∈ reach g roots := by
  have hkeep (rs : List Nat) (seen : List Nat) (hi : i ∈ seen) : i ∈ rs.foldl (fun seen j => postOrder g 100 j seen) seen := by
    induction rs generalizing seen with
    | nil => exact hi
    | cons r rs ih => exact ih _ (mem_postOrder_of_mem g 100 r hi)
  unfold reach
  generalize ([] : List Nat) = seen
  induction roots generalizing seen with
  | nil => exact absurd h List.not_mem_nil
  | cons r rs ih =>
    rcases List.mem_cons.mp h with rfl | h
    · exact hkeep rs _ (mem_postOrder_self g 99 i seen)
    · exact ih h _

theorem Tbl.get?_filter_of_keep {α : Type} (m : Tbl α) (p : Nat → Bool) {n : Nat} (hp : p n = true) :
    Tbl.get? (List.filter (fun e : Nat × α => p e.1) m) n = Tbl.get? m n := by
  induction m with
  | nil => rfl
  | cons e m ih =>
    obtain ⟨k, v⟩ := e
    by_cases hk : n = k
    · subst hk
      rw [List.filter_cons, if_pos hp]
      exact (if_pos rfl).trans (if_pos rfl).symm
    · have hr : Tbl.get? ((k, v) :: m) n = Tbl.get? m n := if_neg hk
      rw [hr, List.filter_cons]
      split
      · exact (if_neg hk).trans ih
      · exact ih

theorem mem_map_put {m : Tbl Nat} {n x : Nat} : x ∈ (m.put n x).map (·.2) := by
  induction m with
  | nil => exact List.mem_singleton.mpr rfl
  | cons e m ih =>
    obtain ⟨k, v⟩ := e
    rw [Tbl.put, SMap.insert]
    split
    · exact List.mem_cons_self
    · split
      · exact List.mem_cons_self
      · exact List.mem_cons_of_mem _ ih

/-- A clause that a handle names stays when the block reclaims what nothing reaches (R321). -/
theorem Block.reclaim_get? {b : Block} {i : Nat} (h : i ∈ b.handles.map (·.2)) : b.reclaim.clauses.get? i = b.clauses.get? i := by
  have hk : b.kept.contains i = true := List.contains_iff_mem.mpr (mem_reach_of_mem _ (List.mem_append_left _ h))
  exact Tbl.get?_filter_of_keep b.clauses (fun j => b.kept.contains j) hk

/-! ## The token of an accumulator -/

/-- What a stream's taking of a token leaves. -/
structure Run.Takes (r t : Run) : Prop where
  eq : ({ r with cores := t.cores } : Run) = t

theorem takes_accGive (r : Run) (core n : Nat) (h : AccHolder) : r.Takes (accGive r core n h) := by
  unfold accGive
  dsimp only
  split <;> exact ⟨rfl⟩

theorem Run.Streams.takes {r t : Run} {wid blk : Nat} {u : Wave} {x : Block} (h : r.Takes t) (hs : r.Streams r wid u blk x) :
    r.Streams t wid u blk x := by
  have e : r.Streams { r with cores := t.cores } wid u blk x := ⟨rfl, hs.wave, hs.others, hs.block, hs.blocks⟩
  rw [h.eq] at e
  exact e

/-- What is read from waves and blocks alone a taking leaves. -/
theorem Run.Takes.read {α : Type} {r t : Run} (h : r.Takes t) (g : Run → α) (hg : ∀ (x : Run) cs, g { x with cores := cs } = g x) :
    g t = g r := by
  rw [← h.eq]
  exact hg r _

theorem streamTokens_none {bid : Nat} (r : Run) : ∃ z, r.Takes z ∧ ∀ k : Run → Eff Unit, streamTokens bid k [] r = k z :=
  ⟨r, ⟨rfl⟩, fun _ => rfl⟩

/-- A token that the stream holds, or that is free with nobody waiting, is at hand (R390). -/
theorem streamTokens_one {bid n : Nat} {r : Run} (h : (r.accTok (bid / 4) n).holder = .stream bid ∨
    (r.accTok (bid / 4) n).holder = .free ∧ (r.accTok (bid / 4) n).queue = []) :
    ∃ z, r.Takes z ∧ ∀ k : Run → Eff Unit, streamTokens bid k [n] r = k z := by
  rcases h with h | ⟨h, hq⟩
  · refine ⟨r, ⟨rfl⟩, fun k => ?_⟩
    exact streamTokens_of_held fun m hm => by rw [List.mem_singleton.mp hm, h]
  · refine ⟨accGive r (bid / 4) n (.stream bid), takes_accGive _ _ _ _, fun k => ?_⟩
    rw [streamTokens]
    simp only [h, hq]
    rfl

/-! ## An append -/

/-- Charging a clause's operands changes the watch ranges of the block alone. -/
theorem Run.Streams.chargeSrcs {r t : Run} {wid blk : Nat} {u : Wave} {x : Block} (h : r.Streams t wid u blk x) (id : Nat) (a : Append) :
    ∃ ws, r.Streams (chargeSrcs t blk id a) wid u blk { x with watch := ws } := by
  unfold Machine.chargeSrcs
  generalize a.srcs = ss
  induction ss generalizing t x with
  | nil => exact ⟨x.watch, h⟩
  | cons e ss ih =>
    have hstep : ∃ ws, r.Streams (match e.1 with
        | .global y =>
          let (lo, hi) := e.2.extent a.rows a.cols
          let (y, z) := spanBytes a.ty y.toNat lo hi
          t.watchOver blk id [(none, y, z)]
        | .scratch y =>
          t.watchOver blk id (t.scratchRanges blk ((List.range a.rows).flatMap (fun i => (List.range a.cols).map (fun j =>
            let (p, q) := e.2.coord i j
            ((elemAddr a.ty y.toNat (p * e.2.rs + q * e.2.cs)).1, ElemTy.bytes a.ty)))))
        | _ => t) wid u blk { x with watch := ws } := by
      split
      · exact h.watchOver id _
      · exact h.watchOver id _
      · exact ⟨x.watch, h⟩
    obtain ⟨ws, hs⟩ := hstep
    obtain ⟨ws', hs'⟩ := ih hs
    exact ⟨ws', hs'⟩

/-- The clause an append adds to a block. -/
def Append.clause (a : Append) (b : Block) (fp : Word) (pc : Word64) : Clause :=
  { op := a.op, rows := a.rows, cols := a.cols, ty := a.ty, fmt := b.fmt, srcs := a.srcs, fp := fp, origin := pc, no := b.appends + 1 }

/-- What TLOAD appends, of the group of scalars that gives its address, its strides and its form (R373). -/
def tloadAppend (m : TloadMod) (x : Nat → Word64) : Append where
  op := .tload
  rows := formRows (x 2)
  cols := formCols (x 2)
  ty := m.ty
  srcs := [(if m.sp then .scratch ((x 0).setWidth 32) else .global (x 0),
    { formMap (x 2) with rs := ((x 1).setWidth 32).toInt, cs := ((x 1).extractLsb' 32 32).toInt })]

/-- What TEW appends, of its first handle and those behind it (R378). -/
def tewAppend (m : TewMod) (scale : Word) (a : Nat × Clause) (es : List (Nat × Clause)) : Append where
  op := .tew m.op m.rm scale
  rows := a.2.rows
  cols := a.2.cols
  ty := .fp32
  srcs := (.clause a.1, idMap a.2) :: es.map (fun z => (.clause z.1, idMap z.2))

/-- The block with a clause appended and a handle bound to it (R372). -/
def Block.appended (b : Block) (id : Nat) (cl : Clause) (fp : Word) (n : Nat) : Block :=
  ({ b with clauses := b.clauses.put id cl, appends := b.appends + 1, lastFpcr := fp
            handles := b.handles.put n id } : Block).reclaim

/-- What the statement says an append leaves. -/
def Appends (s : State) (c : Iss) (b : Block) (tn : BitVec 6) (i : Instr) (a : Append) : Prop :=
  let bid := (s.wv c).blk
  Completes (exec i s) (fun t => t.sys = s.sys ∧
    { t.run with waves := s.run.waves, cores := s.run.cores, blocks := s.run.blocks } = s.run ∧
    (∀ k, k ≠ bid → t.run.block k = s.run.block k) ∧ (∀ k, k ≠ c.wid → t.run.wave k = s.run.wave k) ∧
    RegsKept (s.wv c) (t.wv c) c.act [] ∧ RestKept (s.wv c) (t.wv c) ∧ MovedOn s t c ∧
    (t.run.block bid).handles = b.handles.put tn.toNat (Tbl.free b.clauses 0) ∧ b.clauses.get? (Tbl.free b.clauses 0) = none ∧
    (t.run.block bid).clauses.get? (Tbl.free b.clauses 0) = some (a.clause b (s.run.captured bid) c.pc) ∧
    (t.run.block bid).openDemands = b.openDemands ∧ (t.run.block bid).batches = b.batches)

section
variable {s : State} {h : Hd} {o : Ops} {c : Iss} {b : Block} {tn : BitVec 6}
  (hI : Issues s h c []) (hb : s.run.blocks.get? (s.wv c).blk = some b) (hlen : b.clauses.length < 96) (hsp : b.spill = none)
  (hd : o.d = .t tn)
include hI hb hlen hsp hd

/-- An instruction that comes to its append with the tokens at hand (R372). -/
theorem append_completes {i : Instr} {eff : Sys → Run → Iss → Eff Unit} {a : Append} (hx : exec i s = issue s h {} eff)
    (heff : eff s.sys s.run c = append a o.d s.sys s.run c)
    (ht : ∃ z, s.run.Takes z ∧ ∀ k : Run → Eff Unit, streamTokens (s.wv c).blk k a.accs s.run = k z) : Appends s c b tn i a := by
  obtain ⟨z, htake, hz⟩ := ht
  let bid := (s.wv c).blk
  let id := Tbl.free b.clauses 0
  let cl := a.clause b (s.run.captured bid) c.pc
  let add : Block → Block := fun b => b.appended id cl (s.run.captured bid) tn.toNat
  have hroom : makeRoom bid o.d s.run = .ok s.run () := by
    have hblk : s.run.block bid = b := block_of_wv hb
    unfold makeRoom
    simp only [hblk, hsp, hlen, if_true]
  have hs := (streams_self hI.1 hb).takes htake
  obtain ⟨ws, hs⟩ := hs.chargeSrcs id a
  have hs := hs.onBlock add
  have hzb : z.block bid = b := (htake.read (fun x => x.block bid) fun _ _ => rfl).trans (block_of_wv hb)
  have hzc : z.captured bid = s.run.captured bid := htake.read (fun x => x.captured bid) fun _ _ => rfl
  have he : eff s.sys s.run c = .ok ((chargeSrcs z bid id a).onBlock bid add) () := by
    rw [heff]
    unfold append
    show (makeRoom bid o.d s.run).bind _ = _
    rw [hroom]
    refine (hz _).trans ?_
    have hzb : z.block (s.run.wave c.wid).blk = b := hzb
    have hzc : z.captured (s.run.wave c.wid).blk = s.run.captured bid := hzc
    simp only [hd, hzb, hzc]
    rfl
  unfold Appends
  rw [hx]
  refine (issue_streams hI he hs rfl).imp ?_
  intro t ⟨⟨hsys, hrun, hblocks, hwaves, hmoved⟩, hu, hblock, _⟩
  obtain ⟨hr, hk⟩ := tileKept hu (RegsKept.refl _ _ _) rfl
  refine ⟨hsys, hrun, hblocks, hwaves, hr, hk, hmoved, ?_, Tbl.get?_free _ _, ?_, ?_, ?_⟩
  · rw [hblock]; rfl
  · rw [hblock]
    refine (Block.reclaim_get? mem_map_put).trans ?_
    exact (Tbl.get?_put _ _ _ _).trans (if_pos rfl)
  · rw [hblock]; rfl
  · rw [hblock]; rfl

theorem tload_appends (m : TloadMod) (hp : pairPast true 3 o.a = none) :
    Appends s c b tn (.tload h m o) (tloadAppend m fun i => s.run.rdScalar c.wid o.a i 0) := by
  refine append_completes hI hb hlen hsp hd (eff := tloadEff m o) rfl ?_ (streamTokens_none _)
  unfold tloadEff
  rw [groupOk_of_fits hp]
  simp only [sx_bits]
  rfl

section
variable {e : Nat × Clause} (he : b.root o.a = some e)
include he

theorem tmap_appends : let f := s.run.rdScalar c.wid o.b 0 0
    let last := (formMap f).coord (formRows f - 1) (formCols f - 1)
    last.1 < e.2.rows → last.2 < e.2.cols → Appends s c b tn (.tmap h o)
      { op := .tmap, rows := formRows f, cols := formCols f, ty := e.2.ty, srcs := [(.clause e.1, formMap f)] } := by
  intro f last hrow hcol
  refine append_completes hI hb hlen hsp hd (eff := tmapEff o) rfl ?_ (streamTokens_none _)
  unfold tmapEff
  rw [withRoot_of_root (root_eq hb he)]
  have hin : ¬(e.2.rows ≤ last.1 ∨ e.2.cols ≤ last.2) := by omega
  exact if_neg hin

theorem tred_appends (m : TredMod) : Appends s c b tn (.tred h m o)
    { op := .tred m.max m.col, rows := if m.col then 1 else e.2.rows, cols := if m.col then e.2.cols else 1, ty := .fp32,
      srcs := [(.clause e.1, idMap e.2)] } := by
  refine append_completes hI hb hlen hsp hd (eff := tredEff m o) rfl ?_ (streamTokens_none _)
  unfold tredEff
  rw [withRoot_of_root (root_eq hb he)]

theorem tcvt_appends (m : TcvtMod) : Appends s c b tn (.tcvt h m o)
    { op := .tcvt m (if m.ol then s.run.rdScalar c.wid o.b 0 0 else 0), rows := e.2.rows, cols := e.2.cols, ty := m.ty,
      srcs := [(.clause e.1, idMap e.2)] } := by
  refine append_completes hI hb hlen hsp hd (eff := tcvtEff m o) rfl ?_ (streamTokens_none _)
  unfold tcvtEff
  rw [withRoot_of_root (root_eq hb he)]
  rfl

/-! ## TMMA -/

/-- The type of a product (R375). -/
def productTy (a e : Clause) : ElemTy := if ElemTy.isByteInt a.ty && ElemTy.isByteInt e.ty then .int32 else .fp32

/-- What TMMA appends, of its two factors and what it adds to. -/
def tmmaAppend (m : TmmaMod) (acc : Bool) (a e : Nat × Clause) (more : List (Src × IMap)) (accs : List Nat) : Append :=
  { op := .tmma acc m.ol, rows := a.2.rows, cols := e.2.cols, ty := productTy a.2 e.2
    srcs := [(.clause a.1, idMap a.2), (.clause e.1, idMap e.2)] ++ more, accs := accs }

section
variable {m : TmmaMod} {f : Nat × Clause} (hf : b.root o.b = some f) (hk : e.2.cols ≤ f.2.rows)
include hf hk

theorem tmma_appends (hm : m.acc = false) : Appends s c b tn (.tmma h m o) (tmmaAppend m false e f [] []) := by
  refine append_completes hI hb hlen hsp hd (eff := tmmaEff m o) rfl ?_ (streamTokens_none _)
  unfold tmmaEff
  rw [withRoot_of_root (root_eq hb he), withRoot_of_root (root_eq hb hf)]
  simp only [hm, Nat.not_lt.mpr hk, decide_false, Bool.not_false, Bool.false_eq_true, if_false, if_true]
  rfl

theorem tmma_appends_handle (hm : m.acc = true) {z : Nat × Clause} (hz : b.root o.c = some z) (hr : e.2.rows ≤ z.2.rows)
    (hc : f.2.cols ≤ z.2.cols) :
    Appends s c b tn (.tmma h m o) (tmmaAppend m true e f [(.clause z.1, idMap z.2)] []) := by
  refine append_completes hI hb hlen hsp hd (eff := tmmaEff m o) rfl ?_ (streamTokens_none _)
  unfold tmmaEff
  rw [withRoot_of_root (root_eq hb he), withRoot_of_root (root_eq hb hf)]
  have hshape : ¬(z.2.rows < e.2.rows ∨ z.2.cols < f.2.cols) := by omega
  obtain ⟨n, hn⟩ : ∃ n, o.c = .t n := by
    cases ho : o.c with
    | t n => exact ⟨n, rfl⟩
    | _ => rw [ho] at hz; cases hz
  have hroot := root_eq hb hz
  rw [hn] at hroot
  simp only [hm, hn, Bool.not_true, Bool.false_eq_true, if_false]
  rw [withRoot_of_root hroot]
  simp only [Nat.not_lt.mpr hk, decide_false, Bool.false_eq_true, if_false, hshape]
  rfl

theorem tmma_appends_acc (hm : m.acc = true) {n : BitVec 4} (hn : o.c = .c n) (hr : e.2.rows ≤ 64) (hc : f.2.cols ≤ 64)
    (ht : (s.run.accTok ((s.wv c).blk / 4) n.toNat).holder = .stream (s.wv c).blk ∨
      (s.run.accTok ((s.wv c).blk / 4) n.toNat).holder = .free ∧ (s.run.accTok ((s.wv c).blk / 4) n.toNat).queue = []) :
    Appends s c b tn (.tmma h m o) (tmmaAppend m true e f [(.acc n.toNat, {})] [n.toNat]) := by
  refine append_completes hI hb hlen hsp hd (eff := tmmaEff m o) rfl ?_ (streamTokens_one ht)
  unfold tmmaEff
  rw [withRoot_of_root (root_eq hb he), withRoot_of_root (root_eq hb hf)]
  have hshape : ¬(64 < e.2.rows ∨ 64 < f.2.cols) := by omega
  simp only [hm, hn, Bool.not_true, Bool.false_eq_true, if_false, Nat.not_lt.mpr hk, decide_false, hshape]
  rfl

end

/-! ## TEW -/

/-- TEW with the handles behind its first bound and their shapes in order (R378). -/
theorem tew_appends {m : TewMod} {es : List (Opd × Nat × Clause)} (hes : tewHandles m o = es.map (·.1))
    (hroots : ∀ z ∈ es, b.root z.1 = some z.2) (hfits : ∀ z ∈ es, e.2.rows ≤ z.2.2.rows ∧ e.2.cols ≤ z.2.2.cols) :
    Appends s c b tn (.tew h m o)
      (tewAppend m (if m.op = .scale then (s.run.rdScalar c.wid o.c 0 0).setWidth 32 else 0) e (es.map (·.2))) := by
  refine append_completes hI hb hlen hsp hd (eff := tewEff m o) rfl ?_ (streamTokens_none _)
  have hblk : s.run.block (s.run.wave c.wid).blk = b := block_of_wv hb
  have hbound : (tewHandles m o).find? (fun x => (b.root x).isNone) = none := by
    rw [List.find?_eq_none, hes]
    intro x hx
    obtain ⟨z, hz, rfl⟩ := List.mem_map.mp hx
    rw [hroots z hz]
    exact Bool.false_ne_true
  have hcs : (tewHandles m o).filterMap (fun x => (b.root x).map (fun z => (x, z))) = es := by
    rw [hes, List.filterMap_map]
    refine (List.filterMap_congr fun z hz => ?_).trans (List.filterMap_some)
    show (b.root z.1).map (fun y => (z.1, y)) = some z
    rw [hroots z hz]
    rfl
  have hshape : es.find? (fun z => decide (z.2.2.rows < e.2.rows) || decide (z.2.2.cols < e.2.cols)) = none := by
    rw [List.find?_eq_none]
    intro z hz
    have := hfits z hz
    simp only [Bool.or_eq_true, decide_eq_true_eq]
    omega
  unfold tewEff
  rw [withRoot_of_root (root_eq hb he)]
  simp only [hblk, hbound, hcs, hshape, tewAppend, List.map_map]
  rfl

end

end

/-! ## A handle that is bound to nothing -/

theorem withRoot_of_none {o : Opd} {k : Nat × Clause → Run → Eff Unit} {r : Run} {c : Iss}
    (he : (r.block (r.wave c.wid).blk).root o = none) : withRoot o k r c = .trap r (tileTrap 6 o) := by
  simp only [withRoot, he]

/-- The trap HANDLE of a stream (R319, R334). -/
theorem handle_traps {s : State} {h : Hd} {c : Iss} {o : Opd} {eff : Sys → Run → Iss → Eff Unit} (hI : Issues s h c [])
    (hst : (s.wv c).stream = true) (heff : eff s.sys s.run c = .trap s.run (tileTrap 6 o)) :
    ∃ f, issue s h {} eff = .next { s with run := s.run.onBlock (s.wv c).blk (fun z => { z with strap := some f }) } ∧
      f.cls = 9 ∧ f.sub = 6 ∧ f.epc = c.pc ∧ f.late = false := by
  have hst : (s.run.wave c.wid).stream = true := hst
  have ht : trapAt s.sys s.run c (tileTrap 6 o) = streamTrap s.run c.wid c.pc (tileTrap 6 o) := if_pos hst
  refine ⟨⟨9, 6, c.pc, (tileTrap 6 o).cw ||| (((c.pc - (s.run.launch (s.run.block (s.wv c).blk).launch).info.base).setWidth 32).setWidth 64 <<< 32),
    (tileTrap 6 o).origin, (tileTrap 6 o).clause, (tileTrap 6 o).coord, false, none⟩, ?_, rfl, rfl, rfl, rfl⟩
  rw [issue_trap hI (.inl rfl) (.inl rfl) heff, ht]
  rfl

/-- Settles O40: every instruction comes to the same append, whose clause stays since D's handle names it, and whose charges touch the watch
ranges alone. -/
theorem tileAppends : Obligations.TileAppends := by
  unfold Obligations.TileAppends
  intro s h o c b tn bid x whole fits appends hI hb hlen hsp hd
  refine ⟨fun m hp => tload_appends hI hb hlen hsp hd m hp, fun a ha => ⟨?_, ?_, ?_, ?_, ?_⟩, ?_⟩
  · exact tmap_appends hI hb hlen hsp hd ha
  · intro m e he hk ty
    refine ⟨fun hm => tmma_appends hI hb hlen hsp hd ha he hk hm, fun z hm hz hr hc => ?_, fun n hm hn hr hc => ?_⟩
    · exact tmma_appends_handle hI hb hlen hsp hd ha he hk hm hz hr hc
    · intro tok ht
      exact tmma_appends_acc hI hb hlen hsp hd ha he hk hm hn hr hc ht
  · intro m scale
    refine ⟨fun hes => ?_, fun e hes he hf => ?_, fun e z hes he hz hf hg => ?_⟩
    · exact tew_appends hI hb hlen hsp hd ha (es := []) hes (fun z hz => absurd hz List.not_mem_nil) (fun z hz => absurd hz List.not_mem_nil)
    · exact tew_appends hI hb hlen hsp hd ha (es := [(o.b, e)]) hes (fun z hz => by rw [List.mem_singleton.mp hz]; exact he)
        (fun z hz => by rw [List.mem_singleton.mp hz]; exact hf)
    · refine tew_appends hI hb hlen hsp hd ha (es := [(o.b, e), (o.c, z)]) hes ?_ ?_
      · simp only [List.forall_mem_cons, List.not_mem_nil, false_implies, implies_true, and_true]
        exact ⟨he, hz⟩
      · simp only [List.forall_mem_cons, List.not_mem_nil, false_implies, implies_true, and_true]
        exact ⟨hf, hg⟩
  · exact fun m => tred_appends hI hb hlen hsp hd ha m
  · exact fun m => tcvt_appends hI hb hlen hsp hd ha m
  · intro ha i hi hst
    have hroot : (s.run.block (s.run.wave c.wid).blk).root o.a = none := by rw [show s.run.block (s.run.wave c.wid).blk = b from block_of_wv hb, ha]
    rcases hi with rfl | ⟨m, rfl | ⟨n, rfl⟩⟩
    · exact handle_traps (eff := tmapEff o) hI hst (withRoot_of_none hroot)
    · exact handle_traps (eff := tmmaEff m o) hI hst (withRoot_of_none hroot)
    · exact handle_traps (eff := tewEff n o) hI hst (withRoot_of_none hroot)

end Sys2Proof.Machine
end

section
/-! Tickets, sequencers and the commit token, refuted (R411): a TXWAIT that waits issues afresh with the ticket it found when it first
issued, whatever its operand holds by then. -/

namespace Sys2Proof.Machine

/-! ## Traps of a stream -/

/-- A trap of a stream is noted in its block (R334). -/
theorem strap_trapAt {s : State} {c : Iss} {b : Block} (hst : (s.wv c).stream = true) (hb : s.run.blocks.get? (s.wv c).blk = some b)
    (tr : Trap) : ((trapAt s.sys s.run c tr).block (s.wv c).blk).strap.isSome = true := by
  have he : trapAt s.sys s.run c tr = streamTrap s.run c.wid c.pc tr := if_pos hst
  rw [he]
  have hblock := Run.block_onBlock s.run (s.wv c).blk (fun b => { b with strap := some ⟨tr.cls, tr.sub, c.pc, if tr.cls = 9 then
    tr.cw ||| (((c.pc - (s.run.launch (s.run.block (s.wv c).blk).launch).info.base).setWidth 32).setWidth 64 <<< 32) else tr.cw,
    tr.origin, tr.clause, tr.coord, tr.late, none⟩ }) b hb
  exact congrArg (fun x : Block => x.strap.isSome) hblock

/-! ## A TXWAIT that waits -/

/-- The ticket in slot 0 of the waiting wave: entry 0, generation 1. -/
def waitedTicket : TickRef := { die := 0, entry := 0, gen := 1, order := 1, tiles := [], lines := 0, pc := 0 }

/-- A stream whose group waits in TXWAIT for that ticket with s6 for D, while s5, the operand, holds no ticket. -/
def waitingState : State where
  run := { State.reset.run with
    blocks := [(0, { launch := 0, ctx := 0, nbh := 0, index := 0 })]
    waves := [(0, { stream := true, slot0 := some waitedTicket, parts := [⟨0, 0, none, 1#32, 0, 0, .retry (.ticket 0 6)⟩] })]
    cur := ⟨0, 1#32, none⟩ }
  sys := State.reset.sys

def waitingHd : Hd := {}

/-- The issue of its group. -/
def waitingIss : Iss := ⟨0, 1#32, 1#32, 0⟩

def waitingOps : Ops := { d := .s 6, a := .s 5 }

theorem issues_waiting : Issues waitingState waitingHd waitingIss (usesOf waitingHd waitingOps) := by
  unfold Issues
  decide

theorem whole_waiting : Whole waitingState waitingIss := by
  unfold Whole
  decide

theorem findTicket_waiting : (waitingState.wv waitingIss).findTicket (waitingState.ssrc waitingIss waitingOps.a) = none := by decide

/-- It goes on waiting: no trap is noted. -/
theorem strap_waiting : ∃ t, exec (.txwait waitingHd waitingOps) waitingState = .next t ∧ (t.run.block 0).strap.isSome = false :=
  ⟨_, rfl, by decide⟩

/-- Refutes O44: of a ticket value that no slot holds the statement has TXWAIT trap. Where the group waits already, it waits on. -/
theorem not_transactions : ¬ Obligations.Transactions := by
  rintro ⟨htx, -⟩
  obtain ⟨-, hrest⟩ := htx waitingState waitingHd waitingOps waitingIss
  obtain ⟨-, -, hnone, -⟩ := hrest 6 issues_waiting rfl
  obtain ⟨-, htraps, -⟩ := hnone findTicket_waiting
  obtain ⟨tr, -, -, hexec⟩ := htraps whole_waiting
  obtain ⟨t, hnext, hwait⟩ := strap_waiting
  have hnoted := strap_trapAt (s := waitingState) (c := waitingIss) rfl rfl tr
  have ht : t = { waitingState with run := trapAt waitingState.sys waitingState.run waitingIss tr } :=
    Host.Outcome.next.inj (hnext.symm.trans hexec)
  rw [ht] at hwait
  exact Bool.false_ne_true (hwait.symm.trans hnoted)

end Sys2Proof.Machine
end

section
/-! The steps of pre-emption, refuted: the statement speaks of every state, those among them whose table of waves has two entries of one
number. The burns that a request ends are those of the wave that such a number reads, whosever entry it is. -/

namespace Sys2Proof.Machine

/-! ## Two entries of one number -/

/-- A wave of block 0, of context 0, in a burn. -/
def burningWave : Wave := { blk := 0, parts := [⟨0, 0, none, 1#32, 0, 0, .burn 500 3⟩] }

/-- A wave of block 4, of context 1. -/
def drainedWave : Wave := { blk := 4 }

/-- Context 1 has a drain requested; both waves stand under number 0. -/
def drainState : State where
  run := { State.reset.run with
    ctxs := [(1, { preempt := 1 })]
    blocks := [(0, { launch := 0, ctx := 0, nbh := 0, index := 0 }), (4, { launch := 0, ctx := 1, nbh := 0, index := 0 })]
    waves := [(0, burningWave), (0, drainedWave)] }
  sys := State.reset.sys

/-- No wave of context 1 is in a burn. -/
theorem calm_drainState : ∀ e ∈ drainState.run.waves, (drainState.run.block e.2.blk).ctx = 1 → ∀ p ∈ e.2.parts, ∀ a l,
    p.park ≠ .burn a l := by
  intro e he hmine p hp
  rcases List.mem_pair.mp he with rfl | rfl
  · exact absurd hmine (by decide)
  · cases hp

/-- The drain ends the burn of the other context's wave. -/
theorem burn_ended : ∃ t, exec (.preemptDrain 1 none) drainState = .next t ∧
    (t.run.wave 0).parts.all (fun p => p.park == .run) = true :=
  ⟨_, rfl, by decide⟩

/-- Refutes O55: of a drain of a context without burns the statement has that it changes no wave. -/
theorem not_preemption : ¬ Obligations.Preemption := by
  rintro ⟨hsteps, -⟩
  obtain ⟨hdrain, -⟩ := hsteps drainState 1 { preempt := 1 } rfl
  obtain ⟨t, hnext, hended⟩ := burn_ended
  obtain ⟨t', hnext', -, hframe, -⟩ := hdrain none (fun _ => by decide) (by decide) calm_drainState
  obtain rfl : t = t' := Host.Outcome.next.inj (hnext.symm.trans hnext')
  have hwaves : t.run.waves = drainState.run.waves := by
    have h := congrArg Run.waves hframe
    exact h
  have hwave : t.run.wave 0 = burningWave := congrArg (fun ws : Tbl Wave => (ws.get? 0).getD {}) hwaves
  rw [hwave] at hended
  exact absurd hended (by decide)

end Sys2Proof.Machine
end

section
/-! Queue slots and the placing of neighbourhoods, refuted: the statement speaks of every state, those among them whose table of launches has
two entries of one number. The rectangle is then chosen for the entry that waits, and the waves placed are those of the entry that the number
reads. -/

namespace Sys2Proof.Machine

/-- All neighbourhoods of this launch are placed; a block of it has 25 waves, of which a core holds 24. -/
def placedLaunch : Launch := { info := { grid := 0, roles := [⟨0, 8, 25⟩] } }

/-- Both launches stand under number 0; the second has a neighbourhood that waits, of blocks without waves. -/
def placeState : State where
  run := { State.reset.run with
    ctxs := [(0, { running := true })]
    launches := [(0, placedLaunch), (0, { info := { grid := 1 } })] }
  sys := { State.reset.sys with pmap := 0x1E4 }

theorem nextPlace_placeState : placeState.run.nextPlace placeState.sys 0 = some (0, [0, 1]) := by decide

/-- The 25th wave of a block finds no slot. -/
theorem indices_placed : ∃ t, exec (.neighbourhoodPlace 0) placeState = .next t ∧ t.run.waves.all (fun e => e.2.index != 24) = true :=
  ⟨_, rfl, by decide⟩

/-- Refutes O54: the statement has every wave of the launch's roles placed. -/
theorem not_slotsAndPlacing : ¬ Obligations.SlotsAndPlacing := by
  rintro ⟨-, hplace, -⟩
  obtain ⟨t, hnext, hindex⟩ := indices_placed
  obtain ⟨t', hnext', -, -, -, -, -, hblocks⟩ := hplace placeState 0 0 [0, 1] placedLaunch rfl nextPlace_placeState rfl (fun _ he => nomatch he)
  obtain rfl : t = t' := Host.Outcome.next.inj (hnext.symm.trans hnext')
  obtain ⟨b, y, -, -, -, -, -, -, -, -, hwaves⟩ := hblocks 0 0 rfl
  obtain ⟨n, w, -, hget, -, hidx, -⟩ := hwaves 24 (0, ⟨0, 8, 25⟩) (by decide)
  have hne := List.all_eq_true.mp hindex (n, w) (Tbl.mem_of_get? hget)
  rw [hidx] at hne
  exact absurd hne (by decide)

end Sys2Proof.Machine
end

section
/-! Requests from outside, refuted: the statement speaks of every state, those among them whose table of partitions is not in order. To write
a record there adds a second entry of its number, and where the queue pairs of the partition are counted, they then count twice. -/

namespace Sys2Proof.Machine

/-- 513 queue pairs with packets of one byte. -/
def narrowQps : Tbl Qp := (List.range 513).map (fun i => (i, { ctx := 0, mtu := 1 }))

/-- Partition 0 stands behind partition 1; the guest's memory is mapped onto itself. -/
def unorderedState : State where
  run := { State.reset.run with
    mem := placeTables []
    ctxs := [(0, { hostRoot := 0x10000 })]
    parts := [(1, {}), (0, { qps := narrowQps })] }
  sys := { State.reset.sys with pmap := 0x1E4 }

/-- The length of a data message. -/
def dataLength : Out → Nat
  | .data bs => bs.length
  | _ => 0

/-- Queue pair 512 answers a READ of two bytes in one packet of two. -/
theorem packets_answered : ∃ t, exec (.rdmaRead 0 512 { seq := 0 } 0x100000 2) unorderedState = .next t ∧ t.run.out.map dataLength = [2] :=
  ⟨_, rfl, by decide +kernel⟩

theorem rdmaAt_unorderedState (i : Nat) (hi : i < 2) : ∃ pa, [0x100000, 0x100001][i]? = some pa ∧
    rdmaAt unorderedState.sys unorderedState.run 0 (0x100000 + i) false = .ok pa := by
  match i with
  | 0 => exact ⟨0x100000, rfl, by decide⟩
  | 1 => exact ⟨0x100001, rfl, by decide⟩

/-- Refutes O51: the statement has no packet longer than the path MTU, here of one byte. -/
theorem not_outsideRequests : ¬ Obligations.OutsideRequests := by
  rintro ⟨-, -, -, hrdma⟩
  obtain ⟨hqp, -, -⟩ := hrdma unorderedState 0 512
  obtain ⟨-, -, hturn⟩ := hqp { ctx := 0, mtu := 1 } 0x100000 { seq := 0 } (by decide +kernel) (by decide) rfl
    (fun e he => by rintro ⟨-, hmig, -⟩; rcases List.mem_singleton.mp he with rfl; exact absurd hmig (by decide))
  obtain ⟨hreads, -⟩ := hturn rfl
  obtain ⟨cs, -, hshort, hexec⟩ := hreads 2 [0x100000, 0x100001] rfl ⟨rfl, rdmaAt_unorderedState⟩
  obtain ⟨t, hnext, hlong⟩ := packets_answered
  have ht := Host.Outcome.next.inj (hnext.symm.trans hexec)
  rw [ht] at hlong
  have hcs : cs.map List.length = [2] := by
    have h : (cs.map (fun c => Out.data c)).map dataLength = [2] := hlong
    rwa [List.map_map] at h
  obtain ⟨c, rfl, hc⟩ := List.map_eq_singleton_iff.mp hcs
  have := hshort c (List.mem_singleton_self c)
  exact absurd (hc ▸ this) (by decide)

end Sys2Proof.Machine
end

section
/-! Facts about the Inn's queues (R457 to R459): what the end of a record, the stop of a queue and the start of a record leave. -/

namespace Sys2Proof.Machine

/-! ## A value stored -/

/-- Memory `m'` holds the little-endian value `v` in the `n` bytes from `a` on, and elsewhere the bytes of `m`. -/
def StoredAt (m m' : SMap Byte) (a n v : Nat) : Prop :=
  (∀ k, (k < a ∨ a + n ≤ k) → memGet m' k = memGet m k) ∧ memRead m' a n = v % 256 ^ n

theorem memRead_lt (m : SMap Byte) (a n : Nat) : memRead m a n < 256 ^ n := by
  induction n generalizing a with
  | zero => exact Nat.one_pos
  | succ n ih =>
    have hbyte := (memGet m a).isLt
    have hrest := ih (a + 1)
    simp only [memRead]
    omega

theorem storedAt_storeBytes (r : Run) (a n v : Nat) : StoredAt r.mem (storeBytes r a (leBytes v n)).mem a n v := by
  rw [storeBytes_mem]
  refine ⟨fun k hk => memGet_memPut_of_out r.mem a k _ (by rwa [length_leBytes]), ?_⟩
  have h := memRead_memPut_leBytes r.mem a v n []
  rwa [List.append_nil] at h

/-! ## The queues of a run -/

section
variable {r : Run} {q : Nat} {x : Queue}

theorem Run.queue_of_get? (hx : r.queues.get? q = some x) : r.queue q = x := by
  simp only [Run.queue, hx, Option.getD_some]

theorem Run.queue_onQueue (hx : r.queues.get? q = some x) (f : Queue → Queue) : (r.onQueue q f).queue q = f x := by
  simp only [Run.queue, Run.onQueue, Tbl.get?_upd, if_true, hx, Option.map_some, Option.getD_some]

theorem Run.get?_onQueue (hx : r.queues.get? q = some x) (f : Queue → Queue) : (r.onQueue q f).queues.get? q = some (f x) := by
  simp only [Run.onQueue, Tbl.get?_upd, if_true, hx, Option.map_some]

theorem Run.get?_onQueue_of_ne {k : Nat} (hk : k ≠ q) (f : Queue → Queue) : (r.onQueue q f).queues.get? k = r.queues.get? k := by
  simp only [Run.onQueue, Tbl.get?_upd, if_neg hk]

end

@[simp] theorem queues_storeBytes (r : Run) (pa : Nat) (bs : List Byte) : (storeBytes r pa bs).queues = r.queues :=
  storeBytes_read Run.queues (fun _ _ _ => rfl) r pa bs

/-! ## The end of a record (R459) -/

/-- A queue without the records of a number. -/
def Queue.without (x : Queue) (k : Nat) : Queue := { x with cmds := x.cmds.filter (fun d => d.k ≠ k) }

/-- Whether a record names a completion word. -/
def Cmd.named (c : Cmd) : Prop := c.doneAt ≠ 0 ∧ c.doneAt % 8 = 0

section
variable {y : Sys} {r : Run} {q cid : Nat} {x : Queue} {c : Cmd}

theorem Cmd.named_of_not (h : ¬(c.doneAt = 0 ∨ c.doneAt % 8 ≠ 0)) : c.named := by
  unfold Cmd.named
  omega

theorem cmdComplete_unnamed (h : c.doneAt = 0 ∨ c.doneAt % 8 ≠ 0) (st : Nat) :
    cmdComplete y r q c st = r.onQueue q (fun x => x.without c.k) := if_pos h

/-- What becomes of a record that names its completion word. -/
theorem cmdComplete_named (h : c.named) (hctx : r.ctxOfQueue q = some cid) (st : Nat) :
    cmdComplete y r q c st = match reachOf y r cid c.doneAt true with
      | .ok pa => storeBytes (r.onQueue q (fun x => x.without c.k)) pa (leBytes (st + 256) 8)
      | .bad => r.onQueue q (fun x => x.without c.k)
      | .wait => r.onQueue q (fun x => { x with cmds := x.cmds.map (fun d => if d.k = c.k then { d with st := .complete st } else d) }) := by
  have hn : ¬(c.doneAt = 0 ∨ c.doneAt % 8 ≠ 0) := by
    obtain ⟨h0, h8⟩ := h
    omega
  rw [cmdComplete, if_neg hn, hctx]
  rfl

/-- A record is over in a run: it has left its queue, its word says so where it names one, and nothing else has changed. -/
structure RecordOver (y : Sys) (r r' : Run) (q cid : Nat) (x : Queue) (c : Cmd) (st : Nat) : Prop where
  queue : r'.queue q = x.without c.k
  frame : { r' with mem := r.mem, waves := r.waves, queues := r.queues } = r
  unnamed : c.doneAt = 0 ∨ c.doneAt % 8 ≠ 0 → r'.mem = r.mem
  word : ∀ pa, c.named → reachOf y r cid c.doneAt true = .ok pa → StoredAt r.mem r'.mem pa 8 (st + 256)

theorem frame_storeBytes_onQueue (r : Run) (q pa : Nat) (f : Queue → Queue) (bs : List Byte) :
    { storeBytes (r.onQueue q f) pa bs with mem := r.mem, waves := r.waves, queues := r.queues } = r := by
  have h := storeBytes_frame (r.onQueue q f) pa bs
  exact congrArg (fun z : Run => { z with queues := r.queues }) h

theorem doneWaits_iff : c.doneWaits y r cid = true ↔ c.named ∧ reachOf y r cid c.doneAt true = .wait := by
  simp only [Cmd.doneWaits, Cmd.named, Bool.and_eq_true, decide_eq_true_eq, and_assoc]

theorem recordOver_cmdComplete (hx : r.queues.get? q = some x) (hctx : r.ctxOfQueue q = some cid) (hw : c.doneWaits y r cid = false) (st : Nat) :
    RecordOver y r (cmdComplete y r q c st) q cid x c st := by
  by_cases hn : c.doneAt = 0 ∨ c.doneAt % 8 ≠ 0
  · rw [cmdComplete_unnamed hn]
    refine ⟨Run.queue_onQueue hx _, rfl, fun _ => rfl, fun pa hnamed => ?_⟩
    obtain ⟨h0, h8⟩ := hnamed
    omega
  · have hnamed := Cmd.named_of_not hn
    have hnw : reachOf y r cid c.doneAt true ≠ .wait := fun h => Bool.false_ne_true (hw.symm.trans (doneWaits_iff.mpr ⟨hnamed, h⟩))
    rw [cmdComplete_named hnamed hctx]
    cases hreach : reachOf y r cid c.doneAt true with
    | wait => exact absurd hreach hnw
    | bad => exact ⟨Run.queue_onQueue hx _, rfl, fun h => absurd h hn, fun pa _ h => Reach.noConfusion (hreach.symm.trans h)⟩
    | ok pa =>
      refine ⟨?_, frame_storeBytes_onQueue r q pa _ _, fun h => absurd h hn, fun pa' _ h => ?_⟩
      · have := Run.queue_onQueue hx (fun x => x.without c.k)
        simpa only [Run.queue, queues_storeBytes] using this
      · obtain rfl : pa = pa' := Reach.ok.inj (hreach.symm.trans h)
        exact storedAt_storeBytes (r.onQueue q _) pa 8 (st + 256)

end

/-! ## A queue that stops (R457, R537) -/

section
variable {r : Run} {q : Nat} {x : Queue}

theorem get?_queueStop (hx : r.queues.get? q = some x) : (queueStop r q).queues.get? q = some { x with stopped := true } := by
  have h : (queueStop r q).queues = (storeBytes (r.onQueue q (fun x => { x with stopped := true })) ((r.queue q).qcb + 0x20) (leBytes 1 4)).queues := rfl
  rw [h, queues_storeBytes]
  exact Run.get?_onQueue hx _

theorem storedAt_queueStop (hx : r.queues.get? q = some x) : StoredAt r.mem (queueStop r q).mem (x.qcb + 0x20) 4 1 := by
  rw [← Run.queue_of_get? hx]
  exact storedAt_storeBytes (r.onQueue q _) _ 4 1

/-- A record without a completion word whose field is out of bounds: its queue stops, and it has left it. -/
theorem badField_unnamed (y : Sys) {c : Cmd} (hx : r.queues.get? q = some x) (h : c.doneAt = 0) :
    StoredAt r.mem (badField y r q c).mem (x.qcb + 0x20) 4 1 ∧ (badField y r q c).queue q = { x.without c.k with stopped := true } := by
  have he : badField y r q c = (queueStop r q).onQueue q (fun x => x.without c.k) := cmdComplete_unnamed (Or.inl h) 1
  rw [he]
  exact ⟨storedAt_queueStop hx, Run.queue_onQueue (get?_queueStop hx) _⟩

end

/-! ## The start of a record (R458, R459) -/

/-- A queue with its records of a number started. -/
def Queue.withStarted (x : Queue) (clk k : Nat) (l : Option Nat) : Queue :=
  { x with last := clk, cmds := x.cmds.map (fun d => if d.k = k then { d with st := .started, launch := l } else d) }

theorem filter_map_of_ne (xs : List Cmd) (k : Nat) (f : Cmd → Cmd) (hf : ∀ d, (f d).k = d.k) :
    (xs.map (fun d => if d.k = k then f d else d)).filter (fun d => d.k ≠ k) = xs.filter (fun d => d.k ≠ k) := by
  induction xs with
  | nil => rfl
  | cons d xs ih =>
    by_cases hd : d.k = k
    · rw [List.map_cons, if_pos hd, List.filter_cons_of_neg (by simp [hf, hd]), List.filter_cons_of_neg (by simp [hd])]
      exact ih
    · rw [List.map_cons, if_neg hd, List.filter_cons_of_pos (by simp [hd]), List.filter_cons_of_pos (by simp [hd]), ih]

theorem Queue.without_withStarted (x : Queue) (clk k : Nat) (l : Option Nat) :
    (x.withStarted clk k l).without k = { x.without k with last := clk } := by
  have h := filter_map_of_ne x.cmds k (fun d => { d with st := .started, launch := l }) (fun _ => rfl)
  exact congrArg (fun cs => ({ x with last := clk, cmds := cs } : Queue)) h

section
variable {y : Sys} {r : Run} {q cid ty : Nat} {x : Queue} {c : Cmd} {go : Sys → Run → Nat → Cmd → Run}

theorem get?_cmdStarted (hx : r.queues.get? q = some x) (k : Nat) (l : Option Nat) :
    (cmdStarted r q k l).queues.get? q = some (x.withStarted r.clk k l) := Run.get?_onQueue hx _

theorem queue_cmdStarted (hx : r.queues.get? q = some x) (k : Nat) (l : Option Nat) :
    (cmdStarted r q k l).queue q = x.withStarted r.clk k l := Run.queue_onQueue hx _

theorem ctxOfQueue_of_running (h : r.ctxRunning q = some cid) : r.ctxOfQueue q = some cid := (Option.filter_eq_some_iff.mp h).1

theorem ctxOfQueue_cmdStarted (hx : r.queues.get? q = some x) (k : Nat) (l : Option Nat) :
    (cmdStarted r q k l).ctxOfQueue q = r.ctxOfQueue q := by
  simp only [Run.ctxOfQueue, queue_cmdStarted hx, Run.queue_of_get? hx]
  rfl

/-- The completion word of a record lies where the tenant can write, or it names none. -/
def Cmd.bounded (c : Cmd) (y : Sys) (r : Run) (cid : Nat) : Prop := c.doneAt = 0 ∨ ∃ pa, reachOf y r cid c.doneAt true = .ok pa

theorem Cmd.bounded.not_doneWaits (h : c.bounded y r cid) : c.doneWaits y r cid = false := by
  rw [← Bool.not_eq_true, doneWaits_iff]
  rintro ⟨⟨h0, -⟩, hwait⟩
  rcases h with h | ⟨pa, h⟩
  · exact h0 h
  · exact Reach.noConfusion (h.symm.trans hwait)

theorem Cmd.bounded.not_bad (h : c.bounded y r cid) : ¬(c.doneAt ≠ 0 && reachOf y r cid c.doneAt true = .bad) = true := by
  rw [Bool.and_eq_true, decide_eq_true_eq, decide_eq_true_eq]
  rintro ⟨h0, hbad⟩
  rcases h with h | ⟨pa, h⟩
  · exact h0 h
  · exact Reach.noConfusion (h.symm.trans hbad)

/-- A malformed record that may start. -/
theorem cmdStart_malformed (hst : (r.queue q).startable = some c) (hrun : r.ctxRunning q = some cid) (hty : c.ty = ty ∨ 4 < c.ty)
    (hw : c.doneWaits y r cid = false) (hm : c.malformed = true) :
    cmdStart q c.k ty go y r = cmdComplete y (cmdStarted r q c.k none) q c 2 := by
  have hnot : ¬(c.k ≠ c.k ∨ (c.ty ≠ ty ∧ c.ty ≤ 4) ∨ c.doneWaits y r cid = true) := by
    rw [hw]
    rintro (h | ⟨h, h4⟩ | h)
    · exact h rfl
    · omega
    · exact Bool.false_ne_true h
  simp only [cmdStart, hst, hrun, if_neg hnot, hm, if_true]

/-- A good record that may start. -/
theorem cmdStart_good (hst : (r.queue q).startable = some c) (hrun : r.ctxRunning q = some cid) (hty : c.ty = ty)
    (hm : c.malformed = false) (hb : c.bounded y r cid) : cmdStart q c.k ty go y r = go y r cid c := by
  have hnot : ¬(c.k ≠ c.k ∨ (c.ty ≠ ty ∧ c.ty ≤ 4) ∨ c.doneWaits y r cid = true) := by
    rw [hb.not_doneWaits]
    rintro (h | ⟨h, -⟩ | h)
    · exact h rfl
    · exact h hty
    · exact Bool.false_ne_true h
  simp only [cmdStart, hst, hrun, if_neg hnot, hm, Bool.false_eq_true, if_false, if_neg hb.not_bad]

/-- A record starts and is over at once. -/
theorem recordOver_started (hx : r.queues.get? q = some x) (hrun : r.ctxRunning q = some cid) (hw : c.doneWaits y r cid = false) (st : Nat) :
    RecordOver y r (cmdComplete y (cmdStarted r q c.k none) q c st) q cid { x with last := r.clk } c st := by
  have hctx : (cmdStarted r q c.k none).ctxOfQueue q = some cid := (ctxOfQueue_cmdStarted hx c.k none).trans (ctxOfQueue_of_running hrun)
  obtain ⟨hqueue, hframe, hunnamed, hword⟩ := recordOver_cmdComplete (get?_cmdStarted hx c.k none) hctx hw st
  refine ⟨hqueue.trans (x.without_withStarted r.clk c.k none), ?_, hunnamed, hword⟩
  exact congrArg (fun z : Run => { z with queues := r.queues }) hframe

end

end Sys2Proof.Machine
end

section
/-! Command records (R457 to R459, R463, R535 to R537). -/

namespace Sys2Proof.Machine

/-! ## Fetching -/

section
variable {y : Sys} {r : Run} {q cid : Nat} {x : Queue}

/-- A queue whose control block the Inn looks at. -/
theorem wptrObserve_fetching (hx : r.queues.get? q = some x) (hm : x.mapped = true) (hs : x.stopped = false) (hc : r.ctxOfQueue q = some cid)
    (hf : (r.ctx cid).fetching = true) : wptrObserve y r q =
      if memRead r.mem (x.qcb + 0x10) 8 < x.rptr ∨ x.rptr + 2 ^ x.logn < memRead r.mem (x.qcb + 0x10) 8 then queueStop r q
      else fetchRecords y q cid (memRead r.mem (x.qcb + 0x10) 8 - x.rptr) r := by
  have hnot : ¬((!x.mapped) = true ∨ x.stopped = true ∨ (!(r.ctx cid).fetching) = true) := by simp [hm, hs, hf]
  simp only [wptrObserve, hc, Run.queue_of_get? hx, if_neg hnot]

/-- The record at RPTR is fetched. -/
theorem fetchRecords_ok (hx : r.queues.get? q = some x) {pa : Nat} (hreach : recordReach y r cid x x.rptr = .ok pa) :
    fetchRecords y q cid 1 r = storeBytes
      (r.onQueue q (fun x => { x with cmds := x.cmds ++ [{ k := x.rptr, words := recordWords r pa }], rptr := x.rptr + 1 }))
      (x.qcb + 0x18) (leBytes (x.rptr + 1) 8) := by
  simp only [fetchRecords, Run.queue_of_get? hx, hreach]

theorem fetchRecords_bad (hx : r.queues.get? q = some x) (hreach : recordReach y r cid x x.rptr = .bad) (n : Nat) :
    fetchRecords y q cid (n + 1) r = queueStop r q := by
  simp only [fetchRecords, Run.queue_of_get? hx, hreach]

theorem fetchRecords_wait (hx : r.queues.get? q = some x) (hreach : recordReach y r cid x x.rptr = .wait) (n : Nat) :
    fetchRecords y q cid (n + 1) r = r := by
  simp only [fetchRecords, Run.queue_of_get? hx, hreach]

/-- Through a ring without its tag no record can be read. -/
theorem recordReach_of_untagged (h : x.ring.tag = false) (k : Nat) : recordReach y r cid x k = .bad := by
  have : (x.recordCap k).allows false (x.recordCap k).base.toNat 64 = false := by
    simp [Capability.allows, Queue.recordCap, Capability.narrow, h]
  simp only [recordReach, this, Bool.not_false, if_true]

/-- Through a ring that holds a record, the Inn reaches what the tenant's map gives. -/
theorem recordReach_of_inside (k : Nat) (ht : x.ring.tag = true) (hr : x.ring.read = true)
    (hin : x.ring.base.toNat + 64 * (k % 2 ^ x.logn) + 64 ≤ x.ring.base.toNat + x.ring.length.toNat)
    (hlt : x.ring.base.toNat + 64 * (k % 2 ^ x.logn) < 2 ^ 64) :
    recordReach y r cid x k = reachOf y r cid (x.ring.base.toNat + 64 * (k % 2 ^ x.logn)) false := by
  have hbase : (x.recordCap k).base.toNat = x.ring.base.toNat + 64 * (k % 2 ^ x.logn) := by
    simp only [Queue.recordCap, Capability.narrow, BitVec.toNat_ofNat, Nat.mod_eq_of_lt hlt]
  have hallows : (x.recordCap k).allows false (x.recordCap k).base.toNat 64 = true := by
    simp only [Capability.allows, hbase]
    simp [Queue.recordCap, Capability.narrow, ht, hr, hin]
  rw [recordReach, hallows, hbase]
  rfl

end

/-! ## Copies -/

/-- Every byte of a COPY command is in bounds. -/
def Cmd.copyBounded (c : Cmd) (y : Sys) (r : Run) (cid : Nat) : Prop :=
  (∀ a ∈ piecesOf c.addr (c.arg 1).toNat, reachOf y r cid a true ≠ .bad) ∧
  ∀ a ∈ piecesOf (c.arg 0).toNat (c.arg 1).toNat, reachOf y r cid a false ≠ .bad

theorem copyReach_contains_bad (y : Sys) (r : Run) (cid : Nat) (c : Cmd) :
    (copyReach y r cid c).contains .bad = true ↔ ¬c.copyBounded y r cid := by
  simp only [copyReach, Cmd.copyBounded, List.contains_iff_mem, List.mem_append, List.mem_map, not_and_or, not_forall, not_not, exists_prop]

theorem copyReach_not_bad {y : Sys} {r : Run} {cid : Nat} {c : Cmd} (h : c.copyBounded y r cid) :
    (copyReach y r cid c).contains .bad = false := by
  rw [← Bool.not_eq_true, copyReach_contains_bad, not_not]
  exact h

/-! ## Waits for a completion word -/

/-- A record that is complete but for its word, where it has a number. -/
def Cmd.pendingAt (k : Nat) (c : Cmd) : Option (Cmd × Nat) :=
  match c.st with
  | .complete st => if c.k = k then some (c, st) else none
  | _ => none

theorem Queue.pendingWord_eq (x : Queue) (k : Nat) : x.pendingWord k = x.cmds.findSome? (Cmd.pendingAt k) := rfl

theorem Cmd.pendingAt_of_complete {c : Cmd} {k st : Nat} (hst : c.st = .complete st) : c.pendingAt k = if c.k = k then some (c, st) else none := by
  rw [Cmd.pendingAt, hst]

theorem Cmd.pendingAt_eq_none {c : Cmd} {k : Nat} (h : ∀ st, c.k = k → c.st ≠ .complete st) : c.pendingAt k = none := by
  cases hst : c.st with
  | complete st => exact (Cmd.pendingAt_of_complete hst).trans (if_neg fun hk => h st hk hst)
  | fetched => rw [Cmd.pendingAt, hst]
  | started => rw [Cmd.pendingAt, hst]

theorem Queue.pendingWord_of_find? {x : Queue} {k st : Nat} {c : Cmd} (hc : x.cmds.find? (fun d => d.k = k) = some c) (hst : c.st = .complete st) :
    x.pendingWord k = some (c, st) := by
  obtain ⟨hk, pre, post, hcmds, hpre⟩ := List.find?_eq_some_iff_append.mp hc
  have hnone : ∀ d ∈ pre, Cmd.pendingAt k d = none := fun d hd =>
    Cmd.pendingAt_eq_none fun _ hdk => absurd (hpre d hd) (by simp [hdk])
  rw [Queue.pendingWord_eq, hcmds, List.findSome?_append, List.findSome?_eq_none_iff.mpr hnone, List.findSome?_cons,
    Cmd.pendingAt_of_complete hst, if_pos (of_decide_eq_true hk)]
  rfl

theorem Queue.pendingWord_eq_none {x : Queue} {k : Nat} (h : ∀ d ∈ x.cmds, ∀ st, d.k = k → d.st ≠ .complete st) : x.pendingWord k = none :=
  List.findSome?_eq_none_iff.mpr fun d hd => Cmd.pendingAt_eq_none (h d hd)

/-! ## Ends of records -/

/-- What the statement says of a record that is over. -/
theorem RecordOver.ends {s : State} {i : Instr} {r' : Run} {n cid st : Nat} {x : Queue} {c : Cmd} (hi : exec i s = .next { s with run := r' })
    (h : RecordOver s.sys s.run r' n cid x c st) (hst : st + 256 < 256 ^ 8) :
    Completes (exec i s) (fun t => t.sys = s.sys ∧ { t.run with mem := s.run.mem, waves := s.run.waves, queues := s.run.queues } = s.run ∧
      (t.run.queue n).cmds = x.cmds.filter (fun d => d.k ≠ c.k) ∧ (c.doneAt = 0 ∨ c.doneAt % 8 ≠ 0 → t.run.mem = s.run.mem) ∧
      ∀ pa, c.doneAt ≠ 0 → c.doneAt % 8 = 0 → reachOf s.sys s.run cid c.doneAt true = .ok pa →
        (∀ a, (a < pa ∨ pa + 8 ≤ a) → memGet t.run.mem a = memGet s.run.mem a) ∧ memRead t.run.mem pa 8 = st + 256) := by
  obtain ⟨hqueue, hframe, hunnamed, hword⟩ := h
  refine ⟨_, hi, rfl, hframe, congrArg Queue.cmds hqueue, hunnamed, fun pa h0 h8 hreach => ?_⟩
  obtain ⟨hsame, hread⟩ := hword pa ⟨h0, h8⟩ hreach
  exact ⟨hsame, hread.trans (Nat.mod_eq_of_lt hst)⟩

/-- The run in which a good launch record has started as launch `m`. -/
def launchStarted (r : Run) (q k m : Nat) (z : Launch) : Run := cmdStarted { r with launches := r.launches.put m z } q k (some m)

/-- The launch that a record starts (R463). -/
def launchOf (r : Run) (q cid : Nat) (c : Cmd) (l : LaunchRec) : Launch where
  info := { l with grid := if bits c.hdr 32 32 = 0 then l.grid else bits c.hdr 32 32, det := if c.hdr.getLsbD 9 then c.hdr.getLsbD 10 else l.det }
  ctx := cid
  queue := some (q, c.k)
  cls := if c.hdr.getLsbD 11 then bits c.hdr 12 4 else (r.queue q).cls
  args := (List.range 5).map c.arg

theorem launchStart_ok {y : Sys} {r : Run} {q cid pa : Nat} {c : Cmd} (hreach : reachOf y r cid c.addr false = .ok pa) :
    launchStart q c.k y r cid c =
      let bs := memBytes r.mem pa 256
      if (recordReserved bs || (launchRecord bs).bad) = true then cmdComplete y (cmdStarted r q c.k none) q c 2
      else if (launchRecord bs).need then cmdComplete y (cmdStarted r q c.k none) q c 3
      else launchStarted r q c.k (Tbl.free r.launches 0) (launchOf r q cid c (launchRecord bs)) := by
  simp only [launchStart, hreach]
  rfl

theorem launchEnd_unnamed {y : Sys} {r : Run} {l q k : Nat} {z : Launch} {x : Queue} {c : Cmd} (hz : r.launches.get? l = some z)
    (hq : z.queue = some (q, k)) (hx : r.queues.get? q = some x) (hc : x.started k 1 = some c) (h : c.doneAt = 0) :
    launchEnd y r l 0 = (launchDrop r l).onQueue q (fun x => x.without c.k) := by
  have hz' : r.launch l = z := by simp only [Run.launch, hz, Option.getD_some]
  have hc' : ((launchDrop r l).queue q).started k 1 = some c := (congrArg (fun z : Queue => z.started k 1) (Run.queue_of_get? hx)).trans hc
  simp only [launchEnd, hz', hq, hc']
  exact cmdComplete_unnamed (Or.inl h) 0

end Sys2Proof.Machine
end

section
/-! Command records: the statement (R457 to R459, R463, R535 to R537). -/

namespace Sys2Proof.Machine

section
variable {s : State} {n cid : Nat} {x : Queue}

/-- A queue that stops, as the statement has it. -/
theorem stops_of_exec (hx : s.run.queues.get? n = some x) {i : Instr} (hi : exec i s = .next { s with run := queueStop s.run n }) :
    Completes (exec i s) (fun t => t.run.queue n = { x with stopped := true } ∧
      (∀ a, (a < x.qcb + 0x20 ∨ x.qcb + 0x20 + 4 ≤ a) → memGet t.run.mem a = memGet s.run.mem a) ∧ memRead t.run.mem (x.qcb + 0x20) 4 = 1) := by
  obtain ⟨hsame, hread⟩ := storedAt_queueStop hx
  exact ⟨_, hi, Run.queue_of_get? (get?_queueStop hx), hsame, hread⟩

theorem exec_wptrObserve_outside (hx : s.run.queues.get? n = some x) (hm : x.mapped = true) (hs : x.stopped = false)
    (hc : s.run.ctxOfQueue n = some cid) (hf : (s.run.ctx cid).fetching = true)
    (h : memRead s.run.mem (x.qcb + 0x10) 8 < x.rptr ∨ x.rptr + 2 ^ x.logn < memRead s.run.mem (x.qcb + 0x10) 8) :
    exec (.wptrObserve n) s = .next { s with run := queueStop s.run n } := by
  have he := wptrObserve_fetching (y := s.sys) hx hm hs hc hf
  rw [if_pos h] at he
  exact congrArg (fun r => Host.Outcome.next { s with run := r }) he

theorem exec_wptrObserve_next (hx : s.run.queues.get? n = some x) (hm : x.mapped = true) (hs : x.stopped = false)
    (hc : s.run.ctxOfQueue n = some cid) (hf : (s.run.ctx cid).fetching = true) (hw : memRead s.run.mem (x.qcb + 0x10) 8 = x.rptr + 1) :
    exec (.wptrObserve n) s = .next { s with run := fetchRecords s.sys n cid 1 s.run } := by
  have he := wptrObserve_fetching (y := s.sys) hx hm hs hc hf
  have hpos : 0 < 2 ^ x.logn := Nat.two_pow_pos _
  rw [hw, if_neg (by omega), Nat.add_sub_cancel_left] at he
  exact congrArg (fun r => Host.Outcome.next { s with run := r }) he

/-- The record at RPTR, fetched. -/
theorem fetched_of_exec (hx : s.run.queues.get? n = some x) (hw : memRead s.run.mem (x.qcb + 0x10) 8 = x.rptr + 1) {pa : Nat}
    (hreach : recordReach s.sys s.run cid x x.rptr = .ok pa)
    (hi : exec (.wptrObserve n) s = .next { s with run := fetchRecords s.sys n cid 1 s.run }) :
    Completes (exec (.wptrObserve n) s) (fun t => t.sys = s.sys ∧
      (∀ a, (a < x.qcb + 0x18 ∨ x.qcb + 0x18 + 8 ≤ a) → memGet t.run.mem a = memGet s.run.mem a) ∧
      memRead t.run.mem (x.qcb + 0x18) 8 = x.rptr + 1 ∧
      t.run.queue n = { x with cmds := x.cmds ++ [{ k := x.rptr, words := recordWords s.run pa }], rptr := x.rptr + 1 }) := by
  rw [fetchRecords_ok hx hreach] at hi
  obtain ⟨hsame, hread⟩ := storedAt_storeBytes
    (s.run.onQueue n (fun x => { x with cmds := x.cmds ++ [{ k := x.rptr, words := recordWords s.run pa }], rptr := x.rptr + 1 }))
    (x.qcb + 0x18) 8 (x.rptr + 1)
  have hlt : x.rptr + 1 < 256 ^ 8 := hw ▸ memRead_lt s.run.mem (x.qcb + 0x10) 8
  refine ⟨_, hi, rfl, hsame, hread.trans (Nat.mod_eq_of_lt hlt), ?_⟩
  simp only [Run.queue, queues_storeBytes]
  exact Run.queue_onQueue hx _

/-- A record starts, as the statement has it. -/
theorem starts_of_exec (hx : s.run.queues.get? n = some x) {i : Instr} {k : Nat} {l : Option Nat}
    (hi : exec i s = .next { s with run := cmdStarted s.run n k l }) :
    Completes (exec i s) (fun t => t.run.mem = s.run.mem ∧ t.run.queue n = x.withStarted s.run.clk k l) :=
  ⟨_, hi, rfl, queue_cmdStarted hx k l⟩

section
variable {c : Cmd} (hx : s.run.queues.get? n = some x) (hrun : s.run.ctxRunning n = some cid)
include hx hrun

/-- A malformed record of any type completes with BADREC. -/
theorem malformed_ends (hst : x.startable = some c) {i : Instr} {ty : Nat} {go : Sys → Run → Nat → Cmd → Run}
    (hi : exec i s = event s (cmdStart n c.k ty go)) (hty : c.ty = ty ∨ 4 < c.ty) (hm : c.malformed = true)
    (hw : c.doneWaits s.sys s.run cid = false) :
    exec i s = .next { s with run := cmdComplete s.sys (cmdStarted s.run n c.k none) n c 2 } := by
  have hst' : (s.run.queue n).startable = some c := (congrArg Queue.startable (Run.queue_of_get? hx)).trans hst
  rw [hi, event, cmdStart_malformed hst' hrun hty hw hm]

/-- A good record of a type goes its way. -/
theorem good_goes (hst : x.startable = some c) {i : Instr} {ty : Nat} {go : Sys → Run → Nat → Cmd → Run}
    (hi : exec i s = event s (cmdStart n c.k ty go)) (hty : c.ty = ty) (hm : c.malformed = false) (hb : c.bounded s.sys s.run cid) :
    exec i s = .next { s with run := go s.sys s.run cid c } := by
  have hst' : (s.run.queue n).startable = some c := (congrArg Queue.startable (Run.queue_of_get? hx)).trans hst
  rw [hi, event, cmdStart_good hst' hrun hty hm hb]

theorem exec_copy_inBounds (hst : x.startable = some c) (hty : c.ty = 2) (hm : c.malformed = false) (hb : c.bounded s.sys s.run cid)
    (hin : c.copyBounded s.sys s.run cid) : exec (.copy n c.k) s = .next { s with run := cmdStarted s.run n c.k none } := by
  rw [good_goes hx hrun hst (i := .copy n c.k) rfl hty hm hb, copyStartCmd, copyReach_not_bad hin]
  rfl

/-- A COPY of which a byte is out of bounds stops its queue. -/
theorem copy_outOfBounds (hst : x.startable = some c) (hty : c.ty = 2) (hm : c.malformed = false) (hb : c.bounded s.sys s.run cid)
    (hin : ¬c.copyBounded s.sys s.run cid) (h0 : c.doneAt = 0) : Completes (exec (.copy n c.k) s) (fun t =>
      (∀ a, (a < x.qcb + 0x20 ∨ x.qcb + 0x20 + 4 ≤ a) → memGet t.run.mem a = memGet s.run.mem a) ∧ memRead t.run.mem (x.qcb + 0x20) 4 = 1 ∧
      t.run.queue n = { x.without c.k with last := s.run.clk, stopped := true }) := by
  have hexec := good_goes hx hrun hst (i := .copy n c.k) rfl hty hm hb
  rw [copyStartCmd, if_pos ((copyReach_contains_bad s.sys s.run cid c).mpr hin)] at hexec
  obtain ⟨⟨hsame, hread⟩, hqueue⟩ := badField_unnamed s.sys (get?_cmdStarted hx c.k none) h0
  rw [Queue.without_withStarted] at hqueue
  exact ⟨_, hexec, hsame, hread, hqueue⟩

theorem exec_wait_inBounds (hst : x.startable = some c) (hty : c.ty = 3) (hm : c.malformed = false) (hb : c.bounded s.sys s.run cid)
    (hin : reachOf s.sys s.run cid c.addr false ≠ .bad) : exec (.wait n c.k) s = .next { s with run := cmdStarted s.run n c.k none } := by
  rw [good_goes hx hrun hst (i := .wait n c.k) rfl hty hm hb, if_neg hin]

/-- A SIGNAL writes its value. -/
theorem exec_signal_ok (hst : x.startable = some c) (hty : c.ty = 4) (hm : c.malformed = false) (hb : c.bounded s.sys s.run cid) {pa : Nat}
    (hreach : reachOf s.sys s.run cid c.addr true = .ok pa) : exec (.signal n c.k) s =
      .next { s with run := cmdComplete s.sys (storeBytes (cmdStarted s.run n c.k none) pa (leBytes (c.arg 0).toNat 8)) n c 0 } := by
  rw [good_goes hx hrun hst (i := .signal n c.k) rfl hty hm hb, hreach]

theorem signal_unnamed (hst : x.startable = some c) (hty : c.ty = 4) (hm : c.malformed = false) (hb : c.bounded s.sys s.run cid) {pa : Nat}
    (hreach : reachOf s.sys s.run cid c.addr true = .ok pa) (h0 : c.doneAt = 0) :
    Completes (exec (.signal n c.k) s) (fun t => t.sys = s.sys ∧ (∀ a, (a < pa ∨ pa + 8 ≤ a) → memGet t.run.mem a = memGet s.run.mem a) ∧
      memRead t.run.mem pa 8 = (c.arg 0).toNat ∧ (t.run.queue n).cmds = x.cmds.filter (fun d => d.k ≠ c.k)) := by
  have hexec := exec_signal_ok hx hrun hst hty hm hb hreach
  rw [cmdComplete_unnamed (Or.inl h0)] at hexec
  obtain ⟨hsame, hread⟩ := storedAt_storeBytes (cmdStarted s.run n c.k none) pa 8 (c.arg 0).toNat
  have hget : (storeBytes (cmdStarted s.run n c.k none) pa (leBytes (c.arg 0).toNat 8)).queues.get? n = some (x.withStarted s.run.clk c.k none) := by
    rw [queues_storeBytes]
    exact get?_cmdStarted hx c.k none
  refine ⟨_, hexec, rfl, hsame, hread.trans (Nat.mod_eq_of_lt (c.arg 0).isLt), ?_⟩
  have hqueue := Run.queue_onQueue hget (fun x => x.without c.k)
  rw [Queue.without_withStarted] at hqueue
  exact congrArg Queue.cmds hqueue

theorem exec_launch_ok (hst : x.startable = some c) (hty : c.ty = 1) (hm : c.malformed = false) (hb : c.bounded s.sys s.run cid) {pa : Nat}
    (hreach : reachOf s.sys s.run cid c.addr false = .ok pa) {bs : List Byte} (hbs : memBytes s.run.mem pa 256 = bs) :
    exec (.launch n c.k) s =
      let r := if (recordReserved bs || (launchRecord bs).bad) = true then cmdComplete s.sys (cmdStarted s.run n c.k none) n c 2
        else if (launchRecord bs).need then cmdComplete s.sys (cmdStarted s.run n c.k none) n c 3
        else launchStarted s.run n c.k (Tbl.free s.run.launches 0) (launchOf s.run n cid c (launchRecord bs))
      .next { s with run := r } := by
  rw [good_goes hx hrun hst (i := .launch n c.k) rfl hty hm hb, launchStart_ok hreach, hbs]

/-- A good launch record starts a launch of a number that was free. -/
theorem launch_starts (hst : x.startable = some c) (hty : c.ty = 1) (hm : c.malformed = false) (hb : c.bounded s.sys s.run cid) {pa : Nat}
    (hreach : reachOf s.sys s.run cid c.addr false = .ok pa) {bs : List Byte} (hbs : memBytes s.run.mem pa 256 = bs)
    (hres : recordReserved bs = false) (hbad : (launchRecord bs).bad = false) (hneed : (launchRecord bs).need = false) :
    ∃ m, s.run.launches.get? m = none ∧ Completes (exec (.launch n c.k) s) (fun t =>
      (t.run.mem = s.run.mem ∧ t.run.queue n = x.withStarted s.run.clk c.k (some m)) ∧
      (∀ j, j ≠ m → t.run.launches.get? j = s.run.launches.get? j) ∧
      t.run.launches.get? m = some (launchOf s.run n cid c (launchRecord bs))) := by
  have hexec := exec_launch_ok hx hrun hst hty hm hb hreach hbs
  simp only [hres, hbad, hneed, Bool.or_self, Bool.false_eq_true, if_false] at hexec
  refine ⟨_, Tbl.get?_free s.run.launches 0, _, hexec, ⟨rfl, Run.queue_onQueue hx _⟩, fun j hj => ?_, ?_⟩
  · exact (Tbl.get?_put s.run.launches _ j _).trans (if_neg hj)
  · exact (Tbl.get?_put s.run.launches _ _ _).trans (if_pos rfl)

omit hrun in
/-- A record that waits for its word's page, as WAIT_SATISFIED finds it. -/
theorem exec_waitSatisfied_pending {k st : Nat} (hc : x.cmds.find? (fun d => d.k = k) = some c) (hst : c.st = .complete st) :
    exec (.waitSatisfied n k) s = .next { s with run := cmdComplete s.sys s.run n c st } := by
  have hp : (s.run.queue n).pendingWord k = some (c, st) :=
    (congrArg (fun z : Queue => z.pendingWord k) (Run.queue_of_get? hx)).trans (Queue.pendingWord_of_find? hc hst)
  rw [exec, execWaitSatisfied, event, waitDone, hp]

/-- A WAIT whose word can be read. -/
theorem exec_waitSatisfied_started {k pa : Nat} (hc : x.cmds.find? (fun d => d.k = k && d.ty = 3 && d.st = .started) = some c)
    (hnone : ∀ d ∈ x.cmds, ∀ st, d.k = k → d.st ≠ .complete st) (hreach : reachOf s.sys s.run cid c.addr false = .ok pa) :
    exec (.waitSatisfied n k) s =
      let r := if (c.arg 0).toNat ≤ memRead s.run.mem pa 8 then cmdComplete s.sys s.run n c 0 else s.run
      .next { s with run := r } := by
  have hq := Run.queue_of_get? hx
  have hp : (s.run.queue n).pendingWord k = none :=
    (congrArg (fun z : Queue => z.pendingWord k) hq).trans (Queue.pendingWord_eq_none hnone)
  have hs : (s.run.queue n).started k 3 = some c := (congrArg (fun z : Queue => z.started k 3) hq).trans hc
  simp only [exec, execWaitSatisfied, event, waitDone, hp, hs, hrun, waitMet, hreach, decide_eq_true_eq]

/-- A COPY that has moved its bytes, or one of which a byte is out of bounds by now. -/
theorem exec_copyCommandComplete {k : Nat} (hc : x.cmds.find? (fun d => d.k = k && d.ty = 2 && d.st = .started) = some c) :
    exec (.copyCommandComplete n k) s =
      let r := if (copyReach s.sys s.run cid c).contains .bad then badField s.sys s.run n c
        else if copyWaits s.sys s.run cid c then s.run
        else cmdComplete s.sys (moveBytes s.sys cid c.addr (c.arg 0).toNat (c.arg 1).toNat s.run) n c 0
      .next { s with run := r } := by
  have hs : (s.run.queue n).started k 2 = some c := (congrArg (fun z : Queue => z.started k 2) (Run.queue_of_get? hx)).trans hc
  simp only [exec, execCopyCommandComplete, event, copyDone, hs, hrun]

omit hx in
/-- A record whose word's page is still to come stays, complete. -/
theorem cmdComplete_waiting (hw : c.doneWaits s.sys s.run cid = true) (st : Nat) : cmdComplete s.sys s.run n c st =
    s.run.onQueue n (fun x => { x with cmds := x.cmds.map (fun d => if d.k = c.k then { d with st := .complete st } else d) }) := by
  obtain ⟨hnamed, hwait⟩ := doneWaits_iff.mp hw
  rw [cmdComplete_named hnamed (ctxOfQueue_of_running hrun), hwait]

end
end

/-- The number of a record that a queue holds. -/
theorem Cmd.k_of_find? {cs : List Cmd} {k : Nat} {c : Cmd} {p : Cmd → Bool} (h : cs.find? p = some c) (hp : ∀ d, p d = true → d.k = k) : c.k = k :=
  hp c (List.find?_some h)

/-- Settles O53: each step of the Inn on a queue is `cmdStart`, `cmdComplete` or `queueStop`, and what these leave is said once of each. -/
theorem queueCommands : Obligations.QueueCommands := by
  intro s n cid x hx hrun at_ same
  refine ⟨?fetch, ?outside, ?rest⟩
  case fetch =>
    intro hm hs hc hf hw _ at' mine stops
    have hexec := exec_wptrObserve_next hx hm hs hc hf hw
    have hstops (hbad : recordReach s.sys s.run cid x x.rptr = .bad) : stops :=
      stops_of_exec hx (by rw [hexec, fetchRecords_bad hx hbad])
    refine ⟨fun pa hreach => fetched_of_exec hx hw hreach hexec, fun hwait => ?_, hstops, fun htag => hstops (recordReach_of_untagged htag x.rptr), ?_⟩
    · rw [hexec, fetchRecords_wait hx hwait]
    · rintro ⟨htag, hread, hin, hlt⟩
      exact recordReach_of_inside x.rptr htag hread hin hlt
  case outside =>
    intro hm hs hc hf hw
    exact stops_of_exec hx (exec_wptrObserve_outside hx hm hs hc hf hw)
  intro inBounds
  refine ⟨?start, ?copied, ?pending, ?waited, ?launched, ?notOver⟩
  case start =>
    intro c hst starts bounded ends
    have hends {i : Instr} {st : Nat} (hw : c.doneWaits s.sys s.run cid = false) (hlt : st < 256)
        (hi : exec i s = .next { s with run := cmdComplete s.sys (cmdStarted s.run n c.k none) n c st }) : ends i st := by
      have h := (recordOver_started (y := s.sys) hx hrun hw st).ends hi (by omega)
      exact h
    refine ⟨?_, fun hm hb => ⟨?_, ?_, ?_, ?_, ?_, ?_⟩⟩
    · intro e he hty hm hw
      simp only [List.mem_cons, List.not_mem_nil, or_false] at he
      have hbadrec {i : Instr} {ty : Nat} {go : Sys → Run → Nat → Cmd → Run} (hi : exec i s = event s (cmdStart n c.k ty go))
          (hty : c.ty = ty ∨ 4 < c.ty) : ends i 2 := hends hw (by decide) (malformed_ends hx hrun hst hi hty hm hw)
      rcases he with rfl | rfl | rfl | rfl | rfl
      all_goals exact hbadrec rfl hty
    · exact fun hty => hends (Cmd.bounded.not_doneWaits hb) (by decide) (good_goes hx hrun hst (i := .cmdNop n c.k) rfl hty hm hb)
    · exact fun hty hin => starts_of_exec hx (exec_copy_inBounds hx hrun hst hty hm hb hin)
    · exact fun hty hin h0 => copy_outOfBounds hx hrun hst hty hm hb hin h0
    · exact fun hty hin => starts_of_exec hx (exec_wait_inBounds hx hrun hst hty hm hb hin)
    · exact fun pa hty hreach => ⟨exec_signal_ok hx hrun hst hty hm hb hreach, signal_unnamed hx hrun hst hty hm hb hreach⟩
    · intro pa hty hreach bs l
      have hexec := exec_launch_ok hx hrun hst hty hm hb hreach rfl
      refine ⟨fun h => hends (Cmd.bounded.not_doneWaits hb) (st := 2) (by decide) ?_, fun hres hbad hneed => hends (Cmd.bounded.not_doneWaits hb) (st := 3) (by decide) ?_,
        fun hres hbad hneed => ?_⟩
      · rw [hexec, if_pos (by simpa only [Bool.or_eq_true] using h)]
      · rw [hexec]
        simp only [show recordReserved (memBytes s.run.mem pa 256) = false from hres, show (launchRecord (memBytes s.run.mem pa 256)).bad = false from hbad,
          show (launchRecord (memBytes s.run.mem pa 256)).need = true from hneed, Bool.or_self, Bool.false_eq_true, if_false, if_true]
      · obtain ⟨m, hfree, t, ht, hstarts, hothers, hlaunch⟩ := launch_starts hx hrun hst hty hm hb hreach rfl hres hbad hneed
        have hcls : (s.run.queue n).cls = x.cls := congrArg Queue.cls (Run.queue_of_get? hx)
        exact ⟨m, hfree, t, ht, hstarts, hothers, _, hlaunch, rfl, rfl, rfl, rfl, rfl, rfl, rfl, rfl,
          congrArg (fun z => if c.hdr.getLsbD 11 then bits c.hdr 12 4 else z) hcls⟩
  case copied =>
    intro c k hc
    have hexec := exec_copyCommandComplete hx hrun hc
    refine ⟨fun hin hw => ?_, fun hin hw => ?_, fun hin => ?_⟩
    · rw [hexec, copyReach_not_bad hin, hw]
      rfl
    · rw [hexec, copyReach_not_bad hin, hw]
      rfl
    · rw [hexec, if_pos ((copyReach_contains_bad s.sys s.run cid c).mpr hin)]
  case pending =>
    intro c st k hc hst h0 h8
    have hexec := exec_waitSatisfied_pending hx hc hst
    have hk : c.k = k := Cmd.k_of_find? hc (fun d hd => of_decide_eq_true hd)
    refine ⟨fun hwait => ?_, fun pa hreach => ?_⟩
    · rw [cmdComplete_waiting hrun (doneWaits_iff.mpr ⟨⟨h0, h8⟩, hwait⟩)] at hexec
      refine ⟨_, hexec, rfl, ?_⟩
      have hqueue := Run.queue_onQueue hx (fun x => { x with cmds := x.cmds.map (fun d => if d.k = c.k then { d with st := .complete st } else d) })
      rw [congrArg Queue.cmds hqueue]
      refine List.mem_map.mpr ⟨c, List.mem_of_find?_eq_some hc, ?_⟩
      rw [if_pos rfl, ← hst]
    · have hw : c.doneWaits s.sys s.run cid = false := Cmd.bounded.not_doneWaits (Or.inr ⟨pa, hreach⟩)
      obtain ⟨hqueue, -, -, hword⟩ := recordOver_cmdComplete (y := s.sys) hx (ctxOfQueue_of_running hrun) hw st
      obtain ⟨hsame, hread⟩ := hword pa ⟨h0, h8⟩ hreach
      refine ⟨_, hexec, hsame, fun hlt => hread.trans (Nat.mod_eq_of_lt (by omega)), ?_⟩
      exact hk ▸ congrArg Queue.cmds hqueue
  case waited =>
    intro c k pa hc hnone hreach
    have hexec := exec_waitSatisfied_started hx hrun hc hnone hreach
    have hk : c.k = k := Cmd.k_of_find? hc (fun d hd => by
      rw [Bool.and_eq_true, Bool.and_eq_true] at hd
      exact of_decide_eq_true hd.1.1)
    refine ⟨fun hlt => ?_, fun hle => ?_, fun hle hw => ?_, fun hle h0 => ?_⟩
    · rw [hexec, if_neg (Nat.not_le.mpr hlt)]
    · rw [hexec, if_pos hle]
    · rw [if_pos hle, cmdComplete_waiting hrun hw] at hexec
      exact ⟨_, hexec, rfl, hk ▸ Run.queue_onQueue hx _⟩
    · rw [if_pos hle, cmdComplete_unnamed (Or.inl h0)] at hexec
      exact ⟨_, hexec, rfl, hk ▸ Run.queue_onQueue hx _⟩
  case launched =>
    intro l z k c hz hq hover hc h0
    have hk : c.k = k := Cmd.k_of_find? hc (fun d hd => by
      rw [Bool.and_eq_true, Bool.and_eq_true] at hd
      exact of_decide_eq_true hd.1.1)
    have hexec : exec (.launchComplete l) s = .next { s with run := (launchDrop s.run l).onQueue n (fun x => x.without c.k) } := by
      rw [← launchEnd_unnamed (y := s.sys) hz hq hx hc h0, exec, execLaunchComplete, event, if_pos hover]
    refine ⟨_, hexec, rfl, (Tbl.get?_del s.run.launches l l).trans (if_pos rfl), ?_⟩
    exact hk ▸ Run.queue_onQueue (r := launchDrop s.run l) hx _
  case notOver =>
    intro l hover
    rw [exec, execLaunchComplete, event, hover]
    rfl

end Sys2Proof.Machine
end

section
/-! What the freezing of tenants changes of the contexts (R492): each that is frozen by it, and no other. -/

namespace Sys2Proof.Machine

/-! ## What stands while a context is frozen -/

/-- The contexts of a run, and its slices that are due to be mapped out or are mapped out. -/
def Run.roll (r : Run) : Tbl Ctx × List Nat × List Nat := (r.ctxs, r.sickSlices, r.outSlices)

section
variable (y : Sys) (r : Run)

@[simp] theorem roll_storeBytes (pa : Nat) (bs : List Byte) : (storeBytes r pa bs).roll = r.roll :=
  storeBytes_read Run.roll (fun _ _ _ => rfl) r pa bs

theorem roll_sendTickets (p : Nat) (ts : List Ticket) : (sendTickets y p ts r).roll = r.roll := by
  induction ts generalizing r with
  | nil => rfl
  | cons t ts ih =>
    rw [sendTickets]
    split
    · exact ih _
    · rfl

@[simp] theorem roll_sendDue (p : Nat) : (sendDue y r p).roll = r.roll := roll_sendTickets y r p _

theorem roll_endTicket (wid : Nat) (t : TickRef) : (endTicket y r wid t).roll = r.roll := roll_sendDue y _ _

theorem roll_dropTickets (wid : Nat) : (dropTickets y r wid).roll = r.roll :=
  Run.foldl_keeps Run.roll (fun r t => roll_endTicket y r wid t) _ r

theorem roll_endTickets (cid : Nat) : (endTickets y r cid).roll = r.roll :=
  (roll_sendDue y _ _).trans (Run.foldl_keeps Run.roll (fun r w => roll_dropTickets y r w) _ r)

theorem roll_mapOutPair (p : Nat) : (mapOutPair r p).roll = r.roll := by
  rw [mapOutPair]
  split <;> rfl

theorem roll_mapOutCluster (cl : Nat) : (mapOutCluster r cl).roll = r.roll := by
  rw [mapOutCluster]
  split <;> rfl

theorem roll_pairIdle (p : Nat) : (pairIdle r p).roll = r.roll := by
  rw [pairIdle]
  split
  · exact (roll_mapOutCluster _ _).trans (roll_mapOutPair _ p)
  · rfl

theorem roll_removeContext (cid : Nat) : (removeContext y r cid).roll = r.roll :=
  Run.foldl_keeps Run.roll roll_pairIdle _ _

theorem roll_sendFlow (p die f : Nat) (o : Bool) (ports : List Nat) (q : RemoteReq) : (sendFlow r p die f o ports q).roll = r.roll := by
  rw [sendFlow]
  split <;> rfl

theorem roll_toMembers (p g : Nat) (q : RemoteReq) : (toMembers r p g q).roll = r.roll :=
  Run.foldl_keeps Run.roll (fun r _ => roll_sendFlow r _ _ _ _ _ _) _ r

theorem roll_leaveColls (cid : Nat) : (leaveColls r cid).roll = r.roll :=
  Run.foldl_keeps Run.roll (fun r _ => roll_toMembers r _ _ _) _ r

theorem roll_cmdComplete (q : Nat) (c : Cmd) (st : Nat) : (cmdComplete y r q c st).roll = r.roll := by
  rw [cmdComplete]
  split
  · rfl
  · split
    · rfl
    · split
      · exact roll_storeBytes _ _ _
      · rfl
      · rfl

theorem roll_launchEnd (l st : Nat) : (launchEnd y r l st).roll = r.roll := by
  rw [launchEnd]
  split
  · rfl
  · split
    · exact roll_cmdComplete y _ _ _ _
    · rfl

theorem roll_queueUnmap (q : Nat) : (queueUnmap r q).roll = r.roll := by
  have h : (queueUnmap r q).roll = (storeBytes r (r.queue q).qcb (leBytes (r.queue q).ring.base.toNat 8 ++ leBytes (r.queue q).logn 1 ++
    leBytes (r.queue q).cls 1 ++ leBytes (r.queue q).tenant 2)).roll := rfl
  rw [h, roll_storeBytes]

theorem roll_freezeQueues (p t : Nat) : (freezeQueues y r p t).roll = r.roll := by
  refine Run.foldl_keeps Run.roll (fun r e => ?_) _ r
  have hcmds := Run.foldl_keeps (f := fun r c => match c.st with | .complete _ => r | _ => cmdComplete y r e.1 c 4) Run.roll
    (fun r (c : Cmd) => by
      split
      · rfl
      · exact roll_cmdComplete y r e.1 c 4) e.2.cmds r
  split
  · exact (roll_queueUnmap _ e.1).trans hcmds
  · exact hcmds

end

/-! ## A context that is frozen (R492) -/

/-- A context that has been frozen for a reason; one frozen before stays so. -/
def Ctx.frozenBy (reason : Nat) (c : Ctx) : Ctx :=
  if c.frozen.isSome then c else { c.setStep 4 true with frozen := some reason, saved := [], savedCores := [], seals := [] }

theorem Ctx.frozenBy_of_none {c : Ctx} (h : c.frozen = none) (reason : Nat) :
    c.frozenBy reason = { c.setStep 4 true with frozen := some reason, saved := [], savedCores := [], seals := [] } := by
  rw [Ctx.frozenBy, h]
  rfl

theorem Ctx.frozenBy_frozenBy (reason : Nat) (c : Ctx) : (c.frozenBy reason).frozenBy reason = c.frozenBy reason := by
  cases h : c.frozen with
  | none => rw [Ctx.frozenBy_of_none h]; rfl
  | some k => rw [Ctx.frozenBy, Ctx.frozenBy, h]; exact if_pos (congrArg Option.isSome h)

section
variable (y : Sys) (r : Run) (cid reason : Nat)

/-- A context's traces are gone from the device, its launches and the commands of its queues are over. -/
def takenDown (y : Sys) (r : Run) (cid : Nat) : Run :=
  let g := leaveColls (removeContext y (freeLocks (endTickets y r cid) cid) cid) cid
  freezeQueues y (((g.launches.filter (fun e => e.2.ctx = cid)).map (·.1)).foldl (fun r l => launchEnd y r l 4) g) (r.ctx cid).part (r.ctx cid).tenant

theorem roll_takenDown : (takenDown y r cid).roll = r.roll := by
  have hfreed := (roll_removeContext y (freeLocks (endTickets y r cid) cid) cid).trans (roll_endTickets y r cid)
  have hleft := (roll_leaveColls (removeContext y (freeLocks (endTickets y r cid) cid) cid) cid).trans hfreed
  have hended (ls : List Nat) (r : Run) := Run.foldl_keeps Run.roll (fun r l => roll_launchEnd y r l 4) ls r
  exact (roll_freezeQueues y _ _ _).trans ((hended _ _).trans hleft)

/-- A context that is frozen is taken down; then come the capture, the black box's notes and the record of the freeze. -/
theorem freezeCtx_eq {c : Ctx} (hc : r.ctxs.get? cid = some c) (hf : c.frozen = none) : ∃ ok pa bs n,
    freezeCtx y r cid reason = (((if ok = true then storeBytes (takenDown y r cid) pa bs else takenDown y r cid).event 1 c.tenant 0xFFFF reason c.part).event
      1 c.tenant 0xFFFF n c.part).onCtx cid (fun c => { c.setStep 4 true with frozen := some reason, saved := [], savedCores := [], seals := [] }) := by
  have hctx : r.ctx cid = c := by rw [Run.ctx, hc, Option.getD_some]
  have h : ¬((r.ctxs.get? cid).isNone = true ∨ (r.ctx cid).frozen.isSome = true) := by
    rw [hc, hctx, hf]
    simp
  rw [freezeCtx, if_neg h, ← hctx]
  exact ⟨_, _, _, _, rfl⟩

/-- Freezing a context that is not frozen changes it alone, and no slice. -/
theorem roll_freezeCtx {c : Ctx} (hc : r.ctxs.get? cid = some c) (hf : c.frozen = none) : (freezeCtx y r cid reason).roll =
    (r.onCtx cid (fun c => { c.setStep 4 true with frozen := some reason, saved := [], savedCores := [], seals := [] })).roll := by
  obtain ⟨ok, pa, bs, n, he⟩ := freezeCtx_eq y r cid reason hc hf
  have hroll : (if ok = true then storeBytes (takenDown y r cid) pa bs else takenDown y r cid).roll = r.roll := by
    split
    · exact (roll_storeBytes _ pa bs).trans (roll_takenDown y r cid)
    · exact roll_takenDown y r cid
  rw [he]
  exact congrArg (fun z : Tbl Ctx × List Nat × List Nat => (z.1.upd cid (fun c =>
    { c.setStep 4 true with frozen := some reason, saved := [], savedCores := [], seals := [] }), z.2)) hroll

theorem freezeCtx_of_isSome (h : (r.ctxs.get? cid).isNone ∨ (r.ctx cid).frozen.isSome) : freezeCtx y r cid reason = r := by
  rw [freezeCtx, if_pos h]

/-- What freezing a context leaves of each. -/
theorem get?_freezeCtx (k : Nat) : (freezeCtx y r cid reason).ctxs.get? k =
    if k = cid then (r.ctxs.get? k).map (Ctx.frozenBy reason) else r.ctxs.get? k := by
  cases hc : r.ctxs.get? cid with
  | none =>
    rw [freezeCtx_of_isSome y r cid reason (Or.inl (by rw [hc]; rfl))]
    split
    · next hk => rw [hk, hc]; rfl
    · rfl
  | some c =>
    cases hf : c.frozen with
    | none =>
      rw [show (freezeCtx y r cid reason).ctxs = _ from congrArg Prod.fst (roll_freezeCtx y r cid reason hc hf)]
      refine (Tbl.get?_upd r.ctxs cid k _).trans ?_
      split
      · next hk =>
        rw [hk, hc]
        exact congrArg some (Ctx.frozenBy_of_none hf reason).symm
      · rfl
    | some z =>
      have hctx : r.ctx cid = c := by rw [Run.ctx, hc, Option.getD_some]
      rw [freezeCtx_of_isSome y r cid reason (Or.inr (by rw [hctx, hf]; rfl))]
      split
      · next hk =>
        rw [hk, hc]
        exact congrArg some (if_pos (congrArg Option.isSome hf)).symm
      · rfl

theorem slices_freezeCtx : (freezeCtx y r cid reason).roll.2 = r.roll.2 := by
  by_cases h : (r.ctxs.get? cid).isNone ∨ (r.ctx cid).frozen.isSome
  · rw [freezeCtx_of_isSome y r cid reason h]
  · rw [not_or, Option.isNone_iff_eq_none, ← ne_eq, Option.ne_none_iff_exists'] at h
    obtain ⟨⟨c, hc⟩, hf⟩ := h
    have hctx : r.ctx cid = c := by rw [Run.ctx, hc, Option.getD_some]
    rw [hctx, Bool.not_eq_true, Option.isSome_eq_false_iff, Option.isNone_iff_eq_none] at hf
    have h := congrArg Prod.snd (roll_freezeCtx y r cid reason hc hf)
    exact h

end

/-! ## Many that are frozen -/

section
variable (y : Sys) (reason : Nat)

theorem get?_foldl_freezeCtx (ks : List Nat) (r : Run) (k : Nat) : (ks.foldl (fun r c => freezeCtx y r c reason) r).ctxs.get? k =
    if k ∈ ks then (r.ctxs.get? k).map (Ctx.frozenBy reason) else r.ctxs.get? k := by
  induction ks generalizing r with
  | nil => rfl
  | cons a ks ih =>
    rw [List.foldl_cons, ih, get?_freezeCtx]
    by_cases ha : k = a
    · subst ha
      have htwice : ((r.ctxs.get? k).map (Ctx.frozenBy reason)).map (Ctx.frozenBy reason) = (r.ctxs.get? k).map (Ctx.frozenBy reason) := by
        rw [Option.map_map]
        exact congrArg (fun f => (r.ctxs.get? k).map f) (funext (Ctx.frozenBy_frozenBy reason))
      simp only [if_true, htwice, List.mem_cons, true_or, ite_self]
    · simp only [ha, if_false, List.mem_cons, false_or]

theorem slices_foldl_freezeCtx (ks : List Nat) (r : Run) : (ks.foldl (fun r c => freezeCtx y r c reason) r).roll.2 = r.roll.2 :=
  Run.foldl_keeps (fun r => r.roll.2) (fun r c => slices_freezeCtx y r c reason) ks r

/-- A context of the tenant is frozen with it. -/
theorem get?_freezeTenant {r : Run} {cid : Nat} {c : Ctx} (hc : r.ctxs.get? cid = some c) :
    (freezeTenant y r c.part c.tenant reason).ctxs.get? cid = some (c.frozenBy reason) := by
  refine (get?_foldl_freezeCtx y reason _ r cid).trans ?_
  have hmem : cid ∈ (r.ctxs.filter (fun e => e.2.part = c.part && e.2.tenant = c.tenant)).map (·.1) :=
    List.mem_map.mpr ⟨(cid, c), List.mem_filter.mpr ⟨Tbl.mem_of_get? hc, by simp⟩, rfl⟩
  rw [if_pos hmem, hc]
  rfl

end

end Sys2Proof.Machine
end

section
/-! Power, temperature and failing units (R537, R542 to R544). -/

namespace Sys2Proof.Machine

/-! ## Power (R542) -/

section
variable (f : Die → Die)

theorem frame_foldl_onDie (ds : List Nat) (r : Run) : { ds.foldl (fun r d => r.onDie d f) r with dies := r.dies } = r := by
  induction ds generalizing r with
  | nil => rfl
  | cons d ds ih => exact congrArg (fun z : Run => { z with dies := r.dies }) (ih (r.onDie d f))

theorem die_foldl_onDie (ds : List Nat) (hd : ds.Nodup) (r : Run) (n : Nat) :
    (ds.foldl (fun r d => r.onDie d f) r).die n = if n ∈ ds then f (r.die n) else r.die n := by
  induction ds generalizing r with
  | nil => rfl
  | cons d ds ih =>
    obtain ⟨hnot, hds⟩ := List.nodup_cons.mp hd
    rw [List.foldl_cons, ih hds, Run.die_onDie]
    by_cases hn : n = d
    · subst hn
      simp only [hnot, if_true, if_false, List.mem_cons, true_or]
    · simp only [hn, if_false, List.mem_cons, false_or]

end

theorem Sys.nodup_diesOf (y : Sys) (p : Nat) : (y.diesOf p).Nodup := List.nodup_range.filter _

/-! ## The black box -/

theorem Run.event_mem (r : Run) (ty tenant src detail : Nat) (part : Option Nat) :
    ⟨r.bbNext, ty, tenant % 256, src, r.us % 2 ^ 32, detail % 2 ^ 32, part⟩ ∈ (r.event ty tenant src detail part).bb :=
  List.mem_cons_self

/-- A note outlives the next one. -/
theorem Run.mem_event_event (r : Run) (ty tenant src detail ty' tenant' src' detail' : Nat) :
    ⟨r.bbNext, ty, tenant % 256, src, r.us % 2 ^ 32, detail % 2 ^ 32, none⟩ ∈ ((r.event ty tenant src detail).event ty' tenant' src' detail').bb :=
  List.mem_cons_of_mem _ List.mem_cons_self

/-! ## The stop for temperature (R543) -/

/-- Every tenant is frozen, and the module powers down. -/
theorem thermalStop_eq {y : Sys} {r : Run} (h : r.down = false) (detail : Nat) : thermalStop y r detail =
    { ((((r.ctxs.map (·.1)).foldl (fun r c => freezeCtx y r c 7) r).event 5 0xFF 0xFFFF detail).send .powerDown) with down := true } := by
  rw [thermalStop, h]
  rfl

theorem thermalStop_down {y : Sys} {r : Run} (h : r.down = true) (detail : Nat) : thermalStop y r detail = r := by
  rw [thermalStop, h]
  rfl

/-- What the stop does, as the statement has it. -/
theorem thermalStop_stops {s : State} {i : Instr} {detail : Nat} (hi : exec i s = .next { s with run := thermalStop s.sys s.run detail }) :
    (s.run.down = true → exec i s = .next s) ∧
    (s.run.down = false → Completes (exec i s) (fun u => u.run.down = true ∧ Out.powerDown ∈ u.run.out ∧
      ∀ cid c, s.run.ctxs.get? cid = some c → c.frozen = none → (u.run.ctx cid).frozen = some 7)) := by
  refine ⟨fun hdown => hi.trans (by rw [thermalStop_down hdown]), fun hdown => ⟨_, hi, ?_⟩⟩
  simp only [thermalStop_eq hdown]
  refine ⟨trivial, List.mem_append_right _ (List.mem_singleton_self _), fun cid c hc hf => ?_⟩
  have hmem : cid ∈ s.run.ctxs.map (·.1) := List.mem_map.mpr ⟨(cid, c), Tbl.mem_of_get? hc, rfl⟩
  have hget := get?_foldl_freezeCtx s.sys 7 (s.run.ctxs.map (·.1)) s.run cid
  rw [if_pos hmem, hc, Option.map_some, Ctx.frozenBy_of_none hf] at hget
  have hctx := congrArg (fun z : Option Ctx => (z.getD {}).frozen) hget
  exact hctx

/-! ## Failing units (R544) -/

/-- While a context of a partition runs, its slices stay as they are. -/
theorem healthPoint_running {y : Sys} {r : Run} {p : Nat} (h : ∃ e ∈ r.ctxs, e.2.part = p ∧ e.2.running = true) : healthPoint y r p = r := by
  obtain ⟨e, he, hp, hrun⟩ := h
  have hany : r.ctxs.any (fun e => e.2.part = p && e.2.running) = true := List.any_eq_true.mpr ⟨e, he, by simp [hp, hrun]⟩
  rw [healthPoint, hany]
  exact if_pos (Or.inr rfl)

theorem healthPoint_none {y : Sys} {r : Run} (p : Nat) (h : r.sickSlices = []) : healthPoint y r p = r := by
  rw [healthPoint, h]
  exact if_pos (Or.inl rfl)

/-- A slice is due to be mapped out. -/
def sickened (r : Run) (n : Nat) : Run :=
  if !r.outSlices.contains n && !r.sickSlices.contains n then { r with sickSlices := r.sickSlices ++ [n] } else r

theorem mem_sickened {r : Run} {n : Nat} (h : n ∉ r.outSlices) : n ∈ (sickened r n).sickSlices := by
  by_cases hn : n ∈ r.sickSlices
  · have : (!r.outSlices.contains n && !r.sickSlices.contains n) = false := by simp [hn]
    rw [sickened, this]
    exact hn
  · have : (!r.outSlices.contains n && !r.sickSlices.contains n) = true := by simp [h, hn]
    rw [sickened, this]
    exact List.mem_append_right _ (List.mem_singleton_self n)

theorem sickened_frame (r : Run) (n : Nat) : { sickened r n with sickSlices := r.sickSlices } = r := by
  rw [sickened]
  split <;> rfl

/-- A cluster is mapped out with what the Inn says of it, or stays. -/
theorem mapOutCluster_cases (r : Run) (cl : Nat) :
    mapOutCluster r cl = r ∨ ∃ ps, mapOutCluster r cl = ({ r with outPairs := ps } : Run).service 2 cl 2 := by
  rw [mapOutCluster]
  split
  · exact Or.inr ⟨_, rfl⟩
  · exact Or.inl rfl

theorem mapOutCluster_keeps {α : Type} {r : Run} {cl : Nat} (g : Run → α)
    (hg : ∀ (r : Run) ps, g (({ r with outPairs := ps } : Run).service 2 cl 2) = g r) :
    g (mapOutCluster r cl) = g r := by
  rcases mapOutCluster_cases r cl with h | ⟨ps, h⟩
  · rw [h]
  · rw [h, hg]

/-- A cluster is noted as one with a faulty unit. -/
def withSick (r : Run) (n : Nat) : Run := if r.sick.contains n then r else { r with sick := r.sick ++ [n] }

theorem withSick_keeps {α : Type} (g : Run → α) (hg : ∀ (xs : List Nat) (r : Run), g { r with sick := xs } = g r) (r : Run) (n : Nat) :
    g (withSick r n) = g r := by
  rw [withSick]
  split
  · rfl
  · exact hg _ r

theorem mem_withSick (r : Run) (n : Nat) : n ∈ (withSick r n).sick := by
  rw [withSick]
  split
  · next h => exact List.contains_iff_mem.mp h
  · exact List.mem_append_right _ (List.mem_singleton_self n)

end Sys2Proof.Machine
end

section
/-! Power, temperature and failing units: the statement (R537, R542 to R544). -/

namespace Sys2Proof.Machine

section
variable (s : State)

theorem powerAverage_moves (p w : Nat) : Completes (exec (.powerAverage p w) s) (fun t => t.sys = s.sys ∧ { t.run with dies := s.run.dies } = s.run ∧
    ∀ d, t.run.die d = if d ∈ s.sys.diesOf p then
        (if (s.run.part p).cap < w then { s.run.die d with duty := (s.run.die d).duty - 1 }
        else if w * 100 < (s.run.part p).cap * 95 ∧ (s.run.die d).hot = 0 then { s.run.die d with duty := min 16 ((s.run.die d).duty + 1) }
        else s.run.die d)
      else s.run.die d) := by
  refine ⟨_, rfl, rfl, frame_foldl_onDie _ _ _, fun d => (die_foldl_onDie _ _ (s.sys.nodup_diesOf p) s.run d).trans ?_⟩
  simp only [Bool.and_eq_true, decide_eq_true_eq]

/-- Below 105 °C a reading changes its die alone. -/
theorem thermalReading_cool {die t sensor : Nat} (ht : t < 105) : exec (.thermalReading die t sensor) s =
    let x := s.run.die die
    let r := if x.hot = 2 ∧ 100 ≤ t then s.run
      else if 95 ≤ t ∨ (x.hot ≠ 0 ∧ 92 ≤ t) then s.run.onDie die (fun x => { x with hot := 1, duty := x.duty - 1 })
      else s.run.onDie die (fun x => { x with hot := 0 })
    .next { s with run := r } := by
  have h110 : ¬110 ≤ t := by omega
  have h105 : ¬105 ≤ t := by omega
  simp only [exec, execThermalReading, event, thermalReading, if_neg h110, if_neg h105, Bool.and_eq_true, Bool.or_eq_true, decide_eq_true_eq]

/-- From 105 °C on the die issues nothing, and that is noted. -/
theorem thermalReading_hot {die t sensor : Nat} (ht : t < 110) (h105 : 105 ≤ t) : exec (.thermalReading die t sensor) s =
    let r := (if (s.run.die die).hot = 2 then s.run else s.run.event 5 0xFF 0xFFFF (thermalDetail die sensor t)).onDie die (fun x => { x with hot := 2 })
    .next { s with run := r } := by
  have h110 : ¬110 ≤ t := by omega
  simp only [exec, execThermalReading, event, thermalReading, if_neg h110, if_pos h105]

theorem thermalReading_steps (die t sensor : Nat) (ht : t < 110) : Completes (exec (.thermalReading die t sensor) s) (fun u => u.sys = s.sys ∧
    u.run.mem = s.run.mem ∧ u.run.waves = s.run.waves ∧ (∀ d, d ≠ die → u.run.die d = s.run.die d) ∧
    let x := s.run.die die
    (105 ≤ t → u.run.die die = { x with hot := 2 } ∧ (x.hot ≠ 2 → ∃ e ∈ u.run.bb, e.ty = 5 ∧ e.seq = s.run.bbNext)) ∧
    (t < 105 → u.run.bb = s.run.bb ∧ (100 ≤ t → x.hot = 2 → u.run.die die = x) ∧
      (95 ≤ t → (x.hot ≠ 2 ∨ t < 100) → u.run.die die = { x with hot := 1, duty := x.duty - 1 }) ∧
      (t < 92 → u.run.die die = { x with hot := 0 }))) := by
  have hother {r : Run} {f : Die → Die} (hr : r.dies = s.run.dies) (d : Nat) (hd : d ≠ die) : (r.onDie die f).die d = s.run.die d :=
    (Run.die_onDie r die d f).trans ((if_neg hd).trans (congrArg (fun ds : Tbl Die => (ds.get? d).getD {}) hr))
  have hsame {r : Run} {f : Die → Die} (hr : r.dies = s.run.dies) : (r.onDie die f).die die = f (s.run.die die) :=
    (Run.die_onDie r die die f).trans ((if_pos rfl).trans (congrArg (fun ds : Tbl Die => f ((ds.get? die).getD {})) hr))
  by_cases h105 : 105 ≤ t
  · have hexec := thermalReading_hot s (die := die) (sensor := sensor) ht h105
    have hnot : ¬t < 105 := by omega
    by_cases hhot : (s.run.die die).hot = 2
    · simp only [if_pos hhot] at hexec
      exact ⟨_, hexec, rfl, rfl, rfl, hother rfl, fun _ => ⟨hsame rfl, fun h => absurd hhot h⟩, fun h => absurd h hnot⟩
    · simp only [if_neg hhot] at hexec
      exact ⟨_, hexec, rfl, rfl, rfl, hother rfl, fun _ => ⟨hsame rfl, fun _ => ⟨_, Run.event_mem _ _ _ _ _ _, rfl, rfl⟩⟩, fun h => absurd h hnot⟩
  · have hexec := thermalReading_cool s (sensor := sensor) (die := die) (Nat.not_le.mp h105)
    by_cases hwarm : (s.run.die die).hot = 2 ∧ 100 ≤ t
    · simp only [if_pos hwarm] at hexec
      obtain ⟨hhot, h100⟩ := hwarm
      exact ⟨_, hexec, rfl, rfl, rfl, fun _ _ => rfl, fun h => absurd h h105, fun _ => ⟨rfl, fun _ _ => rfl,
        fun _ h => by omega, fun h => by omega⟩⟩
    · simp only [if_neg hwarm] at hexec
      have hnotWarm : 100 ≤ t → (s.run.die die).hot = 2 → False := fun h100 hhot => hwarm ⟨hhot, h100⟩
      by_cases hfall : 95 ≤ t ∨ ((s.run.die die).hot ≠ 0 ∧ 92 ≤ t)
      · simp only [if_pos hfall] at hexec
        exact ⟨_, hexec, rfl, rfl, rfl, hother rfl, fun h => absurd h h105, fun _ => ⟨rfl, fun h100 hhot => (hnotWarm h100 hhot).elim,
          fun _ _ => hsame rfl, fun h => by omega⟩⟩
      · simp only [if_neg hfall] at hexec
        exact ⟨_, hexec, rfl, rfl, rfl, hother rfl, fun h => absurd h h105, fun _ => ⟨rfl, fun h100 hhot => (hnotWarm h100 hhot).elim,
          fun h _ => absurd (Or.inl h) hfall, fun _ => hsame rfl⟩⟩

/-- An uncorrectable error: the reader's tenant is frozen, and the slice is due to be mapped out. -/
theorem exec_eccError_bad (die slice c : Nat) : exec (.eccError die slice true (some c)) s =
    let n := die * 64 + slice
    let r := sickened s.run n
    .next { s with run := healthPoint s.sys (freezeTenant s.sys r (r.ctx c).part (r.ctx c).tenant 4) (s.sys.partOf die) } := by
  simp only [exec, execEccError, event, eccError, Bool.true_or, Bool.true_and, if_true]
  rfl

theorem eccError_bad_freezes (die slice : Nat) {c : Nat} {x : Ctx} (hx : s.run.ctxs.get? c = some x) (hf : x.frozen = none) (hrun : x.running = true)
    (hp : x.part = s.sys.partOf die) (hn : die * 64 + slice ∉ s.run.outSlices) : Completes (exec (.eccError die slice true (some c)) s)
    (fun t => t.sys = s.sys ∧ (t.run.ctx c).frozen = some 4 ∧ die * 64 + slice ∈ t.run.sickSlices) := by
  have hframe := sickened_frame s.run (die * 64 + slice)
  have hctxs : (sickened s.run (die * 64 + slice)).ctxs = s.run.ctxs := by
    have h := congrArg Run.ctxs hframe
    exact h
  have hget : (sickened s.run (die * 64 + slice)).ctxs.get? c = some x := hctxs ▸ hx
  have hctx : (sickened s.run (die * 64 + slice)).ctx c = x := by rw [Run.ctx, hget, Option.getD_some]
  have hfrozen := get?_freezeTenant s.sys 4 hget
  rw [Ctx.frozenBy_of_none hf] at hfrozen
  have hexec := exec_eccError_bad s die slice c
  simp only [hctx] at hexec
  rw [healthPoint_running ⟨_, Tbl.mem_of_get? hfrozen, hp, hrun⟩] at hexec
  refine ⟨_, hexec, rfl, congrArg (fun z : Option Ctx => (z.getD {}).frozen) hfrozen, ?_⟩
  have hsick := congrArg Prod.fst (slices_foldl_freezeCtx s.sys 4
    (((sickened s.run (die * 64 + slice)).ctxs.filter (fun e => e.2.part = x.part && e.2.tenant = x.tenant)).map (·.1)) (sickened s.run (die * 64 + slice)))
  have hmem : die * 64 + slice ∈ (freezeTenant s.sys (sickened s.run (die * 64 + slice)) x.part x.tenant 4).roll.2.1 := by
    rw [show (freezeTenant s.sys (sickened s.run (die * 64 + slice)) x.part x.tenant 4).roll.2.1 = _ from hsick]
    exact mem_sickened hn
  exact hmem

/-- The first corrected error of a slice is noted with its time. -/
theorem eccError_first (die slice : Nat) (h0 : SMap.get 0 s.run.eccAt (die * 64 + slice) = 0) (hs : s.run.sickSlices = []) :
    Completes (exec (.eccError die slice false none) s) (fun t => t.sys = s.sys ∧ { t.run with eccAt := s.run.eccAt } = s.run ∧
      SMap.get 0 t.run.eccAt (die * 64 + slice) = s.run.us + 1) := by
  have hexec : exec (.eccError die slice false none) s =
      .next { s with run := { s.run with eccAt := s.run.eccAt.set 0 (die * 64 + slice) (s.run.us + 1) } } := by
    have hpoint := healthPoint_none (y := s.sys) (r := { s.run with eccAt := s.run.eccAt.set 0 (die * 64 + slice) (s.run.us + 1) })
      (s.sys.partOf die) hs
    simp only [exec, execEccError, event, eccError, h0, ne_eq, not_true_eq_false, decide_false, Bool.false_and, Bool.or_self,
      Bool.false_eq_true, if_false]
    exact congrArg (fun z => Host.Outcome.next { s with run := z }) hpoint
  exact ⟨_, hexec, rfl, rfl, (SMap.get_set 0 s.run.eccAt (die * 64 + slice) (die * 64 + slice) (s.run.us + 1)).trans (if_pos rfl)⟩

/-- The second one within a second makes the slice due to be mapped out. -/
theorem eccError_second (die slice l : Nat) (hl : SMap.get 0 s.run.eccAt (die * 64 + slice) = l + 1) (hlt : s.run.us < l + 1000000)
    (hrun : ∃ e ∈ s.run.ctxs, e.2.part = s.sys.partOf die ∧ e.2.running = true) (hn : die * 64 + slice ∉ s.run.outSlices) :
    Completes (exec (.eccError die slice false none) s) (fun t => t.run.mem = s.run.mem ∧ die * 64 + slice ∈ t.run.sickSlices ∧
      t.run.outSlices = s.run.outSlices) := by
  let r : Run := { s.run with eccAt := s.run.eccAt.set 0 (die * 64 + slice) (s.run.us + 1) }
  have hframe := sickened_frame r (die * 64 + slice)
  have hctxs : (sickened r (die * 64 + slice)).ctxs = s.run.ctxs := by
    have h := congrArg Run.ctxs hframe
    exact h
  have hdue : (decide (l + 1 ≠ 0) && decide (s.run.us + 1 - (l + 1) < 1000000)) = true := by
    rw [Bool.and_eq_true, decide_eq_true_eq, decide_eq_true_eq]
    omega
  have hexec : exec (.eccError die slice false none) s = .next { s with run := sickened r (die * 64 + slice) } := by
    have hpoint : healthPoint s.sys (sickened r (die * 64 + slice)) (s.sys.partOf die) = sickened r (die * 64 + slice) :=
      healthPoint_running (hctxs ▸ hrun)
    simp only [exec, execEccError, event, eccError, hl, hdue, Bool.false_or, Bool.true_and, Bool.false_eq_true, if_false]
    exact congrArg (fun z => Host.Outcome.next { s with run := z }) hpoint
  have hmem := congrArg Run.mem hframe
  have hout := congrArg Run.outSlices hframe
  exact ⟨_, hexec, hmem, mem_sickened (r := r) hn, hout⟩

/-- A cluster with a faulty unit. -/
theorem clusterUnitFault_notes (die cluster : Nat) : Completes (exec (.clusterUnitFault die cluster) s) (fun t => t.sys = s.sys ∧
    t.run.mem = s.run.mem ∧ t.run.waves = s.run.waves ∧ t.run.blocks = s.run.blocks ∧ die * 40 + cluster ∈ t.run.sick) := by
  refine ⟨{ s with run := mapOutCluster (withSick s.run (die * 40 + cluster)) (die * 40 + cluster) }, rfl, rfl, ?_⟩
  generalize die * 40 + cluster = n
  refine ⟨?_, ?_, ?_, ?_⟩
  · exact (mapOutCluster_keeps Run.mem fun _ _ => rfl).trans (withSick_keeps Run.mem (fun _ _ => rfl) s.run n)
  · exact (mapOutCluster_keeps Run.waves fun _ _ => rfl).trans (withSick_keeps Run.waves (fun _ _ => rfl) s.run n)
  · exact (mapOutCluster_keeps Run.blocks fun _ _ => rfl).trans (withSick_keeps Run.blocks (fun _ _ => rfl) s.run n)
  · have h := mapOutCluster_keeps (r := withSick s.run n) (cl := n) Run.sick fun _ _ => rfl
    exact h.symm ▸ mem_withSick s.run n

/-- A fault of the Inn's capabilities at a record stops its queue. -/
theorem innCapabilityFault_stops {n k : Nat} {x : Queue} {c : Cmd} (hx : s.run.queues.get? n = some x)
    (hc : x.cmds.find? (fun d => d.k = k) = some c) (h0 : c.doneAt = 0) :
    Completes (exec (.innCapabilityFault (some (n, k))) s) (fun t => t.run.queue n = { x with
        stopped := true, cmds := x.cmds.filter (fun d => d.k ≠ k) } ∧
      memRead t.run.mem (x.qcb + 0x20) 4 = 1 ∧ ∀ a, (a < x.qcb + 0x20 ∨ x.qcb + 0x24 ≤ a) → memGet t.run.mem a = memGet s.run.mem a) := by
  have hk : c.k = k := Cmd.k_of_find? hc (fun d hd => of_decide_eq_true hd)
  have hexec : exec (.innCapabilityFault (some (n, k))) s = .next { s with run := badField s.sys s.run n c } := by
    have hfind : (s.run.queue n).cmds.find? (fun c => c.k = k) = some c :=
      (congrArg (fun z : Queue => z.cmds.find? (fun c => c.k = k)) (Run.queue_of_get? hx)).trans hc
    simp only [exec, execInnCapabilityFault, event, hfind]
  obtain ⟨⟨hsame, hread⟩, hqueue⟩ := badField_unnamed s.sys hx h0
  exact ⟨_, hexec, hk ▸ hqueue, hread, hsame⟩

end

/-- Settles O60: each reading moves a die, notes or freezes; freezing is `get?_freezeCtx`, one context at a time. -/
theorem healthSteps : Obligations.HealthSteps := by
  refine ⟨powerAverage_moves, thermalReading_steps, ?_, ?_, ?_, clusterUnitFault_notes, fun _ => rfl, fun s n k x c hx hc h0 =>
    innCapabilityFault_stops s hx hc h0⟩
  · intro s die t sensor ht i hi
    simp only [List.mem_cons, List.not_mem_nil, or_false] at hi
    rcases hi with rfl | rfl
    · refine thermalStop_stops (detail := thermalDetail die sensor t) ?_
      rw [exec, execThermalReading, event, thermalReading, if_pos ht]
    · exact thermalStop_stops rfl
  · intro s dom mil
    refine ⟨fun hle => ?_, fun hlt => ?_⟩
    · rw [exec, execSupplyExcursion, event, if_pos hle]
    · have hexec : exec (.supplyExcursion dom mil) s = .next { s with run :=
          (((s.run.event 4 0xFF 0xFFFF (dom * 65536 + min 0xFFFF mil)).event 0x0A 0xFF 0xFFFF 5).send (.alert 5 dom)).send (.manage 5 dom 5) } := by
        rw [exec, execSupplyExcursion, event, if_neg (Nat.not_le.mpr hlt)]
      exact ⟨_, hexec, rfl, List.append_assoc _ _ _, _, Run.mem_event_event _ _ _ _ _ _ _ _ _, rfl, rfl⟩
  · intro s die slice n
    exact ⟨fun c x hx hf hrun hp hn => eccError_bad_freezes s die slice hx hf hrun hp hn, eccError_first s die slice,
      fun l hl hlt hrun hn => eccError_second s die slice l hl hlt hrun hn⟩

end Sys2Proof.Machine
end

section
/-! What the messages to a peer, the ends of tickets, and traps leave of a run, and the facts about pages that live migration needs. -/

namespace Sys2Proof.Machine

/-! ## Messages to the other end (R535) -/

section
variable (r : Run) (cid key : Nat) (o : Out)

/-- A message to the other end goes by a port or, where none is there, is kept to be sent. -/
theorem toPeer_cases : r.toPeer cid key o = r.send o ∨ ∃ i, r.toPeer cid key o = r.transmit i { cls := 0, port := i } o := by
  rw [Run.toPeer]
  split
  · exact Or.inr ⟨_, rfl⟩
  · exact Or.inl rfl

theorem toPeer_keeps {α : Type} (g : Run → α) (hg : ∀ (r : Run) ps xs, g { r with ports := ps, out := xs } = g r) :
    g (r.toPeer cid key o) = g r := by
  rcases toPeer_cases r cid key o with h | ⟨i, h⟩
  · rw [h]
    exact hg r r.ports _
  · rw [h]
    exact hg r _ _

theorem toPeer_out : ∃ xs, (r.toPeer cid key o).out = r.out ++ o :: xs := by
  rcases toPeer_cases r cid key o with h | ⟨i, h⟩
  · exact ⟨[], congrArg Run.out h⟩
  · exact ⟨_, (congrArg Run.out h).trans (List.append_assoc r.out _ _)⟩

end

/-! ## Tickets that end (R414, R492) -/

section
variable {α : Type} (y : Sys) (g : Run → α) (hg : ∀ (r : Run) ps ws, g { r with parts := ps, waves := ws } = g r)
include hg

theorem sendTickets_keeps (p : Nat) (ts : List Ticket) (r : Run) : g (sendTickets y p ts r) = g r := by
  induction ts generalizing r with
  | nil => rfl
  | cons t ts ih =>
    rw [sendTickets]
    split
    · exact (ih _).trans (hg r _ r.waves)
    · rfl

theorem endTickets_keeps (cid : Nat) (r : Run) : g (endTickets y r cid) = g r := by
  have hend (r : Run) (wid : Nat) (t : TickRef) : g (endTicket y r wid t) = g r := (sendTickets_keeps y g hg _ _ _).trans (hg r _ r.waves)
  have hdrop (r : Run) (wid : Nat) : g (dropTickets y r wid) = g r :=
    (hg _ _ _).trans (Run.foldl_keeps g (fun r t => hend r wid t) _ r)
  have hdropped := Run.foldl_keeps g (fun r w => hdrop r w) ((r.wavesOfCtx cid).map (·.1)) r
  exact (sendTickets_keeps y g hg _ _ _).trans ((hg _ _ _).trans hdropped)

end

/-! ## Traps -/

section
variable (y : Sys) (r : Run)

theorem roll_supervisorEntry (wid : Nat) (m : Lanes) (epc : Word64) (word : BitVec 96) (t : Trap) (cls sub : Nat) :
    (supervisorEntry r wid m epc word t cls sub).roll = r.roll := by
  rw [supervisorEntry_eq]
  exact r.supSaved_read wid m epc word t cls sub Run.roll fun _ _ _ _ _ => rfl

theorem roll_takeTrap (wid : Nat) (m : Lanes) (pc : Word64) (word : BitVec 96) (t : Trap) : (takeTrap r wid m pc word t).roll = r.roll := by
  unfold takeTrap
  dsimp only
  split
  · rfl
  · split
    · exact roll_supervisorEntry ..
    · split
      · split
        · exact roll_supervisorEntry ..
        · rfl
      · split
        · exact roll_supervisorEntry ..
        · exact roll_supervisorEntry ..

theorem roll_trapAt (c : Iss) (t : Trap) : (trapAt y r c t).roll = r.roll := by
  unfold trapAt
  split
  · rfl
  · exact roll_takeTrap ..

theorem roll_trapParked (c : Iss) (t : Trap) : (trapParked y r c t).roll = r.roll := by
  unfold trapParked
  dsimp only
  split
  · rfl
  · exact roll_trapAt ..

/-- The contexts of `r'` are those of `r`, but for the waves of what they have saved. -/
structure Run.SameButSaved (r r' : Run) : Prop where
  ctx : ∀ k c, r.ctxs.get? k = some c → ∃ ns, r'.ctxs.get? k = some { c with saved := ns }

theorem Run.SameButSaved.of_roll {r r' : Run} (h : r'.roll = r.roll) : r.SameButSaved r' := ⟨fun k c hc =>
  ⟨c.saved, (congrArg (fun z : Tbl Ctx × List Nat × List Nat => z.1.get? k) h).trans hc⟩⟩

theorem Run.SameButSaved.trans {a b c : Run} (h : a.SameButSaved b) (h' : b.SameButSaved c) : a.SameButSaved c := by
  refine ⟨fun k x hx => ?_⟩
  obtain ⟨ns, hns⟩ := h.ctx k x hx
  obtain ⟨ns', hns'⟩ := h'.ctx k _ hns
  exact ⟨ns', hns'⟩

theorem sameButSaved_onAnyWave (f : Nat → Wave → Wave) : r.SameButSaved (r.onAnyWave f) :=
  ⟨fun k c hc => ⟨c.saved.map (fun n => n.onWaves f), by simp only [Run.onAnyWave, get?_mapAll, hc, Option.map_some]⟩⟩

theorem sameButSaved_wakeBar (loc : BarLoc) (ph : Bool) (win : Option Nat) : r.SameButSaved (wakeBar r loc ph win) := by
  have hmarked : r.SameButSaved (r.barRecent loc (r.barWaiters loc ph)) := .of_roll
    (Run.foldl_keeps Run.roll (fun r n => by rw [Run.readRecent]; split <;> rfl) _ r)
  exact hmarked.trans (sameButSaved_onAnyWave _ _)

theorem sameButSaved_scrStore (b a v n : Nat) : r.SameButSaved (scrStore r b a v n) := by
  rw [scrStore]
  generalize r.watchedWords b a n = ls
  have hstart : r.SameButSaved (scrWrite r b a v n) := .of_roll rfl
  revert hstart
  generalize scrWrite r b a v n = r'
  intro hstart
  induction ls generalizing r' with
  | nil => exact hstart
  | cons l ls ih =>
    rw [List.foldl_cons]
    refine ih _ ?_
    dsimp only
    split
    · exact hstart
    · exact hstart.trans ((Run.SameButSaved.of_roll (r := r') (r' := freeTracker r' l) rfl).trans (sameButSaved_wakeBar _ _ _ _))

theorem sameButSaved_objFault (b : Nat) (o : Nat × Nat) : r.SameButSaved (r.objFault b o) := by
  rw [Run.objFault]
  split
  · exact .of_roll rfl
  · exact (sameButSaved_scrStore _ _ _ _ _).trans (sameButSaved_scrStore _ _ _ _ _)

theorem sameButSaved_copyFail (core ch : Nat) (f : CopyFault) : r.SameButSaved (copyFail r core ch f) := by
  rw [copyFail]
  split
  · exact .of_roll rfl
  · next op t _ =>
    have hpassed (g : Block → Block) : r.SameButSaved ((r.setChannel core ch t).onBlock op.blk g) := .of_roll rfl
    cases op.obj with
    | none => exact hpassed _
    | some o => exact (hpassed _).trans (sameButSaved_objFault _ _ _)

/-- A page that does not come changes the contexts in what they have saved alone. -/
theorem sameButSaved_faultDecline (site : FaultSite) (sub : Nat) : r.SameButSaved (faultDecline y r site sub) := by
  cases site with
  | part wid lane =>
    rw [faultDecline]
    split
    · split
      · exact .of_roll (roll_trapParked ..)
      · exact .of_roll rfl
    · exact .of_roll rfl
  | copy core ch =>
    rw [faultDecline]
    split
    · exact .of_roll rfl
    · split
      · exact .of_roll rfl
      · exact sameButSaved_copyFail ..
  | eval b => exact .of_roll rfl

end

/-! ## Pages -/

theorem length_flatMap_range {α : Type} {k : Nat} {f : Nat → List α} (hf : ∀ i, (f i).length = k) (n : Nat) :
    ((List.range n).flatMap f).length = n * k := by
  induction n with
  | zero => exact (Nat.zero_mul k).symm
  | succ n ih => rw [List.range_succ, List.flatMap_append, List.length_append, ih, List.flatMap_singleton, hf, Nat.succ_mul]

/-- A place in pieces of one length. -/
theorem getD_flatMap_range {α : Type} {k : Nat} {f : Nat → List α} (hf : ∀ i, (f i).length = k) (n i : Nat) (d : α) (hi : i < n * k) :
    ((List.range n).flatMap f).getD i d = (f (i / k)).getD (i % k) d := by
  induction n with
  | zero => omega
  | succ n ih =>
    have hlen := length_flatMap_range hf n
    rw [List.range_succ, List.flatMap_append, List.flatMap_singleton]
    by_cases hin : i < n * k
    · rw [List.getD_append _ _ _ _ (by omega)]
      exact ih hin
    · rw [List.getD_append_right _ _ _ _ (by omega), hlen]
      have hk : 0 < k := by
        rcases Nat.eq_zero_or_pos k with rfl | h
        · omega
        · exact h
      have hdiv : i / k = n := Nat.div_eq_of_lt_le (by omega) (by rwa [Nat.succ_mul] at hi ⊢)
      have hmod : i % k = i - n * k := by
        have h := Nat.div_add_mod i k
        rw [hdiv, Nat.mul_comm] at h
        omega
      rw [hdiv, hmod]

theorem length_memBytes (m : SMap Byte) (a n : Nat) : (memBytes m a n).length = n := by
  simp [memBytes]

theorem getD_memBytes (m : SMap Byte) (a n i : Nat) (hi : i < n) : (memBytes m a n).getD i 0 = memGet m (a + i) := by
  simp [memBytes, hi]

theorem length_pageBytes (y : Sys) (r : Run) (p pa : Nat) : (pageBytes y r p pa).length = 65536 :=
  length_flatMap_range (k := 8192) (fun i => by
    split
    · exact length_memBytes ..
    · exact List.length_replicate) 8

/-- The bytes of a page, as far as the partition holds them. -/
theorem getD_pageBytes (y : Sys) (r : Run) (p pa i : Nat) (hi : i < 65536) (ho : y.owns p (pa + i / 8192 * 8192) = true) :
    (pageBytes y r p pa).getD i 0 = memGet r.mem (pa + i) := by
  have hpiece := getD_flatMap_range (k := 8192) (f := fun i => if y.owns p (pa + 8192 * i) then memBytes r.mem (pa + 8192 * i) 8192
    else List.replicate 8192 0) (fun i => by
      split
      · exact length_memBytes ..
      · exact List.length_replicate) 8 i 0 hi
  rw [Nat.mul_comm] at ho
  rw [pageBytes, hpiece, if_pos ho, getD_memBytes _ _ _ _ (Nat.mod_lt i (by decide))]
  have h := Nat.div_add_mod i 8192
  exact congrArg (memGet r.mem) (by omega)

end Sys2Proof.Machine
end

section
/-! Rounds of a live migration (R530, R531). -/

namespace Sys2Proof.Machine

/-! ## The pages of a round -/

/-- Among some messages is a guest page with the bytes that memory has where stage 2 leads, as far as the partition holds them. -/
def PageSent (y : Sys) (m : SMap Byte) (p root g : Nat) (xs : List Out) : Prop :=
  ∀ f, walk2 m (g * 65536) false levels root = .ok f →
    let pa := f.addr + g * 65536 % f.size
    y.owns p pa = true → ∃ bs : List Byte, Out.page (g * 65536) bs ∈ xs ∧ bs.length = 65536 ∧
      ∀ i, i < 65536 → y.owns p (pa + i / 8192 * 8192) = true → bs.getD i 0 = memGet m (pa + i)

section
variable {y : Sys} {r : Run} {cid : Nat}

theorem PageSent.mono {m : SMap Byte} {p root g : Nat} {xs ys : List Out} (h : PageSent y m p root g xs) (hsub : xs ⊆ ys) :
    PageSent y m p root g ys := by
  intro f hf pa ho
  obtain ⟨bs, hmem, hlen, hbytes⟩ := h f hf ho
  exact ⟨bs, hsub hmem, hlen, hbytes⟩

theorem sendPage_keeps {α : Type} (g : Run → α) (hg : ∀ (r : Run) ps xs, g { r with ports := ps, out := xs } = g r) (y : Sys) (cid : Nat) (r : Run)
    (n : Nat) : g (sendPage y cid r n) = g r := by
  rw [sendPage]
  split
  · rfl
  · dsimp only
    split
    · exact toPeer_keeps r cid n _ g hg
    · rfl

theorem sendPage_sends (g : Nat) : ∃ xs, (sendPage y cid r g).out = r.out ++ xs ∧ PageSent y r.mem (r.ctx cid).part (r.ctx cid).hostRoot g xs := by
  rw [sendPage]
  split
  · next e he => exact ⟨[], (List.append_nil _).symm, fun f hf => nomatch (he.symm.trans hf)⟩
  · next f hf =>
    dsimp only
    split
    · obtain ⟨xs, hxs⟩ := toPeer_out r cid g (.page (g * 65536) (pageBytes y r (r.ctx cid).part (f.addr + g * 65536 % f.size)))
      refine ⟨_, hxs, ?_⟩
      intro f' hf' pa _
      obtain rfl : f = f' := Except.ok.inj (hf.symm.trans hf')
      exact ⟨_, List.mem_cons_self, length_pageBytes .., fun i hi ho => getD_pageBytes y r _ _ i hi ho⟩
    · next hno =>
      refine ⟨[], (List.append_nil _).symm, ?_⟩
      intro f' hf' pa ho
      obtain rfl : f = f' := Except.ok.inj (hf.symm.trans hf')
      exact absurd ho hno

theorem foldl_sendPage_sends (gs : List Nat) {m : SMap Byte} {c : Ctx} (r : Run) (hm : r.mem = m) (hc : r.ctx cid = c) :
    ∃ xs, (gs.foldl (sendPage y cid) r).out = r.out ++ xs ∧ ∀ g ∈ gs, PageSent y m c.part c.hostRoot g xs := by
  induction gs generalizing r with
  | nil => exact ⟨[], (List.append_nil _).symm, fun _ h => nomatch h⟩
  | cons g gs ih =>
    obtain ⟨xs, hxs, hsent⟩ := sendPage_sends (y := y) (r := r) (cid := cid) g
    rw [hm, hc] at hsent
    have hm' := (sendPage_keeps Run.mem (fun _ _ _ => rfl) y cid r g).trans hm
    have hc' := (sendPage_keeps (fun r => r.ctx cid) (fun _ _ _ => rfl) y cid r g).trans hc
    obtain ⟨ys, hys, hall⟩ := ih (sendPage y cid r g) hm' hc'
    refine ⟨xs ++ ys, ?_, fun h hh => ?_⟩
    · rw [List.foldl_cons, hys, hxs, List.append_assoc]
    · rcases List.mem_cons.mp hh with rfl | hmem
      · exact hsent.mono (List.subset_append_left xs ys)
      · exact (hall h hmem).mono (List.subset_append_right xs ys)

end

/-! ## The end of a round -/

/-- A context with its old bitmap cleared, and no round due. -/
def Ctx.roundOver (c : Ctx) : Ctx := { c.clearOld with roundDue := false }

section
variable {y : Sys} {r : Run} {cid : Nat} {c : Ctx}

theorem get?_onCtx_self (hc : r.ctxs.get? cid = some c) (f : Ctx → Ctx) : (r.onCtx cid f).ctxs.get? cid = some (f c) := by
  simp only [Run.onCtx, Tbl.get?_upd, if_true, hc, Option.map_some]

theorem get?_onCtx_of_ne (r : Run) {k : Nat} (hk : k ≠ cid) (f : Ctx → Ctx) : (r.onCtx cid f).ctxs.get? k = r.ctxs.get? k := by
  simp only [Run.onCtx, Tbl.get?_upd, if_neg hk]

theorem Run.ctx_of_get? (hc : r.ctxs.get? cid = some c) : r.ctx cid = c := by
  rw [Run.ctx, hc, Option.getD_some]

theorem roundSend_keeps {α : Type} (g : Run → α) (hg : ∀ (r : Run) ps xs cs, g { r with ports := ps, out := xs, ctxs := cs } = g r) (y : Sys) (r : Run)
    (cid : Nat) : g (roundSend y r cid) = g r :=
  (hg _ _ _ _).trans (Run.foldl_keeps g (fun r n => sendPage_keeps g (fun r ps xs => hg r ps xs r.ctxs) y cid r n) _ r)

theorem roundSend_ctxs (hc : r.ctxs.get? cid = some c) : (roundSend y r cid).ctxs.get? cid = some c.roundOver ∧
    ∀ k, k ≠ cid → (roundSend y r cid).ctxs.get? k = r.ctxs.get? k := by
  have hkept := Run.foldl_keeps Run.ctxs (fun r n => sendPage_keeps Run.ctxs (fun _ _ _ => rfl) y cid r n) (r.ctx cid).oldDirty r
  exact ⟨get?_onCtx_self (hkept ▸ hc) _, fun k hk => (get?_onCtx_of_ne _ hk _).trans (congrArg (fun z : Tbl Ctx => z.get? k) hkept)⟩

theorem roundSend_sends (hc : r.ctxs.get? cid = some c) : ∃ xs, (roundSend y r cid).out = r.out ++ xs ∧
    ∀ g ∈ c.oldDirty, PageSent y r.mem c.part c.hostRoot g xs := by
  obtain rfl : r.ctx cid = c := Run.ctx_of_get? hc
  exact foldl_sendPage_sends (y := y) (cid := cid) (r.ctx cid).oldDirty r rfl rfl

end

theorem Ctx.roundOver_withDue (c : Ctx) (b : Bool) : ({ c with roundDue := b } : Ctx).roundOver = c.roundOver := by
  cases h : c.one <;> simp only [Ctx.roundOver, Ctx.clearOld, h] <;> rfl

/-! ## The steps of a round -/

/-- A round has begun: the bitmaps are swapped, unless they were before. -/
def roundBegun (r : Run) (cid : Nat) : Run := if (r.ctx cid).roundDue then r else r.onCtx cid (fun c => { c.swap with roundDue := true })

/-- The context of a round: with its bitmaps swapped. -/
def Ctx.inRound (c : Ctx) : Ctx := if c.roundDue then c else c.swap

section
variable {y : Sys} {r : Run} {cid : Nat} {c : Ctx}

theorem roundStep_eq (y : Sys) (r : Run) (cid : Nat) : roundStep y r cid =
    if (roundBegun r cid).farBusy ((roundBegun r cid).ctx cid).part then roundBegun r cid
    else roundSend y (dropTenant y (roundBegun r cid) cid) cid := rfl

theorem get?_roundBegun (hc : r.ctxs.get? cid = some c) : (roundBegun r cid).ctxs.get? cid = some { c.inRound with roundDue := true } := by
  rw [roundBegun, Run.ctx_of_get? hc, Ctx.inRound]
  cases hdue : c.roundDue with
  | true =>
    rw [if_pos rfl, if_pos rfl, hc]
    exact congrArg (fun b => some { c with roundDue := b }) hdue
  | false =>
    rw [if_neg Bool.false_ne_true, if_neg Bool.false_ne_true]
    exact get?_onCtx_self hc _

theorem get?_roundBegun_of_ne (r : Run) {k : Nat} (hk : k ≠ cid) : (roundBegun r cid).ctxs.get? k = r.ctxs.get? k := by
  rw [roundBegun]
  split
  · rfl
  · exact get?_onCtx_of_ne r hk _

theorem roundBegun_keeps {α : Type} (g : Run → α) (hg : ∀ (r : Run) cs, g { r with ctxs := cs } = g r) (r : Run) (cid : Nat) :
    g (roundBegun r cid) = g r := by
  rw [roundBegun]
  split
  · rfl
  · exact hg r _

theorem roundBegun_frame (r : Run) (cid : Nat) : { roundBegun r cid with ctxs := r.ctxs } = r := by
  rw [roundBegun]
  split <;> rfl

/-- Which accesses are under way does not depend on what else the contexts hold. -/
theorem farBusy_withCtxs (r : Run) (cs : Tbl Ctx) (h : ∀ k, (({ r with ctxs := cs } : Run).ctx k).part = (r.ctx k).part) (p : Nat) :
    ({ r with ctxs := cs } : Run).farBusy p = r.farBusy p := by
  simp only [Run.farBusy, h]
  rfl

theorem Ctx.inRound_keeps {α : Type} (g : Ctx → α) (hg : ∀ (c : Ctx) b, g { c with one := b } = g c) (c : Ctx) : g c.inRound = g c := by
  rw [Ctx.inRound]
  split
  · rfl
  · exact hg c _

theorem part_roundBegun (hc : r.ctxs.get? cid = some c) (k : Nat) : ((roundBegun r cid).ctx k).part = (r.ctx k).part := by
  by_cases hk : k = cid
  · subst hk
    rw [Run.ctx_of_get? (get?_roundBegun hc), Run.ctx_of_get? hc]
    exact Ctx.inRound_keeps Ctx.part (fun _ _ => rfl) c
  · exact congrArg (fun z : Option Ctx => (z.getD {}).part) (get?_roundBegun_of_ne r hk)

theorem farBusy_roundBegun (hc : r.ctxs.get? cid = some c) (p : Nat) : (roundBegun r cid).farBusy p = r.farBusy p := by
  have he : roundBegun r cid = { r with ctxs := (roundBegun r cid).ctxs } := by
    rw [roundBegun]
    split <;> rfl
  have hpart := part_roundBegun hc
  rw [he] at hpart ⊢
  exact farBusy_withCtxs r _ hpart p

/-- Where accesses are under way the round waits; else its pages are sent. -/
theorem roundStep_of (hc : r.ctxs.get? cid = some c) : roundStep y r cid =
    if r.farBusy c.part then roundBegun r cid else roundSend y (dropTenant y (roundBegun r cid) cid) cid := by
  rw [roundStep_eq, part_roundBegun hc, Run.ctx_of_get? hc, farBusy_roundBegun hc]

/-- A round whose accesses have performed. -/
theorem roundStep_sends (hc : r.ctxs.get? cid = some c) (hb : r.farBusy c.part = false) :
    (roundStep y r cid).mem = r.mem ∧ (roundStep y r cid).blocks = r.blocks ∧
    (∀ k, k ≠ cid → (roundStep y r cid).ctxs.get? k = r.ctxs.get? k) ∧
    (roundStep y r cid).ctxs.get? cid = some c.inRound.roundOver ∧
    ∃ xs, (roundStep y r cid).out = r.out ++ xs ∧ ∀ g ∈ c.inRound.oldDirty, PageSent y r.mem c.part c.hostRoot g xs := by
  have he := roundStep_of (y := y) hc
  rw [hb, if_neg Bool.false_ne_true] at he
  have hget : (dropTenant y (roundBegun r cid) cid).ctxs.get? cid = some { c.inRound with roundDue := true } := get?_roundBegun hc
  obtain ⟨hself, hothers⟩ := roundSend_ctxs (y := y) hget
  obtain ⟨xs, hxs, hsent⟩ := roundSend_sends (y := y) hget
  have hmem : (roundBegun r cid).mem = r.mem := roundBegun_keeps Run.mem (fun _ _ => rfl) r cid
  have hpart : c.inRound.part = c.part := Ctx.inRound_keeps Ctx.part (fun _ _ => rfl) c
  have hroot : c.inRound.hostRoot = c.hostRoot := Ctx.inRound_keeps Ctx.hostRoot (fun _ _ => rfl) c
  rw [he]
  refine ⟨(roundSend_keeps Run.mem (fun _ _ _ _ => rfl) y _ cid).trans hmem,
    (roundSend_keeps Run.blocks (fun _ _ _ _ => rfl) y _ cid).trans (roundBegun_keeps Run.blocks (fun _ _ => rfl) r cid),
    fun k hk => (hothers k hk).trans (get?_roundBegun_of_ne r hk),
    hself.trans (congrArg some (Ctx.roundOver_withDue c.inRound true)), xs,
    hxs.trans (congrArg (· ++ xs) (roundBegun_keeps Run.out (fun _ _ => rfl) r cid)), fun g hg => ?_⟩
  have h := hsent g hg
  rw [show (dropTenant y (roundBegun r cid) cid).mem = r.mem from hmem] at h
  rw [← hpart, ← hroot]
  exact h

theorem roundStep_waits (hc : r.ctxs.get? cid = some c) (hb : r.farBusy c.part = true) : roundStep y r cid = roundBegun r cid := by
  rw [roundStep_of hc, hb]
  rfl

end

end Sys2Proof.Machine
end

section
/-! The stop of a live migration and the end of its blackout (R532 to R534). -/

namespace Sys2Proof.Machine

/-! ## The stop (R532, R533) -/

section
variable {y : Sys} {r : Run} {cid : Nat} {c : Ctx}

theorem roundStep_keeps {α : Type} (g : Run → α)
    (hg : ∀ (r : Run) ps xs cs ks ws, g { r with ports := ps, out := xs, ctxs := cs, cores := ks, waves := ws } = g r) (y : Sys) (r : Run) (cid : Nat) :
    g (roundStep y r cid) = g r := by
  have hbegun : g (roundBegun r cid) = g r := roundBegun_keeps g (fun r cs => hg r r.ports r.out cs r.cores r.waves) r cid
  rw [roundStep_eq]
  split
  · exact hbegun
  · have hsent := roundSend_keeps g (fun r ps xs cs => hg r ps xs cs r.cores r.waves) y (dropTenant y (roundBegun r cid) cid) cid
    exact hsent.trans ((hg (roundBegun r cid) _ _ _ _ _).trans hbegun)

/-- A round changes a context in its bitmaps alone. -/
theorem get?_roundStep (y : Sys) (hc : r.ctxs.get? cid = some c) :
    ∃ c', (roundStep y r cid).ctxs.get? cid = some c' ∧ c'.part = c.part ∧ c'.tenant = c.tenant := by
  have hpart : c.inRound.part = c.part := Ctx.inRound_keeps Ctx.part (fun _ _ => rfl) c
  have htenant : c.inRound.tenant = c.tenant := Ctx.inRound_keeps Ctx.tenant (fun _ _ => rfl) c
  cases hb : r.farBusy c.part with
  | true =>
    rw [roundStep_waits hc hb]
    exact ⟨_, get?_roundBegun hc, hpart, htenant⟩
  | false =>
    obtain ⟨-, -, -, hself, -⟩ := roundStep_sends (y := y) hc hb
    refine ⟨_, hself, ?_, ?_⟩
    · rw [Ctx.roundOver, Ctx.clearOld]
      split <;> exact hpart
    · rw [Ctx.roundOver, Ctx.clearOld]
      split <;> exact htenant

theorem foldl_toPeer_out_subset (f : Moved → Out) (is : List Moved) (r : Run) :
    r.out ⊆ (is.foldl (fun r i => r.toPeer cid i.kind (f i)) r).out := by
  induction is generalizing r with
  | nil => exact List.Subset.refl _
  | cons i is ih =>
    obtain ⟨xs, hxs⟩ := toPeer_out r cid i.kind (f i)
    exact fun o ho => ih _ (hxs ▸ List.mem_append_left _ ho)

/-- Every item goes to the other end. -/
theorem mem_out_foldl_toPeer (f : Moved → Out) (is : List Moved) (r : Run) {i : Moved} (hi : i ∈ is) :
    f i ∈ (is.foldl (fun r i => r.toPeer cid i.kind (f i)) r).out := by
  induction is generalizing r with
  | nil => exact nomatch hi
  | cons j is ih =>
    rcases List.mem_cons.mp hi with rfl | hmem
    · obtain ⟨xs, hxs⟩ := toPeer_out r cid i.kind (f i)
      exact foldl_toPeer_out_subset f is _ (hxs ▸ List.mem_append_right _ List.mem_cons_self)
    · exact ih _ hmem

theorem mem_queuesOf {n : Nat} {x : Queue} (hq : r.queues.get? n = some x) (hp : x.part = (r.ctx cid).part) (ht : x.tenant = (r.ctx cid).tenant) :
    (n, x) ∈ r.queuesOf cid := by
  rw [Run.queuesOf, List.mem_filter]
  exact ⟨Tbl.mem_of_get? hq, by rw [decide_eq_true hp, decide_eq_true ht]; rfl⟩

theorem queue_mem_finalItems {e : Nat × Queue} (he : e ∈ r.queuesOf cid) : ∃ vs, ⟨1, e.1 :: e.2.rptr :: vs, []⟩ ∈ finalItems y r cid := by
  refine ⟨[memRead r.mem (e.2.qcb + 0x10) 8, e.2.stopped.toNat, e.2.ring.base.toNat, e.2.logn, e.2.cls, e.2.tenant, e.2.qcb], ?_⟩
  have hmem := List.mem_map_of_mem (f := fun e : Nat × Queue => (⟨1, [e.1, e.2.rptr, memRead r.mem (e.2.qcb + 0x10) 8, e.2.stopped.toNat,
    e.2.ring.base.toNat, e.2.logn, e.2.cls, e.2.tenant, e.2.qcb], []⟩ : Moved)) he
  simp only [finalItems, List.mem_append, hmem, true_or, or_true]

theorem copyCmd_mem_finalItems {e : Nat × Cmd} (he : e ∈ r.copyCmds cid) (hlog : (e.1, e.2.k) ∈ (r.ctx cid).log) :
    ⟨7, [e.1, e.2.k], e.2.words.flatMap (fun w => leBytes w.toNat 8)⟩ ∈ finalItems y r cid := by
  have hmem := List.mem_filterMap (f := fun e : Nat × Cmd => if (r.ctx cid).log.contains (e.1, e.2.k) then
    some (⟨7, [e.1, e.2.k], e.2.words.flatMap (fun w => leBytes w.toNat 8)⟩ : Moved) else none).mpr
      ⟨e, he, if_pos (List.contains_iff_mem.mpr hlog)⟩
  simp only [finalItems, List.mem_append, hmem, true_or, or_true]

theorem mem_copyCmds {e : Nat × Queue} (he : e ∈ r.queuesOf cid) {d : Cmd} (hd : d ∈ e.2.cmds) (hty : d.ty = 2) (hst : d.st = .started) :
    (e.1, d) ∈ r.copyCmds cid := by
  refine List.mem_flatMap.mpr ⟨e, he, List.mem_map.mpr ⟨d, List.mem_filter.mpr ⟨hd, ?_⟩, rfl⟩⟩
  rw [decide_eq_true hty, decide_eq_true hst]
  rfl

theorem queues_takeLog (r : Run) (cid : Nat) : (takeLog r cid).queues = r.queues := rfl

/-- The command log is that of the queues as they stand. -/
theorem takeLog_log (hc : r.ctxs.get? cid = some c) : ((takeLog r cid).ctx cid).log = ((takeLog r cid).copyCmds cid).map (fun e => (e.1, e.2.k)) := by
  have hself := Run.ctx_of_get? (get?_onCtx_self hc (fun c => { c with
    log := (r.copyCmds cid).map (fun e => (e.1, e.2.k)), copyLog := (c.saved.flatMap (fun n => n.blocks)).flatMap (fun b => b.copies) }))
  have hcmds : (takeLog r cid).copyCmds cid = r.copyCmds cid := by
    have hq : (takeLog r cid).queuesOf cid = r.queuesOf cid := by
      rw [Run.queuesOf, Run.queuesOf, takeLog, hself, Run.ctx_of_get? hc]
      rfl
    rw [Run.copyCmds, hq]
    rfl
  rw [hcmds]
  exact congrArg Ctx.log hself

theorem out_onCtx (r : Run) (cid : Nat) (f : Ctx → Ctx) : (r.onCtx cid f).out = r.out := rfl

/-- The final transfer, of a run whose command log has been taken. -/
def transferred (y : Sys) (r : Run) (cid : Nat) : Run :=
  (finalItems y r cid).foldl (fun r i => r.toPeer cid i.kind (.transfer i.kind i.vals i.data)) r

theorem blackout_eq (y : Sys) (r : Run) (cid : Nat) :
    blackout y r cid = (transferred y (takeLog (roundStep y (endTickets y r cid) cid) cid) cid).onCtx cid (fun c => { c with mig := .blackout }) := rfl

theorem transferred_ctxs (y : Sys) (r : Run) (cid : Nat) : (transferred y r cid).ctxs = r.ctxs :=
  Run.foldl_keeps Run.ctxs (fun r (i : Moved) => toPeer_keeps r cid i.kind (.transfer i.kind i.vals i.data) Run.ctxs (fun _ _ _ => rfl)) _ r

theorem mem_transferred {i : Moved} (hi : i ∈ finalItems y r cid) : Out.transfer i.kind i.vals i.data ∈ (transferred y r cid).out :=
  mem_out_foldl_toPeer (fun i => .transfer i.kind i.vals i.data) _ r hi

/-- Every queue of a context is in the final transfer, with the COPY commands under way. -/
theorem transferred_sends (hlog : (r.ctx cid).log = (r.copyCmds cid).map (fun e => (e.1, e.2.k))) {e : Nat × Queue} (he : e ∈ r.queuesOf cid) :
    (∃ vs, Out.transfer 1 (e.1 :: e.2.rptr :: vs) [] ∈ (transferred y r cid).out) ∧ ∀ d ∈ e.2.cmds, d.ty = 2 → d.st = .started →
      Out.transfer 7 [e.1, d.k] (d.words.flatMap (fun w => leBytes w.toNat 8)) ∈ (transferred y r cid).out := by
  refine ⟨?_, fun d hd hty hst => ?_⟩
  · obtain ⟨vs, hvs⟩ := queue_mem_finalItems (y := y) he
    exact ⟨vs, mem_transferred hvs⟩
  · have hcmd := mem_copyCmds he hd hty hst
    exact mem_transferred (copyCmd_mem_finalItems hcmd (hlog ▸ List.mem_map_of_mem (f := fun e : Nat × Cmd => (e.1, e.2.k)) hcmd))

/-- The blackout begins: every queue of the tenant, and every COPY command under way, is in the final transfer. -/
theorem blackout_transfers (hc : r.ctxs.get? cid = some c) : ((blackout y r cid).ctx cid).mig = .blackout ∧
    ∀ n x, r.queues.get? n = some x → x.part = c.part → x.tenant = c.tenant →
      (∃ vs, Out.transfer 1 (n :: x.rptr :: vs) [] ∈ (blackout y r cid).out) ∧
      ∀ d ∈ x.cmds, d.ty = 2 → d.st = .started → Out.transfer 7 [n, d.k] (d.words.flatMap (fun w => leBytes w.toNat 8)) ∈ (blackout y r cid).out := by
  have hended : (endTickets y r cid).ctxs = r.ctxs := endTickets_keeps y Run.ctxs (fun _ _ _ => rfl) cid r
  have hqueues : (roundStep y (endTickets y r cid) cid).queues = r.queues :=
    (roundStep_keeps Run.queues (fun _ _ _ _ _ _ => rfl) y _ cid).trans (endTickets_keeps y Run.queues (fun _ _ _ => rfl) cid r)
  obtain ⟨c', hc', hpart, htenant⟩ := get?_roundStep y (r := endTickets y r cid) (hended ▸ hc)
  obtain ⟨d, hd, hdpart, hdtenant⟩ : ∃ d, (takeLog (roundStep y (endTickets y r cid) cid) cid).ctxs.get? cid = some d ∧
      d.part = c'.part ∧ d.tenant = c'.tenant := ⟨_, get?_onCtx_self hc' _, rfl, rfl⟩
  have hctx := Run.ctx_of_get? hd
  rw [blackout_eq]
  refine ⟨congrArg Ctx.mig (Run.ctx_of_get? (get?_onCtx_self ((transferred_ctxs y _ cid).symm ▸ hd) _)), fun n x hx hxp hxt => ?_⟩
  rw [out_onCtx]
  refine transferred_sends (y := y) (takeLog_log hc') (e := (n, x)) (mem_queuesOf ?_ ?_ ?_)
  · rw [queues_takeLog, hqueues]
    exact hx
  · rw [hctx, hdpart, hpart]
    exact hxp
  · rw [hctx, hdtenant, htenant]
    exact hxt

end

/-! ## The source after the blackout (R534) -/

section
variable {r : Run} {cid : Nat} {c : Ctx}

/-- A run with the queues given taken from their slots. -/
def unmapAll (es : List (Nat × Queue)) (r : Run) : Run := es.foldl (fun r e => if e.2.mapped then queueUnmap r e.1 else r) r

theorem unmapAll_keeps {α : Type} (g : Run → α) (hg : ∀ (r : Run) m ws qs, g { r with mem := m, waves := ws, queues := qs } = g r)
    (es : List (Nat × Queue)) (r : Run) : g (unmapAll es r) = g r := by
  refine Run.foldl_keeps g (fun r e => ?_) es r
  split
  · exact (hg _ (storeBytes r _ _).mem (storeBytes r _ _).waves _).trans (storeBytes_read g (fun r m ws => hg r m ws r.queues) r _ _)
  · rfl

theorem queue_queueUnmap (r : Run) (q n : Nat) (h : n = q ∨ (r.queue n).mapped = false) (hq : (r.queues.get? n).isSome) :
    ((queueUnmap r q).queue n).mapped = false ∧ ((queueUnmap r q).queues.get? n).isSome := by
  obtain ⟨x, hx⟩ := Option.isSome_iff_exists.mp hq
  by_cases hn : n = q
  · subst hn
    have hget : (queueUnmap r n).queues.get? n = some { x with mapped := false, reserved := false, loan := none, waiting := true } := by
      simp only [queueUnmap, Run.onQueue, Tbl.get?_upd, queues_storeBytes, if_true, hx, Option.map_some]
    exact ⟨congrArg Queue.mapped (Run.queue_of_get? hget), by rw [hget]; rfl⟩
  · have hget : (queueUnmap r q).queues.get? n = some x := by
      simp only [queueUnmap, Run.onQueue, Tbl.get?_upd, queues_storeBytes, if_neg hn, hx]
    exact ⟨(congrArg Queue.mapped ((Run.queue_of_get? hget).trans (Run.queue_of_get? hx).symm)).trans (h.resolve_left hn), by rw [hget]; rfl⟩

/-- Each queue of the list has left its slot. -/
theorem unmapAll_unmapped (es : List (Nat × Queue)) (r : Run) (n : Nat) (hq : (r.queues.get? n).isSome)
    (h : (r.queue n).mapped = false ∨ ∃ x, (n, x) ∈ es ∧ x.mapped = true) : ((unmapAll es r).queue n).mapped = false := by
  induction es generalizing r with
  | nil => exact h.resolve_right (fun ⟨x, hx, _⟩ => nomatch hx)
  | cons e es ih =>
    rw [unmapAll, List.foldl_cons, ← unmapAll]
    cases hm : e.2.mapped with
    | false =>
      rw [if_neg Bool.false_ne_true]
      refine ih r hq (h.imp_right ?_)
      rintro ⟨x, hx, hxm⟩
      rcases List.mem_cons.mp hx with rfl | hx
      · exact absurd (hm.symm.trans hxm) Bool.false_ne_true
      · exact ⟨x, hx, hxm⟩
    | true =>
      rw [if_pos rfl]
      by_cases hn : n = e.1 ∨ (r.queue n).mapped = false
      · obtain ⟨hoff, hsome⟩ := queue_queueUnmap r e.1 n hn hq
        exact ih _ hsome (Or.inl hoff)
      · obtain ⟨hne, hon⟩ := not_or.mp hn
        obtain ⟨x, hx, hxm⟩ := h.resolve_left hon
        have hkept : (queueUnmap r e.1).queues.get? n = r.queues.get? n := by
          simp only [queueUnmap, Run.onQueue, Tbl.get?_upd, queues_storeBytes, if_neg hne]
        refine ih _ (hkept ▸ hq) (Or.inr ⟨x, ?_, hxm⟩)
        rcases List.mem_cons.mp hx with rfl | hx
        · exact absurd rfl hne
        · exact hx

theorem foldl_send_held (is : List Instr) (r : Run) :
    is.foldl (fun r i => r.send (.held i)) r = { r with out := r.out ++ is.map Out.held } := by
  induction is generalizing r with
  | nil => rw [List.map_nil, List.append_nil]; rfl
  | cons i is ih =>
    rw [List.foldl_cons, ih]
    simp only [Run.send, List.map_cons, List.append_assoc]
    rfl

/-- The source at the end of the blackout. -/
theorem leaveBlackout_of (hc : r.ctxs.get? cid = some c) (hm : c.mig = .blackout) : ∃ r', r' = leaveSource r cid ∧
    leaveBlackout r cid = ({ r' with out := r'.out ++ Out.rebind (r.part c.part).dev :: Out.reroute (r.part c.part).dev :: c.hold.map Out.held } : Run).onCtx
      cid (fun c => { c with mig := .moved, hold := [], logging := false }) := by
  refine ⟨_, rfl, ?_⟩
  rw [leaveBlackout, Run.ctx_of_get? hc, if_neg (not_not_intro hm)]
  dsimp only
  rw [foldl_send_held]
  simp only [Run.send, List.append_assoc, List.cons_append, List.nil_append]

theorem leaveSource_eq (hc : r.ctxs.get? cid = some c) : leaveSource r cid = (unmapAll (r.queuesOf cid) r).onPart c.part (fun p => { p with
    qps := p.qps.filter (fun e => e.2.ctx ≠ cid), colls := p.colls.filter (fun e => e.2.ctx ≠ cid) }) := by
  have hctx : (unmapAll (r.queuesOf cid) r).ctx cid = r.ctx cid := unmapAll_keeps (fun r => r.ctx cid) (fun _ _ _ _ => rfl) _ r
  rw [Run.ctx_of_get? hc] at hctx
  rw [leaveSource, ← hctx]
  rfl

theorem leaveSource_leaves (hc : r.ctxs.get? cid = some c) :
    (∀ n x, r.queues.get? n = some x → x.part = c.part → x.tenant = c.tenant → ((leaveSource r cid).queue n).mapped = false) ∧
    (∀ e ∈ ((leaveSource r cid).part c.part).qps, e.2.ctx ≠ cid) ∧ ∀ e ∈ ((leaveSource r cid).part c.part).colls, e.2.ctx ≠ cid := by
  have hctx := Run.ctx_of_get? hc
  rw [leaveSource_eq hc]
  refine ⟨fun n x hx hp ht => ?_, fun e he => ?_, fun e he => ?_⟩
  · have hmem : (n, x) ∈ r.queuesOf cid := mem_queuesOf hx (hp.trans (by rw [hctx])) (ht.trans (by rw [hctx]))
    refine unmapAll_unmapped (r.queuesOf cid) r n (by rw [hx]; rfl) ?_
    rw [Run.queue_of_get? hx]
    cases hm : x.mapped with
    | false => exact Or.inl rfl
    | true => exact Or.inr ⟨x, hmem, hm⟩
  · simp only [Run.onPart, Run.part, Tbl.get?_put, if_true, Option.getD_some] at he
    exact of_decide_eq_true (List.mem_filter.mp he).2
  · simp only [Run.onPart, Run.part, Tbl.get?_put, if_true, Option.getD_some] at he
    exact of_decide_eq_true (List.mem_filter.mp he).2

theorem leaveBlackout_leaves (hc : r.ctxs.get? cid = some c) (hm : c.mig = .blackout) :
    ((leaveBlackout r cid).ctx cid).mig = .moved ∧ ((leaveBlackout r cid).ctx cid).hold = [] ∧ ((leaveBlackout r cid).ctx cid).logging = false ∧
    (leaveBlackout r cid).out = r.out ++ Out.rebind (r.part c.part).dev :: Out.reroute (r.part c.part).dev :: c.hold.map Out.held ∧
    (∀ n x, r.queues.get? n = some x → x.part = c.part → x.tenant = c.tenant → ((leaveBlackout r cid).queue n).mapped = false) ∧
    (∀ e ∈ ((leaveBlackout r cid).part c.part).qps, e.2.ctx ≠ cid) ∧ ∀ e ∈ ((leaveBlackout r cid).part c.part).colls, e.2.ctx ≠ cid := by
  obtain ⟨r', rfl, he⟩ := leaveBlackout_of hc hm
  have hctxs : (leaveSource r cid).ctxs = r.ctxs := by
    rw [leaveSource_eq hc]
    exact unmapAll_keeps Run.ctxs (fun _ _ _ _ => rfl) _ r
  have hout : (leaveSource r cid).out = r.out := by
    rw [leaveSource_eq hc]
    exact unmapAll_keeps Run.out (fun _ _ _ _ => rfl) _ r
  have hself := Run.ctx_of_get? (get?_onCtx_self (r := { leaveSource r cid with
    out := (leaveSource r cid).out ++ Out.rebind (r.part c.part).dev :: Out.reroute (r.part c.part).dev :: c.hold.map Out.held })
    (hctxs ▸ hc : (leaveSource r cid).ctxs.get? cid = some c) (fun c => { c with mig := .moved, hold := [], logging := false }))
  obtain ⟨hqueues, hqps, hcolls⟩ := leaveSource_leaves hc
  rw [he, hself]
  exact ⟨rfl, rfl, rfl, congrArg (· ++ _) hout, hqueues, hqps, hcolls⟩

theorem leaveBlackout_other (hc : r.ctxs.get? cid = some c) (hm : c.mig ≠ .blackout) : leaveBlackout r cid = r := by
  rw [leaveBlackout, Run.ctx_of_get? hc, if_pos hm]

end

end Sys2Proof.Machine
end

section
/-! The destination of a live migration, and its pages that come late (R533, R535). -/

namespace Sys2Proof.Machine

/-! ## What has moved arrives (R532, R533) -/

section
variable {y : Sys} {r : Run} {cid : Nat} {c : Ctx}

/-- The destination before the items: its command log is empty. -/
def unlogged (r : Run) (cid : Nat) : Run := r.onCtx cid (fun c => { c with log := [], copyLog := [] })

theorem ctx_unlogged (hc : r.ctxs.get? cid = some c) : (unlogged r cid).ctxs.get? cid = some { c with log := [], copyLog := [] } :=
  get?_onCtx_self hc _

/-- After the items a destination tells the source that it has all, or drops its translations. -/
theorem enterMoved_keeps {α : Type} (g : Run → α)
    (hg : ∀ (r : Run) ps xs ks ws, g { r with ports := ps, out := xs, cores := ks, waves := ws } = g r)
    (hc : r.ctxs.get? cid = some c) (hm : c.mig = .off) (i : Moved) : g (enterMoved y r cid [i]) = g (placeCopies (takeItem cid (unlogged r cid) i) cid) := by
  have hopen : ¬((r.ctxs.get? cid).isNone ∨ (r.ctx cid).mig ≠ .off) := by
    rw [hc, Run.ctx_of_get? hc]
    exact fun h => h.elim (fun h => nomatch h) (fun h => h hm)
  rw [enterMoved, if_neg hopen]
  dsimp only
  split
  · exact toPeer_keeps _ cid 0 _ g (fun r ps xs => hg r ps xs r.cores r.waves)
  · exact hg _ _ _ _ _

/-- A queue pair is taken in with its sequence number. -/
theorem enterMoved_queuePair (hc : r.ctxs.get? cid = some c) (hm : c.mig = .off) (qp mtu seq : Nat) (bs : List Byte) :
    (enterMoved y r cid [⟨2, [qp, mtu, seq], bs⟩]).mem = r.mem ∧
    ((enterMoved y r cid [⟨2, [qp, mtu, seq], bs⟩]).part c.part).qps.get? qp = some { ctx := cid, mtu := mtu, expect := seq } := by
  refine ⟨enterMoved_keeps Run.mem (fun _ _ _ _ _ => rfl) hc hm _, ?_⟩
  rw [enterMoved_keeps (fun r => (r.part c.part).qps.get? qp) (fun _ _ _ _ _ => rfl) hc hm]
  have hpart : ((unlogged r cid).ctx cid).part = c.part := by rw [Run.ctx_of_get? (ctx_unlogged hc)]
  simp only [takeItem, placeCopies, Run.onCtx, Run.onPart, Run.part, Tbl.get?_put, hpart, if_true, Option.getD_some, List.getD_cons_zero, List.getD_cons_succ]

/-- A COPY command of the log is executed again. -/
theorem enterMoved_copyCmd (hc : r.ctxs.get? cid = some c) (hm : c.mig = .off) {n : Nat} {x : Queue} (hq : r.queues.get? n = some x) (k : Nat) (bs : List Byte) :
    (enterMoved y r cid [⟨7, [n, k], bs⟩]).mem = r.mem ∧ ∃ d ∈ ((enterMoved y r cid [⟨7, [n, k], bs⟩]).queue n).cmds, d.k = k ∧ d.st = .fetched ∧
      d.words = (List.range 8).map (fun i => BitVec.ofNat 64 (ofLe ((bs.drop (8 * i)).take 8))) := by
  refine ⟨enterMoved_keeps Run.mem (fun _ _ _ _ _ => rfl) hc hm _, ?_⟩
  rw [enterMoved_keeps (fun r => r.queue n) (fun _ _ _ _ _ => rfl) hc hm]
  have hcmds : ((placeCopies (takeItem cid (unlogged r cid) ⟨7, [n, k], bs⟩) cid).queue n).cmds =
      x.cmds.filter (fun d => d.k < k) ++ [({ k := k, words := (List.range 8).map (fun i => BitVec.ofNat 64 (ofLe ((bs.drop (8 * i)).take 8))) } : Cmd)] ++
        x.cmds.filter (fun d => k < d.k) := by
    simp only [takeItem, placeCopies, takeCopyCmd, unlogged, Run.onCtx, Run.queue, Run.onQueue, Tbl.get?_upd, hq, if_true, Option.map_some, Option.getD_some,
      List.getD_cons_zero, List.getD_cons_succ]
  rw [hcmds]
  exact ⟨_, List.mem_append_left _ (List.mem_append_right _ List.mem_cons_self), rfl, rfl, rfl⟩

/-- The low byte of a word, as it stands in memory. -/
theorem memGet_storeBytes_leBytes (r : Run) (a : Nat) (w : Word64) : memGet (storeBytes r a (leBytes w.toNat 8)).mem a = BitVec.ofNat 8 w.toNat := by
  rw [memGet_storeBytes, if_pos ⟨Nat.le_refl a, by rw [length_leBytes]; omega⟩, Nat.sub_self, getD_leBytes (by decide), Nat.pow_zero, Nat.div_one]

theorem getLsbD_lowByte (w : Word64) {i : Nat} (hi : i < 8) : (BitVec.ofNat 8 w.toNat).getLsbD i = w.getLsbD i := by
  rw [BitVec.getLsbD_ofNat, decide_eq_true hi, Bool.true_and]
  rfl

/-- A stage-2 word with V and PEND rewritten, in memory. -/
theorem lowByte_validPend (r : Run) (a : Nat) (d : Word64) (v p : Nat) :
    (memGet (storeBytes r a (leBytes (setBits (setBits d 0 1 v) 6 1 p).toNat 8)).mem a).getLsbD 0 = v.testBit 0 ∧
    (memGet (storeBytes r a (leBytes (setBits (setBits d 0 1 v) 6 1 p).toNat 8)).mem a).getLsbD 6 = p.testBit 0 := by
  rw [memGet_storeBytes_leBytes, getLsbD_lowByte _ (by decide), getLsbD_lowByte _ (by decide)]
  refine ⟨(getLsbD_setBits_of_out _ 6 1 p 0 (Or.inl (by decide))).trans (getLsbD_setBits_of_in d 0 1 v 0 (by decide) (by decide) (by decide)), ?_⟩
  exact getLsbD_setBits_of_in _ 6 1 p 6 (by decide) (by decide) (by decide)

/-- A page left behind is marked in the leaf that maps it. -/
theorem enterMoved_missing (hc : r.ctxs.get? cid = some c) (hm : c.mig = .off) (bs : List Byte) {g a size : Nat}
    (hd : descAt r.mem (g * 65536) levels c.hostRoot = some (a, size)) :
    g ∈ ((enterMoved y r cid [⟨9, [g], bs⟩]).ctx cid).missing ∧
    (memGet (enterMoved y r cid [⟨9, [g], bs⟩]).mem a).getLsbD 0 = false ∧ (memGet (enterMoved y r cid [⟨9, [g], bs⟩]).mem a).getLsbD 6 = true ∧
    ∀ x, (x < a ∨ a + 8 ≤ x) → memGet (enterMoved y r cid [⟨9, [g], bs⟩]).mem x = memGet r.mem x := by
  have hget := ctx_unlogged hc
  have hmark : takeItem cid (unlogged r cid) ⟨9, [g], bs⟩ = (storeBytes (unlogged r cid) a (leBytes (setBits (setBits (BitVec.ofNat 64
      (memRead (unlogged r cid).mem a 8)) 0 1 0) 6 1 1).toNat 8)).onCtx cid (fun c =>
        { c with missing := if c.missing.contains g then c.missing else c.missing ++ [g] }) := by
    have hd' : descAt (unlogged r cid).mem (g * 65536) levels ((unlogged r cid).ctx cid).hostRoot = some (a, size) := by
      rw [Run.ctx_of_get? hget]
      exact hd
    simp only [takeItem, markMissing, List.getD_cons_zero, hd']
  have hstored : ∀ bs, (storeBytes (unlogged r cid) a bs).ctxs = (unlogged r cid).ctxs := storeBytes_read Run.ctxs (fun _ _ _ => rfl) _ a
  have hmem : (enterMoved y r cid [⟨9, [g], bs⟩]).mem = (takeItem cid (unlogged r cid) ⟨9, [g], bs⟩).mem :=
    enterMoved_keeps Run.mem (fun _ _ _ _ _ => rfl) hc hm _
  have hctx := enterMoved_keeps (y := y) (fun r => r.ctx cid) (fun _ _ _ _ _ => rfl) hc hm ⟨9, [g], bs⟩
  rw [hmem, hctx, hmark]
  refine ⟨?_, (lowByte_validPend _ a _ 0 1).1, (lowByte_validPend _ a _ 0 1).2, fun x hx => ?_⟩
  · rw [placeCopies, Run.ctx_of_get? (get?_onCtx_self (get?_onCtx_self ((hstored _).symm ▸ hget) _) _)]
    dsimp only
    split
    · next h => exact List.contains_iff_mem.mp h
    · exact List.mem_append_right _ List.mem_cons_self
  · exact (memGet_storeBytes _ a x _).trans (if_neg (by rw [length_leBytes]; omega))

theorem enterMoved_other (hc : r.ctxs.get? cid = some c) (hm : c.mig ≠ .off) (is : List Moved) : enterMoved y r cid is = r := by
  rw [enterMoved, Run.ctx_of_get? hc, if_pos (Or.inr hm)]

end

/-! ## Pages that come late (R535) -/

section
variable {y : Sys} {r : Run} {cid p pa : Nat} {page : List Byte} {c : Ctx}

theorem mem_onCtx (r : Run) (cid : Nat) (f : Ctx → Ctx) : (r.onCtx cid f).mem = r.mem := rfl

theorem part_onCtx (r : Run) (cid : Nat) (f : Ctx → Ctx) (p : Nat) : (r.onCtx cid f).part p = r.part p := rfl

theorem putPage_keeps {α : Type} (g : Run → α) (hg : ∀ (r : Run) m ws, g { r with mem := m, waves := ws } = g r) (y : Sys) (r : Run) (p pa : Nat)
    (page : List Byte) : g (putPage y r p pa page) = g r := by
  refine Run.foldl_keeps g (fun r i => ?_) _ r
  split
  · exact storeBytes_read g hg r _ _
  · rfl

/-- The first pieces of a page, in its frame. -/
theorem memGet_pieces (ho : ∀ i, i < 8 → y.owns p (pa + 8192 * i) = true) (hlen : page.length = 65536) (r : Run) (x n : Nat) (hn : n ≤ 8) :
    memGet ((List.range n).foldl (fun r i =>
      if y.owns p (pa + 8192 * i) then storeBytes r (pa + 8192 * i) ((page.drop (8192 * i)).take 8192) else r) r).mem x =
      if pa ≤ x ∧ x < pa + 8192 * n then page.getD (x - pa) 0 else memGet r.mem x := by
  induction n with
  | zero => exact (if_neg (by omega)).symm
  | succ n ih =>
    have hpiece : ((page.drop (8192 * n)).take 8192).length = 8192 := by
      rw [List.length_take, List.length_drop, hlen]
      omega
    rw [List.range_succ, List.foldl_append, List.foldl_cons, List.foldl_nil, if_pos (ho n (by omega)), memGet_storeBytes, hpiece, ih (by omega)]
    by_cases hin : pa + 8192 * n ≤ x ∧ x < pa + 8192 * n + 8192
    · rw [if_pos hin, if_pos (by omega), List.getD_eq_getElem?_getD, List.getElem?_take, if_pos (by omega), List.getElem?_drop,
        ← List.getD_eq_getElem?_getD]
      exact congrArg (fun i => page.getD i 0) (by omega)
    · rw [if_neg hin]
      exact if_congr (by omega) rfl rfl

theorem memGet_putPage (ho : ∀ i, i < 8 → y.owns p (pa + 8192 * i) = true) (hlen : page.length = 65536) (r : Run) (x : Nat) :
    memGet (putPage y r p pa page).mem x = if pa ≤ x ∧ x < pa + 65536 then page.getD (x - pa) 0 else memGet r.mem x :=
  memGet_pieces ho hlen r x 8 (Nat.le_refl 8)

/-- The run with a page that has come in its frame, and no longer missing. -/
def pagePut (y : Sys) (r : Run) (cid g : Nat) (page : List Byte) (a size : Nat) : Run :=
  let left := (r.ctx cid).missing.filter (fun h => h ≠ g)
  (putPage y r (r.ctx cid).part (bits (BitVec.ofNat 64 (memRead r.mem a 8) : Word64) 16 36 * 65536 + g * 65536 % size) page).onCtx cid (fun c =>
    { c with missing := left, pulls := c.pulls.filter (fun e => e.1 ≠ g) })

/-- The same once its leaf is mapped, where no page of that is missing any more. -/
def pulledPage (y : Sys) (r : Run) (cid g : Nat) (page : List Byte) (a size : Nat) : Run :=
  if ((r.ctx cid).missing.filter (fun h => h ≠ g)).any (fun h => h * 65536 / size = g * 65536 / size) then pagePut y r cid g page a size
  else storeBytes (pagePut y r cid g page a size) a
    (leBytes (setBits (setBits (BitVec.ofNat 64 (memRead r.mem a 8) : Word64) 0 1 1) 6 1 0).toNat 8)

section
variable {g a size : Nat} (hc : r.ctxs.get? cid = some c)
include hc

theorem postcopyPull_eq (hg : g ∈ c.missing) (hlen : page.length = 65536) (hd : descAt r.mem (g * 65536) levels c.hostRoot = some (a, size)) :
    postcopyPull y r cid (g * 65536) page = if c.missing.filter (fun h => h ≠ g) = [] then (pulledPage y r cid g page a size).toPeer cid 0
      (.arrived ((pulledPage y r cid g page a size).part c.part).dev) else pulledPage y r cid g page a size := by
  have hdiv : g * 65536 / 65536 = g := Nat.mul_div_cancel g (by decide)
  have hctx := Run.ctx_of_get? hc
  simp only [postcopyPull, pulledPage, pagePut, hctx, hdiv, hd, List.contains_iff_mem.mpr hg, hlen, Bool.not_true, Bool.false_eq_true, ne_eq, not_true_eq_false,
    or_self, if_false]

theorem postcopyPull_other (hg : g ∉ c.missing) : postcopyPull y r cid (g * 65536) page = r := by
  have hdiv : g * 65536 / 65536 = g := Nat.mul_div_cancel g (by decide)
  have hno : c.missing.contains g = false := by
    rw [← Bool.not_eq_true, List.contains_iff_mem]
    exact hg
  simp only [postcopyPull, Run.ctx_of_get? hc, hdiv, hno, Bool.not_false, true_or, if_true]

/-- The context after a page has come. -/
theorem pagePut_ctxs : (pagePut y r cid g page a size).ctxs.get? cid =
      some { c with missing := c.missing.filter (fun h => h ≠ g), pulls := c.pulls.filter (fun e => e.1 ≠ g) } ∧
    ∀ k, k ≠ cid → (pagePut y r cid g page a size).ctxs.get? k = r.ctxs.get? k := by
  rw [pagePut, Run.ctx_of_get? hc]
  generalize bits (BitVec.ofNat 64 (memRead r.mem a 8) : Word64) 16 36 * 65536 + g * 65536 % size = pa
  have hput := fun pa => putPage_keeps Run.ctxs (fun _ _ _ => rfl) y r c.part pa page
  exact ⟨get?_onCtx_self ((hput _).symm ▸ hc) _, fun k hk => (get?_onCtx_of_ne _ hk _).trans (congrArg (fun z : Tbl Ctx => z.get? k) (hput _))⟩

omit hc in
theorem pulledPage_keeps {α : Type} (f : Run → α) (hf : ∀ (r : Run) m ws, f { r with mem := m, waves := ws } = f r) :
    f (pulledPage y r cid g page a size) = f (pagePut y r cid g page a size) := by
  rw [pulledPage]
  split
  · rfl
  · exact storeBytes_read f hf _ _ _

/-- The bytes of the page are in its frame. -/
theorem memGet_pagePut {pa : Nat} (hpa : bits (BitVec.ofNat 64 (memRead r.mem a 8) : Word64) 16 36 * 65536 + g * 65536 % size = pa)
    (ho : ∀ i, i < 8 → y.owns c.part (pa + 8192 * i) = true) (hlen : page.length = 65536) (x : Nat) :
    memGet (pagePut y r cid g page a size).mem x = if pa ≤ x ∧ x < pa + 65536 then page.getD (x - pa) 0 else memGet r.mem x := by
  rw [pagePut, Run.ctx_of_get? hc, hpa]
  rw [mem_onCtx]
  exact memGet_putPage ho hlen r x

omit hc in
/-- Outside its leaf the memory is that with the page put in. -/
theorem memGet_pulledPage {x : Nat} (hx : x < a ∨ a + 8 ≤ x) :
    memGet (pulledPage y r cid g page a size).mem x = memGet (pagePut y r cid g page a size).mem x := by
  rw [pulledPage]
  split
  · rfl
  · exact (memGet_storeBytes _ a x _).trans (if_neg (by rw [length_leBytes]; omega))

/-- The leaf is mapped with the last of its pages. -/
theorem pulledPage_mapped (hlast : ∀ h ∈ c.missing.filter (fun h => h ≠ g), h * 65536 / size ≠ g * 65536 / size) :
    (memGet (pulledPage y r cid g page a size).mem a).getLsbD 0 = true ∧ (memGet (pulledPage y r cid g page a size).mem a).getLsbD 6 = false := by
  have hnone : (c.missing.filter (fun h => h ≠ g)).any (fun h => h * 65536 / size = g * 65536 / size) = false :=
    List.any_eq_false.mpr (fun h hh => by rw [decide_eq_true_eq]; exact hlast h hh)
  rw [pulledPage, Run.ctx_of_get? hc, hnone, if_neg Bool.false_ne_true]
  exact lowByte_validPend _ a _ 1 0

/-- A page that has come, for a run whatever the source is told. -/
theorem postcopyPull_cases (hg : g ∈ c.missing) (hlen : page.length = 65536) (hd : descAt r.mem (g * 65536) levels c.hostRoot = some (a, size)) :
    (∀ {α : Type} (f : Run → α) (_ : ∀ (r : Run) ps xs, f { r with ports := ps, out := xs } = f r),
      f (postcopyPull y r cid (g * 65536) page) = f (pulledPage y r cid g page a size)) ∧
    (c.missing.filter (fun h => h ≠ g) = [] → Out.arrived (r.part c.part).dev ∈ (postcopyPull y r cid (g * 65536) page).out) := by
  have hpart : (pulledPage y r cid g page a size).part c.part = r.part c.part := by
    rw [pulledPage_keeps (fun r => r.part c.part) (fun _ _ _ => rfl), pagePut]
    generalize bits (BitVec.ofNat 64 (memRead r.mem a 8) : Word64) 16 36 * 65536 + g * 65536 % size = pa
    exact (part_onCtx _ cid _ _).trans (putPage_keeps (fun r => r.part c.part) (fun _ _ _ => rfl) y r (r.ctx cid).part pa page)
  rw [postcopyPull_eq hc hg hlen hd, hpart]
  refine ⟨fun f hf => ?_, fun hleft => ?_⟩
  · split
    · exact toPeer_keeps _ cid 0 _ f hf
    · rfl
  · rw [if_pos hleft]
    obtain ⟨xs, hxs⟩ := toPeer_out (pulledPage y r cid g page a size) cid 0 (.arrived (r.part c.part).dev)
    exact hxs ▸ List.mem_append_right _ List.mem_cons_self

end

/-! ## A page that never comes -/

/-- Where a page is lost, its pull has been under way for as long as the context allows. -/
theorem Run.pullLost_pull {va : Nat} (h : r.pullLost y cid va = true) :
    ∃ p ∈ (r.ctx cid).pulls, p.1 ∈ (r.ctx cid).missing ∧ p.2 + (r.ctx cid).ftoCycles ≤ r.clk := by
  rw [Run.pullLost] at h
  split at h
  · exact absurd h Bool.false_ne_true
  · next e _ =>
    simp only [Bool.and_eq_true, List.any_eq_true, decide_eq_true_eq] at h
    obtain ⟨⟨-, hmissing⟩, p, hp, hpage, hage⟩ := h
    exact ⟨p, hp, hpage ▸ List.contains_iff_mem.mp hmissing, hage⟩

theorem Run.lostAt_pull {site : FaultSite} (h : r.lostAt y site = some cid) :
    ∃ p ∈ (r.ctx cid).pulls, p.1 ∈ (r.ctx cid).missing ∧ p.2 + (r.ctx cid).ftoCycles ≤ r.clk := by
  have hok {k : Nat} {vas : List Nat} (h : (if vas.any (r.pullLost y k) then some k else none) = some cid) :
      ∃ p ∈ (r.ctx cid).pulls, p.1 ∈ (r.ctx cid).missing ∧ p.2 + (r.ctx cid).ftoCycles ≤ r.clk := by
    split at h
    · next hany =>
      obtain rfl := Option.some.inj h
      obtain ⟨va, -, hlost⟩ := List.any_eq_true.mp hany
      exact Run.pullLost_pull hlost
    · exact nomatch h
  cases site with
  | part w lane => exact hok h
  | copy core ch =>
    rw [Run.lostAt] at h
    split at h
    · exact hok h
    · exact nomatch h
  | eval b => exact hok h

/-- The tenant of a lost page is frozen. -/
theorem pullTimeout_freezes {site : FaultSite} (hc : r.ctxs.get? cid = some c) (hf : c.frozen = none) (h : r.lostAt y site = some cid) :
    ((pullTimeout y r site).ctx cid).frozen = some 5 := by
  obtain ⟨ns, hns⟩ := (sameButSaved_faultDecline y r site 0x21).ctx cid c hc
  have hfrozen := get?_freezeTenant (y := y) (reason := 5) hns
  rw [Ctx.frozenBy_of_none (c := { c with saved := ns }) hf] at hfrozen
  rw [pullTimeout, h]
  dsimp only
  rw [Run.ctx_of_get? hc]
  exact congrArg Ctx.frozen (Run.ctx_of_get? hfrozen)

end

end Sys2Proof.Machine
end

section
/-! O57: live migration, assembled. -/

namespace Sys2Proof.Machine

/-! ## Rounds -/

section
variable {s : State} {cid : Nat} {c c0 : Ctx}

/-- What a round leaves where it ends: the pages given are sent, and of the contexts this one alone changes. -/
structure RoundEnds (s t : State) (cid : Nat) (c c' : Ctx) (gs : List Nat) : Prop where
  others : t.sys = s.sys ∧ ∀ k, k ≠ cid → t.run.ctxs.get? k = s.run.ctxs.get? k
  mem : t.run.mem = s.run.mem
  blocks : t.run.blocks = s.run.blocks
  ctx : t.run.ctxs.get? cid = some c'
  sent : ∃ xs, t.run.out = s.run.out ++ xs ∧ ∀ g ∈ gs, PageSent s.sys s.run.mem c.part c.hostRoot g xs

/-- What a round leaves where it waits. -/
structure RoundWaits (s t : State) (cid : Nat) (c' : Ctx) : Prop where
  others : t.sys = s.sys ∧ ∀ k, k ≠ cid → t.run.ctxs.get? k = s.run.ctxs.get? k
  rest : { t.run with ctxs := s.run.ctxs } = s.run
  ctx : t.run.ctxs.get? cid = some c'

theorem roundStep_ends (hc : s.run.ctxs.get? cid = some c) (hb : s.run.farBusy c.part = false) :
    RoundEnds s { s with run := roundStep s.sys s.run cid } cid c c.inRound.roundOver c.inRound.oldDirty := by
  obtain ⟨hmem, hblocks, hothers, hself, hsent⟩ := roundStep_sends (y := s.sys) hc hb
  exact ⟨⟨rfl, hothers⟩, hmem, hblocks, hself, hsent⟩

theorem roundStep_waits' (hc : s.run.ctxs.get? cid = some c) (hb : s.run.farBusy c.part = true) :
    RoundWaits s { s with run := roundStep s.sys s.run cid } cid { c.inRound with roundDue := true } := by
  have h : RoundWaits s { s with run := roundBegun s.run cid } cid { c.inRound with roundDue := true } :=
    ⟨⟨rfl, fun k hk => get?_roundBegun_of_ne s.run hk⟩, roundBegun_frame s.run cid, get?_roundBegun hc⟩
  rw [roundStep_waits hc hb]
  exact h

/-- A round that follows an earlier one. -/
theorem migrationRound_next (hc : s.run.ctxs.get? cid = some c) (hm : c.mig = .rounds) :
    migrationRound s.sys s.run cid = roundStep s.sys s.run cid := by
  rw [migrationRound, hc, Run.ctx_of_get? hc]
  dsimp only
  rw [hm, if_neg (by simp)]

/-- A context whose first round begins: every mapped page is to be sent, and writes are logged. -/
def Ctx.firstRound (m : SMap Byte) (c : Ctx) : Ctx := { c.setDirty (mappedPages m levels c.hostRoot 0) with logging := true, mig := .rounds }

theorem migrationRound_first (hc : s.run.ctxs.get? cid = some c) (hm : c.mig = .off) :
    migrationRound s.sys s.run cid = roundStep s.sys (s.run.onCtx cid (Ctx.firstRound s.run.mem)) cid := by
  rw [migrationRound, hc, Run.ctx_of_get? hc]
  dsimp only
  rw [hm, if_neg (by simp)]
  rfl

theorem Ctx.part_firstRound (m : SMap Byte) (c : Ctx) : (c.firstRound m).part = c.part := by
  rw [Ctx.firstRound, Ctx.setDirty]
  split <;> rfl

theorem Ctx.hostRoot_firstRound (m : SMap Byte) (c : Ctx) : (c.firstRound m).hostRoot = c.hostRoot := by
  rw [Ctx.firstRound, Ctx.setDirty]
  split <;> rfl

theorem farBusy_onCtx (r : Run) (cid : Nat) {f : Ctx → Ctx} (hf : ∀ c, (f c).part = c.part) (p : Nat) : (r.onCtx cid f).farBusy p = r.farBusy p := by
  refine farBusy_withCtxs r _ (fun k => ?_) p
  simp only [Run.ctx, Tbl.get?_upd]
  split
  · next hk =>
    cases hx : r.ctxs.get? cid with
    | none => rw [hk, hx]; rfl
    | some x =>
      rw [hk, hx]
      exact hf x
  · rfl

theorem firstRound_ends (hc : s.run.ctxs.get? cid = some c) (hm : c.mig = .off) (hb : s.run.farBusy c.part = false) :
    RoundEnds s { s with run := migrationRound s.sys s.run cid } cid c (c.firstRound s.run.mem).inRound.roundOver (c.firstRound s.run.mem).inRound.oldDirty := by
  have hget := get?_onCtx_self hc (Ctx.firstRound s.run.mem)
  have hpart := Ctx.part_firstRound s.run.mem c
  have hb' : (s.run.onCtx cid (Ctx.firstRound s.run.mem)).farBusy (c.firstRound s.run.mem).part = false := by
    rw [hpart, farBusy_onCtx s.run cid (Ctx.part_firstRound s.run.mem)]
    exact hb
  obtain ⟨hmem, hblocks, hothers, hself, xs, hxs, hsent⟩ := roundStep_sends (y := s.sys) hget hb'
  rw [hpart, Ctx.hostRoot_firstRound] at hsent
  rw [migrationRound_first hc hm]
  exact ⟨⟨rfl, fun k hk => (hothers k hk).trans (get?_onCtx_of_ne s.run hk _)⟩, hmem, hblocks, hself, xs, hxs, hsent⟩

theorem firstRound_waits (hc : s.run.ctxs.get? cid = some c) (hm : c.mig = .off) (hb : s.run.farBusy c.part = true) :
    RoundWaits s { s with run := migrationRound s.sys s.run cid } cid { (c.firstRound s.run.mem).inRound with roundDue := true } := by
  have hget := get?_onCtx_self hc (Ctx.firstRound s.run.mem)
  have hb' : (s.run.onCtx cid (Ctx.firstRound s.run.mem)).farBusy (c.firstRound s.run.mem).part = true := by
    rw [Ctx.part_firstRound, farBusy_onCtx s.run cid (Ctx.part_firstRound s.run.mem)]
    exact hb
  have h : RoundWaits s { s with run := roundBegun (s.run.onCtx cid (Ctx.firstRound s.run.mem)) cid } cid
      { (c.firstRound s.run.mem).inRound with roundDue := true } :=
    ⟨⟨rfl, fun k hk => (get?_roundBegun_of_ne _ hk).trans (get?_onCtx_of_ne s.run hk _)⟩,
      congrArg (fun r : Run => { r with ctxs := s.run.ctxs }) (roundBegun_frame (s.run.onCtx cid (Ctx.firstRound s.run.mem)) cid), get?_roundBegun hget⟩
  rw [migrationRound_first hc hm, roundStep_waits hget hb']
  exact h

/-- The first round sends what is mapped. -/
theorem Ctx.inRound_firstRound (m : SMap Byte) {c : Ctx} (hdue : c.roundDue = false) :
    let mapped := mappedPages m levels c.hostRoot 0
    let marked : Ctx := if c.one then { c with dirty1 := mapped } else { c with dirty0 := mapped }
    let first : Ctx := { marked with logging := true, mig := .rounds }
    (c.firstRound m).inRound = { first with one := !first.one } ∧ (c.firstRound m).inRound.oldDirty = mapped := by
  rw [Ctx.firstRound, Ctx.setDirty]
  generalize mappedPages m levels c.hostRoot 0 = mapped
  cases hone : c.one with
  | true =>
    simp only [if_true, Ctx.inRound, hdue, Bool.false_eq_true, if_false, Ctx.swap, Ctx.oldDirty, Bool.not_true]
    exact ⟨trivial, trivial⟩
  | false =>
    simp only [Bool.false_eq_true, if_false, Ctx.inRound, hdue, Ctx.swap, Ctx.oldDirty, Bool.not_false, if_true]
    exact ⟨trivial, trivial⟩

theorem Ctx.inRound_due {c : Ctx} (hdue : c.roundDue = true) : c.inRound = c ∧ c.inRound.oldDirty = c.oldDirty := by
  rw [Ctx.inRound, if_pos hdue]
  exact ⟨rfl, rfl⟩

theorem Ctx.inRound_notDue {c : Ctx} (hdue : c.roundDue = false) : c.inRound = { c with one := !c.one } ∧ c.inRound.oldDirty = c.dirty := by
  rw [Ctx.inRound, if_neg (by rw [hdue]; exact Bool.false_ne_true), Ctx.swap, Ctx.oldDirty, Ctx.dirty]
  refine ⟨rfl, ?_⟩
  cases hone : c.one <;> rfl

/-- The old bitmap cleared, written out. -/
theorem Ctx.roundOver_eq (c : Ctx) :
    c.roundOver = if c.one then { c with dirty0 := [], roundDue := false } else { c with dirty1 := [], roundDue := false } := by
  cases h : c.one <;> simp only [Ctx.roundOver, Ctx.clearOld, h] <;> rfl

end

/-! ## The stop -/

section
variable {s : State} {cid : Nat} {c : Ctx}

theorem migrationStop_of (hc : s.run.ctxs.get? cid = some c) (hm : c.mig = .rounds ∨ c.mig = .stopping) :
    migrationStop s.sys s.run cid =
      let r := s.run.onCtx cid (fun c => { c with mig := .stopping })
      if r.collBusy cid then r else
      let r := if c.done && 2 ≤ c.step then r else preemptStep s.sys r cid 2
      if (r.ctx cid).done && 2 ≤ (r.ctx cid).step && (r.ctx cid).frozen.isNone then blackout s.sys r cid else r := by
  rw [migrationStop, Run.ctx_of_get? hc]
  rcases hm with hm | hm
  · rw [hm]
  · rw [hm]

theorem collBusy_stopping (hc : s.run.ctxs.get? cid = some c) :
    (s.run.onCtx cid (fun c => { c with mig := .stopping })).collBusy cid = s.run.collBusy cid := by
  rw [Run.collBusy, Run.collBusy, Run.ctx_of_get? (get?_onCtx_self hc _), Run.ctx_of_get? hc]
  rfl

theorem migrationStop_waits (hc : s.run.ctxs.get? cid = some c) (hm : c.mig = .rounds ∨ c.mig = .stopping) (hb : s.run.collBusy cid = true) :
    migrationStop s.sys s.run cid = s.run.onCtx cid (fun c => { c with mig := .stopping }) := by
  rw [migrationStop_of hc hm]
  dsimp only
  rw [if_pos ((collBusy_stopping hc).trans hb)]

theorem migrationStop_stops (hc : s.run.ctxs.get? cid = some c) (hm : c.mig = .rounds ∨ c.mig = .stopping) (hb : s.run.collBusy cid = false)
    (hdone : c.done = true) (hstep : 2 ≤ c.step) (hf : c.frozen = none) :
    migrationStop s.sys s.run cid = blackout s.sys (s.run.onCtx cid (fun c => { c with mig := .stopping })) cid := by
  have hctx := Run.ctx_of_get? (get?_onCtx_self hc (fun c => { c with mig := .stopping }))
  have hdone' : (c.done && decide (2 ≤ c.step)) = true := by rw [hdone, decide_eq_true hstep]; rfl
  rw [migrationStop_of hc hm]
  dsimp only
  rw [if_neg (by rw [collBusy_stopping hc, hb]; exact Bool.false_ne_true), if_pos hdone', hctx, if_pos]
  have hnow : ∀ m, (({ c with mig := m } : Ctx).done && decide (2 ≤ ({ c with mig := m } : Ctx).step) && ({ c with mig := m } : Ctx).frozen.isNone) =
      (c.done && decide (2 ≤ c.step) && c.frozen.isNone) := fun _ => rfl
  rw [hnow, hdone', hf]
  rfl

end

/-! ## O57 -/

/-- Settles O57: a round's bitmaps and pages follow from the pages the old bitmap names; the stop and the blackout's end from what the messages to the
other end leave; the destination from what each item writes; a page that comes late from its eight pieces and the word of its leaf. -/
theorem migration : Obligations.Migration := by
  unfold Obligations.Migration
  intro s cid c hc others swapped cleared sent round mapped
  have hround : ∀ (c0 c1 : Ctx) gs, c1 = c0 →
      (s.run.farBusy c.part = false → RoundEnds s { s with run := migrationRound s.sys s.run cid } cid c c1.roundOver gs) →
      (s.run.farBusy c.part = true → RoundWaits s { s with run := migrationRound s.sys s.run cid } cid { c1 with roundDue := true }) → round c0 gs := by
    rintro c0 _ gs rfl hends hwaits
    refine ⟨fun hb => ⟨_, rfl, ?_⟩, fun hb => ⟨_, rfl, ?_⟩⟩
    · obtain ⟨hothers, hmem, hblocks, hself, xs, hxs, hsent⟩ := hends hb
      exact ⟨hothers, hmem, hblocks, hself.trans (congrArg some (Ctx.roundOver_eq _)), xs, hxs, fun g f hg => hsent g hg f⟩
    · obtain ⟨hothers, hrest, hself⟩ := hwaits hb
      exact ⟨hothers, hrest, hself⟩
  refine ⟨fun hm hdue => ?_, fun hm => ⟨fun hdue => ?_, fun hdue => ?_⟩, fun hm => ⟨fun hb => ?_, fun hb hdone hstep hf => ⟨_, rfl, ?_⟩⟩,
    fun hm => ⟨_, rfl, leaveBlackout_leaves hc hm⟩, fun hm => ?_, fun hm z zs => ?_,
    fun hm => ⟨fun qp mtu seq bs => ⟨_, rfl, enterMoved_queuePair hc hm qp mtu seq bs⟩,
      fun n x k bs hq => ⟨_, rfl, enterMoved_copyCmd hc hm hq k bs⟩, fun g a size bs hd => ⟨_, rfl, enterMoved_missing hc hm bs hd⟩⟩,
    fun g page a size hg hlen hd => ?_, fun g page hg => ?_, fun site h => ?_, fun site h => ?_⟩
  · obtain ⟨hctx, hdirty⟩ := Ctx.inRound_firstRound s.run.mem hdue
    refine hround _ _ _ hctx (fun hb => ?_) (fun hb => firstRound_waits hc hm hb)
    have h := firstRound_ends hc hm hb
    rw [hdirty] at h
    exact h
  · obtain ⟨hctx, hdirty⟩ := Ctx.inRound_notDue hdue
    rw [migrationRound_next hc hm] at hround
    refine hround _ _ _ hctx (fun hb => ?_) (fun hb => roundStep_waits' hc hb)
    have h := roundStep_ends hc hb
    rw [hdirty] at h
    exact h
  · obtain ⟨hctx, hdirty⟩ := Ctx.inRound_due hdue
    rw [migrationRound_next hc hm] at hround
    refine hround _ _ _ hctx (fun hb => ?_) (fun hb => roundStep_waits' hc hb)
    have h := roundStep_ends hc hb
    rw [hdirty] at h
    exact h
  · exact congrArg (fun r => Host.Outcome.next { s with run := r }) (migrationStop_waits hc hm hb)
  · have hstopping := blackout_transfers (y := s.sys) (get?_onCtx_self hc (fun c => { c with mig := .stopping }))
    rw [← migrationStop_stops hc hm hb hdone hstep hf] at hstopping
    exact hstopping
  · exact congrArg (fun r => Host.Outcome.next { s with run := r }) (leaveBlackout_other hc hm)
  · exact congrArg (fun r => Host.Outcome.next { s with run := r }) (enterMoved_other hc hm (z :: zs))
  · intro pa left ho
    obtain ⟨hkeeps, harrived⟩ := postcopyPull_cases (y := s.sys) hc hg hlen hd
    have hctxs := (hkeeps Run.ctxs (fun _ _ _ => rfl)).trans (pulledPage_keeps Run.ctxs (fun _ _ _ => rfl))
    have hmem := hkeeps Run.mem (fun _ _ _ => rfl)
    obtain ⟨hself, hothers⟩ := pagePut_ctxs (y := s.sys) (page := page) (g := g) (a := a) (size := size) hc
    rw [← hctxs] at hself hothers
    refine ⟨_, rfl, ⟨rfl, hothers⟩, hself, harrived, fun hlast => ?_, fun x hx => ?_⟩
    · exact hmem.symm ▸ pulledPage_mapped hc hlast
    · exact (congrArg (fun m => memGet m x) hmem).trans ((memGet_pulledPage hx).trans (memGet_pagePut hc rfl ho hlen x))
  · exact congrArg (fun r => Host.Outcome.next { s with run := r }) (postcopyPull_other hc hg)
  · have hsame : pullTimeout s.sys s.run site = s.run := by rw [pullTimeout, h]
    exact congrArg (fun r => Host.Outcome.next { s with run := r }) hsame
  · have hpull := Run.lostAt_pull h
    rw [Run.ctx_of_get? hc] at hpull
    exact ⟨hpull, fun hf => ⟨_, rfl, pullTimeout_freezes hc hf h⟩⟩

end Sys2Proof.Machine
end

section
/-! O56: what the restore of a context leaves of the memory and of the other contexts, and the switch of contexts (R498, R527, R528). -/

namespace Sys2Proof.Machine

/-! ## What a block that comes back leaves -/

/-- The memory and the contexts of a run. -/
def Run.stock (r : Run) : SMap Byte × Tbl Ctx := (r.mem, r.ctxs)

section
variable (y : Sys) (r : Run)

theorem stock_trapParked (c : Iss) (t : Trap) : (trapParked y r c t).stock = r.stock := by
  refine Prod.ext ?_ (congrArg (fun z : Tbl Ctx × List Nat × List Nat => z.1) (roll_trapParked y r c t))
  rw [trapParked]
  split
  · rfl
  · exact trapAt_mem y _ c t

theorem stock_poolGrantHead (b : Nat) (q : PoolReq) (rest : List PoolReq) : (poolGrantHead r b q rest).stock = r.stock := by
  rw [poolGrantHead]
  split <;> rfl

theorem stock_poolDecline (q : PoolReq) (t : Trap) : (poolDecline y r q t).stock = r.stock := by
  rw [poolDecline]
  split
  · exact stock_trapParked ..
  · rfl

theorem stock_accGive (core c : Nat) (h : AccHolder) : (accGive r core c h).stock = r.stock := by
  rw [accGive]
  split <;> rfl

theorem stock_accSettle (core c : Nat) : (accSettle r core c).stock = r.stock := by
  rw [accSettle]
  split
  · split
    · exact stock_accGive _ core c _
    · exact stock_accGive _ core c _
  · rfl


theorem stock_rewatch (wid : Nat) : (rewatch r wid).stock = r.stock := by
  rw [rewatch]
  split
  · dsimp only
    split
    · split <;> rfl
    · split <;> rfl
  · rfl

theorem stock_reviveTickets (wid : Nat) : (reviveTickets r wid).stock = r.stock := by
  refine Run.foldl_keeps Run.stock (fun r one => ?_) _ r
  dsimp only
  split
  · rfl
  · split <;> rfl

theorem stock_requeuePool (b : Nat) : (requeuePool r b).stock = r.stock := by
  refine (Run.foldl_keeps Run.stock (fun r q => ?_) _ _).trans rfl
  split <;> rfl

end

theorem stock_poolSettle (y : Sys) (b n : Nat) (r : Run) : (poolSettle y b n r).stock = r.stock := by
  induction n generalizing r with
  | zero => rfl
  | succ n ih =>
    rw [poolSettle]
    split
    · rfl
    · next q rest _ =>
      have hdeclined (t : Trap) : (poolSettle y b n (poolDecline y (r.onBlock b (fun x => { x with poolQueue := rest })) q t)).stock = r.stock :=
        (ih _).trans (stock_poolDecline y _ q t)
      split
      · exact hdeclined _
      · split
        · exact (ih _).trans (stock_poolGrantHead r b q rest)
        · split
          · rfl
          · split
            · split
              · rfl
              · exact ih _
            · exact hdeclined _

theorem stock_poolRun (y : Sys) (r : Run) (b : Nat) : (poolRun y r b).stock = r.stock := stock_poolSettle y b _ r

theorem stock_setBalance (r : Run) (core : Nat) : (setBalance r core).stock = r.stock := rfl

theorem stock_setWave (r : Run) (wid : Nat) (w : Wave) : (r.setWave wid w).stock = r.stock := rfl

theorem stock_onCore (r : Run) (core : Nat) (f : Core → Core) : (r.onCore core f).stock = r.stock := rfl

theorem stock_onBlock (r : Run) (b : Nat) (f : Block → Block) : (r.onBlock b f).stock = r.stock := rfl

theorem stock_restoreBlock (y : Sys) (r : Run) (b : Nat) (slots : List Nat) (s : SavedBlock) : (restoreBlock y r b slots s).stock = r.stock := by
  have hwaves (ws : List ((Nat × Wave) × Nat)) (r : Run) : (ws.foldl (fun r e =>
      let wid := b / 4 * 24 + e.2
      let free := (List.range 32).filter (fun f => !(r.fragsUsed (b / 4)).contains f)
      rewatch (reviveTickets (r.setWave wid ((e.1.2.restored y r).refrag free)) wid) wid) r).stock = r.stock :=
    Run.foldl_keeps Run.stock (fun r e => (stock_rewatch _ _).trans ((stock_reviveTickets _ _).trans (stock_setWave r _ _))) ws r
  rw [restoreBlock, stock_setBalance, stock_poolRun]
  refine (Run.foldl_keeps Run.stock (fun r c => stock_accSettle r (b / 4) c) _ _).trans ?_
  rw [stock_onCore]
  refine (Run.foldl_keeps Run.stock (fun r e => ?_) _ _).trans ?_
  · split <;> rfl
  rw [stock_requeuePool, stock_onBlock]
  split
  · rw [stock_setWave, hwaves]
    rfl
  · rw [hwaves]
    rfl

/-! ## A neighbourhood that comes back -/

/-- What a saved neighbourhood is named by. -/
def SavedNbh.names (n : SavedNbh) : Nat × Nat × List Nat := (n.launch, n.nbh, n.blocks.map (fun b => b.oldBlk))

theorem SavedNbh.names_rename (fw fb : Nat → Nat) (n : SavedNbh) : (n.rename fw fb).names = n.names := by
  simp only [SavedNbh.names, SavedNbh.rename, List.map_map]
  rfl

/-- Nothing but what contexts have saved changes, and of one context nothing is saved that was not before. -/
structure Run.Restores (cid : Nat) (r r' : Run) : Prop where
  mem : r'.mem = r.mem
  ctxs : r.SameButSaved r'
  saved : ∀ n ∈ (r'.ctx cid).saved, ∃ z ∈ (r.ctx cid).saved, n.names = z.names

section
variable {cid : Nat}

theorem Run.Restores.of_stock {r r' : Run} (h : r'.stock = r.stock) : r.Restores cid r' := by
  have hctxs : r'.ctxs = r.ctxs := congrArg Prod.snd h
  refine ⟨congrArg Prod.fst h, ⟨fun k c hc => ⟨c.saved, (congrArg (fun z : Tbl Ctx => z.get? k) hctxs).trans hc⟩⟩, fun n hn => ⟨n, ?_, rfl⟩⟩
  have hctx : r'.ctx cid = r.ctx cid := congrArg (fun z : Tbl Ctx => (z.get? cid).getD {}) hctxs
  rw [← hctx]
  exact hn

theorem Run.Restores.trans {a b c : Run} (h : a.Restores cid b) (h' : b.Restores cid c) : a.Restores cid c := by
  refine ⟨h'.mem.trans h.mem, h.ctxs.trans h'.ctxs, fun n hn => ?_⟩
  obtain ⟨z, hz, hnz⟩ := h'.saved n hn
  obtain ⟨w, hw, hzw⟩ := h.saved z hz
  exact ⟨w, hw, hnz.trans hzw⟩

/-- Contexts that change in what they have saved alone. -/
theorem Run.sameButSaved_upd (r : Run) (k : Nat) (f : List SavedNbh → List SavedNbh) : r.SameButSaved (r.onCtx k (fun c => { c with saved := f c.saved })) := by
  refine ⟨fun j c hc => ?_⟩
  by_cases hj : j = k
  · subst hj
    exact ⟨_, get?_onCtx_self hc _⟩
  · exact ⟨c.saved, (get?_onCtx_of_ne r hj _).trans hc⟩

theorem restores_erase (r : Run) (n : SavedNbh) : r.Restores cid (r.onCtx cid (fun c => { c with saved := c.saved.erase n })) := by
  refine ⟨rfl, r.sameButSaved_upd cid (fun ns => ns.erase n), fun z hz => ⟨z, ?_, rfl⟩⟩
  cases hc : r.ctxs.get? cid with
  | none =>
    have hnone : ((r.onCtx cid (fun c => { c with saved := c.saved.erase n })).ctx cid) = r.ctx cid := by
      simp only [Run.ctx, Run.onCtx, Tbl.get?_upd, if_true, hc, Option.map_none]
    exact hnone ▸ hz
  | some c =>
    rw [Run.ctx_of_get? (get?_onCtx_self hc _)] at hz
    rw [Run.ctx_of_get? hc]
    exact List.mem_of_mem_erase hz

theorem restores_rename (r : Run) (fw fb : Nat → Nat) : r.Restores cid (r.rename fw fb) := by
  have hget (k : Nat) : (r.rename fw fb).ctxs.get? k = (r.ctxs.get? k).map (fun c => { c with saved := c.saved.map (fun n => n.rename fw fb) }) :=
    get?_mapAll r.ctxs (fun _ c => { c with saved := c.saved.map (fun n => n.rename fw fb) }) k
  refine ⟨rfl, ⟨fun k c hc => ⟨_, by rw [hget, hc]; rfl⟩⟩, fun n hn => ?_⟩
  cases hc : r.ctxs.get? cid with
  | none =>
    have hnone : (r.rename fw fb).ctx cid = r.ctx cid := by rw [Run.ctx, hget, Run.ctx, hc]; rfl
    exact ⟨n, hnone ▸ hn, rfl⟩
  | some c =>
    have hsome : (r.rename fw fb).ctx cid = { c with saved := c.saved.map (fun n => n.rename fw fb) } := by rw [Run.ctx, hget, hc]; rfl
    rw [hsome] at hn
    obtain ⟨z, hz, rfl⟩ := List.mem_map.mp hn
    exact ⟨z, by rw [Run.ctx_of_get? hc]; exact hz, SavedNbh.names_rename fw fb z⟩

theorem restores_restoreNbh (y : Sys) (r : Run) (key : Nat × Nat) : r.Restores cid (restoreNbh y cid r key) := by
  rw [restoreNbh]
  split
  · exact .of_stock rfl
  · split
    · exact .of_stock rfl
    · next n _ _ cs _ =>
      extract_lets fb fw r'
      refine (restores_erase r n).trans ((restores_rename _ fw fb).trans (.of_stock ?_))
      exact Run.foldl_keeps Run.stock (fun r b => stock_restoreBlock y r _ _ _) n.blocks _

theorem restores_foldl (y : Sys) (ks : List (Nat × Nat)) (r : Run) : r.Restores cid (ks.foldl (restoreNbh y cid) r) := by
  induction ks generalizing r with
  | nil => exact .of_stock rfl
  | cons k ks ih => exact (restores_restoreNbh y r k).trans (ih _)

end

/-! ## The restore of a context (R498) -/

/-- A context whose pre-emption is over. -/
def Ctx.unasked (c : Ctx) : Ctx := { c.setStep 0 false with preempt := setBits (c.setStep 0 false).preempt 0 3 0 }

/-- A run whose context comes back, with what was saved of cores, before its neighbourhoods do. -/
def restoreBegun (r : Run) (cid : Nat) : Run :=
  (r.ctx cid).savedCores.foldl restoreCore ((r.onCtx cid Ctx.unasked).onCtx cid (fun c => { c with savedCores := [] }))

theorem bits_preempt_unasked (c : Ctx) : c.unasked.step = 0 ∧ c.unasked.done = false ∧ bits c.unasked.preempt 0 3 = 0 := by
  refine ⟨?_, ?_, bits_setBits_same _ 0 3 0 (by decide) (by decide)⟩
  · exact (bits_setBits_of_apart _ 0 3 0 4 3 (Or.inr (by decide))).trans ((bits_setBits_of_apart _ 8 1 _ 4 3 (Or.inl (by decide))).trans
      (bits_setBits_same c.preempt 4 3 0 (by decide) (by decide)))
  · exact (getLsbD_setBits_of_out _ 0 3 0 8 (Or.inr (by decide))).trans (getLsbD_setBits_of_in _ 8 1 0 8 (by decide) (by decide) (by decide))

section
variable {y : Sys} {r : Run} {cid : Nat} {c : Ctx} (hc : r.ctxs.get? cid = some c)
include hc

theorem contextRestore_refused (h : c.frozen ≠ none ∨ c.running = false ∨ y.valid = false ∨ (c.step ≠ 0 ∧ c.done = false)) :
    contextRestore y r cid = r := by
  rw [contextRestore, Run.ctx_of_get? hc]
  refine if_pos ?_
  rcases h with h | h | h | ⟨hstep, hdone⟩
  · exact Or.inl (Option.isSome_iff_ne_none.mpr h)
  · exact Or.inr (Or.inr (Or.inl (by rw [h]; rfl)))
  · exact Or.inr (Or.inr (Or.inr (by rw [h]; rfl)))
  · exact Or.inr (Or.inl ⟨hstep, by rw [hdone]; rfl⟩)

theorem contextRestore_restores (hf : c.frozen = none) (hrun : c.running = true) (hv : y.valid = true) (h : c.step = 0 ∨ c.done = true) :
    contextRestore y r cid = (c.saved.map (fun n => (n.launch, n.nbh))).foldl (restoreNbh y cid) (restoreBegun r cid) := by
  have hopen : ¬(c.frozen.isSome ∨ (c.step ≠ 0 ∧ !c.done) ∨ !c.running ∨ !y.valid) := by
    rw [hf, hrun, hv]
    rcases h with h | h
    · rw [h]
      simp
    · rw [h]
      simp
  rw [contextRestore, restoreBegun, Run.ctx_of_get? hc]
  exact if_neg hopen

theorem restoreBegun_ctxs : (restoreBegun r cid).ctxs.get? cid = some { c.unasked with savedCores := [] } ∧
    ∀ k, k ≠ cid → (restoreBegun r cid).ctxs.get? k = r.ctxs.get? k := by
  have hkept := Run.foldl_keeps Run.ctxs (f := restoreCore) (fun _ _ => rfl) (r.ctx cid).savedCores
    ((r.onCtx cid Ctx.unasked).onCtx cid (fun c => { c with savedCores := [] }))
  refine ⟨(congrArg (fun z : Tbl Ctx => z.get? cid) hkept).trans (get?_onCtx_self (get?_onCtx_self hc Ctx.unasked) _), fun k hk => ?_⟩
  exact (congrArg (fun z : Tbl Ctx => z.get? k) hkept).trans ((get?_onCtx_of_ne _ hk _).trans (get?_onCtx_of_ne r hk _))

omit hc in
theorem restoreBegun_mem : (restoreBegun r cid).mem = r.mem :=
  (Run.foldl_keeps Run.mem (f := restoreCore) (fun _ _ => rfl) _ _).trans rfl

/-- What a restored context keeps saved was saved before, and its pre-emption is over. -/
theorem contextRestore_leaves (hf : c.frozen = none) (hrun : c.running = true) (hv : y.valid = true) (h : c.step = 0 ∨ c.done = true) :
    (contextRestore y r cid).mem = r.mem ∧ ((contextRestore y r cid).ctx cid).step = 0 ∧ ((contextRestore y r cid).ctx cid).done = false ∧
    bits ((contextRestore y r cid).ctx cid).preempt 0 3 = 0 ∧
    (∀ n ∈ ((contextRestore y r cid).ctx cid).saved, ∃ z ∈ c.saved, n.names = z.names) ∧
    (∀ k x, k ≠ cid → r.ctxs.get? k = some x → ∃ z, (contextRestore y r cid).ctxs.get? k = some z ∧ { z with saved := x.saved } = x) ∧
    ((contextRestore y r cid).ctx cid).savedCores = [] := by
  rw [contextRestore_restores hc hf hrun hv h]
  obtain ⟨hself, hothers⟩ := restoreBegun_ctxs hc
  obtain ⟨hmem, ⟨hctxs⟩, hsaved⟩ := restores_foldl (cid := cid) y (c.saved.map (fun n => (n.launch, n.nbh))) (restoreBegun r cid)
  obtain ⟨hstep, hdone, hreq⟩ := bits_preempt_unasked c
  obtain ⟨ns, hns⟩ := hctxs cid _ hself
  rw [Run.ctx_of_get? hself] at hsaved
  have hctx := Run.ctx_of_get? hns
  refine ⟨hmem.trans restoreBegun_mem, ?_, ?_, ?_, hsaved, fun k x hk hx => ?_, ?_⟩
  · rw [hctx]
    exact hstep
  · rw [hctx]
    exact hdone
  · rw [hctx]
    exact hreq
  · obtain ⟨ms, hms⟩ := hctxs k x ((hothers k hk).trans hx)
    exact ⟨_, hms, rfl⟩
  · rw [hctx]

/-- With nothing saved the context alone changes. -/
theorem contextRestore_nothing (hf : c.frozen = none) (hrun : c.running = true) (hv : y.valid = true) (h : c.step = 0 ∨ c.done = true)
    (hsaved : c.saved = []) (hcores : c.savedCores = []) : { contextRestore y r cid with ctxs := r.ctxs } = r := by
  rw [contextRestore_restores hc hf hrun hv h, restoreBegun, Run.ctx_of_get? hc, hsaved, hcores]
  rfl

/-- A restore where no neighbourhood is saved. -/
theorem contextRestore_keeps_unsaved {α : Type} (g : Run → α) (hg : ∀ (r : Run) cs ks, g { r with ctxs := cs, cores := ks } = g r)
    (hsaved : c.saved = []) (y : Sys) : g (contextRestore y r cid) = g r := by
  rw [contextRestore, Run.ctx_of_get? hc, hsaved]
  dsimp only
  split
  · rfl
  · exact (Run.foldl_keeps g (f := restoreCore) (fun r _ => hg r r.ctxs _) _ _).trans ((hg _ _ r.cores).trans (hg r _ r.cores))

end

/-! ## The switch (R527, R528) -/

theorem quantumOf_eq (us : Nat) : quantumOf us = if us < 100 then 100 else if 1000000 < us then 1000000 else us := by
  rw [quantumOf]
  split
  · omega
  · split <;> omega

section
variable {y : Sys} {r : Run} {p : Nat}

theorem foldl_service_keeps {α : Type} (g : Run → α) (hg : ∀ (r : Run) bs n xs, g { r with bb := bs, bbNext := n, out := xs } = g r) (ss : List Nat) (r : Run) :
    g (ss.foldl (fun r s => r.service 3 s 3) r) = g r :=
  Run.foldl_keeps g (fun r _ => hg r _ _ _) ss r

theorem healthPoint_keeps {α : Type} (g : Run → α)
    (hg : ∀ (r : Run) os ss bs n xs ks ds, g { r with outSlices := os, sickSlices := ss, bb := bs, bbNext := n, out := xs, cores := ks, dies := ds } = g r)
    (y : Sys) (r : Run) (p : Nat) : g (healthPoint y r p) = g r := by
  rw [healthPoint]
  dsimp only
  split
  · rfl
  · exact (foldl_service_keeps g (fun r bs n xs => hg r r.outSlices r.sickSlices bs n xs r.cores r.dies) _ _).trans (hg r _ _ r.bb r.bbNext r.out _ _)

/-- The fields of a core that the scrub clears. -/
def Core.blank (k : Core) : Prop := k.tlb = [] ∧ k.ro = [] ∧ k.acc = [] ∧ k.deque = [] ∧ k.side = []

theorem core_mapAll (f : Nat → Core → Core) (r : Run) (n : Nat) (h : f n {} = {}) : ({ r with cores := r.cores.mapAll f } : Run).core n = f n (r.core n) := by
  simp only [Run.core, get?_mapAll]
  cases r.cores.get? n with
  | none => exact h.symm
  | some k => rfl

theorem blank_healthPoint {n : Nat} (h : (r.core n).blank) : ((healthPoint y r p).core n).blank := by
  rw [healthPoint]
  dsimp only
  split
  · exact h
  · rw [foldl_service_keeps (fun r => r.core n) (fun _ _ _ _ => rfl)]
    have hclear := core_mapAll (fun n k => if (y.diesOf p).contains (dieOf n) then { k with tlb := [], ro := [] } else k) r n (by split <;> rfl)
    refine hclear.symm ▸ ?_
    obtain ⟨htlb, hro, hacc, hdeque, hside⟩ := h
    split
    · exact ⟨rfl, rfl, hacc, hdeque, hside⟩
    · exact ⟨htlb, hro, hacc, hdeque, hside⟩

/-- Every core of the partition is blank after the scrub. -/
theorem blank_scrub (r : Run) {n : Nat} (hn : y.partOf (dieOf n) = p) : ((scrub y r p).core n).blank := by
  have hcore : (scrub y r p).core n = (r.core n).scrubbed := by
    have h := core_mapAll (fun n k => if y.partOf (dieOf n) = p then k.scrubbed else k) r n (by split <;> rfl)
    exact h.trans (if_pos hn)
  rw [hcore]
  exact ⟨rfl, rfl, rfl, rfl, rfl⟩

theorem part_onPart_self (r : Run) (p : Nat) (f : Partition → Partition) : (r.onPart p f).part p = f (r.part p) := by
  simp only [Run.onPart, Run.part, Tbl.get?_put, if_true, Option.getD_some]

/-- The partition is given to none. -/
theorem switchTo_none (y : Sys) (r : Run) (p : Nat) :
    switchTo y r p none = (healthPoint y r p).onPart p (fun q => { q with runCtx := none, qStart := r.clk }) := rfl

theorem switchTo_none_leaves (c : Nat) : ((switchTo y r p none).part p).runCtx = none ∧ (switchTo y r p none).ctx c = r.ctx c ∧
    ∀ n, (r.core n).blank → ((switchTo y r p none).core n).blank := by
  rw [switchTo_none]
  exact ⟨congrArg Partition.runCtx (part_onPart_self _ p _), healthPoint_keeps (fun r => r.ctx c) (fun _ _ _ _ _ _ _ _ => rfl) y r p,
    fun n h => blank_healthPoint h⟩

/-- A restore does not end a context's turn. -/
theorem contextRestore_running {cid : Nat} {c : Ctx} (hc : r.ctxs.get? cid = some c) (hsaved : c.saved = []) :
    ((contextRestore y r cid).ctx cid).running = c.running := by
  rw [contextRestore, Run.ctx_of_get? hc, hsaved]
  dsimp only
  split
  · rw [Run.ctx_of_get? hc]
  · have h := Run.ctx_of_get? (restoreBegun_ctxs hc).1
    rw [restoreBegun, Run.ctx_of_get? hc] at h
    exact (congrArg Ctx.running h).trans rfl

/-- A run that gives a partition to a context, before that is restored. -/
def switched (y : Sys) (r : Run) (p d : Nat) : Run :=
  ((healthPoint y r p).onPart p (fun q => { q with runCtx := some d, qStart := r.clk })).onCtx d (fun x => { x with running := true })

theorem switchTo_some (y : Sys) (r : Run) (p d : Nat) : switchTo y r p (some d) = contextRestore y (switched y r p d) d := rfl

theorem switched_keeps {α : Type} (g : Run → α)
    (hg : ∀ (r : Run) os ss bs n xs ks ds ps cs,
      g { r with outSlices := os, sickSlices := ss, bb := bs, bbNext := n, out := xs, cores := ks, dies := ds, parts := ps, ctxs := cs } = g r)
    (y : Sys) (r : Run) (p d : Nat) : g (switched y r p d) = g r :=
  (hg (healthPoint y r p) _ _ _ _ _ _ _ _ _).trans (healthPoint_keeps g (fun r os ss bs n xs ks ds => hg r os ss bs n xs ks ds r.parts r.ctxs) y r p)

/-- The partition is given to a context that has saved no neighbourhood. -/
theorem switchTo_unsaved {d : Nat} {x : Ctx} (hx : r.ctxs.get? d = some x) (hsaved : x.saved = []) :
    ((switchTo y r p (some d)).part p).runCtx = some d ∧ ((switchTo y r p (some d)).part p).qStart = r.clk ∧
    ((switchTo y r p (some d)).ctx d).running = true ∧ (switchTo y r p (some d)).mem = r.mem := by
  have hctxs : (healthPoint y r p).ctxs = r.ctxs := healthPoint_keeps Run.ctxs (fun _ _ _ _ _ _ _ _ => rfl) y r p
  have hget : (switched y r p d).ctxs.get? d = some { x with running := true } := get?_onCtx_self (r := (healthPoint y r p).onPart p _) (hctxs.symm ▸ hx) _
  have hpart : (contextRestore y (switched y r p d) d).part p = (switched y r p d).part p :=
    contextRestore_keeps_unsaved hget (fun r => r.part p) (fun _ _ _ => rfl) hsaved y
  have hserved : (switched y r p d).part p = { (healthPoint y r p).part p with runCtx := some d, qStart := r.clk } :=
    part_onPart_self (healthPoint y r p) p (fun q => { q with runCtx := some d, qStart := r.clk })
  rw [switchTo_some, hpart, hserved]
  exact ⟨rfl, rfl, contextRestore_running hget hsaved, (contextRestore_keeps_unsaved hget Run.mem (fun _ _ _ => rfl) hsaved y).trans
    (switched_keeps Run.mem (fun _ _ _ _ _ _ _ _ _ _ => rfl) y r p d)⟩

/-- The end of a quantum. -/
theorem quantumEnd_of_running {c : Nat} (hrun : (r.part p).runCtx = some c) : quantumEnd y r p =
    if (r.ctx c).done then switchTo y (scrub y (r.onCtx c (fun x => { x with running := false })) p) p (r.nextCtx p (some c))
    else if r.nextCtx p (some c) = some c ∨ r.nextCtx p (some c) = none then r.onPart p (fun q => { q with qStart := r.clk })
    else preemptStep y r c 2 := by
  rw [quantumEnd, hrun]

theorem quantumEnd_of_idle (hrun : (r.part p).runCtx = none) : quantumEnd y r p = switchTo y r p (r.nextCtx p none) := by
  rw [quantumEnd, hrun]

end

/-! ## O56 -/

/-- Settles O56: a block that comes back leaves memory and contexts, and a neighbourhood's new numbers touch no name of it; the clauses of a quantum are the
branches of its end, with what the scrub and the mapping out of slices leave of the cores. -/
theorem restoreAndSwitch : Obligations.RestoreAndSwitch := by
  unfold Obligations.RestoreAndSwitch
  refine ⟨fun s cid c hc => ⟨fun h => ?_, fun hf hrun hv h => ⟨_, rfl, rfl, ?_⟩⟩, fun s p us => ?_, fun s p => ?_⟩
  · exact congrArg (fun r => Host.Outcome.next { s with run := r }) (contextRestore_refused hc h)
  · obtain ⟨hmem, hstep, hdone, hreq, hsaved, hothers, hcores⟩ := contextRestore_leaves hc hf hrun hv h
    refine ⟨hmem, hstep, hdone, hreq, fun n hn => ?_, hothers, hcores, contextRestore_nothing hc hf hrun hv h⟩
    obtain ⟨z, hz, hnames⟩ := hsaved n hn
    obtain ⟨hlaunch, hnbh⟩ := Prod.mk.inj hnames
    obtain ⟨hnbh, hblocks⟩ := Prod.mk.inj hnbh
    exact ⟨z, hz, hlaunch, hnbh, hblocks⟩
  · rw [← quantumOf_eq]
    rfl
  · intro nxt
    refine ⟨fun c hrun hdone => ⟨fun d hd hne => ?_, fun hnone => ?_⟩, fun c x hrun hx hdone hnone => ⟨_, rfl, ?_⟩, fun d x hidle hd hx hsaved => ⟨_, rfl, ?_⟩⟩
    · have hnext : s.run.nextCtx p (some c) = some d := hrun ▸ hd
      have hask : quantumEnd s.sys s.run p = preemptStep s.sys s.run c 2 := by
        rw [quantumEnd_of_running hrun, hdone, hnext, if_neg Bool.false_ne_true, if_neg]
        exact fun h => h.elim (fun h => hne (Option.some.inj h)) (fun h => nomatch h)
      exact congrArg (fun r => Host.Outcome.next { s with run := r }) hask
    · have halone : quantumEnd s.sys s.run p = s.run.onPart p (fun q => { q with qStart := s.run.clk }) := by
        rw [quantumEnd_of_running hrun, hdone, if_neg Bool.false_ne_true]
        exact if_pos (hrun ▸ hnone)
      exact congrArg (fun r => Host.Outcome.next { s with run := r }) halone
    · have hnext : s.run.nextCtx p (some c) = none := hrun ▸ hnone
      have hend : quantumEnd s.sys s.run p = switchTo s.sys (scrub s.sys (s.run.onCtx c (fun x => { x with running := false })) p) p none := by
        rw [quantumEnd_of_running hrun, Run.ctx_of_get? hx, hdone, hnext, if_pos rfl]
      obtain ⟨hnobody, hctx, hblank⟩ := switchTo_none_leaves (y := s.sys) (p := p) (r := scrub s.sys (s.run.onCtx c (fun x => { x with running := false })) p) c
      have hoff : (scrub s.sys (s.run.onCtx c (fun x => { x with running := false })) p).ctx c = { x with running := false } :=
        Run.ctx_of_get? (get?_onCtx_self hx _)
      rw [← hend] at hnobody hctx hblank
      exact ⟨hnobody, congrArg Ctx.running (hctx.trans hoff), fun n hn => hblank n (blank_scrub _ hn)⟩
    · have hgive : quantumEnd s.sys s.run p = switchTo s.sys s.run p (some d) := by
        rw [quantumEnd_of_idle hidle]
        exact congrArg (switchTo s.sys s.run p) (hidle ▸ hd)
      have hgiven := switchTo_unsaved (y := s.sys) (p := p) hx hsaved
      rw [← hgive] at hgiven
      exact hgiven

end Sys2Proof.Machine
end

section
/-! What the messages of a partition and the writes of its collective engine leave of a run (R504, R509 to R518). -/

namespace Sys2Proof.Machine

/-! ## Ports that are chosen -/

theorem mem_of_choosePort {ps : List Nat} {h i : Nat} (hc : choosePort ps h = some i) : i ∈ ps := by
  unfold choosePort at hc
  split at hc
  · exact nomatch hc
  · rw [← Option.some.inj hc]
    exact List.mem_singleton_self _
  · exact List.mem_of_getElem? hc

theorem Flow.mem_of_portIn {x : Flow} {die f i : Nat} {ps : List Nat} (h : x.portIn die f ps = some i) : i ∈ ps := by
  unfold Flow.portIn at h
  split at h
  · next e he =>
    have hok := List.find?_some he
    rw [Bool.and_eq_true] at hok
    rw [← Option.some.inj h]
    exact List.contains_iff_mem.mp hok.2
  · exact mem_of_choosePort h

theorem up_of_mem_waysTo {r : Run} {p dev i : Nat} (h : i ∈ r.waysTo p dev) : (r.port i).up = true := (List.mem_filter.mp h).2

theorem up_of_mem_portsTo {r : Run} {p die dev i : Nat} (h : i ∈ r.portsTo p die dev) : (r.port i).up = true := by
  have hok := (List.mem_filter.mp h).2
  rw [Bool.and_eq_true] at hok
  exact hok.2

/-! ## Runs that differ in what they have sent -/

/-- A run after messages and the writes of an engine: monitors may note a write, ports that are up have sent, and nothing else of waves, ports and
the black box changes. -/
structure Run.Sends (r r' : Run) : Prop where
  waves : SameButMon r r'
  port : ∀ k, { r'.port k with link := (r.port k).link, sent := (r.port k).sent } = r.port k
  down : ∀ k, (r.port k).up = false → r'.port k = r.port k
  out : r.out ⊆ r'.out
  bb : r'.bb = r.bb

/-- The partitions of two runs differ in their flows alone. -/
structure Run.SameButFlows (r r' : Run) : Prop where
  part : ∀ k, { r'.part k with flows := (r.part k).flows } = r.part k

section
variable {r a b c : Run}

theorem Run.Sends.refl (r : Run) : r.Sends r := ⟨.refl r, fun _ => rfl, fun _ _ => rfl, List.Subset.refl _, rfl⟩

theorem Run.Sends.up (h : a.Sends b) (k : Nat) : (b.port k).up = (a.port k).up := by
  have e := congrArg Port.up (h.port k)
  exact e

theorem Run.Sends.trans (h : a.Sends b) (h' : b.Sends c) : a.Sends c := by
  refine ⟨h.waves.trans h'.waves, fun k => ?_, fun k hk => ?_, fun o ho => h'.out (h.out ho), h'.bb.trans h.bb⟩
  · have hb := congrArg (fun x : Port => { x with link := (a.port k).link, sent := (a.port k).sent }) (h'.port k)
    exact hb.trans (h.port k)
  · exact (h'.down k ((h.up k).trans hk)).trans (h.down k hk)

/-- What leaves ports, waves, output and black box alone. -/
theorem Run.Sends.of_same (hw : SameButMon a b) (hp : b.ports = a.ports) (ho : b.out = a.out) (hb : b.bb = a.bb) : a.Sends b := by
  have hport (k : Nat) : b.port k = a.port k := congrArg (fun z : Tbl Port => (z.get? k).getD {}) hp
  exact ⟨hw, fun k => by rw [hport], fun k _ => hport k, ho ▸ List.Subset.refl _, hb⟩

theorem Run.Sends.foldl {α : Type} {f : Run → α → Run} (h : ∀ (r : Run) x, r.Sends (f r x)) (xs : List α) (r : Run) : r.Sends (xs.foldl f r) := by
  induction xs generalizing r with
  | nil => exact .refl r
  | cons x xs ih => exact (h r x).trans (ih _)

theorem sends_send (r : Run) (o : Out) : r.Sends (r.send o) := ⟨.refl r, fun _ => rfl, fun _ _ => rfl, fun _ h => List.mem_append_left _ h, rfl⟩

theorem port_transmit (r : Run) (i : Nat) (h : FlitHead) (o : Out) :
    ∃ l z, ∀ k, (r.transmit i h o).port k = if k = i then { r.port i with link := l, sent := z } else r.port k := by
  obtain ⟨l, z, hports⟩ : ∃ l z, (r.transmit i h o).ports = r.ports.put i { r.port i with link := l, sent := z } := ⟨_, _, rfl⟩
  refine ⟨l, z, fun k => ?_⟩
  rw [Run.port, hports, Tbl.get?_put]
  split <;> rfl

theorem sends_transmit (r : Run) {i : Nat} (hi : (r.port i).up = true) (h : FlitHead) (o : Out) : r.Sends (r.transmit i h o) := by
  obtain ⟨l, z, hport⟩ := port_transmit r i h o
  refine ⟨.refl r, fun k => ?_, fun k hk => ?_, fun x hx => ?_, rfl⟩
  · rw [hport]
    split
    · next he => rw [he]
    · rfl
  · have hne : k ≠ i := fun he => Bool.false_ne_true (hk.symm.trans (he ▸ hi))
    rw [hport, if_neg hne]
  · exact List.mem_append_left _ (List.mem_append_left _ hx)

theorem mem_out_transmit (r : Run) (i : Nat) (h : FlitHead) (o : Out) : o ∈ (r.transmit i h o).out :=
  List.mem_append_left _ (List.mem_append_right _ List.mem_cons_self)

theorem Run.SameButFlows.refl (r : Run) : r.SameButFlows r := ⟨fun _ => rfl⟩

theorem Run.SameButFlows.trans (h : a.SameButFlows b) (h' : b.SameButFlows c) : a.SameButFlows c :=
  ⟨fun k => (congrArg (fun x : Partition => { x with flows := (a.part k).flows }) (h'.part k)).trans (h.part k)⟩

theorem Run.SameButFlows.of_parts (h : b.parts = a.parts) : a.SameButFlows b :=
  ⟨fun k => by rw [show b.part k = a.part k from congrArg (fun z : Tbl Partition => (z.get? k).getD {}) h]⟩

theorem Run.SameButFlows.foldl {α : Type} {f : Run → α → Run} (h : ∀ (r : Run) x, r.SameButFlows (f r x)) (xs : List α) (r : Run) : r.SameButFlows (xs.foldl f r) := by
  induction xs generalizing r with
  | nil => exact .refl r
  | cons x xs ih => exact (h r x).trans (ih _)

theorem sameButFlows_onPart (r : Run) (p : Nat) {f : Partition → Partition} (hf : ∀ q, { f q with flows := q.flows } = q) : r.SameButFlows (r.onPart p f) := by
  refine ⟨fun k => ?_⟩
  rw [Run.part_onPart]
  split
  · next h => rw [h]; exact hf _
  · rfl

/-- What of a partition does not speak of its flows. -/
theorem Run.SameButFlows.get {α : Type} (h : a.SameButFlows b) (g : Partition → α) (hg : ∀ (q : Partition) fs, g { q with flows := fs } = g q) (k : Nat) :
    g (b.part k) = g (a.part k) := (hg (b.part k) _).symm.trans (congrArg g (h.part k))

/-- Members stay within reach. -/
theorem waysTo_of_sends (h : a.Sends b) (hp : a.SameButFlows b) (p dev : Nat) : b.waysTo p dev = a.waysTo p dev := by
  have hroutes : (b.part p).routes = (a.part p).routes := hp.get Partition.routes (fun _ _ => rfl) p
  simp only [Run.waysTo, hroutes, h.up]

theorem portsTo_of_sends (h : a.Sends b) (hp : a.SameButFlows b) (p die dev : Nat) : b.portsTo p die dev = a.portsTo p die dev := by
  have hroutes : (b.part p).routes = (a.part p).routes := hp.get Partition.routes (fun _ _ => rfl) p
  simp only [Run.portsTo, hroutes, h.up]

theorem reachable_of_sends (h : a.Sends b) (hp : a.SameButFlows b) (p dev : Nat) : b.reachable p dev = a.reachable p dev := by
  rw [Run.reachable, Run.reachable, waysTo_of_sends h hp]

end

/-! ## Messages of control flows (R504) -/

section
variable (r : Run) (p : Nat)

theorem sendFlow_keeps {α : Type} (g : Run → α) (hg : ∀ (r : Run) ps xs qs, g { r with ports := ps, out := xs, parts := qs } = g r)
    (die f : Nat) (o : Bool) (ports : List Nat) (q : RemoteReq) : g (sendFlow r p die f o ports q) = g r := by
  rw [sendFlow]
  dsimp only
  split
  · exact hg r _ _ _
  · exact hg r r.ports r.out _

theorem sends_onPart (f : Partition → Partition) : r.Sends (r.onPart p f) := .of_same (.refl r) rfl rfl rfl

theorem sameButFlows_transmit (i : Nat) (h : FlitHead) (o : Out) : r.SameButFlows (r.transmit i h o) := .of_parts rfl

theorem sends_sendFlow (die f : Nat) (o : Bool) {ports : List Nat} (h : ∀ i ∈ ports, (r.port i).up = true) (q : RemoteReq) :
    r.Sends (sendFlow r p die f o ports q) := by
  rw [sendFlow]
  dsimp only
  split
  · next i hi =>
    refine (sends_onPart r p _).trans (sends_transmit _ ?_ _ _)
    exact h i (Flow.mem_of_portIn hi)
  · exact sends_onPart r p _

theorem sameButFlows_sendFlow (die f : Nat) (o : Bool) (ports : List Nat) (q : RemoteReq) : r.SameButFlows (sendFlow r p die f o ports q) := by
  rw [sendFlow]
  dsimp only
  split
  · refine .trans ?_ (sameButFlows_transmit _ _ _ _)
    exact sameButFlows_onPart r p (fun _ => rfl)
  · exact sameButFlows_onPart r p (fun _ => rfl)

theorem toMembers_keeps {α : Type} (g : Run → α) (hg : ∀ (r : Run) ps xs qs, g { r with ports := ps, out := xs, parts := qs } = g r)
    (group : Nat) (q : RemoteReq) : g (toMembers r p group q) = g r :=
  Run.foldl_keeps g (fun r _ => sendFlow_keeps r p g hg _ _ _ _ _) _ r

theorem sends_toMembers (group : Nat) (q : RemoteReq) : r.Sends (toMembers r p group q) :=
  .foldl (fun r _ => sends_sendFlow r p _ _ _ (fun _ hi => up_of_mem_waysTo hi) q) _ r

theorem sameButFlows_toMembers (group : Nat) (q : RemoteReq) : r.SameButFlows (toMembers r p group q) :=
  .foldl (fun r _ => sameButFlows_sendFlow r p _ _ _ _ q) _ r

end

/-! ## The engine's requests and writes (R509, R517) -/

/-- An address in no page that is held. -/
def Unheld (pg : List (Nat × Nat × Nat)) (a : Nat) : Prop := ∀ e ∈ pg, a / 8192 ≠ e.2.1 / 8192

/-- Two runs hold the same bytes outside some held pages. -/
def Run.SameOutside (pg : List (Nat × Nat × Nat)) (r r' : Run) : Prop := ∀ a, Unheld pg a → memGet r'.mem a = memGet r.mem a

section
variable {pg : List (Nat × Nat × Nat)}

theorem Run.SameOutside.of_mem {r r' : Run} (h : r'.mem = r.mem) : r.SameOutside pg r' := fun a _ => congrArg (fun m => memGet m a) h

theorem Run.SameOutside.trans {a b c : Run} (h : a.SameOutside pg b) (h' : b.SameOutside pg c) : a.SameOutside pg c := fun x hx => (h' x hx).trans (h x hx)

/-- A held piece is where its page is. -/
theorem heldAt_page {a pa gpa : Nat} (h : heldAt pg a = some (pa, gpa)) : ∃ e ∈ pg, pa / 8192 = e.2.1 / 8192 := by
  obtain ⟨e, he, heq⟩ := Option.map_eq_some_iff.mp h
  refine ⟨e, List.mem_of_find?_eq_some he, ?_⟩
  have hpa := (Prod.mk.inj heq).1
  omega

theorem sameOutside_storeHeld (r : Run) {a pa gpa : Nat} (h : heldAt pg a = some (pa, gpa)) (b : Byte) : r.SameOutside pg (storeBytes r pa [b]) := by
  intro x hx
  obtain ⟨e, he, hpage⟩ := heldAt_page h
  rw [memGet_storeBytes]
  refine if_neg (fun hin => hx e he ?_)
  have hlen : ([b] : List Byte).length = 1 := rfl
  rw [hlen] at hin
  rw [← hpage, show x = pa by omega]

theorem engineOut_keeps {α : Type} (g : Run → α) (hg : ∀ (r : Run) ps xs, g { r with ports := ps, out := xs } = g r) (r : Run) (p : Nat) (e : Word64)
    (line : Nat) (o : Out) : g (r.engineOut p e line o) = g r := by
  rw [Run.engineOut]
  split
  · exact hg r r.ports _
  · split
    · exact hg r _ _
    · rfl

theorem sends_engineOut (r : Run) (p : Nat) (e : Word64) (line : Nat) (o : Out) : r.Sends (r.engineOut p e line o) := by
  rw [Run.engineOut]
  split
  · exact sends_send r o
  · split
    · next i hi => exact sends_transmit r (up_of_mem_waysTo (mem_of_choosePort hi)) _ o
    · exact .refl r

theorem readFar_keeps {α : Type} (g : Run → α) (hg : ∀ (r : Run) ps xs, g { r with ports := ps, out := xs } = g r) (r : Run) (p lo n : Nat) :
    g (readFar r p pg lo n) = g r := by
  refine Run.foldl_keeps g (fun r a => ?_) _ r
  split
  · rfl
  · exact engineOut_keeps g hg r p _ _ _

theorem sends_readFar (r : Run) (p lo n : Nat) : r.Sends (readFar r p pg lo n) := by
  refine .foldl (fun r a => ?_) _ r
  dsimp only
  split
  · exact .refl r
  · exact sends_engineOut r p _ _ _

theorem markGuest_keeps {α : Type} (g : Run → α) (hg : ∀ (r : Run) cs, g { r with ctxs := cs } = g r) (r : Run) (cid gpa : Nat) :
    g (markGuest r cid gpa) = g r := by
  rw [markGuest]
  split
  · exact hg r _
  · rfl

theorem sends_markGuest (r : Run) (cid gpa : Nat) : r.Sends (markGuest r cid gpa) :=
  .of_same (.of_waves (markGuest_waves r cid gpa)) (markGuest_keeps Run.ports (fun _ _ => rfl) r cid gpa) (markGuest_keeps Run.out (fun _ _ => rfl) r cid gpa)
    (markGuest_keeps Run.bb (fun _ _ => rfl) r cid gpa)

theorem sends_storeBytes (r : Run) (pa : Nat) (bs : List Byte) : r.Sends (storeBytes r pa bs) :=
  .of_same (sameButMon_storeBytes r pa bs) (storeBytes_read Run.ports (fun _ _ _ => rfl) r pa bs) (storeBytes_read Run.out (fun _ _ _ => rfl) r pa bs)
    (storeBytes_read Run.bb (fun _ _ _ => rfl) r pa bs)

/-- What the engine's writes through some held pages leave. -/
structure Run.Writes (pg : List (Nat × Nat × Nat)) (r r' : Run) : Prop where
  sends : r.Sends r'
  parts : r'.parts = r.parts
  mem : r.SameOutside pg r'

theorem Run.Writes.refl (r : Run) : r.Writes pg r := ⟨.refl r, rfl, .of_mem rfl⟩

theorem Run.Writes.trans {a b c : Run} (h : a.Writes pg b) (h' : b.Writes pg c) : a.Writes pg c :=
  ⟨h.sends.trans h'.sends, h'.parts.trans h.parts, h.mem.trans h'.mem⟩

theorem Run.Writes.foldl {α : Type} {f : Run → α → Run} (h : ∀ (r : Run) x, r.Writes pg (f r x)) (xs : List α) (r : Run) : r.Writes pg (xs.foldl f r) := by
  induction xs generalizing r with
  | nil => exact .refl r
  | cons x xs ih => exact (h r x).trans (ih _)

theorem writes_markGuest (r : Run) (cid gpa : Nat) : r.Writes pg (markGuest r cid gpa) :=
  ⟨sends_markGuest r cid gpa, markGuest_keeps Run.parts (fun _ _ => rfl) r cid gpa, .of_mem (markGuest_keeps Run.mem (fun _ _ => rfl) r cid gpa)⟩

theorem writes_engineOut (r : Run) (p : Nat) (e : Word64) (line : Nat) (o : Out) : r.Writes pg (r.engineOut p e line o) :=
  ⟨sends_engineOut r p e line o, engineOut_keeps Run.parts (fun _ _ _ => rfl) r p e line o, .of_mem (engineOut_keeps Run.mem (fun _ _ _ => rfl) r p e line o)⟩

theorem writes_storeHeld (r : Run) {a pa gpa : Nat} (h : heldAt pg a = some (pa, gpa)) (b : Byte) : r.Writes pg (storeBytes r pa [b]) :=
  ⟨sends_storeBytes r pa [b], storeBytes_read Run.parts (fun _ _ _ => rfl) r pa [b], sameOutside_storeHeld r h b⟩

/-- A write through held pages changes them alone. -/
theorem writes_writeHeld (r : Run) (cid : Nat) (a : Nat) (bs : List Byte) : r.Writes pg (writeHeld r cid pg a bs).2 := by
  induction bs generalizing r a with
  | nil => exact .refl r
  | cons b t ih =>
    rw [writeHeld]
    split
    · exact ih r (a + 1)
    · next pa gpa hpa =>
      dsimp only
      split
      · exact (writes_markGuest r cid gpa).trans ((writes_engineOut _ _ _ _ _).trans (ih _ (a + 1)))
      · exact (writes_markGuest r cid gpa).trans ((writes_storeHeld _ hpa b).trans (ih _ (a + 1)))

/-- What lies in no other device's memory is written at once. -/
theorem writeHeld_none (hpg : ∀ e ∈ pg, isAper e.2.1 = false) (r : Run) (cid a : Nat) (bs : List Byte) : (writeHeld r cid pg a bs).1 = [] := by
  induction bs generalizing r a with
  | nil => rfl
  | cons b t ih =>
    rw [writeHeld]
    split
    · exact ih r (a + 1)
    · next pa gpa hpa =>
      obtain ⟨e, he, hpage⟩ := heldAt_page hpa
      have hhere : isAper pa = false := by
        have hsame : pa / 2 ^ 50 = e.2.1 / 2 ^ 50 := by
          rw [show (2 : Nat) ^ 50 = 8192 * 2 ^ 37 by norm_num, ← Nat.div_div_eq_div_mul, hpage, Nat.div_div_eq_div_mul]
        rw [isAper, hsame]
        exact hpg e he
      dsimp only
      rw [hhere, if_neg Bool.false_ne_true]
      exact ih _ (a + 1)

theorem writes_spoilRecv (r : Run) (x : Coll) (n : Nat) : r.Writes x.recvPg (spoilRecv r x n) := by
  have hseed : r.Writes x.recvPg { r with fresh := r.fresh + n } := ⟨.of_same (.refl r) rfl rfl rfl, rfl, .of_mem rfl⟩
  refine hseed.trans (.foldl (fun r i => ?_) _ _)
  dsimp only
  split
  · exact writes_writeHeld ..
  · exact .refl r

end

/-! ## The end of a collective (R517) -/

section
variable {r : Run} {p slot : Nat} {y : Coll}

theorem collEnd_part (r : Run) (p slot : Nat) (st : Nat × Nat × Nat) : (collEnd r p slot st).part p =
    { r.part p with colls := (r.part p).colls.upd slot (fun x => { x with status := some (x.status.getD st) }) } :=
  (Run.part_onPart ..).trans (if_pos rfl)

theorem sends_collEnd (r : Run) (p slot : Nat) (st : Nat × Nat × Nat) : r.Sends (collEnd r p slot st) := sends_onPart r p _

theorem mem_collEnd (r : Run) (p slot : Nat) (st : Nat × Nat × Nat) : (collEnd r p slot st).mem = r.mem := rfl

theorem get?_collEnd (hy : (r.part p).colls.get? slot = some y) (hst : y.status = none) (st : Nat × Nat × Nat) :
    ((collEnd r p slot st).part p).colls.get? slot = some { y with status := some st } := by
  rw [collEnd_part, Tbl.get?_upd, if_pos rfl, hy, Option.map_some, hst]
  rfl

/-- An abort: what it leaves of memory and partition, and what it sends. -/
theorem collAbort_of (hy : (r.part p).colls.get? slot = some y) (hst : y.status = none) (st : Nat × Nat × Nat) :
    ∃ n q, collAbort r p slot st = toMembers (collEnd (spoilRecv r y n) p slot st) p y.group q := by
  rw [collAbort, hy]
  dsimp only
  rw [hst, if_neg (by exact Bool.false_ne_true)]
  exact ⟨_, _, rfl⟩

/-- An abort sends its messages and may write the pages of RECV; of the partition its flows change, and the status of the collective. -/
theorem collAbort_leaves (hy : (r.part p).colls.get? slot = some y) (hst : y.status = none) (st : Nat × Nat × Nat) :
    r.Sends (collAbort r p slot st) ∧ r.SameOutside y.recvPg (collAbort r p slot st) ∧
    ((collAbort r p slot st).part p).colls = (r.part p).colls.upd slot (fun x => { x with status := some (x.status.getD st) }) := by
  obtain ⟨n, q, he⟩ := collAbort_of hy hst st
  obtain ⟨hsends, hparts, hmem⟩ := writes_spoilRecv r y n
  have hpart : (spoilRecv r y n).part p = r.part p := congrArg (fun z : Tbl Partition => (z.get? p).getD {}) hparts
  rw [he]
  refine ⟨hsends.trans ((sends_collEnd _ p slot st).trans (sends_toMembers _ p _ _)),
    hmem.trans (.of_mem ((toMembers_keeps _ p Run.mem (fun _ _ _ _ => rfl) _ _).trans (mem_collEnd ..))), ?_⟩
  rw [(sameButFlows_toMembers (collEnd (spoilRecv r y n) p slot st) p y.group q).get Partition.colls (fun _ _ => rfl) p, collEnd_part, hpart]

theorem collAbort_none (hy : (r.part p).colls.get? slot = none) (st : Nat × Nat × Nat) : collAbort r p slot st = r := by
  rw [collAbort, hy]

theorem collAbort_over (hy : (r.part p).colls.get? slot = some y) (hst : y.status.isSome = true) (st : Nat × Nat × Nat) : collAbort r p slot st = r := by
  rw [collAbort, hy]
  exact if_pos hst

end

end Sys2Proof.Machine
end

section
/-! What the loss of a port leaves, and what goes out again by another (R504, R517). -/

namespace Sys2Proof.Machine

theorem SameButMon.wave {r t : Run} (h : SameButMon r t) (k : Nat) : { t.wave k with mon := (r.wave k).mon } = r.wave k := by
  have e := congrArg (fun x => Tbl.get? x k) h
  simp only [Run.unmonitored, get?_mapAll] at e
  rw [Run.wave, Run.wave]
  cases hr : r.waves.get? k with
  | none =>
    rw [hr] at e
    rw [Option.map_eq_none_iff.mp e]
  | some w =>
    obtain ⟨m, hm⟩ := h.get hr
    rw [hm]
    rfl

/-! ## Atomics that go out again (R504) -/

/-- One atomic in flight, sent again where it went by the port. -/
def resendOne (p port : Nat) (acc : Moves × Run) (x : FarLane) : Moves × Run :=
  match (if x.via = port then x.req else none), acc.2.dataPort p (port / 36) x.dev (x.pa / 256) with
  | some a, some i => (((x.port, x.tag), i) :: acc.1, acc.2.transmit i { cls := 0, port := x.port, tag := x.tag } (.atomic x.dev a))
  | _, _ => acc

/-- A run whose atomics in flight go by other ports. -/
def Run.viaMoved (ms : Moves) (r : Run) : Run :=
  { r with
    waves := r.waves.mapAll (fun _ w => { w with pend := w.pend.map (Pend.moved ms) })
    blocks := r.blocks.mapAll (fun _ z => { z with batches := z.batches.map (Batch.moved ms), spill := z.spill.map (Batch.moved ms) }) }

section
variable {r : Run} {p port : Nat}

theorem resendAtomics_eq (r : Run) (p port : Nat) :
    resendAtomics r p port = ((r.atomicsOut.foldl (resendOne p port) ([], r)).2).viaMoved (r.atomicsOut.foldl (resendOne p port) ([], r)).1 := rfl

theorem resendOne_cases (p port : Nat) (acc : Moves × Run) (x : FarLane) : (resendOne p port acc x).2 = acc.2 ∨
    ∃ a i, (acc.2.port i).up = true ∧ (resendOne p port acc x).2 = acc.2.transmit i { cls := 0, port := x.port, tag := x.tag } (.atomic x.dev a) := by
  rw [resendOne]
  split
  · next a i _ hi => exact Or.inr ⟨a, i, up_of_mem_portsTo (mem_of_choosePort hi), rfl⟩
  · exact Or.inl rfl

theorem resendOne_keeps {α : Type} (g : Run → α) (hg : ∀ (r : Run) ps xs, g { r with ports := ps, out := xs } = g r) (acc : Moves × Run) (x : FarLane) :
    g (resendOne p port acc x).2 = g acc.2 := by
  rcases resendOne_cases p port acc x with h | ⟨a, i, -, h⟩
  · rw [h]
  · rw [h]
    exact hg acc.2 _ _

theorem sends_resendOne (acc : Moves × Run) (x : FarLane) : acc.2.Sends (resendOne p port acc x).2 := by
  rcases resendOne_cases p port acc x with h | ⟨a, i, hup, h⟩
  · rw [h]
    exact .refl _
  · rw [h]
    exact sends_transmit _ hup _ _

theorem resendOne_sends {acc : Moves × Run} {x : FarLane} {a : AtomicReq} (hv : x.via = port) (ha : x.req = some a)
    (hd : (acc.2.dataPort p (port / 36) x.dev (x.pa / 256)).isSome = true) : .atomic x.dev a ∈ (resendOne p port acc x).2.out := by
  obtain ⟨i, hi⟩ := Option.isSome_iff_exists.mp hd
  rw [resendOne, if_pos hv, ha, hi]
  exact mem_out_transmit ..

theorem foldl_resendOne_keeps {α : Type} (g : Run → α) (hg : ∀ (r : Run) ps xs, g { r with ports := ps, out := xs } = g r) (zs : List FarLane)
    (acc : Moves × Run) : g (zs.foldl (resendOne p port) acc).2 = g acc.2 := by
  induction zs generalizing acc with
  | nil => rfl
  | cons z zs ih => exact (ih _).trans (resendOne_keeps g hg acc z)

theorem sends_foldl_resendOne (zs : List FarLane) (acc : Moves × Run) : acc.2.Sends (zs.foldl (resendOne p port) acc).2 := by
  induction zs generalizing acc with
  | nil => exact .refl _
  | cons z zs ih => exact (sends_resendOne acc z).trans (ih _)

theorem dataPort_of_sends {a b : Run} (h : a.Sends b) (hp : b.parts = a.parts) (p die dev line : Nat) : b.dataPort p die dev line = a.dataPort p die dev line := by
  rw [Run.dataPort, Run.dataPort, portsTo_of_sends h (.of_parts hp)]

/-- Every atomic in flight on the port goes out by another, where one is there. -/
theorem foldl_resendOne_sends (zs : List FarLane) (acc : Moves × Run) {z : FarLane} (hz : z ∈ zs) {a : AtomicReq} (hv : z.via = port) (ha : z.req = some a)
    (hd : (acc.2.dataPort p (port / 36) z.dev (z.pa / 256)).isSome = true) : .atomic z.dev a ∈ (zs.foldl (resendOne p port) acc).2.out := by
  induction zs generalizing acc with
  | nil => exact nomatch hz
  | cons y zs ih =>
    rw [List.foldl_cons]
    rcases List.mem_cons.mp hz with rfl | hz
    · exact (sends_foldl_resendOne zs _).out (resendOne_sends hv ha hd)
    · refine ih _ hz ?_
      rw [dataPort_of_sends (sends_resendOne acc y) (resendOne_keeps Run.parts (fun _ _ _ => rfl) acc y)]
      exact hd

/-- What is resent, and what a resending leaves of the waves. -/
theorem wave_viaMoved (ms : Moves) (r : Run) (k : Nat) :
    { (r.viaMoved ms).wave k with pend := (r.wave k).pend } = r.wave k ∧ ((r.viaMoved ms).wave k).pend.map (fun q => q.id) = (r.wave k).pend.map (fun q => q.id) := by
  have hid (q : Pend) : (q.moved ms).id = q.id := by
    rw [Pend.moved]
    split <;> rfl
  simp only [Run.wave, Run.viaMoved, get?_mapAll]
  cases r.waves.get? k with
  | none => exact ⟨rfl, rfl⟩
  | some w =>
    refine ⟨rfl, ?_⟩
    simp only [Option.map_some, Option.getD_some, List.map_map]
    exact List.map_congr_left fun q _ => hid q

end

/-! ## Flows that move (R504) -/

/-- One flow, whose unacknowledged messages by the port go out by another. -/
def moveOne (p port : Nat) (r : Run) (e : Nat × Flow) : Run :=
  let us := e.2.unacked.filter (fun u => u.2.1 = port)
  let (key, ports) := r.flowWays p (port / 36) e.1
  match (if us = [] then none else e.2.portIn key e.1 ports) with
  | none => r
  | some i => us.foldl (fun r u => r.transmit i { cls := 1, flow := e.1, seq := u.1, port := i } (.control e.1 u.1 u.2.2))
      (r.onPart p (fun z => { z with flows := z.flows.upd e.1 (fun x => x.moveTo key port i) }))

section
variable {r : Run} {p port : Nat}

theorem moveFlows_eq (r : Run) (p port : Nat) : moveFlows r p port = (r.part p).flows.foldl (moveOne p port) r := rfl

theorem up_of_flowWays {r : Run} {p die f i : Nat} (h : i ∈ (r.flowWays p die f).2) : (r.port i).up = true := by
  rw [Run.flowWays] at h
  split at h
  · exact up_of_mem_portsTo h
  · exact up_of_mem_waysTo h

/-- Messages that go out by one port. -/
theorem transmits_leave (i f : Nat) (us : List (Nat × Nat × RemoteReq)) (r : Run) (hi : (r.port i).up = true) :
    let r' := us.foldl (fun r u => r.transmit i { cls := 1, flow := f, seq := u.1, port := i } (.control f u.1 u.2.2)) r
    r.Sends r' ∧ r.SameButFlows r' ∧ r'.mem = r.mem ∧ ∀ u ∈ us, Out.control f u.1 u.2.2 ∈ r'.out := by
  induction us generalizing r with
  | nil => exact ⟨.refl r, .refl r, rfl, fun _ h => nomatch h⟩
  | cons u us ih =>
    have hsends := sends_transmit r hi { cls := 1, flow := f, seq := u.1, port := i } (.control f u.1 u.2.2)
    obtain ⟨hs, hp, hm, hout⟩ := ih (r.transmit i { cls := 1, flow := f, seq := u.1, port := i } (.control f u.1 u.2.2)) ((hsends.up i).trans hi)
    refine ⟨hsends.trans hs, (sameButFlows_transmit r _ _ _).trans hp, hm, fun v hv => ?_⟩
    rcases List.mem_cons.mp hv with rfl | hv
    · exact hs.out (mem_out_transmit ..)
    · exact hout v hv

theorem moveOne_leaves (r : Run) (e : Nat × Flow) :
    r.Sends (moveOne p port r e) ∧ r.SameButFlows (moveOne p port r e) ∧ (moveOne p port r e).mem = r.mem := by
  rw [moveOne]
  dsimp only
  split
  · exact ⟨.refl r, .refl r, rfl⟩
  · next i hi =>
    have hup : (r.port i).up = true := by
      split at hi
      · exact nomatch hi
      · exact up_of_flowWays (Flow.mem_of_portIn hi)
    obtain ⟨hs, hp, hm, -⟩ := transmits_leave i e.1 (e.2.unacked.filter (fun u => u.2.1 = port))
      (r.onPart p (fun z => { z with flows := z.flows.upd e.1 (fun x => x.moveTo (r.flowWays p (port / 36) e.1).1 port i) })) hup
    refine ⟨(sends_onPart r p _).trans hs, .trans ?_ hp, hm⟩
    exact sameButFlows_onPart r p (fun _ => rfl)

theorem moveOne_sends {r : Run} {e : Nat × Flow} (h : (e.2.portIn (r.flowWays p (port / 36) e.1).1 e.1 (r.flowWays p (port / 36) e.1).2).isSome = true)
    {u : Nat × Nat × RemoteReq} (hu : u ∈ e.2.unacked) (hport : u.2.1 = port) : .control e.1 u.1 u.2.2 ∈ (moveOne p port r e).out := by
  obtain ⟨i, hi⟩ := Option.isSome_iff_exists.mp h
  have hmem : u ∈ e.2.unacked.filter (fun u => u.2.1 = port) := List.mem_filter.mpr ⟨hu, decide_eq_true hport⟩
  rw [moveOne]
  dsimp only
  rw [if_neg (fun hnil => by rw [hnil] at hmem; exact nomatch hmem), hi]
  have hup : (r.port i).up = true := up_of_flowWays (Flow.mem_of_portIn hi)
  obtain ⟨-, -, -, hout⟩ := transmits_leave i e.1 (e.2.unacked.filter (fun u => u.2.1 = port))
    (r.onPart p (fun z => { z with flows := z.flows.upd e.1 (fun x => x.moveTo (r.flowWays p (port / 36) e.1).1 port i) })) hup
  exact hout u hmem

theorem flowWays_of_sends {a b : Run} (h : a.Sends b) (hp : a.SameButFlows b) (p die f : Nat) : b.flowWays p die f = a.flowWays p die f := by
  have haper : (b.part p).aper = (a.part p).aper := hp.get Partition.aper (fun _ _ => rfl) p
  have hgroups : (b.part p).groups = (a.part p).groups := hp.get Partition.groups (fun _ _ => rfl) p
  simp only [Run.flowWays, Partition.flowDev, haper, hgroups, portsTo_of_sends h hp, waysTo_of_sends h hp]

theorem foldl_moveOne_leaves (es : List (Nat × Flow)) (r : Run) :
    r.Sends (es.foldl (moveOne p port) r) ∧ r.SameButFlows (es.foldl (moveOne p port) r) ∧ (es.foldl (moveOne p port) r).mem = r.mem := by
  induction es generalizing r with
  | nil => exact ⟨.refl r, .refl r, rfl⟩
  | cons e es ih =>
    obtain ⟨hs, hp, hm⟩ := moveOne_leaves (p := p) (port := port) r e
    obtain ⟨hs', hp', hm'⟩ := ih (moveOne p port r e)
    exact ⟨hs.trans hs', hp.trans hp', hm'.trans hm⟩

/-- Every message of the flows by the port goes out by another, where one is there. -/
theorem foldl_moveOne_sends (es : List (Nat × Flow)) (r : Run) {e : Nat × Flow} (he : e ∈ es)
    (h : (e.2.portIn (r.flowWays p (port / 36) e.1).1 e.1 (r.flowWays p (port / 36) e.1).2).isSome = true) {u : Nat × Nat × RemoteReq}
    (hu : u ∈ e.2.unacked) (hport : u.2.1 = port) : .control e.1 u.1 u.2.2 ∈ (es.foldl (moveOne p port) r).out := by
  induction es generalizing r with
  | nil => exact nomatch he
  | cons d es ih =>
    rw [List.foldl_cons]
    rcases List.mem_cons.mp he with rfl | he
    · exact (foldl_moveOne_leaves es _).1.out (moveOne_sends h hu hport)
    · obtain ⟨hs, hp, -⟩ := moveOne_leaves (p := p) (port := port) r d
      refine ih _ he ?_
      rw [flowWays_of_sends hs hp]
      exact h

end

/-! ## Collectives that end (R517) -/

theorem Tbl.mem_upd {α : Type} {m : Tbl α} {n : Nat} {f : α → α} {e : Nat × α} (he : e ∈ m.upd n f) : e ∈ m ∨ ∃ x, (n, x) ∈ m ∧ e = (n, f x) := by
  rw [Tbl.upd] at he
  split at he
  · next x hx => exact (SMap.mem_insert m n (f x) e he).imp_right fun h => ⟨x, Tbl.mem_of_get? hx, h⟩
  · exact Or.inl he

/-- An address in a page that a collective of the partition holds for RECV. -/
def Run.HeldBy (r : Run) (p a : Nat) : Prop := ∃ e ∈ (r.part p).colls, ∃ g ∈ e.2.recvPg, a / 8192 = g.2.1 / 8192

/-- What the end of collectives leaves: memory outside the pages of RECV, which stay those they were. -/
structure Run.Ends (p : Nat) (r r' : Run) : Prop where
  sends : r.Sends r'
  mem : ∀ a, ¬r.HeldBy p a → memGet r'.mem a = memGet r.mem a
  held : ∀ a, r'.HeldBy p a → r.HeldBy p a

section
variable {p : Nat}

theorem Run.Ends.refl (r : Run) : r.Ends p r := ⟨.refl r, fun _ _ => rfl, fun _ h => h⟩

theorem Run.Ends.trans {a b c : Run} (h : a.Ends p b) (h' : b.Ends p c) : a.Ends p c :=
  ⟨h.sends.trans h'.sends, fun x hx => (h'.mem x (fun hb => hx (h.held x hb))).trans (h.mem x hx), fun x hx => h.held x (h'.held x hx)⟩

theorem ends_collAbort (r : Run) (slot : Nat) (st : Nat × Nat × Nat) : r.Ends p (collAbort r p slot st) := by
  cases hy : (r.part p).colls.get? slot with
  | none =>
    rw [collAbort_none hy]
    exact .refl r
  | some y =>
    cases hst : y.status with
    | some z =>
      rw [collAbort_over hy (by rw [hst]; rfl)]
      exact .refl r
    | none =>
      obtain ⟨hsends, hmem, hcolls⟩ := collAbort_leaves hy hst st
      refine ⟨hsends, fun a ha => hmem a (fun g hg hpage => ha ⟨(slot, y), Tbl.mem_of_get? hy, g, hg, hpage⟩), ?_⟩
      rintro a ⟨e, he, g, hg, hpage⟩
      rw [hcolls] at he
      rcases Tbl.mem_upd he with he | ⟨x, hx, rfl⟩
      · exact ⟨e, he, g, hg, hpage⟩
      · exact ⟨(slot, x), hx, g, hg, hpage⟩

theorem ends_collLinks (r : Run) : r.Ends p (collLinks r p) := by
  have hlink (r : Run) (e : Nat × Coll) : r.Ends p (collLink r p e.1 e.2) := by
    rw [collLink]
    split
    · exact ends_collAbort ..
    · exact .refl r
  have hall (es : List (Nat × Coll)) (r : Run) : r.Ends p (es.foldl (fun r e => collLink r p e.1 e.2) r) := by
    induction es generalizing r with
    | nil => exact .refl r
    | cons e es ih => exact (hlink r e).trans (ih _)
  exact hall _ r

end

end Sys2Proof.Machine
end

section
/-! O52: links and ports (R503, R504, R544). -/

namespace Sys2Proof.Machine

section
variable {y : Sys} {r : Run} {n : Nat}

/-- A run with a port down, and noted in the black box. -/
def fallen (r : Run) (n : Nat) : Run := (r.onPort n (fun x => { x with up := false, tries := [], lastIn := none })).event 6 0xFF n n

/-- The same once its atomics have gone out again. -/
def resent (r : Run) (p n : Nat) : Run := resendAtomics (fallen r n) p n

theorem portDown_eq (hup : (r.port n).up = true) (hm : (r.port n).mapped = true) :
    portDown y r n = collLinks (moveFlows (resent r (y.partOf (n / 36)) n) (y.partOf (n / 36)) n) (y.partOf (n / 36)) := by
  rw [portDown, hup, hm]
  rfl

theorem fallen_keeps {α : Type} (g : Run → α) (hg : ∀ (r : Run) ps bs k, g { r with ports := ps, bb := bs, bbNext := k } = g r) (r : Run) (n : Nat) :
    g (fallen r n) = g r := hg r _ _ _

theorem port_fallen (r : Run) (n k : Nat) :
    (fallen r n).port k = if k = n then { r.port n with up := false, tries := [], lastIn := none } else r.port k :=
  Run.port_onPort r n k (fun x => { x with up := false, tries := [], lastIn := none })

theorem viaMoved_keeps {α : Type} (g : Run → α) (hg : ∀ (r : Run) ws bs, g { r with waves := ws, blocks := bs } = g r) (ms : Moves) (r : Run) :
    g (r.viaMoved ms) = g r := hg r _ _

/-- A port that is down, with what later messages leave of it. -/
theorem port_of_sends_fallen {r' : Run} (h : (fallen r n).Sends r') :
    (∀ k, k ≠ n → { r'.port k with link := (r.port k).link, sent := (r.port k).sent } = r.port k) ∧
    r'.port n = { r.port n with up := false, tries := [], lastIn := none } := by
  have hn := (port_fallen r n n).trans (if_pos rfl)
  refine ⟨fun k hk => ?_, (h.down n (by rw [hn])).trans hn⟩
  have hother := (port_fallen r n k).trans (if_neg hk)
  have hport := h.port k
  rw [hother] at hport
  exact hport

/-- What the fall of a port leaves, and what has gone out again. -/
structure PortFalls (p n : Nat) (r r' : Run) : Prop where
  mem : ∀ a, ¬r.HeldBy p a → memGet r'.mem a = memGet r.mem a
  wave : ∀ k, { r'.wave k with mon := (r.wave k).mon, pend := (r.wave k).pend } = r.wave k ∧
    (r'.wave k).pend.map (fun q => q.id) = (r.wave k).pend.map (fun q => q.id)
  port : ∀ k, k ≠ n → { r'.port k with link := (r.port k).link, sent := (r.port k).sent } = r.port k
  down : r'.port n = { r.port n with up := false, tries := [], lastIn := none }
  noted : ∃ e, e ∈ r'.bb ∧ e.ty = 6 ∧ e.seq = r.bbNext ∧ e.detail = n % 2 ^ 32
  atomics : ∀ z ∈ r.atomicsOut, ∀ a, z.via = n → z.req = some a → ((fallen r n).dataPort p (n / 36) z.dev (z.pa / 256)).isSome = true →
    .atomic z.dev a ∈ r'.out
  flows : ∀ fl z, (r.part p).flows.get? fl = some z →
    (z.portIn ((fallen r n).flowWays p (n / 36) fl).1 fl ((fallen r n).flowWays p (n / 36) fl).2).isSome = true →
      ∀ u ∈ z.unacked, u.2.1 = n → .control fl u.1 u.2.2 ∈ r'.out

/-- The event of a port's fall stands in the black box. -/
theorem bb_fallen (r : Run) (n : Nat) : ∃ e, e ∈ (fallen r n).bb ∧ e.ty = 6 ∧ e.seq = r.bbNext ∧ e.detail = n % 2 ^ 32 := by
  refine ⟨⟨r.bbNext, 6, 0xFF, n, (fallen r n).us % 2 ^ 32, n % 2 ^ 32, none⟩, ?_, rfl, rfl, rfl⟩
  have h (e : BBEntry) (bs : List BBEntry) : e ∈ (e :: bs).take (4095 + 1) := List.take_succ_cons ▸ List.mem_cons_self
  exact h _ _

/-- Two runs whose messages went out after a port fell, with its atomics moved between. -/
theorem portFalls_of {p : Nat} {a b d : Run} {ms : Moves} (ha : a = (r.atomicsOut.foldl (resendOne p n) ([], fallen r n)).2)
    (hb : (a.viaMoved ms).Sends b) (hflows : (a.viaMoved ms).SameButFlows b) (hmem : b.mem = a.mem)
    (hout : ∀ fl z, (r.part p).flows.get? fl = some z →
      (z.portIn ((fallen r n).flowWays p (n / 36) fl).1 fl ((fallen r n).flowWays p (n / 36) fl).2).isSome = true →
        ∀ u ∈ z.unacked, u.2.1 = n → .control fl u.1 u.2.2 ∈ b.out) (hd : b.Ends p d) : PortFalls p n r d := by
  have hsa : (fallen r n).Sends a := ha ▸ sends_foldl_resendOne r.atomicsOut ([], fallen r n)
  have hparts : a.parts = r.parts := ha ▸ foldl_resendOne_keeps Run.parts (fun _ _ _ => rfl) r.atomicsOut ([], fallen r n)
  have hamem : a.mem = r.mem := ha ▸ foldl_resendOne_keeps Run.mem (fun _ _ _ => rfl) r.atomicsOut ([], fallen r n)
  have hawaves : a.waves = r.waves := ha ▸ foldl_resendOne_keeps Run.waves (fun _ _ _ => rfl) r.atomicsOut ([], fallen r n)
  have hsd : (a.viaMoved ms).Sends d := hb.trans hd.sends
  obtain ⟨haport, hadown⟩ := port_of_sends_fallen hsa
  have hwave (k : Nat) : a.wave k = r.wave k := congrArg (fun z : Tbl Wave => (z.get? k).getD {}) hawaves
  have hcolls : (b.part p).colls = (r.part p).colls := by
    have h := hflows.get Partition.colls (fun _ _ => rfl) p
    exact h.trans (congrArg (fun z : Tbl Partition => ((z.get? p).getD {}).colls) hparts)
  have hheld (x : Nat) : b.HeldBy p x ↔ r.HeldBy p x := by rw [Run.HeldBy, Run.HeldBy, hcolls]
  refine ⟨fun x hx => ?_, fun k => ?_, fun k hk => ?_, ?_, ?_, fun z hz q hv hq hport => ?_, fun fl z hz hp u hu hn => hd.sends.out (hout fl z hz hp u hu hn)⟩
  · exact (hd.mem x (fun h => hx ((hheld x).mp h))).trans (congrArg (fun m => memGet m x) (hmem.trans hamem))
  · have hmon := hsd.waves.wave k
    obtain ⟨hpend, hids⟩ := wave_viaMoved ms a k
    rw [hwave] at hpend hids
    refine ⟨?_, ?_⟩
    · rw [← hpend, ← hmon]
    · rw [← hids, ← hmon]
  · have hport := hsd.port k
    have h := congrArg (fun x : Port => { x with link := (r.port k).link, sent := (r.port k).sent }) hport
    exact h.trans (haport k hk)
  · exact (hsd.down n (congrArg Port.up hadown)).trans hadown
  · rw [hsd.bb]
    exact hsa.bb ▸ bb_fallen r n
  · exact hsd.out (ha ▸ foldl_resendOne_sends r.atomicsOut ([], fallen r n) hz hv hq hport)

theorem portDown_falls (hup : (r.port n).up = true) (hm : (r.port n).mapped = true) : PortFalls (y.partOf (n / 36)) n r (portDown y r n) := by
  rw [portDown_eq hup hm]
  generalize y.partOf (n / 36) = p
  have he : resent r p n = ((r.atomicsOut.foldl (resendOne p n) ([], fallen r n)).2).viaMoved (r.atomicsOut.foldl (resendOne p n) ([], fallen r n)).1 :=
    resendAtomics_eq (fallen r n) p n
  have hsa : (fallen r n).Sends (r.atomicsOut.foldl (resendOne p n) ([], fallen r n)).2 := sends_foldl_resendOne r.atomicsOut ([], fallen r n)
  have hparts := foldl_resendOne_keeps (p := p) (port := n) Run.parts (fun _ _ _ => rfl) r.atomicsOut ([], fallen r n)
  rw [he, moveFlows_eq]
  obtain ⟨hs, hf, hmem⟩ := foldl_moveOne_leaves (p := p) (port := n) ((((r.atomicsOut.foldl (resendOne p n) ([], fallen r n)).2).viaMoved
    (r.atomicsOut.foldl (resendOne p n) ([], fallen r n)).1).part p).flows
      (((r.atomicsOut.foldl (resendOne p n) ([], fallen r n)).2).viaMoved (r.atomicsOut.foldl (resendOne p n) ([], fallen r n)).1)
  refine portFalls_of rfl hs hf hmem (fun fl z hz hp u hu hn => ?_) (ends_collLinks _)
  have hmem : (fl, z) ∈ ((((r.atomicsOut.foldl (resendOne p n) ([], fallen r n)).2).viaMoved
      (r.atomicsOut.foldl (resendOne p n) ([], fallen r n)).1).part p).flows := by
    have hpart := congrArg (fun x : Tbl Partition => ((x.get? p).getD {}).flows) hparts
    have hflows : ∀ r' : Run, (r'.part p).flows = (r.part p).flows → (fl, z) ∈ (r'.part p).flows := fun r' h => h ▸ Tbl.mem_of_get? hz
    exact hflows _ hpart
  have hways := (viaMoved_keeps (fun x => x.flowWays p (n / 36) fl) (fun _ _ _ => rfl) (r.atomicsOut.foldl (resendOne p n) ([], fallen r n)).1
    (r.atomicsOut.foldl (resendOne p n) ([], fallen r n)).2).trans (flowWays_of_sends hsa (.of_parts hparts) p (n / 36) fl)
  exact foldl_moveOne_sends _ _ (e := (fl, z)) hmem (by rw [hways]; exact hp) hu hn

end

/-! ## What a port learns of its link (R503) -/

/-- A run that differs in one port alone. -/
structure Run.OnlyPort (n : Nat) (z : Port) (r r' : Run) : Prop where
  mem : r'.mem = r.mem
  waves : r'.waves = r.waves
  others : ∀ k, k ≠ n → r'.port k = r.port k
  port : r'.port n = z
  rest : { r' with ports := r.ports } = r

section
variable {y : Sys} {r : Run} {n : Nat}

theorem onlyPort_onPort (r : Run) (n : Nat) (f : Port → Port) : r.OnlyPort n (f (r.port n)) (r.onPort n f) :=
  ⟨rfl, rfl, fun k hk => (Run.port_onPort r n k f).trans (if_neg hk), (Run.port_onPort r n n f).trans (if_pos rfl), rfl⟩

theorem onlyPort_twice (r : Run) (n : Nat) (f g : Port → Port) : r.OnlyPort n (g (f (r.port n))) ((r.onPort n f).onPort n g) := by
  have hn : (r.onPort n f).port n = f (r.port n) := (Run.port_onPort r n n f).trans (if_pos rfl)
  refine ⟨rfl, rfl, fun k hk => ?_, ?_, rfl⟩
  · exact (Run.port_onPort _ n k g).trans ((if_neg hk).trans ((Run.port_onPort r n k f).trans (if_neg hk)))
  · exact (Run.port_onPort _ n n g).trans ((if_pos rfl).trans (congrArg g hn))

section
variable (hup : (r.port n).up = true) (hm : (r.port n).mapped = true)
include hup hm

theorem linkReplay_have : linkReplay y r n .have = r.onPort n (fun x => { x with replays := 0 }) := by
  rw [linkReplay, hup, hm]
  rfl

theorem linkReplay_flit (link : Nat) (ok : Bool) : linkReplay y r n (.flit link ok) = flitIn r n link ok := by
  rw [linkReplay, hup, hm]
  rfl

theorem linkReplay_again (link : Nat) : linkReplay y r n (.again link) = replayFrom y r n link := by
  rw [linkReplay, hup, hm]
  rfl

end

theorem linkReplay_closed (h : (r.port n).up = false ∨ (r.port n).mapped = false) (e : LinkEv) : linkReplay y r n e = r := by
  unfold linkReplay
  refine if_pos (h.imp (fun h => ?_) fun h => ?_)
  · rw [h]; rfl
  · rw [h]; rfl

theorem portDown_closed (h : (r.port n).up = false ∨ (r.port n).mapped = false) : portDown y r n = r := by
  rw [portDown]
  refine if_pos (h.imp (fun h => ?_) fun h => ?_)
  · rw [h]; rfl
  · rw [h]; rfl

theorem portRetraining_closed (h : (r.port n).up = true ∨ (r.port n).mapped = false) (ok : Bool) : portRetraining r n ok = r := by
  rw [portRetraining]
  refine if_pos (h.imp_right fun h => ?_)
  rw [h]; rfl

theorem portMapout_closed (h : (r.port n).up = true ∨ (r.port n).mapped = false) : portMapout r n = r := by
  rw [portMapout]
  refine if_pos ?_
  rcases h with h | h
  · rw [Port.lost, h]; rfl
  · rw [Port.lost, h, Bool.and_false]; rfl

/-- The next flit is taken in. -/
theorem flitIn_next (r : Run) (n : Nat) : flitIn r n (r.port n).expect true =
    (r.onPort n (fun x => { x with lastIn := some r.clk })).onPort n (fun x => { x with expect := x.expect + 1 }) := by
  rw [flitIn]
  exact if_pos (by rw [decide_eq_true rfl]; rfl)

/-- A copy of an earlier flit is discarded. -/
theorem flitIn_earlier {link : Nat} (h : link < (r.port n).expect) : flitIn r n link true = r.onPort n (fun x => { x with lastIn := some r.clk }) := by
  rw [flitIn]
  refine (if_neg ?_).trans (if_pos ?_)
  · rw [decide_eq_false (Nat.ne_of_lt h)]
    exact Bool.false_ne_true
  · rw [decide_eq_true h]
    rfl

/-- A flit that shows a loss has the replay asked for. -/
theorem flitIn_loss {link : Nat} {ok : Bool} (h : ok = true → (r.port n).expect < link) :
    flitIn r n link ok = (r.onPort n (fun x => { x with lastIn := some r.clk })).send (.replay n (r.port n).expect) := by
  rw [flitIn]
  cases ok with
  | false => rfl
  | true =>
    have hlt := h rfl
    refine (if_neg ?_).trans (if_neg ?_)
    · rw [decide_eq_false (Nat.ne_of_gt hlt)]
      exact Bool.false_ne_true
    · rw [decide_eq_false (Nat.not_lt.mpr (Nat.le_of_lt hlt))]
      exact Bool.false_ne_true

theorem foldl_send_flits (n : Nat) (fs : List (Nat × List Byte)) (r : Run) :
    fs.foldl (fun r f => r.send (.flit n f.1 f.2)) r = { r with out := r.out ++ fs.map (fun f => .flit n f.1 f.2) } := by
  induction fs generalizing r with
  | nil => rw [List.map_nil, List.append_nil]; rfl
  | cons f fs ih =>
    rw [List.foldl_cons, ih]
    simp only [Run.send, List.append_assoc]
    rfl

theorem replayFrom_again {link : Nat} (h : (if (r.port n).failed = link then (r.port n).replays else 0) < 8) :
    replayFrom y r n link = { r.onPort n (fun x => { x with replays := (if (r.port n).failed = link then (r.port n).replays else 0) + 1, failed := link }) with
      out := r.out ++ ((r.port n).sent.filter (fun f => link ≤ f.1)).map (fun f => .flit n f.1 f.2) } := by
  rw [replayFrom]
  dsimp only
  rw [if_neg (Nat.not_le.mpr h), foldl_send_flits]
  rfl

theorem replayFrom_falls {link : Nat} (h : 8 ≤ if (r.port n).failed = link then (r.port n).replays else 0) : replayFrom y r n link = portDown y r n := by
  rw [replayFrom]
  exact if_pos h

/-! ## Retraining and mapping out (R544) -/

theorem portRetraining_restores (hup : (r.port n).up = false) (hm : (r.port n).mapped = true) :
    portRetraining r n true = r.onPort n (fun x => { x with up := true, replays := 0, tries := [] }) := by
  rw [portRetraining, hup, hm]
  rfl

theorem portRetraining_fails (hup : (r.port n).up = false) (hm : (r.port n).mapped = true) :
    portRetraining r n false = r.onPort n (fun x => { x with tries := r.clk :: x.tries }) := by
  rw [portRetraining, hup, hm]
  rfl

/-- A run without a port in any route. -/
def unrouted (r : Run) (n : Nat) : Run :=
  { r with parts := r.parts.mapAll (fun _ p => { p with routes := p.routes.mapAll (fun _ l => l.filter (fun i => i ≠ n)) }) }

theorem portMapout_lost (h : (r.port n).lost = true) :
    portMapout r n = (unrouted (r.onPort n (fun x => { x with mapped := false })) n).service 4 n 4 := by
  rw [portMapout, h]
  rfl

theorem portMapout_kept (h : (r.port n).lost = false) : portMapout r n = r := by
  rw [portMapout, h]
  rfl

theorem service_keeps {α : Type} (g : Run → α) (hg : ∀ (r : Run) bs k xs, g { r with bb := bs, bbNext := k, out := xs } = g r) (r : Run) (kind u cause : Nat) :
    g (r.service kind u cause) = g r := hg r _ _ _

/-- No route leads by the port. -/
theorem routes_unrouted (r : Run) (n p d : Nat) (ps : List Nat) (h : ((unrouted r n).part p).routes.get? d = some ps) : n ∉ ps := by
  simp only [unrouted, Run.part, get?_mapAll] at h
  cases hp : r.parts.get? p with
  | none =>
    rw [hp] at h
    exact nomatch h
  | some q =>
    rw [hp] at h
    simp only [Option.map_some, Option.getD_some, get?_mapAll] at h
    obtain ⟨l, -, rfl⟩ := Option.map_eq_some_iff.mp h
    exact fun hn => (of_decide_eq_true (List.mem_filter.mp hn).2) rfl

theorem Port.lost_of {x : Port} (hup : x.up = false) (hm : x.mapped = true) {a b c : Nat} {rest : List Nat} (ht : x.tries = a :: b :: c :: rest)
    (h : a ≤ c + 21000000) : x.lost = true := by
  rw [Port.lost, hup, hm, ht]
  exact decide_eq_true h

theorem Port.lost_not {x : Port} (h : ∀ a b c rest, x.tries = a :: b :: c :: rest → c + 21000000 < a) : x.lost = false := by
  rw [Port.lost]
  split
  · next a b c rest ht =>
    rw [decide_eq_false (Nat.not_le.mpr (h a b c rest ht)), Bool.and_false]
  · exact Bool.and_false _

end

/-! ## O52 -/

/-- Settles O52: what a port learns of its link changes it alone; its fall by what goes out again of atomics and flows, and by what the ends of
collectives leave. -/
theorem ports : Obligations.Ports := by
  unfold Obligations.Ports
  intro s n x p kept sets held down falls
  have hnext {i : Instr} {r r' : Run} {P : State → Prop} (he : exec i s = .next { s with run := r }) (hr : r = r') (h : P { s with run := r' }) :
      Completes (exec i s) P := ⟨_, he, hr ▸ h⟩
  have hsets {i : Instr} {z : Port} {r r' : Run} (he : exec i s = .next { s with run := r }) (hr : r = r') (h : s.run.OnlyPort n z r') : sets i z :=
    ⟨_, he, hr ▸ ⟨⟨rfl, h.mem, h.waves, h.others⟩, h.port, h.rest⟩⟩
  have hfalls {i : Instr} {r r' : Run} (he : exec i s = .next { s with run := r }) (hr : r = r') (h : PortFalls p n s.run r') : falls i :=
    ⟨_, he, hr ▸ ⟨rfl, h.mem, h.wave, h.port, h.down, h.noted, h.atomics, h.flows⟩⟩
  have hsame {i : Instr} {r : Run} (he : exec i s = .next { s with run := r }) (h : r = s.run) : exec i s = .next s := by
    rw [he, h]
  refine ⟨fun hup hm => ⟨hsets rfl (linkReplay_have hup hm) (onlyPort_onPort s.run n (fun x => { x with replays := 0 })), ?_, hfalls rfl rfl (portDown_falls hup hm), fun ok i hi => ?_⟩,
    fun hup hm => ⟨fun e => hsame rfl (linkReplay_closed (Or.inl hup) e), hsame rfl (portDown_closed (Or.inl hup)),
      hsets rfl (portRetraining_restores hup hm)
        (onlyPort_onPort s.run n (fun x => { x with up := true, replays := 0, tries := [] })), hsets rfl (portRetraining_fails hup hm)
        (onlyPort_onPort s.run n (fun x => { x with tries := s.run.clk :: x.tries })),
      fun a b c rest ht h => ?_, fun h => hsame rfl (portMapout_kept (Port.lost_not h))⟩, fun hm b e i hi => ?_⟩
  · intro link k
    refine ⟨fun hk => ?_, fun hk => hfalls rfl ((linkReplay_again hup hm link).trans (replayFrom_falls hk)) (portDown_falls hup hm), fun hl => ?_,
      fun hl => hsets rfl ((linkReplay_flit hup hm link true).trans (flitIn_earlier hl))
        (onlyPort_onPort s.run n (fun x => { x with lastIn := some s.run.clk })), fun ok hok => ?_⟩
    · have he := (linkReplay_again hup hm link (y := s.sys)).trans (replayFrom_again hk)
      obtain ⟨-, -, hothers, hport, -⟩ := onlyPort_onPort s.run n (fun x => { x with replays := k + 1, failed := link })
      exact hnext rfl he ⟨⟨rfl, rfl, rfl, hothers⟩, hport, rfl, rfl⟩
    · subst hl
      exact hsets rfl ((linkReplay_flit hup hm _ true).trans (flitIn_next s.run n))
        (onlyPort_twice s.run n (fun x => { x with lastIn := some s.run.clk }) (fun x => { x with expect := x.expect + 1 }))
    · have he := (linkReplay_flit hup hm link ok (y := s.sys)).trans (flitIn_loss hok)
      obtain ⟨-, -, hothers, hport, -⟩ := onlyPort_onPort s.run n (fun x => { x with lastIn := some s.run.clk })
      exact hnext rfl he ⟨⟨rfl, rfl, rfl, hothers⟩, hport, rfl, rfl⟩
  · rcases List.mem_cons.mp hi with rfl | hi
    · exact hsame rfl (portRetraining_closed (Or.inl hup) ok)
    · rw [List.mem_singleton.mp hi]
      exact hsame rfl (portMapout_closed (Or.inl hup))
  · have he := portMapout_lost (Port.lost_of hup hm ht h)
    obtain ⟨-, -, hothers, hport, -⟩ := onlyPort_onPort s.run n (fun x => { x with mapped := false })
    have hmem := service_keeps Run.mem (fun _ _ _ _ => rfl) (unrouted (s.run.onPort n (fun x => { x with mapped := false })) n) 4 n 4
    have hwaves := service_keeps Run.waves (fun _ _ _ _ => rfl) (unrouted (s.run.onPort n (fun x => { x with mapped := false })) n) 4 n 4
    have hports (k : Nat) := service_keeps (fun r => r.port k) (fun _ _ _ _ => rfl) (unrouted (s.run.onPort n (fun x => { x with mapped := false })) n) 4 n 4
    have hparts (p : Nat) := service_keeps (fun r => r.part p) (fun _ _ _ _ => rfl) (unrouted (s.run.onPort n (fun x => { x with mapped := false })) n) 4 n 4
    refine hnext rfl he ⟨⟨rfl, hmem, hwaves, fun k hk => (hports k).trans (hothers k hk)⟩, (hports n).trans hport, fun p d ps hps => ?_⟩
    rw [hparts] at hps
    exact routes_unrouted _ n p d ps hps
  · simp only [List.mem_cons, List.not_mem_nil, or_false] at hi
    rcases hi with rfl | rfl | rfl | rfl
    · exact hsame rfl (linkReplay_closed (Or.inr hm) e)
    · exact hsame rfl (portDown_closed (Or.inr hm))
    · exact hsame rfl (portRetraining_closed (Or.inr hm) b)
    · exact hsame rfl (portMapout_closed (Or.inr hm))

end Sys2Proof.Machine
end

section
/-! Collectives: how one starts (R510, R514, R517). -/

namespace Sys2Proof.Machine

/-! ## What comes in for a collective before it starts -/

/-- A run whose engine has sent a collective's descriptor, and asked for what of its SEND lies on other devices. -/
def collAsked (r : Run) (p : Nat) (x : Coll) : Run :=
  let g := (((r.part p).groups.get? x.group).getD {})
  readFar (toMembers r p x.group (.descriptor x.group x.gen x.k g.rank x.op x.red x.ty x.count x.root)) p x.sendPg x.send.toNat
    (x.desc.sizes g.members.length g.rank).1

/-- The run a collective has begun in: nothing kept for it is left, and the reads of its SEND are under way. -/
def collBegun (r : Run) (p slot : Nat) (x : Coll) : Run :=
  let g := (((r.part p).groups.get? x.group).getD {})
  let n := (x.desc.sizes g.members.length g.rank).1
  let mine (a b k : Nat) : Bool := a = x.group && b = x.gen && k = x.k
  let asked := collAsked r p x
  asked.onPart p (fun q => { q with
    colls := q.colls.upd slot (fun x => { x with reads := if farLines x.sendPg x.send.toNat n = [] then none else some asked.clk })
    peers := q.peers.filter (fun d => !mine d.group d.gen d.k)
    aborts := q.aborts.filter (fun a => !mine a.1 a.2.1 a.2.2.1) })

/-- An abort kept for a collective. -/
def Coll.abortedBy (x : Coll) (a : Nat × Nat × Nat × Nat × Nat) : Bool := a.1 = x.group && a.2.1 = x.gen && a.2.2.1 = x.k

/-- A descriptor kept for a collective that is not its own. -/
def Coll.unlike (x : Coll) (d : PeerDesc) : Bool := d.group = x.group && d.gen = x.gen && d.k = x.k && d.fields ≠ x.fields

section
variable {r : Run} {p slot : Nat} {x : Coll}

/-- What has come in for a collective ends it as it begins; else a member out of reach does. -/
theorem collBegin_eq (r : Run) (p slot : Nat) (x : Coll) : collBegin r p slot x =
    match (r.part p).aborts.find? x.abortedBy, (r.part p).peers.find? x.unlike with
    | some a, _ => collAbort (collBegun r p slot x) p slot (3, a.2.2.2.2 % 4, a.2.2.2.1)
    | none, some d => collAbort (collBegun r p slot x) p slot (3, 1, d.rank)
    | none, none => collLink (collBegun r p slot x) p slot x := by
  have haborts : (r.part p).aborts.find? x.abortedBy =
      ((r.part p).aborts.filter (fun a => a.1 = x.group && a.2.1 = x.gen && a.2.2.1 = x.k)).head? := List.head?_filter.symm
  have hpeers : (r.part p).peers.find? x.unlike =
      ((r.part p).peers.filter (fun d => d.group = x.group && d.gen = x.gen && d.k = x.k)).find? (fun d => d.fields ≠ x.fields) := by
    rw [List.find?_filter]
    exact congrArg (fun f => (r.part p).peers.find? f) (funext fun d => by
      rw [Coll.unlike]
      cases (d.group = x.group && d.gen = x.gen && d.k = x.k : Bool) <;> simp)
  rw [haborts, hpeers, collBegin]
  split
  · next a as has =>
    rw [show (r.part p).aborts.filter (fun a => a.1 = x.group && a.2.1 = x.gen && a.2.2.1 = x.k) = a :: as from has]
    rfl
  · next d has hds =>
    rw [show (r.part p).aborts.filter (fun a => a.1 = x.group && a.2.1 = x.gen && a.2.2.1 = x.k) = [] from has,
      show ((r.part p).peers.filter (fun d => d.group = x.group && d.gen = x.gen && d.k = x.k)).find? (fun d => d.fields ≠ x.fields) = some d from hds]
    rfl
  · next has hds =>
    rw [show (r.part p).aborts.filter (fun a => a.1 = x.group && a.2.1 = x.gen && a.2.2.1 = x.k) = [] from has,
      show ((r.part p).peers.filter (fun d => d.group = x.group && d.gen = x.gen && d.k = x.k)).find? (fun d => d.fields ≠ x.fields) = none from hds]
    rfl

theorem collAsked_leaves (r : Run) (p : Nat) (x : Coll) :
    r.Sends (collAsked r p x) ∧ (collAsked r p x).mem = r.mem ∧ r.SameButFlows (collAsked r p x) :=
  ⟨(sends_toMembers r p _ _).trans (sends_readFar _ p _ _),
    (readFar_keeps Run.mem (fun _ _ _ => rfl) _ p _ _).trans (toMembers_keeps r p Run.mem (fun _ _ _ _ => rfl) _ _),
    (sameButFlows_toMembers r p _ _).trans (.of_parts (readFar_keeps Run.parts (fun _ _ _ => rfl) _ p _ _))⟩

theorem sends_collBegun (r : Run) (p slot : Nat) (x : Coll) : r.Sends (collBegun r p slot x) := by
  rw [collBegun]
  exact (collAsked_leaves r p x).1.trans (sends_onPart _ p _)

theorem mem_collBegun (r : Run) (p slot : Nat) (x : Coll) : (collBegun r p slot x).mem = r.mem := (collAsked_leaves r p x).2.1

/-- What of its partition a collective that begins leaves. -/
theorem part_collBegun {α : Type} (g : Partition → α) (hg : ∀ (q : Partition) fs cs ps as, g { q with flows := fs, colls := cs, peers := ps, aborts := as } = g q)
    (r : Run) (p slot : Nat) (x : Coll) : g ((collBegun r p slot x).part p) = g (r.part p) := by
  have hasked := (collAsked_leaves r p x).2.2.get g (fun q fs => hg q fs q.colls q.peers q.aborts) p
  rw [collBegun]
  dsimp only
  rw [Run.part_onPart, if_pos rfl]
  exact (hg _ _ _ _ _).trans hasked

/-- It stands in its slot as before, but for its reads. -/
theorem colls_collBegun (r : Run) (p slot : Nat) (x : Coll) :
    ∃ f : Coll → Coll, (∀ y, ∃ t, f y = { y with reads := t }) ∧ ((collBegun r p slot x).part p).colls = (r.part p).colls.upd slot f := by
  have hasked : ((collAsked r p x).part p).colls = (r.part p).colls := (collAsked_leaves r p x).2.2.get Partition.colls (fun _ _ => rfl) p
  rw [collBegun]
  dsimp only
  rw [Run.part_onPart, if_pos rfl, ← hasked]
  exact ⟨_, fun y => ⟨_, rfl⟩, rfl⟩

theorem reachable_collBegun (r : Run) (p slot : Nat) (x : Coll) (dev : Nat) : (collBegun r p slot x).reachable p dev = r.reachable p dev := by
  have hroutes : ((collBegun r p slot x).part p).routes = (r.part p).routes := part_collBegun Partition.routes (fun _ _ _ _ _ => rfl) r p slot x
  have hways : (collBegun r p slot x).waysTo p dev = r.waysTo p dev := by
    simp only [Run.waysTo, hroutes, (sends_collBegun r p slot x).up]
  rw [Run.reachable, Run.reachable, hways]

/-- A collective that has just begun, in its slot. -/
theorem get?_collBegun (hx : (r.part p).colls.get? slot = some x) :
    (∃ t, ((collBegun r p slot x).part p).colls.get? slot = some { x with reads := t }) ∧
    ∀ i, i ≠ slot → ((collBegun r p slot x).part p).colls.get? i = (r.part p).colls.get? i := by
  obtain ⟨f, hf, hcolls⟩ := colls_collBegun r p slot x
  obtain ⟨t, ht⟩ := hf x
  rw [hcolls]
  refine ⟨⟨t, ?_⟩, fun i hi => ?_⟩
  · rw [Tbl.get?_upd, if_pos rfl, hx, Option.map_some, ht]
  · rw [Tbl.get?_upd, if_neg hi]

theorem get?_collAbort {y : Coll} (hy : (r.part p).colls.get? slot = some y) (hst : y.status = none) (st : Nat × Nat × Nat) :
    ((collAbort r p slot st).part p).colls.get? slot = some { y with status := some st } := by
  rw [(collAbort_leaves hy hst st).2.2, Tbl.get?_upd, if_pos rfl, hy, Option.map_some, hst]
  rfl

/-- A collective that an abort ends as it begins. -/
structure CollAborted (r r' : Run) (p slot : Nat) (st : Nat × Nat × Nat) : Prop where
  sends : r.Sends r'
  ended : ∃ y, (r'.part p).colls.get? slot = some y ∧ y.status = some st

theorem collAborted_begun (hx : (r.part p).colls.get? slot = some x) (hst : x.status = none) (st : Nat × Nat × Nat) :
    CollAborted r (collAbort (collBegun r p slot x) p slot st) p slot st := by
  obtain ⟨⟨t, ht⟩, -⟩ := get?_collBegun hx
  exact ⟨(sends_collBegun r p slot x).trans (collAbort_leaves ht hst st).1, _, get?_collAbort ht hst st, rfl⟩

/-- The members of a group that cannot be reached: the first by rank. -/
theorem find?_unreached (r : Run) (p : Nat) (g : Group) {i : Nat} (hi : i < g.members.length ∧ i ≠ g.rank ∧ r.reachable p (g.members.getD i 0) = false)
    (hfirst : ∀ j, j < i → ¬(j < g.members.length ∧ j ≠ g.rank ∧ r.reachable p (g.members.getD j 0) = false)) :
    g.others.find? (fun m => !r.reachable p m.2) = some (i, g.members.getD i 0) := by
  obtain ⟨hlt, hne, hout⟩ := hi
  have hfind : ((List.range g.members.length).filter (fun i => i ≠ g.rank)).find? (fun i => !r.reachable p (g.members.getD i 0)) = some i := by
    rw [List.find?_filter, List.find?_range_eq_some]
    refine ⟨?_, List.mem_range.mpr hlt, fun j hj => ?_⟩
    · rw [hout]
      simpa using hne
    · have hno := hfirst j hj
      have hjlt : j < g.members.length := Nat.lt_trans hj hlt
      by_cases hr : j = g.rank
      · simp [hr]
      · cases hreach : r.reachable p (g.members.getD j 0) with
        | true => simp
        | false => exact absurd ⟨hjlt, hr, hreach⟩ hno
  rw [Group.others, List.find?_map]
  exact congrArg (Option.map fun i => (i, g.members.getD i 0)) hfind

theorem find?_reached (r : Run) (p : Nat) (g : Group)
    (h : ∀ i, ¬(i < g.members.length ∧ i ≠ g.rank ∧ r.reachable p (g.members.getD i 0) = false)) : g.others.find? (fun m => !r.reachable p m.2) = none := by
  rw [List.find?_eq_none]
  intro m hm hout
  obtain ⟨i, hi, rfl⟩ := List.mem_map.mp hm
  obtain ⟨hlt, hne⟩ := List.mem_filter.mp hi
  exact h i ⟨List.mem_range.mp hlt, of_decide_eq_true hne, by simpa using hout⟩

end

end Sys2Proof.Machine
end

section
/-! CLST (R514): what issuing it leaves. -/

namespace Sys2Proof.Machine

/-! ## A collective in its slot -/

/-- The collective a descriptor starts, in a slot. -/
def Run.newColl (r : Run) (c : Iss) (d : Desc) (g : Group) (sp rp : List (Nat × Nat × Nat)) (slot : Nat) : Coll where
  use := SMap.get 0 (r.part (r.partOf c.wid)).collUse slot + 1
  ctx := r.cidOf c.wid
  group := d.group
  gen := d.gen
  k := g.accepted
  det := r.det (r.wave c.wid)
  op := d.op
  red := d.red
  ty := d.ty
  send := BitVec.ofNat 64 d.send
  recv := BitVec.ofNat 64 d.recv
  count := d.count
  root := d.root
  status := if d.gen = g.gen then none else some (4, 0, 0xFFFF)
  sendPg := sp
  recvPg := rp
  lastIn := r.clk

/-- A run with a collective placed in a slot of a partition. -/
def collPlaced (r : Run) (p : Nat) (d : Desc) (g : Group) (slot : Nat) (x : Coll) : Run :=
  r.onPart p (fun q => { q with
    colls := q.colls.put slot x
    collUse := q.collUse.set 0 slot x.use
    groups := if d.gen = g.gen then q.groups.put d.group { g with accepted := g.accepted + 1 } else q.groups })

section
variable {r : Run} {c : Iss} {d : Desc} {g : Group} {sp rp : List (Nat × Nat × Nat)} {slot : Nat}

theorem find?_freeSlot {q : Partition} (h : slot < 64 ∧ q.colls.get? slot = none ∧ ∀ i, i < slot → q.colls.get? i ≠ none) :
    (List.range 64).find? (fun i => (q.colls.get? i).isNone) = some slot := by
  obtain ⟨hlt, hfree, hfirst⟩ := h
  refine List.find?_range_eq_some.mpr ⟨by rw [hfree]; rfl, List.mem_range.mpr hlt, fun j hj => ?_⟩
  have := hfirst j hj
  cases hc : q.colls.get? j with
  | none => exact absurd hc this
  | some x => rfl

/-- A collective starts in the lowest free slot. -/
theorem collStart_eq (o : Ops) (hslot : (List.range 64).find? (fun i => ((r.part (r.partOf c.wid)).colls.get? i).isNone) = some slot) :
    collStart d g o sp rp r c = .ok ((if d.gen = g.gen then
        collBegin (collPlaced r (r.partOf c.wid) d g slot (r.newColl c d g sp rp slot)) (r.partOf c.wid) slot (r.newColl c d g sp rp slot)
      else collPlaced r (r.partOf c.wid) d g slot (r.newColl c d g sp rp slot)).onWave c.wid
        (fun w => w.setS (scalarNum o.d).toNat (BitVec.ofNat 64 ((r.part (r.partOf c.wid)).handle slot)))) () := by
  rw [collStart]
  dsimp only
  rw [hslot]
  rfl

theorem part_collPlaced (r : Run) (p : Nat) (x : Coll) : (collPlaced r p d g slot x).part p = { r.part p with
    colls := (r.part p).colls.put slot x
    collUse := (r.part p).collUse.set 0 slot x.use
    groups := if d.gen = g.gen then (r.part p).groups.put d.group { g with accepted := g.accepted + 1 } else (r.part p).groups } :=
  (Run.part_onPart ..).trans (if_pos rfl)

theorem get?_collPlaced (r : Run) (p : Nat) (x : Coll) (i : Nat) :
    ((collPlaced r p d g slot x).part p).colls.get? i = if i = slot then some x else (r.part p).colls.get? i := by
  rw [part_collPlaced]
  exact Tbl.get?_put ..

theorem reachable_collPlaced (r : Run) (p : Nat) (x : Coll) (dev : Nat) : (collPlaced r p d g slot x).reachable p dev = r.reachable p dev := by
  have hroutes : ((collPlaced r p d g slot x).part p).routes = (r.part p).routes := by rw [part_collPlaced]
  have hways : (collPlaced r p d g slot x).waysTo p dev = r.waysTo p dev := by
    rw [Run.waysTo, hroutes]
    rfl
  rw [Run.reachable, Run.reachable, hways]

end

/-! ## What CLST checks -/

section
variable {s : State} {h : Hd} {o : Ops} {c : Iss}

theorem sameButWalks_preTranslateRange {y : Sys} {r t : Run} {core slot cid : Nat} {k : Want} {pc : Word64} {m : Lanes} {lo len : Nat} {ts : List (Nat × Xlat)}
    (h : preTranslateRange y r core slot cid k pc m lo len = .ok t ts) : r.SameButWalks t := by
  rw [preTranslateRange] at h
  split at h
  · exact nomatch h
  · exact nomatch h
  · exact sameButWalks_preTranslate h

theorem descBytes_here (r : Run) {pa : Nat} (h : isAper pa = false) : descBytes r pa = (memBytes r.mem pa 64, r) := by
  rw [descBytes, h]
  rfl

section
variable {r : Run} {l : Nat} {x : Xlat} {rest : List (Nat × Xlat)}
  (hg : globalChecks s.sys s.run c (c.act.toList.map (fun l => (l, (s.ssrc c o.a).toNat))) 64 true false true = .ok r ((l, x) :: rest))
  (hx : isAper x.pa = false)
include hg hx

/-- A descriptor that R510 does not allow. -/
theorem clstEff_bad (hd : readDescriptor (memBytes s.run.mem x.pa 64) = none) :
    clstEff o s.sys s.run c = .trap r { cls := 12, sub := 0x20, mask := c.act, cw := BitVec.ofNat 64 (s.ssrc c o.a).toNat } := by
  have hmem := (sameButWalks_preTranslate (globalChecks_ok_inv hg)).frame.read Run.mem fun _ _ _ => rfl
  rw [clstEff]
  dsimp only
  rw [hg]
  dsimp only [Eff.bind, List.head?_cons, Option.map_some, Option.getD_some]
  rw [descBytes_here r hx, hmem]
  dsimp only
  rw [hd]

/-- A descriptor that passes every check starts its collective. -/
theorem clstEff_starts (hq : Quiet s c) {e : Desc} {g : Group} {r1 r2 : Run} {ss rs : List (Nat × Xlat)}
    (hd : readDescriptor (memBytes s.run.mem x.pa 64) = some e) (hgroup : (s.run.part (s.run.partOf c.wid)).groups.get? e.group = some g)
    (hfits : e.fits g = true)
    (hranges : collRanges (s.wv c) (s.run.block (s.wv c).blk) c.act e (e.sizes g.members.length g.rank).1 (e.sizes g.members.length g.rank).2 = none)
    (hsend : preTranslateRange s.sys r (coreOf c.wid) (slotOf c.wid) (s.run.cidOf c.wid) { priv := (s.wv c).priv } c.pc c.act e.send
      (e.sizes g.members.length g.rank).1 = .ok r1 ss)
    (hrecv : preTranslateRange s.sys r1 (coreOf c.wid) (slotOf c.wid) (s.run.cidOf c.wid) { priv := (s.wv c).priv, write := true } c.pc c.act e.recv
      (e.sizes g.members.length g.rank).2 = .ok r2 rs) :
    SameButTlb s.run r2 ∧ clstEff o s.sys s.run c = collStart e g o (heldPages ss) (heldPages rs) r2 c := by
  have hframe := (sameButWalks_preTranslate (globalChecks_ok_inv hg)).frame
  have hmem := hframe.read Run.mem fun _ _ _ => rfl
  have hpart := hframe.read (fun r => r.part (r.partOf c.wid)) fun _ _ _ => rfl
  have hblock := hframe.read (fun r => r.block (s.wv c).blk) fun _ _ _ => rfl
  have hlast : SameButTlb s.run r2 := hframe.trans ((sameButWalks_preTranslateRange hsend).frame.trans (sameButWalks_preTranslateRange hrecv).frame)
  have hwave := hlast.read (fun r => r.wave c.wid) fun _ _ _ => rfl
  have hquiet : Quiet { s with run := r2 } c := by
    rw [Quiet, State.wv, show ({ s with run := r2 } : State).run.wave c.wid = s.run.wave c.wid from hwave]
    exact hq
  refine ⟨hlast, ?_⟩
  rw [clstEff]
  dsimp only
  rw [hg]
  dsimp only [Eff.bind, List.head?_cons, Option.map_some, Option.getD_some]
  rw [descBytes_here r hx, hmem]
  dsimp only
  rw [hd]
  dsimp only
  rw [hpart, hgroup]
  dsimp only
  rw [hfits, hblock, if_neg (by decide)]
  rw [show collRanges (s.run.wave c.wid) (s.run.block (s.run.wave c.wid).blk) c.act e (e.sizes g.members.length g.rank).1 (e.sizes g.members.length g.rank).2 = none
    from hranges]
  dsimp only
  rw [hsend]
  dsimp only
  rw [hrecv]
  exact ordered_of_quiet (s := { s with run := r2 }) hquiet true true _ s.sys

end

end

end Sys2Proof.Machine
end

section
/-! O48: collectives (R510 to R518). -/

namespace Sys2Proof.Machine

/-! ## CLST (R514) -/

/-- Where the effect of a CLST leaves the waves but their monitors and sets its destination, the instruction completes so. -/
theorem clst_completes {s : State} {h : Hd} {o : Ops} {c : Iss} {d : BitVec 7} {R : Run} {v : Word64} (hI : Issues s h c (usesOf h o)) (hq : Quiet s c)
    (hd : o.d = .s d) (hw : SameButMon s.run R)
    (he : clstEff o s.sys s.run c = .ok (R.onWave c.wid (fun w => w.setS (scalarNum o.d).toNat v)) ()) {P : Run → Prop}
    (hP : ∀ t : Run, t.mem = R.mem → t.parts = R.parts → P t) :
    Completes (exec (.clst h o) s) (fun t => P t.run ∧ RegsKept (s.wv c) (t.wv c) c.act [(o.d, 1)] ∧ (t.wv c).sReg d.toNat = v) := by
  obtain ⟨w, hwv, -, hww⟩ := Run.issuer_wave _ _ _ hI.1
  obtain ⟨m, hm⟩ := hw.get hwv
  rw [hd] at he ⊢
  have heff : ordered false false (clstEff o) s.sys s.run c = .ok (R.onWave c.wid (fun w => w.setS d.toNat v)) () := (ordered_of_quiet hq false false _ _).trans he
  refine ⟨_, issue_ok' (k := { uses := usesOf h o, closer := true }) hI (.inl rfl) (.inl rfl) rfl heff, hP _ ?_ ?_, ?_, ?_⟩
  · have hf := congrArg Run.mem ((R.onWave c.wid (fun w => w.setS d.toNat v)).retire_frame c h { uses := usesOf h o, closer := true })
    exact hf
  · have hf := congrArg Run.parts ((R.onWave c.wid (fun w => w.setS d.toNat v)).retire_frame c h { uses := usesOf h o, closer := true })
    exact hf
  · rw [State.wv, State.wv, hww, wave_onWave_retire hm]
    have hset : RegsKept { w with mon := m } (({ w with mon := m } : Wave).setS d.toNat v) c.act [(.s d, 1)] := regsKept_setS _ d v c.act
    exact hset.retired
  · rw [State.wv, wave_onWave_retire hm, Wave.sReg_retired, Wave.sReg_setS, if_pos rfl]

/-! ## How a collective begins -/

section
variable {r : Run} {p slot : Nat} {x : Coll} (hx : (r.part p).colls.get? slot = some x) (hst : x.status = none)
include hx hst

theorem collBegin_aborted {n : Nat × Nat × Nat × Nat × Nat} (ha : (r.part p).aborts.find? x.abortedBy = some n) :
    CollAborted r (collBegin r p slot x) p slot (3, n.2.2.2.2 % 4, n.2.2.2.1) := by
  rw [collBegin_eq, ha]
  exact collAborted_begun hx hst _

theorem collBegin_unlike {n : PeerDesc} (ha : (r.part p).aborts.find? x.abortedBy = none) (hd : (r.part p).peers.find? x.unlike = some n) :
    CollAborted r (collBegin r p slot x) p slot (3, 1, n.rank) := by
  rw [collBegin_eq, ha, hd]
  exact collAborted_begun hx hst _

omit hx hst in
/-- The link check as a collective begins is that of the run before. -/
theorem collLink_begun {g : Group} (hg : (r.part p).groups.get? x.group = some g) : collLink (collBegun r p slot x) p slot x =
    match g.others.find? (fun m => !r.reachable p m.2) with
    | some m => collAbort (collBegun r p slot x) p slot (1, 0, m.1)
    | none => collBegun r p slot x := by
  have hgroups : ((collBegun r p slot x).part p).groups = (r.part p).groups := part_collBegun Partition.groups (fun _ _ _ _ _ => rfl) r p slot x
  have hreach : (fun m : Nat × Nat => !(collBegun r p slot x).reachable p m.2) = fun m => !r.reachable p m.2 :=
    funext fun m => congrArg (!·) (reachable_collBegun r p slot x m.2)
  rw [collLink, hgroups, hg, Option.getD_some, hreach] <;> rfl

theorem collBegin_cut {g : Group} (hg : (r.part p).groups.get? x.group = some g) (ha : (r.part p).aborts.find? x.abortedBy = none)
    (hd : (r.part p).peers.find? x.unlike = none) {m : Nat × Nat} (hm : g.others.find? (fun m => !r.reachable p m.2) = some m) :
    CollAborted r (collBegin r p slot x) p slot (1, 0, m.1) := by
  rw [collBegin_eq, ha, hd]
  dsimp only
  rw [collLink_begun hg, hm]
  exact collAborted_begun hx hst _

omit hx hst in
theorem collBegin_runs {g : Group} (hg : (r.part p).groups.get? x.group = some g) (ha : (r.part p).aborts.find? x.abortedBy = none)
    (hd : (r.part p).peers.find? x.unlike = none) (hm : g.others.find? (fun m => !r.reachable p m.2) = none) :
    collBegin r p slot x = collBegun r p slot x := by
  rw [collBegin_eq, ha, hd]
  dsimp only
  rw [collLink_begun hg, hm]

end

/-! ## CLST that passes its checks -/

/-- A CLST that has passed its checks: the run then, its descriptor, group, pages and slot. -/
structure Clst (s : State) (h : Hd) (o : Ops) (c : Iss) (d : BitVec 7) (e : Desc) (g : Group) (r : Run) (sp rp : List (Nat × Nat × Nat)) (slot : Nat) : Prop where
  issues : Issues s h c (usesOf h o)
  quiet : Quiet s c
  dst : o.d = .s d
  frame : SameButTlb s.run r
  starts : clstEff o s.sys s.run c = collStart e g o sp rp r c
  group : (s.run.part (s.run.partOf c.wid)).groups.get? e.group = some g
  free : slot < 64 ∧ (s.run.part (s.run.partOf c.wid)).colls.get? slot = none ∧
    ∀ i, i < slot → (s.run.part (s.run.partOf c.wid)).colls.get? i ≠ none

section
variable {s : State} {h : Hd} {o : Ops} {c : Iss} {d : BitVec 7} {e : Desc} {g : Group} {r : Run} {sp rp : List (Nat × Nat × Nat)} {slot : Nat}

/-- The run with its collective placed, before it begins. -/
def placedFor (s : State) (c : Iss) (e : Desc) (g : Group) (r : Run) (sp rp : List (Nat × Nat × Nat)) (slot : Nat) : Run :=
  collPlaced r (s.run.partOf c.wid) e g slot (r.newColl c e g sp rp slot)

variable (hc : Clst s h o c d e g r sp rp slot)
include hc

theorem Clst.part (k : Nat) : r.part k = s.run.part k := hc.frame.read (fun r => r.part k) fun _ _ _ => rfl

theorem Clst.partOf : r.partOf c.wid = s.run.partOf c.wid := hc.frame.read (fun r => r.partOf c.wid) fun _ _ _ => rfl

theorem Clst.get?_placed (i : Nat) : ((placedFor s c e g r sp rp slot).part (s.run.partOf c.wid)).colls.get? i =
    if i = slot then some (r.newColl c e g sp rp slot) else (s.run.part (s.run.partOf c.wid)).colls.get? i := by
  rw [placedFor, get?_collPlaced, hc.part]

theorem Clst.waves_placed : (placedFor s c e g r sp rp slot).waves = s.run.waves := hc.frame.read Run.waves fun _ _ _ => rfl

theorem Clst.mem_placed : (placedFor s c e g r sp rp slot).mem = s.run.mem := hc.frame.read Run.mem fun _ _ _ => rfl

theorem Clst.reachable_placed (dev : Nat) : (placedFor s c e g r sp rp slot).reachable (s.run.partOf c.wid) dev = s.run.reachable (s.run.partOf c.wid) dev :=
  (reachable_collPlaced ..).trans (hc.frame.read (fun r => r.reachable (s.run.partOf c.wid) dev) fun _ _ _ => rfl)

theorem Clst.group_placed (hlive : e.gen = g.gen) : ((placedFor s c e g r sp rp slot).part (s.run.partOf c.wid)).groups.get? e.group =
    some { g with accepted := g.accepted + 1 } := by
  rw [placedFor, part_collPlaced]
  dsimp only
  rw [if_pos hlive, Tbl.get?_put, if_pos rfl]

theorem Clst.kept_placed : ((placedFor s c e g r sp rp slot).part (s.run.partOf c.wid)).aborts = (s.run.part (s.run.partOf c.wid)).aborts ∧
    ((placedFor s c e g r sp rp slot).part (s.run.partOf c.wid)).peers = (s.run.part (s.run.partOf c.wid)).peers := by
  rw [placedFor, part_collPlaced, hc.part]
  exact ⟨rfl, rfl⟩

/-- What a CLST completes with: the run that its collective leaves, and its handle. -/
theorem Clst.completes {R : Run} (hR : R = if e.gen = g.gen then collBegin (placedFor s c e g r sp rp slot) (s.run.partOf c.wid) slot (r.newColl c e g sp rp slot)
      else placedFor s c e g r sp rp slot) (hw : SameButMon (placedFor s c e g r sp rp slot) R) {P : Run → Prop}
    (hP : ∀ t : Run, t.mem = R.mem → t.parts = R.parts → P t) :
    Completes (exec (.clst h o) s) (fun t => P t.run ∧ RegsKept (s.wv c) (t.wv c) c.act [(o.d, 1)] ∧
      (t.wv c).sReg d.toNat = BitVec.ofNat 64 (slot + 64 * (SMap.get 0 (s.run.part (s.run.partOf c.wid)).collUse slot + 1))) := by
  have hslot : (List.range 64).find? (fun i => ((r.part (r.partOf c.wid)).colls.get? i).isNone) = some slot := by
    rw [hc.partOf, hc.part]
    exact find?_freeSlot hc.free
  have he := hc.starts.trans (collStart_eq o hslot)
  rw [hc.partOf, hc.part] at he
  exact clst_completes hc.issues hc.quiet hc.dst ((SameButMon.of_waves hc.waves_placed).trans hw) (hR ▸ he) hP

/-- A CLST whose collective ends as it begins. -/
theorem Clst.ends (hlive : e.gen = g.gen) {st : Nat × Nat × Nat}
    (ha : CollAborted (placedFor s c e g r sp rp slot) (collBegin (placedFor s c e g r sp rp slot) (s.run.partOf c.wid) slot (r.newColl c e g sp rp slot))
      (s.run.partOf c.wid) slot st) :
    Completes (exec (.clst h o) s) (fun t => RegsKept (s.wv c) (t.wv c) c.act [(o.d, 1)] ∧
      (t.wv c).sReg d.toNat = BitVec.ofNat 64 (slot + 64 * (SMap.get 0 (s.run.part (s.run.partOf c.wid)).collUse slot + 1)) ∧
      ∃ y, (t.run.part (s.run.partOf c.wid)).colls.get? slot = some y ∧ y.status = some st) := by
  obtain ⟨y, hy, hst⟩ := ha.ended
  refine (hc.completes (if_pos hlive).symm ha.sends.waves (P := fun t => (t.part (s.run.partOf c.wid)).colls.get? slot = some y) fun t _ hparts => ?_).imp
    fun t ⟨hcoll, hregs, hval⟩ => ⟨hregs, hval, y, hcoll, hst⟩
  rw [Run.part, hparts]
  exact hy

/-- A CLST whose collective runs, or belongs to an earlier generation. -/
theorem Clst.stands {R : Run} (hR : R = if e.gen = g.gen then collBegin (placedFor s c e g r sp rp slot) (s.run.partOf c.wid) slot (r.newColl c e g sp rp slot)
      else placedFor s c e g r sp rp slot) (hw : SameButMon (placedFor s c e g r sp rp slot) R) (hm : R.mem = s.run.mem) {t0 : Option Nat}
    (hget : (R.part (s.run.partOf c.wid)).colls.get? slot = some { r.newColl c e g sp rp slot with reads := t0 })
    (hothers : ∀ i, i ≠ slot → (R.part (s.run.partOf c.wid)).colls.get? i = (s.run.part (s.run.partOf c.wid)).colls.get? i) :
    Completes (exec (.clst h o) s) (fun t => t.run.mem = s.run.mem ∧ RegsKept (s.wv c) (t.wv c) c.act [(o.d, 1)] ∧
      (t.wv c).sReg d.toNat = BitVec.ofNat 64 (slot + 64 * (SMap.get 0 (s.run.part (s.run.partOf c.wid)).collUse slot + 1)) ∧
      ∃ y, (t.run.part (s.run.partOf c.wid)).colls.get? slot = some y ∧ y.group = e.group ∧ y.gen = e.gen ∧ y.op = e.op ∧ y.count = e.count ∧
        y.ctx = s.run.cidOf c.wid ∧ y.k = g.accepted ∧ y.status = (if e.gen = g.gen then none else some (4, 0, 0xFFFF)) ∧
        ∀ i, i ≠ slot → (t.run.part (s.run.partOf c.wid)).colls.get? i = (s.run.part (s.run.partOf c.wid)).colls.get? i) := by
  have hcid : r.cidOf c.wid = s.run.cidOf c.wid := hc.frame.read (fun r => r.cidOf c.wid) fun _ _ _ => rfl
  refine (hc.completes hR hw (P := fun t => t.mem = s.run.mem ∧ t.part (s.run.partOf c.wid) = R.part (s.run.partOf c.wid)) fun t hmem hparts => ?_).imp
    fun t ⟨⟨hmem, hpart⟩, hregs, hval⟩ => ⟨hmem, hregs, hval, _, (by rw [hpart]; exact hget), rfl, rfl, rfl, rfl, hcid, rfl, rfl, fun i hi => by
      rw [hpart]; exact hothers i hi⟩
  exact ⟨hmem.trans hm, by rw [Run.part, hparts]; rfl⟩

end

end Sys2Proof.Machine
end

section
/-! O48, settled: CLWT, CLQ and the engine's steps (R511, R515 to R518). -/

namespace Sys2Proof.Machine

/-! ## CLWT and CLQ (R515, R516) -/

section
variable {s : State} {h : Hd} {o : Ops} {c : Iss} {d : BitVec 7}

/-- A handle that names no open collective of the wave's context. -/
theorem withHandle_traps (k : Run → Iss → Nat → Coll → Eff Unit)
    (hno : ¬∃ y, (s.run.part (s.run.partOf c.wid)).colls.get? ((s.ssrc c o.a).toNat % 64) = some y ∧ y.use = (s.ssrc c o.a).toNat / 64 ∧ y.ctx = s.run.cidOf c.wid) :
    withHandle o k s.sys s.run c = .trap s.run { cls := 12, sub := 0x21, mask := c.act, cw := BitVec.ofNat 64 (s.ssrc c o.a).toNat } := by
  have hnone : s.run.collOf c.wid (s.run.rdScalar c.wid o.a 0 c.act.lowest).toNat = none := by
    rw [Run.collOf]
    split
    · next x hx => exact if_neg fun h => hno ⟨x, hx, h⟩
    · rfl
  rw [withHandle, hnone]

theorem withHandle_names (k : Run → Iss → Nat → Coll → Eff Unit) {y : Coll}
    (hy : (s.run.part (s.run.partOf c.wid)).colls.get? ((s.ssrc c o.a).toNat % 64) = some y) (huse : y.use = (s.ssrc c o.a).toNat / 64)
    (hctx : y.ctx = s.run.cidOf c.wid) : withHandle o k s.sys s.run c = k s.run c ((s.ssrc c o.a).toNat % 64) y := by
  have hsome : s.run.collOf c.wid (s.run.rdScalar c.wid o.a 0 c.act.lowest).toNat = some ((s.ssrc c o.a).toNat % 64, y) := by
    rw [Run.collOf, hy]
    exact if_pos ⟨huse, hctx⟩
  rw [withHandle, hsome]

/-- The status word goes to the destination. -/
theorem putStatus_eq (o : Ops) (r : Run) (c : Iss) (x : Coll) :
    putStatus o r c x = r.onWave c.wid (fun w => w.setS (scalarNum o.d).toNat (BitVec.ofNat 64 x.word)) := rfl

/-- CLQ reads a word. -/
theorem clq_completes (hI : Issues s h c (usesOf h o)) (hd : o.d = .s d) {v : Word64}
    (he : withHandle o (fun r c _ x => .ok (putStatus o r c x) ()) s.sys s.run c =
      .ok (s.run.onWave c.wid (fun w => w.setS (scalarNum o.d).toNat v)) ()) :
    Completes (exec (.clq h o) s) (fun t => RegFrame s t c [(o.d, 1)] ∧ MovedOn s t c ∧ (t.wv c).sReg d.toNat = v) := by
  refine (issue_regs (us := usesOf h o) (vec := false) (f := fun w => w.setS (scalarNum o.d).toNat v) (ds := [(o.d, 1)]) hI he rfl ?_ rfl).imp ?_
  · rw [hd]
    exact regsKept_setS _ d _ _
  · intro t ⟨hf, hm, hu⟩
    refine ⟨hf, hm, ?_⟩
    rw [hu, Wave.retired_read (fun w => w.sReg d.toNat) (fun _ _ _ _ _ => rfl), hd]
    exact (Wave.sReg_setS _ _ _ _).trans (if_pos rfl)

/-- A run whose wave has a word, and whose partition has a slot freed. -/
def slotFreed (o : Ops) (r : Run) (c : Iss) (slot : Nat) (v : Word64) : Run :=
  (r.onWave c.wid (fun w => w.setS (scalarNum o.d).toNat v)).onPart (r.partOf c.wid) (fun q => { q with colls := q.colls.del slot })

/-- CLWT of a collective that is over reads the word and frees the slot. -/
theorem clwt_completes (hI : Issues s h c (usesOf h o)) (hd : o.d = .s d) {v : Word64} {slot : Nat}
    (he : withHandle o (fun r c slot x => if x.status.isNone then .park r (.retry (.collective slot))
        else .ok ((putStatus o r c x).onPart (r.partOf c.wid) (fun q => { q with colls := q.colls.del slot })) ()) s.sys s.run c =
      .ok (slotFreed o s.run c slot v) ()) :
    Completes (exec (.clwt h o) s) (fun t => t.run.mem = s.run.mem ∧ MovedOn s t c ∧ RegsKept (s.wv c) (t.wv c) c.act [(o.d, 1)] ∧
      (t.wv c).sReg d.toNat = v ∧ (t.run.part (s.run.partOf c.wid)).colls.get? slot = none) := by
  obtain ⟨w, hwv, -, hww⟩ := Run.issuer_wave _ _ _ hI.1
  have hset : (slotFreed o s.run c slot v).waves.get? c.wid = some (w.setS d.toNat v) := by
    rw [slotFreed, Run.onPart_waves, Run.get_onWave, if_pos rfl, hwv, hd]
    rfl
  have hwave := Run.wave_retire (slotFreed o s.run c slot v) c h { uses := usesOf h o } _ hset
  have hframe := (slotFreed o s.run c slot v).retire_frame c h { uses := usesOf h o }
  refine ⟨_, issue_ok' (k := { uses := usesOf h o }) hI (.inl rfl) (.inl rfl) rfl he, ?_, ?_, ?_, ?_, ?_⟩
  · have e := congrArg Run.mem hframe
    exact e
  · rw [MovedOn, hww]
    exact (congrArg Wave.parts hwave).trans (by
      rw [Wave.retired_parts _ _ _ _ _ rfl rfl, Wave.advance_parts, Wave.onParts_parts]
      rfl)
  · rw [State.wv, State.wv, hww, hwave, hd]
    exact (regsKept_setS w d _ c.act).retired
  · rw [State.wv, hwave, Wave.sReg_retired, Wave.sReg_setS, if_pos rfl]
  · have e := congrArg (fun r => (r.part (s.run.partOf c.wid)).colls.get? slot) hframe
    refine e.trans ?_
    rw [slotFreed, Run.part_onPart, if_pos rfl, Tbl.get?_del, if_pos rfl]

end

/-! ## The engine's steps (R511, R517, R518) -/

section
variable {r : Run} {p slot : Nat} {y : Coll}

/-- A run whose engine has the members' bytes of a collective: its timeout starts again, and its own reads are done or not. -/
def exchanged (r : Run) (p slot : Nat) (f : Option Nat → Option Nat) : Run :=
  (collTouch r p slot).onPart p (fun q => { q with colls := q.colls.upd slot (fun x => { x with reads := f x.reads }) })

theorem get?_exchanged (hy : (r.part p).colls.get? slot = some y) (f : Option Nat → Option Nat) :
    ((exchanged r p slot f).part p).colls.get? slot = some { y with lastIn := r.clk, reads := f y.reads } := by
  rw [exchanged, collTouch, Run.part_onPart, if_pos rfl, Run.part_onPart, if_pos rfl, Tbl.get?_upd, if_pos rfl, Tbl.get?_upd, if_pos rfl, hy,
    Option.map_some, Option.map_some]

theorem not_heldFar {pg : List (Nat × Nat × Nat)} (h : ∀ e ∈ pg, isAper e.2.1 = false) : heldFar pg = false :=
  List.any_eq_false.mpr fun e he => by rw [h e he]; exact Bool.false_ne_true

/-- The members' SEND are all there. -/
theorem sends_there {g : Group} {xs : List (List Byte)} (hhere : heldFar y.sendPg = false)
    (hsizes : ∀ i, i < g.members.length → i ≠ g.rank → (xs.getD i []).length = (y.desc.sizes g.members.length i).1) :
    (List.range g.members.length).all (fun i => (i = g.rank && !heldFar y.sendPg) || (xs.getD i []).length = (y.desc.sizes g.members.length i).1) = true := by
  refine List.all_eq_true.mpr fun i hi => ?_
  rw [hhere]
  by_cases hr : i = g.rank
  · simp [hr]
  · rw [decide_eq_true (hsizes i (List.mem_range.mp hi) hr), Bool.or_true]

/-- The end of an exchange whose ranges lie on this device: RECV is written, and OK recorded. -/
theorem collDone_eq (hy : (r.part p).colls.get? slot = some y) (hst : y.status = none) {g : Group} (hg : (r.part p).groups.get? y.group = some g)
    {xs : List (List Byte)} (hout : y.out = []) (hhere : ∀ e ∈ y.sendPg ++ y.recvPg, isAper e.2.1 = false) (hlen : xs.length = g.members.length)
    (hsizes : ∀ i, i < g.members.length → i ≠ g.rank → (xs.getD i []).length = (y.desc.sizes g.members.length i).1) :
    ∃ f R bs, R.parts = (exchanged r p slot f).parts ∧ R.mem = r.mem ∧
      collDone r p slot xs = collEnd (writeHeld R y.ctx y.recvPg y.recv.toNat bs).2 p slot (0, 0, 0xFFFF) := by
  have hthere := sends_there (not_heldFar fun e he => hhere e (List.mem_append_left _ he)) hsizes
  have hnone := fun r bs => writeHeld_none (fun e he => hhere e (List.mem_append_right _ he)) r y.ctx y.recv.toNat bs
  have hopen : ¬(xs.length ≠ g.members.length ∨ !(List.range g.members.length).all (fun i => (i = g.rank && !heldFar y.sendPg) ||
      (xs.getD i []).length = (y.desc.sizes g.members.length i).1)) := by
    rw [hthere]
    exact fun h => h.elim (fun h => h hlen) (fun h => Bool.false_ne_true h)
  rw [collDone, hy]
  dsimp only
  rw [hg, Option.getD_some, hst, if_neg (by exact Bool.false_ne_true), if_neg (not_not_intro hout), if_neg hopen]
  refine ⟨fun t => if (xs.getD g.rank []).length = (y.desc.sizes g.members.length g.rank).1 then none else t, _, _, ?_, ?_, if_pos (hnone _ _)⟩
  · rfl
  · rfl

theorem collDone_ends (hy : (r.part p).colls.get? slot = some y) (hst : y.status = none) {g : Group} (hg : (r.part p).groups.get? y.group = some g)
    {xs : List (List Byte)} (hout : y.out = []) (hhere : ∀ e ∈ y.sendPg ++ y.recvPg, isAper e.2.1 = false) (hlen : xs.length = g.members.length)
    (hsizes : ∀ i, i < g.members.length → i ≠ g.rank → (xs.getD i []).length = (y.desc.sizes g.members.length i).1) :
    r.SameOutside y.recvPg (collDone r p slot xs) ∧ ∃ z, ((collDone r p slot xs).part p).colls.get? slot = some z ∧ z.status = some (0, 0, 0xFFFF) := by
  obtain ⟨f, R, bs, hR, hRm, he⟩ := collDone_eq hy hst hg hout hhere hlen hsizes
  obtain ⟨-, hparts, hmem⟩ := writes_writeHeld (pg := y.recvPg) R y.ctx y.recv.toNat bs
  have hcoll := get?_exchanged hy f
  have hwritten : ((writeHeld R y.ctx y.recvPg y.recv.toNat bs).2.part p).colls.get? slot = _ :=
    (congrArg (fun z : Tbl Partition => ((z.get? p).getD {}).colls.get? slot) (hparts.trans hR)).trans hcoll
  rw [he]
  exact ⟨(Run.SameOutside.of_mem hRm).trans hmem, _, get?_collEnd hwritten hst (0, 0, 0xFFFF), rfl⟩

/-- An abort, whatever its cause. -/
theorem collAbort_ends (hy : (r.part p).colls.get? slot = some y) (hst : y.status = none) (st : Nat × Nat × Nat) :
    r.SameOutside y.recvPg (collAbort r p slot st) ∧ ∃ z, ((collAbort r p slot st).part p).colls.get? slot = some z ∧ z.status = some st :=
  ⟨(collAbort_leaves hy hst st).2.1, _, get?_collAbort hy hst st, rfl⟩

end

/-! ## O48 -/

/-- Settles O48: a CLST by what it checks and by what ends its collective as it begins; CLWT and CLQ by the collective their handle names; the engine's
steps by what its writes through held pages leave. -/
theorem collectives : Obligations.Collectives := by
  unfold Obligations.Collectives
  refine ⟨?_, ?_, ?_⟩
  · intro s h o c d hI hd hq a w p q k r l x rest hg hx
    refine ⟨fun hdesc => ⟨{ cls := 12, sub := 0x20, mask := c.act, cw := BitVec.ofNat 64 a }, rfl, rfl, rfl, ?_⟩, ?_⟩
    · exact issue_trap (k := { uses := usesOf h o, closer := true }) hI (.inl rfl) (.inl rfl)
        ((ordered_of_quiet hq false false _ _).trans (clstEff_bad hg hx hdesc))
    · intro e g r1 ss r2 rs slot hdesc hgroup hfits sz hranges hsend hrecv hslot cut aborted unlike ends
      obtain ⟨hframe, hstarts⟩ := clstEff_starts hg hx hq hdesc hgroup hfits hranges hsend hrecv
      have hc : Clst s h o c d e g r2 (heldPages ss) (heldPages rs) slot := ⟨hI, hq, hd, hframe, hstarts, hgroup, hslot⟩
      have hx : ((placedFor s c e g r2 (heldPages ss) (heldPages rs) slot).part p).colls.get? slot =
          some (r2.newColl c e g (heldPages ss) (heldPages rs) slot) := (hc.get?_placed slot).trans (if_pos rfl)
      obtain ⟨habortsKept, hpeersKept⟩ := hc.kept_placed
      have hreach : (fun m : Nat × Nat => !(placedFor s c e g r2 (heldPages ss) (heldPages rs) slot).reachable p m.2) = fun m => !s.run.reachable p m.2 :=
        funext fun m => congrArg (!·) (hc.reachable_placed m.2)
      have hnew (hlive : e.gen = g.gen) : (r2.newColl c e g (heldPages ss) (heldPages rs) slot).status = none := if_pos hlive
      refine ⟨fun n hlive hn => hc.ends hlive (collBegin_aborted hx (hnew hlive) (habortsKept ▸ hn)),
        fun n hlive hno hn => hc.ends hlive (collBegin_unlike hx (hnew hlive) (habortsKept ▸ hno) (hpeersKept ▸ hn)),
        fun i hlive hno hlike hcut hfirst => ?_, fun hruns => ?_⟩
      · have hfound := find?_unreached s.run p g hcut hfirst
        rw [← hreach] at hfound
        exact hc.ends hlive (collBegin_cut (g := { g with accepted := g.accepted + 1 }) hx (hnew hlive) (hc.group_placed hlive) (habortsKept ▸ hno)
          (hpeersKept ▸ hlike) (m := (i, g.members.getD i 0)) hfound)
      · by_cases hlive : e.gen = g.gen
        · obtain ⟨hno, hlike, hin⟩ := hruns.resolve_left (not_not_intro hlive)
          have hall := find?_reached s.run p g hin
          rw [← hreach] at hall
          have hbegun := collBegin_runs (slot := slot) (x := r2.newColl c e g (heldPages ss) (heldPages rs) slot) (g := { g with accepted := g.accepted + 1 })
            (hc.group_placed hlive) (habortsKept ▸ hno) (hpeersKept ▸ hlike) hall
          obtain ⟨⟨t0, ht0⟩, hothers⟩ := get?_collBegun hx
          refine hc.stands ((if_pos hlive).trans hbegun).symm (sends_collBegun ..).waves ((mem_collBegun ..).trans hc.mem_placed) ht0 fun i hi => ?_
          exact (hothers i hi).trans ((hc.get?_placed i).trans (if_neg hi))
        · refine hc.stands (if_neg hlive).symm (.refl _) hc.mem_placed (t0 := none) hx fun i hi => ?_
          exact (hc.get?_placed i).trans (if_neg hi)
  · intro s h o c d hI hd v p named
    refine ⟨fun hno => ⟨{ cls := 12, sub := 0x21, mask := c.act, cw := BitVec.ofNat 64 v }, rfl, rfl, ?_, ?_⟩, ?_⟩
    · exact issue_trap (k := { uses := usesOf h o }) hI (.inl rfl) (.inl rfl) (withHandle_traps _ hno)
    · exact issue_trap (k := { uses := usesOf h o }) hI (.inl rfl) (.inl rfl) (withHandle_traps _ hno)
    · rintro y hy ⟨y', hy', huse, hctx⟩ z word
      obtain rfl : y = y' := Option.some.inj (hy.symm.trans hy')
      refine ⟨clq_completes hI hd (withHandle_names _ hy huse hctx), fun hst => ?_⟩
      have hover : y.status.isNone = false := by
        cases hs : y.status with
        | none => rw [hs] at hst; exact absurd hst Bool.false_ne_true
        | some z => rfl
      refine clwt_completes hI hd ((withHandle_names _ hy huse hctx).trans ?_)
      rw [hover, if_neg Bool.false_ne_true]
      rfl
  · intro s p slot y g hy hst hg outside
    refine ⟨fun xs hout hhere hlen hsizes => ⟨_, rfl, collDone_ends hy hst hg hout hhere hlen hsizes⟩,
      fun rank detail => ⟨_, rfl, collAbort_ends hy hst _⟩, fun hlate => ?_, fun hlate => ?_⟩
    · have habort : (if ((s.run.part p).colls.get? slot).any (s.run.collLate p) then collAbort s.run p slot (2, 0, 0xFFFF) else s.run) =
          collAbort s.run p slot (2, 0, 0xFFFF) := by
        rw [hy]
        exact if_pos hlate
      have hends := collAbort_ends hy hst (2, 0, 0xFFFF)
      rw [← habort] at hends
      exact ⟨_, rfl, hends⟩
    · have hsame : (if ((s.run.part p).colls.get? slot).any (s.run.collLate p) then collAbort s.run p slot (2, 0, 0xFFFF) else s.run) = s.run := by
        rw [hy]
        exact if_neg (by rw [Option.any_some, hlate]; exact Bool.false_ne_true)
      exact congrArg (fun r => Host.Outcome.next { s with run := r }) hsame

end Sys2Proof.Machine
end

section
/-! Rounding in the matrix engine (R160, R363, R364): a magnitude may be written with any exponent, a rounded magnitude is at most the
infinity's pattern, so that a group's sum is no signalling NaN and joins an accumulator as the addition of R171 has it. -/

namespace Sys2Proof.Machine

/-! ## A magnitude at another exponent -/

theorem log2_mul_two_pow {m : Nat} (hm : m ≠ 0) (k : Nat) : (m * 2 ^ k).log2 = m.log2 + k := by
  have hpos : m * 2 ^ k ≠ 0 := Nat.mul_ne_zero hm (Nat.two_pow_pos k).ne'
  rw [Nat.log2_eq_iff hpos, Nat.pow_add, Nat.add_right_comm, Nat.pow_add]
  exact ⟨Nat.mul_le_mul_right _ (Nat.log2_self_le hm), Nat.mul_lt_mul_of_pos_right Nat.lt_log2_self (Nat.two_pow_pos k)⟩

theorem roundAt_scale (rm : Rnd) (s : Bool) (m : Nat) (e q : Int) (k : Nat) :
    roundAt rm s (m * 2 ^ k) (e - k) q = roundAt rm s m e q := by
  unfold roundAt
  by_cases hlow : q ≤ e - k
  · have hshift : (e - q).toNat = k + (e - k - q).toNat := by omega
    rw [if_pos hlow, if_pos (by omega), hshift, Nat.pow_add, Nat.mul_assoc]
  rw [if_neg hlow]
  by_cases hmid : q ≤ e
  · obtain ⟨a, ha⟩ : ∃ a : Nat, e - q = a := ⟨(e - q).toNat, by omega⟩
    have hd : k = a + (q - (e - k)).toNat := by omega
    generalize hb : (q - (e - (k : Int))).toNat = b at hd ⊢
    rw [if_pos hmid, hd, Nat.pow_add, ← Nat.mul_assoc]
    simp only [Nat.mul_div_cancel _ (Nat.two_pow_pos b), Nat.mul_mod_left, ha, Int.toNat_natCast]
    cases rm <;> simp
  · have hd : (q - (e - k)).toNat = (q - e).toNat + k := by omega
    rw [if_neg hmid, hd]
    generalize (q - e).toNat = b
    have hk := Nat.two_pow_pos k
    have hdouble : 2 * (m % 2 ^ b * 2 ^ k) = 2 * (m % 2 ^ b) * 2 ^ k := by rw [Nat.mul_assoc]
    have hzero : (m % 2 ^ b * 2 ^ k = 0) = (m % 2 ^ b = 0) := by simp
    simp only [Nat.pow_add, Nat.mul_div_mul_right _ _ hk, Nat.mul_mod_mul_right, hdouble, Nat.mul_lt_mul_right hk,
      Nat.mul_left_inj hk.ne', ne_eq, hzero]

theorem Fmt.round_scale (f : Fmt) (rm : Rnd) (ftz s : Bool) {m : Nat} (hm : m ≠ 0) (e : Int) (k : Nat) :
    f.round rm ftz s (m * 2 ^ k) (e - k) = f.round rm ftz s m e := by
  have htop : e - k + ((m * 2 ^ k).log2 : Int) = e + m.log2 := by rw [log2_mul_two_pow hm]; omega
  unfold Fmt.round
  simp only [htop]
  by_cases hover : (f.bias : Int) + 1 < e + m.log2
  · rw [if_pos hover, if_pos hover]
  rw [if_neg hover, if_neg hover]
  by_cases htiny : e + m.log2 < f.emin - f.mb - 2
  · simp only [if_pos htiny]
  · simp only [if_neg htiny, roundAt_scale]

theorem Fmt.result_scale (f : Fmt) (rm : Rnd) (ftz s z : Bool) (m : Nat) (e : Int) (k : Nat) :
    f.result rm ftz s z (m * 2 ^ k) (e - k) = f.result rm ftz s z m e := by
  unfold Fmt.result
  by_cases hm : m = 0
  · rw [hm, Nat.zero_mul, if_pos rfl, if_pos rfl]
  · rw [if_neg hm, if_neg (Nat.mul_ne_zero hm (Nat.two_pow_pos k).ne'), f.round_scale rm ftz s hm]

/-! ## What a rounded magnitude lies between -/

theorem roundAt_near (rm : Rnd) (s : Bool) (m : Nat) {e q : Int} (hq : ¬q ≤ e) :
    m / 2 ^ (q - e).toNat ≤ (roundAt rm s m e q).1 ∧ (roundAt rm s m e q).1 ≤ m / 2 ^ (q - e).toNat + 1 := by
  have near (up : Bool) (n : Nat) : n ≤ (if up = true then n + 1 else n) ∧ (if up = true then n + 1 else n) ≤ n + 1 := by
    cases up <;> simp
  unfold roundAt
  rw [if_neg hq]
  exact near _ _

theorem roundAt_le (rm : Rnd) (s : Bool) {m : Nat} {e q : Int} {k : Nat} (hk : e + m.log2 + 1 ≤ q + k) : (roundAt rm s m e q).1 ≤ 2 ^ k := by
  have hlt : m < 2 ^ (m.log2 + 1) := Nat.lt_log2_self
  by_cases hq : q ≤ e
  · rw [roundAt, if_pos hq]
    calc m * 2 ^ (e - q).toNat ≤ 2 ^ (m.log2 + 1) * 2 ^ (e - q).toNat := Nat.mul_le_mul_right _ hlt.le
      _ = 2 ^ (m.log2 + 1 + (e - q).toNat) := (Nat.pow_add ..).symm
      _ ≤ 2 ^ k := Nat.pow_le_pow_right (by decide) (by omega)
  · have hdiv : m / 2 ^ (q - e).toNat < 2 ^ k := by
      rw [Nat.div_lt_iff_lt_mul (Nat.two_pow_pos _), ← Nat.pow_add]
      exact hlt.trans_le (Nat.pow_le_pow_right (by decide) (by omega))
    exact (roundAt_near rm s m hq).2.trans hdiv

theorem le_roundAt (rm : Rnd) (s : Bool) {m : Nat} (hm : m ≠ 0) {e q : Int} {k : Nat} (hk : q + k ≤ e + m.log2) :
    2 ^ k ≤ (roundAt rm s m e q).1 := by
  have hle : 2 ^ m.log2 ≤ m := Nat.log2_self_le hm
  by_cases hq : q ≤ e
  · rw [roundAt, if_pos hq]
    calc 2 ^ k ≤ 2 ^ (m.log2 + (e - q).toNat) := Nat.pow_le_pow_right (by decide) (by omega)
      _ = 2 ^ m.log2 * 2 ^ (e - q).toNat := Nat.pow_add ..
      _ ≤ m * 2 ^ (e - q).toNat := Nat.mul_le_mul_right _ hle
  · have hdiv : 2 ^ k ≤ m / 2 ^ (q - e).toNat := by
      rw [Nat.le_div_iff_mul_le (Nat.two_pow_pos _), ← Nat.pow_add]
      exact (Nat.pow_le_pow_right (by decide) (by omega)).trans hle
    exact hdiv.trans (roundAt_near rm s m hq).1

/-- A significand rounded at the place its binade gives, or at the lowest, and not past the largest binade, has a pattern below infinity. -/
theorem fmt32_pattern_le {top q : Int} {n : Nat} (hq : q = max (top - 23) (-149)) (hhi : n ≤ 2 ^ 24) (hlo : -149 < q → 2 ^ 23 ≤ n)
    (hno : ¬(127 < q + n.log2 ∧ n ≠ 0)) : (q - -149).toNat * 2 ^ 23 + n ≤ 255 * 2 ^ 23 := by
  by_cases hlow : q = -149
  · rw [hlow]; simp only [sub_self, Int.toNat_zero]; omega
  have hn : 2 ^ 23 ≤ n := hlo (by omega)
  have hlog : 23 ≤ n.log2 := (Nat.le_log2 (by omega)).2 hn
  by_cases hfull : n = 2 ^ 24
  · have hlog : 24 ≤ n.log2 := (Nat.le_log2 (by omega)).2 hfull.ge
    omega
  · omega

/-- What a magnitude rounds to, where it stays within the largest binade, has a pattern of at most infinity's. -/
theorem fmt32_rounded_le (s : Bool) {m : Nat} (hm : m ≠ 0) {e q : Int} (hq : q = max (e + m.log2 - fmt32.mb) (fmt32.emin - fmt32.mb))
    (hno : ¬((fmt32.bias : Int) < q + (roundAt .rne s m e q).1.log2 ∧ (roundAt .rne s m e q).1 ≠ 0)) :
    (q - (fmt32.emin - fmt32.mb)).toNat * 2 ^ fmt32.mb + (roundAt .rne s m e q).1 ≤ fmt32.inf := by
  have hbias : (fmt32.bias : Int) = 127 := by decide
  have hlow : fmt32.emin - fmt32.mb = -149 := by decide
  have hfrac : (fmt32.mb : Int) = 23 := rfl
  rw [hbias] at hno
  rw [hlow, hfrac] at hq
  rw [hlow]
  exact fmt32_pattern_le hq (roundAt_le .rne s (by omega)) (fun hq => le_roundAt .rne s hm (by omega)) hno

theorem fmt32_round_le (ftz s : Bool) {m : Nat} (hm : m ≠ 0) (e : Int) : (fmt32.round .rne ftz s m e).1 ≤ fmt32.inf := by
  unfold Fmt.round
  by_cases hover : (fmt32.bias : Int) + 1 < e + m.log2
  · exact (if_pos hover ▸ Nat.le_refl fmt32.inf)
  simp only [if_neg hover]
  by_cases htiny : e + (m.log2 : Int) < fmt32.emin - fmt32.mb - 2
  · simp only [if_pos htiny]
    split
    · exact Nat.le_refl _
    next hno =>
      split
      · exact Nat.zero_le _
      · exact fmt32_rounded_le s Nat.one_ne_zero rfl hno
  · simp only [if_neg htiny]
    split
    · exact Nat.le_refl _
    next hno =>
      split
      · exact Nat.zero_le _
      · exact fmt32_rounded_le s hm rfl hno

/-! ## A group's sum as a term -/

theorem fmt32_decode_quiet (ftz s : Bool) {p : Nat} (hp : p ≤ fmt32.inf) : (fmt32.decode ftz (fmt32.neg s + p)).isSnan = false := by
  have hinf : fmt32.inf = 2139095040 := by decide
  have hneg : fmt32.neg s = 2147483648 ∨ fmt32.neg s = 0 := by cases s <;> simp [Fmt.neg, Fmt.signBit, fmt32]
  rw [hinf] at hp
  unfold Fmt.decode
  have hexp : (2 : Nat) ^ fmt32.mb = 8388608 := by decide
  have htop : (2 : Nat) ^ fmt32.eb = 256 := by decide
  simp only [hexp, htop]
  split
  · rw [if_pos (by omega)]; rfl
  · split <;> rfl

theorem fmt32_result_quiet (ftz s z : Bool) (m : Nat) (e : Int) : (fmt32.decode false (fmt32.result .rne ftz s z m e).1).isSnan = false := by
  unfold Fmt.result
  by_cases hm : m = 0
  · rw [if_pos hm]; exact fmt32_decode_quiet false z (Nat.zero_le _)
  · rw [if_neg hm]; exact fmt32_decode_quiet false s (fmt32_round_le ftz s hm e)

theorem groupSum_quiet (ps : List (FV × Bool)) : (fmt32.decode false (groupSum ps).1).isSnan = false := by
  unfold groupSum
  dsimp only
  split
  · exact (by decide : (fmt32.decode false fmt32.qnan).isSnan = false)
  split
  · exact fmt32_decode_quiet false _ (Nat.le_refl _)
  split
  · rfl
  · exact fmt32_result_quiet false _ false _ _

/-- The chained addition of a group's sum is the addition of R171 under the engine's control (R364). -/
theorem accAdd_eq_add (acc : Nat) {g : Nat} (hg : (fmt32.decode false g).isSnan = false) :
    accAdd acc (fmt32.decode false g, false) = fmt32.add engineCtl acc g := by
  unfold accAdd Fmt.add
  have hftz : engineCtl.ftz = false := rfl
  simp only [hftz]
  generalize fmt32.decode false acc = a at *
  generalize fmt32.decode false g = b at *
  have hflags : (if (false || a.isSnan) = true then fIV else 0) = snanFlags [a, b] := by
    rw [snanFlags, List.any_cons, List.any_cons, hg, List.any_nil, Bool.or_false, Bool.or_false, Bool.false_or]
  have hnan := congrArg (Prod.mk fmt32.qnan) hflags
  cases a with
  | nan => cases b <;> exact hnan
  | inf =>
    cases b with
    | nan => exact hnan
    | inf | fin => rfl
  | fin =>
    cases b with
    | nan => exact hnan
    | inf | fin => rfl

end Sys2Proof.Machine
end

section
/-! The sum of a group of exact terms, written out (R363), and the codes and scale word of a block (R355 to R357). -/

namespace Sys2Proof.Machine

/-! ## The sum of a group -/

/-- The terms of a group that are not zero, as `groupSum` lists them. -/
def finTerms (ps : List (Bool × Nat)) : List (Bool × Nat × Int) := (ps.filter (fun p => p.2 ≠ 0)).map (fun p => (p.1, p.2, 0))

/-- A term cut to a multiple of `w`, signed. -/
def cutTerm (w : Nat) (p : Bool × Nat) : Int := if p.1 then -((p.2 / w * w : Nat) : Int) else (p.2 / w * w : Nat)

/-- The largest magnitude. -/
def largest (ps : List (Bool × Nat)) : Nat := ps.foldl (fun a p => max a p.2) 0

/-- The sign of an infinite term. -/
def infSign (p : FV × Bool) : Option Bool := match p.1 with | .inf s => some s | _ => none

/-- A finite term that is not zero. -/
def finTerm (p : FV × Bool) : Option (Bool × Nat × Int) := match p.1 with | .fin s m e => if m = 0 then none else some (s, m, e) | _ => none

/-- The sum of the cut terms at a place, as `groupSum` forms it, and whether bits were lost. -/
def cutSum (nums : List (Bool × Nat × Int)) (q : Int) : Int × Bool :=
  nums.foldl (fun (acc : Int × Bool) (p : Bool × Nat × Int) =>
    (acc.1 + (if p.1 then -((cutAt p.2.1 p.2.2 q).1 : Int) else (cutAt p.2.1 p.2.2 q).1), acc.2 || (cutAt p.2.1 p.2.2 q).2)) ((0 : Int), false)

/-- The terms cut 47 bits below a top, added and rounded. -/
def roundedAt (nums : List (Bool × Nat × Int)) (top : Int) : Nat × Nat :=
  let y := cutSum nums (top - 47)
  let r := fmt32.result .rne false (y.1 < 0) false y.1.natAbs (top - 47)
  (r.1, r.2 ||| if y.2 then fNX else 0)

/-- The rounded sum of terms that are finite and not zero. -/
def roundedSum (nums : List (Bool × Nat × Int)) : Nat × Nat :=
  match nums with
  | [] => (0, 0)
  | (_, m0, e0) :: _ => roundedAt nums (nums.foldl (fun (t : Int) (p : Bool × Nat × Int) => max t (p.2.2 + p.2.1.log2)) (e0 + m0.log2))

theorem groupSum_eq_roundedSum {ps : List (FV × Bool)} (hflag : ps.any (·.2) = false) (hinf : ps.filterMap infSign = [])
    (hnan : ps.any (fun p => p.1.isNan) = false) : groupSum ps = roundedSum (ps.filterMap finTerm) := by
  have heq : groupSum ps = (let iv := ps.any (·.2)
      let infs := ps.filterMap infSign
      let clash := infs.contains true && infs.contains false
      if iv || clash || ps.any (fun p => p.1.isNan) then (fmt32.qnan, if iv || clash then fIV else 0)
      else match infs with
      | s :: _ => (fmt32.neg s + fmt32.inf, 0)
      | [] => roundedSum (ps.filterMap finTerm)) := rfl
  rw [heq, hflag, hinf, hnan]
  rfl

theorem filterMap_finTerm (ps : List (Bool × Nat)) : (ps.map (fun p => (FV.fin p.1 p.2 0, false))).filterMap finTerm = finTerms ps := by
  unfold finTerms
  induction ps with
  | nil => rfl
  | cons p ps ih =>
    by_cases hp : p.2 = 0
    · have hnone : finTerm (FV.fin p.1 p.2 0, false) = none := if_pos hp
      rw [List.filter_cons_of_neg (by simp [hp]), ← ih, List.map_cons, List.filterMap_cons_none hnone]
    · have hsome : finTerm (FV.fin p.1 p.2 0, false) = some (p.1, p.2, 0) := if_neg hp
      rw [List.filter_cons_of_pos (by simp [hp]), List.map_cons, List.map_cons, ← ih, List.filterMap_cons_some hsome]

theorem log2_max (a b : Nat) : (max a b).log2 = max a.log2 b.log2 := by
  simp only [Nat.log2_eq_log_two]
  exact (Nat.log_monotone (b := 2)).map_max

theorem foldl_log2 (ps : List (Bool × Nat)) (a : Nat) :
    (ps.map (fun p => (p.1, p.2, (0 : Int)))).foldl (fun (t : Int) (p : Bool × Nat × Int) => max t (p.2.2 + p.2.1.log2)) (a.log2 : Int) =
      ((ps.foldl (fun a p => max a p.2) a).log2 : Int) := by
  induction ps generalizing a with
  | nil => rfl
  | cons p ps ih =>
    rw [List.map_cons, List.foldl_cons, List.foldl_cons, ← ih, log2_max]
    simp

theorem largest_filter (ps : List (Bool × Nat)) (a : Nat) :
    (ps.filter (fun p => p.2 ≠ 0)).foldl (fun a p => max a p.2) a = ps.foldl (fun a p => max a p.2) a := by
  induction ps generalizing a with
  | nil => rfl
  | cons p ps ih =>
    by_cases hp : p.2 = 0
    · rw [List.filter_cons_of_neg (by simp [hp]), List.foldl_cons, hp, Nat.max_zero, ih]
    · rw [List.filter_cons_of_pos (by simp [hp]), List.foldl_cons, List.foldl_cons, ih]

theorem foldl_sum_any {α : Type} (g : α → Int) (h : α → Bool) (xs : List α) (z : Int) (b : Bool) :
    xs.foldl (fun (acc : Int × Bool) p => (acc.1 + g p, acc.2 || h p)) (z, b) = (z + (xs.map g).sum, b || xs.any h) := by
  induction xs generalizing z b with
  | nil => simp
  | cons x xs ih => rw [List.foldl_cons, ih, List.map_cons, List.sum_cons, List.any_cons, Int.add_assoc, Bool.or_assoc]

theorem sum_filter_of_zero (g : Bool × Nat → Int) (hg : ∀ p, p.2 = 0 → g p = 0) (ps : List (Bool × Nat)) :
    ((ps.filter (fun p => p.2 ≠ 0)).map g).sum = (ps.map g).sum := by
  induction ps with
  | nil => rfl
  | cons p ps ih =>
    by_cases hp : p.2 = 0
    · rw [List.filter_cons_of_neg (by simp [hp]), ih, List.map_cons, List.sum_cons, hg p hp, Int.zero_add]
    · rw [List.filter_cons_of_pos (by simp [hp]), List.map_cons, List.sum_cons, ih, List.map_cons, List.sum_cons]

theorem any_filter_of_zero (h : Bool × Nat → Bool) (hh : ∀ p, p.2 = 0 → h p = false) (ps : List (Bool × Nat)) :
    (ps.filter (fun p => p.2 ≠ 0)).any h = ps.any h := by
  rw [Bool.eq_iff_iff, List.any_eq_true, List.any_eq_true]
  refine ⟨fun ⟨p, hp, h1⟩ => ⟨p, (List.mem_filter.1 hp).1, h1⟩, fun ⟨p, hp, h1⟩ => ⟨p, List.mem_filter.2 ⟨hp, ?_⟩, h1⟩⟩
  have hne : p.2 ≠ 0 := fun h0 => absurd h1 (by rw [hh p h0]; exact Bool.false_ne_true)
  exact decide_eq_true hne

theorem cutAt_up (m k : Nat) : cutAt m 0 (k : Int) = (m / 2 ^ k, decide (m % 2 ^ k ≠ 0)) := by
  unfold cutAt
  by_cases hk : k = 0
  · subst hk; simp [Nat.mod_one]
  · rw [if_neg (by omega)]; simp

theorem cutAt_down (m k : Nat) : cutAt m 0 (-(k : Int)) = (m * 2 ^ k, false) := by
  unfold cutAt
  rw [if_pos (by omega)]; simp

theorem cutSum_finTerms (ps : List (Bool × Nat)) (q : Int) : cutSum (finTerms ps) q =
    ((ps.map (fun p => if p.1 then -((cutAt p.2 0 q).1 : Int) else (cutAt p.2 0 q).1)).sum, ps.any (fun p => (cutAt p.2 0 q).2)) := by
  have hzero : cutAt 0 0 q = (0, false) := by unfold cutAt; split <;> simp
  unfold cutSum finTerms
  rw [foldl_sum_any (fun p : Bool × Nat × Int => if p.1 then -((cutAt p.2.1 p.2.2 q).1 : Int) else (cutAt p.2.1 p.2.2 q).1)
    (fun p => (cutAt p.2.1 p.2.2 q).2), List.map_map, List.any_map, Int.zero_add, Bool.false_or]
  refine Prod.ext ?_ ?_
  · exact sum_filter_of_zero (fun p => if p.1 then -((cutAt p.2 0 q).1 : Int) else (cutAt p.2 0 q).1) (fun p hp => by simp [hp, hzero]) ps
  · exact any_filter_of_zero (fun p => (cutAt p.2 0 q).2) (fun p hp => by rw [hp, hzero]) ps

/-- Scaled terms have a scaled sum: its result is the unscaled sum's at the scaled exponent. -/
theorem result_sum_scale (g : Bool × Nat → Int) (ps : List (Bool × Nat)) (e : Int) (k : Nat) :
    let z := (ps.map (fun p => g p * 2 ^ k)).sum
    let y := (ps.map g).sum
    fmt32.result .rne false (z < 0) false z.natAbs (e - k) = fmt32.result .rne false (y < 0) false y.natAbs e := by
  intro z y
  have hz : z = y * 2 ^ k := List.sum_map_mul_right ..
  have hpow : (0 : Int) < 2 ^ k := by positivity
  have hneg : (z < 0) = (y < 0) := by
    have hlt : y * 2 ^ k < 0 * 2 ^ k ↔ y < 0 := mul_lt_mul_iff_of_pos_right hpow
    rw [Int.zero_mul] at hlt
    rw [hz, propext hlt]
  have habs : z.natAbs = y.natAbs * 2 ^ k := by rw [hz, Int.natAbs_mul, Int.natAbs_pow]; rfl
  rw [habs, Fmt.result_scale]
  simp only [hneg]

/-- The cut sum, rounded, at the place 47 bits below the top (R363). -/
theorem result_cutSum (ps : List (Bool × Nat)) (top : Nat) :
    let w := 2 ^ (top - 47)
    let z := (ps.map (cutTerm w)).sum
    let y := cutSum (finTerms ps) ((top : Int) - 47)
    fmt32.result .rne false (y.1 < 0) false y.1.natAbs ((top : Int) - 47) = fmt32.result .rne false (z < 0) false z.natAbs 0 ∧
      y.2 = ps.any (fun p => p.2 % w ≠ 0) := by
  intro w z y
  by_cases htop : 47 ≤ top
  · obtain ⟨k, hk⟩ : ∃ k : Nat, top = 47 + k := ⟨top - 47, by omega⟩
    have hq : ((top : Int) - 47) = k := by omega
    have hw : w = 2 ^ k := by simp only [w, hk, Nat.add_sub_cancel_left]
    have hy : y = ((ps.map (fun p => if p.1 then -((p.2 / 2 ^ k : Nat) : Int) else (p.2 / 2 ^ k : Nat))).sum,
        ps.any (fun p => p.2 % 2 ^ k ≠ 0)) := by simp only [y, hq, cutSum_finTerms, cutAt_up]
    have hz : z = (ps.map (fun p => (if p.1 then -((p.2 / 2 ^ k : Nat) : Int) else (p.2 / 2 ^ k : Nat)) * 2 ^ k)).sum := by
      refine congrArg List.sum (List.map_congr_left fun p _ => ?_)
      rw [cutTerm, hw]
      split <;> push_cast <;> ring
    refine ⟨?_, by rw [hy, hw]⟩
    have hscale := result_sum_scale (fun p => if p.1 then -((p.2 / 2 ^ k : Nat) : Int) else (p.2 / 2 ^ k : Nat)) ps k k
    rw [Int.sub_self] at hscale
    rw [hz, hy, hq]
    exact hscale.symm
  · obtain ⟨k, hk⟩ : ∃ k : Nat, (top : Int) - 47 = -(k : Int) := ⟨47 - top, by omega⟩
    have hw : w = 1 := by simp only [w, show top - 47 = 0 by omega, Nat.pow_zero]
    have hy : y = ((ps.map (fun p => (cutTerm 1 p) * 2 ^ k)).sum, false) := by
      simp only [y, hk, cutSum_finTerms, cutAt_down, cutTerm, Nat.div_one, Nat.mul_one]
      refine Prod.ext (congrArg List.sum (List.map_congr_left fun p _ => ?_)) (by simp)
      split <;> push_cast <;> ring
    refine ⟨?_, by simp [hy, hw, Nat.mod_one]⟩
    have hscale := result_sum_scale (cutTerm 1) ps 0 k
    simp only [z, hw, hy, hk, ← Int.zero_sub]
    exact hscale

/-- The sum of a group of finite terms (R363): every term cut to 48 bits from the top, added exactly, rounded once. -/
theorem groupSum_fin (ps : List (Bool × Nat)) :
    let w := 2 ^ ((largest ps).log2 - 47)
    let z := (ps.map (cutTerm w)).sum
    let r := fmt32.result .rne false (z < 0) false z.natAbs 0
    groupSum (ps.map (fun p => (.fin p.1 p.2 0, false))) = (r.1, r.2 ||| if ps.any (fun p => p.2 % w ≠ 0) then fNX else 0) := by
  intro w z r
  have hflag : (ps.map (fun p => (FV.fin p.1 p.2 0, false))).any (·.2) = false := by simp
  have hnan : (ps.map (fun p => (FV.fin p.1 p.2 0, false))).any (fun p => p.1.isNan) = false := by simp [FV.isNan]
  have hinf : (ps.map (fun p => (FV.fin p.1 p.2 0, false))).filterMap infSign = [] := by simp [List.filterMap_eq_nil_iff, infSign]
  rw [groupSum_eq_roundedSum hflag hinf hnan, filterMap_finTerm]
  obtain ⟨hres, hlost⟩ := result_cutSum ps (largest ps).log2
  cases hf : ps.filter (fun p => p.2 ≠ 0) with
  | nil =>
    have hnil : finTerms ps = [] := by rw [finTerms, hf]; rfl
    rw [hnil] at hres hlost ⊢
    have hr : r = (0, 0) := hres.symm
    have hnone : ps.any (fun p => p.2 % w ≠ 0) = false := hlost.symm
    rw [hr, hnone]
    rfl
  | cons p t =>
    have hcons : finTerms ps = (p.1, p.2, 0) :: t.map (fun p => (p.1, p.2, 0)) := by rw [finTerms, hf]; rfl
    have hlargest : (p :: t).foldl (fun a p => max a p.2) p.2 = largest ps := by
      rw [largest, ← largest_filter ps, hf, List.foldl_cons, List.foldl_cons, Nat.max_self, Nat.zero_max]
    have htop := foldl_log2 (p :: t) p.2
    rw [hlargest, List.map_cons, ← hcons] at htop
    have hsum : roundedSum (finTerms ps) = roundedAt (finTerms ps)
        ((finTerms ps).foldl (fun (t : Int) (p : Bool × Nat × Int) => max t (p.2.2 + p.2.1.log2)) (0 + (p.2.log2 : Int))) := by
      rw [hcons]; rfl
    rw [hsum, Int.zero_add, htop, roundedAt]
    have hfst := congrArg Prod.fst hres
    have hsnd := congrArg Prod.snd hres
    exact Prod.ext hfst (congrArg₂ (fun a b => a ||| if b = true then fNX else 0) hsnd hlost)

/-! ## Blocks with a scale word -/

/-- The largest magnitude of a code, and the smallest exponent a block is given. -/
def pbBig (ty : ElemTy) : Nat := if ty = .pb8 then 63 else 3
def pbLow (ty : ElemTy) : Nat := if ty = .pb8 then 4 else 2

/-- The code of an element under a scale word, and whether it is an outlier, as `pbEncode` forms them. -/
def pbCode (ty : ElemTy) (word : Nat) (x : FV) : Nat × Bool :=
  match x with
  | .fin s m e =>
    let sg := if s then 2 ^ (if ty = .pb8 then 6 else 2) else 0
    if word % 256 ≠ 255 ∧ pbQ ty m e (word % 256) ≤ pbBig ty then (sg + pbQ ty m e (word % 256), false)
    else if word / 256 ≠ 255 ∧ pbQ ty m e (word / 256) ≤ pbBig ty then
      (2 ^ ((if ty = .pb8 then 6 else 2) + 1) + sg + pbQ ty m e (word / 256), false)
    else (0, true)
  | _ => (0, true)

/-- Whether all finite elements of a block fit an exponent. -/
def pbAllFit (ty : ElemTy) (xs : List FV) (E : Nat) : Bool :=
  xs.all (fun x => match x with | .fin _ m e => pbQ ty m e E ≤ pbBig ty | _ => true)

/-- The exponent a block is given. -/
def pbExponent (ty : ElemTy) (xs : List FV) : Nat :=
  (((List.range (255 - pbLow ty)).map (pbLow ty + ·)).find? (pbAllFit ty xs)).getD 254

theorem pbEncode_some (ty : ElemTy) (xs : List FV) (w : Nat) : pbEncode ty xs (some w) =
    (xs.map (fun x => (pbCode ty (w % 2 ^ 16) x).1), w % 2 ^ 16, xs.map (fun x => (pbCode ty (w % 2 ^ 16) x).2)) := rfl

theorem pbEncode_none (ty : ElemTy) (xs : List FV) :
    let word := pbExponent ty xs - pbLow ty + 256 * pbExponent ty xs
    pbEncode ty xs none = (xs.map (fun x => (pbCode ty word x).1), word, xs.map (fun x => (pbCode ty word x).2)) := rfl

theorem pbCode_assigned (ty : ElemTy) (word : Nat) (x : FV) :
    pbAssigned ty word x (pbCode ty word x).1 (pbCode ty word x).2 := by
  cases x with
  | nan | inf => exact ⟨rfl, rfl⟩
  | fin s m e =>
    have hsign : 2 ^ (if ty = .pb8 then 6 else 2) = if ty = .pb8 then 64 else 4 := by split <;> rfl
    have hscale : 2 ^ ((if ty = .pb8 then 6 else 2) + 1) = 2 * if ty = .pb8 then 64 else 4 := by split <;> rfl
    refine ⟨fun h0 => ?_, fun h0 h1 => ?_, fun h0 h1 => ?_⟩
    · have hcode : pbCode ty word (.fin s m e) = ((if s then 2 ^ (if ty = .pb8 then 6 else 2) else 0) + pbQ ty m e (word % 256), false) := if_pos h0
      rw [hcode, hsign]
      exact ⟨rfl, rfl⟩
    · have hcode : pbCode ty word (.fin s m e) = (2 ^ ((if ty = .pb8 then 6 else 2) + 1) + (if s then 2 ^ (if ty = .pb8 then 6 else 2) else 0) +
          pbQ ty m e (word / 256), false) := (if_neg h0).trans (if_pos h1)
      rw [hcode, hsign, hscale]
      exact ⟨rfl, rfl⟩
    · have hcode : pbCode ty word (.fin s m e) = (0, true) := (if_neg h0).trans (if_neg h1)
      rw [hcode]
      exact ⟨rfl, rfl⟩

theorem pbExponent_cases (ty : ElemTy) (xs : List FV) :
    (pbLow ty ≤ pbExponent ty xs ∧ pbExponent ty xs ≤ 254) ∧ (pbExponent ty xs < 254 → pbAllFit ty xs (pbExponent ty xs) = true) ∧
      ∀ E, pbLow ty ≤ E → E < pbExponent ty xs → pbAllFit ty xs E = false := by
  have hlow : pbLow ty ≤ 4 := by unfold pbLow; split <;> decide
  have hmem (E : Nat) : E ∈ (List.range (255 - pbLow ty)).map (pbLow ty + ·) ↔ pbLow ty ≤ E ∧ E ≤ 254 := by
    rw [List.mem_map]
    refine ⟨fun ⟨k, hk, he⟩ => ?_, fun ⟨h1, h2⟩ => ⟨E - pbLow ty, List.mem_range.2 (by omega), by omega⟩⟩
    have := List.mem_range.1 hk
    omega
  unfold pbExponent
  cases hf : ((List.range (255 - pbLow ty)).map (pbLow ty + ·)).find? (pbAllFit ty xs) with
  | none =>
    rw [List.find?_eq_none] at hf
    refine ⟨⟨by simp only [Option.getD_none]; omega, Nat.le_refl _⟩, fun h => absurd h (Nat.lt_irrefl _), fun E h1 h2 => ?_⟩
    exact Bool.eq_false_iff.2 (hf E ((hmem E).2 ⟨h1, h2.le⟩))
  | some E0 =>
    obtain ⟨hfit, i, hi, hat, hbefore⟩ := List.find?_eq_some_iff_getElem.1 hf
    have hval (k : Nat) (hk : k < ((List.range (255 - pbLow ty)).map (pbLow ty + ·)).length) :
        ((List.range (255 - pbLow ty)).map (pbLow ty + ·))[k] = pbLow ty + k := by simp
    rw [hval] at hat
    refine ⟨(hmem E0).1 (List.mem_of_find?_eq_some hf), fun _ => hfit, fun E h1 h2 => ?_⟩
    have hE : E - pbLow ty < i := by simp only [Option.getD_some] at h2; omega
    have hno := hbefore (E - pbLow ty) hE
    rw [hval, show pbLow ty + (E - pbLow ty) = E by omega] at hno
    exact Bool.eq_false_iff.2 (fun h => by rw [h] at hno; exact absurd hno Bool.false_ne_true)

theorem pbFits_of_allFit {ty : ElemTy} {xs : List FV} {E : Nat} (hE : E ≠ 255) (h : pbAllFit ty xs E = true) {g : Bool} {m : Nat} {p : Int}
    (hx : .fin g m p ∈ xs) : pbFits ty m p E :=
  ⟨hE, of_decide_eq_true (List.all_eq_true.1 h _ hx)⟩

theorem exists_not_pbFits {ty : ElemTy} {xs : List FV} {E : Nat} (h : pbAllFit ty xs E = false) :
    ∃ g m p, .fin g m p ∈ xs ∧ ¬pbFits ty m p E := by
  obtain ⟨x, hx, hno⟩ := List.all_eq_false.1 h
  cases x with
  | nan | inf => exact absurd rfl hno
  | fin g m p => exact ⟨g, m, p, hx, fun hfit => hno (decide_eq_true hfit.2)⟩

/-- Every element of a block is assigned its code (R356). -/
theorem pbEncode_assigns (ty : ElemTy) (xs : List FV) (w : Nat) :
    ∃ cs os, pbEncode ty xs (some w) = (cs, w % 2 ^ 16, os) ∧ cs.length = xs.length ∧ os.length = xs.length ∧
      ∀ (k : Nat) (v : FV), xs[k]? = some v → pbAssigned ty (w % 2 ^ 16) v (cs.getD k 0) (os.getD k false) := by
  refine ⟨_, _, pbEncode_some ty xs w, List.length_map .., List.length_map .., fun k v hk => ?_⟩
  rw [List.getD_eq_getElem?_getD, List.getD_eq_getElem?_getD, List.getElem?_map, List.getElem?_map, hk]
  exact pbCode_assigned ty _ v

/-- The exponents of a block are the least that hold its elements (R355). -/
theorem pbEncode_chooses (ty : ElemTy) (xs : List FV) :
    ∃ e1, (if ty = .pb8 then 4 else 2) ≤ e1 ∧ e1 ≤ 254 ∧
      pbEncode ty xs none = pbEncode ty xs (some (e1 - (if ty = .pb8 then 4 else 2) + 256 * e1)) ∧
      (e1 < 254 → ∀ g m p, .fin g m p ∈ xs → pbFits ty m p e1) ∧
      ∀ x', (if ty = .pb8 then 4 else 2) ≤ x' → x' < e1 → ∃ g m p, .fin g m p ∈ xs ∧ ¬pbFits ty m p x' := by
  obtain ⟨⟨hlow, hhigh⟩, hfit, hno⟩ := pbExponent_cases ty xs
  refine ⟨pbExponent ty xs, hlow, hhigh, ?_, fun h g m p hx => pbFits_of_allFit (by omega) (hfit h) hx,
    fun x' h1 h2 => exists_not_pbFits (hno x' h1 h2)⟩
  have hword : (pbExponent ty xs - pbLow ty + 256 * pbExponent ty xs) % 2 ^ 16 = pbExponent ty xs - pbLow ty + 256 * pbExponent ty xs :=
    Nat.mod_eq_of_lt (by omega)
  exact (pbEncode_none ty xs).trans (by rw [pbEncode_some]; exact hword.symm ▸ rfl)

end Sys2Proof.Machine
end

section
/-! What the evaluation of one clause computes (R328, R378): elements that are noted one after another leave their values in the tile and
their flags in the flags, and the first that raises an enabled exception ends the evaluation in a late fault. -/

namespace Sys2Proof.Machine

/-! ## Evaluations that only raise flags -/

/-- Flags join those raised. -/
def Ev.raise (e : Ev) (fl : Nat) : Ev := { e with flags := e.flags ||| fl }

@[simp] theorem Ev.raise_raise (e : Ev) (a b : Nat) : (e.raise a).raise b = e.raise (a ||| b) := by simp [raise, Nat.or_assoc]
@[simp] theorem Ev.raise_zero (e : Ev) : e.raise 0 = e := by simp [raise]

/-- From `e`, with whatever flags, a computation gives a value and raises flags, or ends in a fault of a kind. -/
def Ev.Notes {β : Type} (e : Ev) (P : BatchFault → Prop) (m : Ev → EvR β) (v : β) (fl : Nat) (bad : Prop) : Prop :=
  ∀ a, (¬bad → m (e.raise a) = .ok (e.raise (a ||| fl)) v) ∧ (bad → ∃ e' b, P b ∧ m (e.raise a) = .fault e' b)

/-- The flags of all of some elements. -/
def orAll {α : Type} (fl : α → Nat) (xs : List α) : Nat := xs.foldr (fun x a => fl x ||| a) 0

theorem testBit_orAll {α : Type} (fl : α → Nat) (xs : List α) (n : Nat) :
    (orAll fl xs).testBit n = true ↔ ∃ x ∈ xs, (fl x).testBit n = true := by
  induction xs with
  | nil => simp [orAll]
  | cons x xs ih => rw [orAll, List.foldr_cons, Nat.testBit_or, Bool.or_eq_true, ← orAll, ih, List.exists_mem_cons_iff]

namespace Ev.Notes

variable {α β γ : Type} {e : Ev} {P : BatchFault → Prop}

theorem pure (v : β) : e.Notes P (fun e => .ok e v) v 0 False :=
  fun a => ⟨fun _ => by rw [Nat.or_zero], fun h => h.elim⟩

theorem note (ci i j fl : Nat) (v : β) (hP : fl &&& bits (clauseAt e.g ci).fp 8 5 ≠ 0 → P (e.lateFault ci i j 0x11 (fl % 32))) :
    e.Notes P (fun e => e.note ci i j fl v) v fl (fl &&& bits (clauseAt e.g ci).fp 8 5 ≠ 0) := by
  intro a
  refine ⟨fun h => ?_, fun h => ⟨_, _, hP h, if_pos h⟩⟩
  rw [← Ev.raise_raise]
  exact if_neg h

theorem bind {m : Ev → EvR β} {k : Ev → β → EvR γ} {v : β} {v' : γ} {fl fl' : Nat} {bad bad' : Prop}
    (hm : e.Notes P m v fl bad) (hk : e.Notes P (fun e => k e v) v' fl' bad') :
    e.Notes P (fun e => (m e).bind k) v' (fl ||| fl') (bad ∨ bad') := by
  intro a
  obtain ⟨hok, hfault⟩ := hm a
  obtain ⟨hok', hfault'⟩ := hk (a ||| fl)
  have hstep (hb : ¬bad) : (m (e.raise a)).bind k = k (e.raise (a ||| fl)) v := by rw [hok hb]; rfl
  refine ⟨fun h => ?_, fun h => ?_⟩
  · rw [not_or] at h
    rw [← Nat.or_assoc]
    exact (hstep h.1).trans (hok' h.2)
  · by_cases hb : bad
    · obtain ⟨e', b, hP, he⟩ := hfault hb
      exact ⟨e', b, hP, congrArg (EvR.bind · k) he⟩
    · obtain ⟨e', b, hP, he⟩ := hfault' (h.resolve_left hb)
      exact ⟨e', b, hP, (hstep hb).trans he⟩

theorem congr {m : Ev → EvR β} {v v' : β} {fl fl' : Nat} {bad bad' : Prop} (h : e.Notes P m v fl bad) (hv : v = v') (hfl : fl = fl')
    (hbad : bad ↔ bad') : e.Notes P m v' fl' bad' := by
  rw [← hv, ← hfl, ← propext hbad]; exact h

theorem list {step : Ev → α → EvR β} {v : α → β} {fl : α → Nat} {bad : α → Prop} {xs : List α}
    (h : ∀ x ∈ xs, e.Notes P (fun e => step e x) (v x) (fl x) (bad x)) :
    e.Notes P (evList step xs) (xs.map v) (orAll fl xs) (∃ x ∈ xs, bad x) := by
  induction xs with
  | nil => exact (pure []).congr rfl rfl (by simp)
  | cons x xs ih =>
    have htail := ih (fun z hz => h z (List.mem_cons_of_mem _ hz))
    have hcons : e.Notes P (fun e => (evList step xs e).bind fun e ys => .ok e (v x :: ys)) (v x :: xs.map v) (orAll fl xs) (∃ x ∈ xs, bad x) :=
      (htail.bind (pure (v x :: xs.map v))).congr rfl (Nat.or_zero _) (by rw [or_false])
    exact ((h x List.mem_cons_self).bind hcons).congr rfl rfl (by rw [List.exists_mem_cons_iff])

end Ev.Notes

/-! ## Tiles over a box -/

/-- Whether an element lies in a box. -/
def Box.holds (b : Box) (i j : Nat) : Prop := b.r0 ≤ i ∧ i < b.r1 ∧ b.c0 ≤ j ∧ j < b.c1

/-- The rows and the columns of a box. -/
def Box.rowList (b : Box) : List Nat := (List.range (b.r1 - b.r0)).map (b.r0 + ·)
def Box.colList (b : Box) : List Nat := (List.range (b.c1 - b.c0)).map (b.c0 + ·)

theorem Box.mem_rowList {b : Box} {i : Nat} : i ∈ b.rowList ↔ b.r0 ≤ i ∧ i < b.r1 := by
  rw [rowList, List.mem_map]
  refine ⟨fun ⟨k, hk, he⟩ => ?_, fun ⟨h1, h2⟩ => ⟨i - b.r0, List.mem_range.2 (by omega), by omega⟩⟩
  have := List.mem_range.1 hk
  omega

theorem Box.mem_colList {b : Box} {j : Nat} : j ∈ b.colList ↔ b.c0 ≤ j ∧ j < b.c1 :=
  Box.mem_rowList (b := ⟨b.c0, b.c1, b.c0, b.c1⟩)

theorem Box.exists_holds {b : Box} {p : Nat → Nat → Prop} :
    (∃ i ∈ b.rowList, ∃ j ∈ b.colList, p i j) ↔ ∃ i j, b.holds i j ∧ p i j :=
  ⟨fun ⟨i, hi, j, hj, h⟩ => ⟨i, j, ⟨(mem_rowList.1 hi).1, (mem_rowList.1 hi).2, (mem_colList.1 hj).1, (mem_colList.1 hj).2⟩, h⟩,
    fun ⟨i, j, ⟨h1, h2, h3, h4⟩, h⟩ => ⟨i, mem_rowList.2 ⟨h1, h2⟩, j, mem_colList.2 ⟨h3, h4⟩, h⟩⟩

theorem Box.getElem?_rowList {b : Box} {i : Nat} (h : b.r0 ≤ i ∧ i < b.r1) : b.rowList[i - b.r0]? = some i := by
  rw [rowList, List.getElem?_map, List.getElem?_range (by omega), Option.map_some]
  exact congrArg some (by omega)

theorem Box.getElem?_colList {b : Box} {j : Nat} (h : b.c0 ≤ j ∧ j < b.c1) : b.colList[j - b.c0]? = some j :=
  Box.getElem?_rowList (b := ⟨b.c0, b.c1, b.c0, b.c1⟩) h

/-- The tile of some elements over a box. -/
def Box.tileOf (b : Box) (v : Nat → Nat → Nat × Nat) : TileV := ⟨b.r0, b.c0, b.rowList.map (fun i => b.colList.map (v i))⟩

theorem Box.elem_tileOf {b : Box} {i j : Nat} (h : b.holds i j) (v : Nat → Nat → Nat × Nat) : (b.tileOf v).elem i j = v i j := by
  obtain ⟨h1, h2, h3, h4⟩ := h
  rw [TileV.elem, tileOf, List.getD_eq_getElem?_getD, List.getD_eq_getElem?_getD, List.getElem?_map, getElem?_rowList ⟨h1, h2⟩,
    Option.map_some, Option.getD_some, List.getElem?_map, getElem?_colList ⟨h3, h4⟩]
  rfl

/-- The flags of all elements of a box. -/
def Box.flags (b : Box) (fl : Nat → Nat → Nat) : Nat := orAll (fun i => orAll (fl i) b.colList) b.rowList

theorem Box.testBit_flags (b : Box) (fl : Nat → Nat → Nat) (n : Nat) :
    (b.flags fl).testBit n = true ↔ ∃ i j, b.holds i j ∧ (fl i j).testBit n = true := by
  rw [flags, testBit_orAll]
  simp only [testBit_orAll]
  exact exists_holds

theorem Ev.Notes.grid {e : Ev} {P : BatchFault → Prop} {b : Box} {step : Ev → Nat → Nat → EvR (Nat × Nat)} {v : Nat → Nat → Nat × Nat}
    {fl : Nat → Nat → Nat} {bad : Nat → Nat → Prop}
    (h : ∀ i j, b.holds i j → e.Notes P (fun e => step e i j) (v i j) (fl i j) (bad i j)) :
    e.Notes P (evGrid b step) (b.tileOf v) (b.flags fl) (∃ i j, b.holds i j ∧ bad i j) := by
  have hrow (i : Nat) (hi : i ∈ b.rowList) : e.Notes P (fun e => evList (fun e j => step e i j) b.colList e) (b.colList.map (v i))
      (orAll (fl i) b.colList) (∃ j ∈ b.colList, bad i j) :=
    .list fun j hj => h i j ⟨(Box.mem_rowList.1 hi).1, (Box.mem_rowList.1 hi).2, (Box.mem_colList.1 hj).1, (Box.mem_colList.1 hj).2⟩
  exact ((Ev.Notes.list hrow).bind (.pure (b.tileOf v))).congr rfl (Nat.or_zero _) (by rw [or_false, Box.exists_holds])

/-! ## What a clause computes -/

/-- An evaluation as it turns to a clause. -/
def Ev.begin (e : Ev) (ci : Nat) : Ev := { e with words := [], mark := e.taken, here := ci, wild := false }

/-- The tile of a clause takes its place. -/
def Ev.finish (ci : Nat) (c : Clause) (b : Box) (e : Ev) (t : TileV) : EvR Unit :=
  (if e.wild then e.strew ci c b else .ok e t).bind fun e t => .ok { e with tiles := e.tiles.put ci t } ()

/-- A late fault that an element which raises an enabled exception ends in. -/
def Ev.Excepts (e : Ev) (ci : Nat) (f : Nat → Nat → (Nat × Nat) × Nat) (b : BatchFault) : Prop :=
  ∃ i j, (e.box ci).holds i j ∧ (f i j).2 &&& bits (clauseAt e.g ci).fp 8 5 ≠ 0 ∧ b = e.lateFault ci i j 0x11 ((f i j).2 % 32)

/-- Whether an evaluation has of another its clauses, boxes, tiles and flags, and the memory and blocks of its run. -/
def Ev.Alike (e1 e : Ev) : Prop := e1.g = e.g ∧ e1.tiles = e.tiles ∧ e1.flags = e.flags ∧ e1.wild = false ∧
  e1.run.mem = e.run.mem ∧ e1.run.blocks = e.run.blocks

theorem Ev.begin_alike (e : Ev) (ci : Nat) : (e.begin ci).Alike e := ⟨rfl, rfl, rfl, rfl, rfl, rfl⟩

theorem Ev.tile_put (e : Ev) (ci k : Nat) (t : TileV) :
    ({ e with tiles := e.tiles.put ci t } : Ev).tile k = if k = ci then t else e.tile k := by
  rw [Ev.tile, Tbl.get?_put]
  split <;> rfl

variable {y : Sys} {e e1 : Ev} {ci : Nat} {f : Nat → Nat → (Nat × Nat) × Nat}

theorem Ev.computes_of_notes (ha : e1.Alike e) {body : Ev → EvR TileV} {c : Clause} {b : Box} {t : TileV} {fl : Nat}
    (hbody : evClause y e ci = (body e1).bind (Ev.finish ci c b))
    (hn : e1.Notes (e.Excepts ci f) body t fl (∃ i j, (e.box ci).holds i j ∧ (f i j).2 &&& bits (clauseAt e.g ci).fp 8 5 ≠ 0))
    (ht : ∀ i j, (e.box ci).holds i j → t.elem i j = (f i j).1)
    (hfl : ∀ n, fl.testBit n = true ↔ ∃ i j, (e.box ci).holds i j ∧ (f i j).2.testBit n = true) : e.Computes y ci f := by
  obtain ⟨-, htiles, hflags, hwild, hmem, hblocks⟩ := ha
  obtain ⟨hok, hfault⟩ := hn 0
  rw [Ev.raise_zero] at hok hfault
  refine ⟨fun hquiet => ?_, fun hraise => ?_⟩
  · have hrun : evClause y e ci = .ok { (e1.raise (0 ||| fl)) with tiles := e1.tiles.put ci t } () := by
      rw [hbody, hok fun ⟨i, j, hin, hne⟩ => hne (hquiet i j hin)]
      have hw : (e1.raise (0 ||| fl)).wild = false := hwild
      rw [EvR.bind, Ev.finish, hw]
      rfl
    refine ⟨_, hrun, fun i j hin => ?_, fun k hk => ?_, hmem, hblocks, fun n => ?_⟩
    · have hput := (Ev.tile_put (e1.raise (0 ||| fl)) ci ci t).trans (if_pos rfl)
      exact (congrArg (fun z : TileV => z.elem i j) hput).trans (ht i j hin)
    · have htile : (e1.raise (0 ||| fl)).tile k = e.tile k := by rw [Ev.tile, Ev.tile, ← htiles]; rfl
      exact (Ev.tile_put (e1.raise (0 ||| fl)) ci k t).trans ((if_neg hk).trans htile)
    · have hjoin : ({ (e1.raise (0 ||| fl)) with tiles := e1.tiles.put ci t } : Ev).flags = e.flags ||| fl := by
        rw [← hflags, Nat.zero_or]; rfl
      rw [hjoin, Nat.testBit_or, Bool.or_eq_true, hfl]
      rfl
  · obtain ⟨e', b', ⟨i, j, hin, hne, hb⟩, he⟩ := hfault hraise
    exact ⟨e', i, j, hin, hne, by rw [hbody, he, hb]; rfl⟩

/-- A clause whose elements are noted over its box computes them. -/
theorem Ev.computes_of_grid (ha : e1.Alike e) {step : Ev → Nat → Nat → EvR (Nat × Nat)} {c : Clause} {b : Box}
    (hbody : evClause y e ci = (evGrid (e.box ci) step e1).bind (Ev.finish ci c b))
    (hstep : ∀ a i j, (e.box ci).holds i j → step (e1.raise a) i j = (e1.raise a).note ci i j (f i j).2 (f i j).1) : e.Computes y ci f := by
  have hg : e1.g = e.g := ha.1
  have hcell (i j : Nat) (hin : (e.box ci).holds i j) :
      e1.Notes (e.Excepts ci f) (fun e => step e i j) (f i j).1 (f i j).2 ((f i j).2 &&& bits (clauseAt e.g ci).fp 8 5 ≠ 0) := by
    have hfault (x : Nat) : e1.lateFault ci i j 0x11 x = e.lateFault ci i j 0x11 x := by rw [Ev.lateFault, hg]; rfl
    have hnote := Ev.Notes.note (e := e1) (P := e.Excepts ci f) ci i j (f i j).2 (f i j).1
      (fun hne => ⟨i, j, hin, hg ▸ hne, hfault _⟩)
    rw [hg] at hnote
    refine fun a => ?_
    dsimp only
    rw [hstep a i j hin]
    exact hnote a
  exact Ev.computes_of_notes ha hbody (.grid hcell) (fun i j hin => Box.elem_tileOf hin _) (Box.testBit_flags _ _)

end Sys2Proof.Machine
end

section
/-! What TMAP, TEW, TRED and TCVT compute over a box (R356, R366, R374, R378 to R380). -/

namespace Sys2Proof.Machine

/-! ## A clause by its operation -/

/-- The evaluation of a clause by its operation. -/
def evOp (y : Sys) (ci : Nat) (c : Clause) (b : Box) (e : Ev) : EvR TileV :=
  match c.op, c.srcs with
  | .tload, (.global a, m) :: _ => evLoad y ci c false a.toNat m b e
  | .tload, (.scratch a, m) :: _ => evLoad y ci c true a.toNat m b e
  | .leaf, (.global a, _) :: _ => evLeaf y ci c false a.toNat b e
  | .leaf, (.scratch a, _) :: _ => evLeaf y ci c true a.toNat b e
  | .tmap, _ => evMap c b e
  | .tmma _ ol, _ => evMma ci c ol b e
  | .tew op rm s, _ => evTew ci c op rm s b e
  | .tred mx col, _ => evTred ci c mx col b e
  | .tcvt m l, _ => if ElemTy.isPb c.ty then evCvtPb y ci c m l b e else evCvt y ci c m l b e
  | _, _ => .ok e ⟨b.r0, b.c0, []⟩

/-- The format block of a clause of a block format is of its own type. -/
def Clause.FmtOk (c : Clause) : Prop := ElemTy.isPb c.ty = true → fmtTy c.fmt = c.ty.code

variable {y : Sys} {e : Ev} {ci : Nat}

theorem evClause_eq (hfmt : (clauseAt e.g ci).FmtOk) : evClause y e ci =
    (evOp y ci (clauseAt e.g ci) (e.box ci) (e.begin ci)).bind (Ev.finish ci (clauseAt e.g ci) (e.box ci)) := by
  have hno : ¬(ElemTy.isPb (clauseAt e.g ci).ty && decide (fmtTy (clauseAt e.g ci).fmt ≠ (clauseAt e.g ci).ty.code)) = true := by
    rw [Bool.and_eq_true, decide_eq_true_eq]
    exact fun h => h.2 (hfmt h.1)
  exact if_neg hno

section
variable {c : Clause} {b : Box}

theorem evOp_tmap (h : c.op = .tmap) : evOp y ci c b e = evMap c b e := by simp only [evOp, h]

theorem evOp_tmma {acc ol : Bool} (h : c.op = .tmma acc ol) : evOp y ci c b e = evMma ci c ol b e := by simp only [evOp, h]

theorem evOp_tew {op : TewOp} {rm : Rm} {sc : Word} (h : c.op = .tew op rm sc) : evOp y ci c b e = evTew ci c op rm sc b e := by
  simp only [evOp, h]

theorem evOp_tred {mx col : Bool} (h : c.op = .tred mx col) : evOp y ci c b e = evTred ci c mx col b e := by simp only [evOp, h]

theorem evOp_tcvt {m : TcvtMod} {l : Word64} (h : c.op = .tcvt m l) :
    evOp y ci c b e = if ElemTy.isPb c.ty then evCvtPb y ci c m l b e else evCvt y ci c m l b e := by simp only [evOp, h]

end

/-- A clause whose operation notes its elements over the box computes them. -/
theorem Ev.computes_of_evOp (hfmt : (clauseAt e.g ci).FmtOk) {f : Nat → Nat → (Nat × Nat) × Nat} {step : Ev → Nat → Nat → EvR (Nat × Nat)}
    (hop : evOp y ci (clauseAt e.g ci) (e.box ci) (e.begin ci) = evGrid (e.box ci) step (e.begin ci))
    (hstep : ∀ a i j, (e.box ci).holds i j →
      step ((e.begin ci).raise a) i j = ((e.begin ci).raise a).note ci i j (f i j).2 (f i j).1) : e.Computes y ci f :=
  Ev.computes_of_grid (e.begin_alike ci) ((evClause_eq hfmt).trans (by rw [hop])) hstep

/-! ## TMAP -/

theorem evMap_computes (hfmt : (clauseAt e.g ci).FmtOk) {q : Nat} {m : IMap} {rest : List (Src × IMap)} (hop : (clauseAt e.g ci).op = .tmap)
    (hsrc : (clauseAt e.g ci).srcs = (.clause q, m) :: rest) : e.Computes y ci (fun i j =>
      ((e.tile q).elem (m.roff + if m.br then 0 else if m.t then j else i) (m.coff + if m.bc then 0 else if m.t then i else j), 0)) := by
  refine Ev.computes_of_evOp hfmt (step := fun e i j => .ok e ((e.tile q).elem (m.coord i j).1 (m.coord i j).2)) ?_ fun a i j hin => ?_
  · rw [evOp_tmap hop, evMap, hsrc]
  · have hcoord : m.coord i j = (m.roff + if m.br then 0 else if m.t then j else i, m.coff + if m.bc then 0 else if m.t then i else j) := by
      unfold IMap.coord; cases m.t <;> rfl
    have hnote (x : Nat × Nat) : ((e.begin ci).raise a).note ci i j 0 x = .ok ((e.begin ci).raise a) x := by
      rw [Ev.note, Nat.zero_and]
      exact (if_neg fun h => h rfl).trans (congrArg (EvR.ok · x) (Ev.raise_zero _))
    rw [hcoord, hnote]
    rfl

/-! ## TEW -/

/-- What an element of a TEW becomes, with its flags. -/
def Ev.tewCell (e : Ev) (ci : Nat) (op : TewOp) (rm : Rm) (sc : Word) (i j : Nat) : (Nat × Nat) × Nat :=
  let c := clauseAt e.g ci
  let k := c.ctl rm
  let src (n i j : Nat) : Nat × Nat := match c.srcs[n]? with
    | some (.clause q, _) => e.single q i j
    | _ => (0, 0)
  let a := src 0 i j
  let b := src 1 i j
  let two (z : Nat × Nat) : (Nat × Nat) × Nat := ((z.1, 0), z.2 ||| a.2 ||| b.2)
  let one (z : Nat × Nat) : (Nat × Nat) × Nat := ((z.1, 0), z.2 ||| a.2)
  match op with
  | .add => two (fmt32.add k a.1 b.1)
  | .sub => two (fmt32.sub k a.1 b.1)
  | .mul => two (fmt32.mul k a.1 b.1)
  | .max => two (fmt32.minmax k true a.1 b.1)
  | .min => two (fmt32.minmax k false a.1 b.1)
  | .exp2 => one (Sfu.fp32 .exp2 k a.1)
  | .scale => one (fmt32.mul k a.1 sc.toNat)
  | .neg => ((fmt32.canon k.dn (fmt32.signs true false (fmt32.flush k.ftz a.1)), 0), 0)
  | .abs => ((fmt32.canon k.dn (fmt32.signs false true (fmt32.flush k.ftz a.1)), 0), 0)
  | .sel => ((fmt32.canon k.dn (fmt32.flush k.ftz (if (fmt32.cmp k .gt a.1 0).1 then b.1 else (src 2 i j).1)), 0), 0)

theorem evTew_computes (hfmt : (clauseAt e.g ci).FmtOk) {op : TewOp} {rm : Rm} {sc : Word} (hop : (clauseAt e.g ci).op = .tew op rm sc) :
    e.Computes y ci (e.tewCell ci op rm sc) := by
  refine Ev.computes_of_evOp hfmt (evOp_tew hop) fun a i j hin => ?_
  cases op <;> rfl

/-! ## TRED -/

section
variable (f : Nat → Nat → Nat × Nat)

/-- One level of the tree pairs neighbours. -/
theorem pairTree_go_range (v : Nat → Nat) (s m : Nat) : pairTree.go f ((List.range' (2 * s) (2 * m)).map v) =
    (List.range' s m).map (fun i => f (v (2 * i)) (v (2 * i + 1))) := by
  induction m generalizing s with
  | zero => rfl
  | succ m ih =>
    have hpair : List.range' (2 * s) (2 * (m + 1)) = 2 * s :: (2 * s + 1) :: List.range' (2 * (s + 1)) (2 * m) := by
      rw [Nat.mul_add, List.range'_succ, List.range'_succ, Nat.add_assoc, ← Nat.mul_succ]
    rw [hpair, List.map_cons, List.map_cons, pairTree.go, ih, List.range'_succ, List.map_cons]

/-- A tree is a tree of the nodes one level up. -/
theorem treeNode_succ (leaf : Nat → Nat × Nat) (n i : Nat) : treeNode f leaf (n + 1) i = treeNode f (treeNode f leaf 1) n i := by
  induction n generalizing i with
  | zero => rfl
  | succ n ih => rw [treeNode, ih, ih]; rfl

theorem foldl_or_eq_orAll {α : Type} (fl : α → Nat) (xs : List α) (a : Nat) : xs.foldl (fun n x => n ||| fl x) a = a ||| orAll fl xs := by
  induction xs generalizing a with
  | nil => exact (Nat.or_zero a).symm
  | cons x xs ih => rw [List.foldl_cons, ih, Nat.or_assoc]; rfl

/-- The flags of the leaves and of a level above them. -/
theorem orAll_level (g h : Nat → Nat) (m : Nat) : orAll g (List.range (2 * m)) ||| orAll h (List.range m) =
    orAll (fun i => g (2 * i) ||| g (2 * i + 1) ||| h i) (List.range m) := by
  refine Nat.eq_of_testBit_eq fun n => Bool.eq_iff_iff.2 ?_
  rw [Nat.testBit_or, Bool.or_eq_true]
  simp only [testBit_orAll, List.mem_range, Nat.testBit_or, Bool.or_eq_true]
  constructor
  · rintro (⟨t, ht, hb⟩ | ⟨i, hi, hb⟩)
    · refine ⟨t / 2, by omega, .inl ?_⟩
      obtain h | h : t = 2 * (t / 2) ∨ t = 2 * (t / 2) + 1 := by omega
      · exact .inl (h ▸ hb)
      · exact .inr (h ▸ hb)
    · exact ⟨i, hi, .inr hb⟩
  · rintro ⟨i, hi, (hb | hb) | hb⟩
    · exact .inl ⟨_, by omega, hb⟩
    · exact .inl ⟨_, by omega, hb⟩
    · exact .inr ⟨i, hi, hb⟩

/-- The pairwise tree over all leaves is the node at the top (R366). -/
theorem pairTree_eq_treeNode (n : Nat) (v g : Nat → Nat) : pairTree f n ((List.range (2 ^ n)).map v) (orAll g (List.range (2 ^ n))) =
    treeNode f (fun t => (v t, g t)) n 0 := by
  induction n generalizing v g with
  | zero => exact Prod.ext rfl (Nat.or_zero _)
  | succ n ih =>
    have hlevel : pairTree.go f ((List.range (2 ^ (n + 1))).map v) = (List.range (2 ^ n)).map (fun i => f (v (2 * i)) (v (2 * i + 1))) := by
      have h := pairTree_go_range f v 0 (2 ^ n)
      rw [Nat.mul_zero] at h
      rw [Nat.pow_succ', List.range_eq_range', List.range_eq_range', h]
    rw [pairTree, hlevel, List.map_map, List.foldl_map, foldl_or_eq_orAll, treeNode_succ, Nat.pow_succ',
      orAll_level g (fun i => (f (v (2 * i)) (v (2 * i + 1))).2)]
    exact ih (fun i => (f (v (2 * i)) (v (2 * i + 1))).1) (fun i => g (2 * i) ||| g (2 * i + 1) ||| (f (v (2 * i)) (v (2 * i + 1))).2)

/-- A row or column padded to a power of two. -/
theorem map_range_padded (v : Nat → Nat × Nat) (pad n depth : Nat) (hn : n ≤ 2 ^ depth) :
    ((List.range n).map v).map (·.1) ++ List.replicate (2 ^ depth - n) pad =
      (List.range (2 ^ depth)).map (fun t => if t < n then (v t).1 else pad) := by
  obtain ⟨k, hk⟩ : ∃ k, 2 ^ depth = n + k := ⟨2 ^ depth - n, by omega⟩
  rw [hk, List.range_add, List.map_append, List.map_map, List.map_map, Nat.add_sub_cancel_left]
  refine congrArg₂ (· ++ ·) (List.map_congr_left fun t ht => ?_) ?_
  · rw [Function.comp, if_pos (List.mem_range.1 ht)]
  · refine (List.eq_replicate_iff.2 ⟨by simp, fun x hx => ?_⟩).symm
    obtain ⟨t, -, rfl⟩ := List.mem_map.1 hx
    exact if_neg (Nat.not_lt_of_le (Nat.le_add_right n t))

theorem orAll_padded (v : Nat → Nat × Nat) (n depth : Nat) (hn : n ≤ 2 ^ depth) :
    ((List.range n).map v).foldl (fun f x => f ||| x.2) 0 = orAll (fun t => if t < n then (v t).2 else 0) (List.range (2 ^ depth)) := by
  rw [foldl_or_eq_orAll, Nat.zero_or]
  refine Nat.eq_of_testBit_eq fun k => Bool.eq_iff_iff.2 ?_
  simp only [testBit_orAll, List.mem_range, List.mem_map]
  constructor
  · rintro ⟨x, ⟨t, ht, rfl⟩, hb⟩
    exact ⟨t, by omega, by rw [if_pos ht]; exact hb⟩
  · rintro ⟨t, -, hb⟩
    by_cases ht : t < n
    · rw [if_pos ht] at hb
      exact ⟨_, ⟨t, ht, rfl⟩, hb⟩
    · rw [if_neg ht, Nat.zero_testBit] at hb
      exact absurd hb Bool.false_ne_true

end

/-- The depth of the tree over `n` elements. -/
theorem treeDepth_eq {n depth : Nat} (hn : n ≤ 2 ^ depth) (hmin : depth = 0 ∨ 2 ^ (depth - 1) < n) :
    (if n ≤ 1 then 0 else (n - 1).log2 + 1) = depth := by
  by_cases hone : n ≤ 1
  · rw [if_pos hone]
    refine (hmin.resolve_right fun h => ?_).symm
    have := Nat.two_pow_pos (depth - 1)
    omega
  · rw [if_neg hone]
    obtain ⟨k, rfl⟩ : ∃ k, depth = k + 1 := ⟨depth - 1, by
      have : depth ≠ 0 := fun h => by rw [h] at hn; omega
      omega⟩
    have hlow : 2 ^ k < n := hmin.resolve_left (Nat.succ_ne_zero k)
    have hlog : (n - 1).log2 = k := (Nat.log2_eq_iff (by omega)).2 ⟨by omega, by omega⟩
    rw [hlog]

theorem evTred_computes (hfmt : (clauseAt e.g ci).FmtOk) {mx col : Bool} {q : Nat} {m : IMap} {rest : List (Src × IMap)} {depth : Nat}
    (hop : (clauseAt e.g ci).op = .tred mx col) (hsrc : (clauseAt e.g ci).srcs = (.clause q, m) :: rest) :
    let c := clauseAt e.g ci
    let n := if col then (clauseAt e.g q).rows else (clauseAt e.g q).cols
    let k : FCtl := { rm := .rne, ftz := c.fp.getLsbD 3, dn := c.fp.getLsbD 5 }
    n ≤ 2 ^ depth → (depth = 0 ∨ 2 ^ (depth - 1) < n) →
    e.Computes y ci (fun i j =>
      let z := treeNode (fun a b => if mx then fmt32.minmax k true a b else fmt32.add k a b)
        (fun t => if t < n then e.single q (if col then t else i) (if col then j else t) else (if mx then 0xFF800000 else 0x80000000, 0)) depth 0
      ((z.1, 0), z.2)) := by
  intro c n k hn hmin
  refine Ev.computes_of_evOp hfmt (evOp_tred hop) fun a i j hin => ?_
  have hdepth := treeDepth_eq hn hmin
  have hpad : (if mx then fmt32.signBit + fmt32.inf else fmt32.signBit) = if mx then 0xFF800000 else 0x80000000 := by cases mx <;> rfl
  generalize hv : (fun t => e.single q (if col then t else i) (if col then j else t)) = v
  have hleaf : (fun t => if t < n then e.single q (if col then t else i) (if col then j else t) else (if mx then 0xFF800000 else 0x80000000, 0)) =
      fun t => (if t < n then (v t).1 else (if mx then 0xFF800000 else 0x80000000), if t < n then (v t).2 else 0) := by
    funext t
    rw [← hv]
    split <;> rfl
  simp only [hleaf, ← pairTree_eq_treeNode]
  rw [← map_range_padded v _ n depth hn, ← orAll_padded v n depth hn, ← hpad, ← hdepth, ← hv]
  have hq : srcClause (clauseAt e.g ci).srcs.head? = q := by rw [hsrc]; rfl
  simp only [hq]
  rfl

end Sys2Proof.Machine
end

section
/-! What TCVT computes over a box: into a type with its own exponent by elements, into a block format by blocks of 32 (R356, R380). -/

namespace Sys2Proof.Machine

variable {y : Sys} {e : Ev} {ci : Nat}

theorem EvR.bind_ok {α : Type} (r : EvR α) : (r.bind fun e x => .ok e x) = r := by cases r <;> rfl

/-! ## By elements -/

theorem evCvt_plain (c : Clause) {m : TcvtMod} (l : Word64) (b : Box) (e : Ev) (hol : m.ol = false) : evCvt y ci c m l b e =
    evGrid b (fun e' i j =>
      let v := elemConvert c.ty (clauseAt e.g (srcClause c.srcs.head?)).ty (Rnd.of m.rm c.fp) m.sat
        (if c.ty = .fp32 then c.fp.getLsbD 3 else c.fp.getLsbD 4) (c.fp.getLsbD 5) ((e'.tile (srcClause c.srcs.head?)).elem i j)
      e'.note ci i j v.2 (v.1 % 2 ^ c.ty.width, 0)) e := by
  unfold evCvt
  simp only [hol, Bool.not_false, if_true, EvR.bind_ok]
  rfl

theorem evCvt_computes (hfmt : (clauseAt e.g ci).FmtOk) {m : TcvtMod} {l : Word64} {q : Nat} {z : IMap} {rest : List (Src × IMap)}
    (hop : (clauseAt e.g ci).op = .tcvt m l) (hsrc : (clauseAt e.g ci).srcs = (.clause q, z) :: rest) (hol : m.ol = false)
    (hpb : ElemTy.isPb (clauseAt e.g ci).ty = false) :
    let c := clauseAt e.g ci
    e.Computes y ci (fun i j =>
      let v := elemConvert c.ty (clauseAt e.g q).ty (Rnd.of m.rm c.fp) m.sat (c.fp.getLsbD (if c.ty = .fp32 then 3 else 4)) (c.fp.getLsbD 5)
        ((e.tile q).elem i j)
      ((v.1 % 2 ^ c.ty.width, 0), v.2)) := by
  intro c
  have hq : srcClause (clauseAt e.g ci).srcs.head? = q := by rw [hsrc]; rfl
  have hbody : evOp y ci c (e.box ci) (e.begin ci) = evCvt y ci c m l (e.box ci) (e.begin ci) := by
    rw [evOp_tcvt hop, hpb, if_neg Bool.false_ne_true]
  refine Ev.computes_of_evOp hfmt (hbody.trans (evCvt_plain c l _ _ hol)) fun a i j hin => ?_
  have hftz : (if c.ty = .fp32 then c.fp.getLsbD 3 else c.fp.getLsbD 4) = c.fp.getLsbD (if c.ty = .fp32 then 3 else 4) := by split <;> rfl
  simp only [c, hq] at hftz ⊢
  rw [hftz]
  rfl

/-! ## By blocks -/

/-- The first outlier of a block is noted. -/
def Ev.noteOutliers (ci i : Nat) (os : List (Nat × Nat × Nat × Nat)) (e : Ev) : EvR Unit :=
  match os with
  | [] => .ok e ()
  | o :: _ => e.note ci i o.2.1 fOUT ()

/-- One block of a conversion into a block format, as `evCvtPb` forms it, with its outliers. -/
def Ev.pbBlock (ci : Nat) (c : Clause) (q : Nat) (ty : ElemTy) (i c0 n : Nat) (e : Ev) :
    EvR (List (Nat × Nat) × List (Nat × Nat × Nat × Nat)) :=
  let cs := (List.range n).map (c0 + ·)
  let xs := cs.map (fun j => widen ty ((e.tile q).elem i j).1 ((e.tile q).elem i j).2)
  (evList (fun e (z : Nat × FV) => if z.2.isSnan then e.note ci i z.1 fIV () else .ok e ()) (cs.zip xs) e).bind fun e _ =>
  let r := pbEncode c.ty xs none
  let os := (cs.zip r.2.2).filterMap (fun z => if z.2 then some (e.outlier c q i z.1) else none)
  (e.noteOutliers ci i os).bind fun e _ => .ok e (r.1.map (fun v => (v, r.2.1)), os)

theorem evCvtPb_plain (c : Clause) {m : TcvtMod} (l : Word64) (b : Box) (e : Ev) (hfixed : m.fixed = false) (hol : m.ol = false) :
    evCvtPb y ci c m l b e =
      (evList (fun e' i => evList (fun e' k => e'.pbBlock ci c (srcClause c.srcs.head?) (clauseAt e.g (srcClause c.srcs.head?)).ty i
          (b.c0 + 32 * k) (min 32 (b.c1 - (b.c0 + 32 * k)))) (List.range ((b.c1 - b.c0 + 31) / 32)) e') b.rowList e).bind fun e rows =>
        .ok e ⟨b.r0, b.c0, rows.map (fun r => r.flatMap (·.1))⟩ := by
  unfold evCvtPb
  simp only [hol, hfixed, Bool.false_and, Bool.false_eq_true, if_false]
  rfl

/-- What a block of a conversion is encoded to. -/
def Ev.pbCodes (e : Ev) (c : Clause) (q i c0 n : Nat) : List Nat × Nat × List Bool :=
  pbEncode c.ty (((List.range n).map (c0 + ·)).map (e.exact q i)) none

theorem Ev.pbCodes_length (e : Ev) (c : Clause) (q i c0 n : Nat) :
    (e.pbCodes c q i c0 n).1.length = n ∧ (e.pbCodes c q i c0 n).2.2.length = n := by
  have h := pbEncode_none c.ty (((List.range n).map (c0 + ·)).map (e.exact q i))
  dsimp only at h
  rw [pbCodes, h]
  simp

/-- The flags of an element of a block: those of a signalling NaN, and of an outlier. -/
def Ev.pbFlags (e : Ev) (c : Clause) (q i c0 n t : Nat) : Nat :=
  (if (e.exact q i (c0 + t)).isSnan then fIV else 0) ||| (if (e.pbCodes c q i c0 n).2.2.getD t false then fOUT else 0)

/-- The outliers of a block. -/
def Ev.pbOutliers (e : Ev) (c : Clause) (q i c0 n : Nat) : List (Nat × Nat × Nat × Nat) :=
  (((List.range n).map (c0 + ·)).zip (e.pbCodes c q i c0 n).2.2).filterMap (fun z => if z.2 then some (e.outlier c q i z.1) else none)

/-- The exceptions a clause enables are of five kinds: an outlier is none of them. -/
theorem fOUT_and_enabled (fp : Word) : fOUT &&& bits fp 8 5 = 0 := by
  have hlt : bits fp 8 5 < 2 ^ 5 := BitVec.isLt _
  refine Nat.eq_of_testBit_eq fun n => ?_
  rw [Nat.testBit_and, Nat.zero_testBit, show fOUT = 2 ^ 5 from rfl, Nat.testBit_two_pow]
  by_cases h : 5 = n
  · rw [← h, Nat.testBit_lt_two_pow hlt, Bool.and_false]
  · rw [decide_eq_false h, Bool.false_and]

theorem pbFlags_enabled (fp : Word) (a o : Bool) :
    ((if a then fIV else 0) ||| (if o then fOUT else 0)) &&& bits fp 8 5 ≠ 0 ↔ a = true ∧ fIV &&& bits fp 8 5 ≠ 0 := by
  have hout : (if o then fOUT else 0) &&& bits fp 8 5 = 0 := by
    cases o
    · exact Nat.zero_and _
    · exact fOUT_and_enabled fp
  rw [Nat.and_or_distrib_right, hout, Nat.or_zero]
  cases a
  · simp
  · simp

theorem pbFlags_mod {a : Bool} (o : Bool) (ha : a = true) : ((if a then fIV else 0) ||| (if o then fOUT else 0)) % 32 = fIV % 32 := by
  rw [ha]; cases o <;> rfl

section
variable {P : BatchFault → Prop} {c : Clause} {q i c0 n : Nat}

/-- Each signalling NaN of a block raises IV. -/
theorem Ev.Notes.snans (hP : ∀ t, t < n → (e.exact q i (c0 + t)).isSnan = true → fIV &&& bits (clauseAt e.g ci).fp 8 5 ≠ 0 →
      P (e.lateFault ci i (c0 + t) 0x11 (fIV % 32))) :
    e.Notes P (evList (fun e (z : Nat × FV) => if z.2.isSnan then e.note ci i z.1 fIV () else .ok e ())
        (((List.range n).map (c0 + ·)).zip (((List.range n).map (c0 + ·)).map (e.exact q i))))
      ((((List.range n).map (c0 + ·)).zip (((List.range n).map (c0 + ·)).map (e.exact q i))).map fun _ => ())
      (orAll (fun t => if (e.exact q i (c0 + t)).isSnan then fIV else 0) (List.range n))
      (∃ t, t < n ∧ (e.exact q i (c0 + t)).isSnan = true ∧ fIV &&& bits (clauseAt e.g ci).fp 8 5 ≠ 0) := by
  have hzip : ((List.range n).map (c0 + ·)).zip (((List.range n).map (c0 + ·)).map (e.exact q i)) =
      (List.range n).map (fun t => (c0 + t, e.exact q i (c0 + t))) := by
    rw [List.map_map, List.zip_map']
    rfl
  rw [hzip]
  have hlist := Ev.Notes.list (e := e) (P := P) (xs := (List.range n).map (fun t => (c0 + t, e.exact q i (c0 + t))))
    (step := fun e (z : Nat × FV) => if z.2.isSnan then e.note ci i z.1 fIV () else .ok e ())
    (v := fun _ => ()) (fl := fun z => if z.2.isSnan then fIV else 0) (bad := fun z => z.2.isSnan = true ∧ fIV &&& bits (clauseAt e.g ci).fp 8 5 ≠ 0)
    (fun z hz => ?_)
  · refine hlist.congr rfl ?_ ?_
    · rw [orAll, orAll, List.foldr_map]
    · simp only [List.mem_map, List.mem_range, exists_exists_and_eq_and]
  · obtain ⟨t, ht, rfl⟩ := List.mem_map.1 hz
    have ht := List.mem_range.1 ht
    dsimp only
    cases hs : (e.exact q i (c0 + t)).isSnan with
    | false => simpa [hs] using Ev.Notes.pure (e := e) (P := P) ()
    | true =>
      simp only [if_true, true_and]
      exact .note ci i _ fIV () (fun hne => hP t ht hs hne)

/-- The first outlier of a block raises OUT. -/
theorem Ev.Notes.outliers (os : List (Nat × Nat × Nat × Nat)) :
    e.Notes P (Ev.noteOutliers ci i os) ()
      (if os = [] then 0 else fOUT) False := by
  cases os with
  | nil => exact .pure ()
  | cons o t =>
    rw [if_neg (List.cons_ne_nil o t)]
    have hzero := fOUT_and_enabled (clauseAt e.g ci).fp
    exact (Ev.Notes.note (e := e) (P := P) ci i o.2.1 fOUT () (fun h => absurd hzero h)).congr rfl rfl (by simp [hzero])

theorem filterMap_zip_eq_nil {α β : Type} (g : α → β) : ∀ (xs : List α) (bs : List Bool), xs.length = bs.length →
    ((xs.zip bs).filterMap (fun z => if z.2 then some (g z.1) else none) = [] ↔ ∀ t, bs.getD t false = false)
  | [], [], _ => by simp
  | x :: xs, b :: bs, h => by
    have ih := filterMap_zip_eq_nil g xs bs (Nat.succ.inj h)
    rw [List.zip_cons_cons]
    cases b with
    | true =>
      rw [List.filterMap_cons_some (by rfl)]
      exact ⟨fun h => absurd h (List.cons_ne_nil _ _), fun h => absurd (h 0) Bool.noConfusion⟩
    | false =>
      rw [List.filterMap_cons_none (by rfl), ih]
      exact ⟨fun h t => by cases t with | zero => rfl | succ t => exact h t, fun h t => h (t + 1)⟩

/-- The flag of the outliers of a block, and the flags of its elements. -/
theorem orAll_outliers (g : Nat → Nat) (bs : List Bool) {os : List (Nat × Nat × Nat × Nat)} (hos : os = [] ↔ ∀ t, bs.getD t false = false) :
    orAll g (List.range bs.length) ||| (if os = [] then 0 else fOUT) =
      orAll (fun t => g t ||| if bs.getD t false then fOUT else 0) (List.range bs.length) := by
  have hbeyond (t : Nat) (ht : bs.getD t false = true) : t < bs.length := by
    by_contra hge
    rw [List.getD_eq_default _ _ (Nat.le_of_not_lt hge)] at ht
    exact Bool.false_ne_true ht
  have hsome (k : Nat) : (if os = [] then 0 else fOUT).testBit k = true ↔ (∃ t, bs.getD t false = true) ∧ fOUT.testBit k = true := by
    by_cases hnil : os = []
    · rw [if_pos hnil, Nat.zero_testBit]
      exact ⟨fun h => absurd h Bool.false_ne_true, fun ⟨⟨t, ht⟩, _⟩ => absurd (hos.1 hnil t) (by rw [ht]; exact Bool.noConfusion)⟩
    · rw [if_neg hnil]
      refine ⟨fun h => ⟨?_, h⟩, And.right⟩
      by_contra hno
      exact hnil (hos.2 fun t => Bool.eq_false_iff.2 fun ht => hno ⟨t, ht⟩)
  have hone (t k : Nat) : (if bs.getD t false then fOUT else 0).testBit k = true ↔ bs.getD t false = true ∧ fOUT.testBit k = true := by
    cases bs.getD t false
    · simp
    · simp
  refine Nat.eq_of_testBit_eq fun k => Bool.eq_iff_iff.2 ?_
  rw [Nat.testBit_or, Bool.or_eq_true, hsome]
  simp only [testBit_orAll, List.mem_range, Nat.testBit_or, Bool.or_eq_true, hone]
  constructor
  · rintro (⟨t, ht, hb⟩ | ⟨⟨t, ht⟩, hb⟩)
    · exact ⟨t, ht, .inl hb⟩
    · exact ⟨t, hbeyond t ht, .inr ⟨ht, hb⟩⟩
  · rintro ⟨t, ht, hb | ⟨hout, hb⟩⟩
    · exact .inl ⟨t, ht, hb⟩
    · exact .inr ⟨⟨t, hout⟩, hb⟩

/-- One block leaves its codes under its scale word. -/
theorem Ev.Notes.pbBlock (hP : ∀ t, t < n → (e.exact q i (c0 + t)).isSnan = true → fIV &&& bits (clauseAt e.g ci).fp 8 5 ≠ 0 →
      P (e.lateFault ci i (c0 + t) 0x11 (fIV % 32))) :
    e.Notes P (fun e' => e'.pbBlock ci c q (clauseAt e.g q).ty i c0 n)
      ((e.pbCodes c q i c0 n).1.map (fun v => (v, (e.pbCodes c q i c0 n).2.1)), e.pbOutliers c q i c0 n)
      (orAll (e.pbFlags c q i c0 n) (List.range n)) (∃ t, t < n ∧ e.pbFlags c q i c0 n t &&& bits (clauseAt e.g ci).fp 8 5 ≠ 0) := by
  obtain ⟨-, hlen⟩ := e.pbCodes_length c q i c0 n
  have hnil : e.pbOutliers c q i c0 n = [] ↔ _ :=
    filterMap_zip_eq_nil (e.outlier c q i) ((List.range n).map (c0 + ·)) (e.pbCodes c q i c0 n).2.2 (by rw [hlen]; simp)
  have hrest := (Ev.Notes.outliers (e := e) (P := P) (ci := ci) (i := i) (e.pbOutliers c q i c0 n)).bind
    (k := fun e' _ => .ok e' ((e.pbCodes c q i c0 n).1.map (fun v => (v, (e.pbCodes c q i c0 n).2.1)), e.pbOutliers c q i c0 n)) (.pure _)
  have hboth := (Ev.Notes.snans hP).bind (k := fun e' _ =>
    let os := (((List.range n).map (c0 + ·)).zip (e.pbCodes c q i c0 n).2.2).filterMap (fun z => if z.2 then some (e'.outlier c q i z.1) else none)
    (e'.noteOutliers ci i os).bind fun e' _ => .ok e' ((e.pbCodes c q i c0 n).1.map (fun v => (v, (e.pbCodes c q i c0 n).2.1)), os))
    (fun a => hrest a)
  have hflags := orAll_outliers (fun t => if (e.exact q i (c0 + t)).isSnan then fIV else 0) _ hnil
  rw [hlen] at hflags
  refine Ev.Notes.congr (m := fun e' => e'.pbBlock ci c q (clauseAt e.g q).ty i c0 n) (fun a => hboth a) rfl ?_ ?_
  · rw [Nat.or_zero, hflags]
    rfl
  · rw [or_false, or_false]
    exact exists_congr fun t => and_congr_right fun _ => (pbFlags_enabled _ _ _).symm

end

/-! ## Rows of blocks -/

/-- Blocks of 32 side by side are a row. -/
theorem flatMap_blocks {α : Type} (g : Nat → α) (n : Nat) :
    (List.range ((n + 31) / 32)).flatMap (fun k => (List.range (min 32 (n - 32 * k))).map (fun t => g (32 * k + t))) = (List.range n).map g := by
  have hprefix (m : Nat) : (List.range m).flatMap (fun k => (List.range (min 32 (n - 32 * k))).map (fun t => g (32 * k + t))) =
      (List.range (min n (32 * m))).map g := by
    induction m with
    | zero => rw [Nat.mul_zero, Nat.min_zero]; rfl
    | succ m ih =>
      have hlen : min n (32 * (m + 1)) = min n (32 * m) + min 32 (n - 32 * m) := by omega
      rw [List.range_succ, List.flatMap_append, ih, hlen, List.range_add, List.map_append, List.flatMap_singleton, List.map_map]
      by_cases hfull : 32 * m ≤ n
      · rw [Nat.min_eq_right hfull]; rfl
      · rw [show n - 32 * m = 0 by omega]; rfl
  rw [hprefix, Nat.min_eq_left (by omega)]

/-- An element of a block of a row is an element of the row. -/
theorem exists_block {b : Box} (p : Nat → Prop) : (∃ k ∈ List.range ((b.c1 - b.c0 + 31) / 32), ∃ t < min 32 (b.c1 - (b.c0 + 32 * k)),
    p (b.c0 + 32 * k + t)) ↔ ∃ j ∈ b.colList, p j := by
  constructor
  · rintro ⟨k, -, t, ht, hp⟩
    exact ⟨_, Box.mem_colList.2 (by omega), hp⟩
  · rintro ⟨j, hj, hp⟩
    have hj := Box.mem_colList.1 hj
    refine ⟨(j - b.c0) / 32, List.mem_range.2 (by omega), (j - b.c0) % 32, by omega, ?_⟩
    rwa [show b.c0 + 32 * ((j - b.c0) / 32) + (j - b.c0) % 32 = j by omega]

/-- What an element of a conversion into a block format becomes, with its flags. -/
def Ev.pbElem (e : Ev) (ci q i j : Nat) : (Nat × Nat) × Nat :=
  let c := clauseAt e.g ci
  let x := e.box ci
  let j0 := x.c0 + (j - x.c0) / 32 * 32
  let r := pbEncode c.ty ((List.range (min 32 (x.c1 - j0))).map (fun k => e.exact q i (j0 + k))) none
  ((r.1.getD (j - j0) 0, r.2.1), (if (e.exact q i j).isSnan then fIV else 0) ||| (if r.2.2.getD (j - j0) false then fOUT else 0))

theorem Ev.pbElem_block (e : Ev) (ci q i k : Nat) {t : Nat} (ht : t < 32) :
    let c := clauseAt e.g ci
    let c0 := (e.box ci).c0 + 32 * k
    let n := min 32 ((e.box ci).c1 - c0)
    e.pbElem ci q i (c0 + t) = (((e.pbCodes c q i c0 n).1.getD t 0, (e.pbCodes c q i c0 n).2.1), e.pbFlags c q i c0 n t) := by
  intro c c0 n
  have hstart : (e.box ci).c0 + (c0 + t - (e.box ci).c0) / 32 * 32 = c0 := by omega
  have hplace : c0 + t - c0 = t := by omega
  have hcodes : pbEncode c.ty ((List.range n).map (fun k => e.exact q i (c0 + k))) none = e.pbCodes c q i c0 n := by
    rw [Ev.pbCodes, List.map_map]; rfl
  unfold Ev.pbElem
  simp only [hstart, hplace]
  rw [hcodes]
  rfl

/-- The codes of a block are the elements of its columns. -/
theorem Ev.pbCodes_cells (e : Ev) (ci q i k : Nat) :
    let c := clauseAt e.g ci
    let c0 := (e.box ci).c0 + 32 * k
    let n := min 32 ((e.box ci).c1 - c0)
    (e.pbCodes c q i c0 n).1.map (fun v => (v, (e.pbCodes c q i c0 n).2.1)) = (List.range n).map (fun t => (e.pbElem ci q i (c0 + t)).1) := by
  intro c c0 n
  obtain ⟨hlen, -⟩ := e.pbCodes_length c q i c0 n
  refine List.ext_getElem (by simp [hlen]) fun t h1 h2 => ?_
  have ht : t < n := by simpa using h2
  rw [List.getElem_map, List.getElem_map, List.getElem_range, Ev.pbElem_block e ci q i k (by omega)]
  refine Prod.ext ?_ rfl
  exact (List.getD_eq_getElem _ _ _).symm

/-- The rows of blocks are the tile of the elements. -/
theorem Ev.pbRows_tile (e : Ev) (ci q : Nat) (os : Nat → Nat → List (Nat × Nat × Nat × Nat)) :
    let c := clauseAt e.g ci
    let b := e.box ci
    let n (k : Nat) := min 32 (b.c1 - (b.c0 + 32 * k))
    let codes (i k : Nat) := e.pbCodes c q i (b.c0 + 32 * k) (n k)
    (⟨b.r0, b.c0, (b.rowList.map (fun i => (List.range ((b.c1 - b.c0 + 31) / 32)).map (fun k =>
      ((codes i k).1.map (fun v => (v, (codes i k).2.1)), os i k)))).map (fun r => r.flatMap (·.1))⟩ : TileV) =
        b.tileOf (fun i j => (e.pbElem ci q i j).1) := by
  intro c b n codes
  refine congrArg (TileV.mk b.r0 b.c0) ?_
  rw [List.map_map]
  refine List.map_congr_left fun i _ => ?_
  rw [Function.comp, List.flatMap_map]
  have hcell (k : Nat) : (codes i k).1.map (fun v => (v, (codes i k).2.1)) =
      (List.range (min 32 (b.c1 - b.c0 - 32 * k))).map (fun t => (e.pbElem ci q i (b.c0 + (32 * k + t))).1) := by
    rw [Nat.sub_sub]
    simp only [← Nat.add_assoc]
    exact e.pbCodes_cells ci q i k
  simp only [hcell]
  rw [flatMap_blocks (fun j => (e.pbElem ci q i (b.c0 + j)).1), Box.colList, List.map_map]
  rfl

/-- A property of some element of some block is one of an element of the box. -/
theorem Ev.exists_pbElem (e : Ev) (ci q : Nat) (p : Nat → Prop) :
    let b := e.box ci
    let n (k : Nat) := min 32 (b.c1 - (b.c0 + 32 * k))
    (∃ i ∈ b.rowList, ∃ k ∈ List.range ((b.c1 - b.c0 + 31) / 32), ∃ t, t < n k ∧
      p (e.pbFlags (clauseAt e.g ci) q i (b.c0 + 32 * k) (n k) t)) ↔ ∃ i j, b.holds i j ∧ p (e.pbElem ci q i j).2 := by
  intro b n
  rw [← Box.exists_holds]
  refine exists_congr fun i => and_congr_right fun _ => Iff.trans ?_ (exists_block fun j => p (e.pbElem ci q i j).2)
  refine exists_congr fun k => and_congr_right fun _ => exists_congr fun t => and_congr_right fun ht => ?_
  have hat : (e.pbElem ci q i (b.c0 + 32 * k + t)).2 = _ := congrArg Prod.snd (e.pbElem_block ci q i k (t := t) (by simp only [n] at ht; omega))
  rw [hat]

theorem evCvtPb_computes (hfmt : (clauseAt e.g ci).FmtOk) {m : TcvtMod} {l : Word64} {q : Nat} {z : IMap} {rest : List (Src × IMap)}
    (hop : (clauseAt e.g ci).op = .tcvt m l) (hsrc : (clauseAt e.g ci).srcs = (.clause q, z) :: rest) (hol : m.ol = false)
    (hpb : ElemTy.isPb (clauseAt e.g ci).ty = true) (hfixed : m.fixed = false) : e.Computes y ci (e.pbElem ci q) := by
  have hq : srcClause (clauseAt e.g ci).srcs.head? = q := by rw [hsrc]; rfl
  have hbody : evOp y ci (clauseAt e.g ci) (e.box ci) (e.begin ci) = evCvtPb y ci (clauseAt e.g ci) m l (e.box ci) (e.begin ci) := by
    rw [evOp_tcvt hop, if_pos hpb]
  rw [evCvtPb_plain _ l _ _ hfixed hol, hq] at hbody
  have hrow (i : Nat) (hi : i ∈ (e.box ci).rowList) := Ev.Notes.list (e := e.begin ci) (P := e.Excepts ci (e.pbElem ci q))
    (xs := List.range (((e.box ci).c1 - (e.box ci).c0 + 31) / 32)) (fun k _ => Ev.Notes.pbBlock (ci := ci) (c := clauseAt e.g ci) (q := q) (i := i)
      (c0 := (e.box ci).c0 + 32 * k) (n := min 32 ((e.box ci).c1 - ((e.box ci).c0 + 32 * k))) (fun t ht hs hne => by
        have hrow := Box.mem_rowList.1 hi
        have hat := e.pbElem_block ci q i k (t := t) (by omega)
        have hflags : (e.pbElem ci q i ((e.box ci).c0 + 32 * k + t)).2 = _ := congrArg Prod.snd hat
        refine ⟨i, (e.box ci).c0 + 32 * k + t, ⟨hrow.1, hrow.2, by omega, by omega⟩, ?_, ?_⟩
        · rw [hflags]
          exact (pbFlags_enabled _ _ _).2 ⟨hs, hne⟩
        · exact congrArg (e.lateFault ci i _ 0x11) ((congrArg (· % 32) hflags).trans (pbFlags_mod _ hs)).symm))
  have hall := (Ev.Notes.list hrow).bind
    (k := fun e' rows => .ok e' (⟨(e.box ci).r0, (e.box ci).c0, rows.map (fun r => r.flatMap (·.1))⟩ : TileV)) (.pure _)
  refine Ev.computes_of_notes (e.begin_alike ci) ((evClause_eq hfmt).trans (by rw [hbody]))
    (hall.congr (e.pbRows_tile ci q _) (Nat.or_zero _) ((iff_of_eq (or_false _)).trans (e.exists_pbElem ci q (fun x => x &&& bits (clauseAt e.g ci).fp 8 5 ≠ 0))))
    (fun i j hin => Box.elem_tileOf hin _) (fun n => ?_)
  simp only [testBit_orAll]
  refine Iff.trans ?_ (e.exists_pbElem ci q (fun x => x.testBit n = true))
  simp only [List.mem_range]
  rfl

end Sys2Proof.Machine
end

section
/-! What TMMA computes over a box (R362 to R364, R375): bytes by exact integer sums, other types by groups of 16 products. -/

namespace Sys2Proof.Machine

/-! ## The groups of a row of products -/

/-- Numbers below `n` with one quotient by 16 are 16 in a row, or those that are left. -/
theorem filter_div_range (n g : Nat) : (List.range n).filter (fun k => k / 16 = g) = List.range' (16 * g) (min 16 (n - 16 * g)) := by
  induction n with
  | zero => rw [Nat.zero_sub, Nat.min_zero]; rfl
  | succ n ih =>
    rw [List.range_succ, List.filter_append, ih]
    by_cases hg : n / 16 = g
    · have hlen : min 16 (n + 1 - 16 * g) = min 16 (n - 16 * g) + 1 := by omega
      have hlast : 16 * g + min 16 (n - 16 * g) = n := by omega
      rw [List.filter_cons_of_pos (by simp [hg]), hlen, List.range'_concat, Nat.one_mul, hlast]
      rfl
    · have hlen : min 16 (n + 1 - 16 * g) = min 16 (n - 16 * g) := by omega
      rw [List.filter_cons_of_neg (by simp [hg]), hlen]
      exact List.append_nil _

theorem take_drop_range {α : Type} (h : Nat → α) (n g : Nat) :
    (((List.range n).map h).drop (16 * g)).take 16 = ((List.range n).filter (fun k => k / 16 = g)).map h := by
  rw [filter_div_range, ← List.map_drop, ← List.map_take, List.range_eq_range', List.drop_range', Nat.zero_add, Nat.mul_one]
  by_cases hfull : 16 ≤ n - 16 * g
  · rw [List.take_range'_of_length_ge hfull, Nat.min_eq_left hfull]
  · rw [List.take_range'_of_length_le (by omega), Nat.min_eq_right (by omega)]

/-- The chain of a row of products takes its groups in order (R364). -/
theorem chain_eq_foldl (n : Nat) (ps : List (FV × Bool)) (acc : Nat × Nat) :
    chain n ps acc = (List.range n).foldl (fun acc g => groupStep ((ps.drop (16 * g)).take 16) acc) acc := by
  induction n generalizing ps acc with
  | zero => rfl
  | succ n ih =>
    have hstep : chain (n + 1) ps acc = chain n (ps.drop 16) (groupStep (ps.take 16) acc) := by
      have hadd := accAdd_eq_add acc.1 (groupSum_quiet (ps.take 16))
      rw [groupStep, ← hadd]
      rfl
    rw [hstep, ih, List.range_succ_eq_map, List.foldl_cons, List.foldl_map]
    simp only [List.drop_drop, Nat.mul_zero, List.drop_zero, Nat.mul_succ, Nat.add_comm]

/-! ## Bytes -/

theorem toInt_widen_byte {t : ElemTy} (ht : ElemTy.isByteInt t = true) (v s : Nat) : FV.toInt (widen t v s) = byteNum t v := by
  rw [ElemTy.isByteInt, Bool.or_eq_true, decide_eq_true_eq, decide_eq_true_eq] at ht
  rcases ht with rfl | rfl
  · have hwiden : widen .int8 v s = if 128 ≤ v % 256 then .fin true (256 - v % 256) 0 else .fin false (v % 256) 0 := by
      simp [widen]
    rw [hwiden, byteNum, if_pos rfl, BitVec.toInt_eq_toNat_cond, BitVec.toNat_ofNat]
    by_cases hneg : 128 ≤ v % 256
    · rw [if_pos hneg, if_neg (by omega)]
      simp only [FV.toInt]
      simp; omega
    · rw [if_neg hneg, if_pos (by omega)]
      simp [FV.toInt]
  · simp [widen, byteNum, FV.toInt]

theorem zipWith_map_range {α β : Type} (f : α → α → β) (a b : Nat → α) (n : Nat) :
    List.zipWith f ((List.range n).map a) ((List.range n).map b) = (List.range n).map (fun k => f (a k) (b k)) := by
  rw [List.zipWith_map, List.zipWith_self]

/-! ## TMMA -/

variable {y : Sys} {e : Ev} {ci : Nat}

/-- The steps of the engine that a TMMA takes begin with its evaluation. -/
def Ev.mmaStart (ka kb : Nat) (b : Box) (e : Ev) : Ev :=
  if e.todo = [] then
    { e with run := e.run.engineAdd (e.bid / 4) (engineSteps (clauseAt e.g ka).ty (clauseAt e.g kb).ty (b.r1 - b.r0) (b.c1 - b.c0) (clauseAt e.g ka).cols) }
  else e

/-- One element of a TMMA, as `evMma` forms it; the operands' tiles are read of the evaluation before the engine begins. -/
def mmaStep (ci ka kb : Nat) (third : Option Src) (ol : Bool) (b : Box) (e0 e : Ev) (i j : Nat) : EvR (Nat × Nat) :=
  let a := clauseAt e0.g ka
  let bb := clauseAt e0.g kb
  let int := ElemTy.isByteInt a.ty && ElemTy.isByteInt bb.ty
  let ra := (List.range a.cols).map (e0.exact ka i)
  let cb := ((List.range (b.c1 - b.c0)).map (fun j => (List.range a.cols).map (fun k => e0.exact kb k (b.c0 + j)))).getD (j - b.c0) []
  let ad := e.addend third int i j
  if int then
    let z := (List.zipWith (fun x w => FV.toInt x * FV.toInt w) ra cb).foldl (· + ·) (0 : Int)
    e.note ci i j ad.2 (((z + ad.1) % 2 ^ 32).toNat, 0)
  else
    let sum := chain ((a.cols + 15) / 16) (List.zipWith mulExact ra cb) ad
    let all := (if ol then e.corrections ka kb a bb i j else []).foldl (fun (acc : Nat × Nat) (t : FV × Bool) =>
      ((accAdd acc.1 t).1, acc.2 ||| (accAdd acc.1 t).2)) sum
    e.note ci i j all.2 (all.1, 0)

theorem evMma_plain {c : Clause} {ka kb : Nat} {ma mb : IMap} {rest : List (Src × IMap)}
    (hsrc : c.srcs = (.clause ka, ma) :: (.clause kb, mb) :: rest) (ol : Bool) (b : Box) :
    evMma ci c ol b e = evGrid b (mmaStep ci ka kb (rest.head?.map (·.1)) ol b e) (e.mmaStart ka kb b) := by
  unfold evMma
  rw [hsrc]
  rfl

/-- The engine's steps change nothing that a TMMA reads. -/
theorem Ev.mmaStart_cases (e : Ev) (ka kb : Nat) (b : Box) : ∃ r : Run, e.mmaStart ka kb b = { e with run := r } ∧ r.mem = e.run.mem ∧
    r.blocks = e.run.blocks ∧ ∀ core n row col, r.accGet core n row col = e.run.accGet core n row col := by
  unfold mmaStart
  split
  · refine ⟨_, rfl, rfl, rfl, fun core n row col => ?_⟩
    have hacc (k : Core) (duty t m : Nat) : ({ k.runTo duty t with nx := (k.runTo duty t).nx + m } : Core).acc = k.acc := rfl
    simp only [Run.accGet, Run.engineAdd, Run.core_onCore]
    split
    next h => rw [hacc, h]
    next => rfl
  · exact ⟨e.run, rfl, rfl, rfl, fun _ _ _ _ => rfl⟩

theorem Ev.addend_congr {r : Run} (h : ∀ core n row col, r.accGet core n row col = e.run.accGet core n row col) (third : Option Src) (int : Bool)
    (i j : Nat) : ({ e with run := r } : Ev).addend third int i j = e.addend third int i j := by
  unfold addend
  split
  · rw [h]
  · rfl
  · rfl

/-- A column of the second operand. -/
theorem column_of_holds {α : Type} (g : Nat → α) {b : Box} {i j : Nat} (h : b.holds i j) (d : α) :
    ((List.range (b.c1 - b.c0)).map (fun j => g (b.c0 + j))).getD (j - b.c0) d = g j := by
  obtain ⟨-, -, h3, h4⟩ := h
  rw [List.getD_eq_getElem?_getD, List.getElem?_map, List.getElem?_range (by omega), Option.map_some, Option.getD_some]
  exact congrArg g (by omega)

section
variable {acc ol : Bool} {ka kb : Nat} {ma mb : IMap} {rest : List (Src × IMap)}

/-- A TMMA whose elements are noted computes them. -/
theorem Ev.computes_of_mmaStep (hfmt : (clauseAt e.g ci).FmtOk) (hop : (clauseAt e.g ci).op = .tmma acc ol)
    (hsrc : (clauseAt e.g ci).srcs = (.clause ka, ma) :: (.clause kb, mb) :: rest) {f : Nat → Nat → (Nat × Nat) × Nat}
    (hstep : ∀ (r : Run) (a i j : Nat), (∀ core n row col, r.accGet core n row col = e.run.accGet core n row col) → (e.box ci).holds i j →
      mmaStep ci ka kb (rest.head?.map (·.1)) ol (e.box ci) (e.begin ci) ({ e.begin ci with run := r }.raise a) i j =
        ({ e.begin ci with run := r }.raise a).note ci i j (f i j).2 (f i j).1) : e.Computes y ci f := by
  obtain ⟨r, hr, hmem, hblocks, hacc⟩ := (e.begin ci).mmaStart_cases ka kb (e.box ci)
  refine Ev.computes_of_grid (e1 := { e.begin ci with run := r }) ⟨rfl, rfl, rfl, rfl, hmem, hblocks⟩
    ((evClause_eq hfmt).trans (by rw [evOp_tmma hop, evMma_plain hsrc, hr])) fun a i j hin => hstep r a i j hacc hin

theorem evMma_bytes_computes (hfmt : (clauseAt e.g ci).FmtOk) (hop : (clauseAt e.g ci).op = .tmma acc ol)
    (hsrc : (clauseAt e.g ci).srcs = (.clause ka, ma) :: (.clause kb, mb) :: rest)
    (hta : ElemTy.isByteInt (clauseAt e.g ka).ty = true) (htb : ElemTy.isByteInt (clauseAt e.g kb).ty = true) :
    e.Computes y ci (fun i j =>
      let ad := e.addend (rest.head?.map (fun (z : Src × IMap) => z.1)) true i j
      let z : Int := ((List.range (clauseAt e.g ka).cols).map (fun k =>
        byteNum (clauseAt e.g ka).ty ((e.tile ka).elem i k).1 * byteNum (clauseAt e.g kb).ty ((e.tile kb).elem k j).1)).sum
      ((((z + ad.1) % 2 ^ 32).toNat, 0), ad.2)) := by
  refine Ev.computes_of_mmaStep hfmt hop hsrc fun r a i j hacc hin => ?_
  have hint : (ElemTy.isByteInt (clauseAt (e.begin ci).g ka).ty && ElemTy.isByteInt (clauseAt (e.begin ci).g kb).ty) = true := by
    rw [Bool.and_eq_true]; exact ⟨hta, htb⟩
  have hcol := column_of_holds (fun j => (List.range (clauseAt e.g ka).cols).map (fun k => e.exact kb k j)) hin []
  have hsum : (List.zipWith (fun x w => FV.toInt x * FV.toInt w) ((List.range (clauseAt e.g ka).cols).map (e.exact ka i))
      ((List.range (clauseAt e.g ka).cols).map (fun k => e.exact kb k j))).foldl (· + ·) (0 : Int) =
      ((List.range (clauseAt e.g ka).cols).map (fun k =>
        byteNum (clauseAt e.g ka).ty ((e.tile ka).elem i k).1 * byteNum (clauseAt e.g kb).ty ((e.tile kb).elem k j).1)).sum := by
    rw [zipWith_map_range, ← List.sum_eq_foldl]
    refine congrArg List.sum (List.map_congr_left fun k _ => ?_)
    rw [Ev.exact, Ev.exact, toInt_widen_byte hta, toInt_widen_byte htb]
  have hadd : ({ e.begin ci with run := r } : Ev).addend (rest.head?.map (·.1)) true i j = e.addend (rest.head?.map (·.1)) true i j :=
    Ev.addend_congr (e := e.begin ci) hacc _ true i j
  refine (if_pos hint).trans ?_
  dsimp only
  rw [← hsum, ← hcol, ← hadd, hint]
  rfl

theorem evMma_floats_computes (hfmt : (clauseAt e.g ci).FmtOk) (hop : (clauseAt e.g ci).op = .tmma acc ol)
    (hsrc : (clauseAt e.g ci).srcs = (.clause ka, ma) :: (.clause kb, mb) :: rest)
    (hno : ¬(ElemTy.isByteInt (clauseAt e.g ka).ty = true ∧ ElemTy.isByteInt (clauseAt e.g kb).ty = true)) :
    e.Computes y ci (fun i j =>
      let n := (clauseAt e.g ka).cols
      let sum := (List.range ((n + 15) / 16)).foldl (fun acc g =>
        groupStep (((List.range n).filter (fun k => k / 16 = g)).map (fun k => mulExact (e.exact ka i k) (e.exact kb k j))) acc)
        (e.addend (rest.head?.map (fun (z : Src × IMap) => z.1)) false i j)
      let all := (if ol then e.corrections ka kb (clauseAt e.g ka) (clauseAt e.g kb) i j else []).foldl (fun acc p =>
        ((accAdd acc.1 p).1, acc.2 ||| (accAdd acc.1 p).2)) sum
      ((all.1, 0), all.2)) := by
  refine Ev.computes_of_mmaStep hfmt hop hsrc fun r a i j hacc hin => ?_
  have hint : (ElemTy.isByteInt (clauseAt (e.begin ci).g ka).ty && ElemTy.isByteInt (clauseAt (e.begin ci).g kb).ty) = false := by
    rw [Bool.eq_false_iff, ne_eq, Bool.and_eq_true]; exact hno
  have hcol := column_of_holds (fun j => (List.range (clauseAt e.g ka).cols).map (fun k => e.exact kb k j)) hin []
  have hadd : ({ e.begin ci with run := r } : Ev).addend (rest.head?.map (·.1)) false i j = e.addend (rest.head?.map (·.1)) false i j :=
    Ev.addend_congr (e := e.begin ci) hacc _ false i j
  have hsum (ad : Nat × Nat) : chain (((clauseAt e.g ka).cols + 15) / 16) (List.zipWith mulExact ((List.range (clauseAt e.g ka).cols).map (e.exact ka i))
      ((List.range (clauseAt e.g ka).cols).map (fun k => e.exact kb k j))) ad = (List.range (((clauseAt e.g ka).cols + 15) / 16)).foldl (fun acc g =>
        groupStep (((List.range (clauseAt e.g ka).cols).filter (fun k => k / 16 = g)).map
          (fun k => mulExact (e.exact ka i k) (e.exact kb k j))) acc) ad := by
    rw [zipWith_map_range, chain_eq_foldl]
    simp only [take_drop_range]
  refine (if_neg (Bool.eq_false_iff.1 hint)).trans ?_
  dsimp only
  rw [← hsum, ← hcol, ← hadd, hint]
  rfl

end

end Sys2Proof.Machine
end

section
/-! The writes of a demand in memory (R386). -/

namespace Sys2Proof.Machine

/-- Writes of whole bytes are not joined. -/
theorem joinCells_whole {m : Nat} (hm : m ≠ 0) : ∀ xs : List CellW, (∀ x ∈ xs, x.mask = m) → joinCells xs = xs
  | [], _ => rfl
  | [_], _ => rfl
  | a :: b :: t, h => by
    have ha := h a List.mem_cons_self
    have hb := h b (List.mem_cons_of_mem _ List.mem_cons_self)
    have hno : ¬(decide (a.sp = b.sp) && decide (a.addr = b.addr) && decide (a.mask &&& b.mask = 0)) = true := by
      rw [ha, hb, Nat.and_self, decide_eq_false hm, Bool.and_false]
      exact Bool.false_ne_true
    rw [joinCells]
    exact (if_neg hno).trans (congrArg (a :: ·) (joinCells_whole hm (b :: t) fun x hx => h x (List.mem_cons_of_mem _ hx)))

theorem ElemTy.bytes_pos (t : ElemTy) : 0 < ElemTy.bytes t := by cases t <;> decide

/-- The writes of a root whose elements are of whole bytes. -/
theorem demandWrites_whole {c : Clause} {d : Demand} (v : TileV) {sp : Bool} {base : Word64} {rs cs : Int} (ht : d.target = .mem sp base rs cs)
    (hpb : ElemTy.isPb c.ty = false) : demandWrites c d v = (writeCells c d.target d.region).map (fun x =>
      cellWrite c.ty v sp base.toNat (x.1 * rs + x.2 * cs) x.1 x.2) := by
  have hmask : ∀ x ∈ (writeCells c d.target d.region).map (fun x => cellWrite c.ty v sp base.toNat (x.1 * rs + x.2 * cs) x.1 x.2),
      x.mask = 2 ^ (8 * ElemTy.bytes c.ty) - 1 := by
    intro x hx
    obtain ⟨z, -, rfl⟩ := List.mem_map.1 hx
    have hno : c.ty ≠ .pb4 := fun h => by rw [h] at hpb; exact nomatch hpb
    exact if_neg hno
  have hpos : 2 ^ (8 * ElemTy.bytes c.ty) - 1 ≠ 0 := by
    have h := Nat.pow_lt_pow_right (a := 2) (by decide) (Nat.mul_pos (by decide : 0 < 8) (ElemTy.bytes_pos c.ty))
    omega
  have hjoin := joinCells_whole hpos _ hmask
  unfold demandWrites
  rw [ht] at hjoin ⊢
  simp only [hpb, Bool.false_eq_true, if_false, List.map_nil, List.append_nil]
  exact hjoin

theorem demandWrites_places {c : Clause} {d : Demand} (v : TileV) {sp : Bool} {base : Word64} {rs cs : Int} (ht : d.target = .mem sp base rs cs)
    (hpb : ElemTy.isPb c.ty = false) : (demandWrites c d v).map (fun w => (w.row, w.col, w.sp, w.addr, w.n, w.v)) =
      (List.range d.region.rows).flatMap (fun i => (List.range d.region.cols).map (fun j =>
        let row := d.region.row0 + i
        let col := d.region.col0 + j
        (row, col, sp, ((base.toNat + (row * rs + col * cs) * ElemTy.bytes c.ty) % 2 ^ 64).toNat, ElemTy.bytes c.ty, (v.elem row col).1))) := by
  have hno : c.ty ≠ .pb4 := fun h => by rw [h] at hpb; exact nomatch hpb
  have hbox : c.evalBox true d.region.box = d.region.box := by rw [Clause.evalBox, hpb]; rfl
  have hcells : writeCells c d.target d.region = (List.range d.region.rows).flatMap (fun i =>
      (List.range d.region.cols).map (fun j => (d.region.row0 + i, d.region.col0 + j))) := by
    unfold writeCells
    rw [ht]
    simp only [hbox]
    simp only [Region.box, Nat.add_sub_cancel_left]
  have hcell (off : Int) (i j : Nat) : cellWrite c.ty v sp base.toNat off i j =
      ⟨i, j, sp, ((base.toNat + off * ElemTy.bytes c.ty) % 2 ^ 64).toNat, ElemTy.bytes c.ty, (v.elem i j).1, 2 ^ (8 * ElemTy.bytes c.ty) - 1⟩ := by
    simp only [cellWrite, elemAddr, if_neg hno, Nat.pow_zero, Nat.mul_one]
  rw [demandWrites_whole v ht hpb, hcells, List.map_flatMap, List.map_flatMap]
  refine List.flatMap_congr fun i _ => ?_
  rw [List.map_map, List.map_map]
  refine List.map_congr_left fun j _ => ?_
  simp only [Function.comp, hcell]

end Sys2Proof.Machine
end

section
/-! Evaluating a demand leaves the batches of every block as they are (R326): what its accesses, draws and writes change is elsewhere. -/

namespace Sys2Proof.Machine

/-- Every block has the batches it had. -/
structure Run.SameBatches (r t : Run) : Prop where
  at_ : ∀ b, (t.blocks.get? b).map (·.batches) = (r.blocks.get? b).map (·.batches)

namespace Run.SameBatches

variable {r t u : Run}

theorem refl (r : Run) : r.SameBatches r := ⟨fun _ => rfl⟩
theorem of_blocks (h : t.blocks = r.blocks) : r.SameBatches t := ⟨fun b => by rw [h]⟩
theorem trans (h : r.SameBatches t) (g : t.SameBatches u) : r.SameBatches u := ⟨fun b => (g.at_ b).trans (h.at_ b)⟩

/-- The batches of a block that is there. -/
theorem get? (h : r.SameBatches t) {b : Nat} {x : Block} (hx : r.blocks.get? b = some x) :
    ∃ z, t.blocks.get? b = some z ∧ z.batches = x.batches := by
  have hb := h.at_ b
  rw [hx] at hb
  cases hz : t.blocks.get? b with
  | none => rw [hz] at hb; exact nomatch hb
  | some z => rw [hz] at hb; exact ⟨z, rfl, Option.some.inj hb⟩

end Run.SameBatches

/-! ## The accesses -/

theorem SameButTlb.blocks {r t : Run} (h : SameButTlb r t) : t.blocks = r.blocks := by
  have e : ({ t with cores := r.cores, dies := r.dies } : Run).blocks = r.blocks := congrArg Run.blocks h
  exact e

theorem pullPage_blocks (r : Run) (cid g : Nat) : (pullPage r cid g).blocks = r.blocks := by
  unfold pullPage
  dsimp only
  split
  · rfl
  split
  · rfl
  · exact toPeer_keeps _ _ _ _ Run.blocks fun _ _ _ => rfl

theorem sendReplay_blocks (r : Run) (core slot cid : Nat) (epc : Word64) (k : Want) (es : List (Nat × WalkErr)) :
    (sendReplay r core slot cid epc k es).blocks = r.blocks := by
  unfold sendReplay sendReplays
  refine (Run.foldl_keeps Run.blocks (fun r e => ?_) _ _).trans rfl
  dsimp only
  split
  · exact pullPage_blocks _ _ _
  · rfl

theorem dataOut_blocks (r : Run) (p die : Nat) (e : Word64) (line : Nat) (o : Out) : (r.dataOut p die e line o).blocks = r.blocks := by
  unfold Run.dataOut
  split
  · rfl
  · split <;> rfl

theorem atomicOut_blocks (r : Run) (p die : Nat) (e : Word64) (wid l pa va : Nat) (a : AtomicReq) :
    (r.atomicOut p die e wid l pa va a).2.blocks = r.blocks := by
  unfold Run.atomicOut
  dsimp only
  split <;> rfl

theorem batchRecent_blocks (r : Run) (bid : Nat) (spc : Option Nat) (addr n : Nat) : (r.batchRecent bid spc addr n).blocks = r.blocks := by
  unfold Run.batchRecent
  split <;> rfl

theorem sameBatches_scrStore (r : Run) (b a v n : Nat) : r.SameBatches (scrStore r b a v n) := by
  refine ⟨fun k => ?_⟩
  rw [scrStore_blocks, scrWrite, Run.onBlock_blocks, Tbl.get?_upd]
  split
  next h => subst h; cases r.blocks.get? k <;> rfl
  next => rfl

theorem markedStore_blocks (r : Run) (core cid va gpa pa : Nat) (bs : List Byte) :
    (storeBytes (markDirty r core cid va gpa) pa bs).blocks = r.blocks :=
  (storeBytes_read Run.blocks (fun _ _ _ => rfl) _ _ _).trans (markDirty_read Run.blocks (fun _ _ _ => rfl) ..)

/-! ## Evaluations that keep the batches -/

/-- Wherever an evaluation stands, the batches are those of a run. -/
def EvR.Keeps {α : Type} (r : Run) (x : EvR α) : Prop :=
  match x with
  | .ok e _ | .fault e _ | .pause e _ _ | .more e _ | .ask e _ _ _ => r.SameBatches e.run

section
variable {α β : Type} {r : Run}

theorem EvR.Keeps.bind {x : EvR α} {f : Ev → α → EvR β} (hx : x.Keeps r) (hf : ∀ e v, r.SameBatches e.run → (f e v).Keeps r) :
    (x.bind f).Keeps r := by
  cases x with
  | ok e v => exact hf e v hx
  | fault | pause | more | ask => exact hx

theorem Ev.once_keeps {e : Ev} (he : r.SameBatches e.run) {f : Ev → EvR Nat} (hf : ∀ e, r.SameBatches e.run → (f e).Keeps r) : (e.once f).Keeps r := by
  unfold Ev.once
  split
  · exact he
  · exact (hf e he).bind fun _ _ he => by exact he

theorem evList_keeps {f : Ev → α → EvR β} (hf : ∀ e x, r.SameBatches e.run → (f e x).Keeps r) (xs : List α) {e : Ev} (he : r.SameBatches e.run) :
    (evList f xs e).Keeps r := by
  induction xs generalizing e with
  | nil => exact he
  | cons x xs ih => exact (hf e x he).bind fun e y he => (ih he).bind fun _ _ he => by exact he

theorem evGrid_keeps {f : Ev → Nat → Nat → EvR (Nat × Nat)} (b : Box) (hf : ∀ e i j, r.SameBatches e.run → (f e i j).Keeps r) {e : Ev}
    (he : r.SameBatches e.run) : (evGrid b f e).Keeps r :=
  (evList_keeps (fun e i he => evList_keeps (fun e j he => hf e i j he) _ he) _ he).bind fun _ _ he => by exact he

theorem Ev.note_keeps {e : Ev} (he : r.SameBatches e.run) (ci i j fl : Nat) (x : α) : (e.note ci i j fl x).Keeps r := by
  unfold Ev.note
  dsimp only
  split <;> exact he

theorem Ev.access_keeps (y : Sys) {e : Ev} (he : r.SameBatches e.run) (ci i j : Nat) (sp : Bool) (addr n : Nat) (wr : Bool) :
    (e.access y ci i j sp addr n wr).Keeps r := by
  unfold Ev.access
  dsimp only
  split
  · split <;> exact he
  split
  · exact he
  split
  · exact he
  split
  · exact he
  have hwalk (core m cid a : Nat) (k : Want) : r.SameBatches (translate y (e.run.startWalks core m) core cid a k).2 :=
    he.trans (.of_blocks ((translate_frame ..).blocks.trans (startWalks_frame ..).blocks))
  split
  next r' h =>
    have ht : r.SameBatches r' := by
      rw [show r' = _ from (congrArg Prod.snd h).symm]
      exact hwalk ..
    split
    · exact ht.trans (.of_blocks (sendReplay_blocks ..))
    · exact ht
  next r' h =>
    have ht : r.SameBatches r' := by
      rw [show r' = _ from (congrArg Prod.snd h).symm]
      exact hwalk ..
    split <;> exact ht

theorem Ev.draw_keeps {e : Ev} (he : r.SameBatches e.run) (ci i j k : Nat) : r.SameBatches (e.draw ci i j k).2 := by
  unfold Ev.draw
  dsimp only
  split
  · exact he
  · exact he.trans (.of_blocks rfl)

theorem Ev.pick_keeps {e : Ev} (he : r.SameBatches e.run) (ci i j k : Nat) (now : Byte) (old : List Byte) :
    r.SameBatches (e.pick ci i j k now old).2 := by
  unfold Ev.pick
  split
  · exact he
  · exact e.draw_keeps he ci i j k

theorem Ev.bytes_keeps (ci i j : Nat) (spc : Option Nat) (addr v n k : Nat) {e : Ev} (he : r.SameBatches e.run) :
    r.SameBatches (e.bytes ci i j spc addr v n k).2.run := by
  induction n generalizing e k with
  | zero => exact he
  | succ n ih => exact ih (k + 1) (e.pick_keeps he ..)

theorem Ev.load_keeps (y : Sys) {e : Ev} (he : r.SameBatches e.run) (ci i j : Nat) (sp : Bool) (addr n : Nat) (operand : Bool) :
    (e.load y ci i j sp addr n operand).Keeps r := by
  refine (Ev.once_keeps he fun e he => (e.access_keeps y he ..).bind fun e p he => ?_).bind fun _ _ he => by exact he
  split
  · dsimp only
    split
    · exact he
    · exact Ev.bytes_keeps _ _ _ _ _ _ _ _ he
  · exact he
  · split
    · exact he.trans (.of_blocks (dataOut_blocks ..))
    · dsimp only
      split
      · exact he
      · exact Ev.bytes_keeps _ _ _ _ _ _ _ _ he

theorem Ev.store_keeps {e : Ev} (he : r.SameBatches e.run) (ci i j : Nat) (p : WPlace) (n v mask : Nat) :
    r.SameBatches (e.store ci i j p n v mask).run := by
  unfold Ev.store
  dsimp only
  split
  · exact (he.trans (sameBatches_scrStore ..)).trans (.of_blocks (batchRecent_blocks ..))
  · exact he
  · split
    · refine he.trans (.of_blocks ((dataOut_blocks ..).trans ?_))
      split <;> rfl
    · exact he.trans (.of_blocks ((batchRecent_blocks ..).trans (markedStore_blocks ..)))

theorem Ev.write_keeps (y : Sys) {e : Ev} (he : r.SameBatches e.run) (ci i j : Nat) (sp : Bool) (addr n v mask : Nat) :
    (e.write y ci i j sp addr n v mask).Keeps r :=
  (Ev.once_keeps he fun e he => (e.access_keeps y he ..).bind fun e p he => by exact e.store_keeps he ..).bind fun _ _ he => by exact he

theorem Ev.count_keeps (y : Sys) {e : Ev} (he : r.SameBatches e.run) (ci i j : Nat) (sp : Bool) (addr n : Nat) :
    (e.count y ci i j sp addr n).Keeps r := by
  refine (Ev.once_keeps he fun e he => (e.access_keeps y he ..).bind fun e p he => ?_).bind fun e old he => ?_
  · split
    · exact e.store_keeps he ..
    · split
      · dsimp only
        split
        · exact he
        · exact he.trans (.of_blocks (atomicOut_blocks ..))
      · exact e.store_keeps he ..
  · split
    · exact he
    · exact (e.load_keeps y he ..).bind fun e old he => (e.write_keeps y he ..).bind fun _ _ he => by exact he

theorem Ev.scaleWord_keeps (y : Sys) {e : Ev} (he : r.SameBatches e.run) (ci i j : Nat) (f : BitVec 96) (b : Int) :
    (e.scaleWord y ci i j f b).Keeps r := by
  unfold Ev.scaleWord
  split
  · exact he
  · exact (e.load_keeps y he ..).bind fun _ _ he => by exact he

theorem Ev.blockWord_keeps (y : Sys) {e : Ev} (he : r.SameBatches e.run) (ci i j : Nat) (c : Clause) (sp : Bool) (base : Nat) (b : Int) :
    (e.blockWord y ci i j c sp base b).Keeps r := by
  unfold Ev.blockWord
  split
  · exact e.scaleWord_keeps y he ..
  · exact (evList_keeps (fun e k he => e.load_keeps y he ..) _ he).bind fun e _ he => e.scaleWord_keeps y he ..

/-! ## The operations -/

theorem evLoad_keeps (y : Sys) (ci : Nat) (c : Clause) (sp : Bool) (base : Nat) (m : IMap) (b : Box) {e : Ev} (he : r.SameBatches e.run) :
    (evLoad y ci c sp base m b e).Keeps r := by
  unfold evLoad
  split
  · exact he
  · refine evGrid_keeps b (fun e i j he => (e.load_keeps y he ..).bind fun e v he => ?_) he
    split
    · exact (e.blockWord_keeps y he ..).bind fun _ _ he => by exact he
    · exact he

theorem evLeaf_keeps (y : Sys) (ci : Nat) (c : Clause) (sp : Bool) (base : Nat) (b : Box) {e : Ev} (he : r.SameBatches e.run) :
    (evLeaf y ci c sp base b e).Keeps r := by
  refine evGrid_keeps b (fun e i j he => (e.load_keeps y he ..).bind fun e v he => ?_) he
  split
  · exact (e.load_keeps y he ..).bind fun _ _ he => by exact he
  · exact he

theorem evMap_keeps (c : Clause) (b : Box) {e : Ev} (he : r.SameBatches e.run) : (evMap c b e).Keeps r := by
  unfold evMap
  split
  · exact evGrid_keeps b (fun _ _ _ he => by exact he) he
  · exact he

theorem evMma_keeps (ci : Nat) (c : Clause) (ol : Bool) (b : Box) {e : Ev} (he : r.SameBatches e.run) : (evMma ci c ol b e).Keeps r := by
  unfold evMma
  split
  · refine EvR.Keeps.bind (evList_keeps (fun e i he => evList_keeps (fun e j he => ?_) _ he) _ ?_) fun _ _ he => by exact he
    · dsimp only
      split
      · exact e.note_keeps he ..
      · exact e.note_keeps he ..
    · split
      · exact he.trans (.of_blocks rfl)
      · exact he
  · exact he

theorem evTew_keeps (ci : Nat) (c : Clause) (op : TewOp) (rm : Rm) (sc : Word) (b : Box) {e : Ev} (he : r.SameBatches e.run) :
    (evTew ci c op rm sc b e).Keeps r := evGrid_keeps b (fun e _ _ he => e.note_keeps he ..) he

theorem evTred_keeps (ci : Nat) (c : Clause) (mx col : Bool) (b : Box) {e : Ev} (he : r.SameBatches e.run) : (evTred ci c mx col b e).Keeps r :=
  evGrid_keeps b (fun e _ _ he => e.note_keeps he ..) he

theorem Ev.record_keeps (y : Sys) {e : Ev} (he : r.SameBatches e.run) (ci : Nat) (m : TcvtMod) (l : Word64) (os : List (Nat × Nat × Nat × Nat)) :
    (e.record y ci m l os).Keeps r := by
  unfold Ev.record
  split
  · exact he
  dsimp only
  generalize (if m.olsp = true then l.toNat % 2 ^ 32 else l.toNat) = d
  split
  · exact he
  refine (e.load_keeps y he ..).bind fun e b0 he => (e.load_keeps y he ..).bind fun e b1 he => EvR.Keeps.bind ?_ fun e c he =>
    (e.load_keeps y he ..).bind fun e cap he => (evList_keeps (fun e x he => ?_) _ he).bind fun e _ he => ?_
  · split
    · exact he
    · exact (e.count_keeps y he ..).bind fun _ _ he => by exact he
  · split
    · exact he
    · exact (e.write_keeps y he ..).bind fun e _ he => e.write_keeps y he ..
  · split
    · exact he
    · split
      · exact he
      · exact Ev.note_keeps (by exact he) ..

theorem evCvt_keeps (y : Sys) (ci : Nat) (c : Clause) (m : TcvtMod) (l : Word64) (b : Box) {e : Ev} (he : r.SameBatches e.run) :
    (evCvt y ci c m l b e).Keeps r := by
  refine (evGrid_keeps b (fun e _ _ he => e.note_keeps he ..) he).bind fun e t he => ?_
  split
  · exact he
  · exact (e.record_keeps y he ..).bind fun _ _ he => by exact he

theorem evCvtPb_keeps (y : Sys) (ci : Nat) (c : Clause) (m : TcvtMod) (l : Word64) (b : Box) {e : Ev} (he : r.SameBatches e.run) :
    (evCvtPb y ci c m l b e).Keeps r := by
  unfold evCvtPb
  split
  · exact he
  refine EvR.Keeps.bind (evList_keeps (fun e i he => evList_keeps (fun e k he => EvR.Keeps.bind ?_ fun e w he =>
    (evList_keeps (fun e z he => ?_) _ he).bind fun e _ he => EvR.Keeps.bind ?_ fun _ _ he => by exact he) _ he) _ he) fun e rows he => ?_
  · split
    · exact (e.load_keeps y he ..).bind fun _ _ he => by exact he
    · exact he
  · split
    · exact e.note_keeps he ..
    · exact he
  · split
    · exact he
    · split
      · exact he
      · exact e.note_keeps he ..
  · dsimp only
    split
    · exact (e.record_keeps y he ..).bind fun _ _ he => by exact he
    · exact he

theorem Ev.strew_keeps {e : Ev} (he : r.SameBatches e.run) (ci : Nat) (c : Clause) (b : Box) : (e.strew ci c b).Keeps r :=
  evGrid_keeps b (fun e i j he => (Ev.once_keeps he fun e he => by exact e.draw_keeps he ..).bind fun _ _ he => by exact he) he

theorem evClause_keeps (y : Sys) {e : Ev} (he : r.SameBatches e.run) (ci : Nat) : (evClause y e ci).Keeps r := by
  unfold evClause
  dsimp only
  split
  · exact he
  refine EvR.Keeps.bind ?_ fun e t he => EvR.Keeps.bind ?_ fun _ _ he => by exact he
  · split
    · exact evLoad_keeps y _ _ _ _ _ _ (by exact he)
    · exact evLoad_keeps y _ _ _ _ _ _ (by exact he)
    · exact evLeaf_keeps y _ _ _ _ _ (by exact he)
    · exact evLeaf_keeps y _ _ _ _ _ (by exact he)
    · exact evMap_keeps _ _ (by exact he)
    · exact evMma_keeps _ _ _ _ (by exact he)
    · exact evTew_keeps _ _ _ _ _ _ (by exact he)
    · exact evTred_keeps _ _ _ _ _ (by exact he)
    · split
      · exact evCvtPb_keeps y _ _ _ _ _ (by exact he)
      · exact evCvt_keeps y _ _ _ _ _ (by exact he)
    · exact he
  · split
    · exact e.strew_keeps he ..
    · exact he

theorem evAll_keeps (y : Sys) (is : List Nat) {e : Ev} (he : r.SameBatches e.run) : (evAll y is e).Keeps r := by
  induction is generalizing e with
  | nil => exact he
  | cons i is ih => exact (evClause_keeps y he i).bind fun e _ he => ih he

theorem evWrite_keeps (y : Sys) {e : Ev} (he : r.SameBatches e.run) (d : Demand) (t : TileV) : (evWrite y e d t).Keeps r := by
  have hgo : EvR.Keeps r ((evList (fun e (w : CellW) => e.write y d.root w.row w.col w.sp w.addr w.n w.v w.mask)
      (demandWrites (clauseAt e.g d.root) d t) e).bind fun e _ => .ok e ()) :=
    (evList_keeps (fun e w he => e.write_keeps y he ..) _ he).bind fun _ _ he => by exact he
  unfold evWrite
  dsimp only
  split
  · exact he.trans (.of_blocks rfl)
  · split
    · exact he
    · exact hgo
  · exact hgo

end

/-! ## A demand -/

/-- The run a step of a demand leads to. -/
def DemandR.run : DemandR → Run
  | .more r _ | .done r _ _ | .fault r _ _ | .pause r _ _ _ => r

theorem sameBatches_evDemand (y : Sys) (r : Run) (bid : Nat) (d : Demand) : r.SameBatches (evDemand y r bid d).run := by
  unfold evDemand
  dsimp only
  split
  · generalize hx : evAll y _ _ = x
    have h : x.Keeps r := by
      rw [← hx]
      exact evAll_keeps y _ (.refl r)
    cases x <;> exact h
  · generalize hx : evWrite y _ _ _ = x
    have h : x.Keeps r := by
      rw [← hx]
      exact evWrite_keeps y (.refl r) _ _
    cases x <;> exact h

end Sys2Proof.Machine
end

section
/-! The steps of a stream's batches (R326 to R338): one step of the oldest batch, its end, its faults, and the delivery of the stream's trap. -/

namespace Sys2Proof.Machine

/-! ## A block with its batches changed -/

/-- A block stands changed; the other blocks, memory and the waves are as they were. -/
structure Run.BlockBecomes (r t : Run) (bid : Nat) (z : Block) : Prop where
  block : t.block bid = z
  others : ∀ k, k ≠ bid → t.block k = r.block k
  mem : t.mem = r.mem
  waves : t.waves = r.waves

section
variable {r t : Run} {bid : Nat} {b z : Block}

theorem Run.block_of_get? (hb : r.blocks.get? bid = some b) : r.block bid = b := by rw [Run.block, hb]; rfl

theorem Run.blockBecomes_onBlock (hb : r.blocks.get? bid = some b) (f : Block → Block) : r.BlockBecomes (r.onBlock bid f) bid (f b) where
  block := by rw [Run.block_onBlock r bid f b hb, Run.block_of_get? hb]
  others k hk := Run.block_onBlock_of_ne r bid k f hk
  mem := rfl
  waves := rfl

theorem Run.BlockBecomes.after (h : t.BlockBecomes u bid z) (hblocks : t.blocks = r.blocks) (hmem : t.mem = r.mem) (hwaves : t.waves = r.waves) :
    r.BlockBecomes u bid z where
  block := h.block
  others k hk := (h.others k hk).trans (by rw [Run.block, Run.block, hblocks])
  mem := h.mem.trans hmem
  waves := h.waves.trans hwaves

/-- Changes that make the same of a block are the same. -/
theorem Run.onBlock_congr (hz : t.blocks.get? bid = some z) {f g : Block → Block} (h : f z = g z) : t.onBlock bid f = t.onBlock bid g := by
  unfold Run.onBlock Tbl.upd
  rw [hz]
  simp only [h]

end

/-! ## The oldest batch -/

/-- The oldest batch is at hand: no spill comes before it, and no late fault holds the stream. -/
structure Block.Oldest (b : Block) (x : Batch) (rest : List Batch) : Prop where
  batches : b.batches = x :: rest
  spill : b.spill = none

section
variable {b : Block} {x : Batch} {rest : List Batch}

theorem Block.Oldest.work (h : b.Oldest x rest) (hst : x.st = .closed) (hs : ∀ f, b.strap = some f → f.late = false) : b.work = some (false, x) := by
  have hlate : b.strap.any (fun t => t.late) = false := by
    cases hb : b.strap with
    | none => rfl
    | some f => exact hs f hb
  unfold Block.work
  rw [h.spill, h.batches]
  simp only [Option.filter_none, hlate, Bool.false_eq_true, if_false, List.head?_cons]
  rw [Option.filter_some_pos (by simp [hst])]
  rfl

theorem Block.onWork_oldest (hb : b.batches = x :: rest) (f : Batch → Batch) : b.onWork false f = { b with batches := f x :: rest } := by
  unfold Block.onWork
  rw [if_neg Bool.false_ne_true, hb, List.mapIdx_cons]
  refine congrArg (fun l => { b with batches := f x :: l }) ?_
  exact List.mapIdx_eq_iff.2 fun i => by simp

end

section
variable {pre post : List Demand} {d : Demand}

theorem find?_demand (hpre : ∀ z ∈ pre, z.done = true) (hd : d.done = false) : (pre ++ d :: post).find? (fun d => !d.done) = some d := by
  rw [List.find?_append, List.find?_eq_none.2 (fun z hz => by rw [hpre z hz]; exact Bool.false_ne_true), Option.none_or, List.find?_cons_of_pos]
  rw [hd]; rfl

theorem putDemand_append (hpre : ∀ z ∈ pre, z.done = true) (hd : d.done = false) (d' : Demand) :
    putDemand d' (pre ++ d :: post) = pre ++ d' :: post := by
  induction pre with
  | nil => rw [List.nil_append, putDemand, hd]; rfl
  | cons z pre ih =>
    rw [List.cons_append, putDemand, hpre z List.mem_cons_self, if_pos rfl, ih fun z hz => hpre z (List.mem_cons_of_mem _ hz)]
    rfl

end

/-! ## One step of the evaluation -/

/-- The first demand that is not done is replaced, and its batch changed. -/
def Run.putFirst (r : Run) (bid : Nat) (d : Demand) (f : Batch → Batch) : Run :=
  r.onBlock bid (fun b => b.onWork false (fun x => f { x with demands := putDemand d x.demands }))

/-- What a step of a demand makes of the run. -/
def DemandR.settle (bid : Nat) : DemandR → Run
  | .more r d => r.putFirst bid d id
  | .done r d fl => r.putFirst bid d (fun x => { x with flags := x.flags ||| fl })
  | .fault r d f => r.putFirst bid d (fun x => { x with st := .faulted f })
  | .pause r d f pages => r.putFirst bid d (fun x => { x with st := .paused f pages })

section
variable {y : Sys} {r : Run} {bid : Nat} {x : Batch} (hw : (r.block bid).work = some (false, x)) (hh : r.evalHalted bid x = false)
include hw hh

theorem batchRun_over (hf : x.demands.find? (fun d => !d.done) = none) :
    batchRun y r bid = r.onBlock bid (fun b => b.onWork false (fun x => { x with st := .evaluated })) := by
  unfold batchRun
  simp only [hw, hh, hf, Bool.false_eq_true, if_false]

variable {d : Demand} (hf : x.demands.find? (fun d => !d.done) = some d)
include hf

theorem batchRun_answer {f : BatchFault} {n : Nat} (ha : d.asked = some (f, n)) : batchRun y r bid =
    (releaseOut r.free.2 d.far.toList).putFirst bid { d with log := d.log ++ [r.free.1.toNat % 2 ^ (8 * n)], asked := none, far := none } id := by
  unfold batchRun
  simp only [hw, hh, hf, ha, Bool.false_eq_true, if_false]
  rfl

theorem batchRun_waits (ha : d.asked = none) (hwalk : r.walkerFree (bid / 4) = false) : batchRun y r bid = r := by
  unfold batchRun
  simp only [hw, hh, hf, ha, hwalk, Bool.false_eq_true, if_false, Bool.not_false, if_true]

theorem batchRun_demand (ha : d.asked = none) (hwalk : r.walkerFree (bid / 4) = true) : batchRun y r bid = (evDemand y r bid d).settle bid := by
  unfold batchRun
  simp only [hw, hh, hf, ha, hwalk, Bool.false_eq_true, if_false, Bool.not_true]
  cases evDemand y r bid d <;> rfl

end

theorem releaseOut_keeps {α : Type} (g : Run → α) (hg : ∀ (r : Run) ps xs, g { r with ports := ps, out := xs } = g r) (r : Run) (ls : List FarLane) :
    g (releaseOut r ls) = g r :=
  Run.foldl_keeps g (fun r x => by split; exacts [hg r _ _, rfl]) ls r

/-- The first demand replaced in a run whose block has the batches of before. -/
theorem Run.putFirst_eq {t : Run} {bid : Nat} {z : Block} (hz : t.blocks.get? bid = some z) {x : Batch} {rest : List Batch}
    (hb : z.batches = x :: rest) {pre post : List Demand} {d : Demand} (hx : x.demands = pre ++ d :: post) (hpre : ∀ z ∈ pre, z.done = true)
    (hd : d.done = false) (d' : Demand) (f : Batch → Batch) :
    t.putFirst bid d' f = t.onBlock bid (fun u => { u with batches := f { x with demands := pre ++ d' :: post } :: rest }) := by
  refine Run.onBlock_congr hz ?_
  rw [Block.onWork_oldest hb, hx, putDemand_append hpre hd]

/-! ## Words of an accumulator -/

theorem get_foldl_accSet (n : Nat) (w : Nat × Nat → Word) (cells : List (Nat × Nat)) (hcells : ∀ x ∈ cells, x.1 < 64 ∧ x.2 < 64) (k : Core)
    (m : Nat) {row col : Nat} (hr : row < 64) (hc : col < 64) :
    SMap.get 0 (cells.foldl (fun k x => k.accSet n x.1 x.2 (w x)) k).acc (accKey m row col) =
      if m = n ∧ (row, col) ∈ cells then w (row, col) else SMap.get 0 k.acc (accKey m row col) := by
  induction cells generalizing k with
  | nil => simp
  | cons x cells ih =>
    obtain ⟨hx1, hx2⟩ := hcells x List.mem_cons_self
    rw [List.foldl_cons, ih (fun z hz => hcells z (List.mem_cons_of_mem _ hz))]
    have hset : SMap.get 0 (k.accSet n x.1 x.2 (w x)).acc (accKey m row col) =
        if m = n ∧ (row, col) = x then w x else SMap.get 0 k.acc (accKey m row col) := by
      simp only [Core.accSet, SMap.get_set, accKey_inj hr hc hx1 hx2, Prod.ext_iff]
    rw [hset]
    by_cases htail : m = n ∧ (row, col) ∈ cells
    · rw [if_pos htail, if_pos ⟨htail.1, List.mem_cons_of_mem _ htail.2⟩]
    · rw [if_neg htail]
      by_cases hhead : m = n ∧ (row, col) = x
      · rw [if_pos hhead, if_pos ⟨hhead.1, List.mem_cons.2 (.inl hhead.2)⟩, hhead.2]
      · rw [if_neg hhead, if_neg]
        rintro ⟨hm, hmem⟩
        rcases List.mem_cons.1 hmem with h | h
        · exact hhead ⟨hm, h⟩
        · exact htail ⟨hm, h⟩

theorem mem_writeCells_acc (c : Clause) (n : Nat) (g : Region) (row col : Nat) : (row, col) ∈ writeCells c (.acc n) g ↔
    g.row0 ≤ row ∧ row < g.row0 + g.rows ∧ g.col0 ≤ col ∧ col < g.col0 + g.cols := by
  have hcells : writeCells c (.acc n) g = g.box.rowList.flatMap (fun i => g.box.colList.map (fun j => (i, j))) := by
    rw [Box.rowList, Box.colList, List.flatMap_map]
    simp only [List.map_map]
    rfl
  rw [hcells, List.mem_flatMap]
  simp only [List.mem_map, Prod.mk.injEq, Box.mem_rowList, Box.mem_colList, Region.box]
  constructor
  · rintro ⟨i, hi, j, hj, rfl, rfl⟩
    exact ⟨hi.1, hi.2, hj.1, hj.2⟩
  · rintro ⟨h1, h2, h3, h4⟩
    exact ⟨row, ⟨h1, h2⟩, col, ⟨h3, h4⟩, rfl, rfl⟩

/-- A demand of an accumulator whose values are at hand writes them in one step. -/
theorem evDemand_acc (y : Sys) (r : Run) (bid : Nat) {d : Demand} {v : TileV} {fl n : Nat} (hk : d.kept = some (v, fl)) (ht : d.target = .acc n) :
    evDemand y r bid d = .done (r.onCore (bid / 4) (fun k => (writeCells (clauseAt (r.block bid).clauses d.root) (.acc n) d.region).foldl
        (fun k x => k.accSet n x.1 x.2 (accWord (clauseAt (r.block bid).clauses d.root).ty (v.elem x.1 x.2))) k))
      { d with done := true, log := [], mark := 0, news := [], sent := r.clk } fl := by
  unfold evDemand evWrite
  simp only [hk, ht]
  rfl

end Sys2Proof.Machine
end

section
/-! The steps of a stream's batches, settled (R326 to R338, R355 to R380, R386). -/

namespace Sys2Proof.Machine

/-- A device on which one block stands changed, and the waves and memory are as they were. -/
def BatchStep (s t : State) (bid : Nat) (z : Block) : Prop :=
  (t.sys = s.sys ∧ t.run.mem = s.run.mem ∧ ∀ k, k ≠ bid → t.run.block k = s.run.block k) ∧ t.run.waves = s.run.waves ∧ t.run.block bid = z

theorem Run.BlockBecomes.step {s : State} {u : Run} {bid : Nat} {z : Block} (h : s.run.BlockBecomes u bid z) : BatchStep s { s with run := u } bid z :=
  ⟨⟨rfl, h.mem, h.others⟩, h.waves, h.block⟩

section
variable {s : State} {bid : Nat} {b : Block} (hb : s.run.blocks.get? bid = some b) {x : Batch} {rest : List Batch}
include hb

/-! ## Evaluation -/

section
variable (hold : b.Oldest x rest) (hst : x.st = .closed) (hs : ∀ f, b.strap = some f → f.late = false) (hh : s.run.evalHalted bid x = false)
include hold hst hs hh

omit hh in
theorem evaluate_work : (s.run.block bid).work = some (false, x) := by
  rw [Run.block_of_get? hb]
  exact hold.work hst hs

theorem evaluate_over (hdone : ∀ d ∈ x.demands, d.done = true) : Completes (exec (.batchEvaluate bid) s) (fun t =>
    BatchStep s t bid { b with batches := { x with st := .evaluated } :: rest }) := by
  have hfind : x.demands.find? (fun d => !d.done) = none := List.find?_eq_none.2 fun d hd => by rw [hdone d hd]; exact Bool.false_ne_true
  have hbecomes := Run.blockBecomes_onBlock hb (fun b => b.onWork false (fun x => { x with st := .evaluated }))
  rw [Block.onWork_oldest hold.batches, ← batchRun_over (y := s.sys) (evaluate_work hb hold hst hs) hh hfind] at hbecomes
  exact ⟨_, rfl, hbecomes.step⟩

variable {pre post : List Demand} {d : Demand} (hx : x.demands = pre ++ d :: post) (hpre : ∀ z ∈ pre, z.done = true) (hd : d.done = false)
include hx hpre hd

omit hb hold hst hs hh in
theorem evaluate_find : x.demands.find? (fun d => !d.done) = some d := by rw [hx]; exact find?_demand hpre hd

theorem evaluate_answer {f : BatchFault} {n : Nat} (ha : d.asked = some (f, n)) : Completes (exec (.batchEvaluate bid) s) (fun t =>
    ∃ v, v < 2 ^ (8 * n) ∧ BatchStep s t bid
      { b with batches := { x with demands := pre ++ { d with log := d.log ++ [v], asked := none, far := none } :: post } :: rest }) := by
  have hrun := batchRun_answer (y := s.sys) (evaluate_work hb hold hst hs) hh (evaluate_find hx hpre hd) ha
  have hkeep {α : Type} (g : Run → α) (hg : ∀ (r : Run) ps xs, g { r with ports := ps, out := xs } = g r) :
      g (releaseOut s.run.free.2 d.far.toList) = g s.run.free.2 := releaseOut_keeps g hg _ _
  have hblocks : (releaseOut s.run.free.2 d.far.toList).blocks = s.run.blocks := hkeep Run.blocks fun _ _ _ => rfl
  have hbecomes : s.run.BlockBecomes (batchRun s.sys s.run bid) bid { b with batches := { x with demands :=
      pre ++ { d with log := d.log ++ [s.run.free.1.toNat % 2 ^ (8 * n)], asked := none, far := none } :: post } :: rest } := by
    rw [hrun, Run.putFirst_eq (by rw [hblocks, hb]) hold.batches hx hpre hd]
    exact (Run.blockBecomes_onBlock (by rw [hblocks, hb]) _).after hblocks (hkeep Run.mem fun _ _ _ => rfl) (hkeep Run.waves fun _ _ _ => rfl)
  exact ⟨_, rfl, _, Nat.mod_lt _ (Nat.two_pow_pos _), hbecomes.step⟩

theorem evaluate_waits (ha : d.asked = none) (hwalk : s.run.walkerFree (bid / 4) = false) : exec (.batchEvaluate bid) s = .next s := by
  have hrun := batchRun_waits (y := s.sys) (evaluate_work hb hold hst hs) hh (evaluate_find hx hpre hd) ha hwalk
  change Host.Outcome.next { s with run := batchRun s.sys s.run bid } = .next s
  rw [hrun]

/-- A step of the first demand that is not done, with what its batch becomes. -/
theorem evaluate_put (ha : d.asked = none) (hwalk : s.run.walkerFree (bid / 4) = true) {r : Run} {d' : Demand} {f : Batch → Batch}
    (hrun : (evDemand s.sys s.run bid d).run = r) (hsettle : (evDemand s.sys s.run bid d).settle bid = r.putFirst bid d' f) :
    exec (.batchEvaluate bid) s =
      .next { s with run := r.onBlock bid (fun u => { u with batches := f { x with demands := pre ++ d' :: post } :: rest }) } := by
  obtain ⟨z, hz, hzb⟩ := (hrun ▸ sameBatches_evDemand s.sys s.run bid d : s.run.SameBatches r).get? hb
  have hput := Run.putFirst_eq hz (hzb.trans hold.batches) hx hpre hd d' f
  have hstep := batchRun_demand (y := s.sys) (evaluate_work hb hold hst hs) hh (evaluate_find hx hpre hd) ha hwalk
  rw [← hput, ← hsettle, ← hstep]
  rfl

theorem evaluate_acc (ha : d.asked = none) (hwalk : s.run.walkerFree (bid / 4) = true) {v : TileV} {fl n : Nat} (hk : d.kept = some (v, fl))
    (ht : d.target = .acc n) (hrows : d.region.row0 + d.region.rows ≤ 64) (hcols : d.region.col0 + d.region.cols ≤ 64) :
    Completes (exec (.batchEvaluate bid) s) (fun t => (t.sys = s.sys ∧ t.run.mem = s.run.mem ∧ ∀ k, k ≠ bid → t.run.block k = s.run.block k) ∧
      t.run.waves = s.run.waves ∧
      (∃ z, t.run.block bid = { b with batches := z :: rest } ∧ z.st = .closed ∧ z.flags = x.flags ||| fl ∧
        ∃ d' : Demand, z.demands = pre ++ d' :: post ∧ d'.done = true ∧ d'.root = d.root) ∧
      ∀ m row col, row < 64 → col < 64 → t.run.accGet (bid / 4) m row col =
        if m = n ∧ d.region.row0 ≤ row ∧ row < d.region.row0 + d.region.rows ∧ d.region.col0 ≤ col ∧ col < d.region.col0 + d.region.cols
        then accWord (clauseAt b.clauses d.root).ty (v.elem row col) else s.run.accGet (bid / 4) m row col) := by
  have hdemand := evDemand_acc s.sys s.run bid hk ht
  have hword := fun (m row col : Nat) => get_foldl_accSet n (fun z => accWord (clauseAt b.clauses d.root).ty (v.elem z.1 z.2))
    (writeCells (clauseAt b.clauses d.root) (.acc n) d.region) (fun z hz => by
      have := (mem_writeCells_acc _ n d.region z.1 z.2).1 hz
      omega) (s.run.core (bid / 4)) m (row := row) (col := col)
  rw [Run.block_of_get? hb] at hdemand
  generalize hset : (fun k : Core => (writeCells (clauseAt b.clauses d.root) (.acc n) d.region).foldl
    (fun k x => k.accSet n x.1 x.2 (accWord (clauseAt b.clauses d.root).ty (v.elem x.1 x.2))) k) = set at hdemand
  have hput := evaluate_put hb hold hst hs hh hx hpre hd ha hwalk (f := fun z => { z with flags := z.flags ||| fl })
    (congrArg DemandR.run hdemand) (by rw [hdemand]; rfl)
  obtain ⟨hblock, hothers, hmem, hwaves⟩ := (Run.blockBecomes_onBlock (r := s.run.onCore (bid / 4) set) hb (fun u => { u with batches :=
    { x with demands := pre ++ { d with done := true, log := [], mark := 0, news := [], sent := s.run.clk } :: post, flags := x.flags ||| fl } ::
      rest })).after (r := s.run) rfl rfl rfl
  refine ⟨_, hput, ⟨rfl, hmem, hothers⟩, hwaves, ⟨_, hblock, hst, rfl, _, rfl, rfl, rfl⟩, fun m row col hr hc => ?_⟩
  have hget := hword m row col hr hc
  simp only [mem_writeCells_acc] at hget
  refine Eq.trans ?_ hget
  have hcore : (s.run.onCore (bid / 4) set).core (bid / 4) = set (s.run.core (bid / 4)) := by rw [Run.core_onCore, if_pos rfl]
  have hval : set (s.run.core (bid / 4)) = (writeCells (clauseAt b.clauses d.root) (.acc n) d.region).foldl
      (fun k x => k.accSet n x.1 x.2 (accWord (clauseAt b.clauses d.root).ty (v.elem x.1 x.2))) (s.run.core (bid / 4)) := by rw [← hset]
  exact congrArg (fun k : Core => SMap.get 0 k.acc (accKey m row col)) (hcore.trans hval)

end

/-! ## Completion -/

omit hb in
/-- The wave that leads a block is in the table. -/
theorem get?_of_controlWave {r : Run} {w : Nat} (h : r.controlWave bid = some w) : ∃ z, r.waves.get? w = some z := by
  have pick (f : Option (Nat × Wave) → Nat × Wave → Option (Nat × Wave)) (hf : ∀ o e, f o e = o ∨ f o e = some e) (es : List (Nat × Wave))
      (o : Option (Nat × Wave)) : es.foldl f o = o ∨ ∃ e ∈ es, es.foldl f o = some e := by
    induction es generalizing o with
    | nil => exact .inl rfl
    | cons e es ih =>
      rw [List.foldl_cons]
      rcases ih (f o e) with h | ⟨z, hz, h⟩
      · rw [h]
        exact (hf o e).imp id fun h => ⟨e, List.mem_cons_self, h⟩
      · exact .inr ⟨z, List.mem_cons_of_mem _ hz, h⟩
  obtain ⟨f, hfold, hf⟩ : ∃ f : Option (Nat × Wave) → Nat × Wave → Option (Nat × Wave),
      r.controlWave bid = ((r.wavesOf bid).foldl f none).map (·.1) ∧ ∀ o e, f o e = o ∨ f o e = some e := by
    refine ⟨_, rfl, fun o e => ?_⟩
    cases o with
    | none => exact .inr rfl
    | some x =>
      dsimp only
      split
      · exact .inr rfl
      · exact .inl rfl
  rw [hfold] at h
  rcases pick f hf (r.wavesOf bid) none with hn | ⟨e, he, hs⟩
  · rw [hn] at h
    exact nomatch h
  · rw [hs] at h
    have hw : e.1 = w := Option.some.inj h
    have hmem : (w, e.2) ∈ r.waves := hw ▸ (List.mem_filter.1 he).1
    cases hz : r.waves.get? w with
    | none => exact absurd hmem (Tbl.not_mem_of_get?_eq_none hz _)
    | some z => exact ⟨z, rfl⟩

theorem batchDone_oldest (hold : b.Oldest x rest) {r : Run} (hrun : s.run.onBlock bid (fun z => z.onWork false Batch.acked) = r) :
    batchDone s.run bid = if x.acked.performed then
        (r.orControl bid x.flags).onBlock bid (fun z => ({ z with batches := rest, lastDone := x.no } : Block).reclaim)
      else r := by
  have hr : (r.block bid).batches = x.acked :: rest := by
    rw [← hrun, Run.block_onBlock _ _ _ _ hb, Run.block_of_get? hb, Block.onWork_oldest hold.batches]
  unfold batchDone
  simp only [Run.block_of_get? hb, hold.spill, Option.filter_none, hrun]
  change (match (r.block bid).batches with
    | x :: t => if x.performed then
        (r.orControl bid x.flags).onBlock bid (fun z => ({ z with batches := t, lastDone := x.no } : Block).reclaim) else r
    | [] => r) = _
  rw [hr]
  rfl

omit hb in
theorem ackFirst_none {ds : List Demand} (h : ∀ d ∈ ds, d.out = []) : ackFirst ds = ds := by
  induction ds with
  | nil => rfl
  | cons d ds ih => rw [ackFirst, if_pos (h d List.mem_cons_self), ih fun z hz => h z (List.mem_cons_of_mem _ hz)]

omit hb in
theorem ackFirst_append {pre post : List Demand} {d : Demand} (hpre : ∀ z ∈ pre, z.out = []) (hd : d.out ≠ []) :
    ackFirst (pre ++ d :: post) = pre ++ { d with out := [] } :: post := by
  induction pre with
  | nil => rw [List.nil_append, ackFirst, if_neg hd]; rfl
  | cons z pre ih =>
    rw [List.cons_append, ackFirst, if_pos (hpre z List.mem_cons_self), ih fun z hz => hpre z (List.mem_cons_of_mem _ hz)]
    rfl

theorem complete_acks (hold : b.Oldest x rest) {pre post : List Demand} {d : Demand} (hx : x.demands = pre ++ d :: post)
    (hpre : ∀ z ∈ pre, z.out = []) (hd : d.out ≠ []) (hpost : ∃ z ∈ post, z.out ≠ []) : Completes (exec (.batchComplete bid) s) (fun t =>
      BatchStep s t bid { b with batches := { x with demands := pre ++ { d with out := [] } :: post } :: rest }) := by
  have hacked : x.acked = { x with demands := pre ++ { d with out := [] } :: post } := by rw [Batch.acked, hx, ackFirst_append hpre hd]
  have hnot : ¬x.acked.performed = true := by
    obtain ⟨z, hz, hne⟩ := hpost
    rw [hacked, Batch.performed, Bool.and_eq_true, List.all_eq_true]
    exact fun h => hne (of_decide_eq_true (h.2 z (List.mem_append_right _ (List.mem_cons_of_mem _ hz))))
  have hdone := batchDone_oldest hb hold rfl
  rw [if_neg hnot] at hdone
  have hbecomes := Run.blockBecomes_onBlock hb (fun z => z.onWork false Batch.acked)
  rw [Block.onWork_oldest hold.batches, hacked, ← hdone] at hbecomes
  exact ⟨_, rfl, hbecomes.step⟩

omit hb in
/-- Flags join those of the wave that leads a block, and nothing else changes. -/
theorem orControl_joins (r : Run) (bid fl : Nat) : (r.orControl bid fl).blocks = r.blocks ∧ (r.orControl bid fl).mem = r.mem ∧
    (∀ w, r.controlWave bid = some w → ((r.orControl bid fl).wave w).fpsr = (r.wave w).fpsr ||| BitVec.ofNat 32 fl) ∧
    ∀ w, r.controlWave bid ≠ some w → (r.orControl bid fl).wave w = r.wave w := by
  unfold Run.orControl
  cases hc : r.controlWave bid with
  | none => exact ⟨rfl, rfl, nofun, fun _ _ => rfl⟩
  | some v =>
    obtain ⟨z, hz⟩ := get?_of_controlWave hc
    refine ⟨rfl, rfl, fun w hw => ?_, fun w hw => ?_⟩
    · rw [← Option.some.inj hw, Run.wave_onWave r v _ z hz]
    · exact Run.wave_onWave_of_ne r v w _ fun h => hw (congrArg some h.symm)

theorem complete_ends (hold : b.Oldest x rest) (hst : x.st = .evaluated) (hout : ∀ d ∈ x.demands, d.out = []) :
    Completes (exec (.batchComplete bid) s) (fun t => (t.sys = s.sys ∧ t.run.mem = s.run.mem ∧ ∀ k, k ≠ bid → t.run.block k = s.run.block k) ∧
      (t.run.block bid).batches = rest ∧ (t.run.block bid).lastDone = x.no ∧ (t.run.block bid).handles = b.handles ∧
      (∀ w, s.run.controlWave bid = some w → (t.run.wave w).fpsr = (s.run.wave w).fpsr ||| BitVec.ofNat 32 x.flags) ∧
      ∀ w, s.run.controlWave bid ≠ some w → t.run.wave w = s.run.wave w) := by
  have hperf : x.acked.performed = true := by
    have hacked : x.acked = x := by rw [Batch.acked, ackFirst_none hout]
    rw [hacked, Batch.performed, hst, Bool.and_eq_true, List.all_eq_true]
    exact ⟨rfl, fun d hd => decide_eq_true (hout d hd)⟩
  generalize hr : s.run.onBlock bid (fun z => z.onWork false Batch.acked) = r
  have hdone := batchDone_oldest hb hold hr
  rw [if_pos hperf] at hdone
  have hget : r.blocks.get? bid = some (b.onWork false Batch.acked) := by
    rw [← hr, Run.onBlock_blocks, Tbl.get?_upd, if_pos rfl, hb]
    rfl
  have hkept : (b.onWork false Batch.acked).handles = b.handles := by rw [Block.onWork_oldest hold.batches]
  have hfirst : s.run.BlockBecomes r bid (b.onWork false Batch.acked) := by
    rw [← hr]
    exact Run.blockBecomes_onBlock hb _
  have hwave (w : Nat) : r.wave w = s.run.wave w := by rw [Run.wave, Run.wave, hfirst.waves]
  have hlead : r.controlWave bid = s.run.controlWave bid := by rw [← hr]; rfl
  obtain ⟨hblocks, hmem, hjoin, hsame⟩ := orControl_joins r bid x.flags
  have hsecond := Run.blockBecomes_onBlock (r := r.orControl bid x.flags) (by rw [hblocks, hget])
    (fun z => ({ z with batches := rest, lastDone := x.no } : Block).reclaim)
  rw [← hdone] at hsecond
  have hjoined (w : Nat) : (batchDone s.run bid).wave w = (r.orControl bid x.flags).wave w := by rw [Run.wave, Run.wave, hsecond.waves]
  rw [hlead] at hjoin hsame
  refine ⟨_, rfl, ⟨rfl, (hsecond.mem.trans hmem).trans hfirst.mem, fun k hk => ?_⟩, congrArg Block.batches hsecond.block,
    congrArg Block.lastDone hsecond.block, (congrArg Block.handles hsecond.block).trans hkept, fun w hw => ?_, fun w hw => ?_⟩
  · have hother : (r.orControl bid x.flags).block k = r.block k := by rw [Run.block, Run.block, hblocks]
    exact ((hsecond.others k hk).trans hother).trans (hfirst.others k hk)
  · have h := hjoin w hw
    rw [← hjoined, hwave] at h
    exact h
  · exact ((hjoined w).trans (hsame w hw)).trans (hwave w)

/-! ## Faults and pauses -/

/-- A demand of a batch that fails: one that is not complete will be evaluated again. -/
def Demand.failed (d : Demand) : Demand := if d.done && d.out = [] then d else d.anew

/-- A batch that has failed in a fault. -/
def Batch.failedWith (x : Batch) (f : BatchFault) : Batch := { x with st := .failed f, demands := x.demands.map Demand.failed }

theorem fault_fails (hold : b.Oldest x rest) {f : BatchFault} (hst : x.st = .faulted f) : Completes (exec (.clauseFault bid none) s) (fun t =>
    BatchStep s t bid { b with batches := x.failedWith f :: rest }) := by
  have hfail : x.fail none = x.failedWith f := by
    unfold Batch.fail
    rw [hst]
    rfl
  have hrun : clauseFail s.run bid none = s.run.onBlock bid (fun b => { b with batches := x.failedWith f :: rest }) := by
    refine Run.onBlock_congr hb ?_
    rw [hold.spill, Option.any_none, Block.onWork_oldest hold.batches, hfail, hold.spill]
  refine ⟨{ s with run := clauseFail s.run bid none }, rfl, ?_⟩
  rw [hrun]
  exact (Run.blockBecomes_onBlock hb _).step

omit hb in
/-- What a demand of a failed batch becomes: one that is complete stays, one that is not done will be evaluated again. -/
theorem demand_failed (d : Demand) : (d.done = true → d.out = [] → d.failed = d) ∧ (d.done = false → d.failed.done = false ∧ d.failed.log = [] ∧
    d.failed.resv = d.reserved ∧ d.failed.kept = (if d.self then d.kept else none)) := by
  unfold Demand.failed
  refine ⟨fun h1 h2 => if_pos (by rw [h1, h2]; rfl), fun h => ?_⟩
  rw [h, Bool.false_and, if_neg Bool.false_ne_true]
  exact ⟨rfl, rfl, rfl, rfl⟩

theorem pause_ends (hold : b.Oldest x rest) {f : BatchFault} {ps : List Nat} (hst : x.st = .paused f ps)
    (hrest : ∀ z ∈ rest, ∀ g qs, z.st ≠ .paused g qs) : Completes (exec (.evalResume bid) s) (fun t =>
      BatchStep s t bid { b with batches := { x with st := .closed } :: rest }) := by
  have hfirst : x.resume = { x with st := .closed } := by rw [Batch.resume, hst]
  have hothers : rest.map Batch.resume = rest := by
    refine (List.map_congr_left fun z hz => ?_).trans (List.map_id _)
    cases hz' : z.st with
    | paused g qs => exact absurd hz' (hrest z hz g qs)
    | closed | evaluated | faulted | failed => rw [Batch.resume, hz']; rfl
  have hbecomes := Run.blockBecomes_onBlock hb (fun z => { z with batches := z.batches.map Batch.resume, spill := z.spill.map Batch.resume })
  have hz : ({ b with batches := b.batches.map Batch.resume, spill := b.spill.map Batch.resume } : Block) =
      { b with batches := { x with st := .closed } :: rest } := by
    rw [hold.batches, hold.spill, List.map_cons, hfirst, hothers, Option.map_none, ← hold.spill]
  rw [hz] at hbecomes
  exact ⟨_, rfl, hbecomes.step⟩

/-! ## The stream's trap -/

variable {f : StreamTrap} (hf : b.strap = some f) (hd : f.delivered = none)
include hf hd

theorem trap_toInn (hdeleg : (delegable f.cls && (s.run.ctx b.ctx).tdeleg.getLsbD f.cls) = false) : Completes (exec (.streamTrapDelivery bid) s) (fun t =>
    BatchStep s t bid { b with strap := some { f with delivered := some (streamId bid) } } ∧
    ∃ bs, bs.length = 512 ∧ t.run.faultq = s.run.faultq ++ [.stream bid bs]) := by
  have hrun : streamDeliver s.sys s.run bid =
      ({ s.run with faultq := s.run.faultq ++ [.stream bid (f.bytes (s.run.peek s.sys (streamId bid) f.epc))] } : Run).onBlock bid
        (fun z => { z with strap := some { f with delivered := some (streamId bid) } }) := by
    unfold streamDeliver
    simp only [Run.block_of_get? hb, hf, hd, hdeleg, Option.isSome_none, Bool.false_eq_true, if_false, Bool.not_false, if_true]
    cases s.run.controlWave bid <;> rfl
  have hbecomes := (Run.blockBecomes_onBlock (r := { s.run with faultq := _ }) hb
    (fun z => { z with strap := some { f with delivered := some (streamId bid) } })).after (r := s.run) rfl rfl rfl
  refine ⟨{ s with run := streamDeliver s.sys s.run bid }, rfl, ?_⟩
  rw [hrun]
  exact ⟨hbecomes.step, _, length_sideEntry .., rfl⟩

theorem trap_taken (hdeleg : (delegable f.cls && (s.run.ctx b.ctx).tdeleg.getLsbD f.cls) = true) {w : Nat} {p : Part}
    (hw : s.run.controlWave bid = some w) (hpriv : (s.run.wave w).priv = false) (hinh : (s.run.wave w).inh = false) (hlife : (s.run.wave w).life = .live)
    (hp : (if s.run.cur.wave = w then (s.run.wave w).partAt s.run.cur.lanes else none).orElse (fun _ => (s.run.wave w).nextPart) = some p)
    (hrun : p.park = .run) : Completes (exec (.streamTrapDelivery bid) s) (fun t => t.run =
      (takeTrap s.run w ((s.run.wave w).groupOf p) p.pc (s.run.peek s.sys w p.pc) f.trap).onBlock bid
        (fun z => { z with strap := some { f with delivered := some w } })) := by
  refine ⟨{ s with run := streamDeliver s.sys s.run bid }, rfl, ?_⟩
  have hwith : withdraw s.sys s.run w p = some (s.run, false) := by unfold withdraw; rw [hrun]
  unfold streamDeliver
  simp only [Run.block_of_get? hb, hf, hd, hw, hdeleg, hpriv, hinh, hlife, hp, hwith, Option.isSome_none, Bool.false_eq_true, if_false, Bool.not_true,
    Bool.or_self, ne_eq, not_true_eq_false, decide_false]

end

/-- Settles O43: the steps of a batch by what each makes of the oldest batch of its block, since an evaluation leaves the batches alone; the
values by the elements that an evaluation notes over its box. -/
theorem batchSteps : Obligations.BatchSteps := by
  unfold Obligations.BatchSteps
  intro s bid b hb others
  refine ⟨fun x rest hbatches => ⟨?_, ?_, ?_, ?_, ?_, ?_⟩, ?_, fun c d v sp base rs cs ht hpb => demandWrites_places v ht hpb, fun e ci => ?_⟩
  · intro pre d post hst hspill hs hh hx hpre hd i put set
    have hold : b.Oldest x rest := ⟨hbatches, hspill⟩
    refine ⟨fun f n ha => ?_, fun ha hwalk => evaluate_waits hb hold hst hs hh hx hpre hd ha hwalk, fun ha hwalk => ⟨fun r d' h => ?_,
      fun r d' fl h => ?_, fun r d' f h => ?_, fun r d' f ps h => ?_, fun v fl n hk ht hrows hcols =>
        evaluate_acc hb hold hst hs hh hx hpre hd ha hwalk hk ht hrows hcols⟩⟩
    · refine (evaluate_answer hb hold hst hs hh hx hpre hd ha).imp fun t ⟨v, hv, hothers, hwaves, hblock⟩ => ⟨hothers, hwaves, v, hv, hblock⟩
    · exact evaluate_put hb hold hst hs hh hx hpre hd ha hwalk (f := id) (congrArg DemandR.run h) (by rw [h]; rfl)
    · exact evaluate_put hb hold hst hs hh hx hpre hd ha hwalk (f := fun z => { z with flags := z.flags ||| fl }) (congrArg DemandR.run h) (by rw [h]; rfl)
    · exact evaluate_put hb hold hst hs hh hx hpre hd ha hwalk (f := fun z => { z with st := .faulted f }) (congrArg DemandR.run h) (by rw [h]; rfl)
    · exact evaluate_put hb hold hst hs hh hx hpre hd ha hwalk (f := fun z => { z with st := .paused f ps }) (congrArg DemandR.run h) (by rw [h]; rfl)
  · exact fun hst hspill hs hh hdone => evaluate_over hb ⟨hbatches, hspill⟩ hst hs hh hdone
  · exact fun hst hspill hout => complete_ends hb ⟨hbatches, hspill⟩ hst hout
  · exact fun pre d post hspill hx hpre hd hpost => complete_acks hb ⟨hbatches, hspill⟩ hx hpre hd hpost
  · refine fun f hst hspill => (fault_fails hb ⟨hbatches, hspill⟩ hst).imp fun t ⟨hothers, hwaves, hblock⟩ => ⟨hothers, hwaves,
      x.demands.map Demand.failed, hblock, List.length_map .., fun i d hd => ⟨d.failed, by rw [List.getElem?_map, hd]; rfl, demand_failed d⟩⟩
  · exact fun f ps hst hspill hrest => pause_ends hb ⟨hbatches, hspill⟩ hst hrest
  · intro f hf hd deleg
    refine ⟨fun hdeleg => ?_, fun w p hdeleg hw hpriv hinh hlife hp hrun => ?_⟩
    · exact (trap_toInn hb hf hd hdeleg).imp fun t ⟨⟨hothers, hwaves, hblock⟩, hq⟩ => ⟨hothers, hwaves, hq, hblock⟩
    · exact (trap_taken hb hf hd hdeleg hw hpriv hinh hlife hp hrun).imp fun t ht => ⟨_, f.trap, rfl, rfl, rfl, rfl, ht⟩
  · intro c x hfmt
    refine ⟨fun acc ol ka ma kb mb rest hop hsrc => ⟨evMma_bytes_computes hfmt hop hsrc, evMma_floats_computes hfmt hop hsrc⟩,
      fun op rm sc hop => evTew_computes hfmt hop, fun mx col q m rest depth hop hsrc => evTred_computes hfmt hop hsrc,
      fun m l q z rest hop hsrc hol => ⟨evCvt_computes hfmt hop hsrc hol, fun hpb hfixed => evCvtPb_computes hfmt hop hsrc hol hpb hfixed⟩,
      fun q m rest hop hsrc => evMap_computes hfmt hop hsrc, groupSum_fin, fun ty xs hty => ⟨pbEncode_assigns ty xs, pbEncode_chooses ty xs⟩⟩

end Sys2Proof.Machine
end
